-- ==== Sys2Proof/Word.lean ====
section
/-! DEFINITION. The word types of the Buraeken 9600 (00 R2 to R4) and the plain association list
that the model uses for sparse data. -/

namespace Sys2Proof

/-- A byte of memory. -/
abbrev Byte := BitVec 8
/-- A 32-bit register. -/
abbrev W32 := BitVec 32
/-- A 64-bit value: a register pair, a capability, a program counter. -/
abbrev W64 := BitVec 64
/-- One instruction word (01 R21). -/
abbrev W96 := BitVec 96
/-- Sparse data by key: a list of pairs with strictly rising keys. -/
abbrev FMap (α : Type) := List (Nat × α)

end Sys2Proof
end

