-- ==== Sys2Proof/Syntax.lean ====
section
/-! DEFINITION. Syntax: the instruction words of 01 (formats R24 to R33, operand classes R35 to R38) and
the steps of the device's units and Spagan commands, one constructor of Instr per row of the opcode table. -/

namespace Sys2Proof

/-- The sixteen value types (R28), in code order. -/
inductive Ty where
  | i8 | i16 | i32 | i64 | n8 | n16 | n32 | n64 | b32 | b64 | f64 | f32 | f16 | bf16 | ta8 | ta6
  deriving DecidableEq, Repr

/-- Rounding modes (R24, R63). -/
inductive Rm where
  | rne | rtz | rup | rdn
  deriving DecidableEq, Repr

/-- Face directions (R36). -/
inductive Dir where
  | me | xm | xp | ym | yp | zm | zp | pre | nxt
  deriving DecidableEq, Repr

/-- A guard GN:GP (R21): predicate p, negated or not; p7 is the constant true. -/
structure Guard where
  neg : Bool
  p : Fin 8
  deriving DecidableEq, Repr

/-- An operand specifier (R35 to R38). -/
inductive Opnd where
  | v (i : Fin 248)
  | k (i : Fin 8)
  | s (i : Fin 64)
  | face (d : Dir) (n : Fin 16)
  | pred (neg : Bool) (i : Fin 8)
  | acc (i : Fin 16)
  | jig (i : Fin 16)
  | peg (i : Fin 16)
  | bed (i : Fin 32)
  | tl (i : Fin 8)
  | fs (i : Fin 8)
  | imm (x : BitVec 9)
  deriving DecidableEq, Repr

/-- Scopes (R26, R327). -/
inductive Scope where
  | grp | blk | dev | dom | sys
  deriving DecidableEq, Repr

/-- Address spaces of the M format (R26). -/
inductive Space where
  | sp | ob | xr
  deriving DecidableEq, Repr

/-- The R format (R24). QE and QP are one optional predicate p0 to p6 (R34). FN is fixed by the
constructor. -/
structure RForm where
  g : Guard
  la : BitVec 4
  ty : Ty
  rm : Rm
  sat : Bool
  om : BitVec 3
  d : Opnd
  a : Opnd
  b : Opnd
  c : Opnd
  qp : Option (Fin 7)
  deriving DecidableEq, Repr

/-- The I format (R25). -/
structure IForm where
  g : Guard
  ty : Ty
  rm : Rm
  sat : Bool
  om : BitVec 3
  d : Opnd
  a : Opnd
  qp : Option (Fin 7)
  imm : W32
  deriving DecidableEq, Repr

/-- The M format (R26). acq and rel are the two bits of ORD. -/
structure MForm where
  g : Guard
  la : BitVec 4
  ty : Ty
  sc : Scope
  acq : Bool
  rel : Bool
  na : Bool
  d : Opnd
  base : Opnd
  idx : Opnd
  sp : Space
  xs : Fin 4
  disp : BitVec 24
  deriving DecidableEq, Repr

/-- The B format (R29). -/
structure BForm where
  g : Guard
  d : Opnd
  a : Opnd
  ts : Fin 5
  ldisp : W32
  deriving DecidableEq, Repr

/-- The X format (R31). -/
structure XForm where
  g : Guard
  la : BitVec 4
  acc : Fin 16
  jg : Fin 16
  bdb : Fin 32
  bdn : Fin 32
  fsi : Fin 8
  side : Bool
  cja : Bool
  cjb : Bool
  pge : Bool
  pg : Fin 16
  vsrc : Bool
  ver : BitVec 16
  d : Opnd
  a : Opnd
  deriving DecidableEq, Repr

/-- The S format (R33). -/
structure SForm where
  g : Guard
  d : Opnd
  a : Opnd
  sr : BitVec 9
  imm : BitVec 16
  deriving DecidableEq, Repr

/-- The register count of LDX and STX (R158). -/
inductive XCount where
  | x2 | x4 | x8
  deriving DecidableEq, Repr

/-- The element count of ACCMOV (R216). -/
inductive MovCount where
  | x1 | x2 | x4 | x8
  deriving DecidableEq, Repr

/-- Atomic operations (R161), in FN order. -/
inductive AtomOp where
  | add | adds | min | max | and | or | xor | exch | inc | dec
  deriving DecidableEq, Repr

/-- Reliability classes of kernels, objects and frames (R343, R364, R368). -/
inductive MemClass where
  | p | d | n
  deriving DecidableEq, Repr

/-- Traffic classes of the fabric (R388). -/
inductive TrafficClass where
  | request | forward | reply | face | management
  deriving DecidableEq, Repr

/-- One 256-byte flit (R391), byte i in bits [8i+7:8i]. -/
abbrev Flit := BitVec 2048

/-- Who issues a Spagan command (R435, R436). -/
inductive Issuer where
  | host | firmware | management
  deriving DecidableEq, Repr

/-- The head of a Spagan command (R435). -/
structure CmdHdr where
  issuer : Issuer
  tag : W32
  deriving DecidableEq, Repr

/-- A firmware image: its kind (0 frame firmware, 1 sill patch), security version, length and
measurement (R438). Whether its two signatures verify is a function of Config. -/
structure FwImage where
  kind : Nat
  version : Nat
  len : Nat
  measurement : BitVec 384
  deriving DecidableEq, Repr, Inhabited

/-- The rows of the opcode table: 141 instruction words, then the steps of the device's units and the
Spagan commands, each cited by its rule. The rows without a field stand last. -/
inductive Instr where
  /-- R234. -/
  | nop (x : SForm)
  /-- R112. -/
  | add (x : RForm)
  /-- R112. -/
  | sub (x : RForm)
  /-- R112. -/
  | mul (x : RForm)
  /-- R112. -/
  | mulhi (x : RForm)
  /-- R112. -/
  | mad (x : RForm)
  /-- R113. -/
  | div (x : RForm)
  /-- R113. -/
  | rem (x : RForm)
  /-- R112. -/
  | min (x : RForm)
  /-- R112. -/
  | max (x : RForm)
  /-- R112. -/
  | abs (x : RForm)
  /-- R112. -/
  | neg (x : RForm)
  /-- R114. -/
  | addc (x : RForm)
  /-- R114. -/
  | subb (x : RForm)
  /-- R112. -/
  | sad (x : RForm)
  /-- R115. -/
  | addi (x : IForm)
  /-- R115. -/
  | muli (x : IForm)
  /-- R115. -/
  | andi (x : IForm)
  /-- R115. -/
  | ori (x : IForm)
  /-- R115. -/
  | xori (x : IForm)
  /-- R115. -/
  | shli (x : IForm)
  /-- R115. -/
  | shri (x : IForm)
  /-- R115. -/
  | sari (x : IForm)
  /-- R115. -/
  | movi (x : IForm)
  /-- R120. -/
  | cmpi (x : IForm)
  /-- R116. -/
  | and (x : RForm)
  /-- R116. -/
  | or (x : RForm)
  /-- R116. -/
  | xor (x : RForm)
  /-- R116. -/
  | not (x : RForm)
  /-- R117. -/
  | shl (x : RForm)
  /-- R117. -/
  | shr (x : RForm)
  /-- R117. -/
  | sar (x : RForm)
  /-- R117. -/
  | rot (x : RForm)
  /-- R118. -/
  | popc (x : RForm)
  /-- R118. -/
  | clz (x : RForm)
  /-- R118. -/
  | bfx (x : RForm)
  /-- R118. -/
  | bfi (x : RForm)
  /-- R119. -/
  | sel (x : RForm)
  /-- R120. -/
  | cmp (x : RForm)
  /-- R119. -/
  | mov (x : RForm)
  /-- R119. -/
  | lea (x : RForm)
  /-- R122. -/
  | fadd (x : RForm)
  /-- R122. -/
  | fsub (x : RForm)
  /-- R122. -/
  | fmul (x : RForm)
  /-- R122. -/
  | fma (x : RForm)
  /-- R122. -/
  | fdiv (x : RForm)
  /-- R122. -/
  | fsqrt (x : RForm)
  /-- R123. -/
  | fmin (x : RForm)
  /-- R123. -/
  | fmax (x : RForm)
  /-- R124. -/
  | fcmp (x : RForm)
  /-- R125. -/
  | fclass (x : RForm)
  /-- R122. -/
  | frcp (x : RForm)
  /-- R122. -/
  | frsq (x : RForm)
  /-- R77. -/
  | cvt (src : Ty) (x : RForm)
  /-- R126. -/
  | frnd (x : RForm)
  /-- R127. -/
  | fsgn (x : RForm)
  /-- R129. -/
  | plog (x : RForm)
  /-- R130. -/
  | pset (x : RForm)
  /-- R133. -/
  | shfl (x : RForm)
  /-- R135. -/
  | vote (x : RForm)
  /-- R136. -/
  | gred (x : RForm)
  /-- R134. -/
  | bcast (x : RForm)
  /-- R137. -/
  | gscan (x : RForm)
  /-- R138. -/
  | lmask (x : RForm)
  /-- R158. -/
  | ld (x : MForm)
  /-- R158. -/
  | st (x : MForm)
  /-- R158. -/
  | ldx (n : XCount) (x : MForm)
  /-- R158. -/
  | stx (n : XCount) (x : MForm)
  /-- R162. -/
  | atom (op : AtomOp) (x : MForm)
  /-- R162. -/
  | red (op : AtomOp) (x : MForm)
  /-- R162. -/
  | cas (x : MForm)
  /-- R167. -/
  | fence (x : MForm)
  /-- R168. -/
  | lcinv (x : MForm)
  /-- R168. -/
  | lcinvAll (x : MForm)
  /-- R168. -/
  | wcdrain (x : MForm)
  /-- R168. -/
  | wcdrainAll (x : MForm)
  /-- R169. -/
  | validSet (x : MForm)
  /-- R169. -/
  | validClr (x : MForm)
  /-- R169. -/
  | validGet (x : MForm)
  /-- R170. -/
  | pref (x : MForm)
  /-- R172. -/
  | capder (x : RForm)
  /-- R172. -/
  | capadd (x : RForm)
  /-- R173. -/
  | capq (x : RForm)
  /-- R177. -/
  | copy (x : MForm)
  /-- R188. -/
  | copyq (x : MForm)
  /-- R197. -/
  | tlwait (x : SForm)
  /-- R198. -/
  | tlrd (x : SForm)
  /-- R198. -/
  | tlrdIssued (x : SForm)
  /-- R204. -/
  | jig (x : XForm)
  /-- R204. -/
  | jigSt (x : XForm)
  /-- R204. -/
  | jigLd (x : XForm)
  /-- R211. -/
  | mx (x : XForm)
  /-- R210. -/
  | mxSet (x : XForm)
  /-- R214. -/
  | accz (x : XForm)
  /-- R215. -/
  | accld (x : XForm)
  /-- R215. -/
  | accst (x : XForm)
  /-- R215. -/
  | accstNow (x : XForm)
  /-- R216. -/
  | accmov (n : MovCount) (x : XForm)
  /-- R216. -/
  | accver (x : XForm)
  /-- R216. -/
  | accverNow (x : XForm)
  /-- R207. -/
  | bedld (x : XForm)
  /-- R207. -/
  | bedldGrain (x : XForm)
  /-- R208. -/
  | bedclr (x : XForm)
  /-- R219. -/
  | qmul (x : RForm)
  /-- R219. -/
  | qconj (x : RForm)
  /-- R219. -/
  | qnorm (x : RForm)
  /-- R220. -/
  | fwr (x : RForm)
  /-- R221. -/
  | step (x : SForm)
  /-- R221. -/
  | stepR (x : SForm)
  /-- R222. -/
  | nq (x : RForm)
  /-- R224. -/
  | settle (x : SForm)
  /-- R226. -/
  | resid (x : RForm)
  /-- R227. -/
  | stest (x : RForm)
  /-- R229. -/
  | bar (x : SForm)
  /-- R229. -/
  | bararr (x : SForm)
  /-- R229. -/
  | barwt (x : SForm)
  /-- R145. -/
  | meet (x : SForm)
  /-- R146. -/
  | peg (x : SForm)
  /-- R146. -/
  | pegDef (x : SForm)
  /-- R231. -/
  | postCore (x : SForm)
  /-- R231. -/
  | postNbr (x : SForm)
  /-- R231. -/
  | postBay (x : SForm)
  /-- R148. -/
  | yield (x : SForm)
  /-- R140. -/
  | bra (x : BForm)
  /-- R141. -/
  | jmpi (x : BForm)
  /-- R142. -/
  | call (x : BForm)
  /-- R142. -/
  | calli (x : BForm)
  /-- R141. -/
  | ret (x : BForm)
  /-- R143. -/
  | exit (x : BForm)
  /-- R240. -/
  | trap (x : SForm)
  /-- R241. -/
  | tret (x : SForm)
  /-- R240. -/
  | brk (x : SForm)
  /-- R242. -/
  | srd (x : SForm)
  /-- R243. -/
  | swr (x : SForm)
  /-- R248. -/
  | grow (x : SForm)
  /-- R250. -/
  | shrink (x : SForm)
  /-- R247. -/
  | evwait (x : SForm)
  /-- R251. -/
  | ilinv (x : SForm)
  /-- R251. -/
  | ilinvAll (x : SForm)
  /-- R252. -/
  | sampleOn (x : SForm)
  /-- R252. -/
  | sampleOff (x : SForm)
  /-- R56. -/
  | lineFetchComplete (core entry : Nat)
  /-- R238. -/
  | asyncTrapDelivery (core tslot lane : Nat)
  /-- R199. -/
  | accessReply (core req : Nat)
  /-- R274. -/
  | parkServiceComplete (core park : Nat) (declined : Bool)
  /-- R366. -/
  | firstTouchPlacement (ctx obj ext core : Nat)
  /-- R441. -/
  | unitAccessService (unit : Nat) (declined : Bool)
  /-- R154. -/
  | wcAgeingExpiry (core wc : Nat)
  /-- R154. -/
  | wcDrainPerformed (core wc : Nat)
  /-- R392. -/
  | remoteRequest (req : Nat)
  /-- R177. -/
  | copyAccept (core : Nat)
  /-- R183. -/
  | copyRetire (core slot : Nat)
  /-- R188. -/
  | copyqSlotWrite (core job : Nat)
  /-- R189. -/
  | queueTakeSlot (queue : Nat)
  /-- R189. -/
  | packetRetire (queue packet : Nat)
  /-- R192. -/
  | gather (queue packet : Nat)
  /-- R194. -/
  | collective (queue packet : Nat)
  /-- R207. -/
  | bedldComplete (core job : Nat)
  /-- R211. -/
  | mxLaunch (core tslot lane : Nat)
  /-- R212. -/
  | mxCommit (core : Nat)
  /-- R144. -/
  | pegEpisodeClose (core block peg : Nat)
  /-- R228. -/
  | barrierOpen (core block bar : Nat)
  /-- R421. -/
  | barrierReleaseWave (core block bar : Nat)
  /-- R265. -/
  | waitEnd (core tslot lane : Nat)
  /-- R268. -/
  | pendingPlace (core : Nat)
  /-- R269. -/
  | entryEviction (core : Nat)
  /-- R277. -/
  | sliceReturn (core block group column : Nat)
  /-- R248. -/
  | growGrant (core : Nat)
  /-- R249. -/
  | growDeadlockRule (core : Nat)
  /-- R279. -/
  | blockRetire (core block : Nat)
  /-- R375. -/
  | blockVacate (core block : Nat)
  /-- R377. -/
  | blockRedispatch (vac core : Nat)
  /-- R358. -/
  | blockDispatch (core : Nat)
  /-- R359. -/
  | bayDispatchPull (bay core : Nat)
  /-- R348. -/
  | admission (graph node : Nat)
  /-- R350. -/
  | fieldPlacement (launch : Nat)
  /-- R352. -/
  | trigger (w : W64)
  /-- R353. -/
  | run (graph : Nat)
  /-- R354. -/
  | nodeComplete (launch : Nat)
  /-- R354. -/
  | runEnd (graph : Nat)
  /-- R288. -/
  | faceNotice (core notice : Nat)
  /-- R221. -/
  | stepRPublicationReady (core cell : Nat)
  /-- R297. -/
  | trussStepComplete (launch step : Nat)
  /-- R253. -/
  | samplerTick (core : Nat)
  /-- R417. -/
  | bayControllerEvaluation (bay : Nat)
  /-- R372. -/
  | refill (core : Nat)
  /-- R361. -/
  | gatingSequence (bay : Nat)
  /-- R361. -/
  | bayWakeComplete (bay : Nat)
  /-- R303. -/
  | bankWakeComplete (core : Nat)
  /-- R422. -/
  | wayGating (core : Nat) (gate : Bool)
  /-- R424. -/
  | subscriptionFiring (sub : Nat)
  /-- R431. -/
  | scrub (line : Nat)
  /-- R430. -/
  | marginSequence (die : Nat)
  /-- R386. -/
  | retransmissionTimeout (packet : Nat)
  /-- R386. -/
  | packetArrival (packet : Nat)
  /-- R387. -/
  | planeFailover (dst lane : Nat)
  /-- R390. -/
  | classPause (port : Nat) (cls : TrafficClass) (resume : Bool)
  /-- R395. -/
  | combiningWindowClose (group : Nat)
  /-- R395. -/
  | combinedReply (group : Nat)
  /-- R398. -/
  | flitReceive (port : Nat) (flit : Flit)
  /-- R398. -/
  | replayRequest (port : Nat) (lseq : BitVec 16)
  /-- R399. -/
  | trainComplete (port : Nat) (lanes : BitVec 8)
  /-- R399. -/
  | retrainTrigger (port : Nat)
  /-- R403. -/
  | keyMarker (port : Nat)
  /-- R404. -/
  | kwarn (port : Nat)
  /-- R404. -/
  | invocationLimit (port : Nat)
  /-- R436. -/
  | ctxopen (h : CmdHdr) (ctx : Nat) (objt : W64)
  /-- R381. -/
  | ctxclose (h : CmdHdr) (ctx : Nat)
  /-- R362. -/
  | ctxset (h : CmdHdr) (ctx : Nat) (field : Nat) (value : W64)
  /-- R426. -/
  | ctxbudget (h : CmdHdr) (ctx : Nat) (addend : W32)
  /-- R436. -/
  | stateread (h : CmdHdr) (ctx block : Nat) (dst : W64)
  /-- R315. -/
  | objset (h : CmdHdr) (ctx : Nat) (entry : BitVec 256)
  /-- R365. -/
  | extset (h : CmdHdr) (obj ext : Nat) (desc : W64)
  /-- R367. -/
  | parkdone (h : CmdHdr) (ctx park : Nat) (declined : Bool)
  /-- R370. -/
  | frameclass (h : CmdHdr) (frame : Nat) (cls : MemClass)
  /-- R432. -/
  | frameretire (h : CmdHdr) (frame : Nat)
  /-- R351. -/
  | graphload (h : CmdHdr) (graph ctx : Nat) (image : W64)
  /-- R436. -/
  | graphfree (h : CmdHdr) (graph : Nat)
  /-- R436. -/
  | pcap (h : CmdHdr) (watts : Nat)
  /-- R421. -/
  | slope (h : CmdHdr) (bay groups : Nat)
  /-- R423. -/
  | subscribe (h : CmdHdr) (ctx : Nat) (source bay : Nat) (thresh : W32) (fall : Bool) (word : W64)
  /-- R423. -/
  | unsubscribe (h : CmdHdr) (sub : Nat)
  /-- R427. -/
  | margin (h : CmdHdr) (die offset : Nat)
  /-- R433. -/
  | bayquiesce (h : CmdHdr) (bay : Nat)
  /-- R415. -/
  | bayrecal (h : CmdHdr) (bay : Nat)
  /-- R433. -/
  | bayreturn (h : CmdHdr) (bay : Nat)
  /-- R399. -/
  | porttrain (h : CmdHdr) (port : Nat)
  /-- R399. -/
  | portisolate (h : CmdHdr) (port : Nat)
  /-- R400. -/
  | portstatus (h : CmdHdr) (port : Nat)
  /-- R402. -/
  | keyload (h : CmdHdr) (port : Nat) (sending : Bool) (slot : Nat) (key : BitVec 256) (salt : W32)
  /-- R396. -/
  | peerset (h : CmdHdr) (dev : Nat) (entry : BitVec 128)
  /-- R434. -/
  | exportObjs (h : CmdHdr) (ctx : Nat) (pairs : List (W64 × W64))
  /-- R434. -/
  | spare (h : CmdHdr) (dev : Nat)
  /-- R438; the image is named by a context and a capability of it. -/
  | fwstage (h : CmdHdr) (image : Nat × W64)
  /-- R438. -/
  | fwactivate (h : CmdHdr)
  /-- R433. -/
  | shoprestart (h : CmdHdr) (shop : Nat)
  /-- R439. -/
  | attest (h : CmdHdr) (ctx : Nat) (nonce : BitVec 256) (dst : W64)
  /-- R438. -/
  | fuseadvance (h : CmdHdr) (kind : Nat)
  /-- R436. -/
  | unknownCommand (h : CmdHdr) (opc : BitVec 16)
  /-- R47. -/
  | unassignedMajorOpcode (w : W96)
  /-- R148. -/
  | yieldCyclesEnd (core entry : Nat)
  /-- R41. -/
  | resultArrival (core tslot lane pend : Nat)
  /-- R314. -/
  | objectCacheMissFill (core ctx obj : Nat)
  /-- R205. -/
  | feedReadFault (core : Nat)
  /-- R303. -/
  | scratchpadBankGating (core : Nat)
  /-- R360. -/
  | preemptionSend
  /-- R413. -/
  | arbitrate
  /-- R414. -/
  | grantChangeComplete
  /-- R419. -/
  | tcapChange
  /-- R420. -/
  | boostTick
  /-- R430. -/
  | holdOffExpiry
  /-- R393. -/
  | unreachableTimeout
  /-- R434. -/
  | deviceFaultNotify
  /-- R437. -/
  | boot
  /-- R14. -/
  | zeroWord
  /-- R418. -/
  | tempbandChange
  deriving DecidableEq, Repr

end Sys2Proof
end

