-- ==== Sys2Proof/Config.lean ====
section
/-! DEFINITION. What the spec leaves to the implementation, and free values: constants without a body, of which nothing can
be proved. The argument n of a free value is the counter Kern.free, or the value's own place. -/

namespace Sys2Proof.Config

/-- The set of the line cache that a line of an object goes to (11 R312): the spec gives no mapping. DESIGN CHOICE: log entry 29. -/
opaque lineSet : Nat → Nat → Nat → Nat

/-- Which of the ways that a fill may take it takes (11 R312): a free one, else one to replace by pseudo-LRU, an order that the
spec does not give. DESIGN CHOICE: log entry 121. -/
opaque lineVictim : Nat → Nat

/-- The lane of a packet between two devices (12 R334): the hash of the spec is not given. DESIGN CHOICE: log entry 87. -/
opaque laneHash : Nat → Nat → Nat → Nat

/-- What a stand-down slot whose block state software has altered restarts with (17 R378), as numbers.
DESIGN CHOICE: log entry 66. -/
opaque wildSync : Nat → Nat → Nat

/-- A scalar register of a block that is dispatched again, which hardware has not kept (17 R373), by the block's dispatch order.
DESIGN CHOICE: log entry 65. -/
opaque lostScalar : Nat → Nat → W32

/-- A byte of a class N frame after an error that nothing detects (17 R368). DEDUCED: log entry 55. -/
opaque struckByte : Nat → Byte

/-- A byte of a stand-down slot beyond what the spec lays out (17 R378). DESIGN CHOICE: log entry 66. -/
opaque slotByte : Nat → Nat → Byte

/-- A face read from a poisoned word of the exchange region by a P or D kernel, by its address: R152 names no outcome for it.
DESIGN CHOICE: log entry 127. -/
opaque poisonFace : Nat → W32

/-- Both signatures of an image verify (22 R438). DESIGN CHOICE: log entry 86. -/
opaque signed : FwImage → Bool

/-- The image that the bytes at a capability hold, whose layout the spec does not give (22 R438). DEDUCED: log entry 76. -/
opaque imageOf : List Byte → FwImage

/-- The bits of a flit that the device sends beyond the fields of its head: OPS and what PAYLOAD holds before it is encrypted are of
the device's own layout (18 R391). DESIGN CHOICE: log entry 77. -/
opaque flitBody : Nat → Nat

/-- The spine whose queue toward a leaf is the shortest (18 R385): the state of switches is not the device's.
DESIGN CHOICE: log entry 78. -/
opaque spine : Nat → Nat

/-- The flits that the buffer of a class holds (18 R390): twice those of a link's round trip, which the spec does not give.
DESIGN CHOICE: log entry 107. -/
opaque classBuffer : Nat

/-- A management flit is a marker of a key switch (18 R403): the layout of OPS is the device's own. DESIGN CHOICE: log entry 86. -/
opaque isMarker : Flit → Bool

/-- The LSEQ that a management flit acknowledges, or that it is no acknowledgement (18 R388, R398): the layout of OPS is the
device's own. DESIGN CHOICE: log entry 86. -/
opaque ackedBy : Flit → Option (BitVec 16)

/-- The bytes of the two signatures of an attestation report, by what the report holds, the boot, whose keys are its own, and the
leaf of its LMS key (22 R439). DESIGN CHOICE: log entry 70. -/
opaque reportByte : List Byte → Nat → Nat → Nat → Byte

end Sys2Proof.Config
end

