-- ==== Sys2Proof/Machine/Encoding.lean ====
section
/-! DEFINITION. Which encodings are legal (01 R21 to R40 and the limits of 05 to 08): everything about an
instruction word that can be judged from the word alone. What depends on the thread (its allocation, the kind of
kernel, the launch's format slots) is judged by the meanings. -/

namespace Sys2Proof.Machine

/-! ## Types (R28, R57, R107) -/

/-- The width w of a type in bits (R57). -/
def tyBits : Ty → Nat
  | .i8 | .n8 | .ta8 => 8
  | .ta6 => 6
  | .i16 | .n16 | .f16 | .bf16 => 16
  | .i32 | .n32 | .b32 | .f32 => 32
  | .i64 | .n64 | .b64 | .f64 => 64

/-- The type code (R28). -/
def tyCode : Ty → Nat
  | .i8 => 0 | .i16 => 1 | .i32 => 2 | .i64 => 3 | .n8 => 4 | .n16 => 5 | .n32 => 6 | .n64 => 7
  | .b32 => 8 | .b64 => 9 | .f64 => 10 | .f32 => 11 | .f16 => 12 | .bf16 => 13 | .ta8 => 14 | .ta6 => 15

/-- The type of a code (R28). -/
def tyOfCode (n : Nat) : Ty :=
  match n with
  | 0 => .i8 | 1 => .i16 | 2 => .i32 | 3 => .i64 | 4 => .n8 | 5 => .n16 | 6 => .n32 | 7 => .n64
  | 8 => .b32 | 9 => .b64 | 10 => .f64 | 11 => .f32 | 12 => .f16 | 13 => .bf16 | 14 => .ta8 | _ => .ta6

/-- Sgn of R107. -/
def tySgn : Ty → Bool
  | .i8 | .i16 | .i32 | .i64 => true
  | _ => false

/-- Int of R107. -/
def tyInt : Ty → Bool
  | .i8 | .i16 | .i32 | .i64 | .n8 | .n16 | .n32 | .n64 => true
  | _ => false

/-- Bits of R107. -/
def tyBitsKind : Ty → Bool
  | .b32 | .b64 => true
  | _ => false

/-- Fl of R107. -/
def tyFl : Ty → Bool
  | .f64 | .f32 | .f16 | .bf16 => true
  | _ => false

/-- The tapered types (R68). -/
def tyTapered : Ty → Bool
  | .ta8 | .ta6 => true
  | _ => false

/-- A type that occupies a register pair (R57). -/
def tyWide (t : Ty) : Bool := tyBits t == 64

/-! ## Operands by position (R35 to R39) -/

/-- The specifier 0x000, which an unused operand field holds (R39). -/
def Opnd.none : Opnd := .v 0

/-- The field is unused (R39). -/
def okNone (o : Opnd) : Bool := o == Opnd.none

/-- A register operand of class 000 or 001; a 64-bit one names an even index (R37 point 2). -/
def okReg (wide : Bool) : Opnd → Bool
  | .v i => !wide || i.val % 2 == 0
  | .k i => !wide || i.val % 2 == 0
  | .s i => !wide || i.val % 2 == 0
  | _ => false

/-- A register operand of class 000. -/
def okVec (wide : Bool) : Opnd → Bool
  | .v i => !wide || i.val % 2 == 0
  | .k i => !wide || i.val % 2 == 0
  | _ => false

/-- A short immediate that is not negative. -/
def okNat : Opnd → Bool
  | .imm x => !x.msb
  | _ => false

/-- A short immediate of any value. -/
def okImm : Opnd → Bool
  | .imm _ => true
  | _ => false

/-- A face as a source; a 64-bit one names an even index (R37 point 3). -/
def okFace (wide : Bool) : Opnd → Bool
  | .face _ n => !wide || n.val % 2 == 0
  | _ => false

/-- A predicate as a source (R35). -/
def okPred : Opnd → Bool
  | .pred _ _ => true
  | _ => false

/-- A predicate as a destination: not negated and not p7 (R37 point 5). -/
def okPredDst : Opnd → Bool
  | .pred neg i => !neg && i != 7
  | _ => false

/-- A source of a type: any class that R108 allows; a tapered short immediate is illegal (R37 point 6). -/
def okSrc (t : Ty) (o : Opnd) : Bool :=
  okReg (tyWide t) o || okFace (tyWide t) o || (okImm o && !tyTapered t)

/-- A 32-bit source that is read as .n32: a negative short immediate is illegal (R117, R118, R133). -/
def okCount (o : Opnd) : Bool := okReg false o || okFace false o || okNat o

/-- A guard other than the never-true one (R21). -/
def okGuard (g : Guard) : Bool := !(g.neg && g.p == 7)

/-- Unguarded (R21). -/
def unguarded (g : Guard) : Bool := !g.neg && g.p == 7

/-! ## The R format -/

/-- The requirement on QE (R34, R111). -/
inductive QReq where
  | never | always | optional
  deriving DecidableEq, Repr

/-- Does QE meet the requirement? -/
def okQ (q : QReq) (qp : Option (Fin 7)) : Bool :=
  match q with
  | .never => qp.isNone
  | .always => qp.isSome
  | .optional => true

/-- The limits of an R-format entry. Each operand field has its own check. -/
structure RLimit where
  la : Bool
  ty : Bool
  rm : Bool
  sat : Bool
  om : Bool
  q : QReq
  d : Bool
  a : Bool
  b : Bool
  c : Bool
  deriving DecidableEq, Repr

/-- An R-format word within its limits. la, rm and sat say whether the field may be nonzero (R34, R40); ty and om say
whether the value is accepted. -/
def okR (x : RForm) (l : RLimit) : Bool :=
  okGuard x.g && (l.la || x.la == 0) && l.ty && (l.rm || x.rm == .rne) && (l.sat || !x.sat) && l.om &&
    okQ l.q x.qp && l.d && l.a && l.b && l.c

/-- The mould of R112 with two sources. -/
def okInt2 (x : RForm) (la sat : Bool) : Bool :=
  okR x { la := la, ty := tyInt x.ty, rm := false, sat := sat, om := x.om == 0, q := .never,
          d := okReg (tyWide x.ty) x.d, a := okSrc x.ty x.a, b := okSrc x.ty x.b, c := okNone x.c }

/-- The mould of R112 with three sources. -/
def okInt3 (x : RForm) : Bool :=
  okR x { la := false, ty := tyInt x.ty, rm := false, sat := true, om := x.om == 0, q := .never,
          d := okReg (tyWide x.ty) x.d, a := okSrc x.ty x.a, b := okSrc x.ty x.b, c := okSrc x.ty x.c }

/-- The mould of R112 with one source. -/
def okInt1 (x : RForm) (ty : Bool) : Bool :=
  okR x { la := false, ty := ty, rm := false, sat := true, om := x.om == 0, q := .never,
          d := okReg (tyWide x.ty) x.d, a := okSrc x.ty x.a, b := okNone x.b, c := okNone x.c }

/-- ADDC and SUBB (R114). -/
def okCarry (x : RForm) : Bool :=
  okR x { la := false, ty := x.ty == .n32 || x.ty == .n64, rm := false, sat := false, om := x.om == 0, q := .optional,
          d := okReg (tyWide x.ty) x.d, a := okSrc x.ty x.a, b := okSrc x.ty x.b, c := okPred x.c }

/-- The logical instructions (R116). -/
def okLogic (x : RForm) (two : Bool) : Bool :=
  okR x { la := false, ty := tyInt x.ty || tyBitsKind x.ty, rm := false, sat := false, om := x.om == 0, q := .never,
          d := okReg (tyWide x.ty) x.d, a := okSrc x.ty x.a, b := if two then okSrc x.ty x.b else okNone x.b,
          c := okNone x.c }

/-- The shift instructions (R117). -/
def okShift (x : RForm) (ty sat : Bool) : Bool :=
  okR x { la := false, ty := ty, rm := false, sat := sat, om := x.om == 0, q := .never,
          d := okReg (tyWide x.ty) x.d, a := okSrc x.ty x.a, b := okCount x.b, c := okNone x.c }

/-- POPC and CLZ, whose destination is one 32-bit register (R118). -/
def okBitCount (x : RForm) : Bool :=
  okR x { la := false, ty := tyInt x.ty || tyBitsKind x.ty, rm := false, sat := false, om := x.om == 0, q := .never,
          d := okReg false x.d, a := okSrc x.ty x.a, b := okNone x.b, c := okNone x.c }

/-- BFX and BFI (R118). -/
def okBitField (x : RForm) : Bool :=
  okR x { la := false, ty := tyInt x.ty || tyBitsKind x.ty, rm := false, sat := false, om := x.om == 0, q := .never,
          d := okReg (tyWide x.ty) x.d, a := okSrc x.ty x.a, b := okCount x.b, c := okCount x.c }

/-- The conditions of CMP: an ordering needs an integer type (R120). -/
def okCond (ty : Ty) (om : BitVec 3) : Bool :=
  (tyInt ty && om.toNat ≤ 5) || (tyBitsKind ty && om.toNat ≤ 1)

/-- OM for an instruction that may be packed (R121): bit 0 is PK, on .f16 and .bf16 only. -/
def okPk (x : RForm) : Bool := x.om == 0 || (x.om == 1 && (x.ty == .f16 || x.ty == .bf16))

/-- The floating-point arithmetic of R122 and R123. -/
def okFloat (x : RForm) (la rm om : Bool) (n : Nat) : Bool :=
  okR x { la := la, ty := tyFl x.ty, rm := rm, sat := false, om := om, q := .never,
          d := okReg (tyWide x.ty) x.d, a := okSrc x.ty x.a,
          b := if n ≥ 2 then okSrc x.ty x.b else okNone x.b, c := if n ≥ 3 then okSrc x.ty x.c else okNone x.c }

/-- CVT (R76, R78) apart from the format slot it names. -/
def okCvt (src : Ty) (x : RForm) : Bool :=
  okR x { la := false,
          ty := !tyBitsKind src && !tyBitsKind x.ty && !(tyTapered src && tyTapered x.ty),
          rm := !(tyTapered x.ty) && !(tyInt src && tyInt x.ty), sat := tyInt x.ty,
          om := x.om == 0 || tyTapered src || tyTapered x.ty, q := .never,
          d := okReg (tyWide x.ty) x.d, a := okSrc src x.a, b := okNone x.b, c := okNone x.c }

/-- GRED (R136): the types of each operation; SAT with integer .add, RM with floating .add. -/
def okGred (x : RForm) : Bool :=
  okR x { la := true,
          ty := if x.om.toNat ≤ 2 then tyInt x.ty || tyFl x.ty else tyInt x.ty || tyBitsKind x.ty,
          rm := x.om == 0 && tyFl x.ty, sat := x.om == 0 && tyInt x.ty, om := x.om.toNat ≤ 5, q := .never,
          d := okReg (tyWide x.ty) x.d, a := okSrc x.ty x.a, b := okNone x.b, c := okNone x.c }

/-- GSCAN (R137). -/
def okGscan (x : RForm) : Bool :=
  let op := x.om.toNat % 4
  okR x { la := true, ty := tyInt x.ty || tyFl x.ty, rm := op == 0 && tyFl x.ty, sat := op == 0 && tyInt x.ty,
          om := op ≤ 2, q := .never, d := okVec (tyWide x.ty) x.d, a := okSrc x.ty x.a, b := okNone x.b,
          c := okNone x.c }

/-- VOTE (R135). -/
def okVote (x : RForm) : Bool :=
  match x.om.toNat with
  | 0 | 1 => okR x { la := false, ty := x.ty == .i8, rm := false, sat := false, om := true, q := .always,
                     d := okNone x.d, a := okPred x.a, b := okNone x.b, c := okNone x.c }
  | 2 => okR x { la := false, ty := tyInt x.ty || tyBitsKind x.ty, rm := false, sat := false, om := true, q := .always,
                 d := okNone x.d, a := okSrc x.ty x.a, b := okNone x.b, c := okNone x.c }
  | 3 => okR x { la := false, ty := x.ty == .b64, rm := false, sat := false, om := true, q := .never,
                 d := okReg true x.d, a := okPred x.a, b := okNone x.b, c := okNone x.c }
  | _ => false

/-- PSET (R130). -/
def okPset (x : RForm) : Bool :=
  match x.om.toNat with
  | 0 => okR x { la := false, ty := tyInt x.ty || tyBitsKind x.ty, rm := false, sat := false, om := true, q := .always,
                 d := okNone x.d, a := okSrc x.ty x.a, b := okNone x.b, c := okNone x.c }
  | 1 => okR x { la := false, ty := x.ty == .b32, rm := false, sat := false, om := true, q := .never,
                 d := okNone x.d, a := okSrc x.ty x.a, b := okNone x.b, c := okNone x.c }
  | 2 => okR x { la := false, ty := x.ty == .b32, rm := false, sat := false, om := true, q := .never,
                 d := okReg false x.d, a := okNone x.a, b := okNone x.b, c := okNone x.c }
  | _ => false

/-- LMASK (R138): .below writes no scalar. -/
def okLmask (x : RForm) : Bool :=
  okR x { la := false, ty := x.ty == .b64, rm := false, sat := false, om := x.om.toNat ≤ 3, q := .never,
          d := if x.om == 3 then okVec true x.d else okReg true x.d, a := okNone x.a, b := okNone x.b, c := okNone x.c }

/-- FSGN (R127). -/
def okFsgn (x : RForm) : Bool :=
  okFloat x false false (x.om.toNat ≤ 4) (if x.om.toNat ≤ 2 then 2 else 1)

/-- CAPDER, CAPADD and CAPQ (R172, R173). -/
def okCap (x : RForm) (om b : Bool) : Bool :=
  okR x { la := false, ty := x.ty == .i8, rm := false, sat := false, om := om, q := .never,
          d := okReg true x.d, a := okReg true x.a, b := b, c := okNone x.c }

/-- The first register of a value of several components (R218): class 000, even with .f64. DEDUCED: log entry 13. -/
def okComponents (t : Ty) (o : Opnd) : Bool := okVec (tyWide t) o

/-- The table operand C of the algebra instructions (R218). -/
def okTable : Opnd → Bool
  | .fs _ => true
  | o => okNone o

/-- QMUL, QCONJ and QNORM (R218, R219). -/
def okAlgebra (x : RForm) (rm om d b : Bool) : Bool :=
  okR x { la := false, ty := tyFl x.ty, rm := rm, sat := false, om := om, q := .never,
          d := d, a := okComponents x.ty x.a, b := b, c := okTable x.c }

/-- FWR (R220): D is a face of direction me. -/
def okFwr (x : RForm) : Bool :=
  okR x { la := false,
          ty := x.ty == .b32 || x.ty == .f32 || x.ty == .i32 || x.ty == .n32 || x.ty == .b64 || x.ty == .f64 ||
            x.ty == .i64 || x.ty == .n64,
          rm := false, sat := false, om := x.om == 0, q := .never,
          d := match x.d with
            | .face .me n => !tyWide x.ty || n.val % 2 == 0
            | _ => false,
          a := okSrc x.ty x.a, b := okNone x.b, c := okNone x.c }

/-- NQ (R222). -/
def okNq (x : RForm) : Bool :=
  let dir := match x.a with
    | .imm v => v.toNat ≤ 8
    | _ => false
  match x.om.toNat with
  | 1 => okR x { la := false, ty := x.ty == .i8, rm := false, sat := false, om := true, q := .never,
                 d := okReg false x.d, a := dir, b := okNone x.b, c := okNone x.c }
  | 0 | 2 => okR x { la := false, ty := x.ty == .i8, rm := false, sat := false, om := true, q := .always,
                     d := okNone x.d, a := dir, b := okNone x.b, c := okNone x.c }
  | _ => false

/-! ## The I format -/

/-- IMM as the type reads it (R25): the narrow integer types and the 16-bit floating types limit it; a tapered type
takes none. -/
def okImmTy (ty : Ty) (imm : W32) : Bool :=
  match ty with
  | .i8 => imm == (imm.truncate 8).signExtend 32
  | .i16 => imm == (imm.truncate 16).signExtend 32
  | .n8 => imm == (imm.truncate 8).zeroExtend 32
  | .n16 | .f16 | .bf16 => imm == (imm.truncate 16).zeroExtend 32
  | .ta8 | .ta6 => false
  | _ => true

/-- An I-format word: types, SAT, OM, QE and the operands (R115). -/
def okI (x : IForm) (ty sat om : Bool) (q : QReq) (d a : Bool) : Bool :=
  okGuard x.g && ty && x.rm == .rne && (sat || !x.sat) && om && okQ q x.qp && d && a && okImmTy x.ty x.imm

/-- An arithmetic or logical immediate form. -/
def okIAlu (x : IForm) (ty sat : Bool) : Bool :=
  okI x ty sat (x.om == 0) .never (okReg (tyWide x.ty) x.d) (okSrc x.ty x.a)

/-- A shift by an immediate of 0 to w − 1 (R115). -/
def okIShift (x : IForm) (ty sat : Bool) : Bool := okIAlu x ty sat && x.imm.toNat < tyBits x.ty

/-! ## The M format (R26, R27, R149) -/

/-- The capability or offset in BASE (R27). -/
def okBase (space : Space) (o : Opnd) : Bool :=
  match space with
  | .ob => okReg true o
  | .sp | .xr => okReg false o

/-- An index (R150): a 32-bit register of class 000 or 001, or a short immediate. -/
def okIndex (o : Opnd) : Bool := okReg false o || okImm o

/-- The orderings of a row of R149: relaxed, acquire, release, both. -/
def okOrd (x : MForm) (acq rel both : Bool) : Bool :=
  match x.acq, x.rel with
  | false, false => x.sc == .grp
  | true, false => acq
  | false, true => rel
  | true, true => both

/-- An M-format word: what its row of R149 allows. -/
def okM (x : MForm) (la ty ord na d idx space : Bool) : Bool :=
  okGuard x.g && (la || x.la == 0) && ty && ord && (na || !x.na) && d && idx && space && okBase x.sp x.base

/-- A register range of n registers that starts at a multiple of n (R158, R216). -/
def okRange (n : Nat) : Opnd → Bool
  | .v i => i.val % n == 0 && i.val + n ≤ 248
  | .k i => i.val % n == 0 && i.val + n ≤ 8
  | .s i => i.val % n == 0 && i.val + n ≤ 64
  | _ => false

/-- The registers of LDX and STX (R158). -/
def xCount : XCount → Nat
  | .x2 => 2 | .x4 => 4 | .x8 => 8

/-- The elements of ACCMOV (R216). -/
def movCount : MovCount → Nat
  | .x1 => 1 | .x2 => 2 | .x4 => 4 | .x8 => 8

/-- The types of an atomic operation (R161). -/
def atomTy (op : AtomOp) (t : Ty) : Bool :=
  let i := t == .i32 || t == .n32 || t == .i64 || t == .n64
  let b := t == .b32 || t == .b64
  let f := t == .f32 || t == .f64
  match op with
  | .add | .min | .max => i || f
  | .adds => i
  | .and | .or | .xor => i || b
  | .exch => i || b || f
  | .inc | .dec => t == .n32 || t == .n64

/-- The data operand of an atomic: a source of the type (R108). -/
def okAtom (x : MForm) (op : AtomOp) : Bool :=
  okM x true (atomTy op x.ty) (okOrd x true true true) false (okReg (tyWide x.ty) x.d)
    (okSrc x.ty x.idx && x.xs == 0) (x.sp != .xr)

/-- RED (R149, R161): no exchange. -/
def okRed (x : MForm) (op : AtomOp) : Bool :=
  okM x false (atomTy op x.ty && op != .exch) (okOrd x false true false) false (okSrc x.ty x.d) (okIndex x.idx)
    (x.sp != .xr)

/-- The compare registers of CAS (R162): the compare value and the new value, consecutive. -/
def okCasRegs (wide : Bool) (o : Opnd) : Bool :=
  let n := if wide then 4 else 2
  okReg wide o && match o with
    | .v i => i.val + n ≤ 248
    | .k i => i.val + n ≤ 8
    | .s i => i.val + n ≤ 64
    | _ => false

/-- CAS (R149, R162). -/
def okCas (x : MForm) : Bool :=
  okM x true (x.ty == .i32 || x.ty == .n32 || x.ty == .b32 || x.ty == .i64 || x.ty == .n64 || x.ty == .b64)
    (okOrd x true true true) false (okReg (tyWide x.ty) x.d) (okCasRegs (tyWide x.ty) x.idx && x.xs == 0) (x.sp != .xr)

/-- A cache-control line form or all form (R149, R168). -/
def okLine (x : MForm) (all : Bool) : Bool :=
  if all then
    okM x false (x.ty == .i8) (okOrd x false false false) false (okNone x.d) (okNone x.idx) (x.sp == .sp) &&
      okNone x.base && x.xs == 0 && x.disp == 0
  else
    okM x false (x.ty == .i8) (okOrd x false false false) false (okNone x.d) (okIndex x.idx) (x.sp == .ob)

/-- FENCE (R149, R167). -/
def okFence (x : MForm) : Bool :=
  okM x false (x.ty == .i8) ((x.acq || x.rel) && okOrd x true true true) false (okNone x.d) (okNone x.idx)
    (x.sp == .sp) && okNone x.base && x.xs == 0 && x.disp == 0

/-- The length operand of VALID (R169). -/
def okLen (o : Opnd) : Bool := okReg false o || okImm o

/-- VALID (R149, R169). -/
def okValid (x : MForm) (d : Bool) : Bool :=
  okM x false (x.ty == .i8) (okOrd x false false false) false d (okIndex x.idx) (x.sp == .sp)

/-- The descriptor registers of COPY (R174): a vector register, a multiple of 4. -/
def okCopyRegs : Opnd → Bool
  | .v i => i.val % 4 == 0
  | _ => false

/-- COPY (R149, R174). -/
def okCopy (x : MForm) : Bool :=
  okM x true (x.ty == .i8) (okOrd x false false false) false (okVec false x.d) (okCopyRegs x.idx && x.xs == 0) true

/-- COPYQ (R149, R188). -/
def okCopyq (x : MForm) : Bool :=
  okM x false (x.ty == .i8) (okOrd x false true false && (x.sc == .dev || x.sc == .dom || x.sc == .sys)) false
    (okReg true x.d) (okReg false x.idx && x.xs == 0) (x.sp == .ob)

/-! ## The B format (R29, R139) -/

/-- A branch: which operands it has. -/
def okB (x : BForm) (link target direct : Bool) : Bool :=
  okGuard x.g && (if link then okVec true x.d else okNone x.d) && (if target then okReg true x.a else okNone x.a) &&
    (direct || (x.ts == 0 && x.ldisp == 0))

/-! ## The X format (R31, R32) -/

/-- Which X-format fields an instruction uses; the others are zero (R32). -/
structure XUse where
  la : Bool
  acc : Bool
  jg : Bool
  bed : Bool
  fsi : Bool
  side : Bool
  peg : Bool
  ver : Bool
  deriving DecidableEq, Repr

/-- The version fields (R210): an immediate, or the low half of a scalar register in A. DEDUCED: log entry 12. -/
def okVersion (x : XForm) : Bool :=
  if x.vsrc then x.ver == 0 && (match x.a with | .s _ => true | _ => false) else okNone x.a

/-- An X-format word within its use; d and a are the checks of the operands, a only where A carries no version. -/
def okX (x : XForm) (u : XUse) (d a : Bool) : Bool :=
  okGuard x.g && (u.la || x.la == 0) && (u.acc || x.acc == 0) && (u.jg || x.jg == 0) &&
    (if u.bed then x.bdb.val + x.bdn.val + 1 ≤ 32 else x.bdb == 0 && x.bdn == 0) && (u.fsi || x.fsi == 0) &&
    (u.side || (!x.side && !x.cja && !x.cjb)) && (if u.peg then x.pge || x.pg == 0 else !x.pge && x.pg == 0) &&
    (if u.ver then true else !x.vsrc && x.ver == 0) && d && a

/-- No field. -/
def noX : XUse :=
  { la := false, acc := false, jg := false, bed := false, fsi := false, side := false, peg := false, ver := false }

/-- ACCMOV (R216): VSRC is 0, VER the version, A the column. -/
def okAccmov (n : MovCount) (x : XForm) : Bool :=
  okX x { noX with la := true, acc := true, ver := true }
    (okRange (movCount n) x.d && match x.d with | .s _ => false | _ => true) (okReg false x.a || okNat x.a) && !x.vsrc

/-! ## The S format (R33, R233) -/

/-- An S-format word: the operands, the special register and the immediate. -/
def okS (x : SForm) (ug : Bool) (d a sr imm : Bool) : Bool :=
  okGuard x.g && (!ug || unguarded x.g) && d && a && sr && imm

/-- A plain word with no operand. -/
def okS0 (x : SForm) (ug imm : Bool) : Bool := okS x ug (okNone x.d) (okNone x.a) (x.sr == 0) imm

/-- A peg operand (R145). -/
def okPeg : Opnd → Bool
  | .peg _ => true
  | _ => false

/-- A timeline operand (R197). -/
def okTl : Opnd → Bool
  | .tl _ => true
  | _ => false

/-- The width of a special register, or none for a number the map does not list (R244). -/
def srWide (n : Nat) : Option Bool :=
  if n ≤ 0x00D || (0x010 ≤ n && n ≤ 0x018) || n == 0x020 || (0x030 ≤ n && n ≤ 0x034) || n == 0x040 ||
      (0x050 ≤ n && n ≤ 0x051) || (0x070 ≤ n && n ≤ 0x072) then some false
  else if n == 0x060 then some true
  else none

/-- SRD (R242). -/
def okSrd (x : SForm) : Bool :=
  okS x false (match srWide x.sr.toNat with | some w => okReg w x.d | none => false) (okNone x.a) true (x.imm == 0)

/-- A job-card operand (R231). -/
def okCard (o : Opnd) : Bool := okReg false o || okNat o

/-! ## Every instruction word -/

/-- The six formats (R24 to R33). -/
inductive Format where
  | r | i | m | b | x | s
  deriving DecidableEq, Repr

/-- The format of an assigned major opcode (R45), none for an unassigned one (R46, R47). -/
def formatOf (opc : Nat) : Option Format :=
  if opc == 0x01 then some .s
  else if 0x02 ≤ opc && opc ≤ 0x0F then some .r
  else if 0x10 ≤ opc && opc ≤ 0x19 then some .i
  else if 0x20 ≤ opc && opc ≤ 0x3E then some .r
  else if 0x40 ≤ opc && opc ≤ 0x47 then some .r
  else if 0x50 ≤ opc && opc ≤ 0x5B then some .m
  else if 0x60 ≤ opc && opc ≤ 0x62 then some .r
  else if 0x64 ≤ opc && opc ≤ 0x65 then some .m
  else if 0x66 ≤ opc && opc ≤ 0x67 then some .s
  else if 0x70 ≤ opc && opc ≤ 0x78 then some .x
  else if 0x80 ≤ opc && opc ≤ 0x82 then some .r
  else if opc == 0x88 || opc == 0x8A || opc == 0x8C || opc == 0x8D then some .r
  else if opc == 0x89 || opc == 0x8B then some .s
  else if 0x90 ≤ opc && opc ≤ 0x96 then some .s
  else if 0xA0 ≤ opc && opc ≤ 0xA5 then some .b
  else if 0xF0 ≤ opc && opc ≤ 0xF9 then some .s
  else none

/-- The encoding of an instruction word is legal. The rows that are not instruction words have no encoding.
DESIGN CHOICE: log entry 93. -/
def encodingLegal : Instr → Bool
  | .nop x => okS0 x false (x.imm == 0)
  | .add x | .sub x | .mul x => okInt2 x false true
  | .mulhi x | .min x | .max x => okInt2 x false false
  | .mad x | .sad x => okInt3 x
  | .div x => okInt2 x true true
  | .rem x => okInt2 x true false
  | .abs x => okInt1 x (tySgn x.ty)
  | .neg x => okInt1 x (tyInt x.ty)
  | .addc x | .subb x => okCarry x
  | .addi x | .muli x => okIAlu x (tyInt x.ty) true
  | .andi x | .ori x | .xori x => okIAlu x (tyInt x.ty || tyBitsKind x.ty) false
  | .shli x => okIShift x (tyInt x.ty || tyBitsKind x.ty) (tyInt x.ty)
  | .shri x => okIShift x (tyInt x.ty || tyBitsKind x.ty) false
  | .sari x => okIShift x (tySgn x.ty || tyBitsKind x.ty) false
  | .movi x =>
    okI x (tyInt x.ty || tyBitsKind x.ty || tyFl x.ty) false (x.om == 0) .never (okReg (tyWide x.ty) x.d) (okNone x.a)
  | .cmpi x =>
    okI x (tyInt x.ty || tyBitsKind x.ty) false (okCond x.ty x.om) .always (okNone x.d) (okSrc x.ty x.a)
  | .and x | .or x | .xor x => okLogic x true
  | .not x => okLogic x false
  | .shl x => okShift x (tyInt x.ty || tyBitsKind x.ty) (tyInt x.ty)
  | .shr x | .rot x => okShift x (tyInt x.ty || tyBitsKind x.ty) false
  | .sar x => okShift x (tySgn x.ty || tyBitsKind x.ty) false
  | .popc x | .clz x => okBitCount x
  | .bfx x | .bfi x => okBitField x
  | .sel x =>
    okR x { la := false, ty := true, rm := false, sat := false, om := x.om == 0, q := .never,
            d := okReg (tyWide x.ty) x.d, a := okSrc x.ty x.a, b := okSrc x.ty x.b, c := okPred x.c }
  | .cmp x =>
    okR x { la := false, ty := tyInt x.ty || tyBitsKind x.ty, rm := false, sat := false, om := okCond x.ty x.om,
            q := .always, d := okNone x.d, a := okSrc x.ty x.a, b := okSrc x.ty x.b, c := okNone x.c }
  | .mov x =>
    okR x { la := false, ty := true, rm := false, sat := false, om := x.om == 0, q := .never,
            d := okReg (tyWide x.ty) x.d, a := okSrc x.ty x.a, b := okNone x.b, c := okNone x.c }
  | .lea x =>
    okR x { la := false, ty := tyBitsKind x.ty, rm := false, sat := false, om := x.om.toNat ≤ 3, q := .never,
            d := okReg (tyWide x.ty) x.d, a := okSrc x.ty x.a, b := okSrc x.ty x.b, c := okNone x.c }
  | .fadd x | .fsub x | .fmul x => okFloat x false true (okPk x) 2
  | .fma x => okFloat x false true (okPk x) 3
  | .fdiv x => okFloat x true true (x.om == 0) 2
  | .fsqrt x => okFloat x true true (x.om == 0) 1
  | .fmin x | .fmax x => okFloat x false false (okPk x) 2
  | .fcmp x =>
    okR x { la := false, ty := tyFl x.ty, rm := false, sat := false, om := true, q := .always,
            d := okNone x.d, a := okSrc x.ty x.a, b := okSrc x.ty x.b, c := okNone x.c }
  | .fclass x =>
    okR x { la := false, ty := tyFl x.ty, rm := false, sat := false, om := x.om == 0, q := .never,
            d := okReg false x.d, a := okSrc x.ty x.a, b := okNone x.b, c := okNone x.c }
  | .frcp x | .frsq x => okFloat x false true (x.om == 0) 1
  | .cvt src x => okCvt src x
  | .frnd x => okFloat x false true (x.om.toNat ≤ 1) 1
  | .fsgn x => okFsgn x
  | .plog x =>
    okR x { la := false, ty := x.ty == .i8, rm := false, sat := false, om := x.om.toNat ≤ 2, q := .always,
            d := okNone x.d, a := okPred x.a, b := okPred x.b, c := okNone x.c }
  | .pset x => okPset x
  | .shfl x =>
    okR x { la := false, ty := tyBitsKind x.ty, rm := false, sat := false, om := x.om.toNat ≤ 3, q := .optional,
            d := okReg (tyWide x.ty) x.d, a := okSrc x.ty x.a, b := okCount x.b, c := okNone x.c }
  | .vote x => okVote x
  | .gred x => okGred x
  | .bcast x =>
    okR x { la := false, ty := tyBitsKind x.ty, rm := false, sat := false, om := x.om == 0, q := .optional,
            d := okReg (tyWide x.ty) x.d, a := okSrc x.ty x.a, b := okNone x.b, c := okPred x.c }
  | .gscan x => okGscan x
  | .lmask x => okLmask x
  | .ld x => okM x true true (okOrd x true false false) true (okReg (tyWide x.ty) x.d) (okIndex x.idx) true
  | .st x => okM x false true (okOrd x false true false) true (okSrc x.ty x.d) (okIndex x.idx) true
  | .ldx n x =>
    okM x true (x.ty == .b32) (okOrd x true false false) true (okRange (xCount n) x.d) (okIndex x.idx) true
  | .stx n x =>
    okM x false (x.ty == .b32) (okOrd x false true false) true (okRange (xCount n) x.d) (okIndex x.idx) true
  | .atom op x => okAtom x op
  | .red op x => okRed x op
  | .cas x => okCas x
  | .fence x => okFence x
  | .lcinv x | .wcdrain x => okLine x false
  | .lcinvAll x | .wcdrainAll x => okLine x true
  | .validSet x | .validClr x => okValid x (okLen x.d)
  | .validGet x => okValid x (okReg false x.d)
  | .pref x => okM x false (x.ty == .i8) (okOrd x false false false) false (okNone x.d) (okIndex x.idx) (x.sp == .ob)
  | .capder x => okCap x (x.om == 0) (okReg false x.b || okImm x.b)
  | .capadd x => okCap x (x.om.toNat ≤ 1) (if x.om == 1 then okReg true x.b else okReg false x.b || okImm x.b)
  | .capq x => okCap x (x.om.toNat ≤ 4) (okNone x.b)
  | .copy x => okCopy x
  | .copyq x => okCopyq x
  | .tlwait x => okS x false (okTl x.d) (okReg true x.a) (x.sr == 0) (x.imm == 2 || x.imm == 3 || x.imm == 4)
  | .tlrd x | .tlrdIssued x => okS x false (okReg true x.d) (okTl x.a) (x.sr == 0) (x.imm == 0)
  | .jig x => okX x { noX with jg := true } (okReg true x.d) (okReg true x.a)
  | .jigSt x | .jigLd x => okX x { noX with jg := true } (okReg true x.d) (okNone x.a)
  | .mx x | .mxSet x =>
    okX x { la := false, acc := true, jg := true, bed := true, fsi := true, side := true, peg := true, ver := true }
      (okNone x.d) (okVersion x)
  | .accz x => okX x { noX with acc := true, ver := true } (okNone x.d) (okVersion x)
  | .accld x => okX x { noX with acc := true } (okReg true x.d) (okNone x.a)
  | .accst x => okX x { noX with acc := true, ver := true } (okReg true x.d) (okVersion x)
  | .accstNow x => okX x { noX with acc := true } (okReg true x.d) (okNone x.a)
  | .accmov n x => okAccmov n x
  | .accver x => okX x { noX with acc := true, ver := true } (okReg false x.d) (okVersion x)
  | .accverNow x => okX x { noX with acc := true } (okReg false x.d) (okNone x.a)
  | .bedld x | .bedldGrain x => okX x { noX with bed := true, fsi := true } (okReg true x.d) (okVec false x.a)
  | .bedclr x => okX x { noX with bed := true } (okNone x.d) (okNone x.a)
  | .qmul x => okAlgebra x true true (okComponents x.ty x.d) (okComponents x.ty x.b)
  | .qconj x => okAlgebra x false (x.om == 0) (okComponents x.ty x.d) (okNone x.b)
  | .qnorm x => okAlgebra x true true (okReg (tyWide x.ty) x.d) (okNone x.b)
  | .fwr x => okFwr x
  | .step x | .stepR x => okS0 x true (x.imm == 0)
  | .nq x => okNq x
  | .settle x => okS x true (okReg true x.d) (okReg false x.a) (x.sr == 0) (x.imm != 0)
  | .resid x =>
    okR x { la := false, ty := x.ty == .f32, rm := false, sat := false, om := x.om.toNat ≤ 1, q := .never,
            d := okNone x.d, a := okSrc x.ty x.a, b := okNone x.b, c := okNone x.c }
  | .stest x =>
    okR x { la := false, ty := x.ty == .i8, rm := false, sat := false, om := x.om == 0, q := .always,
            d := okNone x.d, a := okNone x.a, b := okNone x.b, c := okNone x.c }
  | .bar x | .bararr x | .barwt x => okS0 x true (x.imm.toNat < 8)
  | .meet x | .peg x => okS x true (okNone x.d) (okPeg x.a) (x.sr == 0) (x.imm == 0)
  | .pegDef x =>
    okS x true (okNone x.d) (okPeg x.a) (x.sr == 0) (x.imm.toNat / 64 % 4 == 0 && x.imm.toNat / 16384 == 0)
  | .postCore x | .postBay x => okS x false (okNone x.d) (okCard x.a) (x.sr == 0) (x.imm == 0)
  | .postNbr x => okS x false (okNone x.d) (okCard x.a) (x.sr == 0) (1 ≤ x.imm.toNat && x.imm.toNat ≤ 7)
  | .yield x => okS0 x true (x.imm.toNat ≤ 4095)
  | .bra x => okB x false false true
  | .jmpi x | .ret x => okB x false true false
  | .call x => okB x true false true
  | .calli x => okB x true true false
  | .exit x => okB x false false false
  | .trap x | .brk x => okS0 x false true
  | .tret x => okS0 x true (x.imm == 0)
  | .srd x => okSrd x
  | .swr x => okS x false (okNone x.d) (okReg false x.a || okImm x.a) (x.sr == 0x020) (x.imm == 0)
  | .grow x =>
    okS x true (okPredDst x.d) (okNone x.a) (x.sr == 0)
      (x.imm.toNat % 8 == 0 && 8 ≤ x.imm.toNat && x.imm.toNat ≤ 240)
  | .shrink x => okS0 x false true
  | .evwait x =>
    okS x false (okReg false x.d) (okReg false x.a) (x.sr == 0x031) (1 ≤ x.imm.toNat && x.imm.toNat ≤ 7)
  | .ilinv x => okS x false (okNone x.d) (okReg true x.a) (x.sr == 0) (x.imm == 0)
  | .ilinvAll x | .sampleOff x => okS0 x false (x.imm == 0)
  | .sampleOn x =>
    okS x false (okNone x.d) (okReg true x.a) (x.sr == 0) (8 ≤ x.imm.toNat && x.imm.toNat ≤ 20)
  | .zeroWord => true
  | .unassignedMajorOpcode w => w.toNat / 2 ^ 88 != 0 && (formatOf (w.toNat / 2 ^ 88)).isNone
  | .lineFetchComplete _ _ => true
  | .asyncTrapDelivery _ _ _ => true
  | .accessReply _ _ => true
  | .parkServiceComplete _ _ _ => true
  | .firstTouchPlacement _ _ _ _ => true
  | .unitAccessService _ _ => true
  | .wcAgeingExpiry _ _ => true
  | .wcDrainPerformed _ _ => true
  | .remoteRequest _ => true
  | .copyAccept _ => true
  | .copyRetire _ _ => true
  | .copyqSlotWrite _ _ => true
  | .queueTakeSlot _ => true
  | .packetRetire _ _ => true
  | .gather _ _ => true
  | .collective _ _ => true
  | .bedldComplete _ _ => true
  | .mxLaunch _ _ _ => true
  | .mxCommit _ => true
  | .pegEpisodeClose _ _ _ => true
  | .barrierOpen _ _ _ => true
  | .barrierReleaseWave _ _ _ => true
  | .waitEnd _ _ _ => true
  | .pendingPlace _ => true
  | .entryEviction _ => true
  | .sliceReturn _ _ _ _ => true
  | .growGrant _ => true
  | .growDeadlockRule _ => true
  | .blockRetire _ _ => true
  | .blockVacate _ _ => true
  | .blockRedispatch _ _ => true
  | .blockDispatch _ => true
  | .bayDispatchPull _ _ => true
  | .preemptionSend => true
  | .admission _ _ => true
  | .fieldPlacement _ => true
  | .trigger _ => true
  | .run _ => true
  | .nodeComplete _ => true
  | .runEnd _ => true
  | .faceNotice _ _ => true
  | .stepRPublicationReady _ _ => true
  | .trussStepComplete _ _ => true
  | .samplerTick _ => true
  | .arbitrate => true
  | .grantChangeComplete => true
  | .bayControllerEvaluation _ => true
  | .tcapChange => true
  | .boostTick => true
  | .refill _ => true
  | .gatingSequence _ => true
  | .bayWakeComplete _ => true
  | .bankWakeComplete _ => true
  | .wayGating _ _ => true
  | .subscriptionFiring _ => true
  | .scrub _ => true
  | .marginSequence _ => true
  | .holdOffExpiry => true
  | .retransmissionTimeout _ => true
  | .packetArrival _ => true
  | .planeFailover _ _ => true
  | .unreachableTimeout => true
  | .classPause _ _ _ => true
  | .combiningWindowClose _ => true
  | .combinedReply _ => true
  | .flitReceive _ _ => true
  | .replayRequest _ _ => true
  | .trainComplete _ _ => true
  | .retrainTrigger _ => true
  | .keyMarker _ => true
  | .kwarn _ => true
  | .invocationLimit _ => true
  | .deviceFaultNotify => true
  | .boot => true
  | .ctxopen _ _ _ => true
  | .ctxclose _ _ => true
  | .ctxset _ _ _ _ => true
  | .ctxbudget _ _ _ => true
  | .stateread _ _ _ _ => true
  | .objset _ _ _ => true
  | .extset _ _ _ _ => true
  | .parkdone _ _ _ _ => true
  | .frameclass _ _ _ => true
  | .frameretire _ _ => true
  | .graphload _ _ _ _ => true
  | .graphfree _ _ => true
  | .pcap _ _ => true
  | .slope _ _ _ => true
  | .subscribe _ _ _ _ _ _ _ => true
  | .unsubscribe _ _ => true
  | .margin _ _ _ => true
  | .bayquiesce _ _ => true
  | .bayrecal _ _ => true
  | .bayreturn _ _ => true
  | .porttrain _ _ => true
  | .portisolate _ _ => true
  | .portstatus _ _ => true
  | .keyload _ _ _ _ _ _ => true
  | .peerset _ _ _ => true
  | .exportObjs _ _ _ => true
  | .spare _ _ => true
  | .fwstage _ _ => true
  | .fwactivate _ => true
  | .shoprestart _ _ => true
  | .attest _ _ _ _ => true
  | .fuseadvance _ _ => true
  | .unknownCommand _ _ => true
  | .yieldCyclesEnd _ _ => true
  | .resultArrival _ _ _ _ => true
  | .objectCacheMissFill _ _ _ => true
  | .feedReadFault _ => true
  | .tempbandChange => true
  | .scratchpadBankGating _ => true

end Sys2Proof.Machine
end

