-- ==== Sys2Proof/WellFormed.lean ====
section
/-! DEFINITION. Well-formed instructions: an instruction word whose encoding is legal (01 R34, R39). An event or a
command has no encoding; its numbers name units of the device, and a number that names nothing makes an event that
changes nothing. -/

namespace Sys2Proof

/-- The instruction is well formed. -/
abbrev WellFormed (i : Instr) : Prop := Machine.encodingLegal i = true

end Sys2Proof
end

