-- ==== Sys2Proof/Decode.lean ====
section
/-! DEFINITION. The decoder and the encoder (01 R21 to R47). A word is read as the field values of its format, high bits
first; each field is then read by its rule. A word that R34 or R39 calls illegal is rejected by name. -/

namespace Sys2Proof

/-- Why a word is rejected. Every reason raises illegal instruction, cause 0x01 (R34, R46). -/
inductive Reject where
  /-- OPC is 0x00 and the word is not zero (R46). -/
  | majorZero
  /-- A reserved bit is set (R34). -/
  | reservedBit
  /-- FN names no function of the major opcode (R34). -/
  | unknownFunction
  /-- An operand specifier names nothing (R35 to R38). -/
  | badOperand
  /-- QE and QP do not agree, or LA is set on a format without it (R34, R40). -/
  | badField
  /-- A field has a value that the instruction does not define (R34, R39). -/
  | notAllowed
  deriving DecidableEq, Repr

/-! ## Fields -/

/-- The number of bits of a list of fields. -/
def fieldBits : List Nat → Nat
  | [] => 0
  | w :: ws => w + fieldBits ws

/-- The word of field values, high field first. -/
def packFields : List Nat → List Nat → Nat
  | w :: ws, v :: vs => (v % 2 ^ w) * 2 ^ fieldBits ws + packFields ws vs
  | _, _ => 0

/-- The field values of a word, high field first. -/
def unpackFields : List Nat → Nat → List Nat
  | [], _ => []
  | w :: ws, n => n / 2 ^ fieldBits ws % 2 ^ w :: unpackFields ws n

/-- The fields common to all formats (R21), then the R format (R24): OPC, GN, GP, LA, FN, TY, RM, SAT, OM, D, A, B, C, QE,
QP, reserved. -/
def rFields : List Nat := [8, 1, 3, 4, 6, 4, 2, 1, 3, 12, 12, 12, 12, 1, 3, 12]
/-- The I format (R25): OPC, GN, GP, LA, FN, TY, RM, SAT, OM, D, A, QE, QP, reserved, IMM. -/
def iFields : List Nat := [8, 1, 3, 4, 6, 4, 2, 1, 3, 12, 12, 1, 3, 4, 32]
/-- The M format (R26): OPC, GN, GP, LA, FN, TY, SC, ORD, NA, D, BASE, IDX, SP, XS, DISP. -/
def mFields : List Nat := [8, 1, 3, 4, 6, 4, 3, 2, 1, 12, 12, 12, 2, 2, 24]
/-- The B format (R29): OPC, GN, GP, LA, FN, reserved, D, A, reserved, TS, LDISP. -/
def bFields : List Nat := [8, 1, 3, 4, 6, 10, 12, 12, 5, 3, 32]
/-- The X format (R31): OPC, GN, GP, LA, FN, ACC, JG, BDB, BDN, FSI, SIDE, CJA, CJB, PGE, PG, VSRC, VER, D, A, reserved. -/
def xFields : List Nat := [8, 1, 3, 4, 6, 4, 4, 5, 5, 3, 1, 1, 1, 1, 4, 1, 16, 12, 12, 4]
/-- The S format (R33): OPC, GN, GP, LA, FN, reserved, D, A, SR, reserved, IMM16. -/
def sFields : List Nat := [8, 1, 3, 4, 6, 10, 12, 12, 9, 15, 16]

/-! ## Operands (R35 to R38) -/

/-- The direction code (R36). -/
def dirCode : Dir → Nat
  | .me => 0 | .xm => 1 | .xp => 2 | .ym => 3 | .yp => 4 | .zm => 5 | .zp => 6 | .pre => 7 | .nxt => 8

/-- The direction of a code (R36). -/
def dirOf (n : Nat) : Option Dir :=
  match n with
  | 0 => some .me | 1 => some .xm | 2 => some .xp | 3 => some .ym | 4 => some .yp | 5 => some .zm | 6 => some .zp
  | 7 => some .pre | 8 => some .nxt | _ => none

/-- The specifier of an operand (R35). -/
def opndCode : Opnd → Nat
  | .v i => i.val
  | .k i => 248 + i.val
  | .s i => 512 + i.val
  | .face d n => 1024 + dirCode d * 32 + n.val
  | .pred neg i => 1536 + (if neg then 8 else 0) + i.val
  | .acc i => 2048 + i.val
  | .jig i => 2048 + 64 + i.val
  | .peg i => 2048 + 128 + i.val
  | .bed i => 2048 + 192 + i.val
  | .tl i => 2048 + 256 + i.val
  | .fs i => 2048 + 320 + i.val
  | .imm x => 2560 + x.toNat

/-- A register specifier of class 000. -/
def vecOf (p : Nat) : Option Opnd :=
  if h : p < 248 then some (.v ⟨p, h⟩) else if h : p - 248 < 8 then some (.k ⟨p - 248, h⟩) else none

/-- A matrix-object specifier (R38). -/
def objectOf (kind i : Nat) : Option Opnd :=
  match kind with
  | 0 => if h : i < 16 then some (.acc ⟨i, h⟩) else none
  | 1 => if h : i < 16 then some (.jig ⟨i, h⟩) else none
  | 2 => if h : i < 16 then some (.peg ⟨i, h⟩) else none
  | 3 => if h : i < 32 then some (.bed ⟨i, h⟩) else none
  | 4 => if h : i < 8 then some (.tl ⟨i, h⟩) else none
  | 5 => if h : i < 8 then some (.fs ⟨i, h⟩) else none
  | _ => none

/-- The operand of a specifier (R35): class in bits [11:9], payload in [8:0]. -/
def opndOf (n : Nat) : Option Opnd :=
  let p := n % 512
  match n / 512 with
  | 0 => vecOf p
  | 1 => if h : p < 64 then some (.s ⟨p, h⟩) else none
  | 2 => if h : p % 32 < 16 then (dirOf (p / 32)).map fun d => .face d ⟨p % 32, h⟩ else none
  | 3 => if p < 16 then some (.pred (p / 8 == 1) ⟨p % 8, Nat.mod_lt _ (by decide)⟩) else none
  | 4 => objectOf (p / 64) (p % 64)
  | 5 => some (.imm (BitVec.ofNat 9 p))
  | _ => none

/-! ## Small fields -/

/-- The guard of GN and GP (R21). -/
def guardOf (gn gp : Nat) : Guard := { neg := gn == 1, p := ⟨gp % 8, Nat.mod_lt _ (by decide)⟩ }

/-- GN (R21). -/
def guardN (g : Guard) : Nat := if g.neg then 1 else 0

/-- The rounding mode of RM (R24). -/
def rmOf (n : Nat) : Rm :=
  match n with
  | 0 => .rne | 1 => .rtz | 2 => .rup | _ => .rdn

/-- RM (R24). -/
def rmCode : Rm → Nat
  | .rne => 0 | .rtz => 1 | .rup => 2 | .rdn => 3

/-- The scope of SC (R26). -/
def scopeOf (n : Nat) : Option Scope :=
  match n with
  | 0 => some .grp | 1 => some .blk | 2 => some .dev | 3 => some .dom | 4 => some .sys | _ => none

/-- SC (R26). -/
def scopeCode : Scope → Nat
  | .grp => 0 | .blk => 1 | .dev => 2 | .dom => 3 | .sys => 4

/-- The space of SP (R26). -/
def spaceOf (n : Nat) : Option Space :=
  match n with
  | 0 => some .sp | 1 => some .ob | 2 => some .xr | _ => none

/-- SP (R26). -/
def spaceCode : Space → Nat
  | .sp => 0 | .ob => 1 | .xr => 2

/-- The predicate destination of QE and QP (R34). -/
def qpOf (qe qp : Nat) : Option (Option (Fin 7)) :=
  if qe == 1 then (if h : qp < 7 then some (some ⟨qp, h⟩) else none) else if qp == 0 then some none else none

/-- QE. -/
def qeCode (q : Option (Fin 7)) : Nat := if q.isSome then 1 else 0

/-- QP. -/
def qpCode (q : Option (Fin 7)) : Nat :=
  match q with
  | some p => p.val
  | none => 0

/-- A one-bit field. -/
def bit (b : Bool) : Nat := if b then 1 else 0

/-- The register count of LDX and STX (R158). -/
def xCountOf (n : Nat) : Option XCount :=
  match n with
  | 0 => some .x2 | 1 => some .x4 | 2 => some .x8 | _ => none

/-- FN of LDX and STX. -/
def xCountCode : XCount → Nat
  | .x2 => 0 | .x4 => 1 | .x8 => 2

/-- The count of ACCMOV (R216). -/
def movCountOf (n : Nat) : Option MovCount :=
  match n with
  | 0 => some .x1 | 1 => some .x2 | 2 => some .x4 | 3 => some .x8 | _ => none

/-- FN of ACCMOV. -/
def movCountCode : MovCount → Nat
  | .x1 => 0 | .x2 => 1 | .x4 => 2 | .x8 => 3

/-- The operation of an atomic (R161). -/
def atomOpOf (n : Nat) : Option AtomOp :=
  match n with
  | 0 => some .add | 1 => some .adds | 2 => some .min | 3 => some .max | 4 => some .and | 5 => some .or | 6 => some .xor
  | 7 => some .exch | 8 => some .inc | 9 => some .dec | _ => none

/-- FN of an atomic. -/
def atomOpCode : AtomOp → Nat
  | .add => 0 | .adds => 1 | .min => 2 | .max => 3 | .and => 4 | .or => 5 | .xor => 6 | .exch => 7 | .inc => 8 | .dec => 9

/-! ## Words to forms -/

/-- The value, or the rejection. -/
def orReject {α : Type} (r : Reject) : Option α → Except Reject α
  | some a => .ok a
  | none => .error r

/-- Reject unless the condition holds. -/
def check (r : Reject) (b : Bool) : Except Reject Unit := if b then .ok () else .error r

/-- The R format (R24): FN and the form. -/
def parseR (w : Nat) : Except Reject (Nat × RForm) :=
  match unpackFields rFields w with
  | [_, gn, gp, la, fn, ty, rm, sat, om, d, a, b, c, qe, qp, rs] => do
    check .reservedBit (rs == 0)
    let d ← orReject .badOperand (opndOf d)
    let a ← orReject .badOperand (opndOf a)
    let b ← orReject .badOperand (opndOf b)
    let c ← orReject .badOperand (opndOf c)
    let q ← orReject .badField (qpOf qe qp)
    pure (fn, { g := guardOf gn gp, la := BitVec.ofNat 4 la, ty := Machine.tyOfCode ty, rm := rmOf rm, sat := sat == 1,
                om := BitVec.ofNat 3 om, d := d, a := a, b := b, c := c, qp := q })
  | _ => .error .badField

/-- The word of an R-format instruction. -/
def packR (opc fn : Nat) (x : RForm) : Nat :=
  packFields rFields [opc, guardN x.g, x.g.p.val, x.la.toNat, fn, Machine.tyCode x.ty, rmCode x.rm, bit x.sat, x.om.toNat,
    opndCode x.d, opndCode x.a, opndCode x.b, opndCode x.c, qeCode x.qp, qpCode x.qp, 0]

/-- The I format (R25). -/
def parseI (w : Nat) : Except Reject (Nat × IForm) :=
  match unpackFields iFields w with
  | [_, gn, gp, la, fn, ty, rm, sat, om, d, a, qe, qp, rs, imm] => do
    check .reservedBit (rs == 0)
    check .badField (la == 0)
    let d ← orReject .badOperand (opndOf d)
    let a ← orReject .badOperand (opndOf a)
    let q ← orReject .badField (qpOf qe qp)
    pure (fn, { g := guardOf gn gp, ty := Machine.tyOfCode ty, rm := rmOf rm, sat := sat == 1, om := BitVec.ofNat 3 om,
                d := d, a := a, qp := q, imm := BitVec.ofNat 32 imm })
  | _ => .error .badField

/-- The word of an I-format instruction. -/
def packI (opc : Nat) (x : IForm) : Nat :=
  packFields iFields [opc, guardN x.g, x.g.p.val, 0, 0, Machine.tyCode x.ty, rmCode x.rm, bit x.sat, x.om.toNat,
    opndCode x.d, opndCode x.a, qeCode x.qp, qpCode x.qp, 0, x.imm.toNat]

/-- The M format (R26). -/
def parseM (w : Nat) : Except Reject (Nat × MForm) :=
  match unpackFields mFields w with
  | [_, gn, gp, la, fn, ty, sc, ord, na, d, base, idx, spc, xs, disp] => do
    let sc ← orReject .badField (scopeOf sc)
    let space ← orReject .badField (spaceOf spc)
    let d ← orReject .badOperand (opndOf d)
    let base ← orReject .badOperand (opndOf base)
    let idx ← orReject .badOperand (opndOf idx)
    pure (fn, { g := guardOf gn gp, la := BitVec.ofNat 4 la, ty := Machine.tyOfCode ty, sc := sc, acq := ord % 2 == 1,
                rel := ord / 2 == 1, na := na == 1, d := d, base := base, idx := idx, sp := space,
                xs := ⟨xs % 4, Nat.mod_lt _ (by decide)⟩, disp := BitVec.ofNat 24 disp })
  | _ => .error .badField

/-- The word of an M-format instruction. -/
def packM (opc fn : Nat) (x : MForm) : Nat :=
  packFields mFields [opc, guardN x.g, x.g.p.val, x.la.toNat, fn, Machine.tyCode x.ty, scopeCode x.sc,
    bit x.acq + 2 * bit x.rel, bit x.na, opndCode x.d, opndCode x.base, opndCode x.idx, spaceCode x.sp, x.xs.val,
    x.disp.toNat]

/-- The B format (R29): a target slot of 5 to 7 is illegal. -/
def parseB (w : Nat) : Except Reject (Nat × BForm) :=
  match unpackFields bFields w with
  | [_, gn, gp, la, fn, r1, d, a, r2, ts, ldisp] => do
    check .reservedBit (r1 == 0 && r2 == 0)
    check .badField (la == 0)
    let d ← orReject .badOperand (opndOf d)
    let a ← orReject .badOperand (opndOf a)
    if h : ts < 5 then
      pure (fn, { g := guardOf gn gp, d := d, a := a, ts := ⟨ts, h⟩, ldisp := BitVec.ofNat 32 ldisp })
    else .error .badField
  | _ => .error .badField

/-- The word of a B-format instruction. -/
def packB (opc : Nat) (x : BForm) : Nat :=
  packFields bFields [opc, guardN x.g, x.g.p.val, 0, 0, 0, opndCode x.d, opndCode x.a, 0, x.ts.val, x.ldisp.toNat]

/-- The X format (R31). -/
def parseX (w : Nat) : Except Reject (Nat × XForm) :=
  match unpackFields xFields w with
  | [_, gn, gp, la, fn, acc, jg, bdb, bdn, fsi, side, cja, cjb, pge, pg, vsrc, ver, d, a, rs] => do
    check .reservedBit (rs == 0)
    let d ← orReject .badOperand (opndOf d)
    let a ← orReject .badOperand (opndOf a)
    pure (fn, { g := guardOf gn gp, la := BitVec.ofNat 4 la, acc := Fin.ofNat 16 acc, jg := Fin.ofNat 16 jg,
                bdb := Fin.ofNat 32 bdb, bdn := Fin.ofNat 32 bdn, fsi := Fin.ofNat 8 fsi, side := side == 1,
                cja := cja == 1, cjb := cjb == 1, pge := pge == 1, pg := Fin.ofNat 16 pg, vsrc := vsrc == 1,
                ver := BitVec.ofNat 16 ver, d := d, a := a })
  | _ => .error .badField

/-- The word of an X-format instruction. -/
def packX (opc fn : Nat) (x : XForm) : Nat :=
  packFields xFields [opc, guardN x.g, x.g.p.val, x.la.toNat, fn, x.acc.val, x.jg.val, x.bdb.val, x.bdn.val, x.fsi.val,
    bit x.side, bit x.cja, bit x.cjb, bit x.pge, x.pg.val, bit x.vsrc, x.ver.toNat, opndCode x.d, opndCode x.a, 0]

/-- The S format (R33). -/
def parseS (w : Nat) : Except Reject (Nat × SForm) :=
  match unpackFields sFields w with
  | [_, gn, gp, la, fn, r1, d, a, sr, r2, imm] => do
    check .reservedBit (r1 == 0 && r2 == 0)
    check .badField (la == 0)
    let d ← orReject .badOperand (opndOf d)
    let a ← orReject .badOperand (opndOf a)
    pure (fn, { g := guardOf gn gp, d := d, a := a, sr := BitVec.ofNat 9 sr, imm := BitVec.ofNat 16 imm })
  | _ => .error .badField

/-- The word of an S-format instruction. -/
def packS (opc fn : Nat) (x : SForm) : Nat :=
  packFields sFields [opc, guardN x.g, x.g.p.val, 0, fn, 0, opndCode x.d, opndCode x.a, x.sr.toNat, 0, x.imm.toNat]

/-! ## Functions of each major opcode (R45) -/

/-- The R-format instruction of a major opcode and FN. CVT has its source type in FN (R76). -/
def buildR (opc fn : Nat) (x : RForm) : Option Instr :=
  match opc, fn with
  | 0x02, 0 => some (.add x)
  | 0x03, 0 => some (.sub x)
  | 0x04, 0 => some (.mul x)
  | 0x05, 0 => some (.mulhi x)
  | 0x06, 0 => some (.mad x)
  | 0x07, 0 => some (.div x)
  | 0x08, 0 => some (.rem x)
  | 0x09, 0 => some (.min x)
  | 0x0A, 0 => some (.max x)
  | 0x0B, 0 => some (.abs x)
  | 0x0C, 0 => some (.neg x)
  | 0x0D, 0 => some (.addc x)
  | 0x0E, 0 => some (.subb x)
  | 0x0F, 0 => some (.sad x)
  | 0x20, 0 => some (.and x)
  | 0x21, 0 => some (.or x)
  | 0x22, 0 => some (.xor x)
  | 0x23, 0 => some (.not x)
  | 0x24, 0 => some (.shl x)
  | 0x25, 0 => some (.shr x)
  | 0x26, 0 => some (.sar x)
  | 0x27, 0 => some (.rot x)
  | 0x28, 0 => some (.popc x)
  | 0x29, 0 => some (.clz x)
  | 0x2A, 0 => some (.bfx x)
  | 0x2B, 0 => some (.bfi x)
  | 0x2C, 0 => some (.sel x)
  | 0x2D, 0 => some (.cmp x)
  | 0x2E, 0 => some (.mov x)
  | 0x2F, 0 => some (.lea x)
  | 0x30, 0 => some (.fadd x)
  | 0x31, 0 => some (.fsub x)
  | 0x32, 0 => some (.fmul x)
  | 0x33, 0 => some (.fma x)
  | 0x34, 0 => some (.fdiv x)
  | 0x35, 0 => some (.fsqrt x)
  | 0x36, 0 => some (.fmin x)
  | 0x37, 0 => some (.fmax x)
  | 0x38, 0 => some (.fcmp x)
  | 0x39, 0 => some (.fclass x)
  | 0x3A, 0 => some (.frcp x)
  | 0x3B, 0 => some (.frsq x)
  | 0x3D, 0 => some (.frnd x)
  | 0x3E, 0 => some (.fsgn x)
  | 0x40, 0 => some (.plog x)
  | 0x41, 0 => some (.pset x)
  | 0x42, 0 => some (.shfl x)
  | 0x43, 0 => some (.vote x)
  | 0x44, 0 => some (.gred x)
  | 0x45, 0 => some (.bcast x)
  | 0x46, 0 => some (.gscan x)
  | 0x47, 0 => some (.lmask x)
  | 0x60, 0 => some (.capder x)
  | 0x61, 0 => some (.capadd x)
  | 0x62, 0 => some (.capq x)
  | 0x80, 0 => some (.qmul x)
  | 0x81, 0 => some (.qconj x)
  | 0x82, 0 => some (.qnorm x)
  | 0x88, 0 => some (.fwr x)
  | 0x8A, 0 => some (.nq x)
  | 0x8C, 0 => some (.resid x)
  | 0x8D, 0 => some (.stest x)
  | 0x3C, fn => if fn < 16 then some (.cvt (Machine.tyOfCode fn) x) else none
  | _, _ => none

/-- The I-format instruction. -/
def buildI (opc fn : Nat) (x : IForm) : Option Instr :=
  match opc, fn with
  | 0x10, 0 => some (.addi x)
  | 0x11, 0 => some (.muli x)
  | 0x12, 0 => some (.andi x)
  | 0x13, 0 => some (.ori x)
  | 0x14, 0 => some (.xori x)
  | 0x15, 0 => some (.shli x)
  | 0x16, 0 => some (.shri x)
  | 0x17, 0 => some (.sari x)
  | 0x18, 0 => some (.movi x)
  | 0x19, 0 => some (.cmpi x)
  | _, _ => none

/-- The M-format instruction. -/
def buildM (opc fn : Nat) (x : MForm) : Option Instr :=
  match opc, fn with
  | 0x50, 0 => some (.ld x)
  | 0x51, 0 => some (.st x)
  | 0x56, 0 => some (.cas x)
  | 0x57, 0 => some (.fence x)
  | 0x58, 0 => some (.lcinv x)
  | 0x58, 1 => some (.lcinvAll x)
  | 0x59, 0 => some (.wcdrain x)
  | 0x59, 1 => some (.wcdrainAll x)
  | 0x5A, 0 => some (.validSet x)
  | 0x5A, 1 => some (.validClr x)
  | 0x5A, 2 => some (.validGet x)
  | 0x5B, 0 => some (.pref x)
  | 0x64, 0 => some (.copy x)
  | 0x65, 0 => some (.copyq x)
  | 0x52, fn => (xCountOf fn).map fun n => .ldx n x
  | 0x53, fn => (xCountOf fn).map fun n => .stx n x
  | 0x54, fn => (atomOpOf fn).map fun op => .atom op x
  | 0x55, fn => (atomOpOf fn).map fun op => .red op x
  | _, _ => none

/-- The B-format instruction. -/
def buildB (opc fn : Nat) (x : BForm) : Option Instr :=
  match opc, fn with
  | 0xA0, 0 => some (.bra x)
  | 0xA1, 0 => some (.jmpi x)
  | 0xA2, 0 => some (.call x)
  | 0xA3, 0 => some (.calli x)
  | 0xA4, 0 => some (.ret x)
  | 0xA5, 0 => some (.exit x)
  | _, _ => none

/-- The X-format instruction. -/
def buildX (opc fn : Nat) (x : XForm) : Option Instr :=
  match opc, fn with
  | 0x70, 0 => some (.jig x)
  | 0x70, 1 => some (.jigSt x)
  | 0x70, 2 => some (.jigLd x)
  | 0x71, 0 => some (.mx x)
  | 0x71, 1 => some (.mxSet x)
  | 0x72, 0 => some (.accz x)
  | 0x73, 0 => some (.accld x)
  | 0x74, 0 => some (.accst x)
  | 0x74, 1 => some (.accstNow x)
  | 0x76, 0 => some (.accver x)
  | 0x76, 1 => some (.accverNow x)
  | 0x77, 0 => some (.bedld x)
  | 0x77, 1 => some (.bedldGrain x)
  | 0x78, 0 => some (.bedclr x)
  | 0x75, fn => (movCountOf fn).map fun n => .accmov n x
  | _, _ => none

/-- The S-format instruction. -/
def buildS (opc fn : Nat) (x : SForm) : Option Instr :=
  match opc, fn with
  | 0x01, 0 => some (.nop x)
  | 0x66, 0 => some (.tlwait x)
  | 0x67, 0 => some (.tlrd x)
  | 0x67, 1 => some (.tlrdIssued x)
  | 0x89, 0 => some (.step x)
  | 0x89, 1 => some (.stepR x)
  | 0x8B, 0 => some (.settle x)
  | 0x90, 0 => some (.bar x)
  | 0x91, 0 => some (.bararr x)
  | 0x92, 0 => some (.barwt x)
  | 0x93, 0 => some (.meet x)
  | 0x94, 0 => some (.peg x)
  | 0x94, 1 => some (.pegDef x)
  | 0x95, 0 => some (.postCore x)
  | 0x95, 1 => some (.postNbr x)
  | 0x95, 2 => some (.postBay x)
  | 0x96, 0 => some (.yield x)
  | 0xF0, 0 => some (.trap x)
  | 0xF1, 0 => some (.tret x)
  | 0xF2, 0 => some (.brk x)
  | 0xF3, 0 => some (.srd x)
  | 0xF4, 0 => some (.swr x)
  | 0xF5, 0 => some (.grow x)
  | 0xF6, 0 => some (.shrink x)
  | 0xF7, 0 => some (.evwait x)
  | 0xF8, 0 => some (.ilinv x)
  | 0xF8, 1 => some (.ilinvAll x)
  | 0xF9, 0 => some (.sampleOn x)
  | 0xF9, 1 => some (.sampleOff x)
  | _, _ => none

/-! ## The decoder -/

/-- The instruction of a word whose major opcode has the format. -/
def decodeFormat (f : Machine.Format) (opc w : Nat) : Except Reject Instr :=
  match f with
  | .r => do let p ← parseR w; orReject .unknownFunction (buildR opc p.1 p.2)
  | .i => do let p ← parseI w; orReject .unknownFunction (buildI opc p.1 p.2)
  | .m => do let p ← parseM w; orReject .unknownFunction (buildM opc p.1 p.2)
  | .b => do let p ← parseB w; orReject .unknownFunction (buildB opc p.1 p.2)
  | .x => do let p ← parseX w; orReject .unknownFunction (buildX opc p.1 p.2)
  | .s => do let p ← parseS w; orReject .unknownFunction (buildS opc p.1 p.2)

/-- The decoder: a zero word and a word with an unassigned major opcode are rows of the opcode table (R14, R47); any
other word that is not a legal encoding is rejected (R34, R46). -/
def decode (w : W96) : Except Reject Instr :=
  if w == 0 then .ok .zeroWord
  else
    let opc := w.toNat / 2 ^ 88
    if opc == 0 then .error .majorZero
    else
      match Machine.formatOf opc with
      | none => .ok (.unassignedMajorOpcode w)
      | some f => do
        let i ← decodeFormat f opc w.toNat
        if Machine.encodingLegal i then pure i else .error .notAllowed

/-- The instruction whose bits the host numbers from the least significant bit of the first word: a Buraeken instruction
is one 96-bit word (R21), stored little-endian (R8). -/
def decodeTableWord (nbits w : Nat) : Option Instr :=
  match decode (BitVec.ofNat 96 (w % 2 ^ nbits)) with
  | .ok i => some i
  | .error _ => none

/-! ## The encoder -/

/-- The word of a well-formed instruction word; none for a row that is not an instruction word. -/
def encode : Instr → Option W96
  | .add x => some (BitVec.ofNat 96 (packR 0x02 0 x))
  | .sub x => some (BitVec.ofNat 96 (packR 0x03 0 x))
  | .mul x => some (BitVec.ofNat 96 (packR 0x04 0 x))
  | .mulhi x => some (BitVec.ofNat 96 (packR 0x05 0 x))
  | .mad x => some (BitVec.ofNat 96 (packR 0x06 0 x))
  | .div x => some (BitVec.ofNat 96 (packR 0x07 0 x))
  | .rem x => some (BitVec.ofNat 96 (packR 0x08 0 x))
  | .min x => some (BitVec.ofNat 96 (packR 0x09 0 x))
  | .max x => some (BitVec.ofNat 96 (packR 0x0A 0 x))
  | .abs x => some (BitVec.ofNat 96 (packR 0x0B 0 x))
  | .neg x => some (BitVec.ofNat 96 (packR 0x0C 0 x))
  | .addc x => some (BitVec.ofNat 96 (packR 0x0D 0 x))
  | .subb x => some (BitVec.ofNat 96 (packR 0x0E 0 x))
  | .sad x => some (BitVec.ofNat 96 (packR 0x0F 0 x))
  | .and x => some (BitVec.ofNat 96 (packR 0x20 0 x))
  | .or x => some (BitVec.ofNat 96 (packR 0x21 0 x))
  | .xor x => some (BitVec.ofNat 96 (packR 0x22 0 x))
  | .not x => some (BitVec.ofNat 96 (packR 0x23 0 x))
  | .shl x => some (BitVec.ofNat 96 (packR 0x24 0 x))
  | .shr x => some (BitVec.ofNat 96 (packR 0x25 0 x))
  | .sar x => some (BitVec.ofNat 96 (packR 0x26 0 x))
  | .rot x => some (BitVec.ofNat 96 (packR 0x27 0 x))
  | .popc x => some (BitVec.ofNat 96 (packR 0x28 0 x))
  | .clz x => some (BitVec.ofNat 96 (packR 0x29 0 x))
  | .bfx x => some (BitVec.ofNat 96 (packR 0x2A 0 x))
  | .bfi x => some (BitVec.ofNat 96 (packR 0x2B 0 x))
  | .sel x => some (BitVec.ofNat 96 (packR 0x2C 0 x))
  | .cmp x => some (BitVec.ofNat 96 (packR 0x2D 0 x))
  | .mov x => some (BitVec.ofNat 96 (packR 0x2E 0 x))
  | .lea x => some (BitVec.ofNat 96 (packR 0x2F 0 x))
  | .fadd x => some (BitVec.ofNat 96 (packR 0x30 0 x))
  | .fsub x => some (BitVec.ofNat 96 (packR 0x31 0 x))
  | .fmul x => some (BitVec.ofNat 96 (packR 0x32 0 x))
  | .fma x => some (BitVec.ofNat 96 (packR 0x33 0 x))
  | .fdiv x => some (BitVec.ofNat 96 (packR 0x34 0 x))
  | .fsqrt x => some (BitVec.ofNat 96 (packR 0x35 0 x))
  | .fmin x => some (BitVec.ofNat 96 (packR 0x36 0 x))
  | .fmax x => some (BitVec.ofNat 96 (packR 0x37 0 x))
  | .fcmp x => some (BitVec.ofNat 96 (packR 0x38 0 x))
  | .fclass x => some (BitVec.ofNat 96 (packR 0x39 0 x))
  | .frcp x => some (BitVec.ofNat 96 (packR 0x3A 0 x))
  | .frsq x => some (BitVec.ofNat 96 (packR 0x3B 0 x))
  | .frnd x => some (BitVec.ofNat 96 (packR 0x3D 0 x))
  | .fsgn x => some (BitVec.ofNat 96 (packR 0x3E 0 x))
  | .plog x => some (BitVec.ofNat 96 (packR 0x40 0 x))
  | .pset x => some (BitVec.ofNat 96 (packR 0x41 0 x))
  | .shfl x => some (BitVec.ofNat 96 (packR 0x42 0 x))
  | .vote x => some (BitVec.ofNat 96 (packR 0x43 0 x))
  | .gred x => some (BitVec.ofNat 96 (packR 0x44 0 x))
  | .bcast x => some (BitVec.ofNat 96 (packR 0x45 0 x))
  | .gscan x => some (BitVec.ofNat 96 (packR 0x46 0 x))
  | .lmask x => some (BitVec.ofNat 96 (packR 0x47 0 x))
  | .capder x => some (BitVec.ofNat 96 (packR 0x60 0 x))
  | .capadd x => some (BitVec.ofNat 96 (packR 0x61 0 x))
  | .capq x => some (BitVec.ofNat 96 (packR 0x62 0 x))
  | .qmul x => some (BitVec.ofNat 96 (packR 0x80 0 x))
  | .qconj x => some (BitVec.ofNat 96 (packR 0x81 0 x))
  | .qnorm x => some (BitVec.ofNat 96 (packR 0x82 0 x))
  | .fwr x => some (BitVec.ofNat 96 (packR 0x88 0 x))
  | .nq x => some (BitVec.ofNat 96 (packR 0x8A 0 x))
  | .resid x => some (BitVec.ofNat 96 (packR 0x8C 0 x))
  | .stest x => some (BitVec.ofNat 96 (packR 0x8D 0 x))
  | .cvt src x => some (BitVec.ofNat 96 (packR 0x3C (Machine.tyCode src) x))
  | .addi x => some (BitVec.ofNat 96 (packI 0x10 x))
  | .muli x => some (BitVec.ofNat 96 (packI 0x11 x))
  | .andi x => some (BitVec.ofNat 96 (packI 0x12 x))
  | .ori x => some (BitVec.ofNat 96 (packI 0x13 x))
  | .xori x => some (BitVec.ofNat 96 (packI 0x14 x))
  | .shli x => some (BitVec.ofNat 96 (packI 0x15 x))
  | .shri x => some (BitVec.ofNat 96 (packI 0x16 x))
  | .sari x => some (BitVec.ofNat 96 (packI 0x17 x))
  | .movi x => some (BitVec.ofNat 96 (packI 0x18 x))
  | .cmpi x => some (BitVec.ofNat 96 (packI 0x19 x))
  | .ld x => some (BitVec.ofNat 96 (packM 0x50 0 x))
  | .st x => some (BitVec.ofNat 96 (packM 0x51 0 x))
  | .cas x => some (BitVec.ofNat 96 (packM 0x56 0 x))
  | .fence x => some (BitVec.ofNat 96 (packM 0x57 0 x))
  | .lcinv x => some (BitVec.ofNat 96 (packM 0x58 0 x))
  | .lcinvAll x => some (BitVec.ofNat 96 (packM 0x58 1 x))
  | .wcdrain x => some (BitVec.ofNat 96 (packM 0x59 0 x))
  | .wcdrainAll x => some (BitVec.ofNat 96 (packM 0x59 1 x))
  | .validSet x => some (BitVec.ofNat 96 (packM 0x5A 0 x))
  | .validClr x => some (BitVec.ofNat 96 (packM 0x5A 1 x))
  | .validGet x => some (BitVec.ofNat 96 (packM 0x5A 2 x))
  | .pref x => some (BitVec.ofNat 96 (packM 0x5B 0 x))
  | .copy x => some (BitVec.ofNat 96 (packM 0x64 0 x))
  | .copyq x => some (BitVec.ofNat 96 (packM 0x65 0 x))
  | .ldx n x => some (BitVec.ofNat 96 (packM 0x52 (xCountCode n) x))
  | .stx n x => some (BitVec.ofNat 96 (packM 0x53 (xCountCode n) x))
  | .atom op x => some (BitVec.ofNat 96 (packM 0x54 (atomOpCode op) x))
  | .red op x => some (BitVec.ofNat 96 (packM 0x55 (atomOpCode op) x))
  | .bra x => some (BitVec.ofNat 96 (packB 0xA0 x))
  | .jmpi x => some (BitVec.ofNat 96 (packB 0xA1 x))
  | .call x => some (BitVec.ofNat 96 (packB 0xA2 x))
  | .calli x => some (BitVec.ofNat 96 (packB 0xA3 x))
  | .ret x => some (BitVec.ofNat 96 (packB 0xA4 x))
  | .exit x => some (BitVec.ofNat 96 (packB 0xA5 x))
  | .jig x => some (BitVec.ofNat 96 (packX 0x70 0 x))
  | .jigSt x => some (BitVec.ofNat 96 (packX 0x70 1 x))
  | .jigLd x => some (BitVec.ofNat 96 (packX 0x70 2 x))
  | .mx x => some (BitVec.ofNat 96 (packX 0x71 0 x))
  | .mxSet x => some (BitVec.ofNat 96 (packX 0x71 1 x))
  | .accz x => some (BitVec.ofNat 96 (packX 0x72 0 x))
  | .accld x => some (BitVec.ofNat 96 (packX 0x73 0 x))
  | .accst x => some (BitVec.ofNat 96 (packX 0x74 0 x))
  | .accstNow x => some (BitVec.ofNat 96 (packX 0x74 1 x))
  | .accver x => some (BitVec.ofNat 96 (packX 0x76 0 x))
  | .accverNow x => some (BitVec.ofNat 96 (packX 0x76 1 x))
  | .bedld x => some (BitVec.ofNat 96 (packX 0x77 0 x))
  | .bedldGrain x => some (BitVec.ofNat 96 (packX 0x77 1 x))
  | .bedclr x => some (BitVec.ofNat 96 (packX 0x78 0 x))
  | .accmov n x => some (BitVec.ofNat 96 (packX 0x75 (movCountCode n) x))
  | .nop x => some (BitVec.ofNat 96 (packS 0x01 0 x))
  | .tlwait x => some (BitVec.ofNat 96 (packS 0x66 0 x))
  | .tlrd x => some (BitVec.ofNat 96 (packS 0x67 0 x))
  | .tlrdIssued x => some (BitVec.ofNat 96 (packS 0x67 1 x))
  | .step x => some (BitVec.ofNat 96 (packS 0x89 0 x))
  | .stepR x => some (BitVec.ofNat 96 (packS 0x89 1 x))
  | .settle x => some (BitVec.ofNat 96 (packS 0x8B 0 x))
  | .bar x => some (BitVec.ofNat 96 (packS 0x90 0 x))
  | .bararr x => some (BitVec.ofNat 96 (packS 0x91 0 x))
  | .barwt x => some (BitVec.ofNat 96 (packS 0x92 0 x))
  | .meet x => some (BitVec.ofNat 96 (packS 0x93 0 x))
  | .peg x => some (BitVec.ofNat 96 (packS 0x94 0 x))
  | .pegDef x => some (BitVec.ofNat 96 (packS 0x94 1 x))
  | .postCore x => some (BitVec.ofNat 96 (packS 0x95 0 x))
  | .postNbr x => some (BitVec.ofNat 96 (packS 0x95 1 x))
  | .postBay x => some (BitVec.ofNat 96 (packS 0x95 2 x))
  | .yield x => some (BitVec.ofNat 96 (packS 0x96 0 x))
  | .trap x => some (BitVec.ofNat 96 (packS 0xF0 0 x))
  | .tret x => some (BitVec.ofNat 96 (packS 0xF1 0 x))
  | .brk x => some (BitVec.ofNat 96 (packS 0xF2 0 x))
  | .srd x => some (BitVec.ofNat 96 (packS 0xF3 0 x))
  | .swr x => some (BitVec.ofNat 96 (packS 0xF4 0 x))
  | .grow x => some (BitVec.ofNat 96 (packS 0xF5 0 x))
  | .shrink x => some (BitVec.ofNat 96 (packS 0xF6 0 x))
  | .evwait x => some (BitVec.ofNat 96 (packS 0xF7 0 x))
  | .ilinv x => some (BitVec.ofNat 96 (packS 0xF8 0 x))
  | .ilinvAll x => some (BitVec.ofNat 96 (packS 0xF8 1 x))
  | .sampleOn x => some (BitVec.ofNat 96 (packS 0xF9 0 x))
  | .sampleOff x => some (BitVec.ofNat 96 (packS 0xF9 1 x))
  | .zeroWord => some 0
  | .unassignedMajorOpcode w => some w
  | .lineFetchComplete _ _ => none
  | .asyncTrapDelivery _ _ _ => none
  | .accessReply _ _ => none
  | .parkServiceComplete _ _ _ => none
  | .firstTouchPlacement _ _ _ _ => none
  | .unitAccessService _ _ => none
  | .wcAgeingExpiry _ _ => none
  | .wcDrainPerformed _ _ => none
  | .remoteRequest _ => none
  | .copyAccept _ => none
  | .copyRetire _ _ => none
  | .copyqSlotWrite _ _ => none
  | .queueTakeSlot _ => none
  | .packetRetire _ _ => none
  | .gather _ _ => none
  | .collective _ _ => none
  | .bedldComplete _ _ => none
  | .mxLaunch _ _ _ => none
  | .mxCommit _ => none
  | .pegEpisodeClose _ _ _ => none
  | .barrierOpen _ _ _ => none
  | .barrierReleaseWave _ _ _ => none
  | .waitEnd _ _ _ => none
  | .pendingPlace _ => none
  | .entryEviction _ => none
  | .sliceReturn _ _ _ _ => none
  | .growGrant _ => none
  | .growDeadlockRule _ => none
  | .blockRetire _ _ => none
  | .blockVacate _ _ => none
  | .blockRedispatch _ _ => none
  | .blockDispatch _ => none
  | .bayDispatchPull _ _ => none
  | .preemptionSend => none
  | .admission _ _ => none
  | .fieldPlacement _ => none
  | .trigger _ => none
  | .run _ => none
  | .nodeComplete _ => none
  | .runEnd _ => none
  | .faceNotice _ _ => none
  | .stepRPublicationReady _ _ => none
  | .trussStepComplete _ _ => none
  | .samplerTick _ => none
  | .arbitrate => none
  | .grantChangeComplete => none
  | .bayControllerEvaluation _ => none
  | .tcapChange => none
  | .boostTick => none
  | .refill _ => none
  | .gatingSequence _ => none
  | .bayWakeComplete _ => none
  | .bankWakeComplete _ => none
  | .wayGating _ _ => none
  | .subscriptionFiring _ => none
  | .scrub _ => none
  | .marginSequence _ => none
  | .holdOffExpiry => none
  | .retransmissionTimeout _ => none
  | .packetArrival _ => none
  | .planeFailover _ _ => none
  | .unreachableTimeout => none
  | .classPause _ _ _ => none
  | .combiningWindowClose _ => none
  | .combinedReply _ => none
  | .flitReceive _ _ => none
  | .replayRequest _ _ => none
  | .trainComplete _ _ => none
  | .retrainTrigger _ => none
  | .keyMarker _ => none
  | .kwarn _ => none
  | .invocationLimit _ => none
  | .deviceFaultNotify => none
  | .boot => none
  | .ctxopen _ _ _ => none
  | .ctxclose _ _ => none
  | .ctxset _ _ _ _ => none
  | .ctxbudget _ _ _ => none
  | .stateread _ _ _ _ => none
  | .objset _ _ _ => none
  | .extset _ _ _ _ => none
  | .parkdone _ _ _ _ => none
  | .frameclass _ _ _ => none
  | .frameretire _ _ => none
  | .graphload _ _ _ _ => none
  | .graphfree _ _ => none
  | .pcap _ _ => none
  | .slope _ _ _ => none
  | .subscribe _ _ _ _ _ _ _ => none
  | .unsubscribe _ _ => none
  | .margin _ _ _ => none
  | .bayquiesce _ _ => none
  | .bayrecal _ _ => none
  | .bayreturn _ _ => none
  | .porttrain _ _ => none
  | .portisolate _ _ => none
  | .portstatus _ _ => none
  | .keyload _ _ _ _ _ _ => none
  | .peerset _ _ _ => none
  | .exportObjs _ _ _ => none
  | .spare _ _ => none
  | .fwstage _ _ => none
  | .fwactivate _ => none
  | .shoprestart _ _ => none
  | .attest _ _ _ _ => none
  | .fuseadvance _ _ => none
  | .unknownCommand _ _ => none
  | .yieldCyclesEnd _ _ => none
  | .resultArrival _ _ _ _ => none
  | .objectCacheMissFill _ _ _ => none
  | .feedReadFault _ => none
  | .tempbandChange => none
  | .scratchpadBankGating _ => none

end Sys2Proof
end

