-- ==== Sys2Proof/Machine/State.lean ====
section
/-! DEFINITION. The state of the machine, as plain data: one Buraeken 9600 with everything the spec gives
it, and of the fabric what its own packets and the switches that hold them need. -/

namespace Sys2Proof.Machine

/-- Why the machine stops. The spec stops the device nowhere: a fault of a thread is a trap, a park, a
status word or a stopped context, all of them next states; so there is no fault (safe: nothing can be
proved from a stop that the device does not make). -/
inductive Fault where
  deriving DecidableEq, Repr

/-- Why an instruction has no meaning. -/
inductive Refusal where
  /-- Raised by the dispatcher for an instruction that has no meaning in the model (safe: a stop where the
  hardware goes on). No arm raises it. -/
  | notModelled (mnemonic : String)
  deriving DecidableEq, Repr

/-! ## Threads -/

/-- A register named by an operand: v0 to v247, k0 to k7, s0 to s63 (R35). -/
inductive Reg where
  | v (i : Nat)
  | k (i : Nat)
  | s (i : Nat)
  deriving DecidableEq, Repr

/-- A result that has not been written back yet (R41 to R43): the destination registers that it writes and their values,
the registers that the instruction names (R42: a scalar that another thread of the group writes is among them), what the scalar
registers among them held before, which the thread reads inside the window, the flags that join with it, whether it has arrived, and
how many instructions of its window are still to issue. -/
structure Held where
  id : Nat
  regs : List Reg
  named : List Reg
  old : List (Nat × W32)
  vals : List W32
  flags : BitVec 5
  arrived : Bool
  window : Nat
  deriving DecidableEq, Repr

/-- The registers that a thread owns (R261). -/
structure RegFile where
  v : List W32
  k : List W32
  p : List Bool
  fflags : BitVec 5
  deriving DecidableEq, Repr

/-- What a couple read at its issue (R18, R19): the registers before it, the scalar registers of the group, the program
counter of the first member, the scalar registers that the thread wrote for its group, and the trap that the first member
raised: cause, subcode and fault word. -/
structure Latch where
  regs : RegFile
  scal : List W32
  wrote : List Nat
  pc : W64
  trap : Option (Nat × Nat × W64)
  deriving DecidableEq, Repr

/-- Where a thread stands (R262, R374). -/
inductive Loc where
  | entry (e : Nat)
  | pending (seq : Nat)
  | parked
  | exited
  | down
  deriving DecidableEq, Repr

/-- A wait inside an instruction (R265); evwait names the registers that its thread writes when it wakes (R247), trapping is a trap
entry that waits for held results (R235), noRecord waits for a free park record (R272), rotate is a cell that has published and
waits to be saved (R294), and starting a thread whose group starts at a later core cycle (R421). -/
inductive Wait where
  | none
  | meet (pg : Nat) (late : Bool)
  | sign (pg : Nat)
  | bar (b : Nat) (gen : BitVec 16)
  | barArrive (b : Nat)
  | released (b : Nat)
  | mx (x : XForm) (set : Bool) (expected : BitVec 16)
  | mxHeld (mx : Nat)
  | copy (x : MForm) (src : Nat) (cap : W64) (d0 d1 d2 d3 : W32)
  | grow (n : Nat) (d : Opnd) (seq : Nat)
  | evwait (mask : W32) (limit : Option Nat) (start : Nat) (dst : List Reg)
  | tlwait (tl : Nat) (n : W64) (sc : Scope)
  | trapping (cause sub : Nat) (pcsave fault : W64) (async : Bool)
  | yielding (till : Nat)
  | noRecord
  | rotate (mask : Nat) (pc : W64)
  | starting (till : Nat)
  deriving DecidableEq, Repr

/-- The settle state of a cell (R223) and its TRUSS register (R227). -/
structure Settle where
  sig : W64
  tol : W32
  cap : BitVec 16
  sopen : W64
  opened : Bool
  mixed : Bool
  cold : Bool
  truss : W32
  deriving DecidableEq, Repr

/-- A thread of a core (R257, R261). stage and marks are STAGE and W (R220). fence orders the block's earlier requests,
those with a number below it, before the thread's later ones (R145, R230; MODEL). -/
structure Thread where
  tslot : Nat
  lane : Nat
  block : Nat
  group : Nat
  glane : Nat
  regs : RegFile
  tstate : Bool
  pre : Bool
  pc : W64
  loc : Loc
  wait : Wait
  held : List Held
  seenRatios : W32
  seenStep : W32
  seenBand : W32
  asyncBudget : Bool
  asyncPreempt : Bool
  latch : Option Latch
  cell : Option Nat
  settle : Settle
  stage : List W32
  marks : List Bool
  fence : Nat
  deriving DecidableEq, Repr

/-! ## Groups and blocks -/

/-- A group (R257): its placement, its allocation REGS, the 8-lane columns that hold slices (R276, R277), its scalar
registers, and those for which some thread has left the window of a result on its way, each with the result's number: it is written
as soon as it has arrived (R41, R43; MODEL). -/
structure Group where
  tslot : Nat
  base : Nat
  regs : Nat
  cols : List Nat
  s : List W32
  early : List (Nat × Nat)
  deriving DecidableEq, Repr

/-- Episodes of a peg (R144). -/
inductive Episode where
  | none | meetOpen | signOpen | signClosed
  deriving DecidableEq, Repr

/-- A peg (R144, R211). Threads are named by group slot × W + group-lane. owedMeet and owedSign hold OWED. -/
structure Peg where
  first : Nat
  count : Nat
  episode : Episode
  arrived : List Nat
  owedMeet : List Nat
  owedSign : List Nat
  pass : List Nat
  lastMx : Option Nat
  deriving DecidableEq, Repr

/-- What a barrier holds for a thread (R228). byBar marks an arrival of BAR, which does not arrive again after a trap
(R229). -/
inductive Arrival where
  | owed
  | inGen (g : BitVec 16)
  | byBar (g : BitVec 16)
  deriving DecidableEq, Repr

/-- A barrier (R228). next is the group slot at which the next release wave goes on (R230), and due the core cycle at which that
wave is (R421). order numbers the requests that came before its last opening, which orders them before what passes it (R230). -/
structure Barrier where
  gen : BitVec 16
  arr : FMap Arrival
  next : Nat
  due : Nat
  order : Nat
  deriving DecidableEq, Repr

/-- A jig (R203, R204): the descriptor, its base place and its position. -/
structure Jig where
  desc : List Byte
  base : W64
  i2 : W32
  i3 : W32
  valid : Bool
  deriving DecidableEq, Repr

/-- An accumulator (R209). The tile lists the elements that are not +0, by 128 × row + column. -/
structure Acc where
  tile : FMap W32
  version : BitVec 16
  flags : BitVec 5
  deriving DecidableEq, Repr

/-- The width tag of a bed macro (R83). -/
inductive BedTag where
  | cleared | w8 | w16
  deriving DecidableEq, Repr

/-- The load state of a bed macro (R206). -/
inductive BedLoad where
  | idle
  | busy
  | failed (cause sub : Nat)
  deriving DecidableEq, Repr

/-- A bed macro (R83, R84, R206): the cells that are not zero by 128 × row + column, the exponents by
128 × group + column, and the columns whose special bit is set. -/
structure Bed where
  cells : FMap Byte
  exps : FMap Int
  special : List Nat
  tag : BedTag
  load : BedLoad
  deriving DecidableEq, Repr

/-- A race stamp of kind write (R325): the group slot of the last writer and the race generation. -/
structure Stamp where
  gs : Nat
  gen : BitVec 16
  deriving DecidableEq, Repr

/-- A block (R257, R300, R304, R325). valid lists the words whose valid bit is set. -/
structure Block where
  launch : Nat
  ctx : Nat
  number : Nat
  index : Nat
  order : Nat
  width : Nat
  groups : List Group
  baseRow : Nat
  rows : Nat
  sb : Nat
  valid : List Nat
  stamps : FMap Stamp
  bg : BitVec 16
  jigs : List Jig
  pegs : List Peg
  bars : List Barrier
  accs : List Acc
  beds : List Bed
  deriving DecidableEq, Repr

/-! ## Cores -/

/-- An issue-table entry (R263). OCC and SLOTOF are the threads whose place is the entry. sleep is the core
cycle until which a YIELD keeps the entry not ready (R148); idleSince is the cycle since which the entry has
not been ready (R269). filled lists the objects, by context, that have been fetched for its issue (R314). -/
structure Entry where
  launch : Nat
  pc : W64
  opened : Bool
  age : Nat
  sleep : Option Nat
  idleSince : Nat
  issued : Nat
  filled : List (Nat × Nat)
  deriving DecidableEq, Repr

/-- A park record (R273). handed says that the record has been handed to the host (R367). -/
structure Park where
  id : Nat
  pc : W64
  faddr : W64
  sub : Nat
  lane : Nat
  tslot : Nat
  block : Nat
  group : Nat
  ctx : Nat
  tstate : Bool
  cycle : W64
  handed : Bool
  deriving DecidableEq, Repr

/-- A fetched code line (R15). -/
structure Line where
  ctx : Nat
  obj : Nat
  line : Nat
  bits : BitVec 512
  deriving DecidableEq, Repr

/-- A line of the line cache (R312), with its way in the set of the line. -/
structure CLine where
  ctx : Nat
  obj : Nat
  line : Nat
  way : Nat
  bits : BitVec 512
  deriving DecidableEq, Repr

/-- A write-combining entry (R154): the bytes it holds by offset, the threads whose stores it holds, when it
was opened (network cycles), its age limit, whether it drains, and whether its packet has been sent (MODEL). cells names the cells
among the writers by launch and brick index (R221), serials the launches of the writers (R354), stores counts the stores gathered,
each of which takes a request (R157). -/
structure WcEntry where
  id : Nat
  ctx : Nat
  hdev : Nat
  obj : Nat
  line : Nat
  bytes : FMap Byte
  writers : List Nat
  cells : List (Nat × Nat)
  serials : List Nat
  stores : Nat
  opened : Nat
  limit : Nat
  draining : Bool
  sent : Bool
  deriving DecidableEq, Repr

/-- What an outstanding request does at its location (R157); claim reads the header of a queue and claims its next slot (R188). -/
inductive ReqKind where
  | load | store | cas
  | atom (op : AtomOp)
  | claim
  deriving DecidableEq, Repr

/-- An outstanding request of a thread (R157). after is the thread's fence when it was made; held names the held result it delivers
into; sent says that a remote request has left the device; cell names the cell whose access it is, by launch and brick index (R221),
serial its launch (R354); firm says that nothing of it can park or trap its thread any more (R152); paid says that its tokens have
been taken (R371). -/
structure Req where
  id : Nat
  tslot : Nat
  lane : Nat
  ctx : Nat
  kind : ReqKind
  ty : Ty
  acq : Bool
  rel : Bool
  sc : Scope
  na : Bool
  cap : W64
  ea : Nat
  size : Nat
  data : Nat
  cmp : Nat
  held : Option Nat
  pc : W64
  remote : Option Nat
  sent : Bool
  block : Nat
  after : Nat
  cell : Option (Nat × Nat)
  serial : Nat
  firm : Bool
  paid : Bool
  deriving DecidableEq, Repr

/-- A byte range of a block's scratchpad or of the exchange region, for the range scoreboard (R184). -/
structure Range where
  space : Space
  block : Nat
  lo : Nat
  hi : Nat
  deriving DecidableEq, Repr

/-- An accepted copy (R177, R184). fail is its status once it is known, while what it wrote on another device is on its way (R392);
paid counts the tokens that it has taken (R371), row is the base row of its block, whose scratchpad it may read after the block has
retired (R279). orphan says that its thread has ended or stood down, silent that it has stood
down (R379). -/
structure CopyJob where
  id : Nat
  num : Nat
  ctx : Nat
  block : Nat
  launch : Nat
  tslot : Nat
  lane : Nat
  src : Nat
  srcSpace : Space
  cap : W64
  d0 : W32
  d1 : W32
  d2 : W32
  d3 : W32
  held : Option Nat
  srcR : List Range
  dstR : List Range
  fail : Option W32
  pred : W32
  pc : W64
  orphan : Bool
  silent : Bool
  paid : Nat
  row : Nat
  deriving DecidableEq, Repr

/-- A claimed queue packet whose slot the engine is still to write (R188). -/
structure CopyqJob where
  id : Nat
  ctx : Nat
  queue : W64
  w : W64
  cap : Nat
  image : List Byte
  deriving DecidableEq, Repr

/-- A bed load in progress (R207). paid counts the tokens that it has taken (R371). -/
structure BedJob where
  id : Nat
  ctx : Nat
  block : Nat
  bdb : Nat
  bdn : Nat
  fsi : Nat
  grain : Bool
  src : W64
  tslot : Nat
  lane : Nat
  held : Option Nat
  pc : W64
  paid : Nat
  deriving DecidableEq, Repr

/-- A launched, uncommitted MX (R211). paid counts the tokens that its feeds have taken (R371). -/
structure MxJob where
  id : Nat
  ctx : Nat
  block : Nat
  x : XForm
  set : Bool
  i2 : W32
  i3 : W32
  tslot : Nat
  lane : Nat
  pc : W64
  paid : Nat
  deriving DecidableEq, Repr

/-- The stall sampler of a core (R252, R253). -/
structure Sampler where
  running : Bool
  ctx : Nat
  buf : W64
  e : Nat
  last : Nat
  lastCycle : Nat
  deriving DecidableEq, Repr

/-- A publication that is not readable yet (R221): its cell by brick index, its step, and the accesses it waits for: those of the
cell with a number below a bound, and those of its block that a barrier or a meeting ordered before them, with a number below fence.
-/
structure Unready where
  cell : Nat
  step : Nat
  before : Nat
  block : Nat
  fence : Nat
  deriving DecidableEq, Repr

/-- The part of a field that a core holds (R290, R292): its brick, the halo cells, and the cells by their state.
unready lists the publications that are not readable yet (R221), released those of STEP.R at .dev or wider, by record and step
(R284, R333). -/
structure XRegion where
  launch : Nat
  baseRow : Nat
  rows : Nat
  brick : Nat
  nc : Nat
  halo : List Nat
  virt : Bool
  away : List Nat
  gone : List Nat
  unready : List Unready
  released : List (Nat × Nat)
  deriving DecidableEq, Repr

/-- A posted job card (R231, R355): the card, its record as it was posted, the run it counts towards, and its launch once it is
admitted (R356). -/
structure Card where
  ctx : Nat
  card : Nat
  rec_ : List Byte
  graph : Nat
  launch : Option Nat
  deriving DecidableEq, Repr

/-- The token bucket of a context on a core (R371). owed counts the tokens that accesses made at their issue are still to take
(MODEL). -/
structure Bucket where
  tokens : Nat
  owed : Nat
  active : Bool
  deriving DecidableEq, Repr

/-- A core (R257, R263). waysWaking is the nanosecond since which the upper ways of the line cache wake (R313, R422). The lines of a
set of lcache stand in the order of their last use (R312). fills lists the core cycles of the last fills of its line cache (R422),
and refilled is the network cycle of the last refill of its buckets (R372). -/
structure Core where
  threads : List Thread
  blocks : FMap Block
  entries : FMap Entry
  parks : List Park
  lines : List Line
  lcache : List CLine
  waysGated : Bool
  waysWaking : Option Nat
  ocache : List (Nat × Nat)
  wc : List WcEntry
  reqs : List Req
  copies : List CopyJob
  copyCount : FMap Nat
  copyqs : List CopyqJob
  bedJobs : List BedJob
  mxq : List MxJob
  xr : List XRegion
  slices : Nat
  pendSince : FMap Nat
  cycle : Nat
  sampler : Sampler
  cards : List Card
  banksGated : Bool
  banksWaking : Bool
  buckets : FMap Bucket
  fills : List Nat
  refilled : Nat
  deriving DecidableEq, Repr

/-! ## Contexts, objects and launches -/

/-- States of a context (R363). -/
inductive CtxState where
  | free | opened | running | preempting | vacated | stopped
  deriving DecidableEq, Repr

/-- Where an object lives (R364). -/
inductive Home where
  | hbm | vault | remote
  deriving DecidableEq, Repr

/-- An object table entry (R364); an invalid entry is not listed. -/
structure ObjEntry where
  rd : Bool
  wr : Bool
  at_ : Bool
  ex : Bool
  cls : MemClass
  home : Home
  hdev : Nat
  present : Bool
  size : Nat
  ext : Nat
  deriving DecidableEq, Repr

/-- A context (R362). armed says that EBUDGET reaching 0 is still to be delivered (R426); firstUr and firstRace say
that the first unwritten read and race have been recorded (R304, R326). -/
structure Ctx where
  state : CtxState
  objt : W64
  save : W64
  log : W64
  share : Nat
  wcage : Nat
  ebudget : Nat
  urcount : Nat
  racecount : Nat
  poisons : Nat
  armed : Bool
  firstUr : Bool
  firstRace : Bool
  objs : FMap ObjEntry
  deriving DecidableEq, Repr

/-- What a poisoned check unit is (R440, R429, R393). -/
inductive Poison where
  | plain | margin
  deriving DecidableEq, Repr

/-- What firmware and the scrubber know of a frame (R370, R431, R432): corrected counts the corrections and bad lists the
uncorrectable lines since the frame was placed, stamps lists the microseconds of the corrections of the last 24 hours, passBegan is
the microsecond at which the scrubber's pass over the frame began, and passed counts the lines that it has read since; told says
that its passing 16 corrections has been reported, and toldBad counts the uncorrectable lines that have. -/
structure FrameInfo where
  cls : MemClass
  retired : Bool
  corrected : Nat
  stamps : List Nat
  bad : List Nat
  passBegan : Nat
  passed : Nat
  told : Bool
  toldBad : Nat
  deriving DecidableEq, Repr

/-- A launch (R343, R350, R357): its record, the algebra tables that admission read (R94), its origin in a graph, whether it is a
card and one of a core queue (R355), how far it has gone, the bricks placed here by core, those of other devices by device (R345),
and whether its run has counted its end (R354). -/
structure Launch where
  ctx : Nat
  rec_ : List Byte
  tables : List (List Byte)
  graph : Nat
  node : Nat
  card : Bool
  pinned : Bool
  next : Nat
  retired : Nat
  total : Nat
  placed : Bool
  bricks : List (Nat × Nat)
  others : List (Nat × Nat)
  done : Bool
  counted : Bool
  spent : Bool
  deriving DecidableEq, Repr

/-- The truss channels of one step (R297). -/
structure TrussStep where
  sigs : List W64
  settled : Nat
  ended : Nat
  maxabs : List W32
  sumsq : List W32
  complete : Bool
  deriving DecidableEq, Repr

/-- A publication notice on its way (R288): kind 0 full, 1 repeat, 2 exit; rel that it is of STEP.R (R284). Or a truss contribution
of a cell for another device (R297, R388): kind 3 ended with STEP, 4 with SETTLE, 5 and 6 a residual; faces holds its words. -/
structure Notice where
  id : Nat
  launch : Nat
  cell : Nat
  dst : Nat
  kind : Nat
  step : Nat
  faces : List W32
  rel : Bool
  held : Bool
  deriving DecidableEq, Repr

/-- A field (R280, R297, R298): PREV, the truss, the steps whose settle decisions are pending, the steps ended by the cells
of other devices, and the decisions made. -/
structure Field where
  prev : Option W64
  steps : FMap TrussStep
  pending : List Nat
  remoteEnded : Nat
  colds : FMap Bool
  deriving DecidableEq, Repr

/-- A vacated block waiting for re-dispatch (R375, R377, R378). The block state travels in the slot, in a form of the device's own;
it is kept here as it was, with the cells that its threads held. slot is the slot's offset in SAVE's object, and form the number of
the bytes that stand for the block state there. -/
structure Vacated where
  launch : Nat
  slot : Nat
  core : Nat
  block : Block
  threads : List Thread
  form : Nat
  deriving DecidableEq, Repr

/-- A queue packet taken by its engine (R189, R190): order numbers it among the packets taken, fail is its status once it is known.
-/
structure Packet where
  w : Nat
  image : List Byte
  order : Nat
  fail : Option W32
  deriving DecidableEq, Repr

/-- A queue served by an engine (R186, R190): its context, its header, its engine (3 where another device serves it, 4 where its
header cannot be read yet or is one that R186 refuses), the packets taken and running, and the packets retired. -/
structure Queue where
  ctx : Nat
  hdr : W64
  engine : Nat
  taken : Nat
  running : List Packet
  retiredBelow : Nat
  retired : List Nat
  deriving DecidableEq, Repr

/-- How a request of an engine to another device ends (R392, R393, R397), with the poisoned check units and the corrected errors
that it met there (R425). -/
inductive FarEnd where
  | good (soft : Nat)
  | poison (kind : Poison) (met soft : Nat)
  | unsupported | lost
  | notPlaced (sub : Nat)
  deriving DecidableEq, Repr

/-- A line of an object on another device that an engine of this device reads or writes (R392): the unit that owns the request, the
bytes that it writes or none where it reads, the row or element of the transfer for which it was made, and its end. What it has read
stands in this device's view of the object. -/
structure Far where
  id : Nat
  owner : Nat
  ctx : Nat
  dev : Nat
  obj : Nat
  line : Nat
  put : Option (FMap Byte)
  row : Nat
  sent : Bool
  ended : Option FarEnd
  deriving DecidableEq, Repr

/-- A unit waiting for service of its access (R441). handed says that the wait has been handed to the host (R367). -/
structure UnitWait where
  id : Nat
  kind : Nat
  core : Nat
  job : Nat
  ctx : Nat
  faddr : W64
  sub : Nat
  handed : Bool
  deriving DecidableEq, Repr

/-- A node of a stored graph (R351). -/
structure Node where
  succ : List Nat
  card : Bool
  rec_ : List Byte
  prepared : Bool
  waiting : Nat
  done : Bool
  admitted : Bool
  deriving DecidableEq, Repr

/-- A stored graph with its run (R351 to R354). -/
structure Graph where
  ctx : Nat
  cardbase : Nat
  patchobj : W64
  status : W64
  nodes : List Node
  triggers : List W64
  running : Bool
  failed : Option (Nat × Nat × Nat)
  cardsOut : Nat
  runs : W32
  deriving DecidableEq, Repr

/-- The part of the state that kernel instructions act on. id is the next fresh number, free the counter of free
values, net counts network cycles since reset, unit names the unit whose transfer runs, row the row or
element that it moves, and spent counts the tokens of that transfer (MODEL). far lists what engines have asked of other devices
(R392), asks that a context has returned to running, for which the arbiter is to run (R413), and usec counts microseconds since
reset. -/
structure Kern where
  cores : FMap Core
  mem : List Host.Cell
  poison : FMap Poison
  soft : List Nat
  ctxs : FMap Ctx
  extents : FMap W64
  frames : FMap FrameInfo
  launches : FMap Launch
  fields : FMap Field
  notices : List Notice
  shared : List Nat
  bayCards : FMap (List Card)
  vacated : List Vacated
  queues : FMap Queue
  units : List UnitWait
  far : List Far
  graphs : FMap Graph
  serial : Nat
  order : Nat
  id : Nat
  free : Nat
  net : Nat
  usec : Nat
  asks : Bool
  unit : Nat
  row : Nat
  spent : Nat
  deriving DecidableEq, Repr

/-! ## Power, clocks and heat -/

/-- A set of clock ratios (R411). -/
structure Ratios where
  matrix : Nat
  vector : Nat
  network : Nat
  memory : Nat
  deriving DecidableEq, Repr

/-- Phases of a bay's gating sequence (R361). -/
inductive Gate where
  | on
  | closing (start : Nat)
  | gated
  | waking
  deriving DecidableEq, Repr

/-- A bay (R415 to R418, R421, R359, R361). floors lists FLOOR for each matrix ratio 1 to 9 and then each vector ratio; calm is the
microsecond of the last throttling condition, evaluated that of the last evaluation, emptySince that since which the bay holds
nothing, nextPull the core cycle of the next pull and lastPull the network cycle of the last (R359), sensed what a measurement of
FLOOR finds (R415), unstable that some ratio has no stable FLOOR, and starts the core cycles of the bay at which the last groups
that the dispatcher started begin (R421). -/
structure Bay where
  enabled : Bool
  step : Nat
  band : Nat
  celsius : Int
  overCurrent : Bool
  floors : List Nat
  calm : Nat
  slope : Nat
  nextPull : Nat
  lastPull : Nat
  lease : Bool
  gate : Gate
  emptySince : Nat
  evaluated : Nat
  sensed : List Nat
  unstable : Bool
  starts : List Nat
  deriving DecidableEq, Repr

/-- A die's supply margin (R427 to R430): OFFSET, when it last changed, where it has, the end of a return to nominal, the end of the
hold-off, and the attributed location that has not been acted on. -/
structure Die where
  offset : Nat
  lastChange : Option Nat
  returning : Option Nat
  holdoff : Option Nat
  attributed : Option Nat
  deriving DecidableEq, Repr

/-- A subscription (R423). -/
structure Subscription where
  ctx : Nat
  source : Nat
  bay : Nat
  thresh : W32
  fall : Bool
  word : W64
  count : BitVec 16
  fired : Bool
  lastSeq : BitVec 16
  deriving DecidableEq, Repr

/-- Clocks, power and heat. running are the ratios at which the domains run, which fall before grant changes (R414); target is a
grant that is taking effect and targetBy the microsecond by which it has (R414); demand is the table from which the arbiter plans,
by domain and ratio from 1 on, and measured what a calibration at boot finds (R412); due says that the arbiter is to run (R413),
boostTicks counts the microseconds that BOOST has followed, and hotSince holds, for bands 6 and 7, since when the hottest bay has
been in the band or above, or below it (R419). usec and nsec count microseconds, and nanoseconds within one, since reset (MODEL
clocks). paces lists, for the last microseconds that passed, the core cycles of each core (R5, R422). -/
structure Power where
  grant : Ratios
  running : Ratios
  seq : BitVec 16
  demand : List (List Nat)
  measured : List (List Nat)
  target : Option Ratios
  targetBy : Nat
  due : Bool
  pcap : Nat
  tcap : Nat
  boost : Nat
  boostTicks : Nat
  hotSince : FMap Nat
  watts : Nat
  bays : FMap Bay
  dies : FMap Die
  subs : FMap Subscription
  usec : Nat
  nsec : Nat
  paces : List (Nat × FMap Nat)
  deriving DecidableEq, Repr

/-! ## The fabric -/

/-- States of a port (R399). -/
inductive PortState where
  | down | train | up8 | up4 | retrain | isolated
  deriving DecidableEq, Repr

/-- A key slot of one direction (R401): the key, the salt, the invocation counter, and whether it was loaded after the
other slot's warning (R404). -/
structure KeySlot where
  key : BitVec 256
  salt : W32
  counter : Nat
  afterWarn : Bool
  deriving DecidableEq, Repr

/-- An Ewely port (R388 to R405). encrypt is its setting (R401); ackDue says that the last flits received in order are still to be
acknowledged (R388, R398); replay holds the flits sent before their encryption, and last the flit sent last, as it left (R391,
R401); pauses are the classes that the other end has paused, pausing those that this end has; since counts the flits sent since the
last face flit and the last request flit (R388); errors counts the flits of no class (R391). -/
structure Port where
  state : PortState
  encrypt : Bool
  ackDue : Bool
  tries : Nat
  ks : Bool
  rks : Bool
  kwarn : Bool
  paused : Bool
  sendKeys : FMap KeySlot
  recvKeys : FMap KeySlot
  txLseq : BitVec 16
  rxLseq : BitVec 16
  replay : List (BitVec 16 × Flit)
  last : Option Flit
  rx : List Flit
  wantReplay : Option (BitVec 16)
  badTag : Option (BitVec 16)
  pauses : List TrafficClass
  pausing : List TrafficClass
  sinceFace : Nat
  sinceRequest : Nat
  errors : Nat
  retrains : Nat
  replays : Nat
  recent : List Nat
  deriving DecidableEq, Repr

/-- What a member of a collective on another device has posted (R193, R194): the fields of the digest, its source elements as bit
patterns, whether its packet failed its own checks, whether it does not implement the collective, and whether more of its elements
follow. -/
structure Posted where
  cid : W32
  dev : Nat
  op : Nat
  red : Nat
  ty : Nat
  root : Nat
  count : Nat
  members : List Nat
  src : List Nat
  failed : Bool
  unsupported : Bool
  more : Bool
  deriving DecidableEq, Repr

/-- What a packet carries. rel says that an access is not relaxed. An answer to a read counts the poisoned check units that it met,
and what the requester is charged for it (R425). -/
inductive Payload where
  | access (req : Nat) (core : Nat) (obj ea size : Nat) (kind : ReqKind) (ty : Ty) (data cmp : Nat) (rel : Bool) (cls : Nat)
  | drain (core wc : Nat) (obj line : Nat) (bytes : FMap Byte)
  | reply (req : Nat) (core : Nat) (value : Nat) (met charge : Nat)
  | notPlaced (req : Nat) (core : Nat) (sub : Nat)
  | unsupported (req : Nat) (core : Nat)
  | poisoned (req : Nat) (core : Nat) (kind : Poison) (met charge : Nat)
  | drained (core wc : Nat)
  | face (n : Notice)
  | post (x : Posted)
  | ack (lane : Nat) (cls : TrafficClass) (eseq : BitVec 16)
  | fault (value : Nat)
  deriving DecidableEq, Repr

/-- A packet of an end-to-end stream (R386). sentAt and firstAt are microseconds. -/
structure FabPacket where
  id : Nat
  src : Nat
  dst : Nat
  lane : Nat
  cls : TrafficClass
  eseq : BitVec 16
  plane : Nat
  sentAt : Nat
  firstAt : Nat
  load : Payload
  deriving DecidableEq, Repr

/-- A stream (R386): source, destination, lane, class; the next number sent, the next number delivered, and the packets
held for reordering. -/
structure Stream where
  src : Nat
  dst : Nat
  lane : Nat
  cls : TrafficClass
  sendNext : BitVec 16
  recvNext : BitVec 16
  reorder : List FabPacket
  plane : Nat
  deriving DecidableEq, Repr

/-- A combining group of a leaf switch (R395), with the requests in arrival order: the plane and the output at which it waits, the
target's old value, or the answer that gives none, and what its access met: poisoned units counted, and the charge (R425). -/
structure Combine where
  id : Nat
  dst : Nat
  obj : Nat
  ea : Nat
  size : Nat
  members : List FabPacket
  closed : Bool
  old : Option Nat
  plane : Nat
  output : Nat
  bad : Option Payload
  met : Nat
  charge : Nat
  deriving DecidableEq, Repr

/-- The fabric as far as this device's packets reach. packets are in flight; unacked wait for their acknowledgement; arrived have
been delivered to a home port and wait there; behind are held at an output of the leaf behind an open combining group. moved lists
the extents that firmware has placed on another device, and forwarded the requests that have been sent on there (R388, R389). late
lists the posts, by CID and device, that are still on their way to a collective that has ended here (R195), and peerTable is the
peer table object, where firmware keeps one (R396). -/
structure Fabric where
  dev : Nat
  ports : FMap Port
  planesUp : FMap (BitVec 16)
  streams : List Stream
  packets : List FabPacket
  unacked : List FabPacket
  arrived : List FabPacket
  groups : List Combine
  behind : List (Nat × FabPacket)
  unreachable : List Nat
  peers : FMap (BitVec 128)
  posted : List Posted
  late : List (W32 × Nat)
  peerTable : Option ObjEntry
  moved : FMap Nat
  forwarded : List (Nat × FabPacket)
  deriving DecidableEq, Repr

/-! ## Firmware and the outside world -/

/-- Boot states (R437). -/
inductive BootState where
  | rom | verify | bringup | ready | rescue
  deriving DecidableEq, Repr

/-- A Spagan response or notification (R435). -/
structure Response where
  tag : W32
  status : Nat
  detail : Nat
  value : W64
  deriving DecidableEq, Repr

/-- Sill and frame firmware (R433 to R439). patches counts the patch slots used and patched those that sill has applied at this
boot; trained and tested say that HBM has been trained and the vaults tested, readyTo lists where Ready has been reported: 0 over
PCIe, 1 and 2 over the Ethernet ports; completed lists the images that have completed BRINGUP. boots counts the boots, each with
attestation keys of its own; fuses are the fuse counters by image kind, reports counts ATTEST of this boot, which is the next leaf
of its LMS key, faults lists the faults reported (R434), unserviced the units whose service has failed, exports the packets of an
EXPORT by its header, sills the sill patches in the order of their slots, and waiting lists the commands that wait to take effect,
in their order. -/
structure Firmware where
  boot : BootState
  patches : Nat
  patched : Nat
  trained : Bool
  tested : Bool
  readyTo : List Nat
  completed : List FwImage
  boots : Nat
  active : Bool
  slotA : Option FwImage
  slotB : Option FwImage
  fuses : FMap Nat
  switching : Bool
  shops : List Bool
  reports : Nat
  responses : List Response
  faults : List Nat
  exports : List (CmdHdr × List Nat)
  unserviced : List Nat
  sills : List FwImage
  waiting : List Instr
  deriving DecidableEq, Repr

/-- What the outside world does to the device. -/
inductive Input where
  | cycles (core n : Nat)
  | netCycles (n : Nat)
  | nanos (n : Nat)
  | temperature (bay : Nat) (celsius : Int)
  | current (bay : Nat) (overCurrent : Bool)
  | watts (n : Nat)
  | floors (bay : Nat) (steps : List Nat)
  | hostWrite (addr : Nat) (bytes : List Byte)
  | corrected (addr : Nat)
  | uncorrectable (addr : Nat)
  | packet (p : FabPacket)
  | remoteTruss (launch step : Nat) (sigs : List W64) (stepped : Nat) (maxabs sumsq : List W32)
  | remoteEnded (launch step : Nat)
  | planes (dev : Nat) (up : BitVec 16)
  | acked (packet : Nat)
  | linkAcked (port : Nat) (lseq : BitVec 16)
  | afterRecal (bay : Nat)
  | posted (p : Posted)
  | placedAt (ext : Nat) (dev : Option Nat)
  | migrate (ctx obj off n : Nat) (cls : MemClass) (frame : W64)
  | timeline (ctx : Nat) (cap : W64) (n : Nat)
  | queue (ctx : Nat) (cap : W64)
  | encryption (port : Nat) (on : Bool)
  | calibration (table : List (List Nat))
  | peerTable (entry : Option ObjEntry)
  deriving DecidableEq, Repr

/-- What happens next when it is not the default issue: an event, an issue of a named core, or an input. -/
inductive Move where
  | ev (i : Instr)
  | issue (core : Nat)
  | input (x : Input)
  deriving DecidableEq, Repr

/-- Which member of an issue executes (R18). -/
inductive Mode where
  | single | first | second
  deriving DecidableEq, Repr

/-- The issue in hand: the core, the entry and the member (MODEL). -/
structure Cur where
  core : Nat
  entry : Nat
  mode : Mode
  deriving DecidableEq, Repr

/-- The machine. moves says which agent acts next (MODEL); turn is the core whose issue unit acts when moves is
empty, or 256 for the device's turn (MODEL). -/
structure State where
  kern : Kern
  pwr : Power
  fab : Fabric
  fw : Firmware
  cur : Cur
  turn : Nat
  moves : List Move
  deriving DecidableEq, Repr

/-! ## Reset -/

/-- A core after device reset: it holds nothing, CYCLE counts from reset (R244), the sampler is off. -/
def Core.reset : Core :=
  { threads := [], blocks := [], entries := [], parks := [], lines := [], lcache := [], waysGated := false, waysWaking := none,
    ocache := [], wc := [], reqs := [], copies := [], copyCount := [], copyqs := [], bedJobs := [], mxq := [], xr := [],
    slices := 2048, pendSince := [], cycle := 0,
    sampler := { running := false, ctx := 0, buf := 0, e := 8, last := 0, lastCycle := 0 }, cards := [],
    banksGated := false, banksWaking := false, buckets := [], fills := [], refilled := 0 }

/-- A context that is free (R363). WCAGE is 512 when a context is opened (R362). -/
def Ctx.reset : Ctx :=
  { state := .free, objt := 0, save := 0, log := 0, share := 1, wcage := 512, ebudget := 0, urcount := 0, racecount := 0,
    poisons := 0, armed := false, firstUr := false, firstRace := false, objs := [] }

/-- A bay at reset (log entry 2): FREQSTEP 0, TEMPBAND 0, FLOOR 0, SLOPE 16 (R421). -/
def Bay.reset (enabled : Bool) : Bay :=
  { enabled := enabled, step := 0, band := 0, celsius := 25, overCurrent := false, floors := List.replicate 18 0, calm := 0,
    slope := 16, nextPull := 0, lastPull := 0, lease := false, gate := .on, emptySince := 0, evaluated := 0, sensed := List.replicate 18 0,
    unstable := !enabled, starts := [] }

/-- A die at nominal supply (R427). -/
def Die.reset : Die :=
  { offset := 0, lastChange := none, returning := none, holdoff := none, attributed := none }

/-- A port that has not been brought up (R399). -/
def Port.reset : Port :=
  { state := .down, encrypt := false, ackDue := false, tries := 0, ks := false, rks := false, kwarn := false, paused := false,
    sendKeys := [], recvKeys := [], txLseq := 0, rxLseq := 0, replay := [], last := none, rx := [], wantReplay := none,
    badTag := none, pauses := [], pausing := [], sinceFace := 0, sinceRequest := 0, errors := 0, retrains := 0, replays := 0, recent := [] }

/-- The kernel state at reset: no context, no launch, no memory written. -/
def Kern.reset : Kern :=
  { cores := (List.range 256).map fun i => (i, Core.reset), mem := [], poison := [], soft := [],
    ctxs := (List.range 16).map fun i => (i, Ctx.reset), extents := [], frames := [], launches := [], fields := [],
    notices := [], shared := [], bayCards := [], vacated := [], queues := [], units := [], far := [], graphs := [], serial := 1,
    order := 0, id := 1, free := 0, net := 0, usec := 0, asks := false, unit := 0, row := 0, spent := 0 }

/-- The product-grade demands of the matrix, vector, network and memory domains, in watts, at ratio 1 and on (R412). -/
def productGrade : List (List Nat) :=
  [[120, 250, 400, 550, 720, 920, 1180, 1500, 1900], [30, 60, 100, 140, 190, 240, 310, 400, 520],
   [0, 0, 0, 360, 420, 480, 540, 600, 0], [0, 0, 0, 400, 500, 600, 0, 0, 0]]

/-- Clocks at reset (log entry 2): the grant of R413 without a launch, the largest caps, a full boost allowance;
bays 30 and 31 disabled, which is one product-grade part (R1). -/
def Power.reset : Power :=
  { grant := { matrix := 1, vector := 1, network := 4, memory := 4 },
    running := { matrix := 1, vector := 1, network := 4, memory := 4 }, seq := 0, demand := productGrade, measured := productGrade,
    target := none, targetBy := 0, due := false, pcap := 3200, tcap := 3200,
    boost := 20000, boostTicks := 0, hotSince := [], watts := 0,
    bays := (List.range 32).map fun i => (i, Bay.reset (i < 30)), dies := (List.range 4).map fun i => (i, Die.reset),
    subs := [], usec := 0, nsec := 0, paces := [] }

/-- The fabric at reset: every port down, no packet. -/
def Fabric.reset : Fabric :=
  { dev := 0, ports := (List.range 16).map fun i => (i, Port.reset), planesUp := [], streams := [], packets := [],
    unacked := [], arrived := [], groups := [], behind := [], unreachable := [], peers := [], posted := [], late := [], peerTable := none,
    moved := [], forwarded := [] }

/-- Firmware at reset: the shop cores start from ROM (R437). -/
def Firmware.reset : Firmware :=
  { boot := .rom, patches := 0, patched := 0, trained := false, tested := false, readyTo := [], completed := [], boots := 0,
    active := false, slotA := none, slotB := none, fuses := [], switching := false,
    shops := [true, true, true, true], reports := 0, responses := [], faults := [], exports := [], unserviced := [], sills := [],
    waiting := [] }

/-- The machine right after reset. -/
def State.reset : State :=
  { kern := Kern.reset, pwr := Power.reset, fab := Fabric.reset, fw := Firmware.reset,
    cur := { core := 0, entry := 0, mode := .single }, turn := 0, moves := [] }

end Sys2Proof.Machine
end

