-- ==== Sys2Proof/Machine/Maps.lean ====
section
/-! DEFINITION. Sparse data by key, and small list operations. -/

namespace Sys2Proof.Machine

/-- The value at a key. -/
def mget {α : Type} : FMap α → Nat → Option α
  | [], _ => none
  | (j, a) :: m, i => if j == i then some a else mget m i

/-- The map with a value at a key; keys stay in rising order. -/
def mset {α : Type} : FMap α → Nat → α → FMap α
  | [], i, a => [(i, a)]
  | (j, b) :: m, i, a =>
    if i < j then (i, a) :: (j, b) :: m else if i == j then (i, a) :: m else (j, b) :: mset m i a

/-- The map without a key. -/
def mdel {α : Type} : FMap α → Nat → FMap α
  | [], _ => []
  | (j, b) :: m, i => if j == i then mdel m i else (j, b) :: mdel m i

/-- The map with the value at a key changed, where there is one. -/
def mmod {α : Type} (m : FMap α) (i : Nat) (f : α → α) : FMap α :=
  match mget m i with
  | some a => mset m i (f a)
  | none => m

/-- The list with element i written; a list that ends before it is filled up with a default. -/
def rset {α : Type} (d : α) : List α → Nat → α → List α
  | [], 0, a => [a]
  | [], i + 1, a => d :: rset d [] i a
  | _ :: l, 0, a => a :: l
  | b :: l, i + 1, a => b :: rset d l i a

/-- The list with element i replaced. -/
def lset {α : Type} (l : List α) (i : Nat) (a : α) : List α := l.set i a

/-- The list with element i changed. -/
def lmod {α : Type} (l : List α) (i : Nat) (f : α → α) : List α :=
  match l[i]? with
  | some a => l.set i (f a)
  | none => l

/-- Insert into a list sorted by a key, after the elements with the same key. -/
def insertBy {α : Type} (key : α → Nat) (a : α) : List α → List α
  | [] => [a]
  | b :: l => if key a < key b then a :: b :: l else b :: insertBy key a l

/-- Sort by a key, keeping the order of equal keys. -/
def sortBy {α : Type} (key : α → Nat) (l : List α) : List α := l.foldl (fun acc a => insertBy key a acc) []

/-- The element with the smallest key; the first of several. -/
def minBy {α : Type} (key : α → Nat) : List α → Option α
  | [] => none
  | a :: l =>
    match minBy key l with
    | none => some a
    | some b => if key b < key a then some b else some a

/-- Add to a list without repeats. -/
def addOnce (l : List Nat) (a : Nat) : List Nat := if l.contains a then l else l ++ [a]

/-- The number of one bits among the low n bits. -/
def popCount : Nat → Nat → Nat
  | 0, _ => 0
  | n + 1, x => (if x.testBit n then 1 else 0) + popCount n x

/-- The quotient rounded up. -/
def ceilDiv (a b : Nat) : Nat := (a + b - 1) / b

/-- The registers of a thread at its start (R261). -/
def RegFile.start : RegFile :=
  { v := List.replicate 248 0, k := List.replicate 8 0, p := List.replicate 7 false, fflags := 0 }

end Sys2Proof.Machine
end

