-- ==== Sys2Proof/Machine/Memory.lean ====
section
/-! DEFINITION. Memory as bytes: the canonical list of cells, little-endian values (R3), the places of the memories in
one physical address space (log entry 3), and poison (R440). -/

namespace Sys2Proof.Machine

/-! ## Cells -/

/-- What an address that is not listed reads as (log entry 4). DESIGN CHOICE: log entry 4. -/
def emptyByte : Byte := 0

/-- The byte at an address. -/
def readCell : List Host.Cell → Nat → Byte
  | [], _ => emptyByte
  | (b, x) :: m, a => if b == a then x else readCell m a

/-- The cell in front of cells, unless it holds what an unlisted address reads as. -/
def consCell (a : Nat) (x : Byte) (m : List Host.Cell) : List Host.Cell := if x == emptyByte then m else (a, x) :: m

/-- The cells with one byte written. -/
def writeCell : List Host.Cell → Nat → Byte → List Host.Cell
  | [], a, x => consCell a x []
  | (b, y) :: m, a, x =>
    if a < b then consCell a x ((b, y) :: m) else if a == b then consCell a x m else (b, y) :: writeCell m a x

/-- The bytes at n addresses from a. -/
def readMem (m : List Host.Cell) (a : Nat) : Nat → List Byte
  | 0 => []
  | n + 1 => readCell m a :: readMem m (a + 1) n

/-- The cells with bytes written from a. -/
def writeMem (m : List Host.Cell) (a : Nat) : List Byte → List Host.Cell
  | [] => m
  | x :: xs => writeMem (writeCell m a x) (a + 1) xs

/-- Addresses rise strictly from a bound, and no cell holds what an unlisted address reads as. -/
def cellsFrom (lo : Nat) : List Host.Cell → Bool
  | [] => true
  | (a, x) :: m => lo ≤ a && x != emptyByte && cellsFrom (a + 1) m

/-- The canonical form of memory. -/
def Memory.wf (m : List Host.Cell) : Bool := cellsFrom 0 m

/-! ## Little-endian values (R3) -/

/-- The number of bytes, lowest first. -/
def natOfBytes : List Byte → Nat
  | [] => 0
  | b :: bs => b.toNat + 256 * natOfBytes bs

/-- The n low bytes of a number, lowest first. -/
def bytesOfNat : Nat → Nat → List Byte
  | 0, _ => []
  | n + 1, x => BitVec.ofNat 8 x :: bytesOfNat n (x / 256)

/-- The number in n bytes of a byte string at an offset; bytes beyond the string count as zero. -/
def fieldOf (bs : List Byte) (off n : Nat) : Nat := natOfBytes ((bs.drop off).take n)

/-- Every byte of the range is zero. -/
def zeroRange (bs : List Byte) (off n : Nat) : Bool := fieldOf bs off n == 0

/-! ## The physical address space (log entry 3) -/

/-- The base of an HBM frame (R365). DESIGN CHOICE: log entry 3. -/
def hbmFrame (frame : Nat) : Nat := frame * 2 ^ 21
/-- The base of a vault frame (R308, R365). -/
def vaultFrame (frame : Nat) : Nat := 2 ^ 39 + frame * 2 ^ 16
/-- The base of a core's scratchpad. -/
def padBase (core : Nat) : Nat := 2 ^ 40 + core * 2 ^ 20
/-- The base of a scratchpad row (R300). -/
def rowBase (core row : Nat) : Nat := padBase core + row * 1536
/-- A byte of an object of another device. -/
def remoteAddr (dev obj off : Nat) : Nat := 2 ^ 64 + ((dev * 2 ^ 24 + obj) * 2 ^ 36 + off)

/-- The address lies in an HBM frame. -/
def isHbm (a : Nat) : Bool := a < 2 ^ 39
/-- The address lies on another device. -/
def isRemote (a : Nat) : Bool := 2 ^ 64 ≤ a

/-! ## Poison (R440) -/

/-- The class of an HBM frame; P for a frame that firmware has given none (log entry 5). DESIGN CHOICE: log entry 5. -/
def frameClass (k : Kern) (frame : Nat) : MemClass := ((mget k.frames frame).map (·.cls)).getD .p

/-- The number by which firmware knows a frame: HBM frames, then vault frames. -/
def frameKey (vault : Bool) (frame : Nat) : Nat := (if vault then 2 ^ 18 else 0) + frame

/-- The frame that holds an address, by its number; none outside HBM and the vaults. -/
def frameHolding (a : Nat) : Option Nat :=
  if isHbm a then some (frameKey false (a / 2 ^ 21)) else if a < 2 ^ 40 then some (frameKey true ((a - 2 ^ 39) / 2 ^ 16)) else none

/-- What is known of a frame that is placed now, of which nothing was known before: its counts are 0 (R431). -/
def FrameInfo.fresh (cls : MemClass) (now : Nat) : FrameInfo :=
  { cls := cls, retired := false, corrected := 0, stamps := [], bad := [], passBegan := now, passed := 0, told := false, toldBad := 0 }

/-- A frame with a correction counted (R431): the last 17 are dated. -/
def FrameInfo.mend (now : Nat) (x : FrameInfo) : FrameInfo :=
  { x with corrected := x.corrected + 1, stamps := (now :: x.stamps).take 17 }

/-- Corrected errors at addresses count for the frames that hold them (R431). DEDUCED: log entry 81. -/
def countMended (k : Kern) (as : List Nat) : Kern :=
  as.foldl (fun k a => match frameHolding a with
    | some f => { k with frames := mmod k.frames f (FrameInfo.mend k.usec) }
    | none => k) k

/-- The line of an address is uncorrectable: its frame lists it once (R431). -/
def noteBad (k : Kern) (a : Nat) : Kern :=
  match frameHolding a with
  | some f => { k with frames := mmod k.frames f fun x => if x.bad.contains (a / 64) then x else { x with bad := x.bad ++ [a / 64] } }
  | none => k

/-- The microseconds of 24 hours. -/
def dayMicros : Nat := 86400000000
/-- The microseconds in which the scrubber reads every line of a frame once (R431). -/
def scrubPeriod (vault : Bool) : Nat := if vault then 3600000000 else dayMicros
/-- The lines of a frame. -/
def frameLines (vault : Bool) : Nat := if vault then 1024 else 32768

/-- A frame is named by an extent that is placed or moving. -/
def frameNamed (k : Kern) (vault : Bool) (frame : Nat) : Bool :=
  k.extents.any fun p =>
    let x := p.2.toNat
    (x / 2 ^ 62 == 1 || x / 2 ^ 62 == 2) && (x / 2 ^ 60 % 4 == 1) == vault && x % 2 ^ 18 == frame

/-- The check unit of an address as base and size: 64 bytes in an HBM frame of class P or D, 8 bytes in SRAM, none in a
frame of class N or on another device. -/
def checkUnit (k : Kern) (a : Nat) : Option (Nat × Nat) :=
  if isRemote a then none
  else if isHbm a then
    match frameClass k (a / 2 ^ 21) with
    | .n => none
    | _ => some (a / 64 * 64, 64)
  else some (a / 8 * 8, 8)

/-- The poison of the unit that holds an address. -/
def poisonAt (k : Kern) (a : Nat) : Option Poison :=
  match checkUnit k a with
  | none => none
  | some u => mget k.poison u.1

/-- The first poisoned address of n addresses from a. -/
def poisonIn (k : Kern) (a : Nat) : Nat → Option (Nat × Poison)
  | 0 => none
  | n + 1 =>
    match poisonAt k a with
    | some p => some (a, p)
    | none => poisonIn k (a + 1) n

/-- A write of bytes, as a store, a drain, a copy or a packet makes it (R440): a unit that one write covers is no longer
poison; a unit that it covers in part stays poison. -/
def putBytes (k : Kern) (a : Nat) (bs : List Byte) : Kern :=
  let n := bs.length
  let covered (u : Nat) : Bool :=
    match checkUnit k u with
    | none => false
    | some c => a ≤ c.1 && c.1 + c.2 ≤ a + n
  { k with mem := writeMem k.mem a bs,
           poison := k.poison.filter fun p => !covered p.1,
           soft := k.soft.filter fun u => !(a ≤ u && u < a + n) }

/-- Make the unit of an address poison; nothing is detected in a frame of class N (R368). -/
def setPoison (k : Kern) (a : Nat) (p : Poison) : Kern :=
  match checkUnit k a with
  | none => k
  | some u => { k with poison := mset k.poison u.1 p }

/-- Fresh check data over the unit: it is no longer poison and holds all ones (R152). -/
def clearUnit (k : Kern) (a : Nat) : Kern :=
  match checkUnit k a with
  | none => k
  | some u => putBytes k u.1 (List.replicate u.2 0xFF)

/-- The bytes at n addresses. -/
def getBytes (k : Kern) (a n : Nat) : List Byte := readMem k.mem a n

/-- The number at n addresses. -/
def getNat (k : Kern) (a n : Nat) : Nat := natOfBytes (getBytes k a n)

end Sys2Proof.Machine
end

