-- ==== Sys2Proof/Machine/Numeric.lean ====
section
/-! DEFINITION. Number formats, rounding and flags (02): integers, the IEEE formats by exact dyadic arithmetic with one
rounding, the tapered formats, and ALIGN. A raw value is the bit pattern of a type as a natural number. -/

namespace Sys2Proof.Machine

/-! ## Integers (R57 to R59) -/

/-- The number that a raw pattern stands for: signed in a signed type, natural otherwise (R58). -/
def intOf (t : Ty) (raw : Nat) : Int :=
  let r := raw % 2 ^ tyBits t
  if tySgn t && 2 ^ (tyBits t - 1) ≤ r then (r : Int) - (2 ^ tyBits t : Nat) else (r : Int)

/-- WRAP_I as a raw pattern (R59). -/
def wrapI (t : Ty) (x : Int) : Nat := (x % (2 ^ tyBits t : Nat)).toNat

/-- The lowest value of an integer type (R58). -/
def lowest (t : Ty) : Int := if tySgn t then -((2 ^ (tyBits t - 1) : Nat) : Int) else 0

/-- The highest value of an integer type (R58). -/
def highest (t : Ty) : Int := if tySgn t then ((2 ^ (tyBits t - 1) : Nat) : Int) - 1 else ((2 ^ tyBits t : Nat) : Int) - 1

/-- CLAMP_I as a number (R59). -/
def clampI (t : Ty) (x : Int) : Int := min (max x (lowest t)) (highest t)

/-- The delivery of an exact integer result by SAT (R59). -/
def deliverI (t : Ty) (sat : Bool) (x : Int) : Nat := if sat then wrapI t (clampI t x) else wrapI t x

/-- A raw value placed in registers (R57): a narrow signed value is sign-extended, the others are zero-extended. -/
def place (t : Ty) (raw : Nat) : List W32 :=
  match tyBits t with
  | 64 => [BitVec.ofNat 32 raw, BitVec.ofNat 32 (raw / 2 ^ 32)]
  | 32 => [BitVec.ofNat 32 raw]
  | _ => if tySgn t then [BitVec.ofInt 32 (intOf t raw)] else [BitVec.ofNat 32 (raw % 2 ^ tyBits t)]

/-- The raw value in registers of which the type reads one or two (R57). -/
def rawOf (t : Ty) (lo hi : W32) : Nat :=
  match tyBits t with
  | 64 => lo.toNat + hi.toNat * 2 ^ 32
  | w => lo.toNat % 2 ^ w

/-! ## Flags (R66) -/

/-- Invalid. -/
def fNV : BitVec 5 := 0x10
/-- Divide by zero. -/
def fDZ : BitVec 5 := 0x08
/-- Overflow. -/
def fOF : BitVec 5 := 0x04
/-- Underflow. -/
def fUF : BitVec 5 := 0x02
/-- Inexact. -/
def fNX : BitVec 5 := 0x01

/-! ## Exact numbers -/

/-- A number as the floating-point rules see it: a NaN, an infinity, or the exact value (−1)^neg × m × 2^e. -/
inductive Num where
  | nan (sig : Bool)
  | inf (neg : Bool)
  | fin (neg : Bool) (m : Nat) (e : Int)
  deriving DecidableEq, Repr

/-- An exact dyadic number m × 2^e. -/
structure Dy where
  m : Int
  e : Int
  deriving DecidableEq, Repr

/-- 2^k for k ≥ 0, and 1 below. -/
def pow2 (k : Int) : Nat := 2 ^ k.toNat

/-- The mantissa of a dyadic at a lower exponent. -/
def Dy.at (x : Dy) (e : Int) : Int := x.m * (pow2 (x.e - e) : Int)

/-- The exact sum. -/
def Dy.add (x y : Dy) : Dy :=
  let e := min x.e y.e
  { m := x.at e + y.at e, e := e }

/-- The exact product. -/
def Dy.mul (x y : Dy) : Dy := { m := x.m * y.m, e := x.e + y.e }

/-- The negation. -/
def Dy.neg (x : Dy) : Dy := { m := -x.m, e := x.e }

/-- The exact sum of a list. -/
def Dy.sum (xs : List Dy) : Dy := xs.foldl Dy.add { m := 0, e := 0 }

/-- x < y, exactly. -/
def Dy.lt (x y : Dy) : Bool :=
  let e := min x.e y.e
  decide (x.at e < y.at e)

/-- x = y, exactly. -/
def Dy.eq (x y : Dy) : Bool :=
  let e := min x.e y.e
  decide (x.at e = y.at e)

/-- x × 2^k. -/
def Dy.scale (x : Dy) (k : Int) : Dy := { m := x.m, e := x.e + k }

/-- The dyadic of a finite number. -/
def dyOf (neg : Bool) (m : Nat) (e : Int) : Dy := { m := if neg then -(m : Int) else (m : Int), e := e }

/-- An integer as a number. -/
def numOfInt (x : Int) : Num := .fin (decide (x < 0)) x.natAbs 0

/-! ## The IEEE formats (R60 to R65) -/

/-- Fraction bits of a format. -/
def fracBits : Ty → Nat
  | .f64 => 52
  | .f16 => 10
  | .bf16 => 7
  | _ => 23

/-- Exponent bits of a format. -/
def expBits : Ty → Nat
  | .f64 => 11
  | .f16 => 5
  | _ => 8

/-- The exponent of the smallest normal number. -/
def minExp (t : Ty) : Int := 2 - (2 ^ (expBits t - 1) : Nat)

/-- The exponent of the smallest subnormal number. -/
def quantum (t : Ty) : Int := minExp t - fracBits t

/-- The raw pattern of +∞. -/
def infRaw (t : Ty) : Nat := (2 ^ expBits t - 1) * 2 ^ fracBits t

/-- The sign bit. -/
def signRaw (t : Ty) (neg : Bool) : Nat := if neg then 2 ^ (tyBits t - 1) else 0

/-- The canonical NaN (R60, R61). -/
def canonNaN (t : Ty) : Nat := infRaw t + 2 ^ (fracBits t - 1)

/-- The number of a raw pattern. -/
def decodeF (t : Ty) (raw : Nat) : Num :=
  let neg := raw / 2 ^ (tyBits t - 1) % 2 == 1
  let ex := raw / 2 ^ fracBits t % 2 ^ expBits t
  let fr := raw % 2 ^ fracBits t
  if ex == 2 ^ expBits t - 1 then
    if fr == 0 then .inf neg else .nan (fr < 2 ^ (fracBits t - 1))
  else if ex == 0 then .fin neg fr (quantum t)
  else .fin neg (2 ^ fracBits t + fr) (quantum t + ex - 1)

/-- Does the mode round the magnitude up? above: the rest exceeds one half; tie: it is one half; odd: the kept value is odd
(R63). -/
def roundsUp (rm : Rm) (neg inexact above tie odd : Bool) : Bool :=
  match rm with
  | .rne => above || (tie && odd)
  | .rtz => false
  | .rup => !neg && inexact
  | .rdn => neg && inexact

/-- m × 2^e, or a little more where sticky, cut at the quantum 2^q and rounded: the multiple of the quantum, and whether it
is inexact. With sticky, q is above e. -/
def roundAt (rm : Rm) (neg : Bool) (m : Nat) (e q : Int) (sticky : Bool) : Nat × Bool :=
  if q ≤ e then (m * pow2 (e - q), sticky)
  else
    let d := pow2 (q - e)
    let k := m / d
    let r := m % d
    let inexact := r != 0 || sticky
    let above := 2 * r > d || (2 * r == d && sticky)
    let tie := 2 * r == d && !sticky
    (if roundsUp rm neg inexact above tie (k % 2 == 1) then k + 1 else k, inexact)

/-- The result of an overflow by the mode (R64). -/
def overflowRaw (t : Ty) (rm : Rm) (neg : Bool) : Nat :=
  let big := infRaw t - 1
  signRaw t neg + match rm with
    | .rne => infRaw t
    | .rtz => big
    | .rup => if neg then big else infRaw t
    | .rdn => if neg then infRaw t else big

/-- ROUND_F of a finite value (R64, R79): the raw pattern and the flags. The fraction field is counted in quanta, so one
formula covers subnormal and normal results. -/
def roundFin (t : Ty) (rm : Rm) (neg : Bool) (m : Nat) (e : Int) (sticky : Bool) : Nat × BitVec 5 :=
  if m == 0 && !sticky then (signRaw t neg, 0)
  else
    let top := e + (Nat.log2 m : Int)
    let q := max (top - fracBits t) (quantum t)
    let r := roundAt rm neg m e q sticky
    let n := (q - quantum t).toNat * 2 ^ fracBits t + r.1
    if infRaw t ≤ n then (overflowRaw t rm neg, fOF ||| fNX)
    else
      let tiny := decide (top < minExp t)
      (signRaw t neg + n, if r.2 then (if tiny then fUF ||| fNX else fNX) else 0)

/-- ROUND_F of a number (R79). -/
def roundF (t : Ty) (rm : Rm) (x : Num) : Nat × BitVec 5 :=
  match x with
  | .nan sig => (canonNaN t, if sig then fNV else 0)
  | .inf neg => (infRaw t + signRaw t neg, 0)
  | .fin neg m e => roundFin t rm neg m e false

/-- The sign of an exact zero sum (R64): the common sign of the terms, or by the mode. -/
def zeroSign (rm : Rm) (allNeg allPos : Bool) : Bool := if allNeg then true else if allPos then false else rm == .rdn

/-- An exact dyadic with the sign a zero takes, as a number. -/
def numOfDy (x : Dy) (zeroNeg : Bool) : Num :=
  if x.m == 0 then .fin zeroNeg 0 0 else .fin (decide (x.m < 0)) x.m.natAbs x.e

/-- Is it a NaN? -/
def isNan : Num → Bool
  | .nan _ => true
  | _ => false

/-- Is it a signalling NaN? -/
def isSig : Num → Bool
  | .nan sig => sig
  | _ => false

/-- Is it a zero? -/
def isZero : Num → Bool
  | .fin _ m _ => m == 0
  | _ => false

/-- Is it an infinity? -/
def isInf : Num → Bool
  | .inf _ => true
  | _ => false

/-- The sign of a number; a NaN has none. -/
def negative : Num → Bool
  | .nan _ => false
  | .inf n => n
  | .fin n _ _ => n

/-- The number with its sign inverted. -/
def negNum : Num → Num
  | .nan s => .nan s
  | .inf n => .inf (!n)
  | .fin n m e => .fin (!n) m e

/-- The dyadic of a number that is finite; zero for the others. -/
def dy : Num → Dy
  | .fin n m e => dyOf n m e
  | _ => { m := 0, e := 0 }

/-- The canonical NaN with invalid (R65). -/
def invalid (t : Ty) : Nat × BitVec 5 := (canonNaN t, fNV)

/-- Delivered where an operand is a NaN (R61). -/
def nanResult (t : Ty) (xs : List Num) : Nat × BitVec 5 := (canonNaN t, if xs.any isSig then fNV else 0)

/-- The exact sum of numbers rounded once (R64, R65, R136, R194). -/
def sumF (t : Ty) (rm : Rm) (xs : List Num) : Nat × BitVec 5 :=
  if xs.any isNan then nanResult t xs
  else if xs.any (· == .inf true) then
    if xs.any (· == .inf false) then invalid t else (infRaw t + signRaw t true, 0)
  else if xs.any (· == .inf false) then (infRaw t, 0)
  else roundF t rm (numOfDy (Dy.sum (xs.map dy)) (zeroSign rm (xs.all negative) (xs.all fun x => !negative x)))

/-- The product of two numbers that are not NaNs, none for 0 × ∞. -/
def mulNum (a b : Num) : Option Num :=
  let neg := negative a != negative b
  match a, b with
  | .fin _ m e, .fin _ n f => some (.fin neg (m * n) (e + f))
  | _, _ => if isZero a || isZero b then none else some (.inf neg)

/-- FADD (R122). -/
def addF (t : Ty) (rm : Rm) (a b : Num) : Nat × BitVec 5 := sumF t rm [a, b]

/-- FMUL (R122). -/
def mulF (t : Ty) (rm : Rm) (a b : Num) : Nat × BitVec 5 :=
  if isNan a || isNan b then nanResult t [a, b]
  else match mulNum a b with
    | none => invalid t
    | some p => roundF t rm p

/-- FMA (R122): 0 × ∞ is invalid even where c is a quiet NaN. -/
def fmaF (t : Ty) (rm : Rm) (a b c : Num) : Nat × BitVec 5 :=
  if isNan a || isNan b then nanResult t [a, b, c]
  else match mulNum a b with
    | none => invalid t
    | some p => sumF t rm [p, c]

/-- The quotient of finite nonzero magnitudes with at least prec bits: mantissa, exponent, sticky. -/
def quotient (prec m : Nat) (e : Int) (n : Nat) (f : Int) : Nat × Int × Bool :=
  let k := prec + Nat.log2 n - Nat.log2 m
  let d := m * 2 ^ k
  (d / n, e - f - k, d % n != 0)

/-- FDIV (R122, R65). -/
def divF (t : Ty) (rm : Rm) (a b : Num) : Nat × BitVec 5 :=
  let neg := negative a != negative b
  match a, b with
  | .nan _, _ => nanResult t [a, b]
  | _, .nan _ => nanResult t [a, b]
  | .inf _, .inf _ => invalid t
  | .inf _, .fin _ _ _ => (infRaw t + signRaw t neg, 0)
  | .fin _ _ _, .inf _ => (signRaw t neg, 0)
  | .fin _ m e, .fin _ n f =>
    if n == 0 then
      if m == 0 then invalid t else (infRaw t + signRaw t neg, fDZ)
    else if m == 0 then (signRaw t neg, 0)
    else
      let q := quotient (fracBits t + 4) m e n f
      roundFin t rm neg q.1 q.2.1 q.2.2

/-- The square root of n rounded down, for n below 4^bits: one bit of the root per step. -/
def isqrt : Nat → Nat → Nat → Nat
  | 0, _, r => r
  | b + 1, n, r =>
    let c := r + 2 ^ b
    isqrt b n (if c * c ≤ n then c else r)

/-- FSQRT (R122). -/
def sqrtF (t : Ty) (rm : Rm) (a : Num) : Nat × BitVec 5 :=
  match a with
  | .nan _ => nanResult t [a]
  | .inf neg => if neg then invalid t else (infRaw t, 0)
  | .fin neg m e =>
    if m == 0 then (signRaw t neg, 0)
    else if neg then invalid t
    else
      let k := 2 * (fracBits t + 4) + (e % 2).toNat
      let n := m * 2 ^ k
      let r := isqrt (Nat.log2 n / 2 + 1) n 0
      roundFin t rm false r ((e - k) / 2) (r * r != n)

/-- FRCP (R122). -/
def rcpF (t : Ty) (rm : Rm) (a : Num) : Nat × BitVec 5 := divF t rm (.fin false 1 0) a

/-- FRSQ (R122). -/
def rsqF (t : Ty) (rm : Rm) (a : Num) : Nat × BitVec 5 :=
  match a with
  | .nan _ => nanResult t [a]
  | .inf neg => if neg then invalid t else (0, 0)
  | .fin neg m e =>
    if m == 0 then (infRaw t + signRaw t neg, fDZ)
    else if neg then invalid t
    else
      let odd := (e % 2).toNat
      let n := m * 2 ^ odd
      let k := fracBits t + 5 + Nat.log2 n / 2
      let r := isqrt (k + 1) (2 ^ (2 * k) / n) 0
      roundFin t rm false r (-((e - odd) / 2) - k) (r * r * n != 2 ^ (2 * k))

/-- An order on numbers that are not NaNs; −0 equals +0. -/
def ltNum (a b : Num) : Bool :=
  match a, b with
  | .inf n, .inf m => n && !m
  | .inf n, _ => n
  | _, .inf m => !m
  | _, _ => Dy.lt (dy a) (dy b)

/-- Equality of numbers that are not NaNs (R124). -/
def eqNum (a b : Num) : Bool := !ltNum a b && !ltNum b a

/-- The order of FMIN and FMAX, where −0 is less than +0 (R123). -/
def ltTotal (a b : Num) : Bool := ltNum a b || (isZero a && isZero b && negative a && !negative b)

/-- FMIN or FMAX over any number of raw values (R123, R136): the numbers' extreme, the canonical NaN where every value is a
NaN; NV for a signalling NaN. -/
def extremeF (t : Ty) (isMin : Bool) (raws : List Nat) : Nat × BitVec 5 :=
  let flags := if raws.any fun r => isSig (decodeF t r) then fNV else 0
  let best := raws.foldl (fun (acc : Option Nat) r =>
    if isNan (decodeF t r) then acc
    else match acc with
      | none => some r
      | some b =>
        let better := if isMin then ltTotal (decodeF t r) (decodeF t b) else ltTotal (decodeF t b) (decodeF t r)
        if better then some r else some b) none
  (best.getD (canonNaN t), flags)

/-- m × 2^e rounded to an integer by the mode: the integer and whether it differs (R77, R126). -/
def roundInt (rm : Rm) (neg : Bool) (m : Nat) (e : Int) : Int × Bool :=
  let r := roundAt rm neg m e 0 false
  (if neg then -(r.1 : Int) else (r.1 : Int), r.2)

/-- RNE of a dyadic (R79). -/
def rneDy (x : Dy) : Int := (roundInt .rne (decide (x.m < 0)) x.m.natAbs x.e).1

/-- FRND (R126): a zero result takes the sign of a; NX only where exact asks for it. -/
def rndF (t : Ty) (rm : Rm) (exact : Bool) (raw : Nat) : Nat × BitVec 5 :=
  match decodeF t raw with
  | .nan sig => (canonNaN t, if sig then fNV else 0)
  | .inf neg => (infRaw t + signRaw t neg, 0)
  | .fin neg m e =>
    let r := roundAt rm neg m e 0 false
    ((roundFin t .rne neg r.1 0 false).1, if exact && r.2 then fNX else 0)

/-! ## The tapered formats (R68 to R73) -/

/-- The bits of M (R68). -/
def taBits (t : Ty) : Nat := if t == .ta6 then 5 else 7

/-- How many leading bits of the n-bit m equal b. -/
def leadingRun (b : Bool) : Nat → Nat → Nat
  | 0, _ => 0
  | n + 1, m => if m.testBit n == b then leadingRun b n m + 1 else 0

/-- The magnitude of M ≠ 0 (R69) as significand and exponent. -/
def taMag (n es m : Nat) : Nat × Int :=
  let b := m.testBit (n - 1)
  let k := leadingRun b n m
  let reg : Int := if b then (k : Int) - 1 else -(k : Int)
  let rest := if k < n then n - k - 1 else 0
  let t := m % 2 ^ rest
  let eb := min es rest
  let e := t / 2 ^ (rest - eb) * 2 ^ (es - eb)
  let fb := rest - eb
  (2 ^ fb + t % 2 ^ fb, reg * (2 ^ es : Nat) + e - fb)

/-- DECODE_TA (R69). NaR is a quiet NaN here. -/
def decodeTa (t : Ty) (es code : Nat) : Num :=
  let n := taBits t
  let neg := code.testBit n
  let m := code % 2 ^ n
  if m == 0 then (if neg then .nan false else .fin false 0 0)
  else
    let v := taMag n es m
    .fin neg v.1 v.2

/-- Is the magnitude of M at most a? -/
def taLe (n es m : Nat) (a : Dy) : Bool :=
  let v := taMag n es m
  !Dy.lt a { m := v.1, e := v.2 }

/-- The largest M, at most k, whose magnitude is at most a; 0 for none. -/
def taFloor (n es : Nat) (a : Dy) : Nat → Nat
  | 0 => 0
  | k + 1 => if taLe n es (k + 1) a then k + 1 else taFloor n es a k

/-- ENCODE_TA of a finite magnitude a (R71): the M and the flags. -/
def taRound (n es : Nat) (a : Dy) : Nat × BitVec 5 :=
  let top := 2 ^ n - 1
  let mag (m : Nat) : Dy := { m := (taMag n es m).1, e := (taMag n es m).2 }
  if Dy.lt (mag top) a then (top, fOF ||| fNX)
  else if Dy.lt (a.scale 1) (mag 1) then (0, fUF ||| fNX)
  else if Dy.lt a (mag 1) then (1, fUF ||| fNX)
  else
    let lo := taFloor n es a top
    if Dy.eq (mag lo) a then (lo, 0)
    else
      let twice := a.scale 1
      let mid := (mag lo).add (mag (lo + 1))
      let pick := if Dy.lt twice mid then lo else if Dy.lt mid twice then lo + 1 else if lo % 2 == 0 then lo else lo + 1
      (pick, fNX)

/-- ENCODE_TA (R71): the code and the flags. -/
def encodeTa (t : Ty) (es : Nat) (scale : Int) (x : Num) : Nat × BitVec 5 :=
  let n := taBits t
  match x with
  | .nan sig => (2 ^ n, if sig then fNV else 0)
  | .inf neg => ((if neg then 2 ^ n else 0) + (2 ^ n - 1), fOF ||| fNX)
  | .fin neg m e =>
    if m == 0 then (0, 0)
    else
      let r := taRound n es { m := m, e := e - scale }
      (if r.1 == 0 then 0 else (if neg then 2 ^ n else 0) + r.1, r.2)

/-! ## Format slots (R74, R75) -/

/-- FMT. -/
def fsFmt (slot : W64) : Nat := slot.toNat % 256
/-- ES. -/
def fsEs (slot : W64) : Nat := slot.toNat / 2 ^ 8 % 4
/-- SCALE. -/
def fsScale (slot : W64) : Int := (slot.extractLsb 17 10).toInt
/-- PLN as a plane count. -/
def fsPlanes (slot : W64) : Nat :=
  match slot.toNat / 2 ^ 18 % 16 with
  | 0 => 6
  | 1 => 8
  | 2 => 12
  | _ => 16
/-- ALG. -/
def fsAlg (slot : W64) : Nat := slot.toNat / 2 ^ 22 % 4
/-- LAYOUT is planar. -/
def fsPlanar (slot : W64) : Bool := slot.toNat / 2 ^ 24 % 4 == 1
/-- PB: 8 or 16 (R80). -/
def fsPb (slot : W64) : Nat := if slot.toNat / 2 ^ 26 % 4 == 1 then 16 else 8

/-- The type of a format code (R75). -/
def fmtTy (fmt : Nat) : Option Ty :=
  match fmt with
  | 1 => some .ta8 | 2 => some .ta6 | 3 => some .i8 | 4 => some .n8 | 5 => some .i16 | 6 => some .f16 | 7 => some .bf16
  | 8 => some .f32 | _ => none

/-- The number of a raw value under a type and an es. -/
def numOfRaw (t : Ty) (es raw : Nat) : Num :=
  if tyFl t then decodeF t raw else if tyTapered t then decodeTa t es raw else numOfInt (intOf t raw)

/-- The number × 2^k. -/
def scaleNum (k : Int) : Num → Num
  | .fin n m e => .fin n m (e + k)
  | x => x

/-- A raw element decoded under a slot: its value × 2^SCALE (R75). -/
def slotNum (slot : W64) (raw : Nat) : Num :=
  match fmtTy (fsFmt slot) with
  | some t => scaleNum (fsScale slot) (numOfRaw t (fsEs slot) raw)
  | none => .nan false

/-! ## Conversions (R77) -/

/-- A number delivered as an integer (R77): NaN gives 0 and NV; outside the range the clamped value and NV. -/
def toIntTy (t : Ty) (rm : Rm) (x : Num) : Nat × BitVec 5 :=
  match x with
  | .nan _ => (0, fNV)
  | .inf neg => (wrapI t (if neg then lowest t else highest t), fNV)
  | .fin neg m e =>
    let v := roundInt rm neg m e
    if v.1 < lowest t || highest t < v.1 then (wrapI t (clampI t v.1), fNV)
    else (wrapI t v.1, if v.2 then fNX else 0)

/-- CVT from a raw value of src to dst under a slot (R77). -/
def convert (src dst : Ty) (rm : Rm) (sat : Bool) (slot : W64) (raw : Nat) : Nat × BitVec 5 :=
  let es := fsEs slot
  let x := if tyTapered src then scaleNum (fsScale slot) (decodeTa src es raw) else numOfRaw src es raw
  if tyInt src && tyInt dst then (deliverI dst sat (intOf src raw), 0)
  else if tyInt dst then toIntTy dst rm x
  else if tyTapered dst then encodeTa dst es (fsScale slot) x
  else if src == dst && !isNan x then (raw % 2 ^ tyBits src, 0)
  else roundF dst rm x

/-! ## ALIGN (R79) -/

/-- floor(log2(|x|)) of a nonzero dyadic. -/
def log2Dy (x : Dy) : Int := x.e + (Nat.log2 x.m.natAbs : Int)

/-- The largest exponent of the nonzero values, if there is one. -/
def maxExp (xs : List Dy) : Option Int :=
  xs.foldl (fun (acc : Option Int) x =>
    if x.m == 0 then acc else match acc with
      | none => some (log2Dy x)
      | some e => some (max e (log2Dy x))) none

/-- One aligned integer. -/
def alignOne (p : Nat) (e : Int) (x : Dy) : Int :=
  let lim : Int := (2 ^ (p - 1) : Nat) - 1
  min (max (rneDy (x.scale ((p : Int) - 2 - e))) (-lim)) lim

/-- ALIGN (R79). -/
def align (p : Nat) (xs : List Dy) : Int × List Int :=
  match maxExp xs with
  | none => (0, xs.map fun _ => 0)
  | some e => (e, xs.map (alignOne p e))

end Sys2Proof.Machine
end

