-- ==== Sys2Proof/Machine/Access.lean ====
section
/-! DEFINITION. Reading and changing the parts of the state by their numbers: cores, threads, groups, blocks, launches
and the fields of a launch record (R343). -/

namespace Sys2Proof.Machine

/-! ## Cores and threads -/

/-- A core by its number, DIE × 64 + CORE. -/
def coreOf (k : Kern) (c : Nat) : Core := (mget k.cores c).getD Core.reset

/-- Change a core. -/
def modCore (k : Kern) (c : Nat) (f : Core → Core) : Kern := { k with cores := mset k.cores c (f (coreOf k c)) }

/-- The thread at a slot and lane. -/
def findThread (ts : List Thread) (tslot lane : Nat) : Option Thread :=
  ts.find? fun t => t.tslot == tslot && t.lane == lane

/-- The thread at a slot and lane of a core. -/
def getThread (k : Kern) (c tslot lane : Nat) : Option Thread := findThread (coreOf k c).threads tslot lane

/-- Change the thread at a slot and lane of a core. -/
def modThread (k : Kern) (c tslot lane : Nat) (f : Thread → Thread) : Kern :=
  modCore k c fun core =>
    { core with threads := core.threads.map fun t => if t.tslot == tslot && t.lane == lane then f t else t }

/-- Change a thread named by what it was. -/
def modThis (k : Kern) (c : Nat) (t : Thread) (f : Thread → Thread) : Kern := modThread k c t.tslot t.lane f

/-- The thread as it now stands. -/
def nowThread (k : Kern) (c : Nat) (t : Thread) : Thread := (getThread k c t.tslot t.lane).getD t

/-- The threads in an entry, in ascending lane: OCC says which lanes hold one, SLOTOF in which thread slot it is (R263). -/
def entryThreads (core : Core) (e : Nat) : List Thread :=
  let held := core.threads.filter fun t => t.loc == .entry e
  (List.range 64).filterMap fun lane =>
    (held.find? fun t => t.lane == lane).bind fun t => findThread core.threads t.tslot lane

/-- The threads of a block. -/
def blockThreads (core : Core) (b : Nat) : List Thread := core.threads.filter fun t => t.block == b

/-- The threads of a group. -/
def groupThreads (core : Core) (b g : Nat) : List Thread := core.threads.filter fun t => t.block == b && t.group == g

/-- The thread has not exited. -/
def live (t : Thread) : Bool := t.loc != .exited

/-- The thread is parked, or stood down, which counts as parked (R374). -/
def parkedLike (t : Thread) : Bool := t.loc == .parked || t.loc == .down

/-! ## Blocks and groups -/

/-- A block of a core. -/
def blockOf (k : Kern) (c b : Nat) : Option Block := mget (coreOf k c).blocks b

/-- Change a block. -/
def modBlock (k : Kern) (c b : Nat) (f : Block → Block) : Kern :=
  modCore k c fun core => { core with blocks := mmod core.blocks b f }

/-- The group of a thread. -/
def groupOf (k : Kern) (c : Nat) (t : Thread) : Option Group :=
  match blockOf k c t.block with
  | some b => b.groups[t.group]?
  | none => none

/-- Change a group. -/
def modGroup (k : Kern) (c b g : Nat) (f : Group → Group) : Kern :=
  modBlock k c b fun blk => { blk with groups := lmod blk.groups g f }

/-- REGS of a thread's group (R257). -/
def regsOf (k : Kern) (c : Nat) (t : Thread) : Nat := ((groupOf k c t).map (·.regs)).getD 0

/-- The name of a thread in its block: group slot × W + group-lane. -/
def memberId (blk : Block) (t : Thread) : Nat := t.group * blk.width + t.glane

/-! ## Launches -/

/-- The launch of a block. -/
def launchOf (k : Kern) (blk : Block) : Option Launch := mget k.launches blk.launch

/-- The launch of a thread. -/
def threadLaunch (k : Kern) (c : Nat) (t : Thread) : Option Launch :=
  match blockOf k c t.block with
  | some b => launchOf k b
  | none => none

/-- The context of a thread. -/
def ctxOf (k : Kern) (c : Nat) (t : Thread) : Nat := ((blockOf k c t.block).map (·.ctx)).getD 0

/-- A field of a launch record. -/
def recNat (l : Launch) (off n : Nat) : Nat := fieldOf l.rec_ off n
/-- The kernel is a field kernel. -/
def isField (l : Launch) : Bool := recNat l 5 1 == 1
/-- PRIO. -/
def recPrio (l : Launch) : Nat := recNat l 6 1 % 4
/-- RACE (R326). -/
def recRace (l : Launch) : Nat := recNat l 7 1 / 16 % 4
/-- VALID (R304). -/
def recValid (l : Launch) : Nat := recNat l 7 1 / 4 % 4
/-- CLASS: 0 P, 1 D, 2 N. -/
def recClass (l : Launch) : Nat := recNat l 7 1 % 4
/-- CODE. -/
def recCode (l : Launch) : Nat := recNat l 8 8
/-- SIDE. -/
def recSide (l : Launch) : Nat := recNat l 16 8
/-- HANDLER; none where the record gives none. -/
def recHandler (l : Launch) : Option Nat := if recNat l 24 8 == 2 ^ 64 - 1 then none else some (recNat l 24 8)
/-- REGS. -/
def recRegs (l : Launch) : Nat := recNat l 32 1
/-- W, the group width. -/
def recWidth (l : Launch) : Nat := 8 * 2 ^ (recNat l 33 1 % 4)
/-- GROUPS. -/
def recGroups (l : Launch) : Nat := recNat l 34 2
/-- SB. -/
def recSb (l : Launch) : Nat := recNat l 36 4
/-- NACC. -/
def recNacc (l : Launch) : Nat := recNat l 40 1
/-- NBED. -/
def recNbed (l : Launch) : Nat := recNat l 41 1
/-- NBLK. -/
def recNblk (l : Launch) : Nat := recNat l 44 4
/-- EBUDGET. -/
def recBudget (l : Launch) : Nat := recNat l 48 4
/-- RATIOREQ. -/
def recReq (l : Launch) : Nat := recNat l 52 2
/-- RATIOWT. -/
def recWt (l : Launch) : Nat := recNat l 54 2
/-- NSTAGE. -/
def recStages (l : Launch) : Nat := recNat l 56 2
/-- TSTAGE. -/
def recTstage (l : Launch) : Nat := recNat l 58 1
/-- X (R344). -/
def recX (l : Launch) : Nat := recNat l 64 4
/-- Y. -/
def recY (l : Launch) : Nat := recNat l 68 4
/-- Z. -/
def recZ (l : Launch) : Nat := recNat l 72 4
/-- BX. -/
def recBx (l : Launch) : Nat := recNat l 76 2
/-- BY. -/
def recBy (l : Launch) : Nat := recNat l 78 2
/-- BZ. -/
def recBz (l : Launch) : Nat := recNat l 80 2
/-- WRAP bit of an axis. -/
def recWrap (l : Launch) (axis : Nat) : Bool := (recNat l 82 1).testBit axis
/-- BC, the boundary constant. -/
def recBc (l : Launch) : Nat := recNat l 84 4
/-- PLACE. -/
def recPlace (l : Launch) : Nat := recNat l 88 8
/-- A format slot (R74). -/
def recFs (l : Launch) (i : Nat) : W64 := BitVec.ofNat 64 (recNat l (128 + 8 * i) 8)
/-- An algebra-table capability. -/
def recAlg (l : Launch) (i : Nat) : Nat := recNat l (192 + 8 * i) 8
/-- KIND of a timeline binding (R346). -/
def recTlKind (l : Launch) (i : Nat) : Nat := recNat l (224 + 16 * i) 1
/-- CAP of a timeline binding. -/
def recTlCap (l : Launch) (i : Nat) : Nat := recNat l (232 + 16 * i) 8
/-- PDST. -/
def recPdst (l : Launch) : Nat := recNat l 352 4
/-- PLEN. -/
def recPlen (l : Launch) : Nat := recNat l 356 2
/-- PCOPY. -/
def recPcopy (l : Launch) : Bool := (recNat l 358 1).testBit 0
/-- ENTRY. -/
def recEntry (l : Launch) : Nat := recNat l 360 8

/-- The thread runs a field kernel. -/
def inField (k : Kern) (c : Nat) (t : Thread) : Bool :=
  match threadLaunch k c t with
  | some l => isField l
  | none => false

/-- The component count of an algebra table of a launch (R80, R91). -/
def tableCount (l : Launch) (i : Nat) : Nat := if i == 0 then 1 else fieldOf (l.tables.getD i []) 4 1

/-! ## Contexts and objects -/

/-- A context. -/
def getCtx (k : Kern) (x : Nat) : Ctx := (mget k.ctxs x).getD Ctx.reset

/-- Change a context. -/
def modCtx (k : Kern) (x : Nat) (f : Ctx → Ctx) : Kern := { k with ctxs := mset k.ctxs x (f (getCtx k x)) }

/-- The object table entry of a context's object (R151, R364). -/
def getObj (k : Kern) (ctx o : Nat) : Option ObjEntry := if o == 0 then none else mget (getCtx k ctx).objs o

/-- OBJ of a capability (R171). -/
def capObj (cap : Nat) : Nat := cap / 2 ^ 40 % 2 ^ 24
/-- The rights of a capability: RD 8, WR 4, AT 2, EX 1. -/
def capRights (cap : Nat) : Nat := cap / 2 ^ 36 % 16
/-- OFF of a capability. -/
def capOff (cap : Nat) : Nat := cap % 2 ^ 36
/-- The capability form of an address: the capability's upper bits over the address (R151). -/
def capForm (cap ea : Nat) : Nat := cap / 2 ^ 36 % 2 ^ 28 * 2 ^ 36 + ea % 2 ^ 36

/-- GRANTED of an entry, in the order of a capability's rights. -/
def granted (e : ObjEntry) : Nat :=
  (if e.rd then 8 else 0) + (if e.wr then 4 else 0) + (if e.at_ then 2 else 0) + (if e.ex then 1 else 0)

/-- The effective rights of a capability (R171). -/
def effective (e : ObjEntry) (cap : Nat) : Nat := Nat.land (capRights cap) (granted e)

/-- The usable bytes of one frame of an object (R365, R368). -/
def frameBytes (e : ObjEntry) : Nat :=
  match e.home, e.cls with
  | .hbm, .p => 1835008
  | .hbm, .d => 2031616
  | .hbm, .n => 2097152
  | _, _ => 65536

/-- The line within a frame of usable line u: the check lines are skipped (R365). -/
def frameLine (e : ObjEntry) (u : Nat) : Nat :=
  match e.home, e.cls with
  | .hbm, .p => u / 7 * 8 + u % 7
  | .hbm, .d => u / 31 * 32 + u % 31
  | _, _ => u

/-- The physical base that an extent descriptor names: a frame of HBM or of a vault (R365). DESIGN CHOICE: log entry 110. -/
def frameBase (x : W64) : Option Nat :=
  let n := x.toNat
  match n / 2 ^ 60 % 4 with
  | 0 => some (hbmFrame (n % 2 ^ 18))
  | 1 => some (vaultFrame (n % 2 ^ 18))
  | _ => none

/-- The physical base of a placed extent, none where it is unplaced, moving or invalid (R365, log entry 6). DEDUCED: log entry 6. -/
def extentBase (x : W64) : Option Nat := if x.toNat / 2 ^ 62 == 1 then frameBase x else none

/-- The physical base for an access that was translated before its extent began to move: it is performed where the data still is
(R370). -/
def heldBase (x : W64) : Option Nat := if x.toNat / 2 ^ 62 == 1 || x.toNat / 2 ^ 62 == 2 then frameBase x else none

/-- TRANSLATE (R365) with a rule for the descriptor of the extent: the physical address of a byte of an object, or the park subcode:
0 object not present, 1 frame not placed. A remote object is translated at its home (R392). -/
def translateBy (base : W64 → Option Nat) (k : Kern) (ctx o off : Nat) : Except Nat Nat :=
  match getObj k ctx o with
  | none => .error 0
  | some e =>
    match e.home with
    | .remote => .ok (remoteAddr e.hdev o off)
    | _ =>
      if !e.present then .error 0
      else
        let u := frameBytes e
        match base ((mget k.extents (e.ext + off / u)).getD 0) with
        | none => .error 1
        | some b => .ok (b + frameLine e (off % u / 64) * 64 + off % 64)

/-- TRANSLATE (R365). -/
def translate (k : Kern) (ctx o off : Nat) : Except Nat Nat := translateBy extentBase k ctx o off

/-- A byte range of an object as physical runs that stay within lines, or the first park: its offset and subcode. The last
argument bounds the number of runs. -/
def runsOf (base : W64 → Option Nat) (k : Kern) (ctx o off n : Nat) : Nat → Except (Nat × Nat) (List (Nat × Nat))
  | 0 => .ok []
  | fuel + 1 =>
    if n == 0 then .ok []
    else
      let m := min n (64 - off % 64)
      match translateBy base k ctx o off with
      | .error sub => .error (off, sub)
      | .ok a =>
        match runsOf base k ctx o (off + m) (n - m) fuel with
        | .error x => .error x
        | .ok rs => .ok ((a, m) :: rs)

/-- The physical runs of a byte range of an object. -/
def objRuns (k : Kern) (ctx o off n : Nat) : Except (Nat × Nat) (List (Nat × Nat)) :=
  runsOf extentBase k ctx o off n (n / 64 + 2)

/-- The physical runs of an access that has been translated (R370). -/
def heldRuns (k : Kern) (ctx o off n : Nat) : Except (Nat × Nat) (List (Nat × Nat)) :=
  runsOf heldBase k ctx o off n (n / 64 + 2)

/-- The bytes of runs. -/
def getRuns (k : Kern) (rs : List (Nat × Nat)) : List Byte := rs.flatMap fun r => getBytes k r.1 r.2

/-- Write bytes over runs. -/
def putRuns (k : Kern) : List (Nat × Nat) → List Byte → Kern
  | [], _ => k
  | r :: rs, bs => putRuns (putBytes k r.1 (bs.take r.2)) rs (bs.drop r.2)

/-- R151 on an object: the capability, the offset, the size of the range, the alignment and the rights. The offset of the
access, or cause and fault word. -/
def checkObj (k : Kern) (ctx cap ea size algn need : Nat) : Except (Nat × Nat) Nat :=
  let fault := capForm cap ea
  match getObj k ctx (capObj cap) with
  | none => .error (0x05, fault)
  | some e =>
    if Nat.land need (effective e cap) != need then .error (0x05, fault)
    else if ea % algn != 0 || e.size < ea + size then .error (0x04, fault)
    else .ok ea

/-! ## Firmware's own reads and writes of objects -/

/-- The bytes of an object as firmware or an engine reads them after its checks; none where the range is not placed. -/
def readObj (k : Kern) (ctx o off n : Nat) : Option (List Byte) :=
  match objRuns k ctx o off n with
  | .ok rs => some (getRuns k rs)
  | .error _ => none

/-- A request of the unit whose transfer runs, for a line of an object on another device (R392). -/
def askFar (k : Kern) (ctx dev o line : Nat) (put : Option (FMap Byte)) : Kern :=
  let x : Far := { id := k.id, owner := k.unit, ctx := ctx, dev := dev, obj := o, line := line, put := put,
                   row := k.row, sent := false, ended := none }
  { k with far := k.far ++ [x], id := k.id + 1 }

/-- Bytes as a map from their offsets in a line. -/
def bytesFrom (at_ : Nat) : List Byte → FMap Byte
  | [] => []
  | b :: bs => (at_, b) :: bytesFrom (at_ + 1) bs

/-- The writes of bytes on another device, a request for each line. The last argument bounds the lines. -/
def sendLines (k : Kern) (ctx dev o off : Nat) (bs : List Byte) : Nat → Kern
  | 0 => k
  | n + 1 =>
    if bs.isEmpty then k
    else
      let m := 64 - off % 64
      sendLines (askFar k ctx dev o (off / 64) (some (bytesFrom (off % 64) (bs.take m)))) ctx dev o (off + m) (bs.drop m) n

/-- What is written to an object on another device goes to its home (R392); nothing where its home is here. -/
def sendWrite (k : Kern) (ctx o off : Nat) (bs : List Byte) : Kern :=
  match getObj k ctx o with
  | some e => if e.home == .remote then sendLines k ctx e.hdev o off bs (bs.length / 64 + 2) else k
  | none => k

/-- Write bytes to an object; no change where the range is not placed. -/
def writeObj (k : Kern) (ctx o off : Nat) (bs : List Byte) : Kern :=
  match objRuns k ctx o off bs.length with
  | .ok rs => sendWrite (putRuns k rs bs) ctx o off bs
  | .error _ => k

/-- Read n bytes at a capability with the rights needed; none where a check fails. -/
def readCap (k : Kern) (ctx cap n need : Nat) : Option (List Byte) :=
  match checkObj k ctx cap (capOff cap) n 1 need with
  | .ok ea => readObj k ctx (capObj cap) ea n
  | .error _ => none

/-- A fresh number. -/
def freshId (k : Kern) : Nat × Kern := (k.id, { k with id := k.id + 1 })

end Sys2Proof.Machine
end

