-- ==== Sys2Proof/Machine/Cells.lean ====
section
/-! DEFINITION. Cells of a field (10): where a cell stands, its neighbours, its face record in the exchange region, and the
publications that a reader receives. -/

namespace Sys2Proof.Machine

/-! ## Places of cells (R260, R280, R344) -/

/-- Coordinates of a cell. -/
structure Cell where
  x : Nat
  y : Nat
  z : Nat
  s : Nat
  deriving DecidableEq, Repr

/-- Bricks along x. -/
def bricksX (l : Launch) : Nat := recX l / recBx l
/-- Bricks along y. -/
def bricksY (l : Launch) : Nat := recY l / recBy l
/-- Bricks along z. -/
def bricksZ (l : Launch) : Nat := recZ l / recBz l
/-- The bricks of the field. -/
def brickCount (l : Launch) : Nat := bricksX l * bricksY l * bricksZ l * recStages l
/-- The cells of a brick. -/
def brickCells (l : Launch) : Nat := recBx l * recBy l * recBz l

/-- The cell with brick index b of a brick (R260, R344). -/
def cellAt (l : Launch) (brick b : Nat) : Cell :=
  let nx := bricksX l
  let ny := bricksY l
  let nz := bricksZ l
  { x := brick % nx * recBx l + b % recBx l,
    y := brick / nx % ny * recBy l + b / recBx l % recBy l,
    z := brick / nx / ny % nz * recBz l + b / recBx l / recBy l,
    s := brick / nx / ny / nz }

/-- The linear index of a cell (R280). -/
def linear (l : Launch) (c : Cell) : Nat := ((c.s * recZ l + c.z) * recY l + c.y) * recX l + c.x

/-- The cell of a linear index. -/
def cellOf (l : Launch) (n : Nat) : Cell :=
  { x := n % recX l, y := n / recX l % recY l, z := n / recX l / recY l % recZ l, s := n / recX l / recY l / recZ l }

/-- The brick that holds a cell, and its brick index (R260, R344). -/
def brickOf (l : Launch) (c : Cell) : Nat × Nat :=
  (((c.s * bricksZ l + c.z / recBz l) * bricksY l + c.y / recBy l) * bricksX l + c.x / recBx l,
    (c.z % recBz l * recBy l + c.y % recBy l) * recBx l + c.x % recBx l)

/-- One step down an axis, wrapping where the axis wraps. -/
def down (wrap : Bool) (n x : Nat) : Option Nat := if x == 0 then (if wrap then some (n - 1) else none) else some (x - 1)
/-- One step up an axis. -/
def up (wrap : Bool) (n x : Nat) : Option Nat := if x + 1 == n then (if wrap then some 0 else none) else some (x + 1)

/-- The neighbour in a direction, none for the boundary (R281). -/
def neighbour (l : Launch) (c : Cell) : Dir → Option Cell
  | .me => some c
  | .xm => (down (recWrap l 0) (recX l) c.x).map fun x => { c with x := x }
  | .xp => (up (recWrap l 0) (recX l) c.x).map fun x => { c with x := x }
  | .ym => (down (recWrap l 1) (recY l) c.y).map fun y => { c with y := y }
  | .yp => (up (recWrap l 1) (recY l) c.y).map fun y => { c with y := y }
  | .zm => (down (recWrap l 2) (recZ l) c.z).map fun z => { c with z := z }
  | .zp => (up (recWrap l 2) (recZ l) c.z).map fun z => { c with z := z }
  | .pre => (down false (recStages l) c.s).map fun s => { c with s := s }
  | .nxt => (up false (recStages l) c.s).map fun s => { c with s := s }

/-- The directions other than me. -/
def outDirs : List Dir := [.xm, .xp, .ym, .yp, .zm, .zp, .pre, .nxt]

/-- The readers of a cell: the linear indexes of the other cells that are its neighbours (R281). -/
def readersOf (l : Launch) (c : Cell) : List Nat :=
  let me := linear l c
  (outDirs.filterMap fun d => (neighbour l c d).map (linear l)).foldl (fun acc n => if n == me then acc else addOnce acc n) []

/-! ## The exchange region (R290) -/

/-- The bytes of a cell frame (R290). -/
def frameSize (l : Launch) : Nat := ceilDiv (96 + 4 * recRegs l) 64 * 64

/-- The offset of the cell frames in a region. -/
def framesAt (nc nh : Nat) : Nat := ceilDiv ((nc + nh) * 160) 64 * 64

/-- The bytes of an exchange region (R290). -/
def regionBytes (l : Launch) (nc nh : Nat) (virt : Bool) : Nat :=
  if virt then framesAt nc nh + nc * frameSize l else (nc + nh) * 160

/-- The region of a launch on a core. -/
def regionOf (k : Kern) (c serial : Nat) : Option XRegion := (coreOf k c).xr.find? fun r => r.launch == serial

/-- Change the region of a launch on a core. -/
def modRegion (k : Kern) (c serial : Nat) (f : XRegion → XRegion) : Kern :=
  modCore k c fun core => { core with xr := core.xr.map fun r => if r.launch == serial then f r else r }

/-- The physical base of a region. -/
def regionBase (c : Nat) (r : XRegion) : Nat := rowBase c r.baseRow

/-- The physical address of record i of a region. -/
def recordAt (c : Nat) (r : XRegion) (i : Nat) : Nat := regionBase c r + 160 * i

/-- The physical address of the frame of brick index b. -/
def frameAt (c : Nat) (r : XRegion) (l : Launch) (b : Nat) : Nat :=
  regionBase c r + framesAt r.nc r.halo.length + b * frameSize l

/-- The position of an element in a list. -/
def indexIn (n : Nat) : List Nat → Option Nat
  | [] => none
  | m :: l => if m == n then some 0 else (indexIn n l).map (· + 1)

/-- The number of the record that a core holds for a cell: its own cell or a halo cell (R288). -/
def recordFor (l : Launch) (r : XRegion) (n : Nat) : Option Nat :=
  let b := brickOf l (cellOf l n)
  if b.1 == r.brick then some b.2 else (indexIn n r.halo).map (· + r.nc)

/-- The exit mark of KNOWN (R288). -/
def exitMark : Nat := 0x7FFF_FFFF_FFFF_FFFF

/-- A signed 64-bit value in memory. -/
def getInt64 (k : Kern) (a : Nat) : Int := (BitVec.ofNat 64 (getNat k a 8)).toInt

/-- σ of a local record or KNOWN of a halo record (R289, R290). -/
def sigmaAt (k : Kern) (a : Nat) : Nat := getNat k (a + 144) 8

/-- The bank, 0 or 1, that is current in a record (R282). -/
def currentBank (k : Kern) (a : Nat) : Nat := if getInt64 k (a + 128) < getInt64 k (a + 136) then 1 else 0

/-- The bank that holds the publication of step t (R282): the largest TAG not above t, the current bank where the TAGs are
equal and not above t, the other bank where neither is at or below t. -/
def bankFor (k : Kern) (a : Nat) (t : Int) : Nat :=
  let t0 := getInt64 k (a + 128)
  let t1 := getInt64 k (a + 136)
  if t0 ≤ t && t1 ≤ t then currentBank k a
  else if t0 ≤ t then 0
  else if t1 ≤ t then 1
  else 1 - currentBank k a

/-- A face of the publication of step t (R284). -/
def publishedFace (k : Kern) (a : Nat) (t : Int) (n : Nat) : Nat := getNat k (a + 64 * bankFor k a t + 4 * n) 4

/-- Where the cell of a thread stands: its launch, its launch's serial, the region and the brick index. -/
def cellPlace (k : Kern) (c : Nat) (t : Thread) : Option (Launch × XRegion × Nat) :=
  match blockOf k c t.block, t.cell with
  | some blk, some b =>
    match launchOf k blk, regionOf k c blk.launch with
    | some l, some r => some (l, r, b)
    | _, _ => none
  | _, _ => none

/-- The name of the cell of a thread: its launch and brick index. -/
def cellKey (k : Kern) (c : Nat) (t : Thread) : Option (Nat × Nat) :=
  (blockOf k c t.block).bind fun b => t.cell.map fun i => (b.launch, i)

/-- σ of the cell of a thread. -/
def sigmaOf (k : Kern) (c : Nat) (t : Thread) : Nat :=
  match cellPlace k c t with
  | some (_, r, b) => sigmaAt k (recordAt c r b)
  | none => 0

/-- A cell, as the core consults it, has exited or has σ at least s (R284, R289). -/
def cellReached (k : Kern) (c : Nat) (l : Launch) (r : XRegion) (n s : Nat) : Bool :=
  match recordFor l r n with
  | none => true
  | some i =>
    let known := sigmaAt k (recordAt c r i)
    s ≤ known || (i < r.nc && r.gone.contains i) || (r.nc ≤ i && known == exitMark)

/-- A settle decision that a cell at step σ waits for is pending (R225, R298). -/
def settlePending (k : Kern) (serial sigma : Nat) : Bool :=
  match mget k.fields serial with
  | some f => f.pending.any fun t => t + 1 == sigma
  | none => false

/-- The read of a face in a direction can proceed (R284, R225). -/
def faceReady (k : Kern) (c : Nat) (t : Thread) (d : Dir) : Bool :=
  match cellPlace k c t with
  | none => true
  | some (l, r, b) =>
    let sigma := sigmaAt k (recordAt c r b)
    !settlePending k r.launch sigma &&
      match d with
      | .me => true
      | _ =>
        match neighbour l (cellAt l r.brick b) d with
        | none => true
        | some n =>
          cellReached k c l r (linear l n) sigma &&
            match recordFor l r (linear l n) with
            | none => true
            | some i => r.unready.all fun u => !(u.cell == i && u.step + 1 == sigma)

/-- Where face n in a direction stands, with the launch; none where the boundary constant is read. -/
def facePlace (k : Kern) (c : Nat) (t : Thread) (d : Dir) (n : Nat) : Option (Launch × Nat) :=
  match cellPlace k c t with
  | none => none
  | some (l, r, b) =>
    match neighbour l (cellAt l r.brick b) d with
    | none => none
    | some m =>
      (recordFor l r (linear l m)).map fun i =>
        let a := recordAt c r i
        (l, a + 64 * bankFor k a ((sigmaAt k (recordAt c r b) : Int) - 1) + 4 * n)

/-- The word of a face: all ones where it is poison in an N kernel (R152). DESIGN CHOICE: log entry 127. -/
def faceWord (k : Kern) (l : Launch) (a : Nat) : Nat :=
  if (poisonAt k a).isNone then getNat k a 4 else if recClass l == 2 then 2 ^ 32 - 1 else (Config.poisonFace a).toNat

/-- The value of face n in a direction (R284). -/
def readFace (k : Kern) (c : Nat) (t : Thread) (d : Dir) (n : Nat) : Nat :=
  match facePlace k c t d n with
  | some p => faceWord k p.1 p.2
  | none => match cellPlace k c t with | some (l, _, _) => recBc l | none => 0

/-- The face in a direction comes from a publication of STEP.R, whose release the read acquires (R284, R333). -/
def readsReleased (k : Kern) (c : Nat) (t : Thread) (d : Dir) : Bool :=
  match cellPlace k c t with
  | none => false
  | some (l, r, b) =>
    let sigma := sigmaAt k (recordAt c r b)
    match d, neighbour l (cellAt l r.brick b) d with
    | .me, _ | _, none => false
    | _, some m =>
      match recordFor l r (linear l m) with
      | none => false
      | some i => r.released.any fun u => u.1 == i && u.2 + 1 == sigma

/-- The readers of a cell of a brick may run in another block (R221): the release of STEP.R is at .dev or wider. -/
def readersApart (l : Launch) (brick b : Nat) (virt : Bool) : Bool :=
  let per := recGroups l * recWidth l
  (readersOf l (cellAt l brick b)).any fun n =>
    let x := brickOf l (cellOf l n)
    x.1 != brick || (recNblk l != 1 && (virt || x.2 / per != b / per))

/-- The first FWR of a step can proceed (R285): every reader that has not exited has reached σ. -/
def writeReady (k : Kern) (c : Nat) (t : Thread) : Bool :=
  match cellPlace k c t with
  | none => true
  | some (l, r, b) =>
    let sigma := sigmaAt k (recordAt c r b)
    !settlePending k r.launch sigma &&
      (t.marks.any (· == true) || (readersOf l (cellAt l r.brick b)).all fun n => cellReached k c l r n sigma)

end Sys2Proof.Machine
end

