-- ==== Sys2Proof/Machine/Operands.lean ====
section
/-! DEFINITION. Operand forms (R35 to R39, R57, R108): what an operand reads, which registers an instruction names, and
where a result goes. A couple's members both read the registers as they were when the couple issued (R18). -/

namespace Sys2Proof.Machine

/-! ## Reading -/

/-- The registers that operands read: the latch of a couple, else the thread's own (R18). -/
def readRegs (t : Thread) : RegFile :=
  match t.latch with
  | some l => l.regs
  | none => t.regs

/-- Scalar registers as a thread reads them inside its open windows: what their destinations held before (R42). -/
def insideWindows (t : Thread) (s : List W32) : List W32 :=
  (t.held.filter fun h => 0 < h.window).foldl (fun s h => h.old.foldl (fun s p => rset 0 s p.1 p.2) s) s

/-- The scalar registers that operands read. -/
def readScal (k : Kern) (c : Nat) (t : Thread) : List W32 :=
  match t.latch with
  | some l => l.scal
  | none => insideWindows t (((groupOf k c t).map (·.s)).getD [])

/-- A vector register. -/
def readV (t : Thread) (i : Nat) : W32 := (readRegs t).v.getD i 0
/-- A trap register k0 to k7. -/
def readK (t : Thread) (i : Nat) : W32 := (readRegs t).k.getD i 0

/-- A predicate source: p7 is true; the complement where negated (R35, R37). -/
def readPred (t : Thread) (neg : Bool) (i : Nat) : Bool := (if i == 7 then true else (readRegs t).p.getD i false) != neg

/-- The guard of a thread (R21, R22). -/
def guardTrue (t : Thread) (g : Guard) : Bool := readPred t g.neg g.p.val

/-- A predicate operand. -/
def readPredOpnd (t : Thread) : Opnd → Bool
  | .pred neg i => readPred t neg i.val
  | _ => false

/-- A short immediate read by type (R37 point 6). -/
def immRaw (ty : Ty) (x : BitVec 9) : Nat :=
  if tyFl ty then (roundF ty .rne (numOfInt x.toInt)).1 else wrapI ty x.toInt

/-- A source operand read by type as a raw value (R57, R108). -/
def readSrc (k : Kern) (c : Nat) (t : Thread) (ty : Ty) : Opnd → Nat
  | .v i => rawOf ty (readV t i.val) (readV t (i.val + 1))
  | .k i => rawOf ty (readK t i.val) (readK t (i.val + 1))
  | .s i => rawOf ty ((readScal k c t).getD i.val 0) ((readScal k c t).getD (i.val + 1) 0)
  | .face d n =>
    rawOf ty (BitVec.ofNat 32 (readFace k c t d n.val))
      (if tyWide ty then BitVec.ofNat 32 (readFace k c t d (n.val + 1)) else 0)
  | .imm x => immRaw ty x
  | _ => 0

/-- The low register of an operand, as 32 bits. -/
def readLow (k : Kern) (c : Nat) (t : Thread) (o : Opnd) : Nat := readSrc k c t .b32 o

/-- Register j after the one an operand names (R158, R162, R218). -/
def readAt (k : Kern) (c : Nat) (t : Thread) (o : Opnd) (j : Nat) : W32 :=
  match o with
  | .v i => readV t (i.val + j)
  | .k i => readK t (i.val + j)
  | .s i => (readScal k c t).getD (i.val + j) 0
  | _ => BitVec.ofNat 32 (readSrc k c t .b32 o)

/-- A 64-bit pair as a number. -/
def readPair (k : Kern) (c : Nat) (t : Thread) (o : Opnd) : Nat := readSrc k c t .n64 o

/-- An index operand (R150): one 32-bit register or a short immediate, signed; 0x000 is no index. -/
def readIndex (k : Kern) (c : Nat) (t : Thread) (o : Opnd) : Int :=
  if o == Opnd.none then 0
  else match o with
    | .imm x => x.toInt
    | _ => intOf .i32 (readLow k c t o)

/-- IMM read by type (R25): extended by the type, or a binary32 pattern widened for .f64. -/
def immIRaw (ty : Ty) (imm : W32) : Nat :=
  match ty with
  | .i64 | .b64 => wrapI .i64 imm.toInt
  | .f64 =>
    match decodeF .f32 imm.toNat with
    | .nan _ => imm.toNat / 2 ^ 31 * 2 ^ 63 + 0x7FF * 2 ^ 52 + imm.toNat % 2 ^ 23 * 2 ^ 29
    | x => (roundF .f64 .rne x).1
  | _ => imm.toNat % 2 ^ tyBits ty

/-! ## The registers an operand names -/

/-- The n registers that an operand names. -/
def regsNamed (o : Opnd) (n : Nat) : List Reg :=
  match o with
  | .v i => (List.range n).map fun j => .v (i.val + j)
  | .k i => (List.range n).map fun j => .k (i.val + j)
  | .s i => (List.range n).map fun j => .s (i.val + j)
  | _ => []

/-- What an instruction reads and writes: operands with their register counts, and predicates written. -/
structure Uses where
  src : List (Opnd × Nat)
  dst : List (Opnd × Nat)
  pdst : List Nat
  deriving DecidableEq, Repr

/-- Registers of a value of a type (R57). -/
def regCount (t : Ty) : Nat := if tyWide t then 2 else 1

/-- An operand that 0x000 leaves out. -/
def optional (o : Opnd) (n : Nat) : List (Opnd × Nat) := if o == Opnd.none then [] else [(o, n)]

/-- The predicate of QP. -/
def qpUse (q : Option (Fin 7)) : List Nat :=
  match q with
  | some p => [p.val]
  | none => []

/-- An R-format instruction with n sources of its type. -/
def usesR (x : RForm) (n : Nat) : Uses :=
  let w := regCount x.ty
  { src := ([(x.a, w), (x.b, w), (x.c, w)]).take n, dst := [(x.d, w)], pdst := qpUse x.qp }

/-- An R-format instruction that writes only a predicate. -/
def usesP (x : RForm) (n : Nat) : Uses := { usesR x n with dst := [] }

/-- An I-format instruction. -/
def usesI (x : IForm) : Uses :=
  { src := [(x.a, regCount x.ty)], dst := [(x.d, regCount x.ty)], pdst := qpUse x.qp }

/-- The address operands of an M-format instruction. -/
def usesAddr (x : MForm) : List (Opnd × Nat) := (x.base, if x.sp == .ob then 2 else 1) :: optional x.idx 1

/-- The version operand of an X-format instruction. -/
def usesVer (x : XForm) : List (Opnd × Nat) := if x.vsrc then [(x.a, 1)] else []

/-- The operands of an instruction word. comps is the component count that the thread's launch gives the table
operand of an algebra instruction (R218). -/
def usesOf (comps : Nat) : Instr → Uses
  | .nop _ => ⟨[], [], []⟩
  | .add x | .sub x | .mul x | .mulhi x | .min x | .max x | .div x | .rem x => usesR x 2
  | .mad x | .sad x => usesR x 3
  | .abs x | .neg x => usesR x 1
  | .addc x | .subb x => usesR x 2
  | .addi x | .muli x | .andi x | .ori x | .xori x | .shli x | .shri x | .sari x => usesI x
  | .movi x => { usesI x with src := [] }
  | .cmpi x => { usesI x with dst := [] }
  | .and x | .or x | .xor x => usesR x 2
  | .not x => usesR x 1
  | .shl x | .shr x | .sar x | .rot x => { usesR x 2 with src := [(x.a, regCount x.ty), (x.b, 1)] }
  | .popc x | .clz x => { usesR x 1 with dst := [(x.d, 1)] }
  | .bfx x => { usesR x 1 with src := [(x.a, regCount x.ty), (x.b, 1), (x.c, 1)] }
  | .bfi x => { usesR x 1 with src := [(x.a, regCount x.ty), (x.b, 1), (x.c, 1), (x.d, regCount x.ty)] }
  | .sel x => usesR x 2
  | .cmp x => usesP x 2
  | .mov x => usesR x 1
  | .lea x => usesR x 2
  | .fadd x | .fsub x | .fmul x | .fdiv x | .fmin x | .fmax x => usesR x 2
  | .fma x => usesR x 3
  | .fsqrt x | .frcp x | .frsq x | .frnd x => usesR x 1
  | .fcmp x => usesP x 2
  | .fclass x => { usesR x 1 with dst := [(x.d, 1)] }
  | .cvt src x => { usesR x 1 with src := [(x.a, regCount src)] }
  | .fsgn x => usesR x 2
  | .plog x => usesP x 0
  | .pset x =>
    match x.om.toNat with
    | 0 => usesP x 1
    | 1 => { usesP x 1 with pdst := [0, 1, 2, 3, 4, 5, 6] }
    | _ => usesR x 0
  | .shfl x => { usesR x 2 with src := [(x.a, regCount x.ty), (x.b, 1)] }
  | .vote x => if x.om == 2 then usesP x 1 else if x.om == 3 then usesR x 0 else usesP x 0
  | .gred x | .bcast x | .gscan x => usesR x 1
  | .lmask x => usesR x 0
  | .ld x => ⟨usesAddr x, [(x.d, regCount x.ty)], []⟩
  | .st x => ⟨(x.d, regCount x.ty) :: usesAddr x, [], []⟩
  | .ldx n x => ⟨usesAddr x, [(x.d, xCount n)], []⟩
  | .stx n x => ⟨(x.d, xCount n) :: usesAddr x, [], []⟩
  | .atom _ x => ⟨[(x.base, if x.sp == .ob then 2 else 1), (x.idx, regCount x.ty)], [(x.d, regCount x.ty)], []⟩
  | .red _ x => ⟨(x.d, regCount x.ty) :: usesAddr x, [], []⟩
  | .cas x => ⟨[(x.base, if x.sp == .ob then 2 else 1), (x.idx, 2 * regCount x.ty)], [(x.d, regCount x.ty)], []⟩
  | .fence _ | .lcinvAll _ | .wcdrainAll _ => ⟨[], [], []⟩
  | .lcinv x | .wcdrain x | .pref x => ⟨usesAddr x, [], []⟩
  | .validSet x | .validClr x => ⟨(x.d, 1) :: usesAddr x, [], []⟩
  | .validGet x => ⟨usesAddr x, [(x.d, 1)], []⟩
  | .capder x => ⟨[(x.a, 2), (x.b, 1)], [(x.d, 2)], []⟩
  | .capadd x => ⟨[(x.a, 2), (x.b, if x.om == 1 then 2 else 1)], [(x.d, 2)], []⟩
  | .capq x => ⟨[(x.a, 2)], [(x.d, 2)], []⟩
  | .copy x => ⟨[(x.base, if x.sp == .ob then 2 else 1), (x.idx, 4)], [(x.d, 1)], []⟩
  | .copyq x => ⟨[(x.base, 2), (x.idx, 1)], [(x.d, 2)], []⟩
  | .tlwait x => ⟨[(x.a, 2)], [], []⟩
  | .tlrd x | .tlrdIssued x => ⟨[], [(x.d, 2)], []⟩
  | .jig x => ⟨[(x.d, 2), (x.a, 2)], [], []⟩
  | .jigSt x | .jigLd x | .accld x | .accstNow x => ⟨[(x.d, 2)], [], []⟩
  | .mx x | .mxSet x | .accz x => ⟨usesVer x, [], []⟩
  | .accst x => ⟨(x.d, 2) :: usesVer x, [], []⟩
  | .accmov n x => ⟨[(x.a, 1)], [(x.d, movCount n)], []⟩
  | .accver x => ⟨usesVer x, [(x.d, 1)], []⟩
  | .accverNow x => ⟨[], [(x.d, 1)], []⟩
  | .bedld x | .bedldGrain x => ⟨[(x.d, 2)], optional x.a 1, []⟩
  | .bedclr _ => ⟨[], [], []⟩
  | .qmul x =>
    let n := comps * regCount x.ty
    ⟨[(x.a, n), (x.b, n)], [(x.d, n)], []⟩
  | .qconj x =>
    let n := comps * regCount x.ty
    ⟨[(x.a, n)], [(x.d, n)], []⟩
  | .qnorm x => ⟨[(x.a, comps * regCount x.ty)], [(x.d, regCount x.ty)], []⟩
  | .fwr x => ⟨[(x.a, regCount x.ty)], [], []⟩
  | .step _ | .stepR _ => ⟨[], [], []⟩
  | .nq x => if x.om == 1 then ⟨[], [(x.d, 1)], []⟩ else ⟨[], [], qpUse x.qp⟩
  | .settle x => ⟨[(x.d, 2), (x.a, 1)], [], []⟩
  | .resid x => ⟨[(x.a, 1)], [], []⟩
  | .stest x => ⟨[], [], qpUse x.qp⟩
  | .bar _ | .bararr _ | .barwt _ | .meet _ | .peg _ | .pegDef _ | .yield _ => ⟨[], [], []⟩
  | .postCore x | .postNbr x | .postBay x => ⟨[(x.a, 1)], [], []⟩
  | .bra _ | .exit _ => ⟨[], [], []⟩
  | .jmpi x | .ret x => ⟨[(x.a, 2)], [], []⟩
  | .call x => ⟨[], [(x.d, 2)], []⟩
  | .calli x => ⟨[(x.a, 2)], [(x.d, 2)], []⟩
  | .tret _ => ⟨[(.k 0, 2)], [], []⟩
  | .trap _ | .brk _ | .shrink _ | .ilinvAll _ | .sampleOff _ => ⟨[], [], []⟩
  | .srd x => ⟨[], [(x.d, if srWide x.sr.toNat == some true then 2 else 1)], []⟩
  | .swr x => ⟨[(x.a, 1)], [], []⟩
  | .grow x => ⟨[], [], match x.d with | .pred _ i => [i.val] | _ => []⟩
  | .evwait x => ⟨optional x.a 1, optional x.d 1, []⟩
  | .ilinv x | .sampleOn x => ⟨[(x.a, 2)], [], []⟩
  | _ => ⟨[], [], []⟩

/-- The registers of a list of operands. -/
def usedRegs (us : List (Opnd × Nat)) : List Reg := us.flatMap fun u => regsNamed u.1 u.2

/-- The faces that sources read. -/
def usedFaces (us : List (Opnd × Nat)) : List Dir :=
  us.filterMap fun u => match u.1 with | .face d _ => some d | _ => none

/-- A register lies within the allocation (R37 point 1); k and s registers always exist within their file. -/
def allocated (regs : Nat) : Reg → Bool
  | .v i => i < regs
  | .k i => i < 8
  | .s i => i < 64

/-! ## Writing -/

/-- A register file with one vector register written. -/
def RegFile.setV (r : RegFile) (i : Nat) (x : W32) : RegFile := { r with v := rset 0 r.v i x }
/-- A register file with one trap register written. -/
def RegFile.setK (r : RegFile) (i : Nat) (x : W32) : RegFile := { r with k := rset 0 r.k i x }
/-- A register file with one predicate written. -/
def RegFile.setP (r : RegFile) (i : Nat) (x : Bool) : RegFile := { r with p := rset false r.p i x }

/-- Write one register of a thread or of its group. -/
def writeReg (k : Kern) (c : Nat) (t : Thread) (r : Reg) (x : W32) : Kern :=
  match r with
  | .v i => modThis k c t fun u => { u with regs := u.regs.setV i x }
  | .k i => modThis k c t fun u => { u with regs := u.regs.setK i x }
  | .s i => modGroup k c t.block t.group fun g => { g with s := rset 0 g.s i x }

/-- Write several registers. -/
def writeRegs (k : Kern) (c : Nat) (t : Thread) : List Reg → List W32 → Kern
  | r :: rs, x :: xs => writeRegs (writeReg k c t r x) c t rs xs
  | _, _ => k

/-- Write a predicate of a thread. -/
def writePred (k : Kern) (c : Nat) (t : Thread) (i : Nat) (x : Bool) : Kern :=
  modThis k c t fun u => { u with regs := u.regs.setP i x }

/-- Join flags into FFLAGS (R67). -/
def joinFlags (k : Kern) (c : Nat) (t : Thread) (f : BitVec 5) : Kern :=
  modThis k c t fun u => { u with regs := { u.regs with fflags := u.regs.fflags ||| f } }

end Sys2Proof.Machine
end

