-- ==== Sys2Proof/Machine/Flags.lean ====
section
/-! DEFINITION. Flags and predicates: the comparisons, the carries, and how the flags and the result of an instruction are
written back, at once or when its lookahead window has run out (R41 to R43, R67). -/

namespace Sys2Proof.Machine

/-! ## Conditions -/

/-- The condition of CMP on numbers (R120). -/
def cmpInt (om : BitVec 3) (a b : Int) : Bool :=
  match om.toNat with
  | 0 => a == b
  | 1 => a != b
  | 2 => a < b
  | 3 => a ≤ b
  | 4 => b < a
  | _ => b ≤ a

/-- The condition of FCMP and the flags it raises (R124). -/
def cmpFloat (om : BitVec 3) (a b : Num) : Bool × BitVec 5 :=
  let unordered := isNan a || isNan b
  let quiet := if isSig a || isSig b then fNV else 0
  let loud := if unordered then fNV else 0
  match om.toNat with
  | 0 => (!unordered && eqNum a b, quiet)
  | 1 => (unordered || !eqNum a b, quiet)
  | 2 => (!unordered && ltNum a b, loud)
  | 3 => (!unordered && !ltNum b a, loud)
  | 4 => (!unordered && ltNum b a, loud)
  | 5 => (!unordered && !ltNum a b, loud)
  | 6 => (unordered, quiet)
  | _ => (!unordered, quiet)

/-- FCLASS (R125). -/
def classBits (t : Ty) (raw : Nat) : Nat :=
  let sub (m : Nat) : Bool := m < 2 ^ fracBits t
  match decodeF t raw with
  | .nan sig => if sig then 2 ^ 8 else 2 ^ 9
  | .inf neg => if neg then 2 ^ 0 else 2 ^ 7
  | .fin neg m _ =>
    if m == 0 then (if neg then 2 ^ 3 else 2 ^ 4)
    else if sub m then (if neg then 2 ^ 2 else 2 ^ 5)
    else (if neg then 2 ^ 1 else 2 ^ 6)

/-- ADDC and SUBB (R114): the exact sum or difference, with the carry or borrow. -/
def carryOf (isSub : Bool) (t : Ty) (a b : Nat) (c : Bool) : Int × Bool :=
  let cin : Int := if c then 1 else 0
  if isSub then
    let x := (a : Int) - b - cin
    (x, x < 0)
  else
    let x := (a : Int) + b + cin
    (x, ((2 ^ tyBits t : Nat) : Int) ≤ x)

/-! ## Held results (R41 to R43) -/

/-- A held result that its window no longer holds back. -/
def Held.due (h : Held) : Bool := h.window == 0 && h.arrived

/-- The scalar registers of a list. -/
def scalarNumbers (rs : List Reg) : List Nat := rs.filterMap fun r => match r with | .s i => some i | _ => none

/-- A result goes to a scalar register of the thread's group, which outlives the thread (R278). -/
def Held.scalar (h : Held) : Bool := h.regs.any fun r => match r with | .s _ => true | _ => false

/-- The scalar registers with the values of a result. -/
def landScalars (s : List W32) : List (Reg × W32) → List W32
  | [] => s
  | (.s i, x) :: ps => landScalars (rset 0 s i x) ps
  | _ :: ps => landScalars s ps

/-- A scalar register of a thread's group is written as soon as the held result with this number has arrived (R41). -/
def comesEarly (k : Kern) (c : Nat) (t : Thread) (i id : Nat) : Bool :=
  ((groupOf k c t).map fun g => g.early.contains (i, id)).getD false

/-- Write the registers of one held result; a scalar that has been written early stays. -/
def writeResult (k : Kern) (c : Nat) (t : Thread) (h : Held) : Kern :=
  if h.scalar then
    modGroup k c t.block t.group fun g =>
      { g with s := landScalars g.s ((h.regs.zip h.vals).filter fun p => !(scalarNumbers [p.1]).any fun i => g.early.contains (i, h.id)) }
  else writeRegs k c t h.regs h.vals

/-- Write one held result: its registers, then its flags (R67). -/
def writeHeld (k : Kern) (c : Nat) (t : Thread) (h : Held) : Kern := joinFlags (writeResult k c t h) c t h.flags

/-- A held result whose values are known and that nothing is still to deliver. -/
def selfArrives (core : Core) (h : Held) : Bool :=
  !h.arrived && !core.reqs.any (fun q => q.held == some h.id) && !core.copies.any (fun j => j.held == some h.id) &&
    !core.bedJobs.any (fun j => j.held == some h.id)

/-- The notes of scalar registers written early stay while their results are held. -/
def dropEarly (k : Kern) (c : Nat) (t : Thread) : Kern :=
  modGroup k c t.block t.group fun g =>
    { g with early := g.early.filter fun p =>
        (groupThreads (coreOf k c) t.block t.group).any fun u => u.held.any fun h => h.id == p.2 }

/-- Write the held results that satisfy a test, and drop them. -/
def flushHeld (k : Kern) (c : Nat) (t : Thread) (test : Held → Bool) : Kern :=
  let t' := nowThread k c t
  let k' := (t'.held.filter test).foldl (fun k h => writeHeld k c t h) k
  dropEarly (modThis k' c t fun u => { u with held := u.held.filter fun h => !test h }) c t

/-- The results on their way to a scalar register of a thread's group. -/
def scalarResults (k : Kern) (c : Nat) (t : Thread) (i : Nat) : List Held :=
  (groupThreads (coreOf k c) t.block t.group).flatMap fun u => u.held.filter fun h => h.regs.contains (.s i)

/-- A thread has left the window of a result on its way to a scalar register of its group: the register is written as soon as the
result has arrived, whatever the windows of the group's other threads, which read the value before inside them (R41 to R43). -/
def releaseScalar (k : Kern) (c : Nat) (t : Thread) (i : Nat) : Kern :=
  match (scalarResults k c t i).find? fun h => !comesEarly k c t i h.id with
  | none => k
  | some h =>
    modGroup k c t.block t.group fun g =>
      { g with early := (i, h.id) :: g.early, s := if h.arrived then landScalars g.s ((h.regs.zip h.vals).filter (·.1 == .s i)) else g.s }

/-- A thread has left windows that name registers. -/
def releaseScalars (k : Kern) (c : Nat) (t : Thread) (rs : List Reg) : Kern :=
  (scalarNumbers rs).foldl (fun k i => releaseScalar k c t i) k

/-- One instruction of each open window has issued (R41); results whose window has run out are written back. -/
def countWindows (k : Kern) (c : Nat) (t : Thread) (upTo : Nat) : Kern :=
  let left := ((nowThread k c t).held.filter fun h => h.window == 1 && h.id < upTo).flatMap (·.named)
  let k' := modThis k c t fun u =>
    { u with held := u.held.map fun h => if h.id < upTo then { h with window := h.window - 1 } else h }
  releaseScalars (flushHeld k' c t Held.due) c t left

/-- A result that has arrived is written to a scalar register of the group where another thread has left the window. -/
def landEarly (k : Kern) (c : Nat) (t : Thread) (id : Nat) (vals : List W32) : Kern :=
  match (nowThread k c t).held.find? fun h => h.id == id && h.scalar with
  | none => k
  | some h =>
    modGroup k c t.block t.group fun g =>
      { g with s := landScalars g.s ((h.regs.zip vals).filter fun p => (scalarNumbers [p.1]).any fun i => g.early.contains (i, id)) }

/-- A held result has arrived with its values and flags: it is written where its window no longer holds it back. -/
def arriveHeld (k : Kern) (c : Nat) (t : Thread) (id : Nat) (vals : List W32) (flags : BitVec 5) : Kern :=
  let k' := modThis k c t fun u =>
    { u with held := u.held.map fun h =>
        if h.id == id then { h with vals := vals, flags := flags, arrived := true } else h }
  flushHeld (landEarly k' c t id vals) c t Held.due

/-- What scalar registers of a thread's group hold. -/
def scalarsOf (k : Kern) (c : Nat) (t : Thread) (rs : List Reg) : List (Nat × W32) :=
  (scalarNumbers rs).map fun i => (i, (((groupOf k c t).map (·.s)).getD []).getD i 0)

/-- The result of a long-latency instruction becomes a held result with a window of LA instructions (R41). -/
def holdResult (k : Kern) (c : Nat) (t : Thread) (regs : List Reg) (vals : List W32) (flags : BitVec 5) (la : BitVec 4) :
    Nat × Kern :=
  let id := k.id
  let h : Held := { id := id, regs := regs, named := regs, old := scalarsOf k c t regs, vals := vals, flags := flags, arrived := false,
                    window := la.toNat }
  (id, modThis { k with id := id + 1 } c t fun u => { u with held := u.held ++ [h] })

/-- A register waits for a result that no window holds back and that has not been written: the scoreboard (R41). -/
def pendingReg (t : Thread) (r : Reg) : Bool := t.held.any fun h => h.window == 0 && h.regs.contains r

/-- A register is a destination of an open window (R42). -/
def windowReg (t : Thread) (r : Reg) : Bool := t.held.any fun h => 0 < h.window && (h.named.contains r || h.regs.contains r)

/-- A scalar register waits for a result that has not been written, whatever window of another thread holds it back (R41). -/
def pendingScalar (k : Kern) (c : Nat) (t : Thread) (i : Nat) : Bool :=
  (scalarResults k c t i).any fun h => !(h.arrived && comesEarly k c t i h.id)

/-- The open windows of a thread since a number name the registers, and hold what they were before (R42). -/
def nameHeld (since : Nat) (rs : List Reg) (old : List (Nat × W32)) (t : Thread) : Thread :=
  { t with held := t.held.map fun h => if since ≤ h.id then { h with named := rs, old := old } else h }

end Sys2Proof.Machine
end

