-- ==== Sys2Proof/Machine/Ops.lean ====
section
/-! DEFINITION. The shared operations of a core: fetched lines and their checks (R8 to R20), the fault log (R382), charges
(R425), the issue table (R263 to R270), taking a trap (R235 to R239) and returning from one (R241), parking (R272) and
exit (R143, R279). -/

namespace Sys2Proof.Machine

/-! ## Program counters (R6) -/

/-- The line address of a program counter. -/
def pcLine (pc : Nat) : Nat := pc / 64 * 64
/-- The slot of a program counter. -/
def pcSlot (pc : Nat) : Nat := pc % 8
/-- Bits [5:3] are zero and the slot is 0 to 4 (R6). -/
def pcForm (pc : Nat) : Bool := pc / 8 % 8 == 0 && pcSlot pc ≤ 4

/-! ## Lines (R8 to R14) -/

/-- The line word (R10). -/
def lineWord (bits : BitVec 512) : Nat := bits.toNat % 2 ^ 32
/-- The word of a slot (R8). -/
def slotWord (bits : BitVec 512) (i : Nat) : W96 := BitVec.ofNat 96 (bits.toNat / 2 ^ (32 + 96 * i))
/-- LAST. -/
def lineLast (bits : BitVec 512) : Nat := lineWord bits / 2 ^ 19 % 8
/-- PAIRT. -/
def linePairt (bits : BitVec 512) : Nat := lineWord bits / 2 ^ 7 % 2 ^ 12
/-- The pair field of slots i and i + 1 (R11). -/
def pairField (bits : BitVec 512) (i : Nat) : Nat := linePairt bits / 2 ^ (3 * i) % 8
/-- The TGT bit of a slot. -/
def targetBit (bits : BitVec 512) (i : Nat) : Bool := (lineWord bits).testBit (22 + i)

/-- Registers and predicates that a word writes; none for a word that does not decode. -/
def wordWrites (w : W96) : List Reg × List Nat :=
  match decode w with
  | .ok i => (usedRegs (usesOf 1 i).dst, (usesOf 1 i).pdst)
  | .error _ => ([], [])

/-- A word may be the first member of a couple (R17). -/
def firstMember (w : W96) : Bool :=
  let n := w.toNat
  let opc := n / 2 ^ 88
  ((0x02 ≤ opc && opc ≤ 0x3E) || opc == 0x40 || opc == 0x41) && (formatOf opc).isSome &&
    !(opc == 0x07 || opc == 0x08 || opc == 0x34 || opc == 0x35) && n / 2 ^ 80 % 16 == 0

/-- A word may be the second member of a couple (R17). -/
def secondMember (w : W96) : Bool :=
  let opc := w.toNat / 2 ^ 88
  (0x50 ≤ opc && opc ≤ 0x5B) || (0xA0 ≤ opc && opc ≤ 0xA5)

/-- The pairing conditions of two words (R17). -/
def pairOk (a b : W96) : Bool :=
  let x := wordWrites a
  let y := wordWrites b
  firstMember a && secondMember b && (x.1.all fun r => !y.1.contains r) && x.2.all fun p => !y.2.contains p

/-- PAIRT keeps R11 and R17. -/
def pairtOk (bits : BitVec 512) : Bool :=
  let f := pairField bits
  let last := lineLast bits
  ((List.range 4).all fun i => f i ≤ 1 && (f i == 0 || (i + 1 ≤ last && pairOk (slotWord bits i) (slotWord bits (i + 1))))) &&
    (List.range 3).all fun i => !(f i == 1 && f (i + 1) == 1)

/-- The line word, but for the slot that is entered, passes R13; none, or the cause. -/
def lineCause (bits : BitVec 512) : Option Nat :=
  let w := lineWord bits
  if bits == 0 then some 0x03
  else if w / 2 ^ 28 != 0b1011 then some 0x02
  else if popCount 32 w % 2 == 1 then some 0x02
  else if w % 2 ^ 7 != 0 then some 0x02
  else if 4 < lineLast bits then some 0x02
  else if (List.range 5).any fun i => lineLast bits < i && targetBit bits i then some 0x02
  else if (List.range 5).any fun i => lineLast bits < i && slotWord bits i != 0 then some 0x02
  else if !pairtOk bits then some 0x02
  else none

/-- FETCH_CHECK (R13) of a program counter on its line. -/
def fetchCause (bits : BitVec 512) (pc : Nat) : Option Nat :=
  match lineCause bits with
  | some c => some c
  | none => if lineLast bits < pcSlot pc then some 0x02 else none

/-- The line buffer's copy of a line (R15). -/
def bufferedLine (core : Core) (ctx obj line : Nat) : Option (BitVec 512) :=
  (core.lines.find? fun l => l.ctx == ctx && l.obj == obj && l.line == line).map (·.bits)

/-- The code object offset of a line address: a line address is a byte offset into the code object (R9). -/
def codeOffset (_l : Launch) (line : Nat) : Nat := line

/-- A line lies wholly inside the code object (R9). -/
def lineInside (k : Kern) (l : Launch) (line : Nat) : Bool :=
  match getObj k l.ctx (capObj (recCode l)) with
  | some e => codeOffset l line + 64 ≤ e.size
  | none => false

/-- A line read from the code object; none where it is not placed. -/
def readLine (k : Kern) (l : Launch) (line : Nat) : Option (BitVec 512) :=
  (readObj k l.ctx (capObj (recCode l)) (codeOffset l line) 64).map fun bs => BitVec.ofNat 512 (natOfBytes bs)

/-- The line as a core sees it: from its buffer, else from memory. -/
def seeLine (k : Kern) (c : Nat) (l : Launch) (line : Nat) : Option (BitVec 512) :=
  match bufferedLine (coreOf k c) l.ctx (capObj (recCode l)) line with
  | some b => some b
  | none => readLine k l line

/-- Put a line into the buffer. -/
def bufferLine (k : Kern) (c : Nat) (l : Launch) (line : Nat) (bits : BitVec 512) : Kern :=
  let o := capObj (recCode l)
  modCore k c fun core =>
    { core with lines := { ctx := l.ctx, obj := o, line := line, bits := bits } ::
        core.lines.filter fun x => !(x.ctx == l.ctx && x.obj == o && x.line == line) }

/-- The sequential successor of a program counter in its line (R12). -/
def successor (bits : BitVec 512) (pc : Nat) : Nat :=
  if pcSlot pc < lineLast bits then pc + 1 else pcLine pc + 64

/-- A target that is checked: none, or cause and fault word. withTgt: an indirect transfer, checked by R6, R9, R15 and R13
(R141). Otherwise a trap return, checked by R9, R13 and R6 (R241), where a line that fails R13 raises 0x02 (R50). -/
def targetCause (k : Kern) (c : Nat) (l : Launch) (pc : Nat) (withTgt : Bool) : Option (Nat × Nat) :=
  if withTgt && !pcForm pc then some (0x02, pcLine pc)
  else if !lineInside k l (pcLine pc) then some (0x04, pcLine pc)
  else
    match seeLine k c l (pcLine pc) with
    | none => none
    | some bits =>
      if withTgt && !targetBit bits (pcSlot pc) then some (0x02, pcLine pc)
      else
        match fetchCause bits pc with
        | some x => some (if withTgt then x else 0x02, pcLine pc)
        | none => if pcForm pc then none else some (0x02, pcLine pc)

/-- An indirect target can be checked: its form decides, or its line lies outside the object or can be seen (R56, R141). -/
def targetKnown (k : Kern) (c : Nat) (l : Launch) (pc : Nat) : Bool :=
  !pcForm pc || !lineInside k l (pcLine pc) || (seeLine k c l (pcLine pc)).isSome

/-- The target of a trap return can be checked: its line lies outside the object or can be fetched again (R50). -/
def returnKnown (k : Kern) (l : Launch) (pc : Nat) : Bool := !lineInside k l (pcLine pc) || (readLine k l (pcLine pc)).isSome

/-- The line of a trap return's target is fetched again (R50). -/
def refetch (k : Kern) (c : Nat) (l : Launch) (line : Nat) : Kern :=
  if !lineInside k l line then k
  else
    match readLine k l line with
    | some bits => bufferLine k c l line bits
    | none => k

/-! ## The fault log (R382) -/

/-- CYCLE of a core as 64 bits (R244). -/
def cycleOf (k : Kern) (c : Nat) : W64 := BitVec.ofNat 64 (coreOf k c).cycle

/-- Write a record with its 16-byte head and a body of at most 48 bytes; with no log, or a fault on it, nothing: WIDX counts the
records written. -/
def logRecord (k : Kern) (ctx type serial : Nat) (cycle : W64) (body : List Byte) : Kern :=
  let cap := (getCtx k ctx).log.toNat
  match (readCap k ctx cap 64 4 : Option (List Byte)) with
  | none => k
  | some hdr =>
    let widx := fieldOf hdr 0 8
    let cap2 := fieldOf hdr 8 4
    if 16 < cap2 || !zeroRange hdr 12 52 then k
    else
      let rec_ := (bytesOfNat 4 type ++ bytesOfNat 4 serial ++ bytesOfNat 8 cycle.toNat ++ body ++
        List.replicate 48 0).take 64
      let off := capOff cap + 64 + 64 * (widx % 2 ^ cap2)
      match checkObj k ctx cap off 64 1 4 with
      | .error _ => k
      | .ok ea =>
        match objRuns k ctx (capObj cap) ea 64 with
        | .error _ => k
        | .ok _ => writeObj (writeObj k ctx (capObj cap) ea rec_) ctx (capObj cap) (capOff cap) (bytesOfNat 8 (widx + 1))

/-- The admission serial of a thread's launch. -/
def serialOf (k : Kern) (c : Nat) (t : Thread) : Nat := ((blockOf k c t.block).map (·.launch)).getD 0

/-! ## Every thread of a context -/

/-- Change every thread of a context (R238). -/
def modCtxThreads (k : Kern) (ctx : Nat) (f : Thread → Thread) : Kern :=
  let ofCtx (core : Core) (t : Thread) : Bool := live t && ((mget core.blocks t.block).map (·.ctx)) == some ctx
  let change (core : Core) : Core :=
    { core with threads := core.threads.map fun t => if ofCtx core t then f t else t }
  { k with cores := k.cores.map fun x => (x.1, change x.2) }

/-- The launches of a context that have a block resident or queued. -/
def activeLaunches (k : Kern) (ctx : Nat) : List Launch :=
  (k.launches.filter fun p => p.2.ctx == ctx && !p.2.done).map (·.2)

/-- Some launch of the context has no handler entry (R239). -/
def lacksHandler (k : Kern) (ctx : Nat) : Bool := (activeLaunches k ctx).any fun l => (recHandler l).isNone

/-! ## Trap records (R235, R236) -/

/-- k0 to k3 of a trap. -/
def trapRecord (pairt cause sub : Nat) (async : Bool) (pcsave fault : W64) : List W32 :=
  let pc := pcsave.toNat
  [BitVec.ofNat 32 (pc / 64 % 2 ^ 32),
    BitVec.ofNat 32 (pairt % 2 ^ 12 * 2 ^ 20 + sub % 16 * 2 ^ 16 + cause % 256 * 2 ^ 8 + (if async then 128 else 0) + pc % 8),
    BitVec.ofNat 32 fault.toNat, BitVec.ofNat 32 (fault.toNat / 2 ^ 32)]

/-- PAIRT of the line that a program counter names, as fetched; 0 where it cannot be fetched (R235). -/
def pairtOf (k : Kern) (c : Nat) (l : Launch) (pc : Nat) : Nat :=
  if lineInside k l (pcLine pc) then ((seeLine k c l (pcLine pc)).map linePairt).getD 0 else 0

/-- Stop a context (R239): its threads issue nothing more, and a double-trap record enters its log. The record names the
core, the lane and the slots of a thread. -/
def stopContext (k : Kern) (ctx c : Nat) (t : Thread) (rec_ : List W32) : Kern :=
  if (getCtx k ctx).state == .stopped then k
  else
    let k := modCtx k ctx fun x => { x with state := .stopped }
    logRecord k ctx 3 (serialOf k c t) (cycleOf k c)
      (rec_.flatMap (fun x => bytesOfNat 4 x.toNat) ++
        [BitVec.ofNat 8 (c % 64), BitVec.ofNat 8 (c / 64), BitVec.ofNat 8 t.lane, BitVec.ofNat 8 t.tslot, BitVec.ofNat 8 t.block])

/-- The threads of a context's vacated blocks hold an exhausted budget's trap until they come back (R238, R375). -/
def deliverVacated (k : Kern) (ctx : Nat) : Kern :=
  { k with vacated := k.vacated.map fun v =>
      if v.block.ctx == ctx then { v with threads := v.threads.map fun t => { t with asyncBudget := true } } else v }

/-- Deliver an asynchronous trap to every thread of a context (R238): it becomes pending in each thread and is taken at the
thread's next slot boundary. -/
def deliverAsync (k : Kern) (ctx : Nat) (budget : Bool) : Kern :=
  if budget then deliverVacated (modCtxThreads k ctx fun t => { t with asyncBudget := true }) ctx
  else modCtxThreads k ctx fun t => { t with asyncPreempt := true }

/-- The first thread of a context with its core, for the record of an exhausted budget without a handler. -/
def someThread (k : Kern) (ctx : Nat) : Option (Nat × Thread) :=
  k.cores.findSome? fun p =>
    (p.2.threads.find? fun t => live t && ((mget p.2.blocks t.block).map (·.ctx)) == some ctx).map fun t => (p.1, t)

/-- A context without a handler stops where its budget is exhausted (R426, R239). -/
def stopSpent (k : Kern) (ctx : Nat) : Kern :=
  match someThread k ctx with
  | some (c, t) => stopContext k ctx c t
    (trapRecord (((threadLaunch k c t).map fun l => pairtOf k c l t.pc.toNat).getD 0) 0x0F 0 true t.pc 0)
  | none => k

/-- Charge a context (R425, R426): the budget stops at 0, and reaching 0 does once what a function says. -/
def chargeBy (spent : Kern → Nat → Kern) (k : Kern) (ctx units : Nat) : Kern :=
  if units == 0 then k
  else
    let x := getCtx k ctx
    let left := x.ebudget - units
    let k := modCtx k ctx fun x => { x with ebudget := left }
    if left == 0 && x.armed then
      let k := modCtx k ctx fun x => { x with armed := false }
      spent { k with launches := k.launches.map fun p => (p.1, if p.2.ctx == ctx then { p.2 with spent := true } else p.2) } ctx
    else k

/-- Charge a context: reaching 0 delivers budget exhausted, a double trap where a launch has no handler (R426). -/
def charge (k : Kern) (ctx units : Nat) : Kern :=
  chargeBy (fun k ctx => if lacksHandler k ctx then stopSpent k ctx else deliverAsync k ctx true) k ctx units

/-- Charge a context for poison that traps a thread, which takes its trap first: budget exhausted is delivered, and is the double
trap of a launch without a handler when a thread comes to take it (R426). DESIGN CHOICE: log entry 122. -/
def chargeLate (k : Kern) (ctx units : Nat) : Kern := chargeBy (fun k ctx => deliverAsync k ctx true) k ctx units

/-! ## The issue table (R263 to R268) -/

/-- A thread on its way to a program counter. -/
structure Mover where
  tslot : Nat
  lane : Nat
  block : Nat
  group : Nat
  launch : Nat
  pc : Nat
  deriving DecidableEq, Repr

/-- The mover of a thread. -/
def moverOf (k : Kern) (c : Nat) (t : Thread) (pc : Nat) : Mover :=
  { tslot := t.tslot, lane := t.lane, block := t.block, group := t.group, launch := serialOf k c t, pc := pc }

/-- Units: the movers of one group to one program counter (R264). -/
def unitsOf : List Mover → List (List Mover)
  | [] => []
  | m :: ms =>
    match unitsOf ms with
    | (n :: u) :: us =>
      if n.block == m.block && n.group == m.group && n.pc == m.pc then (m :: n :: u) :: us else [m] :: (n :: u) :: us
    | us => [m] :: us

/-- The lanes that an entry holds. -/
def entryLanes (core : Core) (e : Nat) : List Nat := (entryThreads core e).map (·.lane)

/-- Put the threads of a unit at a location with a program counter. -/
def locate (core : Core) (u : List Mover) (loc : Loc) (pc : Nat) : Core :=
  { core with threads := core.threads.map fun t =>
      if u.any fun m => m.tslot == t.tslot && m.lane == t.lane then
        { t with loc := loc, pc := BitVec.ofNat 64 pc }
      else t }

/-- An open entry at the program counter with the unit's lanes free (R264). -/
def joinable (core : Core) (launch pc : Nat) (u : List Mover) : Option Nat :=
  (core.entries.find? fun p =>
    p.2.launch == launch && p.2.pc.toNat == pc && p.2.opened &&
      (entryLanes core p.1).all fun lane => u.all fun m => m.lane != lane).map (·.1)

/-- The lowest free entry of the 256 (R263, log entry 7). DESIGN CHOICE: log entry 7. -/
def freeEntry (core : Core) : Option Nat := (List.range 256).find? fun i => (mget core.entries i).isNone

/-- Place one unit (R264). -/
def placeUnit (k : Kern) (c : Nat) (u : List Mover) : Kern :=
  match u with
  | [] => k
  | m :: _ =>
    let core := coreOf k c
    match joinable core m.launch m.pc u with
    | some e => modCore k c fun core => locate core u (.entry e) m.pc
    | none =>
      match freeEntry core with
      | some e =>
        let x : Entry := { launch := m.launch, pc := BitVec.ofNat 64 m.pc, opened := true, age := core.cycle, sleep := none,
                           idleSince := core.cycle, issued := 0, filled := [] }
        modCore k c fun core => locate { core with entries := mset core.entries e x } u (.entry e) m.pc
      | none =>
        let k' := { k with id := k.id + 1 }
        modCore k' c fun core =>
          locate { core with pendSince := mset core.pendSince k.id core.cycle } u (.pending k.id) m.pc

/-- Free the entries that hold no thread. -/
def sweepEntries (k : Kern) (c : Nat) : Kern :=
  modCore k c fun core =>
    { core with entries := core.entries.filter fun p => core.threads.any fun t => t.loc == .entry p.1 }

/-- PLACE (R264): the units of a cycle in ascending block slot and group slot. DESIGN CHOICE: log entry 7. -/
def place_ (k : Kern) (c : Nat) (ms : List Mover) : Kern :=
  let sorted := sortBy (fun m => (m.block * 64 + m.group) * 2 ^ 64 + m.pc) ms
  (unitsOf sorted).foldl (fun k u => placeUnit k c u) k

/-- Take movers out of their entries, free the emptied entries, and place the movers (R265). -/
def moveThreads (k : Kern) (c : Nat) (ms : List Mover) : Kern :=
  let k := ms.foldl (fun k m => modThread k c m.tslot m.lane fun t => { t with loc := .pending 0 }) k
  place_ (sweepEntries k c) c ms

/-! ## Taking a trap (R235, R239) -/

/-- The thread with its trap record and its pc at the handler (R235). Cause 0x10 sets PRE (R374). -/
def enterHandler (t : Thread) (rec_ : List W32) (cause handler : Nat) : Thread :=
  { t with regs := { t.regs with k := rec_ ++ t.regs.k.drop 4 }, tstate := true, pre := t.pre || cause == 0x10,
           pc := BitVec.ofNat 64 handler, wait := .none, latch := none }

/-- Write back the results of open windows and close the windows, those of scalar registers too that another thread of the group
writes (R43, R235). -/
def closeWindows (k : Kern) (c : Nat) (t : Thread) : Kern :=
  let named := ((nowThread k c t).held.filter fun h => 0 < h.window).flatMap (·.named)
  releaseScalars (flushHeld k c t fun h => 0 < h.window) c t named

/-- A register that trap entry writes. -/
def trapWrites : Reg → Bool
  | .k i => decide (i < 4)
  | _ => false

/-- The result of an open window has not arrived, be it that of a scalar register that another thread of the group writes, nor one
on its way to a register that trap entry writes (R43, R235). DEDUCED: log entry 11. -/
def awaitsHeld (k : Kern) (c : Nat) (t : Thread) : Bool :=
  t.held.any fun h => ((0 < h.window || h.regs.any trapWrites) && !h.arrived) ||
    (0 < h.window && (scalarNumbers h.named).any fun i => (scalarResults k c t i).any fun x => !x.arrived)

/-- TRAP_ENTRY (R235) with its waiting and its double-trap case (R239): the new state, and the thread's mover to the handler
where it has entered. A thread that leaves the park store and must wait is a pending unit meanwhile (R274). -/
def trapEntry (k : Kern) (c : Nat) (t : Thread) (cause sub : Nat) (pcsave fault : W64) (async : Bool) :
    Kern × Option Mover :=
  let t := nowThread k c t
  match threadLaunch k c t with
  | none => (k, none)
  | some l =>
    let pairt := pairtOf k c l pcsave.toNat
    let rec_ := trapRecord pairt cause sub async pcsave fault
    match recHandler l with
    | none => (stopContext k l.ctx c t rec_, none)
    | some h =>
      if t.tstate && !async then (stopContext k l.ctx c t rec_, none)
      else if awaitsHeld k c t then
        (modThis { k with id := k.id + 1 } c t fun u =>
          { u with wait := .trapping cause sub pcsave fault async, latch := none,
                   loc := if t.loc == .parked then .pending k.id else u.loc }, none)
      else
        let k := closeWindows k c t
        let k := modThis k c t fun u => enterHandler u rec_ cause h
        (k, some (moverOf k c t h))

/-- The would-be record of an instruction that may not run in trap state (R239): illegal instruction at it. -/
def doubleTrap (k : Kern) (c : Nat) (t : Thread) (pc : W64) : Kern :=
  match threadLaunch k c t with
  | none => k
  | some l => stopContext k l.ctx c t (trapRecord (pairtOf k c l pc.toNat) 0x01 0 false pc 0)

/-- A trap taken by a thread outside an issue: it moves to the handler at once. -/
def takeTrap (k : Kern) (c : Nat) (t : Thread) (cause sub : Nat) (pcsave fault : W64) (async : Bool) : Kern :=
  match trapEntry k c t cause sub pcsave fault async with
  | (k, some m) => moveThreads k c [m]
  | (k, none) => k

/-- A trap that a thread takes outside an issue: cause, subcode, saved program counter and fault word, and whether it is
asynchronous. -/
structure Due where
  thread : Thread
  cause : Nat
  sub : Nat
  pc : W64
  fault : W64
  async : Bool
  deriving DecidableEq, Repr

/-- Several threads take their traps outside an issue: the movers of those that enter their handlers. -/
def enterAll (c : Nat) : Kern → List Due → Kern × List Mover
  | k, [] => (k, [])
  | k, x :: xs =>
    let r := trapEntry k c x.thread x.cause x.sub x.pc x.fault x.async
    let rs := enterAll c r.1 xs
    (rs.1, r.2.toList ++ rs.2)

/-- Several threads take their traps in one cycle and are placed together (R264). -/
def takeAll (k : Kern) (c : Nat) (xs : List Due) : Kern :=
  let r := enterAll c k xs
  moveThreads r.1 c r.2

/-- The threads of a list take one synchronous trap, each at its own program counter, and are placed in one cycle. -/
def takeTraps (k : Kern) (c : Nat) (xs : List (Thread × W64)) (cause sub : Nat) (fault : W64) : Kern :=
  takeAll k c (xs.map fun x => { thread := x.1, cause := cause, sub := sub, pc := x.2, fault := fault, async := false })

/-! ## Courses (R265) -/

/-- What a thread makes of an instruction (R265). A trap at issue rolls back a couple (R19); a late trap does not. -/
inductive Course where
  | next
  | to (pc : Nat)
  | trap (cause sub fault : Nat)
  | trapAt (pc cause sub fault : Nat)
  | lateTrap (cause sub fault : Nat)
  | park (faddr sub : Nat)
  | pend
  | stay
  | gone
  deriving DecidableEq, Repr

/-! ## Parking (R272) -/

/-- The 32 bytes of a park record (R273). -/
def parkBytes (p : Park) : List Byte :=
  bytesOfNat 8 p.pc.toNat ++ bytesOfNat 8 p.faddr.toNat ++
    [BitVec.ofNat 8 p.sub, BitVec.ofNat 8 p.lane, BitVec.ofNat 8 (p.tslot % 16 * 16 + p.block % 16), BitVec.ofNat 8 (p.group % 64),
      BitVec.ofNat 8 (p.ctx % 16), if p.tstate then 1 else 0, 0, 0] ++
    bytesOfNat 8 p.cycle.toNat

/-- A thread whose fault finds the store full becomes pending at the instruction until a record frees (R272). -/
def pendThread (k : Kern) (c : Nat) (t : Thread) (pc : W64) : Kern :=
  let id := k.id
  modCore { k with id := id + 1 } c fun core =>
    { core with
      threads := core.threads.map fun u =>
        if u.tslot == t.tslot && u.lane == t.lane then { u with loc := .pending id, pc := pc, wait := .noRecord, latch := none }
        else u,
      pendSince := mset core.pendSince id core.cycle }

/-- n park records are free (R272). -/
def recordRoom (core : Core) (n : Nat) : Bool := core.parks.length + n ≤ 64

/-- Park a thread: it leaves its entry and is recorded, or becomes pending at the instruction where the store of 64 records
is full (R272, R273). -/
def parkThread (k : Kern) (c : Nat) (t : Thread) (pc : W64) (faddr sub : Nat) : Kern :=
  if !recordRoom (coreOf k c) 1 then pendThread k c t pc
  else
    let p : Park :=
      { id := k.id, pc := pc, faddr := BitVec.ofNat 64 faddr, sub := sub, lane := t.lane, tslot := t.tslot, block := t.block,
        group := t.group, ctx := ctxOf k c t, tstate := t.tstate, cycle := cycleOf k c, handed := false }
    let k := { k with id := k.id + 1 }
    modCore k c fun core =>
      { core with
        threads := core.threads.map fun u =>
          if u.tslot == t.tslot && u.lane == t.lane then { u with loc := .parked, pc := pc, wait := .none, latch := none } else u,
        parks := core.parks ++ [p] }

/-- A park record frees: the threads that waited for one may issue again (R272). -/
def freeRecord (k : Kern) (c id : Nat) : Kern :=
  modCore k c fun core =>
    { core with parks := core.parks.filter fun p => p.id != id,
                threads := core.threads.map fun u => if u.wait == .noRecord then { u with wait := .none } else u }

/-! ## Cells that leave, and exit (R143, R279, R286, R295) -/

/-- Send a notice about a cell to a core (R288). -/
def sendNotice (k : Kern) (launch cell dst kind step : Nat) (faces : List W32) (rel held : Bool) : Kern :=
  { k with notices := k.notices ++ [{ id := k.id, launch := launch, cell := cell, dst := dst, kind := kind, step := step,
                                      faces := faces, rel := rel, held := held }],
           id := k.id + 1 }

/-- The cores of this device, other than c, that hold a cell in their halo (R288). Number 2^20 stands for the other devices'
cores, which the fabric serves (R389). -/
def noticeCores (k : Kern) (c : Nat) (l : Launch) (serial n : Nat) : List Nat :=
  let readers := readersOf l (cellOf l n)
  readers.foldl (fun acc m =>
    let brick := (brickOf l (cellOf l m)).1
    match (mget k.launches serial).bind fun x => (x.bricks.find? fun p => p.1 == brick).map (·.2) with
    | some d => if d == c then acc else addOnce acc d
    | none => addOnce acc (2 ^ 20 + brick)) []

/-- Send notices of a cell to every core that holds it in its halo. -/
def notifyCell (k : Kern) (c : Nat) (l : Launch) (serial n kind step : Nat) (faces : List W32) (rel held : Bool) :
    Kern :=
  (noticeCores k c l serial n).foldl (fun k d => sendNotice k serial n d kind step faces rel held) k

/-- A cell has exited: it keeps its banks, and its readers are told (R286, R288). -/
def exitCell (k : Kern) (c : Nat) (l : Launch) (r : XRegion) (b : Nat) : Kern :=
  let k := modRegion k c r.launch fun x => { x with gone := addOnce x.gone b, away := x.away.filter (· != b) }
  let last := sigmaAt k (recordAt c r b) - 1
  notifyCell k c l r.launch (linear l (cellAt l r.brick b)) 2 last [] false false

/-- A result goes to a scalar register of the thread's group and no window holds it back, or another thread has left the window. -/
def comesToGroup (k : Kern) (c : Nat) (t : Thread) (h : Held) : Bool :=
  h.scalar && (h.window == 0 || (scalarNumbers h.regs).any fun i => comesEarly k c t i h.id)

/-- A request delivers into a scalar register of the thread's group. -/
def landsInGroup (k : Kern) (c : Nat) (t : Thread) (q : Option Nat) : Bool :=
  t.held.any fun h => comesToGroup k c t h && q == some h.id

/-- Discard what is on its way to the registers of a thread (R143): held results, and its own registers' share of outstanding
loads and copies. A result of another kind that no window holds back is written, and one on its way to a scalar register of its
group still comes (R278). -/
def discardResults (k : Kern) (c : Nat) (t : Thread) : Kern :=
  let core := coreOf k c
  let k := flushHeld k c t fun h => h.window == 0 && selfArrives core h
  let t' := nowThread k c t
  let lands := landsInGroup k c t'
  let stays := comesToGroup k c t'
  let k := modThis k c t fun u => { u with held := u.held.filter stays }
  modCore k c fun core =>
    { core with
      reqs := (core.reqs.filter fun q => !(q.tslot == t.tslot && q.lane == t.lane && q.kind == .load && !lands q.held)).map fun q =>
        if q.tslot == t.tslot && q.lane == t.lane && !lands q.held then { q with held := none } else q,
      copies := core.copies.map fun j =>
        if j.tslot == t.tslot && j.lane == t.lane && !j.orphan then { j with held := none, orphan := true } else j,
      bedJobs := core.bedJobs.map fun j => if j.tslot == t.tslot && j.lane == t.lane then { j with held := none } else j }

/-- End a thread (R143). -/
def endThread (k : Kern) (c : Nat) (t : Thread) (loc : Loc) : Kern :=
  let k := discardResults k c t
  modThis k c t fun u => { u with loc := loc, wait := .none, latch := none, marks := List.replicate 16 false }

end Sys2Proof.Machine
end

