-- ==== Sys2Proof/Machine/Address.lean ====
section
/-! DEFINITION. Where a memory instruction accesses: ADDRESS (R151), places (R201), physical locations, the range scoreboard
(R184), valid bits and the race detector (R304, R325). -/

namespace Sys2Proof.Machine

/-- The rights of a capability, in its order. -/
def needRead : Nat := 8
/-- The write right. -/
def needWrite : Nat := 4
/-- The atomic right. -/
def needAtomic : Nat := 2

/-! ## ADDRESS (R151) -/

/-- A location that passed R151: its space, the capability it was reached by, and the effective address. -/
structure Spot where
  space : Space
  cap : Nat
  ea : Nat
  deriving DecidableEq, Repr

/-- The bytes of the exchange region that the block's launch has on the core (R307). -/
def xrBytes (k : Kern) (c : Nat) (blk : Block) : Nat :=
  match launchOf k blk, regionOf k c blk.launch with
  | some l, some r => regionBytes l r.nc r.halo.length r.virt
  | _, _ => 0

/-- ADDRESS (R151): cause and fault word, or the location. -/
def address (k : Kern) (c : Nat) (blk : Block) (space : Space) (base : Nat) (off : Int) (size algn need : Nat) :
    Except (Nat × Nat) Spot :=
  match space with
  | .ob =>
    let ea := (((base % 2 ^ 36 : Nat) : Int) + off) % (2 ^ 36 : Nat)
    match checkObj k blk.ctx base ea.toNat size algn need with
    | .error x => .error x
    | .ok a => .ok { space := .ob, cap := base, ea := a }
  | .sp =>
    let ea := (((base % 2 ^ 32 : Nat) : Int) + off) % (2 ^ 32 : Nat)
    if ea.toNat % algn != 0 || blk.sb < ea.toNat + size then .error (0x04, ea.toNat)
    else .ok { space := .sp, cap := 0, ea := ea.toNat }
  | .xr =>
    let ea := (((base % 2 ^ 32 : Nat) : Int) + off) % (2 ^ 32 : Nat)
    if ea.toNat % algn != 0 || xrBytes k c blk < ea.toNat + size then .error (0x04, ea.toNat)
    else .ok { space := .xr, cap := 0, ea := ea.toNat }

/-- The base operand of an M-format instruction (R27). -/
def readBase (k : Kern) (c : Nat) (t : Thread) (x : MForm) : Nat :=
  match x.sp with
  | .ob => readPair k c t x.base
  | _ => readLow k c t x.base

/-- The offset that an M-format instruction adds to its base (R27, R150). -/
def readOffset (k : Kern) (c : Nat) (t : Thread) (x : MForm) (useIdx : Bool) : Int :=
  (if useIdx then readIndex k c t x.idx * (2 ^ x.xs.val : Nat) else 0) + x.disp.toInt

/-- The location of an M-format access of a thread. -/
def spotOf (k : Kern) (c : Nat) (t : Thread) (x : MForm) (useIdx : Bool) (size algn need : Nat) :
    Except (Nat × Nat) Spot :=
  match blockOf k c t.block with
  | none => .error (0x04, 0)
  | some blk => address k c blk x.sp (readBase k c t x) (readOffset k c t x useIdx) size algn need

/-- The bytes that a value of a type occupies in memory (R57). -/
def memBytes (t : Ty) : Nat := ceilDiv (tyBits t) 8

/-! ## Physical locations -/

/-- The physical address of a location, or the park: the capability form of the address and the subcode (R152, R365). -/
def physical (k : Kern) (c : Nat) (blk : Block) (p : Spot) : Except (Nat × Nat) Nat :=
  match p.space with
  | .sp => .ok (rowBase c blk.baseRow + p.ea)
  | .xr =>
    match regionOf k c blk.launch with
    | some r => .ok (regionBase c r + p.ea)
    | none => .ok 0
  | .ob =>
    match translate k blk.ctx (capObj p.cap) p.ea with
    | .ok a => .ok a
    | .error sub => .error (capForm p.cap p.ea, sub)

/-- The object of a location has a remote home. -/
def remoteSpot (k : Kern) (ctx : Nat) (p : Spot) : Bool :=
  p.space == .ob && ((getObj k ctx (capObj p.cap)).map (·.home)) == some .remote

/-- The home device of a location's object. -/
def homeOf (k : Kern) (ctx : Nat) (p : Spot) : Nat := ((getObj k ctx (capObj p.cap)).map (·.hdev)).getD 0

/-- The object of a location lies in HBM: its loads use the line cache (R153). -/
def cachedSpot (k : Kern) (ctx : Nat) (p : Spot) : Bool :=
  p.space == .ob && ((getObj k ctx (capObj p.cap)).map (·.home)) == some .hbm

/-- Physical runs of a range that starts at a location; the park of its first byte that is not placed. -/
def spotRuns (k : Kern) (c : Nat) (blk : Block) (p : Spot) (n : Nat) : Except (Nat × Nat) (List (Nat × Nat)) :=
  match p.space with
  | .ob =>
    match objRuns k blk.ctx (capObj p.cap) p.ea n with
    | .ok rs => .ok rs
    | .error (off, sub) => .error (capForm p.cap off, sub)
  | _ =>
    match physical k c blk p with
    | .ok a => .ok [(a, n)]
    | .error x => .error x

/-! ## Places (R201) -/

/-- A place with an offset: a capability where bits [63:40] are nonzero, else a scratchpad address. The location, or cause
and fault word. A place of a remote object, or a scratchpad place with bits above 31, raises rights. -/
def placeAt (k : Kern) (c : Nat) (blk : Block) (place : Nat) (off : Int) (size algn need : Nat) :
    Except (Nat × Nat) Spot :=
  if place / 2 ^ 40 != 0 then
    match address k c blk .ob place off size algn need with
    | .error x => .error x
    | .ok p => if remoteSpot k blk.ctx p then .error (0x05, 0) else .ok p
  else if place / 2 ^ 32 % 256 != 0 then .error (0x05, 0)
  else address k c blk .sp place off size algn need

/-- A place (R201). -/
def placeSpot (k : Kern) (c : Nat) (blk : Block) (place size algn need : Nat) : Except (Nat × Nat) Spot :=
  placeAt k c blk place 0 size algn need

/-! ## The range scoreboard (R184) -/

/-- Two ranges overlap. -/
def overlaps (lo hi lo' hi' : Nat) : Bool := lo < hi' && lo' < hi

/-- A range of a copy holds an access back: any access waits for a destination, a write also for a source. -/
def heldByCopy (core : Core) (blk : Nat) (space : Space) (lo hi : Nat) (writes : Bool) : Bool :=
  let hit (r : Range) : Bool := r.space == space && (space == .xr || r.block == blk) && overlaps lo hi r.lo r.hi
  core.copies.any fun j => j.dstR.any hit || (writes && j.srcR.any hit)

/-- The access is not held back by a copy in flight. -/
def scoreboardFree (k : Kern) (c : Nat) (t : Thread) (p : Spot) (size : Nat) (writes : Bool) : Bool :=
  p.space == .ob || !heldByCopy (coreOf k c) t.block p.space p.ea (p.ea + size) writes

/-! ## Valid bits and races (R304, R325, R326) -/

/-- The word indexes that a scratchpad range touches, in ascending address. -/
def wordsOf (ea size : Nat) : List Nat := (List.range (ceilDiv (ea % 4 + size) 4)).map fun i => ea / 4 + i

/-- What an access does to the detectors. -/
structure Touch where
  reads : Bool
  writes : Bool
  atomic : Bool
  deriving DecidableEq, Repr

/-- Count an unwritten read in log mode and record the first (R304). -/
def logUnwritten (k : Kern) (c : Nat) (t : Thread) (pc word : Nat) : Kern :=
  let ctx := ctxOf k c t
  let x := getCtx k ctx
  let k := modCtx k ctx fun y => { y with urcount := min (y.urcount + 1) (2 ^ 32 - 1), firstUr := true }
  if x.firstUr then k
  else
    logRecord k ctx 4 (serialOf k c t) (cycleOf k c)
      (bytesOfNat 8 pc ++ bytesOfNat 4 (4 * word) ++ List.replicate 4 0 ++ [BitVec.ofNat 8 (c % 64), BitVec.ofNat 8 (c / 64)])

/-- Count a race in log mode and record the first (R326). -/
def logRace (k : Kern) (c : Nat) (t : Thread) (pc word : Nat) : Kern :=
  let ctx := ctxOf k c t
  let x := getCtx k ctx
  let k := modCtx k ctx fun y => { y with racecount := min (y.racecount + 1) (2 ^ 32 - 1), firstRace := true }
  if x.firstRace then k
  else
    logRecord k ctx 5 (serialOf k c t) (cycleOf k c)
      (bytesOfNat 8 pc ++ bytesOfNat 4 (4 * word) ++ List.replicate 4 0 ++ [BitVec.ofNat 8 (c % 64), BitVec.ofNat 8 (c / 64)])

/-- The word was written in the block's generation by another group (R325). -/
def stampConflict (blk : Block) (g word : Nat) : Bool :=
  match mget blk.stamps word with
  | some s => s.gs != g && s.gen == blk.bg
  | none => false

/-- The never-written check, then the race check, of one word (R152): the state with the counts and records of the log modes,
and the trap. -/
def checkWord (k : Kern) (c : Nat) (t : Thread) (l : Launch) (blk : Block) (pc : Nat) (a : Touch) (word : Nat) :
    Kern × Option (Nat × Nat) :=
  let unwritten := a.reads && !blk.valid.contains word
  let raced := !a.atomic && recRace l != 2 && stampConflict blk t.group word
  if unwritten && recValid l == 0 then (k, some (0x0B, 4 * word))
  else
    let k := if unwritten && recValid l == 1 then logUnwritten k c t pc word else k
    if raced && recRace l == 0 then (k, some (0x08, 4 * word))
    else (if raced && recRace l == 1 then logRace k c t pc word else k, none)

/-- The checks of the words of an access in ascending address (R152). The first that traps decides; the checks before it have
had their effect. -/
def checkWords (k : Kern) (c : Nat) (t : Thread) (l : Launch) (blk : Block) (pc : Nat) (a : Touch) :
    List Nat → Kern × Option (Nat × Nat)
  | [] => (k, none)
  | w :: ws =>
    match checkWord k c t l blk pc a w with
    | (k, some x) => (k, some x)
    | (k, none) => checkWords k c t l blk pc a ws

/-- The valid bits and stamps after an access (R156, R325): a write sets the bit and stamps the word; an atomic sets the bit
and leaves no stamp. -/
def touchWords (l : Launch) (g : Nat) (a : Touch) (ws : List Nat) (blk : Block) : Block :=
  if !a.writes then blk
  else
    let valid := ws.foldl addOnce blk.valid
    let stamps :=
      if a.atomic then ws.foldl mdel blk.stamps
      else if recRace l == 2 then blk.stamps
      else ws.foldl (fun m w => mset m w { gs := g, gen := blk.bg }) blk.stamps
    { blk with valid := valid, stamps := stamps }

/-- The detectors of an access of a thread to its block's scratchpad: the state after the checks, and the trap. Other spaces
have none (R307). -/
def detect (k : Kern) (c : Nat) (t : Thread) (pc : Nat) (p : Spot) (size : Nat) (a : Touch) : Kern × Option (Nat × Nat) :=
  if p.space != .sp then (k, none)
  else
    match blockOf k c t.block, threadLaunch k c t with
    | some blk, some l => checkWords k c t l blk pc a (wordsOf p.ea size)
    | _, _ => (k, none)

/-- The valid bits and stamps after an access of a thread that has been performed. -/
def touchSpot (k : Kern) (c : Nat) (t : Thread) (p : Spot) (size : Nat) (a : Touch) : Kern :=
  if p.space != .sp then k
  else
    match threadLaunch k c t with
    | some l => modBlock k c t.block (touchWords l t.group a (wordsOf p.ea size))
    | none => k

/-- An engine's write to a block's scratchpad (R156, R325): valid bits set, stamps none. DEDUCED: log entry 37. -/
def engineTouch (k : Kern) (c b lo n : Nat) : Kern :=
  modBlock k c b fun blk =>
    let ws := wordsOf lo n
    { blk with valid := ws.foldl addOnce blk.valid, stamps := ws.foldl mdel blk.stamps }

/-- The barrier generation of the race detector advances (R325): at the wrap every stamp becomes none. -/
def advanceBg (blk : Block) : Block :=
  if blk.bg + 1 == 0 then { blk with bg := 0, stamps := [] } else { blk with bg := blk.bg + 1 }


/-! ## The object cache (R314) -/

/-- The core's object cache holds the object, or the object is not in the table, so that nothing is waited for. -/
def objCached (k : Kern) (c ctx o : Nat) : Bool :=
  (getObj k ctx o).isNone || (coreOf k c).ocache.contains (ctx, o)

/-- A use of an object makes its entry the most recent of the object cache (R314). -/
def useObj (k : Kern) (c ctx o : Nat) : Kern :=
  modCore k c fun core =>
    { core with ocache :=
        if core.ocache.contains (ctx, o) then (ctx, o) :: core.ocache.filter (· != (ctx, o)) else core.ocache }

end Sys2Proof.Machine
end

