-- ==== Sys2Proof/Machine/Perform.lean ====
section
/-! DEFINITION. Performing accesses: reads that may meet poison and corrected errors (06 R152, R440; 22 R425, R429), the
operations of atomics (06 R161), the line cache (06 R153; 11 R312), the write-combining buffer (06 R154) and outstanding
requests (06 R157, R159). -/

namespace Sys2Proof.Machine

/-! ## Poison and corrected errors -/

/-- The units of a map that overlap runs: the offset in the access, and the value. -/
def unitHits {α : Type} (size : Nat → Nat) : List (Nat × Nat) → Nat → FMap α → List (Nat × α)
  | [], _, _ => []
  | r :: rs, off, m =>
    (m.filterMap fun p =>
      if p.1 < r.1 + r.2 && r.1 < p.1 + size p.1 then some (off + (p.1 - r.1), p.2) else none) ++
        unitHits size rs (off + r.2) m

/-- The bytes of the check unit at a base. -/
def unitSize (a : Nat) : Nat := if isHbm a then 64 else 8

/-- The poisoned units that runs meet, by the offset of their first byte in the access. -/
def poisonHits (k : Kern) (rs : List (Nat × Nat)) : List (Nat × Poison) := unitHits unitSize rs 0 k.poison

/-- Where runs meet corrected errors: the check units that they touch hold them (R425). -/
def softAt (k : Kern) (rs : List (Nat × Nat)) : List Nat :=
  k.soft.filter fun a => rs.any fun r => match checkUnit k a with | some u => overlaps u.1 (u.1 + u.2) r.1 (r.1 + r.2) | none => false

/-- The corrected errors that runs meet (R425). -/
def softHits (k : Kern) (rs : List (Nat × Nat)) : Nat := (softAt k rs).length

/-- The charge of poisoned units: 64 each, none for margin (R425, R429). -/
def poisonCharge (hs : List (Nat × Poison)) : Nat := 64 * (hs.filter fun h => h.2 == .plain).length

/-- The class of a thread's kernel: 0 P, 1 D, 2 N (R343). -/
def classOf (k : Kern) (c : Nat) (t : Thread) : Nat := ((threadLaunch k c t).map recClass).getD 0

/-- The class of the kernel of a launch: 0 P, 1 D, 2 N (R343). -/
def serialClass (k : Kern) (serial : Nat) : Nat := ((mget k.launches serial).map recClass).getD 0

/-- The cause of a poison read in a P or D kernel (R152, R429). -/
def poisonCause (cls : Nat) (p : Poison) : Nat := if cls == 0 && p == .margin then 0x11 else 0x07

/-- Count poison met by an N kernel (R152). -/
def countPoison (k : Kern) (ctx n : Nat) : Kern := modCtx k ctx fun x => { x with poisons := x.poisons + n }

/-- The bytes of runs with those of poisoned units read as ones (R152). DEDUCED: log entry 19. -/
def onesWherePoison (k : Kern) (rs : List (Nat × Nat)) : List Byte :=
  rs.flatMap fun r => (List.range r.2).map fun i =>
    if (poisonAt k (r.1 + i)).isSome then 0xFF else readCell k.mem (r.1 + i)

/-- Read runs for a context in a kernel class: charges are made; the bytes, or the first poisoned offset (R152). -/
def readRuns (k : Kern) (ctx cls : Nat) (rs : List (Nat × Nat)) : Kern × Except (Nat × Poison) (List Byte) :=
  let hs := poisonHits k rs
  let k' := charge (countMended k (softAt k rs)) ctx (poisonCharge hs + softHits k rs)
  match hs with
  | [] => (k', .ok (getRuns k rs))
  | h :: _ => if cls == 2 then (countPoison k' ctx hs.length, .ok (onesWherePoison k rs)) else (k', .error h)

/-- Read runs for a thread: where the poison that it meets traps it, the trap comes before what its charge delivers (R426). -/
def readTrap (k : Kern) (ctx cls : Nat) (rs : List (Nat × Nat)) : Kern × Except (Nat × Poison) (List Byte) :=
  match poisonHits k rs with
  | h :: hs =>
    if cls == 2 then readRuns k ctx cls rs else (chargeLate (countMended k (softAt k rs)) ctx (poisonCharge (h :: hs) + softHits k rs), .error h)
  | [] => readRuns k ctx cls rs

/-- Fresh check data over every poisoned unit of runs (R152). -/
def refreshRuns (k : Kern) (rs : List (Nat × Nat)) : Kern :=
  (poisonHits k rs).foldl (fun k h =>
    match rs with
    | [r] => clearUnit k (r.1 + h.1)
    | _ => k) k

/-! ## Atomic operations (R161) -/

/-- The new value of a location (R161). -/
def newValue (op : AtomOp) (ty : Ty) (old b : Nat) : Nat :=
  let x := intOf ty old
  let y := intOf ty b
  match op with
  | .add => if tyFl ty then (addF ty .rne (decodeF ty old) (decodeF ty b)).1 else wrapI ty (x + y)
  | .adds => wrapI ty (clampI ty (x + y))
  | .min => if tyFl ty then (extremeF ty true [old, b]).1 else wrapI ty (min x y)
  | .max => if tyFl ty then (extremeF ty false [old, b]).1 else wrapI ty (max x y)
  | .and => Nat.land old b
  | .or => Nat.lor old b
  | .xor => Nat.xor old b
  | .exch => b
  | .inc => if b ≤ old then 0 else old + 1
  | .dec => if old == 0 || b < old then b else old - 1

/-- What a request writes to its location, given the old value; none where a compare fails (R162). What a claim writes is
serveClaim. -/
def writeOf (kind : ReqKind) (ty : Ty) (old data cmp : Nat) : Option Nat :=
  match kind with
  | .load | .claim => none
  | .store => some data
  | .atom op => some (newValue op ty old data)
  | .cas => if old == cmp then some data else none

/-- Perform an atomic on one run (R152, R160, R162): the old value, or poison. -/
def performAtomic (k : Kern) (ctx cls : Nat) (r : Nat × Nat) (kind : ReqKind) (ty : Ty) (mask : Nat → Nat)
    (data cmp : Nat) : Kern × Except (Nat × Poison) Nat :=
  match readTrap k ctx cls [r] with
  | (k, .error h) => (k, .error h)
  | (k, .ok bs) =>
    let old := mask (natOfBytes bs)
    match writeOf kind ty old data cmp with
    | none => (k, .ok old)
    | some x => (putBytes (refreshRuns k [r]) r.1 (bytesOfNat r.2 x), .ok old)

/-! ## The line cache (R153, R312, R313) -/

/-- A cached line. -/
def cachedLine (core : Core) (ctx obj line : Nat) : Option (BitVec 512) :=
  (core.lcache.find? fun l => l.ctx == ctx && l.obj == obj && l.line == line).map (·.bits)

/-- Invalidate one line. -/
def dropLine (k : Kern) (c ctx obj line : Nat) : Kern :=
  modCore k c fun core => { core with lcache := core.lcache.filter fun l => !(l.ctx == ctx && l.obj == obj && l.line == line) }

/-- Invalidate every line of a core (R160, R168). -/
def dropLines (k : Kern) (c : Nat) : Kern := modCore k c fun core => { core with lcache := [] }

/-- The set of a line, of the 256 (R312). -/
def setOf (ctx obj line : Nat) : Nat := Config.lineSet ctx obj line % 256

/-- Two lines share a set. -/
def sameSet (a b : CLine) : Bool := setOf a.ctx a.obj a.line == setOf b.ctx b.obj b.line

/-- The ways of a set that are awake: four while the upper ways are gated or wake, else eight (R312, R313). -/
def awakeWays (core : Core) : Nat := if core.waysGated || core.waysWaking.isSome then 4 else 8

/-- The awake ways that are free in the set of a line. -/
def freeWays (core : Core) (l : CLine) : List Nat :=
  (List.range (awakeWays core)).filter fun w => !core.lcache.any fun x => sameSet x l && x.way == w

/-- A fill of a line needs a way that is waking: the awake ways of its set are taken (R313). -/
def needsWaking (core : Core) (ctx obj line : Nat) : Bool :=
  core.waysWaking.isSome && (freeWays core { ctx := ctx, obj := obj, line := line, way := 0, bits := 0 }).isEmpty

/-- The ways of a line's set whose line a fill may replace: the awake ones, but for that used last (R312). The cache lists its lines
in the order of their last use. DESIGN CHOICE: log entry 121. -/
def victimWays (core : Core) (l : CLine) : List Nat :=
  let ways := List.range (awakeWays core)
  match (core.lcache.filter fun x => sameSet x l).getLast? with
  | some x => ways.filter (· != x.way)
  | none => ways

/-- A load that hits a line makes it the last used (R312). -/
def useLine (k : Kern) (c ctx obj line : Nat) : Kern :=
  let mine (l : CLine) : Bool := l.ctx == ctx && l.obj == obj && l.line == line
  modCore k c fun core => { core with lcache := (core.lcache.filter fun l => !mine l) ++ core.lcache.filter mine }

/-- Fill a line: it takes a free way of its set, else it replaces a line there (R312). -/
def fillLine (k : Kern) (c ctx obj line : Nat) (bits : BitVec 512) : Kern :=
  let n := Config.lineVictim k.free
  let l : CLine := { ctx := ctx, obj := obj, line := line, way := 0, bits := bits }
  modCore { k with free := k.free + 1 } c fun core =>
    let ways := freeWays core l
    let ways := if ways.isEmpty then victimWays core l else ways
    let w := ways.getD (n % ways.length) 0
    { core with lcache := (core.lcache.filter fun x => !(sameSet x l && x.way == w)) ++ [{ l with way := w }],
                fills := (core.cycle :: core.fills).take 1024 }

/-- A cached copy with bytes written over it (R153). -/
def overLine (bits : BitVec 512) (off : Nat) (bs : List Byte) : BitVec 512 :=
  let old := bytesOfNat 64 bits.toNat
  BitVec.ofNat 512 (natOfBytes (old.take off ++ bs ++ old.drop (off + bs.length)))

/-- A store's effect on a cached copy: updated, or invalidated where NA = 1 (R153). -/
def storeLine (k : Kern) (c ctx obj ea : Nat) (bs : List Byte) (na : Bool) : Kern :=
  if na then dropLine k c ctx obj (ea / 64)
  else
    modCore k c fun core =>
      { core with lcache := core.lcache.map fun l =>
          if l.ctx == ctx && l.obj == obj && l.line == ea / 64 then { l with bits := overLine l.bits (ea % 64) bs } else l }

/-- A scope is .dev or wider. -/
def wideScope (sc : Scope) : Bool := sc == .dev || sc == .dom || sc == .sys

/-! ## The write-combining buffer (R154) -/

/-- The name of a thread in its core: thread slot × 64 + lane. -/
def threadName (t : Thread) : Nat := t.tslot * 64 + t.lane

/-- The entry of a line of an object. -/
def wcEntry (core : Core) (ctx obj line : Nat) : Option WcEntry :=
  core.wc.find? fun e => e.ctx == ctx && e.obj == obj && e.line == line

/-- Begin to drain the entries that satisfy a test. -/
def drainWhere (k : Kern) (c : Nat) (test : WcEntry → Bool) : Kern :=
  modCore k c fun core => { core with wc := core.wc.map fun e => if test e then { e with draining := true } else e }

/-- Begin to drain every entry that holds a store of a thread (R154). -/
def drainOf (k : Kern) (c : Nat) (t : Thread) : Kern := drainWhere k c fun e => e.writers.contains (threadName t)

/-- An entry holds a store of the thread. -/
def holdsStores (core : Core) (t : Thread) : Bool := core.wc.any fun e => e.writers.contains (threadName t)

/-- The bytes of a store by offset in its line. -/
def lineBytes (off : Nat) (bs : List Byte) (m : FMap Byte) : FMap Byte :=
  ((List.range bs.length).zip bs).foldl (fun m p => mset m (off + p.1) p.2) m

/-- An entry with a store of a thread, of its launch and its cell, merged; a full line drains (R154). -/
def mergeStore (t : Thread) (serial : Nat) (cell : Option (Nat × Nat)) (off : Nat) (bs : List Byte) (e : WcEntry) : WcEntry :=
  let b := lineBytes off bs e.bytes
  { e with bytes := b, writers := addOnce e.writers (threadName t), cells := cell.toList ++ e.cells,
           serials := addOnce e.serials serial, stores := e.stores + 1, draining := e.draining || b.length == 64 }

/-- A relaxed remote store gathers (R154). A draining entry does not take it. -/
def combineStore (k : Kern) (c ctx hdev obj ea : Nat) (t : Thread) (bs : List Byte) : Kern :=
  let fresh : WcEntry := { id := k.id, ctx := ctx, hdev := hdev, obj := obj, line := ea / 64, bytes := [], writers := [],
                           cells := [], serials := [], stores := 0, opened := k.net, limit := (getCtx k ctx).wcage, draining := false, sent := false }
  let mine (e : WcEntry) : Bool := e.ctx == ctx && e.obj == obj && e.line == ea / 64 && !e.draining
  let merge : WcEntry → WcEntry := mergeStore t (((blockOf k c t.block).map (·.launch)).getD 0) (cellKey k c t) (ea % 64) bs
  if (coreOf k c).wc.any mine then
    modCore k c fun core => { core with wc := core.wc.map fun e => if mine e then merge e else e }
  else modCore { k with id := k.id + 1 } c fun core => { core with wc := core.wc ++ [merge fresh] }

/-- A relaxed remote store of one of n threads has room: its line has an entry, or the buffer of 64 can take n more (R154). -/
def storeRoom (core : Core) (ctx obj ea n : Nat) : Bool :=
  core.wc.any (fun e => e.ctx == ctx && e.obj == obj && e.line == ea / 64 && !e.draining) || core.wc.length + n ≤ 64

/-! ## Tokens (R371) -/

/-- The tokens that so many bytes cost. -/
def tokensFor (bytes : Nat) : Nat := max 1 (ceilDiv bytes 64)

/-- The port lets out an access that a thread makes at its issue: the bucket holds the tokens of its first request, of at most 256
bytes, and owes none. DESIGN CHOICE: log entry 123. -/
def portOpen (core : Core) (ctx bytes : Nat) : Bool :=
  match mget core.buckets ctx with
  | none => true
  | some b => b.owed == 0 && min 4 (tokensFor bytes) ≤ b.tokens

/-- An access that a thread makes at its issue takes its tokens; what the bucket lacks it owes (R371). -/
def takeTokens (k : Kern) (c ctx bytes : Nat) : Kern :=
  match mget (coreOf k c).buckets ctx with
  | none => k
  | some b =>
    let n := tokensFor bytes
    modCore k c fun core =>
      { core with buckets := mset core.buckets ctx { tokens := b.tokens - n, owed := b.owed + (n - b.tokens), active := true } }

/-! ## Outstanding requests (R157, R159) -/

/-- Record a request. -/
def addReq (k : Kern) (c : Nat) (q : Req) : Kern := modCore k c fun core => { core with reqs := core.reqs ++ [q] }

/-- Drop a request. -/
def dropReq (k : Kern) (c id : Nat) : Kern := modCore k c fun core => { core with reqs := core.reqs.filter fun q => q.id != id }

/-- The outstanding requests of a core: those listed, and the stores that the write-combining buffer holds (R157). -/
def outstanding (core : Core) : Nat := core.reqs.length + (core.wc.map (·.stores)).sum

/-- The request is of a thread. -/
def reqOf (t : Thread) (q : Req) : Bool := q.tslot == t.tslot && q.lane == t.lane

/-- The thread has an outstanding acquire. -/
def acquiring (core : Core) (t : Thread) : Bool := core.reqs.any fun q => reqOf t q && q.acq

/-- Every earlier access of the thread has been performed, the drains of its stores among them (R159, R167). -/
def allPerformed (core : Core) (t : Thread) : Bool := !core.reqs.any (reqOf t) && !holdsStores core t

/-- Two requests touch a common byte. -/
def sameBytes (a b : Req) : Bool :=
  a.ctx == b.ctx && capObj a.cap.toNat == capObj b.cap.toNat && overlaps a.ea (a.ea + a.size) b.ea (b.ea + b.size)

/-- One request must be performed before another (R159, R160, R230, R330): requests of one thread to a common byte, an acquire
before what follows it, everything before a release, a release before an acquire where both are at .dev or wider, and what a
barrier or a meeting ordered. -/
def before (a b : Req) : Bool :=
  a.id < b.id &&
    ((a.tslot == b.tslot && a.lane == b.lane &&
        (sameBytes a b || a.acq || b.rel || (a.rel && b.acq && wideScope a.sc && wideScope b.sc))) ||
      (a.block == b.block && a.id < b.after))

/-- An entry of the write-combining buffer holds a store of a block's threads from before a number. -/
def blockStores (core : Core) (b n : Nat) : Bool :=
  core.wc.any fun e => e.id < n && core.threads.any fun u => u.block == b && e.writers.contains (threadName u)

/-- The request may be performed now: nothing that comes before it is outstanding, and for a release no entry holds a store
of its thread. -/
def mayPerform (core : Core) (q : Req) : Bool :=
  (core.reqs.all fun p => !before p q) &&
    (!q.rel || !core.wc.any fun e => e.writers.contains (q.tslot * 64 + q.lane)) && !blockStores core q.block q.after &&
    !core.wc.any fun e => e.ctx == q.ctx && e.obj == capObj q.cap.toNat && e.line == q.ea / 64

/-- The physical runs of a request at its local home, which has been translated (R370), or the address and the subcode with which
it parks. -/
def reqRuns (k : Kern) (q : Req) : Except (Nat × Nat) (List (Nat × Nat)) :=
  match heldRuns k q.ctx (capObj q.cap.toNat) q.ea q.size with
  | .ok rs => .ok rs
  | .error e => .error (capForm q.cap.toNat e.1, e.2)

/-- A load of a request through the line cache (R153): a hit reads the cached line, a miss fills it unless NA = 1. An
acquire at .dev or wider invalidates the cache and bypasses it. -/
def performLoad (k : Kern) (c cls : Nat) (q : Req) (rs : List (Nat × Nat)) : Kern × Except (Nat × Poison) (List Byte) :=
  let obj := capObj q.cap.toNat
  let cached := ((getObj k q.ctx obj).map (·.home)) == some .hbm
  if q.acq && wideScope q.sc then readTrap (dropLines k c) q.ctx cls rs
  else
    match if cached then cachedLine (coreOf k c) q.ctx obj (q.ea / 64) else none with
    | some bits => (useLine k c q.ctx obj (q.ea / 64), .ok (((bytesOfNat 64 bits.toNat).drop (q.ea % 64)).take q.size))
    | none =>
      match readTrap k q.ctx cls rs with
      | (k', .error h) => (k', .error h)
      | (k', .ok bs) =>
        if cached && !q.na && (poisonHits k rs).isEmpty then
          match readObj k q.ctx obj (q.ea / 64 * 64) 64 with
          | some line => (fillLine k' c q.ctx obj (q.ea / 64) (BitVec.ofNat 512 (natOfBytes line)), .ok bs)
          | none => (k', .ok bs)
        else (k', .ok bs)

/-- Perform a request at its local location: the value it answers as bytes, or poison. -/
def performReq (k : Kern) (c cls : Nat) (q : Req) (rs : List (Nat × Nat)) : Kern × Except (Nat × Poison) (List Byte) :=
  let obj := capObj q.cap.toNat
  match q.kind with
  | .load => performLoad k c cls q rs
  | .store =>
    let bs := bytesOfNat q.size q.data
    (storeLine (putRuns k rs bs) c q.ctx obj q.ea bs q.na, .ok [])
  | _ =>
    match rs with
    | [r] =>
      match performAtomic k q.ctx cls r q.kind q.ty id q.data q.cmp with
      | (k, .error h) => (k, .error h)
      | (k, .ok old) =>
        let k := dropLine k c q.ctx obj (q.ea / 64)
        (if q.acq && wideScope q.sc then dropLines k c else k, .ok (bytesOfNat q.size old))
    | _ => (k, .ok [])

/-- The registers' values of an answer: LDX words, or one value placed by its type (R57, R158). -/
def answerWords (ty : Ty) (size : Nat) (bs : List Byte) : List W32 :=
  if ty == .b32 then (List.range (size / 4)).map fun i => BitVec.ofNat 32 (fieldOf bs (4 * i) 4)
  else place ty (natOfBytes bs)

end Sys2Proof.Machine
end

