-- ==== Sys2Proof/Machine/Engine.lean ====
section
/-! DEFINITION. The transfers of the copy, queue and gather engines (06 R174 to R182, R192; 11 R318 to R323; 17 R369, R441):
plain, strided, sparse-row, layout-chain and grain-expansion moves. A transfer takes effect when it is complete. -/

namespace Sys2Proof.Machine

/-! ## Where an engine reads and writes -/

/-- A byte space of an engine: an object of a context by a capability, a block's scratchpad from its base row, or a core's exchange
region. -/
inductive Plane where
  | ob (ctx cap : Nat)
  | pad (core block row : Nat)
  | region (core launch : Nat)
  deriving DecidableEq, Repr

/-- Why an engine stops: it fails with cause and subcode, waits for service of an address (R441), or waits for bytes of an object on
another device (R392). -/
inductive Stop where
  | fail (cause sub : Nat)
  | wait (faddr sub : Nat)
  | far (ctx obj off n : Nat)
  deriving DecidableEq, Repr

/-- The physical runs of a range, or the wait for a place. DESIGN CHOICE: log entry 24. -/
def planeRuns (k : Kern) (p : Plane) (off n : Nat) : Except Stop (List (Nat × Nat)) :=
  match p with
  | .ob ctx cap =>
    match objRuns k ctx (capObj cap) off n with
    | .ok rs => .ok rs
    | .error e => .error (.wait (capForm cap e.1) e.2)
  | .pad c _ row => .ok [(rowBase c row + off, n)]
  | .region c l =>
    match regionOf k c l with
    | some r => .ok [(regionBase c r + off, n)]
    | none => .ok []

/-! ## Lines on another device (R392, R393, R397) -/

/-- The lines that a byte range touches. -/
def linesIn (off n : Nat) : List Nat :=
  if n == 0 then [] else (List.range (ceilDiv (off % 64 + n) 64)).map fun i => off / 64 + i

/-- The object of a capability has a remote home. -/
def remoteObj (k : Kern) (ctx cap : Nat) : Bool := ((getObj k ctx (capObj cap)).map (·.home)) == some .remote

/-- What the running unit has asked to read of a line. -/
def farRead (k : Kern) (ctx obj line : Nat) : Option Far :=
  k.far.find? fun x => x.owner == k.unit && x.ctx == ctx && x.obj == obj && x.line == line && x.put.isNone

/-- The poison with which a line has been answered, and the check units that were poison. -/
def farPoison (k : Kern) (ctx obj line : Nat) : Option (Poison × Nat) :=
  match (farRead k ctx obj line).bind (·.ended) with
  | some (.poison kind met _) => some (kind, met)
  | _ => none

/-- The corrected errors that the answer for a line met. -/
def farSoft (k : Kern) (ctx obj line : Nat) : Nat :=
  match (farRead k ctx obj line).bind (·.ended) with
  | some (.good soft) | some (.poison _ _ soft) => soft
  | _ => 0

/-- A range of an object on another device stops the unit that reads it: it waits for the bytes, or for service at the home, or the
home does not answer. -/
def farStop (k : Kern) (ctx cap off n : Nat) : Option Stop :=
  if !remoteObj k ctx cap then none
  else (linesIn off n).findSome? fun line =>
    match (farRead k ctx (capObj cap) line).bind (·.ended) with
    | none => some (.far ctx (capObj cap) off n)
    | some .unsupported => some (.fail 0x0D 0)
    | some .lost => some (.fail 0x04 0)
    | some (.notPlaced sub) => some (.wait (capForm cap (64 * line)) sub)
    | some _ => none

/-- Ask for the lines of a range that the running unit has not asked for. DESIGN CHOICE: log entry 24. -/
def askLines (k : Kern) (ctx obj off n : Nat) : Kern :=
  match getObj k ctx obj with
  | none => k
  | some e =>
    (linesIn off n).foldl (fun k line => if (farRead k ctx obj line).isSome then k else askFar k ctx e.hdev obj line none) k

/-- The running unit asks anew for the lines that were not placed. -/
def askAgain (k : Kern) : Kern :=
  { k with far := k.far.filter fun x =>
      !(x.owner == k.unit && x.put.isNone && match x.ended with | some (.notPlaced _) => true | _ => false) }

/-- A request of the running unit takes tokens for an access outside the core (R371): an engine splits it into requests of at most
256 bytes. DEDUCED: log entry 105. -/
def planeCost (p : Plane) (n : Nat) : Nat := match p with | .ob _ _ => ceilDiv n 64 | _ => 0

/-- The running unit's transfer costs more. -/
def addCost (k : Kern) (n : Nat) : Kern := { k with spent := k.spent + n }

/-- The byte at an offset of runs. -/
def addrAt : List (Nat × Nat) → Nat → Nat
  | [], _ => 0
  | r :: rs, i => if i < r.2 then r.1 + i else addrAt rs (i - r.2)

/-! ## Moving bytes (R178, R369) -/

/-- A byte on its way that was poison: its offset, the check unit that it comes from, and the poison. -/
structure BadByte where
  at_ : Nat
  from_ : Nat
  poison : Poison
  deriving DecidableEq, Repr

/-- Bytes on their way, with those that were poison, where corrected errors were met, and the tokens that the read takes. -/
structure Chunk where
  bytes : List Byte
  bad : List BadByte
  soft : List Nat
  cost : Nat
  deriving DecidableEq, Repr

/-- The poisoned bytes of runs. -/
def badOffsets (k : Kern) (rs : List (Nat × Nat)) (n : Nat) : List BadByte :=
  if (poisonHits k rs).isEmpty then []
  else (List.range n).filterMap fun i =>
    let a := addrAt rs i
    (poisonAt k a).map fun p => { at_ := i, from_ := ((checkUnit k a).map (·.1)).getD a, poison := p }

/-- The poisoned bytes of a range of an object on another device. A line there has as many check units as its answer met. -/
def farBad (k : Kern) (p : Plane) (off n : Nat) : List BadByte :=
  match p with
  | .ob ctx cap =>
    if remoteObj k ctx cap then (List.range n).filterMap fun i =>
      (farPoison k ctx (capObj cap) ((off + i) / 64)).map fun x =>
        { at_ := i, from_ := 2 ^ 64 + (off + i) / 64 * 8 + min (x.2 - 1) ((off + i) % 64 / 8), poison := x.1 }
    else []
  | _ => []

/-- The corrected errors that the answers for a range of an object on another device met (R425). -/
def farSofts (k : Kern) (p : Plane) (off n : Nat) : Nat :=
  match p with
  | .ob ctx cap => if remoteObj k ctx cap then ((linesIn off n).map (farSoft k ctx (capObj cap))).sum else 0
  | _ => 0

/-- The check units that bytes come from, with their poison. -/
def unitsFrom (bad : List BadByte) : List (Nat × Poison) :=
  bad.foldl (fun us b => if us.contains (b.from_, b.poison) then us else us ++ [(b.from_, b.poison)]) []

/-- What stops the running unit at a range of a plane. -/
def planeStop (k : Kern) (p : Plane) (off n : Nat) : Option Stop :=
  match p with | .ob ctx cap => farStop k ctx cap off n | _ => none

/-- Read bytes that the engine moves. -/
def takeBytes (k : Kern) (p : Plane) (off n : Nat) : Except Stop Chunk :=
  match planeStop k p off n with
  | some e => .error e
  | none =>
    match planeRuns k p off n with
    | .error e => .error e
    | .ok rs =>
      .ok { bytes := getRuns k rs, bad := badOffsets k rs n ++ farBad k p off n,
            soft := softAt k rs ++ List.replicate (farSofts k p off n) (2 ^ 64), cost := planeCost p n }

/-- One poisoned byte lands: its unit is poison, or in an N frame the byte is filled with ones. DEDUCED: log entry 23. -/
def landBad (k : Kern) (a : Nat) (p : Poison) : Kern :=
  match checkUnit k a with
  | some _ => setPoison k a p
  | none => putBytes k a [0xFF]

/-- The check units of the source whose bytes land in an N frame, with their poison, which are counted, and charged but for that of
the margin controller (R369, R425, R429). -/
def landUnits (k : Kern) (rs : List (Nat × Nat)) (bad : List BadByte) : List (Nat × Poison) :=
  unitsFrom (bad.filter fun b => (checkUnit k (addrAt rs b.at_)).isNone && !isRemote (addrAt rs b.at_))

/-- The bytes that a transfer sends to an object on another device: those that were poison are ones. DESIGN CHOICE: log entry 24. -/
def sentBytes (x : Chunk) : List Byte :=
  if x.bad.isEmpty then x.bytes
  else ((List.range x.bytes.length).zip x.bytes).map fun p => if x.bad.any fun b => b.at_ == p.1 then 0xFF else p.2

/-- Write bytes that the engine moved: valid bits are set and stamps are none (R156, R325). -/
def landBytes (k : Kern) (ctx : Nat) (p : Plane) (off : Nat) (x : Chunk) : Except Stop Kern :=
  let n := x.bytes.length
  match planeRuns k p off n with
  | .error e => .error e
  | .ok rs =>
    let k1 := putRuns (addCost k (x.cost + planeCost p n)) rs x.bytes
    let k2 := x.bad.foldl (fun k b => landBad k (addrAt rs b.at_) b.poison) k1
    let units := landUnits k rs x.bad
    let k3 := countMended (if units.isEmpty then k2 else countPoison k2 ctx units.length) x.soft
    let k3 := charge k3 ctx (poisonCharge units + x.soft.length)
    .ok (match p with
      | .pad c b _ => if n == 0 then k3 else engineTouch k3 c b off n
      | .ob o cap => sendWrite k3 o (capObj cap) off (sentBytes x)
      | _ => k3)

/-! ## Interpreted reads (R178) -/

/-- Read bytes that the engine interprets, for a kernel class: charges are made, and poison fails the transfer or reads as
ones. -/
def interpret (k : Kern) (ctx cls : Nat) (p : Plane) (off n : Nat) : Kern × Except Stop (List Byte) :=
  match planeStop k p off n, planeRuns k p off n with
  | some e, _ => (k, .error e)
  | _, .error e => (k, .error e)
  | none, .ok rs =>
    let bad := farBad k p off n
    let units := unitsFrom bad
    match readRuns (charge (addCost k (planeCost p n)) ctx (poisonCharge units + farSofts k p off n)) ctx cls rs with
    | (k, .error _) => (k, .error (.fail 0x07 0))
    | (k, .ok bs) =>
      if units.isEmpty then (k, .ok bs)
      else if cls != 2 then (k, .error (.fail 0x07 0))
      else (countPoison k ctx units.length, .ok (sentBytes { bytes := bs, bad := bad, soft := [], cost := 0 }))

/-- A range of an object checked by R151 as an engine checks it. -/
def checkPart (k : Kern) (ctx cap off n algn need : Nat) : Except Stop Unit :=
  match checkObj k ctx cap off n algn need with
  | .ok _ => .ok ()
  | .error e => .error (.fail e.1 0)

/-- The end of a transfer: the state and its status word (R182), the state and the units complete where it must wait for
service (R441), a malformed grain block (R322), or the range of an object on another device that it must have first (R392). -/
inductive Ran where
  | done (k : Kern) (status : Nat)
  | wait (k : Kern) (done faddr sub : Nat)
  | far (ctx obj off n : Nat)
  | malformed (k : Kern) (sub done tile block : Nat)
  deriving DecidableEq, Repr

/-- The status word (R182). -/
def statusWord (cause sub done : Nat) : Nat := cause * 2 ^ 24 + sub * 2 ^ 20 + done % 2 ^ 20

/-- A transfer that stops after a number of units. -/
def stopped (k : Kern) (done : Nat) : Stop → Ran
  | .fail cause sub => .done k (statusWord cause sub done)
  | .wait faddr sub => .wait k done faddr sub
  | .far ctx obj off n => .far ctx obj off n

/-- The kernel state in which a unit's transfer runs: its number is known, and its tokens are counted from nothing. -/
def asUnit (k : Kern) (u : Nat) : Kern := { k with unit := u, row := 0, spent := 0 }

/-- No unit's transfer runs. -/
def offUnit (k : Kern) : Kern := { k with unit := 0, row := 0, spent := 0 }

/-- The running unit moves a row, or an element, of its transfer. -/
def atRow (k : Kern) (i : Nat) : Kern := { k with row := i }

/-- The number of a copy, or of the slot of a COPYQ, as a unit. -/
def jobUnit (id : Nat) : Nat := 3 * id + 1

/-- The number of a packet of a queue as a unit. -/
def packetUnit (queue w : Nat) : Nat := 3 * (queue * 2 ^ 64 + w) + 2

/-- The number of a reader of records, images and lists as a unit: a node of a graph by its index, a card by 1024 + its number, and
a reader of the device's own. -/
def recordUnit (graph node : Nat) : Nat := 3 * (graph * 8192 + node) + 3

/-- A unit has asked for a range of an object on another device that has not been answered yet, which it waits for. -/
def rangeAsks (k : Kern) (u ctx cap off n : Nat) : Option Kern :=
  match farStop (asUnit k u) ctx cap off n with
  | some (.far c o f m) => some (offUnit (askLines (asUnit k u) c o f m))
  | _ => none

/-- Bytes of a range that a unit reads: none where they are not placed, or cannot be had from their home. -/
def readRange (k : Kern) (u ctx cap off n : Nat) : Option (List Byte) :=
  if (farStop (asUnit k u) ctx cap off n).isSome then none else readObj k ctx (capObj cap) off n

/-- What a unit wrote on other devices has not been performed there. -/
def farWrites (k : Kern) (u : Nat) : Bool := k.far.any fun x => x.owner == u && x.put.isSome && x.ended.isNone

/-- The status of a transfer some write of which has found its destination unreachable (R393) or has been answered unsupported
(R397): DONE is the row, or the element, of the first such write (R182, R192). -/
def writeFailure (k : Kern) (u : Nat) : Option Nat :=
  let bad (x : Far) : Bool := x.owner == u && x.put.isSome && (x.ended == some .lost || x.ended == some .unsupported)
  (minBy (fun x : Far => x.row * 2 ^ 64 + x.id) (k.far.filter bad)).map fun x =>
    statusWord (if x.ended == some .lost then 0x04 else 0x0D) 0 x.row

/-- The unit has ended: nothing more is asked in its name. -/
def endUnit (k : Kern) (u : Nat) : Kern := { k with far := k.far.filter fun x => x.owner != u, unit := 0, row := 0, spent := 0 }

/-! ## Modes 0 and 1 -/

/-- A signed 16-bit field. -/
def sign16 (x : Nat) : Int := (BitVec.ofNat 16 x).toInt

/-- The rows of a plain or strided move: source offset, destination offset, bytes (R176). -/
def moveRows (mode prm aux : Nat) : List (Int × Int × Nat) :=
  if mode == 0 then [(0, 0, prm)]
  else (List.range (prm / 2 ^ 12 + 1)).map fun i =>
    ((i : Int) * sign16 (aux / 2 ^ 16) * 8, (i : Int) * sign16 (aux % 2 ^ 16) * 8, prm % 2 ^ 12)

/-- The hull of rows on one side: the lowest offset and the end. -/
def hull (rows : List (Int × Nat)) : Int × Int :=
  match rows with
  | [] => (0, 0)
  | r :: rs => rs.foldl (fun acc x => (min acc.1 x.1, max acc.2 (x.1 + x.2))) (r.1, r.1 + r.2)

/-- An offset from a base, as a number. -/
def offBy (base : Nat) (d : Int) : Nat := ((base : Int) + d).toNat

/-- Read every row before any is written (R178). -/
def takeRows (k : Kern) (src : Plane) (sbase : Nat) : List (Int × Int × Nat) → Except Stop (List (Int × Chunk))
  | [] => .ok []
  | r :: rs =>
    match takeBytes k src (offBy sbase r.1) r.2.2, takeRows k src sbase rs with
    | .ok x, .ok xs => .ok ((r.2.1, x) :: xs)
    | .error e, _ => .error e
    | _, .error e => .error e

/-- Write rows in order. -/
def landRows (k : Kern) (ctx : Nat) (dst : Plane) (dbase : Nat) : List (Int × Chunk) → Except Stop Kern
  | [] => .ok k
  | r :: rs =>
    match landBytes k ctx dst (offBy dbase r.1) r.2 with
    | .ok k => landRows k ctx dst dbase rs
    | .error e => .error e

/-- Modes 0 and 1. -/
def runMove (k : Kern) (ctx : Nat) (src dst : Plane) (sbase dbase : Nat) (rows : List (Int × Int × Nat)) : Ran :=
  match takeRows k src sbase rows with
  | .error e => stopped k 0 e
  | .ok xs =>
    match landRows k ctx dst dbase xs with
    | .ok k => .done k 0
    | .error e => stopped k 0 e

/-! ## Mode 2, the sparse-row walk (R179) -/

/-- The row pointers never decrease. -/
def rising : List Nat → Bool
  | a :: b :: l => a ≤ b && rising (b :: l)
  | _ => true

/-- 32-bit values of bytes. -/
def words32 (bs : List Byte) (n : Nat) : List Nat := (List.range n).map fun i => fieldOf bs (4 * i) 4

/-- An array of the sparse-row walk is read: its check by R151, and its bytes. One of which nothing is read is not accessed. -/
def takeArray (k : Kern) (ctx cap off n algn : Nat) : Except Stop Chunk :=
  if n == 0 then .ok { bytes := [], bad := [], soft := [], cost := 0 }
  else
    match checkPart k ctx cap off n algn 8 with
    | .error e => .error e
    | .ok _ => takeBytes k (.ob ctx cap) off n

/-- Mode 2: vbuf is the value buffer's address in the block's scratchpad. -/
def runSparse (k : Kern) (ctx cls : Nat) (src : Plane) (soff : Nat) (ibuf : Plane) (ioff rows cap : Nat) (vbuf : Plane)
    (voff esz : Nat) : Ran :=
  match interpret k ctx cls src soff 32 with
  | (k, .error e) => stopped k 0 e
  | (k, .ok h) =>
    let rp := fieldOf h 0 8
    let ci := fieldOf h 8 8
    let va := fieldOf h 16 8
    let row0 := fieldOf h 24 4
    if !zeroRange h 28 4 then .done k (statusWord 0x01 0 0)
    else
      let roff := capOff rp + 4 * row0
      match checkPart k ctx rp roff (4 * (rows + 1)) 4 8 with
      | .error e => stopped k 0 e
      | .ok _ =>
        match interpret k ctx cls (.ob ctx rp) roff (4 * (rows + 1)) with
        | (k, .error e) => stopped k 0 e
        | (k, .ok bs) =>
          let p := words32 bs (rows + 1)
          let p0 := p.headD 0
          let nnz := p.getLastD 0 - p0
          let w := 2 ^ esz
          if !rising p then .done k (statusWord 0x01 3 0)
          else if cap < nnz then .done k (statusWord 0x01 4 0)
          else
            match takeArray k ctx ci (capOff ci + 4 * p0) (4 * nnz) 4, takeArray k ctx va (capOff va + w * p0) (w * nnz) w with
            | .error e, _ => stopped k 0 e
            | _, .error e => stopped k 0 e
            | .ok cols, .ok vals =>
              let head : Chunk := { bytes := p.flatMap fun x => bytesOfNat 4 (x - p0), bad := [], soft := [], cost := 0 }
              match landRows k ctx ibuf ioff [(0, head), (((4 * (rows + 1) : Nat) : Int), cols)] with
              | .error e => stopped k 0 e
              | .ok k =>
                match landBytes k ctx vbuf voff vals with
                | .error e => stopped k 0 e
                | .ok k => .done k 0

/-! ## Mode 3, the layout chain (R180) -/

/-- The checks of one element: its address, its reserved bits, its extent, and the capabilities it holds. -/
def checkElement (k : Kern) (ctx off ext : Nat) (b : List Byte) : Except Stop Unit :=
  let srce := fieldOf b 0 8
  let doff := fieldOf b 8 4
  let len := fieldOf b 12 4
  let next := fieldOf b 16 8
  if off % 32 != 0 then .error (.fail 0x01 6)
  else if fieldOf b 24 1 / 32 % 2 != 0 || !zeroRange b 25 7 then .error (.fail 0x01 0)
  else if ext < doff + len then .error (.fail 0x04 1)
  else
    match checkPart k ctx srce (capOff srce) len 1 8 with
    | .error e => .error e
    | .ok _ => if next == 0 then .ok () else checkPart k ctx next (capOff next) 32 1 8

/-- The walk from an element, which is the done-th; fuel bounds the elements to 65,536. -/
def runChain (ctx cls : Nat) (dst : Plane) (dbase ext pred : Nat) : Nat → Kern → Nat → Nat → Nat → Ran
  | 0, k, _, _, done => .done k (statusWord 0x01 5 done)
  | fuel + 1, k, cap, off, done =>
    if off % 32 != 0 then .done k (statusWord 0x01 6 done)
    else
      match interpret k ctx cls (.ob ctx cap) off 32 with
      | (k, .error e) => stopped k done e
      | (k, .ok b) =>
        match checkElement k ctx off ext b with
        | .error e => stopped k done e
        | .ok _ =>
          let flags := fieldOf b 24 1
          let next := fieldOf b 16 8
          let skip := flags.testBit 7 && pred.testBit (flags % 32) == flags.testBit 6
          let go (k : Kern) : Ran :=
            if next == 0 then .done k 0 else runChain ctx cls dst dbase ext pred fuel k next (capOff next) (done + 1)
          if skip then go k
          else
            let srce := fieldOf b 0 8
            match takeBytes k (.ob ctx srce) (capOff srce) (fieldOf b 12 4) with
            | .error e => stopped k done e
            | .ok x =>
              match landBytes (atRow k done) ctx dst (dbase + fieldOf b 8 4) x with
              | .error e => stopped k done e
              | .ok k => go k

/-! ## Mode 4, grain expansion (R319 to R323) -/

/-- The nibble of a code stream (R321). -/
def nibble (stream : List Byte) (j : Nat) : Nat := (stream.getD (j / 2) 0).toNat / (if j % 2 == 0 then 1 else 16) % 16

/-- Expand the codes j to 1,023 of a palette-coded tile; n codes are left. -/
def paletteTile (palette stream : List Byte) : Nat → Nat → List Byte → List Byte
  | 0, _, _ => []
  | n + 1, j, esc =>
    let code := nibble stream j
    if code == 15 then esc.headD 0 :: paletteTile palette stream n (j + 1) (esc.drop 1)
    else palette.getD code 0 :: paletteTile palette stream n (j + 1) esc

/-- The tile of a whole block that has passed checks 1 to 4, or the reason (R321, R322). b holds the 16 × LEN bytes. -/
def tileOf (mode p : Nat) (b : List Byte) : Except Nat (List Byte) :=
  let lim := b.length
  match mode with
  | 0 =>
    if lim < 8 + p + 512 then .error 2
    else
      let stream := (b.drop (8 + p)).take 512
      let e := ((List.range 1024).filter fun j => nibble stream j == 15).length
      if 512 - p < e then .error 3
      else if lim < 520 + p + e then .error 2
      else .ok (paletteTile ((b.drop 8).take p) stream 1024 0 (b.drop (520 + p)))
  | 1 => if lim < 1032 then .error 2 else .ok ((b.drop 8).take 1024)
  | _ => if lim < 8 then .error 2 else .ok (List.replicate 1024 0)

/-- Why a tile is not delivered. -/
inductive TileStop where
  | stop (e : Stop)
  | grain (sub block : Nat)
  deriving DecidableEq, Repr

/-- The header checks 2 to 4 of R322 but for the object's end: the reason, or the mode, palette size and length. -/
def grainHeader (h : Nat) : Except Nat (Nat × Nat × Nat) :=
  let mode := h / 2 ^ 55 % 4
  let psize := h / 2 ^ 50 % 32
  let len := h / 2 ^ 38 % 2 ^ 12
  if h / 2 ^ 60 != 0xA || mode == 3 || h % 2 ^ 38 != 0 || (mode != 0 && psize != 0) then .error 1
  else if 15 < psize then .error 4
  else if len == 0 then .error 2
  else .ok (mode, psize, len)

/-- Expand the tile whose index entry stands at an offset of a grain object (R319, R322, R323). -/
def expandTile (k : Kern) (ctx cls cap entry : Nat) : Kern × Except TileStop (List Byte) :=
  match checkPart k ctx cap entry 4 4 8 with
  | .error e => (k, .error (.stop e))
  | .ok _ =>
    match interpret k ctx cls (.ob ctx cap) entry 4 with
    | (k, .error e) => (k, .error (.stop e))
    | (k, .ok eb) =>
      let start := 16 * natOfBytes eb
      let size := ((getObj k ctx (capObj cap)).map (·.size)).getD 0
      let bad (k : Kern) (sub : Nat) : Kern × Except TileStop (List Byte) := (k, .error (.grain sub (capForm cap start)))
      if size < start + 8 then bad k 2
      else
        match interpret k ctx cls (.ob ctx cap) start 8 with
        | (k, .error e) => (k, .error (.stop e))
        | (k, .ok hb) =>
          match grainHeader (natOfBytes hb) with
          | .error sub => bad k sub
          | .ok (mode, psize, len) =>
            if size < start + 16 * len then bad k 2
            else
              match interpret k ctx cls (.ob ctx cap) (start + 8) (16 * len - 8) with
              | (k, .error e) => (k, .error (.stop e))
              | (k, .ok body) =>
                match tileOf mode psize (hb ++ body) with
                | .error sub => bad k sub
                | .ok tile => (k, .ok tile)

/-- Tiles t0 + done onward, n of them (R181). -/
def runGrain (ctx cls cap soff t0 : Nat) (dst : Plane) (dbase : Nat) : Nat → Kern → Nat → Ran
  | 0, k, _ => .done k 0
  | n + 1, k, done =>
    match expandTile k ctx cls cap (soff + 4 * (t0 + done)) with
    | (k, .error (.stop e)) => stopped k done e
    | (k, .error (.grain sub block)) => .malformed k sub done (t0 + done) block
    | (k, .ok tile) =>
      match landBytes (atRow k done) ctx dst (dbase + 1024 * done) { bytes := tile, bad := [], soft := [], cost := 0 } with
      | .error e => stopped k done e
      | .ok k => runGrain ctx cls cap soff t0 dst dbase n k (done + 1)

/-- The grain fault record (R323). -/
def grainLog (k : Kern) (ctx serial block tile sub origin core die pc : Nat) (cycle : W64) : Kern :=
  logRecord k ctx 1 serial cycle
    (bytesOfNat 8 block ++ bytesOfNat 4 tile ++
      [BitVec.ofNat 8 sub, BitVec.ofNat 8 (origin * 16 + ctx), BitVec.ofNat 8 core, BitVec.ofNat 8 die] ++
      bytesOfNat 8 pc ++ bytesOfNat 8 cycle.toNat)

/-! ## Gather walkers (R191, R192) -/

/-- Rows done onward, n of them. -/
def runGather (ctx : Nat) (scatter : Bool) (idx rows pack rb rstr : Nat) : Nat → Kern → Nat → Ran
  | 0, k, _ => .done k 0
  | n + 1, k, i =>
    match checkPart k ctx idx (capOff idx + 4 * i) 4 4 8 with
    | .error e => stopped k i e
    | .ok _ =>
      match interpret k ctx 0 (.ob ctx idx) (capOff idx + 4 * i) 4 with
      | (k, .error e) => stopped k i e
      | (k, .ok b) =>
        let ro := capOff rows + natOfBytes b * rstr
        let po := capOff pack + i * rb
        match checkPart k ctx pack po rb 1 (if scatter then 8 else 4), checkPart k ctx rows ro rb 1 (if scatter then 4 else 8) with
        | .error e, _ => stopped k i e
        | _, .error e => stopped k i e
        | .ok _, .ok _ =>
          let src := if scatter then (Plane.ob ctx pack, po) else (Plane.ob ctx rows, ro)
          let dst := if scatter then (Plane.ob ctx rows, ro) else (Plane.ob ctx pack, po)
          match takeBytes k src.1 src.2 rb with
          | .error e => stopped k i e
          | .ok x =>
            match landBytes (atRow k i) ctx dst.1 dst.2 x with
            | .error e => stopped k i e
            | .ok k => runGather ctx scatter idx rows pack rb rstr n k (i + 1)

end Sys2Proof.Machine
end

