-- ==== Sys2Proof/Machine/Roster.lean ====
section
/-! DEFINITION. Publishing a step (10 R283, R288; 07 R221), the roster of a virtualised brick (R292 to R296) with its
safe-point lookup (01 R52 to R55), and the truss of a field (R297, R298). -/

namespace Sys2Proof.Machine

/-! ## Safe points (R53 to R55) -/

/-- Bytes of the side-table object (R52), read as any other access is (R55): what it charges, and the bytes, or the trap or the park
that it meets (R151, R152). -/
def sideRead (k : Kern) (l : Launch) (off n : Nat) : Kern × Except Course (List Byte) :=
  match checkObj k l.ctx (recSide l) off n 1 needRead with
  | .error e => (k, .error (.trap e.1 0 e.2))
  | .ok ea =>
    match objRuns k l.ctx (capObj (recSide l)) ea n with
    | .error e => (k, .error (.park (capForm (recSide l) e.1) e.2))
    | .ok rs =>
      match readTrap k l.ctx (recClass l) rs with
      | (k, .ok bs) => (k, .ok bs)
      | (k, .error h) => (k, .error (.trap (poisonCause (recClass l) h.2) 0 (capForm (recSide l) (ea + h.1))))

/-- The first safe-point entry of a program counter among n entries from entry i. -/
def findSafe (l : Launch) (tbl pc : Nat) : Kern → Nat → Nat → Kern × Except Course (Option (List Byte))
  | k, _, 0 => (k, .ok none)
  | k, i, n + 1 =>
    match sideRead k l (tbl + 16 * i) 16 with
    | (k, .error e) => (k, .error e)
    | (k, .ok e) => if fieldOf e 8 8 == pc then (k, .ok (some e)) else findSafe l tbl pc k (i + 1) n

/-- The live mask at an index of the live-mask table (R54). -/
def readMask (k : Kern) (l : Launch) (i : Nat) : Kern × Except Course Nat :=
  match sideRead k l 0 32 with
  | (k, .error e) => (k, .error e)
  | (k, .ok h) =>
    let r := sideRead k l (fieldOf h 20 4 + 32 * i) 32
    (r.1, r.2.map natOfBytes)

/-- The live mask at an index; every register where the table cannot be read. -/
def liveMask (k : Kern) (l : Launch) (i : Nat) : Nat :=
  match (readMask k l i).2 with
  | .ok m => m
  | .error _ => 2 ^ 248 - 1

/-- An entry is valid and of KIND 0x01 (R53, R54): count is the live-mask count, m the mask it names. -/
def stepEntry (e : List Byte) (count m : Nat) : Bool :=
  fieldOf e 5 1 == 1 && fieldOf e 6 2 < count && fieldOf e 4 1 == popCount 248 m && m / 2 ^ 248 == 0 && zeroRange e 0 4

/-- The live-mask index of the valid KIND 0x01 entry of a program counter, none where there is none (R53, R55), or the trap or the
park of the lookup. -/
def safePoint (k : Kern) (l : Launch) (pc : Nat) : Kern × Except Course (Option Nat) :=
  match sideRead k l 0 32 with
  | (k, .error e) => (k, .error e)
  | (k, .ok h) =>
    match findSafe l (fieldOf h 12 4) pc k 0 (fieldOf h 8 4) with
    | (k, .error e) => (k, .error e)
    | (k, .ok none) => (k, .ok none)
    | (k, .ok (some e)) =>
      if fieldOf h 16 4 ≤ fieldOf e 6 2 then (k, .ok none)
      else
        match readMask k l (fieldOf e 6 2) with
        | (k, .error x) => (k, .error x)
        | (k, .ok m) => (k, .ok (if stepEntry e (fieldOf h 16 4) m then some (fieldOf e 6 2) else none))

/-! ## Cell frames (R293) -/

/-- Predicates as bits. -/
def predNat (p : List Bool) : Nat := ((List.range 7).map fun i => if p.getD i false then 2 ^ i else 0).foldl (· + ·) 0

/-- The first 96 bytes of a cell frame. -/
def frameHead (t : Thread) (pc sigma mask : Nat) : List Byte :=
  let z := t.settle
  bytesOfNat 8 pc ++ bytesOfNat 8 sigma ++ bytesOfNat 8 z.sig.toNat ++ bytesOfNat 4 z.tol.toNat ++ bytesOfNat 2 z.cap.toNat ++
    [BitVec.ofNat 8 ((if z.mixed then 4 else 0) + (if z.cold then 2 else 0) + (if z.opened then 1 else 0)),
      BitVec.ofNat 8 (predNat t.regs.p)] ++
    bytesOfNat 4 t.regs.fflags.toNat ++ bytesOfNat 4 z.truss.toNat ++ bytesOfNat 8 z.sopen.toNat ++ bytesOfNat 2 mask ++
    List.replicate 14 0 ++ t.regs.k.flatMap fun x => bytesOfNat 4 x.toNat

/-- Write the live registers of a thread to a frame (R54). -/
def saveLive (k : Kern) (at_ : Nat) (v : List W32) (mask : Nat) : Nat → Kern
  | 0 => k
  | n + 1 =>
    let k := saveLive k at_ v mask n
    if mask.testBit n then putBytes k (at_ + 96 + 4 * n) (bytesOfNat 4 (v.getD n 0).toNat) else k

/-- The thread with what a frame holds (R294): the registers that its mask does not name, and those at or above the allocation
(R54), are zero. A cell that is not resident is never in trap state (R295). -/
def loadFrame (k : Kern) (at_ mask regs : Nat) (t : Thread) : Thread :=
  let b := getBytes k at_ 96
  let bits := fieldOf b 30 1
  let preds := fieldOf b 31 1
  { t with
    regs := { v := (List.range t.regs.v.length).map fun i =>
                if i < regs && mask.testBit i then BitVec.ofNat 32 (getNat k (at_ + 96 + 4 * i) 4) else 0,
              k := (List.range 8).map fun i => BitVec.ofNat 32 (fieldOf b (64 + 4 * i) 4),
              p := (List.range 7).map fun i => preds.testBit i,
              fflags := BitVec.ofNat 5 (fieldOf b 32 4) },
    settle := { sig := BitVec.ofNat 64 (fieldOf b 16 8), tol := BitVec.ofNat 32 (fieldOf b 24 4),
                cap := BitVec.ofNat 16 (fieldOf b 28 2), sopen := BitVec.ofNat 64 (fieldOf b 40 8),
                opened := bits.testBit 0, mixed := bits.testBit 2, cold := bits.testBit 1,
                truss := BitVec.ofNat 32 (fieldOf b 36 4) },
    marks := List.replicate 16 false, tstate := false }

/-- The live non-resident cell with the least σ, on a tie the lowest brick index (R294). -/
def leastAway (k : Kern) (c : Nat) (r : XRegion) (l : Launch) : Option (Nat × Nat) :=
  (minBy (fun b => getNat k (frameAt c r l b + 8) 8 * 2 ^ 16 + b) r.away).map fun b => (b, getNat k (frameAt c r l b + 8) 8)

/-- Admit a non-resident cell to the position of a thread (R294): the state and the program counter it resumes at. -/
def admitCell (k : Kern) (c : Nat) (t : Thread) (r : XRegion) (l : Launch) (b : Nat) : Kern × Nat :=
  let at_ := frameAt c r l b
  let index := getNat k (at_ + 48) 2
  let mask := liveMask k l index
  let sigma := getBytes k (at_ + 8) 8
  let k' := modThis (readMask k l index).1 c t fun u => { loadFrame k at_ mask (recRegs l) u with cell := some b }
  let k' := putBytes k' (recordAt c r b + 144) sigma
  (modRegion k' c r.launch fun x => { x with away := x.away.filter (· != b) }, getNat k at_ 8)

/-- Save a cell that yields and admit the least one (R294). -/
def rotateCell (k : Kern) (c : Nat) (t : Thread) (r : XRegion) (l : Launch) (b mask pc a : Nat) : Kern × Nat :=
  let k := flushHeld k c t fun _ => true
  let t := nowThread k c t
  let at_ := frameAt c r l b
  let k := putBytes k at_ (frameHead t pc (sigmaAt k (recordAt c r b)) mask)
  let k := saveLive k at_ t.regs.v (liveMask k l mask) (recRegs l)
  let k := modRegion k c r.launch fun x => { x with away := x.away ++ [b] }
  admitCell k c t r l a

/-- The live mask that the frame of a cell names can be read: the object cache holds the side table, and its frames are placed
(R55). -/
def maskReadable (k : Kern) (c : Nat) (r : XRegion) (l : Launch) (b : Nat) : Bool :=
  objCached k c l.ctx (capObj (recSide l)) &&
    match (readMask k l (getNat k (frameAt c r l b + 48) 2)).2 with
    | .error (.park _ _) => false
    | _ => true

/-- A result on its way to the registers of a thread has not arrived (R294). -/
def resultsPending (k : Kern) (c : Nat) (t : Thread) : Bool := (nowThread k c t).held.any fun h => !h.arrived

/-! ## Publishing (R283, R288) -/

/-- The faces of the publication of the step that ends: the staged ones over the current bank (R283). -/
def newFaces (k : Kern) (at_ : Nat) (t : Thread) : List W32 :=
  let cur := at_ + 64 * currentBank k at_
  (List.range 16).map fun i =>
    if t.marks.getD i false then t.stage.getD i 0 else BitVec.ofNat 32 (getNat k (cur + 4 * i) 4)

/-- PUBLISH (R283) with its notices (R288). A publication of STEP.R, and one behind it, is not readable yet (R221). -/
def publish (k : Kern) (c : Nat) (t : Thread) (l : Launch) (r : XRegion) (b : Nat) (release : Bool) : Kern :=
  let at_ := recordAt c r b
  let sigma := sigmaAt k at_
  let wrote := t.marks.any (· == true)
  let faces := newFaces k at_ t
  let held := release || r.unready.any fun u => u.cell == b
  let bank := 1 - currentBank k at_
  let k := if wrote then
      putBytes (putBytes k (at_ + 64 * bank) (faces.flatMap fun x => bytesOfNat 4 x.toNat)) (at_ + 128 + 8 * bank)
        (bytesOfNat 8 sigma)
    else k
  let k := putBytes k (at_ + 144) (bytesOfNat 8 (sigma + 1))
  let k := modThis k c t fun u => { u with marks := List.replicate 16 false }
  let waits : Unready :=
    { cell := b, step := sigma, before := if release then k.id else 0, block := t.block, fence := if release then t.fence else 0 }
  let k := if held then modRegion k c r.launch fun x => { x with unready := x.unready ++ [waits] } else k
  let k := if release && readersApart l r.brick b r.virt then
      modRegion k c r.launch fun x => { x with released := x.released ++ [(b, sigma)] }
    else k
  notifyCell k c l r.launch (linear l (cellAt l r.brick b)) (if wrote then 0 else 1) sigma (if wrote then faces else []) release
    held

/-! ## The truss (R297) -/

/-- The empty channels of a step. -/
def TrussStep.empty : TrussStep := { sigs := [], settled := 0, ended := 0, maxabs := [], sumsq := [], complete := false }

/-- A field that has begun (R282, R298): PREV is undefined. DESIGN CHOICE: log entry 90. -/
def Field.start : Field := { prev := none, steps := [], pending := [], remoteEnded := 0, colds := [] }

/-- The truss entry of a step. -/
def trussStep (f : Field) (t : Nat) : TrussStep := (mget f.steps t).getD .empty

/-- Change the truss entry of a step of a field. -/
def modTruss (k : Kern) (serial t : Nat) (f : TrussStep → TrussStep) : Kern :=
  let fld := (mget k.fields serial).getD .start
  { k with fields := mset k.fields serial { fld with steps := mset fld.steps t (f (trussStep fld t)) } }

/-- The step counters of the live cells of a field on a core. -/
def liveSigmas (k : Kern) (c : Nat) (r : XRegion) : List Nat :=
  ((List.range r.nc).filter fun b => !r.gone.contains b).map fun b => sigmaAt k (recordAt c r b)

/-- Every live cell of the field has σ at least n (R297): those of this device, which the field's placement brings, and those of the
others as far as they have reported. -/
def fieldReached (k : Kern) (serial n : Nat) : Bool :=
  (k.cores.all fun p => p.2.xr.all fun r => r.launch != serial || (liveSigmas k p.1 r).all fun s => n ≤ s) &&
    match mget k.launches serial, mget k.fields serial with
    | some l, some f => l.placed && (l.bricks.length == brickCount l || n ≤ f.remoteEnded)
    | _, _ => true

/-- A brick of each other device that holds part of a field (R345). -/
def otherBricks (l : Launch) : List Nat :=
  (l.others.foldl (fun acc p => if acc.any fun q => q.2 == p.2 then acc else acc ++ [p]) []).map (·.1)

/-- A contribution to the truss is told to every other device of the field (R297, R388). -/
def shareTruss (k : Kern) (serial kind step : Nat) (vals : List W32) : Kern :=
  match mget k.launches serial with
  | none => k
  | some l => (otherBricks l).foldl (fun k b => sendNotice k serial 0 (2 ^ 20 + b) kind step vals false false) k

/-- A cell ends a step with STEP (R221): its contribution closes. -/
def endStep (k : Kern) (serial sigma : Nat) : Kern :=
  shareTruss (modTruss k serial sigma fun x => { x with ended := x.ended + 1 }) serial 3 sigma []

/-- A decision for a step is pending (R298). -/
def awaitDecision (k : Kern) (serial sigma : Nat) : Kern :=
  let fld := (mget k.fields serial).getD .start
  { k with fields := mset k.fields serial { fld with pending := addOnce fld.pending sigma } }

/-- A signature counts towards a step (R224, R298). -/
def addSignature (sig : W64) (x : TrussStep) : TrussStep :=
  { x with ended := x.ended + 1, settled := x.settled + 1, sigs := x.sigs ++ [sig] }

/-- A residual counts towards a step (R226). -/
def addResidual (sumsq : Bool) (a : W32) (x : TrussStep) : TrussStep :=
  if sumsq then { x with sumsq := x.sumsq ++ [a] } else { x with maxabs := x.maxabs ++ [a &&& 0x7FFFFFFF] }

/-- A cell ends a step with SETTLE (R224): its signature counts, and a decision is pending (R298). -/
def endSettle (k : Kern) (serial sigma : Nat) (sig : W64) : Kern :=
  shareTruss (awaitDecision (modTruss k serial sigma (addSignature sig)) serial sigma) serial 4 sigma
    [sig.setWidth 32, (sig >>> 32).setWidth 32]

/-- A contribution of a cell of another device (R297, R298). DESIGN CHOICE: log entry 89. -/
def takeContribution (k : Kern) (n : Notice) : Kern :=
  match n.kind, n.faces with
  | 3, _ => modTruss k n.launch n.step fun x => { x with ended := x.ended + 1 }
  | 4, [lo, hi] =>
    awaitDecision (modTruss k n.launch n.step (addSignature (hi.setWidth 64 <<< 32 ||| lo.setWidth 64))) n.launch n.step
  | 5, [a] => modTruss k n.launch n.step (addResidual false a)
  | 6, [a] => modTruss k n.launch n.step (addResidual true a)
  | _, _ => k

/-- The truss has room for a contribution of step σ (R297): every live cell has σ at least σ − 2. -/
def trussRoom (k : Kern) (serial sigma : Nat) : Bool := fieldReached k serial (sigma - 2)

/-- A decision for an earlier step is pending (R298). -/
def earlierDecision (k : Kern) (serial sigma : Nat) : Bool :=
  match mget k.fields serial with
  | some f => f.pending.any fun t => t < sigma
  | none => false

/-! ## Exit (R143, R286, R295) -/

/-- EXIT of a thread: a cell of a virtualised brick hands its position to a non-resident cell, whose live mask is read first, as any
access is (R55, R295); every other thread ends. -/
def exitThread (k : Kern) (c : Nat) (t : Thread) : Kern × Course :=
  match cellPlace k c t with
  | none => (endThread k c t .exited, .gone)
  | some (l, r, b) =>
    match leastAway k c r l with
    | none => (endThread (exitCell (discardResults k c t) c l r b) c t .exited, .gone)
    | some (a, _) =>
      match readMask k l (getNat k (frameAt c r l a + 48) 2) with
      | (k, .error x) => (k, x)
      | (_, .ok _) =>
        let x := admitCell (exitCell (discardResults k c t) c l r b) c t r l a
        (x.1, .to x.2)

end Sys2Proof.Machine
end

