-- ==== Sys2Proof/Machine/Units.lean ====
section
/-! DEFINITION. What the readiness of an instruction asks of the units: algebra tables (03 R91 to R94), places, jigs, the
bed, accumulators and the launch of an MX (07 R200 to R211), and the open solve of a cell (07 R227). -/

namespace Sys2Proof.Machine

/-! ## Tables (R91 to R94) -/

/-- An algebra table: the component count, the conjugation signs, the norm signature and the structure constants, as the
numbers that the object holds. -/
structure Table where
  comps : Nat
  conj : Nat
  nsig : Nat
  gamma : Nat
  deriving DecidableEq, Repr

/-- Table 0, the reals (R94). -/
def Table.reals : Table := { comps := 1, conj := 0, nsig := 1, gamma := 1 }

/-- The value of a two-bit code (R92, R93). -/
def codeSign (x : Nat) : Int := if x == 1 then 1 else if x == 3 then -1 else 0

/-- γ(i, j, k) (R93). -/
def Table.const (t : Table) (i j k : Nat) : Int := codeSign (t.gamma / 2 ^ (2 * ((i * t.comps + j) * t.comps + k)) % 4)

/-- The weight of a component in the norm (R92). -/
def Table.weight (t : Table) (i : Nat) : Int := codeSign (t.nsig / 2 ^ (2 * i) % 4)

/-- A table of 256 bytes (R91). -/
def tableOfBytes (b : List Byte) : Table :=
  { comps := fieldOf b 4 1, conj := fieldOf b 5 1, nsig := fieldOf b 6 2, gamma := fieldOf b 16 128 }

/-- A table of a launch; one with no component where the launch binds none. -/
def tableOf (l : Launch) (i : Nat) : Table := if i == 0 then .reals else tableOfBytes (l.tables.getD i [])

/-- The table that operand C selects (R218). -/
def selectedTable (l : Launch) : Opnd → Table
  | .fs i => tableOf l (fsAlg (recFs l i.val))
  | _ => tableOf l 1

/-! ## Places (R201) -/

/-- The accesses that come before the thread's next one at once have been performed: its acquires, and what a barrier or a
meeting ordered before it, in the write-combining buffer too (R145, R159, R230). -/
def orderFree (core : Core) (t : Thread) : Bool :=
  !acquiring core t && !(core.reqs.any fun q => q.block == t.block && q.id < t.fence) && !blockStores core t.block t.fence

/-- The place can be accessed: the thread's requests have been performed, and what comes before its next access; no copy holds
the range back, and its bank is awake, or the port lets the access out (R371). -/
def placeFree (k : Kern) (c : Nat) (t : Thread) (place size : Nat) (writes : Bool) : Bool :=
  let core := coreOf k c
  !core.reqs.any (reqOf t) && orderFree core t &&
    match blockOf k c t.block with
    | none => true
    | some blk =>
      match placeSpot k c blk place size 1 0 with
      | .error _ => true
      | .ok p => if p.space == .ob then portOpen core blk.ctx size else scoreboardFree k c t p size writes && !core.banksWaking

/-! ## Jigs (R203, R204) -/

/-- The jig of a block. -/
def jigOf (blk : Block) (j : Nat) : Jig := blk.jigs.getD j { desc := [], base := 0, i2 := 0, i3 := 0, valid := false }

/-- Change a jig. -/
def modJig (k : Kern) (c b j : Nat) (f : Jig → Jig) : Kern := modBlock k c b fun blk => { blk with jigs := lmod blk.jigs j f }

/-- Bytes of an element (R203). -/
def elementBytes (fmt : Nat) : Nat := if fmt ≤ 4 then 1 else if fmt ≤ 7 then 2 else 4

/-- The format slot of a descriptor. -/
def descSlot (d : List Byte) : Nat := fieldOf d 0 4 % 8

/-- A launched, uncommitted MX of a block names the jig. -/
def jigBusy (core : Core) (b j : Nat) : Bool := core.mxq.any fun m => m.block == b && m.x.jg.val == j

/-! ## The bed (R80, R202, R206) -/

/-- A cleared, idle macro (R206). -/
def Bed.clear : Bed := { cells := [], exps := [], special := [], tag := .cleared, load := .idle }

/-- The macros of a range. -/
def bedRange (x : XForm) : List Nat := (List.range (x.bdn.val + 1)).map fun i => x.bdb.val + i

/-- A macro of a block. -/
def bedOf (blk : Block) (i : Nat) : Bed := blk.beds.getD i .clear

/-- The range lies in the block's allotment (R202). -/
def bedAllotted (blk : Block) (x : XForm) : Bool := x.bdb.val + x.bdn.val < blk.beds.length

/-- Change the macros of a range. -/
def modBeds (k : Kern) (c b lo n : Nat) (f : Nat → Bed → Bed) : Kern :=
  modBlock k c b fun blk => (List.range n).foldl (fun blk i => { blk with beds := lmod blk.beds (lo + i) (f i) }) blk

/-- Some macro of the range is busy. -/
def bedBusy (blk : Block) (x : XForm) : Bool := (bedRange x).any fun i => (bedOf blk i).load == .busy

/-- A launched, uncommitted MX names a macro of the range. -/
def bedInUse (core : Core) (b : Nat) (x : XForm) : Bool :=
  core.mxq.any fun m => m.block == b && overlaps x.bdb.val (x.bdb.val + x.bdn.val + 1) m.x.bdb.val (m.x.bdb.val + m.x.bdn.val + 1)

/-- The shape of an operation (R80). -/
structure Shape where
  comps : Nat
  pb : Nat
  mc : Nat
  depth : Nat
  cols : Nat
  deriving DecidableEq, Repr

/-- The shape of u macros under a slot of a launch. -/
def shapeOf (l : Launch) (slot : W64) (u : Nat) : Shape :=
  let c := (tableOf l (fsAlg slot)).comps
  let mc := if c == 0 then 0 else u / c
  { comps := c, pb := fsPb slot, mc := mc, depth := (if fsPb slot == 16 then 64 else 128) * mc, cols := if c == 0 then 0 else 128 / c }

/-- The slot and the range break R80, or the slot holds no format (R75). -/
def shapeIllegal (l : Launch) (slot : W64) (u : Nat) : Bool :=
  let h := shapeOf l slot u
  fsFmt slot == 0 || h.comps == 0 || u % h.comps != 0 || (h.pb == 16 && h.mc % 2 == 1)

/-! ## Accumulators and MX (R209 to R211) -/

/-- An accumulator at block start. -/
def Acc.clear : Acc := { tile := [], version := 0, flags := 0 }

/-- An accumulator of a block. -/
def accOf (blk : Block) (a : Nat) : Acc := blk.accs.getD a .clear

/-- Change an accumulator. -/
def modAcc (k : Kern) (c b a : Nat) (f : Acc → Acc) : Kern := modBlock k c b fun blk => { blk with accs := lmod blk.accs a f }

/-- The accumulator is allotted to the block (R38). -/
def accAllotted (blk : Block) (x : XForm) : Bool := x.acc.val < blk.accs.length

/-- A launched, uncommitted MX of a block names the accumulator. -/
def accBusy (core : Core) (b a : Nat) : Bool := core.mxq.any fun m => m.block == b && m.x.acc.val == a

/-- The version that an instruction expects (R210). -/
def expectedVersion (k : Kern) (c : Nat) (t : Thread) (x : XForm) : BitVec 16 :=
  if x.vsrc then BitVec.ofNat 16 (readLow k c t x.a) else x.ver

/-- A version is at or past v (R209). -/
def atOrPast (version v : BitVec 16) : Bool := (version - v).toNat < 2 ^ 15

/-- Some macro of the range carries the tag of the other width (R83). DEDUCED: log entry 32. -/
def tagMismatch (blk : Block) (l : Launch) (x : XForm) : Bool :=
  let tag : BedTag := if fsPb (recFs l x.fsi.val) == 16 then .w16 else .w8
  (bedRange x).any fun i => (bedOf blk i).load != .busy && (bedOf blk i).tag != .cleared && (bedOf blk i).tag != tag

/-- The cause and subcode of the first failed macro of the range (R208). -/
def bedFailure (blk : Block) (x : XForm) : Option (Nat × Nat) :=
  (bedRange x).findSome? fun i => match (bedOf blk i).load with | .failed cause sub => some (cause, sub) | _ => none

/-- What an MX raises at issue (R80, R83, R202, R208, R211): cause and subcode. A shape that R80 refuses comes before an object
outside the allotment, and that before the jig and the tags. DESIGN CHOICE: log entry 101. -/
def mxTrap (blk : Block) (l : Launch) (x : XForm) : Option (Nat × Nat) :=
  let slot := recFs l x.fsi.val
  let j := jigOf blk x.jg.val
  if shapeIllegal l slot (x.bdn.val + 1) || ((tableOf l (fsAlg slot)).comps == 1 && (x.side || x.cja || x.cjb)) then some (0x01, 0)
  else if !accAllotted blk x || !bedAllotted blk x then some (0x05, 0)
  else if tagMismatch blk l x || !j.valid || descSlot j.desc != x.fsi.val then some (0x01, 0)
  else bedFailure blk x

/-- LAUNCHABLE (R211). -/
def launchable (core : Core) (blk : Block) (b : Nat) (x : XForm) (expected : BitVec 16) : Bool :=
  (accOf blk x.acc.val).version == expected && !accBusy core b x.acc.val && !bedBusy blk x && core.mxq.length < 8

/-! ## Settling (R227) -/

/-- STEST has a solve whose first step has ended (R227). -/
def solveOpen (t : Thread) (sigma : Nat) : Bool := t.settle.opened && sigma != t.settle.sopen.toNat

end Sys2Proof.Machine
end

