-- ==== Sys2Proof/Machine/Ready.lean ====
section
/-! DEFINITION. When an entry can issue (R266): the issue in hand, the readiness that every instruction shares and that of
each instruction's own entry, what is illegal in a thread (R37, R48), and the other checks of R48. -/

namespace Sys2Proof.Machine

/-- The guard of an instruction word (R21). -/
def guardOf : Instr → Guard
  | .nop x | .add x | .sub x | .mul x | .mulhi x | .mad x | .div x | .rem x | .min x | .max x | .abs x | .neg x
  | .addc x | .subb x | .sad x | .addi x | .muli x | .andi x | .ori x | .xori x | .shli x | .shri x | .sari x
  | .movi x | .cmpi x | .and x | .or x | .xor x | .not x | .shl x | .shr x | .sar x | .rot x | .popc x | .clz x
  | .bfx x | .bfi x | .sel x | .cmp x | .mov x | .lea x | .fadd x | .fsub x | .fmul x | .fma x | .fdiv x
  | .fsqrt x | .fmin x | .fmax x | .fcmp x | .fclass x | .frcp x | .frsq x | .cvt _ x | .frnd x | .fsgn x
  | .plog x | .pset x | .shfl x | .vote x | .gred x | .bcast x | .gscan x | .lmask x | .ld x | .st x | .ldx _ x
  | .stx _ x | .atom _ x | .red _ x | .cas x | .fence x | .lcinv x | .lcinvAll x | .wcdrain x | .wcdrainAll x
  | .validSet x | .validClr x | .validGet x | .pref x | .capder x | .capadd x | .capq x | .copy x | .copyq x
  | .tlwait x | .tlrd x | .tlrdIssued x | .jig x | .jigSt x | .jigLd x | .mx x | .mxSet x | .accz x | .accld x
  | .accst x | .accstNow x | .accmov _ x | .accver x | .accverNow x | .bedld x | .bedldGrain x | .bedclr x
  | .qmul x | .qconj x | .qnorm x | .fwr x | .step x | .stepR x | .nq x | .settle x | .resid x | .stest x
  | .bar x | .bararr x | .barwt x | .meet x | .peg x | .pegDef x | .postCore x | .postNbr x | .postBay x
  | .yield x | .bra x | .jmpi x | .call x | .calli x | .ret x | .exit x | .trap x | .tret x | .brk x | .srd x
  | .swr x | .grow x | .shrink x | .evwait x | .ilinv x | .ilinvAll x | .sampleOn x | .sampleOff x => x.g
  | _ => { neg := false, p := 7 }

/-! ## What the instruction's own entry asks (R265, R266) -/

/-- The threads of a thread's entry whose guard is true. -/
def issuers (core : Core) (t : Thread) (g : Guard) : Nat := (core.threads.filter fun u => u.loc == t.loc && guardTrue u g).length

/-- A range of the scratchpad or the exchange region can be accessed: no copy holds it back (R184) and its bank is awake
(R303). -/
def padFree (k : Kern) (c : Nat) (t : Thread) (p : Spot) (size : Nat) (writes : Bool) : Bool :=
  p.space == .ob || (scoreboardFree k c t p size writes && !(coreOf k c).banksWaking)

/-- The object of a number has a remote home. -/
def remoteObjOf (k : Kern) (c : Nat) (t : Thread) (o : Nat) : Bool := ((getObj k (ctxOf k c t) o).map (·.home)) == some .remote

/-- A load of an HBM object whose line would fill a way that is waking stalls (R313). -/
def fillStalls (k : Kern) (c ctx : Nat) (x : MForm) (p : Spot) : Bool :=
  let core := coreOf k c
  cachedSpot k ctx p && !x.na && !(x.acq && wideScope x.sc) && (cachedLine core ctx (capObj p.cap) (p.ea / 64)).isNone &&
    needsWaking core ctx (capObj p.cap) (p.ea / 64)

/-- PREF can issue: its fill needs no waking way (R313), and the port lets it out (R371). -/
def prefFree (k : Kern) (c : Nat) (t : Thread) (x : MForm) : Bool :=
  match spotOf k c t x true 1 1 8 with
  | .error _ => true
  | .ok p => !fillStalls k c (ctxOf k c t) x p && (p.space != .ob || portOpen (coreOf k c) (ctxOf k c t) 64)

/-- A load, store or atomic can issue (R154, R157, R159, R184, R303, R313); combines marks a store, which gathers when it is
relaxed and remote, loads a load. -/
def accessFree (k : Kern) (c : Nat) (t : Thread) (g : Guard) (x : MForm) (useIdx : Bool) (size : Nat)
    (writes combines loads : Bool) : Bool :=
  let core := coreOf k c
  let n := issuers core t g
  outstanding core + n ≤ 1024 &&
    match spotOf k c t x useIdx size 1 0 with
    | .error _ => true
    | .ok p =>
      if p.space == .ob then
        (!(combines && !x.rel && remoteSpot k (ctxOf k c t) p) ||
          (orderFree core t && storeRoom core (ctxOf k c t) (capObj p.cap) p.ea n)) &&
          !(loads && fillStalls k c (ctxOf k c t) x p)
      else orderFree core t && padFree k c t p size writes && (!x.rel || allPerformed core t)

/-- VALID can issue: it waits as a store does (R169). -/
def validFree (k : Kern) (c : Nat) (t : Thread) (x : MForm) (size : Nat) : Bool :=
  match spotOf k c t x true 4 1 0 with
  | .error _ => true
  | .ok p => orderFree (coreOf k c) t && padFree k c t p size true

/-- COPYQ can issue: every earlier access has been performed, and its image can be read (R188). -/
def copyqFree (k : Kern) (c : Nat) (t : Thread) (x : MForm) : Bool :=
  allPerformed (coreOf k c) t && orderFree (coreOf k c) t &&
    padFree k c t { space := .sp, cap := 0, ea := readLow k c t x.idx } 64 false &&
    (remoteObjOf k c t (capObj (readBase k c t x)) || portOpen (coreOf k c) (ctxOf k c t) 8)

/-- An operation of a block and its launch is ready, or has none. -/
def inBlock (k : Kern) (c : Nat) (t : Thread) (f : Block → Launch → Bool) : Bool :=
  match blockOf k c t.block, threadLaunch k c t with
  | some blk, some l => f blk l
  | _, _ => true

/-- An unpegged MX launches when it is launchable, or raises its trap at once; a pegged one waits inside (R211). -/
def mxReady (k : Kern) (c : Nat) (t : Thread) (x : XForm) : Bool :=
  x.pge || inBlock k c t fun blk l =>
    (mxTrap blk l x).isSome || launchable (coreOf k c) blk t.block x (expectedVersion k c t x)

/-- An accumulator operation: an accumulator that is not allotted raises its trap at once. -/
def accReady (k : Kern) (c : Nat) (t : Thread) (x : XForm) (f : Acc → Bool) : Bool :=
  inBlock k c t fun blk _ => !accAllotted blk x || f (accOf blk x.acc.val)

/-- BEDLD and BEDCLR wait for the macros and for the MXs that name them (R207, R208). -/
def bedReady (k : Kern) (c : Nat) (t : Thread) (x : XForm) : Bool :=
  inBlock k c t fun blk _ => !bedAllotted blk x || (!bedBusy blk x && !bedInUse (coreOf k c) t.block x)

/-- The object of a place, where it is one. -/
def placeObj (place : Nat) : List Nat := if place / 2 ^ 40 == 0 then [] else [capObj place]

/-- The thread's cell lives in a virtualised brick. -/
def inVirtual (k : Kern) (c : Nat) (t : Thread) : Bool :=
  match cellPlace k c t with
  | some (_, r, _) => r.virt
  | none => false

/-- The objects that an instruction uses through the core's object cache (R55, R314). -/
def usedObjs (k : Kern) (c : Nat) (t : Thread) : Instr → List Nat
  | .ld x | .st x | .ldx _ x | .stx _ x | .atom _ x | .red _ x | .cas x | .lcinv x | .wcdrain x | .pref x | .copyq x =>
    if x.sp == .ob then [capObj (readBase k c t x)] else []
  | .copy x =>
    (if x.sp == .ob then [capObj (readBase k c t x)] else []) ++
      if (readAt k c t x.idx 2).toNat / 2 ^ 26 % 4 == 1 then
        [capObj ((readAt k c t x.idx 0).toNat + (readAt k c t x.idx 1).toNat * 2 ^ 32)]
      else []
  | .capder x | .capadd x | .capq x => [capObj (readPair k c t x.a)]
  | .jig x => placeObj (readPair k c t x.a) ++ placeObj (readPair k c t x.d)
  | .jigSt x | .jigLd x | .accld x | .accst x | .accstNow x | .bedld x | .bedldGrain x => placeObj (readPair k c t x.d)
  | .sampleOn x => placeObj (readPair k c t x.a)
  | .step _ | .stepR _ | .settle _ | .exit _ =>
    if inVirtual k c t then ((threadLaunch k c t).map fun l => [capObj (recSide l)]).getD [] else []
  | _ => []

/-- An object has been fetched for the issue of a thread's entry, be it replaced in the cache since (R314). -/
def filledFor (core : Core) (t : Thread) (x : Nat × Nat) : Bool :=
  match t.loc with
  | .entry e => ((mget core.entries e).map fun y => y.filled.contains x).getD false
  | _ => false

/-- The objects that an instruction uses are in the object cache, or have been fetched for the issue (R314).
DESIGN CHOICE: log entry 124. -/
def objsCached (k : Kern) (c : Nat) (t : Thread) (i : Instr) : Bool :=
  (usedObjs k c t i).all fun o => objCached k c (ctxOf k c t) o || filledFor (coreOf k c) t (ctxOf k c t, o)

/-- The target of an indirect transfer can be checked (R56, R141). -/
def targetReady (k : Kern) (c : Nat) (t : Thread) (target : Nat) : Bool :=
  match threadLaunch k c t with
  | some l => targetKnown k c l target
  | none => true

/-- The target of a trap return can be checked (R50, R241). -/
def returnReady (k : Kern) (c : Nat) (t : Thread) (target : Nat) : Bool :=
  match threadLaunch k c t with
  | some l => !t.tstate || returnKnown k l target
  | none => true

/-- Every earlier result that no window holds has been written (R67, R243). -/
def flagsReady (t : Thread) : Bool := t.held.all fun h => 0 < h.window

/-- The cell waits for a settle decision (R225). -/
def cellPending (k : Kern) (c : Nat) (t : Thread) : Bool :=
  match cellPlace k c t with
  | some (_, r, b) => settlePending k r.launch (sigmaAt k (recordAt c r b))
  | none => false

/-- A question about the launch and the step of a thread's cell. -/
def ofCell (k : Kern) (c : Nat) (t : Thread) (f : Nat → Nat → Bool) : Bool :=
  match cellPlace k c t with
  | some (_, r, b) => f r.launch (sigmaAt k (recordAt c r b))
  | none => true

/-- STEST finds its step complete, or raises its trap at once (R227). -/
def stestReady (k : Kern) (c : Nat) (t : Thread) : Bool :=
  ofCell k c t fun serial sigma =>
    !solveOpen t sigma || (trussStep ((mget k.fields serial).getD .start) (sigma - 1)).complete

/-- A result is on its way to one of the top n registers of a thread's group (R250). -/
def topPending (k : Kern) (c : Nat) (t : Thread) (n : Nat) : Bool :=
  let regs := regsOf k c t
  (groupThreads (coreOf k c) t.block t.group).any fun u => u.held.any fun h => h.regs.any fun r =>
    match r with | .v i => regs - n ≤ i && i < regs | _ => false

/-- The card node of a graph under a card number (R355). -/
def cardNode (g : Graph) (n : Nat) : Option Node := if g.cardbase ≤ n then (g.nodes.filter (·.card))[n - g.cardbase]? else none

/-- A prepared card of a context: its node. -/
def preparedNode (k : Kern) (ctx n : Nat) : Option Node :=
  k.graphs.findSome? fun p => if p.2.ctx == ctx then (cardNode p.2 n).filter (·.prepared) else none

/-- A queue of cards has room for the posters, whose earlier accesses are released; a card that is not prepared raises its trap
without waiting (R231). -/
def postReady (k : Kern) (c : Nat) (t : Thread) (x : SForm) (cap : Nat) (cards : List Card) : Bool :=
  let core := coreOf k c
  (preparedNode k (ctxOf k c t) (readSrc k c t .n32 x.a)).isNone ||
    (allPerformed core t && orderFree core t && cards.length + issuers core t x.g ≤ cap)

/-- A fence has what it waits for (R154, R167, R330): the drains of the thread's stores, for a release every earlier access, for
an acquire every earlier read, and at .dev or wider the thread's releases of that scope. -/
def fenceReady (core : Core) (t : Thread) (x : MForm) : Bool :=
  !holdsStores core t && (!x.rel || allPerformed core t) &&
    (!x.acq || !core.reqs.any fun q =>
      reqOf t q && (q.kind != .store || (q.rel && wideScope q.sc && wideScope x.sc)))

/-- The instruction's own rule lets it issue in the thread. -/
def ruleReady (k : Kern) (c : Nat) (t : Thread) (i : Instr) : Bool :=
  let core := coreOf k c
  match i with
  | .ld x => accessFree k c t x.g x true (memBytes x.ty) false false true
  | .st x => accessFree k c t x.g x true (memBytes x.ty) true true false
  | .ldx n x => accessFree k c t x.g x true (4 * xCount n) false false true
  | .stx n x => accessFree k c t x.g x true (4 * xCount n) true true false
  | .atom _ x | .cas x => accessFree k c t x.g x false (memBytes x.ty) true false false
  | .red _ x => accessFree k c t x.g x true (memBytes x.ty) true false false
  | .fence x => fenceReady core t x
  | .validSet x | .validClr x => validFree k c t x (readLow k c t x.d)
  | .validGet x => validFree k c t x 128
  | .copy x => orderFree core t && ((readAt k c t x.idx 2).toNat / 2 ^ 28 != 3 || !core.banksWaking)
  | .copyq x => copyqFree k c t x
  | .jig x => !jigBusy core t.block x.jg.val && placeFree k c t (readPair k c t x.a) 64 false
  | .jigSt x => !jigBusy core t.block x.jg.val && placeFree k c t (readPair k c t x.d) 64 true
  | .jigLd x => !jigBusy core t.block x.jg.val && placeFree k c t (readPair k c t x.d) 64 false
  | .mx x | .mxSet x => mxReady k c t x
  | .accz x => accReady k c t x fun a => a.version == expectedVersion k c t x && !accBusy core t.block x.acc.val
  | .accld x => accReady k c t x fun _ => !accBusy core t.block x.acc.val && placeFree k c t (readPair k c t x.d) 32832 false
  | .accst x =>
    accReady k c t x fun a => atOrPast a.version (expectedVersion k c t x) && placeFree k c t (readPair k c t x.d) 32832 true
  | .accstNow x => accReady k c t x fun _ => !accBusy core t.block x.acc.val && placeFree k c t (readPair k c t x.d) 32832 true
  | .accmov _ x | .accver x => accReady k c t x fun a => atOrPast a.version (expectedVersion k c t x)
  | .bedld x | .bedldGrain x => bedReady k c t x && orderFree core t
  | .bedclr x => bedReady k c t x
  | .fwr _ => writeReady k c t
  | .resid _ => !cellPending k c t && ofCell k c t (trussRoom k)
  | .settle _ => !core.banksWaking && ofCell k c t fun serial sigma => trussRoom k serial sigma && !earlierDecision k serial sigma
  | .step _ | .stepR _ => !core.banksWaking
  | .stest _ => stestReady k c t
  | .srd x => if x.sr == 0x020 then flagsReady t else x.sr != 0x051 || !cellPending k c t
  | .swr _ => flagsReady t
  | .postCore x => postReady k c t x 64 core.cards
  | .postNbr x => postReady k c t x 64 (coreOf k (c / 8 * 8 + (c % 8 + x.imm.toNat) % 8)).cards
  | .postBay x => postReady k c t x 256 ((mget k.bayCards (c / 8)).getD [])
  | .jmpi x | .calli x | .ret x => targetReady k c t (readPair k c t x.a)
  | .tret _ => returnReady k c t ((readK t 0).toNat % 2 ^ 30 * 2 ^ 6 + (readK t 1).toNat % 8)
  | .pref x => prefFree k c t x
  | .sampleOn _ => portOpen core (ctxOf k c t) 64
  | .shrink x => !topPending k c t x.imm.toNat
  | .ilinv _ | .ilinvAll _ => !holdsStores core t && !core.reqs.any fun q => reqOf t q && q.kind == .store
  | _ => true

/-- The instruction is ready in the thread by its own entry: its objects are in the object cache, and its rule lets it issue. -/
def ownReady (k : Kern) (c : Nat) (t : Thread) (i : Instr) : Bool := objsCached k c t i && ruleReady k c t i

/-! ## What is illegal in a thread (R76, R202, R218, R256) -/

/-- Special registers that a task kernel does not provide (R256). -/
def fieldRegister (n : Nat) : Bool := (0x010 ≤ n && n ≤ 0x012) || (0x014 ≤ n && n ≤ 0x017) || n == 0x050 || n == 0x051

/-- The slot of a CVT holds another format than the tapered type it uses (R78). -/
def slotMismatch (l : Launch) (src : Ty) (x : RForm) : Bool :=
  let fmt := fsFmt (recFs l x.om.toNat)
  let used (t : Ty) : Bool := src == t || x.ty == t
  (used .ta8 && fmt != 1) || (used .ta6 && fmt != 2)

/-- The slot that an algebra instruction names holds no format, or its table is not bound (R218). -/
def tableMissing (l : Launch) (o : Opnd) : Bool :=
  (match o with | .fs i => fsFmt (recFs l i.val) == 0 | _ => false) || (selectedTable l o).comps == 0

/-- The instruction is illegal in the thread beyond R37. -/
def illegalOwn (k : Kern) (c : Nat) (t : Thread) (i : Instr) : Bool :=
  match i with
  | .fwr _ | .step _ | .stepR _ | .nq _ | .settle _ | .resid _ | .stest _ => !inField k c t
  | .ld x | .st x | .ldx _ x | .stx _ x | .atom _ x | .red _ x | .cas x | .validSet x | .validClr x | .validGet x | .copy x =>
    x.sp == .xr && !inField k c t
  | .srd x => fieldRegister x.sr.toNat && !inField k c t
  | .grow _ | .shrink _ => inVirtual k c t
  | .cvt src x => ((threadLaunch k c t).map fun l => slotMismatch l src x).getD false
  | .qmul x | .qconj x | .qnorm x => ((threadLaunch k c t).map fun l => tableMissing l x.c).getD false
  | .bedld x | .bedldGrain x =>
    guardTrue t x.g && ((threadLaunch k c t).map fun l => shapeIllegal l (recFs l x.fsi.val) (x.bdn.val + 1)).getD false
  | _ => false

/-! ## The issue in hand -/

/-- The entry in hand. -/
def curEntry (s : State) : Option Entry := mget (coreOf s.kern s.cur.core).entries s.cur.entry

/-- The launch of the entry in hand. -/
def curLaunch (s : State) : Option Launch := (curEntry s).bind fun e => mget s.kern.launches e.launch

/-- The program counter of the instruction in hand: the second member of a couple stands one slot on (R18). -/
def curPc (s : State) : Nat :=
  ((curEntry s).map fun e => e.pc.toNat).getD 0 + (if s.cur.mode == .second then 1 else 0)

/-- The sequential successor of the instruction in hand (R12). -/
def curNext (s : State) : Nat :=
  let pc := curPc s
  match curLaunch s with
  | none => pc + 1
  | some l =>
    match seeLine s.kern s.cur.core l (pcLine pc) with
    | some bits => successor bits pc
    | none => pc + 1

/-- The threads of the entry in hand, in ascending lane. -/
def actors (s : State) : List Thread := entryThreads (coreOf s.kern s.cur.core) s.cur.entry

/-! ## Readiness (R266) -/

/-- The context of the thread lets it issue: it is not stopped (R239). -/
def ctxIssues (k : Kern) (c : Nat) (t : Thread) : Bool := (getCtx k (ctxOf k c t)).state != .stopped

/-- An asynchronous trap waits to be taken (R238). -/
def asyncDue (t : Thread) : Bool := !t.tstate && (t.asyncBudget || t.asyncPreempt)

/-- A request of the thread may still park or trap it at its instruction, precisely (R152, R365), so that nothing later issues
before it is performed (MODEL). DEDUCED: log entry 39. -/
def unsettled (core : Core) (t : Thread) : Bool := core.reqs.any fun q => reqOf t q && !q.firm

/-- The component count of the table that an algebra instruction selects (R218). -/
def compsOf (l : Launch) : Instr → Nat
  | .qmul x | .qconj x | .qnorm x =>
    match x.c with
    | .fs i => tableCount l (fsAlg (recFs l i.val))
    | _ => tableCount l 1
  | _ => 1

/-- The operands of an instruction as a thread names them. -/
def threadUses (k : Kern) (c : Nat) (t : Thread) (i : Instr) : Uses :=
  usesOf (((threadLaunch k c t).map fun l => compsOf l i).getD 1) i

/-- A register has no result on its way that the thread must wait for: a scalar register inside a window of the thread itself reads
as it was (R41, R42). -/
def regReady (k : Kern) (c : Nat) (t : Thread) (r : Reg) : Bool :=
  match r with
  | .s i => windowReg t r || !pendingScalar k c t i
  | _ => !pendingReg t r

/-- The operands of a thread are ready: registers by the scoreboard, faces by the step-phase rule (R284) once their banks are awake
(R303). -/
def operandsReady (k : Kern) (c : Nat) (t : Thread) (u : Uses) : Bool :=
  ((usedRegs u.src ++ usedRegs u.dst).all fun r => regReady k c t r) &&
    (usedFaces u.src).all fun d => faceReady k c t d && !(coreOf k c).banksWaking

/-- No thread of the entry waits, sleeps, has an asynchronous trap due or belongs to a stopped context; each runs in a group of
a resident block (R257). -/
def entryFree (s : State) : Bool :=
  match curEntry s with
  | none => false
  | some e =>
    e.sleep.isNone && (actors s).all fun t =>
      t.wait == .none && !asyncDue t && ctxIssues s.kern s.cur.core t && !unsettled (coreOf s.kern s.cur.core) t &&
        (groupOf s.kern s.cur.core t).isSome

/-- The instructions that an issue performs once (R200, R252). -/
def onceOnly : Instr → Bool
  | .jig _ | .jigSt _ | .jigLd _ | .bedld _ | .bedldGrain _ | .bedclr _ | .accz _ | .accld _ | .accst _ | .accstNow _
  | .sampleOn _ | .sampleOff _ => true
  | .mx x | .mxSet x => !x.pge
  | _ => false

/-- The thread's operands count: every thread's, or those of the lowest lane with a true guard where the operation is performed
once (R200). -/
def leads (s : State) (i : Instr) (t : Thread) : Bool :=
  !onceOnly i || ((actors s).find? fun u => guardTrue u (guardOf i)).map (·.lane) == some t.lane

/-- The entry can issue the instruction: R266, and the rule of the instruction's own entry for each thread with a true
guard whose operands count. -/
def canIssue (s : State) (i : Instr) : Bool :=
  entryFree s && (actors s).all fun t =>
    !guardTrue t (guardOf i) ||
      (operandsReady s.kern s.cur.core t (threadUses s.kern s.cur.core t i) &&
        (!leads s i t || ownReady s.kern s.cur.core t i))

/-! ## The checks of R48 that every instruction shares -/

/-- The instruction is illegal for the thread: a register outside the allocation, or a face in a task kernel (R37). -/
def illegalFor (k : Kern) (c : Nat) (t : Thread) (u : Uses) : Bool :=
  let regs := regsOf k c t
  !((usedRegs u.src ++ usedRegs u.dst).all fun r => allocated regs r) || (!(usedFaces u.src).isEmpty && !inField k c t)

/-- A destination lies in an open window (R42). -/
def windowConflict (t : Thread) (u : Uses) : Bool := (usedRegs u.dst).any fun r => windowReg t r

/-- The destination is a scalar register. -/
def scalarDst (u : Uses) : Bool := (usedRegs u.dst).any fun r => match r with | .s _ => true | _ => false

/-- The scalar write of the thread's group is split: some thread of it that has neither exited nor parked is not in the
entry (R110). -/
def splitScalar (core : Core) (e : Nat) (t : Thread) : Bool :=
  (groupThreads core t.block t.group).any fun u => live u && u.loc != .parked && u.loc != .entry e

/-- R151 or a rule of its own refuses an access at its location. -/
def spotFails (k : Kern) (c : Nat) (t : Thread) (x : MForm) (useIdx : Bool) (size need : Nat) : Bool :=
  match spotOf k c t x useIdx size size need with
  | .error _ => true
  | .ok _ => false

/-- Rights or bounds on an object that the instruction names fail, which comes before its own traps (R48). -/
def namedFault (k : Kern) (c : Nat) (t : Thread) : Instr → Bool
  | .ld x => spotFails k c t x true (memBytes x.ty) 8
  | .ldx n x => spotFails k c t x true (4 * xCount n) 8
  | .atom _ x | .cas x => spotFails k c t x false (memBytes x.ty) 2
  | .copyq x =>
    spotFails k c t x false 64 6 ||
      match blockOf k c t.block with
      | none => true
      | some blk => match address k c blk .sp (readLow k c t x.idx) 0 64 64 0 with | .error _ => true | .ok _ => false
  | .validGet x =>
    (match spotOf k c t x true 4 4 0 with
    | .error _ => true
    | .ok p => p.ea % 128 != 0)
  | .capder x => (getObj k (ctxOf k c t) (capObj (readPair k c t x.a))).isNone
  | .capadd x =>
    (match getObj k (ctxOf k c t) (capObj (readPair k c t x.a)) with
    | none => true
    | some e =>
      let b := if x.om == 1 then intOf .i64 (readSrc k c t .i64 x.b) else intOf .i32 (readSrc k c t .i32 x.b)
      let sum := (capOff (readPair k c t x.a) : Int) + b
      sum < 0 || (e.size : Int) < sum)
  | .accmov _ x | .accver x | .accverNow x =>
    (match blockOf k c t.block with
    | some blk => !accAllotted blk x
    | none => false)
  | .tlrd x | .tlrdIssued x =>
    (match x.a, threadLaunch k c t with
    | .tl i, some l => recTlKind l i.val == 0
    | _, _ => false)
  | _ => false

/-- The trap that the shared checks raise in a thread, in the order of R48. -/
def sharedTrap (s : State) (i : Instr) (t : Thread) : Option Nat :=
  let k := s.kern
  let c := s.cur.core
  let u := threadUses k c t i
  if illegalOwn k c t i || illegalFor k c t u then some 0x01
  else if windowConflict t u then some 0x09
  else if guardTrue t (guardOf i) && scalarDst u && !namedFault k c t i && splitScalar (coreOf k c) s.cur.entry t then some 0x0A
  else none


end Sys2Proof.Machine
end

