-- ==== Sys2Proof/Machine/Issue.lean ====
section
/-! DEFINITION. One issue of an entry (R18 to R23, R109 to R111, R265, R266): readiness, the checks every instruction
shares, the course each thread takes, and the placement of the threads that move. -/

namespace Sys2Proof.Machine

/-- The registers a thread writes: none where another thread of its group writes the scalar (R109). writers are the
threads that execute, in ascending lane. -/
def dstRegs (s : State) (i : Instr) (writers : List Thread) (t : Thread) : List Reg :=
  let u := threadUses s.kern s.cur.core t i
  if scalarDst u then
    match writers.find? fun w => w.block == t.block && w.group == t.group with
    | some w => if w.lane == t.lane then usedRegs u.dst else []
    | none => []
  else usedRegs u.dst

/-! ## Bodies -/

/-- The instruction did not execute in the thread. -/
def stopsShort : Course → Bool
  | .trap _ _ _ | .trapAt _ _ _ _ | .lateTrap _ _ _ | .park _ _ | .pend => true
  | .next | .to _ | .stay | .gone => false

/-- A scalar destination that the thread's group still waits for. -/
structure Owed where
  block : Nat
  group : Nat
  dst : List Reg
  deriving DecidableEq, Repr

/-- The destination of a thread: its own, or the scalar that a lower lane of its group did not write (R109). -/
def takeOwed (owed : List Owed) (t : Thread) (d : List Reg) : List Reg :=
  match d, owed.find? fun o => o.block == t.block && o.group == t.group with
  | [], some o => o.dst
  | d, _ => d

/-- What is still owed after a thread. -/
def leaveOwed (owed : List Owed) (t : Thread) (d : List Reg) (x : Course) : List Owed :=
  let rest := owed.filter fun o => !(o.block == t.block && o.group == t.group)
  let scalar := d.any fun r => match r with | .s _ => true | _ => false
  if scalar && stopsShort x then rest ++ [{ block := t.block, group := t.group, dst := d }] else rest

/-- Run a body for each thread in ascending lane. A scalar destination goes to the lowest thread of its group in which the
instruction executes. DEDUCED: log entry 10. -/
def foldOwed (f : Kern → Thread → List Reg → Kern × Course) :
    List Owed → Kern → List (Thread × List Reg) → Kern × List Course
  | _, k, [] => (k, [])
  | owed, k, (t, d) :: ts =>
    let d := takeOwed owed t d
    let r := f k t d
    let rs := foldOwed f (leaveOwed owed t d r.2) r.1 ts
    (rs.1, r.2 :: rs.2)

/-- Run a body for each thread in ascending lane. -/
def foldBody (f : Kern → Thread → List Reg → Kern × Course) (k : Kern) (ts : List (Thread × List Reg)) : Kern × List Course :=
  foldOwed f [] k ts

/-- What a plain instruction does in a thread: values for its destination registers, predicates, flags, or a trap. -/
structure Effect where
  vals : List W32
  preds : List (Nat × Bool)
  flags : BitVec 5
  trap : Option Nat
  deriving DecidableEq, Repr

/-- Only values. -/
def Effect.values (vals : List W32) : Effect := { vals := vals, preds := [], flags := 0, trap := none }
/-- Values and flags. -/
def Effect.float (t : Ty) (r : Nat × BitVec 5) : Effect := { vals := place t r.1, preds := [], flags := r.2, trap := none }
/-- One predicate. -/
def Effect.pred (q : Option (Fin 7)) (x : Bool) : Effect :=
  { vals := [], preds := match q with | some p => [(p.val, x)] | none => [], flags := 0, trap := none }

/-- The body of a plain instruction (R111). -/
def plainBody (c : Nat) (f : Thread → Effect) (k : Kern) (t : Thread) (dst : List Reg) : Kern × Course :=
  let e := f t
  match e.trap with
  | some cause => (k, .trap cause 0 0)
  | none =>
    let k := writeRegs k c t dst e.vals
    let k := e.preds.foldl (fun k p => writePred k c t p.1 p.2) k
    (joinFlags k c t e.flags, .next)

/-- The body of a long-latency instruction whose result is known at issue (R41, R44): it arrives
later (RESULT_ARRIVAL). -/
def heldBody (c : Nat) (la : BitVec 4) (f : Thread → Effect) (k : Kern) (t : Thread) (dst : List Reg) : Kern × Course :=
  let e := f t
  match e.trap with
  | some cause => (k, .trap cause 0 0)
  | none => ((holdResult k c t dst e.vals e.flags la).2, .next)

/-! ## The end of an issue (R265) -/

/-- Undo the first member of a couple in a thread (R19): its registers, and the scalar registers that it wrote for its group
(log entry 8). DEDUCED: log entry 8. -/
def rollback (k : Kern) (c : Nat) (t : Thread) : Kern :=
  match t.latch with
  | none => k
  | some l =>
    let k := modThis k c t fun u => { u with regs := { u.regs with v := l.regs.v, k := l.regs.k, p := l.regs.p,
                                                                    fflags := l.regs.fflags } }
    modGroup k c t.block t.group fun g => { g with s := l.wrote.foldl (fun s i => rset 0 s i (l.scal.getD i 0)) g.s }

/-- Apply the course of one thread: the state, and the thread's mover. -/
def applyCourse (pc next : Nat) (c : Nat) (k : Kern) (x : Thread × Course) :
    Kern × Option Mover :=
  let t := x.1
  let unlatched (k : Kern) : Kern := modThis k c t fun u => { u with latch := none }
  let trapped (at_ cause sub fault : Nat) : Kern × Option Mover :=
    let k := rollback k c t
    let saved := match t.latch with | some l => l.pc | none => BitVec.ofNat 64 at_
    trapEntry (unlatched k) c t cause sub saved (BitVec.ofNat 64 fault) false
  match x.2 with
  | .next => (unlatched k, some (moverOf k c t next))
  | .to p => (unlatched k, some (moverOf k c t p))
  | .trap cause sub fault => trapped pc cause sub fault
  | .trapAt p cause sub fault => trapEntry (unlatched k) c t cause sub (BitVec.ofNat 64 p) (BitVec.ofNat 64 fault) false
  | .lateTrap cause sub fault =>
    trapEntry (unlatched k) c t cause sub (BitVec.ofNat 64 pc) (BitVec.ofNat 64 fault) false
  | .park faddr sub => (parkThread k c t (BitVec.ofNat 64 pc) faddr sub, none)
  | .pend => (pendThread k c t (BitVec.ofNat 64 pc), none)
  | .stay => (unlatched k, none)
  | .gone => (k, none)

/-- Apply the courses in ascending lane. -/
def applyCourses (pc next c : Nat) : Kern → List (Thread × Course) → Kern × List Mover
  | k, [] => (k, [])
  | k, x :: xs =>
    let r := applyCourse pc next c k x
    let rs := applyCourses pc next c r.1 xs
    (rs.1, match r.2 with | some m => m :: rs.2 | none => rs.2)

/-- A course that counts as an issued instruction for open windows (R41). -/
def countsWindow : Course → Bool
  | .next | .to _ | .stay => true
  | _ => false

/-- The entries that threads formed as they moved on after an issue have issued most recently (R269). DEDUCED: log entry 41. -/
def markFormed (k : Kern) (c : Nat) (ms : List Mover) : Kern :=
  modCore k c fun core =>
    { core with entries := core.entries.map fun p =>
        if p.2.opened && p.2.age == core.cycle &&
            core.threads.any fun t => t.loc == .entry p.1 && ms.any fun m => m.tslot == t.tslot && m.lane == t.lane
        then (p.1, { p.2 with issued := core.cycle }) else p }

/-- The entry has issued: its AGE is the cycle, and it is no longer open (R263, R266). -/
def markIssued (k : Kern) (c e : Nat) : Kern :=
  modCore k c fun core =>
    { core with entries := mmod core.entries e fun x =>
        { x with age := core.cycle, opened := false, issued := core.cycle, filled := [] } }

/-- End a single issue or the second member of a couple: windows count, courses are taken, threads move. -/
def finishIssue (s : State) (k : Kern) (xs : List (Thread × Course)) : Kern :=
  let c := s.cur.core
  let k := xs.foldl (fun k x => if countsWindow x.2 then countWindows k c x.1 s.kern.id else k) k
  let k := markIssued k c s.cur.entry
  let r := applyCourses (curPc s) (curNext s) c k xs
  markFormed (moveThreads r.1 c r.2) c r.2

/-- The registers of a thread with the values of a result. -/
def landOwn (r : RegFile) : List (Reg × W32) → RegFile
  | [] => r
  | (.v i, x) :: ps => landOwn (r.setV i x) ps
  | (.k i, x) :: ps => landOwn (r.setK i x) ps
  | _ :: ps => landOwn r ps

/-- A held result whose window ends with the first member is in the registers that the second member reads (R41, R42).
DEDUCED: log entry 14. -/
def landLatch (c : Nat) (t : Thread) (k : Kern) (h : Held) : Kern :=
  let scal := (scalarsOf k c t h.named).filter fun p => !pendingScalar k c t p.1
  let own (l : Latch) : Latch :=
    { l with regs := { landOwn l.regs (h.regs.zip h.vals) with fflags := l.regs.fflags ||| h.flags },
             scal := scal.foldl (fun s p => rset 0 s p.1 p.2) l.scal }
  modThis k c t fun u => { u with latch := u.latch.map own }

/-- The windows of a thread count the first member of a couple. -/
def countFirst (c upTo : Nat) (k : Kern) (t : Thread) : Kern :=
  let ends := (nowThread k c t).held.filter fun h => h.window == 1 && h.arrived && h.id < upTo
  ends.foldl (landLatch c t) (countWindows k c t upTo)

/-- End the first member of a couple: a trap is kept for the end of the couple (R19), with the scalar registers that each
thread wrote. -/
def finishFirst (s : State) (k : Kern) (ds : List (Thread × List Reg)) (xs : List (Thread × Course)) : Kern :=
  let c := s.cur.core
  let k := ds.foldl (fun k d =>
    modThis k c d.1 fun u => { u with latch := u.latch.map fun l => { l with wrote := scalarNumbers d.2 } }) k
  let k := xs.foldl (fun k x => if countsWindow x.2 then countFirst c s.kern.id k x.1 else k) k
  xs.foldl (fun k x =>
    match x.2 with
    | .trap cause sub fault =>
      modThis k c x.1 fun u =>
        { u with latch := u.latch.map fun l => { l with trap := some (cause, sub, BitVec.ofNat 64 fault) } }
    | _ => k) k

/-- Latch the registers of the threads of a couple (R18). -/
def latchAll (s : State) : Kern :=
  let c := s.cur.core
  (actors s).foldl (fun k t =>
    modThis k c t fun u =>
      { u with latch := some { regs := u.regs, scal := readScal s.kern c { t with latch := none },
                               wrote := [], pc := BitVec.ofNat 64 (curPc s), trap := none } }) s.kern

/-- The course of a thread whose first member trapped. -/
def latchedTrap (t : Thread) : Option Course :=
  match t.latch with
  | some l => l.trap.map fun x => .trap x.1 x.2.1 x.2.2.toNat
  | none => none

/-! ## The issue -/

/-- Pair the threads with their courses: those that executed in order, the others by the shared checks or a false guard. -/
def zipCourses (verdict : Thread → Option Course) : List Thread → List Course → List (Thread × Course)
  | [], _ => []
  | t :: ts, cs =>
    match verdict t with
    | some x => (t, x) :: zipCourses verdict ts cs
    | none =>
      match cs with
      | [] => (t, .next) :: zipCourses verdict ts []
      | x :: cs => (t, x) :: zipCourses verdict ts cs

/-- The course that a thread takes without executing: a trap of the first member, a trap of the shared checks, or a false
guard (R22). -/
def verdictOf (s : State) (i : Instr) (t : Thread) : Option Course :=
  match latchedTrap t with
  | some x => some x
  | none =>
    match sharedTrap s i t with
    | some cause => some (.trap cause 0 0)
    | none => if guardTrue t (guardOf i) then none else some .next

/-- A face read of a publication of STEP.R acquires its release: the line cache of the core is invalidated (R333). -/
def acquireFaces (k : Kern) (c : Nat) (i : Instr) (ts : List Thread) : Kern :=
  if ts.any fun t => (usedFaces (threadUses k c t i).src).any (readsReleased k c t) then dropLines k c else k

/-- The words of faces that an instruction reads in a thread. -/
def faceRuns (k : Kern) (c : Nat) (t : Thread) (i : Instr) : List (Nat × Nat) :=
  (threadUses k c t i).src.filterMap fun u =>
    match u.1 with
    | .face d n => (facePlace k c t d n.val).map fun p => (p.2, 4 * u.2)
    | _ => none

/-- A thread's face reads meet poison and corrected errors of the exchange region, which are charged (R425). -/
def meetFace (c : Nat) (i : Instr) (k : Kern) (t : Thread) : Kern :=
  let rs := faceRuns k c t i
  let hs := poisonHits k rs
  let k' := charge k (ctxOf k c t) (poisonCharge hs + softHits k rs)
  if classOf k c t == 2 && !hs.isEmpty then countPoison k' (ctxOf k c t) hs.length else k'

/-- The threads' face reads meet the errors of the exchange region. -/
def meetFaces (k : Kern) (c : Nat) (i : Instr) (ts : List Thread) : Kern := ts.foldl (meetFace c i) k

/-- The objects that the threads use become the most recent of the object cache (R314). -/
def useObjs (k : Kern) (c : Nat) (i : Instr) (ts : List Thread) : Kern :=
  ts.foldl (fun k t => (usedObjs k c t i).foldl (fun k o => useObj k c (ctxOf k c t) o) k) k

/-- The windows that an issue has opened in several threads for one scalar register name it in each of them (R42, R109). -/
def nameWindows (s : State) (i : Instr) (ds : List (Thread × List Reg)) (k : Kern) : Kern :=
  match ds with
  | [] | [_] => k
  | _ =>
    ds.foldl (fun k d =>
      let u := threadUses s.kern s.cur.core d.1 i
      if scalarDst u then
        modThis k s.cur.core d.1 (nameHeld s.kern.id (usedRegs u.dst) (scalarsOf s.kern s.cur.core d.1 (usedRegs u.dst)))
      else k) k

/-- Issue an instruction for the entry in hand: run executes it for the threads that do, in ascending lane. -/
def issue (s : State) (i : Instr) (run : Kern → List (Thread × List Reg) → Kern × List Course) : State :=
  if canIssue s i then
    let ts := actors s
    let k := if s.cur.mode == .first then latchAll s else s.kern
    let doers := ts.filter fun t => (verdictOf s i t).isNone
    let ds := doers.map fun t => (t, dstRegs s i doers t)
    let r := run (useObjs (acquireFaces (meetFaces k s.cur.core i doers) s.cur.core i doers) s.cur.core i doers) ds
    let k := nameWindows s i ds r.1
    let xs := zipCourses (verdictOf s i) ts r.2
    { s with kern := if s.cur.mode == .first then finishFirst s k ds xs else finishIssue s k xs }
  else s

/-- Issue a plain instruction. -/
def issuePlain (s : State) (i : Instr) (f : Thread → Effect) : State := issue s i (foldBody (plainBody s.cur.core f))

/-- Issue a long-latency instruction with a known result. -/
def issueHeld (s : State) (i : Instr) (la : BitVec 4) (f : Thread → Effect) : State :=
  issue s i (foldBody (heldBody s.cur.core la f))

/-- Issue an instruction thread by thread. -/
def issueEach (s : State) (i : Instr) (f : Kern → Thread → List Reg → Kern × Course) : State := issue s i (foldBody f)

/-- A place of an entry-once instruction that is not placed parks every thread, or none where the store lacks a record for
one of them (R200). -/
def parkTogether (core : Core) (n : Nat) : Course → Course
  | .park faddr sub => if recordRoom core n then .park faddr sub else .pend
  | x => x

/-- Issue an entry-once instruction (R200): the operation runs once, with the operands of the lowest lane, and every thread
with a true guard takes its course. -/
def issueOnce (s : State) (i : Instr) (f : Kern → Thread → List Reg → Kern × Course) : State :=
  issue s i fun k ts =>
    match ts with
    | [] => (k, [])
    | (t, d) :: _ =>
      let r := f k t d
      (r.1, ts.map fun _ => parkTogether (coreOf r.1 s.cur.core) ts.length r.2)

/-- The meaning answers a next state. -/
def answer (s : State) : Host.Outcome State Fault Refusal := .next s

/-- An instruction word that is rejected by the decoder raises illegal instruction in every thread of the entry (R23, R34). -/
def issueIllegal (s : State) (cause : Nat) : State :=
  if entryFree s then
    let xs := (actors s).map fun t => (t, (latchedTrap t).getD (.trap cause 0 0))
    let k := if s.cur.mode == .first then latchAll s else s.kern
    { s with kern := if s.cur.mode == .first then finishFirst s k [] xs else finishIssue s k xs }
  else s

end Sys2Proof.Machine
end

