-- ==== Sys2Proof/Machine/Integer.lean ====
section
/-! DEFINITION. The integer, logical, shift, bit-field, selection and comparison instructions and their immediate forms (05
R112 to R120). -/

namespace Sys2Proof.Machine

/-- A source of an instruction in hand as a raw value. -/
def srcRaw (s : State) (t : Thread) (ty : Ty) (o : Opnd) : Nat := readSrc s.kern s.cur.core t ty o
/-- A source of an instruction in hand as a number (R58). -/
def srcInt (s : State) (t : Thread) (ty : Ty) (o : Opnd) : Int := intOf ty (srcRaw s t ty o)
/-- A count read as .n32 (R117). -/
def srcCount (s : State) (t : Thread) (o : Opnd) : Nat := srcRaw s t .n32 o

/-- An exact integer result delivered by SAT (R59, R112). -/
def deliver (ty : Ty) (sat : Bool) (x : Int) : Effect := .values (place ty (deliverI ty sat x))

/-- R112 with two sources. -/
def intTwo (s : State) (x : RForm) (f : Int → Int → Int) (t : Thread) : Effect :=
  deliver x.ty x.sat (f (srcInt s t x.ty x.a) (srcInt s t x.ty x.b))

/-- R112 with three sources. -/
def intThree (s : State) (x : RForm) (f : Int → Int → Int → Int) (t : Thread) : Effect :=
  deliver x.ty x.sat (f (srcInt s t x.ty x.a) (srcInt s t x.ty x.b) (srcInt s t x.ty x.c))

/-- R115: the effect of a register form with IMM as b. -/
def intImm (s : State) (x : IForm) (f : Int → Int → Int) (t : Thread) : Effect :=
  deliver x.ty x.sat (f (srcInt s t x.ty x.a) (intOf x.ty (immIRaw x.ty x.imm)))

/-- R116 on raw values. -/
def logicTwo (s : State) (x : RForm) (f : Nat → Nat → Nat) (t : Thread) : Effect :=
  .values (place x.ty (f (srcRaw s t x.ty x.a) (srcRaw s t x.ty x.b)))

/-- R116 with an immediate. -/
def logicImm (s : State) (x : IForm) (f : Nat → Nat → Nat) (t : Thread) : Effect :=
  .values (place x.ty (f (srcRaw s t x.ty x.a) (immIRaw x.ty x.imm)))

/-- MULHI: floor(a × b / 2^w) (R112). -/
def mulHigh (ty : Ty) (a b : Int) : Int := a * b / (2 ^ tyBits ty : Nat)

/-- SHL (R117). A count above 128 acts as 128 does. -/
def shiftLeft (ty : Ty) (sat : Bool) (raw n : Nat) : Nat := deliverI ty sat (intOf ty raw * (2 ^ min n 128 : Nat))

/-- SHR (R117). -/
def shiftRight (raw n : Nat) : Nat := raw / 2 ^ min n 64

/-- A raw value read as signed, for SAR (R117). -/
def signedOf (ty : Ty) (raw : Nat) : Int :=
  if 2 ^ (tyBits ty - 1) ≤ raw then (raw : Int) - (2 ^ tyBits ty : Nat) else (raw : Int)

/-- SAR (R117). -/
def shiftArith (ty : Ty) (raw n : Nat) : Nat := wrapI ty (signedOf ty raw / (2 ^ min n 64 : Nat))

/-- ROT (R117). -/
def rotate (ty : Ty) (raw n : Nat) : Nat :=
  let w := tyBits ty
  let r := n % w
  (raw * 2 ^ r + raw / 2 ^ (w - r)) % 2 ^ w

/-- CLZ (R118). -/
def leadingZeros (w raw : Nat) : Nat := if raw == 0 then w else w - 1 - Nat.log2 raw

/-- pos of BFX and BFI (R118). -/
def fieldPos (ty : Ty) (b : Nat) : Nat := min b (tyBits ty)
/-- len of BFX and BFI (R118). -/
def fieldLen (ty : Ty) (b c : Nat) : Nat := min c (tyBits ty - fieldPos ty b)

/-- BFX (R118). -/
def bitExtract (ty : Ty) (raw b c : Nat) : Nat :=
  let len := fieldLen ty b c
  let f := raw / 2 ^ fieldPos ty b % 2 ^ len
  if tySgn ty && 0 < len && f.testBit (len - 1) then wrapI ty ((f : Int) - (2 ^ len : Nat)) else f

/-- BFI (R118). -/
def bitInsert (ty : Ty) (old raw b c : Nat) : Nat :=
  let pos := fieldPos ty b
  let len := fieldLen ty b c
  old % 2 ^ pos + raw % 2 ^ len * 2 ^ pos + old / 2 ^ (pos + len) * 2 ^ (pos + len)

/-- LEA (R119). -/
def leaRaw (ty : Ty) (a b sh : Nat) : Nat :=
  match ty with
  | .b64 => a / 2 ^ 36 * 2 ^ 36 + (a % 2 ^ 36 + b * 2 ^ sh) % 2 ^ 36
  | _ => (a + b * 2 ^ sh) % 2 ^ 32

/-- ADDC or SUBB (R114). -/
def carryEffect (s : State) (x : RForm) (isSub : Bool) (t : Thread) : Effect :=
  let r := carryOf isSub x.ty (srcRaw s t x.ty x.a) (srcRaw s t x.ty x.b) (readPredOpnd t x.c)
  { Effect.pred x.qp r.2 with vals := place x.ty (wrapI x.ty r.1) }

/-- The arithmetic trap of a divisor 0 (R113). -/
def divEffect (s : State) (x : RForm) (f : Int → Int → Int) (t : Thread) : Effect :=
  if srcInt s t x.ty x.b == 0 then { Effect.values [] with trap := some 0x0C } else intTwo s x f t

/-- ADD. -/
def execAdd (x : RForm) (s : State) : Host.Outcome State Fault Refusal :=
  answer (issuePlain s (.add x) (intTwo s x fun a b => a + b))
/-- SUB. -/
def execSub (x : RForm) (s : State) : Host.Outcome State Fault Refusal :=
  answer (issuePlain s (.sub x) (intTwo s x fun a b => a - b))
/-- MUL. -/
def execMul (x : RForm) (s : State) : Host.Outcome State Fault Refusal :=
  answer (issuePlain s (.mul x) (intTwo s x fun a b => a * b))
/-- MULHI. -/
def execMulhi (x : RForm) (s : State) : Host.Outcome State Fault Refusal :=
  answer (issuePlain s (.mulhi x) (intTwo s x (mulHigh x.ty)))
/-- MAD. -/
def execMad (x : RForm) (s : State) : Host.Outcome State Fault Refusal :=
  answer (issuePlain s (.mad x) (intThree s x fun a b c => a * b + c))
/-- DIV (R113). -/
def execDiv (x : RForm) (s : State) : Host.Outcome State Fault Refusal :=
  answer (issueHeld s (.div x) x.la (divEffect s x Int.tdiv))
/-- REM (R113). -/
def execRem (x : RForm) (s : State) : Host.Outcome State Fault Refusal :=
  answer (issueHeld s (.rem x) x.la (divEffect s x Int.tmod))
/-- MIN. -/
def execMin (x : RForm) (s : State) : Host.Outcome State Fault Refusal :=
  answer (issuePlain s (.min x) (intTwo s x fun a b => min a b))
/-- MAX. -/
def execMax (x : RForm) (s : State) : Host.Outcome State Fault Refusal :=
  answer (issuePlain s (.max x) (intTwo s x fun a b => max a b))
/-- ABS. -/
def execAbs (x : RForm) (s : State) : Host.Outcome State Fault Refusal :=
  answer (issuePlain s (.abs x) fun t => deliver x.ty x.sat (srcInt s t x.ty x.a).natAbs)
/-- NEG. -/
def execNeg (x : RForm) (s : State) : Host.Outcome State Fault Refusal :=
  answer (issuePlain s (.neg x) fun t => deliver x.ty x.sat (-(srcInt s t x.ty x.a)))
/-- ADDC. -/
def execAddc (x : RForm) (s : State) : Host.Outcome State Fault Refusal :=
  answer (issuePlain s (.addc x) (carryEffect s x false))
/-- SUBB. -/
def execSubb (x : RForm) (s : State) : Host.Outcome State Fault Refusal :=
  answer (issuePlain s (.subb x) (carryEffect s x true))
/-- SAD. -/
def execSad (x : RForm) (s : State) : Host.Outcome State Fault Refusal :=
  answer (issuePlain s (.sad x) (intThree s x fun a b c => (a - b).natAbs + c))
/-- ADDI. -/
def execAddi (x : IForm) (s : State) : Host.Outcome State Fault Refusal :=
  answer (issuePlain s (.addi x) (intImm s x fun a b => a + b))
/-- MULI. -/
def execMuli (x : IForm) (s : State) : Host.Outcome State Fault Refusal :=
  answer (issuePlain s (.muli x) (intImm s x fun a b => a * b))
/-- ANDI. -/
def execAndi (x : IForm) (s : State) : Host.Outcome State Fault Refusal :=
  answer (issuePlain s (.andi x) (logicImm s x Nat.land))
/-- ORI. -/
def execOri (x : IForm) (s : State) : Host.Outcome State Fault Refusal :=
  answer (issuePlain s (.ori x) (logicImm s x Nat.lor))
/-- XORI. -/
def execXori (x : IForm) (s : State) : Host.Outcome State Fault Refusal :=
  answer (issuePlain s (.xori x) (logicImm s x Nat.xor))
/-- SHLI. -/
def execShli (x : IForm) (s : State) : Host.Outcome State Fault Refusal :=
  answer (issuePlain s (.shli x) fun t =>
    .values (place x.ty (shiftLeft x.ty x.sat (srcRaw s t x.ty x.a) x.imm.toNat)))
/-- SHRI. -/
def execShri (x : IForm) (s : State) : Host.Outcome State Fault Refusal :=
  answer (issuePlain s (.shri x) fun t => .values (place x.ty (shiftRight (srcRaw s t x.ty x.a) x.imm.toNat)))
/-- SARI. -/
def execSari (x : IForm) (s : State) : Host.Outcome State Fault Refusal :=
  answer (issuePlain s (.sari x) fun t => .values (place x.ty (shiftArith x.ty (srcRaw s t x.ty x.a) x.imm.toNat)))
/-- MOVI. -/
def execMovi (x : IForm) (s : State) : Host.Outcome State Fault Refusal :=
  answer (issuePlain s (.movi x) fun _ => .values (place x.ty (immIRaw x.ty x.imm)))
/-- CMPI (R115, R120). -/
def execCmpi (x : IForm) (s : State) : Host.Outcome State Fault Refusal :=
  answer (issuePlain s (.cmpi x) fun t =>
    .pred x.qp (cmpInt x.om (srcInt s t x.ty x.a) (intOf x.ty (immIRaw x.ty x.imm))))
/-- AND. -/
def execAnd (x : RForm) (s : State) : Host.Outcome State Fault Refusal :=
  answer (issuePlain s (.and x) (logicTwo s x Nat.land))
/-- OR. -/
def execOr (x : RForm) (s : State) : Host.Outcome State Fault Refusal :=
  answer (issuePlain s (.or x) (logicTwo s x Nat.lor))
/-- XOR. -/
def execXor (x : RForm) (s : State) : Host.Outcome State Fault Refusal :=
  answer (issuePlain s (.xor x) (logicTwo s x Nat.xor))
/-- NOT. -/
def execNot (x : RForm) (s : State) : Host.Outcome State Fault Refusal :=
  answer (issuePlain s (.not x) fun t => .values (place x.ty (2 ^ tyBits x.ty - 1 - srcRaw s t x.ty x.a)))
/-- SHL. -/
def execShl (x : RForm) (s : State) : Host.Outcome State Fault Refusal :=
  answer (issuePlain s (.shl x) fun t =>
    .values (place x.ty (shiftLeft x.ty x.sat (srcRaw s t x.ty x.a) (srcCount s t x.b))))
/-- SHR. -/
def execShr (x : RForm) (s : State) : Host.Outcome State Fault Refusal :=
  answer (issuePlain s (.shr x) fun t => .values (place x.ty (shiftRight (srcRaw s t x.ty x.a) (srcCount s t x.b))))
/-- SAR. -/
def execSar (x : RForm) (s : State) : Host.Outcome State Fault Refusal :=
  answer (issuePlain s (.sar x) fun t => .values (place x.ty (shiftArith x.ty (srcRaw s t x.ty x.a) (srcCount s t x.b))))
/-- ROT. -/
def execRot (x : RForm) (s : State) : Host.Outcome State Fault Refusal :=
  answer (issuePlain s (.rot x) fun t => .values (place x.ty (rotate x.ty (srcRaw s t x.ty x.a) (srcCount s t x.b))))
/-- POPC. -/
def execPopc (x : RForm) (s : State) : Host.Outcome State Fault Refusal :=
  answer (issuePlain s (.popc x) fun t => .values (place .n32 (popCount (tyBits x.ty) (srcRaw s t x.ty x.a))))
/-- CLZ. -/
def execClz (x : RForm) (s : State) : Host.Outcome State Fault Refusal :=
  answer (issuePlain s (.clz x) fun t => .values (place .n32 (leadingZeros (tyBits x.ty) (srcRaw s t x.ty x.a))))
/-- BFX. -/
def execBfx (x : RForm) (s : State) : Host.Outcome State Fault Refusal :=
  answer (issuePlain s (.bfx x) fun t =>
    .values (place x.ty (bitExtract x.ty (srcRaw s t x.ty x.a) (srcCount s t x.b) (srcCount s t x.c))))
/-- BFI. DEDUCED: log entry 100. -/
def execBfi (x : RForm) (s : State) : Host.Outcome State Fault Refusal :=
  answer (issuePlain s (.bfi x) fun t =>
    .values (place x.ty
      (bitInsert x.ty (srcRaw s t x.ty x.d) (srcRaw s t x.ty x.a) (srcCount s t x.b) (srcCount s t x.c))))
/-- SEL (R119). -/
def execSel (x : RForm) (s : State) : Host.Outcome State Fault Refusal :=
  answer (issuePlain s (.sel x) fun t =>
    .values (place x.ty (srcRaw s t x.ty (if readPredOpnd t x.c then x.a else x.b))))
/-- CMP (R120). -/
def execCmp (x : RForm) (s : State) : Host.Outcome State Fault Refusal :=
  answer (issuePlain s (.cmp x) fun t => .pred x.qp (cmpInt x.om (srcInt s t x.ty x.a) (srcInt s t x.ty x.b)))
/-- MOV (R119). -/
def execMov (x : RForm) (s : State) : Host.Outcome State Fault Refusal :=
  answer (issuePlain s (.mov x) fun t => .values (place x.ty (srcRaw s t x.ty x.a)))
/-- LEA (R119). -/
def execLea (x : RForm) (s : State) : Host.Outcome State Fault Refusal :=
  answer (issuePlain s (.lea x) fun t =>
    .values (place x.ty (leaRaw x.ty (srcRaw s t x.ty x.a) (srcRaw s t x.ty x.b) x.om.toNat)))

end Sys2Proof.Machine
end

