-- ==== Sys2Proof/Machine/Floating.lean ====
section
/-! DEFINITION. The floating-point instructions (05 R121 to R127) and CVT (02 R76 to R78). -/

namespace Sys2Proof.Machine

/-! ## Packed pairs (R121) -/

/-- The raw values of a source for an operation on one value or on a packed pair: a short immediate gives both halves. -/
def pairSrc (s : State) (t : Thread) (ty : Ty) (o : Opnd) : Nat × Nat :=
  match o with
  | .imm x => (immRaw ty x, immRaw ty x)
  | _ =>
    let r := srcRaw s t .b32 o
    (r % 2 ^ 16, r / 2 ^ 16)

/-- The sources of an instruction, as many as it takes. -/
def floatSrcs (x : RForm) (n : Nat) : List Opnd := ([x.a, x.b, x.c]).take n

/-- An operation on raw values, once or for each half of a packed pair with the flags joined (R121). -/
def floatEffect (s : State) (x : RForm) (n : Nat) (f : List Nat → Nat × BitVec 5) (t : Thread) : Effect :=
  if x.om == 1 then
    let ps := (floatSrcs x n).map (pairSrc s t x.ty)
    let lo := f (ps.map fun p => p.1)
    let hi := f (ps.map fun p => p.2)
    { Effect.values [BitVec.ofNat 32 (lo.1 % 2 ^ 16 + hi.1 * 2 ^ 16)] with flags := lo.2 ||| hi.2 }
  else .float x.ty (f ((floatSrcs x n).map (srcRaw s t x.ty)))

/-- An operation of one number. -/
def onOne (ty : Ty) (f : Num → Nat × BitVec 5) : List Nat → Nat × BitVec 5
  | [a] => f (decodeF ty a)
  | _ => (0, 0)

/-- An operation of two numbers. -/
def onTwo (ty : Ty) (f : Num → Num → Nat × BitVec 5) : List Nat → Nat × BitVec 5
  | [a, b] => f (decodeF ty a) (decodeF ty b)
  | _ => (0, 0)

/-- An operation of three numbers. -/
def onThree (ty : Ty) (f : Num → Num → Num → Nat × BitVec 5) : List Nat → Nat × BitVec 5
  | [a, b, c] => f (decodeF ty a) (decodeF ty b) (decodeF ty c)
  | _ => (0, 0)

/-- A single operation of the forms without PK. -/
def floatOne (s : State) (x : RForm) (f : Num → Nat × BitVec 5) (t : Thread) : Effect :=
  .float x.ty (f (decodeF x.ty (srcRaw s t x.ty x.a)))

/-- FSGN (R127): the sign bit alone changes. -/
def signRule (om : BitVec 3) (ty : Ty) (a b : Nat) : Nat :=
  let top := 2 ^ (tyBits ty - 1)
  let sa := a / top % 2
  let sb := b / top % 2
  let sign := match om.toNat with
    | 0 => sb
    | 1 => 1 - sb
    | 2 => (sa + sb) % 2
    | 3 => 0
    | _ => 1 - sa
  a % top + sign * top

/-- The format slot that a CVT names (R76). -/
def cvtSlot (k : Kern) (c : Nat) (t : Thread) (x : RForm) : W64 :=
  match threadLaunch k c t with
  | some l => recFs l x.om.toNat
  | none => 0

/-- FADD. -/
def execFadd (x : RForm) (s : State) : Host.Outcome State Fault Refusal :=
  answer (issuePlain s (.fadd x) (floatEffect s x 2 (onTwo x.ty (addF x.ty x.rm))))
/-- FSUB. -/
def execFsub (x : RForm) (s : State) : Host.Outcome State Fault Refusal :=
  answer (issuePlain s (.fsub x) (floatEffect s x 2 (onTwo x.ty fun a b => addF x.ty x.rm a (negNum b))))
/-- FMUL. -/
def execFmul (x : RForm) (s : State) : Host.Outcome State Fault Refusal :=
  answer (issuePlain s (.fmul x) (floatEffect s x 2 (onTwo x.ty (mulF x.ty x.rm))))
/-- FMA. -/
def execFma (x : RForm) (s : State) : Host.Outcome State Fault Refusal :=
  answer (issuePlain s (.fma x) (floatEffect s x 3 (onThree x.ty (fmaF x.ty x.rm))))
/-- FDIV. -/
def execFdiv (x : RForm) (s : State) : Host.Outcome State Fault Refusal :=
  answer (issueHeld s (.fdiv x) x.la (floatEffect s x 2 (onTwo x.ty (divF x.ty x.rm))))
/-- FSQRT. -/
def execFsqrt (x : RForm) (s : State) : Host.Outcome State Fault Refusal :=
  answer (issueHeld s (.fsqrt x) x.la (floatEffect s x 1 (onOne x.ty (sqrtF x.ty x.rm))))
/-- FMIN (R123). -/
def execFmin (x : RForm) (s : State) : Host.Outcome State Fault Refusal :=
  answer (issuePlain s (.fmin x) (floatEffect s x 2 (extremeF x.ty true)))
/-- FMAX (R123). -/
def execFmax (x : RForm) (s : State) : Host.Outcome State Fault Refusal :=
  answer (issuePlain s (.fmax x) (floatEffect s x 2 (extremeF x.ty false)))
/-- FCMP (R124). -/
def execFcmp (x : RForm) (s : State) : Host.Outcome State Fault Refusal :=
  answer (issuePlain s (.fcmp x) fun t =>
    let r := cmpFloat x.om (decodeF x.ty (srcRaw s t x.ty x.a)) (decodeF x.ty (srcRaw s t x.ty x.b))
    { Effect.pred x.qp r.1 with flags := r.2 })
/-- FCLASS (R125). -/
def execFclass (x : RForm) (s : State) : Host.Outcome State Fault Refusal :=
  answer (issuePlain s (.fclass x) fun t => .values (place .n32 (classBits x.ty (srcRaw s t x.ty x.a))))
/-- FRCP. -/
def execFrcp (x : RForm) (s : State) : Host.Outcome State Fault Refusal :=
  answer (issuePlain s (.frcp x) (floatOne s x (rcpF x.ty x.rm)))
/-- FRSQ. -/
def execFrsq (x : RForm) (s : State) : Host.Outcome State Fault Refusal :=
  answer (issuePlain s (.frsq x) (floatOne s x (rsqF x.ty x.rm)))
/-- CVT (R77). -/
def execCvt (src : Ty) (x : RForm) (s : State) : Host.Outcome State Fault Refusal :=
  answer (issuePlain s (.cvt src x) fun t =>
    .float x.ty (convert src x.ty x.rm x.sat (cvtSlot s.kern s.cur.core t x) (srcRaw s t src x.a)))
/-- FRND (R126). -/
def execFrnd (x : RForm) (s : State) : Host.Outcome State Fault Refusal :=
  answer (issuePlain s (.frnd x) fun t => .float x.ty (rndF x.ty x.rm (x.om == 1) (srcRaw s t x.ty x.a)))
/-- FSGN (R127). -/
def execFsgn (x : RForm) (s : State) : Host.Outcome State Fault Refusal :=
  answer (issuePlain s (.fsgn x) fun t =>
    .values (place x.ty (signRule x.om x.ty (srcRaw s t x.ty x.a) (srcRaw s t x.ty x.b))))

end Sys2Proof.Machine
end

