-- ==== Sys2Proof/Machine/Lane.lean ====
section
/-! DEFINITION. Predicates (05 R129, R130) and the lane and group instructions (R131 to R138). -/

namespace Sys2Proof.Machine

/-- PLOG (R129). -/
def logicPred (om : BitVec 3) (a b : Bool) : Bool :=
  match om.toNat with
  | 0 => a && b
  | 1 => a || b
  | _ => a != b

/-- p0 to p6 in bits [6:0] and 1 in bit 7 (R130). -/
def predBits (t : Thread) : Nat :=
  ((List.range 7).map fun i => if readPred t false i then 2 ^ i else 0).foldl (· + ·) 128

/-- PSET (R130). -/
def psetEffect (s : State) (x : RForm) (t : Thread) : Effect :=
  match x.om.toNat with
  | 0 => .pred x.qp (srcRaw s t x.ty x.a != 0)
  | 1 => { Effect.values [] with preds := (List.range 7).map fun i => (i, (srcRaw s t .b32 x.a).testBit i) }
  | _ => .values (place .b32 (predBits t))

/-! ## Participants (R131) -/

/-- The participants of a thread's group: its threads in the entry whose guard is true, in ascending group-lane. -/
def participants (s : State) (g : Guard) (t : Thread) : List Thread :=
  (actors s).filter fun u => u.block == t.block && u.group == t.group && guardTrue u g

/-- The source lane of SHFL (R133). -/
def shflLane (om : BitVec 3) (i b : Nat) : Int :=
  match om.toNat with
  | 0 => b
  | 1 => (i : Int) - b
  | 2 => (i : Int) + b
  | _ => Nat.xor i b

/-- SHFL (R133). -/
def shflEffect (s : State) (x : RForm) (t : Thread) : Effect :=
  let j := shflLane x.om t.glane (srcCount s t x.b)
  let from_ := (participants s x.g t).find? fun u => (u.glane : Int) == j
  { Effect.pred x.qp from_.isSome with vals := place x.ty (srcRaw s (from_.getD t) x.ty x.a) }

/-- BCAST (R134). -/
def bcastEffect (s : State) (x : RForm) (t : Thread) : Effect :=
  match (participants s x.g t).find? fun u => readPredOpnd u x.c with
  | some u => { Effect.pred x.qp true with vals := place x.ty (srcRaw s u x.ty x.a) }
  | none => .pred x.qp false

/-- The sum of distinct powers of two. -/
def bitsOf (ls : List Nat) : Nat := ls.foldl (fun acc i => Nat.lor acc (2 ^ i)) 0

/-- VOTE (R135). -/
def voteEffect (s : State) (x : RForm) (t : Thread) : Effect :=
  let ps := participants s x.g t
  match x.om.toNat with
  | 0 => .pred x.qp (ps.all fun u => readPredOpnd u x.a)
  | 1 => .pred x.qp (ps.any fun u => readPredOpnd u x.a)
  | 2 => .pred x.qp (ps.all fun u => srcRaw s u x.ty x.a == srcRaw s t x.ty x.a)
  | _ => .values (place .b64 (bitsOf ((ps.filter fun u => readPredOpnd u x.a).map (·.glane))))

/-- A reduction of raw values (R136): op 0 add, 1 min, 2 max, 3 and, 4 or, 5 xor. -/
def reduce (op : Nat) (ty : Ty) (rm : Rm) (sat : Bool) (raws : List Nat) : Nat × BitVec 5 :=
  if tyFl ty then
    if op == 0 then sumF ty rm (raws.map (decodeF ty)) else extremeF ty (op == 1) raws
  else
    let xs := raws.map (intOf ty)
    let ones := 2 ^ tyBits ty - 1
    match op with
    | 0 => (deliverI ty sat (xs.foldl (· + ·) 0), 0)
    | 1 => (wrapI ty (xs.foldl min (highest ty)), 0)
    | 2 => (wrapI ty (xs.foldl max (lowest ty)), 0)
    | 3 => (raws.foldl Nat.land ones, 0)
    | 4 => (raws.foldl Nat.lor 0, 0)
    | _ => (raws.foldl Nat.xor 0, 0)

/-- The identity of an empty exclusive prefix (R137). -/
def identity (op : Nat) (ty : Ty) : Nat :=
  match op with
  | 0 => 0
  | 1 => if tyFl ty then infRaw ty else wrapI ty (highest ty)
  | _ => if tyFl ty then infRaw ty + signRaw ty true else wrapI ty (lowest ty)

/-- GRED (R136). -/
def gredEffect (s : State) (x : RForm) (t : Thread) : Effect :=
  .float x.ty (reduce x.om.toNat x.ty x.rm x.sat ((participants s x.g t).map fun u => srcRaw s u x.ty x.a))

/-- GSCAN (R137). -/
def gscanEffect (s : State) (x : RForm) (t : Thread) : Effect :=
  let exclusive := 4 ≤ x.om.toNat
  let op := x.om.toNat % 4
  let ps := (participants s x.g t).filter fun u => if exclusive then u.glane < t.glane else u.glane ≤ t.glane
  if ps.isEmpty then .values (place x.ty (identity op x.ty))
  else .float x.ty (reduce op x.ty x.rm x.sat (ps.map fun u => srcRaw s u x.ty x.a))

/-- The group-lanes of LMASK (R138). -/
def lmaskLanes (s : State) (om : BitVec 3) (t : Thread) : List Nat :=
  let ts := groupThreads (coreOf s.kern s.cur.core) t.block t.group
  match om.toNat with
  | 0 => (ts.filter fun u => u.loc == .entry s.cur.entry).map (·.glane)
  | 1 => (ts.filter live).map (·.glane)
  | 2 => (ts.filter fun u => u.loc == .parked).map (·.glane)
  | _ => List.range t.glane

/-- PLOG. -/
def execPlog (x : RForm) (s : State) : Host.Outcome State Fault Refusal :=
  answer (issuePlain s (.plog x) fun t => .pred x.qp (logicPred x.om (readPredOpnd t x.a) (readPredOpnd t x.b)))
/-- PSET. -/
def execPset (x : RForm) (s : State) : Host.Outcome State Fault Refusal := answer (issuePlain s (.pset x) (psetEffect s x))
/-- SHFL. -/
def execShfl (x : RForm) (s : State) : Host.Outcome State Fault Refusal := answer (issuePlain s (.shfl x) (shflEffect s x))
/-- VOTE. -/
def execVote (x : RForm) (s : State) : Host.Outcome State Fault Refusal := answer (issuePlain s (.vote x) (voteEffect s x))
/-- GRED. -/
def execGred (x : RForm) (s : State) : Host.Outcome State Fault Refusal :=
  answer (issueHeld s (.gred x) x.la (gredEffect s x))
/-- BCAST. -/
def execBcast (x : RForm) (s : State) : Host.Outcome State Fault Refusal :=
  answer (issuePlain s (.bcast x) (bcastEffect s x))
/-- GSCAN. -/
def execGscan (x : RForm) (s : State) : Host.Outcome State Fault Refusal :=
  answer (issueHeld s (.gscan x) x.la (gscanEffect s x))
/-- LMASK. -/
def execLmask (x : RForm) (s : State) : Host.Outcome State Fault Refusal :=
  answer (issuePlain s (.lmask x) fun t => .values (place .b64 (bitsOf (lmaskLanes s x.om t))))

end Sys2Proof.Machine
end

