-- ==== Sys2Proof/Machine/Branch.lean ====
section
/-! DEFINITION. Branches, calls and exit (05 R139 to R143). -/

namespace Sys2Proof.Machine

/-- The target of a direct branch (R30): none, where it is below zero, with the fault word of R9. -/
def directTarget (pc : Nat) (x : BForm) : Except Nat Nat :=
  let line := ((pcLine pc : Nat) : Int) + x.ldisp.toInt * 64
  if line < 0 then .error ((line + x.ts.val) % (2 ^ 64 : Nat)).toNat else .ok (line.toNat + x.ts.val)

/-- A direct transfer that first does something: below zero it raises bounds itself (R9, R142). -/
def goDirect (pc : Nat) (x : BForm) (k after : Kern) : Kern × Course :=
  match directTarget pc x with
  | .error f => (k, .trap 0x04 0 f)
  | .ok p => (after, .to p)

/-- An indirect transfer (R141): the trap of a bad target is saved at the target. As the second member of a couple it leaves what
the first member did: the trap is that of the target. DEDUCED: log entry 8. -/
def goIndirect (s : State) (target : Nat) (k after : Kern) : Kern × Course :=
  match curLaunch s with
  | none => (k, .stay)
  | some l =>
    match targetCause s.kern s.cur.core l target true with
    | some x => (k, .trapAt target x.1 0 x.2)
    | none => (after, .to target)

/-- The kernel state with the link written (R142). -/
def linked (s : State) (k : Kern) (t : Thread) (dst : List Reg) : Kern :=
  writeRegs k s.cur.core t dst (place .n64 (curNext s))

/-- BRA. -/
def execBra (x : BForm) (s : State) : Host.Outcome State Fault Refusal :=
  answer (issueEach s (.bra x) fun k _ _ => goDirect (curPc s) x k k)
/-- JMPI. -/
def execJmpi (x : BForm) (s : State) : Host.Outcome State Fault Refusal :=
  answer (issueEach s (.jmpi x) fun k t _ => goIndirect s (readPair s.kern s.cur.core t x.a) k k)
/-- CALL. -/
def execCall (x : BForm) (s : State) : Host.Outcome State Fault Refusal :=
  answer (issueEach s (.call x) fun k t d => goDirect (curPc s) x k (linked s k t d))
/-- CALLI. -/
def execCalli (x : BForm) (s : State) : Host.Outcome State Fault Refusal :=
  answer (issueEach s (.calli x) fun k t d => goIndirect s (readPair s.kern s.cur.core t x.a) k (linked s k t d))
/-- RET. -/
def execRet (x : BForm) (s : State) : Host.Outcome State Fault Refusal :=
  answer (issueEach s (.ret x) fun k t _ => goIndirect s (readPair s.kern s.cur.core t x.a) k k)
/-- A thread stands down (R374): what is on its way to its registers is discarded, and its cell keeps its state. -/
def standDown (k : Kern) (c : Nat) (t : Thread) : Kern :=
  let k := modCore k c fun core =>
    { core with copies := core.copies.map fun j =>
        if j.tslot == t.tslot && j.lane == t.lane && !j.orphan then { j with silent := true } else j }
  modThis (discardResults k c t) c t fun u => { u with loc := .down, wait := .none, latch := none }

/-- EXIT (R143): in a context that is pre-empting, a thread with PRE = 1 stands down (R374). -/
def execExit (x : BForm) (s : State) : Host.Outcome State Fault Refusal :=
  answer (issueEach s (.exit x) fun k t _ =>
    if t.pre && (getCtx k (ctxOf k s.cur.core t)).state == .preempting then (standDown k s.cur.core t, .gone)
    else exitThread k s.cur.core t)

end Sys2Proof.Machine
end

