-- ==== Sys2Proof/Machine/Sync.lean ====
section
/-! DEFINITION. Pegs, meeting, barriers, yielding and posting (05 R144 to R148; 07 R228 to R231). -/

namespace Sys2Proof.Machine

/-- An instruction that may not run in trap state: a double trap, after which the thread issues nothing (R239).
DEDUCED: log entry 17. -/
def unlessTrapState (s : State) (body : Kern → Thread → List Reg → Kern × Course) (k : Kern) (t : Thread) (d : List Reg) :
    Kern × Course :=
  if t.tstate then (doubleTrap k s.cur.core t (BitVec.ofNat 64 (curPc s)), .stay) else body k t d

/-- Begin a wait inside the instruction (R265). -/
def beginWait (k : Kern) (c : Nat) (t : Thread) (w : Wait) : Kern × Course :=
  (modThis k c t fun u => { u with wait := w }, .stay)

/-- Illegal instruction at issue. -/
def illegalHere (k : Kern) : Kern × Course := (k, .trap 0x01 0 0)

/-! ## Pegs (R144 to R146) -/

/-- The number of a peg operand. -/
def pegNumber : Opnd → Nat
  | .peg i => i.val
  | _ => 0

/-- A peg of a block. -/
def pegOf (blk : Block) (pg : Nat) : Peg :=
  blk.pegs.getD pg { first := 0, count := 0, episode := .none, arrived := [], owedMeet := [], owedSign := [], pass := [],
                     lastMx := none }

/-- Change a peg. -/
def modPeg (k : Kern) (c b pg : Nat) (f : Peg → Peg) : Kern :=
  modBlock k c b fun blk => { blk with pegs := lmod blk.pegs pg f }

/-- A group is a member of a peg. -/
def inPeg (p : Peg) (g : Nat) : Bool := p.first ≤ g && g < p.first + p.count

/-- A peg with OWED of a thread cleared. -/
def clearOwed (id : Nat) (p : Peg) : Peg :=
  { p with owedMeet := p.owedMeet.filter (· != id), owedSign := p.owedSign.filter (· != id) }

/-- A peg at which a thread arrives in an episode of a kind. -/
def arrivePeg (id : Nat) (e : Episode) (p : Peg) : Peg :=
  { p with episode := if p.episode == .none then e else p.episode, arrived := addOnce p.arrived id }

/-- MEET of one thread (R145). -/
def meetBody (c pg : Nat) (k : Kern) (t : Thread) : Kern × Course :=
  match blockOf k c t.block with
  | none => (k, .next)
  | some blk =>
    let id := memberId blk t
    let p := pegOf blk pg
    let clear (k : Kern) : Kern := modPeg k c t.block pg (clearOwed id)
    if !inPeg p t.group then illegalHere k
    else if p.owedMeet.contains id then (clear k, .next)
    else if p.episode == .signOpen then illegalHere (clear k)
    else if p.episode == .signClosed then beginWait (clear k) c t (.meet pg true)
    else beginWait (modPeg (clear k) c t.block pg (arrivePeg id .meetOpen)) c t (.meet pg false)

/-- PEG of one thread (R146): a signature. -/
def signBody (c pg : Nat) (k : Kern) (t : Thread) : Kern × Course :=
  match blockOf k c t.block with
  | none => (k, .next)
  | some blk =>
    let id := memberId blk t
    let p := pegOf blk pg
    if !inPeg p t.group then illegalHere k
    else if p.owedSign.contains id then (modPeg k c t.block pg (clearOwed id), .next)
    else if p.episode == .meetOpen then illegalHere k
    else if p.episode == .signClosed || p.arrived.contains id then beginWait k c t (.sign pg)
    else (modPeg k c t.block pg fun p => arrivePeg id .signOpen (clearOwed id p), .next)

/-- PEG.def (R146, R211). -/
def pegDefBody (c pg first count : Nat) (k : Kern) (t : Thread) : Kern × Course :=
  match blockOf k c t.block with
  | none => (k, .next)
  | some blk =>
    if (pegOf blk pg).episode != .none || blk.groups.length < first + count then illegalHere k
    else (modPeg k c t.block pg fun p => { p with first := first, count := count, owedMeet := [], owedSign := [], pass := [] }, .next)

/-! ## Barriers (R228, R229) -/

/-- A barrier of a block. -/
def barOf (blk : Block) (b : Nat) : Barrier := blk.bars.getD b { gen := 0, arr := [], next := 0, due := 0, order := 0 }

/-- Change a barrier. -/
def modBar (k : Kern) (c blk b : Nat) (f : Barrier → Barrier) : Kern :=
  modBlock k c blk fun x => { x with bars := lmod x.bars b f }

/-- Set or clear ARR of a thread. -/
def setArr (id : Nat) (a : Option Arrival) (b : Barrier) : Barrier :=
  { b with arr := match a with | some x => mset b.arr id x | none => mdel b.arr id }

/-- ARR is an arrival in a generation. -/
def arrivedIn (g : BitVec 16) : Option Arrival → Bool
  | some (.inGen h) => g == h
  | some (.byBar h) => g == h
  | _ => false

/-- BARARR of one thread (R229). -/
def barArriveBody (c b : Nat) (k : Kern) (t : Thread) : Kern × Course :=
  match blockOf k c t.block with
  | none => (k, .next)
  | some blk =>
    let id := memberId blk t
    let x := barOf blk b
    let a := mget x.arr id
    if a == some .owed then (modBar k c t.block b (setArr id (some (.inGen (x.gen - 1)))), .next)
    else if arrivedIn x.gen a then beginWait k c t (.barArrive b)
    else (modBar k c t.block b (setArr id (some (.inGen x.gen))), .next)

/-- A thread passes a barrier whose last opening counted its arrival or its parking: its later accesses come after what that
opening ordered (R230). DEDUCED: log entry 28. -/
def passBarrier (k : Kern) (c b : Nat) (t : Thread) (x : Barrier) (id : Nat) : Kern :=
  let k := modBar k c t.block b (setArr id none)
  if (mget x.arr id).isSome then modThis k c t fun u => { u with fence := max u.fence x.order } else k

/-- BARWT of one thread (R229). -/
def barWaitBody (c b : Nat) (k : Kern) (t : Thread) : Kern × Course :=
  match blockOf k c t.block with
  | none => (k, .next)
  | some blk =>
    let id := memberId blk t
    let x := barOf blk b
    if arrivedIn x.gen (mget x.arr id) then beginWait k c t (.bar b x.gen)
    else (passBarrier k c b t x id, .next)

/-- BAR of one thread (R229). An arrival in which it waited, and which an opening has passed, does not arrive again.
DEDUCED: log entry 16. -/
def barBody (c b : Nat) (k : Kern) (t : Thread) : Kern × Course :=
  match blockOf k c t.block with
  | none => (k, .next)
  | some blk =>
    let id := memberId blk t
    let x := barOf blk b
    let a := mget x.arr id
    let passed := match a with | some (.byBar g) => g != x.gen | _ => false
    if a == some .owed || passed then (passBarrier k c b t x id, .next)
    else beginWait (modBar k c t.block b (setArr id (some (.byBar x.gen)))) c t (.bar b x.gen)

/-! ## Job cards (R231, R355) -/

/-- The graph whose run the poster's launch counts towards (R354, R356). -/
def posterGraph (k : Kern) (c : Nat) (t : Thread) : Nat := ((threadLaunch k c t).map (·.graph)).getD 0

/-- The bay of a core: DIE × 8 + CORE / 8 (R1, R244). -/
def bayOf (c : Nat) : Nat := c / 8

/-- The j-th core after a core within its bay, counted cyclically. -/
def afterInBay (c j : Nat) : Nat := c / 8 * 8 + (c % 8 + j) % 8

/-- The queue that a POST names: 0 core, 1 neighbour, 2 bay. -/
inductive PostTo where
  | core
  | bay
  deriving DecidableEq, Repr

/-- Append a card to a core's queue. -/
def pushCore (k : Kern) (c : Nat) (x : Card) : Kern := modCore k c fun core => { core with cards := core.cards ++ [x] }

/-- Append a card to a bay's queue. -/
def pushBay (k : Kern) (b : Nat) (x : Card) : Kern :=
  { k with bayCards := mset k.bayCards b (((mget k.bayCards b).getD []) ++ [x]) }

/-- POST of one thread (R231): a card that is not prepared raises rights. The run that the card counts towards has one more
card out (R354). -/
def postBody (c n : Nat) (push : Kern → Card → Kern) (k : Kern) (t : Thread) : Kern × Course :=
  let ctx := ctxOf k c t
  match preparedNode k ctx n with
  | none => (k, .trap 0x05 0 0)
  | some x =>
    let g := posterGraph k c t
    let k := { k with graphs := mmod k.graphs g fun x => { x with cardsOut := x.cardsOut + 1 } }
    (push k { ctx := ctx, card := n, rec_ := x.rec_, graph := g, launch := none }, .next)

/-! ## The instructions -/

/-- MEET. -/
def execMeet (x : SForm) (s : State) : Host.Outcome State Fault Refusal :=
  answer (issueEach s (.meet x) (unlessTrapState s fun k t _ => meetBody s.cur.core (pegNumber x.a) k t))
/-- PEG. -/
def execPeg (x : SForm) (s : State) : Host.Outcome State Fault Refusal :=
  answer (issueEach s (.peg x) (unlessTrapState s fun k t _ => signBody s.cur.core (pegNumber x.a) k t))
/-- PEG.def. -/
def execPegDef (x : SForm) (s : State) : Host.Outcome State Fault Refusal :=
  answer (issueEach s (.pegDef x) (unlessTrapState s fun k t _ =>
    pegDefBody s.cur.core (pegNumber x.a) (x.imm.toNat / 256 % 64) (x.imm.toNat % 64 + 1) k t))
/-- BAR. -/
def execBar (x : SForm) (s : State) : Host.Outcome State Fault Refusal :=
  answer (issueEach s (.bar x) (unlessTrapState s fun k t _ => barBody s.cur.core x.imm.toNat k t))
/-- BARARR. -/
def execBararr (x : SForm) (s : State) : Host.Outcome State Fault Refusal :=
  answer (issueEach s (.bararr x) (unlessTrapState s fun k t _ => barArriveBody s.cur.core x.imm.toNat k t))
/-- BARWT. -/
def execBarwt (x : SForm) (s : State) : Host.Outcome State Fault Refusal :=
  answer (issueEach s (.barwt x) (unlessTrapState s fun k t _ => barWaitBody s.cur.core x.imm.toNat k t))
/-- YIELD (R148): with n above 0 the threads stay in the entry, which sleeps for n core cycles. DEDUCED: log entry 26. -/
def execYield (x : SForm) (s : State) : Host.Outcome State Fault Refusal :=
  let n := x.imm.toNat
  let c := s.cur.core
  answer (issueEach s (.yield x) fun k t _ =>
    if n == 0 then (k, .next)
    else
      let till := (coreOf k c).cycle + n
      let wake (e : Entry) : Entry := { e with sleep := some till }
      beginWait (modCore k c fun core => { core with entries := mmod core.entries s.cur.entry wake }) c t (.yielding till))
/-- POST.core. -/
def execPostCore (x : SForm) (s : State) : Host.Outcome State Fault Refusal :=
  let c := s.cur.core
  answer (issueEach s (.postCore x) fun k t _ => postBody c (srcRaw s t .n32 x.a) (fun k y => pushCore k c y) k t)
/-- POST.nbr: every core of an enabled bay is enabled (R1), so the k-th is k places on. -/
def execPostNbr (x : SForm) (s : State) : Host.Outcome State Fault Refusal :=
  let c := s.cur.core
  let d := afterInBay c x.imm.toNat
  answer (issueEach s (.postNbr x) fun k t _ => postBody c (srcRaw s t .n32 x.a) (fun k y => pushCore k d y) k t)
/-- POST.bay. -/
def execPostBay (x : SForm) (s : State) : Host.Outcome State Fault Refusal :=
  let c := s.cur.core
  answer (issueEach s (.postBay x) fun k t _ => postBody c (srcRaw s t .n32 x.a) (fun k y => pushBay k (bayOf c) y) k t)

end Sys2Proof.Machine
end

