-- ==== Sys2Proof/Machine/Cell.lean ====
section
/-! DEFINITION. Faces and steps of a cell, neighbours, settling and residuals (07 R220 to R227; 10 R283 to R299). -/

namespace Sys2Proof.Machine

/-! ## FWR (R220) -/

/-- Stage one face of a cell. -/
def stageFace (n : Nat) (x : W32) (t : Thread) : Thread := { t with stage := rset 0 t.stage n x, marks := rset false t.marks n true }

/-- Stage the value of an FWR. -/
def stageValue (n : Nat) (vals : List W32) (t : Thread) : Thread :=
  match vals with
  | [x] => stageFace n x t
  | [x, y] => stageFace (n + 1) y (stageFace n x t)
  | _ => t

/-- The face that FWR names. -/
def faceNumber : Opnd → Nat
  | .face _ n => n.val
  | _ => 0

/-! ## STEP and SETTLE (R221, R224, R294) -/

/-- The roster after a cell has published (R294): it continues, waits to be saved, or gives its position to another. -/
def roster (k : Kern) (c : Nat) (t : Thread) (mask next : Nat) : Kern × Course :=
  match cellPlace k c t with
  | none => (k, .next)
  | some (l, r, b) =>
    match leastAway k c r l with
    | none => (k, .next)
    | some (a, sigma) =>
      if sigmaAt k (recordAt c r b) ≤ sigma then (k, .next)
      else if resultsPending k c t || !maskReadable k c r l a then beginWait k c t (.rotate mask (BitVec.ofNat 64 next))
      else
        let x := rotateCell k c t r l b mask next a
        (x.1, .to x.2)

/-- A step of one cell (R221): at a safe point where the brick is virtualised (R55; the lookup parks as any access does), it ends
the step, publishes, does what the instruction adds, and applies the roster. -/
def stepBody (s : State) (release : Bool) (end_ : Kern → Nat → Nat → Kern) (after : Kern → Kern) (k : Kern) (t : Thread) :
    Kern × Course :=
  let c := s.cur.core
  match cellPlace k c t with
  | none => (k, .next)
  | some (l, r, b) =>
    let go (k : Kern) : Kern :=
      let k := if release then drainWhere k c fun e => e.cells.contains (r.launch, b) else k
      after (publish (end_ k r.launch (sigmaAt k (recordAt c r b))) c t l r b release)
    if r.virt then
      match safePoint k l (curPc s) with
      | (k, .error x) => (k, x)
      | (k, .ok none) => illegalHere k
      | (k, .ok (some m)) => roster (go k) c t m (curNext s)
    else (go k, .next)

/-- What SETTLE writes in the cell (R224): its signature, tolerance and cap before the step, ΣOPEN after it. -/
def openSolve (sig : W64) (tol : W32) (cap : BitVec 16) (sopen : Nat) (t : Thread) : Thread :=
  { t with settle := { t.settle with sig := sig, tol := tol, cap := cap, opened := true, sopen := BitVec.ofNat 64 sopen } }

/-! ## Residuals (R226, R227) -/

/-- The exact maximum of magnitudes; the canonical NaN for a NaN (R226). -/
def maxAbs (xs : List W32) : Nat :=
  if xs.any fun x => isNan (decodeF .f32 x.toNat) then canonNaN .f32 else xs.foldl (fun m x => max m (x.toNat % 2 ^ 31)) 0

/-- The sum of squares rounded once (R226). -/
def sumSquares (xs : List W32) : Nat :=
  (sumF .f32 .rne (xs.map fun x =>
    let a := decodeF .f32 x.toNat
    match a with
    | .nan _ => .nan false
    | _ => (mulNum a a).getD (.nan false))).1

/-- v of STEST (R227). -/
def trussValue (x : TrussStep) : W32 :=
  if !x.maxabs.isEmpty then BitVec.ofNat 32 (maxAbs x.maxabs)
  else if !x.sumsq.isEmpty then BitVec.ofNat 32 (sumSquares x.sumsq)
  else 0

/-- v ≤ TOL as binary32 (R227). -/
def meetsTol (v tol : W32) : Bool :=
  let a := decodeF .f32 v.toNat
  let b := decodeF .f32 tol.toNat
  !isNan a && !isNan b && !ltNum b a

/-- STEST of one cell (R227). -/
def stestBody (c : Nat) (qp : Option (Fin 7)) (k : Kern) (t : Thread) : Kern × Course :=
  match cellPlace k c t with
  | none => (k, .next)
  | some (_, r, b) =>
    let sigma := sigmaAt k (recordAt c r b)
    if !solveOpen t sigma then illegalHere k
    else
      let v := trussValue (trussStep ((mget k.fields r.launch).getD .start) (sigma - 1))
      let q := meetsTol v t.settle.tol || t.settle.cap.toNat ≤ sigma - t.settle.sopen.toNat
      let k := modThis k c t fun u => { u with settle := { u.settle with truss := v, opened := u.settle.opened && !q } }
      (match qp with | some p => writePred k c t p.val q | none => k, .next)

/-- RESID of one cell (R226). -/
def residBody (c : Nat) (sumsq : Bool) (a : W32) (k : Kern) (t : Thread) : Kern × Course :=
  match cellPlace k c t with
  | none => (k, .next)
  | some (_, r, b) =>
    if !t.settle.opened then illegalHere k
    else
      let sigma := sigmaAt k (recordAt c r b)
      (shareTruss (modTruss k r.launch sigma (addResidual sumsq a)) r.launch (if sumsq then 6 else 5) sigma [a], .next)

/-! ## NQ (R222) -/

/-- The direction of an NQ operand. -/
def dirOperand : Opnd → Dir
  | .imm x => (dirOf x.toNat).getD .me
  | _ => .me

/-- NQ (R222): exists, index, remote. -/
def nqEffect (s : State) (x : RForm) (t : Thread) : Effect :=
  match cellPlace s.kern s.cur.core t with
  | none => .values []
  | some (l, r, b) =>
    let n := neighbour l (cellAt l r.brick b) (dirOperand x.a)
    match x.om.toNat with
    | 0 => .pred x.qp n.isSome
    | 1 => .values [match n with | some m => BitVec.ofNat 32 (linear l m) | none => 0xFFFFFFFF]
    | _ =>
      .pred x.qp (match n with
        | some m => !l.bricks.any fun p => p.1 == (brickOf l m).1
        | none => false)

/-! ## The instructions -/

/-- FWR (R220): bits are staged, no flag is raised. -/
def execFwr (x : RForm) (s : State) : Host.Outcome State Fault Refusal :=
  answer (issueEach s (.fwr x) fun k t _ =>
    (modThis k s.cur.core t (stageValue (faceNumber x.d) (place x.ty (srcRaw s t x.ty x.a))), .next))
/-- STEP. -/
def execStep (x : SForm) (s : State) : Host.Outcome State Fault Refusal :=
  answer (issueEach s (.step x) (unlessTrapState s fun k t _ => stepBody s false endStep id k t))
/-- STEP.R. -/
def execStepR (x : SForm) (s : State) : Host.Outcome State Fault Refusal :=
  answer (issueEach s (.stepR x) (unlessTrapState s fun k t _ => stepBody s true endStep id k t))
/-- NQ. -/
def execNq (x : RForm) (s : State) : Host.Outcome State Fault Refusal := answer (issuePlain s (.nq x) (nqEffect s x))
/-- SETTLE (R224). -/
def execSettle (x : SForm) (s : State) : Host.Outcome State Fault Refusal :=
  let c := s.cur.core
  answer (issueEach s (.settle x) (unlessTrapState s fun k t _ =>
    let sig := BitVec.ofNat 64 (readPair s.kern c t x.d)
    let tol := BitVec.ofNat 32 (readLow s.kern c t x.a)
    stepBody s false (fun k serial sigma => endSettle k serial sigma sig)
      (fun k => modThis k c t (openSolve sig tol x.imm (sigmaOf k c t))) k t))
/-- RESID. -/
def execResid (x : RForm) (s : State) : Host.Outcome State Fault Refusal :=
  answer (issueEach s (.resid x) fun k t _ =>
    residBody s.cur.core (x.om == 1) (BitVec.ofNat 32 (srcRaw s t .f32 x.a)) k t)
/-- STEST. -/
def execStest (x : RForm) (s : State) : Host.Outcome State Fault Refusal :=
  answer (issueEach s (.stest x) fun k t _ => stestBody s.cur.core x.qp k t)

end Sys2Proof.Machine
end

