-- ==== Sys2Proof/Machine/LoadStore.lean ====
section
/-! DEFINITION. Loads, stores, atomics, fences, cache control, valid bits and capabilities (06 R149 to R173). -/

namespace Sys2Proof.Machine

/-! ## The checks of an access at issue (R151, R152) -/

/-- An access that has passed its checks: its location and its physical runs. -/
structure Access where
  spot : Spot
  runs : List (Nat × Nat)
  deriving DecidableEq, Repr

/-- The checks of an access in one thread: R151, then for the scratchpad the valid bits and the race detector, then for an
object its placement. The state after the checks, and the course of a thread that fails or the access. -/
def checkAccess (s : State) (k : Kern) (t : Thread) (x : MForm) (useIdx : Bool) (size need : Nat) (touch : Touch) :
    Kern × Except Course Access :=
  let c := s.cur.core
  match spotOf s.kern c t x useIdx size size need, blockOf k c t.block with
  | .error e, _ => (k, .error (.trap e.1 0 e.2))
  | .ok _, none => (k, .error .stay)
  | .ok p, some blk =>
    match detect k c t (curPc s) p size touch with
    | (k, some e) => (k, .error (.trap e.1 0 e.2))
    | (k, none) =>
      match spotRuns k c blk p size with
      | .error e => (k, .error (.park e.1 e.2))
      | .ok rs => (k, .ok { spot := p, runs := rs })

/-- The fault word of a poisoned byte of an access (R237). DEDUCED: log entry 18. -/
def poisonFault (p : Spot) (off : Nat) : Nat := if p.space == .ob then capForm p.cap (p.ea + off) else p.ea + off

/-- The trap of poison met by an access of a thread. DEDUCED: log entry 39. -/
def poisonTrap (k : Kern) (c : Nat) (t : Thread) (p : Spot) (h : Nat × Poison) : Course :=
  .lateTrap (poisonCause (classOf k c t) h.2) 0 (poisonFault p h.1)

/-- A store or an atomic on the line of an object access has not been performed: what the access meets is known only then. -/
def writePending (core : Core) (ctx : Nat) (p : Spot) : Bool :=
  core.reqs.any fun q => q.kind != .load && q.ctx == ctx && capObj q.cap.toNat == capObj p.cap && q.ea / 64 == p.ea / 64

/-- Object poison that an access of a P or D kernel meets at issue; a line that the line cache holds answers without. -/
def issuePoison (k : Kern) (c : Nat) (t : Thread) (a : Access) (cachedRead : Bool) : Option (Nat × Poison) :=
  let ctx := ctxOf k c t
  if classOf k c t == 2 || a.spot.space != .ob || writePending (coreOf k c) ctx a.spot then none
  else if cachedRead && (cachedLine (coreOf k c) ctx (capObj a.spot.cap) (a.spot.ea / 64)).isSome then none
  else (poisonHits k a.runs).head?

/-- The bytes of a scratchpad read with those of words that are not valid read as 0 (R304). -/
def maskInvalid (blk : Block) (ea : Nat) (bs : List Byte) : List Byte :=
  ((List.range bs.length).zip bs).map fun p => if blk.valid.contains ((ea + p.1) / 4) then p.2 else 0

/-- The mask of a scratchpad access; other spaces have no valid bits (R307). DEDUCED: log entry 19. -/
def maskSpot (b : Option Block) (p : Spot) (bs : List Byte) : List Byte :=
  match b with
  | some blk => if p.space == .sp then maskInvalid blk p.ea bs else bs
  | none => bs

/-- A result that is known at once goes to its registers, through its window (R41). -/
def deliverNow (k : Kern) (c : Nat) (t : Thread) (dst : List Reg) (vals : List W32) (la : BitVec 4) : Kern :=
  let h := holdResult k c t dst [] 0 la
  arriveHeld h.2 c t h.1 vals 0

/-- Zeros in the words of a store or atomic whose valid bits are clear, before it is performed (R156). -/
def zeroInvalid (k : Kern) (c : Nat) (b : Option Block) (p : Spot) (size : Nat) : Kern :=
  match b with
  | none => k
  | some blk =>
    if p.space != .sp then k
    else (wordsOf p.ea size).foldl (fun k w =>
      if blk.valid.contains w then k else putBytes k (rowBase c blk.baseRow + 4 * w) [0, 0, 0, 0]) k

/-- Nothing of an object access can park or trap its thread after its issue: it is not remote, and no poison that the checks at
issue have passed over lies in it (R152). -/
def firmAccess (k : Kern) (c : Nat) (t : Thread) (a : Access) : Bool :=
  !remoteSpot k (ctxOf k c t) a.spot && (classOf k c t == 2 || (poisonHits k a.runs).isEmpty)

/-- The request of an object access. -/
def requestOf (s : State) (k : Kern) (t : Thread) (x : MForm) (a : Access) (kind : ReqKind) (size data cmp : Nat)
    (held : Option Nat) : Req :=
  let ctx := ctxOf k s.cur.core t
  { id := k.id, tslot := t.tslot, lane := t.lane, ctx := ctx, kind := kind, ty := x.ty, acq := x.acq, rel := x.rel, sc := x.sc,
    na := x.na, cap := BitVec.ofNat 64 a.spot.cap, ea := a.spot.ea, size := size, data := data, cmp := cmp, held := held,
    pc := BitVec.ofNat 64 (curPc s), remote := if remoteSpot k ctx a.spot then some (homeOf k ctx a.spot) else none,
    sent := false, block := t.block, after := t.fence, cell := cellKey k s.cur.core t,
    serial := serialOf k s.cur.core t, firm := kind == .store && !remoteSpot k ctx a.spot || firmAccess k s.cur.core t a, paid := false }

/-- Send a request (R157): the drains that it needs begin (R154). -/
def sendReq (k : Kern) (c : Nat) (t : Thread) (q : Req) : Kern :=
  let k := if q.rel then drainOf k c t else k
  let k := drainWhere k c fun e => e.ctx == q.ctx && e.obj == capObj q.cap.toNat && e.line == q.ea / 64
  addReq { k with id := q.id + 1 } c q

/-! ## Loads (R158) -/

/-- One load of a thread: of the scratchpad or the exchange region at once, of an object by a request. -/
def loadBody (s : State) (x : MForm) (size : Nat) (k : Kern) (t : Thread) (dst : List Reg) : Kern × Course :=
  let c := s.cur.core
  let blk := blockOf k c t.block
  match checkAccess s k t x true size needRead { reads := true, writes := false, atomic := false } with
  | (k, .error e) => (k, e)
  | (k', .ok a) =>
    match a.spot.space with
    | .ob =>
      match issuePoison k' c t a (cachedSpot k' (ctxOf k' c t) a.spot && !(x.acq && wideScope x.sc)) with
      | some h => ((readTrap k' (ctxOf k' c t) (classOf k' c t) a.runs).1, poisonTrap k' c t a.spot h)
      | none =>
        let h := holdResult k' c t dst [] 0 x.la
        (sendReq h.2 c t (requestOf s h.2 t x a .load size 0 0 (some h.1)), .next)
    | _ =>
      match readTrap k' (ctxOf k' c t) (classOf k' c t) a.runs with
      | (k'', .error h) => (k'', poisonTrap k' c t a.spot h)
      | (k'', .ok bs) =>
        let k'' := if x.acq && wideScope x.sc then dropLines k'' c else k''
        (deliverNow k'' c t dst (answerWords x.ty size (maskSpot blk a.spot bs)) x.la, .next)

/-! ## Stores (R158) -/

/-- The data of a store: one value, or consecutive registers. -/
def storeData (s : State) (x : MForm) (t : Thread) (size : Nat) : Nat :=
  if memBytes x.ty == size then srcRaw s t x.ty x.d
  else natOfBytes ((List.range (size / 4)).flatMap fun i => bytesOfNat 4 (readAt s.kern s.cur.core t x.d i).toNat)

/-- One store of a thread. -/
def storeBody (s : State) (x : MForm) (size : Nat) (k : Kern) (t : Thread) : Kern × Course :=
  let c := s.cur.core
  let blk := blockOf k c t.block
  let data := storeData s x t size
  match checkAccess s k t x true size needWrite { reads := false, writes := true, atomic := false } with
  | (k, .error e) => (k, e)
  | (k', .ok a) =>
    match a.spot.space with
    | .ob =>
      let ctx := ctxOf k' c t
      if remoteSpot k' ctx a.spot && !x.rel then
        (combineStore k' c ctx (homeOf k' ctx a.spot) (capObj a.spot.cap) a.spot.ea t (bytesOfNat size data), .next)
      else (sendReq k' c t (requestOf s k' t x a .store size data 0 none), .next)
    | _ =>
      let k' := zeroInvalid k' c blk a.spot size
      (touchSpot (putRuns k' a.runs (bytesOfNat size data)) c t a.spot size
        { reads := false, writes := true, atomic := false }, .next)

/-! ## Atomics (R160 to R166) -/

/-- One atomic of a thread. DEDUCED: log entry 37. -/
def atomicBody (s : State) (x : MForm) (useIdx : Bool) (kind : ReqKind) (data cmp : Nat) (returns : Bool) (k : Kern)
    (t : Thread) (dst : List Reg) : Kern × Course :=
  let c := s.cur.core
  let size := memBytes x.ty
  let blk := blockOf k c t.block
  match checkAccess s k t x useIdx size needAtomic { reads := true, writes := true, atomic := true } with
  | (k, .error e) => (k, e)
  | (k', .ok a) =>
    match a.spot.space with
    | .ob =>
      match issuePoison k' c t a false with
      | some h => ((readTrap k' (ctxOf k' c t) (classOf k' c t) a.runs).1, poisonTrap k' c t a.spot h)
      | none =>
        if returns then
          let h := holdResult k' c t dst [] 0 x.la
          (sendReq h.2 c t (requestOf s h.2 t x a kind size data cmp (some h.1)), .next)
        else (sendReq k' c t (requestOf s k' t x a kind size data cmp none), .next)
    | _ =>
      let mask (old : Nat) : Nat := natOfBytes (maskSpot blk a.spot (bytesOfNat size old))
      let r := performAtomic (zeroInvalid k' c blk a.spot size) (ctxOf k' c t) (classOf k' c t) (a.runs.headD (0, 0)) kind x.ty
        mask data cmp
      match r with
      | (_, .error h) => ((readTrap k' (ctxOf k' c t) (classOf k' c t) a.runs).1, poisonTrap k' c t a.spot h)
      | (k'', .ok old) =>
        let k'' := touchSpot k'' c t a.spot size { reads := true, writes := true, atomic := true }
        let k'' := if x.acq && wideScope x.sc then dropLines k'' c else k''
        (if returns then deliverNow k'' c t dst (place x.ty old) x.la else k'', .next)

/-- The compare and new values of CAS (R162). -/
def casOperands (s : State) (x : MForm) (t : Thread) : Nat × Nat :=
  let r (j : Nat) : W32 := readAt s.kern s.cur.core t x.idx j
  if tyWide x.ty then (rawOf x.ty (r 0) (r 1), rawOf x.ty (r 2) (r 3)) else (rawOf x.ty (r 0) 0, rawOf x.ty (r 1) 0)

/-! ## Line forms (R168, R170) -/

/-- The line that an address names, checked with size 1 and need 0 (R168). -/
def lineForm (s : State) (x : MForm) (f : Kern → Nat → Nat → Nat → Kern) (k : Kern) (t : Thread) : Kern × Course :=
  match spotOf s.kern s.cur.core t x true 1 1 0 with
  | .error e => (k, .trap e.1 0 e.2)
  | .ok p => (f k (ctxOf k s.cur.core t) (capObj p.cap) (p.ea / 64), .next)

/-- PREF of one thread (R170): the line is filled if nothing is wrong with it. -/
def prefetch (s : State) (x : MForm) (k : Kern) (t : Thread) : Kern :=
  let c := s.cur.core
  let ctx := ctxOf k c t
  match spotOf s.kern c t x true 1 1 needRead with
  | .error _ => k
  | .ok p =>
    let o := capObj p.cap
    if !cachedSpot k ctx p || (cachedLine (coreOf k c) ctx o (p.ea / 64)).isSome then k
    else
      match objRuns k ctx o (p.ea / 64 * 64) 64 with
      | .error _ => k
      | .ok rs =>
        if (poisonHits k rs).isEmpty then
          fillLine (takeTokens k c ctx 64) c ctx o (p.ea / 64) (BitVec.ofNat 512 (natOfBytes (getRuns k rs)))
        else k

/-! ## VALID (R169) -/

/-- The words of n bytes from an address. -/
def wordRange (ea n : Nat) : List Nat := (List.range (n / 4)).map fun i => ea / 4 + i

/-- VALID.set or VALID.clr of one thread. -/
def validBody (s : State) (x : MForm) (f : List Nat → List Nat → List Nat) (k : Kern) (t : Thread) : Kern × Course :=
  let c := s.cur.core
  let n := srcCount s t x.d
  match spotOf s.kern c t x true 4 4 0, blockOf k c t.block with
  | .error e, _ => (k, .trap e.1 0 e.2)
  | .ok _, none => (k, .stay)
  | .ok p, some blk =>
    if n % 4 != 0 || blk.sb < p.ea + n then (k, .trap 0x04 0 p.ea)
    else (modBlock k c t.block fun b => { b with valid := f b.valid (wordRange p.ea n) }, .next)

/-- VALID.get of one thread: words at or beyond the allocation give 0. -/
def validGetBody (s : State) (x : MForm) (k : Kern) (t : Thread) (dst : List Reg) : Kern × Course :=
  let c := s.cur.core
  match spotOf s.kern c t x true 4 4 0, blockOf k c t.block with
  | .error e, _ => (k, .trap e.1 0 e.2)
  | .ok _, none => (k, .stay)
  | .ok p, some blk =>
    if p.ea % 128 != 0 then (k, .trap 0x04 0 p.ea)
    else
      let bits := (List.range 32).filter fun i => p.ea + 4 * i < blk.sb && blk.valid.contains (p.ea / 4 + i)
      (writeRegs k c t dst [BitVec.ofNat 32 (bitsOf bits)], .next)

/-! ## Capabilities (R171 to R173) -/

/-- A capability with other rights. -/
def withRights (cap r : Nat) : Nat := cap / 2 ^ 40 * 2 ^ 40 + r % 16 * 2 ^ 36 + cap % 2 ^ 36
/-- A capability with another offset. -/
def withOff (cap off : Nat) : Nat := cap / 2 ^ 36 * 2 ^ 36 + off % 2 ^ 36

/-- The queries of CAPQ (R173). DEDUCED: log entry 31. -/
def capQuery (k : Kern) (ctx cap om : Nat) : Nat :=
  match getObj k ctx (capObj cap) with
  | none => if om == 2 then 3 else 0
  | some e =>
    match om with
    | 0 => e.size
    | 1 => effective e cap
    | 2 => (match e.cls with | .p => 0 | .d => 1 | .n => 2)
    | 3 => (match e.home with | .hbm => 0 | .vault => 1 | .remote => 2) * 2 ^ 32 + e.hdev % 2 ^ 32
    | _ => e.size - capOff cap

/-- CAPDER or CAPADD of one thread: the object must be known, and a new offset must lie from 0 to SIZE (R172). -/
def capBody (s : State) (x : RForm) (f : Nat → ObjEntry → Option Nat) (k : Kern) (t : Thread) (dst : List Reg) :
    Kern × Course :=
  let cap := readPair s.kern s.cur.core t x.a
  match getObj k (ctxOf k s.cur.core t) (capObj cap) with
  | none => (k, .trap 0x05 0 cap)
  | some e =>
    match f cap e with
    | none => (k, .trap 0x04 0 cap)
    | some r => (writeRegs k s.cur.core t dst (place .b64 r), .next)

/-- The rights operand of CAPDER: a short immediate gives its low bits. -/
def rightsOperand (s : State) (t : Thread) (o : Opnd) : Nat :=
  match o with
  | .imm v => v.toNat % 16
  | _ => srcRaw s t .n32 o % 16

/-- The addend of CAPADD. -/
def offsetOperand (s : State) (x : RForm) (t : Thread) : Int :=
  if x.om == 1 then srcInt s t .i64 x.b else srcInt s t .i32 x.b

/-- The sum of CAPADD in range (R172). -/
def addOffset (cap size : Nat) (b : Int) : Option Nat :=
  let sum := (capOff cap : Int) + b
  if sum < 0 || (size : Int) < sum then none else some (withOff cap sum.toNat)

/-! ## The instructions -/

/-- LD. -/
def execLd (x : MForm) (s : State) : Host.Outcome State Fault Refusal :=
  answer (issueEach s (.ld x) (loadBody s x (memBytes x.ty)))
/-- ST. -/
def execSt (x : MForm) (s : State) : Host.Outcome State Fault Refusal :=
  answer (issueEach s (.st x) fun k t _ => storeBody s x (memBytes x.ty) k t)
/-- LDX. -/
def execLdx (n : XCount) (x : MForm) (s : State) : Host.Outcome State Fault Refusal :=
  answer (issueEach s (.ldx n x) (loadBody s x (4 * xCount n)))
/-- STX. -/
def execStx (n : XCount) (x : MForm) (s : State) : Host.Outcome State Fault Refusal :=
  answer (issueEach s (.stx n x) fun k t _ => storeBody s x (4 * xCount n) k t)
/-- ATOM (R162). -/
def execAtom (op : AtomOp) (x : MForm) (s : State) : Host.Outcome State Fault Refusal :=
  answer (issueEach s (.atom op x) fun k t d => atomicBody s x false (.atom op) (srcRaw s t x.ty x.idx) 0 true k t d)
/-- RED (R162, R164). -/
def execRed (op : AtomOp) (x : MForm) (s : State) : Host.Outcome State Fault Refusal :=
  answer (issueEach s (.red op x) fun k t d => atomicBody s x true (.atom op) (srcRaw s t x.ty x.d) 0 false k t d)
/-- CAS (R162). -/
def execCas (x : MForm) (s : State) : Host.Outcome State Fault Refusal :=
  answer (issueEach s (.cas x) fun k t d =>
    let v := casOperands s x t
    atomicBody s x false .cas v.2 v.1 true k t d)
/-- FENCE (R167): it issues once its orders hold; an acquire at .dev or wider invalidates the line cache. -/
def execFence (x : MForm) (s : State) : Host.Outcome State Fault Refusal :=
  answer (issueEach s (.fence x) fun k _ _ => (if x.acq && wideScope x.sc then dropLines k s.cur.core else k, .next))
/-- LCINV. -/
def execLcinv (x : MForm) (s : State) : Host.Outcome State Fault Refusal :=
  answer (issueEach s (.lcinv x) fun k t _ => lineForm s x (fun k ctx o l => dropLine k s.cur.core ctx o l) k t)
/-- LCINV.all. -/
def execLcinvAll (x : MForm) (s : State) : Host.Outcome State Fault Refusal :=
  answer (issueEach s (.lcinvAll x) fun k _ _ => (dropLines k s.cur.core, .next))
/-- WCDRAIN. -/
def execWcdrain (x : MForm) (s : State) : Host.Outcome State Fault Refusal :=
  answer (issueEach s (.wcdrain x) fun k t _ =>
    lineForm s x (fun k ctx o l => drainWhere k s.cur.core fun e => e.ctx == ctx && e.obj == o && e.line == l) k t)
/-- WCDRAIN.all. -/
def execWcdrainAll (x : MForm) (s : State) : Host.Outcome State Fault Refusal :=
  answer (issueEach s (.wcdrainAll x) fun k _ _ => (drainWhere k s.cur.core fun _ => true, .next))
/-- VALID.set. -/
def execValidSet (x : MForm) (s : State) : Host.Outcome State Fault Refusal :=
  answer (issueEach s (.validSet x) fun k t _ => validBody s x (fun v ws => ws.foldl addOnce v) k t)
/-- VALID.clr. -/
def execValidClr (x : MForm) (s : State) : Host.Outcome State Fault Refusal :=
  answer (issueEach s (.validClr x) fun k t _ => validBody s x (fun v ws => v.filter fun w => !ws.contains w) k t)
/-- VALID.get. -/
def execValidGet (x : MForm) (s : State) : Host.Outcome State Fault Refusal :=
  answer (issueEach s (.validGet x) (validGetBody s x))
/-- PREF. DEDUCED: log entry 30. -/
def execPref (x : MForm) (s : State) : Host.Outcome State Fault Refusal :=
  answer (issueEach s (.pref x) fun k t _ => (prefetch s x k t, .next))
/-- CAPDER. -/
def execCapder (x : RForm) (s : State) : Host.Outcome State Fault Refusal :=
  answer (issueEach s (.capder x) fun k t d =>
    capBody s x (fun cap _ => some (withRights cap (Nat.land (capRights cap) (rightsOperand s t x.b)))) k t d)
/-- CAPADD. -/
def execCapadd (x : RForm) (s : State) : Host.Outcome State Fault Refusal :=
  answer (issueEach s (.capadd x) fun k t d => capBody s x (fun cap e => addOffset cap e.size (offsetOperand s x t)) k t d)
/-- CAPQ. -/
def execCapq (x : RForm) (s : State) : Host.Outcome State Fault Refusal :=
  answer (issuePlain s (.capq x) fun t =>
    .values (place .b64 (capQuery s.kern (ctxOf s.kern s.cur.core t) (readPair s.kern s.cur.core t x.a) x.om.toNat)))

end Sys2Proof.Machine
end

