-- ==== Sys2Proof/Machine/Copy.lean ====
section
/-! DEFINITION. COPY, COPYQ and the timelines (06 R174 to R188, R196 to R198). -/

namespace Sys2Proof.Machine

/-! ## The descriptor (R175, R176) -/

/-- A copy descriptor. -/
structure Desc where
  d0 : Nat
  d1 : Nat
  mode : Nat
  dsp : Nat
  esz : Nat
  prm : Nat
  aux : Nat
  deriving DecidableEq, Repr

/-- The descriptor in four registers. -/
def descOf (d0 d1 d2 d3 : W32) : Desc :=
  let x := d2.toNat
  { d0 := d0.toNat, d1 := d1.toNat, mode := x / 2 ^ 28, dsp := x / 2 ^ 26 % 4, esz := x / 2 ^ 24 % 4, prm := x % 2 ^ 24,
    aux := d3.toNat }

/-- The destination capability of DSP = 01. -/
def descCap (d : Desc) : Nat := d.d0 + d.d1 * 2 ^ 32

/-- The status with which a descriptor fails R175, R176 or R256, or none. field says that the kernel has an exchange region.
DEDUCED: log entry 22. -/
def descFail (d : Desc) (src : Space) (sb : Nat) (field : Bool) : Option Nat :=
  let bad := some (statusWord 0x01 0 0)
  if 4 < d.mode || d.dsp == 3 || (d.mode != 2 && d.esz != 0) then bad
  else if d.dsp == 2 && !field then bad
  else if d.dsp != 1 && d.mode != 2 && d.d1 != 0 then bad
  else if 2 ≤ d.mode && src != .ob then bad
  else match d.mode with
    | 0 => if d.aux != 0 then bad else none
    | 1 => if d.prm % 2 ^ 12 == 0 then bad else none
    | 2 =>
      if d.dsp == 1 || d.d1 == 0 || 65536 < d.d1 || sb ≤ d.aux then bad
      else if d.d0 % 4 != 0 || d.aux % 2 ^ d.esz != 0 then some (statusWord 0x01 2 0)
      else none
    | 3 => if sb ≤ d.aux then bad else if d.aux % 4 != 0 then some (statusWord 0x01 2 0) else none
    | _ => if d.prm == 0 || 16384 < d.prm then bad else none

/-! ## The checks of R151 on ranges (R177) -/

/-- A range that a copy reads or writes: its space, its base (a capability in object space), its offsets from the base, the
alignment and the right it needs. -/
structure Part where
  space : Space
  base : Nat
  lo : Int
  hi : Int
  algn : Nat
  need : Nat
  deriving DecidableEq, Repr

/-- The ranges of a copy: sources, then destinations. base and cap are the source's address and capability.
DEDUCED: log entry 99. -/
def copyParts (d : Desc) (srcSpace : Space) (base : Nat) : List Part × List Part :=
  let dsp := if d.dsp == 1 then Space.ob else if d.dsp == 2 then Space.xr else Space.sp
  let dbase := if d.dsp == 1 then descCap d else d.d0
  let dstPart (lo hi : Int) : Part := { space := dsp, base := dbase, lo := lo, hi := hi, algn := 1, need := needWrite }
  let srcPart (lo hi : Int) (algn : Nat) : Part :=
    { space := srcSpace, base := base, lo := lo, hi := hi, algn := algn, need := needRead }
  match d.mode with
  | 0 | 1 =>
    let rows := moveRows d.mode d.prm d.aux
    let s := hull (rows.map fun r => (r.1, r.2.2))
    let t := hull (rows.map fun r => (r.2.1, r.2.2))
    ([srcPart s.1 s.2 1], [dstPart t.1 t.2])
  | 2 =>
    ([srcPart 0 32 8],
      [dstPart 0 ((d.d1 + 1 + d.prm) * 4 : Nat),
        { space := .sp, base := d.aux, lo := 0, hi := (d.prm * 2 ^ d.esz : Nat), algn := 1, need := needWrite }])
  | 3 => ([srcPart 0 32 1], [dstPart 0 d.prm])
  | _ => ([srcPart 0 4 4], [dstPart 0 (d.prm * 1024 : Nat)])

/-- Check one part (R151): cause and fault word, or its location. -/
def checkPartAt (k : Kern) (c : Nat) (blk : Block) (p : Part) : Except (Nat × Nat) Spot :=
  address k c blk p.space p.base p.lo (p.hi - p.lo).toNat p.algn p.need

/-- The scoreboard ranges of parts that pass (R184): one for each in scratchpad or the exchange region. -/
def partRanges (k : Kern) (c : Nat) (blk : Block) (b : Nat) : List Part → Except (Nat × Nat) (List Range)
  | [] => .ok []
  | p :: ps =>
    match checkPartAt k c blk p, partRanges k c blk b ps with
    | .error e, _ => .error e
    | _, .error e => .error e
    | .ok s, .ok rs =>
      let n := (p.hi - p.lo).toNat
      .ok (if p.space == .ob then rs else { space := p.space, block := b, lo := s.ea, hi := s.ea + n } :: rs)

/-! ## Acceptance (R177, R184, R196) -/

/-- The scoreboard entries in use. -/
def entriesUsed (core : Core) : Nat := (core.copies.map fun j => j.srcR.length + j.dstR.length).sum

/-- A copy slot and n scoreboard entries are free. -/
def copyRoom (core : Core) (n : Nat) : Bool := core.copies.length < 64 && entriesUsed core + n ≤ 32

/-- What a thread's COPY is once checked: it traps, or it needs n scoreboard entries. -/
structure Wanted where
  fail : Option W32
  srcR : List Range
  dstR : List Range
  deriving DecidableEq, Repr

/-- Conditions 2 and 3 of R177 in a thread. DEDUCED: log entry 21. -/
def checkCopy (k : Kern) (c : Nat) (t : Thread) (blk : Block) (space : Space) (base : Nat) (d : Desc) :
    Except (Nat × Nat) Wanted :=
  match descFail d space blk.sb (inField k c t) with
  | some st => .ok { fail := some (BitVec.ofNat 32 st), srcR := [], dstR := [] }
  | none =>
    let ps := copyParts d space base
    match partRanges k c blk t.block ps.1, partRanges k c blk t.block ps.2 with
    | .error e, _ => .error e
    | _, .error e => .error e
    | .ok s, .ok t => .ok { fail := none, srcR := s, dstR := t }

/-- A capability with an offset added, modulo its field (R27, R151). -/
def capAt (base : Nat) (off : Int) : Nat := withOff base ((((capOff base : Nat) : Int) + off) % (2 ^ 36 : Nat)).toNat

/-- The source address of a COPY (R174): a capability in object space, else an address. -/
def copyBase (k : Kern) (c : Nat) (t : Thread) (x : MForm) : Nat :=
  let b := readBase k c t x
  match x.sp with
  | .ob => capAt b x.disp.toInt
  | _ => ((((b % 2 ^ 32 : Nat) : Int) + x.disp.toInt) % (2 ^ 32 : Nat)).toNat

/-- The predicate word of mode 3, which the engine reads and interprets when it accepts the copy (R178, R180): the state with the
charges, and the word, or none where poison fails the copy. -/
def readPredicate (k : Kern) (c : Nat) (t : Thread) (d : Desc) : Kern × Option W32 :=
  match blockOf k c t.block with
  | some blk =>
    if d.mode == 3 then
      match readRuns k (ctxOf k c t) (classOf k c t) [(rowBase c blk.baseRow + d.aux, 4)] with
      | (k, .ok bs) => (k, some (BitVec.ofNat 32 (natOfBytes bs)))
      | (k, .error _) => (k, none)
    else (k, some 0)
  | none => (k, some 0)

/-- The entries of the write-combining buffer that drain when a copy is accepted (R154, R177): those that hold a store of its
thread, which its name gives, and those of the objects that it reads, which in modes 2 to 4 may be any. -/
def copyDrains (ctx mode obj : Nat) (space : Space) (name : Nat) (e : WcEntry) : Bool :=
  e.writers.contains name || (space == .ob && e.ctx == ctx && (e.obj == obj || 2 ≤ mode))

/-- A copy is accepted (R177): it has its number, its status word is on its way, and the drains that its reads and writes come
after begin. A descriptor that fails, or a predicate word that is poison, completes at once. -/
def acceptCopy (k : Kern) (c : Nat) (t : Thread) (x : MForm) (base : Nat) (ds : List W32) (pc : W64) (w : Wanted) : Kern :=
  let ctx := ctxOf k c t
  let h := holdResult k c t (regsNamed x.d 1) [] 0 x.la
  let k := h.2
  let num := ((mget (coreOf k c).copyCount ctx).getD 0) + 1
  let k := modCore k c fun core => { core with copyCount := mset core.copyCount ctx num }
  match w.fail with
  | some st => arriveHeld k c t h.1 [st] 0
  | none =>
    let d := descOf (ds.getD 0 0) (ds.getD 1 0) (ds.getD 2 0) (ds.getD 3 0)
    match readPredicate k c t d with
    | (k, none) => arriveHeld k c t h.1 [BitVec.ofNat 32 (statusWord 0x07 0 0)] 0
    | (k, some pred) =>
    let job : CopyJob :=
      { id := k.id, num := num, ctx := ctx, block := t.block, launch := serialOf k c t, tslot := t.tslot, lane := t.lane,
        src := base, srcSpace := x.sp, cap := BitVec.ofNat 64 base, d0 := ds.getD 0 0, d1 := ds.getD 1 0, d2 := ds.getD 2 0,
        d3 := ds.getD 3 0, held := some h.1, srcR := w.srcR, dstR := w.dstR, fail := none, pred := pred, pc := pc,
        orphan := false, silent := false, paid := 0, row := ((blockOf k c t.block).map (·.baseRow)).getD 0 }
    let k := modCore { k with id := k.id + 1 } c fun core => { core with copies := core.copies ++ [job] }
    drainWhere k c (copyDrains ctx d.mode (capObj base) x.sp (threadName t))

/-- Some thread of the entry waits for its copy to be accepted (R177: in ascending lane). -/
def copyWaits (core : Core) (e : Nat) : Bool :=
  (entryThreads core e).any fun u => match u.wait with | .copy _ _ _ _ _ _ _ => true | _ => false

/-- COPY of one thread (R177). -/
def copyBody (s : State) (x : MForm) (k : Kern) (t : Thread) : Kern × Course :=
  let c := s.cur.core
  match blockOf k c t.block with
  | none => (k, .next)
  | some blk =>
    let base := copyBase s.kern c t x
    let r (i : Nat) : W32 := readAt s.kern c t x.idx i
    match checkCopy k c t blk x.sp base (descOf (r 0) (r 1) (r 2) (r 3)) with
    | .error e => (k, .trap e.1 0 e.2)
    | .ok w =>
      if copyRoom (coreOf k c) (w.srcR.length + w.dstR.length) && !copyWaits (coreOf k c) s.cur.entry then
        (acceptCopy k c t x base [r 0, r 1, r 2, r 3] (BitVec.ofNat 64 (curPc s)) w, .next)
      else beginWait k c t (.copy x base (BitVec.ofNat 64 base) (r 0) (r 1) (r 2) (r 3))

/-! ## Timelines (R196 to R198) -/

/-- Every copy of a context on a core numbered up to the value has retired. -/
def localValue (core : Core) (ctx : Nat) : Nat :=
  match minBy (fun n => n) ((core.copies.filter fun j => j.ctx == ctx).map (·.num)) with
  | some n => n - 1
  | none => (mget core.copyCount ctx).getD 0

/-- The queue that a header capability of a context names: by its context, object and offset. -/
def queueAt (k : Kern) (ctx cap : Nat) : Option Queue :=
  (k.queues.find? fun p => p.2.ctx == ctx && capObj p.2.hdr.toNat == capObj cap && capOff p.2.hdr.toNat == capOff cap).map (·.2)

/-- The value of a timeline (R196). -/
def timelineValue (k : Kern) (c ctx : Nat) (l : Launch) (i : Nat) : Nat :=
  match recTlKind l i with
  | 1 => localValue (coreOf k c) ctx
  | 0 => 0
  | _ => ((queueAt k ctx (recTlCap l i)).map (·.retiredBelow)).getD 0

/-- The value of TLRD.issued (R198): the last copy accepted, or WRX of a copy queue. DEDUCED: log entry 114. -/
def timelineIssued (k : Kern) (c ctx : Nat) (l : Launch) (i : Nat) : Nat :=
  match recTlKind l i with
  | 1 => (mget (coreOf k c).copyCount ctx).getD 0
  | 2 => (((readObj k ctx (capObj (recTlCap l i)) (capOff (recTlCap l i) + 8) 8)).map natOfBytes).getD 0
  | _ => timelineValue k c ctx l i

/-- The number of a timeline operand. -/
def tlNumber : Opnd → Nat
  | .tl i => i.val
  | _ => 0

/-- A timeline that the launch binds; none for KIND 0 (R38). -/
def boundTimeline (k : Kern) (c : Nat) (t : Thread) (i : Nat) : Option Launch :=
  match threadLaunch k c t with
  | some l => if recTlKind l i == 0 then none else some l
  | none => none

/-- TLRD of one thread. -/
def tlrdBody (s : State) (x : SForm) (f : Kern → Nat → Nat → Launch → Nat → Nat) (k : Kern) (t : Thread) (dst : List Reg) :
    Kern × Course :=
  let c := s.cur.core
  let i := tlNumber x.a
  match boundTimeline k c t i with
  | none => (k, .trap 0x05 0 0)
  | some l => (writeRegs k c t dst (place .n64 (f k c (ctxOf k c t) l i)), .next)

/-- The read of WRX of a copy queue whose header is on another device: a request to its home (R198, R392). -/
def askIssued (s : State) (k : Kern) (t : Thread) (dst : List Reg) (cap : Nat) : Kern :=
  let c := s.cur.core
  let h := holdResult k c t dst [] 0 0
  sendReq h.2 c t
    { id := h.2.id, tslot := t.tslot, lane := t.lane, ctx := ctxOf k c t, kind := .load, ty := .n64, acq := false, rel := false,
      sc := .dev, na := true, cap := BitVec.ofNat 64 cap, ea := capOff cap + 8, size := 8, data := 0, cmp := 0, held := some h.1,
      pc := BitVec.ofNat 64 (curPc s), remote := (getObj k (ctxOf k c t) (capObj cap)).map (·.hdev), sent := false, block := t.block,
      after := t.fence, cell := cellKey k c t, serial := serialOf k c t, firm := false, paid := false }

/-- TLRD.issued of one thread: of a copy queue it reads WRX at the queue's home, and parks where the header is not placed (R198). -/
def tlrdIssuedBody (s : State) (x : SForm) (k : Kern) (t : Thread) (dst : List Reg) : Kern × Course :=
  let c := s.cur.core
  let ctx := ctxOf k c t
  match boundTimeline k c t (tlNumber x.a) with
  | none => (k, .trap 0x05 0 0)
  | some l =>
    let cap := recTlCap l (tlNumber x.a)
    if recTlKind l (tlNumber x.a) != 2 then tlrdBody s x timelineIssued k t dst
    else if remoteObj k ctx cap then (askIssued s k t dst cap, .next)
    else
      match objRuns k ctx (capObj cap) (capOff cap + 8) 8 with
      | .error e => (k, .park (capForm cap e.1) e.2)
      | .ok _ => tlrdBody s x timelineIssued k t dst

/-- The scope of TLWAIT (R197). -/
def tlScope (x : SForm) : Scope := (scopeOf x.imm.toNat).getD .dev

/-- TLWAIT of one thread: it acquires at once where the value has been reached, else it waits. -/
def tlwaitBody (s : State) (x : SForm) (k : Kern) (t : Thread) : Kern × Course :=
  let c := s.cur.core
  let i := tlNumber x.d
  let n := readPair s.kern c t x.a
  match boundTimeline k c t i with
  | none => (k, .trap 0x05 0 0)
  | some l =>
    if n ≤ timelineValue k c (ctxOf k c t) l i then (dropLines k c, .next)
    else beginWait k c t (.tlwait i (BitVec.ofNat 64 n) (tlScope x))

/-! ## COPYQ (R186, R188) -/

/-- The reserved bits of a queue header, and LOG2CAP (R186): a header that COPYQ refuses. -/
def badHeader (h : List Byte) : Bool := 16 < fieldOf h 16 4 || 2 < fieldOf h 20 1 || !zeroRange h 21 43

/-- The queue as its header describes it: its engine goes on from RDX. -/
def openQueue (h : List Byte) (q : Queue) : Queue :=
  let r := fieldOf h 0 8
  { q with engine := fieldOf h 20 1, taken := r, retiredBelow := r }

/-- A queue is known from the first time that a launch binds it, a slot of it is claimed or written by COPYQ, or the outside world
names it. Its engine reads its header when it can; the queue of a header on another device is served there (R190).
DEDUCED: log entry 45. -/
def registerQueue (k : Kern) (ctx cap : Nat) : Kern :=
  if (queueAt k ctx cap).isSome then k
  else
    let q : Queue :=
      { ctx := ctx, hdr := BitVec.ofNat 64 cap, engine := if remoteObj k ctx cap then 3 else 4, taken := 0, running := [],
        retiredBelow := 0, retired := [] }
    let q := if q.engine == 3 then q else
      match readObj k ctx (capObj cap) (capOff cap) 64 with
      | some h => if badHeader h then q else openQueue h q
      | none => q
    { k with queues := mset k.queues k.id q, id := k.id + 1 }

/-- The image of a COPYQ: its location in the scratchpad (R151 with size 64). -/
def imageSpot (s : State) (k : Kern) (t : Thread) (x : MForm) : Except (Nat × Nat) Spot :=
  match blockOf k s.cur.core t.block with
  | none => .error (0x04, 0)
  | some blk => address k s.cur.core blk .sp (readLow s.kern s.cur.core t x.idx) 0 64 64 0

/-- The engine's work after a claim (R188): the slot is written later, whatever the thread does. -/
def queueSlot (k : Kern) (c ctx queue w log2cap : Nat) (image : List Byte) : Kern :=
  let job : CopyqJob := { id := k.id, ctx := ctx, queue := BitVec.ofNat 64 queue, w := BitVec.ofNat 64 w, cap := log2cap, image := image }
  modCore { k with id := k.id + 1 } c fun core => { core with copyqs := core.copyqs ++ [job] }

/-- The claim of a slot of a queue on another device (R188, R392): a request to its home, which carries the image's claim. -/
def claimFar (s : State) (x : MForm) (k : Kern) (t : Thread) (dst : List Reg) (q : Spot) (image : List Byte) : Kern × Course :=
  let c := s.cur.core
  let h := holdResult k c t dst [] 0 x.la
  let r := requestOf s h.2 t x { spot := q, runs := [] } .claim 64 (natOfBytes image) 0 (some h.1)
  (sendReq h.2 c t { r with ty := .n64 }, .next)

/-- COPYQ of one thread (R188): a slot is claimed by a fetch-add of WRX, and the engine writes it later. The issuing core's cached
copy of the header goes (R153). DEDUCED: log entry 114. -/
def copyqBody (s : State) (x : MForm) (k : Kern) (t : Thread) (dst : List Reg) : Kern × Course :=
  let c := s.cur.core
  let ctx := ctxOf k c t
  match imageSpot s k t x, spotOf s.kern c t x false 64 64 (needWrite + needAtomic), blockOf k c t.block with
  | .error e, _, _ => (k, .trap e.1 0 e.2)
  | _, .error e, _ => (k, .trap e.1 0 e.2)
  | .ok _, .ok _, none => (k, .stay)
  | .ok im, .ok q, some blk =>
    match spotRuns k c blk q 64, spotRuns k c blk im 64 with
    | .error e, _ => (k, .park e.1 e.2)
    | _, .error e => (k, .park e.1 e.2)
    | .ok hr, .ok ir =>
      if remoteSpot k ctx q then
        match readTrap k ctx (classOf k c t) ir with
        | (k, .error h) => (k, poisonTrap k c t im h)
        | (k, .ok ib) => claimFar s x k t dst q ib
      else
      match readTrap k ctx (classOf k c t) hr with
      | (k, .error h) => (k, poisonTrap k c t q h)
      | (k, .ok hb) =>
        if badHeader hb then (k, .trap 0x05 0 (capForm q.cap q.ea))
        else
          match readTrap k ctx (classOf k c t) ir with
          | (k, .error h) => (k, poisonTrap k c t im h)
          | (k, .ok ib) =>
            let w := fieldOf hb 8 8
            let k := registerQueue (putBytes (takeTokens k c ctx 8) (addrAt hr 8) (bytesOfNat 8 (w + 1))) ctx (capForm q.cap q.ea)
            let k := dropLine k c ctx (capObj q.cap) (q.ea / 64)
            (writeRegs (queueSlot k c ctx (capForm q.cap q.ea) w (fieldOf hb 16 4) ib) c t dst (place .n64 w), .next)

/-! ## The instructions -/

/-- COPY. -/
def execCopy (x : MForm) (s : State) : Host.Outcome State Fault Refusal :=
  answer (issueEach s (.copy x) fun k t _ => copyBody s x k t)
/-- COPYQ. -/
def execCopyq (x : MForm) (s : State) : Host.Outcome State Fault Refusal :=
  answer (issueEach s (.copyq x) (copyqBody s x))
/-- TLWAIT. -/
def execTlwait (x : SForm) (s : State) : Host.Outcome State Fault Refusal :=
  answer (issueEach s (.tlwait x) fun k t _ => tlwaitBody s x k t)
/-- TLRD. -/
def execTlrd (x : SForm) (s : State) : Host.Outcome State Fault Refusal :=
  answer (issueEach s (.tlrd x) (tlrdBody s x timelineValue))
/-- TLRD.issued. -/
def execTlrdIssued (x : SForm) (s : State) : Host.Outcome State Fault Refusal :=
  answer (issueEach s (.tlrdIssued x) (tlrdIssuedBody s x))

end Sys2Proof.Machine
end

