-- ==== Sys2Proof/Machine/Algebra.lean ====
section
/-! DEFINITION. Algebra tables and the exact product of an algebra (03 R91 to R96), and QMUL, QCONJ and QNORM (07 R218,
R219). -/

namespace Sys2Proof.Machine

/-! ## Products (R95) -/

/-- G(i, j, k): the constant of the product x·y, or of y·x. -/
def Table.sided (t : Table) (right : Bool) (i j k : Nat) : Int := if right then t.const j i k else t.const i j k

/-- A number times a sign. -/
def signNum (g : Int) (x : Num) : Num := if g < 0 then negNum x else x

/-- The components after conjugation. -/
def conjNums (t : Table) (on : Bool) (xs : List Num) : List Num :=
  ((List.range xs.length).zip xs).map fun p => if on && t.conj.testBit p.1 then negNum p.2 else p.2

/-- The pairs of components whose constant for component k is not zero, with the constant. -/
def termsOf (t : Table) (right : Bool) (k : Nat) : List (Nat × Nat × Int) :=
  (List.range t.comps).flatMap fun i => (List.range t.comps).filterMap fun j =>
    let g := t.sided right i j k
    if g == 0 then none else some (i, j, g)

/-- The rounded sum of terms; the exact sum 0 of none is +0 (R64, R96). -/
def sumTerms (ty : Ty) (rm : Rm) (xs : List Num) : Nat × BitVec 5 := if xs.isEmpty then (0, 0) else sumF ty rm xs

/-- One component of a product over the extended reals, rounded once (R96); none of the operands is a NaN. -/
def algComponent (ty : Ty) (rm : Rm) (t : Table) (right : Bool) (x y : List Num) (k : Nat) : Nat × BitVec 5 :=
  let terms := (termsOf t right k).map fun p =>
    (mulNum (x.getD p.1 (.nan false)) (y.getD p.2.1 (.nan false))).map (signNum p.2.2)
  if terms.any Option.isNone then invalid ty else sumTerms ty rm (terms.filterMap id)

/-- Results with their flags joined. -/
def joinResults (ty : Ty) (rs : List (Nat × BitVec 5)) : Effect :=
  { Effect.values (rs.flatMap fun r => place ty r.1) with flags := rs.foldl (fun f r => f ||| r.2) 0 }

/-- QMUL on components (R96). -/
def algMul (ty : Ty) (rm : Rm) (t : Table) (om : BitVec 3) (x y : List Num) : List (Nat × BitVec 5) :=
  let n := List.range t.comps
  if (x ++ y).any isNan then n.map fun _ => nanResult ty (x ++ y)
  else n.map (algComponent ty rm t (om.getLsbD 2) (conjNums t (om.getLsbD 1) x) (conjNums t (om.getLsbD 0) y))

/-- QNORM on components (R96). -/
def algNorm (ty : Ty) (rm : Rm) (t : Table) (x : List Num) : Nat × BitVec 5 :=
  if x.any isNan then nanResult ty x
  else sumTerms ty rm ((List.range t.comps).filterMap fun i =>
    let a := x.getD i (.nan false)
    if t.weight i == 0 then none else (mulNum a a).map (signNum (t.weight i)))

/-! ## The instructions (R218, R219) -/

/-- The raw components of an operand. -/
def compRaws (s : State) (t : Thread) (ty : Ty) (o : Opnd) (n : Nat) : List Nat :=
  let r (j : Nat) : W32 := readAt s.kern s.cur.core t o j
  (List.range n).map fun i => if tyWide ty then rawOf ty (r (2 * i)) (r (2 * i + 1)) else rawOf ty (r i) 0

/-- The components of an operand as numbers. -/
def compNums (s : State) (t : Thread) (ty : Ty) (o : Opnd) (n : Nat) : List Num := (compRaws s t ty o n).map (decodeF ty)

/-- The effect of an algebra instruction under the table that it selects. -/
def algebraEffect (s : State) (x : RForm) (f : Table → Thread → Effect) (t : Thread) : Effect :=
  match threadLaunch s.kern s.cur.core t with
  | some l => f (selectedTable l x.c) t
  | none => .values []

/-- Invert the sign bit. -/
def flipSign (ty : Ty) (raw : Nat) : Nat := Nat.xor raw (2 ^ (tyBits ty - 1))

/-- QCONJ on raw components: no flag, NaN payloads kept. -/
def conjRaws (ty : Ty) (t : Table) (xs : List Nat) : List W32 :=
  ((List.range xs.length).zip xs).flatMap fun p => place ty (if t.conj.testBit p.1 then flipSign ty p.2 else p.2)

/-- QMUL. -/
def execQmul (x : RForm) (s : State) : Host.Outcome State Fault Refusal :=
  answer (issuePlain s (.qmul x) (algebraEffect s x fun tb t =>
    joinResults x.ty (algMul x.ty x.rm tb x.om (compNums s t x.ty x.a tb.comps) (compNums s t x.ty x.b tb.comps))))
/-- QCONJ. -/
def execQconj (x : RForm) (s : State) : Host.Outcome State Fault Refusal :=
  answer (issuePlain s (.qconj x) (algebraEffect s x fun tb t => .values (conjRaws x.ty tb (compRaws s t x.ty x.a tb.comps))))
/-- QNORM. -/
def execQnorm (x : RForm) (s : State) : Host.Outcome State Fault Refusal :=
  answer (issuePlain s (.qnorm x) (algebraEffect s x fun tb t =>
    .float x.ty (algNorm x.ty x.rm tb (compNums s t x.ty x.a tb.comps))))

end Sys2Proof.Machine
end

