-- ==== Sys2Proof/Machine/Cipher.lean ====
section
/-! DEFINITION. AES-GCM link encryption (18 R401): AES-256 (FIPS 197) and the Galois/counter mode with a nonce of 96 bits (NIST SP
800-38D). Blocks are lists of bytes, in the order in which they travel. -/

namespace Sys2Proof.Machine

/-! ## AES-256 -/

/-- Multiplication by x in GF(2^8). -/
def xtime (a : Nat) : Nat := if 128 ≤ a then ((2 * a) ^^^ 0x11B) % 256 else 2 * a

/-- A product in GF(2^8), by n bits of the second factor. -/
def mulBits : Nat → Nat → Nat → Nat
  | 0, _, _ => 0
  | n + 1, a, b => (if b % 2 == 1 then a else 0) ^^^ mulBits n (xtime a) (b / 2)

/-- A product in GF(2^8). -/
def mulByte (a b : Nat) : Nat := mulBits 8 a b

/-- A square taken n times, with the product of all but the first. -/
def invSteps : Nat → Nat → Nat → Nat
  | 0, _, acc => acc
  | n + 1, a, acc => invSteps n (mulByte a a) (mulByte acc (mulByte a a))

/-- The inverse in GF(2^8), a^254; that of 0 is 0. -/
def invByte (a : Nat) : Nat := invSteps 7 a 1

/-- A byte rotated left. -/
def rotByte (a n : Nat) : Nat := a * 2 ^ n % 256 + a * 2 ^ n / 256

/-- SubBytes of one byte. -/
def subByte (a : Nat) : Nat :=
  let b := invByte a
  b ^^^ rotByte b 1 ^^^ rotByte b 2 ^^^ rotByte b 3 ^^^ rotByte b 4 ^^^ 0x63

/-- The sum of two blocks. -/
def xorBytes (a b : List Nat) : List Nat := List.zipWith (· ^^^ ·) a b

/-- The next word of the key schedule: n is its number, w the word before it, back that 8 words before. -/
def nextKeyWord (n : Nat) (w back : List Nat) (rcon : Nat) : List Nat :=
  let t := if n % 8 == 0 then xorBytes ((w.drop 1 ++ w.take 1).map subByte) [rcon, 0, 0, 0]
    else if n % 8 == 4 then w.map subByte else w
  xorBytes back t

/-- The key schedule from word n on, of m words; the last eight words stand first in their order. -/
def keyWords : Nat → Nat → List (List Nat) → Nat → List (List Nat)
  | 0, _, _, _ => []
  | m + 1, n, last, rcon =>
    let w := nextKeyWord n (last.getD 7 []) (last.getD 0 []) rcon
    w :: keyWords m (n + 1) (last.drop 1 ++ [w]) (if n % 8 == 0 then xtime rcon else rcon)

/-- The words of a list of bytes. -/
def wordsOfKey : Nat → List Nat → List (List Nat)
  | 0, _ => []
  | n + 1, b => b.take 4 :: wordsOfKey n (b.drop 4)

/-- The fifteen round keys of a key of 32 bytes. -/
def roundKeys (key : List Nat) : List (List Nat) :=
  let first := wordsOfKey 8 key
  let all := first ++ keyWords 52 8 first 1
  (List.range 15).map fun i => ((all.drop (4 * i)).take 4).flatten

/-- ShiftRows of a block. -/
def shiftRows (b : List Nat) : List Nat := (List.range 16).map fun i => b.getD ((i + 4 * (i % 4)) % 16) 0

/-- MixColumns of one column. -/
def mixColumn (c : List Nat) : List Nat :=
  (List.range 4).map fun i =>
    mulByte 2 (c.getD i 0) ^^^ mulByte 3 (c.getD ((i + 1) % 4) 0) ^^^ c.getD ((i + 2) % 4) 0 ^^^ c.getD ((i + 3) % 4) 0

/-- MixColumns of a block. -/
def mixColumns (b : List Nat) : List Nat := (List.range 4).flatMap fun i => mixColumn ((b.drop (4 * i)).take 4)

/-- The rounds after the first key, the last without MixColumns. -/
def rounds : List (List Nat) → List Nat → List Nat
  | [], b => b
  | [k], b => xorBytes (shiftRows (b.map subByte)) k
  | k :: ks, b => rounds ks (xorBytes (mixColumns (shiftRows (b.map subByte))) k)

/-- AES-256 of a block under its round keys. -/
def aesBlock (ks : List (List Nat)) (b : List Nat) : List Nat := rounds (ks.drop 1) (xorBytes b (ks.headD []))

/-! ## Galois/counter mode -/

/-- A block as a number, its first byte the most significant. -/
def bigOf (b : List Nat) : Nat := b.foldl (fun n x => n * 256 + x) 0

/-- The n bytes of a number, the most significant first. -/
def bigBytes (n x : Nat) : List Nat := ((List.range n).reverse).map fun i => x / 256 ^ i % 256

/-- Steps of the product in GF(2^128): i bits of x are left, v is the multiple of y. -/
def ghashSteps : Nat → Nat → Nat → Nat → Nat
  | 0, _, _, z => z
  | i + 1, x, v, z =>
    ghashSteps i x (if v % 2 == 1 then (v / 2) ^^^ (0xE1 * 2 ^ 120) else v / 2) (if x.testBit i then z ^^^ v else z)

/-- A product in GF(2^128). -/
def ghashMul (x y : Nat) : Nat := ghashSteps 128 x y 0

/-- Blocks of 16 bytes, the last filled with zeros; n bounds them. -/
def blocks16 : Nat → List Nat → List Nat
  | 0, _ => []
  | n + 1, b => if b.isEmpty then [] else bigOf ((b.take 16 ++ List.replicate 16 0).take 16) :: blocks16 n (b.drop 16)

/-- GHASH of blocks under H. -/
def ghash (h : Nat) (xs : List Nat) : Nat := xs.foldl (fun y x => ghashMul (y ^^^ x) h) 0

/-- The key stream of n bytes from a counter on. -/
def keyStream (ks : List (List Nat)) (nonce : List Nat) (n : Nat) : List Nat :=
  ((List.range ((n + 15) / 16)).flatMap fun i => aesBlock ks (nonce ++ bigBytes 4 (i + 2))).take n

/-- The tag over additional data and a ciphertext. -/
def gcmTag (ks : List (List Nat)) (nonce aad c : List Nat) : List Nat :=
  let h := bigOf (aesBlock ks (List.replicate 16 0))
  let s := ghash h (blocks16 (aad.length + 1) aad ++ blocks16 (c.length + 1) c ++ [8 * aad.length * 2 ^ 64 + 8 * c.length])
  xorBytes (bigBytes 16 s) (aesBlock ks (nonce ++ bigBytes 4 1))

/-! ## Flits (R391, R401) -/

/-- Bytes of a number, the least significant first. -/
def littleBytes (n x : Nat) : List Nat := (List.range n).map fun i => x / 256 ^ i % 256

/-- The number of bytes, the least significant first. -/
def littleOf (b : List Nat) : Nat := b.foldr (fun x n => n * 256 + x) 0

/-- The nonce of a slot: its salt, then its invocation counter. DEDUCED: log entry 126. -/
def slotNonce (k : KeySlot) : List Nat := littleBytes 4 k.salt.toNat ++ littleBytes 8 k.counter

/-- The payload of a flit under the key stream of a slot, which encrypts and decrypts it (R401). -/
def maskPayload (k : KeySlot) (x : Nat) : Nat :=
  let stream := keyStream (roundKeys (littleBytes 32 k.key.toNat)) (slotNonce k) 220
  x ^^^ (littleOf stream * 2 ^ 128)

/-- The tag of a flit whose payload is encrypted: bytes 0 to 15 are its additional data (R401). -/
def flitTag (k : KeySlot) (x : Nat) : Nat :=
  littleOf (gcmTag (roundKeys (littleBytes 32 k.key.toNat)) (slotNonce k) (littleBytes 16 x) (littleBytes 220 (x / 2 ^ 128)))

/-- A flit's bytes 0 to 251 as a slot protects them (R391, R401). -/
def protectFlit (k : KeySlot) (x : Nat) : Nat :=
  let y := maskPayload k (x % 2 ^ 1888)
  y + flitTag k y * 2 ^ 1888

end Sys2Proof.Machine
end

