-- ==== Sys2Proof/Machine/Matrix.lean ====
section
/-! DEFINITION. Jigs, the bed, accumulators and MX (07 R200 to R217) with the exact matrix sum (03 R80 to R89). -/

namespace Sys2Proof.Machine

/-! ## Places of entry-once instructions (R200, R201, R306) -/

/-- An access of a thread to a place: the checks of R201 and R306, which leave what the log modes count (R152), and the access or
the course of a failure. -/
def openPlace (s : State) (k : Kern) (t : Thread) (place size algn need : Nat) (touch : Touch) : Kern × Except Course Access :=
  let c := s.cur.core
  match blockOf k c t.block with
  | none => (k, .error .stay)
  | some blk =>
    match placeSpot k c blk place size algn need with
    | .error e => (k, .error (.trap e.1 0 e.2))
    | .ok p =>
      match detect k c t (curPc s) p size touch with
      | (k, some e) => (k, .error (.trap e.1 0 e.2))
      | (k, none) =>
        match spotRuns k c blk p size with
        | .error e => (k, .error (.park e.1 e.2))
        | .ok rs => (k, .ok { spot := p, runs := rs })

/-- The cached copies of the lines of an object range go: what a thread read at the port it does not read older afterwards
(R324). -/
def passLines (k : Kern) (c ctx : Nat) (p : Spot) (n : Nat) : Kern :=
  if p.space != .ob then k
  else (List.range (ceilDiv n 64)).foldl (fun k i => dropLine k c ctx (capObj p.cap) (p.ea / 64 + i)) k

/-- An access of an object at its issue takes its tokens (R371). -/
def paySpot (k : Kern) (c : Nat) (t : Thread) (p : Spot) (n : Nat) : Kern :=
  if p.space == .ob then takeTokens k c (ctxOf k c t) n else k

/-- Read a place of n bytes, 64-byte aligned. DEDUCED: log entry 36. -/
def readPlace (s : State) (k : Kern) (t : Thread) (place n : Nat) : Kern × Except Course (List Byte) :=
  let c := s.cur.core
  match openPlace s k t place n 64 needRead { reads := true, writes := false, atomic := false } with
  | (k, .error e) => (k, .error e)
  | (k, .ok a) =>
    match readTrap k (ctxOf k c t) (classOf k c t) a.runs with
    | (k, .error h) => (k, .error (poisonTrap k c t a.spot h))
    | (k, .ok bs) => (passLines (paySpot k c t a.spot n) c (ctxOf k c t) a.spot n, .ok (maskSpot (blockOf k c t.block) a.spot bs))

/-- Stores of whole lines pass over cached copies (R153). -/
def storeLines (k : Kern) (c ctx obj ea : Nat) (bs : List Byte) : Kern :=
  (List.range (bs.length / 64)).foldl (fun k i => storeLine k c ctx obj (ea + 64 * i) ((bs.drop (64 * i)).take 64) false) k

/-- Write bytes, a multiple of 64, to a place. -/
def writePlace (s : State) (k : Kern) (t : Thread) (place : Nat) (bs : List Byte) : Kern × Course :=
  let c := s.cur.core
  let touch : Touch := { reads := false, writes := true, atomic := false }
  match openPlace s k t place bs.length 64 needWrite touch with
  | (k, .error e) => (k, e)
  | (k, .ok a) =>
    let k := touchSpot (putRuns (paySpot k c t a.spot bs.length) a.runs bs) c t a.spot bs.length touch
    (if a.spot.space == .ob then storeLines k c (ctxOf k c t) (capObj a.spot.cap) a.spot.ea bs else k, .next)

/-! ## Jigs (R203 to R205) -/

/-- A stride: 0 along components, 1 along K, 2 along rows, 3 and 4 along the tile axes. -/
def strideOf (d : List Byte) (i : Nat) : Int := (BitVec.ofNat 32 (fieldOf d (4 + 4 * i) 4)).toInt

/-- An extent: 0 along K, 1 along rows, 2 and 3 along the tile axes. -/
def extentOf (d : List Byte) (i : Nat) : Nat := fieldOf d (24 + 4 * i) 4

/-- A descriptor of 64 bytes is valid (R203). -/
def descValid (l : Launch) (d : List Byte) : Bool :=
  let slot := recFs l (descSlot d)
  let e := elementBytes (fsFmt slot)
  let inside (i n : Nat) : Bool := 1 ≤ extentOf d i && extentOf d i ≤ n
  fieldOf d 0 4 / 8 == 0 && fsFmt slot != 0 && inside 0 4096 && inside 1 64 && inside 2 (2 ^ 24) && inside 3 (2 ^ 24) &&
    ((List.range 5).all fun i => strideOf d i % e == 0) && zeroRange d 40 24

/-- The lowest offset of the map and the end beyond its highest (R204). -/
def jigSpan (d : List Byte) (comps e : Nat) : Int × Int :=
  let axes := [(strideOf d 0, comps), (strideOf d 1, extentOf d 0), (strideOf d 2, extentOf d 1), (strideOf d 3, extentOf d 2),
    (strideOf d 4, extentOf d 3)]
  (axes.foldl (fun a x => a + min 0 (x.1 * ((x.2 : Int) - 1))) 0, axes.foldl (fun a x => a + max 0 (x.1 * ((x.2 : Int) - 1))) e)

/-- Step 3 of JIG: every address of the map with the right read (R204). DEDUCED: log entry 33. -/
def checkMap (k : Kern) (c : Nat) (blk : Block) (l : Launch) (d : List Byte) (base : Nat) : Except (Nat × Nat) Spot :=
  let slot := recFs l (descSlot d)
  let e := elementBytes (fsFmt slot)
  let span := jigSpan d (tableOf l (fsAlg slot)).comps e
  placeAt k c blk base span.1 (span.2 - span.1).toNat e needRead

/-- JIG once (R204). -/
def jigBody (s : State) (x : XForm) (k : Kern) (t : Thread) : Kern × Course :=
  let c := s.cur.core
  let base := readPair s.kern c t x.d
  let place := readPair s.kern c t x.a
  match readPlace s k t place 64 with
  | (k, .error e) => (k, e)
  | (k, .ok d) =>
    match blockOf k c t.block, threadLaunch k c t with
    | some blk, some l =>
      if !descValid l d then (k, .trap 0x01 0 place)
      else
        match checkMap k c blk l d base with
        | .error e => (k, .trap e.1 0 e.2)
        | .ok _ =>
          (modJig k c t.block x.jg.val fun _ =>
            { desc := d.take 40, base := BitVec.ofNat 64 base, i2 := 0, i3 := 0, valid := true }, .next)
    | _, _ => (k, .stay)

/-- The image of a jig (R204). -/
def jigImage (j : Jig) : List Byte :=
  (if j.valid then (j.desc ++ List.replicate 40 0).take 40 ++ bytesOfNat 8 j.base.toNat ++ bytesOfNat 4 j.i2.toNat ++
    bytesOfNat 4 j.i3.toNat ++ [1]
  else List.replicate 57 0) ++ List.replicate 7 0

/-- JIG.st once. -/
def jigStoreBody (s : State) (x : XForm) (k : Kern) (t : Thread) : Kern × Course :=
  match blockOf k s.cur.core t.block with
  | none => (k, .stay)
  | some blk => writePlace s k t (readPair s.kern s.cur.core t x.d) (jigImage (jigOf blk x.jg.val))

/-- JIG.ld once. -/
def jigLoadBody (s : State) (x : XForm) (k : Kern) (t : Thread) : Kern × Course :=
  let c := s.cur.core
  let place := readPair s.kern c t x.d
  match readPlace s k t place 64 with
  | (k, .error e) => (k, e)
  | (k, .ok b) =>
    match blockOf k c t.block, threadLaunch k c t with
    | some blk, some l =>
      let d := b.take 40 ++ List.replicate 24 0
      let base := fieldOf b 40 8
      let i2 := fieldOf b 48 4
      let i3 := fieldOf b 52 4
      if fieldOf b 56 1 / 2 != 0 || !zeroRange b 57 7 then (k, .trap 0x01 0 place)
      else if fieldOf b 56 1 == 0 then (modJig k c t.block x.jg.val fun j => { j with valid := false }, .next)
      else if !descValid l d || extentOf d 2 ≤ i2 || extentOf d 3 ≤ i3 then (k, .trap 0x01 0 place)
      else
        match checkMap k c blk l d base with
        | .error e => (k, .trap e.1 0 e.2)
        | .ok _ =>
          (modJig k c t.block x.jg.val fun _ =>
            { desc := b.take 40, base := BitVec.ofNat 64 base, i2 := BitVec.ofNat 32 i2, i3 := BitVec.ofNat 32 i3,
              valid := true }, .next)
    | _, _ => (k, .stay)

/-- A jig after an MX has taken its tile (R205). -/
def advanceJig (j : Jig) : Jig :=
  if j.i2.toNat + 1 == extentOf j.desc 2 then
    { j with i2 := 0, i3 := BitVec.ofNat 32 ((j.i3.toNat + 1) % extentOf j.desc 3) }
  else { j with i2 := j.i2 + 1 }

/-! ## The bed (R80 to R84, R206 to R208) -/

/-- Element kk of component i of column or row values in the order of R82. -/
def streamIndex (planar : Bool) (comps depth i kk : Nat) : Nat := if planar then i * depth + kk else kk * comps + i

/-- A quantised group: its exponent and its integers. -/
abbrev Quanta := Int × List Int

/-- Values aligned by groups of 32 (R79, R84, R85); a special value counts as 0. -/
def quantise (p : Nat) (xs : List Num) : List Quanta :=
  (List.range (xs.length / 32)).map fun g => align p (((xs.drop (32 * g)).take 32).map dy)

/-- A value that a special bit marks: NaN, infinity or NaR. -/
def special (x : Num) : Bool := isNan x || isInf x

/-- The values of one column and component of a B stream (R82, R84). -/
def streamValues (slot : W64) (h : Shape) (bs : List Byte) (n j : Nat) : List Num :=
  let e := elementBytes (fsFmt slot)
  (List.range h.depth).map fun kk =>
    slotNum slot (fieldOf bs ((n * h.depth * h.comps + streamIndex (fsPlanar slot) h.comps h.depth j kk) * e) e)

/-- One macro of a loaded range, from the values of its component by column (R81, R84). The columns beyond the N that take part
become zero. DESIGN CHOICE: log entry 102. -/
def loadMacro (h : Shape) (vals : Nat → List Num) (quanta : Nat → List Quanta) (mi : Nat) : Bed :=
  let r := mi % h.mc
  let wide := h.pb == 16
  let first := if wide then r / 2 * 128 else r * 128
  let part (q : Int) : Byte := if wide then BitVec.ofInt 8 (if r % 2 == 0 then q else q / 256) else BitVec.ofInt 8 q
  let columns := List.range h.cols
  let int (n kk : Nat) : Int := ((((quanta n).getD (kk / 32) (0, [])).2).getD (kk % 32) 0)
  { cells := (List.range 128).flatMap fun row => columns.filterMap fun n =>
      let b := part (int n (first + row))
      if b == 0 then none else some (128 * row + n, b),
    exps := (List.range 4).flatMap fun g => columns.filterMap fun n =>
      let f := ((quanta n).getD (first / 32 + g) (0, [])).1
      if f == 0 then none else some (128 * g + n, f),
    special := columns.filter fun n => (((vals n).drop first).take 128).any special,
    tag := if wide then .w16 else .w8, load := .idle }

/-- A range loaded from its stream (R84). -/
def loadBeds (k : Kern) (c b lo u : Nat) (slot : W64) (h : Shape) (bs : List Byte) : Kern :=
  modBeds k c b lo u fun mi _ =>
    let j := mi / h.mc
    let vals (n : Nat) : List Num := streamValues slot h bs n j
    loadMacro h vals (fun n => quantise h.pb (vals n)) mi

/-- The bytes of a B stream (R207). -/
def streamBytes (slot : W64) (h : Shape) : Nat := 128 * h.depth * elementBytes (fsFmt slot)

/-- BEDLD once (R207). -/
def bedLoadBody (s : State) (grain : Bool) (x : XForm) (k : Kern) (t : Thread) (dst : List Reg) : Kern × Course :=
  let c := s.cur.core
  let src := readPair s.kern c t x.d
  match blockOf k c t.block, threadLaunch k c t with
  | some blk, some l =>
    let slot := recFs l x.fsi.val
    let u := x.bdn.val + 1
    if shapeIllegal l slot u then illegalHere k
    else if !bedAllotted blk x || (grain && src / 2 ^ 40 == 0) then (k, .trap 0x05 0 0)
    else
      let e := elementBytes (fsFmt slot)
      let size := if grain then 4 else streamBytes slot (shapeOf l slot u)
      match placeSpot k c blk src size (if grain then 4 else e) needRead with
      | .error f => (k, .trap f.1 0 f.2)
      | .ok _ =>
        let k := modBeds k c t.block x.bdb.val u fun _ m => { m with load := .busy }
        let h := if dst.isEmpty then (none, k) else
          let r := holdResult k c t dst [] 0 x.la
          (some r.1, r.2)
        let k := h.2
        let job : BedJob := { id := k.id, ctx := blk.ctx, block := t.block, bdb := x.bdb.val, bdn := x.bdn.val, fsi := x.fsi.val,
                              grain := grain, src := BitVec.ofNat 64 src, tslot := t.tslot, lane := t.lane, held := h.1,
                              pc := BitVec.ofNat 64 (curPc s), paid := 0 }
        (modCore { k with id := k.id + 1 } c fun core => { core with bedJobs := core.bedJobs ++ [job] }, .next)
  | _, _ => (k, .stay)

/-- BEDCLR once (R208). -/
def bedClearBody (s : State) (x : XForm) (k : Kern) (t : Thread) : Kern × Course :=
  let c := s.cur.core
  match blockOf k c t.block with
  | none => (k, .stay)
  | some blk =>
    if !bedAllotted blk x then (k, .trap 0x05 0 0)
    else (modBeds k c t.block x.bdb.val (x.bdn.val + 1) fun _ _ => .clear, .next)

/-! ## Accumulators (R209, R214 to R217) -/

/-- An element of a tile as a bit pattern. -/
def tileAt (m : FMap W32) (row col : Nat) : W32 := (mget m (128 * row + col)).getD 0

/-- A tile with an element written; +0 is not listed. -/
def tileSet (m : FMap W32) (row col : Nat) (x : W32) : FMap W32 :=
  if x == 0 then mdel m (128 * row + col) else mset m (128 * row + col) x

/-- The image of an accumulator (R215). -/
def accImage (a : Acc) : List Byte :=
  ((List.range 64).flatMap fun m => (List.range 128).flatMap fun n => bytesOfNat 4 (tileAt a.tile m n).toNat) ++
    bytesOfNat 2 a.version.toNat ++ [BitVec.ofNat 8 a.flags.toNat] ++ List.replicate 61 0

/-- The accumulator of an image. -/
def accOfImage (b : List Byte) : Acc :=
  { tile := (List.range 64).foldl (fun m row => (List.range 128).foldl (fun m col =>
      tileSet m row col (BitVec.ofNat 32 (fieldOf b (512 * row + 4 * col) 4))) m) [],
    version := BitVec.ofNat 16 (fieldOf b 32768 2), flags := BitVec.ofNat 5 (fieldOf b 32770 1) }

/-- An operation on an allotted accumulator. -/
def withAcc (k : Kern) (c : Nat) (t : Thread) (x : XForm) (f : Acc → Kern × Course) : Kern × Course :=
  match blockOf k c t.block with
  | none => (k, .stay)
  | some blk => if accAllotted blk x then f (accOf blk x.acc.val) else (k, .trap 0x05 0 0)

/-- ACCZ once (R214). -/
def acczBody (c : Nat) (x : XForm) (k : Kern) (t : Thread) : Kern × Course :=
  withAcc k c t x fun _ =>
    (modAcc k c t.block x.acc.val fun a => { tile := [], version := a.version + 1, flags := 0 }, .next)

/-- ACCLD once (R215). -/
def accLoadBody (s : State) (x : XForm) (k : Kern) (t : Thread) : Kern × Course :=
  let c := s.cur.core
  let place := readPair s.kern c t x.d
  withAcc k c t x fun _ =>
    match readPlace s k t place 32832 with
    | (k, .error e) => (k, e)
    | (k, .ok b) =>
      if fieldOf b 32770 1 / 32 != 0 || !zeroRange b 32771 61 then (k, .trap 0x01 0 place)
      else (modAcc k c t.block x.acc.val fun _ => accOfImage b, .next)

/-- ACCST once (R215). -/
def accStoreBody (s : State) (x : XForm) (k : Kern) (t : Thread) : Kern × Course :=
  withAcc k s.cur.core t x fun a => writePlace s k t (readPair s.kern s.cur.core t x.d) (accImage a)

/-- The flags of the accumulator that an instruction names (R217). -/
def accFlags (k : Kern) (c : Nat) (t : Thread) (x : XForm) : BitVec 5 :=
  ((blockOf k c t.block).map fun blk => (accOf blk x.acc.val).flags).getD 0

/-- ACCMOV of one thread (R216, R217): the accumulator's flags as they stand at issue join when the held result is written.
DESIGN CHOICE: log entry 103. -/
def accMoveBody (s : State) (n : Nat) (x : XForm) (k : Kern) (t : Thread) (dst : List Reg) : Kern × Course :=
  let c := s.cur.core
  let col := srcCount s t x.a
  withAcc k c t x fun a =>
    if 128 < col + n then (k, .trap 0x04 0 0)
    else
      let vals := (List.range n).map fun j => tileAt a.tile t.lane (col + j)
      let h := holdResult k c t dst vals a.flags x.la
      (h.2, .next)

/-- ACCVER of one thread (R216, R217). -/
def accVersionBody (c : Nat) (absorb : Bool) (x : XForm) (k : Kern) (t : Thread) (dst : List Reg) : Kern × Course :=
  withAcc k c t x fun a =>
    let k := writeRegs k c t dst [a.version.setWidth 32]
    (if absorb then joinFlags k c t a.flags else k, .next)

/-! ## MX (R86, R205, R210 to R213) -/

/-- Launch an MX (R211): the position is recorded, the jig advances, and the MX enters the queue under the number k.id. -/
def launchMx (k : Kern) (c : Nat) (t : Thread) (x : XForm) (set : Bool) (pc : W64) : Kern :=
  match blockOf k c t.block with
  | none => k
  | some blk =>
    let j := jigOf blk x.jg.val
    let job : MxJob := { id := k.id, ctx := blk.ctx, block := t.block, x := x, set := set, i2 := j.i2, i3 := j.i3, tslot := t.tslot,
                         lane := t.lane, pc := pc, paid := 0 }
    let k := modJig k c t.block x.jg.val advanceJig
    modCore { k with id := k.id + 1 } c fun core => { core with mxq := core.mxq ++ [job] }

/-- The sequential successor of a thread's instruction (R12). -/
def nextPc (k : Kern) (c : Nat) (t : Thread) : Nat :=
  match threadLaunch k c t with
  | none => t.pc.toNat + 1
  | some l =>
    match seeLine k c l (pcLine t.pc.toNat) with
    | some bits => successor bits t.pc.toNat
    | none => t.pc.toNat + 1

/-- End the waits of threads: each goes on at its sequential successor, all placed in one cycle (R265). -/
def endWaits (k : Kern) (c : Nat) (ts : List Thread) : Kern :=
  let k' := ts.foldl (fun k t => modThis k c t fun u => { u with wait := .none }) k
  moveThreads k' c (ts.map fun t => moverOf k c t (nextPc k c t))

/-- A thread that waited for a peg to be none arrives in a meet episode (R145). -/
def lateArrive (c b pg w : Nat) (k : Kern) (t : Thread) : Kern :=
  modThis (modPeg k c b pg (arrivePeg (t.group * w + t.glane) .meetOpen)) c t fun u => { u with wait := .meet pg false }

/-- The threads that waited to sign sign, or find a meet episode open (R145, R146); they are placed in one cycle (R264). -/
def lateSigns (c b pg w : Nat) (k : Kern) (ts : List Thread) : Kern :=
  let meets := ((blockOf k c b).map fun blk => (pegOf blk pg).episode == .meetOpen).getD false
  let name (t : Thread) : Nat := t.group * w + t.glane
  if meets then takeTraps k c (ts.map fun t => (t, t.pc)) 0x01 0 0
  else endWaits (modPeg k c b pg fun p => ts.foldl (fun p t => arrivePeg (name t) .signOpen (clearOwed (name t) p)) p) c ts

/-- A peg returns to none (R145, R146): the threads that wait to meet arrive before any signature is taken. -/
def pegToNone (k : Kern) (c b pg : Nat) : Kern :=
  match blockOf k c b with
  | none => k
  | some blk =>
    let ts := sortBy (fun t => t.group * 64 + t.glane) (blockThreads (coreOf k c) b)
    let k := modPeg k c b pg fun p => { p with episode := .none }
    let k := (ts.filter fun t => t.wait == .meet pg true).foldl (lateArrive c b pg blk.width) k
    lateSigns c b pg blk.width k (ts.filter fun t => t.wait == .sign pg)

/-- A thread may pass a pegged MX (R211). -/
def mayPass (k : Kern) (c : Nat) (t : Thread) (x : XForm) (expected : BitVec 16) : Bool :=
  match blockOf k c t.block with
  | none => false
  | some blk =>
    let p := pegOf blk x.pg.val
    p.pass.contains (memberId blk t) && (p.episode != .signClosed || launchable (coreOf k c) blk t.block x expected)

/-- The peg's last launched MX where it is uncommitted. -/
def lastUncommitted (k : Kern) (c b pg : Nat) : Option Nat :=
  match blockOf k c b with
  | none => none
  | some blk => (pegOf blk pg).lastMx.filter fun id => (coreOf k c).mxq.any fun m => m.id == id

/-- A thread passes a pegged MX: it launches where the episode is closed, and is held at the peg's last uncommitted MX. -/
def passMx (k : Kern) (c : Nat) (t : Thread) (x : XForm) (set : Bool) (pc : W64) : Kern × Option Nat :=
  match blockOf k c t.block with
  | none => (k, none)
  | some blk =>
    let pg := x.pg.val
    let id := memberId blk t
    let k := modPeg k c t.block pg fun p => { p with pass := p.pass.filter (· != id) }
    let k := if (pegOf blk pg).episode == .signClosed then
        let n := k.id
        let k := launchMx k c t x set pc
        pegToNone (modPeg k c t.block pg fun p => { p with lastMx := some n }) c t.block pg
      else k
    (k, lastUncommitted k c t.block pg)

/-- A pegged MX of one thread (R211). -/
def pegMxBody (s : State) (set : Bool) (x : XForm) (k : Kern) (t : Thread) : Kern × Course :=
  let c := s.cur.core
  match blockOf k c t.block, threadLaunch k c t with
  | some blk, some l =>
    let p := pegOf blk x.pg.val
    match mxTrap blk l x with
    | some e => (k, .trap e.1 e.2 0)
    | none =>
      if !inPeg p t.group then illegalHere k
      else if !p.pass.contains (memberId blk t) && p.episode == .meetOpen then illegalHere k
      else
        let v := expectedVersion s.kern c t x
        if mayPass k c t x v then
          match passMx k c t x set (BitVec.ofNat 64 (curPc s)) with
          | (k, some id) => beginWait k c t (.mxHeld id)
          | (k, none) => (k, .next)
        else beginWait k c t (.mx x set v)
  | _, _ => (k, .stay)

/-- An MX of an entry: pegged, or entry-once, with the threads held at it (R200, R211). -/
def runMx (s : State) (set : Bool) (x : XForm) (k : Kern) (ts : List (Thread × List Reg)) : Kern × List Course :=
  let c := s.cur.core
  if x.pge then foldBody (unlessTrapState s fun k t _ => pegMxBody s set x k t) (markIssued k c s.cur.entry) ts
  else
    match ts with
    | [] => (k, [])
    | (t, _) :: _ =>
      match blockOf k c t.block, threadLaunch k c t with
      | some blk, some l =>
        match mxTrap blk l x with
        | some e => (k, ts.map fun _ => .trap e.1 e.2 0)
        | none =>
          let id := k.id
          let k := launchMx k c t x set (BitVec.ofNat 64 (curPc s))
          (ts.foldl (fun k p => modThis k c p.1 fun u => { u with wait := .mxHeld id }) k, ts.map fun _ => .stay)
      | _, _ => (k, ts.map fun _ => .stay)

/-! ## The sum (R85, R86) -/

/-- Why a feed stops: a trap of the held threads, or a wait for service. -/
inductive FeedStop where
  | trap (cause sub fault : Nat)
  | wait (faddr sub : Nat)
  deriving DecidableEq, Repr

/-- One element of a feed (R205). -/
def feedOne (k : Kern) (c cls : Nat) (blk : Block) (base : Nat) (off : Int) (e : Nat) : Kern × Except FeedStop Nat :=
  match placeAt k c blk base off e e needRead with
  | .error f => (k, .error (.trap f.1 0 f.2))
  | .ok p =>
    match spotRuns k c blk p e with
    | .error f => (k, .error (.wait f.1 f.2))
    | .ok rs =>
      match readTrap k blk.ctx cls rs with
      | (k, .error h) => (k, .error (.trap (poisonCause cls h.2) 0 (poisonFault p h.1)))
      | (k, .ok bs) => (k, .ok (natOfBytes bs))

/-- The elements of a feed in order. -/
def feedAll (c cls : Nat) (blk : Block) (base e : Nat) : Kern → List Int → Kern × Except FeedStop (List Nat)
  | k, [] => (k, .ok [])
  | k, off :: offs =>
    match feedOne k c cls blk base off e with
    | (k, .error x) => (k, .error x)
    | (k, .ok v) =>
      match feedAll c cls blk base e k offs with
      | (k, .error x) => (k, .error x)
      | (k, .ok vs) => (k, .ok (v :: vs))

/-- The rows and K positions of a tile that are read (R205). -/
def fedRows (d : List Byte) : Nat := min 64 (extentOf d 1)
/-- The K positions that are read. -/
def fedDepth (d : List Byte) (depth : Nat) : Nat := min depth (extentOf d 0)

/-- The components and K positions of a row of n K positions, in the order of the value stream that LAYOUT gives (R82). -/
def streamOrder (planar : Bool) (comps n : Nat) : List (Nat × Nat) :=
  if planar then (List.range comps).flatMap fun i => (List.range n).map fun kk => (i, kk)
  else (List.range n).flatMap fun kk => (List.range comps).map fun i => (i, kk)

/-- The offsets of a tile's elements, by row and in the order of its value stream (R82, R205). -/
def feedOffsets (planar : Bool) (d : List Byte) (i2 i3 : Nat) (comps depth : Nat) : List Int :=
  (List.range (fedRows d)).flatMap fun m => (streamOrder planar comps (fedDepth d depth)).map fun p =>
    (p.2 : Int) * strideOf d 1 + m * strideOf d 2 + i2 * strideOf d 3 + i3 * strideOf d 4 + p.1 * strideOf d 0

/-- The values of component i of row m: zero where they are not fed. -/
def rowValues (slot : W64) (d : List Byte) (raws : List Nat) (comps depth m i : Nat) : List Num :=
  let n := fedDepth d depth
  if fedRows d ≤ m then List.replicate depth (.fin false 0 0)
  else
    let row := (raws.drop (m * comps * n)).take (comps * n)
    ((List.range n).map fun kk => slotNum slot (row.getD (streamIndex (fsPlanar slot) comps n i kk) 0)) ++
      List.replicate (depth - n) (.fin false 0 0)

/-- Quantised values as exact numbers: q × 2^(E − P + 2) (R84, R85). -/
def quantaDy (p : Nat) (gs : List Quanta) : List Dy := gs.flatMap fun g => g.2.map fun q => { m := q, e := g.1 - p + 2 }

/-- The exact B value of component j at K position kk in column n (R81, R84). The exponents of a 16-bit pair stand in both of its
macros, and those of the first count. DESIGN CHOICE: log entry 104. -/
def bedValue (blk : Block) (x : XForm) (h : Shape) (j kk n : Nat) : Dy :=
  let row := kk % 128
  let at_ := x.bdb.val + j * h.mc + (if h.pb == 16 then 2 * (kk / 128) else kk / 128)
  let cell (i : Nat) : Nat := ((mget (bedOf blk i).cells (128 * row + n)).getD 0).toNat
  let q : Int := if h.pb == 16 then (BitVec.ofNat 16 (cell at_ + 256 * cell (at_ + 1))).toInt else (BitVec.ofNat 8 (cell at_)).toInt
  { m := q, e := (mget (bedOf blk at_).exps (row / 32 * 128 + n)).getD 0 - h.pb + 2 }

/-- The column of component k of element n (R82). -/
def outColumn (planar : Bool) (h : Shape) (n k : Nat) : Nat := if planar then k * h.cols + n else n * h.comps + k

/-- A value with a sign. -/
def signDy (neg : Bool) (x : Dy) : Dy := if neg then x.neg else x

/-- The exact total of component k of an element (R86): a and b hold the components' values along K. -/
def mxTotal (t : Table) (x : XForm) (a b : List (List Dy)) (k : Nat) : Dy :=
  Dy.sum ((termsOf t x.side k).flatMap fun p =>
    let neg := (x.cja && t.conj.testBit p.1) != (x.cjb && t.conj.testBit p.2.1)
    let neg := if p.2.2 < 0 then !neg else neg
    ((a.getD p.1 []).zip (b.getD p.2.1 [])).map fun v => signDy neg (v.1.mul v.2))

/-- One accumulator element with a total added (R86): its bit pattern and flags. -/
def addTotal (acc : W32) (total : Dy) : Nat × BitVec 5 := sumF .f32 .rne [decodeF .f32 acc.toNat, numOfDy total false]

/-- What one element (m, n) does to the tile and the flags. -/
def mxElement (t : Table) (x : XForm) (planar set : Bool) (h : Shape) (spec : Bool) (a b : List (List Dy)) (m n : Nat)
    (acc : Acc) : Acc :=
  (List.range h.comps).foldl (fun acc k =>
    let col := outColumn planar h n k
    let r := if spec then invalid .f32 else addTotal (if set then 0 else tileAt acc.tile m col) (mxTotal t x a b k)
    { acc with tile := tileSet acc.tile m col (BitVec.ofNat 32 r.1), flags := acc.flags ||| r.2 }) acc

/-- The accumulator after an MX on a fed tile (R85, R86, R212). -/
def mxResult (l : Launch) (blk : Block) (x : XForm) (set : Bool) (d : List Byte) (raws : List Nat) : Acc :=
  let slot := recFs l x.fsi.val
  let h := shapeOf l slot (x.bdn.val + 1)
  let t := tableOf l (fsAlg slot)
  let acc := accOf blk x.acc.val
  let columns := (List.range h.cols).map fun n =>
    ((bedRange x).any fun i => (bedOf blk i).special.contains n,
      (List.range h.comps).map fun j => (List.range h.depth).map fun kk => bedValue blk x h j kk n)
  let acc' := (List.range 64).foldl (fun acc m =>
    let vals := (List.range h.comps).map fun i => rowValues slot d raws h.comps h.depth m i
    let bad := vals.any fun vs => vs.any special
    let a := vals.map fun vs => quantaDy (fsPlanes slot) (quantise (fsPlanes slot) vs)
    ((List.range h.cols).zip columns).foldl (fun acc p =>
      mxElement t x (fsPlanar slot) set h (bad || p.2.1) a p.2.2 m p.1 acc) acc) acc
  { acc' with version := acc.version + 1 }

/-- The tokens that the feed of a tile takes: those of the bytes it reads from an object (R371). DEDUCED: log entry 105. -/
def feedCost (l : Launch) (blk : Block) (m : MxJob) : Nat :=
  let j := jigOf blk m.x.jg.val
  let slot := recFs l m.x.fsi.val
  let h := shapeOf l slot (m.x.bdn.val + 1)
  if j.base.toNat / 2 ^ 40 == 0 then 0
  else ceilDiv (fedRows j.desc * fedDepth j.desc h.depth * h.comps * elementBytes (fsFmt slot)) 64

/-- A launched MX runs: its accumulator, or why its feed stops. -/
def feedMx (k : Kern) (c : Nat) (m : MxJob) : Kern × Except FeedStop Acc :=
  match blockOf k c m.block with
  | none => (k, .error (.trap 0x05 0 0))
  | some blk =>
    match launchOf k blk with
    | none => (k, .error (.trap 0x05 0 0))
    | some l =>
      let j := jigOf blk m.x.jg.val
      let slot := recFs l m.x.fsi.val
      let h := shapeOf l slot (m.x.bdn.val + 1)
      let e := elementBytes (fsFmt slot)
      match feedAll c (recClass l) blk j.base.toNat e k (feedOffsets (fsPlanar slot) j.desc m.i2.toNat m.i3.toNat h.comps h.depth) with
      | (k, .error x) => (k, .error x)
      | (k, .ok raws) => (k, .ok (mxResult l blk m.x m.set j.desc raws))

/-- The threads held at an MX. -/
def heldAt (core : Core) (id : Nat) : List Thread := core.threads.filter fun t => t.wait == .mxHeld id

/-- Abandon an MX (R213): its held threads are released at it. -/
def abandonMx (k : Kern) (c : Nat) (m : MxJob) : Kern :=
  let ts := heldAt (coreOf k c) m.id
  let k := modCore k c fun core => { core with mxq := core.mxq.filter fun x => x.id != m.id }
  let k := modJig k c m.block m.x.jg.val fun j => { j with i2 := m.i2, i3 := m.i3 }
  let k := if m.x.pge then
      modBlock k c m.block fun blk =>
        { blk with pegs := lmod blk.pegs m.x.pg.val fun p =>
            { p with episode := .signClosed, pass := ts.foldl (fun ps t => addOnce ps (memberId blk t)) p.pass } }
    else k
  let k := ts.foldl (fun k t => modThis k c t fun u => { u with wait := .none }) k
  moveThreads k c (ts.map fun t => moverOf k c t t.pc.toNat)

/-! ## The instructions -/

/-- JIG. -/
def execJig (x : XForm) (s : State) : Host.Outcome State Fault Refusal :=
  answer (issueOnce s (.jig x) fun k t _ => jigBody s x k t)
/-- JIG.st. -/
def execJigSt (x : XForm) (s : State) : Host.Outcome State Fault Refusal :=
  answer (issueOnce s (.jigSt x) fun k t _ => jigStoreBody s x k t)
/-- JIG.ld. -/
def execJigLd (x : XForm) (s : State) : Host.Outcome State Fault Refusal :=
  answer (issueOnce s (.jigLd x) fun k t _ => jigLoadBody s x k t)
/-- MX. -/
def execMx (x : XForm) (s : State) : Host.Outcome State Fault Refusal := answer (issue s (.mx x) (runMx s false x))
/-- MX.set. -/
def execMxSet (x : XForm) (s : State) : Host.Outcome State Fault Refusal := answer (issue s (.mxSet x) (runMx s true x))
/-- ACCZ. -/
def execAccz (x : XForm) (s : State) : Host.Outcome State Fault Refusal :=
  answer (issueOnce s (.accz x) fun k t _ => acczBody s.cur.core x k t)
/-- ACCLD. -/
def execAccld (x : XForm) (s : State) : Host.Outcome State Fault Refusal :=
  answer (issueOnce s (.accld x) fun k t _ => accLoadBody s x k t)
/-- ACCST (R215, R217): every thread with a true guard absorbs the flags. -/
def execAccst (x : XForm) (s : State) : Host.Outcome State Fault Refusal :=
  let c := s.cur.core
  answer (issue s (.accst x) fun k ts =>
    match ts with
    | [] => (k, [])
    | (t, _) :: _ =>
      match accStoreBody s x k t with
      | (k, .next) => (ts.foldl (fun k p => joinFlags k c p.1 (accFlags s.kern c t x)) k, ts.map fun _ => .next)
      | (k, e) => (k, ts.map fun _ => parkTogether (coreOf k c) ts.length e))
/-- ACCST.now. -/
def execAccstNow (x : XForm) (s : State) : Host.Outcome State Fault Refusal :=
  answer (issueOnce s (.accstNow x) fun k t _ => accStoreBody s x k t)
/-- ACCMOV. -/
def execAccmov (n : MovCount) (x : XForm) (s : State) : Host.Outcome State Fault Refusal :=
  answer (issueEach s (.accmov n x) (accMoveBody s (movCount n) x))
/-- ACCVER. -/
def execAccver (x : XForm) (s : State) : Host.Outcome State Fault Refusal :=
  answer (issueEach s (.accver x) (accVersionBody s.cur.core true x))
/-- ACCVER.now. -/
def execAccverNow (x : XForm) (s : State) : Host.Outcome State Fault Refusal :=
  answer (issueEach s (.accverNow x) (accVersionBody s.cur.core false x))
/-- BEDLD. -/
def execBedld (x : XForm) (s : State) : Host.Outcome State Fault Refusal :=
  answer (issueOnce s (.bedld x) (bedLoadBody s false x))
/-- BEDLD.grain. -/
def execBedldGrain (x : XForm) (s : State) : Host.Outcome State Fault Refusal :=
  answer (issueOnce s (.bedldGrain x) (bedLoadBody s true x))
/-- BEDCLR. -/
def execBedclr (x : XForm) (s : State) : Host.Outcome State Fault Refusal :=
  answer (issueOnce s (.bedclr x) fun k t _ => bedClearBody s x k t)

end Sys2Proof.Machine
end

