-- ==== Sys2Proof/Machine/System.lean ====
section
/-! DEFINITION. NOP, traps and TRET, special registers, EVWAIT, GROW and SHRINK, ILINV and SAMPLE (08 R234, R240 to R253), and
the words that name no instruction (01 R14, R47). -/

namespace Sys2Proof.Machine

/-! ## TRET (R241) -/

/-- The resumption target in a trap record. -/
def recordTarget (t : Thread) : Nat := (readK t 0).toNat % 2 ^ 30 * 2 ^ 6 + (readK t 1).toNat % 8

/-- A thread restarted in its handler (R377): the registers other than k0 to k7 are zero. -/
def restarted (t : Thread) (k : List W32) (handler : Nat) : Thread :=
  { t with regs := { RegFile.start with k := k }, tstate := true, pre := true, pc := BitVec.ofNat 64 handler, loc := .pending 0,
           wait := .none, held := [], latch := none }

/-- The stood-down threads of a context restart in place (R376). -/
def restartDown (k : Kern) (ctx : Nat) : Kern :=
  k.cores.foldl (fun k p =>
    let down := p.2.threads.filter fun t => t.loc == .down && ctxOf k p.1 t == ctx
    let ms := down.filterMap fun t => ((threadLaunch k p.1 t).bind recHandler).map (moverOf k p.1 t)
    let k := down.foldl (fun k t =>
      match (threadLaunch k p.1 t).bind recHandler with
      | some h => modThis k p.1 t fun u => restarted u u.regs.k h
      | none => k) k
    if ms.isEmpty then k else moveThreads k p.1 ms) k

/-- A successful TRET (R241): a thread that returns from its pre-emption handler while the context is pre-empting declines the
pre-emption (R376). -/
def leaveTrap (k : Kern) (c : Nat) (t : Thread) : Kern :=
  let ctx := ctxOf k c t
  let k := modThis k c t fun u => { u with tstate := false, pre := false }
  if t.pre && (getCtx k ctx).state == .preempting then { restartDown (modCtx k ctx fun x => { x with state := .running }) ctx with asks := true }
  else k

/-- TRET of one thread: the target's line is fetched again (R50), where one that fails R13 raises cause 0x02; the other checks of
R241 keep their own causes. A pending asynchronous trap is taken at the next slot boundary, before the target issues.
DEDUCED: log entry 112. -/
def tretBody (c : Nat) (k : Kern) (t : Thread) : Kern × Course :=
  match threadLaunch k c t with
  | none => (k, .stay)
  | some l =>
    let target := recordTarget t
    if !t.tstate then illegalHere k
    else
      let k := refetch k c l (pcLine target)
      match targetCause k c l target false with
      | some x => (modThis k c t fun u => { u with tstate := false }, .trapAt target x.1 0 x.2)
      | none =>
        if pairtOf k c l target != (readK t 1).toNat / 2 ^ 20 then
          (modThis k c t fun u => { u with tstate := false }, .trapAt target 0x13 0 0)
        else (leaveTrap k c t, .to target)

/-! ## Special registers (R242 to R246) -/

/-- RATIOS (R245). -/
def ratiosWord (s : State) : W32 :=
  let g := s.pwr.grant
  BitVec.ofNat 32 (s.pwr.seq.toNat * 2 ^ 16 + g.memory % 16 * 2 ^ 12 + g.network % 16 * 2 ^ 8 + g.vector % 16 * 2 ^ 4 + g.matrix % 16)

/-- The bay of a core. -/
def coreBay (s : State) (c : Nat) : Bay := (mget s.pwr.bays (bayOf c)).getD (Bay.reset false)

/-- FREQSTEP of a core's bay. -/
def stepWord (s : State) (c : Nat) : W32 := BitVec.ofNat 32 (coreBay s c).step
/-- TEMPBAND of a core's bay. -/
def bandWord (s : State) (c : Nat) : W32 := BitVec.ofNat 32 (coreBay s c).band

/-- RATIOEV of a thread (R245). -/
def ratioEvents (s : State) (c : Nat) (t : Thread) : Nat :=
  (if bandWord s c != t.seenBand then 4 else 0) + (if stepWord s c != t.seenStep then 2 else 0) +
    (if ratiosWord s != t.seenRatios then 1 else 0)

/-- REVISION (R246): the patch level is how many patch slots are used. -/
def revision (f : Firmware) : Nat := 0x9600A100 + f.patches % 256

/-- ENBAYS (R244). -/
def enabledBays (s : State) : Nat := bitsOf ((s.pwr.bays.filter fun p => p.2.enabled).map (·.1))

/-- The cell of a thread, as a cell of its field. -/
def cellHere (k : Kern) (c : Nat) (t : Thread) : Option Cell :=
  (cellPlace k c t).map fun p => cellAt p.1 p.2.1.brick p.2.2

/-- A special register (R244 to R246). -/
def specialValue (s : State) (t : Thread) (n : Nat) : Nat :=
  let k := s.kern
  let c := s.cur.core
  let blk := blockOf k c t.block
  let l := threadLaunch k c t
  let cell (f : Cell → Nat) : Nat := ((cellHere k c t).map f).getD 0
  let ofLaunch (f : Launch → Nat) : Nat := (l.map f).getD 0
  match n with
  | 0x000 => t.lane
  | 0x001 => t.tslot
  | 0x002 => t.glane
  | 0x003 => t.group
  | 0x004 => ofLaunch recWidth
  | 0x005 => (blk.map fun b => b.groups.length).getD 0
  | 0x006 => t.block
  | 0x007 => c % 64
  | 0x008 => c % 64 / 8
  | 0x009 => c / 64
  | 0x00A => s.fab.dev
  | 0x00B => ctxOf k c t
  | 0x00C => regsOf k c t
  | 0x00D => if t.tstate then 1 else 0
  | 0x010 => cell (·.x)
  | 0x011 => cell (·.y)
  | 0x012 => cell (·.z)
  | 0x013 => if inField k c t then cell (·.s) else ofLaunch recTstage
  | 0x014 => sigmaOf k c t % 2 ^ 32
  | 0x015 => ofLaunch recX
  | 0x016 => ofLaunch recY
  | 0x017 => ofLaunch recZ
  | 0x018 => ofLaunch recStages
  | 0x020 => t.regs.fflags.toNat
  | 0x030 => (ratiosWord s).toNat
  | 0x031 => ratioEvents s c t
  | 0x032 => (stepWord s c).toNat
  | 0x033 => (bandWord s c).toNat
  | 0x034 => s.pwr.boost
  | 0x040 => (getCtx k (ctxOf k c t)).ebudget
  | 0x050 => t.settle.truss.toNat
  | 0x051 => (if t.settle.opened then 4 else 0) + (if t.settle.mixed then 2 else 0) + (if t.settle.cold then 1 else 0)
  | 0x060 => (cycleOf k c).toNat
  | 0x070 => revision s.fw
  | 0x071 => enabledBays s
  | 0x072 => 0x3FFF
  | _ => 0

/-- What SRD records as seen (R242). -/
def recordSeen (s : State) (n : Nat) (t : Thread) : Thread :=
  match n with
  | 0x030 => { t with seenRatios := ratiosWord s }
  | 0x032 => { t with seenStep := stepWord s s.cur.core }
  | 0x033 => { t with seenBand := bandWord s s.cur.core }
  | _ => t

/-- SRD of one thread. -/
def srdBody (s : State) (n : Nat) (k : Kern) (t : Thread) (dst : List Reg) : Kern × Course :=
  let ty : Ty := if srWide n == some true then .n64 else .n32
  let k := writeRegs k s.cur.core t dst (place ty (specialValue s t n))
  (modThis k s.cur.core t (recordSeen s n), .next)

/-- Set FFLAGS (R243). -/
def setFlags (k : Kern) (c : Nat) (t : Thread) (f : BitVec 5) : Kern :=
  modThis k c t fun u => { u with regs := { u.regs with fflags := f } }

/-! ## EVWAIT (R247) -/

/-- EVWAIT of one thread: it goes on at once where an event of its mask stands or its limit is 0. A thread whose group's scalar
another thread writes keeps no destination (R109). -/
def evwaitBody (s : State) (x : SForm) (k : Kern) (t : Thread) (dst : List Reg) : Kern × Course :=
  let c := s.cur.core
  let limit := if x.a == Opnd.none then none else some (srcCount s t x.a)
  let ev := ratioEvents s c t
  if Nat.land ev x.imm.toNat != 0 || limit == some 0 then (writeRegs k c t dst [BitVec.ofNat 32 ev], .next)
  else beginWait k c t (.evwait (x.imm.setWidth 32) limit (coreOf k c).cycle dst)

/-! ## GROW and SHRINK (R248 to R250) -/

/-- The 8-lane columns of a group that hold a thread that has not exited. -/
def liveColumns (core : Core) (b g : Nat) : List Nat :=
  ((groupThreads core b g).filter live).foldl (fun cs t => addOnce cs (t.glane / 8)) []

/-- The number of a predicate operand. -/
def predNumber : Opnd → Nat
  | .pred _ i => i.val
  | _ => 0

/-- A register file with n vector registers zeroed from a register. -/
def zeroRegs (lo n : Nat) (r : RegFile) : RegFile :=
  (List.range n).foldl (fun r i => r.setV (lo + i) 0) r

/-- Some GROW waits in the core (R248). -/
def growWaits (core : Core) : Bool := core.threads.any fun t => match t.wait with | .grow _ _ _ => true | _ => false

/-- The slices that a GROW of n registers needs. -/
def growNeed (core : Core) (b g n : Nat) : Nat := n / 8 * (liveColumns core b g).length

/-- Slices of columns of a group whose every thread has exited return to the core (R277). -/
def returnColumns (k : Kern) (c b g : Nat) (test : Nat → Bool) : Kern :=
  match (blockOf k c b).bind fun blk => blk.groups[g]? with
  | none => k
  | some x =>
    let alive := liveColumns (coreOf k c) b g
    let gone := x.cols.filter fun i => test i && !alive.contains i
    let k := modCore k c fun core => { core with slices := core.slices + gone.length * (x.regs / 8 + 1) }
    modGroup k c b g fun y => { y with cols := y.cols.filter fun i => !gone.contains i }

/-- Grant a GROW to a group (R248): the registers are zeroed in every thread of it. -/
def grantGrow (k : Kern) (c b g n : Nat) : Kern :=
  let k := returnColumns k c b g fun _ => true
  let regs := ((blockOf k c b).bind fun blk => (blk.groups[g]?).map (·.regs)).getD 0
  let k := modCore k c fun core =>
    { core with
      slices := core.slices - growNeed core b g n,
      threads := core.threads.map fun t => if t.block == b && t.group == g then { t with regs := zeroRegs regs n t.regs } else t }
  modGroup k c b g fun x => { x with regs := x.regs + n }

/-- What GROW does for one group of the issue: the state and the course of its threads, with the predicate. -/
inductive GrowTurn where
  | trap
  | answer (p : Bool)
  | waits (seq : Nat)
  deriving DecidableEq, Repr

/-- GROW of one group: it waits behind one that waits already, be it another group of the same issue (R248). -/
def growGroup (s : State) (n : Nat) (behind : Bool) (k : Kern) (t : Thread) : Kern × GrowTurn :=
  let c := s.cur.core
  if splitScalar (coreOf k c) s.cur.entry t then (k, .trap)
  else if 248 < regsOf k c t + n then (k, .answer false)
  else
  let k := returnColumns k c t.block t.group fun _ => true
  if behind || growWaits (coreOf k c) || (coreOf k c).slices < growNeed (coreOf k c) t.block t.group n then
    ({ k with id := k.id + 1 }, .waits k.id)
  else (grantGrow k c t.block t.group n, .answer true)

/-- The threads that stand for their groups: the first of each. -/
def leaders : List Thread → List Thread
  | [] => []
  | t :: ts => t :: (leaders ts).filter fun u => !(u.block == t.block && u.group == t.group)

/-- A group has begun to wait. -/
def GrowTurn.waiting : GrowTurn → Bool
  | .waits _ => true
  | _ => false

/-- The turns of the groups in order; behind says that an earlier group of the issue waits. DESIGN CHOICE: log entry 125. -/
def growTurns (s : State) (n : Nat) : Bool → Kern → List Thread → Kern × List (Thread × GrowTurn)
  | _, k, [] => (k, [])
  | behind, k, t :: ts =>
    let r := growGroup s n behind k t
    let rs := growTurns s n (behind || r.2.waiting) r.1 ts
    (rs.1, (t, r.2) :: rs.2)

/-- GROW of one thread by the turn of its group. -/
def growThread (c : Nat) (x : SForm) (turns : List (Thread × GrowTurn)) (k : Kern) (t : Thread) : Kern × Course :=
  let turn : Option GrowTurn := (turns.find? fun p => p.1.block == t.block && p.1.group == t.group).map fun p => p.2
  match turn with
  | some .trap => (k, .trap 0x0A 0 0)
  | some (.answer p) => (writePred k c t (predNumber x.d) p, .next)
  | some (.waits seq) => beginWait k c t (.grow x.imm.toNat x.d seq)
  | none => (k, .next)

/-- GROW of an issue. -/
def growRun (s : State) (x : SForm) (k : Kern) (ts : List (Thread × List Reg)) : Kern × List Course :=
  let r := growTurns s x.imm.toNat false k (leaders (ts.map (·.1)))
  foldBody (fun k t _ => growThread s.cur.core x r.2 k t) r.1 ts

/-- Return n registers of a group (R250). -/
def shrinkGroup (k : Kern) (c b g n : Nat) : Kern :=
  let k := returnColumns k c b g fun _ => true
  let k := modCore k c fun core => { core with slices := core.slices + growNeed core b g n }
  modGroup k c b g fun x => { x with regs := x.regs - n }

/-- What SHRINK raises in a thread. -/
def shrinkTrap (s : State) (n : Nat) (t : Thread) : Option Nat :=
  if n % 8 != 0 || regsOf s.kern s.cur.core t < n + 8 then some 0x01
  else if splitScalar (coreOf s.kern s.cur.core) s.cur.entry t then some 0x0A
  else none

/-- SHRINK of an issue. -/
def shrinkRun (s : State) (x : SForm) (k : Kern) (ts : List (Thread × List Reg)) : Kern × List Course :=
  let n := x.imm.toNat
  let k := (leaders (ts.map (·.1))).foldl (fun k t =>
    if (shrinkTrap s n t).isNone then shrinkGroup k s.cur.core t.block t.group n else k) k
  (k, ts.map fun p => match shrinkTrap s n p.1 with | some cause => .trap cause 0 0 | none => .next)

/-! ## ILINV (R251) -/

/-- Drop one line of the thread's code object from the line buffer, or every line that the buffer holds, with the copies that
the line cache holds of that line, or of every line, of the code object. -/
def dropCode (k : Kern) (c : Nat) (t : Thread) (line : Option Nat) : Kern :=
  match threadLaunch k c t with
  | none => k
  | some l =>
    let o := capObj (recCode l)
    let hit (n : Nat) : Bool := line.isNone || line == some n
    modCore k c fun core =>
      { core with
        lines := core.lines.filter fun x => !(line.isNone || (x.ctx == l.ctx && x.obj == o && hit x.line)),
        lcache := core.lcache.filter fun x => !(x.ctx == l.ctx && x.obj == o && hit (64 * x.line)) }

/-! ## SAMPLE (R252) -/

/-- A sample-buffer header that SAMPLE.on accepts. -/
def goodBuffer (h : List Byte) : Bool := fieldOf h 8 4 ≤ 20 && zeroRange h 12 52

/-- SAMPLE.on once. -/
def sampleOnBody (s : State) (x : SForm) (k : Kern) (t : Thread) : Kern × Course :=
  let c := s.cur.core
  let ctx := ctxOf k c t
  let cap := readPair s.kern c t x.a
  let sm := (coreOf k c).sampler
  if sm.running && sm.ctx != ctx then (k, .trap 0x05 0 0)
  else
    match checkObj k ctx cap (capOff cap) 64 64 needWrite with
    | .error _ => (k, .trap 0x05 0 0)
    | .ok ea =>
      match objRuns k ctx (capObj cap) ea 64 with
      | .error e => (k, .park (capForm cap e.1) e.2)
      | .ok rs =>
        match readTrap (takeTokens k c ctx 64) ctx (classOf k c t) rs with
        | (k, .error h) => (k, poisonTrap k c t { space := .ob, cap := cap, ea := ea } h)
        | (k, .ok h) =>
          if !goodBuffer h then (k, .trap 0x05 0 0)
          else
            (modCore k c fun core =>
              { core with sampler :=
                  { running := true, ctx := ctx, buf := BitVec.ofNat 64 cap, e := x.imm.toNat,
                    last := if sm.running then sm.last else 255, lastCycle := core.cycle } }, .next)

/-- SAMPLE.off once: the owner's sampler stops. DEDUCED: log entry 35. -/
def sampleOffBody (c : Nat) (k : Kern) (t : Thread) : Kern × Course :=
  let mine := (coreOf k c).sampler.ctx == ctxOf k c t
  (if mine then modCore k c fun core => { core with sampler := { core.sampler with running := false } } else k, .next)

/-! ## The instructions -/

/-- NOP. -/
def execNop (x : SForm) (s : State) : Host.Outcome State Fault Refusal := answer (issueEach s (.nop x) fun k _ _ => (k, .next))
/-- TRAP (R240): the saved program counter is the sequential successor. -/
def execTrap (x : SForm) (s : State) : Host.Outcome State Fault Refusal :=
  answer (issueEach s (.trap x) fun k _ _ => (k, .trapAt (curNext s) 0x12 0 x.imm.toNat))
/-- TRET. -/
def execTret (x : SForm) (s : State) : Host.Outcome State Fault Refusal :=
  answer (issueEach s (.tret x) fun k t _ => tretBody s.cur.core k t)
/-- BRK (R240): the saved program counter is the BRK. -/
def execBrk (x : SForm) (s : State) : Host.Outcome State Fault Refusal :=
  answer (issueEach s (.brk x) fun k _ _ => (k, .trap 0x12 1 x.imm.toNat))
/-- SRD. -/
def execSrd (x : SForm) (s : State) : Host.Outcome State Fault Refusal :=
  answer (issueEach s (.srd x) (srdBody s x.sr.toNat))
/-- SWR: FFLAGS is the one register it writes. -/
def execSwr (x : SForm) (s : State) : Host.Outcome State Fault Refusal :=
  answer (issueEach s (.swr x) fun k t _ => (setFlags k s.cur.core t (BitVec.ofNat 5 (srcRaw s t .n32 x.a)), .next))
/-- GROW. -/
def execGrow (x : SForm) (s : State) : Host.Outcome State Fault Refusal := answer (issue s (.grow x) (growRun s x))
/-- SHRINK. -/
def execShrink (x : SForm) (s : State) : Host.Outcome State Fault Refusal := answer (issue s (.shrink x) (shrinkRun s x))
/-- EVWAIT. -/
def execEvwait (x : SForm) (s : State) : Host.Outcome State Fault Refusal :=
  answer (issueEach s (.evwait x) (evwaitBody s x))
/-- ILINV. -/
def execIlinv (x : SForm) (s : State) : Host.Outcome State Fault Refusal :=
  let c := s.cur.core
  answer (issueEach s (.ilinv x) fun k t _ =>
    (dropCode k c t (some (pcLine (readPair s.kern c t x.a))), .next))
/-- ILINV.all. -/
def execIlinvAll (x : SForm) (s : State) : Host.Outcome State Fault Refusal :=
  answer (issueEach s (.ilinvAll x) fun k t _ => (dropCode k s.cur.core t none, .next))
/-- SAMPLE.on. -/
def execSampleOn (x : SForm) (s : State) : Host.Outcome State Fault Refusal :=
  answer (issueOnce s (.sampleOn x) fun k t _ => sampleOnBody s x k t)
/-- SAMPLE.off. -/
def execSampleOff (x : SForm) (s : State) : Host.Outcome State Fault Refusal :=
  answer (issueOnce s (.sampleOff x) fun k t _ => sampleOffBody s.cur.core k t)
/-- A word of an unassigned major opcode raises illegal instruction (R47). -/
def execUnassignedMajorOpcode (_ : W96) (s : State) : Host.Outcome State Fault Refusal :=
  answer (issueIllegal s 0x01)
/-- A slot of 96 zero bits raises zero word (R14). -/
def execZeroWord (s : State) : Host.Outcome State Fault Refusal := answer (issueIllegal s 0x03)

end Sys2Proof.Machine
end

