-- ==== Sys2Proof/Machine/Fabric.lean ====
section
/-! DEFINITION. What leaves a core and the device: the tokens of a core's port (17 R371), and packets (12 R334; 18 R384 to R389,
R392): devices, planes, streams, sequence numbers, and what waits to be sent. -/

namespace Sys2Proof.Machine

/-! ## Device numbers (R384) -/

/-- DOMAIN of a device number. -/
def devDomain (d : Nat) : Nat := d / 2 ^ 13 % 64
/-- MEMBER of a device number. -/
def devMember (d : Nat) : Nat := d % 2 ^ 13
/-- The leaf of a device in every plane. -/
def devLeaf (d : Nat) : Nat := devMember d / 64
/-- The port of a device on its leaf. -/
def leafPort (d : Nat) : Nat := devMember d % 64

/-- A party of an ordering that is no thread of this device: a device, the host through PCIe, or a transfer through the front end
(R327, R384). -/
inductive Party where
  | device (d : Nat)
  | host
  | frontEnd
  deriving DecidableEq, Repr

/-- A party is within a scope of a thread of the device me: .dom reaches the devices of its DOMAIN, .sys all of them with the host
and the front end (R384). -/
def inParties (sc : Scope) (me : Nat) : Party → Bool
  | .device d => sc == .sys || (sc == .dom && devDomain d == devDomain me) || d == me
  | .host | .frontEnd => sc == .sys

/-! ## Tokens (17 R371) -/

/-- A request that leaves the core takes its tokens; none where the bucket does not hold them. The context counts as active. -/
def spend (k : Kern) (c ctx bytes : Nat) : Kern × Bool :=
  let cost := max 1 (ceilDiv bytes 64)
  match mget (coreOf k c).buckets ctx with
  | none => (k, true)
  | some b =>
    let ok := b.owed == 0 && cost ≤ b.tokens
    (modCore k c fun core =>
      { core with buckets := mset core.buckets ctx { b with tokens := if ok then b.tokens - cost else b.tokens, active := true } }, ok)

/-- A transfer of an engine of a core takes the tokens that it lacks as far as the bucket holds them: the state, and what it has
taken. Its requests leave one by one. -/
def payUnit (k : Kern) (c ctx cost paid : Nat) : Kern × Nat :=
  match mget (coreOf k c).buckets ctx with
  | none => (k, cost)
  | some b =>
    let n := if b.owed == 0 then min (cost - paid) b.tokens else 0
    (modCore k c fun core => { core with buckets := mset core.buckets ctx { b with tokens := b.tokens - n, active := true } }, paid + n)

/-- A load answers from the line cache, and leaves nothing. -/
def answersFromCache (k : Kern) (c : Nat) (q : Req) : Bool :=
  q.kind == .load && !(q.acq && wideScope q.sc) && ((getObj k q.ctx (capObj q.cap.toNat)).map (·.home)) == some .hbm &&
    (cachedLine (coreOf k c) q.ctx (capObj q.cap.toNat) (q.ea / 64)).isSome

/-- A request stands at the port: it may be performed, its tokens have not been taken, and it leaves the core. -/
def atPort (k : Kern) (c : Nat) (q : Req) : Bool := !q.paid && mayPerform (coreOf k c) q && !answersFromCache k c q

/-- The requests at the port of a core take their tokens, those of one context in order: one that is held holds the later ones. -/
def payPort (c : Nat) : List Req → List Nat → Kern → Kern
  | [], _, k => k
  | q :: qs, stuck, k =>
    if stuck.contains q.ctx || !atPort k c q then payPort c qs stuck k
    else
      match spend k c q.ctx q.size with
      | (k, true) =>
        payPort c qs stuck (modCore k c fun core =>
          { core with reqs := core.reqs.map fun r => if r.id == q.id then { r with paid := true } else r })
      | (k, false) => payPort c qs (q.ctx :: stuck) k

/-- The port of a core lets out what its buckets allow. -/
def openPort (k : Kern) (c : Nat) : Kern := payPort c (coreOf k c).reqs [] k

/-! ## Ports, planes and lanes (R385, R387) -/

/-- A port. -/
def getPort (s : State) (p : Nat) : Port := (mget s.fab.ports p).getD Port.reset

/-- The port carries traffic (R399). -/
def portUp (p : Port) : Bool := p.state == .up8 || p.state == .up4

/-- The slot in use for sending, by its number. -/
def slotNumber (b : Bool) : Nat := if b then 1 else 0

/-- The sending slot in use, where the link is encrypted. -/
def sendSlot (p : Port) : Option KeySlot := mget p.sendKeys (slotNumber p.ks)

/-- An encrypted link has the key under which it sends (R401, R405). -/
def hasKey (p : Port) : Bool := !p.encrypt || (sendSlot p).isSome

/-- The invocation limit of a slot (R404). -/
def keyLimit : Nat := 2 ^ 32

/-- The slot in use has reached its limit. -/
def atLimit (p : Port) : Bool := match sendSlot p with | some k => keyLimit ≤ k.counter | none => false

/-- A marker may be sent: the other slot holds a key loaded after the warning (R403, R404). -/
def markerReady (p : Port) : Bool :=
  portUp p && p.kwarn && match mget p.sendKeys (slotNumber (!p.ks)) with | some k => k.afterWarn | none => false

/-- The counter of the slot in use has reached 0xFFF0_0000, and the warning stands out (R404). -/
def warnDue (p : Port) : Bool := (match sendSlot p with | some k => decide (0xFFF00000 ≤ k.counter) | none => false) && !p.kwarn

/-- A port is to retrain: more than 16 replays within 100 µs (R399). -/
def retrainDue (now : Nat) (p : Port) : Bool := portUp p && decide (16 < (p.recent.filter fun t => now ≤ t + 100).length)

/-- A plane reaches a device: its port is up and has its key, and the plane reaches it (R387, R396). -/
def planeReaches (s : State) (dst plane : Nat) : Bool :=
  portUp (getPort s plane) && hasKey (getPort s plane) && match mget s.fab.planesUp dst with
    | some m => m.toNat.testBit plane
    | none => true

/-- The plane that carries a lane (R387): its own, else the next that reaches the destination. -/
def planeFor (s : State) (dst lane : Nat) : Option Nat :=
  ((List.range 16).map fun k => (lane + k) % 16).find? (planeReaches s dst)

/-- The lane of a request (R334, R385). -/
def laneOf (dst obj line : Nat) : Nat := Config.laneHash dst obj line % 16

/-- A packet that carries a request. -/
def asksFor (p : FabPacket) : Bool := p.cls == .request || p.cls == .forward

/-- It has been sent again on the plane that R387 allows its lane, or there is none. -/
def triedPlanes (s : State) (p : FabPacket) : Bool :=
  match planeFor s p.dst p.lane with
  | some n => p.plane == n && p.sentAt != p.firstAt
  | none => true

/-- A request that has gone unacknowledged for 10 ms, even after retransmission on every plane that R387 allows. -/
def overdue (s : State) (p : FabPacket) : Bool := asksFor p && p.firstAt + 10000 ≤ s.pwr.usec && triedPlanes s p

/-- A notification to frame firmware or the host (R435). -/
def notify_ (s : State) (event detail value : Nat) : State :=
  let r : Response := { tag := 0xFFFFFFFF, status := event, detail := detail, value := BitVec.ofNat 64 value }
  { s with fw := { s.fw with responses := s.fw.responses ++ [r] } }

/-! ## Streams (R386) -/

/-- A stream of the fabric. -/
def sameStream (src dst lane : Nat) (cls : TrafficClass) (x : Stream) : Bool :=
  x.src == src && x.dst == dst && x.lane == lane && x.cls == cls

/-- A stream, new where nothing has travelled on it. Lane L begins on plane L (R385). -/
def streamOf (f : Fabric) (src dst lane : Nat) (cls : TrafficClass) : Stream :=
  (f.streams.find? (sameStream src dst lane cls)).getD
    { src := src, dst := dst, lane := lane, cls := cls, sendNext := 0, recvNext := 0, reorder := [], plane := lane }

/-- The plane that a lane of this device to a destination is on: that of its streams, else one that reaches it (R387). -/
def lanePlane (s : State) (dst lane : Nat) : Nat :=
  match s.fab.streams.find? fun x => x.src == s.fab.dev && x.dst == dst && x.lane == lane with
  | some x => x.plane
  | none => (planeFor s dst lane).getD lane

/-- The fabric with a stream replaced. -/
def putStream (f : Fabric) (x : Stream) : Fabric :=
  if f.streams.any (sameStream x.src x.dst x.lane x.cls) then
    { f with streams := f.streams.map fun y => if sameStream x.src x.dst x.lane x.cls y then x else y }
  else { f with streams := f.streams ++ [x] }

/-- A class whose packets the source keeps until they are acknowledged (R386). A forwarded request is a request. -/
def keptClass (c : TrafficClass) : Bool := c == .request || c == .face || c == .forward

/-- Send a packet (R386): it takes the next number of its stream. -/
def sendPacket (s : State) (dst lane : Nat) (cls : TrafficClass) (load : Payload) : State :=
  let x := { streamOf s.fab s.fab.dev dst lane cls with plane := lanePlane s dst lane }
  let p : FabPacket := { id := s.kern.id, src := s.fab.dev, dst := dst, lane := lane, cls := cls, eseq := x.sendNext,
                         plane := x.plane, sentAt := s.pwr.usec, firstAt := s.pwr.usec, load := load }
  let f := putStream s.fab { x with sendNext := x.sendNext + 1 }
  { s with kern := { s.kern with id := s.kern.id + 1 },
           fab := { f with packets := f.packets ++ [p], unacked := if keptClass cls then f.unacked ++ [p] else f.unacked } }

/-! ## What waits to leave -/

/-- A remote request that may be sent: its tokens have been taken. -/
def sendable (core : Core) (q : Req) : Bool := q.remote.isSome && !q.sent && q.paid && mayPerform core q

/-- Send the remote requests of a core. -/
def flushReqs (s : State) (c : Nat) : State :=
  let core := coreOf s.kern c
  (core.reqs.filter (sendable core)).foldl (fun s q =>
    let dst := q.remote.getD 0
    let o := capObj q.cap.toNat
    let s := sendPacket s dst (laneOf dst o (q.ea / 64)) .request
      (.access q.id c o q.ea q.size q.kind q.ty q.data q.cmp (q.acq || q.rel) (serialClass s.kern q.serial))
    { s with kern := modCore s.kern c fun core =>
        { core with reqs := core.reqs.map fun r => if r.id == q.id then { r with sent := true } else r } }) s

/-- Send the draining entries of a core that have their tokens (R154, R371, R391). -/
def flushDrains (s : State) (c : Nat) : State :=
  ((coreOf s.kern c).wc.filter fun e => e.draining && !e.sent).foldl (fun s e =>
    match spend s.kern c e.ctx e.bytes.length with
    | (k, false) => { s with kern := k }
    | (k, true) =>
      let s := sendPacket { s with kern := k } e.hdev (laneOf e.hdev e.obj e.line) .request (.drain c e.id e.obj e.line e.bytes)
      { s with kern := modCore s.kern c fun core =>
          { core with wc := core.wc.map fun x => if x.id == e.id then { x with sent := true } else x } }) s

/-- The requester of what an engine asks of another device (R388, R392): no core. -/
def engineCore : Nat := 257
/-- The requester of what a home sends on to the device that holds the extent (R388, R389): no core. -/
def forwardCore : Nat := 258

/-- The packet of an engine's request for a line. -/
def farLoad (x : Far) : Payload :=
  match x.put with
  | none => .access x.id engineCore x.obj (64 * x.line) 64 .load .b64 0 0 false 0
  | some m => .drain engineCore x.id x.obj x.line m

/-- Change an engine's request. -/
def modFar (k : Kern) (id : Nat) (f : Far → Far) : Kern := { k with far := k.far.map fun x => if x.id == id then f x else x }

/-- Send what engines ask of other devices (R392). A destination that is unreachable ends the request (R393); a status word and the
like, which no unit waits for, is forgotten when it has ended. -/
def flushFar (s : State) : State :=
  let s := (s.kern.far.filter fun x => !x.sent).foldl (fun s x =>
    if s.fab.unreachable.contains x.dev then { s with kern := modFar s.kern x.id fun x => { x with sent := true, ended := some .lost } }
    else
      let s := sendPacket s x.dev (laneOf x.dev x.obj x.line) .request (farLoad x)
      { s with kern := modFar s.kern x.id fun x => { x with sent := true } }) s
  { s with kern := { s.kern with far := s.kern.far.filter fun x => !(x.owner == 0 && x.ended.isSome) } }

/-- The device of a brick that this device does not place (R345). -/
def brickDevice (k : Kern) (serial brick : Nat) : Option Nat :=
  (mget k.launches serial).bind fun l => (l.others.find? fun p => p.1 == brick).map (·.2)

/-- A notice may leave: it is for another device, and neither it nor an earlier one of its cell to there is held by a release (R221,
R288). -/
def noticeFree (ns : List Notice) (n : Notice) : Bool :=
  2 ^ 20 ≤ n.dst && !n.held && !ns.any fun m => m.held && m.id < n.id && m.launch == n.launch && m.cell == n.cell && m.dst == n.dst

/-- Send the notices for other devices, and what they contribute to a truss there (R288, R297, R388). -/
def flushNotices (s : State) : State :=
  (s.kern.notices.filter (noticeFree s.kern.notices)).foldl (fun s n =>
    let s := { s with kern := { s.kern with notices := s.kern.notices.filter fun m => m.id != n.id } }
    match brickDevice s.kern n.launch (n.dst - 2 ^ 20) with
    | some d => sendPacket s d (n.cell % 16) .face (.face n)
    | none => s) s

end Sys2Proof.Machine
end

