-- ==== Sys2Proof/Machine/Link.lean ====
section
/-! DEFINITION. The link of a port (18 R388, R391, R398 to R404): flits, their CRC and encryption, the replay buffer and
acknowledgements; what leaves the device; the posts of collectives that come in (06 R194), and the peer table (R396). -/

namespace Sys2Proof.Machine

/-- Change a port. -/
def modPort (s : State) (p : Nat) (f : Port → Port) : State := { s with fab := { s.fab with ports := mmod s.fab.ports p f } }

/-! ## Flits (R391) -/

/-- The number of a class in a flit. -/
def classNumber : TrafficClass → Nat
  | .request => 0 | .forward => 1 | .reply => 2 | .face => 3 | .management => 4

/-- One bit of a CRC-32 with the polynomial of IEEE 802.3, in its reflected form (R398). -/
def crcBit (c : Nat) : Nat := if c % 2 == 1 then (c / 2) ^^^ 0xEDB88320 else c / 2

/-- Some bits of a CRC-32. -/
def crcBits : Nat → Nat → Nat
  | 0, c => c
  | n + 1, c => crcBits n (crcBit c)

/-- The CRC-32 of n bytes of a number, the least significant first. DEDUCED: log entry 108. -/
def crc32 : Nat → Nat → Nat → Nat
  | 0, _, c => c ^^^ 0xFFFFFFFF
  | n + 1, x, c => crc32 n (x / 256) (crcBits 8 (c ^^^ (x % 256)))

/-- The CRC of a flit, over its bytes 0 to 251. -/
def flitCrc (x : Nat) : Nat := crc32 252 x 0xFFFFFFFF

/-- The CRC of a flit holds (R398). -/
def crcGood (x : Flit) : Bool := x.toNat / 2 ^ 2016 == flitCrc x.toNat

/-- A flit with its CRC. -/
def sealFlit (n : Nat) : Flit := BitVec.ofNat 2048 (n % 2 ^ 2016 + flitCrc n * 2 ^ 2016)

/-- A field of a flit: bytes from an offset. -/
def flitField (x : Flit) (off n : Nat) : Nat := x.toNat / 2 ^ (8 * off) % 2 ^ (8 * n)
/-- KS. -/
def flitKs (x : Flit) : Bool := (flitField x 0 1).testBit 4
/-- LSEQ. -/
def flitLseq (x : Flit) : BitVec 16 := BitVec.ofNat 16 (flitField x 2 2)
/-- The number of a flit's class. -/
def flitClass (x : Flit) : Nat := x.toNat % 256 / 32

/-- The bits of a flit before its TAG and its CRC: KS is zero where the link is not encrypted. -/
def flitBits (p : Port) (cls pkt lane dst src eseq body : Nat) : Nat :=
  let head := cls * 32 + (if p.encrypt && p.ks then 16 else 0) + lane % 16 + pkt % 4 * 2 ^ 14 + p.txLseq.toNat * 2 ^ 16 +
    dst % 2 ^ 19 * 2 ^ 32 + src % 2 ^ 19 * 2 ^ 56 + eseq % 2 ^ 16 * 2 ^ 80
  head + Config.flitBody body % 2 ^ 1792 * 2 ^ 96

/-- A flit before its encryption. DESIGN CHOICE: log entry 77. -/
def flitOf (p : Port) (cls pkt lane dst src eseq body : Nat) : Flit := sealFlit (flitBits p cls pkt lane dst src eseq body)

/-! ## Sending (R398, R401, R404) -/

/-- The flit as it leaves, under the slot that its KS names (R401). -/
def wireFlit (p : Port) (x : Flit) : Flit :=
  if p.encrypt then
    match mget p.sendKeys (slotNumber (flitKs x)) with
    | some k => sealFlit (protectFlit k x.toNat)
    | none => x
  else x

/-- A flit leaves: the counter of its slot rises (R401). -/
def emitFlit (x : Flit) (p : Port) : Port :=
  let w := wireFlit p x
  { p with last := some w,
           sendKeys := if p.encrypt then mmod p.sendKeys (slotNumber (flitKs x)) fun k => { k with counter := k.counter + 1 }
             else p.sendKeys }

/-- A port sends a flit: it keeps the last 512 (R398). -/
def sendFlit (x : Flit) (p : Port) : Port :=
  let kept := p.replay ++ [(p.txLseq, x)]
  { emitFlit x p with replay := kept.drop (kept.length - 512), txLseq := p.txLseq + 1 }

/-- A port sends flits again, in order (R398, R401). -/
def resendFlits (xs : List (BitVec 16 × Flit)) (p : Port) : Port := xs.foldl (fun p x => emitFlit x.2 p) p

/-- A slot has room for so many flits (R404). -/
def roomUnder (p : Port) (ks : Bool) (n : Nat) : Bool :=
  !p.encrypt || n == 0 || match mget p.sendKeys (slotNumber ks) with | some k => decide (k.counter + n ≤ keyLimit) | none => false

/-- The slots have room for flits that are sent again. -/
def replayRoom (p : Port) (xs : List (BitVec 16 × Flit)) : Bool :=
  [false, true].all fun ks => roomUnder p ks (xs.filter fun x => flitKs x.2 == ks).length

/-- A port may send n flits of a class now: it is up, nothing pauses the class, and its slot has room (R390, R399, R404). -/
def maySend (p : Port) (cls : TrafficClass) (n : Nat) : Bool :=
  portUp p && !p.paused && !p.pauses.contains cls && roomUnder p p.ks n

/-- The elements of a post that one packet carries: three flits of payload (R391). -/
def postPart : Nat := 82

/-- The flits of a packet: one, or up to three where a member of a collective sends its elements. DESIGN CHOICE: log entry 77. -/
def flitsOf : Payload → Nat
  | .post x => max 1 (ceilDiv (8 * x.src.length) 220)
  | _ => 1

/-- PKT of the flits of a packet. -/
def pktCodes : Nat → List Nat
  | 2 => [1, 3]
  | 3 => [1, 2, 3]
  | _ => [0]

/-- A port sends the flits of a packet in a row, and counts those since the last face and request flit (R388). -/
def sendPacketFlits (q : FabPacket) (free : Nat) (p : Port) : Port :=
  let n := flitsOf q.load
  let p := (pktCodes n).foldl (fun p pkt =>
    sendFlit (flitOf p (classNumber q.cls) pkt q.lane q.dst q.src q.eseq.toNat (free + pkt)) p) p
  { p with sinceFace := if q.cls == .face then 0 else p.sinceFace + n,
           sinceRequest := if q.cls == .request then 0 else p.sinceRequest + n }

/-- A receiver acknowledges flits by LSEQ: the replay buffer keeps the later ones (R398). -/
def dropAcked (lseq : BitVec 16) (p : Port) : Port :=
  if p.replay.any fun x => x.1 == lseq then { p with replay := (p.replay.dropWhile fun x => x.1 != lseq).drop 1 } else p

/-! ## What leaves the device -/

/-- A port acknowledges what it has received, on the management class (R388). -/
def ackLink (dev free : Nat) (p : Port) : Port :=
  if p.ackDue && maySend p .management 1 then { sendFlit (flitOf p (classNumber .management) 0 0 0 dev 0 free) p with ackDue := false }
  else p

/-- The acknowledgements of links leave. -/
def flushAcks (s : State) : State :=
  if s.fab.ports.any fun p => p.2.ackDue then
    { s with kern := { s.kern with free := s.kern.free + 1 },
             fab := { s.fab with ports := s.fab.ports.map fun p => (p.1, ackLink s.fab.dev s.kern.free p.2) } }
  else s

/-- The health of a frame that is to be reported: it has passed 16 corrections within 24 hours, or has uncorrectable lines that have
not been reported (R431). -/
def FrameInfo.ill (now : Nat) (x : FrameInfo) : Bool :=
  x.stamps.length == 17 && x.stamps.all fun t => now < t + dayMicros

/-- A frame whose health has been reported as it stands. -/
def FrameInfo.reported (now : Nat) (x : FrameInfo) : FrameInfo := { x with told := x.ill now, toldBad := x.bad.length }

/-- Report the health of frames (R431, R435). -/
def flushHealth (s : State) : State :=
  let now := s.pwr.usec
  let due (p : Nat × FrameInfo) : Bool := (p.2.ill now && !p.2.told) || p.2.toldBad < p.2.bad.length
  let s' := (s.kern.frames.filter due).foldl (fun s p => notify_ s 0x85 0 p.1) s
  { s' with kern := { s'.kern with frames := s'.kern.frames.map fun p => (p.1, p.2.reported now) } }

/-- Send what waits to leave. DESIGN CHOICE: log entry 38. -/
def flushOut (s : State) : State :=
  flushAcks (flushHealth (flushFar (flushNotices (s.kern.cores.foldl (fun s p =>
    if p.2.reqs.isEmpty && p.2.wc.isEmpty then s
    else flushDrains (flushReqs { s with kern := openPort s.kern p.1 } p.1) p.1) s))))

/-! ## Posts of collectives (R194, R195) -/

/-- A post comes in: it goes on with the earlier parts of it, or is of a collective that has ended here. -/
def takePost (f : Fabric) (x : Posted) : Fabric :=
  let mine (o : Posted) : Bool := o.cid == x.cid && o.dev == x.dev
  if f.late.contains (x.cid, x.dev) then { f with late := if x.more then f.late else f.late.filter (· != (x.cid, x.dev)) }
  else if f.posted.any fun o => mine o && o.more then
    { f with posted := f.posted.map fun o => if mine o then { x with src := o.src ++ x.src } else o }
  else { f with posted := (f.posted.filter fun o => !mine o) ++ [x] }

/-! ## The peer table (R396) -/

/-- PLANES of an entry. -/
def peerPlanes (x : BitVec 128) : BitVec 16 := BitVec.ofNat 16 (x.toNat / 2 ^ 64)

/-- An entry with other PLANES. -/
def withPlanes (x : BitVec 128) (up : BitVec 16) : BitVec 128 :=
  BitVec.ofNat 128 (x.toNat % 2 ^ 64 + up.toNat * 2 ^ 64 + x.toNat / 2 ^ 80 * 2 ^ 80)

/-- Bytes within a line of an object of firmware's own; nothing where the range is not placed. -/
def tableBytes (k : Kern) (e : ObjEntry) (off : Nat) (bs : List Byte) : Kern :=
  let u := frameBytes e
  match e.home, extentBase ((mget k.extents (e.ext + off / u)).getD 0) with
  | .remote, _ | _, none => k
  | _, some b => if off + bs.length ≤ e.size then putBytes k (b + frameLine e (off % u / 64) * 64 + off % 64) bs else k

/-- The entry of a peer as the peer table object holds it: at byte 16 × its number (R396). -/
def writePeer (k : Kern) (e : ObjEntry) (dev : Nat) (x : BitVec 128) : Kern := tableBytes k e (16 * dev) (bytesOfNat 16 x.toNat)

/-- The entry of a peer in the peer table, and in its object where firmware keeps one. -/
def setPeer (s : State) (dev : Nat) (x : BitVec 128) : State :=
  { s with kern := match s.fab.peerTable with | some e => writePeer s.kern e dev x | none => s.kern,
           fab := { s.fab with peers := mset s.fab.peers dev x, planesUp := mset s.fab.planesUp dev (peerPlanes x) } }

end Sys2Proof.Machine
end

