-- ==== Sys2Proof/Machine/Power.lean ====
section
/-! DEFINITION. Planned power and the ratio arbiter (21 R411 to R414), steps and bands (R416 to R418), TCAP (R419), gating
(R361, R422) and subscriptions (R423). -/

namespace Sys2Proof.Machine

/-! ## Planned power (R412) -/

/-- The demand of a domain at a ratio, in watts: domain 0 matrix, 1 vector, 2 network, 3 memory. -/
def demandAt (ds : List (List Nat)) (domain ratio : Nat) : Nat := (ds.getD domain []).getD (ratio - 1) 0

/-- P(set), from the demands that sill has calibrated. -/
def planWatts (ds : List (List Nat)) (g : Ratios) : Nat :=
  250 + demandAt ds 0 g.matrix + demandAt ds 1 g.vector + demandAt ds 2 g.network + demandAt ds 3 g.memory

/-! ## The arbiter (R413) -/

/-- Numbers from lo to hi. -/
def span (lo hi : Nat) : List Nat := (List.range (hi + 1 - lo)).map (lo + ·)

/-- Every set of ratios with matrix and vector up to a bound (R411). -/
def ratioSets (top : Nat) : List Ratios :=
  (span 1 top).flatMap fun m => (span 1 top).flatMap fun v => (span 4 8).flatMap fun n => (span 4 6).map fun y =>
    { matrix := m, vector := v, network := n, memory := y }

/-- The distance of two numbers. -/
def distance (a b : Nat) : Nat := (a - b) + (b - a)

/-- The cost of a set for one launch: its weights times the distances from its request (R343). -/
def launchCost (l : Launch) (g : Ratios) : Nat :=
  let r := recReq l
  let w := recWt l
  w % 16 * distance g.matrix (r % 16) + w / 16 % 16 * distance g.vector (r / 16 % 16) +
    w / 256 % 16 * distance g.network (r / 256 % 16) + w / 4096 % 16 * distance g.memory (r / 4096 % 16)

/-- A launch has a block resident or queued; one of which all that remains is vacated has neither. DEDUCED: log entry 120. -/
def present (k : Kern) (serial : Nat) (l : Launch) : Bool :=
  !l.done && (decide (l.next < l.total) || k.cores.any fun c => c.2.blocks.any fun b => b.2.launch == serial)

/-- The launches with a block resident or queued. -/
def takingPart (k : Kern) : List Launch := (k.launches.filter fun p => present k p.1 p.2).map (·.2)

/-- LIMIT (R413). -/
def powerLimit (s : State) : Nat := min s.pwr.pcap s.pwr.tcap

/-- Boost is open to the arbiter (R420). -/
def boostOpen (s : State) : Bool := 1000 ≤ s.pwr.boost

/-- The sets that the arbiter may grant. -/
def allowedSets (s : State) : List Ratios :=
  (ratioSets (if boostOpen s then 9 else 8)).filter fun g => planWatts s.pwr.demand g ≤ powerLimit s

/-- The smallest set. -/
def Ratios.least : Ratios := { matrix := 1, vector := 1, network := 4, memory := 4 }

/-- The rank of a set: the cost first, then the higher matrix, vector, network and memory ratio. -/
def setRank (ls : List Launch) (g : Ratios) : Nat :=
  ((ls.map fun l => launchCost l g).sum * 2 ^ 16) +
    ((9 - g.matrix) * 4096 + (9 - g.vector) * 256 + (9 - g.network) * 16 + (9 - g.memory))

/-- ARBITRATE. -/
def arbitrated (s : State) : Ratios :=
  let ls := takingPart s.kern
  if ls.isEmpty then .least else (minBy (setRank ls) (allowedSets s)).getD .least

/-- The ratios after the falls towards a grant. -/
def Ratios.fallen (r g : Ratios) : Ratios :=
  { matrix := min r.matrix g.matrix, vector := min r.vector g.vector, network := min r.network g.network,
    memory := min r.memory g.memory }

/-- A grant that differs from the one that is in force, or on its way, begins to take effect: the domains whose ratios fall change
at once. A change that is under way keeps its time (R414). -/
def beginChange (p : Power) (g : Ratios) : Power :=
  if g == p.target.getD p.grant then p
  else { p with running := p.running.fallen g, target := some g, targetBy := if p.target.isSome then p.targetBy else p.usec + 5 }

/-- Run the arbiter. -/
def runArbiter (s : State) : State :=
  { s with kern := { s.kern with asks := false }, pwr := { beginChange s.pwr (arbitrated s) with due := false } }

/-- An event at which the arbiter runs has occurred (R413). -/
def arbiterDue (s : State) : State := { s with pwr := { s.pwr with due := true } }

/-! ## Bays (R416 to R418) -/

/-- A bay. -/
def getBay (s : State) (b : Nat) : Bay := (mget s.pwr.bays b).getD (Bay.reset false)

/-- A bay changed by its number. -/
def modBay (s : State) (b : Nat) (f : Bay → Bay) : State := { s with pwr := { s.pwr with bays := mmod s.pwr.bays b f } }

/-- FLOOR of a bay for a grant (R416). -/
def floorFor (b : Bay) (g : Ratios) : Nat := max (b.floors.getD (g.matrix - 1) 0) (b.floors.getD (8 + g.vector) 0)

/-- The band of a temperature (R418). -/
def bandOf (c : Int) : Nat :=
  if c < 60 then 0 else if c < 65 then 1 else if c < 70 then 2 else if c < 75 then 3 else if c < 80 then 4
  else if c < 85 then 5 else if c < 95 then 6 else 7

/-- The hottest band of the package. -/
def hottestBand (s : State) : Nat := s.pwr.bays.foldl (fun m p => max m p.2.band) 0

/-! ## Time and gating (R361, R422) -/

/-- Nanoseconds since reset. -/
def nowNs (s : State) : Nat := s.pwr.usec * 1000 + s.pwr.nsec

/-- The bay holds no block and no exchange region. -/
def bayEmpty (k : Kern) (b : Nat) : Bool :=
  (List.range 8).all fun i => (coreOf k (b * 8 + i)).blocks.isEmpty && (coreOf k (b * 8 + i)).xr.isEmpty

/-- Note that a bay has become empty. -/
def noteEmpty (s : State) (b : Nat) : State :=
  if bayEmpty s.kern b then modBay s b fun x => { x with emptySince := s.pwr.usec } else s

/-- The dispatcher takes the lease of a bay (R361): before the point of no return, 400 ns into the sequence, the sequence is
cancelled; after it the bay is to wake. The answer says that the bay runs. -/
def takeLease (s : State) (b : Nat) : State × Bool :=
  match (getBay s b).gate with
  | .on => (modBay s b fun x => { x with lease := true }, true)
  | .closing start =>
    if nowNs s < start + 400 then (modBay s b fun x => { x with lease := true, gate := .on }, true)
    else (modBay s b fun x => { x with lease := true }, false)
  | .gated => (modBay s b fun x => { x with lease := true, gate := .waking }, false)
  | .waking => (modBay s b fun x => { x with lease := true }, false)

/-- The sequence of a bay is due: it starts after 20 µs without a block or a region while the dispatcher holds no lease, and is over
after 900 ns. -/
def gatingDue (s : State) (n : Nat) (b : Bay) : Bool :=
  match b.gate with
  | .on => decide (b.emptySince + 20 ≤ s.pwr.usec) && !b.lease && bayEmpty s.kern n
  | .closing start => decide (start + 900 ≤ nowNs s)
  | _ => false

/-- The core cycle at which a window of the last so many microseconds begins: that of the latest moment known that far back (R5). -/
def windowStart (s : State) (c micros : Nat) : Nat :=
  ((s.pwr.paces.find? fun p => p.1 + micros ≤ s.pwr.usec).bind fun p => mget p.2 c).getD 0

/-- The fills of a core since a cycle. -/
def fillsSince (core : Core) (start : Nat) : Nat := (core.fills.filter fun t => start ≤ t).length

/-- The ways of a core may be gated, or are to wake (R422). DESIGN CHOICE: log entry 83. -/
def wayTurn (s : State) (c : Nat) (gate : Bool) : Bool :=
  let core := coreOf s.kern c
  let start := windowStart s c (if gate then 64 else 4)
  let cycles := core.cycle - start
  let fills := fillsSince core start
  if gate then !core.waysGated && 64 ≤ s.pwr.usec && fills * 1024 < cycles
  else core.waysGated && core.waysWaking.isNone && cycles < fills * 256

/-- The wake of a core's ways is over (R422). -/
def waysAwake (s : State) (c : Nat) : Bool :=
  match (coreOf s.kern c).waysWaking with
  | some t => t + 200 ≤ nowNs s
  | none => false

/-! ## Temperature and steps (R417, R419) -/

/-- Since when the hottest band has been on its side of a band. -/
def heldSince (s : State) (band : Nat) : Nat := (mget s.pwr.hotSince band).getD 0

/-- TCAP is to be at or below the cap of a band (R419): the band must hold for 100 µs to lower it, and must have cleared for
1 ms before it rises. DEDUCED: log entry 82. -/
def tcapHolds (s : State) (band cap : Nat) : Bool :=
  let t := s.pwr.usec - heldSince s band
  if band ≤ hottestBand s then s.pwr.tcap ≤ cap || 100 ≤ t else s.pwr.tcap ≤ cap && t < 1000

/-- TCAP as R419 has it. -/
def nextTcap (s : State) : Nat := if tcapHolds s 7 2400 then 2400 else if tcapHolds s 6 2800 then 2800 else 3200

/-- The step after the evaluation of a microsecond (R417). -/
def nextStep (g : Ratios) (now : Nat) (b : Bay) : Nat :=
  let floor := floorFor b g
  if b.step < floor then floor
  else if b.band == 7 then min 15 (b.step + 2)
  else if b.overCurrent || b.band == 6 then min 15 (b.step + 1)
  else if b.calm + 20 ≤ now then max floor (b.step - 1)
  else b.step

/-! ## Block starts (R421) -/

/-- The bay's core cycles. -/
def bayCycle (k : Kern) (b : Nat) : Nat := (List.range 8).foldl (fun m i => max m (coreOf k (b * 8 + i)).cycle) 0

/-- When the next group may start, from a cycle on: the groups of a bay start in order, at most SLOPE of them in 16 core cycles. -/
def nextStart (slope now : Nat) (xs : List Nat) : Nat :=
  let free := match xs.reverse[slope - 1]? with | some t => t + 16 | none => 0
  max (max now (xs.getLast?.getD 0)) free

/-- The starts of a bay with those of n more groups. -/
def addStarts (slope now : Nat) : Nat → List Nat → List Nat
  | 0, xs => xs
  | n + 1, xs => addStarts slope now n (xs ++ [nextStart slope now xs])

/-- SLOPE lets a bay start a group now: a block whose first group may start is taken, and its later groups start as SLOPE lets them.
DEDUCED: log entry 115. -/
def slopeFree (s : State) (bay : Nat) : Bool :=
  let now := bayCycle s.kern bay
  nextStart (getBay s bay).slope now (getBay s bay).starts == now

/-- Start n groups on a bay: the state, and how many core cycles from now each of them starts. -/
def countStarts (s : State) (bay n : Nat) : State × List Nat :=
  let now := bayCycle s.kern bay
  let xs := addStarts (getBay s bay).slope now n (getBay s bay).starts
  (modBay s bay fun b => { b with starts := xs.drop (xs.length - 64) }, (xs.drop (xs.length - n)).map (· - now))

/-! ## Service (R433, R434) -/

/-- The service of a unit has failed, or succeeded: bay n by n, port n by 64 + n. -/
def serviced (s : State) (unit : Nat) (good : Bool) : State :=
  { s with fw := { s.fw with unserviced :=
      if good then s.fw.unserviced.filter (· != unit) else addOnce s.fw.unserviced unit } }

/-! ## Dies (R427) -/

/-- A die. -/
def getDie (s : State) (d : Nat) : Die := (mget s.pwr.dies d).getD Die.reset

/-- Change a die. -/
def modDie (s : State) (d : Nat) (f : Die → Die) : State := { s with pwr := { s.pwr with dies := mmod s.pwr.dies d f } }

/-- A time that has come is over. -/
def expire (now : Nat) : Option Nat → Option Nat
  | some t => if t ≤ now then none else some t
  | none => none

/-- A moment that has come. -/
def hasCome (now : Nat) : Option Nat → Bool
  | some t => t ≤ now
  | none => false

/-! ## Subscriptions (R423) -/

/-- The value of a subscription's source. -/
def sourceValue (s : State) (x : Subscription) : Nat :=
  match x.source with
  | 0 => (getBay s x.bay).band
  | 1 => (getBay s x.bay).step
  | 2 => s.pwr.boost
  | 3 => s.pwr.watts
  | _ => s.pwr.seq.toNat

/-- The value stands on the side of THRESH that fires. -/
def beyond (s : State) (x : Subscription) : Bool :=
  let v := sourceValue s x
  if x.fall then v ≤ x.thresh.toNat else x.thresh.toNat ≤ v

/-- A firing or a re-arming of a subscription is due. DEDUCED: log entry 68. -/
def subscriptionDue (s : State) (x : Subscription) : Bool :=
  if x.source == 4 then x.lastSeq != s.pwr.seq else beyond s x != x.fired

end Sys2Proof.Machine
end

