-- ==== Sys2Proof/Machine/Front.lean ====
section
/-! DEFINITION. What acts next: urgent events, the moves of the state, the issue units (01 R13, R18, R23, R56; 09 R266), and the
inputs of the outside world. -/

namespace Sys2Proof.Machine

/-! ## Words and lines of an entry -/

/-- A member of an issue: an instruction, or a word that the decoder rejects, which raises illegal instruction. -/
inductive Member where
  | instr (i : Instr)
  | bad
  deriving DecidableEq, Repr

/-- The member of a word. -/
def memberOf (w : W96) : Member :=
  match decode w with
  | .ok i => .instr i
  | .error _ => .bad

/-- What stands at the front of an entry. -/
inductive Face where
  | unfetched
  | fault (cause line : Nat)
  | one (a : Member)
  | two (a b : Member)
  deriving DecidableEq, Repr

/-- The front of an entry (R13, R18, R56). -/
def faceOf (k : Kern) (c : Nat) (e : Entry) : Face :=
  match mget k.launches e.launch with
  | none => .unfetched
  | some l =>
    let pc := e.pc.toNat
    let line := pcLine pc
    if !lineInside k l line then .fault 0x04 line
    else
      match bufferedLine (coreOf k c) l.ctx (capObj (recCode l)) line with
      | none => .unfetched
      | some bits =>
        match fetchCause bits pc with
        | some cause => .fault cause line
        | none =>
          let slot := pcSlot pc
          if !pcForm pc then .fault 0x02 line
          else if slot < 4 && pairField bits slot == 1 then .two (memberOf (slotWord bits slot)) (memberOf (slotWord bits (slot + 1)))
          else .one (memberOf (slotWord bits slot))

/-! ## The choice of R266 -/

/-- The state with an issue in hand. -/
def inHand (s : State) (c e : Nat) (m : Mode) : State := { s with cur := { core := c, entry := e, mode := m } }

/-- A member can issue. -/
def memberReady (s : State) : Member → Bool
  | .instr i => canIssue s i
  | .bad => entryFree s

/-- The open windows of an entry's threads once one more instruction has issued: the second member of a couple stands one
instruction later (R41). -/
def windowsAfter (s : State) (c e : Nat) : State :=
  { s with kern := (entryThreads (coreOf s.kern c) e).foldl (fun k t => countWindows k c t k.id) s.kern }

/-- The entry is ready (R266). -/
def entryReady (s : State) (c e : Nat) (x : Entry) : Bool :=
  match faceOf s.kern c x with
  | .unfetched => false
  | .fault _ _ => entryFree (inHand s c e .single)
  | .one a => memberReady (inHand s c e .single) a
  | .two a b => memberReady (inHand s c e .first) a && memberReady (inHand (windowsAfter s c e) c e .second) b

/-- The ready entry with the smallest AGE; ties go to the lower index. -/
def chooseEntry (s : State) (c : Nat) : Option (Nat × Entry) :=
  minBy (fun p => p.2.age) ((coreOf s.kern c).entries.filter fun p => entryReady s c p.1 p.2)

/-- A failed line check raises its trap in every thread of the entry (R13). DEDUCED: log entry 25. -/
def lineTrap (s : State) (cause line : Nat) : State :=
  let c := s.cur.core
  let xs := (actors s).map fun t => (t, Course.trap cause 0 line)
  { s with kern := finishIssue s s.kern xs }

/-! ## What runs next -/

/-- What a step does: rest, or execute a member or a couple. -/
inductive Plan where
  | rest (s : State)
  | one (a : Member) (s : State)
  | two (a b : Member) (s : State)

/-- The clock of a core runs (R244, R361): its bay is neither in a gating sequence nor gated. -/
def clockRuns (s : State) (c : Nat) : Bool := (coreBay s c).gate == .on

/-- The instruction at the front of an entry waits for the stores of its threads to be performed. -/
def wantsDrain (i : Instr) : Bool :=
  match i with
  | .fence _ => true
  | .ld x | .st x | .ldx _ x | .stx _ x | .atom _ x | .red _ x | .cas x => x.rel
  | .copyq _ | .postCore _ | .postNbr _ | .postBay _ | .ilinv _ | .ilinvAll _ => true
  | _ => false

/-- The instructions at the front of an entry: one, or those of a couple. -/
def frontInstrs (k : Kern) (c : Nat) (x : Entry) : List Instr :=
  let of (m : Member) : List Instr := match m with | .instr i => [i] | .bad => []
  match faceOf k c x with
  | .one a => of a
  | .two a b => of a ++ of b
  | _ => []

/-- The targets whose lines the front of an entry waits for: those of its indirect transfers that cannot be checked yet, and of
its trap returns that cannot be fetched again (R50, R56, R141). -/
def wantedTargets (k : Kern) (c e : Nat) (x : Entry) (l : Launch) : List Nat :=
  (frontInstrs k c x).flatMap fun i =>
    (entryThreads (coreOf k c) e).filterMap fun t =>
      let want (p : Nat) (known : Bool) : Option Nat := if guardTrue t (guardOf i) && !known then some p else none
      match i with
      | .jmpi y | .calli y | .ret y => want (readPair k c t y.a) (targetKnown k c l (readPair k c t y.a))
      | .tret _ => want (recordTarget t) (!t.tstate || returnKnown k l (recordTarget t))
      | _ => none

/-- Drains that waiting instructions ask for (R154): those of their threads' stores; the oldest entry where the buffer is
full. -/
def nudge (k : Kern) (c : Nat) : Kern :=
  let core := coreOf k c
  if core.wc.isEmpty then k
  else
    let waiting := core.threads.filter fun t =>
      match t.loc with
      | .entry e => (match mget core.entries e with
        | some x => (frontInstrs k c x).any wantsDrain
        | none => false)
      | _ => false
    let k := waiting.foldl (fun k t => drainOf k c t) k
    if core.wc.length < 64 then k
    else
      match minBy (fun (e : WcEntry) => e.opened) core.wc with
      | some e => drainWhere k c fun x => x.id == e.id
      | none => k

/-- What may end the wait of a thread. -/
def waitEvent (c : Nat) (t : Thread) : Option Instr :=
  match t.wait with
  | .none | .yielding _ | .noRecord => none
  | .mx _ _ _ => some (.mxLaunch c t.tslot t.lane)
  | .copy _ _ _ _ _ _ _ => some (.copyAccept c)
  | .grow _ _ _ => some (.growGrant c)
  | .released b => some (.barrierReleaseWave c t.block b)
  | _ => some (.waitEnd c t.tslot t.lane)

/-- The objects, by context, that the object cache misses for the issue of an entry (R314). -/
def entryWants (k : Kern) (c : Nat) (p : Nat × Entry) : List (Nat × Nat) :=
  let core := coreOf k c
  (frontInstrs k c p.2).flatMap fun i => (entryThreads core p.1).flatMap fun t =>
    if guardTrue t (guardOf i) then
      ((usedObjs k c t i).map fun o => (ctxOf k c t, o)).filter fun x => !(objCached k c x.1 x.2 || filledFor core t x)
    else []

/-- The side table that a cell which waits to be saved misses (R55, R294). -/
def rotateWants (k : Kern) (c : Nat) (t : Thread) : Option (Nat × Nat) :=
  match t.wait, threadLaunch k c t with
  | .rotate _ _, some l => if objCached k c l.ctx (capObj (recSide l)) then none else some (l.ctx, capObj (recSide l))
  | _, _ => none

/-- Things of a core that an event may bring on, in turn when no entry is ready (MODEL). -/
def coreEvents (s : State) (c : Nat) : List Instr :=
  let core := coreOf s.kern c
  List.flatten [
    core.entries.filterMap fun p =>
      let wanted := (mget s.kern.launches p.2.launch).any fun l => !(wantedTargets s.kern c p.1 p.2 l).isEmpty
      if faceOf s.kern c p.2 == .unfetched || wanted then some (Instr.lineFetchComplete c p.1) else none,
    core.reqs.map fun q => Instr.accessReply c q.id,
    core.threads.filterMap fun t => if asyncDue t then some (Instr.asyncTrapDelivery c t.tslot t.lane) else none,
    core.threads.flatMap fun t => t.held.filterMap fun h =>
      if h.arrived then none else some (Instr.resultArrival c t.tslot t.lane h.id),
    core.threads.filterMap (waitEvent c),
    core.copies.map fun j => Instr.copyRetire c j.id,
    core.bedJobs.map fun j => Instr.bedldComplete c j.id,
    core.copyqs.map fun j => Instr.copyqSlotWrite c j.id,
    if core.mxq.isEmpty then [] else [Instr.mxCommit c, Instr.feedReadFault c],
    if core.pendSince.isEmpty then [] else [Instr.pendingPlace c, Instr.entryEviction c],
    if core.banksWaking then [Instr.bankWakeComplete c] else [],
    if core.waysWaking.isSome then [Instr.wayGating c false] else [],
    core.buckets.map fun _ => Instr.refill c,
    (core.entries.flatMap (entryWants s.kern c) ++ core.threads.filterMap (rotateWants s.kern c)).map fun o =>
      Instr.objectCacheMissFill c o.1 o.2,
    core.entries.filterMap fun p => if p.2.sleep.isSome then some (Instr.yieldCyclesEnd c p.1) else none,
    core.xr.flatMap fun r => r.unready.map fun u => Instr.stepRPublicationReady c u.cell,
    (s.kern.notices.filter fun n => n.dst == c).map fun n => Instr.faceNotice c n.id,
    core.wc.filterMap fun e => if e.sent then some (Instr.wcDrainPerformed c e.id) else none,
    core.blocks.flatMap fun b => [Instr.blockRetire c b.1, Instr.blockVacate c b.1],
    (List.range s.kern.vacated.length).map fun i => Instr.blockRedispatch i c,
    [Instr.growDeadlockRule c, Instr.blockDispatch c]]

/-- The header of a Spagan command (R435). -/
def commandHdr (i : Instr) : Option CmdHdr :=
  match i with
  | .ctxopen h _ _ | .ctxclose h _ | .ctxset h _ _ _ | .ctxbudget h _ _ | .stateread h _ _ _ | .objset h _ _ | .extset h _ _ _
  | .parkdone h _ _ _ | .frameclass h _ _ | .frameretire h _ | .graphload h _ _ _ | .graphfree h _ | .pcap h _ | .slope h _ _
  | .subscribe h _ _ _ _ _ _ | .unsubscribe h _ | .margin h _ _ | .bayquiesce h _ | .bayrecal h _ | .bayreturn h _
  | .porttrain h _ | .portisolate h _ | .portstatus h _ | .keyload h _ _ _ _ _ | .peerset h _ _ | .exportObjs h _ _
  | .spare h _ | .fwstage h _ | .fwactivate h | .shoprestart h _ | .attest h _ _ _ | .fuseadvance h _
  | .unknownCommand h _ => some h
  | _ => none

/-- The issuer of a command. -/
def issuerOf (i : Instr) : Option Issuer := (commandHdr i).map (·.issuer)

/-- The commands that wait first among those of their issuers. -/
def firstWaiting (xs : List Instr) : List Instr := xs.filter fun i => (xs.find? fun j => issuerOf j == issuerOf i) == some i

/-- What may end a park record: the placement of its frame, or its service (R366, R367). -/
def parkEvents (k : Kern) (c : Nat) (p : Park) : List Instr :=
  (match getObj k p.ctx (capObj p.faddr.toNat) with
    | some e => [.firstTouchPlacement p.ctx (capObj p.faddr.toNat) (capOff p.faddr.toNat / frameBytes e) c]
    | none => []) ++ [.parkServiceComplete c p.id false]

/-- What may go on in a graph. -/
def graphEvents (g : Nat × Graph) : List Instr :=
  if g.2.running then (List.range g.2.nodes.length).map (fun i => Instr.admission g.1 i) ++ [Instr.runEnd g.1]
  else if g.2.triggers.isEmpty then [] else [Instr.run g.1]

/-- Things of the device that an event may bring on, in turn once per round of the cores (MODEL). -/
def deviceEvents (s : State) : List Instr :=
  let k := s.kern
  List.flatten [
    match s.fw.boot with
    | .ready => if s.fw.switching || s.fw.shops.any (!·) then [Instr.boot] else []
    | .rescue => []
    | _ => [Instr.boot],
    if s.pwr.target.isSome then [Instr.grantChangeComplete] else [],
    s.pwr.bays.filterMap fun b => if b.2.gate == .waking then some (Instr.bayWakeComplete b.1) else none,
    k.graphs.flatMap graphEvents,
    k.launches.flatMap fun l =>
      if l.2.done then (if l.2.counted then [] else [Instr.nodeComplete l.1])
      else if l.2.placed then [] else [Instr.fieldPlacement l.1],
    k.fields.flatMap fun f => f.2.steps.filterMap fun t => if t.2.complete then none else some (Instr.trussStepComplete f.1 t.1),
    k.queues.flatMap fun q => Instr.queueTakeSlot q.1 :: q.2.running.flatMap fun p =>
      [Instr.packetRetire q.1 p.w, Instr.gather q.1 p.w, Instr.collective q.1 p.w],
    k.cores.flatMap fun p => p.2.parks.flatMap (parkEvents k p.1),
    k.units.map fun u => Instr.unitAccessService u.id false,
    s.fab.packets.map fun p => Instr.packetArrival p.id,
    s.fab.arrived.filterMap fun p =>
      if p.cls == .request || p.cls == .forward then some (Instr.remoteRequest p.id) else none,
    s.fab.groups.filterMap fun g =>
      if !g.closed then some (Instr.combiningWindowClose g.id)
      else if g.old.isSome || g.bad.isSome then some (Instr.combinedReply g.id) else none,
    s.fab.unacked.filterMap fun p => if p.sentAt + 20 ≤ s.pwr.usec then some (Instr.retransmissionTimeout p.id) else none,
    s.fab.streams.filterMap fun x =>
      if x.src == s.fab.dev && (planeFor s x.dst x.lane).any (· != x.plane) then some (Instr.planeFailover x.dst x.lane) else none,
    [Instr.preemptionSend, Instr.deviceFaultNotify], firstWaiting s.fw.waiting,
    k.cores.flatMap fun c => if clockRuns s c.1 then coreEvents s c.1 else []]

/-- A cycle of a core begins: an entry that is ready in it has not been not ready since an earlier one (R269). -/
def beginCycle (s : State) (c : Nat) : State :=
  let s := { s with kern := modCore s.kern c fun core => { core with cycle := core.cycle + 1 } }
  { s with kern := modCore s.kern c fun core =>
      { core with entries := core.entries.map fun p =>
          if entryReady s c p.1 p.2 then (p.1, { p.2 with idleSince := core.cycle }) else p } }

/-- What the dispatcher may do for a core whose bay is gated: its block wakes the bay (R361). -/
def wakingEvents (s : State) (c : Nat) : List Instr :=
  .blockDispatch c :: (List.range s.kern.vacated.length).map fun i => .blockRedispatch i c

/-- The issue unit of a core in one cycle: the chosen entry, else an event that the core waits for. -/
def issuePlan (s : State) (c : Nat) : Plan :=
  if !clockRuns s c then
    let es := wakingEvents s c
    match es[s.kern.net % max 1 es.length]? with
    | some i => .one (.instr i) s
    | none => .rest s
  else
    let s := beginCycle s c
    match chooseEntry s c with
    | some (e, x) =>
      match faceOf s.kern c x with
      | .unfetched => .rest s
      | .fault cause line => .rest (lineTrap (inHand s c e .single) cause line)
      | .one a => .one a (inHand s c e .single)
      | .two a b => .two a b (inHand s c e .first)
    | none =>
      let s := flushOut { s with kern := nudge s.kern c }
      let es := coreEvents s c
      match es[(coreOf s.kern c).cycle % max 1 es.length]? with
      | some i => .one (.instr i) s
      | none => .rest s

/-! ## Urgent events (R144, R228) -/

/-- The peg's open episode closes in this cycle: every member has arrived, exited or parked (R144). -/
def pegClosable (core : Core) (b : Nat) (blk : Block) (p : Peg) : Bool :=
  (p.episode == .meetOpen || p.episode == .signOpen) &&
    core.threads.all fun t =>
      t.block != b || !inPeg p t.group || t.loc == .exited || parkedLike t || p.arrived.contains (memberId blk t)

/-- The barrier opens in this cycle (R228). -/
def barOpens (core : Core) (b : Nat) (blk : Block) (x : Barrier) : Bool :=
  let mine := core.threads.filter fun t => t.block == b
  (mine.any fun t => arrivedIn x.gen (mget x.arr (memberId blk t))) &&
    mine.all fun t => t.loc == .exited || parkedLike t || arrivedIn x.gen (mget x.arr (memberId blk t))

/-- The first index of a list at which a test holds. -/
def indexWhere {α : Type} (f : α → Bool) : List α → Option Nat
  | [] => none
  | a :: l => if f a then some 0 else (indexWhere f l).map (· + 1)

/-- A closing or an opening that is due. -/
def syncDue (s : State) : Option Instr :=
  s.kern.cores.findSome? fun c => c.2.blocks.findSome? fun b =>
    match indexWhere (pegClosable c.2 b.1 b.2) b.2.pegs with
    | some pg => some (Instr.pegEpisodeClose c.1 b.1 pg)
    | none => (indexWhere (barOpens c.2 b.1 b.2) b.2.bars).map fun x => Instr.barrierOpen c.1 b.1 x

/-! ## Urgent events of a core: the pending list (R268 to R270), the deadlock rule (R249), the end of a YIELD (R148) -/

/-- The threads of a pending unit. -/
def unitThreads (core : Core) (seq : Nat) : List Thread := core.threads.filter fun t => t.loc == .pending seq

/-- A pending unit is ready: it has threads, and none of them waits (R268). -/
def unitReady (core : Core) (seq : Nat) : Bool :=
  !(unitThreads core seq).isEmpty && (unitThreads core seq).all fun t => t.wait == .none

/-- The ready units in arrival order. -/
def readyUnits (core : Core) : List Nat := (core.pendSince.map (·.1)).filter (unitReady core)

/-- The earliest ready unit has been pending for 64 core cycles (R269). -/
def unitLate (core : Core) : Bool :=
  match readyUnits core with
  | seq :: _ => ((mget core.pendSince seq).getD core.cycle) + 64 ≤ core.cycle
  | [] => false

/-- The sequence number of a GROW wait. -/
def growSeq (t : Thread) : Option Nat :=
  match t.wait with
  | .grow _ _ seq => some seq
  | _ => none

/-- Every resident group has a GROW waiting, and there is one (R249). -/
def growDeadlock (core : Core) : Bool :=
  let ts := core.threads.filter live
  !ts.isEmpty && ts.all fun t => ts.any fun u => u.block == t.block && u.group == t.group && (growSeq u).isSome

/-- A YIELD of a thread whose entry has been evicted is over (R148, R269). -/
def yieldOver (now : Nat) (t : Thread) : Bool :=
  match t.wait, t.loc with
  | .yielding till, .pending _ => till ≤ now
  | _, _ => false

/-- The limit of an EVWAIT has run out (R247). -/
def limitOver (now : Nat) (t : Thread) : Bool :=
  match t.wait with
  | .evwait _ (some n) start _ => start + n ≤ now
  | _ => false

/-- A group's start has come (R421). -/
def startDue (now : Nat) (t : Thread) : Bool :=
  match t.wait with
  | .starting till => till ≤ now
  | _ => false

/-- A release wave of a barrier is due (R232, R421). -/
def waveDue (core : Core) (b x : Nat) : Bool :=
  match mget core.blocks b with
  | some blk => (barOf blk x).due ≤ core.cycle && core.threads.any fun t => t.block == b && t.wait == .released x
  | none => false

/-- The barrier whose release wave is due. -/
def waveOf (core : Core) : Option (Nat × Nat) :=
  core.threads.findSome? fun t =>
    match t.wait with
    | .released x => if waveDue core t.block x then some (t.block, x) else none
    | _ => none

/-- A column that holds slices and no thread that has not exited: they return (R277). -/
def emptyColumn (core : Core) : Option (Nat × Nat × Nat) :=
  core.blocks.findSome? fun b => b.2.groups.zipIdx.findSome? fun g =>
    (g.1.cols.find? fun j => !(liveColumns core b.1 g.2).contains j).map fun j => (b.1, g.2, j)

/-- The GROW that has waited longest can be granted (R248). -/
def growFits (core : Core) : Bool :=
  match minBy (fun p => p.1) (core.threads.filterMap fun t => match t.wait with | .grow n _ seq => some (seq, n, t) | _ => none) with
  | some (_, n, t) => growNeed core t.block t.group n ≤ core.slices
  | none => false

/-- The next sample is due (R252). -/
def sampleDue (core : Core) : Bool := core.sampler.running && core.sampler.lastCycle + 2 ^ core.sampler.e ≤ core.cycle

/-- The first of a list. -/
def firstDue : List (Option Instr) → Option Instr
  | [] => none
  | some i :: _ => some i
  | none :: l => firstDue l

/-- What a core does at once. -/
def coreDue (c : Nat) (core : Core) : Option Instr :=
  let wakes (e n : Nat) : Bool := n ≤ core.cycle && core.threads.any fun t => t.loc == .entry e && t.wait == .yielding n
  let ended (t : Thread) : Bool := yieldOver core.cycle t || limitOver core.cycle t || startDue core.cycle t
  firstDue [
    if sampleDue core then some (.samplerTick c) else none,
    (core.entries.find? fun p => p.2.sleep.any (wakes p.1)).map fun p => .yieldCyclesEnd c p.1,
    (core.threads.find? ended).map fun t => .waitEnd c t.tslot t.lane,
    (waveOf core).map fun x => .barrierReleaseWave c x.1 x.2,
    (emptyColumn core).map fun x => .sliceReturn c x.1 x.2.1 x.2.2,
    if growFits core then some (.growGrant c) else none,
    if growDeadlock core then some (.growDeadlockRule c) else none,
    if (readyUnits core).isEmpty then none
    else if (freeEntry core).isSome then some (.pendingPlace c)
    else if unitLate core then some (.entryEviction c)
    else none]

/-- An entry of a write-combining buffer has reached its age limit (R154, R335). -/
def ageDue (s : State) : Option Instr :=
  s.kern.cores.findSome? fun c =>
    (c.2.wc.find? fun e => !e.draining && e.opened + e.limit ≤ s.kern.net).map fun e => .wcAgeingExpiry c.1 e.id

/-! ## Urgent events of time (R361, R372, R393, R399, R404, R414, R417 to R422, R430, R431) -/

/-- What a bay does at once: an evaluation in every microsecond, and the phases of its gating sequence. -/
def bayDue (s : State) (n : Nat) (b : Bay) : Option Instr :=
  if b.evaluated < s.pwr.usec then some (.bayControllerEvaluation n)
  else if gatingDue s n b then some (.gatingSequence n) else none

/-- What a die does at once: the sequence of an attributed error, and the end of its return and hold-off. -/
def dieDue (now n : Nat) (d : Die) : Option Instr :=
  if d.attributed.isSome then some (.marginSequence n)
  else if hasCome now d.returning || hasCome now d.holdoff then some .holdOffExpiry else none

/-- What a port does at once: a key switch that is ready, the warning and the limit before it, and a retraining. -/
def portDue (now n : Nat) (p : Port) : Option Instr :=
  if markerReady p then some (.keyMarker n)
  else if warnDue p then some (.kwarn n)
  else if atLimit p && !p.paused then some (.invocationLimit n)
  else if retrainDue now p then some (.retrainTrigger n) else none

/-- What the memory port and the line cache of a core do at once. -/
def cacheDue (s : State) (c : Nat) (core : Core) : Option Instr :=
  if !core.buckets.isEmpty && decide (core.refilled + 1024 ≤ s.kern.net) then some (.refill c)
  else if wayTurn s c true then some (.wayGating c true)
  else if waysAwake s c || wayTurn s c false then some (.wayGating c false) else none

/-- What the sensors, the limits of power and the grant do at once. -/
def packageDue (s : State) : Option Instr :=
  if s.pwr.bays.any fun p => p.2.band != bandOf p.2.celsius then some .tempbandChange
  else if s.pwr.tcap != nextTcap s then some .tcapChange
  else if s.pwr.boostTicks < s.pwr.usec then some .boostTick
  else if s.pwr.target.isSome && decide (s.pwr.targetBy ≤ s.pwr.usec) then some .grantChangeComplete
  else none

/-- The line that the scrubber of a frame is to read now, so that its pass keeps to its period: of a placed frame that is not
retired and not of class N (R431, R432). -/
def scrubDue (s : State) (f : Nat) (x : FrameInfo) : Option Instr :=
  let vault : Bool := 2 ^ 18 ≤ f
  let n := f % 2 ^ 18
  if x.retired || (!vault && x.cls == .n) || s.pwr.usec < x.passBegan + (x.passed + 1) * scrubPeriod vault / frameLines vault ||
      !frameNamed s.kern vault n then none
  else some (.scrub ((if vault then vaultFrame n else hbmFrame n) / 64 + x.passed))

/-- What time brings on at once. -/
def timeDue (s : State) : Option Instr :=
  firstDue [packageDue s, s.pwr.bays.findSome? fun p => bayDue s p.1 p.2, s.pwr.dies.findSome? fun p => dieDue s.pwr.usec p.1 p.2,
    s.fab.ports.findSome? fun p => portDue s.pwr.usec p.1 p.2, s.kern.cores.findSome? fun p => cacheDue s p.1 p.2,
    if s.fab.unacked.any (overdue s) then some .unreachableTimeout else none,
    s.kern.frames.findSome? fun p => scrubDue s p.1 p.2]

/-- What happens at once: a run of the arbiter that is due (R413), a firing (R423), a closing or an opening, what a core whose
clock runs does at once, the drain of an entry that has aged, and what time brings on. DEDUCED: log entry 116. -/
def urgent (s : State) : Option Instr :=
  firstDue [if s.pwr.due || s.kern.asks then some .arbitrate else none,
    (s.pwr.subs.find? fun p => subscriptionDue s p.2).map fun p => .subscriptionFiring p.1,
    syncDue s,
    s.kern.cores.findSome? fun c => if clockRuns s c.1 then coreDue c.1 c.2 else none,
    ageDue s, timeDue s]

/-! ## Inputs -/

/-- The record of core cycles by microsecond as far as 64 µs back (R422). -/
def keepPaces (now : Nat) : List (Nat × FMap Nat) → List (Nat × FMap Nat)
  | [] => []
  | p :: ps => if p.1 + 64 ≤ now then [p] else p :: keepPaces now ps

/-- Time passes. -/
def passNanos (s : State) (n : Nat) : State :=
  let t := s.pwr.nsec + n
  let now := s.pwr.usec + t / 1000
  let paces := if t / 1000 == 0 then s.pwr.paces
    else keepPaces now ((now, s.kern.cores.map fun c => (c.1, c.2.cycle)) :: s.pwr.paces)
  { s with kern := { s.kern with usec := now }, pwr := { s.pwr with usec := now, nsec := t % 1000, paces := paces } }

/-- The truss entry of a step with what other devices contribute (R297). DESIGN CHOICE: log entry 89. -/
def remoteContribution (s : State) (launch step : Nat) (sigs : List W64) (stepped : Nat) (maxabs sumsq : List W32) : State :=
  let k := modTruss s.kern launch step fun x =>
    { x with sigs := x.sigs ++ sigs, settled := x.settled + sigs.length, ended := x.ended + sigs.length + stepped,
             maxabs := x.maxabs ++ maxabs, sumsq := x.sumsq ++ sumsq }
  { s with kern := if sigs.isEmpty then k else
      { k with fields := mmod k.fields launch fun f => { f with pending := addOnce f.pending step } } }

/-- The cycles that may pass at once on a core: none while an entry is ready (R266), and none beyond the end of a YIELD or the
lateness of a pending unit. DESIGN CHOICE: log entry 97. -/
def idleCycles (s : State) (c n : Nat) : Nat :=
  let core := coreOf s.kern c
  if (chooseEntry s c).isSome then 0
  else
    let ends := (core.entries.filterMap fun p => p.2.sleep) ++ (core.pendSince.map fun p => p.2 + 64) ++
      (core.threads.filterMap fun t =>
        match t.wait with
        | .yielding till | .starting till => some till
        | .evwait _ (some m) start _ => some (start + m)
        | .released x => (mget core.blocks t.block).map fun b => (barOf b x).due
        | _ => none) ++
      if core.sampler.running then [core.sampler.lastCycle + 2 ^ core.sampler.e] else []
    match minBy (fun m => m) (ends.filter fun m => core.cycle < m) with
    | some m => min n (m - core.cycle)
    | none => n

/-- The die whose supply feeds a place: a scratchpad, an exchange region or a vault, not HBM (R428). DEDUCED: log entry 53. -/
def supplyDie (a : Nat) : Option Nat :=
  if isHbm a || isRemote a then none else if 2 ^ 40 ≤ a then some (a / 2 ^ 26 % 4) else some (a / 2 ^ 29 % 4)

/-- A die is trimming (R427). -/
def trimming (s : State) (d : Die) : Bool :=
  d.offset != 0 || match d.returning with | some t => decide (s.pwr.usec < t) | none => false

/-- The unit of an address is poison; in a frame of class N nothing is detected, and the byte is a free value (R368, R431, R440).
DEDUCED: log entry 55. -/
def strike (k : Kern) (a : Nat) (p : Poison) : Kern :=
  if isHbm a && (checkUnit k a).isNone then { putBytes k a [Config.struckByte k.free] with free := k.free + 1 }
  else noteBad (setPoison k a p) a

/-- An uncorrectable error of stored bits makes its unit poison; under a die that is trimming it is attributed to the margin
controller (R369, R428, R429, R440). DEDUCED: log entry 119. -/
def stricken (s : State) (a : Nat) : State :=
  let die := (supplyDie a).bind fun d => (mget s.pwr.dies d).map fun x => (d, x)
  match die with
  | some (d, x) =>
    if trimming s x then
      let x := if x.returning.isNone && x.holdoff.isNone then { x with attributed := some a } else x
      { s with kern := strike s.kern a .margin, pwr := { s.pwr with dies := mset s.pwr.dies d x } }
    else { s with kern := strike s.kern a .plain }
  | none => { s with kern := strike s.kern a .plain }

/-- One symbol of stored bits is wrong (R368): in a P frame and in SRAM it is corrected, and a second in one check unit is detected;
in a D frame it is detected; in an N frame it is not. -/
def symbolError (s : State) (a : Nat) : State :=
  match checkUnit s.kern a with
  | none => if isRemote a then s else { s with kern := strike s.kern a .plain }
  | some u =>
    let twice := s.kern.soft.any fun b => checkUnit s.kern b == some u
    if twice || (isHbm a && frameClass s.kern (a / 2 ^ 21) == .d) then
      stricken { s with kern := { s.kern with soft := s.kern.soft.filter fun b => checkUnit s.kern b != some u } } a
    else { s with kern := { s.kern with soft := s.kern.soft ++ [a] } }

/-- The timeline of a queue that another device serves has reached a value (R196, R317). -/
def farTimeline (k : Kern) (ctx cap n : Nat) : Kern :=
  let same (q : Queue) : Bool := q.ctx == ctx && capObj q.hdr.toNat == capObj cap && capOff q.hdr.toNat == capOff cap
  if !remoteObj k ctx cap then k
  else if k.queues.any fun p => same p.2 then
    { k with queues := k.queues.map fun p =>
        (p.1, if same p.2 then { p.2 with retiredBelow := max p.2.retiredBelow n } else p.2) }
  else
    let q : Queue := { ctx := ctx, hdr := BitVec.ofNat 64 cap, engine := 3, taken := 0, running := [], retiredBelow := n, retired := [] }
    { k with queues := mset k.queues k.id q, id := k.id + 1 }

/-- Where the data of an extent that is moving still stands. -/
def movingBase (x : W64) : Option Nat := if x.toNat / 2 ^ 62 == 2 then frameBase x else none

/-- The bytes of a migration land: in their frames' class, with the poison of their source; what lands in an N frame is counted
without a trap, and firmware is not charged (R369, R425). -/
def landMigrated (k : Kern) (ctx : Nat) (src dst : List (Nat × Nat)) (n : Nat) : Kern :=
  let bad := badOffsets k src n
  let k' := bad.foldl (fun k b => landBad k (addrAt dst b.at_) b.poison) (putRuns k dst (getRuns k src))
  let units := landUnits k dst bad
  if units.isEmpty then k' else countPoison k' ctx units.length

/-- Firmware copies bytes of an object whose extents are moving into a frame of its new class (R370). -/
def migrate (k : Kern) (ctx obj off n : Nat) (cls : MemClass) (frame : W64) : Kern :=
  match getObj k ctx obj with
  | none => k
  | some e =>
    let moved : Kern := { k with ctxs := mset k.ctxs ctx { getCtx k ctx with objs := [(obj, { e with cls := cls })] } }
    match runsOf movingBase k ctx obj off n (n + 1), runsOf (fun _ => frameBase frame) moved ctx obj off n (n + 1) with
    | .ok src, .ok dst => landMigrated k ctx src dst n
    | _, _ => k

/-- Firmware places an extent on another device, or here again (R388). -/
def moveExtent (f : Fabric) (ext : Nat) (dev : Option Nat) : Fabric :=
  { f with moved := match dev with | some d => mset f.moved ext d | none => mdel f.moved ext }

/-- The planes that reach a peer have changed: frame firmware keeps its entry, where it has one, up to date (R396). -/
def changePlanes (s : State) (dev : Nat) (up : BitVec 16) : State :=
  match mget s.fab.peers dev with
  | some x => setPeer s dev (withPlanes x up)
  | none => { s with fab := { s.fab with planesUp := mset s.fab.planesUp dev up } }

/-- The peer table object is named, and holds the entries that the table has. -/
def placeTable (s : State) (e : Option ObjEntry) : State :=
  { s with fab := { s.fab with peerTable := e },
           kern := match e with | some e => s.fab.peers.foldl (fun k p => writePeer k e p.1 p.2) s.kern | none => s.kern }

/-- What an input does. -/
def applyInput (s : State) : Input → State
  | .cycles c n =>
    if clockRuns s c then
      { s with kern := modCore s.kern c fun core => { core with cycle := core.cycle + idleCycles s c n } }
    else s
  | .netCycles n => { s with kern := { s.kern with net := s.kern.net + n } }
  | .nanos n => passNanos s n
  | .temperature b x => modBay s b fun y => { y with celsius := x }
  | .current b x => modBay s b fun y => { y with overCurrent := x }
  | .watts n => { s with pwr := { s.pwr with watts := n } }
  | .floors b xs => modBay s b fun y => { y with sensed := xs }
  | .hostWrite a bs => { s with kern := putBytes s.kern a bs }
  | .corrected a => symbolError s a
  | .uncorrectable a => stricken s a
  | .packet p => { s with fab := { s.fab with packets := s.fab.packets ++ [p] } }
  | .remoteTruss l t sigs n m q => remoteContribution s l t sigs n m q
  | .remoteEnded l t =>
    { s with kern := { s.kern with fields := mmod s.kern.fields l fun f => { f with remoteEnded := max f.remoteEnded t } } }
  | .planes d up => changePlanes s d up
  | .acked id =>
    { s with fab :=
      { s.fab with unacked := s.fab.unacked.filter fun p => p.id != id,
                   unreachable := s.fab.unreachable.filter fun d => !s.fab.unacked.any fun p => p.id == id && p.dst == d } }
  | .linkAcked p lseq => { s with fab := { s.fab with ports := mmod s.fab.ports p (dropAcked lseq) } }
  | .posted p => { s with fab := takePost s.fab p }
  | .placedAt x d => { s with fab := moveExtent s.fab x d }
  | .migrate ctx obj off n cls frame => { s with kern := migrate s.kern ctx obj off n cls frame }
  | .timeline ctx cap n => { s with kern := farTimeline s.kern ctx cap.toNat n }
  | .afterRecal b => modBay s b fun y => { y with calm := s.pwr.usec }
  | .queue ctx cap => { s with kern := registerQueue s.kern ctx cap.toNat }
  | .encryption p on => { s with fab := { s.fab with ports := mmod s.fab.ports p fun x => { x with encrypt := on } } }
  | .calibration ds => { s with pwr := { s.pwr with measured := ds } }
  | .peerTable e => placeTable s e

/-! ## The plan -/

/-- The constructor is an instruction word, which only an issue executes. -/
def isWord (i : Instr) : Bool := (encode i).isSome || match i with | .zeroWord | .unassignedMajorOpcode _ => true | _ => false

/-- The turn of the device, after those of the 256 cores: a network cycle passes, and an event that something waits for
happens (MODEL). -/
def devicePlan (s : State) : Plan :=
  let s := flushOut { s with turn := 0, kern := { s.kern with net := s.kern.net + 1 } }
  let es := deviceEvents s
  match es[s.kern.net % max 1 es.length]? with
  | some i => .one (.instr i) { s with fw := { s.fw with waiting := s.fw.waiting.erase i } }
  | none => .rest s

/-- What a step does: an urgent event first, then the head of moves, then the issue unit whose turn it is.
DESIGN CHOICE: log entry 1. DESIGN CHOICE: log entry 97. -/
def planOf (s : State) : Plan :=
  match urgent s with
  | some i => .one (.instr i) s
  | none =>
    match s.moves with
    | .ev i :: rest => if isWord i then .rest { s with moves := rest } else .one (.instr i) (flushOut { s with moves := rest })
    | .issue c :: rest => issuePlan { s with moves := rest } c
    | .input x :: rest => .rest (applyInput { s with moves := rest } x)
    | [] => if 256 ≤ s.turn then devicePlan s else issuePlan { s with turn := s.turn + 1 } s.turn

end Sys2Proof.Machine
end

