-- ==== Sys2Proof/Machine/Resident.lean ====
section
/-! DEFINITION. What makes a block or an exchange region resident on a core: seats of groups (09 R257 to R261), slices (R276),
rows (11 R300), the parameter copy (16 R347), regions and the cells of a brick (10 R288 to R292), and the room that a core has
(16 R349, R358). -/

namespace Sys2Proof.Machine

/-! ## Room -/

/-- The lanes that a group would hold. -/
structure Seat where
  tslot : Nat
  base : Nat
  deriving DecidableEq, Repr

/-- W lanes of a thread slot are free beside the blocks of the core and the seats taken already. -/
def seatFree (core : Core) (taken : List Seat) (w : Nat) (x : Seat) : Bool :=
  (core.blocks.all fun b => b.2.groups.all fun g =>
      g.tslot != x.tslot || !overlaps g.base (g.base + b.2.width) x.base (x.base + w)) &&
    taken.all fun y => y.tslot != x.tslot || !overlaps y.base (y.base + w) x.base (x.base + w)

/-- The seats of one width in the order of R259: by thread slot, then by base. -/
def seatsOf (w : Nat) : List Seat :=
  (List.range 16).flatMap fun i => (List.range (64 / w)).map fun j => { tslot := i, base := j * w }

/-- The seats that n groups take, one at a time (R259). -/
def takeSeats (core : Core) (w : Nat) : Nat → Option (List Seat)
  | 0 => some []
  | n + 1 =>
    match takeSeats core w n with
    | none => none
    | some xs => ((seatsOf w).find? (seatFree core xs w)).map fun x => xs ++ [x]

/-- The groups that a core holds. -/
def groupCount (core : Core) : Nat := (core.blocks.map fun b => b.2.groups.length).sum

/-- Rows are free. -/
def rowsFree (core : Core) (lo n : Nat) : Bool :=
  (core.blocks.all fun b => !overlaps b.2.baseRow (b.2.baseRow + b.2.rows) lo (lo + n)) &&
    core.xr.all fun r => !overlaps r.baseRow (r.baseRow + r.rows) lo (lo + n)

/-- The lowest n consecutive free rows of the 512 (R300). DEDUCED: log entry 40. -/
def lowRows (core : Core) (n : Nat) : Option Nat := (List.range (513 - n)).find? fun lo => rowsFree core lo n

/-- The highest n consecutive free rows: from row 511 downward (R300). -/
def highRows (core : Core) (n : Nat) : Option Nat := ((List.range (513 - n)).reverse).find? fun lo => rowsFree core lo n

/-- The rows of a block (R300). -/
def blockRows (l : Launch) : Nat := ceilDiv (recSb l) 1536

/-- The place of a thread among the thread positions of its brick (R260, R292). -/
def positionOf (l : Launch) (index g glane : Nat) : Nat := (index * recGroups l + g) * recWidth l + glane

/-- A thread stands at a place of a block: in a field kernel, where a cell fills it (R260). -/
def hasThread (l : Launch) (index g glane : Nat) : Bool := !isField l || positionOf l index g glane < brickCells l

/-- The group-lanes of a group that hold a thread. -/
def groupLanes (l : Launch) (index g : Nat) : List Nat := (List.range (recWidth l)).filter (hasThread l index g)

/-- The columns of a group that hold a thread at its start (R276). -/
def startColumns (l : Launch) (index g : Nat) : List Nat :=
  (List.range (recWidth l / 8)).filter fun c => (groupLanes l index g).any fun i => i / 8 == c

/-- The slices of a group at its start (R276). -/
def groupSlices (l : Launch) (index g : Nat) : Nat := (startColumns l index g).length * (recRegs l / 8 + 1)

/-- The slices of a block at its start (R276). -/
def blockSlices (l : Launch) (index : Nat) : Nat := ((List.range (recGroups l)).map (groupSlices l index)).sum

/-- The accumulators that blocks of a core hold. -/
def accsHeld (core : Core) : Nat := (core.blocks.map fun b => b.2.accs.length).sum
/-- The bed macros that blocks of a core hold. -/
def bedsHeld (core : Core) : Nat := (core.blocks.map fun b => b.2.beds.length).sum

/-- The lowest free block slot of the 16 (R259). -/
def freeSlot (core : Core) : Option Nat := (List.range 16).find? fun i => (mget core.blocks i).isNone

/-- Where a block would stand. -/
structure Room where
  slot : Nat
  seats : List Seat
  row : Nat
  slices : Nat
  deriving DecidableEq, Repr

/-- The room that a core has for a block that needs so many slices, if any (R257, R259, R276, R300). -/
def roomFor (core : Core) (l : Launch) (slices : Nat) : Option Room :=
  if 128 < groupCount core + recGroups l || core.slices < slices || 16 < accsHeld core + recNacc l ||
      32 < bedsHeld core + recNbed l then none
  else
    match freeSlot core, takeSeats core (recWidth l) (recGroups l), lowRows core (blockRows l) with
    | some slot, some seats, some row => some { slot := slot, seats := seats, row := row, slices := slices }
    | _, _, _ => none

/-! ## Fresh state -/

/-- The settle state of a cell at launch (R223). -/
def Settle.start : Settle :=
  { sig := 0, tol := 0, cap := 0, sopen := 0, opened := false, mixed := false, cold := false, truss := 0 }

/-- A thread at its start (R261). It counts the clock registers as they stand as seen (R245). -/
def newThread (s : State) (c : Nat) (seat : Seat) (block group glane entry : Nat) (cell : Option Nat) : Thread :=
  { tslot := seat.tslot, lane := seat.base + glane, block := block, group := group, glane := glane, regs := RegFile.start,
    tstate := false, pre := false, pc := BitVec.ofNat 64 entry, loc := .pending 0, wait := .none, held := [],
    seenRatios := ratiosWord s, seenStep := stepWord s c, seenBand := bandWord s c, asyncBudget := false, asyncPreempt := false,
    latch := none, cell := cell, settle := Settle.start, stage := List.replicate 16 0, marks := List.replicate 16 false,
    fence := 0 }

/-- The threads of a group. -/
def groupThreadsNew (s : State) (c : Nat) (l : Launch) (index block g : Nat) (seat : Seat) : List Thread :=
  (groupLanes l index g).map fun i =>
    newThread s c seat block g i (recEntry l) (if isField l then some (positionOf l index g i) else none)

/-- A peg at block start (R144). -/
def Peg.start (groups : Nat) : Peg :=
  { first := 0, count := groups, episode := .none, arrived := [], owedMeet := [], owedSign := [], pass := [], lastMx := none }

/-- A barrier at block start (R228). -/
def Barrier.start : Barrier := { gen := 0, arr := [], next := 0, due := 0, order := 0 }

/-- A jig that is not valid. -/
def Jig.empty : Jig := { desc := [], base := 0, i2 := 0, i3 := 0, valid := false }

/-- A block at its start. -/
def newBlock (l : Launch) (serial number index order : Nat) (r : Room) : Block :=
  { launch := serial, ctx := l.ctx, number := number, index := index, order := order, width := recWidth l,
    groups := ((List.range r.seats.length).zip r.seats).map fun p =>
      { tslot := p.2.tslot, base := p.2.base, regs := recRegs l, cols := startColumns l index p.1, s := List.replicate 64 0,
        early := [] },
    baseRow := r.row, rows := blockRows l, sb := recSb l, valid := [], stamps := [], bg := 0,
    jigs := List.replicate 16 Jig.empty, pegs := List.replicate 16 (Peg.start (recGroups l)),
    bars := List.replicate 8 Barrier.start, accs := List.replicate (recNacc l) Acc.clear,
    beds := List.replicate (recNbed l) Bed.clear }

/-- Addresses that are listed no more: they read as zero, with good check data. -/
def wipe (k : Kern) (lo n : Nat) : Kern :=
  let outside (a : Nat) : Bool := !(lo ≤ a && a < lo + n)
  { k with mem := k.mem.filter fun p => outside p.1, poison := k.poison.filter fun p => outside p.1,
           soft := k.soft.filter outside }

/-- The context is resident on the core: a bucket, empty where it is new until the next refill of the core's periods (R371, R372).
DEDUCED: log entry 95. -/
def enterBucket (k : Kern) (c ctx : Nat) : Kern :=
  modCore k c fun core =>
    if (mget core.buckets ctx).isSome then core
    else { core with buckets := mset core.buckets ctx { tokens := 0, owed := 0, active := false },
                     refilled := if core.buckets.isEmpty then k.net - (k.net - core.refilled) % 1024 else core.refilled }

/-- The bucket goes where the context holds neither a block nor a region on the core (R371). -/
def leaveBucket (k : Kern) (c ctx : Nat) : Kern :=
  modCore k c fun core =>
    let held := (core.blocks.any fun b => b.2.ctx == ctx) ||
      core.xr.any fun r => ((mget k.launches r.launch).map (·.ctx)) == some ctx
    if held then core else { core with buckets := mdel core.buckets ctx }

/-! ## The parameter copy (R347) -/

/-- The 16 + PLEN bytes. -/
def paramBytes (l : Launch) (number index : Nat) : List Byte :=
  (if isField l then bytesOfNat 4 number ++ bytesOfNat 4 index else bytesOfNat 4 number ++ bytesOfNat 4 (recNblk l)) ++
    List.replicate 8 0 ++ (l.rec_.drop 384).take (recPlen l)

/-- Write the parameter copy. -/
def copyParams (k : Kern) (c b : Nat) (l : Launch) (number index : Nat) : Kern :=
  match blockOf k c b with
  | none => k
  | some blk =>
    if recPcopy l then
      engineTouch (putBytes k (rowBase c blk.baseRow + recPdst l) (paramBytes l number index)) c b (recPdst l) (16 + recPlen l)
    else k

/-! ## Starting a block -/

/-- The blocks of a launch acquire what came before it: its node has predecessors (R354), or it is a posted card (R231, R328). -/
def hasPredecessors (k : Kern) (l : Launch) : Bool :=
  l.card || match mget k.graphs l.graph with
    | some g => g.nodes.any fun n => n.succ.contains l.node
    | none => false

/-- Gated banks begin to wake when a block or a region comes (R303). -/
def wakeBanks (k : Kern) (c : Nat) : Kern :=
  modCore k c fun core => if core.banksGated then { core with banksGated := false, banksWaking := true } else core

/-- Take the room: the block, its rows with every word zero, its slices and its bucket. -/
def seatBlock (k : Kern) (c : Nat) (l : Launch) (serial number index : Nat) (r : Room) : Kern :=
  let k := wakeBanks (wipe k (rowBase c r.row) (blockRows l * 1536)) c
  let order := k.order
  let k := modCore { k with order := order + 1 } c fun core =>
    { core with blocks := mset core.blocks r.slot (newBlock l serial number index order r), slices := core.slices - r.slices }
  copyParams (enterBucket k c l.ctx) c r.slot l number index

/-- Threads start: each is placed at its program counter (R261, R264). -/
def startThreads (k : Kern) (c : Nat) (ts : List Thread) : Kern :=
  let k' := ts.foldl (fun k t => modThis k c t fun u => { u with wait := .none }) k
  moveThreads k' c (ts.map fun t => moverOf k' c t t.pc.toNat)

/-- The threads of groups, each group with the core cycles after which it starts, come to a core: those of the groups that start now
are placed, and the others wait (R421). -/
def beginGroups (k : Kern) (c : Nat) (gs : List (Nat × List Thread)) : Kern :=
  let now := (coreOf k c).cycle
  let held := gs.flatMap fun g => g.2.map fun t => if g.1 == 0 then t else { t with wait := .starting (now + g.1) }
  startThreads (modCore k c fun core => { core with threads := core.threads ++ held }) c
    ((gs.filter fun g => g.1 == 0).flatMap (·.2))

/-- Start a block in a room: its threads begin at ENTRY, the groups as SLOPE lets them (R259, R261, R264, R421). -/
def startBlock (s : State) (c : Nat) (l : Launch) (serial number index : Nat) (r : Room) : State :=
  let k := seatBlock s.kern c l serial number index r
  let k := if hasPredecessors k l then dropLines k c else k
  let x := countStarts s (bayOf c) r.seats.length
  let gs := (x.2.zip r.seats).zipIdx.map fun p => (p.1.1, groupThreadsNew s c l index r.slot p.2 p.1.2)
  { x.1 with kern := beginGroups k c gs }

/-! ## Exchange regions (R288, R290, R292, R307) -/

/-- The halo set of a brick, in ascending linear index (R288). -/
def haloOf (l : Launch) (brick : Nat) : List Nat :=
  let cells := (List.range (brickCells l)).map fun b => cellAt l brick b
  sortBy id (cells.foldl (fun acc x =>
    (readersOf l x).foldl (fun acc n => if (brickOf l (cellOf l n)).1 == brick then acc else addOnce acc n) acc) [])

/-- The thread positions of a brick (R345). -/
def positions (l : Launch) : Nat := recNblk l * recGroups l * recWidth l

/-- The region of a brick, from a base row. -/
def newRegion (l : Launch) (serial brick row : Nat) : XRegion :=
  let nc := brickCells l
  let halo := haloOf l brick
  let t := positions l
  { launch := serial, baseRow := row, rows := ceilDiv (regionBytes l nc halo.length (t < nc)) 1536, brick := brick, nc := nc,
    halo := halo, virt := t < nc, away := (List.range (nc - t)).map fun i => t + i, gone := [], unready := [], released := [] }

/-- A record at launch: TAG0 −1 and TAG1 −2 (R282). -/
def initRecord (k : Kern) (a : Nat) : Kern :=
  putBytes (putBytes k (a + 128) (List.replicate 8 0xFF)) (a + 136) (bytesOfNat 8 (2 ^ 64 - 2))

/-- Take a region with its initial state: the records of R282, and frames at the kernel's entry (R292). -/
def startRegion (k : Kern) (c : Nat) (l : Launch) (serial brick row : Nat) : Kern :=
  let r := newRegion l serial brick row
  let k := wakeBanks (wipe k (rowBase c row) (r.rows * 1536)) c
  let k := modCore k c fun core => { core with xr := core.xr ++ [r] }
  let k := (List.range (r.nc + r.halo.length)).foldl (fun k i => initRecord k (recordAt c r i)) k
  let k := r.away.foldl (fun k b => putBytes k (frameAt c r l b) (bytesOfNat 8 (recEntry l))) k
  enterBucket k c l.ctx

/-- The rows that a brick's region needs. -/
def regionRows (l : Launch) (brick : Nat) : Nat :=
  let nc := brickCells l
  ceilDiv (regionBytes l nc (haloOf l brick).length (positions l < nc)) 1536

/-- Start n blocks of a brick from an index on, if all find room. -/
def startBlocks (l : Launch) (serial brick c : Nat) : Nat → State → Option State
  | 0, s => some s
  | n + 1, s =>
    match startBlocks l serial brick c n s with
    | none => none
    | some s => (roomFor (coreOf s.kern c) l (blockSlices l n)).map fun r => startBlock s c l serial brick n r

/-- Start a whole brick on a core, if its bay is in service and it finds room (R350, R433). -/
def startBrick (l : Launch) (serial brick c : Nat) (s : State) : Option State :=
  match if (getBay s (bayOf c)).enabled then highRows (coreOf s.kern c) (regionRows l brick) else none with
  | none => none
  | some row => startBlocks l serial brick c (recNblk l) { s with kern := startRegion s.kern c l serial brick row }

/-- Start every brick of a list, or none (R350). -/
def startBricks (l : Launch) (serial : Nat) : List (Nat × Nat) → State → Option State
  | [], s => some s
  | (brick, c) :: bs, s =>
    match startBrick l serial brick c s with
    | none => none
    | some s => startBricks l serial bs s

end Sys2Proof.Machine
end

