-- ==== Sys2Proof/Machine/EventsCore.lean ====
section
/-! DEFINITION. Events of a core's issue side: fetched lines (01 R56), late results (R41), asynchronous traps (08 R238), the end
of waits (09 R265), pegs and barriers (05 R144; 07 R228, R230), the pending list (09 R268, R269), slices and GROW (R277; 08 R248,
R249), the object cache (11 R314), scratchpad banks (R303) and the stall sampler (08 R253 to R255). -/

namespace Sys2Proof.Machine

/-- An event that names a thread changes the kernel state, where there is one. DESIGN CHOICE: log entry 92. -/
def onThread (s : State) (c tslot lane : Nat) (f : Thread → Kern) : Host.Outcome State Fault Refusal :=
  match getThread s.kern c tslot lane with
  | some t => answer { s with kern := f t }
  | none => answer s

/-! ## Units that wait for service (R441) -/

/-- What kind of unit waits: a copy, a queue packet, a bed load, a feed, a claimed slot, a line fetch, a remote requester or a
queue header. -/
inductive UnitKind where
  | copy | packet | bed | feed | slot | fetch | remote | header
  deriving DecidableEq, Repr

/-- The number of a kind. -/
def unitNumber : UnitKind → Nat
  | .copy => 0 | .packet => 1 | .bed => 2 | .feed => 3 | .slot => 4 | .fetch => 5 | .remote => 6 | .header => 7

/-- The wait is of a unit. -/
def isUnit (u : UnitKind) (core job : Nat) (w : UnitWait) : Bool := w.kind == unitNumber u && w.core == core && w.job == job

/-- A unit waits for an address. -/
def waitFor (k : Kern) (u : UnitKind) (core job ctx faddr sub : Nat) : Kern :=
  let w : UnitWait := { id := k.id, kind := unitNumber u, core := core, job := job, ctx := ctx, faddr := BitVec.ofNat 64 faddr,
                        sub := sub, handed := false }
  { k with units := (k.units.filter fun w => !isUnit u core job w) ++ [w], id := k.id + 1 }

/-- A unit waits no more. -/
def doneWaiting (k : Kern) (u : UnitKind) (core job : Nat) : Kern :=
  { k with units := k.units.filter fun w => !isUnit u core job w }

/-! ## Lines and results -/

/-- The line that an entry waits for: its own where the buffer lacks it or the front asks for no other, else that of a target of
its front. -/
def wantedLine (k : Kern) (c e : Nat) (x : Entry) (l : Launch) : Nat :=
  match faceOf k c x, wantedTargets k c e x l with
  | .unfetched, _ | _, [] => pcLine x.pc.toNat
  | _, p :: _ => pcLine p

/-- The line that an entry waits for is fetched in one piece: of the mixes of old and new units that R16 allows, the model takes
the line as it stands at the completion of the fetch. A line already held is fetched anew, as after
an eviction (R15). A line that is not placed waits for service. DESIGN CHOICE: log entry 42. DEDUCED: log entry 43. -/
def fetchLineOf (k : Kern) (c e : Nat) : Kern :=
  match (mget (coreOf k c).entries e).bind fun x => (mget k.launches x.launch).map fun l => (x, l) with
  | none => k
  | some (x, l) =>
    let line := wantedLine k c e x l
    if !lineInside k l line then k
    else
      match readLine k l line with
      | some bits => bufferLine (doneWaiting k .fetch c e) c l line bits
      | none =>
        match objRuns k l.ctx (capObj (recCode l)) (codeOffset l line) 64 with
        | .error f => waitFor k .fetch c e l.ctx (capForm (recCode l) f.1) f.2
        | .ok _ => k

/-- LINE_FETCH_COMPLETE. -/
def execLineFetchComplete (core entry : Nat) (s : State) : Host.Outcome State Fault Refusal :=
  answer { s with kern := fetchLineOf s.kern core entry }

/-- RESULT_ARRIVAL. DESIGN CHOICE: log entry 88. -/
def execResultArrival (core tslot lane pend : Nat) (s : State) : Host.Outcome State Fault Refusal :=
  onThread s core tslot lane fun t =>
    match t.held.find? fun h => h.id == pend && selfArrives (coreOf s.kern core) h with
    | some h => arriveHeld s.kern core t pend h.vals h.flags
    | none => s.kern

/-! ## Asynchronous traps (R238) -/

/-- Abandon, youngest first, every uncommitted MX at which a thread is held that has an asynchronous trap to take (R213).
DEDUCED: log entry 34. -/
def abandonDue (k : Kern) (c : Nat) : Kern :=
  let due (m : MxJob) : Bool := (heldAt (coreOf k c) m.id).any asyncDue
  ((coreOf k c).mxq.reverse.filter due).foldl (fun k m => abandonMx k c m) k

/-- Withdraw an arrival at a peg (R147). -/
def withdrawArrival (k : Kern) (c : Nat) (t : Thread) (pg : Nat) : Kern :=
  match blockOf k c t.block with
  | none => k
  | some blk => modPeg k c t.block pg fun p => { p with arrived := p.arrived.filter (· != memberId blk t) }

/-- Withdraw the GROW of a group: no slice is taken, and its other threads issue it again (R248). -/
def withdrawGrow (k : Kern) (c : Nat) (t : Thread) : Kern :=
  modCore k c fun core =>
    { core with threads := core.threads.map fun u =>
        if u.block == t.block && u.group == t.group && (growSeq u).isSome then { u with wait := .none } else u }

/-- The program counter at which a thread takes an asynchronous trap, and the state with its wait withdrawn; none where the
thread cannot take it yet. -/
def withdrawWait (k : Kern) (c : Nat) (t : Thread) : Option (Kern × W64) :=
  match t.loc with
  | .exited | .down => none
  | .parked =>
    match (coreOf k c).parks.find? fun p => p.tslot == t.tslot && p.lane == t.lane with
    | some p => some (freeRecord k c p.id, p.pc)
    | none => none
  | _ =>
    match t.wait with
    | .trapping _ _ _ _ _ | .rotate _ _ => none
    | .meet pg _ | .sign pg => some (withdrawArrival k c t pg, t.pc)
    | .grow _ _ _ => some (withdrawGrow k c t, t.pc)
    | .mxHeld _ => some (abandonDue k c, t.pc)
    | .yielding _ => some (k, BitVec.ofNat 64 (nextPc k c t))
    | _ => some (k, t.pc)

/-- A thread takes its pending asynchronous trap: budget exhausted before pre-emption (R238). -/
def takeAsync (k : Kern) (c : Nat) (t : Thread) : Kern :=
  if !asyncDue t || !ctxIssues k c t || unsettled (coreOf k c) t then k
  else
    match withdrawWait k c t with
    | none => k
    | some (k, pc) =>
      let cause := if t.asyncBudget then 0x0F else 0x10
      let k := modThis k c t fun u =>
        if t.asyncBudget then { u with asyncBudget := false, wait := .none } else { u with asyncPreempt := false, wait := .none }
      takeTrap k c t cause 0 pc 0 true

/-- ASYNC_TRAP_DELIVERY. -/
def execAsyncTrapDelivery (core tslot lane : Nat) (s : State) : Host.Outcome State Fault Refusal :=
  onThread s core tslot lane fun t => takeAsync s.kern core t

/-! ## Pegs and barriers -/

/-- The threads' later accesses come after what was issued before now (R145, R230). DEDUCED: log entry 28. -/
def fenceNow (k : Kern) (c : Nat) (ts : List Thread) : Kern :=
  let n := k.id
  ts.foldl (fun k t => modThis k c t fun u => { u with fence := n }) k

/-- A peg whose episode closes: parked members that have not arrived are owed it, and a sign episode gives PASS to every member
that has not exited (R144, R211). -/
def closePeg (ms : List (Nat × Bool)) (p : Peg) : Peg :=
  let owed := (ms.filter fun m => m.2 && !p.arrived.contains m.1).map fun m => m.1
  let without (xs : List Nat) : List Nat := xs.filter fun i => !owed.contains i
  if p.episode == .signOpen then
    { p with episode := .signClosed, arrived := [], owedMeet := without p.owedMeet, owedSign := owed.foldl addOnce p.owedSign,
             pass := ms.foldl (fun ps m => addOnce ps m.1) p.pass }
  else
    { p with episode := .none, arrived := [], owedMeet := owed.foldl addOnce p.owedMeet, owedSign := without p.owedSign }

/-- The members of a peg that have not exited, with whether they are parked. -/
def pegMembers (core : Core) (b : Nat) (blk : Block) (p : Peg) : List (Nat × Bool) :=
  (core.threads.filter fun t => t.block == b && inPeg p t.group && live t).map fun t => (memberId blk t, parkedLike t)

/-- The drains begin of the stores that threads have gathered (R154). -/
def drainAll (k : Kern) (c : Nat) (ts : List Thread) : Kern :=
  drainWhere k c fun e => ts.any fun t => e.writers.contains (threadName t)

/-- An episode closes (R144, R145): what any member issues later comes after what each issued before, its parked members
included. -/
def closeEpisode (k : Kern) (c b pg : Nat) : Kern :=
  match blockOf k c b with
  | none => k
  | some blk =>
    let p := pegOf blk pg
    if !pegClosable (coreOf k c) b blk p then k
    else
      let ts := (blockThreads (coreOf k c) b).filter fun t => t.wait == .meet pg false
      let k := modPeg k c b pg (closePeg (pegMembers (coreOf k c) b blk p))
      let k := modBlock k c b advanceBg
      let ms := (blockThreads (coreOf k c) b).filter fun t => live t && inPeg p t.group
      if p.episode == .meetOpen then endWaits (fenceNow (drainAll k c ms) c ms) c ts else k

/-- PEG_EPISODE_CLOSE. -/
def execPegEpisodeClose (core block peg : Nat) (s : State) : Host.Outcome State Fault Refusal :=
  answer { s with kern := closeEpisode s.kern core block peg }

/-- The thread waits at the barrier in the generation that opens. -/
def waitsAt (b : Nat) (t : Thread) : Bool :=
  match t.wait with
  | .bar x _ => x == b
  | _ => false

/-- A barrier opens (R228, R230): threads that wait are ordered now, those that pass it later when they do (passBarrier). -/
def openBarrier (k : Kern) (c b x : Nat) : Kern :=
  match blockOf k c b with
  | none => k
  | some blk =>
    let bar := barOf blk x
    if !barOpens (coreOf k c) b blk bar then k
    else
      let ts := blockThreads (coreOf k c) b
      let owed := ts.filter fun t => parkedLike t && !arrivedIn bar.gen (mget bar.arr (memberId blk t))
      let k := modBar k c b x fun y =>
        let y := owed.foldl (fun y t => setArr (memberId blk t) (some .owed) y) y
        { y with
          gen := y.gen + 1, next := (y.gen + 1).toNat % max 1 blk.groups.length, due := (coreOf k c).cycle + 4, order := k.id }
      let k := modBlock (drainAll k c ts) c b advanceBg
      let waiting := ts.filter (waitsAt x)
      let k := fenceNow k c (waiting ++ ts.filter fun t => t.wait == .barArrive x)
      waiting.foldl (fun k t => modThis k c t fun u => { u with wait := .released x }) k

/-- BARRIER_OPEN. -/
def execBarrierOpen (core block bar : Nat) (s : State) : Host.Outcome State Fault Refusal :=
  answer { s with kern := openBarrier s.kern core block bar }

/-- The groups of a wave: at most n of those with released threads, in ascending group slot from a slot, cyclically (R230). -/
def waveGroups (ts : List Thread) (groups start n : Nat) : List Nat :=
  (((List.range groups).map fun i => (start + i) % max 1 groups).filter fun g => ts.any fun t => t.group == g).take n

/-- A wave of released groups goes on (R230, R421). -/
def releaseWave (k : Kern) (c b x n : Nat) : Kern :=
  match blockOf k c b with
  | none => k
  | some blk =>
    let ts := (blockThreads (coreOf k c) b).filter fun t => t.wait == .released x
    let gs := waveGroups ts blk.groups.length (barOf blk x).next n
    let out := ts.filter fun t => gs.contains t.group
    let k := modBar k c b x fun y =>
      { out.foldl (fun y t => setArr (memberId blk t) none y) y with
        due := y.due + 16,
        next := match gs.getLast? with | some g => (g + 1) % max 1 blk.groups.length | none => y.next }
    endWaits k c out

/-- BARRIER_RELEASE_WAVE: SLOPE of the core's bay bounds the wave. -/
def execBarrierReleaseWave (core block bar : Nat) (s : State) : Host.Outcome State Fault Refusal :=
  if waveDue (coreOf s.kern core) block bar then answer { s with kern := releaseWave s.kern core block bar (coreBay s core).slope }
  else answer s

/-! ## The end of waits (R265) -/

/-- A limit of core cycles has passed. -/
def limitPassed (limit : Option Nat) (start now : Nat) : Bool :=
  match limit with
  | some n => start + n ≤ now
  | none => false

/-- An EVWAIT sleeper wakes: an event of its mask stands, or its limit has passed (R247). -/
def evWakes (s : State) (c : Nat) (t : Thread) : Bool :=
  match t.wait with
  | .evwait mask limit start _ =>
    Nat.land (ratioEvents s c t) mask.toNat != 0 || limitPassed limit start (coreOf s.kern c).cycle
  | _ => false

/-- A woken sleeper writes RATIOEV to the destination that it holds (R109, R247). -/
def writeWake (s : State) (c : Nat) (k : Kern) (t : Thread) : Kern :=
  match t.wait with
  | .evwait _ _ _ dst => writeRegs k c t dst [BitVec.ofNat 32 (ratioEvents s c t)]
  | _ => k

/-- The sleepers of a core that wake in this cycle go on, and are placed together (R265). -/
def wakeSleepers (s : State) (c : Nat) : Kern :=
  let ts := (coreOf s.kern c).threads.filter fun u => evWakes s c u
  endWaits (ts.foldl (writeWake s c) s.kern) c ts

/-- A cell that waited to be saved gives up its position, or goes on where none lags behind it any more (R294).
DEDUCED: log entry 27. -/
def rotateNow (k : Kern) (c : Nat) (t : Thread) (mask : Nat) (pc : W64) : Kern :=
  let moved (k : Kern) (p : Nat) : Kern :=
    moveThreads (modThis k c t fun u => { u with wait := .none }) c [moverOf k c t p]
  match cellPlace k c t with
  | none => moved k pc.toNat
  | some (l, r, b) =>
    if resultsPending k c t then k
    else
      match leastAway k c r l with
      | none => moved k pc.toNat
      | some (a, sigma) =>
        if sigmaAt k (recordAt c r b) ≤ sigma then moved k pc.toNat
        else if !maskReadable k c r l a then k
        else
          let x := rotateCell k c t r l b mask pc.toNat a
          moved x.1 x.2

/-- The timeline that a thread waits for has reached its value (R197). -/
def tlReached (k : Kern) (c : Nat) (t : Thread) : Bool :=
  match t.wait, threadLaunch k c t with
  | .tlwait tl n _, some l => n.toNat ≤ timelineValue k c (ctxOf k c t) l tl
  | _, _ => false

/-- The TLWAITs of a core whose timelines have reached their values end together (R197, R265): they acquire. -/
def endTlwaits (k : Kern) (c : Nat) : Kern :=
  let ts := (coreOf k c).threads.filter (tlReached k c)
  if ts.isEmpty then k else endWaits (dropLines k c) c ts

/-- A thread waits to arrive at a barrier that has opened since its last arrival (R229). -/
def mayArrive (blk : Block) (b : Nat) (t : Thread) : Bool :=
  t.wait == .barArrive b && !arrivedIn (barOf blk b).gen (mget (barOf blk b).arr (memberId blk t))

/-- The BARARRs of a block that waited for an opening of a barrier arrive together (R229, R265). -/
def endBarArrives (k : Kern) (c blkSlot b : Nat) : Kern :=
  match blockOf k c blkSlot with
  | none => k
  | some blk =>
    let ts := (blockThreads (coreOf k c) blkSlot).filter (mayArrive blk b)
    let gen := (barOf blk b).gen
    endWaits (modBar k c blkSlot b fun y => ts.foldl (fun y t => setArr (memberId blk t) (some (.inGen gen)) y) y) c ts

/-- The trap whose entry a thread waits to make, where what it waited for has arrived (R235). -/
def trapDue (k : Kern) (c : Nat) (t : Thread) : Option Due :=
  match t.wait with
  | .trapping cause sub pc fault async =>
    if awaitsHeld k c t then none
    else some { thread := t, cause := cause, sub := sub, pc := pc, fault := fault, async := async }
  | _ => none

/-- The trap entries of a core that have waited for held results are made together (R235, R264). -/
def endTrapping (k : Kern) (c : Nat) : Kern :=
  let ds := (coreOf k c).threads.filterMap (trapDue k c)
  takeAll (ds.foldl (fun k d => modThis k c d.thread fun u => { u with wait := .none }) k) c ds

/-- A wait of one thread ends, where what it waits for has come. The waits that other events end stay as they are.
DEDUCED: log entry 113. -/
def endWait (s : State) (c : Nat) (t : Thread) : Kern :=
  let k := s.kern
  match t.wait with
  | .evwait _ _ _ _ => if evWakes s c t then wakeSleepers s c else k
  | .tlwait _ _ _ => endTlwaits k c
  | .rotate mask pc => rotateNow k c t mask pc
  | .trapping _ _ _ _ _ => endTrapping k c
  | .barArrive b => endBarArrives k c t.block b
  | .yielding _ =>
    let now := (coreOf k c).cycle
    if yieldOver now t then endWaits k c ((coreOf k c).threads.filter (yieldOver now)) else k
  | .starting _ =>
    let now := (coreOf k c).cycle
    if startDue now t then startThreads k c ((coreOf k c).threads.filter (startDue now)) else k
  | _ => k

/-- WAIT_END. -/
def execWaitEnd (core tslot lane : Nat) (s : State) : Host.Outcome State Fault Refusal :=
  onThread s core tslot lane fun t => endWait s core t

/-- YIELD_CYCLES_END: the entry's threads go on, in an entry with a new AGE (R148, R266). -/
def execYieldCyclesEnd (core entry : Nat) (s : State) : Host.Outcome State Fault Refusal :=
  let x := coreOf s.kern core
  match (mget x.entries entry).bind (·.sleep) with
  | some n =>
    if n ≤ x.cycle then answer { s with kern := endWaits s.kern core ((entryThreads x entry).filter fun t => t.wait == .yielding n) }
    else answer s
  | none => answer s

/-! ## MX (R211, R212, R205) -/

/-- The threads that pass an MX and those that take a trap there. -/
structure MxWave where
  kern : Kern
  pass : List Thread
  traps : List Due

/-- A thread that waits at a pegged MX launches it or passes it (R211), traps there, or waits on. -/
def launchOne (c : Nat) (w : MxWave) (t : Thread) : MxWave :=
  let k := w.kern
  match t.wait, blockOf k c t.block, threadLaunch k c t with
  | .mx x set v, some blk, some l =>
    match mxTrap blk l x with
    | some e => { w with traps := w.traps ++ [{ thread := t, cause := e.1, sub := e.2, pc := t.pc, fault := 0, async := false }] }
    | none =>
      if !mayPass k c t x v then w
      else
        match passMx k c t x set t.pc with
        | (k, some id) => { w with kern := modThis k c t fun u => { u with wait := .mxHeld id } }
        | (k, none) => { w with kern := k, pass := w.pass ++ [t] }
  | _, _, _ => w

/-- The threads of a block that wait at pegged MXs go on in one cycle, in ascending group and lane, and are placed together (R211,
R265). DEDUCED: log entry 32. -/
def launchWaiting (k : Kern) (c b : Nat) : Kern :=
  let ts := sortBy (fun t : Thread => t.group * 64 + t.lane) (blockThreads (coreOf k c) b)
  let w := ts.foldl (launchOne c) { kern := k, pass := [], traps := [] }
  let k := (w.pass ++ w.traps.map (·.thread)).foldl (fun k t => modThis k c t fun u => { u with wait := .none }) w.kern
  let r := enterAll c k w.traps
  moveThreads r.1 c ((w.pass.map fun t => moverOf k c t (nextPc k c t)) ++ r.2)

/-- MX_LAUNCH. -/
def execMxLaunch (core tslot lane : Nat) (s : State) : Host.Outcome State Fault Refusal :=
  onThread s core tslot lane fun t =>
    match t.wait with
    | .mx _ _ _ => launchWaiting s.kern core t.block
    | _ => s.kern

/-- A copy in flight, or a bank that wakes, holds back a scratchpad element of a feed (R184, R205, R303). -/
def feedHeldBack (k : Kern) (c : Nat) (m : MxJob) : Bool :=
  match blockOf k c m.block with
  | none => false
  | some blk =>
    match launchOf k blk with
    | none => false
    | some l =>
      let j := jigOf blk m.x.jg.val
      let slot := recFs l m.x.fsi.val
      let h := shapeOf l slot (m.x.bdn.val + 1)
      let e := elementBytes (fsFmt slot)
      j.base.toNat / 2 ^ 40 == 0 &&
        ((coreOf k c).banksWaking ||
          (feedOffsets (fsPlanar slot) j.desc m.i2.toNat m.i3.toNat h.comps h.depth).any fun off =>
            let a := offBy j.base.toNat off
            heldByCopy (coreOf k c) m.block .sp a (a + e) false)

/-- The oldest launched MX of a core may be fed: the earlier accesses of its block have been performed. -/
def feedReady (k : Kern) (c : Nat) (m : MxJob) : Bool :=
  (coreOf k c).reqs.all (fun q => q.block != m.block || m.id < q.id) && !feedHeldBack k c m

/-- The commit of an MX (R212). -/
def commitMx (k : Kern) (c : Nat) (m : MxJob) (a : Acc) : Kern :=
  let ts := heldAt (coreOf k c) m.id
  let k := modAcc (doneWaiting k .feed c m.id) c m.block m.x.acc.val fun _ => a
  let k := modCore k c fun core => { core with mxq := core.mxq.filter fun x => x.id != m.id }
  endWaits k c ts

/-- The feed of an MX takes the tokens that it lacks (R371): the state, and whether it has them all. -/
def payFeed (k : Kern) (c : Nat) (m : MxJob) : Kern × Bool :=
  match (blockOf k c m.block).bind fun blk => (launchOf k blk).map fun l => feedCost l blk m with
  | none => (k, true)
  | some cost =>
    if cost ≤ m.paid then (k, true)
    else
      let r := payUnit k c m.ctx cost m.paid
      (modCore r.1 c fun core => { core with mxq := core.mxq.map fun x => if x.id == m.id then { x with paid := r.2 } else x },
        cost ≤ r.2)

/-- MX_COMMIT. A feed that meets a frame that is not placed waits for service; one that fails is FEED_READ_FAULT's. -/
def execMxCommit (core : Nat) (s : State) : Host.Outcome State Fault Refusal :=
  match (coreOf s.kern core).mxq with
  | [] => answer s
  | m :: _ =>
    if !feedReady s.kern core m then answer s
    else
      match feedMx s.kern core m with
      | (_, .ok a) =>
        match payFeed s.kern core m with
        | (k, true) => answer { s with kern := commitMx (feedMx k core m).1 core m a }
        | (k, false) => answer { s with kern := k }
      | (_, .error (.wait faddr sub)) => answer { s with kern := waitFor s.kern .feed core m.id m.ctx faddr sub }
      | (_, .error (.trap _ _ _)) => answer s

/-- An MX is abandoned, and the threads held at it trap there (R205, R213). -/
def failFeed (k : Kern) (c : Nat) (m : MxJob) (cause sub fault : Nat) : Kern :=
  let ts := heldAt (coreOf k c) m.id
  let k := abandonMx (doneWaiting k .feed c m.id) c m
  takeTraps k c (ts.map fun t => (t, t.pc)) cause sub (BitVec.ofNat 64 fault)

/-- FEED_READ_FAULT. -/
def execFeedReadFault (core : Nat) (s : State) : Host.Outcome State Fault Refusal :=
  match (coreOf s.kern core).mxq with
  | [] => answer s
  | m :: _ =>
    if !feedReady s.kern core m then answer s
    else
      match feedMx s.kern core m with
      | (k, .error (.trap cause sub fault)) => answer { s with kern := failFeed k core m cause sub fault }
      | _ => answer s

/-! ## The pending list (R268, R269) -/

/-- Forget the units of the pending list that no thread is in. -/
def tidyPending (k : Kern) (c : Nat) : Kern :=
  modCore k c fun core =>
    { core with pendSince := core.pendSince.filter fun p => core.threads.any fun t => t.loc == .pending p.1 }

/-- The movers of a pending unit, at their own program counters. -/
def unitMovers (k : Kern) (c seq : Nat) : List Mover :=
  (unitThreads (coreOf k c) seq).map fun t => moverOf k c t t.pc.toNat

/-- A later unit joins an entry at its program counter with its lanes free. -/
def joinLater (k : Kern) (c launch pc seq : Nat) : Kern :=
  match unitMovers k c seq with
  | [] => k
  | m :: ms =>
    if m.launch != launch || m.pc != pc then k
    else
      match joinable (coreOf k c) launch pc (m :: ms) with
      | some e => modCore k c fun core => locate core (m :: ms) (.entry e) pc
      | none => k

/-- The earliest ready unit takes a free entry, and later units join it (R268). -/
def placePending (k : Kern) (c : Nat) : Kern :=
  let k := tidyPending k c
  match readyUnits (coreOf k c), freeEntry (coreOf k c) with
  | seq :: rest, some _ =>
    match unitMovers k c seq with
    | [] => k
    | m :: ms =>
      let k := placeUnit k c (m :: ms)
      tidyPending (rest.foldl (fun k n => joinLater k c m.launch m.pc n) k) c
  | _, _ => k

/-- PENDING_PLACE. -/
def execPendingPlace (core : Nat) (s : State) : Host.Outcome State Fault Refusal :=
  answer { s with kern := placePending s.kern core }

/-- The entry that is evicted (R269): the one that has been not ready the longest; else the one that issued most recently. -/
def victim (s : State) (c : Nat) : Option Nat :=
  let es := (coreOf s.kern c).entries
  match minBy (fun p => p.2.idleSince) (es.filter fun p => !entryReady s c p.1 p.2) with
  | some p => some p.1
  | none =>
    let last := es.foldl (fun n p => max n p.2.issued) 0
    (minBy (fun p => last - p.2.issued) es).map (·.1)

/-- The threads of an entry go to the end of the pending list as units (R269). -/
def evict (k : Kern) (c e : Nat) : Kern :=
  let us := unitsOf (sortBy (fun m => m.block * 64 + m.group) ((entryThreads (coreOf k c) e).map fun t => moverOf k c t t.pc.toNat))
  let k := us.foldl (fun k u =>
    let id := k.id
    modCore { k with id := id + 1 } c fun core =>
      { core with
        threads := core.threads.map fun t =>
          if u.any fun m => m.tslot == t.tslot && m.lane == t.lane then { t with loc := .pending id } else t,
        pendSince := mset core.pendSince id core.cycle }) k
  sweepEntries k c

/-- ENTRY_EVICTION. -/
def execEntryEviction (core : Nat) (s : State) : Host.Outcome State Fault Refusal :=
  let k := tidyPending s.kern core
  let x := coreOf k core
  match victim s core with
  | some e => if unitLate x && (freeEntry x).isNone then answer { s with kern := placePending (evict k core e) core } else answer s
  | none => answer s

/-! ## Slices and GROW -/

/-- SLICE_RETURN. -/
def execSliceReturn (core block group column : Nat) (s : State) : Host.Outcome State Fault Refusal :=
  answer { s with kern := returnColumns s.kern core block group fun i => i == column }

/-- The predicate and the length of a GROW wait. -/
def growParts (t : Thread) : Nat × Nat :=
  match t.wait with
  | .grow n d _ => (n, predNumber d)
  | _ => (0, 0)

/-- Waiting threads of a GROW go on with their predicate. -/
def endGrow (k : Kern) (c : Nat) (ts : List Thread) (p : Bool) : Kern :=
  endWaits (ts.foldl (fun k t => writePred k c t (growParts t).2 p) k) c ts

/-- The GROW that began to wait first is granted where its slices are free (R248). -/
def grantFirst (k : Kern) (c : Nat) : Kern :=
  match minBy (fun n => n) ((coreOf k c).threads.filterMap growSeq) with
  | none => k
  | some seq =>
    let ts := (coreOf k c).threads.filter fun t => growSeq t == some seq
    match ts with
    | [] => k
    | t :: _ =>
      let n := (growParts t).1
      let k := returnColumns k c t.block t.group fun _ => true
      if (coreOf k c).slices < growNeed (coreOf k c) t.block t.group n then k
      else endGrow (grantGrow k c t.block t.group n) c ts true

/-- GROW_GRANT. -/
def execGrowGrant (core : Nat) (s : State) : Host.Outcome State Fault Refusal :=
  answer { s with kern := grantFirst s.kern core }

/-- The block that was dispatched last among those with a GROW waiting; on a tie the higher slot (R249). -/
def youngestBlock (core : Core) : Option Nat :=
  let bs := core.blocks.filter fun b => core.threads.any fun t => t.block == b.1 && live t && (growSeq t).isSome
  let last := bs.foldl (fun n b => max n b.2.order) 0
  (minBy (fun b => last - b.2.order) bs.reverse).map (·.1)

/-- GROW_DEADLOCK_RULE. -/
def execGrowDeadlockRule (core : Nat) (s : State) : Host.Outcome State Fault Refusal :=
  let x := coreOf s.kern core
  match youngestBlock x with
  | some b =>
    if growDeadlock x then
      answer { s with kern := endGrow s.kern core (x.threads.filter fun t => t.block == b && (growSeq t).isSome) false }
    else answer s
  | none => answer s

/-! ## The object cache and the banks -/

/-- OBJECT_CACHE_MISS_FILL: the cache keeps 64 entries (R314). -/
def execObjectCacheMissFill (core ctx obj : Nat) (s : State) : Host.Outcome State Fault Refusal :=
  if (getObj s.kern ctx obj).isNone then answer s
  else
    let fill (p : Nat × Entry) : Nat × Entry :=
      if (entryWants s.kern core p).contains (ctx, obj) then (p.1, { p.2 with filled := (ctx, obj) :: p.2.filled }) else p
    answer { s with kern := modCore s.kern core fun x =>
      { x with ocache := ((ctx, obj) :: x.ocache.filter fun p => p != (ctx, obj)).take 64, entries := x.entries.map fill } }

/-- SCRATCHPAD_BANK_GATING: only a core that holds no block and no exchange region (R303). DESIGN CHOICE: log entry 54. -/
def execScratchpadBankGating (core : Nat) (s : State) : Host.Outcome State Fault Refusal :=
  let x := coreOf s.kern core
  if x.blocks.isEmpty && x.xr.isEmpty then
    answer { s with kern := modCore s.kern core fun x => { x with banksGated := true, banksWaking := false } }
  else answer s

/-- BANK_WAKE_COMPLETE. -/
def execBankWakeComplete (core : Nat) (s : State) : Host.Outcome State Fault Refusal :=
  answer { s with kern := modCore s.kern core fun x => { x with banksWaking := false } }

/-! ## The sampler (R253 to R255) -/

/-- Some thread of an entry has a wait that satisfies a test. -/
def someWait (ts : List Thread) (f : Wait → Bool) : Bool := ts.any fun t => f t.wait

/-- An instruction waits for an accumulator's version or commit. -/
def waitsAcc (s : State) (t : Thread) (i : Instr) : Bool :=
  match i with
  | .mx _ | .mxSet _ | .accz _ | .accld _ | .accst _ | .accstNow _ | .accmov _ _ | .accver _ =>
    !ownReady s.kern s.cur.core t i
  | _ => false

/-- An instruction waits for the truss. -/
def waitsTruss (s : State) (t : Thread) (i : Instr) : Bool :=
  match i with
  | .stest _ | .resid _ | .settle _ => !ownReady s.kern s.cur.core t i
  | .srd x => x.sr == 0x051 && !ownReady s.kern s.cur.core t i
  | .fwr _ => cellPending s.kern s.cur.core t
  | _ => cellPending s.kern s.cur.core t && !(usedFaces (usesOf 1 i).src).isEmpty

/-- An instruction waits for the orders that a fence or a release needs. -/
def waitsDrain (s : State) (t : Thread) (i : Instr) : Bool := wantsDrain i && !ownReady s.kern s.cur.core t i

/-- A read of FFLAGS waits for a result that joins flags (R44). -/
def waitsFlags (k : Kern) (c : Nat) (t : Thread) (i : Instr) : Bool :=
  match i with
  | .srd x => x.sr == 0x020 && !ruleReady k c t i
  | _ => false

/-- An indirect branch or a trap return waits for the line of its target (R50, R56). -/
def waitsTarget (k : Kern) (c : Nat) (t : Thread) (i : Instr) : Bool :=
  match i with
  | .jmpi _ | .calli _ | .ret _ | .tret _ => operandsReady k c t (threadUses k c t i) && !ruleReady k c t i
  | _ => false

/-- The state of a core of which only the copies in flight can hold an access back: its requests are performed and the thread's
objects cached. -/
def onlyCopies (k : Kern) (c : Nat) (t : Thread) (i : Instr) (copies : Bool) : Kern :=
  modCore k c fun core =>
    { core with reqs := [], wc := [], copies := if copies then core.copies else [],
                ocache := (usedObjs k c t i).map fun o => (ctxOf k c t, o) }

/-- The range scoreboard alone holds the instruction back (R184). -/
def waitsRange (k : Kern) (c : Nat) (t : Thread) (i : Instr) : Bool :=
  !ownReady (onlyCopies k c t i true) c t i && ownReady (onlyCopies k c t i false) c t i

/-- The state once the banks and ways of a core have woken (R303, R313). -/
def awake (s : State) (c : Nat) : State :=
  { s with kern := modCore s.kern c fun core => { core with banksWaking := false, waysWaking := none } }

/-- The instruction takes a request for each thread (R157). -/
def takesRequest : Instr → Bool
  | .ld _ | .st _ | .ldx _ _ | .stx _ _ | .atom _ _ | .red _ _ | .cas _ => true
  | _ => false

/-- REASON of an entry that has not issued in this cycle: the first that applies (R255), to either member of a couple. What only
waking banks or ways hold back reads 0x10. s0 has the entry in hand. -/
def stallReason (s0 : State) (x : Entry) : Nat :=
  let c := s0.cur.core
  let s := awake s0 c
  let k := s.kern
  let ts := actors s
  let is_ := frontInstrs k c x
  let some_ (f : Thread → Instr → Bool) : Bool := is_.any fun i => ts.any fun t => guardTrue t (guardOf i) && f t i
  if faceOf k c x == .unfetched || some_ (waitsTarget k c) then 0x01
  else if some_ fun t i => (usedFaces (usesOf 1 i).src).any fun d => !faceReady k c t d && !cellPending k c t then 0x02
  else if some_ fun t i => (match i with | .fwr _ => !writeReady k c t && !cellPending k c t | _ => false) then 0x03
  else if some_ (waitsTruss s) then 0x04
  else if someWait ts (fun w => match w with | .mxHeld _ => true | _ => false) || some_ (waitsAcc s) then 0x05
  else if someWait ts fun w => match w with | .sign _ | .mx _ _ _ => true | _ => false then 0x06
  else if someWait ts fun w => match w with | .meet _ _ => true | _ => false then 0x07
  else if someWait ts fun w => match w with | .bar _ _ | .barArrive _ | .released _ => true | _ => false then 0x08
  else if some_ fun t i => !operandsReady k c t (threadUses k c t i) || waitsFlags k c t i then 0x09
  else if someWait ts (fun w => match w with | .copy _ _ _ _ _ _ _ => true | _ => false) || some_ (waitsRange k c) then 0x0A
  else if some_ fun t i => takesRequest i && 1024 < outstanding (coreOf k c) + issuers (coreOf k c) t (guardOf i) then 0x0B
  else if some_ (waitsDrain s) then 0x0C
  else if someWait ts fun w => match w with | .tlwait _ _ _ => true | _ => false then 0x0D
  else if someWait ts fun w => match w with | .grow _ _ _ => true | _ => false then 0x0E
  else if someWait ts fun w => match w with | .yielding _ | .evwait _ _ _ _ => true | _ => false then 0x0F
  else if !entryReady s0 c s0.cur.entry x && entryReady s c s0.cur.entry x then 0x10
  else 0x11

/-- The sample record of an entry (R254). -/
def sampleRecord (s : State) (c e : Nat) (x : Entry) : List Byte :=
  let core := coreOf s.kern c
  let ts := entryThreads core e
  let low := (ts.head?.map (·.block)).getD 0
  let reason := if x.issued == core.cycle && !x.opened then 0 else stallReason (inHand s c e .single) x
  let couple := match faceOf s.kern c x with | .two _ _ => true | _ => false
  bytesOfNat 8 x.pc.toNat ++ bytesOfNat 4 core.cycle ++
    [BitVec.ofNat 8 reason, BitVec.ofNat 8 ts.length, BitVec.ofNat 8 (low * 16 + core.sampler.ctx),
      BitVec.ofNat 8 ((if ts.any (·.tstate) then 2 else 0) + if couple then 1 else 0)] ++
    bytesOfNat 8 (bitsOf (ts.map (·.lane))) ++
    [BitVec.ofNat 8 ((bandWord s c).toNat * 16 + (stepWord s c).toNat)] ++ List.replicate 7 0

/-- An entry holds threads of a context. -/
def holdsCtx (k : Kern) (c ctx e : Nat) : Bool := (entryThreads (coreOf k c) e).any fun t => ctxOf k c t == ctx

/-- The next entry of the owning context after the one sampled last (R253). -/
def nextSampled (k : Kern) (c : Nat) (sm : Sampler) : Option (Nat × Entry) :=
  let es := (coreOf k c).entries.filter fun p => holdsCtx k c sm.ctx p.1
  match es.find? fun p => sm.last < p.1 with
  | some p => some p
  | none => es.head?

/-- Write a sample record and WIDX; none on a fault of the buffer. DEDUCED: log entry 35. -/
def writeSample (k : Kern) (ctx cap : Nat) (rec_ : List Byte) : Option Kern :=
  match readCap k ctx cap 64 needWrite with
  | none => none
  | some h =>
    let widx := fieldOf h 0 8
    let off := capOff cap + 64 + 32 * (widx % 2 ^ fieldOf h 8 4)
    if !goodBuffer h then none
    else
      match checkObj k ctx cap off 32 1 needWrite with
      | .error _ => none
      | .ok ea =>
        if (readObj k ctx (capObj cap) ea 32).isNone then none
        else some (writeObj (writeObj k ctx (capObj cap) ea rec_) ctx (capObj cap) (capOff cap) (bytesOfNat 8 (widx + 1)))

/-- SAMPLER_TICK. -/
def execSamplerTick (core : Nat) (s : State) : Host.Outcome State Fault Refusal :=
  let x := coreOf s.kern core
  let sm := x.sampler
  if !sm.running || x.cycle < sm.lastCycle + 2 ^ sm.e then answer s
  else
    let sm := { sm with lastCycle := sm.lastCycle + 2 ^ sm.e }
    let put (k : Kern) (sm : Sampler) : Host.Outcome State Fault Refusal :=
      answer { s with kern := modCore k core fun x => { x with sampler := sm } }
    match nextSampled s.kern core sm with
    | none => put s.kern sm
    | some (e, y) =>
      match writeSample s.kern sm.ctx sm.buf.toNat (sampleRecord s core e y) with
      | some k => put k { sm with last := e }
      | none => put s.kern { sm with running := false }

end Sys2Proof.Machine
end

