-- ==== Sys2Proof/Machine/EventsMem.lean ====
section
/-! DEFINITION. Events of the memory side: replies (06 R157, R199, R392), parks and placement (09 R274; 17 R366, R441), the
write-combining buffer (R154), remote requests at their home (R392), copies (R177 to R185), and bed loads (07 R207). -/

namespace Sys2Proof.Machine

/-! ## Replies -/

/-- A request ends: its answer goes to its registers (R57, R158). -/
def finishReq (k : Kern) (c : Nat) (q : Req) (bs : List Byte) : Kern :=
  let k := dropReq k c q.id
  match q.held, getThread k c q.tslot q.lane with
  | some h, some t => arriveHeld k c t h (answerWords q.ty q.size bs) 0
  | _, _ => k

/-- A request ends without an answer: nothing is held for it any more (R152). -/
def voidReq (k : Kern) (c : Nat) (q : Req) : Kern :=
  let k := dropReq k c q.id
  modThread k c q.tslot q.lane fun u => { u with held := u.held.filter fun h => some h.id != q.held }

/-- A request traps its thread at its instruction (R152). -/
def failReq (k : Kern) (c : Nat) (q : Req) (cause fault : Nat) : Kern :=
  match getThread k c q.tslot q.lane with
  | none => dropReq k c q.id
  | some t =>
    if !live t || t.loc == .down then voidReq k c q
    else
      match withdrawWait k c t with
      | none => k
      | some (k, _) =>
        let k := modThis (voidReq k c q) c t fun u => { u with wait := .none }
        takeTrap k c t cause 0 q.pc (BitVec.ofNat 64 fault) false

/-- Windows stand as they were before an issue that does not count (R272). -/
def uncountIssue (t : Thread) : Thread :=
  { t with held := t.held.map fun h => if 0 < h.window then { h with window := h.window + 1 } else h }

/-- The thread of a request parks at its instruction (R365), whose issue counts in no window (R272). -/
def parkReq (k : Kern) (c : Nat) (q : Req) (faddr sub : Nat) : Kern :=
  match getThread k c q.tslot q.lane with
  | none => dropReq k c q.id
  | some t =>
    let k := modThis (voidReq k c q) c t uncountIssue
    tidyPending (sweepEntries (parkThread k c t q.pc faddr sub) c) c

/-- Some units lose their poison while a function acts, and have it again afterwards: the poison struck later than the act. -/
def beforePoison {α : Type} (k : Kern) (hs : List (Nat × Poison)) (f : Kern → Kern × α) : Kern × α :=
  let r := f { k with poison := k.poison.filter fun p => !hs.any fun h => h.1 == p.1 }
  (hs.foldl (fun k h => { k with poison := mset k.poison h.1 h.2 }) r.1, r.2)

/-- The poisoned units that runs meet, by their bases. -/
def poisonUnits (k : Kern) (rs : List (Nat × Nat)) : List (Nat × Poison) :=
  k.poison.filter fun p => rs.any fun r => p.1 < r.1 + r.2 && r.1 < p.1 + unitSize p.1

/-- A request is performed (R152). Poison that a firm request meets struck after its check, and after the access.
DEDUCED: log entry 39. -/
def performSettled (k : Kern) (c cls : Nat) (q : Req) (rs : List (Nat × Nat)) : Kern × Except (Nat × Poison) (List Byte) :=
  if q.firm && cls != 2 then beforePoison k (poisonUnits k rs) fun k => performReq k c cls q rs
  else performReq k c cls q rs

/-- A load's line would fill a way that is waking: it stalls (R313). -/
def stallsFill (k : Kern) (c : Nat) (q : Req) : Bool :=
  q.kind == .load && !q.na && !(q.acq && wideScope q.sc) && !answersFromCache k c q && ((getObj k q.ctx (capObj q.cap.toNat)).map (·.home)) == some .hbm &&
    needsWaking (coreOf k c) q.ctx (capObj q.cap.toNat) (q.ea / 64)

/-- A request at its local home is performed and answered, where the orders and the port let it; one whose frame is not placed
parks its thread. -/
def localReply (k : Kern) (c id : Nat) : Kern :=
  let k := openPort k c
  match (coreOf k c).reqs.find? fun q => q.id == id with
  | none => k
  | some q =>
    if !mayPerform (coreOf k c) q || !(q.paid || answersFromCache k c q) || stallsFill k c q then k
    else
      match reqRuns k q with
      | .error e => parkReq k c q e.1 e.2
      | .ok rs =>
        let cls := serialClass k q.serial
        match performSettled k c cls q rs with
        | (k, .error h) => failReq k c q (poisonCause cls h.2) (capForm q.cap.toNat (q.ea + h.1))
        | (k, .ok bs) => finishReq k c q bs

/-- The request that a reply packet answers. -/
def replyFor (c id : Nat) : Payload → Bool
  | .reply r d _ _ _ | .notPlaced r d _ | .unsupported r d | .poisoned r d _ _ _ => r == id && d == c
  | _ => false

/-- The fault word of remote unsupported (R237). -/
def unsupportedWord (q : Req) : Nat :=
  let opc := match q.kind with | .cas => 0x56 | .claim => 0x65 | _ => if q.held.isSome then 0x54 else 0x55
  let fn := match q.kind with | .atom op => atomOpCode op | _ => 0
  q.remote.getD 0 + (tyCode q.ty * 2 ^ 16 + opc * 2 ^ 8 + fn) * 2 ^ 32

/-- Poison that a remote request met: charged; a trap, before what its charge delivers (R426), or all ones in an N kernel (R152,
R425, R429). DEDUCED: log entry 50. -/
def remotePoison (k : Kern) (c : Nat) (q : Req) (kind : Poison) (units : Nat) : Kern :=
  let cls := serialClass k q.serial
  if cls == 2 then
    finishReq (countPoison (charge k q.ctx units) q.ctx 1) c q
      (if q.kind == .load || q.held.isSome then List.replicate q.size 0xFF else [])
  else failReq (chargeLate k q.ctx units) c q (poisonCause cls kind) (capForm q.cap.toNat q.ea)

/-- A claim of a slot at the queue's home is answered with the header (R188): one that R186 refuses traps, another gives its slot
to the engine and its number to the thread. -/
def endClaim (k : Kern) (c : Nat) (q : Req) (hb : List Byte) : Kern :=
  let queue := capForm q.cap.toNat q.ea
  if badHeader hb then failReq k c q 0x05 queue
  else
    let w := fieldOf hb 8 8
    finishReq (queueSlot k c q.ctx queue w (fieldOf hb 16 4) (bytesOfNat 64 q.data)) c q (bytesOfNat 8 w)

/-- What a reply does at the requester. -/
def remoteReply (k : Kern) (c : Nat) (q : Req) : Payload → Kern
  | .reply _ _ v met units =>
    let k := charge (if met == 0 then k else countPoison k q.ctx met) q.ctx units
    let k := if q.acq && wideScope q.sc then dropLines k c else k
    if q.kind == .claim then endClaim k c q (bytesOfNat 64 v) else finishReq k c q (bytesOfNat q.size v)
  | .notPlaced _ _ sub => parkReq k c q (capForm q.cap.toNat q.ea) sub
  | .unsupported _ _ => failReq k c q 0x0D (unsupportedWord q)
  | .poisoned _ _ kind _ units => remotePoison k c q kind units
  | _ => k

/-- ACCESS_REPLY. DEDUCED: log entry 15. -/
def execAccessReply (core req : Nat) (s : State) : Host.Outcome State Fault Refusal :=
  match (coreOf s.kern core).reqs.find? fun q => q.id == req with
  | none => answer s
  | some q =>
    if q.remote.isNone then answer { s with kern := localReply s.kern core q.id }
    else
      match s.fab.arrived.find? fun p => replyFor core req p.load with
      | none => answer s
      | some p =>
        answer { s with kern := remoteReply s.kern core q p.load,
                        fab := { s.fab with arrived := s.fab.arrived.filter fun x => x.id != p.id } }

/-! ## Parks (R274, R367) -/

/-- The address of a park, or of a unit's wait, can now be translated. -/
def resolved (k : Kern) (ctx faddr : Nat) : Bool :=
  match translate k ctx (capObj faddr) (capOff faddr) with
  | .ok _ => true
  | .error _ => false

/-- The records that one service ends together: those of one address at one program counter (R200, R366). -/
def servedTogether (p : Park) (q : Park) : Bool := q.ctx == p.ctx && q.faddr == p.faddr && q.sub == p.sub && q.pc == p.pc

/-- The threads of records go on at their instructions, placed in one cycle (R274). -/
def resumeParks (k : Kern) (c : Nat) (ps : List Park) : Kern :=
  let k := ps.foldl (fun k p => freeRecord k c p.id) k
  let ts := ps.filterMap fun p => getThread k c p.tslot p.lane
  moveThreads k c ((ts.filter fun t => t.loc == .parked).map fun t => moverOf k c t t.pc.toNat)

/-- The threads of declined records trap, and are placed in one cycle (R274, R237, R264). -/
def declineParks (k : Kern) (c : Nat) (ps : List Park) : Kern :=
  takeAll (ps.foldl (fun k p => freeRecord k c p.id) k) c
    (ps.filterMap fun p => (getThread k c p.tslot p.lane).map fun t =>
      { thread := t, cause := 0x06, sub := p.sub, pc := p.pc, fault := p.faddr, async := false })

/-- Records of a core are handed to the host (R367). -/
def handParks (k : Kern) (c : Nat) (ids : List Nat) : Kern :=
  modCore k c fun core => { core with parks := core.parks.map fun p => if ids.contains p.id then { p with handed := true } else p }

/-- Firmware may decline: a frame it does not place, or an object that is gone (R367). A record of an object that is not
present is the host's to end. -/
def mayDecline (k : Kern) (ctx faddr sub : Nat) : Bool := sub == 1 || (getObj k ctx (capObj faddr)).isNone

/-- PARK_SERVICE_COMPLETE. Frame firmware hands a record of an object that is not present to the host, whose PARKDONE ends it
(R367). -/
def execParkServiceComplete (core park : Nat) (declined : Bool) (s : State) : Host.Outcome State Fault Refusal :=
  let ps := (coreOf s.kern core).parks
  match ps.find? fun p => p.id == park with
  | none => answer s
  | some p =>
    let mine := ps.filter (servedTogether p)
    if declined then
      if mayDecline s.kern p.ctx p.faddr.toNat p.sub then answer { s with kern := declineParks s.kern core mine } else answer s
    else if p.sub == 0 then
      let mine := mine.filter fun q => !q.handed
      answer (mine.foldl (fun s q => notify_ s 0x80 p.ctx q.id) { s with kern := handParks s.kern core (mine.map (·.id)) })
    else if resolved s.kern p.ctx p.faddr.toNat then answer { s with kern := resumeParks s.kern core mine }
    else answer s

/-! ## First touch (R366) -/

/-- The first number from a that is not bad, of n. -/
def firstGood (bad : Nat → Bool) (a : Nat) : Nat → Option Nat
  | 0 => none
  | n + 1 => if bad a then firstGood bad (a + 1) n else some a

/-- A frame cannot be placed: it is named or retired, or an HBM frame of another class. -/
def frameBad (k : Kern) (vault : Bool) (cls : MemClass) (frame : Nat) : Bool :=
  frameNamed k vault frame || ((mget k.frames (frameKey vault frame)).map (·.retired)) == some true ||
    (!vault && frameClass k frame != cls)

/-- The spans of frames in the order of R366, for a touching core: the first frame of each and their number. -/
def touchOrder (vault : Bool) (core : Nat) : List (Nat × Nat) :=
  let die := core / 64
  let dies := die :: (List.range 4).filter (· != die)
  if vault then
    (core * 128, 128) :: (dies.flatMap fun d => (List.range 64).map fun i => ((d * 64 + i) * 128, 128)).filter
      fun r => r.1 != core * 128
  else dies.map fun d => (d * 65536, 65536)

/-- The frame of a first touch. -/
def firstFrame (k : Kern) (vault : Bool) (cls : MemClass) (core : Nat) : Option Nat :=
  (touchOrder vault core).findSome? fun r => firstGood (frameBad k vault cls) r.1 r.2

/-- The address lies in extent ext of an object. -/
def inExtent (e : ObjEntry) (obj ext faddr : Nat) : Bool := capObj faddr == obj && capOff faddr / frameBytes e == ext

/-- The waits on an unplaced extent: the number of each, and the core that touched, where the rule names one.
DESIGN CHOICE: log entry 49. -/
def touches (k : Kern) (ctx obj ext : Nat) (e : ObjEntry) : List (Nat × Option Nat) :=
  (k.cores.flatMap fun p => (p.2.parks.filter fun q => q.ctx == ctx && q.sub == 1 && inExtent e obj ext q.faddr.toNat).map
    fun q => (q.id, some p.1)) ++
    ((k.units.filter fun w => w.ctx == ctx && w.sub == 1 && inExtent e obj ext w.faddr.toNat).map fun w =>
      (w.id, if w.kind == unitNumber .remote then none else some w.core))

/-- Place a frame (R365, R366): its counts begin again (R431). DESIGN CHOICE: log entry 51. -/
def placeFrame (k : Kern) (x : Nat) (vault : Bool) (cls : MemClass) (frame : Nat) : Kern :=
  { k with extents := mset k.extents x (BitVec.ofNat 64 (2 ^ 62 + (if vault then 2 ^ 60 else 0) + frame)),
           frames := mset k.frames (frameKey vault frame)
             (FrameInfo.fresh (if vault then .p else cls) k.usec) }

/-- FIRST_TOUCH_PLACEMENT: the earliest touch of the extent decides the core. -/
def execFirstTouchPlacement (ctx obj ext core : Nat) (s : State) : Host.Outcome State Fault Refusal :=
  let k := s.kern
  match getObj k ctx obj with
  | none => answer s
  | some e =>
    let x := e.ext + ext
    let unplaced := ((mget k.extents x).getD 0).toNat / 2 ^ 62 == 0
    match minBy (fun t => t.1) (touches k ctx obj ext e) with
    | none => answer s
    | some t =>
      if !unplaced || !e.present || e.home == .remote || (t.2.isSome && t.2 != some core) then answer s
      else
        match firstFrame k (e.home == .vault) e.cls core with
        | none => answer s
        | some f => answer { s with kern := placeFrame k x (e.home == .vault) e.cls f }

/-! ## The write-combining buffer (R154) -/

/-- WC_AGEING_EXPIRY. -/
def execWcAgeingExpiry (core wc : Nat) (s : State) : Host.Outcome State Fault Refusal :=
  answer { s with kern := drainWhere s.kern core fun e => e.id == wc && e.opened + e.limit ≤ s.kern.net }

/-- The packet answers a drained entry. -/
def drainAnswer (c wc : Nat) : Payload → Bool
  | .drained d w => d == c && w == wc
  | _ => false

/-- WC_DRAIN_PERFORMED. -/
def execWcDrainPerformed (core wc : Nat) (s : State) : Host.Outcome State Fault Refusal :=
  match s.fab.arrived.find? fun p => drainAnswer core wc p.load with
  | none => answer s
  | some p =>
    answer { s with
      kern := modCore s.kern core fun x => { x with wc := x.wc.filter fun e => e.id != wc },
      fab := { s.fab with arrived := s.fab.arrived.filter fun x => x.id != p.id } }

/-! ## Remote requests at their home (R392) -/

/-- A context of this device whose table holds an object that is at home here. -/
def homeContext (k : Kern) (obj : Nat) : Option Nat :=
  (k.ctxs.find? fun p => match mget p.2.objs obj with | some e => e.home != .remote | none => false).map fun p => p.1

/-- Runs of consecutive offsets of a byte map: where each starts, and its bytes. -/
def maskRuns : FMap Byte → List (Nat × List Byte)
  | [] => []
  | (i, b) :: m =>
    match maskRuns m with
    | (j, bs) :: rs => if j == i + 1 then (i, b :: bs) :: rs else (i, [b]) :: (j, bs) :: rs
    | [] => [(i, [b])]

/-- The bytes of a drained entry are written together (R391). -/
def writeMasked (k : Kern) (a : Nat) (m : FMap Byte) : Kern := (maskRuns m).foldl (fun k r => putBytes k (a + r.1) r.2) k

/-- A claim at the queue's home adds 1 to WRX, unless the header is one that R186 refuses; the queue is known there (R188, R190). -/
def serveClaim (k : Kern) (ctx cap : Nat) (rs : List (Nat × Nat)) (hb : List Byte) : Kern :=
  if badHeader hb then k
  else registerQueue (putBytes k (addrAt rs 8) (bytesOfNat 8 (fieldOf hb 8 8 + 1))) ctx cap

/-- A remote read, with what it writes (R161, R162, R188): its value, the poisoned units that it met, and the charge. -/
def servePerformed (k : Kern) (ctx cap req c : Nat) (kind : ReqKind) (ty : Ty) (data cmp : Nat) (rs : List (Nat × Nat))
    (met units : Nat) : Kern × Payload :=
  let old := natOfBytes (onesWherePoison k rs)
  let r : Payload := .reply req c old met units
  if kind == .claim then (serveClaim k ctx cap rs (bytesOfNat 64 old), r)
  else
    match rs, writeOf kind ty old data cmp with
    | [a], some x => (putBytes (refreshRuns k rs) a.1 (bytesOfNat a.2 x), r)
    | _, _ => (k, r)

/-- A remote access performed at its runs: the state and the reply's contents, with what it met. The requester is charged, not a
context of this device (R425). -/
def serveAccess (k : Kern) (ctx cap req c : Nat) (kind : ReqKind) (ty : Ty) (data cmp size cls : Nat) (rs : List (Nat × Nat)) :
    Kern × Payload :=
  let hs := poisonHits k rs
  let units := poisonCharge hs + softHits k rs
  let k' := countMended k (softAt k rs)
  match kind, hs with
  | .store, _ => (putRuns k rs (bytesOfNat size data), .reply req c 0 0 0)
  | _, h :: _ =>
    if cls != 2 then (k', .poisoned req c h.2 hs.length units)
    else servePerformed k' ctx cap req c kind ty data cmp rs hs.length units
  | _, [] => servePerformed k' ctx cap req c kind ty data cmp rs 0 units

/-- What a request packet does at its home: the state and the reply; a drain whose line is not placed waits. -/
def serveRemote (k : Kern) (p : FabPacket) : Kern × Option Payload :=
  match p.load with
  | .access req c obj ea size kind ty data cmp _ cls =>
    match homeContext k obj with
    | none => (k, some (.notPlaced req c 0))
    | some ctx =>
      match objRuns k ctx obj ea size with
      | .error e => (waitFor k .remote p.src p.id ctx (capForm (obj * 2 ^ 40) e.1) e.2, some (.notPlaced req c e.2))
      | .ok rs =>
        let r := serveAccess k ctx (capForm (obj * 2 ^ 40) ea) req c kind ty data cmp size cls rs
        (r.1, some r.2)
  | .drain c wc obj line bytes =>
    match homeContext k obj with
    | none => (k, none)
    | some ctx =>
      match objRuns k ctx obj (64 * line) 64 with
      | .ok ((a, _) :: _) => (writeMasked k a bytes, some (.drained c wc))
      | .ok [] => (k, none)
      | .error e => (waitFor k .remote p.src p.id ctx (capForm (obj * 2 ^ 40) e.1) e.2, none)
  | _ => (k, none)

/-- The object and the offset that a request packet names. -/
def requestPlace : Payload → Option (Nat × Nat)
  | .access _ _ obj ea _ _ _ _ _ _ _ => some (obj, ea)
  | .drain _ _ obj line _ => some (obj, 64 * line)
  | _ => none

/-- The device on which firmware has placed the extent that a request needs, where that is another (R388). -/
def forwardTo (s : State) (load : Payload) : Option Nat :=
  (requestPlace load).bind fun p =>
    (homeContext s.kern p.1).bind fun ctx =>
      (getObj s.kern ctx p.1).bind fun e => mget s.fab.moved (e.ext + p.2 / frameBytes e)

/-- The request as the home sends it on, under a number of its own. -/
def forwardLoad (id : Nat) : Payload → Payload
  | .access _ _ obj ea size kind ty data cmp rel cls => .access id forwardCore obj ea size kind ty data cmp rel cls
  | .drain _ _ obj line bytes => .drain forwardCore id obj line bytes
  | x => x

/-- A request arrived: the answer to it, or its packet sent on, takes it from the port. -/
def takeArrived (s : State) (id : Nat) : State :=
  { s with fab := { s.fab with arrived := s.fab.arrived.filter fun x => x.id != id } }

/-- A request is sent on (R388, R389): the home remembers whom it answers. -/
def forwardRequest (s : State) (p : FabPacket) (dst : Nat) : State :=
  let id := s.kern.id
  let s := { s with kern := { s.kern with id := id + 1 }, fab := { s.fab with forwarded := s.fab.forwarded ++ [(id, p)] } }
  sendPacket (takeArrived s p.id) dst p.lane .forward (forwardLoad id p.load)

/-- A request or forwarded request is the first of its stream at the port (R334). -/
def firstArrived (f : Fabric) (p : FabPacket) : Bool :=
  ((f.arrived.find? fun x => x.src == p.src && x.lane == p.lane && x.cls == p.cls).map (·.id)) == some p.id

/-- REMOTE_REQUEST: those of one source and lane are performed in order (R334); one for an extent that another device holds is sent
on. -/
def execRemoteRequest (req : Nat) (s : State) : Host.Outcome State Fault Refusal :=
  match s.fab.arrived.find? fun p => p.id == req && (p.cls == .request || p.cls == .forward) with
  | none => answer s
  | some p =>
    if !firstArrived s.fab p then answer s
    else
      match if p.cls == .request then forwardTo s p.load else none with
      | some d => answer (forwardRequest s p d)
      | none =>
        match serveRemote s.kern p with
        | (k, none) => answer { s with kern := k }
        | (k, some r) => answer (sendPacket (takeArrived { s with kern := k } p.id) p.src p.lane .reply r)

/-! ## Copies (R177, R183) -/

/-- The threads that wait for acceptance and stand first in their entry. -/
def copyWaiters (core : Core) : List Thread :=
  let waits (t : Thread) : Bool := match t.wait with | .copy _ _ _ _ _ _ _ => true | _ => false
  core.threads.filter fun t => waits t && core.threads.all fun u => !(waits u && u.loc == t.loc && u.lane < t.lane)

/-- A waiting thread's copy is checked anew and accepted, or its check traps; none where there is no room, or while the bank of the
predicate word wakes (R303). -/
def acceptWaiting (k : Kern) (c : Nat) (t : Thread) : Option Kern :=
  match t.wait, blockOf k c t.block with
  | .copy x src _ d0 d1 d2 d3, some blk =>
    if (descOf d0 d1 d2 d3).mode == 3 && (coreOf k c).banksWaking then none
    else
    match checkCopy k c t blk x.sp src (descOf d0 d1 d2 d3) with
    | .error e => some (takeTrap (modThis k c t fun u => { u with wait := .none }) c t e.1 0 t.pc (BitVec.ofNat 64 e.2) false)
    | .ok w =>
      if copyRoom (coreOf k c) (w.srcR.length + w.dstR.length) then
        some (endWaits (acceptCopy k c t x src [d0, d1, d2, d3] t.pc w) c [t])
      else none
  | _, _ => none

/-- COPY_ACCEPT. -/
def execCopyAccept (core : Nat) (s : State) : Host.Outcome State Fault Refusal :=
  match (copyWaiters (coreOf s.kern core)).findSome? (acceptWaiting s.kern core) with
  | some k => answer { s with kern := k }
  | none => answer s

/-- The plane of a side of a copy. -/
def planeAt (c : Nat) (j : CopyJob) (sp : Space) (cap : Nat) : Plane :=
  match sp with
  | .ob => .ob j.ctx cap
  | .sp => .pad c j.block j.row
  | .xr => .region c j.launch

/-- The destination space of a descriptor. -/
def dstSpace (d : Desc) : Space := if d.dsp == 1 then .ob else if d.dsp == 2 then .xr else .sp

/-- The ranges of a copy in objects pass R151 as the table stands when the copy runs: a copy that waited for service finds a change
of its object's entry there (R315, R441); the cause where one fails. -/
def copyStill (k : Kern) (j : CopyJob) : Option Nat :=
  let ps := copyParts (descOf j.d0 j.d1 j.d2 j.d3) j.srcSpace j.src
  (ps.1 ++ ps.2).findSome? fun p =>
    if p.space == .ob then
      match checkObj k j.ctx p.base (((capOff p.base : Nat) : Int) + p.lo).toNat (p.hi - p.lo).toNat p.algn p.need with
      | .error e => some e.1
      | .ok _ => none
    else none

/-- The transfer of an accepted copy. DESIGN CHOICE: log entry 20. -/
def runCopy (k : Kern) (c : Nat) (j : CopyJob) : Ran :=
  let d := descOf j.d0 j.d1 j.d2 j.d3
  let cls := ((mget k.launches j.launch).map recClass).getD 0
  let dcap := descCap d
  let src := planeAt c j j.srcSpace j.src
  let soff := if j.srcSpace == .ob then capOff j.src else j.src
  let dst := planeAt c j (dstSpace d) dcap
  let doff := if d.dsp == 1 then capOff dcap else d.d0
  match copyStill k j, d.mode with
  | some cause, _ => .done k (statusWord cause 0 0)
  | none, 0 | none, 1 => runMove k j.ctx src dst soff doff (moveRows d.mode d.prm d.aux)
  | none, 2 => runSparse k j.ctx cls src soff dst d.d0 d.d1 d.prm (.pad c j.block j.row) d.aux d.esz
  | none, 3 => runChain j.ctx cls dst doff d.prm j.pred.toNat 65536 k j.src soff 0
  | none, _ =>
    if remoteObj k j.ctx j.src then .done k (statusWord 0x0D 0 0)
    else runGrain j.ctx cls j.src soff d.aux dst doff d.prm k 0

/-- A copy retires (R183, R185, R380): its status word goes to its register, or its failure to the log where its thread has
exited. The core's cached lines of an object that it wrote go. -/
def retireCopy (k : Kern) (c : Nat) (j : CopyJob) (status : Nat) : Kern :=
  let k := modCore (doneWaiting k .copy c j.id) c fun core => { core with copies := core.copies.filter fun x => x.id != j.id }
  let d := descOf j.d0 j.d1 j.d2 j.d3
  let k := if d.dsp == 1 then
      modCore k c fun core =>
        { core with lcache := core.lcache.filter fun l => !(l.ctx == j.ctx && l.obj == capObj (descCap d)) }
    else k
  match j.held, getThread k c j.tslot j.lane with
  | some h, some t => arriveHeld k c t h [BitVec.ofNat 32 status] 0
  | _, _ =>
    if status != 0 && j.orphan && !j.silent then
      logRecord k j.ctx 2 j.launch (cycleOf k c)
        (bytesOfNat 4 status ++ List.replicate 4 0 ++ bytesOfNat 8 j.pc.toNat ++ [BitVec.ofNat 8 (c % 64), BitVec.ofNat 8 (c / 64)])
    else k

/-- The copy may read (R177): the earlier accesses of its thread have been performed, and the drains that it comes after; the
banks that it uses are awake (R303). -/
def copyReady (core : Core) (j : CopyJob) : Bool :=
  let d := descOf j.d0 j.d1 j.d2 j.d3
  (core.reqs.all fun q => q.tslot != j.tslot || q.lane != j.lane || j.id < q.id) &&
    (core.wc.all fun e => j.id < e.id || !copyDrains j.ctx d.mode (capObj j.src) j.srcSpace (j.tslot * 64 + j.lane) e) &&
    (!core.banksWaking || (j.srcSpace == .ob && dstSpace d == .ob))

/-- Change an accepted copy. -/
def modCopy (k : Kern) (c id : Nat) (f : CopyJob → CopyJob) : Kern :=
  modCore k c fun core => { core with copies := core.copies.map fun j => if j.id == id then f j else j }

/-- A copy has moved its bytes: it retires once what it wrote on another device has been performed there, and fails where that
device could not be reached or does not implement the write (R393, R397). -/
def settleCopy (k : Kern) (c : Nat) (j : CopyJob) (status : Nat) : Kern :=
  let u := jobUnit j.id
  if farWrites k u then modCopy (offUnit k) c j.id fun j => { j with fail := some (BitVec.ofNat 32 status) }
  else retireCopy (endUnit k u) c j ((writeFailure k u).getD status)

/-- The tokens of a transfer of an engine of a core: it commits once it has them, else it takes what the bucket holds (R371). -/
def paidUnit (k0 k : Kern) (c ctx paid : Nat) (commit : Kern → Kern) (keep : Kern → Nat → Kern) : Kern :=
  if k.spent ≤ paid then commit k
  else
    let r := payUnit k0 c ctx k.spent paid
    if k.spent ≤ r.2 then
      commit (modCore k c fun core => { core with buckets := (coreOf r.1 c).buckets })
    else keep r.1 r.2

/-- The end of a run for a copy. -/
def endCopy (c : Nat) (j : CopyJob) (k0 : Kern) (r : Ran) : Kern :=
  let u := jobUnit j.id
  let keep (k : Kern) (n : Nat) : Kern := modCopy k c j.id fun j => { j with paid := n }
  match r with
  | .done k status => paidUnit k0 k c j.ctx j.paid (fun k => settleCopy k c j status) keep
  | .wait _ _ faddr sub => waitFor (offUnit (askAgain (asUnit k0 u))) .copy c j.id j.ctx faddr sub
  | .far ctx obj off n => offUnit (askLines (asUnit k0 u) ctx obj off n)
  | .malformed k sub done tile block =>
    paidUnit k0 k c j.ctx j.paid (fun k =>
      let k := grainLog k j.ctx j.launch block tile sub 0 (c % 64) (c / 64) j.pc.toNat (cycleOf k c)
      settleCopy k c j (statusWord 0x0E sub done)) keep

/-- COPY_RETIRE. -/
def execCopyRetire (core slot : Nat) (s : State) : Host.Outcome State Fault Refusal :=
  let x := coreOf s.kern core
  match x.copies.find? fun j => j.id == slot with
  | none => answer s
  | some j =>
    if !copyReady x j then answer s
    else
      match j.fail with
      | some st =>
        if farWrites s.kern (jobUnit j.id) then answer s else answer { s with kern := settleCopy s.kern core j st.toNat }
      | none => answer { s with kern := endCopy core j s.kern (runCopy (asUnit s.kern (jobUnit j.id)) core j) }

/-! ## Bed loads (R207) -/

/-- Every macro of a job's range fails (R207). -/
def failBed (k : Kern) (c : Nat) (j : BedJob) (cause sub : Nat) : Kern :=
  modBeds k c j.block j.bdb (j.bdn + 1) fun _ _ => { Bed.clear with load := .failed cause sub }

/-- A bed load ends: its job goes, and its status word goes to its register (R182). -/
def retireBed (k : Kern) (c : Nat) (j : BedJob) (status : Nat) : Kern :=
  let k := modCore (doneWaiting k .bed c j.id) c fun core => { core with bedJobs := core.bedJobs.filter fun x => x.id != j.id }
  match j.held, getThread k c j.tslot j.lane with
  | some h, some t => arriveHeld k c t h [BitVec.ofNat 32 status] 0
  | _, _ => k

/-- A failed bed load. -/
def stopBed (k : Kern) (c : Nat) (j : BedJob) (cause sub : Nat) : Kern :=
  retireBed (failBed k c j cause sub) c j (statusWord cause sub 0)

/-- A first index entry that breaks R151 was checked when the load was accepted: the object's entry has changed since (R207). -/
def firstEntry (i : Nat) : TileStop → TileStop
  | .stop (.fail cause sub) => .stop (.fail (if i == 0 && cause == 0x04 then 0x05 else cause) sub)
  | e => e

/-- The last n tiles of a grain stream of m, whose first index entry stands at an offset; an error names its tile (R319). -/
def grainStream (ctx cls cap entry m : Nat) : Nat → Kern → Kern × Except (TileStop × Nat) (List Byte)
  | 0, k => (k, .ok [])
  | n + 1, k =>
    let i := m - (n + 1)
    match expandTile k ctx cls cap (entry + 4 * i) with
    | (k, .error e) => (k, .error (firstEntry i e, i))
    | (k, .ok tile) =>
      match grainStream ctx cls cap entry m n k with
      | (k, .error e) => (k, .error e)
      | (k, .ok rest) => (k, .ok (tile ++ rest))

/-- The stream of a plain bed load: R151 is checked anew, and fails with CAUSE 0x05 where the object's entry has been removed or
changed since the load was accepted (R207, R315). -/
def plainStream (k : Kern) (c cls : Nat) (blk : Block) (j : BedJob) (size e : Nat) : Kern × Except Stop (List Byte) :=
  match placeSpot k c blk j.src.toNat size e 8 with
  | .error _ => (k, .error (.fail 0x05 0))
  | .ok p =>
    interpret k j.ctx cls (if p.space == .ob then .ob j.ctx p.cap else .pad c j.block blk.baseRow) p.ea size

/-- The bytes of a bed load's stream, or why it stops. -/
def bedStream (k : Kern) (c : Nat) (blk : Block) (l : Launch) (j : BedJob) : Kern × Except (TileStop × Nat) (List Byte) :=
  let slot := recFs l j.fsi
  let h := shapeOf l slot (j.bdn + 1)
  let n := ceilDiv (streamBytes slot h) 1024
  if j.grain then grainStream j.ctx (recClass l) j.src.toNat (capOff j.src.toNat) n n k
  else
    match plainStream k c (recClass l) blk j (streamBytes slot h) (elementBytes (fsFmt slot)) with
    | (k, .ok bs) => (k, .ok bs)
    | (k, .error e) => (k, .error (.stop e, 0))

/-- What a bed load comes to once its stream has been read or has stopped. An object that is on another device now has
changed since (R207, R315). -/
def landBed (k : Kern) (c : Nat) (blk : Block) (l : Launch) (j : BedJob) : Except (TileStop × Nat) (List Byte) → Kern
  | .ok bs =>
    let slot := recFs l j.fsi
    retireBed (loadBeds k c j.block j.bdb (j.bdn + 1) slot (shapeOf l slot (j.bdn + 1)) bs) c j 0
  | .error (.stop (.fail cause sub), _) => stopBed k c j cause sub
  | .error (.stop (.wait faddr sub), _) => waitFor k .bed c j.id j.ctx faddr sub
  | .error (.stop (.far _ _ _ _), _) => stopBed k c j 0x05 0
  | .error (.grain sub block, tile) =>
    stopBed (grainLog k j.ctx blk.launch block tile sub 1 (c % 64) (c / 64) j.pc.toNat (cycleOf k c)) c j 0x0E sub

/-- The stream waits for service. -/
def bedWaits : Except (TileStop × Nat) (List Byte) → Bool
  | .error (.stop (.wait _ _), _) => true
  | _ => false

/-- A bed load runs; one that waits for service has read nothing yet. -/
def runBed (k0 : Kern) (c : Nat) (j : BedJob) : Kern :=
  match (blockOf k0 c j.block).bind fun blk => (launchOf k0 blk).map fun l => (blk, l) with
  | none => k0
  | some (blk, l) =>
    match bedStream { k0 with spent := 0 } c blk l j with
    | (k, r) =>
      if bedWaits r then landBed k0 c blk l j r
      else paidUnit k0 k c j.ctx j.paid (fun k => landBed { k with spent := 0 } c blk l j r) fun k n =>
        modCore k c fun core => { core with bedJobs := core.bedJobs.map fun x => if x.id == j.id then { x with paid := n } else x }

/-- A bed load may read: its thread's earlier accesses have been performed (R207), and the banks that it reads are awake (R303). -/
def bedReadyToRun (core : Core) (j : BedJob) : Bool :=
  (core.reqs.all fun q => q.tslot != j.tslot || q.lane != j.lane || j.id < q.id) &&
    (core.wc.all fun e => j.id < e.id || !e.writers.contains (j.tslot * 64 + j.lane)) &&
    (!core.banksWaking || j.src.toNat / 2 ^ 40 != 0)

/-- BEDLD_COMPLETE. -/
def execBedldComplete (core job : Nat) (s : State) : Host.Outcome State Fault Refusal :=
  let x := coreOf s.kern core
  match x.bedJobs.find? fun j => j.id == job with
  | none => answer s
  | some j => if bedReadyToRun x j then answer { s with kern := runBed s.kern core j } else answer s

end Sys2Proof.Machine
end

