-- ==== Sys2Proof/Machine/EventsQueue.lean ====
section
/-! DEFINITION. Queues and their engines (06 R186 to R195): claimed slots, packets of the copy-queue engine, of a gather walker and
of the collective unit, and the service of units that wait (17 R441). -/

namespace Sys2Proof.Machine

/-! ## Dies -/

/-- The reference core of a die: its lowest enabled core (R382). -/
def refCore (s : State) (die : Nat) : Nat :=
  match (List.range 8).find? fun b => ((mget s.pwr.bays (die * 8 + b)).map (·.enabled)).getD false with
  | some b => (die * 8 + b) * 8
  | none => die * 64

/-- The die whose memory holds a physical address. -/
def dieOf (a : Nat) : Nat := if isHbm a then a / 2 ^ 37 % 4 else a / 2 ^ 29 % 4

/-- The die that serves a queue: the one whose memory holds its header (R190). DEDUCED: log entry 96. -/
def queueDie (k : Kern) (q : Queue) : Nat :=
  match translate k q.ctx (capObj q.hdr.toNat) (capOff q.hdr.toNat) with
  | .ok a => dieOf a
  | .error _ => 0

/-- The die that serves a queue: that of its header for a copy-queue engine and a gather walker; the collective unit stands on the
I/O die, for which die 0 counts (R190, R382). -/
def servingDie (k : Kern) (q : Queue) : Nat := if q.engine == 2 then 0 else queueDie k q

/-- The touching core of a queue's engine (R441). -/
def servingCore (s : State) (q : Queue) : Nat := refCore s (servingDie s.kern q)

/-! ## Changing queues -/

/-- Change a queue. -/
def modQueue (k : Kern) (q : Nat) (f : Queue → Queue) : Kern := { k with queues := mmod k.queues q f }

/-- The offset of slot w of a queue (R186). -/
def slotOffset (cap log2 w : Nat) : Nat := capOff cap + 64 + 64 * (w % 2 ^ log2)

/-! ## COPYQ's slot (R188) -/

/-- A claimed packet's bytes, with its number as SEQ. -/
def slotImage (j : CopyqJob) : List Byte := j.image.take 4 ++ bytesOfNat 4 j.w.toNat ++ j.image.drop 8

/-- The queue has room for a claimed slot, given RDX (R186). -/
def slotRoom (j : CopyqJob) (rdx : List Byte) : Bool := (j.w - BitVec.ofNat 64 (natOfBytes rdx)).toNat < 2 ^ j.cap

/-- The engine's work for a claimed slot is over. -/
def dropSlot (k : Kern) (c : Nat) (j : CopyqJob) : Kern :=
  modCore k c fun core => { core with copyqs := core.copyqs.filter fun x => x.id != j.id }

/-- A claimed slot of a queue on another device: the engine reads RDX there until the queue has room, then sends the slot's bytes
(R188, R392). -/
def writeFarSlot (k : Kern) (c : Nat) (j : CopyqJob) : Kern :=
  let cap := j.queue.toNat
  let u := jobUnit j.id
  let ku := asUnit k u
  match farStop ku j.ctx cap (capOff cap) 8 with
  | some (.far ctx obj off n) => offUnit (askLines ku ctx obj off n)
  | some (.wait faddr sub) => waitFor (offUnit (askAgain ku)) .slot c j.id j.ctx faddr sub
  | some (.fail _ _) => endUnit k u
  | none =>
    let k := endUnit k u
    if slotRoom j ((readObj k j.ctx (capObj cap) (capOff cap) 8).getD []) then
      dropSlot (writeObj k j.ctx (capObj cap) (slotOffset cap j.cap j.w.toNat) (slotImage j)) c j
    else k

/-- The claimed slot is written once the queue has room. -/
def writeSlot (k : Kern) (c : Nat) (j : CopyqJob) : Kern :=
  let cap := j.queue.toNat
  let o := capObj cap
  let off := slotOffset cap j.cap j.w.toNat
  if remoteObj k j.ctx cap then writeFarSlot k c j
  else
    match objRuns k j.ctx o (capOff cap) 8, objRuns k j.ctx o off 64 with
    | .error e, _ | _, .error e => waitFor k .slot c j.id j.ctx (capForm cap e.1) e.2
    | .ok rdx, .ok _ =>
      if slotRoom j (getRuns k rdx) then
        registerQueue (dropSlot (writeObj (doneWaiting k .slot c j.id) j.ctx o off (slotImage j)) c j) j.ctx cap
      else k

/-- COPYQ_SLOT_WRITE. -/
def execCopyqSlotWrite (core job : Nat) (s : State) : Host.Outcome State Fault Refusal :=
  match (coreOf s.kern core).copyqs.find? fun j => j.id == job with
  | none => answer s
  | some j => answer { s with kern := writeSlot s.kern core j }

/-! ## Taking a slot (R189) -/

/-- The engine takes a slot whose bytes it has read: it advances RDX, and the packet runs (R189). -/
def takePacket (k : Kern) (n : Nat) (q : Queue) (b : List Byte) (fail : Option W32) : Kern :=
  let cap := q.hdr.toNat
  let order := k.id
  let k := writeObj { k with id := k.id + 1 } q.ctx (capObj cap) (capOff cap) (bytesOfNat 8 (q.taken + 1))
  modQueue k n fun x =>
    { x with taken := x.taken + 1, running := x.running ++ [{ w := q.taken, image := b, order := order, fail := fail }] }

/-- The engine takes the next slot once its SEQ names it (R189). The units of one queue of a gather walker or the collective unit
run one at a time (R190). c is the touching core (R441). DEDUCED: log entry 46. -/
def takeSlot (k : Kern) (c n : Nat) (q : Queue) : Kern :=
  let cap := q.hdr.toNat
  let o := capObj cap
  match objRuns k q.ctx o (capOff cap) 64 with
  | .error e => waitFor k .header c n q.ctx (capForm cap e.1) e.2
  | .ok hr =>
    let off := slotOffset cap (fieldOf (getRuns k hr) 16 4) q.taken
    match objRuns k q.ctx o off 64 with
    | .error e => waitFor k .header c n q.ctx (capForm cap e.1) e.2
    | .ok rs =>
      let b := getRuns k rs
      if fieldOf b 4 4 != q.taken % 2 ^ 32 || (q.engine != 0 && !q.running.isEmpty) then k
      else
        match readRuns (doneWaiting k .header c n) q.ctx 0 rs with
        | (k, .error _) => takePacket k n q b (some (BitVec.ofNat 32 (statusWord 0x07 0 0)))
        | (k, .ok _) => takePacket k n q b none

/-- The header of a known queue is read, once it can be. -/
def findHeader (k : Kern) (c n : Nat) (q : Queue) : Kern :=
  let cap := q.hdr.toNat
  match objRuns k q.ctx (capObj cap) (capOff cap) 64 with
  | .error e => waitFor k .header c n q.ctx (capForm cap e.1) e.2
  | .ok rs =>
    let h := getRuns k rs
    if badHeader h then k else modQueue (doneWaiting k .header c n) n (openQueue h)

/-- QUEUE_TAKE_SLOT. -/
def execQueueTakeSlot (queue : Nat) (s : State) : Host.Outcome State Fault Refusal :=
  match mget s.kern.queues queue with
  | none => answer s
  | some q =>
    let c := servingCore s q
    if q.engine ≤ 2 then answer { s with kern := takeSlot s.kern c queue q }
    else if q.engine == 4 then answer { s with kern := findHeader s.kern c queue q }
    else answer s

/-- The packet of a queue that is running under a number. -/
def packetOf (q : Queue) (w : Nat) : Option Packet := q.running.find? fun p => p.w == w

/-- The result of a packet is known. -/
def setResult (k : Kern) (n w : Nat) (status : Nat) : Kern :=
  modQueue k n fun q =>
    { q with running := q.running.map fun p => if p.w == w then { p with fail := some (BitVec.ofNat 32 status) } else p }

/-! ## Copy-queue packets (R187) -/

/-- The operation word of a packet. -/
def packetWord (p : Packet) : Nat := fieldOf p.image 0 4
/-- STW. -/
def packetStw (p : Packet) : Bool := (packetWord p).testBit 19

/-- The layout table of R187 is kept, and the limits of R176. -/
def goodPacket (p : Packet) : Bool :=
  let b := p.image
  let m := packetWord p / 2 ^ 20 % 16
  let d : Desc := { d0 := 0, d1 := 0, mode := m, dsp := 1, esz := 0, prm := fieldOf b 24 3, aux := fieldOf b 28 4 }
  packetWord p / 2 ^ 24 == 0 && packetWord p % 2 ^ 19 == 0 && (m == 0 || m == 1 || m == 3 || m == 4) && fieldOf b 27 1 == 0 &&
    (m != 3 || fieldOf b 28 4 == 0) && (m == 3 || zeroRange b 40 8) && zeroRange b 48 16 && (descFail d .ob 1 true).isNone

/-- A signed offset of a capability's range checked by R151. -/
def checkHull (k : Kern) (ctx cap : Nat) (h : Int × Int) (need : Nat) : Except Stop Unit :=
  checkPart k ctx cap (((((capOff cap : Nat) : Int) + h.1) % (2 ^ 36 : Nat)).toNat) (h.2 - h.1).toNat 1 need

/-- The checks of R151 on the ranges of a packet (R177 condition 3). -/
def checkPacket (k : Kern) (ctx src dst mode prm aux : Nat) : Except Stop Unit :=
  let rows := moveRows mode prm aux
  let both (a b : Except Stop Unit) : Except Stop Unit := match a with | .error e => .error e | .ok _ => b
  match mode with
  | 0 | 1 =>
    both (checkHull k ctx src (hull (rows.map fun r => (r.1, r.2.2))) 8)
      (checkHull k ctx dst (hull (rows.map fun r => (r.2.1, r.2.2))) 4)
  | 3 => both (checkPart k ctx src (capOff src) 32 1 8) (checkPart k ctx dst (capOff dst) prm 1 4)
  | _ => both (checkPart k ctx src (capOff src) 4 4 8) (checkPart k ctx dst (capOff dst) (1024 * prm) 1 4)

/-- The transfer of a copy-queue packet, as of a P kernel (R178, R187). -/
def runPacket (k : Kern) (ctx : Nat) (p : Packet) : Ran :=
  let b := p.image
  let m := packetWord p / 2 ^ 20 % 16
  let src := fieldOf b 8 8
  let dst := fieldOf b 16 8
  let prm := fieldOf b 24 3
  let aux := fieldOf b 28 4
  let prd := fieldOf b 40 8
  if !goodPacket p then .done k (statusWord 0x01 0 0)
  else
    match checkPacket k ctx src dst m prm aux with
    | .error e => stopped k 0 e
    | .ok _ =>
      match m with
      | 0 | 1 => runMove k ctx (.ob ctx src) (.ob ctx dst) (capOff src) (capOff dst) (moveRows m prm aux)
      | 3 =>
        match checkPart k ctx prd (capOff prd) 4 4 8 with
        | .error e => stopped k 0 e
        | .ok _ =>
          match interpret k ctx 0 (.ob ctx prd) (capOff prd) 4 with
          | (k, .error e) => stopped k 0 e
          | (k, .ok pb) => runChain ctx 0 (.ob ctx dst) (capOff dst) prm (natOfBytes pb) 65536 k src (capOff src) 0
      | _ =>
        if remoteObj k ctx src then .done k (statusWord 0x0D 0 0)
        else runGrain ctx 0 src (capOff src) aux (.ob ctx dst) (capOff dst) prm k 0

/-- The number by which a packet waits for service: its queue and its slot. -/
def packetJob (n w : Nat) : Nat := n * 2 ^ 64 + w

/-- A packet waits for service. -/
def waitPacket (s : State) (n : Nat) (q : Queue) (w : Nat) (k : Kern) (faddr sub : Nat) : Kern :=
  waitFor k .packet (servingCore s q) (packetJob n w) q.ctx faddr sub

/-- The end of a packet's run: its result is known, or it waits for service or for bytes of another device. -/
def endRun (s : State) (n : Nat) (q : Queue) (p : Packet) : Ran → Kern
  | .done k status => setResult (offUnit k) n p.w status
  | .wait _ _ faddr sub => waitPacket s n q p.w (offUnit (askAgain (asUnit s.kern (packetUnit n p.w)))) faddr sub
  | .far ctx obj off m => offUnit (askLines (asUnit s.kern (packetUnit n p.w)) ctx obj off m)
  | .malformed k sub done tile block =>
    let die := servingDie k q
    let k := grainLog (offUnit k) q.ctx 0 block tile sub 2 0xFF die 0 (cycleOf k (refCore s die))
    setResult k n p.w (statusWord 0x0E sub done)

/-! ## Collective packets (R193, R195) -/

/-- The fields of a collective packet. -/
structure Coll where
  op : Nat
  red : Nat
  ty : Nat
  mem : Nat
  nmem : Nat
  root : Nat
  src : Nat
  dst : Nat
  count : Nat
  cid : W32
  deriving DecidableEq, Repr

/-- A collective packet's fields. -/
def collOf (p : Packet) : Coll :=
  let b := p.image
  let h := packetWord p
  { op := h / 2 ^ 20 % 16, red := h / 2 ^ 16 % 8, ty := h / 2 ^ 12 % 16, mem := fieldOf b 8 8, nmem := fieldOf b 16 4,
    root := fieldOf b 20 4, src := fieldOf b 24 8, dst := fieldOf b 32 8, count := fieldOf b 40 4,
    cid := BitVec.ofNat 32 (fieldOf b 44 4) }

/-- A packet meets an earlier one with its CID that is still in flight on this device (R195). -/
def cidClash (k : Kern) (p : Packet) : Bool :=
  k.queues.any fun q => q.2.engine == 2 && q.2.running.any fun y => y.order < p.order && (collOf y).cid == (collOf p).cid

/-! ## Retiring (R189, R190) -/

/-- The count below which every packet has retired. -/
def advanceBelow (retired : List Nat) : Nat → Nat → Nat
  | 0, b => b
  | fuel + 1, b => if retired.contains b then advanceBelow retired fuel (b + 1) else b

/-- Where a packet of an engine names its status word. -/
def statusCap (q : Queue) (p : Packet) : Nat := if q.engine == 0 then fieldOf p.image 32 8 else fieldOf p.image 48 8

/-- Write a 32-bit status word at a capability: dropped where a check fails; the address and the subcode with which it waits for
service (R441). -/
def writeStatus (k : Kern) (ctx sta : Nat) (status : W32) : Except (Nat × Nat) Kern :=
  match checkObj k ctx sta (capOff sta) 4 4 4 with
  | .error _ => .ok k
  | .ok ea =>
    match objRuns k ctx (capObj sta) ea 4 with
    | .error e => .error (capForm sta e.1, e.2)
    | .ok _ => .ok (writeObj k ctx (capObj sta) ea (bytesOfNat 4 status.toNat))

/-- The status word that a packet with a result writes, where it writes one. -/
def packetStatus (k : Kern) (q : Queue) (p : Packet) (status : W32) : Except (Nat × Nat) Kern :=
  if packetStw p then writeStatus k q.ctx (statusCap q p) status else .ok k

/-- A packet leaves its queue: the queue's timeline follows (R189, R190). -/
def leaveQueue (k : Kern) (n : Nat) (p : Packet) : Kern :=
  modQueue k n fun x =>
    let done := x.retired ++ [p.w]
    let below := advanceBelow done done.length x.retiredBelow
    { x with running := x.running.filter fun y => y.w != p.w, retired := done.filter fun w => below ≤ w, retiredBelow := below }

/-- A packet with a result retires once what it wrote on another device has been performed there: its status word, then the queue's
timeline. It fails where that device could not be reached or does not implement the write (R393, R397). -/
def retirePacket (s : State) (n : Nat) (q : Queue) (p : Packet) (status : W32) : Kern :=
  let u := packetUnit n p.w
  let k := s.kern
  if farWrites k u then k
  else
    let status := match writeFailure k u with | some n => BitVec.ofNat 32 n | none => status
    match packetStatus k q p status with
    | .error e => waitPacket s n q p.w k e.1 e.2
    | .ok k => leaveQueue (endUnit (doneWaiting k .packet (servingCore s q) (packetJob n p.w)) u) n p

/-- What this device has posted for a collective goes with its packet. -/
def forgetPost (s : State) (q : Queue) (p : Packet) : Fabric :=
  if q.engine == 2 && !cidClash s.kern p then
    { s.fab with posted := s.fab.posted.filter fun o => !(o.cid == (collOf p).cid && o.dev == s.fab.dev && !o.failed) }
  else s.fab

/-- PACKET_RETIRE: a copy-queue packet runs; a packet with a result retires. -/
def execPacketRetire (queue packet : Nat) (s : State) : Host.Outcome State Fault Refusal :=
  match (mget s.kern.queues queue).bind fun q => (packetOf q packet).map fun p => (q, p) with
  | none => answer s
  | some (q, p) =>
    match p.fail with
    | some st => answer { s with kern := retirePacket s queue q p st, fab := forgetPost s q p }
    | none =>
      if q.engine != 0 then answer s
      else
        let k := endRun s queue q p (runPacket (asUnit s.kern (packetUnit queue packet)) q.ctx p)
        match ((mget k.queues queue).bind fun q => packetOf q packet).bind (·.fail) with
        | some st => answer { s with kern := retirePacket { s with kern := k } queue q p st }
        | none => answer { s with kern := k }

/-! ## Gather walkers (R191, R192) -/

/-- The layout table of R191 is kept, the alignment of IDX among it. -/
def goodGather (p : Packet) : Bool :=
  let b := p.image
  let count := fieldOf b 32 4
  let rb := fieldOf b 36 4
  let rstr := fieldOf b 40 4
  packetWord p / 2 ^ 24 == 0 && packetWord p % 2 ^ 19 == 0 && packetWord p / 2 ^ 20 % 16 ≤ 1 && 1 ≤ count && count < 2 ^ 20 &&
    4 ≤ rb && rb ≤ 65536 && rb % 4 == 0 && 4 ≤ rstr && rstr ≤ 2 ^ 31 && rstr % 4 == 0 && zeroRange b 44 4 && zeroRange b 56 8 &&
    fieldOf b 8 8 % 4 == 0 && (packetStw p || zeroRange b 48 8)

/-- The walk of a gather packet. -/
def runWalk (k : Kern) (ctx : Nat) (p : Packet) : Ran :=
  let b := p.image
  if !goodGather p then .done k (statusWord 0x01 0 0)
  else
    runGather ctx (packetWord p / 2 ^ 20 % 16 == 1) (fieldOf b 8 8) (fieldOf b 16 8) (fieldOf b 24 8) (fieldOf b 36 4) (fieldOf b 40 4)
      (fieldOf b 32 4) k 0

/-- GATHER. -/
def execGather (queue packet : Nat) (s : State) : Host.Outcome State Fault Refusal :=
  match mget s.kern.queues queue with
  | none => answer s
  | some q =>
    match packetOf q packet with
    | some p =>
      if q.engine == 1 && p.fail.isNone then
        answer { s with kern := endRun s queue q p (runWalk (asUnit s.kern (packetUnit queue packet)) q.ctx p) }
      else answer s
    | none => answer s

/-! ## The collective unit (R193 to R195) -/

/-- The pairing of types and operations (R193). -/
def collPair (ty red : Nat) : Bool :=
  let t := tyOfCode ty
  match t with
  | .i32 | .n32 | .i64 | .n64 => red ≤ 5
  | .f32 | .f64 => red ≤ 2
  | .b32 | .b64 => 3 ≤ red && red ≤ 5
  | _ => false

/-- A type that a collective moves. -/
def collTy (ty : Nat) : Bool := collPair ty 3 || collPair ty 0

/-- The layout table of R193 is kept, as far as the packet alone shows. -/
def goodColl (p : Packet) (x : Coll) : Bool :=
  packetWord p / 2 ^ 24 == 0 && packetWord p % 2 ^ 12 == 0 && x.op ≤ 3 && (x.op < 2 || x.red == 0) &&
    (if x.op == 3 then x.ty == 0 && x.count == 0 else collTy x.ty && 1 ≤ x.count && x.count < 2 ^ 24) &&
    (2 ≤ x.op || collPair x.ty x.red) && 2 ≤ x.nmem && x.nmem ≤ 65536 && x.root < x.nmem &&
    (x.op == 1 || x.op == 2 || x.root == 0) && zeroRange p.image 56 8 && (packetStw p || zeroRange p.image 48 8)

/-- The member at an index reads SRC. -/
def collReads (x : Coll) (index : Nat) : Bool := x.op == 0 || x.op == 1 || (x.op == 2 && index == x.root)

/-- The member at an index writes DST. -/
def collWrites (x : Coll) (index : Nat) : Bool := x.op == 0 || x.op == 2 || (x.op == 1 && index == x.root)

/-- SRC and DST are null wherever they are not used (R193). -/
def collNulls (x : Coll) (index : Nat) : Bool := (collReads x index || capObj x.src == 0) && (collWrites x index || capObj x.dst == 0)

/-- The bytes of an element. -/
def collBytes (x : Coll) : Nat := tyBits (tyOfCode x.ty) / 8

/-- REDUCE of the members' values (R194). -/
def reduceAll (t : Ty) (red : Nat) (xs : List Nat) : Nat :=
  let ints := xs.map (intOf t)
  match red with
  | 0 => if tyFl t then (sumF t .rne (xs.map (decodeF t))).1 else wrapI t ints.sum
  | 1 => if tyFl t then (extremeF t true xs).1 else wrapI t (ints.foldl min (ints.headD 0))
  | 2 => if tyFl t then (extremeF t false xs).1 else wrapI t (ints.foldl max (ints.headD 0))
  | 3 => xs.foldl Nat.land (2 ^ tyBits t - 1)
  | 4 => xs.foldl Nat.lor 0
  | _ => xs.foldl Nat.xor 0

/-- What one member contributes. -/
structure Member1 where
  dev : Nat
  vals : List Nat
  deriving DecidableEq, Repr

/-- Where a collective stands on this device (R195): its status is decided, it waits for service or for bytes of another device, or
the member list and this device's source values are known. -/
inductive CollStage where
  | decided (status : Nat)
  | service (faddr sub : Nat)
  | far (ctx obj off n : Nat)
  | ready (k : Kern) (members vals : List Nat)

/-- A stop of a collective's own read. -/
def collStop : Stop → CollStage
  | .fail cause sub => .decided (statusWord cause sub 0)
  | .wait faddr sub => .service faddr sub
  | .far ctx obj off n => .far ctx obj off n

/-- A buffer of a collective passes R151 where it is used. -/
def collPart (k : Kern) (ctx cap : Nat) (x : Coll) (need : Nat) (used : Bool) : Except Stop Unit :=
  if used then checkPart k ctx cap (capOff cap) (collBytes x * x.count) (max 1 (collBytes x)) need else .ok ()

/-- The source and the destination are checked, and the source is read (R194). DEDUCED: log entry 48. -/
def collSource (k : Kern) (ctx : Nat) (x : Coll) (ms : List Nat) (index : Nat) : CollStage :=
  match collPart k ctx x.src x 8 (collReads x index), collPart k ctx x.dst x 4 (collWrites x index) with
  | .error e, _ => collStop e
  | _, .error e => collStop e
  | .ok _, .ok _ =>
    if !collReads x index then .ready k ms []
    else
      match interpret k ctx 0 (.ob ctx x.src) (capOff x.src) (collBytes x * x.count) with
      | (_, .error e) => collStop e
      | (k, .ok bs) => .ready k ms ((List.range x.count).map fun i => fieldOf bs (collBytes x * i) (collBytes x))

/-- The device's own checks, in the order of R194: the packet, the member list, the other packets of its CID, then its source and
destination. -/
def collOwn (k : Kern) (dev ctx : Nat) (p : Packet) (x : Coll) (clash : Bool) : CollStage :=
  if !goodColl p x then .decided (statusWord 0x01 0 0)
  else
    match checkPart k ctx x.mem (capOff x.mem) (4 * x.nmem) 4 8 with
    | .error e => collStop e
    | .ok _ =>
      match interpret k ctx 0 (.ob ctx x.mem) (capOff x.mem) (4 * x.nmem) with
      | (_, .error e) => collStop e
      | (k, .ok mb) =>
        let ms := words32 mb x.nmem
        let index := (indexWhere (fun m => m == dev) ms).getD 0
        if ms.any (fun m => 2 ^ 19 ≤ m) then .decided (statusWord 0x01 0 0)
        else if (ms.filter fun m => m == dev).length != 1 then .decided (statusWord 0x01 8 0)
        else if ms.length != (ms.foldl addOnce []).length || !collNulls x index then .decided (statusWord 0x01 0 0)
        else if clash then .decided (statusWord 0x01 7 0)
        else collSource k ctx x ms index

/-- The other members that a packet names, as far as its list can be read. -/
def namedMembers (k : Kern) (dev ctx : Nat) (x : Coll) : List Nat :=
  match checkPart k ctx x.mem (capOff x.mem) (4 * x.nmem) 4 8, readObj k ctx (capObj x.mem) (capOff x.mem) (4 * x.nmem) with
  | .ok _, some mb => ((words32 mb x.nmem).foldl addOnce []).filter fun m => m != dev && m < 2 ^ 19
  | _, _ => []

/-- What this device posts to the other members: its digest and its source, or that its packet has failed (R194, R195). -/
def ownPost (dev : Nat) (x : Coll) (ms vals : List Nat) (failed : Bool) : Posted :=
  { cid := x.cid, dev := dev, op := x.op, red := x.red, ty := x.ty, root := x.root, count := x.count, members := ms, src := vals,
    failed := failed, unsupported := false, more := false }

/-- The packets of a post (R391). -/
def postParts (x : Posted) : List Posted :=
  let n := max 1 (ceilDiv x.src.length postPart)
  (List.range n).map fun i => { x with src := (x.src.drop (postPart * i)).take postPart, more := decide (i + 1 < n) }

/-- Post to other devices, on the forward class (R194). -/
def sendPosts (s : State) (ms : List Nat) (x : Posted) : State :=
  ms.foldl (fun s m => (postParts x).foldl (fun s y => sendPacket s m (x.cid.toNat % 16) .forward (.post y)) s) s

/-- The posts of other devices for a collective that have come in whole. DESIGN CHOICE: log entry 47. -/
def heardPosts (f : Fabric) (cid : W32) : List Posted := f.posted.filter fun o => o.cid == cid && o.dev != f.dev && !o.more

/-- A collective has ended here: the posts for it go, and those of members that are still on their way will (R195). -/
def endPosts (f : Fabric) (cid : W32) (members : List Nat) : Fabric :=
  let unheard := members.filter fun m => m != f.dev && !f.unreachable.contains m && !(heardPosts f cid).any fun o => o.dev == m
  { f with posted := f.posted.filter fun o => o.cid != cid, late := f.late ++ unheard.map fun m => (cid, m) }

/-- The digests of two packets agree (R194). -/
def sameDigest (x : Coll) (ms : List Nat) (o : Posted) : Bool :=
  o.op == x.op && o.red == x.red && o.ty == x.ty && o.root == x.root && o.count == x.count && o.members == ms

/-- The values that every member writes, or the root alone; none where this device writes nothing. -/
def collResult (x : Coll) (ms : List Nat) (index : Nat) (vals : List Nat) (others : List Posted) : Option (List Nat) :=
  let of (m : Nat) (i : Nat) : List Nat := if i == index then vals else ((others.find? fun o => o.dev == m).map (·.src)).getD []
  let each := (List.range ms.length).map fun i => of (ms.getD i 0) i
  match x.op with
  | 2 => some (each.getD x.root [])
  | 3 => none
  | _ =>
    if x.op == 1 && index != x.root then none
    else some ((List.range x.count).map fun e => reduceAll (tyOfCode x.ty) x.red (each.map fun v => v.getD e 0))

/-- A collective once every other member has posted: the state and its status, or the wait for service. heard are the posts of all
devices that carry its CID, of which any may fail it (R195). -/
def runColl (k : Kern) (ctx : Nat) (x : Coll) (ms : List Nat) (index : Nat) (vals : List Nat) (others heard : List Posted) :
    Kern × Except (Nat × Nat) Nat :=
  if heard.any (·.unsupported) then (k, .ok (statusWord 0x0D 0 0))
  else if heard.any (·.failed) then (k, .ok (statusWord 0x01 9 0))
  else if heard.any fun o => !sameDigest x ms o then (k, .ok (statusWord 0x01 7 0))
  else
    match collResult x ms index vals others with
    | none => (k, .ok 0)
    | some rs =>
      let bytes := rs.flatMap fun r => bytesOfNat (collBytes x) r
      match landBytes k ctx (.ob ctx x.dst) (capOff x.dst) { bytes := bytes, bad := [], soft := [], cost := 0 } with
      | .ok k => (k, .ok 0)
      | .error (.wait faddr sub) => (k, .error (faddr, sub))
      | .error (.fail cause sub) => (k, .ok (statusWord cause sub 0))
      | .error (.far _ _ _ _) => (k, .ok 0)

/-- A collective's status is decided on this device: where its own checks decide it, the members that it names learn so, and any
other device that has posted for it or does later. A packet that has met an earlier one of its CID leaves that one's members alone.
-/
def failColl (s : State) (n : Nat) (q : Queue) (p : Packet) (clash : Bool) (status : Nat) : State :=
  let x := collOf p
  let s := { s with kern := setResult s.kern n p.w status }
  if clash then s
  else
    let ms := namedMembers s.kern s.fab.dev q.ctx x
    let own := ownPost s.fab.dev x ms [] true
    let s' := sendPosts s (((heardPosts s.fab x.cid).map (·.dev)).foldl addOnce ms) own
    let f := endPosts s'.fab x.cid ms
    { s' with fab := { f with posted := f.posted ++ [own] } }

/-- This device posts for a packet that is ready: its members and its source values stand as they are now. A device that is no
member but has posted for it learns of its digest (R195). -/
def postColl (s : State) (x : Coll) (ms vals : List Nat) : State :=
  let own := ownPost s.fab.dev x ms vals false
  let s := { s with fab := { s.fab with posted := s.fab.posted.filter fun o => !(o.cid == x.cid && o.dev == s.fab.dev) } }
  let s' := sendPosts s (((heardPosts s.fab x.cid).map (·.dev)).foldl addOnce (ms.filter (· != s.fab.dev))) own
  { s' with kern := offUnit s'.kern, fab := { s'.fab with posted := s'.fab.posted ++ [own] } }

/-- What this device has posted for a collective that has not failed on it. -/
def posted (s : State) (cid : W32) : Option Posted :=
  s.fab.posted.find? fun o => o.cid == cid && o.dev == s.fab.dev && !o.failed

/-- A collective that this device has posted for ends once every other member has posted. -/
def joinColl (s : State) (n : Nat) (q : Queue) (p : Packet) (own : Posted) : State :=
  let x := collOf p
  let ms := own.members
  let index := (indexWhere (fun m => m == s.fab.dev) ms).getD 0
  let finish (s : State) (status : Nat) : State :=
    { s with kern := setResult (offUnit s.kern) n p.w status, fab := endPosts s.fab x.cid ms }
  let away := ms.filter (· != s.fab.dev)
  let heard := heardPosts s.fab x.cid
  let others := away.filterMap fun m => heard.find? fun o => o.dev == m
  if away.any fun m => s.fab.unreachable.contains m then finish s (statusWord 0x04 0 0)
  else if others.length != away.length then s
  else
    match runColl (asUnit s.kern (packetUnit n p.w)) q.ctx x ms index own.src others heard with
    | (k, .ok status) => finish { s with kern := k } status
    | (_, .error e) => { s with kern := waitPacket s n q p.w s.kern e.1 e.2 }

/-- A post comes in (R195): a device that this one's post did not name learns of it, and where the collective has failed here, its
own post is over. -/
def hearPost (s : State) (x : Posted) : State :=
  match s.fab.posted.find? fun o => o.cid == x.cid && o.dev == s.fab.dev with
  | some own =>
    if own.members.contains x.dev then { s with fab := takePost s.fab x }
    else
      let s' := if own.failed then s else { s with fab := takePost s.fab x }
      if x.more then s' else sendPosts s' [x.dev] own
  | none => { s with fab := takePost s.fab x }

/-- COLLECTIVE. -/
def execCollective (queue packet : Nat) (s : State) : Host.Outcome State Fault Refusal :=
  match (mget s.kern.queues queue).bind fun q => (packetOf q packet).map fun p => (q, p) with
  | none => answer s
  | some (q, p) =>
    if q.engine != 2 || p.fail.isSome then answer s
    else
      let u := packetUnit queue packet
      let clash := cidClash s.kern p
      match if clash then none else posted s (collOf p).cid with
      | some own => answer (joinColl s queue q p own)
      | none =>
      match collOwn (asUnit s.kern u) s.fab.dev q.ctx p (collOf p) clash with
      | .decided status => answer (failColl s queue q p clash status)
      | .service faddr sub => answer { s with kern := waitPacket s queue q packet (offUnit (askAgain (asUnit s.kern u))) faddr sub }
      | .far ctx obj off n => answer { s with kern := offUnit (askLines (asUnit s.kern u) ctx obj off n) }
      | .ready k ms vals => answer (postColl { s with kern := k } (collOf p) ms vals)

/-! ## Service of a unit (R441) -/

/-- The status of a run whose service is declined: cause 0x06, and what it had done. -/
def declinedRun : Ran → Option (Kern × Nat)
  | .wait k done _ sub => some (k, statusWord 0x06 sub done)
  | _ => none

/-- A packet writes no status word. -/
def dropStw (p : Packet) : Packet := { p with image := bytesOfNat 4 (packetWord p - 2 ^ 19) ++ p.image.drop 4 }

/-- A packet whose service is declined: its status word is dropped where it is that which waits. -/
def declinePacket (k : Kern) (n w : Nat) (sub : Nat) : Kern :=
  match (mget k.queues n).bind fun q => (packetOf q w).map fun p => (q, p) with
  | none => k
  | some (q, p) =>
    let ku := asUnit k (packetUnit n w)
    if p.fail.isSome then
      modQueue k n fun q => { q with running := q.running.map fun y => if y.w == w && packetStw y then dropStw y else y }
    else if q.engine == 2 then setResult k n w (statusWord 0x06 sub 0)
    else
      match declinedRun (if q.engine == 0 then runPacket ku q.ctx p else runWalk ku q.ctx p) with
      | some (k, st) => setResult (offUnit k) n w st
      | none => k

/-- A copy whose service is declined. -/
def declineCopy (k : Kern) (c : Nat) (j : CopyJob) : Kern :=
  match declinedRun (runCopy (asUnit k (jobUnit j.id)) c j) with
  | some (k, st) => settleCopy k c j st
  | none => k

/-- What a declined wait does, by the kind of its unit. DEDUCED: log entry 52. -/
def declineUnit (k : Kern) (w : UnitWait) : Kern :=
  let core := coreOf k w.core
  match w.kind with
  | 0 => (match core.copies.find? fun j => j.id == w.job with | some j => declineCopy k w.core j | none => k)
  | 1 => declinePacket k (w.job / 2 ^ 64) (w.job % 2 ^ 64) w.sub
  | 2 => (match core.bedJobs.find? fun j => j.id == w.job with | some j => stopBed k w.core j 0x06 w.sub | none => k)
  | 3 =>
    (match core.mxq.find? fun m => m.id == w.job with
    | some m => failFeed k w.core m 0x06 w.sub w.faddr.toNat
    | none => k)
  | _ => k

/-- A wait of a unit is handed to the host (R367, R441). -/
def handUnit (k : Kern) (id : Nat) : Kern :=
  { k with units := k.units.map fun w => if w.id == id then { w with handed := true } else w }

/-- UNIT_ACCESS_SERVICE. A wait for an object that is not present is handed to the host, whose PARKDONE ends it (R367). -/
def execUnitAccessService (unit : Nat) (declined : Bool) (s : State) : Host.Outcome State Fault Refusal :=
  match s.kern.units.find? fun w => w.id == unit with
  | none => answer s
  | some w =>
    let drop (k : Kern) : Kern := { k with units := k.units.filter fun x => x.id != w.id }
    if declined then
      if mayDecline s.kern w.ctx w.faddr.toNat w.sub then answer { s with kern := drop (declineUnit s.kern w) } else answer s
    else if w.sub == 0 && (getObj s.kern w.ctx (capObj w.faddr.toNat)).isSome then
      if w.handed then answer s else answer (notify_ { s with kern := handUnit s.kern w.id } 0x80 w.ctx w.id)
    else if resolved s.kern w.ctx w.faddr.toNat then answer { s with kern := drop s.kern }
    else answer s

end Sys2Proof.Machine
end

