-- ==== Sys2Proof/Machine/EventsPower.lean ====
section
/-! DEFINITION. Events of power, clocks and heat (21 R413 to R424), of the bay lease (16 R361), and refills of the token buckets
(17 R372). -/

namespace Sys2Proof.Machine

/-! ## Grants (R413, R414, R419, R420) -/

/-- ARBITRATE, where an event of R413 asks for it. -/
def execArbitrate (s : State) : Host.Outcome State Fault Refusal :=
  answer (if s.pwr.due || s.kern.asks then runArbiter s else s)

/-- The domains whose ratios rise change, and the grant is in force in every bay: RATIOS takes it in one write, SEQ advances, and no
step is below its FLOOR (R414, R416). A change that came back to the grant in force leaves RATIOS and SEQ as they are. -/
def changeGrant (s : State) (g : Ratios) : State :=
  { s with pwr :=
      { s.pwr with grant := g, running := g, seq := if g == s.pwr.grant then s.pwr.seq else s.pwr.seq + 1, target := none,
                   bays := s.pwr.bays.map fun p => (p.1, { p.2 with step := max p.2.step (floorFor p.2 g) }) } }

/-- GRANT_CHANGE_COMPLETE. -/
def execGrantChangeComplete (s : State) : Host.Outcome State Fault Refusal :=
  match s.pwr.target with
  | none => answer s
  | some g => answer (changeGrant s g)

/-- TCAP_CHANGE. -/
def execTcapChange (s : State) : Host.Outcome State Fault Refusal :=
  let n := nextTcap s
  if n == s.pwr.tcap then answer s else answer (arbiterDue { s with pwr := { s.pwr with tcap := n } })

/-- BOOST one microsecond later (R420): at 0 under a boost grant the arbiter runs. -/
def tickBoost (s : State) : State :=
  let n := s.pwr.boostTicks + 1
  let nine := s.pwr.grant.matrix == 9 || s.pwr.grant.vector == 9
  let left := if nine then s.pwr.boost - 1 else if n % 4 == 0 then min 20000 (s.pwr.boost + 1) else s.pwr.boost
  let s := { s with pwr := { s.pwr with boostTicks := n, boost := left } }
  if nine && left == 0 then arbiterDue s else s

/-- BOOST_TICK. -/
def execBoostTick (s : State) : Host.Outcome State Fault Refusal :=
  if s.pwr.boostTicks < s.pwr.usec then answer (tickBoost s) else answer s

/-! ## Bays (R417, R418) -/

/-- BAY_CONTROLLER_EVALUATION, once every microsecond. -/
def execBayControllerEvaluation (bay : Nat) (s : State) : Host.Outcome State Fault Refusal :=
  let b := getBay s bay
  let now := b.evaluated + 1
  if s.pwr.usec < now then answer s
  else
    let hot := b.band == 7 || b.band == 6 || b.overCurrent
    answer (modBay s bay fun x =>
      { x with step := nextStep s.pwr.grant now b, calm := if hot then now else x.calm, evaluated := now })

/-- The bands as the sensors have them. -/
def newBands (s : State) : State :=
  { s with pwr := { s.pwr with bays := s.pwr.bays.map fun p => (p.1, { p.2 with band := bandOf p.2.celsius }) } }

/-- TEMPBAND_CHANGE: with the time at which the hottest band passed 6 and 7 (R419). -/
def execTempbandChange (s : State) : Host.Outcome State Fault Refusal :=
  let t := newBands s
  let crossed (n : Nat) : Bool := decide (n ≤ hottestBand s) != decide (n ≤ hottestBand t)
  let note (n : Nat) (m : FMap Nat) : FMap Nat := if crossed n then mset m n s.pwr.usec else m
  answer { t with pwr := { t.pwr with hotSince := note 7 (note 6 t.pwr.hotSince) } }

/-! ## Gating (R361, R422, R303, R313) -/

/-- A bay is gated, and with it the scratchpad banks of its cores (R303, R422). -/
def gateBay (s : State) (bay : Nat) : State :=
  let lease := (getBay s bay).lease
  let k := (List.range 8).foldl (fun k i => modCore k (bay * 8 + i) fun core => { core with banksGated := true, banksWaking := false })
    s.kern
  modBay { s with kern := k } bay fun x => { x with gate := if lease then .waking else .gated }

/-- GATING_SEQUENCE: it starts on a bay that has held nothing for 20 µs while the dispatcher holds no lease; after 900 ns the
bay is gated, and wakes at once where the dispatcher has asked for it. -/
def execGatingSequence (bay : Nat) (s : State) : Host.Outcome State Fault Refusal :=
  let b := getBay s bay
  match b.gate with
  | .on =>
    if bayEmpty s.kern bay && !b.lease && b.emptySince + 20 ≤ s.pwr.usec then
      answer (modBay s bay fun x => { x with gate := .closing (nowNs s) })
    else answer s
  | .closing start =>
    if nowNs s < start + 900 then answer s
    else answer (gateBay s bay)
  | _ => answer s

/-- BAY_WAKE_COMPLETE. -/
def execBayWakeComplete (bay : Nat) (s : State) : Host.Outcome State Fault Refusal :=
  match (getBay s bay).gate with
  | .waking => answer (modBay s bay fun x => { x with gate := .on })
  | _ => answer s

/-- WAY_GATING: a gated way holds no lines, and ways 4 to 7 take 200 ns to wake, empty (R313, R422). DESIGN CHOICE: log entry 83. -/
def execWayGating (core : Nat) (gate : Bool) (s : State) : Host.Outcome State Fault Refusal :=
  let change (f : Core → Core) : Host.Outcome State Fault Refusal := answer { s with kern := modCore s.kern core f }
  if gate then
    if wayTurn s core true then change fun x => { x with waysGated := true, lcache := x.lcache.filter fun l => l.way < 4 }
    else answer s
  else if waysAwake s core then change fun x => { x with waysGated := false, waysWaking := none }
  else if wayTurn s core false then change fun x => { x with waysWaking := some (nowNs s) }
  else answer s

/-! ## Subscriptions (R423, R424) -/

/-- The notify word. -/
def notifyWord (s : State) (x : Subscription) : Nat :=
  x.count.toNat * 2 ^ 48 + x.source % 256 * 2 ^ 40 + x.bay % 256 * 2 ^ 32 + sourceValue s x % 2 ^ 32

/-- Store a notify word; none where the store faults. -/
def storeNotify (k : Kern) (x : Subscription) (w : Nat) : Option Kern :=
  let cap := x.word.toNat
  match checkObj k x.ctx cap (capOff cap) 8 8 4 with
  | .error _ => none
  | .ok ea => if (objRuns k x.ctx (capObj cap) ea 8).isOk then some (writeObj k x.ctx (capObj cap) ea (bytesOfNat 8 w)) else none

/-- A firing (R424): a subscription whose store faults is removed. -/
def fire (s : State) (n : Nat) (x : Subscription) : State :=
  let x := { x with count := x.count + 1, fired := true, lastSeq := s.pwr.seq }
  match storeNotify s.kern x (notifyWord s x) with
  | none => { s with pwr := { s.pwr with subs := mdel s.pwr.subs n } }
  | some k => { s with kern := k, pwr := { s.pwr with subs := mset s.pwr.subs n x } }

/-- SUBSCRIPTION_FIRING: it fires at a crossing, and re-arms when the value has crossed back. -/
def execSubscriptionFiring (sub : Nat) (s : State) : Host.Outcome State Fault Refusal :=
  match mget s.pwr.subs sub with
  | none => answer s
  | some x =>
    if !subscriptionDue s x then answer s
    else if x.source == 4 || !x.fired then answer (fire s sub x)
    else answer { s with pwr := { s.pwr with subs := mset s.pwr.subs sub { x with fired := false } } }

/-! ## Refills (R372) -/

/-- SHARE of a context. -/
def shareOf (k : Kern) (ctx : Nat) : Nat := (getCtx k ctx).share

/-- The tokens of each context after a refill: its allotment, and for the active ones their part of the pool. -/
def refilled (k : Kern) (bs : FMap Bucket) : FMap Bucket :=
  let total := (bs.map fun p => shareOf k p.1).sum
  let allot (x : Nat) : Nat := 1024 * shareOf k x / total
  let act := bs.filter fun p => p.2.active
  let pool := (bs.map fun p => if p.2.active then 0 else p.2.tokens).sum + (1024 - (bs.map fun p => allot p.1).sum)
  let weight := (act.map fun p => shareOf k p.1).sum
  let part (x : Nat) : Nat := pool * shareOf k x / weight
  let left := pool - (act.map fun p => part p.1).sum
  let order := (sortBy (fun x => (256 - shareOf k x) * 16 + x) (act.map (·.1))).take left
  bs.map fun p =>
    let n := allot p.1 + (if p.2.active then part p.1 + (if order.contains p.1 then 1 else 0) else 0)
    (p.1, { tokens := n - p.2.owed, owed := p.2.owed - n, active := false })

/-- REFILL, every 1,024 network cycles. -/
def execRefill (core : Nat) (s : State) : Host.Outcome State Fault Refusal :=
  if (coreOf s.kern core).refilled + 1024 ≤ s.kern.net then
    answer { s with kern := modCore s.kern core fun x =>
      { x with buckets := refilled s.kern x.buckets, refilled := x.refilled + 1024 } }
  else answer s

end Sys2Proof.Machine
end

