-- ==== Sys2Proof/Machine/Admission.lean ====
section
/-! DEFINITION. Admission of a launch record (16 R343 to R350) with the checks on format slots (02 R74, R75), algebra tables (03
R91 to R94) and side tables (01 R52). -/

namespace Sys2Proof.Machine

/-! ## Reading the record -/

/-- A record as a launch that has not been admitted. -/
def draft (ctx : Nat) (rec_ : List Byte) : Launch :=
  { ctx := ctx, rec_ := rec_, tables := [], graph := 0, node := 0, card := false, pinned := false, next := 0, retired := 0, total := 0,
    placed := false, bricks := [], others := [], done := false, counted := false, spent := false }

/-- The null capability (R171). DEDUCED: log entry 57. -/
def nullCap (cap : Nat) : Bool := capObj cap == 0

/-- A capability names a known object with effective rights. -/
def capAllows (k : Kern) (ctx cap need : Nat) : Bool :=
  match getObj k ctx (capObj cap) with
  | some e => Nat.land need (effective e cap) == need
  | none => false

/-- n bytes from a capability's offset lie in its object. -/
def capHolds (k : Kern) (ctx cap n : Nat) : Bool :=
  match getObj k ctx (capObj cap) with
  | some e => capOff cap + n ≤ e.size
  | none => false

/-- n bytes at an offset from a capability, as the running unit reads them: zero where they are not placed, or cannot be had from
their home. DEDUCED: log entry 56. -/
def capBytes (k : Kern) (ctx cap off n : Nat) : List Byte :=
  (readRange k k.unit ctx cap (capOff cap + off) n).getD (List.replicate n 0)

/-! ## Reserved fields (R343, R344, R346) -/

/-- The reserved bits of a byte of the record. -/
def reservedBits (field : Bool) (o : Nat) : Nat :=
  if o == 6 || o == 33 then 0xFC
  else if o == 7 then 0xC0
  else if o == 42 || o == 43 || (59 ≤ o && o < 64) then 0xFF
  else if 64 ≤ o && o < 128 then (if !field || o == 83 || 96 ≤ o then 0xFF else if o == 82 then 0xF8 else 0)
  else if 224 ≤ o && o < 352 then (if 1 ≤ o % 16 && o % 16 < 8 then 0xFF else 0)
  else if o == 358 then 0xFE
  else if o == 359 || (368 ≤ o && o < 384) then 0xFF
  else 0

/-- The first byte of the record with a reserved bit set. -/
def firstReserved (l : Launch) : Option Nat :=
  (List.range 512).find? fun o => Nat.land (recNat l o 1) (reservedBits (isField l) o) != 0

/-! ## Single checks -/

/-- A program counter has the form of R6 and names a line inside CODE. -/
def entryGood (k : Kern) (l : Launch) (pc : Nat) : Bool := pcForm pc && lineInside k l (pcLine pc)

/-- REGS and GROUPS are in range (check 6). -/
def shapeGood (l : Launch) : Bool :=
  recRegs l % 8 == 0 && 8 ≤ recRegs l && recRegs l ≤ 248 && 1 ≤ recGroups l && recGroups l ≤ 64 &&
    recGroups l * recWidth l ≤ 1024

/-- NBLK, NSTAGE and TSTAGE are in range (check 7). -/
def countsGood (l : Launch) : Bool :=
  1 ≤ recNblk l && (if isField l then recNblk l ≤ 16 else recNblk l ≤ 16777216) && 1 ≤ recStages l && recStages l ≤ 256 &&
    if isField l then recTstage l == 0 else recTstage l < recStages l

/-- SB and the parameter copy (check 8). -/
def padGood (l : Launch) : Bool :=
  recSb l ≤ 786432 &&
    if recPcopy l then
      recPdst l % 8 == 0 && recPlen l % 4 == 0 && recPlen l ≤ 128 && recPdst l + 16 + recPlen l ≤ recSb l
    else recPdst l == 0 && recPlen l == 0

/-- RATIOREQ (check 11). -/
def ratiosGood (l : Launch) : Bool :=
  let r := recReq l
  let inside (lo hi x : Nat) : Bool := lo ≤ x && x ≤ hi
  inside 1 9 (r % 16) && inside 1 9 (r / 16 % 16) && inside 4 8 (r / 256 % 16) && inside 4 6 (r / 4096 % 16)

/-- A format slot (R74, R75). -/
def slotGood (l : Launch) (w : Nat) : Bool :=
  let fmt := w % 256
  let es := w / 2 ^ 8 % 4
  let alg := w / 2 ^ 22 % 4
  let layout := w / 2 ^ 24 % 4
  w / 2 ^ 28 == 0 && w / 2 ^ 26 % 4 < 2 && layout < 2 && (alg != 0 || layout == 0) &&
    (alg == 0 || !nullCap (recAlg l alg)) && w / 2 ^ 18 % 16 < 4 && fmt < 9 && if fmt == 1 || fmt == 2 then es < 3 else es == 0

/-- Two-bit codes of a number: none is 10, and those from a count on are 00 (R92, R93). -/
def codesGood (x count total : Nat) : Bool :=
  (List.range total).all fun t => x / 4 ^ t % 4 != 2 && (t < count || x / 4 ^ t % 4 == 0)

/-- A table of 256 bytes keeps R91 to R93. -/
def tableGood (b : List Byte) : Bool :=
  let c := fieldOf b 4 1
  fieldOf b 0 4 == 0x4B4C414C && (c == 2 || c == 4 || c == 8) && fieldOf b 5 1 < 2 ^ c && codesGood (fieldOf b 6 2) c 8 &&
    zeroRange b 8 8 && codesGood (fieldOf b 16 128) (c * c * c) 512 && zeroRange b 144 112

/-- An algebra capability (R94, check 14). -/
def algebraGood (k : Kern) (l : Launch) (i : Nat) : Bool :=
  let cap := recAlg l i
  if i == 0 then nullCap cap
  else nullCap cap || (capAllows k l.ctx cap 8 && capHolds k l.ctx cap 256 && tableGood (capBytes k l.ctx cap 0 256))

/-- A timeline binding (R346, check 15). -/
def bindingGood (k : Kern) (l : Launch) (i : Nat) : Bool :=
  let cap := recTlCap l i
  match recTlKind l i with
  | 0 | 1 => nullCap cap
  | n =>
    n ≤ 4 && capAllows k l.ctx cap 10 && capHolds k l.ctx cap 64 && capOff cap % 64 == 0 &&
      fieldOf (capBytes k l.ctx cap 0 64) 20 1 == n - 2

/-- The field descriptor and a virtualised brick (R344, R292, check 16). -/
def fieldGood (l : Launch) : Bool :=
  let axis (n b : Nat) : Bool := 1 ≤ n && n ≤ 2 ^ 24 && 1 ≤ b && n % b == 0
  axis (recX l) (recBx l) && axis (recY l) (recBy l) && axis (recZ l) (recBz l) &&
    recX l * recY l * recZ l * recStages l ≤ 2 ^ 32 - 1 && brickCells l ≤ 64 * positions l

/-- A side table (R52, check 18). DEDUCED: log entry 56. -/
def sideGood (k : Kern) (l : Launch) : Bool :=
  let cap := withOff (recSide l) 0
  if nullCap (recSide l) then !isField l
  else
    let b := capBytes k l.ctx cap 0 32
    capAllows k l.ctx cap 8 && capHolds k l.ctx cap 32 && fieldOf b 0 4 == 0x4B4C5354 && fieldOf b 4 2 == 1 &&
      fieldOf b 6 2 == 0 && fieldOf b 8 4 ≤ 2 ^ 24 && fieldOf b 12 4 % 16 == 0 && fieldOf b 16 4 ≤ 65536 &&
      fieldOf b 20 4 % 32 == 0 && capHolds k l.ctx cap (fieldOf b 12 4 + 16 * fieldOf b 8 4) &&
      capHolds k l.ctx cap (fieldOf b 20 4 + 32 * fieldOf b 16 4)

/-! ## Placement of bricks (R345, check 17) -/

/-- The enabled cores in ascending order. -/
def enabledCores (s : State) : List Nat := (List.range 256).filter fun c => (getBay s (bayOf c)).enabled

/-- Bricks on cores of this device, and bricks on other devices. -/
structure Placement where
  here : List (Nat × Nat)
  away : List (Nat × Nat)
  deriving DecidableEq, Repr

/-- The placement of a table's entries, or the number of the first that fails. -/
def placeEntries (s : State) : Nat → List Nat → Placement → Except Nat Placement
  | _, [], p => .ok p
  | n, e :: es, p =>
    let c := e % 256
    let dev := e / 2 ^ 8 % 2 ^ 19
    if e / 2 ^ 27 != 0 then .error (n % 256)
    else if dev != s.fab.dev then placeEntries s (n + 1) es { p with away := p.away ++ [(n, dev)] }
    else if !(getBay s (bayOf c)).enabled || p.here.any fun x => x.2 == c then .error (n % 256)
    else placeEntries s (n + 1) es { p with here := p.here ++ [(n, c)] }

/-- The placement of a field, or DETAIL: the entry that fails, and 0 where no entry does (R348). DEDUCED: log entry 58. -/
def placementOf (s : State) (l : Launch) : Except Nat Placement :=
  let n := brickCount l
  let cap := recPlace l
  if nullCap cap then
    let cs := enabledCores s
    if cs.length < n then .error 0 else .ok { here := (List.range n).zip cs, away := [] }
  else if !capAllows s.kern l.ctx cap 8 || !capHolds s.kern l.ctx cap (4 * n) then .error 0
  else
    let b := capBytes s.kern l.ctx cap 0 (4 * n)
    placeEntries s 0 ((List.range n).map fun i => fieldOf b (4 * i) 4) { here := [], away := [] }

/-! ## The fit (R349, check 19) -/

/-- One block fits an idle core. -/
def blockFits (l : Launch) : Bool :=
  recGroups l * (recWidth l / 8) * (recRegs l / 8 + 1) ≤ 2048 && blockRows l ≤ 512 && recNacc l ≤ 16 && recNbed l ≤ 32

/-- A brick fits an idle core. -/
def brickFits (l : Launch) (brick : Nat) : Bool :=
  let n := recNblk l
  n ≤ 16 && n * recGroups l ≤ 128 && n * recGroups l * recWidth l ≤ 1024 &&
    n * (recGroups l * (recWidth l / 8) * (recRegs l / 8 + 1)) ≤ 2048 && n * blockRows l + regionRows l brick ≤ 512 &&
    n * recNacc l ≤ 16 && n * recNbed l ≤ 32

/-- The launch fits. -/
def launchFits (l : Launch) (p : Placement) : Bool :=
  if isField l then p.here.all fun x => brickFits l x.1 else blockFits l

/-! ## The checks in order (R348) -/

/-- The first index below n at which a test fails. -/
def firstBad (n : Nat) (good : Nat → Bool) : Option Nat := (List.range n).find? fun i => !good i

/-- A check: its reason, whether it holds, and DETAIL. -/
structure Check where
  reason : Nat
  good : Bool
  detail : Nat
  deriving DecidableEq, Repr

/-- The placement of a launch; nothing for a task. DEDUCED: log entry 58. -/
def placementFor (s : State) (l : Launch) : Except Nat Placement :=
  if isField l then placementOf s l else .ok { here := [], away := [] }

/-- The checks on the record itself. -/
def ownChecks (k : Kern) (l : Launch) : List Check :=
  let plain (reason : Nat) (good : Bool) : Check := { reason := reason, good := good, detail := 0 }
  let listed (reason n : Nat) (good : Nat → Bool) : Check :=
    { reason := reason, good := (firstBad n good).isNone, detail := (firstBad n good).getD 0 }
  [plain 0x01 (recNat l 0 4 == 0x4B4C4C52 && recNat l 4 1 == 1),
    plain 0x02 (recNat l 5 1 == 1 || recNat l 5 1 == 2),
    { reason := 0x03, good := (firstReserved l).isNone, detail := (firstReserved l).getD 0 / 4 },
    plain 0x04 (capAllows k l.ctx (recCode l) 9 && entryGood k l (recEntry l)),
    plain 0x05 (match recHandler l with | none => true | some h => entryGood k l h),
    plain 0x06 (shapeGood l), plain 0x07 (countsGood l), plain 0x08 (padGood l),
    plain 0x09 (recNacc l ≤ 16 && recNbed l ≤ 32),
    plain 0x0A (recClass l != 3 && recValid l != 3 && recRace l != 3), plain 0x0B (ratiosGood l),
    plain 0x0C (recBudget l != 0), listed 0x0D 8 fun i => slotGood l (recFs l i).toNat,
    listed 0x0E 4 (algebraGood k l), listed 0x0F 8 (bindingGood k l), plain 0x10 (!isField l || fieldGood l)]

/-- The checks that concern the device. -/
def placeChecks (s : State) (l : Launch) : List Check :=
  [{ reason := 0x11, good := (placementFor s l).isOk, detail := match placementFor s l with | .error n => n | .ok _ => 0 },
    { reason := 0x12, good := sideGood s.kern l, detail := 0 },
    { reason := 0x13, good := (match placementFor s l with | .ok p => launchFits l p | .error _ => false), detail := 0 }]

/-- The reason and DETAIL for which a record is rejected. -/
def rejection (s : State) (l : Launch) : Option (Nat × Nat) :=
  match (ownChecks s.kern l).find? fun c => !c.good with
  | some c => some (c.reason, c.detail)
  | none => ((placeChecks s l).find? fun c => !c.good).map fun c => (c.reason, c.detail)

/-! ## Tables on other devices (R346, R348, R392) -/

/-- The tables that the checks read: a capability and the bytes from its offset. -/
def recordTables (l : Launch) : List (Nat × Nat) :=
  ([1, 2, 3].map fun i => (recAlg l i, 256)) ++
    ((List.range 8).filter fun i => 2 ≤ recTlKind l i).map (fun i => (recTlCap l i, 64)) ++
    (if isField l then [(recPlace l, 4 * brickCount l)] else []) ++ [(withOff (recSide l) 0, 32)]

/-- What a unit waits for before it checks a record: a table on another device, once the checks on the record alone have passed. -/
def recordAsks (k : Kern) (l : Launch) (u : Nat) : Option Kern :=
  if ((ownChecks k l).take 13).all (·.good) then
    (recordTables l).findSome? fun x =>
      if capAllows k l.ctx x.1 8 && capHolds k l.ctx x.1 x.2 then rangeAsks k u l.ctx x.1 (capOff x.1) x.2 else none
  else none

/-- The state in which a unit checks a record. -/
def forUnit (s : State) (u : Nat) : State := { s with kern := asUnit s.kern u }

/-! ## Admission (R350) -/

/-- The context of a launch that is admitted: an open one runs, with the record's budget and its counts at 0. -/
def enterContext (k : Kern) (l : Launch) : Kern :=
  if (getCtx k l.ctx).state == .opened then
    modCtx k l.ctx fun x =>
      { x with state := .running, ebudget := recBudget l, urcount := 0, racecount := 0, armed := true, firstUr := false,
               firstRace := false }
  else k

/-- The queues that a launch binds are registered with their engines (R346, R190). -/
def bindQueues (k : Kern) (l : Launch) : Kern :=
  (List.range 8).foldl (fun k i => if 2 ≤ recTlKind l i then registerQueue k l.ctx (recTlCap l i) else k) k

/-- The launch as it is admitted: its tables are read once (R94), and its bricks are known. -/
def admitted (s : State) (l : Launch) : Launch :=
  let p : Placement := (placementFor s l).toOption.getD { here := [], away := [] }
  { l with
    tables := (List.range 4).map fun i =>
      if i == 0 || nullCap (recAlg l i) then [] else capBytes s.kern l.ctx (recAlg l i) 0 256,
    total := if isField l then p.here.length * recNblk l else recNblk l,
    bricks := p.here, others := p.away }

/-- Admit a launch whose record a unit has checked. A task that is no card joins the shared block queue. -/
def admitLaunch (s : State) (l : Launch) (u : Nat) : State :=
  let serial := s.kern.serial
  let l := admitted (forUnit s u) l
  let k := bindQueues (enterContext (endUnit s.kern u) l) l
  arbiterDue { s with kern :=
    { k with serial := serial + 1, launches := mset k.launches serial l,
             fields := if isField l then mset k.fields serial .start else k.fields,
             shared := if isField l || l.card then k.shared else k.shared ++ [serial] } }

end Sys2Proof.Machine
end

