-- ==== Sys2Proof/Machine/EventsLaunch.lean ====
section
/-! DEFINITION. Events of launches: dispatch (16 R357 to R361), retirement (09 R279), pre-emption, vacating and re-dispatch (17
R360, R363, R375 to R378), graph runs (16 R351 to R354). -/

namespace Sys2Proof.Machine

/-! ## Blocks that leave a core -/

/-- No copy into the block's scratchpad is in flight, and no MX of it is uncommitted (R279, R375). DEDUCED: log entry 44. -/
def blockQuiet (core : Core) (b : Nat) : Bool :=
  (core.copies.all fun j => !j.dstR.any fun r => r.space == .sp && r.block == b) && core.mxq.all fun m => m.block != b

/-- No bed load of the block is busy, and its threads' accesses have been performed (R375). -/
def blockReleased (core : Core) (b : Nat) : Bool :=
  (core.bedJobs.all fun j => j.block != b) && (core.reqs.all fun q => q.block != b) &&
    (blockThreads core b).all fun t => !holdsStores core t

/-- A block and its threads leave a core, with all that they held (R279, R375). -/
def dropBlock (k : Kern) (c b : Nat) : Kern :=
  match blockOf k c b with
  | none => k
  | some blk =>
    let n := (blk.groups.map fun g => g.cols.length * (g.regs / 8 + 1)).sum
    modCore k c fun core =>
      { core with blocks := mdel core.blocks b, threads := core.threads.filter fun t => t.block != b, slices := core.slices + n,
                  bedJobs := core.bedJobs.filter fun j => j.block != b }

/-- The sampler stops when its owner has left the core; while a block of the owner is vacated it pauses (R252). -/
def sampleEnd (k : Kern) (c : Nat) : Kern :=
  modCore k c fun core =>
    let owned := (core.blocks.any fun p => p.2.ctx == core.sampler.ctx) ||
      k.vacated.any fun v => v.core == c && v.block.ctx == core.sampler.ctx
    { core with sampler := { core.sampler with running := core.sampler.running && owned } }

/-- The blocks of a context on the device. -/
def residentBlocks (k : Kern) (ctx : Nat) : Nat := (k.cores.map fun p => (p.2.blocks.filter fun b => b.2.ctx == ctx).length).sum

/-- A context that is pre-empting has vacated with its last block (R363). DEDUCED: log entry 61. -/
def checkVacated (s : State) (ctx : Nat) : State :=
  if (getCtx s.kern ctx).state == .preempting && residentBlocks s.kern ctx == 0 then
    arbiterDue { s with kern := modCtx s.kern ctx fun x => { x with state := .vacated } }
  else s

/-! ## Retirement (R279, R382) -/

/-- A launch has ended (R382, R426): its record, and a running context is open where it was the last (R363).
DEDUCED: log entry 60. -/
def endLaunch (s : State) (c serial : Nat) (l : Launch) : State :=
  let x := getCtx s.kern l.ctx
  let result := if l.spent || x.ebudget == 0 then 1 else 0
  let k := logRecord s.kern l.ctx 6 serial (cycleOf s.kern c)
    (bytesOfNat 4 x.urcount ++ bytesOfNat 4 x.racecount ++ bytesOfNat 4 x.ebudget ++ [BitVec.ofNat 8 result])
  let k := { k with launches := mset k.launches serial { l with done := true }, fields := mdel k.fields serial }
  let idle := (activeLaunches k l.ctx).isEmpty && x.state == .running
  arbiterDue { s with kern := if idle then modCtx k l.ctx fun x => { x with state := .opened } else k }

/-- The region of a field goes with the last block of the brick (R300). -/
def dropRegion (k : Kern) (c serial : Nat) : Kern :=
  let held := (coreOf k c).blocks.any fun b => b.2.launch == serial
  if held || k.vacated.any fun v => v.launch == serial && v.core == c then k
  else modCore k c fun core => { core with xr := core.xr.filter fun r => r.launch != serial }

/-- Retire a block. DEDUCED: log entry 61. -/
def retireBlock (s : State) (c b : Nat) (blk : Block) : State :=
  let k := leaveBucket (dropRegion (sampleEnd (dropBlock s.kern c b) c) c blk.launch) c blk.ctx
  let s := noteEmpty { s with kern := k } (bayOf c)
  match mget s.kern.launches blk.launch with
  | none => s
  | some l =>
    let l := { l with retired := l.retired + 1 }
    let s := { s with kern := { s.kern with launches := mset s.kern.launches blk.launch l } }
    checkVacated (if l.retired == l.total then endLaunch s c blk.launch l else s) blk.ctx

/-- Every publication of a field's cells on the core is readable: its notices have left or may leave (R221, R288). -/
def publicationsOut (core : Core) (serial : Nat) : Bool := core.xr.all fun r => r.launch != serial || r.unready.isEmpty

/-- BLOCK_RETIRE: every thread has exited. -/
def execBlockRetire (core block : Nat) (s : State) : Host.Outcome State Fault Refusal :=
  match blockOf s.kern core block with
  | none => answer s
  | some blk =>
    let x := coreOf s.kern core
    if blockQuiet x block && publicationsOut x blk.launch && (blockThreads x block).all (fun t => t.loc == .exited) &&
        (getCtx s.kern blk.ctx).state != .stopped
    then answer (retireBlock s core block blk)
    else answer s

/-! ## Stand-down slots (R378) -/

/-- The bytes of a slot. -/
def slotSize : Nat := 34880

/-- The offsets of the slots that lie wholly within SAVE's object, with STATE 0. DEDUCED: log entry 59. -/
def freeSlots (k : Kern) (ctx : Nat) : List Nat :=
  let cap := (getCtx k ctx).save.toNat
  match getObj k ctx (capObj cap) with
  | none => []
  | some e =>
    ((List.range ((e.size - capOff cap) / slotSize)).map fun i => capOff cap + slotSize * i).filter fun off =>
      (objRuns k ctx (capObj cap) off slotSize).isOk && readObj k ctx (capObj cap) off 8 == some (List.replicate 8 0)

/-- The record of a thread position: k0 to k7 of a thread that has not exited, else zero. -/
def standRecord (ts : List Thread) (w n : Nat) : List Byte :=
  match ts.find? fun t => live t && t.group * w + t.glane == n with
  | some t => t.regs.k.flatMap fun x => bytesOfNat 4 x.toNat
  | none => List.replicate 32 0

/-- The bytes that stand for the block state, in the device's own form. -/
def formBytes (form : Nat) : List Byte := (List.range 2048).map fun i => Config.slotByte form i

/-- The bytes of a slot from LAUNCH on. -/
def slotBytes (blk : Block) (ts : List Thread) (form : Nat) : List Byte :=
  bytesOfNat 8 blk.launch ++ bytesOfNat 4 blk.number ++ bytesOfNat 2 blk.groups.length ++
    [BitVec.ofNat 8 (if blk.width == 8 then 0 else if blk.width == 16 then 1 else if blk.width == 32 then 2 else 3),
      BitVec.ofNat 8 blk.index] ++
    List.replicate 40 0 ++ formBytes form ++ (List.range 1024).flatMap (standRecord ts blk.width)

/-- Write a slot; STATE last. -/
def writeStand (k : Kern) (blk : Block) (ts : List Thread) (off form : Nat) : Kern :=
  let o := capObj (getCtx k blk.ctx).save.toNat
  writeObj (writeObj k blk.ctx o (off + 8) (slotBytes blk ts form)) blk.ctx o off (bytesOfNat 8 1)

/-! ## Vacating (R375) -/

/-- Vacate a block into a slot. -/
def vacateBlock (s : State) (c b : Nat) (blk : Block) (off : Nat) : State :=
  let k := s.kern
  let ts := (blockThreads (coreOf k c) b).filter live
  let k := writeStand k blk ts off k.free
  let v : Vacated := { launch := blk.launch, slot := off, core := c, block := blk, threads := ts, form := k.free }
  let k := dropBlock { k with free := k.free + 1, vacated := k.vacated ++ [v] } c b
  checkVacated (noteEmpty { s with kern := leaveBucket k c blk.ctx } (bayOf c)) blk.ctx

/-- No slot is free: the context stops as for a double trap, with the pre-emption record of the block's lowest thread (R378). -/
def vacateFails (k : Kern) (c b : Nat) (blk : Block) : Kern :=
  match minBy (memberId blk) ((blockThreads (coreOf k c) b).filter fun t => t.loc == .down) with
  | some t => stopContext k blk.ctx c t (t.regs.k.take 4)
  | none => k

/-- BLOCK_VACATE. -/
def execBlockVacate (core block : Nat) (s : State) : Host.Outcome State Fault Refusal :=
  match blockOf s.kern core block with
  | none => answer s
  | some blk =>
    let x := coreOf s.kern core
    let ts := blockThreads x block
    if blockQuiet x block && blockReleased x block && (ts.all fun t => t.loc == .exited || t.loc == .down) && (ts.any fun t => t.loc == .down) &&
        (getCtx s.kern blk.ctx).state == .preempting then
      match freeSlots s.kern blk.ctx with
      | off :: _ => answer (vacateBlock s core block blk off)
      | [] => answer { s with kern := vacateFails s.kern core block blk }
    else answer s

/-! ## Re-dispatch (R377) -/

/-- Synchronisation state that is undefined, from numbers. -/
def wildPeg (n i groups members : Nat) : Peg :=
  let x (j : Nat) : Nat := Config.wildSync n (16 * i + j)
  let some_ (j : Nat) : List Nat := (List.range members).filter fun m => (x j).testBit m
  { first := x 0 % groups, count := x 1 % groups + 1,
    episode := if x 2 % 4 == 0 then .none else if x 2 % 4 == 1 then .meetOpen else if x 2 % 4 == 2 then .signOpen else .signClosed,
    arrived := some_ 3, owedMeet := some_ 4, owedSign := some_ 5, pass := some_ 6, lastMx := none }

/-- A barrier that is undefined. -/
def wildBarrier (n i members : Nat) : Barrier :=
  let gen := BitVec.ofNat 16 (Config.wildSync n (512 + 4 * i))
  let is (j m : Nat) : Bool := (Config.wildSync n (512 + 4 * i + j)).testBit m
  { gen := gen,
    arr := ((List.range members).filter (is 1)).map fun m => (m, if is 2 m then Arrival.owed else Arrival.inGen gen), next := 0,
    due := 0, order := 0 }

/-- The synchronisation state of a slot: as it was, or undefined where software has altered the block state there. -/
def slotSync (k : Kern) (o : Nat) (v : Vacated) : Block :=
  let blk := v.block
  let n := blk.groups.length * blk.width
  if readObj k blk.ctx o (v.slot + 64) 2048 == some (formBytes v.form) then blk
  else
    { blk with pegs := (List.range 16).map fun i => wildPeg v.form i blk.groups.length n,
               bars := (List.range 8).map fun i => wildBarrier v.form i n,
               bg := BitVec.ofNat 16 (Config.wildSync v.form 1024) }

/-- The records of a slot by thread position. -/
def slotRecord (bs : List Byte) (n : Nat) : List W32 := (List.range 8).map fun i => BitVec.ofNat 32 (fieldOf bs (32 * n + 4 * i) 4)

/-- The group-lanes of a group whose record is not zero. -/
def slotLanes (bs : List Byte) (w g : Nat) : List Nat := (List.range w).filter fun i => !zeroRange bs (32 * (g * w + i)) 32

/-- The columns of a group that a slot gives threads. -/
def slotColumns (bs : List Byte) (w g : Nat) : List Nat := (List.range (w / 8)).filter fun j => (slotLanes bs w g).any fun i => i / 8 == j

/-- The slices that a vacated block needs. -/
def slotSlices (bs : List Byte) (blk : Block) : Nat :=
  (((List.range blk.groups.length).zip blk.groups).map fun p => (slotColumns bs blk.width p.1).length * (p.2.regs / 8 + 1)).sum

/-- The block as it restarts. -/
def restartedBlock (blk : Block) (bs : List Byte) (order : Nat) (r : Room) : Block :=
  { blk with
    order := order,
    groups := ((List.range blk.groups.length).zip (blk.groups.zip r.seats)).map fun p =>
      { tslot := p.2.2.tslot, base := p.2.2.base, regs := p.2.1.regs, cols := slotColumns bs blk.width p.1, early := [],
        s := (List.range 64).map fun i => Config.lostScalar order (64 * p.1 + i) },
    baseRow := r.row, valid := [], stamps := [], jigs := List.replicate 16 Jig.empty,
    pegs := blk.pegs.map fun p => { p with lastMx := none },
    accs := List.replicate blk.accs.length Acc.clear, beds := List.replicate blk.beds.length Bed.clear }

/-- A thread as it restarts in the handler, with the cell that it held, and with an exhausted budget that it has not met
yet (R426). -/
def restartedThread (s : State) (c : Nat) (v : Vacated) (slot handler g i : Nat) (seat : Seat) (rec_ : List W32) : Thread :=
  let t := restarted (newThread s c seat slot g i handler none) rec_ handler
  match v.threads.find? fun u => u.group == g && u.glane == i with
  | some u => { t with cell := u.cell, settle := u.settle, stage := u.stage, marks := u.marks, asyncBudget := u.asyncBudget }
  | none => t

/-- RESTART. -/
def restartBlock (s : State) (l : Launch) (v : Vacated) (c o : Nat) (bs : List Byte) (r : Room) : State :=
  let k := s.kern
  let blk := slotSync k o v
  let k := wakeBanks (wipe k (rowBase c r.row) (blk.rows * 1536)) c
  let k := modCore { k with order := k.order + 1 } c fun core =>
    { core with blocks := mset core.blocks r.slot (restartedBlock blk bs k.order r), slices := core.slices - r.slices }
  let k := dropLines (copyParams (enterBucket k c l.ctx) c r.slot l blk.number blk.index) c
  let h := (recHandler l).getD 0
  let x := countStarts s (bayOf c) r.seats.length
  let gs := (x.2.zip r.seats).zipIdx.map fun p =>
    (p.1.1, (slotLanes bs blk.width p.2).map fun i =>
      restartedThread s c v r.slot h p.2 i p.1.2 (slotRecord bs (p.2 * blk.width + i)))
  let k := writeObj (beginGroups k c gs) l.ctx o v.slot (List.replicate 8 0)
  { x.1 with kern := { k with vacated := k.vacated.filter fun x => !(x.slot == v.slot && x.launch == v.launch) } }

/-- Bring a vacated block back to a core, where it finds room. -/
def bringBack (s : State) (l : Launch) (v : Vacated) (c : Nat) : Option State :=
  let o := capObj (getCtx s.kern l.ctx).save.toNat
  match readObj s.kern l.ctx o (v.slot + 2112) 32768 with
  | none => none
  | some bs => (roomFor (coreOf s.kern c) l (slotSlices bs v.block)).map fun r => restartBlock s l v c o bs r

/-- Bring back several blocks, each to its own core, or none (R377). -/
def bringAll (l : Launch) : List Vacated → State → Option State
  | [], s => some s
  | v :: vs, s =>
    match bringBack s l v v.core with
    | none => none
    | some s => bringAll l vs s

/-- The context of a re-dispatched block runs (R363). -/
def runContext (s : State) (ctx : Nat) : State :=
  if (getCtx s.kern ctx).state == .vacated then
    arbiterDue { s with kern := modCtx s.kern ctx fun x => { x with state := .running } }
  else s

/-- Ask for every bay of a list; all of them run. -/
def leaseAll (s : State) : List Nat → State × Bool
  | [] => (s, true)
  | b :: bs =>
    let x := takeLease s b
    let y := leaseAll x.1 bs
    (y.1, x.2 && y.2)

/-- The lease of a bay is over. -/
def endLease (s : State) (b : Nat) : State := modBay s b fun x => { x with lease := false }

/-! ## What a core may take (R357, R358) -/

/-- Blocks of a context may be dispatched. -/
def mayRun (k : Kern) (ctx : Nat) : Bool := (getCtx k ctx).state == .running || (getCtx k ctx).state == .opened

/-- The launch of a card, or its record as it was posted where it is not admitted yet (R356). DEDUCED: log entry 106. -/
def cardLaunch (k : Kern) (x : Card) : Option Launch :=
  match x.launch with
  | some n => mget k.launches n
  | none => some { draft x.ctx x.rec_ with graph := x.graph, node := x.card, card := true }

/-- The first card of a queue whose context may run, with its place and its launch. -/
def headCard (k : Kern) (q : List Card) : Option (Nat × Card × Launch) :=
  ((List.range q.length).zip q).findSome? fun p =>
    if mayRun k p.2.ctx then (cardLaunch k p.2).map fun l => (p.1, p.2, l) else none

/-- The head of the shared queue: the earliest launch whose context may run. DEDUCED: log entry 62. -/
def headShared (k : Kern) : Option (Nat × Launch) :=
  k.shared.findSome? fun n => (mget k.launches n).bind fun l => if mayRun k l.ctx then some (n, l) else none

/-- A block of higher priority waits at the head of the shared queue, which takes resources as they return (R360). -/
def outranked (k : Kern) (l : Launch) : Bool :=
  match headShared k with
  | some (_, h) => recPrio l < recPrio h
  | none => false

/-- A vacated block of a launch may stand on a core (R377): a field's on its own core, a core card's there too, a bay card's in its
bay, another task's on any. -/
def returnsTo (l : Launch) (v : Vacated) (c : Nat) : Bool :=
  if isField l || l.pinned then v.core == c else !l.card || bayOf v.core == bayOf c

/-- A core may take a vacated block (R360, R377, R433). -/
def returnable (s : State) (c : Nat) (l : Launch) (v : Vacated) : Bool :=
  let st := (getCtx s.kern l.ctx).state
  (st == .running || st == .vacated) && !outranked s.kern l && returnsTo l v c && (getBay s (bayOf c)).enabled

/-- SLOPE lets a core start a vacated task block (R421). DEDUCED: log entry 115. -/
def mayStart (s : State) (c : Nat) (l : Launch) : Bool := isField l || slopeFree s (bayOf c)

/-- The highest of some priorities. -/
def topPrio (ps : List Nat) : Option Nat := ps.foldl (fun m p => some (max p (m.getD 0))) none

/-- The highest priority among the vacated task blocks that a core may take and that fit it. -/
def vacatedPrio (s : State) (c : Nat) : Option Nat :=
  topPrio (s.kern.vacated.filterMap fun v => (mget s.kern.launches v.launch).bind fun l =>
    if returnable s c l v && !isField l && mayStart s c l && (bringBack s l v c).isSome then some (recPrio l) else none)

/-- The cards at the heads of a core's queues that fit it. -/
def fittingCards (s : State) (c : Nat) : List Launch :=
  (((headCard s.kern (coreOf s.kern c).cards).map (·.2.2)).toList ++
    ((headCard s.kern ((mget s.kern.bayCards (bayOf c)).getD [])).map (·.2.2)).toList).filter fun l =>
      (roomFor (coreOf s.kern c) l (blockSlices l 0)).isSome && slopeFree s (bayOf c)

/-- A vacated block takes its turn on a core: no vacated block of higher priority may take it, and no card of at least its priority
(R358, R377). -/
def mayReturn (s : State) (c : Nat) (l : Launch) (v : Vacated) : Bool :=
  returnable s c l v && (vacatedPrio s c).all (· ≤ recPrio l) && (fittingCards s c).all fun x => recPrio x < recPrio l

/-- A vacated block of a launch waits: it goes ahead of the launch's undispatched blocks (R377). -/
def behindVacated (k : Kern) (serial : Nat) : Bool := k.vacated.any fun v => v.launch == serial

/-- Where a core's next block comes from. -/
inductive Source where
  | ofCore (i : Nat) (x : Card) (l : Launch)
  | ofBay (i : Nat) (x : Card) (l : Launch)
  | ofShared (serial : Nat) (l : Launch)
  deriving DecidableEq, Repr

/-- The launch of a source. -/
def sourceLaunch : Source → Launch
  | .ofCore _ _ l | .ofBay _ _ l => l
  | .ofShared _ l => l

/-- The serial of a source's launch, where it is admitted. -/
def sourceSerial : Source → Option Nat
  | .ofCore _ x _ | .ofBay _ x _ => x.launch
  | .ofShared n _ => some n

/-- The sources of a core in the order of R358, those whose next block fits and no vacated block of the same launch waits for. A
vacated block that fits here goes before the head of the shared queue where its priority is at least as high, and before a card
where it is higher. DEDUCED: log entry 62. -/
def sources (s : State) (c : Nat) : List Source :=
  let k := s.kern
  let core := coreOf k c
  let xs := ((headCard k core.cards).map fun p => Source.ofCore p.1 p.2.1 p.2.2).toList ++
    ((headCard k ((mget k.bayCards (bayOf c)).getD [])).map fun p => Source.ofBay p.1 p.2.1 p.2.2).toList ++
    ((headShared k).map fun p => Source.ofShared p.1 p.2).toList
  xs.filter fun x =>
    let l := sourceLaunch x
    (roomFor core l (blockSlices l 0)).isSome && slopeFree s (bayOf c) && !(sourceSerial x).any (behindVacated k) &&
      match x with
      | .ofShared _ _ => (match vacatedPrio s c with | some p => p < recPrio l | none => true)
      | _ => (vacatedPrio s c).all (· ≤ recPrio l)

/-- The source that a core chooses: the highest priority. DEDUCED: log entry 64. -/
def chooseSource (s : State) (c : Nat) : Option Source :=
  if (getBay s (bayOf c)).enabled then minBy (fun x => 3 - recPrio (sourceLaunch x)) (sources s c) else none

/-! ## Dispatch (R355 to R359) -/

/-- Start the next block of a launch on a core. -/
def startNext (s : State) (c serial : Nat) : State :=
  match mget s.kern.launches serial with
  | none => s
  | some l =>
    match roomFor (coreOf s.kern c) l (blockSlices l 0) with
    | none => s
    | some r =>
      let s := startBlock s c l serial l.next 0 r
      endLease { s with kern := { s.kern with launches := mmod s.kern.launches serial (fun x => { x with next := x.next + 1 }) } }
        (bayOf c)

/-- Every block of a launch has been dispatched. -/
def dispatched (k : Kern) (serial : Nat) : Bool := ((mget k.launches serial).map fun l => l.next == l.total).getD true

/-- A queue of cards after one of them has been served: it goes once its blocks have been dispatched. -/
def servedCards (k : Kern) (serial i : Nat) (q : List Card) : List Card :=
  if dispatched k serial then q.eraseIdx i else lmod q i fun x => { x with launch := some serial }

/-- The unit that reads the tables of a card. -/
def cardUnit (x : Card) : Nat := recordUnit x.graph (1024 + x.card)

/-- The launch of a card, admitted where it was not (R356): its algebra tables are read now and not checked again.
DEDUCED: log entry 106. -/
def admitCard (s : State) (x : Card) (l : Launch) : State × Nat :=
  match x.launch with
  | some n => (s, n)
  | none => (admitLaunch s l (cardUnit x), s.kern.serial)

/-- Start a block of a card. -/
def startCard (s : State) (c : Nat) (x : Card) (l : Launch) (store : Kern → Nat → Kern) : State :=
  let y := admitCard s x l
  let s := startNext y.1 c y.2
  { s with kern := store s.kern y.2 }

/-- A bay whose clock runs may pull for a core: 64 core cycles have passed, and a core of it chooses the shared queue (R359). -/
def bayPulls (s : State) (b : Nat) : Bool :=
  (getBay s b).gate == .on && (getBay s b).nextPull ≤ bayCycle s.kern b &&
    (List.range 8).any fun i => match chooseSource s (b * 8 + i) with | some (.ofShared _ _) => true | _ => false

/-- Another bay pulls before this one: it has waited longer since its last pull, or as long and is lower (R359).
DEDUCED: log entry 63. -/
def pullsBefore (s : State) (b : Nat) : Bool :=
  (List.range 32).any fun x =>
    ((getBay s x).lastPull < (getBay s b).lastPull || ((getBay s x).lastPull == (getBay s b).lastPull && x < b)) && bayPulls s x

/-- The bay's dispatcher pulls a block of the shared queue: one per 64 core cycles of the bay, in its turn among the bays
(R359). -/
def pullShared (s : State) (c serial : Nat) : State :=
  let b := bayOf c
  let now := bayCycle s.kern b
  if now < (getBay s b).nextPull || pullsBefore s b then endLease s b
  else
    let s := startNext s c serial
    modBay { s with kern := { s.kern with shared := if dispatched s.kern serial then s.kern.shared.filter (· != serial)
                                                   else s.kern.shared } } b fun x =>
      { x with nextPull := now + 64, lastPull := s.kern.net }

/-- What a source waits for: the tables of a card that is not admitted yet. -/
def sourceAsks (k : Kern) : Source → Option Kern
  | .ofCore _ x l | .ofBay _ x l => if x.launch.isNone then recordAsks k l (cardUnit x) else none
  | .ofShared _ _ => none

/-- Take the chosen block, where the bay runs (R361). DEDUCED: log entry 67. -/
def takeBlock (s : State) (c : Nat) (x : Source) : State :=
  match sourceAsks s.kern x, takeLease s (bayOf c) with
  | some k, _ => { s with kern := k }
  | none, (s, false) => s
  | none, (s, true) =>
    match x with
    | .ofCore i y l =>
      startCard s c y { l with pinned := true } fun k n => modCore k c fun core => { core with cards := servedCards k n i core.cards }
    | .ofBay i y l =>
      startCard s c y l fun k n =>
        { k with bayCards := mset k.bayCards (bayOf c) (servedCards k n i ((mget k.bayCards (bayOf c)).getD [])) }
    | .ofShared n _ => pullShared s c n

/-- BLOCK_DISPATCH. -/
def execBlockDispatch (core : Nat) (s : State) : Host.Outcome State Fault Refusal :=
  match chooseSource s core with
  | none => answer s
  | some x => answer (takeBlock s core x)

/-- BAY_DISPATCH_PULL: only from the shared queue. -/
def execBayDispatchPull (bay core : Nat) (s : State) : Host.Outcome State Fault Refusal :=
  match chooseSource s core with
  | some (.ofShared n l) => if bayOf core == bay then answer (takeBlock s core (.ofShared n l)) else answer s
  | _ => answer s

/-- BLOCK_REDISPATCH: a task block takes a core that may take it; the vacated blocks of a field return together.
DESIGN CHOICE: log entry 111. -/
def execBlockRedispatch (vac core : Nat) (s : State) : Host.Outcome State Fault Refusal :=
  match s.kern.vacated[vac]? with
  | none => answer s
  | some v =>
    match mget s.kern.launches v.launch with
    | none => answer s
    | some l =>
      let vs := if isField l then s.kern.vacated.filter fun x => x.launch == v.launch else [{ v with core := core }]
      if !(returnsTo l v core && mayStart s core l && vs.all fun x => mayReturn s x.core l x) then answer s
      else
        match leaseAll s (vs.map fun x => bayOf x.core) with
        | (s, false) => answer s
        | (s, true) =>
          match bringAll l vs s with
          | none => answer s
          | some t => answer (runContext (vs.foldl (fun t x => endLease t (bayOf x.core)) t) l.ctx)

/-- FIELD_PLACEMENT: a field takes all its cores in one dispatch cycle (R350). -/
def execFieldPlacement (launch : Nat) (s : State) : Host.Outcome State Fault Refusal :=
  match mget s.kern.launches launch with
  | none => answer s
  | some l =>
    if l.placed || l.done || !isField l || !mayRun s.kern l.ctx then answer s
    else if l.bricks.isEmpty then answer (endLaunch s (refCore s 0) launch l)
    else
      match leaseAll s (l.bricks.map fun p => bayOf p.2) with
      | (s, false) => answer s
      | (s, true) =>
        match startBricks l launch l.bricks s with
        | none => answer s
        | some t =>
          let t := l.bricks.foldl (fun t p => endLease t (bayOf p.2)) t
          answer { t with kern :=
            { t.kern with launches := mset t.kern.launches launch { l with placed := true, next := l.total } } }

/-! ## Pre-emption (R360, R363) -/

/-- The priority of a context: the highest of its launches with a block resident or queued. -/
def ctxPrio (k : Kern) (ctx : Nat) : Nat := (activeLaunches k ctx).foldl (fun m l => max m (recPrio l)) 0

/-- The serial of a context's latest launch. -/
def ctxSerial (k : Kern) (ctx : Nat) : Nat := k.launches.foldl (fun m p => if p.2.ctx == ctx && !p.2.done then max m p.1 else m) 0

/-- The dispatcher may send pre-emption to a context for a block of a priority. -/
def preemptible (k : Kern) (prio ctx : Nat) : Bool :=
  let x := getCtx k ctx
  let n := residentBlocks k ctx
  x.state == .running && 0 < n && ctxPrio k ctx < prio && !lacksHandler k ctx && !nullCap x.save.toNat &&
    n ≤ (freeSlots k ctx).length

/-- The context to pre-empt: the lowest priority, then the latest admitted. -/
def preemptVictim (k : Kern) (prio : Nat) : Option Nat :=
  minBy (fun x => ctxPrio k x * 2 ^ 64 + (2 ^ 64 - 1 - ctxSerial k x)) ((List.range 16).filter (preemptible k prio))

/-- The head of the shared queue fits nowhere. -/
def fitsNowhere (s : State) (l : Launch) : Bool :=
  (enabledCores s).all fun c => (roomFor (coreOf s.kern c) l (blockSlices l 0)).isNone

/-- PREEMPTION_SEND: one at a time. -/
def execPreemptionSend (s : State) : Host.Outcome State Fault Refusal :=
  match headShared s.kern with
  | none => answer s
  | some (_, l) =>
    if !fitsNowhere s l || s.kern.ctxs.any fun p => p.2.state == .preempting then answer s
    else
      match preemptVictim s.kern (recPrio l) with
      | none => answer s
      | some x =>
        answer (arbiterDue { s with kern := deliverAsync (modCtx s.kern x fun y => { y with state := .preempting }) x false })

/-! ## Graph runs (R352 to R354) -/

/-- A graph's run status word, where its capability still passes (R354). -/
def storeStatus (k : Kern) (g : Graph) (reason detail node : Nat) : Kern :=
  let cap := g.status.toNat
  match checkObj k g.ctx cap (capOff cap) 8 8 4 with
  | .error _ => k
  | .ok ea =>
    writeObj k g.ctx (capObj cap) ea (bytesOfNat 8 (reason * 2 ^ 56 + detail * 2 ^ 48 + node * 2 ^ 32 + g.runs.toNat))

/-- A trigger word has its form (R352). -/
def triggerGood (w : Nat) : Bool := w / 2 ^ 48 % 64 == 0 && w / 2 % 8 == 0 && (w % 2 == 1 || w / 16 % 2 ^ 44 == 0)

/-- TRIGGER. -/
def execTrigger (w : W64) (s : State) : Host.Outcome State Fault Refusal :=
  let n := w.toNat / 2 ^ 54
  match mget s.kern.graphs n with
  | none => answer s
  | some g =>
    if triggerGood w.toNat && g.triggers.length < 4 then
      answer { s with kern := { s.kern with graphs := mset s.kern.graphs n { g with triggers := g.triggers ++ [w] } } }
    else answer { s with kern := storeStatus s.kern g 0x21 0 0 }

/-- An entry of a patch list (R353). -/
structure Patch where
  node : Nat
  off : Nat
  size : Nat
  value : Nat
  deriving DecidableEq, Repr

/-- The entry at an offset of the list, where it keeps R353. -/
def patchAt (nodes : Nat) (b : List Byte) (i : Nat) : Option Patch :=
  let o := 16 + 16 * i
  let p : Patch := { node := fieldOf b o 2, off := fieldOf b (o + 2) 2, size := fieldOf b (o + 4) 1, value := fieldOf b (o + 8) 8 }
  if p.node < nodes && (p.size == 4 || p.size == 8) && p.off % p.size == 0 && p.off + p.size ≤ 512 && fieldOf b (o + 5) 3 == 0
  then some p else none

/-- Every entry of the list, or none. -/
def patchesOf (nodes : Nat) (b : List Byte) : Nat → Option (List Patch)
  | 0 => some []
  | n + 1 =>
    match patchesOf nodes b n, patchAt nodes b n with
    | some ps, some p => some (ps ++ [p])
    | _, _ => none

/-- The unit that reads the patch list of a graph. -/
def patchUnit (graph : Nat) : Nat := recordUnit graph 8190

/-- The offset of a trigger's patch list in PATCHOBJ. -/
def patchOff (w : Nat) : Nat := w / 16 % 2 ^ 44 * 16

/-- The number of entries of a patch list; none where its header breaks R353. -/
def patchCount (k : Kern) (u : Nat) (g : Graph) (w : Nat) : Option Nat :=
  let cap := g.patchobj.toNat
  match checkObj k g.ctx cap (patchOff w) 16 16 8 with
  | .error _ => none
  | .ok _ =>
    let h := (readRange k u g.ctx cap (patchOff w) 16).getD []
    let n := fieldOf h 4 4
    if fieldOf h 0 4 != 0x4B4C5054 || 4096 < n || fieldOf h 8 8 != 0 then none else some n

/-- The patch list of a trigger; none where a header or an entry breaks R353. -/
def patchList (k : Kern) (u : Nat) (g : Graph) (w : Nat) : Option (List Patch) :=
  let cap := g.patchobj.toNat
  match patchCount k u g w with
  | none => none
  | some n =>
    match checkObj k g.ctx cap (patchOff w) (16 + 16 * n) 16 8 with
    | .error _ => none
    | .ok _ => patchesOf g.nodes.length ((readRange k u g.ctx cap (patchOff w) (16 + 16 * n)).getD []) n

/-- A record with a patch applied. -/
def patched (p : Patch) (n : Node) : Node :=
  { n with rec_ := n.rec_.take p.off ++ bytesOfNat p.size p.value ++ n.rec_.drop (p.off + p.size) }

/-- A card node is prepared while its record passes and is a task's (R355). -/
def preparedCard (s : State) (ctx : Nat) (n : Node) : Bool :=
  let l := draft ctx n.rec_
  !isField l && (rejection s l).isNone

/-- What a unit waits for before it checks card nodes: their tables on other devices. -/
def nodesAsk (k : Kern) (u ctx : Nat) (ns : List Node) : Option Kern :=
  (ns.filter (·.card)).findSome? fun n => recordAsks k (draft ctx n.rec_) u

/-- The predecessors of a node by its number. -/
def predecessors (ns : List Node) (i : Nat) : Nat := (ns.map fun n => n.succ.count i).sum

/-- The nodes as a run starts: nothing admitted or done, each with its count of predecessors. -/
def freshNodes (ns : List Node) : List Node :=
  ((List.range ns.length).zip ns).map fun p => { p.2 with waiting := predecessors ns p.1, done := false, admitted := false }

/-- The nodes with patches applied, and the patched card nodes checked again. -/
def patchNodes (s : State) (ctx : Nat) (ps : List Patch) (ns : List Node) : List Node :=
  let ms := ps.foldl (fun ns p => lmod ns p.node (patched p)) ns
  ((List.range ms.length).zip ms).map fun x =>
    if x.2.card && ps.any fun p => p.node == x.1 then { x.2 with prepared := preparedCard s ctx x.2 } else x.2

/-- Start the run of a graph's first trigger (R353): a malformed list fails it before anything is applied. -/
def startRun (s : State) (n : Nat) (g : Graph) (w : Nat) : State :=
  let u := patchUnit n
  let put (g : Graph) : State := { s with kern := { endUnit s.kern u with graphs := mset s.kern.graphs n g } }
  let begun (ns : List Node) (failed : Option (Nat × Nat × Nat)) : Graph :=
    { g with running := true, failed := failed, cardsOut := 0, nodes := freshNodes ns }
  if w % 2 == 1 then
    match patchList s.kern u g w with
    | none => put (begun g.nodes (some (0, 0x20, 0)))
    | some ps => put (begun (patchNodes (forUnit s u) g.ctx ps g.nodes) none)
  else put (begun g.nodes none)

/-- What the start of a run waits for: its patch list, and the tables of its patched cards, where they are on other devices. -/
def runAsks (k : Kern) (n : Nat) (g : Graph) (w : Nat) : Option Kern :=
  let u := patchUnit n
  let cap := g.patchobj.toNat
  if w % 2 == 0 then none
  else
    let held (size : Nat) : Option Kern :=
      if (checkObj k g.ctx cap (patchOff w) size 16 8).isOk then rangeAsks k u g.ctx cap (patchOff w) size else none
    ((held 16).or ((patchCount k u g w).bind fun m => held (16 + 16 * m))).or
      ((patchList k u g w).bind fun ps => nodesAsk k u g.ctx (ps.foldl (fun ns p => lmod ns p.node (patched p)) g.nodes))

/-- RUN. -/
def execRun (graph : Nat) (s : State) : Host.Outcome State Fault Refusal :=
  match mget s.kern.graphs graph with
  | none => answer s
  | some g =>
    match g.triggers with
    | [] => answer s
    | w :: _ =>
      if g.running then answer s
      else match runAsks s.kern graph g w.toNat with
        | some k => answer { s with kern := k }
        | none => answer (startRun s graph g w.toNat)

/-- Change a node of a graph. -/
def modNode (k : Kern) (n i : Nat) (f : Node → Node) : Kern :=
  { k with graphs := mmod k.graphs n fun g => { g with nodes := lmod g.nodes i f } }

/-- ADMISSION of a node whose predecessors have completed. A rejected one stops the run from admitting more (R354). -/
def execAdmission (graph node : Nat) (s : State) : Host.Outcome State Fault Refusal :=
  match (mget s.kern.graphs graph).bind fun g => (g.nodes[node]?).map fun n => (g, n) with
  | none => answer s
  | some (g, n) =>
    if !g.running || g.failed.isSome || n.card || n.admitted || n.waiting != 0 then answer s
    else
      let l := { draft g.ctx n.rec_ with graph := graph, node := node }
      let u := recordUnit graph node
      match recordAsks s.kern l u, rejection (forUnit s u) l with
      | some k, _ => answer { s with kern := k }
      | none, some r =>
        answer { s with kern :=
          { endUnit s.kern u with graphs := mset s.kern.graphs graph { g with failed := some (node, r.1, r.2) } } }
      | none, none =>
        let s := admitLaunch s l u
        answer { s with kern := modNode s.kern graph node fun x => { x with admitted := true } }

/-- A node's successors after it has completed. -/
def afterNode (i : Nat) (g : Graph) : Graph :=
  match g.nodes[i]? with
  | none => g
  | some n =>
    let ended := lmod g.nodes i fun x => { x with done := true }
    { g with nodes := n.succ.foldl (fun ns j => lmod ns j fun y => { y with waiting := y.waiting - 1 }) ended }

/-- Accesses of a launch have not been performed yet: its completion releases them (R354). -/
def accessesOut (k : Kern) (serial : Nat) : Bool :=
  k.cores.any fun p => (p.2.reqs.any fun q => q.serial == serial) || p.2.wc.any fun e => e.serials.contains serial

/-- NODE_COMPLETE: every block of the launch has retired, and their accesses have been performed; none of a stopped
context (R381). A card counts towards the run of its poster's graph. -/
def execNodeComplete (launch : Nat) (s : State) : Host.Outcome State Fault Refusal :=
  match mget s.kern.launches launch with
  | none => answer s
  | some l =>
    if !l.done || l.counted || accessesOut s.kern launch || (getCtx s.kern l.ctx).state == .stopped then answer s
    else
      let f (g : Graph) : Graph := if l.card then { g with cardsOut := g.cardsOut - 1 } else afterNode l.node g
      answer { s with kern :=
        { s.kern with launches := mset s.kern.launches launch { l with counted := true },
                      graphs := mmod s.kern.graphs l.graph f } }

/-- The run of a graph has nothing left: every node that is no card has completed, or, once a node was rejected, every
admitted one; and every posted card has. -/
def runOver (g : Graph) : Bool :=
  g.running && g.cardsOut == 0 && g.nodes.all fun n => n.card || n.done || (g.failed.isSome && !n.admitted)

/-- RUN_END. -/
def execRunEnd (graph : Nat) (s : State) : Host.Outcome State Fault Refusal :=
  match mget s.kern.graphs graph with
  | none => answer s
  | some g =>
    if !runOver g then answer s
    else
      let g := { g with running := false, failed := none, runs := g.runs + 1, triggers := g.triggers.drop 1 }
      let r := ((mget s.kern.graphs graph).bind (·.failed)).getD (0, 0, 0)
      let k := storeStatus s.kern g r.2.1 r.2.2 r.1
      answer { s with kern := { k with graphs := mset k.graphs graph g } }

end Sys2Proof.Machine
end

