-- ==== Sys2Proof/Machine/EventsField.lean ====
section
/-! DEFINITION. Events of fields: notices that are installed (10 R288, R289), publications of STEP.R that become readable (07
R221), and steps that the truss completes, with the settle decision (10 R297, R298; 07 R225). -/

namespace Sys2Proof.Machine

/-! ## Cold zeroing (R298) -/

/-- Zero P(t) of a record in place; a current bank with a tag below t takes the tag t. -/
def zeroPublication (k : Kern) (a t : Nat) : Kern :=
  let bank := bankFor k a t
  let cur := currentBank k a
  let older : Bool := getInt64 k (a + 128 + 8 * cur) < (t : Int)
  let k := putBytes k (a + 64 * bank) (List.replicate 64 0)
  if older then putBytes k (a + 128 + 8 * cur) (bytesOfNat 8 t) else k

/-- The cold decisions of a field for steps from one on, in order. -/
def coldFrom (k : Kern) (serial t : Nat) : List Nat :=
  match mget k.fields serial with
  | none => []
  | some f => (f.colds.filter fun p => p.2 && t ≤ p.1).map (·.1)

/-! ## Notices (R288) -/

/-- The earliest notice of its cell to its core, which may be installed. -/
def firstNotice (k : Kern) (n : Notice) : Bool :=
  !n.held && ((k.notices.find? fun m => m.launch == n.launch && m.cell == n.cell && m.dst == n.dst).map (·.id)) == some n.id

/-- Install a notice in a record. -/
def installNotice (k : Kern) (c : Nat) (r : XRegion) (i : Nat) (n : Notice) : Kern :=
  let a := recordAt c r i
  let bank := 1 - currentBank k a
  match n.kind with
  | 2 => (coldFrom k n.launch (n.step + 1)).foldl (fun k t => zeroPublication k a t)
           (putBytes k (a + 144) (bytesOfNat 8 exitMark))
  | _ =>
    let k := if n.kind == 0 then
        putBytes (putBytes k (a + 64 * bank) (n.faces.flatMap fun x => bytesOfNat 4 x.toNat)) (a + 128 + 8 * bank)
          (bytesOfNat 8 n.step)
      else k
    let k := putBytes k (a + 144) (bytesOfNat 8 (n.step + 1))
    let k := if n.rel then modRegion k c r.launch fun x => { x with released := x.released ++ [(i, n.step)] } else k
    if (coldFrom k n.launch n.step).contains n.step then zeroPublication k a n.step else k

/-- A notice that has been installed or that nothing waits for goes. -/
def dropNotice (k : Kern) (id : Nat) : Kern := { k with notices := k.notices.filter fun m => m.id != id }

/-- FACE_NOTICE: a core that does not hold the region yet leaves it waiting; one whose launch has ended drops it. -/
def execFaceNotice (core notice : Nat) (s : State) : Host.Outcome State Fault Refusal :=
  let k := s.kern
  match k.notices.find? fun n => n.id == notice && n.dst == core with
  | none => answer s
  | some n =>
    match mget k.launches n.launch, regionOf k core n.launch with
    | some l, some r =>
      (match recordFor l r n.cell with
      | some i => if firstNotice k n then answer { s with kern := installNotice (dropNotice k n.id) core r i n } else answer s
      | none => answer { s with kern := dropNotice k n.id })
    | some l, none => if l.placed then answer { s with kern := dropNotice k n.id } else answer s
    | none, _ => answer s

/-! ## STEP.R (R221) -/

/-- The accesses of the cell that a publication waits for have been performed, whichever positions it held then. -/
def releasePerformed (core : Core) (r : XRegion) (u : Unready) : Bool :=
  (core.reqs.all fun q => (q.cell != some (r.launch, u.cell) || u.before ≤ q.id) && (q.block != u.block || u.fence ≤ q.id)) &&
    (core.wc.all fun e => !e.cells.contains (r.launch, u.cell) || u.before ≤ e.id) && !blockStores core u.block u.fence

/-- The first publication of a cell that is not readable yet, in a region where it may become so. -/
def readyIn (core : Core) (cell : Nat) : Option (XRegion × Unready) :=
  core.xr.findSome? fun r =>
    match r.unready.find? fun u => u.cell == cell with
    | some u => if releasePerformed core r u then some (r, u) else none
    | none => none

/-- A publication becomes readable: its notices leave. -/
def makeReadable (k : Kern) (c : Nat) (r : XRegion) (u : Unready) : Kern :=
  match mget k.launches r.launch with
  | none => k
  | some l =>
    let n := linear l (cellAt l r.brick u.cell)
    let k := modRegion k c r.launch fun x => { x with unready := x.unready.filter fun y => !(y.cell == u.cell && y.step == u.step) }
    { k with notices := k.notices.map fun m =>
        if m.launch == r.launch && m.cell == n && m.step == u.step && m.kind != 2 then { m with held := false } else m }

/-- STEP_R_PUBLICATION_READY. DEDUCED: log entry 85. -/
def execStepRPublicationReady (core cell : Nat) (s : State) : Host.Outcome State Fault Refusal :=
  match readyIn (coreOf s.kern core) cell with
  | none => answer s
  | some (r, u) => answer { s with kern := makeReadable s.kern core r u }

/-! ## The truss (R297, R298, R225) -/

/-- The numbers of a step's signatures. -/
def sigNats (x : TrussStep) : List Nat := x.sigs.map (·.toNat)

/-- The signatures of a step differ. -/
def sigsDiffer (x : TrussStep) : Bool :=
  match sigNats x with
  | [] => false
  | a :: as => as.any fun b => b != a

/-- The cells that ended the step did not all settle with one signature. DEDUCED: log entry 84. -/
def mixedStep (x : TrussStep) : Bool := sigsDiffer x || x.settled < x.ended

/-- The largest signature. -/
def sigMax (x : TrussStep) : Nat := (sigNats x).foldl max 0

/-- The decision is cold. -/
def coldStep (f : Field) (x : TrussStep) : Bool := mixedStep x || f.prev != some (BitVec.ofNat 64 (sigMax x))

/-- The decision reaches a cell. -/
def decideCell (cold mixed : Bool) (t : Thread) : Thread :=
  { t with settle := { t.settle with cold := cold, mixed := mixed, truss := if cold then 0 else t.settle.truss } }

/-- The decision reaches a cell that is not resident, in its frame (R293). -/
def decideFrame (cold mixed : Bool) (a : Nat) (k : Kern) : Kern :=
  let bits := getNat k (a + 30) 1 % 2 + (if cold then 2 else 0) + (if mixed then 4 else 0)
  let k := putBytes k (a + 30) (bytesOfNat 1 bits)
  if cold then putBytes k (a + 36) (bytesOfNat 4 0) else k

/-- The records of a region to zero now: its own cells, and the halo cells whose publication of the step is here.
DEDUCED: log entry 84. -/
def zeroNow (k : Kern) (c : Nat) (r : XRegion) (t : Nat) : List Nat :=
  (List.range (r.nc + r.halo.length)).filter fun i => i < r.nc || t + 1 ≤ sigmaAt k (recordAt c r i)

/-- The decision in one region. -/
def decideRegion (serial t : Nat) (cold mixed : Bool) (k : Kern) (c : Nat) (r : XRegion) : Kern :=
  match mget k.launches serial with
  | none => k
  | some l =>
    let ofField (u : Thread) : Bool := u.cell.isSome && ((mget (coreOf k c).blocks u.block).map (·.launch)) == some serial
    let k' := modCore k c fun core =>
      { core with threads := core.threads.map fun u => if ofField u then decideCell cold mixed u else u }
    let k' := r.away.foldl (fun k b => decideFrame cold mixed (frameAt c r l b) k) k'
    if cold then (zeroNow k' c r t).foldl (fun k i => zeroPublication k (recordAt c r i) t) k' else k'

/-- A field after a decision: PREV is the largest signature; a cold one clears the channels. -/
def decidedField (f : Field) (t : Nat) (x : TrussStep) : Field :=
  let cold := coldStep f x
  { f with prev := some (BitVec.ofNat 64 (sigMax x)), pending := f.pending.filter (· != t),
           colds := mset f.colds t cold,
           steps := if cold then f.steps.map fun p => (p.1, { p.2 with maxabs := [], sumsq := [] }) else f.steps }

/-- The decision reaches the cells that threads of vacated blocks hold. -/
def decideVacated (k : Kern) (serial : Nat) (cold mixed : Bool) : Kern :=
  let cell (t : Thread) : Thread := if t.cell.isSome then decideCell cold mixed t else t
  { k with vacated := k.vacated.map fun v => if v.launch == serial then { v with threads := v.threads.map cell } else v }

/-- The settle decision of a step (R225, R298). -/
def decide_ (k : Kern) (serial t : Nat) (f : Field) (x : TrussStep) : Kern :=
  let k := decideVacated { k with fields := mset k.fields serial (decidedField f t x) } serial (coldStep f x) (mixedStep x)
  k.cores.foldl (fun k p =>
    (p.2.xr.filter fun r => r.launch == serial).foldl (fun k r =>
      decideRegion serial t (coldStep f x) (mixedStep x) k p.1 r) k) k

/-- The truss completes a step; it holds the channels of four consecutive steps, and those of steps that are not complete. -/
def completeStep (k : Kern) (serial t : Nat) (f : Field) : Kern :=
  let x := { trussStep f t with complete := true }
  let f := { f with steps := (mset f.steps t x).filter fun p => t < p.1 + 4 || !p.2.complete }
  if 0 < x.settled then decide_ k serial t f x else { k with fields := mset k.fields serial f }

/-- The steps before one are complete: steps complete, and are decided, in their order. -/
def earlierComplete (f : Field) (step : Nat) : Bool := f.steps.all fun p => step ≤ p.1 || p.2.complete

/-- TRUSS_STEP_COMPLETE: every live cell has ended the step. -/
def execTrussStepComplete (launch step : Nat) (s : State) : Host.Outcome State Fault Refusal :=
  match mget s.kern.fields launch with
  | none => answer s
  | some f =>
    if fieldReached s.kern launch (step + 1) && !(trussStep f step).complete && earlierComplete f step then
      answer { s with kern := completeStep s.kern launch step f }
    else answer s

end Sys2Proof.Machine
end

