-- ==== Sys2Proof/Machine/EventsFabric.lean ====
section
/-! DEFINITION. Events of the fabric (18): packets from end to end (R385 to R387, R393), pauses (R390), combining in the leaf
switch (R395), and the link with its flits, training and keys (R398 to R405). -/

namespace Sys2Proof.Machine

/-! ## The order of the classes on a link (R388) -/

/-- The packets of this device that wait to leave on a plane. -/
def waitingOn (s : State) (plane : Nat) : List FabPacket :=
  s.fab.packets.filter fun p => p.src == s.fab.dev && p.dst != s.fab.dev && p.plane == plane

/-- The first of them of a class, where the port may send all its flits. -/
def waitingOf (s : State) (plane : Nat) (cls : TrafficClass) : Option FabPacket :=
  ((waitingOn s plane).find? fun p => p.cls == cls).bind fun p =>
    if maySend (getPort s plane) cls (flitsOf p.load) then some p else none

/-- The packet that the order of R388 gives: management, reply, forward, face, request. -/
def firstByOrder (s : State) (plane : Nat) : Option FabPacket :=
  [TrafficClass.management, .reply, .forward, .face, .request].findSome? (waitingOf s plane)

/-- A class that has sent nothing for some flits must send now: the next packet would leave it none in eight. -/
def shareDue (n since : Nat) : Bool := 6 < since + n

/-- The packet that leaves next on a plane (R388): face and request get their share. DESIGN CHOICE: log entry 107. -/
def nextPacket (s : State) (plane : Nat) : Option FabPacket :=
  let p := getPort s plane
  match firstByOrder s plane with
  | none => none
  | some q =>
    let n := flitsOf q.load
    let due (cls : TrafficClass) (since : Nat) : Option FabPacket := if shareDue n since then waitingOf s plane cls else none
    match due .face p.sinceFace, due .request p.sinceRequest with
    | some f, some r => some (if p.sinceRequest ≤ p.sinceFace then f else r)
    | some f, none => some f
    | none, some r => some r
    | none, none => some q

/-! ## Combining in the leaf (R395) -/

/-- The requester of a group's combined request: the leaf switch, which is no core. -/
def leafCore : Nat := 256

/-- Two packets are of one stream. -/
def oneStream (a b : FabPacket) : Bool := a.src == b.src && a.dst == b.dst && a.lane == b.lane && a.cls == b.cls

/-- The target implements a remote addition, as far as its peer entry says (R396, R397). -/
def addsRemotely (s : State) (dst : Nat) : Bool :=
  match mget s.fab.peers dst with
  | some e => e.toNat.testBit (32 + atomOpCode .add)
  | none => true

/-- A request that may be combined (R395): a relaxed integer add of a core, the object, offset, size and addend. -/
def combinable (s : State) (p : FabPacket) : Option (Nat × Nat × Nat × Nat) :=
  match p.load with
  | .access _ c obj ea size (.atom .add) ty data _ rel _ =>
    if rel || !tyInt ty || size < 4 || leafCore ≤ c || p.cls != .request || !addsRemotely s p.dst then none
    else some (obj, ea, size, data)
  | _ => none

/-- The output of the leaf that a packet takes (R384, R385): the port of its destination on this leaf, else one of the 64 up to the
spines, that with the shortest queue. DESIGN CHOICE: log entry 78. -/
def leafOutput (s : State) (p : FabPacket) : Nat :=
  if devDomain p.dst == devDomain s.fab.dev && devLeaf p.dst == devLeaf s.fab.dev then leafPort p.dst
  else 64 + Config.spine s.kern.free % 64

/-- An open group at an output holds a request of the packet's stream. -/
def heldBehind (f : Fabric) (out : Nat) (p : FabPacket) : Bool :=
  f.groups.any fun g => !g.closed && g.plane == p.plane && g.output == out && g.members.any (oneStream p)

/-- The group that the packet joins at an output. -/
def joins (p : FabPacket) (out : Nat) (x : Nat × Nat × Nat × Nat) (g : Combine) : Bool :=
  !g.closed && g.plane == p.plane && g.output == out && g.members.length < 32 && g.dst == p.dst && g.obj == x.1 && g.ea == x.2.1 &&
    g.size == x.2.2.1

/-- The addend of a member. -/
def addend (p : FabPacket) : Nat := match p.load with | .access _ _ _ _ _ _ _ data _ _ _ => data | _ => 0

/-- The sum of the members' addends, modulo the width. -/
def groupSum (g : Combine) : Nat := (g.members.map addend).sum % 2 ^ (8 * g.size)

/-- The combined request of a group, from its first member. -/
def combinedRequest (g : Combine) : Option Payload :=
  match g.members with
  | [] => none
  | m :: _ =>
    match m.load with
    | .access _ _ obj ea size kind ty _ cmp rel cls =>
      some (.access g.id leafCore obj ea size kind ty (groupSum g) cmp rel cls)
    | _ => none

/-- The plane number of a packet that is beyond the leaf. -/
def beyondLeaf : Nat := 16

/-- Close a group: the switch sends the combined request, and what was held behind it is forwarded after it, in its order. -/
def closeGroup (s : State) (g : Combine) : State :=
  let p : List FabPacket := match g.members, combinedRequest g with
    | m :: _, some load => [{ m with id := s.kern.id, plane := beyondLeaf, load := load }]
    | _, _ => []
  let groups : List Combine := s.fab.groups.map fun x => if x.id == g.id then { x with closed := true } else x
  let f : Fabric := { s.fab with groups := groups }
  { s with kern := { s.kern with id := s.kern.id + 1 },
           fab := { f with packets := f.packets ++ p, behind := f.behind.filter fun x => heldBehind f x.1 x.2 } }

/-- COMBINING_WINDOW_CLOSE. -/
def execCombiningWindowClose (group : Nat) (s : State) : Host.Outcome State Fault Refusal :=
  match s.fab.groups.find? fun g => g.id == group && !g.closed with
  | none => answer s
  | some g => answer (closeGroup s g)

/-- The leaf holds the packet already, which has been sent again: the combined request answers it. -/
def atLeafAlready (f : Fabric) (p : FabPacket) : Bool :=
  (f.groups.any fun g => g.members.any fun m => m.id == p.id) || f.behind.any fun x => x.2.id == p.id

/-- A packet opens a group at an output, where its table of 256 entries has room. -/
def openGroup (s : State) (p : FabPacket) (out : Nat) (x : Nat × Nat × Nat × Nat) : State :=
  let f := s.fab
  if 256 ≤ (f.groups.filter fun g => !g.closed && g.plane == p.plane && g.output == out).length then s
  else
    let g : Combine := { id := s.kern.id, dst := p.dst, obj := x.1, ea := x.2.1, size := x.2.2.1, members := [p],
                         closed := false, old := none, plane := p.plane, output := out, bad := none, met := 0, charge := 0 }
    { s with kern := { s.kern with id := s.kern.id + 1 }, fab := { f with groups := f.groups ++ [g] } }

/-- A packet at an output of the leaf: it waits behind a group of its stream, joins or opens a group, or goes on. A full group
closes. -/
def atOutput (s : State) (p : FabPacket) (out : Nat) : State :=
  let f := s.fab
  if heldBehind f out p then { s with fab := { f with behind := f.behind ++ [(out, p)] } }
  else
    match combinable s p with
    | none => s
    | some x =>
      match f.groups.find? (joins p out x) with
      | some g =>
        let g := { g with members := g.members ++ [p] }
        let s := { s with fab := { f with groups := f.groups.map fun y => if y.id == g.id then g else y } }
        if g.members.length == 32 then closeGroup s g else s
      | none => openGroup s p out x

/-- A packet reaches the leaf. DESIGN CHOICE: log entry 78. -/
def atLeaf (s : State) (p : FabPacket) : State :=
  if atLeafAlready s.fab p then s
  else atOutput { s with kern := { s.kern with free := s.kern.free + 1 } } p (leafOutput s p)

/-- The answers of a group from the target's old value: each the old value with the addends before its own (R166). The first carries
what the access met (R425). Those of other devices leave this device's view. -/
def groupReplies (dev w : Nat) : Nat → Nat → Nat → List FabPacket → List FabPacket
  | _, _, _, [] => []
  | old, met, units, m :: ms =>
    let rest := groupReplies dev w ((old + addend m) % 2 ^ w) 0 0 ms
    match m.load with
    | .access req c _ _ _ _ _ _ _ _ _ =>
      if m.src == dev then { m with src := m.dst, dst := m.src, cls := .reply, load := .reply req c old met units } :: rest else rest
    | _ => rest

/-- An answer that gives no old value, for a member. -/
def badFor (req c : Nat) : Payload → Payload
  | .notPlaced _ _ sub => .notPlaced req c sub
  | .unsupported _ _ => .unsupported req c
  | .poisoned _ _ kind met units => .poisoned req c kind met units
  | _ => .unsupported req c

/-- An answer that charges nothing. -/
def uncharged : Payload → Payload
  | .poisoned req c kind met _ => .poisoned req c kind met 0
  | x => x

/-- The answers of a group whose target gives no old value: each member gets that answer, and the first its charge (R425). -/
def groupRefusals (dev : Nat) : Payload → List FabPacket → List FabPacket
  | _, [] => []
  | x, m :: ms =>
    let rest := groupRefusals dev (uncharged x) ms
    match m.load with
    | .access req c _ _ _ _ _ _ _ _ _ =>
      if m.src == dev then { m with src := m.dst, dst := m.src, cls := .reply, load := badFor req c x } :: rest else rest
    | _ => rest

/-- The answers of a group, once the target has answered. -/
def groupAnswers (dev : Nat) (g : Combine) : Option (List FabPacket) :=
  match g.old, g.bad with
  | some v, _ => some (groupReplies dev (8 * g.size) v g.met g.charge g.members)
  | none, some x => some (groupRefusals dev x g.members)
  | none, none => none

/-- COMBINED_REPLY: the leaf answers the members, whose requests have been acknowledged. -/
def execCombinedReply (group : Nat) (s : State) : Host.Outcome State Fault Refusal :=
  match s.fab.groups.find? fun g => g.id == group && g.closed with
  | none => answer s
  | some g =>
    match groupAnswers s.fab.dev g with
    | none => answer s
    | some rs =>
      answer { s with fab :=
        { s.fab with groups := s.fab.groups.filter fun x => x.id != g.id, arrived := s.fab.arrived ++ rs,
                     unacked := s.fab.unacked.filter fun p => !g.members.any fun m => m.id == p.id } }

/-! ## Arrival (R386) -/

/-- The core of a face notice from another device: that of the brick it names, where the region stands. -/
def noticeCore (k : Kern) (n : Notice) : Option Nat :=
  ((mget k.launches n.launch).bind fun l => (l.bricks.find? fun p => p.1 == n.dst - 2 ^ 20).map (·.2)).bind fun c =>
    if (regionOf k c n.launch).isSome then some c else none

/-- A packet for this device can be delivered: a notice waits at its sender until the core holds the region, and a truss
contribution until the launch is here (R288). DEDUCED: log entry 94. -/
def deliverable (k : Kern) (p : FabPacket) : Bool :=
  match p.load with
  | .face n => if 3 ≤ n.kind then (mget k.launches n.launch).isSome else (noticeCore k n).isSome
  | _ => true

/-- A face packet is delivered: a notice for a core, or a contribution to a truss. -/
def deliverFace (k : Kern) (n : Notice) : Kern :=
  if 3 ≤ n.kind then takeContribution k n
  else
    match noticeCore k n with
    | some c => { k with notices := k.notices ++ [{ n with id := k.id, dst := c, held := false }], id := k.id + 1 }
    | none => k

/-- What the target answered to a group. -/
def answerGroup (f : Fabric) (id : Nat) (x : Payload) : Fabric :=
  let put (g : Combine) : Combine :=
    match x with
    | .reply _ _ v met units => { g with old := some v, met := met, charge := units }
    | x => { g with bad := some x }
  { f with groups := f.groups.map fun g => if g.id == id && g.closed then put g else g }

/-- A request of an engine ends (R392): the line that it read stands in this device's view of the object. -/
def endFar (k : Kern) (id : Nat) (line : Option Nat) (e : FarEnd) : Kern :=
  match k.far.find? fun x => x.id == id with
  | none => k
  | some x =>
    let k := match x.put, line with
      | none, some v => putBytes k (remoteAddr x.dev x.obj (64 * x.line)) (bytesOfNat 64 v)
      | _, _ => k
    modFar k id fun x => { x with ended := some e }

/-- The answer of a forwarded request, as the answer of the request that it was sent for (R389). -/
def relayed (request answer : Payload) : Payload :=
  match request, answer with
  | .access req c _ _ _ _ _ _ _ _ _, .reply _ _ v met units => .reply req c v met units
  | .access req c _ _ _ _ _ _ _ _ _, x => badFor req c x
  | .drain c wc _ _ _, _ => .drained c wc
  | _, x => x

/-- A forwarded request has been answered: the home answers the request that it was sent for (R389). -/
def relayAnswer (s : State) (id : Nat) (answer : Payload) : State :=
  match s.fab.forwarded.find? fun x => x.1 == id with
  | none => s
  | some x =>
    sendPacket { s with fab := { s.fab with forwarded := s.fab.forwarded.filter fun y => y.1 != id } } x.2.src x.2.lane .reply
      (relayed x.2.load answer)

/-- The requester and the number of an answer. -/
def answers : Payload → Option (Nat × Nat)
  | .reply r c _ _ _ | .notPlaced r c _ | .unsupported r c | .poisoned r c _ _ _ => some (c, r)
  | .drained c r => some (c, r)
  | _ => none

/-- How an answer ends a request of an engine. -/
def farEndOf : Payload → FarEnd
  | .notPlaced _ _ sub => .notPlaced sub
  | .unsupported _ _ => .unsupported
  | .poisoned _ _ kind met units => .poison kind met (units - if kind == .plain then 64 * met else 0)
  | .reply _ _ _ _ units => .good units
  | _ => .good 0

/-- The value of an answer. -/
def answerValue : Payload → Option Nat
  | .reply _ _ v _ _ => some v
  | _ => none

/-- An answer goes to its requester: a core, the leaf, an engine, or the home that forwarded the request. -/
def deliverAnswer (s : State) (p : FabPacket) (c r : Nat) : State :=
  if c == leafCore then { s with fab := answerGroup s.fab r p.load }
  else if c == engineCore then { s with kern := endFar s.kern r (answerValue p.load) (farEndOf p.load) }
  else if c == forwardCore then relayAnswer s r p.load
  else if c < leafCore then { s with fab := { s.fab with arrived := s.fab.arrived ++ [p] } }
  else s

/-- A packet has been acknowledged (R386): its destination is reachable. -/
def acknowledged (f : Fabric) (src lane : Nat) (cls : TrafficClass) (eseq : BitVec 16) : Fabric :=
  { f with unacked := f.unacked.filter fun p => !(p.dst == src && p.lane == lane && p.cls == cls && p.eseq == eseq),
           unreachable := f.unreachable.filter (· != src) }

/-- Deliver a packet. -/
def deliverPacket (s : State) (p : FabPacket) : State :=
  match p.load with
  | .face n => { s with kern := deliverFace s.kern n }
  | .post x => hearPost s x
  | .ack lane cls eseq => { s with fab := acknowledged s.fab p.src lane cls eseq }
  | load =>
    match answers load with
    | some (c, r) => deliverAnswer s p c r
    | none => { s with fab := { s.fab with arrived := s.fab.arrived ++ [p] } }

/-- The destination acknowledges a packet that its source keeps (R386, R388). -/
def acknowledge (s : State) (p : FabPacket) : State :=
  if keptClass p.cls then sendPacket s p.src p.lane .reply (.ack p.lane p.cls p.eseq) else s

/-- Deliver what the reorder buffer of a stream holds in order. -/
def drainStream : Nat → Stream → State → State
  | 0, x, s => { s with fab := putStream s.fab x }
  | n + 1, x, s =>
    match x.reorder.find? fun p => p.eseq == x.recvNext with
    | some p =>
      if deliverable s.kern p then
        drainStream n { x with recvNext := x.recvNext + 1, reorder := x.reorder.filter fun q => q.eseq != p.eseq }
          (acknowledge (deliverPacket s p) p)
      else { s with fab := putStream s.fab x }
    | none => { s with fab := putStream s.fab x }

/-- The flits in the reorder buffer. -/
def reorderFlits (f : Fabric) : Nat := (f.streams.map fun x => (x.reorder.map fun p => flitsOf p.load).sum).sum

/-- The reorder buffer of 4,096 flits has no room for a packet out of its order, which its source sends again (R386). -/
def noReorder (f : Fabric) (x : Stream) (p : FabPacket) : Bool :=
  p.eseq != x.recvNext && keptClass p.cls && 4096 < reorderFlits f + flitsOf p.load

/-- A packet comes in: a duplicate is discarded, and acknowledged again; the rest are delivered in ESEQ order. -/
def comeIn (s : State) (p : FabPacket) : State :=
  let x := streamOf s.fab p.src p.dst p.lane p.cls
  if 2 ^ 15 ≤ (p.eseq - x.recvNext).toNat then acknowledge s p
  else if (x.reorder.any fun q => q.eseq == p.eseq) || noReorder s.fab x p then s
  else
    let x := { x with reorder := x.reorder ++ [p] }
    drainStream x.reorder.length x s

/-- A packet leaves by the port of its plane, and reaches the leaf. -/
def goOut (s : State) (p : FabPacket) : State :=
  let free := s.kern.free
  let s := { s with kern := { s.kern with free := free + 4 } }
  atLeaf (modPort s p.plane (sendPacketFlits p free)) p

/-- The flits of a class in the buffer of a receiver (R390). -/
def buffered (p : Port) (cls : TrafficClass) : Nat := (p.rx.filter fun x => flitClass x == classNumber cls).length

/-- A class is paused where its buffer is half full, and resumed where a quarter is full (R390). -/
def regulated (cls : TrafficClass) (p : Port) : Port :=
  if Config.classBuffer ≤ 2 * buffered p cls then
    { p with pausing := if p.pausing.contains cls then p.pausing else p.pausing ++ [cls] }
  else if 4 * buffered p cls ≤ Config.classBuffer then { p with pausing := p.pausing.filter (· != cls) }
  else p

/-- A list without its first n elements that a test accepts. -/
def dropWhere {α : Type} (f : α → Bool) : Nat → List α → List α
  | 0, l => l
  | _, [] => []
  | n + 1, a :: l => if f a then dropWhere f n l else a :: dropWhere f (n + 1) l

/-- A packet leaves the buffer of its class at the port that received it. -/
def unbuffer (q : FabPacket) (p : Port) : Port :=
  regulated q.cls { p with rx := dropWhere (fun x => flitClass x == classNumber q.cls) (flitsOf q.load) p.rx }

/-- PACKET_ARRIVAL: of a packet for this device, in order and once; of one of its own, at the leaf, where it is the next on its
link; of one of another device of the leaf, at the leaf. -/
def execPacketArrival (packet : Nat) (s : State) : Host.Outcome State Fault Refusal :=
  match s.fab.packets.find? fun p => p.id == packet with
  | none => answer s
  | some p =>
    let gone : State := { s with fab := { s.fab with packets := s.fab.packets.filter fun q => q.id != packet } }
    if p.plane == beyondLeaf then answer gone
    else if p.dst == s.fab.dev then
      (if deliverable s.kern p then answer (comeIn (modPort gone p.plane (unbuffer p)) p) else answer s)
    else if p.src != s.fab.dev then answer (atLeaf gone p)
    else if (nextPacket s p.plane).map (·.id) == some packet then answer (goOut gone p)
    else answer s

/-! ## Retransmission and planes (R386, R387) -/

/-- RETRANSMISSION_TIMEOUT: no acknowledgement for 20 µs. -/
def execRetransmissionTimeout (packet : Nat) (s : State) : Host.Outcome State Fault Refusal :=
  match s.fab.unacked.find? fun p => p.id == packet with
  | none => answer s
  | some p =>
    if s.pwr.usec < p.sentAt + 20 || s.fab.packets.any fun q => q.id == packet then answer s
    else
      let p := { p with sentAt := s.pwr.usec, plane := (streamOf s.fab p.src p.dst p.lane p.cls).plane }
      answer { s with fab :=
        { s.fab with packets := s.fab.packets ++ [p], unacked := s.fab.unacked.map fun q => if q.id == p.id then p else q } }

/-- The packets of a lane sent on another plane than its own have been acknowledged. -/
def othersAcked (s : State) (dst lane : Nat) : Bool :=
  s.fab.unacked.all fun p => p.dst != dst || p.lane != lane || p.plane == lane

/-- A lane to a destination moves to a plane, with the packets of it that have not left: what the source keeps of them names the
plane on which they leave. -/
def moveLane (f : Fabric) (dst lane plane : Nat) : Fabric :=
  let mine (p : FabPacket) : Bool := p.src == f.dev && p.dst == dst && p.lane == lane
  let inHand (p : FabPacket) : Bool := f.packets.any fun q => q.id == p.id && q.plane != beyondLeaf
  { f with
    streams := f.streams.map fun x => if x.src == f.dev && x.dst == dst && x.lane == lane then { x with plane := plane } else x,
    packets := f.packets.map fun p => if mine p && p.plane != beyondLeaf then { p with plane := plane } else p,
    unacked := f.unacked.map fun p => if mine p && inHand p then { p with plane := plane } else p }

/-- PLANE_FAILOVER. -/
def execPlaneFailover (dst lane : Nat) (s : State) : Host.Outcome State Fault Refusal :=
  match planeFor s dst lane with
  | none => answer s
  | some n =>
    if n == lane && !othersAcked s dst lane then answer s
    else answer { s with fab := moveLane s.fab dst lane n }

/-- CLASS_PAUSE: a pause of one class, or its end (R390). -/
def execClassPause (port : Nat) (cls : TrafficClass) (resume : Bool) (s : State) : Host.Outcome State Fault Refusal :=
  answer (modPort s port fun p =>
    { p with pauses := if resume then p.pauses.filter (· != cls) else if p.pauses.contains cls then p.pauses else p.pauses ++ [cls] })

/-! ## Unreachable destinations (R393) -/

/-- A request to an unreachable destination ends: a load, an ATOM, a CAS or a claim as a poison read that is not charged, a store or
a RED as performed. DEDUCED: log entry 114. -/
def endUnreachable (k : Kern) (c : Nat) (q : Req) : Kern :=
  if q.kind == .load || q.held.isSome then remotePoison k c q .plain 0 else finishReq k c q []

/-- Everything of a core that is on its way to a destination ends. -/
def endCore (dst : Nat) (k : Kern) (c : Nat) : Kern :=
  let core := coreOf k c
  let k := (core.reqs.filter fun q => q.remote == some dst && q.sent).foldl (fun k q => endUnreachable k c q) k
  modCore k c fun core => { core with wc := core.wc.filter fun e => !(e.hdev == dst && e.sent) }

/-- The requests of engines to a destination end, and find it unreachable. -/
def endFars (dst : Nat) (k : Kern) : Kern :=
  { k with far := k.far.map fun x => if x.dev == dst && x.ended.isNone then { x with sent := true, ended := some .lost } else x }

/-- How the request that a home has sent on ends where the destination is unreachable: as one of its own would. -/
def lostAnswer : Payload → Payload
  | .access req c _ _ _ kind _ _ _ _ _ => if kind == .store then .reply req c 0 0 0 else .poisoned req c .plain 1 0
  | .drain c wc _ _ _ => .drained c wc
  | x => x

/-- The requests that were sent on to a destination are answered. -/
def endForwards (s : State) (gone : List FabPacket) : State :=
  gone.foldl (fun s p => match p.load with
    | .access id c _ _ _ _ _ _ _ _ _ | .drain c id _ _ _ => if c == forwardCore then relayAnswer s id (lostAnswer p.load) else s
    | _ => s) s

/-- A destination has become unreachable: what was on its way there ends, and frame firmware is told. -/
def loseDevice (s : State) (dst : Nat) : State :=
  let k := s.kern.cores.foldl (fun k p => if p.2.reqs.isEmpty && p.2.wc.isEmpty then k else endCore dst k p.1) s.kern
  let gone (p : FabPacket) : Bool := p.dst == dst && asksFor p
  let s' : State := { s with kern := endFars dst k, fab :=
    { s.fab with unreachable := addOnce s.fab.unreachable dst, unacked := s.fab.unacked.filter fun p => !gone p,
                 packets := s.fab.packets.filter fun p => !gone p } }
  notify_ (endForwards s' (s.fab.unacked.filter gone)) 0x81 0 dst

/-- UNREACHABLE_TIMEOUT. -/
def execUnreachableTimeout (s : State) : Host.Outcome State Fault Refusal :=
  match s.fab.unacked.find? (overdue s) with
  | none => answer s
  | some p => answer (loseDevice s p.dst)

/-! ## The link (R398 to R405) -/

/-- The receiving slot that a flit names. -/
def recvSlot (p : Port) (x : Flit) : Option KeySlot := mget p.recvKeys (slotNumber (flitKs x))

/-- The tag of a flit passes, under the slot that its KS names, which must be the one in use (R401, R403). -/
def tagPasses (p : Port) (x : Flit) : Bool :=
  !p.encrypt || match recvSlot p x with
    | some k => flitKs x == p.rks && flitTag k (x.toNat % 2 ^ 1888) == flitField x 236 16
    | none => false

/-- A flit as its sender formed it: the payload decrypted with the slot that its KS names (R403). -/
def openFlit (p : Port) (x : Flit) : Flit :=
  match if p.encrypt then recvSlot p x else none with
  | some k => BitVec.ofNat 2048 (maskPayload k x.toNat)
  | none => x

/-- The receiving counter of the slot that a flit names rises. -/
def countReceived (x : Flit) (p : Port) : Port :=
  if p.encrypt then { p with recvKeys := mmod p.recvKeys (slotNumber (flitKs x)) fun k => { k with counter := k.counter + 1 } } else p

/-- A flit enters the buffer of its class (R390); one of no class is discarded and counted as an error (R391). -/
def bufferFlit (x : Flit) (p : Port) : Port :=
  match [TrafficClass.request, .forward, .reply, .face, .management].find? fun c => classNumber c == flitClass x with
  | some c => regulated c { p with rx := p.rx ++ [x], ackDue := p.ackDue || c != .management }
  | none => { p with errors := p.errors + 1 }

/-- A management flit of the link itself, which the port consumes: a marker moves the receiver to the slot that it names (R403), an
acknowledgement frees the replay buffer (R398); another flit enters its buffer. x has been decrypted. -/
def useFlit (x : Flit) (p : Port) : Port :=
  if flitClass x == 4 && p.encrypt && Config.isMarker x then { p with rks := (flitField x 16 1).testBit 0 }
  else
    match if flitClass x == 4 then Config.ackedBy x else none with
    | some lseq => dropAcked lseq p
    | none => bufferFlit x p

/-- A flit is taken in its order. -/
def takeFlit (x : Flit) (p : Port) : Port := useFlit x { p with rxLseq := p.rxLseq + 1, wantReplay := none, badTag := none }

/-- A second failure of one tag: the port goes down and loses its keys (R405). -/
def dropKeys (p : Port) : Port :=
  { p with state := .down, sendKeys := [], recvKeys := [], wantReplay := none, badTag := none }

/-- A port receives a flit. -/
def receiveFlit (x : Flit) (p : Port) : Port :=
  let q := countReceived x p
  if !portUp p then p
  else if !crcGood x then { q with wantReplay := some p.rxLseq }
  else if flitLseq x != p.rxLseq then q
  else if !tagPasses p x then
    (if p.badTag == some (flitLseq x) then dropKeys q
    else { q with badTag := some (flitLseq x), wantReplay := some (flitLseq x) })
  else takeFlit (openFlit p x) q

/-- FLIT_RECEIVE. -/
def execFlitReceive (port : Nat) (flit : Flit) (s : State) : Host.Outcome State Fault Refusal :=
  answer (modPort s port (receiveFlit flit))

/-- The flits of the replay buffer from a number on. -/
def replayFrom (p : Port) (lseq : BitVec 16) : List (BitVec 16 × Flit) := p.replay.dropWhile fun x => x.1 != lseq

/-- REPLAY_REQUEST: the flits are sent again from there, each under its slot, whose counter rises; the receiver has those before.
Where the limit of a slot leaves no room for them the port pauses (R404). -/
def execReplayRequest (port : Nat) (lseq : BitVec 16) (s : State) : Host.Outcome State Fault Refusal :=
  let p := getPort s port
  let xs := replayFrom p lseq
  if !portUp p || xs.isEmpty then answer s
  else if !replayRoom p xs then answer (modPort s port fun p => { p with paused := true })
  else
    answer (modPort s port fun p =>
      { resendFlits xs p with replay := xs, replays := min 65535 (p.replays + 1), recent := (s.pwr.usec :: p.recent).take 17 })

/-- RETRAIN_TRIGGER: more than 16 replays within 100 µs. -/
def execRetrainTrigger (port : Nat) (s : State) : Host.Outcome State Fault Refusal :=
  if retrainDue s.pwr.usec (getPort s port) then
    answer (modPort s port fun p =>
      { p with state := .retrain, tries := 0, paused := true, retrains := min 255 (p.retrains + 1), recent := [] })
  else answer s

/-- A port whose lanes have passed: after a retraining its replay buffer is sent again from its oldest flit, where the limit of its
slots leaves room; else it pauses (R399, R404). -/
def broughtUp (st : PortState) (p : Port) : Port :=
  let q := { p with state := st, tries := 0, paused := false }
  if p.state != .retrain then q
  else if replayRoom p p.replay then resendFlits p.replay q else { q with paused := true }

/-- The state of a port after its lanes have been tested (R399). -/
def trained (lanes : BitVec 8) (p : Port) : Port :=
  let n := lanes.toNat
  let up (st : PortState) : Port := broughtUp st p
  if n == 255 then up .up8
  else if n % 16 == 15 || n / 16 == 15 then up .up4
  else if p.tries + 1 < 3 then { p with tries := p.tries + 1 }
  else { p with state := .isolated, tries := 0, paused := false }

/-- TRAIN_COMPLETE: a port that ends isolated is a unit that the device cannot service (R434). -/
def execTrainComplete (port : Nat) (lanes : BitVec 8) (s : State) : Host.Outcome State Fault Refusal :=
  let p := getPort s port
  if p.state == .train || p.state == .retrain then
    let q := trained lanes p
    let t := modPort s port (trained lanes)
    answer (if q.state == .isolated then serviced t (64 + port) false else if portUp q then serviced t (64 + port) true else t)
  else answer s

/-- The marker of a key switch before its encryption: PAYLOAD byte 0 holds the new slot. -/
def markerFlit (p : Port) (src body : Nat) : Flit :=
  let n := flitBits p (classNumber .management) 0 0 0 src 0 body
  sealFlit (n / 2 ^ 136 * 2 ^ 136 + slotNumber (!p.ks) * 2 ^ 128 + n % 2 ^ 128)

/-- KEY_MARKER: the marker leaves under the old slot; every flit after it is sent under the new one. -/
def execKeyMarker (port : Nat) (s : State) : Host.Outcome State Fault Refusal :=
  let p := getPort s port
  if !markerReady p then answer s
  else
    let flit := markerFlit p s.fab.dev s.kern.free
    let s := { s with kern := { s.kern with free := s.kern.free + 1 } }
    answer (modPort s port fun p => { sendFlit flit p with ks := !p.ks, kwarn := false, paused := false })

/-- KWARN: the counter has reached 0xFFF0_0000. -/
def execKwarn (port : Nat) (s : State) : Host.Outcome State Fault Refusal :=
  if warnDue (getPort s port) then answer (notify_ (modPort s port fun p => { p with kwarn := true }) 0x82 port 0) else answer s

/-- INVOCATION_LIMIT: the port pauses every class until the marker can be sent. -/
def execInvocationLimit (port : Nat) (s : State) : Host.Outcome State Fault Refusal :=
  if atLimit (getPort s port) then answer (modPort s port fun p => { p with paused := true }) else answer s

end Sys2Proof.Machine
end

