-- ==== Sys2Proof/Machine/EventsRepair.lean ====
section
/-! DEFINITION. Margins (22 R427 to R430), scrubbing (R431), device faults (R434) and boot (R437, R438). -/

namespace Sys2Proof.Machine

/-! ## Margins (R430) -/

/-- Every bay of a die steps one step up (R417, R430). -/
def stepDie (s : State) (d : Nat) : State :=
  { s with pwr := { s.pwr with bays := s.pwr.bays.map fun p =>
      (p.1, if p.1 / 8 == d then { p.2 with step := min 15 (p.2.step + 1) } else p.2) } }

/-- MARGIN_SEQUENCE: the first attributed error on a die. -/
def execMarginSequence (die : Nat) (s : State) : Host.Outcome State Fault Refusal :=
  match (getDie s die).attributed with
  | none => answer s
  | some a =>
    let s := modDie (stepDie s die) die fun d =>
      { d with offset := 0, lastChange := some s.pwr.usec, returning := some (s.pwr.usec + 10), holdoff := some (s.pwr.usec + 1000000),
               attributed := none }
    answer (notify_ s 0x83 die a)

/-- HOLD_OFF_EXPIRY: the return to nominal after 10 µs and the hold-off after 1 s are over. -/
def execHoldOffExpiry (s : State) : Host.Outcome State Fault Refusal :=
  answer { s with pwr := { s.pwr with dies := s.pwr.dies.map fun p =>
    (p.1, { p.2 with returning := expire s.pwr.usec p.2.returning, holdoff := expire s.pwr.usec p.2.holdoff }) } }

/-! ## Scrubbing (R431) -/

/-- The frame of a line, by firmware's number, and whether it is a vault frame; none outside both memories. -/
def frameOfLine (line : Nat) : Option (Bool × Nat) :=
  let a := 64 * line
  if isHbm a then some (false, a / 2 ^ 21) else if a < 2 ^ 40 then some (true, (a - 2 ^ 39) / 2 ^ 16) else none

/-- What is known of a frame. -/
def frameInfo (k : Kern) (vault : Bool) (frame : Nat) : FrameInfo :=
  (mget k.frames (frameKey vault frame)).getD (.fresh .p k.usec)

/-- A line of a frame, by its number in the frame, has been read by the scrubber: the pass goes on where it is the next one, and a
new pass begins after the last. -/
def FrameInfo.scrubbed (period lines line : Nat) (x : FrameInfo) : FrameInfo :=
  if line != x.passed then x
  else if x.passed + 1 < lines then { x with passed := x.passed + 1 }
  else { x with passed := 0, passBegan := x.passBegan + period }

/-- Scrub a line of a frame: corrected errors are counted and written back with fresh check data, an uncorrectable line is poison
and is counted. -/
def scrubLine (s : State) (line : Nat) (vault : Bool) (frame : Nat) : State :=
  let k := s.kern
  let a := 64 * line
  let mended := k.soft.filter fun u => a ≤ u && u < a + 64
  let bad := (List.range 64).any fun i => (poisonAt k (a + i)).isSome
  let k := countMended { k with soft := k.soft.filter fun u => !(a ≤ u && u < a + 64) } mended
  let k := if bad then noteBad k a else k
  let passed := FrameInfo.scrubbed (scrubPeriod vault) (frameLines vault) (line % frameLines vault)
  { s with kern := { k with frames := mmod k.frames (frameKey vault frame) passed } }

/-- SCRUB: of a line of a placed frame; frames of class N and retired frames are not scrubbed. -/
def execScrub (line : Nat) (s : State) : Host.Outcome State Fault Refusal :=
  match frameOfLine line with
  | none => answer s
  | some (vault, frame) =>
    if !frameNamed s.kern vault frame || (frameInfo s.kern vault frame).retired || (!vault && frameClass s.kern frame == .n)
    then answer s
    else answer (scrubLine s line vault frame)

/-! ## Device faults (R434) -/

/-- The faults of the device: stopped contexts, unreachable peers, and units that it cannot service.
DESIGN CHOICE: log entry 117. -/
def deviceFaults (s : State) : List Nat :=
  (s.kern.ctxs.filterMap fun p => if p.2.state == .stopped then some p.1 else none) ++ s.fab.unreachable.map (2 ^ 20 + ·) ++
    s.fw.unserviced.map (2 ^ 21 + ·)

/-- The peers of the device: the other devices of its peer table (R396). -/
def peersOf (f : Fabric) : List Nat := (f.peers.map (·.1)).filter (· != f.dev)

/-- A device-fault notification (R434): to the host, which stands for PCIe and Ethernet, and on the management class to the peers.
-/
def reportFault (s : State) (x : Nat) : State :=
  (peersOf s.fab).foldl (fun s d => sendPacket s d 0 .management (.fault x)) (notify_ s 0x84 0 x)

/-- DEVICE_FAULT_NOTIFY: a fault that has not been reported. -/
def execDeviceFaultNotify (s : State) : Host.Outcome State Fault Refusal :=
  let all := deviceFaults s
  match all.find? fun x => !s.fw.faults.contains x with
  | none => answer { s with fw := { s.fw with faults := s.fw.faults.filter all.contains } }
  | some x => answer (reportFault { s with fw := { s.fw with faults := s.fw.faults.filter all.contains ++ [x] } } x)

/-! ## Boot (R437, R438) -/

/-- The fuse counter of an image kind. -/
def fuseOf (f : Firmware) (kind : Nat) : Nat := (mget f.fuses kind).getD 0

/-- An image is valid: both signatures verify, and its version is at least the fuse counter of its kind. -/
def validImage (f : Firmware) (x : FwImage) : Bool := Config.signed x && fuseOf f x.kind ≤ x.version

/-- The version of a slot's image where it is valid. -/
def validVersion (f : Firmware) (x : Option FwImage) : Option Nat :=
  match x with
  | some i => if validImage f i then some i.version else none
  | none => none

/-- The newer valid slot: false A, true B. -/
def chosenSlot (f : Firmware) : Option Bool :=
  match validVersion f f.slotA, validVersion f f.slotB with
  | some a, some b => some (a < b)
  | some _, none => some false
  | none, some _ => some true
  | none, none => none

/-- The active slot where it is valid, else the other. -/
def runningSlot (f : Firmware) : Bool :=
  match validVersion f (if f.active then f.slotB else f.slotA) with
  | some _ => f.active
  | none => !f.active

/-- FLOORs as a measurement finds them, with no step below the one of the grant (R416); a bay with no stable FLOOR at some ratio is
disabled (R415). DESIGN CHOICE: log entry 73. -/
def measured (g : Ratios) (b : Bay) : Bay :=
  let bad := b.unstable || b.sensed.any fun x => 15 < x
  let b := { b with floors := b.sensed }
  { b with step := max b.step (floorFor b g), unstable := bad, enabled := b.enabled && !bad }

/-- The images that run when the device has been brought up: the active frame firmware and the applied sill patches. -/
def runningImages (f : Firmware) : List FwImage :=
  (if f.active then f.slotB else f.slotA).toList ++ f.sills.take f.patched

/-- Bring the device up (R437): HBM is trained, the vaults are tested, the ports train, the bays are measured, and sill calibrates
the demands of the domains (R412). Ready is reported over PCIe and both Ethernet ports. -/
def bringUp (s : State) : State :=
  { s with fab := { s.fab with ports := s.fab.ports.map fun p =>
             (p.1, if p.2.state == .down then { p.2 with state := .train, tries := 0 } else p.2) },
           pwr := { s.pwr with bays := s.pwr.bays.map (fun p => (p.1, measured s.pwr.grant p.2)), demand := s.pwr.measured },
           fw := { s.fw with boot := .ready, trained := true, tested := true, readyTo := [0, 1, 2],
                             completed := runningImages s.fw ++ s.fw.completed } }

/-- BOOT: the next state, in ROM with the patch slots applied and attestation keys of this boot's own (R437, R439), or the end of a
switch of frame firmware and of the restart of shop cores. -/
def execBoot (s : State) : Host.Outcome State Fault Refusal :=
  match s.fw.boot with
  | .rom => answer { s with fw := { s.fw with boot := .verify, patched := s.fw.patches, boots := s.fw.boots + 1, reports := 0 } }
  | .verify =>
    (match chosenSlot s.fw with
    | none => answer { s with fw := { s.fw with boot := .rescue } }
    | some b => answer { s with fw := { s.fw with boot := .bringup, active := b } })
  | .bringup => answer (bringUp s)
  | .ready =>
    let fw := if s.fw.switching then { s.fw with switching := false, active := runningSlot s.fw } else s.fw
    answer { s with fw := { fw with shops := fw.shops.map fun _ => true } }
  | .rescue => answer s

end Sys2Proof.Machine
end

