-- ==== Sys2Proof/Machine/Spagan.lean ====
section
/-! DEFINITION. The Spagan commands (22 R435, R436) with what they do to contexts (17 R362, R363, R381), objects and frames (11
R315; 17 R364 to R370), graphs (16 R351), power (21 R421, R423; 22 R427, R433), ports and keys (18 R399 to R402), recovery (22
R434) and firmware (R438, R439). -/

namespace Sys2Proof.Machine

/-! ## Answers (R435) -/

/-- The end of a command: STATUS, DETAIL and VALUE. -/
def respond (s : State) (h : CmdHdr) (status value : Nat) : State :=
  let r : Response := { tag := h.tag, status := status, detail := 0, value := BitVec.ofNat 64 value }
  { s with fw := { s.fw with responses := s.fw.responses ++ [r] } }

/-- A command done. -/
def done_ (h : CmdHdr) (s : State) : Host.Outcome State Fault Refusal := answer (respond s h 0 0)

/-- A command refused: nothing else changes. -/
def refuse (s : State) (h : CmdHdr) (status : Nat) : Host.Outcome State Fault Refusal := answer (respond s h status 0)

/-- What a command meets before its own checks: its issuers, the boot state (R437), and a switch of frame firmware (R433).
DEDUCED: log entry 74. -/
def gate (s : State) (h : CmdHdr) (by_ : List Issuer) (inRescue : Bool) : Option Nat :=
  if !by_.contains h.issuer then some 3
  else if s.fw.boot == .rescue then (if inRescue && h.issuer != .firmware then none else some 4)
  else if s.fw.boot != .ready then some 4
  else if s.fw.switching && h.issuer == .firmware then some 4
  else none

/-- An earlier command of the issuer waits to take effect: those of one issuer take effect in order. -/
def behindOthers (s : State) (h : CmdHdr) : Bool := s.fw.waiting.any fun i => issuerOf i == some h.issuer

/-- A command waits behind those of its issuer. -/
def queueCommand (s : State) (i : Instr) : Host.Outcome State Fault Refusal :=
  answer { s with fw := { s.fw with waiting := s.fw.waiting ++ [i] } }

/-- A command that cannot take effect yet waits, before the later ones of its issuer. DESIGN CHOICE: log entry 91. -/
def waitCommand (s : State) (i : Instr) : Host.Outcome State Fault Refusal :=
  answer { s with fw := { s.fw with waiting := i :: s.fw.waiting } }

/-- A command with its issuers. -/
def command (s : State) (i : Instr) (h : CmdHdr) (by_ : List Issuer) (body : Host.Outcome State Fault Refusal) :
    Host.Outcome State Fault Refusal :=
  if behindOthers s h then queueCommand s i
  else
    match gate s h by_ false with
    | some n => refuse s h n
    | none => body

/-- A command that RESCUE accepts too. -/
def rescueCommand (s : State) (i : Instr) (h : CmdHdr) (by_ : List Issuer) (body : Host.Outcome State Fault Refusal) :
    Host.Outcome State Fault Refusal :=
  if behindOthers s h then queueCommand s i
  else
    match gate s h by_ true with
    | some n => refuse s h n
    | none => body

/-- Host and frame firmware. -/
def byHF : List Issuer := [.host, .firmware]
/-- Host and the management port. -/
def byHM : List Issuer := [.host, .management]
/-- Frame firmware alone. -/
def byF : List Issuer := [.firmware]
/-- All issuers. -/
def byAll : List Issuer := [.host, .firmware, .management]

/-! ## Contexts (R362, R363, R381, R426) -/

/-- CTXOPEN. -/
def execCtxopen (h : CmdHdr) (ctx : Nat) (objt : W64) (s : State) : Host.Outcome State Fault Refusal :=
  command s (.ctxopen h ctx objt) h byHF <|
    if 16 ≤ ctx then refuse s h 2
    else if (getCtx s.kern ctx).state != .free then refuse s h 4
    else
      let x : Ctx := { Ctx.reset with state := .opened, objt := objt }
      done_ h (arbiterDue { s with kern := { s.kern with ctxs := mset s.kern.ctxs ctx x } })

/-- What threads of a context have issued is not over: requests, stores, accepted copies, claimed slots, and packets, which complete
after a stop (R239). -/
def ctxPending (k : Kern) (ctx : Nat) : Bool :=
  (k.cores.any fun p =>
    (p.2.reqs.any fun q => q.ctx == ctx) || (p.2.wc.any fun e => e.ctx == ctx) || (p.2.copies.any fun j => j.ctx == ctx) ||
      p.2.copyqs.any fun j => j.ctx == ctx) ||
    k.queues.any fun q => q.2.ctx == ctx && !q.2.running.isEmpty

/-- A thread whose wait for a park record is over where one has become free (R272). -/
def freeRecordWait (freed : Bool) (t : Thread) : Thread := if freed && t.wait == .noRecord then { t with wait := .none } else t

/-- A core without the blocks of a context and what is theirs. -/
def clearCore (k : Kern) (ctx : Nat) (core : Core) : Core :=
  let mine := (core.blocks.filter fun b => b.2.ctx == ctx).map (·.1)
  let gone := core.blocks.filter fun b => b.2.ctx == ctx
  let n := (gone.map fun b => (b.2.groups.map fun g => g.cols.length * (g.regs / 8 + 1)).sum).sum
  let ofCtx (serial : Nat) : Bool := ((mget k.launches serial).map (·.ctx)) == some ctx
  { core with
    blocks := core.blocks.filter fun b => b.2.ctx != ctx, slices := core.slices + n,
    threads := (core.threads.filter fun t => !mine.contains t.block).map
      (freeRecordWait (core.parks.any fun p => p.ctx == ctx)),
    entries := core.entries.filter fun e => !ofCtx e.2.launch,
    parks := core.parks.filter fun p => p.ctx != ctx, lines := core.lines.filter fun l => l.ctx != ctx,
    lcache := core.lcache.filter fun l => l.ctx != ctx, ocache := core.ocache.filter fun o => o.1 != ctx,
    bedJobs := core.bedJobs.filter fun j => j.ctx != ctx, mxq := core.mxq.filter fun m => m.ctx != ctx,
    xr := core.xr.filter fun r => !ofCtx r.launch, buckets := mdel core.buckets ctx,
    cards := core.cards.filter fun x => x.ctx != ctx, copyCount := mdel core.copyCount ctx,
    sampler := { core.sampler with running := core.sampler.running && core.sampler.ctx != ctx } }

/-- The launch-end records of a close (R381, R382): RESULT 2. -/
def closeRecords (k : Kern) (ctx c : Nat) : Kern :=
  (k.launches.filter fun p => p.2.ctx == ctx && !p.2.done).foldl (fun k p =>
    let x := getCtx k ctx
    logRecord k ctx 6 p.1 (cycleOf k c)
      (bytesOfNat 4 x.urcount ++ bytesOfNat 4 x.racecount ++ bytesOfNat 4 x.ebudget ++ [2])) k

/-- Close a context: its blocks, launches and cards go. -/
def closeContext (s : State) (ctx : Nat) : State :=
  let k := closeRecords s.kern ctx (refCore s 0)
  let ended (n : Nat) : Bool := ((mget k.launches n).map (·.ctx)) == some ctx
  let k' := { k with
    cores := k.cores.map fun p => (p.1, clearCore k ctx p.2),
    launches := k.launches.map fun p => (p.1, if p.2.ctx == ctx then { p.2 with done := true, counted := true } else p.2),
    fields := k.fields.filter fun p => !ended p.1, notices := k.notices.filter fun n => !ended n.launch,
    shared := k.shared.filter fun n => !ended n, vacated := k.vacated.filter fun v => !ended v.launch,
    bayCards := k.bayCards.map fun p => (p.1, p.2.filter fun x => x.ctx != ctx),
    queues := k.queues.filter fun q => q.2.ctx != ctx, far := k.far.filter fun x => x.ctx != ctx || x.owner == 0, units := k.units.filter fun w => w.ctx != ctx,
    ctxs := mset k.ctxs ctx Ctx.reset }
  let held (b : Nat) : Bool := !bayEmpty s.kern b
  let s' := arbiterDue { s with kern := k' }
  ((List.range 32).filter held).foldl noteEmpty ((List.range 32).foldl endLease s')

/-- CTXCLOSE: it completes once the copies and packets already accepted, and the accesses already issued, have completed. The
dispatcher's leases end with it; it takes again those that it still needs (R361). DEDUCED: log entry 109. -/
def execCtxclose (h : CmdHdr) (ctx : Nat) (s : State) : Host.Outcome State Fault Refusal :=
  command s (.ctxclose h ctx) h byHF <|
    if 16 ≤ ctx then refuse s h 2
    else
      let st := (getCtx s.kern ctx).state
      if st != .opened && st != .stopped then refuse s h 4
      else if ctxPending s.kern ctx then waitCommand s (.ctxclose h ctx)
      else done_ h (closeContext s ctx)

/-- A context with a field set (R362); none where the value is out of range. -/
def setField (x : Ctx) (field : Nat) (v : W64) : Option Ctx :=
  let n := v.toNat
  match field with
  | 0 => if 1 ≤ n && n ≤ 255 then some { x with share := n } else none
  | 1 => if 64 ≤ n && n ≤ 4096 then some { x with wcage := n } else none
  | 2 => some { x with save := v }
  | 3 => some { x with log := v }
  | _ => none

/-- CTXSET. DEDUCED: log entry 75. -/
def execCtxset (h : CmdHdr) (ctx field : Nat) (value : W64) (s : State) : Host.Outcome State Fault Refusal :=
  command s (.ctxset h ctx field value) h byHF <|
    if 16 ≤ ctx then refuse s h 2
    else if (getCtx s.kern ctx).state == .free then refuse s h 4
    else
      match setField (getCtx s.kern ctx) field value with
      | none => refuse s h 2
      | some x => done_ h { s with kern := { s.kern with ctxs := mset s.kern.ctxs ctx x } }

/-- A budget with an addend (R426): it saturates, and an addition to 0 arms the event again. -/
def addBudget (n : Nat) (x : Ctx) : Ctx :=
  { x with ebudget := min (2 ^ 32 - 1) (x.ebudget + n), armed := x.armed || (x.ebudget == 0 && n != 0) }

/-- CTXBUDGET. -/
def execCtxbudget (h : CmdHdr) (ctx : Nat) (addend : W32) (s : State) : Host.Outcome State Fault Refusal :=
  command s (.ctxbudget h ctx addend) h byHF <|
    if 16 ≤ ctx then refuse s h 2
    else if (getCtx s.kern ctx).state == .free then refuse s h 4
    else done_ h { s with kern := modCtx s.kern ctx (addBudget addend.toNat) }

/-- The state of a block as a slot of the stand-down area holds it (R378). DESIGN CHOICE: log entry 69. -/
def blockState (k : Kern) (c b : Nat) (blk : Block) : List Byte :=
  bytesOfNat 8 1 ++ slotBytes blk (blockThreads (coreOf k c) b) k.free

/-- STATEREAD: the state of a block, named core × 16 + slot. -/
def execStateread (h : CmdHdr) (ctx block : Nat) (dst : W64) (s : State) : Host.Outcome State Fault Refusal :=
  command s (.stateread h ctx block dst) h byHF <|
    let k := s.kern
    let cap := dst.toNat
    if 16 ≤ ctx then refuse s h 2
    else if (getCtx k ctx).state != .stopped then refuse s h 4
    else
      match (blockOf k (block / 16) (block % 16)).filter fun b => b.ctx == ctx, checkObj k ctx cap (capOff cap) slotSize 1 4 with
      | some b, .ok ea =>
        done_ h { s with kern := writeObj { k with free := k.free + 1 } ctx (capObj cap) ea (blockState k (block / 16) (block % 16) b) }
      | _, _ => refuse s h 2

/-! ## Objects and extents (R315, R364, R365, R367) -/

/-- An entry of 32 bytes, as its object number and what it says; none where it is invalid (R364). -/
def entryOf (w : BitVec 256) : Nat × Option ObjEntry :=
  let n := w.toNat
  let b := n / 2 ^ 24 % 256
  let cls : Option MemClass := match b / 4 % 4 with | 0 => some .p | 1 => some .d | 2 => some .n | _ => none
  let home : Option Home := match b % 4 with | 0 => some .hbm | 1 => some .vault | 2 => some .remote | _ => none
  let clean := n / 2 ^ 51 % 2 ^ 12 == 0 && n / 2 ^ 100 % 2 ^ 28 == 0 && n / 2 ^ 192 == 0
  (n % 2 ^ 24,
    match cls, home with
    | some c, some m =>
      if clean then
        some { rd := b.testBit 7, wr := b.testBit 6, at_ := b.testBit 5, ex := b.testBit 4, cls := c, home := m,
               hdev := n / 2 ^ 32 % 2 ^ 19, present := n.testBit 63, size := n / 2 ^ 64 % 2 ^ 36, ext := n / 2 ^ 128 % 2 ^ 64 }
      else none
    | _, _ => none)

/-- An accepted copy, whose ranges were checked then (R177), uses an object. -/
def copyUses (ctx obj : Nat) (j : CopyJob) : Bool :=
  let d := descOf j.d0 j.d1 j.d2 j.d3
  j.ctx == ctx && ((j.srcSpace == .ob && capObj j.src == obj) || (d.dsp == 1 && capObj (descCap d) == obj))

/-- The unit of a copy, a claimed slot or a packet waits for service (R441), which leaves it nothing that has been translated. -/
def unitWaits (k : Kern) (owner : Nat) : Bool :=
  k.units.any fun w => (w.kind == unitNumber .packet && owner == 3 * w.job + 2) ||
    ((w.kind == unitNumber .copy || w.kind == unitNumber .slot) && owner == jobUnit w.job)

/-- An access that has been checked against an object's entry has not been performed (R315): a request, a gathered store, an
accepted copy, or what a unit has asked of another device, but for those of a unit that waits for service, which checks its ranges
anew. What bed loads, feeds and queue packets read is checked when they run (R205, R207, R177). -/
def objBusy (k : Kern) (ctx obj : Nat) : Bool :=
  (k.cores.any fun p =>
    (p.2.reqs.any fun q => q.ctx == ctx && capObj q.cap.toNat == obj) ||
      (p.2.wc.any fun e => e.ctx == ctx && e.obj == obj) ||
      p.2.copies.any fun j => copyUses ctx obj j && !unitWaits k (jobUnit j.id)) ||
    k.far.any fun x => x.ctx == ctx && x.obj == obj && !unitWaits k x.owner

/-- A context with an entry set or removed. -/
def setEntry (obj : Nat) (e : Option ObjEntry) (x : Ctx) : Ctx :=
  { x with objs := match e with | some e => mset x.objs obj e | none => mdel x.objs obj }

/-- OBJSET: the change completes once every access checked before it has been performed. DEDUCED: log entry 80. -/
def execObjset (h : CmdHdr) (ctx : Nat) (entry : BitVec 256) (s : State) : Host.Outcome State Fault Refusal :=
  command s (.objset h ctx entry) h byF <|
    let x := entryOf entry
    if 16 ≤ ctx || x.1 == 0 then refuse s h 2
    else if (getCtx s.kern ctx).state == .free then refuse s h 4
    else if objBusy s.kern ctx x.1 then waitCommand s (.objset h ctx entry)
    else done_ h { s with kern := modCtx s.kern ctx (setEntry x.1 x.2) }

/-- The contexts of this device that hold an object at home here, with its entry. -/
def homes (k : Kern) (obj : Nat) : List (Nat × ObjEntry) :=
  k.ctxs.filterMap fun p => match mget p.2.objs obj with
    | some e => if e.home == .remote then none else some (p.1, e)
    | none => none

/-- The records and waits on an extent that has been placed go on (R367, R441). -/
def resumeExtent (k : Kern) (hs : List (Nat × ObjEntry)) (obj ext : Nat) : Kern :=
  let hit (ctx faddr : Nat) : Bool := hs.any fun p => p.1 == ctx && inExtent p.2 obj ext faddr
  let k := k.cores.foldl (fun k p =>
    let ps := p.2.parks.filter fun q => q.sub == 1 && hit q.ctx q.faddr.toNat
    if ps.isEmpty then k else resumeParks k p.1 ps) k
  { k with units := k.units.filter fun w => !(w.sub == 1 && hit w.ctx w.faddr.toNat) }

/-- The frame that a descriptor names is newly placed: its counts and its scrubbing begin again (R431). -/
def freshFrame (k : Kern) (x : Nat) : Kern :=
  let vault := x / 2 ^ 60 % 4 == 1
  { k with frames := mset k.frames (frameKey vault (x % 2 ^ 18)) (.fresh (if vault then .p else frameClass k (x % 2 ^ 18)) k.usec) }

/-- The frame that a descriptor names has been retired, which is never placed again (R432). -/
def namesRetired (k : Kern) (desc : W64) : Bool :=
  (extentBase desc).isSome && ((mget k.frames (frameKey (desc.toNat / 2 ^ 60 % 4 == 1) (desc.toNat % 2 ^ 18))).map (·.retired)) == some true

/-- The extents of an object. -/
def extentCount (e : ObjEntry) : Nat := ceilDiv e.size (frameBytes e)

/-- EXTSET. -/
def execExtset (h : CmdHdr) (obj ext : Nat) (desc : W64) (s : State) : Host.Outcome State Fault Refusal :=
  command s (.extset h obj ext desc) h byF <|
    let hs := homes s.kern obj
    match hs with
    | [] => refuse s h 2
    | (_, e) :: _ =>
      if extentCount e ≤ ext then refuse s h 2
      else if namesRetired s.kern desc then refuse s h 4
      else
      let k := { s.kern with extents := mset s.kern.extents (e.ext + ext) desc }
      if (extentBase desc).isSome then done_ h { s with kern := resumeExtent (freshFrame k desc.toNat) hs obj ext }
      else done_ h { s with kern := k }

/-- PARKDONE: the record is resumed or declined, with the others of its service; a wait of a unit is served in the same way (R367,
R441). -/
def execParkdone (h : CmdHdr) (ctx park : Nat) (declined : Bool) (s : State) : Host.Outcome State Fault Refusal :=
  command s (.parkdone h ctx park declined) h byHF <|
    let k := s.kern
    match k.cores.findSome? fun p => (p.2.parks.find? fun q => q.id == park && q.ctx == ctx).map fun q => (p.1, q) with
    | some (c, q) =>
      let mine := (coreOf k c).parks.filter (servedTogether q)
      done_ h { s with kern := if declined then declineParks k c mine else resumeParks k c mine }
    | none =>
      match k.units.find? fun w => w.id == park && w.ctx == ctx with
      | none => refuse s h 2
      | some w =>
        let k := if declined then declineUnit k w else k
        done_ h { s with kern := { k with units := k.units.filter fun x => x.id != w.id } }

/-! ## Frames (R370, R432) -/

/-- FRAMECLASS: it erases the frame. DEDUCED: log entry 71. -/
def execFrameclass (h : CmdHdr) (frame : Nat) (cls : MemClass) (s : State) : Host.Outcome State Fault Refusal :=
  command s (.frameclass h frame cls) h byF <|
    if 2 ^ 18 ≤ frame then refuse s h 2
    else if frameNamed s.kern false frame || (frameInfo s.kern false frame).retired then refuse s h 4
    else
      let k := wipe s.kern (hbmFrame frame) (2 ^ 21)
      done_ h { s with kern := { k with frames := mset k.frames frame (.fresh cls k.usec) } }

/-- FRAMERETIRE: of an HBM frame, or of a vault frame from 2^18 on. DESIGN CHOICE: log entry 72. -/
def execFrameretire (h : CmdHdr) (frame : Nat) (s : State) : Host.Outcome State Fault Refusal :=
  command s (.frameretire h frame) h byF <|
    let vault : Bool := 2 ^ 18 ≤ frame
    let n := frame % 2 ^ 18
    if 2 ^ 18 + 2 ^ 15 ≤ frame then refuse s h 2
    else if frameNamed s.kern vault n then refuse s h 4
    else
      let x := { frameInfo s.kern vault n with retired := true }
      done_ h { s with kern := { s.kern with frames := mset s.kern.frames (frameKey vault n) x } }

/-! ## Graphs (R351) -/

/-- Node i of an image. -/
def imageNode (b : List Byte) (i : Nat) : Node :=
  let o := 64 + 576 * i
  { succ := (List.range (fieldOf b (o + 2) 2)).map fun j => fieldOf b (o + 8 + 2 * j) 2, card := (fieldOf b (o + 4) 1).testBit 0,
    rec_ := (b.drop (o + 64)).take 512, prepared := false, waiting := 0, done := false, admitted := false }

/-- The header of node i keeps R351. -/
def nodeGood (b : List Byte) (count : Nat) (ns : List Node) (i : Nat) : Bool :=
  let o := 64 + 576 * i
  let n := fieldOf b (o + 2) 2
  n ≤ 28 && fieldOf b o 2 == predecessors ns i && fieldOf b o 2 ≤ 1023 && fieldOf b (o + 4) 1 < 2 && zeroRange b (o + 5) 3 &&
    zeroRange b (o + 8 + 2 * n) (56 - 2 * n) && match ns[i]? with
    | some x => (x.succ.all fun j => j < count) && (!x.card || (n == 0 && fieldOf b o 2 == 0))
    | none => false

/-- The nodes that remain after those without a predecessor among the rest have been taken away, n times. -/
def peel (ns : List Node) : Nat → List Nat → List Nat
  | 0, left => left
  | n + 1, left =>
    peel ns n (left.filter fun i => left.any fun j => ((ns[j]?).map fun x => x.succ.contains i).getD false)

/-- The edges form no cycle. -/
def acyclic (ns : List Node) : Bool := (peel ns ns.length (List.range ns.length)).isEmpty

/-- The card numbers of a graph. -/
def cardNumbers (base : Nat) (ns : List Node) : List Nat := (List.range (ns.filter (·.card)).length).map (base + ·)

/-- The card numbers meet no other graph's of the context. -/
def cardsGood (k : Kern) (graph ctx base : Nat) (ns : List Node) : Bool :=
  let mine := cardNumbers base ns
  (if mine.isEmpty then base == 0xFFFF else base ≤ 4095) &&
    k.graphs.all fun g => g.1 == graph || g.2.ctx != ctx || (cardNumbers g.2.cardbase g.2.nodes).all fun n => !mine.contains n

/-- The graph of an image; none where R351 refuses it. -/
def graphOf (k : Kern) (graph : Nat) (b : List Byte) : Option Graph :=
  let count := fieldOf b 4 2
  let ctx := fieldOf b 24 1
  let ns := (List.range count).map (imageNode b)
  let status := fieldOf b 16 8
  if fieldOf b 0 4 == 0x4B4C4752 && 1 ≤ count && count ≤ 1024 && ctx < 16 && zeroRange b 25 39 &&
      ((List.range count).all (nodeGood b count ns)) && acyclic ns && cardsGood k graph ctx (fieldOf b 6 2) ns &&
      (checkObj k ctx status (capOff status) 8 8 4).isOk then
    some { ctx := ctx, cardbase := fieldOf b 6 2, patchobj := BitVec.ofNat 64 (fieldOf b 8 8), status := BitVec.ofNat 64 status,
           nodes := ns, triggers := [], running := false, failed := none, cardsOut := 0, runs := 0 }
  else none

/-- The bytes that the other graphs take in the store. -/
def storeUsed (k : Kern) (graph : Nat) : Nat := (k.graphs.map fun g => if g.1 == graph then 0 else 64 + 576 * g.2.nodes.length).sum

/-- The unit that reads the image of a graph. -/
def imageUnit (graph : Nat) : Nat := recordUnit graph 8191

/-- n bytes of an image at a capability that may be read, as a unit reads them. -/
def readImage (k : Kern) (u ctx cap n : Nat) : Option (List Byte) :=
  if (checkObj k ctx cap (capOff cap) n 1 8).isOk then readRange k u ctx cap (capOff cap) n else none

/-- What a unit waits for before it reads n bytes of an image. -/
def imageAsks (k : Kern) (u ctx cap n : Nat) : Option Kern :=
  if (checkObj k ctx cap (capOff cap) n 1 8).isOk then rangeAsks k u ctx cap (capOff cap) n else none

/-- The size of a graph's image, by its header. -/
def graphSize (k : Kern) (u ctx cap : Nat) : Option Nat :=
  (readImage k u ctx cap 64).map fun hd => 64 + 576 * min 1024 (fieldOf hd 4 2)

/-- The bytes of a graph's image at a capability: its header names how many nodes follow. -/
def imageBytes (k : Kern) (u ctx cap : Nat) : Option (List Byte) := (graphSize k u ctx cap).bind (readImage k u ctx cap)

/-- A graph may not be replaced: a run is in progress or triggers are queued. -/
def graphBusy (k : Kern) (graph : Nat) : Bool :=
  match mget k.graphs graph with
  | some g => g.running || !g.triggers.isEmpty
  | none => false

/-- What a load of a graph waits for: its image, and the tables of its card nodes, where they are on other devices. -/
def graphAsks (k : Kern) (graph ctx cap : Nat) : Option Kern :=
  let u := imageUnit graph
  ((imageAsks k u ctx cap 64).or ((graphSize k u ctx cap).bind (imageAsks k u ctx cap))).or
    (((imageBytes k u ctx cap).bind (graphOf k graph)).bind fun g => nodesAsk k u g.ctx g.nodes)

/-- GRAPHLOAD: the card nodes are checked as they are stored. -/
def execGraphload (h : CmdHdr) (graph ctx : Nat) (image : W64) (s : State) : Host.Outcome State Fault Refusal :=
  command s (.graphload h graph ctx image) h byHF <|
    if 1024 ≤ graph then refuse s h 2
    else if graphBusy s.kern graph then refuse s h 4
    else
      let u := imageUnit graph
      let ended : State := { s with kern := endUnit s.kern u }
      match graphAsks s.kern graph ctx image.toNat, (imageBytes s.kern u ctx image.toNat).bind (graphOf s.kern graph) with
      | some k, _ => waitCommand { s with kern := k } (.graphload h graph ctx image)
      | none, none => refuse ended h 2
      | none, some g =>
        if 2 ^ 22 < storeUsed s.kern graph + 64 + 576 * g.nodes.length then refuse ended h 7
        else
          let g := { g with nodes := g.nodes.map fun n => { n with prepared := n.card && preparedCard (forUnit s u) g.ctx n } }
          done_ h { s with kern := { ended.kern with graphs := mset s.kern.graphs graph g } }

/-- GRAPHFREE: not while a run is in progress; queued triggers go with the graph. DEDUCED: log entry 118. -/
def execGraphfree (h : CmdHdr) (graph : Nat) (s : State) : Host.Outcome State Fault Refusal :=
  command s (.graphfree h graph) h byHF <|
    if (mget s.kern.graphs graph).isNone then refuse s h 2
    else if (mget s.kern.graphs graph).any (·.running) then refuse s h 4
    else done_ h { s with kern := { s.kern with graphs := mdel s.kern.graphs graph } }

/-! ## Power (R413, R421, R423, R427, R433) -/

/-- PCAP. -/
def execPcap (h : CmdHdr) (watts : Nat) (s : State) : Host.Outcome State Fault Refusal :=
  command s (.pcap h watts) h byAll <|
    if 1200 ≤ watts && watts ≤ 3200 then done_ h (arbiterDue { s with pwr := { s.pwr with pcap := watts } }) else refuse s h 2

/-- SLOPE. -/
def execSlope (h : CmdHdr) (bay groups : Nat) (s : State) : Host.Outcome State Fault Refusal :=
  command s (.slope h bay groups) h byF <|
    if bay < 32 && 1 ≤ groups && groups ≤ 64 then done_ h (modBay s bay fun b => { b with slope := groups }) else refuse s h 2

/-- SUBSCRIBE: VALUE is the subscription's index. -/
def execSubscribe (h : CmdHdr) (ctx source bay : Nat) (thresh : W32) (fall : Bool) (word : W64) (s : State) :
    Host.Outcome State Fault Refusal :=
  command s (.subscribe h ctx source bay thresh fall word) h byHF <|
    let cap := word.toNat
    if 4 < source || (if source < 2 then 32 ≤ bay else bay != 0) || !(checkObj s.kern ctx cap (capOff cap) 8 8 4).isOk
    then refuse s h 2
    else
      match (List.range 32).find? fun i => (mget s.pwr.subs i).isNone with
      | none => refuse s h 7
      | some i =>
        let x : Subscription := { ctx := ctx, source := source, bay := bay, thresh := thresh, fall := fall, word := word, count := 0,
                                  fired := false, lastSeq := s.pwr.seq }
        let x := { x with fired := beyond s x }
        answer (respond { s with pwr := { s.pwr with subs := mset s.pwr.subs i x } } h 0 i)

/-- UNSUBSCRIBE. -/
def execUnsubscribe (h : CmdHdr) (sub : Nat) (s : State) : Host.Outcome State Fault Refusal :=
  command s (.unsubscribe h sub) h byHF <|
    if (mget s.pwr.subs sub).isNone then refuse s h 2
    else done_ h { s with pwr := { s.pwr with subs := mdel s.pwr.subs sub } }

/-- A moment that has not come. -/
def pending (s : State) (t : Option Nat) : Bool := t.isSome && !hasCome s.pwr.usec t

/-- MARGIN: refused above 12, in the sequence or the hold-off of R430, and for more than one unit down within 10 ms of the last
change (R427). One that names the OFFSET in force changes nothing. -/
def execMargin (h : CmdHdr) (die offset : Nat) (s : State) : Host.Outcome State Fault Refusal :=
  command s (.margin h die offset) h byF <|
    let d := getDie s die
    if 4 ≤ die then refuse s h 2
    else if 12 < offset || pending s d.holdoff || pending s d.returning || d.attributed.isSome ||
        (d.offset + 1 < offset && d.lastChange.any fun t => s.pwr.usec < t + 10000) then refuse s h 4
    else if offset == d.offset then done_ h s
    else done_ h (modDie s die fun d => { d with offset := offset, lastChange := some s.pwr.usec })

/-- The bay holds no block. -/
def bayNoBlock (k : Kern) (b : Nat) : Bool := (List.range 8).all fun i => (coreOf k (b * 8 + i)).blocks.isEmpty
/-- The bay holds no exchange region. -/
def bayNoRegion (k : Kern) (b : Nat) : Bool := (List.range 8).all fun i => (coreOf k (b * 8 + i)).xr.isEmpty

/-- BAYQUIESCE: it clears the bay's bit, and completes when the bay holds no block. -/
def execBayquiesce (h : CmdHdr) (bay : Nat) (s : State) : Host.Outcome State Fault Refusal :=
  command s (.bayquiesce h bay) h byHF <|
    if 32 ≤ bay then refuse s h 2
    else if !bayNoRegion s.kern bay then refuse s h 4
    else
      let s := modBay s bay fun b => { b with enabled := false }
      if bayNoBlock s.kern bay then done_ h s else waitCommand s (.bayquiesce h bay)

/-- BAYRECAL: of a bay that is quiesced. -/
def execBayrecal (h : CmdHdr) (bay : Nat) (s : State) : Host.Outcome State Fault Refusal :=
  command s (.bayrecal h bay) h byHF <|
    if 32 ≤ bay then refuse s h 2
    else if (getBay s bay).enabled || !bayEmpty s.kern bay then refuse s h 4
    else
      let good (b : Bay) : Bool := b.sensed.all (· ≤ 15)
      done_ h (serviced (modBay s bay fun b => { measured s.pwr.grant b with unstable := !good b }) bay (good (getBay s bay)))

/-- BAYRETURN: a bay with no stable FLOOR stays out. -/
def execBayreturn (h : CmdHdr) (bay : Nat) (s : State) : Host.Outcome State Fault Refusal :=
  command s (.bayreturn h bay) h byHF <|
    if 32 ≤ bay then refuse s h 2
    else if (getBay s bay).unstable then refuse s h 4
    else done_ h (modBay s bay fun b => { b with enabled := true })

/-! ## Ports, keys and peers (R396, R399 to R402) -/

/-- PORTTRAIN: a new bring-up. -/
def execPorttrain (h : CmdHdr) (port : Nat) (s : State) : Host.Outcome State Fault Refusal :=
  command s (.porttrain h port) h byHF <|
    let p := getPort s port
    if 16 ≤ port then refuse s h 2
    else if p.state == .down || p.state == .isolated then
      done_ h (modPort s port fun p =>
        { p with state := .train, tries := 0, paused := false, txLseq := 0, rxLseq := 0, replay := [], wantReplay := none,
                 badTag := none, pauses := [], retrains := 0, replays := 0, recent := [] })
    else refuse s h 4

/-- PORTISOLATE. -/
def execPortisolate (h : CmdHdr) (port : Nat) (s : State) : Host.Outcome State Fault Refusal :=
  command s (.portisolate h port) h byHF <|
    if 16 ≤ port then refuse s h 2
    else done_ h (modPort s port fun p => { p with state := .isolated, replay := [] })

/-- The number of a port state (R400). -/
def stateNumber : PortState → Nat
  | .down => 0 | .train => 1 | .up8 => 2 | .up4 => 3 | .retrain => 4 | .isolated => 5

/-- The status word of a port (R400). -/
def statusOf (p : Port) : Nat :=
  stateNumber p.state * 2 ^ 29 + (if p.encrypt then 2 ^ 28 else 0) + (if p.ks then 2 ^ 27 else 0) +
    (if p.kwarn then 2 ^ 26 else 0) + p.retrains % 256 * 2 ^ 16 + p.replays % 65536

/-- PORTSTATUS. -/
def execPortstatus (h : CmdHdr) (port : Nat) (s : State) : Host.Outcome State Fault Refusal :=
  rescueCommand s (.portstatus h port) h byAll <|
    if 16 ≤ port then refuse s h 2 else answer (respond s h 0 (statusOf (getPort s port)))

/-- A port with a key loaded (R401, R402): the slot's counter starts at 0. -/
def loadKey (sending : Bool) (slot : Nat) (key : BitVec 256) (salt : W32) (p : Port) : Port :=
  let x : KeySlot := { key := key, salt := salt, counter := 0, afterWarn := p.kwarn }
  if sending then
    { p with sendKeys := mset p.sendKeys slot x, kwarn := p.kwarn && slot != slotNumber p.ks,
             paused := p.paused && slot != slotNumber p.ks }
  else { p with recvKeys := mset p.recvKeys slot x }

/-- KEYLOAD. -/
def execKeyload (h : CmdHdr) (port : Nat) (sending : Bool) (slot : Nat) (key : BitVec 256) (salt : W32) (s : State) :
    Host.Outcome State Fault Refusal :=
  command s (.keyload h port sending slot key salt) h byHF <|
    if 16 ≤ port || 2 ≤ slot then refuse s h 2 else done_ h (modPort s port (loadKey sending slot key salt))

/-- PEERSET: PLANES says which planes reach the peer (R396). -/
def execPeerset (h : CmdHdr) (dev : Nat) (entry : BitVec 128) (s : State) : Host.Outcome State Fault Refusal :=
  command s (.peerset h dev entry) h byF <|
    if 2 ^ 19 ≤ dev || entry.toNat / 2 ^ 80 != 0 then refuse s h 2
    else done_ h (setPeer s dev entry)

/-! ## Recovery (R434) -/

/-- The requester of an EXPORT's packets, which is no core. -/
def exportCore : Nat := 259

/-- The bytes of an object from a capability's offset to its end. -/
def restOf (k : Kern) (ctx cap : Nat) : Nat := ((getObj k ctx (capObj cap)).map fun e => e.size - capOff cap).getD 0

/-- A pair of EXPORT: a local object, and a remote capability that may be written and has room for it. -/
def pairGood (k : Kern) (ctx : Nat) (p : W64 × W64) : Bool :=
  let local_ := ((getObj k ctx (capObj p.1.toNat)).map fun e => e.home != .remote).getD false
  let away := ((getObj k ctx (capObj p.2.toNat)).map fun e => e.home == .remote).getD false
  local_ && away && capAllows k ctx p.1.toNat 8 && capAllows k ctx p.2.toNat 4 && capHolds k ctx p.2.toNat (restOf k ctx p.1.toNat)

/-- Every extent of a pair's object is placed. -/
def pairPlaced (k : Kern) (ctx : Nat) (p : W64 × W64) : Bool :=
  (objRuns k ctx (capObj p.1.toNat) (capOff p.1.toNat) (restOf k ctx p.1.toNat)).isOk

/-- Send bytes of a local object to an object on another device, a packet for each line of it from the first on, n of them: the
numbers of the packets. Bytes that are poison are sent as all ones. -/
def exportLines (dev obj off first : Nat) (bs : List Byte) (s : State) : Nat → State × List Nat
  | 0 => (s, [])
  | n + 1 =>
    let x := exportLines dev obj off first bs s n
    let line := first + n
    let cells := ((List.range bs.length).zip bs).filterMap fun p =>
      if (off + p.1) / 64 == line then some ((off + p.1) % 64, p.2) else none
    (sendPacket x.1 dev (laneOf dev obj line) .request (.drain exportCore 0 obj line cells), x.2 ++ [x.1.kern.id])

/-- Send an object. -/
def exportPair (ctx : Nat) (x : State × List Nat) (p : W64 × W64) : State × List Nat :=
  let k := x.1.kern
  let n := restOf k ctx p.1.toNat
  match takeBytes k (.ob ctx p.1.toNat) (capOff p.1.toNat) n, getObj k ctx (capObj p.2.toNat) with
  | .ok c, some d =>
    let off := capOff p.2.toNat
    let y := exportLines d.hdev (capObj p.2.toNat) off (off / 64) (sentBytes c) x.1 (linesIn off n).length
    (y.1, x.2 ++ y.2)
  | _, _ => x

/-- EXPORT: it sends the objects once every extent of them is placed, and completes when every packet has been acknowledged.
DEDUCED: log entry 79. -/
def execExportObjs (h : CmdHdr) (ctx : Nat) (pairs : List (W64 × W64)) (s : State) : Host.Outcome State Fault Refusal :=
  command s (.exportObjs h ctx pairs) h byHF <|
    match s.fw.exports.find? fun x => x.1 == h with
    | some x =>
      if s.fab.unacked.any fun p => x.2.contains p.id then waitCommand s (.exportObjs h ctx pairs)
      else done_ h { s with fw := { s.fw with exports := s.fw.exports.filter fun y => y.1 != h } }
    | none =>
      if 16 ≤ ctx || pairs.isEmpty || 4 < pairs.length || !pairs.all (pairGood s.kern ctx) then refuse s h 2
      else if !pairs.all (pairPlaced s.kern ctx) then waitCommand s (.exportObjs h ctx pairs)
      else
        let x := pairs.foldl (exportPair ctx) (s, [])
        waitCommand { x.1 with fw := { x.1.fw with exports := x.1.fw.exports ++ [(h, x.2)] } } (.exportObjs h ctx pairs)

/-- The peer table's entry for this part (R396, R246). -/
def ownEntry (f : Firmware) : BitVec 128 :=
  BitVec.ofNat 128 (revision f + 0x3FFF * 2 ^ 32 + 0xFFFF * 2 ^ 64)

/-- SPARE: the device takes another's number. -/
def execSpare (h : CmdHdr) (dev : Nat) (s : State) : Host.Outcome State Fault Refusal :=
  command s (.spare h dev) h [.host] <|
    if 2 ^ 19 ≤ dev then refuse s h 2
    else if s.kern.ctxs.any fun p => p.2.state == .running then refuse s h 4
    else
      let t := if (mget s.fab.peers dev).isSome then setPeer s dev (ownEntry s.fw) else s
      done_ h { t with fab := { t.fab with dev := dev } }

/-! ## Firmware (R433, R438, R439) -/

/-- An image stored: frame firmware in the inactive slot, a sill patch in the next patch slot. -/
def stored (x : FwImage) (f : Firmware) : Firmware :=
  if x.kind == 0 then (if f.active then { f with slotA := some x } else { f with slotB := some x })
  else { f with patches := f.patches + 1, sills := f.sills ++ [x] }

/-- What becomes of an image that has been read: it is verified, and written where it has room. -/
def stageImage (h : CmdHdr) (x : FwImage) (s : State) : Host.Outcome State Fault Refusal :=
  if 1 < x.kind then refuse s h 2
  else if !Config.signed x then refuse s h 5
  else if x.version < fuseOf s.fw x.kind then refuse s h 6
  else if x.kind == 1 && 2 ≤ s.fw.patches then refuse s h 7
  else done_ h { s with fw := stored x s.fw }

/-- FWSTAGE: the image is what stands from the capability's offset to the end of its object. DEDUCED: log entry 76. -/
def execFwstage (h : CmdHdr) (image : Nat × W64) (s : State) : Host.Outcome State Fault Refusal :=
  rescueCommand s (.fwstage h image) h byAll <|
    let ctx := image.1
    let cap := image.2.toNat
    let u := recordUnit 1024 0
    let n := restOf s.kern ctx cap
    let ended : State := { s with kern := endUnit s.kern u }
    match imageAsks s.kern u ctx cap n, if n == 0 then none else readImage s.kern u ctx cap n with
    | some k, _ => waitCommand { s with kern := k } (.fwstage h image)
    | none, none => refuse ended h 2
    | none, some bs => stageImage h (Config.imageOf bs) ended

/-- FWACTIVATE: the slots switch, and frame firmware restarts; RESCUE verifies again. -/
def execFwactivate (h : CmdHdr) (s : State) : Host.Outcome State Fault Refusal :=
  rescueCommand s (.fwactivate h) h byHM <|
    if (if s.fw.active then s.fw.slotA else s.fw.slotB).isNone then refuse s h 4
    else
      let rescue := s.fw.boot == .rescue
      done_ h { s with fw :=
        { s.fw with active := !s.fw.active, switching := !rescue, boot := if rescue then .verify else s.fw.boot } }

/-- SHOPRESTART: not of the last serving core; the core serves again when BOOT has brought it up. -/
def execShoprestart (h : CmdHdr) (shop : Nat) (s : State) : Host.Outcome State Fault Refusal :=
  command s (.shoprestart h shop) h byHM <|
    if 4 ≤ shop then refuse s h 2
    else if !(List.range 4).any fun i => i != shop && s.fw.shops.getD i false then refuse s h 4
    else done_ h { s with fw := { s.fw with shops := s.fw.shops.set shop false } }

/-- The bytes of a report. -/
def reportSize : Nat := 4096

/-- The measurement of an image, or of none. -/
def measureBytes (x : Option FwImage) : List Byte := bytesOfNat 48 ((x.map fun i => i.measurement.toNat).getD 0)

/-- The frame firmware image in the active slot. -/
def activeImage (f : Firmware) : Option FwImage := if f.active then f.slotB else f.slotA

/-- What a report holds before its signatures (R439): the nonce, REVISION, ENBAYS, the measurements of the sill patches and of the
active frame firmware, and the fuse counters. -/
def reportBody (s : State) (nonce : BitVec 256) : List Byte :=
  bytesOfNat 32 nonce.toNat ++ bytesOfNat 4 (revision s.fw) ++ bytesOfNat 4 (enabledBays s) ++
    measureBytes s.fw.sills[0]? ++ measureBytes s.fw.sills[1]? ++ measureBytes (activeImage s.fw) ++
    bytesOfNat 4 (fuseOf s.fw 0) ++ bytesOfNat 4 (fuseOf s.fw 1)

/-- A report: its body, and the signatures of both attestation keys of this boot, that of the LMS key from its next leaf. -/
def reportBytes (s : State) (nonce : BitVec 256) : List Byte :=
  let body := reportBody s nonce
  body ++ (List.range (reportSize - body.length)).map (Config.reportByte body s.fw.boots s.fw.reports)

/-- ATTEST: 32,768 reports to a boot, each from a leaf of its own. -/
def execAttest (h : CmdHdr) (ctx : Nat) (nonce : BitVec 256) (dst : W64) (s : State) : Host.Outcome State Fault Refusal :=
  rescueCommand s (.attest h ctx nonce dst) h byAll <|
    let cap := dst.toNat
    if 32768 ≤ s.fw.reports then refuse s h 7
    else
      match checkObj s.kern ctx cap (capOff cap) reportSize 1 4 with
      | .error _ => refuse s h 2
      | .ok ea =>
        done_ h { s with kern := writeObj s.kern ctx (capObj cap) ea (reportBytes s nonce),
                         fw := { s.fw with reports := s.fw.reports + 1 } }

/-- The image that runs, by kind: of sill the last patch that it has applied. -/
def runningImage (f : Firmware) (kind : Nat) : Option FwImage :=
  if kind == 0 then activeImage f else (f.sills.take f.patched).getLast?

/-- FUSEADVANCE: the counter is raised to the running image's version, never lowered; that image must have completed BRINGUP (R438).
-/
def execFuseadvance (h : CmdHdr) (kind : Nat) (s : State) : Host.Outcome State Fault Refusal :=
  command s (.fuseadvance h kind) h byHM <|
    if 1 < kind then refuse s h 2
    else if s.fw.switching then refuse s h 4
    else
      match runningImage s.fw kind with
      | none => refuse s h 4
      | some x =>
        if !s.fw.completed.contains x then refuse s h 4
        else done_ h { s with fw := { s.fw with fuses := mset s.fw.fuses kind (max (fuseOf s.fw kind) x.version) } }

/-- An OPC that names no command: status 1. -/
def execUnknownCommand (h : CmdHdr) (opc : BitVec 16) (s : State) : Host.Outcome State Fault Refusal :=
  if behindOthers s h then queueCommand s (.unknownCommand h opc) else refuse s h 1

end Sys2Proof.Machine
end

