-- ==== Sys2Proof/Machine/Dispatch.lean ====
section
/-! DEFINITION. The dispatcher: one arm for each constructor of Instr. -/

namespace Sys2Proof.Machine

/-- The meaning of an instruction. -/
def exec (i : Instr) (s : State) : Host.Outcome State Fault Refusal :=
  match i with
  | .nop x => Sys2Proof.Machine.execNop x s
  | .add x => Sys2Proof.Machine.execAdd x s
  | .sub x => Sys2Proof.Machine.execSub x s
  | .mul x => Sys2Proof.Machine.execMul x s
  | .mulhi x => Sys2Proof.Machine.execMulhi x s
  | .mad x => Sys2Proof.Machine.execMad x s
  | .div x => Sys2Proof.Machine.execDiv x s
  | .rem x => Sys2Proof.Machine.execRem x s
  | .min x => Sys2Proof.Machine.execMin x s
  | .max x => Sys2Proof.Machine.execMax x s
  | .abs x => Sys2Proof.Machine.execAbs x s
  | .neg x => Sys2Proof.Machine.execNeg x s
  | .addc x => Sys2Proof.Machine.execAddc x s
  | .subb x => Sys2Proof.Machine.execSubb x s
  | .sad x => Sys2Proof.Machine.execSad x s
  | .addi x => Sys2Proof.Machine.execAddi x s
  | .muli x => Sys2Proof.Machine.execMuli x s
  | .andi x => Sys2Proof.Machine.execAndi x s
  | .ori x => Sys2Proof.Machine.execOri x s
  | .xori x => Sys2Proof.Machine.execXori x s
  | .shli x => Sys2Proof.Machine.execShli x s
  | .shri x => Sys2Proof.Machine.execShri x s
  | .sari x => Sys2Proof.Machine.execSari x s
  | .movi x => Sys2Proof.Machine.execMovi x s
  | .cmpi x => Sys2Proof.Machine.execCmpi x s
  | .and x => Sys2Proof.Machine.execAnd x s
  | .or x => Sys2Proof.Machine.execOr x s
  | .xor x => Sys2Proof.Machine.execXor x s
  | .not x => Sys2Proof.Machine.execNot x s
  | .shl x => Sys2Proof.Machine.execShl x s
  | .shr x => Sys2Proof.Machine.execShr x s
  | .sar x => Sys2Proof.Machine.execSar x s
  | .rot x => Sys2Proof.Machine.execRot x s
  | .popc x => Sys2Proof.Machine.execPopc x s
  | .clz x => Sys2Proof.Machine.execClz x s
  | .bfx x => Sys2Proof.Machine.execBfx x s
  | .bfi x => Sys2Proof.Machine.execBfi x s
  | .sel x => Sys2Proof.Machine.execSel x s
  | .cmp x => Sys2Proof.Machine.execCmp x s
  | .mov x => Sys2Proof.Machine.execMov x s
  | .lea x => Sys2Proof.Machine.execLea x s
  | .fadd x => Sys2Proof.Machine.execFadd x s
  | .fsub x => Sys2Proof.Machine.execFsub x s
  | .fmul x => Sys2Proof.Machine.execFmul x s
  | .fma x => Sys2Proof.Machine.execFma x s
  | .fdiv x => Sys2Proof.Machine.execFdiv x s
  | .fsqrt x => Sys2Proof.Machine.execFsqrt x s
  | .fmin x => Sys2Proof.Machine.execFmin x s
  | .fmax x => Sys2Proof.Machine.execFmax x s
  | .fcmp x => Sys2Proof.Machine.execFcmp x s
  | .fclass x => Sys2Proof.Machine.execFclass x s
  | .frcp x => Sys2Proof.Machine.execFrcp x s
  | .frsq x => Sys2Proof.Machine.execFrsq x s
  | .cvt src x => Sys2Proof.Machine.execCvt src x s
  | .frnd x => Sys2Proof.Machine.execFrnd x s
  | .fsgn x => Sys2Proof.Machine.execFsgn x s
  | .plog x => Sys2Proof.Machine.execPlog x s
  | .pset x => Sys2Proof.Machine.execPset x s
  | .shfl x => Sys2Proof.Machine.execShfl x s
  | .vote x => Sys2Proof.Machine.execVote x s
  | .gred x => Sys2Proof.Machine.execGred x s
  | .bcast x => Sys2Proof.Machine.execBcast x s
  | .gscan x => Sys2Proof.Machine.execGscan x s
  | .lmask x => Sys2Proof.Machine.execLmask x s
  | .ld x => Sys2Proof.Machine.execLd x s
  | .st x => Sys2Proof.Machine.execSt x s
  | .ldx n x => Sys2Proof.Machine.execLdx n x s
  | .stx n x => Sys2Proof.Machine.execStx n x s
  | .atom op x => Sys2Proof.Machine.execAtom op x s
  | .red op x => Sys2Proof.Machine.execRed op x s
  | .cas x => Sys2Proof.Machine.execCas x s
  | .fence x => Sys2Proof.Machine.execFence x s
  | .lcinv x => Sys2Proof.Machine.execLcinv x s
  | .lcinvAll x => Sys2Proof.Machine.execLcinvAll x s
  | .wcdrain x => Sys2Proof.Machine.execWcdrain x s
  | .wcdrainAll x => Sys2Proof.Machine.execWcdrainAll x s
  | .validSet x => Sys2Proof.Machine.execValidSet x s
  | .validClr x => Sys2Proof.Machine.execValidClr x s
  | .validGet x => Sys2Proof.Machine.execValidGet x s
  | .pref x => Sys2Proof.Machine.execPref x s
  | .capder x => Sys2Proof.Machine.execCapder x s
  | .capadd x => Sys2Proof.Machine.execCapadd x s
  | .capq x => Sys2Proof.Machine.execCapq x s
  | .copy x => Sys2Proof.Machine.execCopy x s
  | .copyq x => Sys2Proof.Machine.execCopyq x s
  | .tlwait x => Sys2Proof.Machine.execTlwait x s
  | .tlrd x => Sys2Proof.Machine.execTlrd x s
  | .tlrdIssued x => Sys2Proof.Machine.execTlrdIssued x s
  | .jig x => Sys2Proof.Machine.execJig x s
  | .jigSt x => Sys2Proof.Machine.execJigSt x s
  | .jigLd x => Sys2Proof.Machine.execJigLd x s
  | .mx x => Sys2Proof.Machine.execMx x s
  | .mxSet x => Sys2Proof.Machine.execMxSet x s
  | .accz x => Sys2Proof.Machine.execAccz x s
  | .accld x => Sys2Proof.Machine.execAccld x s
  | .accst x => Sys2Proof.Machine.execAccst x s
  | .accstNow x => Sys2Proof.Machine.execAccstNow x s
  | .accmov n x => Sys2Proof.Machine.execAccmov n x s
  | .accver x => Sys2Proof.Machine.execAccver x s
  | .accverNow x => Sys2Proof.Machine.execAccverNow x s
  | .bedld x => Sys2Proof.Machine.execBedld x s
  | .bedldGrain x => Sys2Proof.Machine.execBedldGrain x s
  | .bedclr x => Sys2Proof.Machine.execBedclr x s
  | .qmul x => Sys2Proof.Machine.execQmul x s
  | .qconj x => Sys2Proof.Machine.execQconj x s
  | .qnorm x => Sys2Proof.Machine.execQnorm x s
  | .fwr x => Sys2Proof.Machine.execFwr x s
  | .step x => Sys2Proof.Machine.execStep x s
  | .stepR x => Sys2Proof.Machine.execStepR x s
  | .nq x => Sys2Proof.Machine.execNq x s
  | .settle x => Sys2Proof.Machine.execSettle x s
  | .resid x => Sys2Proof.Machine.execResid x s
  | .stest x => Sys2Proof.Machine.execStest x s
  | .bar x => Sys2Proof.Machine.execBar x s
  | .bararr x => Sys2Proof.Machine.execBararr x s
  | .barwt x => Sys2Proof.Machine.execBarwt x s
  | .meet x => Sys2Proof.Machine.execMeet x s
  | .peg x => Sys2Proof.Machine.execPeg x s
  | .pegDef x => Sys2Proof.Machine.execPegDef x s
  | .postCore x => Sys2Proof.Machine.execPostCore x s
  | .postNbr x => Sys2Proof.Machine.execPostNbr x s
  | .postBay x => Sys2Proof.Machine.execPostBay x s
  | .yield x => Sys2Proof.Machine.execYield x s
  | .bra x => Sys2Proof.Machine.execBra x s
  | .jmpi x => Sys2Proof.Machine.execJmpi x s
  | .call x => Sys2Proof.Machine.execCall x s
  | .calli x => Sys2Proof.Machine.execCalli x s
  | .ret x => Sys2Proof.Machine.execRet x s
  | .exit x => Sys2Proof.Machine.execExit x s
  | .trap x => Sys2Proof.Machine.execTrap x s
  | .tret x => Sys2Proof.Machine.execTret x s
  | .brk x => Sys2Proof.Machine.execBrk x s
  | .srd x => Sys2Proof.Machine.execSrd x s
  | .swr x => Sys2Proof.Machine.execSwr x s
  | .grow x => Sys2Proof.Machine.execGrow x s
  | .shrink x => Sys2Proof.Machine.execShrink x s
  | .evwait x => Sys2Proof.Machine.execEvwait x s
  | .ilinv x => Sys2Proof.Machine.execIlinv x s
  | .ilinvAll x => Sys2Proof.Machine.execIlinvAll x s
  | .sampleOn x => Sys2Proof.Machine.execSampleOn x s
  | .sampleOff x => Sys2Proof.Machine.execSampleOff x s
  | .lineFetchComplete core entry => Sys2Proof.Machine.execLineFetchComplete core entry s
  | .asyncTrapDelivery core tslot lane => Sys2Proof.Machine.execAsyncTrapDelivery core tslot lane s
  | .accessReply core req => Sys2Proof.Machine.execAccessReply core req s
  | .parkServiceComplete core park declined => Sys2Proof.Machine.execParkServiceComplete core park declined s
  | .firstTouchPlacement ctx obj ext core => Sys2Proof.Machine.execFirstTouchPlacement ctx obj ext core s
  | .unitAccessService unit declined => Sys2Proof.Machine.execUnitAccessService unit declined s
  | .wcAgeingExpiry core wc => Sys2Proof.Machine.execWcAgeingExpiry core wc s
  | .wcDrainPerformed core wc => Sys2Proof.Machine.execWcDrainPerformed core wc s
  | .remoteRequest req => Sys2Proof.Machine.execRemoteRequest req s
  | .copyAccept core => Sys2Proof.Machine.execCopyAccept core s
  | .copyRetire core slot => Sys2Proof.Machine.execCopyRetire core slot s
  | .copyqSlotWrite core job => Sys2Proof.Machine.execCopyqSlotWrite core job s
  | .queueTakeSlot queue => Sys2Proof.Machine.execQueueTakeSlot queue s
  | .packetRetire queue packet => Sys2Proof.Machine.execPacketRetire queue packet s
  | .gather queue packet => Sys2Proof.Machine.execGather queue packet s
  | .collective queue packet => Sys2Proof.Machine.execCollective queue packet s
  | .bedldComplete core job => Sys2Proof.Machine.execBedldComplete core job s
  | .mxLaunch core tslot lane => Sys2Proof.Machine.execMxLaunch core tslot lane s
  | .mxCommit core => Sys2Proof.Machine.execMxCommit core s
  | .pegEpisodeClose core block peg => Sys2Proof.Machine.execPegEpisodeClose core block peg s
  | .barrierOpen core block bar => Sys2Proof.Machine.execBarrierOpen core block bar s
  | .barrierReleaseWave core block bar => Sys2Proof.Machine.execBarrierReleaseWave core block bar s
  | .waitEnd core tslot lane => Sys2Proof.Machine.execWaitEnd core tslot lane s
  | .pendingPlace core => Sys2Proof.Machine.execPendingPlace core s
  | .entryEviction core => Sys2Proof.Machine.execEntryEviction core s
  | .sliceReturn core block group column => Sys2Proof.Machine.execSliceReturn core block group column s
  | .growGrant core => Sys2Proof.Machine.execGrowGrant core s
  | .growDeadlockRule core => Sys2Proof.Machine.execGrowDeadlockRule core s
  | .blockRetire core block => Sys2Proof.Machine.execBlockRetire core block s
  | .blockVacate core block => Sys2Proof.Machine.execBlockVacate core block s
  | .blockRedispatch vac core => Sys2Proof.Machine.execBlockRedispatch vac core s
  | .blockDispatch core => Sys2Proof.Machine.execBlockDispatch core s
  | .bayDispatchPull bay core => Sys2Proof.Machine.execBayDispatchPull bay core s
  | .admission graph node => Sys2Proof.Machine.execAdmission graph node s
  | .fieldPlacement launch => Sys2Proof.Machine.execFieldPlacement launch s
  | .trigger w => Sys2Proof.Machine.execTrigger w s
  | .run graph => Sys2Proof.Machine.execRun graph s
  | .nodeComplete launch => Sys2Proof.Machine.execNodeComplete launch s
  | .runEnd graph => Sys2Proof.Machine.execRunEnd graph s
  | .faceNotice core notice => Sys2Proof.Machine.execFaceNotice core notice s
  | .stepRPublicationReady core cell => Sys2Proof.Machine.execStepRPublicationReady core cell s
  | .trussStepComplete launch step => Sys2Proof.Machine.execTrussStepComplete launch step s
  | .samplerTick core => Sys2Proof.Machine.execSamplerTick core s
  | .bayControllerEvaluation bay => Sys2Proof.Machine.execBayControllerEvaluation bay s
  | .refill core => Sys2Proof.Machine.execRefill core s
  | .gatingSequence bay => Sys2Proof.Machine.execGatingSequence bay s
  | .bayWakeComplete bay => Sys2Proof.Machine.execBayWakeComplete bay s
  | .bankWakeComplete core => Sys2Proof.Machine.execBankWakeComplete core s
  | .wayGating core gate => Sys2Proof.Machine.execWayGating core gate s
  | .subscriptionFiring sub => Sys2Proof.Machine.execSubscriptionFiring sub s
  | .scrub line => Sys2Proof.Machine.execScrub line s
  | .marginSequence die => Sys2Proof.Machine.execMarginSequence die s
  | .retransmissionTimeout packet => Sys2Proof.Machine.execRetransmissionTimeout packet s
  | .packetArrival packet => Sys2Proof.Machine.execPacketArrival packet s
  | .planeFailover dst lane => Sys2Proof.Machine.execPlaneFailover dst lane s
  | .classPause port cls resume => Sys2Proof.Machine.execClassPause port cls resume s
  | .combiningWindowClose group => Sys2Proof.Machine.execCombiningWindowClose group s
  | .combinedReply group => Sys2Proof.Machine.execCombinedReply group s
  | .flitReceive port flit => Sys2Proof.Machine.execFlitReceive port flit s
  | .replayRequest port lseq => Sys2Proof.Machine.execReplayRequest port lseq s
  | .trainComplete port lanes => Sys2Proof.Machine.execTrainComplete port lanes s
  | .retrainTrigger port => Sys2Proof.Machine.execRetrainTrigger port s
  | .keyMarker port => Sys2Proof.Machine.execKeyMarker port s
  | .kwarn port => Sys2Proof.Machine.execKwarn port s
  | .invocationLimit port => Sys2Proof.Machine.execInvocationLimit port s
  | .ctxopen h ctx objt => Sys2Proof.Machine.execCtxopen h ctx objt s
  | .ctxclose h ctx => Sys2Proof.Machine.execCtxclose h ctx s
  | .ctxset h ctx field value => Sys2Proof.Machine.execCtxset h ctx field value s
  | .ctxbudget h ctx addend => Sys2Proof.Machine.execCtxbudget h ctx addend s
  | .stateread h ctx block dst => Sys2Proof.Machine.execStateread h ctx block dst s
  | .objset h ctx entry => Sys2Proof.Machine.execObjset h ctx entry s
  | .extset h obj ext desc => Sys2Proof.Machine.execExtset h obj ext desc s
  | .parkdone h ctx park declined => Sys2Proof.Machine.execParkdone h ctx park declined s
  | .frameclass h frame cls => Sys2Proof.Machine.execFrameclass h frame cls s
  | .frameretire h frame => Sys2Proof.Machine.execFrameretire h frame s
  | .graphload h graph ctx image => Sys2Proof.Machine.execGraphload h graph ctx image s
  | .graphfree h graph => Sys2Proof.Machine.execGraphfree h graph s
  | .pcap h watts => Sys2Proof.Machine.execPcap h watts s
  | .slope h bay groups => Sys2Proof.Machine.execSlope h bay groups s
  | .subscribe h ctx source bay thresh fall word => Sys2Proof.Machine.execSubscribe h ctx source bay thresh fall word s
  | .unsubscribe h sub => Sys2Proof.Machine.execUnsubscribe h sub s
  | .margin h die offset => Sys2Proof.Machine.execMargin h die offset s
  | .bayquiesce h bay => Sys2Proof.Machine.execBayquiesce h bay s
  | .bayrecal h bay => Sys2Proof.Machine.execBayrecal h bay s
  | .bayreturn h bay => Sys2Proof.Machine.execBayreturn h bay s
  | .porttrain h port => Sys2Proof.Machine.execPorttrain h port s
  | .portisolate h port => Sys2Proof.Machine.execPortisolate h port s
  | .portstatus h port => Sys2Proof.Machine.execPortstatus h port s
  | .keyload h port sending slot key salt => Sys2Proof.Machine.execKeyload h port sending slot key salt s
  | .peerset h dev entry => Sys2Proof.Machine.execPeerset h dev entry s
  | .exportObjs h ctx pairs => Sys2Proof.Machine.execExportObjs h ctx pairs s
  | .spare h dev => Sys2Proof.Machine.execSpare h dev s
  | .fwstage h image => Sys2Proof.Machine.execFwstage h image s
  | .fwactivate h => Sys2Proof.Machine.execFwactivate h s
  | .shoprestart h shop => Sys2Proof.Machine.execShoprestart h shop s
  | .attest h ctx nonce dst => Sys2Proof.Machine.execAttest h ctx nonce dst s
  | .fuseadvance h kind => Sys2Proof.Machine.execFuseadvance h kind s
  | .unknownCommand h opc => Sys2Proof.Machine.execUnknownCommand h opc s
  | .unassignedMajorOpcode w => Sys2Proof.Machine.execUnassignedMajorOpcode w s
  | .yieldCyclesEnd core entry => Sys2Proof.Machine.execYieldCyclesEnd core entry s
  | .resultArrival core tslot lane pend => Sys2Proof.Machine.execResultArrival core tslot lane pend s
  | .objectCacheMissFill core ctx obj => Sys2Proof.Machine.execObjectCacheMissFill core ctx obj s
  | .feedReadFault core => Sys2Proof.Machine.execFeedReadFault core s
  | .scratchpadBankGating core => Sys2Proof.Machine.execScratchpadBankGating core s
  | .preemptionSend => Sys2Proof.Machine.execPreemptionSend s
  | .arbitrate => Sys2Proof.Machine.execArbitrate s
  | .grantChangeComplete => Sys2Proof.Machine.execGrantChangeComplete s
  | .tcapChange => Sys2Proof.Machine.execTcapChange s
  | .boostTick => Sys2Proof.Machine.execBoostTick s
  | .holdOffExpiry => Sys2Proof.Machine.execHoldOffExpiry s
  | .unreachableTimeout => Sys2Proof.Machine.execUnreachableTimeout s
  | .deviceFaultNotify => Sys2Proof.Machine.execDeviceFaultNotify s
  | .boot => Sys2Proof.Machine.execBoot s
  | .zeroWord => Sys2Proof.Machine.execZeroWord s
  | .tempbandChange => Sys2Proof.Machine.execTempbandChange s

end Sys2Proof.Machine
end

