-- ==== Sys2Proof/Machine/Step.lean ====
section
/-! DEFINITION. One step of the machine, and a state in which the next step runs a given instruction word. -/

namespace Sys2Proof.Machine

/-- Execute a member of an issue. -/
def runMember (a : Member) (s : State) : Host.Outcome State Fault Refusal :=
  match a with
  | .instr i => exec i s
  | .bad => .next (issueIllegal s 0x01)

/-- Execute a couple: the second member after the first (R18). -/
def runCouple (a b : Member) (s : State) : Host.Outcome State Fault Refusal :=
  match runMember a s with
  | .next t => runMember b { t with cur := { t.cur with mode := .second } }
  | x => x

/-- One step. -/
def step (s : State) : Host.Outcome State Fault Refusal :=
  match planOf s with
  | .rest t => .next t
  | .one a t => runMember a t
  | .two a b t => runCouple a b t

/-! ## A word to run next (log entry 9) -/

/-- The launch record of a task kernel of one block of one group of width 8, with 248 registers and 1,536 bytes of
scratchpad, whose code is object 1 and whose handler is line 1. -/
def fetchRecord : List Byte :=
  bytesOfNat 4 0x4B4C4C52 ++ [1, 2, 0, 0] ++ bytesOfNat 8 (2 ^ 40 + 9 * 2 ^ 36) ++ bytesOfNat 8 0 ++
    bytesOfNat 8 64 ++ [248, 0, 1, 0] ++ bytesOfNat 4 1536 ++ [1, 1, 0, 0] ++ bytesOfNat 4 1 ++ bytesOfNat 4 4096 ++
    bytesOfNat 2 0x4411 ++ bytesOfNat 2 0 ++ bytesOfNat 2 1 ++ List.replicate 454 0

/-- The code line with one occupied slot. -/
def fetchLine (w : Nat) : BitVec 512 := BitVec.ofNat 512 (0xB8000000 + w % 2 ^ 96 * 2 ^ 32)

/-- The thread that runs the word. -/
def fetchThread : Thread :=
  { tslot := 0, lane := 0, block := 0, group := 0, glane := 0, regs := RegFile.start, tstate := false, pre := false, pc := 0,
    loc := .entry 0, wait := .none, held := [], seenRatios := 0, seenStep := 0, seenBand := 0, asyncBudget := false,
    asyncPreempt := false, latch := none, cell := none, settle := Settle.start, stage := List.replicate 16 0,
    marks := List.replicate 16 false, fence := 0 }

/-- The launch of that thread. -/
def fetchLaunch : Launch :=
  { ctx := 0, rec_ := fetchRecord, tables := [], graph := 0, node := 0, card := false, pinned := false, next := 1, retired := 0, total := 1,
    placed := true, bricks := [], others := [], done := false, counted := false, spent := false }

/-- The core that runs the word: one thread of one block at line 0, slot 0, with the line in its buffer. -/
def fetchCore (w : Nat) : Core :=
  { Core.reset with
    threads := [fetchThread],
    blocks := [(0, newBlock fetchLaunch 1 0 0 0 { slot := 0, seats := [{ tslot := 0, base := 0 }], row := 0, slices := 32 })],
    entries := [(0, { launch := 1, pc := 0, opened := true, age := 0, sleep := none, idleSince := 0, issued := 0, filled := [] })],
    lines := [{ ctx := 0, obj := 1, line := 0, bits := fetchLine w }],
    slices := 2016 }

/-- The code object. -/
def fetchObject : ObjEntry :=
  { rd := true, wr := false, at_ := false, ex := true, cls := .p, home := .hbm, hdev := 0, present := true, size := 65536, ext := 0 }

/-- A state whose next step runs the word of nbits bits: a context, its code object in frame 0 of HBM with the line that holds
the word, a launch, and a thread of core 0 that stands at the word. DESIGN CHOICE: log entry 9. -/
def State.withFetchWord (s : State) (nbits w : Nat) : State :=
  let line := fetchLine (w % 2 ^ nbits)
  { s with
    kern := { s.kern with
      cores := mset s.kern.cores 0 (fetchCore (w % 2 ^ nbits)),
      mem := writeMem s.kern.mem 0 (bytesOfNat 64 line.toNat),
      ctxs := mset s.kern.ctxs 0 { getCtx s.kern 0 with state := .running, objs := [(1, fetchObject)] },
      extents := mset s.kern.extents 0 (BitVec.ofNat 64 (2 ^ 62)),
      launches := mset s.kern.launches 1 fetchLaunch },
    pwr := { s.pwr with bays := mset s.pwr.bays 0 (Bay.reset true) },
    moves := [.issue 0] }

end Sys2Proof.Machine
end

