-- ==== Sys2Proof/Safety.lean ====
section
/-! DEFINITION. What counts as a safe state, and the words in which claims speak of the machine: when an instruction executes
in a thread, what a thread's registers read as, and what an instruction leaves unchanged. -/

namespace Sys2Proof.Safety

open Sys2Proof.Machine

/-- Memory keeps its canonical form. -/
def MemoryOk (s : State) : Prop := Memory.wf s.kern.mem = true

/-- The machine goes on: its next step answers a state. -/
def GoesOn (s : State) : Prop := ∃ t, step s = .next t

/-- A safe state. -/
def Safe (s : State) : Prop := MemoryOk s ∧ GoesOn s

/-! ## Reading a thread -/

/-- What a thread's register reads as: its own vector or trap register, or the scalar register of its group (R35). -/
def seeReg (k : Kern) (c : Nat) (t : Thread) : Reg → W32
  | .v i => ((getThread k c t.tslot t.lane).map fun u => u.regs.v.getD i 0).getD 0
  | .k i => ((getThread k c t.tslot t.lane).map fun u => u.regs.k.getD i 0).getD 0
  | .s i => ((groupOf k c t).map fun g => g.s.getD i 0).getD 0

/-- What a thread's predicate p0 to p6 reads as. -/
def seePred (k : Kern) (c : Nat) (t : Thread) (i : Nat) : Bool :=
  ((getThread k c t.tslot t.lane).map fun u => u.regs.p.getD i false).getD false

/-- What a thread's FFLAGS reads as. -/
def seeFlags (k : Kern) (c : Nat) (t : Thread) : BitVec 5 := ((getThread k c t.tslot t.lane).map (·.regs.fflags)).getD 0

/-- The byte at a physical address. -/
def seeByte (k : Kern) (a : Nat) : Byte := readCell k.mem a

/-! ## When an instruction executes in a thread -/

/-- The face words that the instruction reads in a thread hold no poison and meet no corrected error, so that nothing is charged
for them (R425). -/
def facesClean (s : State) (i : Instr) (t : Thread) : Bool :=
  poisonHits s.kern (faceRuns s.kern s.cur.core t i) == [] && softHits s.kern (faceRuns s.kern s.cur.core t i) == 0

/-- The issue in hand is a single one that can be made, the thread stands in its entry, passes the shared checks (R48) and has a
true guard, and no thread of the entry is trapped by the shared checks or meets an error in a face that it reads. -/
def Executes (s : State) (i : Instr) (t : Thread) : Bool :=
  s.cur.mode == .single && canIssue s i && (actors s).contains t && (verdictOf s i t).isNone &&
    (actors s).all fun u => (verdictOf s i u == none || verdictOf s i u == some .next) && facesClean s i u

/-- The same, where the thread is the only one in the entry. -/
def ExecutesAlone (s : State) (i : Instr) (t : Thread) : Bool := Executes s i t && actors s == [t]

/-- The registers that the instruction writes in a thread: those its D names, and none where D is a scalar register that a
lower lane of the group writes (R109). -/
def destination (s : State) (i : Instr) (t : Thread) : List Reg :=
  dstRegs s i ((actors s).filter fun u => (verdictOf s i u).isNone) t

/-- A thread of the entry in hand has this slot and lane. -/
def acting (s : State) (tslot lane : Nat) : Bool := (actors s).any fun u => u.tslot == tslot && u.lane == lane

/-! ## What an instruction leaves unchanged -/

/-- A block without the scalar registers of its groups, and without the note of those that are written early. -/
def bare (b : Block) : Block := { b with groups := b.groups.map fun g => { g with s := [], early := [] } }

/-- No result that has arrived is on its way to a scalar register of a group, unless the register has been written with it. -/
def ScalarQuiet (k : Kern) (c b g n : Nat) : Prop :=
  ∀ w ∈ groupThreads (coreOf k c) b g, ∀ h ∈ w.held, Reg.s n ∉ h.regs ∨ h.arrived = false ∨ comesEarly k c w n h.id = true

/-- A held result after one more instruction of its window has issued (R41): those with a number from upTo on are of that
instruction. -/
def countHeld (upTo : Nat) (h : Held) : Held := if h.id < upTo then { h with window := h.window - 1 } else h

/-- The held results that remain after an instruction has issued: those that have arrived and that no window holds back any more
have been written (R41). -/
def heldLeft (upTo : Nat) (hs : List Held) : List Held := (hs.map (countHeld upTo)).filter fun h => !h.due

/-- From k to k' nothing changed but, on core c, the threads that keys names, scalar registers, and the issue table with the units
that wait for a place in it, and the next fresh number. Memory, poison, contexts, objects, launches, fields and every other core are
as they were, and so is the rest of the core, its line cache and its object cache among it, and of its blocks. -/
structure Within (c : Nat) (keys : Nat → Nat → Bool) (k k' : Kern) : Prop where
  shared : k' = { k with cores := k'.cores, id := k'.id }
  cores : ∀ d, d ≠ c → coreOf k' d = coreOf k d
  core : coreOf k' c = { coreOf k c with
    threads := (coreOf k' c).threads, blocks := (coreOf k' c).blocks, entries := (coreOf k' c).entries,
    pendSince := (coreOf k' c).pendSince }
  blocks : ∀ b, (blockOf k' c b).map bare = (blockOf k c b).map bare
  threads : ∀ tslot lane, keys tslot lane = false → getThread k' c tslot lane = getThread k c tslot lane

/-- The thread stands at a program counter: in an entry, or pending for one. -/
def StandsAt (k : Kern) (c : Nat) (t : Thread) (pc : Nat) : Prop :=
  ∃ u, getThread k c t.tslot t.lane = some u ∧ u.pc = BitVec.ofNat 64 pc ∧ ((∃ e, u.loc = .entry e) ∨ ∃ n, u.loc = .pending n)

/-- The registers of a thread that an instruction did not write, and on which no result was on its way, are unchanged, and so
are the scalar registers that no thread of the entry writes and to which no result that has arrived is on its way. -/
structure KeepsRegs (s : State) (k' : Kern) (i : Instr) (t : Thread) : Prop where
  own : ∀ r, (∀ n, r ≠ .s n) → r ∉ destination s i t → (∀ h ∈ t.held, r ∉ h.regs) →
    seeReg k' s.cur.core t r = seeReg s.kern s.cur.core t r
  scal : ∀ (u : Thread) (n : Nat),
    (∀ w ∈ actors s, w.block = u.block → w.group = u.group → Reg.s n ∉ destination s i w) →
    ScalarQuiet s.kern s.cur.core u.block u.group n → seeReg k' s.cur.core u (.s n) = seeReg s.kern s.cur.core u (.s n)

/-- The kernel state in which the operands of an issue have been read: a face of a publication of STEP.R has emptied the line cache
(R333), and the objects that the executing threads use are the most recent of the object cache (R314). -/
def beforeBodies (s : State) (i : Instr) : Kern :=
  let ts := (actors s).filter fun u => (verdictOf s i u).isNone
  useObjs (acquireFaces s.kern s.cur.core i ts) s.cur.core i ts

/-- The thread stands as w says, but for its registers, its program counter, its place and the results on their way, which
other clauses describe; its latch is empty. -/
def StandsAs (k' : Kern) (c : Nat) (t w : Thread) : Prop :=
  ∃ u, getThread k' c t.tslot t.lane = some u ∧
    u = { w with regs := u.regs, pc := u.pc, loc := u.loc, held := u.held, latch := none }

/-- The effect of an instruction on a thread has happened, and nothing else: its destination holds the values, its predicates
and flags are written, what else the instruction writes of the thread is as w says, the thread stands at pc, the results on their
way are those before but for what one more instruction of their windows does, and the rest of the machine is as it was. -/
structure Completes (s s' : State) (i : Instr) (t : Thread) (e : Effect) (w : Thread) (pc : Nat) : Prop where
  values : ∀ p ∈ (destination s i t).zip e.vals, seeReg s'.kern s.cur.core t p.1 = p.2
  regs : KeepsRegs s s'.kern i t
  preds : ∀ p ∈ e.preds, seePred s'.kern s.cur.core t p.1 = p.2
  predsKept : ∀ j, (∀ p ∈ e.preds, p.1 ≠ j) → seePred s'.kern s.cur.core t j = seePred s.kern s.cur.core t j
  flagsJoin : seeFlags s'.kern s.cur.core t &&& (t.regs.fflags ||| e.flags) = t.regs.fflags ||| e.flags
  flagsOnly : t.held = [] → seeFlags s'.kern s.cur.core t = t.regs.fflags ||| e.flags
  stands : StandsAt s'.kern s.cur.core t pc
  kept : StandsAs s'.kern s.cur.core t w
  held : (∀ h ∈ t.held, h.id < s.kern.id) → ∃ u, getThread s'.kern s.cur.core t.tslot t.lane = some u ∧
    u.held = heldLeft s.kern.id t.held
  within : Within s.cur.core (acting s) (beforeBodies s i) s'.kern
  bytes : ∀ a, seeByte s'.kern a = seeByte s.kern a
  rest : s' = { s with kern := s'.kern }

/-- The instruction computes the effect in every thread in which it executes, and the thread goes on at the next slot. -/
def Computes (i : Instr) (f : State → Thread → Effect) : Prop :=
  ∀ s t, Executes s i t = true → ∃ s', exec i s = .next s' ∧ Completes s s' i t (f s t) t (curNext s)

/-- A long-latency instruction has issued: its result is on its way to its destination with a window of la instructions (R41), in
which the thread names its destination as what it held before (R42), and otherwise only the thread has gone on. -/
structure Holds (s s' : State) (i : Instr) (t : Thread) (e : Effect) (la : BitVec 4) : Prop where
  held : ∃ u h, getThread s'.kern s.cur.core t.tslot t.lane = some u ∧ h ∈ u.held ∧ s.kern.id ≤ h.id ∧
    ((∀ x ∈ t.held, x.id < s.kern.id) → u.held = heldLeft s.kern.id t.held ++ [h]) ∧ h.regs = destination s i t ∧
    h.named = usedRegs (threadUses s.kern s.cur.core t i).dst ∧ h.old = scalarsOf s.kern s.cur.core t h.named ∧
    h.vals = e.vals ∧ h.flags = e.flags ∧ h.window = la.toNat ∧ h.arrived = false
  own : ∀ r, (∀ n, r ≠ .s n) → (∀ h ∈ t.held, r ∉ h.regs) → seeReg s'.kern s.cur.core t r = seeReg s.kern s.cur.core t r
  scal : ∀ (u : Thread) (n : Nat), ScalarQuiet s.kern s.cur.core u.block u.group n →
    seeReg s'.kern s.cur.core u (.s n) = seeReg s.kern s.cur.core u (.s n)
  preds : ∀ j, seePred s'.kern s.cur.core t j = seePred s.kern s.cur.core t j
  flags : t.held = [] → seeFlags s'.kern s.cur.core t = t.regs.fflags
  stands : StandsAt s'.kern s.cur.core t (curNext s)
  kept : StandsAs s'.kern s.cur.core t t
  within : Within s.cur.core (acting s) (beforeBodies s i) s'.kern
  bytes : ∀ a, seeByte s'.kern a = seeByte s.kern a
  rest : s' = { s with kern := s'.kern }

/-! ## One thread alone in its entry -/

/-- The kernel state in which the instruction's operands have been read in the one thread of the entry (R314, R333). -/
def beforeBody (s : State) (i : Instr) (t : Thread) : Kern :=
  useObjs (acquireFaces s.kern s.cur.core i [t]) s.cur.core i [t]

/-- From the kernel state k, in which the instruction's own effect has happened, the thread has gone on at pc, and nothing else
has changed: registers on which no result was on its way are as in k, the results on their way are those of k but for what one more
instruction of their windows does, the rest of the thread is as in k, and so is all that is not the thread's, the line cache and
the object cache among it. -/
structure GoesOnFrom (s : State) (k : Kern) (t : Thread) (s' : State) (pc : Nat) : Prop where
  own : ∀ u, getThread k s.cur.core t.tslot t.lane = some u → ∀ r, (∀ n, r ≠ .s n) → (∀ h ∈ u.held, r ∉ h.regs) →
    seeReg s'.kern s.cur.core t r = seeReg k s.cur.core t r
  scal : ∀ (w : Thread) (n : Nat), ScalarQuiet k s.cur.core w.block w.group n →
    seeReg s'.kern s.cur.core w (.s n) = seeReg k s.cur.core w (.s n)
  preds : ∀ j, seePred s'.kern s.cur.core t j = seePred k s.cur.core t j
  flags : ∀ u, getThread k s.cur.core t.tslot t.lane = some u → u.held = [] →
    seeFlags s'.kern s.cur.core t = seeFlags k s.cur.core t
  stands : StandsAt s'.kern s.cur.core t pc
  kept : ∀ u, getThread k s.cur.core t.tslot t.lane = some u → StandsAs s'.kern s.cur.core t u
  held : ∀ u, getThread k s.cur.core t.tslot t.lane = some u → ∃ v, getThread s'.kern s.cur.core t.tslot t.lane = some v ∧
    v.held = heldLeft s.kern.id u.held
  within : Within s.cur.core (fun a b => a == t.tslot && b == t.lane) k s'.kern
  bytes : ∀ a, seeByte s'.kern a = seeByte k a
  rest : s' = { s with kern := s'.kern }

/-- The thread waits inside the instruction (R265): from the kernel state k it has not moved, and nothing else has changed. -/
structure WaitsIn (s : State) (k : Kern) (t : Thread) (s' : State) : Prop where
  stays : ∃ u v, getThread k s.cur.core t.tslot t.lane = some u ∧ getThread s'.kern s.cur.core t.tslot t.lane = some v ∧
    v = { u with regs := v.regs, held := v.held, latch := none }
  within : Within s.cur.core (fun a b => a == t.tslot && b == t.lane) k s'.kern
  bytes : ∀ a, seeByte s'.kern a = seeByte k a
  rest : s' = { s with kern := s'.kern }

/-! ## Accesses -/

/-- The access of an M-format instruction passes R151 in a thread, at p. -/
def Reaches (s : State) (t : Thread) (x : MForm) (useIdx : Bool) (size need : Nat) (blk : Block) (p : Spot) : Prop :=
  blockOf s.kern s.cur.core t.block = some blk ∧ spotOf s.kern s.cur.core t x useIdx size size need = .ok p

/-- The access lies in the scratchpad or the exchange region, at physical address a, where no error is met. -/
def InPad (s : State) (blk : Block) (p : Spot) (size a : Nat) : Prop :=
  p.space ≠ .ob ∧ physical s.kern s.cur.core blk p = .ok a ∧ poisonHits s.kern [(a, size)] = [] ∧ softHits s.kern [(a, size)] = 0

/-- The detectors of a scratchpad access find nothing: no word that it reads was never written, and no word was written by
another group in this generation, or the launch looks for neither (R304, R325). -/
def Unflagged (s : State) (t : Thread) (blk : Block) (p : Spot) (size : Nat) (reads atomic : Bool) : Prop :=
  p.space = .sp → ∀ l, threadLaunch s.kern s.cur.core t = some l → ∀ w ∈ wordsOf p.ea size,
    (reads = true → 2 ≤ recValid l ∨ w ∈ blk.valid) ∧
    (atomic = false → recRace l = 2 ∨ stampConflict blk t.group w = false)

/-! ## Traps and the end of a thread -/

/-- The trap record stands in k0 to k3 (R235, R236). -/
structure Recorded (k : Kern) (c : Nat) (t : Thread) (pairt cause sub : Nat) (async : Bool) (pcsave fault : Nat) : Prop where
  line : seeReg k c t (.k 0) = BitVec.ofNat 32 (pcsave / 2 ^ 6 % 2 ^ 32)
  code : seeReg k c t (.k 1) =
    BitVec.ofNat 32 (pairt * 2 ^ 20 + sub * 2 ^ 16 + cause * 2 ^ 8 + (if async then 2 ^ 7 else 0) + pcsave % 2 ^ 3)
  low : seeReg k c t (.k 2) = BitVec.ofNat 32 fault
  high : seeReg k c t (.k 3) = BitVec.ofNat 32 (fault / 2 ^ 32)

/-- The kernel state with the line cache and the object cache of a core as another has them. -/
def cachesOf (k : Kern) (c : Nat) (k' : Kern) : Kern :=
  modCore k c fun core => { core with lcache := (coreOf k' c).lcache, ocache := (coreOf k' c).ocache }

/-- The thread has taken a trap (R235): its record stands in k0 to k3, it is in trap state at its handler, its windows are closed
(R43), and nothing else has changed but the caches that its operands were read through. -/
structure TrapsTo (s s' : State) (t : Thread) (handler pairt cause sub pcsave fault : Nat) : Prop where
  record : Recorded s'.kern s.cur.core t pairt cause sub false pcsave fault
  own : ∀ r, (∀ n, r ≠ .s n) → r ≠ .k 0 → r ≠ .k 1 → r ≠ .k 2 → r ≠ .k 3 → (∀ h ∈ t.held, r ∉ h.regs) →
    seeReg s'.kern s.cur.core t r = seeReg s.kern s.cur.core t r
  scal : ∀ (w : Thread) (n : Nat), ScalarQuiet s.kern s.cur.core w.block w.group n →
    seeReg s'.kern s.cur.core w (.s n) = seeReg s.kern s.cur.core w (.s n)
  preds : ∀ j, seePred s'.kern s.cur.core t j = seePred s.kern s.cur.core t j
  flags : t.held = [] → seeFlags s'.kern s.cur.core t = t.regs.fflags
  stands : StandsAt s'.kern s.cur.core t handler
  kept : StandsAs s'.kern s.cur.core t { t with tstate := true, wait := .none }
  held : ∃ u, getThread s'.kern s.cur.core t.tslot t.lane = some u ∧ u.held = t.held.filter fun h => !decide (0 < h.window)
  within : Within s.cur.core (fun a b => a == t.tslot && b == t.lane) (cachesOf s.kern s.cur.core s'.kern) s'.kern
  bytes : ∀ a, seeByte s'.kern a = seeByte s.kern a
  rest : s' = { s with kern := s'.kern }

/-- The thread can take a trap: its launch has this handler entry, it is not in trap state, no result that it would wait for is
on its way, and it is not in a couple. -/
def TakesTraps (s : State) (t : Thread) (l : Launch) (handler : Nat) : Prop :=
  threadLaunch s.kern s.cur.core t = some l ∧ recHandler l = some handler ∧ t.tstate = false ∧ awaitsHeld s.kern s.cur.core t = false ∧
    t.latch = none

/-! ## Events -/

/-- Only the kernel state changed. -/
def OnlyKern (s s' : State) : Prop := s' = { s with kern := s'.kern }
/-- Only the power state changed. -/
def OnlyPower (s s' : State) : Prop := s' = { s with pwr := s'.pwr }
/-- Only the fabric changed. -/
def OnlyFabric (s s' : State) : Prop := s' = { s with fab := s'.fab }

/-- Of the kernel state, only a core changed, beside the next fresh number and the count of free values. -/
structure OnlyCore (k k' : Kern) (c : Nat) : Prop where
  shared : k' = { k with cores := k'.cores, id := k'.id, free := k'.free }
  others : ∀ d, d ≠ c → coreOf k' d = coreOf k d

/-- The waits of threads have ended (R265): each that shares its slot and lane with no other of them stands at the sequential
successor of its instruction and waits no more, and nothing else has changed. -/
structure Resumes (c : Nat) (k k' : Kern) (ts : List Thread) : Prop where
  each : ∀ t ∈ ts, (∀ u ∈ ts, u.tslot = t.tslot → u.lane = t.lane → u = t) → ∀ u, getThread k c t.tslot t.lane = some u →
    ∃ v, getThread k' c t.tslot t.lane = some v ∧ v = { u with wait := .none, pc := v.pc, loc := v.loc } ∧
      v.pc = BitVec.ofNat 64 (nextPc k c t) ∧ ((∃ e, v.loc = .entry e) ∨ ∃ n, v.loc = .pending n)
  within : Within c (fun a b => ts.any fun t => t.tslot == a && t.lane == b) k k'

/-- A thread that can take a trap now: it stands in its core, its launch has this handler entry, it is not in trap state, and no
result that it would wait for is on its way. -/
def Handles (k : Kern) (c : Nat) (t : Thread) (l : Launch) (handler : Nat) : Prop :=
  getThread k c t.tslot t.lane = some t ∧ threadLaunch k c t = some l ∧ recHandler l = some handler ∧ t.tstate = false ∧
    awaitsHeld k c t = false

/-- The thread has taken a trap outside an issue (R235): its record stands in k0 to k3, it is in trap state at its handler, its
wait is over, and nothing else has changed. -/
structure TrapsAt (k k' : Kern) (c : Nat) (t : Thread) (l : Launch) (handler cause sub : Nat) (async : Bool) (pcsave fault : Nat) :
    Prop where
  record : Recorded k' c t (pairtOf k c l pcsave) cause sub async pcsave fault
  stands : StandsAt k' c t handler
  state : ∃ u, getThread k' c t.tslot t.lane = some u ∧ u.tstate = true ∧ u.wait = .none
  within : Within c (fun a b => a == t.tslot && b == t.lane) k k'

/-- Words have arrived for a held result of a thread (R41, R57): inside its window they wait there, and after it they stand in its
registers, and the result is held no more. -/
def Arrives (k k' : Kern) (c tslot lane : Nat) (held : Option Nat) (vals : List W32) : Prop :=
  ∀ t h g, getThread k c tslot lane = some t → held = some h → g ∈ t.held → g.id = h → (∀ y ∈ t.held, y.id = h → y = g) →
    (0 < g.window → ∃ u y, getThread k' c tslot lane = some u ∧ y ∈ u.held ∧
      y = { g with vals := vals, flags := 0, arrived := true }) ∧
    (g.window = 0 → (∀ y ∈ t.held, y.id ≠ h → y.due = false) → g.regs.Nodup →
      (∀ r ∈ g.regs, ∀ n, r ≠ .s n) ∨ ((∃ ns : List Nat, g.regs = ns.map Reg.s) ∧ ∃ gr, groupOf k c t = some gr) →
      ∃ u, getThread k' c tslot lane = some u ∧ u.held = t.held.filter (fun y => y.id != h) ∧
        ∀ p ∈ g.regs.zip vals, seeReg k' c t p.1 = p.2)

/-- The error budget of a context bears a charge: nothing is charged, or it is not armed, or something of it is left (R426). -/
def Bears (k : Kern) (ctx units : Nat) : Prop := units = 0 ∨ (getCtx k ctx).armed = false ∨ units < (getCtx k ctx).ebudget

/-- A request may be performed, and its tokens have been taken or are taken now, before those of any other of its context (R371). -/
def PortLets (k : Kern) (c : Nat) (q : Req) : Prop :=
  mayPerform (coreOf k c) q = true ∧ (q.paid = true ∨ mget (coreOf k c).buckets q.ctx = none ∨
    ∃ b, mget (coreOf k c).buckets q.ctx = some b ∧ b.owed = 0 ∧ max 1 (ceilDiv q.size 64) ≤ b.tokens ∧
      ∀ y ∈ (coreOf k c).reqs, y.ctx = q.ctx → y.paid = true ∨ y = q)

/-! ## Spagan commands (R435, R436) -/

/-- The command has been answered: its response, with its TAG, STATUS and VALUE, is the last one. -/
def Answered (s s' : State) (h : CmdHdr) (status value : Nat) : Prop :=
  s'.fw.responses = s.fw.responses ++ [{ tag := h.tag, status := status, detail := 0, value := BitVec.ofNat 64 value }]

/-- A command is past what it meets before its own checks: no earlier command of its issuer waits, the issuer may give it, and the
device is in a state that takes it. -/
def Passes (s : State) (h : CmdHdr) (by_ : List Issuer) (inRescue : Bool) : Prop :=
  behindOthers s h = false ∧ gate s h by_ inRescue = none

/-- A command that cannot take effect yet waits before the later ones of its issuer; beside that only the kernel state may have
changed. -/
def Waits (s s' : State) (i : Instr) : Prop :=
  s' = { s with kern := s'.kern, fw := { s.fw with waiting := i :: s.fw.waiting } }

/-- Beside the responses only the kernel state changed. -/
def OnlyKernAndAnswer (s s' : State) : Prop :=
  s' = { s with kern := s'.kern, fw := { s.fw with responses := s'.fw.responses } }

/-- The header of a command of R436, its issuers, and whether RESCUE accepts it (R437). -/
def commandOf : Instr → Option (CmdHdr × List Issuer × Bool)
  | .ctxopen h _ _ | .ctxclose h _ | .ctxset h _ _ _ | .ctxbudget h _ _ | .stateread h _ _ _ => some (h, [.host, .firmware], false)
  | .objset h _ _ | .extset h _ _ _ | .frameclass h _ _ | .frameretire h _ => some (h, [.firmware], false)
  | .parkdone h _ _ _ | .graphload h _ _ _ | .graphfree h _ => some (h, [.host, .firmware], false)
  | .pcap h _ => some (h, [.host, .firmware, .management], false)
  | .slope h _ _ | .margin h _ _ | .peerset h _ _ => some (h, [.firmware], false)
  | .subscribe h _ _ _ _ _ _ | .unsubscribe h _ | .bayquiesce h _ | .bayrecal h _ | .bayreturn h _ | .porttrain h _
  | .portisolate h _ | .keyload h _ _ _ _ _ | .exportObjs h _ _ => some (h, [.host, .firmware], false)
  | .portstatus h _ | .fwstage h _ | .attest h _ _ _ => some (h, [.host, .firmware, .management], true)
  | .spare h _ => some (h, [.host], false)
  | .fwactivate h => some (h, [.host, .management], true)
  | .shoprestart h _ | .fuseadvance h _ => some (h, [.host, .management], false)
  | _ => none

/-! ## Invariants -/

/-- The ratios of a set are ones that R411 gives. -/
def RatiosOk (g : Ratios) : Prop :=
  1 ≤ g.matrix ∧ g.matrix ≤ 9 ∧ 1 ≤ g.vector ∧ g.vector ≤ 9 ∧ 4 ≤ g.network ∧ g.network ≤ 8 ∧ 4 ≤ g.memory ∧ g.memory ≤ 6

/-- The clocks and the limits of power are in their ranges (R411, R413, R419, R420): the ratios in force and those to come,
PCAP, TCAP and BOOST. -/
def PowerOk (s : State) : Prop :=
  RatiosOk s.pwr.grant ∧ (∀ g, s.pwr.target = some g → RatiosOk g) ∧ 1200 ≤ s.pwr.pcap ∧ s.pwr.pcap ≤ 3200 ∧
    (s.pwr.tcap = 2400 ∨ s.pwr.tcap = 2800 ∨ s.pwr.tcap = 3200) ∧ s.pwr.boost ≤ 20000

end Sys2Proof.Safety
end

