-- ==== Sys2Proof/Certificates/Slice0/Obligations.lean ====
section
/-! DEFINITION. What is claimed of the machine. Each statement says in its docstring which rules of the specification it
formalises. -/

open Sys2Proof Sys2Proof.Machine Sys2Proof.Safety

/-- R112, R58, R59: each integer arithmetic instruction computes its exact result on the signed or natural values of its sources
and delivers it by SAT, wrapped or clamped; it raises no flag and writes no predicate. Nothing but its destination and the
place of its thread changes. -/
def Claims.IntegerArithmetic : Prop :=
  (∀ x, Computes (.add x) fun s t => deliver x.ty x.sat (srcInt s t x.ty x.a + srcInt s t x.ty x.b)) ∧
  (∀ x, Computes (.sub x) fun s t => deliver x.ty x.sat (srcInt s t x.ty x.a - srcInt s t x.ty x.b)) ∧
  (∀ x, Computes (.mul x) fun s t => deliver x.ty x.sat (srcInt s t x.ty x.a * srcInt s t x.ty x.b)) ∧
  (∀ x, Computes (.mulhi x) fun s t =>
    deliver x.ty x.sat (srcInt s t x.ty x.a * srcInt s t x.ty x.b / (2 ^ tyBits x.ty : Nat))) ∧
  (∀ x, Computes (.mad x) fun s t =>
    deliver x.ty x.sat (srcInt s t x.ty x.a * srcInt s t x.ty x.b + srcInt s t x.ty x.c)) ∧
  (∀ x, Computes (.min x) fun s t => deliver x.ty x.sat (min (srcInt s t x.ty x.a) (srcInt s t x.ty x.b))) ∧
  (∀ x, Computes (.max x) fun s t => deliver x.ty x.sat (max (srcInt s t x.ty x.a) (srcInt s t x.ty x.b))) ∧
  (∀ x, Computes (.abs x) fun s t => deliver x.ty x.sat (srcInt s t x.ty x.a).natAbs) ∧
  (∀ x, Computes (.neg x) fun s t => deliver x.ty x.sat (-(srcInt s t x.ty x.a))) ∧
  (∀ x, Computes (.sad x) fun s t =>
    deliver x.ty x.sat ((srcInt s t x.ty x.a - srcInt s t x.ty x.b).natAbs + srcInt s t x.ty x.c))

/-- R58, R59: the delivery of an exact result. Without SAT it is the one number of the type's range that differs from the result by
a multiple of 2^w, with SAT the nearest number of the range; neither raises a flag, writes a predicate or traps. -/
def Claims.IntegerDelivery : Prop :=
  ∀ (ty : Ty) (x : Int), tyInt ty = true →
    let w := tyBits ty
    let lo : Int := if tySgn ty then -(2 ^ (w - 1) : Nat) else 0
    let hi : Int := if tySgn ty then (2 ^ (w - 1) : Nat) - 1 else (2 ^ w : Nat) - 1
    lo ≤ intOf ty (deliverI ty false x) ∧ intOf ty (deliverI ty false x) ≤ hi ∧
    (intOf ty (deliverI ty false x) - x) % (2 ^ w : Nat) = 0 ∧ intOf ty (deliverI ty true x) = max lo (min x hi) ∧
    ∀ sat, (deliver ty sat x).flags = 0 ∧ (deliver ty sat x).preds = [] ∧ (deliver ty sat x).trap = none

/-- R114: ADDC and SUBB compute a + b + carry and a - b - borrow on natural values, write the result modulo 2^w, and write to QP,
where QE names it, whether the result left the range. -/
def Claims.CarryArithmetic : Prop :=
  (∀ x q, x.qp = some q → (x.ty = .n32 ∨ x.ty = .n64) → Computes (.addc x) fun s t =>
    let r := srcRaw s t x.ty x.a + srcRaw s t x.ty x.b + (if readPredOpnd t x.c then 1 else 0)
    { Effect.values (place x.ty (r % 2 ^ tyBits x.ty)) with preds := [(q.val, decide (2 ^ tyBits x.ty ≤ r))] }) ∧
  (∀ x, x.qp = none → (x.ty = .n32 ∨ x.ty = .n64) → Computes (.addc x) fun s t =>
    .values (place x.ty ((srcRaw s t x.ty x.a + srcRaw s t x.ty x.b + (if readPredOpnd t x.c then 1 else 0)) %
      2 ^ tyBits x.ty))) ∧
  (∀ x q, x.qp = some q → (x.ty = .n32 ∨ x.ty = .n64) → Computes (.subb x) fun s t =>
    let r : Int := srcRaw s t x.ty x.a - srcRaw s t x.ty x.b - (if readPredOpnd t x.c then 1 else 0)
    { Effect.values (place x.ty (r % (2 ^ tyBits x.ty : Nat)).toNat) with preds := [(q.val, decide (r < 0))] }) ∧
  (∀ x, x.qp = none → (x.ty = .n32 ∨ x.ty = .n64) → Computes (.subb x) fun s t =>
    .values (place x.ty (((srcRaw s t x.ty x.a : Int) - srcRaw s t x.ty x.b - (if readPredOpnd t x.c then 1 else 0)) %
      (2 ^ tyBits x.ty : Nat)).toNat))

/-- R115: each immediate form has the effect of its register form with IMM, read by type, as its second source. -/
def Claims.ImmediateForms : Prop :=
  (∀ x, Computes (.addi x) fun s t => deliver x.ty x.sat (srcInt s t x.ty x.a + intOf x.ty (immIRaw x.ty x.imm))) ∧
  (∀ x, Computes (.muli x) fun s t => deliver x.ty x.sat (srcInt s t x.ty x.a * intOf x.ty (immIRaw x.ty x.imm))) ∧
  (∀ x, Computes (.andi x) fun s t => .values (place x.ty (Nat.land (srcRaw s t x.ty x.a) (immIRaw x.ty x.imm)))) ∧
  (∀ x, Computes (.ori x) fun s t => .values (place x.ty (Nat.lor (srcRaw s t x.ty x.a) (immIRaw x.ty x.imm)))) ∧
  (∀ x, Computes (.xori x) fun s t => .values (place x.ty (Nat.xor (srcRaw s t x.ty x.a) (immIRaw x.ty x.imm)))) ∧
  (∀ x, x.imm.toNat < tyBits x.ty → Computes (.shli x) fun s t =>
    .values (place x.ty (deliverI x.ty x.sat (intOf x.ty (srcRaw s t x.ty x.a) * (2 ^ x.imm.toNat : Nat))))) ∧
  (∀ x, x.imm.toNat < tyBits x.ty → Computes (.shri x) fun s t =>
    .values (place x.ty (srcRaw s t x.ty x.a / 2 ^ x.imm.toNat))) ∧
  (∀ x, x.imm.toNat < tyBits x.ty → Computes (.sari x) fun s t =>
    .values (place x.ty (wrapI x.ty (signedOf x.ty (srcRaw s t x.ty x.a) / (2 ^ x.imm.toNat : Nat))))) ∧
  (∀ x, Computes (.movi x) fun _ _ => .values (place x.ty (immIRaw x.ty x.imm))) ∧
  (∀ x q, x.qp = some q → Computes (.cmpi x) fun s t =>
    { Effect.values [] with preds := [(q.val, cmpInt x.om (srcInt s t x.ty x.a) (intOf x.ty (immIRaw x.ty x.imm)))] })

/-- What IntegerArithmetic, IntegerDelivery, CarryArithmetic and ImmediateForms say. -/
def Obligations.IntegerInstructions : Prop := Claims.IntegerArithmetic ∧ Claims.IntegerDelivery ∧ Claims.CarryArithmetic ∧ Claims.ImmediateForms

/-- R116, R117: the logical instructions act on the w bits of their type, and the shifts and the rotate take a count read as
.n32. A left shift is exact before delivery by SAT; a right shift by w or more leaves 0, or all sign bits. -/
def Claims.LogicAndShifts : Prop :=
  (∀ x, Computes (.and x) fun s t => .values (place x.ty (Nat.land (srcRaw s t x.ty x.a) (srcRaw s t x.ty x.b)))) ∧
  (∀ x, Computes (.or x) fun s t => .values (place x.ty (Nat.lor (srcRaw s t x.ty x.a) (srcRaw s t x.ty x.b)))) ∧
  (∀ x, Computes (.xor x) fun s t => .values (place x.ty (Nat.xor (srcRaw s t x.ty x.a) (srcRaw s t x.ty x.b)))) ∧
  (∀ x, Computes (.not x) fun s t => .values (place x.ty (2 ^ tyBits x.ty - 1 - srcRaw s t x.ty x.a))) ∧
  (∀ x, Computes (.shl x) fun s t =>
    .values (place x.ty (deliverI x.ty x.sat (intOf x.ty (srcRaw s t x.ty x.a) * (2 ^ srcCount s t x.b : Nat))))) ∧
  (∀ x, Computes (.shr x) fun s t => .values (place x.ty (srcRaw s t x.ty x.a / 2 ^ srcCount s t x.b))) ∧
  (∀ x, Computes (.sar x) fun s t =>
    .values (place x.ty (wrapI x.ty (signedOf x.ty (srcRaw s t x.ty x.a) / (2 ^ srcCount s t x.b : Nat))))) ∧
  (∀ x, Computes (.rot x) fun s t =>
    let w := tyBits x.ty
    let r := srcCount s t x.b % w
    .values (place x.ty ((srcRaw s t x.ty x.a * 2 ^ r + srcRaw s t x.ty x.a / 2 ^ (w - r)) % 2 ^ w)))

/-- R118: the population count, the leading zeros, and the extraction and insertion of a bit field whose position and length are
limited to the width of the type. That BFI of an 8-bit or 16-bit type with len 0 writes the low bits of its own register, extended,
is the model's choice between R118 and R57 (log entry 100). -/
def Claims.BitFields : Prop :=
  (∀ x, Computes (.popc x) fun s t => .values (place .n32 (popCount (tyBits x.ty) (srcRaw s t x.ty x.a)))) ∧
  (∀ x, Computes (.clz x) fun s t =>
    let a := srcRaw s t x.ty x.a
    .values (place .n32 (if a = 0 then tyBits x.ty else tyBits x.ty - 1 - Nat.log2 a))) ∧
  (∀ x, Computes (.bfx x) fun s t =>
    let pos := min (srcCount s t x.b) (tyBits x.ty)
    let len := min (srcCount s t x.c) (tyBits x.ty - pos)
    let f := srcRaw s t x.ty x.a / 2 ^ pos % 2 ^ len
    .values (place x.ty (if tySgn x.ty && 0 < len && f.testBit (len - 1) then wrapI x.ty ((f : Int) - (2 ^ len : Nat)) else f))) ∧
  (∀ x, Computes (.bfi x) fun s t =>
    let pos := min (srcCount s t x.b) (tyBits x.ty)
    let len := min (srcCount s t x.c) (tyBits x.ty - pos)
    let d := srcRaw s t x.ty x.d
    .values (place x.ty (d % 2 ^ pos + srcRaw s t x.ty x.a % 2 ^ len * 2 ^ pos + d / 2 ^ (pos + len) * 2 ^ (pos + len))))

/-- What LogicAndShifts and BitFields say. The clauses that they name as the model's choices rest on log entry 100. -/
def Obligations.LogicAndBitFields : Prop := Claims.LogicAndShifts ∧ Claims.BitFields

/-- R119, R120: SEL and MOV copy bit patterns, LEA forms an address within its 36 bits of offset or its 32 bits, and CMP writes
only its predicate, by the condition of OM. -/
def Obligations.SelectionAndComparison : Prop :=
  (∀ x, Computes (.sel x) fun s t => .values (place x.ty (srcRaw s t x.ty (if readPredOpnd t x.c then x.a else x.b)))) ∧
  (∀ x, Computes (.mov x) fun s t => .values (place x.ty (srcRaw s t x.ty x.a))) ∧
  (∀ x, x.ty = .b32 → Computes (.lea x) fun s t =>
    .values (place .b32 ((srcRaw s t .b32 x.a + srcRaw s t .b32 x.b * 2 ^ x.om.toNat) % 2 ^ 32))) ∧
  (∀ x, x.ty = .b64 → Computes (.lea x) fun s t =>
    let a := srcRaw s t .b64 x.a
    .values (place .b64 (a / 2 ^ 36 * 2 ^ 36 + (a % 2 ^ 36 + srcRaw s t .b64 x.b * 2 ^ x.om.toNat) % 2 ^ 36))) ∧
  (∀ x q, x.qp = some q → Computes (.cmp x) fun s t =>
    let a := srcInt s t x.ty x.a
    let b := srcInt s t x.ty x.b
    { Effect.values [] with preds := [(q.val,
      if x.om = 0 then decide (a = b) else if x.om = 1 then decide (a ≠ b) else if x.om = 2 then decide (a < b)
      else if x.om = 3 then decide (a ≤ b) else if x.om = 4 then decide (b < a) else decide (b ≤ a))] })

/-- R122, R64, R65: the rounded floating-point arithmetic instructions deliver the exact result of their sources rounded once, with
its flags joined into FFLAGS. The numbers are those of the raw patterns of the sources. -/
def Claims.FloatArithmetic : Prop :=
  (∀ x, x.om ≠ 1 → Computes (.fadd x) fun s t =>
    .float x.ty (addF x.ty x.rm (decodeF x.ty (srcRaw s t x.ty x.a)) (decodeF x.ty (srcRaw s t x.ty x.b)))) ∧
  (∀ x, x.om ≠ 1 → Computes (.fsub x) fun s t =>
    .float x.ty (addF x.ty x.rm (decodeF x.ty (srcRaw s t x.ty x.a)) (negNum (decodeF x.ty (srcRaw s t x.ty x.b))))) ∧
  (∀ x, x.om ≠ 1 → Computes (.fmul x) fun s t =>
    .float x.ty (mulF x.ty x.rm (decodeF x.ty (srcRaw s t x.ty x.a)) (decodeF x.ty (srcRaw s t x.ty x.b)))) ∧
  (∀ x, x.om ≠ 1 → Computes (.fma x) fun s t =>
    .float x.ty (fmaF x.ty x.rm (decodeF x.ty (srcRaw s t x.ty x.a)) (decodeF x.ty (srcRaw s t x.ty x.b))
      (decodeF x.ty (srcRaw s t x.ty x.c)))) ∧
  (∀ x, Computes (.frcp x) fun s t =>
    .float x.ty (divF x.ty x.rm (.fin false 1 0) (decodeF x.ty (srcRaw s t x.ty x.a)))) ∧
  (∀ x, Computes (.frsq x) fun s t => .float x.ty (rsqF x.ty x.rm (decodeF x.ty (srcRaw s t x.ty x.a))))

/-- R121: a packed instruction computes the low and the high half of its registers as two independent operations of its type, writes
both results into one register, and joins the flags of both; a short immediate is the value of both halves. FDIV and FSQRT have no
packed form. -/
def Claims.PackedPairs : Prop :=
  let halves := fun (x : RForm) (s : State) (t : Thread) (f : (Nat × Nat → Nat) → Nat × BitVec 5) =>
    ({ vals := [BitVec.ofNat 32 ((f Prod.fst).1 % 2 ^ 16 + (f Prod.snd).1 * 2 ^ 16)], preds := [],
       flags := (f Prod.fst).2 ||| (f Prod.snd).2, trap := none } : Effect)
  let num := fun (x : RForm) (s : State) (t : Thread) (o : Opnd) (side : Nat × Nat → Nat) =>
    decodeF x.ty (side (pairSrc s t x.ty o))
  (∀ x, x.om = 1 → Computes (.fadd x) fun s t => halves x s t fun side =>
    addF x.ty x.rm (num x s t x.a side) (num x s t x.b side)) ∧
  (∀ x, x.om = 1 → Computes (.fsub x) fun s t => halves x s t fun side =>
    addF x.ty x.rm (num x s t x.a side) (negNum (num x s t x.b side))) ∧
  (∀ x, x.om = 1 → Computes (.fmul x) fun s t => halves x s t fun side =>
    mulF x.ty x.rm (num x s t x.a side) (num x s t x.b side)) ∧
  (∀ x, x.om = 1 → Computes (.fma x) fun s t => halves x s t fun side =>
    fmaF x.ty x.rm (num x s t x.a side) (num x s t x.b side) (num x s t x.c side)) ∧
  (∀ x, x.om = 1 → Computes (.fmin x) fun s t => halves x s t fun side =>
    extremeF x.ty true [side (pairSrc s t x.ty x.a), side (pairSrc s t x.ty x.b)]) ∧
  (∀ x, x.om = 1 → Computes (.fmax x) fun s t => halves x s t fun side =>
    extremeF x.ty false [side (pairSrc s t x.ty x.a), side (pairSrc s t x.ty x.b)]) ∧
  ∀ x, WellFormed (.fdiv x) ∨ WellFormed (.fsqrt x) → x.om = 0

/-- R123 to R127: FMIN and FMAX deliver one of their sources, FCMP writes its predicate and its flags, FCLASS one class bit, FRND an
integral value, and FSGN changes the sign bit alone. -/
def Claims.FloatSelection : Prop :=
  (∀ x, x.om ≠ 1 → Computes (.fmin x) fun s t =>
    .float x.ty (extremeF x.ty true [srcRaw s t x.ty x.a, srcRaw s t x.ty x.b])) ∧
  (∀ x, x.om ≠ 1 → Computes (.fmax x) fun s t =>
    .float x.ty (extremeF x.ty false [srcRaw s t x.ty x.a, srcRaw s t x.ty x.b])) ∧
  (∀ x q, x.qp = some q → Computes (.fcmp x) fun s t =>
    let r := cmpFloat x.om (decodeF x.ty (srcRaw s t x.ty x.a)) (decodeF x.ty (srcRaw s t x.ty x.b))
    { Effect.values [] with preds := [(q.val, r.1)], flags := r.2 }) ∧
  (∀ x, Computes (.fclass x) fun s t => .values (place .n32 (classBits x.ty (srcRaw s t x.ty x.a)))) ∧
  (∀ x, Computes (.frnd x) fun s t => .float x.ty (rndF x.ty x.rm (x.om == 1) (srcRaw s t x.ty x.a))) ∧
  (∀ x, Computes (.fsgn x) fun s t =>
    let top := 2 ^ (tyBits x.ty - 1)
    let a := srcRaw s t x.ty x.a
    let sa := a / top % 2
    let sb := srcRaw s t x.ty x.b / top % 2
    .values (place x.ty (a % top + (if x.om = 0 then sb else if x.om = 1 then 1 - sb else if x.om = 2 then (sa + sb) % 2
      else if x.om = 3 then 0 else 1 - sa) * top)))

/-- What FloatArithmetic, PackedPairs and FloatSelection say. -/
def Obligations.FloatInstructions : Prop := Claims.FloatArithmetic ∧ Claims.PackedPairs ∧ Claims.FloatSelection

/-- R76, R77: CVT converts its source from its source type to its destination type under the format slot that OM names, integer to
integer by SAT, to an integer by rounding and clamping, to a tapered type by encoding, and to an IEEE type by rounding. -/
def Obligations.Conversions : Prop :=
  (∀ src x, tyInt src = true → tyInt x.ty = true → Computes (.cvt src x) fun s t =>
    .values (place x.ty (deliverI x.ty x.sat (intOf src (srcRaw s t src x.a))))) ∧
  (∀ src x, tyFl src = true → tyInt x.ty = true → Computes (.cvt src x) fun s t =>
    .float x.ty (toIntTy x.ty x.rm (decodeF src (srcRaw s t src x.a)))) ∧
  (∀ src x, tyTapered src = true → tyInt x.ty = true → Computes (.cvt src x) fun s t =>
    let slot := cvtSlot s.kern s.cur.core t x
    .float x.ty (toIntTy x.ty x.rm (scaleNum (fsScale slot) (decodeTa src (fsEs slot) (srcRaw s t src x.a))))) ∧
  (∀ src x, tyInt src = true → tyFl x.ty = true → Computes (.cvt src x) fun s t =>
    .float x.ty (roundF x.ty x.rm (numOfInt (intOf src (srcRaw s t src x.a))))) ∧
  (∀ src x, tyFl src = true → tyFl x.ty = true → src ≠ x.ty → Computes (.cvt src x) fun s t =>
    .float x.ty (roundF x.ty x.rm (decodeF src (srcRaw s t src x.a)))) ∧
  (∀ x, tyFl x.ty = true → Computes (.cvt x.ty x) fun s t =>
    let raw := srcRaw s t x.ty x.a
    match decodeF x.ty raw with
    | .nan sig => .float x.ty (canonNaN x.ty, if sig then fNV else 0)
    | _ => .values (place x.ty (raw % 2 ^ tyBits x.ty))) ∧
  (∀ src x, tyTapered src = true → tyFl x.ty = true → Computes (.cvt src x) fun s t =>
    let slot := cvtSlot s.kern s.cur.core t x
    .float x.ty (roundF x.ty x.rm (scaleNum (fsScale slot) (decodeTa src (fsEs slot) (srcRaw s t src x.a))))) ∧
  (∀ src x, tyInt src = true → tyTapered x.ty = true → Computes (.cvt src x) fun s t =>
    let slot := cvtSlot s.kern s.cur.core t x
    .float x.ty (encodeTa x.ty (fsEs slot) (fsScale slot) (numOfInt (intOf src (srcRaw s t src x.a))))) ∧
  (∀ src x, tyFl src = true → tyTapered x.ty = true → Computes (.cvt src x) fun s t =>
    let slot := cvtSlot s.kern s.cur.core t x
    .float x.ty (encodeTa x.ty (fsEs slot) (fsScale slot) (decodeF src (srcRaw s t src x.a))))

/-- R129, R130: PLOG combines two predicates, and PSET sets a predicate from a register, all predicates from its low bits, or a
register from the predicates. -/
def Claims.PredicateInstructions : Prop :=
  (∀ x q, x.qp = some q → Computes (.plog x) fun _ t =>
    let a := readPredOpnd t x.a
    let b := readPredOpnd t x.b
    { Effect.values [] with preds := [(q.val, if x.om = 0 then a && b else if x.om = 1 then a || b else a != b)] }) ∧
  (∀ x q, x.om = 0 → x.qp = some q → Computes (.pset x) fun s t =>
    { Effect.values [] with preds := [(q.val, decide (srcRaw s t x.ty x.a ≠ 0))] }) ∧
  (∀ x, x.om = 1 → Computes (.pset x) fun s t =>
    let a := srcRaw s t .b32 x.a
    { Effect.values [] with preds := [(0, a.testBit 0), (1, a.testBit 1), (2, a.testBit 2), (3, a.testBit 3),
                                      (4, a.testBit 4), (5, a.testBit 5), (6, a.testBit 6)] }) ∧
  (∀ x, x.om = 2 → Computes (.pset x) fun _ t =>
    .values (place .b32 (128 + (if readPred t false 0 then 1 else 0) + (if readPred t false 1 then 2 else 0) +
      (if readPred t false 2 then 4 else 0) + (if readPred t false 3 then 8 else 0) + (if readPred t false 4 then 16 else 0) +
      (if readPred t false 5 then 32 else 0) + (if readPred t false 6 then 64 else 0))))

/-- R131, R133 to R135, R138: the lane instructions see only the threads of their own group that stand in the entry with a true
guard. SHFL takes the value of another lane, BCAST that of the first lane with a true condition, VOTE one answer for the
group, and LMASK writes a mask of lanes. -/
def Claims.LaneInstructions : Prop :=
  (∀ s g t u, u ∈ participants s g t ↔ u ∈ actors s ∧ u.block = t.block ∧ u.group = t.group ∧ guardTrue u g = true) ∧
  (∀ x, x.qp = none → Computes (.shfl x) fun s t =>
    let n := srcCount s t x.b
    let j : Int := if x.om = 0 then n else if x.om = 1 then t.glane - n else if x.om = 2 then t.glane + n
      else Nat.xor t.glane n
    .values (place x.ty (srcRaw s (((participants s x.g t).find? fun u => (u.glane : Int) == j).getD t) x.ty x.a))) ∧
  (∀ x q, x.qp = some q → Computes (.shfl x) fun s t =>
    let n := srcCount s t x.b
    let j : Int := if x.om = 0 then n else if x.om = 1 then t.glane - n else if x.om = 2 then t.glane + n
      else Nat.xor t.glane n
    let u := (participants s x.g t).find? fun u => (u.glane : Int) == j
    { Effect.values (place x.ty (srcRaw s (u.getD t) x.ty x.a)) with preds := [(q.val, u.isSome)] }) ∧
  (∀ x q, x.qp = some q → Computes (.bcast x) fun s t =>
    match (participants s x.g t).find? fun u => readPredOpnd u x.c with
    | some u => { Effect.values (place x.ty (srcRaw s u x.ty x.a)) with preds := [(q.val, true)] }
    | none => { Effect.values [] with preds := [(q.val, false)] }) ∧
  (∀ x, x.qp = none → Computes (.bcast x) fun s t =>
    match (participants s x.g t).find? fun u => readPredOpnd u x.c with
    | some u => .values (place x.ty (srcRaw s u x.ty x.a))
    | none => .values []) ∧
  (∀ x q, x.om = 0 → x.qp = some q → Computes (.vote x) fun s t =>
    { Effect.values [] with preds := [(q.val, decide (∀ u ∈ participants s x.g t, readPredOpnd u x.a = true))] }) ∧
  (∀ x q, x.om = 1 → x.qp = some q → Computes (.vote x) fun s t =>
    { Effect.values [] with preds := [(q.val, decide (∃ u ∈ participants s x.g t, readPredOpnd u x.a = true))] }) ∧
  (∀ x q, x.om = 2 → x.qp = some q → Computes (.vote x) fun s t =>
    { Effect.values [] with preds := [(q.val, decide (∀ u ∈ participants s x.g t,
      srcRaw s u x.ty x.a = srcRaw s t x.ty x.a))] }) ∧
  (∀ x, x.om = 3 → Computes (.vote x) fun s t =>
    .values (place .b64 (bitsOf (((participants s x.g t).filter fun u => readPredOpnd u x.a).map (·.glane))))) ∧
  (∀ x, Computes (.lmask x) fun s t =>
    let ts := groupThreads (coreOf s.kern s.cur.core) t.block t.group
    .values (place .b64 (bitsOf (if x.om = 0 then (ts.filter fun u => u.loc == .entry s.cur.entry).map (·.glane)
      else if x.om = 1 then (ts.filter live).map (·.glane)
      else if x.om = 2 then (ts.filter fun u => u.loc == .parked).map (·.glane) else List.range t.glane))))

/-- What PredicateInstructions and LaneInstructions say. -/
def Obligations.PredicatesAndLanes : Prop := Claims.PredicateInstructions ∧ Claims.LaneInstructions

/-- R113, R122, R136, R137, R41: the long-latency instructions put their result on its way to their destination, with a lookahead
window of LA instructions; the thread goes on without it. DIV and REM do so where no thread has the divisor 0. -/
def Obligations.HeldResults : Prop :=
  (∀ x s t, Executes s (.div x) t = true → (∀ u ∈ actors s, srcInt s u x.ty x.b ≠ 0) → ∃ s', exec (.div x) s = .next s' ∧
    Holds s s' (.div x) t (deliver x.ty x.sat (Int.tdiv (srcInt s t x.ty x.a) (srcInt s t x.ty x.b))) x.la) ∧
  (∀ x s t, Executes s (.rem x) t = true → (∀ u ∈ actors s, srcInt s u x.ty x.b ≠ 0) → ∃ s', exec (.rem x) s = .next s' ∧
    Holds s s' (.rem x) t (deliver x.ty x.sat (Int.tmod (srcInt s t x.ty x.a) (srcInt s t x.ty x.b))) x.la) ∧
  (∀ x s t, x.om ≠ 1 → Executes s (.fdiv x) t = true → ∃ s', exec (.fdiv x) s = .next s' ∧
    Holds s s' (.fdiv x) t (.float x.ty (divF x.ty x.rm (decodeF x.ty (srcRaw s t x.ty x.a))
      (decodeF x.ty (srcRaw s t x.ty x.b)))) x.la) ∧
  (∀ x s t, x.om ≠ 1 → Executes s (.fsqrt x) t = true → ∃ s', exec (.fsqrt x) s = .next s' ∧
    Holds s s' (.fsqrt x) t (.float x.ty (sqrtF x.ty x.rm (decodeF x.ty (srcRaw s t x.ty x.a)))) x.la) ∧
  (∀ x s t, Executes s (.gred x) t = true → ∃ s', exec (.gred x) s = .next s' ∧
    Holds s s' (.gred x) t (.float x.ty (reduce x.om.toNat x.ty x.rm x.sat
      ((participants s x.g t).map fun u => srcRaw s u x.ty x.a))) x.la) ∧
  (∀ x s t, Executes s (.gscan x) t = true → ∃ s', exec (.gscan x) s = .next s' ∧
    let before := fun (u : Thread) => if x.om.toNat < 4 then decide (u.glane ≤ t.glane) else decide (u.glane < t.glane)
    let ps := (participants s x.g t).filter before
    Holds s s' (.gscan x) t
      (if ps = [] then .values (place x.ty (identity (x.om.toNat % 4) x.ty))
       else .float x.ty (reduce (x.om.toNat % 4) x.ty x.rm x.sat (ps.map fun u => srcRaw s u x.ty x.a))) x.la)

/-- R30, R140, R142: BRA and CALL go to the line that lies LDISP lines on from their own, at slot TS, in every thread in which
they execute; CALL writes the sequential successor to its link. A target below zero raises bounds at the branch itself, and
the link stays unwritten (R9, R142). -/
def Obligations.DirectBranches : Prop :=
  (∀ (x : BForm) s t, Executes s (.bra x) t = true →
    let line : Int := (curPc s / 64 * 64 : Nat) + x.ldisp.toInt * 64
    0 ≤ line → ∃ s', exec (.bra x) s = .next s' ∧ Completes s s' (.bra x) t (.values []) t (line.toNat + x.ts.val)) ∧
  (∀ (x : BForm) s t, Executes s (.call x) t = true →
    let line : Int := (curPc s / 64 * 64 : Nat) + x.ldisp.toInt * 64
    0 ≤ line → ∃ s', exec (.call x) s = .next s' ∧
      Completes s s' (.call x) t (.values (place .n64 (curNext s))) t (line.toNat + x.ts.val)) ∧
  (∀ (x : BForm) s t l h, ExecutesAlone s (.bra x) t = true → TakesTraps s t l h →
    let line : Int := (curPc s / 64 * 64 : Nat) + x.ldisp.toInt * 64
    line < 0 → ∃ s', exec (.bra x) s = .next s' ∧
      TrapsTo s s' t h (pairtOf s.kern s.cur.core l (curPc s)) 0x04 0 (curPc s) ((line + x.ts.val) % (2 ^ 64 : Nat)).toNat) ∧
  (∀ (x : BForm) s t l h, ExecutesAlone s (.call x) t = true → TakesTraps s t l h →
    let line : Int := (curPc s / 64 * 64 : Nat) + x.ldisp.toInt * 64
    line < 0 → ∃ s', exec (.call x) s = .next s' ∧
      TrapsTo s s' t h (pairtOf s.kern s.cur.core l (curPc s)) 0x04 0 (curPc s) ((line + x.ts.val) % (2 ^ 64 : Nat)).toNat)

/-- R140 to R142: JMPI, RET and CALLI take each thread to the program counter in its own pair, where every target passes the
checks of R141; CALLI writes the sequential successor to its link. A thread whose target fails them traps with the target as
its saved program counter, and the link stays unwritten. -/
def Claims.IndirectBranches : Prop :=
  let good := fun (s : State) (i : Instr) (l : Launch) (a : Opnd) =>
    ∀ u ∈ actors s, verdictOf s i u = none → targetCause s.kern s.cur.core l (readPair s.kern s.cur.core u a) true = none
  (∀ (x : BForm) s t l, Executes s (.jmpi x) t = true → curLaunch s = some l → good s (.jmpi x) l x.a →
    ∃ s', exec (.jmpi x) s = .next s' ∧ Completes s s' (.jmpi x) t (.values []) t (readPair s.kern s.cur.core t x.a)) ∧
  (∀ (x : BForm) s t l, Executes s (.ret x) t = true → curLaunch s = some l → good s (.ret x) l x.a →
    ∃ s', exec (.ret x) s = .next s' ∧ Completes s s' (.ret x) t (.values []) t (readPair s.kern s.cur.core t x.a)) ∧
  (∀ (x : BForm) s t l, Executes s (.calli x) t = true → curLaunch s = some l → good s (.calli x) l x.a →
    ∃ s', exec (.calli x) s = .next s' ∧
      Completes s s' (.calli x) t (.values (place .n64 (curNext s))) t (readPair s.kern s.cur.core t x.a)) ∧
  (∀ (x : BForm) s t l h m cause fault, (m = .jmpi x ∨ m = .ret x ∨ m = .calli x) → ExecutesAlone s m t = true →
    curLaunch s = some l → TakesTraps s t l h →
    targetCause s.kern s.cur.core l (readPair s.kern s.cur.core t x.a) true = some (cause, fault) →
    ∃ s', exec m s = .next s' ∧
      TrapsTo s s' t h (pairtOf s.kern s.cur.core l (readPair s.kern s.cur.core t x.a)) cause 0
        (readPair s.kern s.cur.core t x.a) fault)

/-- R141: the first check of an indirect target that fails decides the trap, with the line address of the target as its fault
word. -/
def Claims.IndirectTargetChecks : Prop :=
  ∀ k c l pc,
    ((pc / 8 % 8 ≠ 0 ∨ 4 < pc % 8) → targetCause k c l pc true = some (0x02, pc / 64 * 64)) ∧
    (pc / 8 % 8 = 0 → pc % 8 ≤ 4 →
      (lineInside k l (pc / 64 * 64) = false → targetCause k c l pc true = some (0x04, pc / 64 * 64)) ∧
      (lineInside k l (pc / 64 * 64) = true → ∀ bits, seeLine k c l (pc / 64 * 64) = some bits →
        ((lineWord bits).testBit (22 + pc % 8) = false → targetCause k c l pc true = some (0x02, pc / 64 * 64)) ∧
        ((lineWord bits).testBit (22 + pc % 8) = true →
          (∀ cause, fetchCause bits pc = some cause → targetCause k c l pc true = some (cause, pc / 64 * 64)) ∧
          (fetchCause bits pc = none → targetCause k c l pc true = none))))

/-- What IndirectBranches and IndirectTargetChecks say. -/
def Obligations.IndirectTargets : Prop := Claims.IndirectBranches ∧ Claims.IndirectTargetChecks

/-- R143, R278, R374, R295: EXIT ends the thread: it stands nowhere, no result is on its way to its own registers (one on its way to
a scalar register of its group stays on its way), and no other thread and no byte of memory changes; the cell of a thread in a field
whose brick has no other cell waiting is gone, and a thread with PRE set in a pre-empting context stands down instead. -/
def Obligations.ExitEndsThread : Prop :=
  let ended := fun (s s' : State) (t : Thread) (loc : Loc) =>
    (∃ u, getThread s'.kern s.cur.core t.tslot t.lane = some u ∧ u.loc = loc ∧
      (∀ h ∈ u.held, h.window = 0 ∧ h.scalar = true) ∧ u.wait = .none ∧ u.latch = none ∧
      ∀ q ∈ (coreOf s'.kern s.cur.core).reqs, q.tslot = t.tslot → q.lane = t.lane →
        q.held = none ∨ ∃ h ∈ u.held, q.held = some h.id) ∧
    (∀ a b, (a == t.tslot && b == t.lane) = false → getThread s'.kern s.cur.core a b = getThread s.kern s.cur.core a b) ∧
    (∀ a, seeByte s'.kern a = seeByte s.kern a)
  let standsDown := fun (s : State) (t : Thread) =>
    t.pre && (getCtx s.kern (ctxOf s.kern s.cur.core t)).state == .preempting
  (∀ (x : BForm) s t, ExecutesAlone s (.exit x) t = true → standsDown s t = false → cellPlace s.kern s.cur.core t = none →
    ∃ s', exec (.exit x) s = .next s' ∧ ended s s' t .exited) ∧
  (∀ (x : BForm) s t, ExecutesAlone s (.exit x) t = true → standsDown s t = true →
    ∃ s', exec (.exit x) s = .next s' ∧ ended s s' t .down) ∧
  (∀ (x : BForm) s t l r b, ExecutesAlone s (.exit x) t = true → standsDown s t = false →
    cellPlace s.kern s.cur.core t = some (l, r, b) → r.away = [] →
    ∃ s', exec (.exit x) s = .next s' ∧ ended s s' t .exited ∧
      ∃ r', regionOf s'.kern s.cur.core r.launch = some r' ∧ b ∈ r'.gone)

/-- R235 to R237, R240: TRAP and BRK take the thread to its handler with cause 0x12: the record stands in k0 to k3, with subcode 0
and the sequential successor for TRAP, subcode 1 and the instruction itself for BRK, and the code as the fault word. Every
other register, the predicates, FFLAGS, memory, and every other thread are unchanged. -/
def Claims.TrapInstructions : Prop :=
  (∀ (x : SForm) s t l h, ExecutesAlone s (.trap x) t = true → TakesTraps s t l h → curNext s < 2 ^ 64 →
    ∃ s', exec (.trap x) s = .next s' ∧
      TrapsTo s s' t h (pairtOf s.kern s.cur.core l (curNext s)) 0x12 0 (curNext s) x.imm.toNat) ∧
  (∀ (x : SForm) s t l h, ExecutesAlone s (.brk x) t = true → TakesTraps s t l h →
    ∃ s', exec (.brk x) s = .next s' ∧
      TrapsTo s s' t h (pairtOf s.kern s.cur.core l (curPc s)) 0x12 1 (curPc s) x.imm.toNat)

/-- R113, R14, R47: a divisor of 0 raises the arithmetic trap in DIV and REM, with nothing written; a slot of 96 zero bits raises
zero word, and an unassigned major opcode illegal instruction. -/
def Claims.TrappingWords : Prop :=
  (∀ (x : RForm) s t l h m, (m = .div x ∨ m = .rem x) → ExecutesAlone s m t = true → TakesTraps s t l h →
    srcInt s t x.ty x.b = 0 →
    ∃ s', exec m s = .next s' ∧ TrapsTo s s' t h (pairtOf s.kern s.cur.core l (curPc s)) 0x0C 0 (curPc s) 0) ∧
  (∀ s t l h, s.cur.mode = .single → entryFree s = true → actors s = [t] → TakesTraps s t l h →
    ∃ s', exec .zeroWord s = .next s' ∧ TrapsTo s s' t h (pairtOf s.kern s.cur.core l (curPc s)) 0x03 0 (curPc s) 0) ∧
  (∀ w s t l h, s.cur.mode = .single → entryFree s = true → actors s = [t] → TakesTraps s t l h →
    ∃ s', exec (.unassignedMajorOpcode w) s = .next s' ∧
      TrapsTo s s' t h (pairtOf s.kern s.cur.core l (curPc s)) 0x01 0 (curPc s) 0)

/-- R48, R42, R109, R23, R206: the checks that come before an instruction's own, in their order: an operand that the thread does not
have, or a form that its launch does not let it use (a cell instruction outside a field, a type of another slot, a bed of a shape
that cannot be), raises illegal instruction, one that names a register of a window 0x09, and a scalar destination of a group that is
split 0x0A; nothing else happens. That the trap of the capability, object, accumulator or timeline that an operand names comes
before the last of them is read from R48's order. -/
def Claims.SharedChecks : Prop :=
  ∀ i s t l h, isWord i = true → s.cur.mode = .single → canIssue s i = true → actors s = [t] → TakesTraps s t l h →
    let c := s.cur.core
    let u := threadUses s.kern c t i
    let illegal := illegalOwn s.kern c t i || illegalFor s.kern c t u
    let traps := fun (cause : Nat) =>
      ∃ s', exec i s = .next s' ∧ TrapsTo s s' t h (pairtOf s.kern c l (curPc s)) cause 0 (curPc s) 0
    (illegal = true → traps 0x01) ∧
    (illegal = false → windowConflict t u = true → traps 0x09) ∧
    (illegal = false → windowConflict t u = false → guardTrue t (guardOf i) = true → scalarDst u = true → namedFault s.kern c t i = false →
      splitScalar (coreOf s.kern c) s.cur.entry t = true → traps 0x0A)

/-- R239: a thread in trap state that issues STEP, STEP.R, SETTLE, MEET, PEG, PEG.def, BAR, BARARR or BARWT, or that raises a
synchronous trap, stops its context, and so does a thread whose launch has no handler (R237). The traps are those of TRAP and BRK, a
divisor of 0, a zero word, an unassigned major opcode, a capability of an unknown object and an access that fails R151. The forms
STEP.R and PEG.def are read into the rule's list. -/
def Claims.DoubleTraps : Prop :=
  (∀ (x : SForm) s t l m, m ∈ [Instr.step x, .stepR x, .settle x, .meet x, .peg x, .pegDef x, .bar x, .bararr x, .barwt x] →
    ExecutesAlone s m t = true → t.tstate = true → threadLaunch s.kern s.cur.core t = some l →
    ∃ s', exec m s = .next s' ∧ (getCtx s'.kern l.ctx).state = .stopped) ∧
  (∀ (x : SForm) s t l m, m ∈ [Instr.trap x, .brk x] → ExecutesAlone s m t = true → t.tstate = true ∨ recHandler l = none →
    threadLaunch s.kern s.cur.core t = some l → t.latch = none →
    ∃ s', exec m s = .next s' ∧ (getCtx s'.kern l.ctx).state = .stopped) ∧
  ∀ s t l, t.tstate = true ∨ recHandler l = none → threadLaunch s.kern s.cur.core t = some l → t.latch = none →
    let stops := fun (m : Instr) => ∃ s', exec m s = .next s' ∧ (getCtx s'.kern l.ctx).state = .stopped
    (∀ (x : RForm) m, (m = .div x ∨ m = .rem x) → ExecutesAlone s m t = true → srcInt s t x.ty x.b = 0 → stops m) ∧
    (∀ m, (m = .zeroWord ∨ ∃ w, m = .unassignedMajorOpcode w) → s.cur.mode = .single → entryFree s = true → actors s = [t] → stops m) ∧
    (∀ (x : RForm) m, (m = .capder x ∨ m = .capadd x) → ExecutesAlone s m t = true →
      getObj s.kern (ctxOf s.kern s.cur.core t) (capObj (readPair s.kern s.cur.core t x.a)) = none → stops m) ∧
    ∀ (x : MForm) m useIdx size need e,
      (m = .ld x ∧ useIdx = true ∧ size = memBytes x.ty ∧ need = needRead) ∨
        (∃ n, m = .ldx n x ∧ useIdx = true ∧ size = 4 * xCount n ∧ need = needRead) ∨
        (m = .st x ∧ useIdx = true ∧ size = memBytes x.ty ∧ need = needWrite) ∨
        (∃ n, m = .stx n x ∧ useIdx = true ∧ size = 4 * xCount n ∧ need = needWrite) ∨
        (∃ op, m = .atom op x ∧ useIdx = false ∧ size = memBytes x.ty ∧ need = needAtomic) ∨
        (∃ op, m = .red op x ∧ useIdx = true ∧ size = memBytes x.ty ∧ need = needAtomic) ∨
        (m = .cas x ∧ useIdx = false ∧ size = memBytes x.ty ∧ need = needAtomic) →
      ExecutesAlone s m t = true → spotOf s.kern s.cur.core t x useIdx size size need = .error e → stops m

/-- What TrapInstructions, TrappingWords, SharedChecks and DoubleTraps say. -/
def Obligations.Traps : Prop := Claims.TrapInstructions ∧ Claims.TrappingWords ∧ Claims.SharedChecks ∧ Claims.DoubleTraps

/-- R50, R241: TRET fetches the line of the target that k0[29:0] and k1[2:0] name again. It resumes the thread there and leaves trap
state, where the target passes its checks and its line still has the PAIRT of k1[31:20]. A target that fails its checks, and a PAIRT
that differs, enter the handler anew with the target as the saved program counter; TRET outside trap state raises illegal
instruction. A thread that returns from its pre-emption handler while the context is pre-empting declines: the context runs again,
and the arbiter with it (R376, R413). That a line of zeros gives cause 0x02, as R50 has it, and not that of R13, and the order of
the checks, are the model's choice between R50 and R241 (log entry 112). -/
def Obligations.TrapReturn : Prop :=
  let target := fun (t : Thread) => (readK t 0).toNat % 2 ^ 30 * 2 ^ 6 + (readK t 1).toNat % 2 ^ 3
  let fetched := fun (s : State) (t : Thread) (l : Launch) => refetch s.kern s.cur.core l (target t / 64 * 64)
  (∀ (x : SForm) s t l, ExecutesAlone s (.tret x) t = true → t.tstate = true → threadLaunch s.kern s.cur.core t = some l →
    targetCause (fetched s t l) s.cur.core l (target t) false = none →
    pairtOf (fetched s t l) s.cur.core l (target t) = (readK t 1).toNat / 2 ^ 20 →
    (t.pre && (getCtx s.kern (ctxOf s.kern s.cur.core t)).state == .preempting) = false →
    ∃ s', exec (.tret x) s = .next s' ∧
      GoesOnFrom s (modThis (fetched s t l) s.cur.core t fun u => { u with tstate := false, pre := false }) t s' (target t)) ∧
  (∀ (x : SForm) s t l, ExecutesAlone s (.tret x) t = true → t.tstate = true → threadLaunch s.kern s.cur.core t = some l →
    targetCause (fetched s t l) s.cur.core l (target t) false = none →
    pairtOf (fetched s t l) s.cur.core l (target t) = (readK t 1).toNat / 2 ^ 20 →
    let ctx := ctxOf s.kern s.cur.core t
    t.pre = true → (getCtx s.kern ctx).state = .preempting →
    ∃ s', exec (.tret x) s = .next s' ∧ (getCtx s'.kern ctx).state = .running ∧ s'.kern.asks = true ∧
      GoesOnFrom s { restartDown (modCtx (modThis (fetched s t l) s.cur.core t fun u => { u with tstate := false, pre := false }) ctx
        fun y => { y with state := .running }) ctx with asks := true } t s' (target t)) ∧
  (∀ (x : SForm) s t l p, ExecutesAlone s (.tret x) t = true → t.tstate = true → threadLaunch s.kern s.cur.core t = some l →
    target t = p → lineInside s.kern l (p / 64 * 64) = true → (∀ b, readLine s.kern l (p / 64 * 64) = some b → (fetchCause b p).isSome) →
    (readLine s.kern l (p / 64 * 64)).isSome = true → targetCause (fetched s t l) s.cur.core l p false = some (0x02, p / 64 * 64)) ∧
  (∀ (x : SForm) s t l h, ExecutesAlone s (.tret x) t = true → TakesTraps s t l h →
    ∃ s', exec (.tret x) s = .next s' ∧ TrapsTo s s' t h (pairtOf s.kern s.cur.core l (curPc s)) 0x01 0 (curPc s) 0) ∧
  (∀ (x : SForm) s t l h cause fault, ExecutesAlone s (.tret x) t = true → t.tstate = true →
    TakesTraps s { t with tstate := false } l h →
    targetCause (fetched s t l) s.cur.core l (target t) false = some (cause, fault) →
    ∃ s', exec (.tret x) s = .next s' ∧
      TrapsTo { s with kern := fetched s t l } s' { t with tstate := false } h
        (pairtOf (fetched s t l) s.cur.core l (target t)) cause 0 (target t) fault) ∧
  (∀ (x : SForm) s t l h, ExecutesAlone s (.tret x) t = true → t.tstate = true →
    TakesTraps s { t with tstate := false } l h → targetCause (fetched s t l) s.cur.core l (target t) false = none →
    pairtOf (fetched s t l) s.cur.core l (target t) ≠ (readK t 1).toNat / 2 ^ 20 →
    ∃ s', exec (.tret x) s = .next s' ∧
      TrapsTo { s with kern := fetched s t l } s' { t with tstate := false } h
        (pairtOf (fetched s t l) s.cur.core l (target t)) 0x13 0 (target t) 0)

/-- R242, R234, R148, R243: SRD writes the value of its special register and, for RATIOS, FREQSTEP and TEMPBAND, records it as
seen; SWR writes bits [4:0] of its source to FFLAGS; NOP and YIELD 0 only go on; YIELD n puts the entry to sleep for n core
cycles. -/
def Obligations.SystemInstructions : Prop :=
  (∀ (x : SForm) s t, Executes s (.srd x) t = true → ∃ s', exec (.srd x) s = .next s' ∧
    Completes s s' (.srd x) t
      (.values (place (if srWide x.sr.toNat = some true then .n64 else .n32) (specialValue s t x.sr.toNat)))
      (recordSeen s x.sr.toNat t) (curNext s)) ∧
  (∀ (x : SForm) s t, ExecutesAlone s (.swr x) t = true → ∃ s', exec (.swr x) s = .next s' ∧
    GoesOnFrom s (modThis (beforeBody s (.swr x) t) s.cur.core t fun u =>
      { u with regs := { u.regs with fflags := BitVec.ofNat 5 (srcRaw s t .n32 x.a) } }) t s' (curNext s)) ∧
  (∀ x, Computes (.nop x) fun _ _ => .values []) ∧
  (∀ x, x.imm = 0 → Computes (.yield x) fun _ _ => .values []) ∧
  (∀ (x : SForm) s t, x.imm ≠ 0 → ExecutesAlone s (.yield x) t = true → ∃ s', exec (.yield x) s = .next s' ∧
    WaitsIn s (modThis (modCore (beforeBody s (.yield x) t) s.cur.core fun core =>
      { core with entries := mmod core.entries s.cur.entry fun e => { e with sleep := some (core.cycle + x.imm.toNat) } })
      s.cur.core t fun u => { u with wait := .yielding ((coreOf s.kern s.cur.core).cycle + x.imm.toNat) }) t s')

/-- R244, R245, R246: what each special register reads as. The bit places of SETTLE are those of R223. -/
def Obligations.SpecialRegisterMap : Prop :=
  ∀ (s : State) (t : Thread),
    let k := s.kern
    let c := s.cur.core
    specialValue s t 0x000 = t.lane ∧ specialValue s t 0x001 = t.tslot ∧ specialValue s t 0x002 = t.glane ∧
    specialValue s t 0x003 = t.group ∧
    (∀ l, threadLaunch k c t = some l →
      specialValue s t 0x004 = recWidth l ∧ specialValue s t 0x015 = recX l ∧ specialValue s t 0x016 = recY l ∧
      specialValue s t 0x017 = recZ l ∧ specialValue s t 0x018 = recStages l) ∧
    (∀ b, blockOf k c t.block = some b → specialValue s t 0x005 = b.groups.length ∧ specialValue s t 0x00B = b.ctx) ∧
    specialValue s t 0x006 = t.block ∧ specialValue s t 0x007 = c % 64 ∧ specialValue s t 0x008 = c % 64 / 8 ∧
    specialValue s t 0x009 = c / 64 ∧ specialValue s t 0x00A = s.fab.dev ∧
    (∀ g, groupOf k c t = some g → specialValue s t 0x00C = g.regs) ∧
    specialValue s t 0x00D = (if t.tstate then 1 else 0) ∧
    (∀ l r b, cellPlace k c t = some (l, r, b) →
      specialValue s t 0x010 = (cellAt l r.brick b).x ∧ specialValue s t 0x011 = (cellAt l r.brick b).y ∧
      specialValue s t 0x012 = (cellAt l r.brick b).z ∧
      (inField k c t = true → specialValue s t 0x013 = (cellAt l r.brick b).s) ∧
      specialValue s t 0x014 = sigmaAt k (recordAt c r b) % 2 ^ 32) ∧
    specialValue s t 0x020 = t.regs.fflags.toNat ∧ specialValue s t 0x034 = s.pwr.boost ∧
    specialValue s t 0x040 = (getCtx k (ctxOf k c t)).ebudget ∧ specialValue s t 0x050 = t.settle.truss.toNat ∧
    specialValue s t 0x060 = (coreOf k c).cycle % 2 ^ 64 ∧ specialValue s t 0x072 = 0x3FFF ∧
    (∀ l, threadLaunch k c t = some l → inField k c t = false → specialValue s t 0x013 = recTstage l) ∧
    specialValue s t 0x030 = s.pwr.seq.toNat * 2 ^ 16 + s.pwr.grant.memory % 16 * 2 ^ 12 + s.pwr.grant.network % 16 * 2 ^ 8 +
      s.pwr.grant.vector % 16 * 2 ^ 4 + s.pwr.grant.matrix % 16 ∧
    specialValue s t 0x031 < 8 ∧ ((specialValue s t 0x031).testBit 0 = true ↔ specialValue s t 0x030 ≠ t.seenRatios.toNat) ∧
    ((specialValue s t 0x031).testBit 1 = true ↔ specialValue s t 0x032 ≠ t.seenStep.toNat) ∧
    ((specialValue s t 0x031).testBit 2 = true ↔ specialValue s t 0x033 ≠ t.seenBand.toNat) ∧
    (∀ y, mget s.pwr.bays (c / 8) = some y → specialValue s t 0x032 = y.step % 2 ^ 32 ∧ specialValue s t 0x033 = y.band % 2 ^ 32) ∧
    specialValue s t 0x051 = (if t.settle.opened then 4 else 0) + (if t.settle.mixed then 2 else 0) + (if t.settle.cold then 1 else 0) ∧
    specialValue s t 0x070 = 0x9600 * 2 ^ 16 + 0xA1 * 2 ^ 8 + s.fw.patches % 256 ∧
    ∀ b, (specialValue s t 0x071).testBit b = true ↔ ∃ y, (b, y) ∈ s.pwr.bays ∧ y.enabled = true

/-- R231, R354: POST appends the prepared card that its source names to the queue of its own core, of the core k places on in its
bay, or of its bay, with the launch record of the card as it stands; the run that the card counts towards has one more card
out. A card that is not prepared raises rights. -/
def Obligations.JobCards : Prop :=
  let posted := fun (s : State) (m : Instr) (t : Thread) (n : Nat) (node : Node) (push : Kern → Card → Kern) =>
    let k := beforeBody s m t
    let g := posterGraph s.kern s.cur.core t
    push { k with graphs := mmod k.graphs g fun y => { y with cardsOut := y.cardsOut + 1 } }
      { ctx := ctxOf s.kern s.cur.core t, card := n, rec_ := node.rec_, graph := g, launch := none }
  let toCore := fun (d : Nat) (k : Kern) (y : Card) => modCore k d fun core => { core with cards := core.cards ++ [y] }
  (∀ (x : SForm) s t y, ExecutesAlone s (.postCore x) t = true →
    preparedNode s.kern (ctxOf s.kern s.cur.core t) (srcRaw s t .n32 x.a) = some y →
    ∃ s', exec (.postCore x) s = .next s' ∧
      GoesOnFrom s (posted s (.postCore x) t (srcRaw s t .n32 x.a) y (toCore s.cur.core)) t s' (curNext s)) ∧
  (∀ (x : SForm) s t y, ExecutesAlone s (.postNbr x) t = true →
    preparedNode s.kern (ctxOf s.kern s.cur.core t) (srcRaw s t .n32 x.a) = some y →
    ∃ s', exec (.postNbr x) s = .next s' ∧
      GoesOnFrom s (posted s (.postNbr x) t (srcRaw s t .n32 x.a) y
        (toCore (s.cur.core / 8 * 8 + (s.cur.core % 8 + x.imm.toNat) % 8))) t s' (curNext s)) ∧
  (∀ (x : SForm) s t y, ExecutesAlone s (.postBay x) t = true →
    preparedNode s.kern (ctxOf s.kern s.cur.core t) (srcRaw s t .n32 x.a) = some y →
    ∃ s', exec (.postBay x) s = .next s' ∧
      GoesOnFrom s (posted s (.postBay x) t (srcRaw s t .n32 x.a) y fun k z =>
        { k with bayCards := mset k.bayCards (s.cur.core / 8) ((mget k.bayCards (s.cur.core / 8)).getD [] ++ [z]) }) t s'
        (curNext s)) ∧
  (∀ (x : SForm) s t l h m, m ∈ [Instr.postCore x, .postNbr x, .postBay x] → ExecutesAlone s m t = true →
    TakesTraps s t l h → preparedNode s.kern (ctxOf s.kern s.cur.core t) (srcRaw s t .n32 x.a) = none →
    ∃ s', exec m s = .next s' ∧ TrapsTo s s' t h (pairtOf s.kern s.cur.core l (curPc s)) 0x05 0 (curPc s) 0)

/-- R144 to R146: a thread that meets waits as an arrival in the open episode, which it opens where there is none; a thread that
signs arrives and goes on, and waits where it has signed already or the peg is sign-closed; a thread with an arrival or a signature
owed to it clears it and goes on; PEG.def sets the members and clears every OWED and every PASS. A thread outside the members, a
signature in a meet episode, and a definition while an episode is open or beyond the block's groups raise illegal instruction. -/
def Obligations.Pegs : Prop :=
  let change := fun (s : State) (m : Instr) (t : Thread) (pg : Nat) (f : Peg → Peg) =>
    modBlock (beforeBody s m t) s.cur.core t.block fun b => { b with pegs := lmod b.pegs pg f }
  let waiting := fun (s : State) (k : Kern) (t : Thread) (w : Wait) => modThis k s.cur.core t fun u => { u with wait := w }
  let unowed := fun (id : Nat) (p : Peg) =>
    { p with owedMeet := p.owedMeet.filter (· != id), owedSign := p.owedSign.filter (· != id) }
  let joins := fun (id : Nat) (e : Episode) (p : Peg) =>
    { unowed id p with episode := if p.episode = .none then e else p.episode, arrived := addOnce p.arrived id }
  (∀ (x : SForm) s t blk pg, ExecutesAlone s (.meet x) t = true → t.tstate = false → blockOf s.kern s.cur.core t.block = some blk →
    x.a = .peg pg →
    let p := pegOf blk pg
    let id := memberId blk t
    p.first ≤ t.group → t.group < p.first + p.count →
    (id ∈ p.owedMeet → ∃ s', exec (.meet x) s = .next s' ∧
      GoesOnFrom s (change s (.meet x) t pg (unowed id)) t s' (curNext s)) ∧
    (id ∉ p.owedMeet → p.episode = .signClosed → ∃ s', exec (.meet x) s = .next s' ∧
      WaitsIn s (waiting s (change s (.meet x) t pg (unowed id)) t (.meet pg true)) t s') ∧
    (id ∉ p.owedMeet → p.episode = .none ∨ p.episode = .meetOpen → ∃ s', exec (.meet x) s = .next s' ∧
      WaitsIn s (waiting s (change s (.meet x) t pg (joins id .meetOpen)) t (.meet pg false)) t s')) ∧
  (∀ (x : SForm) s t blk pg, ExecutesAlone s (.peg x) t = true → t.tstate = false → blockOf s.kern s.cur.core t.block = some blk →
    x.a = .peg pg →
    let p := pegOf blk pg
    let id := memberId blk t
    p.first ≤ t.group → t.group < p.first + p.count →
    (id ∈ p.owedSign → ∃ s', exec (.peg x) s = .next s' ∧
      GoesOnFrom s (change s (.peg x) t pg (unowed id)) t s' (curNext s)) ∧
    (id ∉ p.owedSign → p.episode = .signClosed ∨ (p.episode ≠ .meetOpen ∧ id ∈ p.arrived) →
      ∃ s', exec (.peg x) s = .next s' ∧ WaitsIn s (waiting s (beforeBody s (.peg x) t) t (.sign pg)) t s') ∧
    (id ∉ p.owedSign → p.episode = .none ∨ p.episode = .signOpen → id ∉ p.arrived → ∃ s', exec (.peg x) s = .next s' ∧
      GoesOnFrom s (change s (.peg x) t pg (joins id .signOpen)) t s' (curNext s))) ∧
  (∀ (x : SForm) s t blk pg, ExecutesAlone s (.pegDef x) t = true → t.tstate = false →
    blockOf s.kern s.cur.core t.block = some blk → x.a = .peg pg → (pegOf blk pg).episode = .none →
    x.imm.toNat / 256 % 64 + x.imm.toNat % 64 + 1 ≤ blk.groups.length → ∃ s', exec (.pegDef x) s = .next s' ∧
      GoesOnFrom s (change s (.pegDef x) t pg fun p =>
        { p with first := x.imm.toNat / 256 % 64, count := x.imm.toNat % 64 + 1, owedMeet := [], owedSign := [],
                 pass := [] }) t s'
        (curNext s)) ∧
  (∀ (x : SForm) s t blk pg l h m, ExecutesAlone s m t = true → TakesTraps s t l h →
    blockOf s.kern s.cur.core t.block = some blk → x.a = .peg pg →
    let p := pegOf blk pg
    ((m = .meet x ∨ m = .peg x) ∧ (t.group < p.first ∨ p.first + p.count ≤ t.group)) ∨
      (m = .peg x ∧ memberId blk t ∉ p.owedSign ∧ p.episode = .meetOpen) ∨
      (m = .pegDef x ∧ (p.episode ≠ .none ∨ blk.groups.length < x.imm.toNat / 256 % 64 + x.imm.toNat % 64 + 1)) →
    ∃ s', exec m s = .next s' ∧ TrapsTo s s' t h (pairtOf s.kern s.cur.core l (curPc s)) 0x01 0 (curPc s) 0)

/-- R228, R229: BAR arrives at its barrier in the current generation and waits for it to open; BARARR arrives and goes on; BARWT
waits while its arrival of the current generation stands, and otherwise goes on without one. An arrival owed to a parked
thread is credited, and a thread whose BAR an opening has passed does not arrive again (read from the rule). A thread that gives
an arrival up by going on is ordered after the accesses that the last opening ordered (R230). -/
def Obligations.Barriers : Prop :=
  let change := fun (s : State) (m : Instr) (t : Thread) (b : Nat) (f : List (Nat × Arrival) → List (Nat × Arrival)) =>
    modBlock (beforeBody s m t) s.cur.core t.block fun blk =>
      { blk with bars := lmod blk.bars b fun y => { y with arr := f y.arr } }
  let waiting := fun (s : State) (k : Kern) (t : Thread) (w : Wait) => modThis k s.cur.core t fun u => { u with wait := w }
  let ordered := fun (s : State) (k : Kern) (t : Thread) (y : Barrier) (a : Option Arrival) =>
    if a = none then k else modThis k s.cur.core t fun u => { u with fence := max u.fence y.order }
  ∀ (x : SForm) s t blk, t.tstate = false → blockOf s.kern s.cur.core t.block = some blk →
    let b := x.imm.toNat
    let y := barOf blk b
    let id := memberId blk t
    let a := mget y.arr id
    (ExecutesAlone s (.bararr x) t = true →
      (a = some .owed → ∃ s', exec (.bararr x) s = .next s' ∧
        GoesOnFrom s (change s (.bararr x) t b fun arr => mset arr id (.inGen (y.gen - 1))) t s' (curNext s)) ∧
      (a = some (.inGen y.gen) ∨ a = some (.byBar y.gen) → ∃ s', exec (.bararr x) s = .next s' ∧
        WaitsIn s (waiting s (beforeBody s (.bararr x) t) t (.barArrive b)) t s') ∧
      (a ≠ some .owed → a ≠ some (.inGen y.gen) → a ≠ some (.byBar y.gen) → ∃ s', exec (.bararr x) s = .next s' ∧
        GoesOnFrom s (change s (.bararr x) t b fun arr => mset arr id (.inGen y.gen)) t s' (curNext s))) ∧
    (ExecutesAlone s (.barwt x) t = true →
      (a = some (.inGen y.gen) ∨ a = some (.byBar y.gen) → ∃ s', exec (.barwt x) s = .next s' ∧
        WaitsIn s (waiting s (beforeBody s (.barwt x) t) t (.bar b y.gen)) t s') ∧
      (a ≠ some (.inGen y.gen) → a ≠ some (.byBar y.gen) → ∃ s', exec (.barwt x) s = .next s' ∧
        GoesOnFrom s (ordered s (change s (.barwt x) t b fun arr => mdel arr id) t y a) t s' (curNext s))) ∧
    (ExecutesAlone s (.bar x) t = true →
      (a = some .owed ∨ (∃ g, a = some (.byBar g) ∧ g ≠ y.gen) → ∃ s', exec (.bar x) s = .next s' ∧
        GoesOnFrom s (ordered s (change s (.bar x) t b fun arr => mdel arr id) t y a) t s' (curNext s)) ∧
      (a = some (.inGen y.gen) ∨ a = some (.byBar y.gen) → ∃ s', exec (.bar x) s = .next s' ∧
        WaitsIn s (waiting s (beforeBody s (.bar x) t) t (.bar b y.gen)) t s') ∧
      (a = none ∨ (∃ g, a = some (.inGen g) ∧ g ≠ y.gen) → ∃ s', exec (.bar x) s = .next s' ∧
        WaitsIn s (waiting s (change s (.bar x) t b fun arr => mset arr id (.byBar y.gen)) t (.bar b y.gen)) t s'))

/-- R220, R222: FWR stages the bits of its source as one face, or a pair as two, and marks them; NQ tells whether its cell has a
neighbour in a direction, that neighbour's linear index, and whether it stands on another device. -/
def Claims.FacesAndNeighbours : Prop :=
  let staged := fun (n : Nat) (v : W32) (t : Thread) =>
    { t with stage := rset 0 t.stage n v, marks := rset false t.marks n true }
  (∀ (x : RForm) s t d n, x.d = .face d n → tyWide x.ty = false → Executes s (.fwr x) t = true →
    ∃ s' v, exec (.fwr x) s = .next s' ∧ place x.ty (srcRaw s t x.ty x.a) = [v] ∧
      Completes s s' (.fwr x) t (.values []) (staged n v t) (curNext s)) ∧
  (∀ (x : RForm) s t d n, x.d = .face d n → tyWide x.ty = true → Executes s (.fwr x) t = true →
    ∃ s' v w, exec (.fwr x) s = .next s' ∧ place x.ty (srcRaw s t x.ty x.a) = [v, w] ∧
      Completes s s' (.fwr x) t (.values []) (staged (n + 1) w (staged n v t)) (curNext s)) ∧
  (∀ (x : RForm) s t l r b q, x.om = 0 → x.qp = some q → cellPlace s.kern s.cur.core t = some (l, r, b) →
    Executes s (.nq x) t = true → ∃ s', exec (.nq x) s = .next s' ∧
      Completes s s' (.nq x) t
        { Effect.values [] with preds := [(q.val, (neighbour l (cellAt l r.brick b) (dirOperand x.a)).isSome)] } t
        (curNext s)) ∧
  (∀ (x : RForm) s t l r b, x.om = 1 → cellPlace s.kern s.cur.core t = some (l, r, b) → Executes s (.nq x) t = true →
    ∃ s', exec (.nq x) s = .next s' ∧
      Completes s s' (.nq x) t
        (.values [match neighbour l (cellAt l r.brick b) (dirOperand x.a) with
          | some m => BitVec.ofNat 32 (linear l m)
          | none => 0xFFFFFFFF]) t (curNext s)) ∧
  (∀ (x : RForm) s t l r b q, x.om = 2 → x.qp = some q → cellPlace s.kern s.cur.core t = some (l, r, b) →
    Executes s (.nq x) t = true → ∃ s', exec (.nq x) s = .next s' ∧
      Completes s s' (.nq x) t
        { Effect.values [] with preds := [(q.val, match neighbour l (cellAt l r.brick b) (dirOperand x.a) with
          | some m => decide ((brickOf l m).1 ∉ l.bricks.map (·.1))
          | none => false)] } t (curNext s))

/-- R283: publishing a step writes the staged faces over the current ones into the other bank with the step as its TAG, and
advances σ; the current bank is unchanged, and so is every bank where nothing was staged. -/
def Claims.PublishedFaces : Prop :=
  ∀ k c t l r b release, Memory.wf k.mem = true →
    let at_ := recordAt c r b
    let bank := currentBank k at_
    let k' := publish k c t l r b release
    sigmaAt k' at_ = (sigmaAt k at_ + 1) % 2 ^ 64 ∧
    (∀ n, n < 64 → seeByte k' (at_ + 64 * bank + n) = seeByte k (at_ + 64 * bank + n)) ∧
    (true ∈ t.marks →
      getNat k' (at_ + 128 + 8 * (1 - bank)) 8 = sigmaAt k at_ ∧
      ∀ n, n < 16 → getNat k' (at_ + 64 * (1 - bank) + 4 * n) 4 =
        if t.marks.getD n false then (t.stage.getD n 0).toNat else getNat k (at_ + 64 * bank + 4 * n) 4) ∧
    (true ∉ t.marks → ∀ n, n < 144 → seeByte k' (at_ + n) = seeByte k (at_ + n))

/-- What FacesAndNeighbours and PublishedFaces say. -/
def Obligations.CellFaces : Prop := Claims.FacesAndNeighbours ∧ Claims.PublishedFaces

/-- R221, R224, R294: STEP ends the step of a cell and publishes it, STEP.R after draining what the cell has stored, and SETTLE
with its signature counted, a decision pending and its settle registers set. A cell of a virtualised brick does so at a safe
point, then goes on, or is saved in exchange for the cell of its brick that is furthest behind; elsewhere it raises illegal
instruction. -/
def Claims.Steps : Prop :=
  let after := fun (s : State) (t : Thread) (x : SForm) (l : Launch) (r : XRegion) (b : Nat) (m : Instr) =>
    let k := beforeBody s m t
    let c := s.cur.core
    let sigma := sigmaAt s.kern (recordAt c r b)
    match m with
    | .step _ => publish (endStep k r.launch sigma) c t l r b false
    | .stepR _ =>
      let k := drainWhere k c fun e => e.cells.contains (r.launch, b)
      publish (endStep k r.launch sigma) c t l r b true
    | _ =>
      let sig := BitVec.ofNat 64 (readPair s.kern c t x.d)
      let k' := publish (endSettle k r.launch sigma sig) c t l r b false
      modThis k' c t fun u =>
        { u with settle := { u.settle with sig := sig, tol := BitVec.ofNat 32 (readLow s.kern c t x.a), cap := x.imm,
                                            opened := true, sopen := BitVec.ofNat 64 (sigmaOf k' c t) } }
  ∀ (x : SForm) s t l r b m, m ∈ [Instr.step x, .stepR x, .settle x] → ExecutesAlone s m t = true → t.tstate = false →
    cellPlace s.kern s.cur.core t = some (l, r, b) →
    (r.virt = false → ∃ s', exec m s = .next s' ∧ GoesOnFrom s (after s t x l r b m) t s' (curNext s)) ∧
    (∀ mask r', r.virt = true → safePoint (beforeBody s m t) l (curPc s) = (beforeBody s m t, .ok (some mask)) →
      let k := after s t x l r b m
      cellPlace k s.cur.core t = some (l, r', b) →
      (r'.away = [] → ∃ s', exec m s = .next s' ∧ GoesOnFrom s k t s' (curNext s)) ∧
      (∀ a sigma, leastAway k s.cur.core r' l = some (a, sigma) →
        (sigmaAt k (recordAt s.cur.core r' b) ≤ sigma → ∃ s', exec m s = .next s' ∧ GoesOnFrom s k t s' (curNext s)) ∧
        (sigma < sigmaAt k (recordAt s.cur.core r' b) →
          (resultsPending k s.cur.core t = true ∨ maskReadable k s.cur.core r' l a = false) → ∃ s', exec m s = .next s' ∧
            WaitsIn s (modThis k s.cur.core t fun u => { u with wait := .rotate mask (BitVec.ofNat 64 (curNext s)) }) t s') ∧
        (sigma < sigmaAt k (recordAt s.cur.core r' b) → resultsPending k s.cur.core t = false →
          maskReadable k s.cur.core r' l a = true → ∃ s', exec m s = .next s' ∧
            GoesOnFrom s (rotateCell k s.cur.core t r' l b mask (curNext s) a).1 t s'
              (rotateCell k s.cur.core t r' l b mask (curNext s) a).2))) ∧
    (∀ l' h cause fault, r.virt = true → TakesTraps s t l' h → cause < 256 → fault < 2 ^ 64 → cause ≠ 0x10 →
      safePoint (beforeBody s m t) l (curPc s) = (beforeBody s m t, .error (.trap cause 0 fault)) → ∃ s', exec m s = .next s' ∧
        TrapsTo s s' t h (pairtOf s.kern s.cur.core l' (curPc s)) cause 0 (curPc s) fault) ∧
    (∀ l' h, r.virt = true → safePoint (beforeBody s m t) l (curPc s) = (beforeBody s m t, .ok none) → TakesTraps s t l' h →
      ∃ s', exec m s = .next s' ∧ TrapsTo s s' t h (pairtOf s.kern s.cur.core l' (curPc s)) 0x01 0 (curPc s) 0)

/-- R226, R227: RESID adds its source to the sum or the maximum of the step, as a magnitude, and sends it to the other bricks; STEST
reads the truss of the step before, closes the solve where the value meets the tolerance or the cap is reached, and writes whether
it did. Both raise illegal instruction outside an open solve. -/
def Claims.Residuals : Prop :=
  (∀ (x : RForm) s t l r b, ExecutesAlone s (.resid x) t = true → cellPlace s.kern s.cur.core t = some (l, r, b) →
    t.settle.opened = true → ∃ s', exec (.resid x) s = .next s' ∧
      let a : W32 := BitVec.ofNat 32 (srcRaw s t .f32 x.a)
      let sigma := sigmaAt s.kern (recordAt s.cur.core r b)
      GoesOnFrom s (shareTruss (modTruss (beforeBody s (.resid x) t) r.launch sigma fun y =>
        if x.om = 1 then { y with sumsq := y.sumsq ++ [a] } else { y with maxabs := y.maxabs ++ [a &&& 0x7FFFFFFF] }) r.launch
        (if x.om = 1 then 6 else 5) sigma [a]) t s' (curNext s)) ∧
  (∀ (x : RForm) s t l r b q, ExecutesAlone s (.stest x) t = true → cellPlace s.kern s.cur.core t = some (l, r, b) →
    x.qp = some q → solveOpen t (sigmaAt s.kern (recordAt s.cur.core r b)) = true → ∃ s', exec (.stest x) s = .next s' ∧
      let sigma := sigmaAt s.kern (recordAt s.cur.core r b)
      let y := trussStep ((mget s.kern.fields r.launch).getD .start) (sigma - 1)
      let v : W32 := if y.maxabs ≠ [] then BitVec.ofNat 32 (maxAbs y.maxabs)
        else if y.sumsq ≠ [] then BitVec.ofNat 32 (sumSquares y.sumsq) else 0
      let done := meetsTol v t.settle.tol || decide (t.settle.cap.toNat ≤ sigma - t.settle.sopen.toNat)
      GoesOnFrom s (writePred (modThis (beforeBody s (.stest x) t) s.cur.core t fun u =>
        { u with settle := { u.settle with truss := v, opened := u.settle.opened && !done } }) s.cur.core t q.val done) t s'
        (curNext s)) ∧
  (∀ (x : RForm) s t l r b l' h m, ExecutesAlone s m t = true → TakesTraps s t l' h →
    cellPlace s.kern s.cur.core t = some (l, r, b) →
    (m = .resid x ∧ t.settle.opened = false) ∨
      (m = .stest x ∧ solveOpen t (sigmaAt s.kern (recordAt s.cur.core r b)) = false) →
    ∃ s', exec m s = .next s' ∧ TrapsTo s s' t h (pairtOf s.kern s.cur.core l' (curPc s)) 0x01 0 (curPc s) 0)

/-- What Steps and Residuals say. -/
def Obligations.StepsAndResiduals : Prop := Claims.Steps ∧ Claims.Residuals

/-- R149 to R153, R157, R158, R304: a load of the scratchpad or the exchange region goes to its destination through its window,
with words that were never written read as 0; an acquire at .dev or wider invalidates the line cache. Memory is unchanged. -/
def Claims.PadLoads : Prop :=
  let loads := fun (m : Instr) (x : MForm) (size : Nat) =>
    ∀ s t blk p a, ExecutesAlone s m t = true → Reaches s t x true size needRead blk p → InPad s blk p size a →
      Unflagged s t blk p size true false → ∃ s', exec m s = .next s' ∧
        (∀ b, seeByte s'.kern b = seeByte s.kern b) ∧
        GoesOnFrom s (deliverNow
          (if x.acq && wideScope x.sc then dropLines (beforeBody s m t) s.cur.core else beforeBody s m t) s.cur.core t
          (destination s m t) (answerWords x.ty size (maskSpot (some blk) p (getBytes s.kern a size))) x.la) t s' (curNext s)
  (∀ x, loads (.ld x) x (memBytes x.ty)) ∧ (∀ n x, loads (.ldx n x) x (4 * xCount n))

/-- R41, R42: a result that is known at issue is in its registers at once where it has no window; with a window, the registers keep
their old values and the result is held for as many instructions as the window says. -/
def Claims.DeliveredResults : Prop :=
  ∀ k c t u dst vals (la : BitVec 4), getThread k c t.tslot t.lane = some u → dst.Nodup →
    let k' := deliverNow k c t dst vals la
    (la = 0 → (∀ r ∈ dst, ∀ n, r ≠ .s n) → ∀ p ∈ dst.zip vals, seeReg k' c t p.1 = p.2) ∧
    (la ≠ 0 → (∃ v h, getThread k' c t.tslot t.lane = some v ∧ h ∈ v.held ∧ h.regs = dst ∧ h.vals = vals ∧
        h.window = la.toNat ∧ h.arrived = true) ∧
      ∀ r, (∀ n, r ≠ .s n) → (∀ h ∈ u.held, r ∉ h.regs) → seeReg k' c t r = seeReg k c t r)

/-- What PadLoads and DeliveredResults say. -/
def Obligations.LoadResults : Prop := Claims.PadLoads ∧ Claims.DeliveredResults

/-- R149 to R152, R156, R158, R304: a store to the scratchpad or the exchange region writes its bytes at its address, and zeros in
the rest of a word that was never written; the words that it touches become valid. Every other byte of memory is unchanged. -/
def Claims.PadStores : Prop :=
  let stores := fun (m : Instr) (x : MForm) (size : Nat) =>
    ∀ s t blk p a, ExecutesAlone s m t = true → Reaches s t x true size needWrite blk p → InPad s blk p size a →
      Unflagged s t blk p size false false → ∃ s', exec m s = .next s' ∧
        (MemoryOk s → getNat s'.kern a size = storeData s x t size % 256 ^ size) ∧
        (∀ b, b < a ∨ a + size ≤ b → seeByte s'.kern b =
          if p.space = .sp ∧ ∃ w ∈ wordsOf p.ea size, w ∉ blk.valid ∧ rowBase s.cur.core blk.baseRow + 4 * w ≤ b ∧
            b < rowBase s.cur.core blk.baseRow + 4 * w + 4 then 0 else seeByte s.kern b) ∧
        (p.space = .sp → ∀ l, threadLaunch s.kern s.cur.core t = some l →
          ∃ blk', blockOf s'.kern s.cur.core t.block = some blk' ∧ ∀ w ∈ wordsOf p.ea size, w ∈ blk'.valid) ∧
        GoesOnFrom s (touchSpot
          (putBytes (zeroInvalid (beforeBody s m t) s.cur.core (some blk) p size) a (bytesOfNat size (storeData s x t size)))
          s.cur.core t p size { reads := false, writes := true, atomic := false }) t s' (curNext s)
  (∀ x, stores (.st x) x (memBytes x.ty)) ∧ (∀ n x, stores (.stx n x) x (4 * xCount n))

/-- R160 to R166: an atomic on the scratchpad or the exchange region reads its location, writes the new value of its operation, and
returns the old value through its window, RED returning none; CAS writes only where its compare value is found. -/
def Claims.PadAtomics : Prop :=
  let swaps := fun (m : Instr) (x : MForm) (useIdx : Bool) (new : State → Thread → Nat → Option Nat) (returns : Bool) =>
    ∀ s t blk p a, ExecutesAlone s m t = true → Reaches s t x useIdx (memBytes x.ty) needAtomic blk p →
      InPad s blk p (memBytes x.ty) a → Unflagged s t blk p (memBytes x.ty) true true → ∃ s', exec m s = .next s' ∧
        let size := memBytes x.ty
        let old := natOfBytes (maskSpot (some blk) p (getBytes s.kern a size))
        let k := zeroInvalid (beforeBody s m t) s.cur.core (some blk) p size
        let k := match new s t old with | some v => putBytes k a (bytesOfNat size v) | none => k
        let k := touchSpot k s.cur.core t p size { reads := true, writes := true, atomic := true }
        let k := if x.acq && wideScope x.sc then dropLines k s.cur.core else k
        (MemoryOk s → ∀ v, new s t old = some v → getNat s'.kern a size = v % 256 ^ size) ∧
        GoesOnFrom s (if returns then deliverNow k s.cur.core t (destination s m t) (place x.ty old) x.la else k) t s'
          (curNext s)
  (∀ op x, swaps (.atom op x) x false (fun s t old => some (newValue op x.ty old (srcRaw s t x.ty x.idx))) true) ∧
  (∀ op x, swaps (.red op x) x true (fun s t old => some (newValue op x.ty old (srcRaw s t x.ty x.d))) false) ∧
  (∀ x, swaps (.cas x) x false
    (fun s t old => if old = (casOperands s x t).1 then some (casOperands s x t).2 else none) true)

/-- What PadStores and PadAtomics say. -/
def Obligations.PadStoresAndAtomics : Prop := Claims.PadStores ∧ Claims.PadAtomics

/-- R149 to R158, R162: an access to an object that passes its checks becomes a request with its address, size, ordering and
data, whose answer goes to the destination; a relaxed store to a remote object gathers in the write-combining buffer. Memory is
unchanged until the request is performed. -/
def Obligations.ObjectRequests : Prop :=
  let reach := fun (s : State) (t : Thread) (p : Spot) (size : Nat) (rs : List (Nat × Nat)) =>
    p.space = .ob ∧ objRuns s.kern (ctxOf s.kern s.cur.core t) (capObj p.cap) p.ea size = .ok rs
  let asks := fun (s : State) (m : Instr) (t : Thread) (x : MForm) (p : Spot) (rs : List (Nat × Nat)) (kind : ReqKind)
      (size data cmp : Nat) (answers : Bool) =>
    let k := beforeBody s m t
    let h := holdResult k s.cur.core t (destination s m t) [] 0 x.la
    let sent := fun (k : Kern) (held : Option Nat) =>
      sendReq k s.cur.core t (requestOf s k t x { spot := p, runs := rs } kind size data cmp held)
    ∃ s', exec m s = .next s' ∧ (∀ b, seeByte s'.kern b = seeByte s.kern b) ∧
      GoesOnFrom s (if answers then sent h.2 (some h.1) else sent k none) t s' (curNext s)
  let sound := fun (s : State) (m : Instr) (t : Thread) (p : Spot) (rs : List (Nat × Nat)) (cached : Bool) =>
    issuePoison (beforeBody s m t) s.cur.core t { spot := p, runs := rs } cached = none
  (∀ m x size s t blk p rs, (m = .ld x ∧ size = memBytes x.ty) ∨ (∃ n, m = .ldx n x ∧ size = 4 * xCount n) →
    ExecutesAlone s m t = true → Reaches s t x true size needRead blk p → reach s t p size rs →
    sound s m t p rs (cachedSpot s.kern (ctxOf s.kern s.cur.core t) p && !(x.acq && wideScope x.sc)) →
    asks s m t x p rs .load size 0 0 true) ∧
  (∀ m x size s t blk p rs, (m = .st x ∧ size = memBytes x.ty) ∨ (∃ n, m = .stx n x ∧ size = 4 * xCount n) →
    ExecutesAlone s m t = true → Reaches s t x true size needWrite blk p → reach s t p size rs →
    (remoteSpot s.kern (ctxOf s.kern s.cur.core t) p && !x.rel) = false →
    asks s m t x p rs .store size (storeData s x t size) 0 false) ∧
  (∀ m x size s t blk p rs, (m = .st x ∧ size = memBytes x.ty) ∨ (∃ n, m = .stx n x ∧ size = 4 * xCount n) →
    ExecutesAlone s m t = true → Reaches s t x true size needWrite blk p → reach s t p size rs →
    (remoteSpot s.kern (ctxOf s.kern s.cur.core t) p && !x.rel) = true →
    ∃ s', exec m s = .next s' ∧ (∀ b, seeByte s'.kern b = seeByte s.kern b) ∧
      GoesOnFrom s (combineStore (beforeBody s m t) s.cur.core (ctxOf s.kern s.cur.core t)
        (homeOf s.kern (ctxOf s.kern s.cur.core t) p) (capObj p.cap) p.ea t (bytesOfNat size (storeData s x t size))) t s'
        (curNext s)) ∧
  (∀ op x s t blk p rs, ExecutesAlone s (.atom op x) t = true → Reaches s t x false (memBytes x.ty) needAtomic blk p →
    reach s t p (memBytes x.ty) rs → sound s (.atom op x) t p rs false →
    asks s (.atom op x) t x p rs (.atom op) (memBytes x.ty) (srcRaw s t x.ty x.idx) 0 true) ∧
  (∀ op x s t blk p rs, ExecutesAlone s (.red op x) t = true → Reaches s t x true (memBytes x.ty) needAtomic blk p →
    reach s t p (memBytes x.ty) rs → sound s (.red op x) t p rs false →
    asks s (.red op x) t x p rs (.atom op) (memBytes x.ty) (srcRaw s t x.ty x.d) 0 false) ∧
  (∀ x s t blk p rs, ExecutesAlone s (.cas x) t = true → Reaches s t x false (memBytes x.ty) needAtomic blk p →
    reach s t p (memBytes x.ty) rs → sound s (.cas x) t p rs false →
    asks s (.cas x) t x p rs .cas (memBytes x.ty) (casOperands s x t).2 (casOperands s x t).1 true)

/-- R151, R152, R304, R325, R425, R429: an access that fails R151 traps with the cause and the fault word of the check; one that
reads a word never written raises unwritten read where the launch traps these, and one that meets another group's stamp raises race.
A load of the scratchpad or the exchange region that meets poison traps a P or D kernel, with cause 0x11 for a margin error in P and
0x07 otherwise, and in an N kernel the bytes of the poisoned units read as ones; what it meets is charged. That a word both poisoned
and never written reads as 0 there is the model's choice (log entry 19). -/
def Obligations.AccessTraps : Prop :=
  let accesses := fun (m : Instr) (x : MForm) (useIdx : Bool) (size need : Nat) =>
    (m = .ld x ∧ useIdx = true ∧ size = memBytes x.ty ∧ need = needRead) ∨
    (∃ n, m = .ldx n x ∧ useIdx = true ∧ size = 4 * xCount n ∧ need = needRead) ∨
    (m = .st x ∧ useIdx = true ∧ size = memBytes x.ty ∧ need = needWrite) ∨
    (∃ n, m = .stx n x ∧ useIdx = true ∧ size = 4 * xCount n ∧ need = needWrite) ∨
    (∃ op, m = .atom op x ∧ useIdx = false ∧ size = memBytes x.ty ∧ need = needAtomic) ∨
    (∃ op, m = .red op x ∧ useIdx = true ∧ size = memBytes x.ty ∧ need = needAtomic) ∨
    (m = .cas x ∧ useIdx = false ∧ size = memBytes x.ty ∧ need = needAtomic)
  ∀ m x useIdx size need s t l h, accesses m x useIdx size need → ExecutesAlone s m t = true → TakesTraps s t l h →
    (∀ cause fault, spotOf s.kern s.cur.core t x useIdx size size need = .error (cause, fault) → ∃ s', exec m s = .next s' ∧
      TrapsTo s s' t h (pairtOf s.kern s.cur.core l (curPc s)) cause 0 (curPc s) fault) ∧
    (∀ blk p, Reaches s t x useIdx size need blk p → p.space = .sp → 0 < size →
      (need ≠ needWrite → recValid l = 0 → p.ea / 4 ∉ blk.valid → ∃ s', exec m s = .next s' ∧
        TrapsTo s s' t h (pairtOf s.kern s.cur.core l (curPc s)) 0x0B 0 (curPc s) (4 * (p.ea / 4))) ∧
      (need ≠ needAtomic → p.ea / 4 ∈ blk.valid → recRace l = 0 → stampConflict blk t.group (p.ea / 4) = true →
        ∃ s', exec m s = .next s' ∧
          TrapsTo s s' t h (pairtOf s.kern s.cur.core l (curPc s)) 0x08 0 (curPc s) (4 * (p.ea / 4)))) ∧
    (∀ blk p a, Reaches s t x useIdx size need blk p → need = needRead → p.space ≠ .ob → physical s.kern s.cur.core blk p = .ok a →
      Unflagged s t blk p size true false →
      let c := s.cur.core
      let ctx := ctxOf s.kern c t
      let hits := poisonHits s.kern [(a, size)]
      let units := poisonCharge hits + softHits s.kern [(a, size)]
      let k := (readRuns (beforeBody s m t) ctx 2 [(a, size)]).1
      let bs := (List.range size).map fun i => if (poisonAt s.kern (a + i)).isSome then 0xFF else seeByte s.kern (a + i)
      Bears s.kern ctx units →
      (∀ y ys, hits = y :: ys → classOf s.kern c t ≠ 2 → ∃ s', exec m s = .next s' ∧
        Recorded s'.kern c t (pairtOf s.kern c l (curPc s)) (poisonCause (classOf s.kern c t) y.2) 0 false (curPc s) (p.ea + y.1) ∧
        StandsAt s'.kern c t h ∧ (getCtx s'.kern ctx).ebudget = (getCtx s.kern ctx).ebudget - units ∧
        ∀ b, seeByte s'.kern b = seeByte s.kern b) ∧
      (classOf s.kern c t = 2 → ∃ s', exec m s = .next s' ∧ (∀ b, seeByte s'.kern b = seeByte s.kern b) ∧
        GoesOnFrom s (deliverNow (if x.acq && wideScope x.sc then dropLines k c else k) c t (destination s m t)
          (answerWords x.ty size (maskSpot (some blk) p bs)) x.la) t s' (curNext s)))

/-- R167 to R170: FENCE issues once its orders hold and, as an acquire at .dev or wider, invalidates the line cache; LCINV and
WCDRAIN invalidate or begin to drain one line, their .all forms every line; PREF fills a line that is absent and whole, and does
nothing where its address fails a check (log entry 30). None of them changes a byte of memory. -/
def Claims.CacheControl : Prop :=
  let line := fun (s : State) (m : Instr) (x : MForm) (t : Thread) (f : Kern → Nat → Nat → Nat → Kern) =>
    ∀ p, ExecutesAlone s m t = true → spotOf s.kern s.cur.core t x true 1 1 0 = .ok p → ∃ s', exec m s = .next s' ∧
      (∀ b, seeByte s'.kern b = seeByte s.kern b) ∧
      GoesOnFrom s (f (beforeBody s m t) (ctxOf s.kern s.cur.core t) (capObj p.cap) (p.ea / 64)) t s' (curNext s)
  (∀ x s t, ExecutesAlone s (.fence x) t = true → ∃ s', exec (.fence x) s = .next s' ∧
    GoesOnFrom s (if x.acq && wideScope x.sc then dropLines (beforeBody s (.fence x) t) s.cur.core
      else beforeBody s (.fence x) t) t s' (curNext s)) ∧
  (∀ x s t, line s (.lcinv x) x t fun k ctx o n => modCore k s.cur.core fun core =>
    { core with lcache := core.lcache.filter fun y => !(y.ctx == ctx && y.obj == o && y.line == n) }) ∧
  (∀ x s t, ExecutesAlone s (.lcinvAll x) t = true → ∃ s', exec (.lcinvAll x) s = .next s' ∧
    GoesOnFrom s (modCore (beforeBody s (.lcinvAll x) t) s.cur.core fun core => { core with lcache := [] }) t s' (curNext s)) ∧
  (∀ x s t, line s (.wcdrain x) x t fun k ctx o n => modCore k s.cur.core fun core =>
    { core with wc := core.wc.map fun e =>
        if e.ctx == ctx && e.obj == o && e.line == n then { e with draining := true } else e }) ∧
  (∀ x s t, ExecutesAlone s (.wcdrainAll x) t = true → ∃ s', exec (.wcdrainAll x) s = .next s' ∧
    GoesOnFrom s (modCore (beforeBody s (.wcdrainAll x) t) s.cur.core fun core =>
      { core with wc := core.wc.map fun e => { e with draining := true } }) t s' (curNext s)) ∧
  (∀ x s t, ExecutesAlone s (.pref x) t = true → ∃ s', exec (.pref x) s = .next s' ∧
    (∀ b, seeByte s'.kern b = seeByte s.kern b) ∧
    GoesOnFrom s (prefetch s x (beforeBody s (.pref x) t) t) t s' (curNext s) ∧
    let k := beforeBody s (.pref x) t
    let ctx := ctxOf k s.cur.core t
    (∀ p rs, spotOf s.kern s.cur.core t x true 1 1 needRead = .ok p → cachedSpot k ctx p = true →
      cachedLine (coreOf k s.cur.core) ctx (capObj p.cap) (p.ea / 64) = none → objRuns k ctx (capObj p.cap) (p.ea / 64 * 64) 64 = .ok rs →
      poisonHits k rs = [] → cachedLine (coreOf s'.kern s.cur.core) ctx (capObj p.cap) (p.ea / 64) =
        some (BitVec.ofNat 512 (natOfBytes (getRuns k rs)))) ∧
    ∀ e, spotOf s.kern s.cur.core t x true 1 1 needRead = .error e → GoesOnFrom s k t s' (curNext s))

/-- R169, R304: VALID.set and VALID.clr set or clear the valid bits of n bytes of words; VALID.get reads thirty-two of them, 0 at or
beyond the allocation. A length that is no multiple of 4, a range beyond the allocation, and an unaligned VALID.get raise
bounds. -/
def Claims.ValidBits : Prop :=
  let at_ := fun (s : State) (m : Instr) (x : MForm) (t : Thread) (blk : Block) (p : Spot) =>
    ExecutesAlone s m t = true ∧ blockOf s.kern s.cur.core t.block = some blk ∧
      spotOf s.kern s.cur.core t x true 4 4 0 = .ok p
  (∀ x s t blk p, at_ s (.validSet x) x t blk p → srcCount s t x.d % 4 = 0 → p.ea + srcCount s t x.d ≤ blk.sb →
    ∃ s', exec (.validSet x) s = .next s' ∧
      GoesOnFrom s (modBlock (beforeBody s (.validSet x) t) s.cur.core t.block fun b =>
        { b with valid := ((List.range (srcCount s t x.d / 4)).map fun i => p.ea / 4 + i).foldl addOnce b.valid }) t s'
        (curNext s)) ∧
  (∀ x s t blk p, at_ s (.validClr x) x t blk p → srcCount s t x.d % 4 = 0 → p.ea + srcCount s t x.d ≤ blk.sb →
    ∃ s', exec (.validClr x) s = .next s' ∧
      GoesOnFrom s (modBlock (beforeBody s (.validClr x) t) s.cur.core t.block fun b =>
        { b with valid := b.valid.filter fun w => !((List.range (srcCount s t x.d / 4)).map fun i => p.ea / 4 + i).contains w })
        t s' (curNext s)) ∧
  (∀ x s t blk p, at_ s (.validGet x) x t blk p → p.ea % 128 = 0 → ∃ s', exec (.validGet x) s = .next s' ∧
    Completes s s' (.validGet x) t
      (.values [BitVec.ofNat 32 (bitsOf ((List.range 32).filter fun i =>
        decide (p.ea + 4 * i < blk.sb) && blk.valid.contains (p.ea / 4 + i)))]) t (curNext s)) ∧
  (∀ x s t blk p l h m, at_ s m x t blk p → TakesTraps s t l h →
    ((m = .validSet x ∨ m = .validClr x) ∧ (srcCount s t x.d % 4 ≠ 0 ∨ blk.sb < p.ea + srcCount s t x.d)) ∨
      (m = .validGet x ∧ p.ea % 128 ≠ 0) →
    ∃ s', exec m s = .next s' ∧ TrapsTo s s' t h (pairtOf s.kern s.cur.core l (curPc s)) 0x04 0 (curPc s) p.ea)

/-- What CacheControl and ValidBits say. The clauses that they name as the model's choices rest on log entry 30. -/
def Obligations.CacheAndValidBits : Prop := Claims.CacheControl ∧ Claims.ValidBits

/-- R171 to R173: CAPDER keeps only rights that its source has; CAPADD moves the offset within 0 to SIZE; CAPQ answers the size, the
effective rights, the class, the home and the bytes left. An unknown object raises rights, and an offset out of range bounds,
with the capability as the fault word. -/
def Obligations.Capabilities : Prop :=
  let cap := fun (s : State) (x : RForm) (t : Thread) => readPair s.kern s.cur.core t x.a
  let known := fun (s : State) (x : RForm) (t : Thread) => getObj s.kern (ctxOf s.kern s.cur.core t) (capObj (cap s x t))
  (∀ x s t, ExecutesAlone s (.capder x) t = true → (known s x t).isSome = true → ∃ s', exec (.capder x) s = .next s' ∧
    let a := cap s x t
    Completes s s' (.capder x) t
      (.values (place .b64 (a / 2 ^ 40 * 2 ^ 40 + Nat.land (a / 2 ^ 36 % 16) (rightsOperand s t x.b) % 16 * 2 ^ 36 + a % 2 ^ 36)))
      t (curNext s)) ∧
  (∀ x s t e, ExecutesAlone s (.capadd x) t = true → known s x t = some e →
    let a := cap s x t
    let sum : Int := (a % 2 ^ 36 : Nat) + offsetOperand s x t
    0 ≤ sum → sum ≤ e.size → ∃ s', exec (.capadd x) s = .next s' ∧
      Completes s s' (.capadd x) t (.values (place .b64 (a / 2 ^ 36 * 2 ^ 36 + sum.toNat % 2 ^ 36))) t (curNext s)) ∧
  (∀ x, Computes (.capq x) fun s t =>
    let a := cap s x t
    .values (place .b64 (match known s x t with
      | none => if x.om = 2 then 3 else 0
      | some e =>
        if x.om = 0 then e.size else if x.om = 1 then effective e a
        else if x.om = 2 then (match e.cls with | .p => 0 | .d => 1 | .n => 2)
        else if x.om = 3 then (match e.home with | .hbm => 0 | .vault => 1 | .remote => 2) * 2 ^ 32 + e.hdev % 2 ^ 32
        else e.size - a % 2 ^ 36))) ∧
  (∀ x s t l h m, (m = .capder x ∨ m = .capadd x) → ExecutesAlone s m t = true → TakesTraps s t l h → known s x t = none →
    ∃ s', exec m s = .next s' ∧ TrapsTo s s' t h (pairtOf s.kern s.cur.core l (curPc s)) 0x05 0 (curPc s) (cap s x t)) ∧
  (∀ x s t l h e, ExecutesAlone s (.capadd x) t = true → TakesTraps s t l h → known s x t = some e →
    let sum : Int := (cap s x t % 2 ^ 36 : Nat) + offsetOperand s x t
    (sum < 0 ∨ (e.size : Int) < sum) → ∃ s', exec (.capadd x) s = .next s' ∧
      TrapsTo s s' t h (pairtOf s.kern s.cur.core l (curPc s)) 0x04 0 (curPc s) (cap s x t))

/-- R174 to R178, R184, R196: COPY whose ranges pass takes the next number of its context; a descriptor that fails and a predicate
word that is poisoned answer their status at once, and another becomes a copy in flight with its descriptor, its ranges and its
status word on the way to D. Without a free slot the thread waits, and a range that fails R151 traps. The number of a copy whose
descriptor fails, and the scoreboard ranges of a copy, are the model's choices (log entries 21 and 99). -/
def Claims.Copies : Prop :=
  ∀ (x : MForm) s t blk, ExecutesAlone s (.copy x) t = true →
    let c := s.cur.core
    let k := beforeBody s (.copy x) t
    let ctx := ctxOf k c t
    let base := copyBase s.kern c t x
    let d := fun i => readAt s.kern c t x.idx i
    let desc := descOf (d 0) (d 1) (d 2) (d 3)
    let num := (mget (coreOf k c).copyCount ctx).getD 0 + 1
    let counted := modCore (holdResult k c t (regsNamed x.d 1) [] 0 x.la).2 c fun core =>
      { core with copyCount := mset core.copyCount ctx num }
    blockOf k c t.block = some blk →
    (∀ w, checkCopy k c t blk x.sp base desc = .ok w →
      copyRoom (coreOf k c) (w.srcR.length + w.dstR.length) = true → copyWaits (coreOf k c) s.cur.entry = false →
      (∀ status, w.fail = some status → ∃ s', exec (.copy x) s = .next s' ∧
        GoesOnFrom s (arriveHeld counted c t k.id [status] 0) t s' (curNext s)) ∧
      (w.fail = none → (readPredicate counted c t desc).2 = none → ∃ s', exec (.copy x) s = .next s' ∧
        GoesOnFrom s (arriveHeld (readPredicate counted c t desc).1 c t k.id [BitVec.ofNat 32 (statusWord 0x07 0 0)] 0) t s'
          (curNext s)) ∧
      (∀ pred, w.fail = none → (readPredicate counted c t desc).2 = some pred →
        let k' := (readPredicate counted c t desc).1
        let j : CopyJob :=
          { id := k'.id, num := num, ctx := ctx, block := t.block, launch := serialOf k c t, tslot := t.tslot, lane := t.lane,
            src := base, srcSpace := x.sp, cap := BitVec.ofNat 64 base, d0 := d 0, d1 := d 1, d2 := d 2, d3 := d 3,
            held := some k.id, srcR := w.srcR, dstR := w.dstR, fail := none, pred := pred, pc := BitVec.ofNat 64 (curPc s),
            orphan := false, silent := false, paid := 0, row := blk.baseRow }
        ∃ s', exec (.copy x) s = .next s' ∧
          GoesOnFrom s (modCore { k' with id := k'.id + 1 } c fun core =>
            { core with copies := core.copies ++ [j], wc := core.wc.map fun e =>
                if e.writers.contains (threadName t) ||
                    (x.sp == .ob && e.ctx == ctx && (e.obj == capObj base || decide (2 ≤ desc.mode)))
                then { e with draining := true } else e }) t s' (curNext s) ∧
          (desc.mode ≠ 3 → pred = 0) ∧ ∀ a, seeByte s'.kern a = seeByte s.kern a)) ∧
    (∀ w, checkCopy k c t blk x.sp base desc = .ok w →
      copyRoom (coreOf k c) (w.srcR.length + w.dstR.length) = false ∨ copyWaits (coreOf k c) s.cur.entry = true →
      ∃ s', exec (.copy x) s = .next s' ∧
        WaitsIn s (modThis k c t fun u =>
          { u with wait := .copy x base (BitVec.ofNat 64 base) (d 0) (d 1) (d 2) (d 3) }) t s') ∧
    (∀ cause fault l h, checkCopy k c t blk x.sp base desc = .error (cause, fault) →
      TakesTraps s t l h → ∃ s', exec (.copy x) s = .next s' ∧
        TrapsTo s s' t h (pairtOf s.kern c l (curPc s)) cause 0 (curPc s) fault)

/-- R196 to R198: TLRD answers the value of a timeline, and TLRD.issued the number last issued on it; TLWAIT goes on where the value
has been reached, having invalidated the line cache, and waits elsewhere. A timeline that the launch does not bind raises rights.
TLRD.issued of a copy queue whose header another device holds asks that device for WRX (R392), the answer being on its way to D,
which is the model's choice (log entry 114). -/
def Claims.Timelines : Prop :=
  (∀ (x : SForm) s t l i, x.a = .tl i → boundTimeline s.kern s.cur.core t i.val = some l → ExecutesAlone s (.tlrd x) t = true →
    ∃ s', exec (.tlrd x) s = .next s' ∧ Completes s s' (.tlrd x) t
      (.values (place .n64 (timelineValue s.kern s.cur.core (ctxOf s.kern s.cur.core t) l i.val))) t (curNext s)) ∧
  (∀ (x : SForm) s t l i, x.a = .tl i → boundTimeline s.kern s.cur.core t i.val = some l → recTlKind l i.val = 2 →
    remoteObj s.kern (ctxOf s.kern s.cur.core t) (recTlCap l i.val) = true → ExecutesAlone s (.tlrdIssued x) t = true →
    let k := beforeBody s (.tlrdIssued x) t
    let ctx := ctxOf k s.cur.core t
    let cap := recTlCap l i.val
    let h := holdResult k s.cur.core t (destination s (.tlrdIssued x) t) [] 0 0
    ∃ s', exec (.tlrdIssued x) s = .next s' ∧ GoesOnFrom s (sendReq h.2 s.cur.core t
      { id := k.id + 1, tslot := t.tslot, lane := t.lane, ctx := ctx, kind := .load, ty := .n64, acq := false, rel := false,
        sc := .dev, na := true, cap := BitVec.ofNat 64 cap, ea := capOff cap + 8, size := 8, data := 0, cmp := 0, held := some k.id,
        pc := BitVec.ofNat 64 (curPc s), remote := (getObj k ctx (capObj cap)).map (·.hdev), sent := false, block := t.block,
        after := t.fence, cell := cellKey k s.cur.core t, serial := serialOf k s.cur.core t, firm := false, paid := false }) t s'
      (curNext s)) ∧
  (∀ (x : SForm) s t l i, x.a = .tl i → boundTimeline s.kern s.cur.core t i.val = some l →
    recTlKind l i.val ≠ 2 ∨ (remoteObj s.kern (ctxOf s.kern s.cur.core t) (recTlCap l i.val) = false ∧
      ∃ rs, objRuns s.kern (ctxOf s.kern s.cur.core t) (capObj (recTlCap l i.val)) (capOff (recTlCap l i.val) + 8) 8 = .ok rs) →
    ExecutesAlone s (.tlrdIssued x) t = true → ∃ s', exec (.tlrdIssued x) s = .next s' ∧ Completes s s' (.tlrdIssued x) t
      (.values (place .n64 (timelineIssued s.kern s.cur.core (ctxOf s.kern s.cur.core t) l i.val))) t (curNext s)) ∧
  (∀ (x : SForm) s t l i, x.d = .tl i → boundTimeline s.kern s.cur.core t i.val = some l → ExecutesAlone s (.tlwait x) t = true →
    let k := beforeBody s (.tlwait x) t
    let n := readPair s.kern s.cur.core t x.a
    (n ≤ timelineValue k s.cur.core (ctxOf k s.cur.core t) l i.val → ∃ s', exec (.tlwait x) s = .next s' ∧
      GoesOnFrom s (dropLines k s.cur.core) t s' (curNext s)) ∧
    (timelineValue k s.cur.core (ctxOf k s.cur.core t) l i.val < n → ∃ s', exec (.tlwait x) s = .next s' ∧
      WaitsIn s (modThis k s.cur.core t fun u => { u with wait := .tlwait i.val (BitVec.ofNat 64 n) (tlScope x) }) t s')) ∧
  (∀ (x : SForm) s t i l h m, (m = .tlrd x ∧ x.a = .tl i) ∨ (m = .tlrdIssued x ∧ x.a = .tl i) ∨ (m = .tlwait x ∧ x.d = .tl i) →
    boundTimeline s.kern s.cur.core t i.val = none → ExecutesAlone s m t = true → TakesTraps s t l h →
    ∃ s', exec m s = .next s' ∧ TrapsTo s s' t h (pairtOf s.kern s.cur.core l (curPc s)) 0x05 0 (curPc s) 0)

/-- R186, R188, R153, R371, R392: COPYQ adds one to WRX of its queue, answers the number of the slot it has claimed, and leaves the
image of the scratchpad to be written there; the queue is known from then on (R190), the claim takes its tokens, and the core's own
copy of the header's line goes. A header with a reserved bit set, or with LOG2CAP above 16, raises rights with the queue as the
fault word, and nothing is claimed. The claim of a slot of a queue that another device holds is a request to that device, with the
image as its data, whose answer goes to D: that the claim is one request is the model's choice (log entry 114), and so is when its
tokens are taken (log entry 123). -/
def Claims.QueuedCopies : Prop :=
  ∀ (x : MForm) s t blk im q hr ir, ExecutesAlone s (.copyq x) t = true →
    let c := s.cur.core
    let k := beforeBody s (.copyq x) t
    let ctx := ctxOf k c t
    blockOf k c t.block = some blk → imageSpot s k t x = .ok im →
    spotOf s.kern c t x false 64 64 (needWrite + needAtomic) = .ok q →
    spotRuns k c blk q 64 = .ok hr → spotRuns k c blk im 64 = .ok ir →
    (∀ hb ib, remoteSpot k ctx q = false → readRuns k ctx (classOf k c t) hr = (k, .ok hb) → badHeader hb = false →
      readRuns k ctx (classOf k c t) ir = (k, .ok ib) →
      let w := fieldOf hb 8 8
      let k' := dropLine (registerQueue (putBytes (takeTokens k c ctx 8) (addrAt hr 8) (bytesOfNat 8 (w + 1))) ctx
        (capForm q.cap q.ea)) c ctx (capObj q.cap) (q.ea / 64)
      let j : CopyqJob :=
        { id := k'.id, ctx := ctx, queue := BitVec.ofNat 64 (capForm q.cap q.ea), w := BitVec.ofNat 64 w, cap := fieldOf hb 16 4,
          image := ib }
      ∃ s', exec (.copyq x) s = .next s' ∧
        GoesOnFrom s (writeRegs (modCore { k' with id := k'.id + 1 } c fun core =>
          { core with copyqs := core.copyqs ++ [j] }) c t (destination s (.copyq x) t) (place .n64 w)) t s' (curNext s) ∧
        ∀ y ∈ (coreOf s'.kern c).lcache, (y.ctx == ctx && y.obj == capObj q.cap && y.line == q.ea / 64) = false) ∧
    (∀ hb l h, remoteSpot k ctx q = false → readRuns k ctx (classOf k c t) hr = (k, .ok hb) →
      16 < fieldOf hb 16 4 ∨ 2 < fieldOf hb 20 1 ∨ zeroRange hb 21 43 = false → TakesTraps s t l h →
      ∃ s', exec (.copyq x) s = .next s' ∧
        TrapsTo s s' t h (pairtOf s.kern c l (curPc s)) 0x05 0 (curPc s) (capForm q.cap q.ea)) ∧
    (∀ ib, remoteSpot k ctx q = true → readRuns k ctx (classOf k c t) ir = (k, .ok ib) →
      let h := holdResult k c t (destination s (.copyq x) t) [] 0 x.la
      ∃ s', exec (.copyq x) s = .next s' ∧ (∀ b, seeByte s'.kern b = seeByte s.kern b) ∧
        GoesOnFrom s (sendReq h.2 c t { requestOf s h.2 t x { spot := q, runs := [] } .claim 64 (natOfBytes ib) 0 (some h.1) with
          ty := .n64 }) t s' (curNext s))

/-- What Copies, Timelines and QueuedCopies say. The clauses that they name as the model's choices rest on log entries 21, 99, 114
and 123. -/
def Obligations.CopyInstructions : Prop := Claims.Copies ∧ Claims.Timelines ∧ Claims.QueuedCopies

/-- R96, R218, R219: QMUL, QCONJ and QNORM under the table that their selector names: the products of the constants that are not
zero, rounded once per component; the conjugate without a flag; the weighted sum of the squares. -/
def Claims.AlgebraInstructions : Prop :=
  ∀ x : RForm,
    Computes (.qmul x) (fun s => algebraEffect s x fun tb t =>
      joinResults x.ty (algMul x.ty x.rm tb x.om (compNums s t x.ty x.a tb.comps) (compNums s t x.ty x.b tb.comps))) ∧
    Computes (.qconj x) (fun s => algebraEffect s x fun tb t => .values (conjRaws x.ty tb (compRaws s t x.ty x.a tb.comps))) ∧
    Computes (.qnorm x) (fun s => algebraEffect s x fun tb t =>
      .float x.ty (algNorm x.ty x.rm tb (compNums s t x.ty x.a tb.comps)))

/-- R200, R201, R306: an entry-once write to a place in the scratchpad writes its bytes there, and changes no other byte of
memory. -/
def Claims.PlaceWrites : Prop :=
  ∀ s k t place bs blk p k', blockOf k s.cur.core t.block = some blk →
    placeSpot k s.cur.core blk place bs.length 64 needWrite = .ok p → p.space = .sp →
    writePlace s k t place bs = (k', .next) → Memory.wf k.mem = true →
    let a := rowBase s.cur.core blk.baseRow + p.ea
    (∀ n, n < bs.length → seeByte k' (a + n) = bs.getD n 0) ∧ ∀ b, b < a ∨ a + bs.length ≤ b → seeByte k' b = seeByte k b

/-- R204, R215: what JIG.st and ACCST write is what JIG.ld and ACCLD read: the image of an accumulator holds its tile, its version
and its flags, and the image of a valid jig its descriptor, its base and its position. -/
def Claims.UnitImages : Prop :=
  (∀ a : Acc, (accImage a).length = 32832 ∧ (accOfImage (accImage a)).version = a.version ∧
    (accOfImage (accImage a)).flags = a.flags ∧
    ∀ m n, m < 64 → n < 128 → tileAt (accOfImage (accImage a)).tile m n = tileAt a.tile m n) ∧
  ∀ j : Jig, (jigImage j).length = 64 ∧ fieldOf (jigImage j) 56 1 = (if j.valid then 1 else 0) ∧
    (j.valid = true → j.desc.length = 40 → (jigImage j).take 40 = j.desc ∧ fieldOf (jigImage j) 40 8 = j.base.toNat ∧
      fieldOf (jigImage j) 48 4 = j.i2.toNat ∧ fieldOf (jigImage j) 52 4 = j.i3.toNat)

/-- What AlgebraInstructions, PlaceWrites and UnitImages say. -/
def Obligations.AlgebraAndPlaces : Prop := Claims.AlgebraInstructions ∧ Claims.PlaceWrites ∧ Claims.UnitImages

/-- R200, R203, R204: JIG validates the descriptor at its place and the whole map, and sets the jig to the first tile; JIG.st writes
the jig's image to its place; JIG.ld sets the jig from an image, whose flag 0 only makes it invalid. A bad descriptor raises illegal
instruction with the place, and a bad map the cause of the access. What the read of a place leaves (tokens taken, R371; lines of the
line cache dropped, R324) is the state that the effect starts from. -/
def Claims.Jigs : Prop :=
  let sets := fun (s : State) (k : Kern) (m : Instr) (t : Thread) (x : XForm) (f : Jig → Jig) =>
    ∃ s', exec m s = .next s' ∧ GoesOnFrom s (modJig k s.cur.core t.block x.jg.val f) t s' (curNext s)
  let reads := fun (s : State) (k : Kern) (m : Instr) (t : Thread) (place : Nat) (d : List Byte) =>
    readPlace s (beforeBody s m t) t place 64 = (k, .ok d)
  let traps := fun (s : State) (k : Kern) (m : Instr) (t : Thread) (cause fault : Nat) =>
    ∀ l h, TakesTraps s t l h → getThread k s.cur.core t.tslot t.lane = some t → ∃ s', exec m s = .next s' ∧
      TrapsTo { s with kern := k } s' t h (pairtOf s.kern s.cur.core l (curPc s)) cause 0 (curPc s) fault
  (∀ (x : XForm) s k t d blk l, ExecutesAlone s (.jig x) t = true →
    let base := readPair s.kern s.cur.core t x.d
    let at_ := readPair s.kern s.cur.core t x.a
    reads s k (.jig x) t at_ d → blockOf k s.cur.core t.block = some blk → threadLaunch k s.cur.core t = some l →
    (∀ p, descValid l d = true → checkMap k s.cur.core blk l d base = .ok p →
      sets s k (.jig x) t x fun _ => { desc := d.take 40, base := BitVec.ofNat 64 base, i2 := 0, i3 := 0, valid := true }) ∧
    (descValid l d = false → traps s k (.jig x) t 0x01 at_) ∧
    (∀ e, descValid l d = true → checkMap k s.cur.core blk l d base = .error e → traps s k (.jig x) t e.1 e.2)) ∧
  (∀ (x : XForm) s t blk k', ExecutesAlone s (.jigSt x) t = true →
    let k := beforeBody s (.jigSt x) t
    blockOf k s.cur.core t.block = some blk →
    writePlace s k t (readPair s.kern s.cur.core t x.d) (jigImage (jigOf blk x.jg.val)) = (k', .next) →
    ∃ s', exec (.jigSt x) s = .next s' ∧ GoesOnFrom s k' t s' (curNext s)) ∧
  (∀ (x : XForm) s k t b blk l, ExecutesAlone s (.jigLd x) t = true →
    let at_ := readPair s.kern s.cur.core t x.d
    let d := b.take 40 ++ List.replicate 24 0
    reads s k (.jigLd x) t at_ b → blockOf k s.cur.core t.block = some blk → threadLaunch k s.cur.core t = some l →
    (fieldOf b 56 1 = 0 → zeroRange b 57 7 = true → sets s k (.jigLd x) t x fun j => { j with valid := false }) ∧
    (∀ p, fieldOf b 56 1 = 1 → zeroRange b 57 7 = true → descValid l d = true → fieldOf b 48 4 < extentOf d 2 →
      fieldOf b 52 4 < extentOf d 3 → checkMap k s.cur.core blk l d (fieldOf b 40 8) = .ok p →
      sets s k (.jigLd x) t x fun _ =>
        { desc := b.take 40, base := BitVec.ofNat 64 (fieldOf b 40 8), i2 := BitVec.ofNat 32 (fieldOf b 48 4),
          i3 := BitVec.ofNat 32 (fieldOf b 52 4), valid := true }) ∧
    (1 < fieldOf b 56 1 ∨ zeroRange b 57 7 = false ∨
        (fieldOf b 56 1 = 1 ∧ (descValid l d = false ∨ extentOf d 2 ≤ fieldOf b 48 4 ∨ extentOf d 3 ≤ fieldOf b 52 4)) →
      traps s k (.jigLd x) t 0x01 at_))

/-- R200, R206 to R208: BEDLD makes its macros busy, holds its destination, if it has one, and enters the bed queue; BEDCLR clears
its macros. A shape that cannot be raises illegal instruction; macros that the block was not allotted, and a grain that is no
object, raise rights. What a macro beyond those that the shape fills becomes, and the order of the checks, are as log entries 32 and
102 choose. -/
def Claims.BedInstructions : Prop :=
  let traps := fun (s : State) (m : Instr) (t : Thread) (cause : Nat) =>
    ∀ l h, TakesTraps s t l h → ∃ s', exec m s = .next s' ∧
      TrapsTo s s' t h (pairtOf s.kern s.cur.core l (curPc s)) cause 0 (curPc s) 0
  (∀ (x : XForm) s t l m, m ∈ [Instr.bedldGrain x, .bedld x] → s.cur.mode = .single → canIssue s m = true → actors s = [t] →
    guardTrue t x.g = true → threadLaunch s.kern s.cur.core t = some l → shapeIllegal l (recFs l x.fsi.val) (x.bdn.val + 1) = true →
    traps s m t 0x01) ∧
  (∀ (x : XForm) (grain : Bool) m s t blk l, m = (if grain then Instr.bedldGrain x else .bedld x) → ExecutesAlone s m t = true →
    let c := s.cur.core
    let k := beforeBody s m t
    let slot := recFs l x.fsi.val
    let u := x.bdn.val + 1
    let src := readPair s.kern c t x.d
    blockOf k c t.block = some blk → threadLaunch k c t = some l →
    (shapeIllegal l slot u = false → bedAllotted blk x = false ∨ (grain = true ∧ src / 2 ^ 40 = 0) → traps s m t 0x05) ∧
    (∀ p, shapeIllegal l slot u = false → bedAllotted blk x = true → (grain = true → src / 2 ^ 40 ≠ 0) →
      placeSpot k c blk src (if grain then 4 else streamBytes slot (shapeOf l slot u))
        (if grain then 4 else elementBytes (fsFmt slot)) needRead = .ok p →
      let busy := modBeds k c t.block x.bdb.val u fun _ b => { b with load := .busy }
      let h := holdResult busy c t (destination s m t) [] 0 x.la
      let at_ := if destination s m t = [] then (none, busy) else (some h.1, h.2)
      let j : BedJob :=
        { id := at_.2.id, ctx := blk.ctx, block := t.block, bdb := x.bdb.val, bdn := x.bdn.val, fsi := x.fsi.val, grain := grain,
          src := BitVec.ofNat 64 src, tslot := t.tslot, lane := t.lane, held := at_.1, pc := BitVec.ofNat 64 (curPc s), paid := 0 }
      ∃ s', exec m s = .next s' ∧
        GoesOnFrom s (modCore { at_.2 with id := at_.2.id + 1 } c fun core => { core with bedJobs := core.bedJobs ++ [j] }) t s'
          (curNext s) ∧
        (coreOf s'.kern c).bedJobs = (coreOf k c).bedJobs ++ [j] ∧
        (∃ blk', blockOf s'.kern c t.block = some blk' ∧
          ∀ i, i < blk.beds.length → bedOf blk' i =
            if x.bdb.val ≤ i ∧ i < x.bdb.val + u then { bedOf blk i with load := .busy } else bedOf blk i) ∧
        (destination s m t ≠ [] → ∃ v y, getThread s'.kern c t.tslot t.lane = some v ∧ y ∈ v.held ∧ y.regs = destination s m t ∧
          y.window = x.la.toNat ∧ y.arrived = false ∧ j.held = some y.id) ∧
        ∀ a, seeByte s'.kern a = seeByte s.kern a)) ∧
  ∀ (x : XForm) s t blk, ExecutesAlone s (.bedclr x) t = true → blockOf (beforeBody s (.bedclr x) t) s.cur.core t.block = some blk →
    (bedAllotted blk x = true → ∃ s', exec (.bedclr x) s = .next s' ∧
      GoesOnFrom s (modBeds (beforeBody s (.bedclr x) t) s.cur.core t.block x.bdb.val (x.bdn.val + 1) fun _ _ => .clear) t s'
        (curNext s)) ∧
    (bedAllotted blk x = false → traps s (.bedclr x) t 0x05)

/-- R209, R214 to R217: ACCZ clears an accumulator and adds one to its version; ACCLD and ACCST move its image; ACCMOV delivers
elements of the thread's row, ACCVER the version; ACCST, ACCMOV and ACCVER absorb the flags, the .now forms of ACCST and ACCVER
do not. An accumulator that the block was not allotted raises rights. That the flags of ACCMOV are those at its issue is the model's
choice (log entry 103). -/
def Claims.AccumulatorInstructions : Prop :=
  ∀ (x : XForm) s t blk m, ExecutesAlone s m t = true →
    let c := s.cur.core
    let k := beforeBody s m t
    let acc := accOf blk x.acc.val
    let at_ := readPair s.kern c t x.d
    blockOf k c t.block = some blk →
    (accAllotted blk x = true →
      (m = .accz x → ∃ s', exec m s = .next s' ∧
        GoesOnFrom s (modAcc k c t.block x.acc.val fun a => { tile := [], version := a.version + 1, flags := 0 }) t s'
          (curNext s)) ∧
      (∀ k' b, m = .accld x → readPlace s k t at_ 32832 = (k', .ok b) → fieldOf b 32770 1 < 32 → zeroRange b 32771 61 = true →
        ∃ s', exec m s = .next s' ∧
          GoesOnFrom s (modAcc k' c t.block x.acc.val fun _ => accOfImage b) t s' (curNext s)) ∧
      (∀ k' b l h, m = .accld x → readPlace s k t at_ 32832 = (k', .ok b) → 32 ≤ fieldOf b 32770 1 ∨ zeroRange b 32771 61 = false →
        TakesTraps s t l h → getThread k' c t.tslot t.lane = some t → ∃ s', exec m s = .next s' ∧
          TrapsTo { s with kern := k' } s' t h (pairtOf s.kern c l (curPc s)) 0x01 0 (curPc s) at_) ∧
      (∀ k', writePlace s k t at_ (accImage acc) = (k', .next) →
        (m = .accst x → ∃ s', exec m s = .next s' ∧ GoesOnFrom s (joinFlags k' c t (accFlags s.kern c t x)) t s' (curNext s)) ∧
        (m = .accstNow x → ∃ s', exec m s = .next s' ∧ GoesOnFrom s k' t s' (curNext s))) ∧
      (∀ n, m = .accmov n x → srcCount s t x.a + movCount n ≤ 128 → ∃ s', exec m s = .next s' ∧
        let vals := (List.range (movCount n)).map fun j => tileAt acc.tile t.lane (srcCount s t x.a + j)
        GoesOnFrom s (holdResult k c t (destination s m t) vals acc.flags x.la).2 t s' (curNext s) ∧
        ∃ v y, getThread s'.kern c t.tslot t.lane = some v ∧ y ∈ v.held ∧ y.regs = destination s m t ∧ y.vals = vals ∧
          y.flags = acc.flags ∧ y.window = x.la.toNat ∧ y.arrived = false) ∧
      (∀ n l h, m = .accmov n x → 128 < srcCount s t x.a + movCount n → TakesTraps s t l h → ∃ s', exec m s = .next s' ∧
        TrapsTo s s' t h (pairtOf s.kern c l (curPc s)) 0x04 0 (curPc s) 0) ∧
      (m = .accver x ∨ m = .accverNow x → ∃ s', exec m s = .next s' ∧
        Completes s s' m t { Effect.values [acc.version.setWidth 32] with flags := if m = .accver x then acc.flags else 0 } t
          (curNext s))) ∧
    (∀ l h, accAllotted blk x = false → TakesTraps s t l h →
      (m ∈ [Instr.accz x, .accld x, .accst x, .accstNow x, .accver x, .accverNow x] ∨ ∃ n, m = .accmov n x) →
      ∃ s', exec m s = .next s' ∧ TrapsTo s s' t h (pairtOf s.kern c l (curPc s)) 0x05 0 (curPc s) 0)

/-- What Jigs, BedInstructions and AccumulatorInstructions say. The clauses that they name as the model's choices rest on log
entries 32, 102 and 103. -/
def Obligations.MatrixUnits : Prop := Claims.Jigs ∧ Claims.BedInstructions ∧ Claims.AccumulatorInstructions

/-- R200, R205, R208, R210, R211: an MX without a peg launches: it takes the jig's tile, which goes on to the next, enters the
matrix queue, and holds its threads until it commits. A member that passes an MX with a peg gives its pass up; the first that passes
the closed signature launches the tile, and its peg returns to none; each member that passes goes on where no launch of the peg is
uncommitted, and elsewhere holds until it commits. A member without a pass, or before the launch can be made, waits. None of them
changes an accumulator or a byte of memory yet. What the tag of a busy macro raises is the model's choice (log entry 32). -/
def Obligations.MatrixLaunches : Prop :=
  ∀ (x : XForm) (set : Bool) m s t blk l, m = (if set then Instr.mxSet x else .mx x) → ExecutesAlone s m t = true →
    let c := s.cur.core
    let k := beforeBody s m t
    let pc := BitVec.ofNat 64 (curPc s)
    let launch := fun (k : Kern) (n : Nat) =>
      let j := jigOf blk x.jg.val
      modCore (modJig { k with id := n + 1 } c t.block x.jg.val advanceJig) c fun core =>
        { core with mxq := core.mxq ++ [{ id := n, ctx := blk.ctx, block := t.block, x := x, set := set, i2 := j.i2, i3 := j.i3,
                                          tslot := t.tslot, lane := t.lane, pc := pc, paid := 0 }] }
    blockOf k c t.block = some blk → threadLaunch k c t = some l →
    (∀ e h, mxTrap blk l x = some e → e.1 < 256 → e.2 < 16 → TakesTraps s t l h → ∃ s', exec m s = .next s' ∧
      TrapsTo s s' t h (pairtOf s.kern c l (curPc s)) e.1 e.2 (curPc s) 0) ∧
    (mxTrap blk l x = none → x.pge = false → ∃ s', exec m s = .next s' ∧
      WaitsIn s (modThis (launch k k.id) c t fun u => { u with wait := .mxHeld k.id }) t s') ∧
    (mxTrap blk l x = none → x.pge = true → t.tstate = false →
      (pegOf blk x.pg.val).first ≤ t.group → t.group < (pegOf blk x.pg.val).first + (pegOf blk x.pg.val).count →
      let p := pegOf blk x.pg.val
      let id := memberId blk t
      let k := markIssued k c s.cur.entry
      let v : BitVec 16 := if x.vsrc then BitVec.ofNat 16 (readLow s.kern c t x.a) else x.ver
      let given := modPeg k c t.block x.pg.val fun p => { p with pass := p.pass.filter (· != id) }
      let canLaunch := (accOf blk x.acc.val).version = v ∧ accBusy (coreOf k c) t.block x.acc.val = false ∧
        bedBusy blk x = false ∧ (coreOf k c).mxq.length < 8
      let goesOn := fun (k' : Kern) =>
        (∀ n, lastUncommitted k' c t.block x.pg.val = some n → ∃ s', exec m s = .next s' ∧
          WaitsIn s (modThis k' c t fun u => { u with wait := .mxHeld n }) t s') ∧
        (lastUncommitted k' c t.block x.pg.val = none → ∃ s', exec m s = .next s' ∧ GoesOnFrom s k' t s' (curNext s))
      (id ∈ p.pass → p.episode ≠ .signClosed → goesOn given) ∧
      (id ∈ p.pass → p.episode = .signClosed → canLaunch →
        goesOn (pegToNone (modPeg (launch given given.id) c t.block x.pg.val fun p => { p with lastMx := some given.id }) c
          t.block x.pg.val)) ∧
      ((id ∉ p.pass ∧ p.episode ≠ .meetOpen) ∨ (id ∈ p.pass ∧ p.episode = .signClosed ∧ ¬ canLaunch) →
        ∃ s', exec m s = .next s' ∧ WaitsIn s (modThis k c t fun u => { u with wait := .mx x set v }) t s'))

/-- R245, R247: EVWAIT goes on at once where an event of its mask stands or its limit is zero, and answers RATIOEV; elsewhere it
waits. -/
def Claims.EventWaits : Prop :=
  ∀ (x : SForm) s t, ExecutesAlone s (.evwait x) t = true →
    let k := beforeBody s (.evwait x) t
    let ev := ratioEvents s s.cur.core t
    let limit := if x.a = Opnd.none then none else some (srcCount s t x.a)
    ((∃ i, i < 3 ∧ ev.testBit i = true ∧ x.imm.toNat.testBit i = true) ∨ limit = some 0 → ∃ s', exec (.evwait x) s = .next s' ∧
      Completes s s' (.evwait x) t (.values [BitVec.ofNat 32 ev]) t (curNext s)) ∧
    ((∀ i, ev.testBit i = true → x.imm.toNat.testBit i = false) → limit ≠ some 0 → ∃ s', exec (.evwait x) s = .next s' ∧
      WaitsIn s (modThis k s.cur.core t fun u =>
        { u with wait := .evwait (x.imm.setWidth 32) limit (coreOf k s.cur.core).cycle
                           (destination s (.evwait x) t) }) t s')

/-- R248 to R250, R276: GROW gives every thread of its group n more registers, which are zero, and answers true; it answers false
past 248, waits for slices, those of its columns whose threads have exited having come back (R277), and traps where the group is
split. SHRINK returns n registers; it raises illegal instruction for an n that is no multiple of 8 or would leave fewer than 8. -/
def Claims.RegisterGrowth : Prop :=
  (∀ (x : SForm) s t q b, ExecutesAlone s (.grow x) t = true → x.d = .pred b q →
    let c := s.cur.core
    let k := beforeBody s (.grow x) t
    let n := x.imm.toNat
    let regs := regsOf k c t
    (splitScalar (coreOf k c) s.cur.entry t = false → 248 < regs + n → ∃ s', exec (.grow x) s = .next s' ∧
      Completes s s' (.grow x) t { Effect.values [] with preds := [(q.val, false)] } t (curNext s)) ∧
    (splitScalar (coreOf k c) s.cur.entry t = false → regs + n ≤ 248 →
      let k₀ := returnColumns k c t.block t.group fun _ => true
      growWaits (coreOf k c) = true ∨ (coreOf k₀ c).slices < growNeed (coreOf k c) t.block t.group n →
      ∃ s', exec (.grow x) s = .next s' ∧
        WaitsIn s (modThis { k₀ with id := k₀.id + 1 } c t fun u => { u with wait := .grow n x.d k₀.id }) t s') ∧
    (splitScalar (coreOf k c) s.cur.entry t = false → regs + n ≤ 248 → growWaits (coreOf k c) = false →
      let k₀ := returnColumns k c t.block t.group fun _ => true
      growNeed (coreOf k c) t.block t.group n ≤ (coreOf k₀ c).slices →
      ∃ s', exec (.grow x) s = .next s' ∧
        GoesOnFrom s (writePred (grantGrow k₀ c t.block t.group n) c t q.val true) t s' (curNext s) ∧
        regsOf s'.kern c t = (if (groupOf k c t).isSome then regs + n else regs) ∧
        ∀ u ∈ groupThreads (coreOf k c) t.block t.group, getThread k c u.tslot u.lane = some u → u ≠ t →
          ∀ i, seeReg s'.kern c u (.v i) = if regs ≤ i ∧ i < regs + n then 0 else seeReg s.kern c u (.v i)) ∧
    (∀ l h, splitScalar (coreOf k c) s.cur.entry t = true → TakesTraps s t l h → ∃ s', exec (.grow x) s = .next s' ∧
      TrapsTo s s' t h (pairtOf s.kern c l (curPc s)) 0x0A 0 (curPc s) 0)) ∧
  ∀ (x : SForm) s t, ExecutesAlone s (.shrink x) t = true →
    let c := s.cur.core
    let k := beforeBody s (.shrink x) t
    let n := x.imm.toNat
    (n % 8 = 0 → n + 8 ≤ regsOf s.kern c t → splitScalar (coreOf s.kern c) s.cur.entry t = false →
      ∃ s', exec (.shrink x) s = .next s' ∧ GoesOnFrom s (shrinkGroup k c t.block t.group n) t s' (curNext s) ∧
        (groupOf k c t).isSome = true ∧ regsOf s'.kern c t = regsOf s.kern c t - n) ∧
    (∀ l h, n % 8 ≠ 0 ∨ regsOf s.kern c t < n + 8 → TakesTraps s t l h → ∃ s', exec (.shrink x) s = .next s' ∧
      TrapsTo s s' t h (pairtOf s.kern c l (curPc s)) 0x01 0 (curPc s) 0) ∧
    (∀ l h, n % 8 = 0 → n + 8 ≤ regsOf s.kern c t → splitScalar (coreOf s.kern c) s.cur.entry t = true → TakesTraps s t l h →
      ∃ s', exec (.shrink x) s = .next s' ∧ TrapsTo s s' t h (pairtOf s.kern c l (curPc s)) 0x0A 0 (curPc s) 0)

/-- R251: ILINV drops the line of the thread's code object at its operand from the instruction buffer, and its copy from the line
cache; ILINV.all drops every line of the core's buffer, and the lines of the code object from the line cache. Other lines stay,
and no byte of memory changes. -/
def Claims.InstructionLines : Prop :=
  ∀ (x : SForm) (all : Bool) s t m l, m = (if all then Instr.ilinvAll x else .ilinv x) → ExecutesAlone s m t = true →
    threadLaunch s.kern s.cur.core t = some l →
    let c := s.cur.core
    let k := beforeBody s m t
    let n := pcLine (readPair s.kern c t x.a)
    let code := fun (ctx obj : Nat) => ctx == l.ctx && obj == capObj (recCode l)
    ∃ s', exec m s = .next s' ∧
      GoesOnFrom s (modCore k c fun core =>
        { core with lines := core.lines.filter fun y => !(all || (code y.ctx y.obj && y.line == n)),
                    lcache := core.lcache.filter fun y => !(code y.ctx y.obj && (all || 64 * y.line == n)) }) t s' (curNext s) ∧
      (all = true → (coreOf s'.kern c).lines = []) ∧
      (all = false → ∀ y, y ∈ (coreOf s'.kern c).lines ↔ y ∈ (coreOf k c).lines ∧
        ¬(y.ctx = l.ctx ∧ y.obj = capObj (recCode l) ∧ y.line = n)) ∧
      (∀ y, y ∈ (coreOf s'.kern c).lcache ↔ y ∈ (coreOf k c).lcache ∧
        ¬(y.ctx = l.ctx ∧ y.obj = capObj (recCode l) ∧ (all = true ∨ 64 * y.line = n))) ∧
      ∀ a, seeByte s'.kern a = seeByte s.kern a

/-- R252, R371: SAMPLE.on takes its tokens and starts the core's sampler with its period for a buffer whose header is sound, and
SAMPLE.off stops it where the context of the thread owns it. A sampler of another context, and a bad buffer, raise rights. That
SAMPLE.off by another context does nothing is the model's choice (log entry 35). -/
def Claims.Sampling : Prop :=
  (∀ (x : SForm) s t, ExecutesAlone s (.sampleOn x) t = true →
    let c := s.cur.core
    let k := beforeBody s (.sampleOn x) t
    let ctx := ctxOf k c t
    let cap := readPair s.kern c t x.a
    let sm := (coreOf k c).sampler
    let paid := takeTokens k c ctx 64
    (∀ ea rs h, sm.running = false ∨ sm.ctx = ctx → checkObj k ctx cap (capOff cap) 64 64 needWrite = .ok ea →
      objRuns k ctx (capObj cap) ea 64 = .ok rs → readRuns paid ctx (classOf k c t) rs = (paid, .ok h) → goodBuffer h = true →
      ∃ s', exec (.sampleOn x) s = .next s' ∧ GoesOnFrom s (modCore paid c fun core =>
        { core with sampler := { running := true, ctx := ctx, buf := BitVec.ofNat 64 cap, e := x.imm.toNat,
                                 last := if sm.running then sm.last else 255, lastCycle := core.cycle } }) t s' (curNext s)) ∧
    (∀ l h, (sm.running = true ∧ sm.ctx ≠ ctx) ∨ (∃ e, checkObj k ctx cap (capOff cap) 64 64 needWrite = .error e) →
      TakesTraps s t l h →
      ∃ s', exec (.sampleOn x) s = .next s' ∧ TrapsTo s s' t h (pairtOf s.kern c l (curPc s)) 0x05 0 (curPc s) 0) ∧
    (∀ l h ea rs b, sm.running = false ∨ sm.ctx = ctx → checkObj k ctx cap (capOff cap) 64 64 needWrite = .ok ea →
      objRuns k ctx (capObj cap) ea 64 = .ok rs → readRuns paid ctx (classOf k c t) rs = (paid, .ok b) → goodBuffer b = false →
      TakesTraps s t l h → ∃ s', exec (.sampleOn x) s = .next s' ∧
        TrapsTo { s with kern := paid } s' t h (pairtOf s.kern c l (curPc s)) 0x05 0 (curPc s) 0)) ∧
  ∀ (x : SForm) s t, ExecutesAlone s (.sampleOff x) t = true →
    let c := s.cur.core
    let k := beforeBody s (.sampleOff x) t
    (ctxOf k c t = (coreOf k c).sampler.ctx → ∃ s', exec (.sampleOff x) s = .next s' ∧
      GoesOnFrom s (modCore k c fun core => { core with sampler := { core.sampler with running := false } }) t s' (curNext s)) ∧
    (ctxOf k c t ≠ (coreOf k c).sampler.ctx → ∃ s', exec (.sampleOff x) s = .next s' ∧ GoesOnFrom s k t s' (curNext s))

/-- What EventWaits, RegisterGrowth, InstructionLines and Sampling say. The clauses that they name as the model's choices rest on
log entry 35. -/
def Obligations.WaitsLinesAndSampling : Prop := Claims.EventWaits ∧ Claims.RegisterGrowth ∧ Claims.InstructionLines ∧ Claims.Sampling

/-- R9, R15, R56, R141: the line that an entry wants is that of its program counter, or of a branch target that its instruction must
check and the buffer does not hold. A line that is fetched stands in the instruction buffer as memory has it, and the other lines of
the buffer stay; a line whose frame is not placed waits for service. That such a line waits as a unit (R441 lists none of fetches;
log entry 43), and that a line which the buffer holds may be fetched anew (log entry 42), are the model's choices. -/
def Claims.LineFetches : Prop :=
  ∀ s c e x l, mget (coreOf s.kern c).entries e = some x → mget s.kern.launches x.launch = some l →
    let line := wantedLine s.kern c e x l
    let obj := capObj (recCode l)
    (bufferedLine (coreOf s.kern c) l.ctx obj (pcLine x.pc.toNat) = none → line = pcLine x.pc.toNat) ∧
    (lineInside s.kern l line = true →
    (∀ bits, readLine s.kern l line = some bits → ∃ s', exec (.lineFetchComplete c e) s = .next s' ∧ OnlyKern s s' ∧
      bufferedLine (coreOf s'.kern c) l.ctx obj line = some bits ∧
      (∀ ctx o n, ¬(ctx = l.ctx ∧ o = obj ∧ n = line) →
        bufferedLine (coreOf s'.kern c) ctx o n = bufferedLine (coreOf s.kern c) ctx o n) ∧
      (∀ d, d ≠ c → coreOf s'.kern d = coreOf s.kern d) ∧ ∀ a, seeByte s'.kern a = seeByte s.kern a) ∧
    (∀ f, readLine s.kern l line = none → objRuns s.kern l.ctx obj line 64 = .error f →
      ∃ s' w, exec (.lineFetchComplete c e) s = .next s' ∧ OnlyKern s s' ∧ s'.kern.cores = s.kern.cores ∧ w ∈ s'.kern.units ∧
        isUnit .fetch c e w = true ∧ w.ctx = l.ctx ∧ w.faddr = BitVec.ofNat 64 (capForm (recCode l) f.1) ∧ w.sub = f.2))

/-- R41, R42: a result that comes goes to its registers where no window holds it back, and is kept until its window has run out
elsewhere. -/
def Claims.ResultArrivals : Prop :=
  ∀ s c t h, getThread s.kern c t.tslot t.lane = some t → h ∈ t.held → selfArrives (coreOf s.kern c) h = true →
    h.regs.Nodup → (∀ g ∈ t.held, g = h ∨ (g.id ≠ h.id ∧ g.due = false)) →
    ∃ s' u, exec (.resultArrival c t.tslot t.lane h.id) s = .next s' ∧ OnlyKern s s' ∧
      getThread s'.kern c t.tslot t.lane = some u ∧ (∀ a, seeByte s'.kern a = seeByte s.kern a) ∧
      (∀ a b, ¬(a = t.tslot ∧ b = t.lane) → getThread s'.kern c a b = getThread s.kern c a b) ∧
      (h.window = 0 → u.held = t.held.filter (fun g => g.id != h.id) ∧
        (∀ p ∈ h.regs.zip h.vals, (∀ n, p.1 ≠ .s n) → seeReg s'.kern c t p.1 = p.2) ∧
        (∀ r, r ∉ h.regs → (∀ n, r ≠ .s n) → seeReg s'.kern c t r = seeReg s.kern c t r) ∧
        u.regs.fflags = t.regs.fflags ||| h.flags) ∧
      (h.window ≠ 0 → u = { t with held := t.held.map fun g => if g.id == h.id then { g with arrived := true } else g })

/-- R252 to R255, R277, R303, R314: the object cache holds an entry that is filled, and at most 64; the banks of a core without a
block or a region may be gated, and wake; a column of a group whose threads have all exited returns its slices; a tick of the
sampler writes a record and remembers the entry, and a buffer that fails stops it. -/
def Claims.CoreHousekeeping : Prop :=
  (∀ s c ctx obj, (getObj s.kern ctx obj).isSome = true → ∃ s', exec (.objectCacheMissFill c ctx obj) s = .next s' ∧
    OnlyKern s s' ∧ OnlyCore s.kern s'.kern c ∧ (ctx, obj) ∈ (coreOf s'.kern c).ocache ∧ (coreOf s'.kern c).ocache.length ≤ 64 ∧
    coreOf s'.kern c = { coreOf s.kern c with ocache := (coreOf s'.kern c).ocache }) ∧
  (∀ s c, (coreOf s.kern c).blocks = [] → (coreOf s.kern c).xr = [] → ∃ s', exec (.scratchpadBankGating c) s = .next s' ∧
    OnlyKern s s' ∧ OnlyCore s.kern s'.kern c ∧
    coreOf s'.kern c = { coreOf s.kern c with banksGated := true, banksWaking := false }) ∧
  (∀ s c, (coreOf s.kern c).blocks ≠ [] ∨ (coreOf s.kern c).xr ≠ [] → exec (.scratchpadBankGating c) s = .next s) ∧
  (∀ s c, ∃ s', exec (.bankWakeComplete c) s = .next s' ∧ OnlyKern s s' ∧ OnlyCore s.kern s'.kern c ∧
    coreOf s'.kern c = { coreOf s.kern c with banksWaking := false }) ∧
  (∀ s c b g j blk x, blockOf s.kern c b = some blk → blk.groups[g]? = some x → x.cols.count j = 1 →
    (∀ t ∈ (coreOf s.kern c).threads, t.block = b → t.group = g → t.glane / 8 = j → t.loc = .exited) →
    ∃ s', exec (.sliceReturn c b g j) s = .next s' ∧ OnlyKern s s' ∧ OnlyCore s.kern s'.kern c ∧
      (coreOf s'.kern c).slices = (coreOf s.kern c).slices + (x.regs / 8 + 1) ∧
      (blockOf s'.kern c b).bind (fun blk => blk.groups[g]?) = some { x with cols := x.cols.filter (· != j) }) ∧
  ∀ s c, let sm := (coreOf s.kern c).sampler
    sm.running = true → sm.lastCycle + 2 ^ sm.e ≤ (coreOf s.kern c).cycle →
    (∀ e y k, nextSampled s.kern c { sm with lastCycle := sm.lastCycle + 2 ^ sm.e } = some (e, y) →
      writeSample s.kern sm.ctx sm.buf.toNat (sampleRecord s c e y) = some k →
      ∃ s', exec (.samplerTick c) s = .next s' ∧ OnlyKern s s' ∧
        (coreOf s'.kern c).sampler = { sm with lastCycle := sm.lastCycle + 2 ^ sm.e, last := e } ∧
        ∀ a, seeByte s'.kern a = seeByte k a) ∧
    (∀ e y, nextSampled s.kern c { sm with lastCycle := sm.lastCycle + 2 ^ sm.e } = some (e, y) →
      writeSample s.kern sm.ctx sm.buf.toNat (sampleRecord s c e y) = none →
      ∃ s', exec (.samplerTick c) s = .next s' ∧ OnlyKern s s' ∧ (coreOf s'.kern c).sampler.running = false ∧
        ∀ a, seeByte s'.kern a = seeByte s.kern a)

/-- What LineFetches, ResultArrivals and CoreHousekeeping say. The clauses that they name as the model's choices rest on log entries
42 and 43. -/
def Obligations.CoreEvents : Prop := Claims.LineFetches ∧ Claims.ResultArrivals ∧ Claims.CoreHousekeeping

/-- R41, R148, R197, R229, R235, R238, R247, R265: a wait ends where what it waits for has come, and the thread goes on: an EVWAIT
sleeper has written RATIOEV, a TLWAIT has invalidated the line cache, a BARARR has arrived, a trap that waited for results is taken,
and the sleepers of a YIELD leave together when their cycles have passed, in their entry or pending. The waits of one kind that end
in one cycle end together. A thread with an asynchronous trap to take takes it where its wait can be withdrawn and no access of it
can still trap, and an exhausted budget goes first. How a request that can still trap holds its thread's later instructions is the
model's choice (log entry 39), and so is that an evicted sleeper of YIELD sleeps on in the pending list (113). -/
def Claims.EndsOfWaits : Prop :=
  (∀ s c t, getThread s.kern c t.tslot t.lane = some t → evWakes s c t = true →
    let ts := (coreOf s.kern c).threads.filter fun u => evWakes s c u
    ∃ s', exec (.waitEnd c t.tslot t.lane) s = .next s' ∧ OnlyKern s s' ∧
      Resumes c (ts.foldl (writeWake s c) s.kern) s'.kern ts) ∧
  (∀ s c t l tl n scope, getThread s.kern c t.tslot t.lane = some t → t.wait = .tlwait tl n scope →
    threadLaunch s.kern c t = some l → n.toNat ≤ timelineValue s.kern c (ctxOf s.kern c t) l tl →
    t ∈ (coreOf s.kern c).threads →
    ∃ s' ts, exec (.waitEnd c t.tslot t.lane) s = .next s' ∧ OnlyKern s s' ∧ (coreOf s'.kern c).lcache = [] ∧
      (∀ u, u ∈ ts ↔ u ∈ (coreOf s.kern c).threads ∧ ∃ i m sc y, u.wait = .tlwait i m sc ∧ threadLaunch s.kern c u = some y ∧
        m.toNat ≤ timelineValue s.kern c (ctxOf s.kern c u) y i) ∧
      Resumes c (dropLines s.kern c) s'.kern ts) ∧
  (∀ s c t b blk, getThread s.kern c t.tslot t.lane = some t → t.wait = .barArrive b →
    blockOf s.kern c t.block = some blk → arrivedIn (barOf blk b).gen (mget (barOf blk b).arr (memberId blk t)) = false →
    let ts := (blockThreads (coreOf s.kern c) t.block).filter fun u => u.wait == .barArrive b &&
      !arrivedIn (barOf blk b).gen (mget (barOf blk b).arr (memberId blk u))
    ∃ s', exec (.waitEnd c t.tslot t.lane) s = .next s' ∧ OnlyKern s s' ∧
      Resumes c (modBar s.kern c t.block b fun y =>
        ts.foldl (fun y u => { y with arr := mset y.arr (memberId blk u) (.inGen (barOf blk b).gen) }) y) s'.kern ts) ∧
  (∀ s c t cause sub pc fault async l h, getThread s.kern c t.tslot t.lane = some t → t ∈ (coreOf s.kern c).threads →
    t.wait = .trapping cause sub pc fault async → Handles s.kern c t l h → cause < 256 → sub < 16 →
    (∀ u ∈ (coreOf s.kern c).threads, u ≠ t → trapDue s.kern c u = none) →
    ∃ s', exec (.waitEnd c t.tslot t.lane) s = .next s' ∧ OnlyKern s s' ∧
      TrapsAt s.kern s'.kern c t l h cause sub async pc.toNat fault.toNat) ∧
  (∀ s c t cause sub pc fault async l h, getThread s.kern c t.tslot t.lane = some t → t ∈ (coreOf s.kern c).threads →
    t.wait = .trapping cause sub pc fault async → Handles s.kern c t l h → cause < 256 → sub < 16 →
    (∀ u ∈ (coreOf s.kern c).threads, trapDue s.kern c u ≠ none → ∃ l' h', Handles s.kern c u l' h') →
    (∀ u ∈ (coreOf s.kern c).threads, u.tslot = t.tslot → u.lane = t.lane → u = t) →
    ∃ s', exec (.waitEnd c t.tslot t.lane) s = .next s' ∧ OnlyKern s s' ∧
      Recorded s'.kern c t (pairtOf s.kern c l pc.toNat) cause sub async pc.toNat fault.toNat ∧ StandsAt s'.kern c t h ∧
      Within c (fun a b => (coreOf s.kern c).threads.any fun u => u.tslot == a && u.lane == b && (trapDue s.kern c u).isSome) s.kern s'.kern) ∧
  (∀ s c t n till, getThread s.kern c t.tslot t.lane = some t → t.wait = .yielding till → t.loc = .pending n →
    let ts := (coreOf s.kern c).threads.filter fun u =>
      match u.wait, u.loc with | .yielding e, .pending _ => decide (e ≤ (coreOf s.kern c).cycle) | _, _ => false
    (till ≤ (coreOf s.kern c).cycle → ∃ s', exec (.waitEnd c t.tslot t.lane) s = .next s' ∧ OnlyKern s s' ∧
      Resumes c s.kern s'.kern ts) ∧
    ((coreOf s.kern c).cycle < till → exec (.waitEnd c t.tslot t.lane) s = .next s)) ∧
  (∀ s c e x n, mget (coreOf s.kern c).entries e = some x → x.sleep = some n → n ≤ (coreOf s.kern c).cycle →
    ∃ s', exec (.yieldCyclesEnd c e) s = .next s' ∧ OnlyKern s s' ∧
      Resumes c s.kern s'.kern ((entryThreads (coreOf s.kern c) e).filter fun t => t.wait == .yielding n)) ∧
  ∀ s c t l h, Handles s.kern c t l h → t.asyncBudget = true ∨ t.asyncPreempt = true →
    (getCtx s.kern (ctxOf s.kern c t)).state ≠ .stopped →
    (∀ q ∈ (coreOf s.kern c).reqs, q.tslot = t.tslot → q.lane = t.lane → q.firm = true) →
    (∃ e, t.loc = .entry e) ∨ (∃ n, t.loc = .pending n) → t.wait = .none →
    ∃ s', exec (.asyncTrapDelivery c t.tslot t.lane) s = .next s' ∧ OnlyKern s s' ∧
      TrapsAt s.kern s'.kern c t l h (if t.asyncBudget then 0x0F else 0x10) 0 true t.pc.toNat 0 ∧
      ∃ u, getThread s'.kern c t.tslot t.lane = some u ∧ u.asyncBudget = false ∧
        u.asyncPreempt = (t.asyncPreempt && t.asyncBudget) ∧ u.pre = (t.pre || !t.asyncBudget)

/-- R177, R184, R248, R249, R268, R269: COPY_ACCEPT accepts the copy of a waiting thread once it has room, in the order of its
lanes; the GROW that began to wait first is granted where its slices are free, and in a deadlock of all groups those of the youngest
block answer false; the earliest ready unit of the pending list takes a free entry; after 64 cycles without one, an entry is evicted
for it. That a sleeper of YIELD in the pending list is not ready (log entry 113), and that a request which can still trap keeps an
entry from being ready (39), are the model's choices. -/
def Claims.QueuesOfThreads : Prop :=
  (∀ s c t x base cap d0 d1 d2 d3 blk w, t ∈ (coreOf s.kern c).threads → t.wait = .copy x base cap d0 d1 d2 d3 →
    (copyWaiters (coreOf s.kern c)).head? = some t → blockOf s.kern c t.block = some blk →
    checkCopy s.kern c t blk x.sp base (descOf d0 d1 d2 d3) = .ok w →
    copyRoom (coreOf s.kern c) (w.srcR.length + w.dstR.length) = true → ∃ s', exec (.copyAccept c) s = .next s' ∧ OnlyKern s s' ∧
      Resumes c (acceptCopy s.kern c t x base [d0, d1, d2, d3] t.pc w) s'.kern [t]) ∧
  (∀ s c seq t ts n d, minBy (fun n => n) ((coreOf s.kern c).threads.filterMap growSeq) = some seq →
    (coreOf s.kern c).threads.filter (fun t => growSeq t == some seq) = t :: ts → t.wait = .grow n d seq →
    let k := returnColumns s.kern c t.block t.group fun _ => true
    growNeed (coreOf k c) t.block t.group n ≤ (coreOf k c).slices → ∃ s', exec (.growGrant c) s = .next s' ∧ OnlyKern s s' ∧
      Resumes c ((t :: ts).foldl (fun k u => writePred k c u (growParts u).2 true) (grantGrow k c t.block t.group n)) s'.kern
        (t :: ts)) ∧
  (∀ s c b, growDeadlock (coreOf s.kern c) = true → youngestBlock (coreOf s.kern c) = some b →
    let ts := (coreOf s.kern c).threads.filter fun t => t.block == b && (growSeq t).isSome
    ∃ s', exec (.growDeadlockRule c) s = .next s' ∧ OnlyKern s s' ∧
      Resumes c (ts.foldl (fun k u => writePred k c u (growParts u).2 false) s.kern) s'.kern ts) ∧
  (∀ s c seq rest e, readyUnits (coreOf (tidyPending s.kern c) c) = seq :: rest →
    freeEntry (coreOf s.kern c) = some e → ∃ s', exec (.pendingPlace c) s = .next s' ∧ OnlyKern s s' ∧
      (∀ t ∈ (coreOf s.kern c).threads, t.loc = .pending seq → getThread s.kern c t.tslot t.lane = some t →
        (∀ u ∈ (coreOf s.kern c).threads, u.loc = .pending seq → u.pc = t.pc) →
        ∃ u i, getThread s'.kern c t.tslot t.lane = some u ∧ u.loc = .entry i ∧ u = { t with loc := .entry i, pc := u.pc } ∧
          u.pc.toNat = t.pc.toNat) ∧
      Within c (fun a b => (coreOf s.kern c).threads.any fun t => t.tslot == a && t.lane == b &&
        match t.loc with | .pending _ => true | _ => false) s.kern s'.kern) ∧
  ∀ s c seq rest e, readyUnits (coreOf (tidyPending s.kern c) c) = seq :: rest → freeEntry (coreOf s.kern c) = none →
    (mget (coreOf (tidyPending s.kern c) c).pendSince seq).getD (coreOf s.kern c).cycle + 64 ≤ (coreOf s.kern c).cycle →
    victim s c = some e → ∃ s', exec (.entryEviction c) s = .next s' ∧
      s'.kern = placePending (evict (tidyPending s.kern c) c e) c ∧ OnlyKern s s' ∧ ∀ a, seeByte s'.kern a = seeByte s.kern a

/-- What EndsOfWaits and QueuesOfThreads say. The clauses that they name as the model's choices rest on log entries 39 and 113. -/
def Obligations.WaitEvents : Prop := Claims.EndsOfWaits ∧ Claims.QueuesOfThreads

/-- R144, R145, R147, R211: an open episode closes once every member that has not exited has arrived or is parked. A meeting lets
its threads go on, and orders what every member does from then on after what the members stored; a signature gives a pass to
every member. A parked member that has not arrived is owed the arrival. -/
def Claims.EpisodesClose : Prop :=
  ∀ s c b pg blk, blockOf s.kern c b = some blk →
    let p := pegOf blk pg
    let mine := fun (t : Thread) => t ∈ (coreOf s.kern c).threads ∧ t.block = b ∧ inPeg p t.group = true ∧ t.loc ≠ .exited
    p.episode = .meetOpen ∨ p.episode = .signOpen → (∀ t, mine t → parkedLike t = true ∨ memberId blk t ∈ p.arrived) →
    ∃ s' blk', exec (.pegEpisodeClose c b pg) s = .next s' ∧ OnlyKern s s' ∧ blockOf s'.kern c b = some blk' ∧
      let q := pegOf blk' pg
      q.arrived = [] ∧ q.first = p.first ∧ q.count = p.count ∧ (∀ j, j ≠ pg → pegOf blk' j = pegOf blk j) ∧
      (p.episode = .meetOpen → q.episode = .none ∧ q.pass = p.pass ∧
        (∀ t, mine t → parkedLike t = true → memberId blk t ∉ p.arrived → memberId blk t ∈ q.owedMeet) ∧
        let ms := (blockThreads (coreOf s.kern c) b).filter fun t => live t && inPeg p t.group
        Resumes c (fenceNow (drainAll (modBlock (modPeg s.kern c b pg (closePeg (pegMembers (coreOf s.kern c) b blk p))) c b
            advanceBg) c ms) c ms) s'.kern
          ((blockThreads (coreOf s.kern c) b).filter fun t => t.wait == .meet pg false)) ∧
      (p.episode = .signOpen → q.episode = .signClosed ∧ (∀ t, mine t → memberId blk t ∈ q.pass) ∧
        (∀ t, mine t → parkedLike t = true → memberId blk t ∉ p.arrived → memberId blk t ∈ q.owedSign) ∧
        ∀ a d, getThread s'.kern c a d = getThread s.kern c a d)

/-- R228, R230: a barrier opens once some thread has arrived in its generation and every thread of the block has arrived, exited or
parked: the generation goes on, a parked thread is owed its arrival, and the waiting threads are released, ordered after what the
block has accessed, as is each that passes the barrier later. A wave lets at most
SLOPE groups of the released threads go on, which give up their arrivals. -/
def Claims.BarriersOpen : Prop :=
  (∀ s c b x blk t, blockOf s.kern c b = some blk → x < blk.bars.length →
    let y := barOf blk x
    let mine := fun (u : Thread) => u ∈ (coreOf s.kern c).threads ∧ u.block = b
    let arrived := fun (u : Thread) => arrivedIn y.gen (mget y.arr (memberId blk u)) = true
    mine t → arrived t → (∀ u, mine u → u.loc = .exited ∨ parkedLike u = true ∨ arrived u) →
    ∃ s' blk', exec (.barrierOpen c b x) s = .next s' ∧ OnlyKern s s' ∧ blockOf s'.kern c b = some blk' ∧
      (barOf blk' x).gen = y.gen + 1 ∧ (∀ j, j ≠ x → barOf blk' j = barOf blk j) ∧
      (∀ u, mine u → parkedLike u = true → ¬arrived u → mget (barOf blk' x).arr (memberId blk u) = some .owed) ∧
      (∀ u, getThread s.kern c u.tslot u.lane = some u → mine u → waitsAt x u = true → ∃ v,
        getThread s'.kern c u.tslot u.lane = some v ∧ v.wait = .released x ∧ v.pc = u.pc ∧ v.loc = u.loc ∧
        v.fence = s.kern.id) ∧
      (barOf blk' x).order = s.kern.id ∧
      ∀ a, seeByte s'.kern a = seeByte s.kern a) ∧
  ∀ s c b x blk, blockOf s.kern c b = some blk → x < blk.bars.length →
    let ts := (blockThreads (coreOf s.kern c) b).filter fun t => t.wait == .released x
    let gs := waveGroups ts blk.groups.length (barOf blk x).next (coreBay s c).slope
    let out := ts.filter fun t => gs.contains t.group
    ∃ s' blk', exec (.barrierReleaseWave c b x) s = .next s' ∧ OnlyKern s s' ∧ blockOf s'.kern c b = some blk' ∧
      gs.length ≤ (coreBay s c).slope ∧ (∀ g ∈ gs, ∃ t ∈ ts, t.group = g) ∧
      (∀ t ∈ out, mget (barOf blk' x).arr (memberId blk t) = none) ∧
      Resumes c (modBar s.kern c b x fun y =>
        { out.foldl (fun y t => setArr (memberId blk t) none y) y with
          next := match gs.getLast? with | some g => (g + 1) % max 1 blk.groups.length | none => y.next }) s'.kern out

/-- What EpisodesClose and BarriersOpen say. -/
def Obligations.SyncEvents : Prop := Claims.EpisodesClose ∧ Claims.BarriersOpen

/-- R205, R207, R211 to R213: an MX that waits launches, or is passed, once its thread may pass it; the oldest launched MX of a core
runs on its tile, once its feed has its tokens (R371), and commits its accumulator, and the threads held at it go on; a feed that
fails abandons it, and its threads trap there. A bed load that is done leaves its macros and its status word, and one without all
its tokens takes those that there are: the order in which tokens are collected, and that a transfer takes those there are, are the
model's choices (log entries 20 and 105). -/
def Obligations.MatrixEvents : Prop :=
  let waitsAlone := fun (s : State) (c : Nat) (t : Thread) =>
    ((coreOf s.kern c).threads.filter fun u => u.block == t.block && match u.wait with | .mx _ _ _ => true | _ => false) = [t]
  (∀ s c t x set v blk l n k', getThread s.kern c t.tslot t.lane = some t → t.wait = .mx x set v → waitsAlone s c t →
    blockOf s.kern c t.block = some blk → threadLaunch s.kern c t = some l → mxTrap blk l x = none →
    mayPass s.kern c t x v = true → passMx s.kern c t x set t.pc = (k', some n) →
    ∃ s', exec (.mxLaunch c t.tslot t.lane) s = .next s' ∧ OnlyKern s s' ∧
      s'.kern = sweepEntries (modThis k' c t fun u => { u with wait := .mxHeld n }) c) ∧
  (∀ s c t x set v blk l k', getThread s.kern c t.tslot t.lane = some t → t.wait = .mx x set v → waitsAlone s c t →
    blockOf s.kern c t.block = some blk → threadLaunch s.kern c t = some l → mxTrap blk l x = none →
    mayPass s.kern c t x v = true → passMx s.kern c t x set t.pc = (k', none) →
    ∃ s', exec (.mxLaunch c t.tslot t.lane) s = .next s' ∧ OnlyKern s s' ∧ Resumes c k' s'.kern [t]) ∧
  (∀ s c m ms k₀ acc, (coreOf s.kern c).mxq = m :: ms → feedReady s.kern c m = true → (feedMx s.kern c m).2 = .ok acc →
    payFeed s.kern c m = (k₀, false) → exec (.mxCommit c) s = .next { s with kern := k₀ }) ∧
  (∀ s c m ms k₀ k acc blk, (coreOf s.kern c).mxq = m :: ms → feedReady s.kern c m = true → (feedMx s.kern c m).2 = .ok acc →
    payFeed s.kern c m = (k₀, true) → (feedMx k₀ c m).1 = k →
    blockOf k c m.block = some blk → m.x.acc.val < blk.accs.length →
    ∃ s' blk', exec (.mxCommit c) s = .next s' ∧ OnlyKern s s' ∧ blockOf s'.kern c m.block = some blk' ∧
      accOf blk' m.x.acc.val = acc ∧ (∀ i, i ≠ m.x.acc.val → accOf blk' i = accOf blk i) ∧
      (coreOf s'.kern c).mxq = (coreOf k c).mxq.filter (fun j => j.id != m.id) ∧
      (∀ t ∈ heldAt (coreOf k c) m.id, getThread k c t.tslot t.lane = some t →
        (∀ u ∈ heldAt (coreOf k c) m.id, u.tslot = t.tslot → u.lane = t.lane → u = t) →
        ∃ u, getThread s'.kern c t.tslot t.lane = some u ∧ u.wait = .none ∧ u.pc = BitVec.ofNat 64 (nextPc k c t)) ∧
      ∀ a, seeByte s'.kern a = seeByte k a) ∧
  (∀ s c m ms k faddr sub, (coreOf s.kern c).mxq = m :: ms → feedReady s.kern c m = true →
    feedMx s.kern c m = (k, .error (.wait faddr sub)) → ∃ s' w, exec (.mxCommit c) s = .next s' ∧ OnlyKern s s' ∧
      s'.kern.cores = s.kern.cores ∧ w ∈ s'.kern.units ∧ isUnit .feed c m.id w = true ∧ w.faddr = BitVec.ofNat 64 faddr ∧
      w.sub = sub) ∧
  (∀ s c m ms k cause sub fault t l h, (coreOf s.kern c).mxq = m :: ms → feedReady s.kern c m = true →
    feedMx s.kern c m = (k, .error (.trap cause sub fault)) → cause < 256 → sub < 16 → heldAt (coreOf k c) m.id = [t] →
    Handles k c t l h → ∃ s' u, exec (.feedReadFault c) s = .next s' ∧ OnlyKern s s' ∧
      (coreOf s'.kern c).mxq = (coreOf k c).mxq.filter (fun j => j.id != m.id) ∧
      Recorded s'.kern c t (pairtOf k c l t.pc.toNat) cause sub false t.pc.toNat fault ∧ StandsAt s'.kern c t h ∧
      getThread s'.kern c t.tslot t.lane = some u ∧ u.tstate = true ∧ u.wait = .none ∧
      ∀ a, seeByte s'.kern a = seeByte k a) ∧
  ∀ s c j blk l k bs, (coreOf s.kern c).bedJobs.find? (fun y => y.id == j.id) = some j → bedReadyToRun (coreOf s.kern c) j = true →
    blockOf s.kern c j.block = some blk → launchOf s.kern blk = some l → j.grain = false →
    plainStream { s.kern with spent := 0 } c (recClass l) blk j (streamBytes (recFs l j.fsi) (shapeOf l (recFs l j.fsi) (j.bdn + 1)))
      (elementBytes (fsFmt (recFs l j.fsi))) = (k, .ok bs) →
    let loads := fun (k : Kern) => ∃ s', exec (.bedldComplete c j.id) s = .next s' ∧ OnlyKern s s' ∧
      s'.kern = retireBed (loadBeds { k with spent := 0 } c j.block j.bdb (j.bdn + 1) (recFs l j.fsi)
        (shapeOf l (recFs l j.fsi) (j.bdn + 1)) bs) c j 0 ∧ Arrives k s'.kern c j.tslot j.lane j.held [0] ∧
      (∀ y ∈ (coreOf s'.kern c).bedJobs, y.id ≠ j.id) ∧ ∀ a, seeByte s'.kern a = seeByte k a
    (k.spent ≤ j.paid → loads k) ∧
    ∀ b, mget (coreOf s.kern c).buckets j.ctx = some b → j.paid < k.spent →
      let free := if b.owed = 0 then b.tokens else 0
      (k.spent - j.paid ≤ free → loads (modCore k c fun core =>
        { core with
          buckets := mset (coreOf s.kern c).buckets j.ctx { b with tokens := b.tokens - (k.spent - j.paid), active := true } })) ∧
      (free < k.spent - j.paid → ∃ s', exec (.bedldComplete c j.id) s = .next s' ∧ OnlyKern s s' ∧
        (coreOf s'.kern c).bedJobs = ((coreOf s.kern c).bedJobs.map fun y =>
          if y.id == j.id then { y with paid := j.paid + free } else y) ∧ ∀ a, seeByte s'.kern a = seeByte s.kern a)

/-- R152 to R158, R161, R371: a request of a local object is performed once nothing that comes before it is outstanding and its
tokens are paid, by itself or now from its bucket: a load answers the line cache's copy or the bytes of memory, a store writes its
bytes and no others, an atomic writes the new value of its operation and answers the old one, and CAS writes only where it finds its
compare value. The answer goes to the registers of the request's held result, inside its window or after it. -/
def Claims.LocalAnswers : Prop :=
  ∀ s c q, (coreOf s.kern c).reqs.find? (fun y => y.id == q.id) = some q → q.remote = none → PortLets s.kern c q →
    let gone := fun (s' : State) => ∀ y ∈ (coreOf s'.kern c).reqs, y.id ≠ q.id
    let answers := fun (s' : State) (bs : List Byte) =>
      Arrives s.kern s'.kern c q.tslot q.lane q.held (answerWords q.ty q.size bs)
    (∀ line rs, q.kind = .load → (q.acq && wideScope q.sc) = false → reqRuns s.kern q = .ok rs →
      ((getObj s.kern q.ctx (capObj q.cap.toNat)).map (·.home)) = some .hbm →
      cachedLine (coreOf s.kern c) q.ctx (capObj q.cap.toNat) (q.ea / 64) = some line →
      ∃ s', exec (.accessReply c q.id) s = .next s' ∧ OnlyKern s s' ∧ gone s' ∧
        answers s' (((bytesOfNat 64 line.toNat).drop (q.ea % 64)).take q.size) ∧
        ∀ a, seeByte s'.kern a = seeByte s.kern a) ∧
    (∀ rs, q.kind = .load → q.na = true ∨ (coreOf s.kern c).waysWaking = none → reqRuns s.kern q = .ok rs → poisonHits s.kern rs = [] → softHits s.kern rs = 0 →
      (q.acq && wideScope q.sc) = true ∨
        cachedLine (coreOf s.kern c) q.ctx (capObj q.cap.toNat) (q.ea / 64) = none →
      ∃ s', exec (.accessReply c q.id) s = .next s' ∧ OnlyKern s s' ∧ gone s' ∧ answers s' (getRuns s.kern rs) ∧
        ∀ a, seeByte s'.kern a = seeByte s.kern a) ∧
    (∀ a, q.kind = .store → reqRuns s.kern q = .ok [(a, q.size)] → MemoryOk s →
      ∃ s', exec (.accessReply c q.id) s = .next s' ∧ OnlyKern s s' ∧ gone s' ∧
        getNat s'.kern a q.size = q.data % 256 ^ q.size ∧
        ∀ d, d < a ∨ a + q.size ≤ d → seeByte s'.kern d = seeByte s.kern d) ∧
    (∀ a old new, q.kind = .cas ∨ (∃ op, q.kind = .atom op) → reqRuns s.kern q = .ok [(a, q.size)] → MemoryOk s →
      poisonHits s.kern [(a, q.size)] = [] → softHits s.kern [(a, q.size)] = 0 → old = getNat s.kern a q.size →
      new = (match q.kind with
        | .atom op => newValue op q.ty old q.data
        | _ => if old = q.cmp then q.data else old) →
      ∃ s', exec (.accessReply c q.id) s = .next s' ∧ OnlyKern s s' ∧ gone s' ∧ answers s' (bytesOfNat q.size old) ∧
        getNat s'.kern a q.size = new % 256 ^ q.size ∧
        ∀ d, d < a ∨ a + q.size ≤ d → seeByte s'.kern d = seeByte s.kern d)

/-- R152, R272, R273, R425, R429: a local load or atomic that meets an error. In a P or D kernel poison traps its thread at its
instruction, with cause 0x11 for a margin error in P and 0x07 otherwise, and no result is held for it; in an N kernel the bytes of
the poisoned units read as ones and the launch's context counts them. The errors met are charged to the context. An access whose
frame is not placed parks its thread at its instruction, with a record of the address, and its issue counts in no window. That a
poison met by a request whose check has passed strikes later is the model's choice (log entry 39). -/
def Claims.LocalStops : Prop :=
  ∀ s c q, (coreOf s.kern c).reqs.find? (fun y => y.id == q.id) = some q → q.remote = none → PortLets s.kern c q →
    (∀ rs p ps t l h, reqRuns s.kern q = .ok rs → poisonHits s.kern rs = p :: ps → serialClass s.kern q.serial ≠ 2 → q.firm = false →
      (q.kind = .load ∧ (q.na = true ∨ (coreOf s.kern c).waysWaking = none) ∧ ((q.acq && wideScope q.sc) = true ∨
        cachedLine (coreOf s.kern c) q.ctx (capObj q.cap.toNat) (q.ea / 64) = none)) ∨
        (q.kind = .cas ∧ rs.length = 1) ∨ (∃ op, q.kind = .atom op ∧ rs.length = 1) →
      Bears s.kern q.ctx (poisonCharge (p :: ps) + softHits s.kern rs) →
      Handles (voidReq s.kern c q) c t l h → t.tslot = q.tslot → t.lane = q.lane → t.wait = .none →
      (∃ e, t.loc = .entry e) ∨ (∃ n, t.loc = .pending n) →
      ∃ s', exec (.accessReply c q.id) s = .next s' ∧ OnlyKern s s' ∧ (∀ y ∈ (coreOf s'.kern c).reqs, y.id ≠ q.id) ∧
        Recorded s'.kern c t (pairtOf s.kern c l q.pc.toNat) (poisonCause (serialClass s.kern q.serial) p.2) 0 false q.pc.toNat
          (capForm q.cap.toNat (q.ea + p.1)) ∧ StandsAt s'.kern c t h ∧
        (getCtx s'.kern q.ctx).ebudget = (getCtx s.kern q.ctx).ebudget - (poisonCharge (p :: ps) + softHits s.kern rs) ∧
        ∀ a, seeByte s'.kern a = seeByte s.kern a) ∧
    (∀ rs, q.kind = .load → reqRuns s.kern q = .ok rs → serialClass s.kern q.serial = 2 →
      q.na = true ∨ (coreOf s.kern c).waysWaking = none →
      (q.acq && wideScope q.sc) = true ∨ cachedLine (coreOf s.kern c) q.ctx (capObj q.cap.toNat) (q.ea / 64) = none →
      Bears s.kern q.ctx (poisonCharge (poisonHits s.kern rs) + softHits s.kern rs) →
      ∃ s', exec (.accessReply c q.id) s = .next s' ∧ OnlyKern s s' ∧ (∀ y ∈ (coreOf s'.kern c).reqs, y.id ≠ q.id) ∧
        Arrives s.kern s'.kern c q.tslot q.lane q.held (answerWords q.ty q.size (rs.flatMap fun r => (List.range r.2).map fun i =>
          if (poisonAt s.kern (r.1 + i)).isSome then 0xFF else seeByte s.kern (r.1 + i))) ∧
        (getCtx s'.kern q.ctx).ebudget =
          (getCtx s.kern q.ctx).ebudget - (poisonCharge (poisonHits s.kern rs) + softHits s.kern rs) ∧
        (getCtx s'.kern q.ctx).poisons = (getCtx s.kern q.ctx).poisons + (poisonHits s.kern rs).length ∧
        ∀ a, seeByte s'.kern a = seeByte s.kern a) ∧
    ∀ e t, reqRuns s.kern q = .error e → q.na = true ∨ (coreOf s.kern c).waysWaking = none →
      getThread s.kern c q.tslot q.lane = some t → recordRoom (coreOf s.kern c) 1 = true →
      ∃ s' u r, exec (.accessReply c q.id) s = .next s' ∧ OnlyKern s s' ∧ (∀ y ∈ (coreOf s'.kern c).reqs, y.id ≠ q.id) ∧
        getThread s'.kern c q.tslot q.lane = some u ∧
        u = { t with loc := .parked, pc := q.pc, wait := .none, latch := none,
                     held := (t.held.filter fun h => some h.id != q.held).map fun h =>
                       if 0 < h.window then { h with window := h.window + 1 } else h } ∧
        (coreOf s'.kern c).parks = (coreOf s.kern c).parks ++ [r] ∧ r.pc = q.pc ∧ r.faddr = BitVec.ofNat 64 e.1 ∧ r.sub = e.2 ∧
        r.tslot = q.tslot ∧ r.lane = q.lane ∧ ∀ a, seeByte s'.kern a = seeByte s.kern a

/-- R425, R426: a charge takes its units from the context's error budget. Where it takes the last of an armed budget, every live
thread of the context is owed the asynchronous trap once, the budget is no longer armed, and the launches of the context count as
spent; where a launch of the context has no handler and a thread of it is on a core, the context stops. -/
def Claims.Charges : Prop :=
  ∀ k ctx units, 0 < units →
    (Bears k ctx units → charge k ctx units = modCtx k ctx fun x => { x with ebudget := x.ebudget - units }) ∧
    ((getCtx k ctx).armed = true → (getCtx k ctx).ebudget ≤ units → lacksHandler k ctx = false →
      getCtx (charge k ctx units) ctx = { getCtx k ctx with ebudget := 0, armed := false } ∧
      (∀ p ∈ (charge k ctx units).launches, p.2.ctx = ctx → p.2.spent = true) ∧
      (∀ c t b, getThread k c t.tslot t.lane = some t → live t = true → blockOf k c t.block = some b → b.ctx = ctx →
        getThread (charge k ctx units) c t.tslot t.lane = some { t with asyncBudget := true }) ∧
      (∀ v ∈ (charge k ctx units).vacated, v.block.ctx = ctx → ∀ t ∈ v.threads, t.asyncBudget = true) ∧
      ∀ a, seeByte (charge k ctx units) a = seeByte k a) ∧
    ((getCtx k ctx).armed = true → (getCtx k ctx).ebudget ≤ units → lacksHandler k ctx = true → (someThread k ctx).isSome = true →
      (getCtx (charge k ctx units) ctx).state = .stopped)

/-- What LocalAnswers, LocalStops and Charges say. The clauses that they name as the model's choices rest on log entry 39. -/
def Obligations.LocalAccesses : Prop := Claims.LocalAnswers ∧ Claims.LocalStops ∧ Claims.Charges

/-- R154, R166, R237, R390 to R393: an entry of the write-combining buffer drains when it has aged, and goes when its home has
answered; a request that comes from another device is performed here and answered once, in the order of its source and lane, or sent
on where its extent has moved (R188, R334, R388, R389); an answer from another device ends its request, parks its thread, or traps
it as remote unsupported or for poison. What the home met is charged to the context of the requester (R425). That a claim is served
as one request at the queue's home is the model's choice (log entry 114), and so is what a remote request that met poison answers
(log entry 50). -/
def Obligations.RemoteTraffic : Prop :=
  (∀ s c n, ∃ s', exec (.wcAgeingExpiry c n) s = .next s' ∧ OnlyKern s s' ∧ OnlyCore s.kern s'.kern c ∧
    (coreOf s'.kern c).wc = (coreOf s.kern c).wc.map fun e =>
      if e.id = n ∧ e.opened + e.limit ≤ s.kern.net then { e with draining := true } else e) ∧
  (∀ s c n p, s.fab.arrived.find? (fun p => drainAnswer c n p.load) = some p →
    ∃ s', exec (.wcDrainPerformed c n) s = .next s' ∧ s' = { s with kern := s'.kern, fab := s'.fab } ∧
      OnlyCore s.kern s'.kern c ∧ (coreOf s'.kern c).wc = (coreOf s.kern c).wc.filter (fun e => e.id != n) ∧
      s'.fab = { s.fab with arrived := s.fab.arrived.filter fun x => x.id != p.id }) ∧
  (∀ s p req c obj ea size kind ty data cmp rel cls ctx rs,
    s.fab.arrived.find? (fun x => x.id == p.id && (x.cls == .request || x.cls == .forward)) = some p → firstArrived s.fab p = true →
    (p.cls = .request → forwardTo s p.load = none) → p.load = .access req c obj ea size kind ty data cmp rel cls →
    homeContext s.kern obj = some ctx → objRuns s.kern ctx obj ea size = .ok rs →
    let hits := poisonHits s.kern rs
    let replies := fun (s' : State) (load : Payload) => ∃ x, s'.fab.packets = s.fab.packets ++ [x] ∧ x.dst = p.src ∧ x.cls = .reply ∧
      x.load = load ∧ ∀ y ∈ s'.fab.arrived, y.id ≠ p.id
    let answers := fun (s' : State) (v : Nat) => replies s' (.reply req c v 0 (softHits s.kern rs))
    (∀ a, kind = .store → rs = [(a, size)] → MemoryOk s → ∃ s', exec (.remoteRequest p.id) s = .next s' ∧
      getNat s'.kern a size = data % 256 ^ size ∧ (∀ d, d < a ∨ a + size ≤ d → seeByte s'.kern d = seeByte s.kern d) ∧
      replies s' (.reply req c 0 0 0)) ∧
    (∀ h hs, hits = h :: hs → kind ≠ .store → cls ≠ 2 → ∃ s', exec (.remoteRequest p.id) s = .next s' ∧
      (∀ d, seeByte s'.kern d = seeByte s.kern d) ∧
      replies s' (.poisoned req c h.2 hits.length (poisonCharge hits + softHits s.kern rs))) ∧
    (kind = .load → cls = 2 → ∃ s', exec (.remoteRequest p.id) s = .next s' ∧ (∀ d, seeByte s'.kern d = seeByte s.kern d) ∧
      replies s' (.reply req c (natOfBytes (rs.flatMap fun r => (List.range r.2).map fun i =>
          if (poisonAt s.kern (r.1 + i)).isSome then 0xFF else seeByte s.kern (r.1 + i))) hits.length
        (poisonCharge hits + softHits s.kern rs))) ∧
    (kind = .load → poisonHits s.kern rs = [] → ∃ s', exec (.remoteRequest p.id) s = .next s' ∧
      (∀ d, seeByte s'.kern d = seeByte s.kern d) ∧ answers s' (natOfBytes (getRuns s.kern rs))) ∧
    (∀ a op, kind = .atom op → rs = [(a, size)] → poisonHits s.kern rs = [] → MemoryOk s → ∃ s', exec (.remoteRequest p.id) s = .next s' ∧
      getNat s'.kern a size = newValue op ty (getNat s.kern a size) data % 256 ^ size ∧
      (∀ d, d < a ∨ a + size ≤ d → seeByte s'.kern d = seeByte s.kern d) ∧ answers s' (getNat s.kern a size)) ∧
    (∀ a, kind = .claim → rs = [(a, 64)] → size = 64 → poisonHits s.kern rs = [] → MemoryOk s →
      ∃ s', exec (.remoteRequest p.id) s = .next s' ∧ answers s' (getNat s.kern a 64) ∧
        (badHeader (getBytes s.kern a 64) = true → ∀ d, seeByte s'.kern d = seeByte s.kern d) ∧
        (badHeader (getBytes s.kern a 64) = false → getNat s'.kern (a + 8) 8 = (getNat s.kern (a + 8) 8 + 1) % 2 ^ 64 ∧
          ∀ d, d < a + 8 ∨ a + 16 ≤ d → seeByte s'.kern d = seeByte s.kern d))) ∧
  (∀ s p d, s.fab.arrived.find? (fun x => x.id == p.id && (x.cls == .request || x.cls == .forward)) = some p →
    firstArrived s.fab p = true → p.cls = .request → forwardTo s p.load = some d →
    ∃ s' x, exec (.remoteRequest p.id) s = .next s' ∧ s'.fab.packets = s.fab.packets ++ [x] ∧ x.dst = d ∧ x.cls = .forward ∧
      x.lane = p.lane ∧ x.load = forwardLoad s.kern.id p.load ∧ s'.fab.forwarded = s.fab.forwarded ++ [(s.kern.id, p)] ∧
      (∀ y ∈ s'.fab.arrived, y.id ≠ p.id) ∧ ∀ b, seeByte s'.kern b = seeByte s.kern b) ∧
  (∀ s p, s.fab.arrived.find? (fun x => x.id == p.id && (x.cls == .request || x.cls == .forward)) = some p →
    firstArrived s.fab p = false → exec (.remoteRequest p.id) s = .next s) ∧
  (∀ s c q dst p v met units, (coreOf s.kern c).reqs.find? (fun y => y.id == q.id) = some q → q.remote = some dst → q.kind = .claim →
    s.fab.arrived.find? (fun p => replyFor c q.id p.load) = some p → p.load = .reply q.id c v met units →
    Bears s.kern q.ctx units → badHeader (bytesOfNat 64 v) = false →
    ∃ s' j, exec (.accessReply c q.id) s = .next s' ∧ (coreOf s'.kern c).copyqs = (coreOf s.kern c).copyqs ++ [j] ∧
      j.ctx = q.ctx ∧ j.queue = BitVec.ofNat 64 (capForm q.cap.toNat q.ea) ∧ j.w = BitVec.ofNat 64 (fieldOf (bytesOfNat 64 v) 8 8) ∧
      j.cap = fieldOf (bytesOfNat 64 v) 16 4 ∧ j.image = bytesOfNat 64 q.data ∧
      Arrives s.kern s'.kern c q.tslot q.lane q.held (answerWords q.ty q.size ((bytesOfNat 64 v).drop 8 |>.take 8)) ∧
      (∀ y ∈ (coreOf s'.kern c).reqs, y.id ≠ q.id) ∧ ∀ d, seeByte s'.kern d = seeByte s.kern d) ∧
  (∀ s c q dst p v met units, (coreOf s.kern c).reqs.find? (fun y => y.id == q.id) = some q → q.remote = some dst → q.kind ≠ .claim →
    s.fab.arrived.find? (fun p => replyFor c q.id p.load) = some p → p.load = .reply q.id c v met units →
    Bears s.kern q.ctx units →
    ∃ s', exec (.accessReply c q.id) s = .next s' ∧ s' = { s with kern := s'.kern, fab := s'.fab } ∧
      Arrives s.kern s'.kern c q.tslot q.lane q.held (answerWords q.ty q.size (bytesOfNat q.size v)) ∧
      (getCtx s'.kern q.ctx).ebudget = (getCtx s.kern q.ctx).ebudget - units ∧
      (getCtx s'.kern q.ctx).poisons = (getCtx s.kern q.ctx).poisons + met ∧
      (∀ y ∈ (coreOf s'.kern c).reqs, y.id ≠ q.id) ∧ (∀ y ∈ s'.fab.arrived, y.id ≠ p.id) ∧
      ((q.acq && wideScope q.sc) = true → (coreOf s'.kern c).lcache = []) ∧ ∀ d, seeByte s'.kern d = seeByte s.kern d) ∧
  (∀ s c q dst p sub t, (coreOf s.kern c).reqs.find? (fun y => y.id == q.id) = some q → q.remote = some dst →
    s.fab.arrived.find? (fun p => replyFor c q.id p.load) = some p → p.load = .notPlaced q.id c sub →
    getThread s.kern c q.tslot q.lane = some t → recordRoom (coreOf s.kern c) 1 = true →
    ∃ s' u r, exec (.accessReply c q.id) s = .next s' ∧ getThread s'.kern c q.tslot q.lane = some u ∧ u.loc = .parked ∧ u.pc = q.pc ∧
      (coreOf s'.kern c).parks = (coreOf s.kern c).parks ++ [r] ∧ r.pc = q.pc ∧
      r.faddr = BitVec.ofNat 64 (capForm q.cap.toNat q.ea) ∧ r.sub = sub ∧ r.tslot = q.tslot ∧ r.lane = q.lane) ∧
  (∀ s c q dst p kind met units t l h, (coreOf s.kern c).reqs.find? (fun y => y.id == q.id) = some q → q.remote = some dst →
    s.fab.arrived.find? (fun p => replyFor c q.id p.load) = some p → p.load = .poisoned q.id c kind met units →
    serialClass s.kern q.serial ≠ 2 → Bears s.kern q.ctx units → Handles (voidReq s.kern c q) c t l h → t.tslot = q.tslot →
    t.lane = q.lane → t.wait = .none → (∃ e, t.loc = .entry e) ∨ (∃ n, t.loc = .pending n) →
    ∃ s', exec (.accessReply c q.id) s = .next s' ∧
      Recorded s'.kern c t (pairtOf s.kern c l q.pc.toNat) (poisonCause (serialClass s.kern q.serial) kind) 0 false q.pc.toNat
        (capForm q.cap.toNat q.ea) ∧ StandsAt s'.kern c t h ∧
      (getCtx s'.kern q.ctx).ebudget = (getCtx s.kern q.ctx).ebudget - units ∧ ∀ y ∈ (coreOf s'.kern c).reqs, y.id ≠ q.id) ∧
  ∀ s c q dst p t l h, (coreOf s.kern c).reqs.find? (fun y => y.id == q.id) = some q → q.remote = some dst →
    s.fab.arrived.find? (fun p => replyFor c q.id p.load) = some p → p.load = .unsupported q.id c →
    Handles (voidReq s.kern c q) c t l h → t.tslot = q.tslot → t.lane = q.lane → t.wait = .none →
    (∃ e, t.loc = .entry e) ∨ (∃ n, t.loc = .pending n) →
    ∃ s', exec (.accessReply c q.id) s = .next s' ∧
      Recorded s'.kern c t (pairtOf s.kern c l q.pc.toNat) 0x0D 0 false q.pc.toNat (unsupportedWord q) ∧ StandsAt s'.kern c t h ∧
      ∀ y ∈ (coreOf s'.kern c).reqs, y.id ≠ q.id

/-- R200, R237, R274, R366, R367, R441: a record or a unit's wait for an object that is not present is handed to the host with
notification 0x80. A service that is complete ends the records of its address, and their threads go on at their instructions;
one that is declined traps its thread with the cause of an access fault. A first touch takes the first frame in
the rule's order for the touching core, and a unit that waited waits no more. -/
def Obligations.Services : Prop :=
  (∀ s c p, (coreOf s.kern c).parks.find? (fun y => y.id == p.id) = some p → p.sub = 0 →
    let mine := (coreOf s.kern c).parks.filter fun q => servedTogether p q && !q.handed
    let handed := fun (q : Park) => if mine.any (fun z => z.id == q.id) then { q with handed := true } else q
    ∃ s', exec (.parkServiceComplete c p.id false) s = .next s' ∧ OnlyKernAndAnswer s s' ∧ OnlyCore s.kern s'.kern c ∧
      s'.fw.responses = s.fw.responses ++ (mine.map fun q =>
        { tag := 0xFFFFFFFF, status := 0x80, detail := p.ctx, value := BitVec.ofNat 64 q.id }) ∧
      coreOf s'.kern c = { coreOf s.kern c with parks := (coreOf s.kern c).parks.map handed }) ∧
  (∀ s c p, (coreOf s.kern c).parks.find? (fun y => y.id == p.id) = some p → p.sub ≠ 0 →
    resolved s.kern p.ctx p.faddr.toNat = true → ∃ s', exec (.parkServiceComplete c p.id false) s = .next s' ∧ OnlyKern s s' ∧
      (∀ y ∈ (coreOf s.kern c).parks, servedTogether p y = true →
        (∀ z ∈ (coreOf s'.kern c).parks, z.id ≠ y.id) ∧
        ∀ t, getThread s.kern c y.tslot y.lane = some t → t.loc = .parked → StandsAt s'.kern c t t.pc.toNat) ∧
      (∀ y ∈ (coreOf s.kern c).parks, (∀ z ∈ (coreOf s.kern c).parks, servedTogether p z = true → z.id ≠ y.id) →
        y ∈ (coreOf s'.kern c).parks) ∧ ∀ a, seeByte s'.kern a = seeByte s.kern a) ∧
  (∀ s c p t l h, (coreOf s.kern c).parks.find? (fun y => y.id == p.id) = some p →
    (coreOf s.kern c).parks.filter (servedTogether p) = [p] → mayDecline s.kern p.ctx p.faddr.toNat p.sub = true → p.sub < 16 →
    t.tslot = p.tslot → t.lane = p.lane → Handles (freeRecord s.kern c p.id) c t l h →
    ∃ s', exec (.parkServiceComplete c p.id true) s = .next s' ∧ OnlyKern s s' ∧
      TrapsAt (freeRecord s.kern c p.id) s'.kern c t l h 0x06 p.sub false p.pc.toNat p.faddr.toNat) ∧
  (∀ s ctx obj ext c e w f, getObj s.kern ctx obj = some e → e.present = true → e.home ≠ .remote →
    ((mget s.kern.extents (e.ext + ext)).getD 0).toNat / 2 ^ 62 = 0 →
    minBy (fun t => t.1) (touches s.kern ctx obj ext e) = some w → w.2 = none ∨ w.2 = some c →
    firstFrame s.kern (e.home == .vault) e.cls c = some f →
    ∃ s', exec (.firstTouchPlacement ctx obj ext c) s = .next s' ∧ OnlyKern s s' ∧
      mget s'.kern.extents (e.ext + ext) =
        some (BitVec.ofNat 64 (2 ^ 62 + (if e.home = .vault then 2 ^ 60 else 0) + f)) ∧
      (∀ x, x ≠ e.ext + ext → mget s'.kern.extents x = mget s.kern.extents x) ∧
      frameBad s.kern (e.home == .vault) e.cls f = false ∧
      (∃ r ∈ touchOrder (e.home == .vault) c, r.1 ≤ f ∧ f < r.1 + r.2 ∧
        ∀ x, r.1 ≤ x → x < f → frameBad s.kern (e.home == .vault) e.cls x = true) ∧
      ∀ a, seeByte s'.kern a = seeByte s.kern a) ∧
  (∀ s w e, s.kern.units.find? (fun y => y.id == w.id) = some w → w.sub = 0 → getObj s.kern w.ctx (capObj w.faddr.toNat) = some e →
    (w.handed = true → exec (.unitAccessService w.id false) s = .next s) ∧
    (w.handed = false → ∃ s', exec (.unitAccessService w.id false) s = .next s' ∧ OnlyKernAndAnswer s s' ∧
      s'.fw.responses = s.fw.responses ++ [{ tag := 0xFFFFFFFF, status := 0x80, detail := w.ctx, value := BitVec.ofNat 64 w.id }] ∧
      s'.kern = { s.kern with units := s.kern.units.map fun y => if y.id = w.id then { y with handed := true } else y })) ∧
  (∀ s w, s.kern.units.find? (fun y => y.id == w.id) = some w → w.sub ≠ 0 → resolved s.kern w.ctx w.faddr.toNat = true →
    ∃ s', exec (.unitAccessService w.id false) s = .next s' ∧ OnlyKern s s' ∧
      s'.kern = { s.kern with units := s.kern.units.filter fun x => x.id != w.id }) ∧
  ∀ s w j, s.kern.units.find? (fun y => y.id == w.id) = some w → w.kind = 2 →
    (coreOf s.kern w.core).bedJobs.find? (fun y => y.id == w.job) = some j → mayDecline s.kern w.ctx w.faddr.toNat w.sub = true →
    ∃ s', exec (.unitAccessService w.id true) s = .next s' ∧ OnlyKern s s' ∧ (∀ y ∈ s'.kern.units, y.id ≠ w.id) ∧
      (∀ y ∈ (coreOf s'.kern w.core).bedJobs, y.id ≠ j.id)

/-- R177 to R183, R369, R371, R385, R392, R393: a copy that may read runs, and retires once its tokens are paid and what it wrote on
another device has been performed there: it leaves the core, and its status word arrives for its register. One that meets a frame
that is not placed waits; one without all its tokens takes those that there are. A plain move brings the bytes of its source, as
they were before it, to its destination, and changes no other byte. That a copy moves its bytes at once, when it retires (log entry
20), and how it asks for lines of other devices and counts their writes (24), are the model's choices. -/
def Obligations.CopyTransfers : Prop :=
  (∀ s c j, (coreOf s.kern c).copies.find? (fun y => y.id == j.id) = some j → copyReady (coreOf s.kern c) j = true →
    let u := jobUnit j.id
    let start := asUnit s.kern u
    let retires := fun (k : Kern) (status : Nat) => ∃ s', exec (.copyRetire c j.id) s = .next s' ∧ OnlyKern s s' ∧
      (∀ y ∈ (coreOf s'.kern c).copies, y.id ≠ j.id) ∧ (∀ x ∈ s'.kern.far, x.owner ≠ u) ∧
      Arrives k s'.kern c j.tslot j.lane j.held [BitVec.ofNat 32 status]
    (∀ st, j.fail = some st → farWrites s.kern u = false → retires s.kern ((writeFailure s.kern u).getD st.toNat)) ∧
    (∀ st, j.fail = some st → farWrites s.kern u = true → exec (.copyRetire c j.id) s = .next s) ∧
    (∀ k status, j.fail = none → runCopy start c j = .done k status →
      (k.spent ≤ j.paid → farWrites k u = false → retires k ((writeFailure k u).getD status)) ∧
      (k.spent ≤ j.paid → farWrites k u = true → ∃ s', exec (.copyRetire c j.id) s = .next s' ∧ OnlyKern s s' ∧
        (coreOf s'.kern c).copies = ((coreOf k c).copies.map fun y =>
          if y.id == j.id then { y with fail := some (BitVec.ofNat 32 status) } else y) ∧ ∀ a, seeByte s'.kern a = seeByte k a) ∧
      ∀ b, mget (coreOf s.kern c).buckets j.ctx = some b → j.paid < k.spent →
        let free := if b.owed = 0 then b.tokens else 0
        (k.spent - j.paid ≤ free → farWrites k u = false → retires k ((writeFailure k u).getD status)) ∧
        (free < k.spent - j.paid → ∃ s', exec (.copyRetire c j.id) s = .next s' ∧ OnlyKern s s' ∧
          (coreOf s'.kern c).copies = ((coreOf s.kern c).copies.map fun y =>
            if y.id == j.id then { y with paid := j.paid + free } else y) ∧ ∀ a, seeByte s'.kern a = seeByte s.kern a)) ∧
    (∀ k d faddr sub, j.fail = none → runCopy start c j = .wait k d faddr sub → ∃ s' w, exec (.copyRetire c j.id) s = .next s' ∧
      OnlyKern s s' ∧ s'.kern.cores = s.kern.cores ∧ w ∈ s'.kern.units ∧ isUnit .copy c j.id w = true ∧
      w.faddr = BitVec.ofNat 64 faddr ∧ w.sub = sub) ∧
    ∀ ctx obj off n, j.fail = none → runCopy start c j = .far ctx obj off n → ∃ s', exec (.copyRetire c j.id) s = .next s' ∧
      OnlyKern s s' ∧ s'.kern.cores = s.kern.cores ∧ (∀ a, seeByte s'.kern a = seeByte s.kern a) ∧
      ∀ e line, getObj s.kern ctx obj = some e → line ∈ linesIn off n →
        ∃ x ∈ s'.kern.far, x.owner = u ∧ x.ctx = ctx ∧ x.obj = obj ∧ x.line = line ∧ x.put = none) ∧
  ∀ k ctx src dst so doff n a d, Memory.wf k.mem = true → planeStop k src so n = none → planeRuns k src so n = .ok [(a, n)] →
    planeRuns k dst doff n = .ok [(d, n)] → poisonHits k [(a, n)] = [] → farBad k src so n = [] → softHits k [(a, n)] = 0 →
    farSofts k src so n = 0 → ∃ k', runMove k ctx src dst so doff (moveRows 0 n 0) = .done k' 0 ∧
      (∀ i, i < n → seeByte k' (d + i) = seeByte k (a + i)) ∧ ∀ b, b < d ∨ d + n ≤ b → seeByte k' b = seeByte k b

/-- R186 to R195, R392, R393: a claimed slot is written with its number once its queue has room; an engine takes the slot whose
number it expects and advances RDX; a packet with a result retires, with its status word where it names one, once what it wrote on
another device has been performed there. A copy-queue packet, a gather and a collective end with the status of their work: a
collective that is in order posts its digest and its values to the other members, and ends once each of them has posted. -/
def Obligations.QueueEngines : Prop :=
  (∀ s c j rdx a, (coreOf s.kern c).copyqs.find? (fun y => y.id == j.id) = some j →
    let o := capObj j.queue.toNat
    remoteObj s.kern j.ctx j.queue.toNat = false →
    readObj s.kern j.ctx o (capOff j.queue.toNat) 8 = some rdx → j.image.length = 64 → Memory.wf s.kern.mem = true →
    objRuns s.kern j.ctx o (slotOffset j.queue.toNat j.cap j.w.toNat) 64 = .ok [(a, 64)] →
    (j.w - BitVec.ofNat 64 (natOfBytes rdx)).toNat < 2 ^ j.cap →
    ∃ s', exec (.copyqSlotWrite c j.id) s = .next s' ∧ OnlyKern s s' ∧
      getBytes s'.kern a 64 = j.image.take 4 ++ bytesOfNat 4 j.w.toNat ++ j.image.drop 8 ∧
      (∀ y ∈ (coreOf s'.kern c).copyqs, y.id ≠ j.id) ∧ (∀ b, b < a ∨ a + 64 ≤ b → seeByte s'.kern b = seeByte s.kern b)) ∧
  (∀ s n q h rs a, mget s.kern.queues n = some q →
    let cap := q.hdr.toNat
    readObj s.kern q.ctx (capObj cap) (capOff cap) 64 = some h → Memory.wf s.kern.mem = true →
    objRuns s.kern q.ctx (capObj cap) (slotOffset cap (fieldOf h 16 4) q.taken) 64 = .ok rs → poisonHits s.kern rs = [] →
    softHits s.kern rs = 0 → fieldOf (getRuns s.kern rs) 4 4 = q.taken % 2 ^ 32 →
    q.engine = 0 ∨ ((q.engine = 1 ∨ q.engine = 2) ∧ q.running = []) →
    objRuns s.kern q.ctx (capObj cap) (capOff cap) 8 = .ok [(a, 8)] →
    ∃ s', exec (.queueTakeSlot n) s = .next s' ∧ OnlyKern s s' ∧ getNat s'.kern a 8 = (q.taken + 1) % 2 ^ 64 ∧
      (∀ b, b < a ∨ a + 8 ≤ b → seeByte s'.kern b = seeByte s.kern b) ∧
      mget s'.kern.queues n = some
        { q with
          taken := q.taken + 1,
          running := q.running ++ [{ w := q.taken, image := getRuns s.kern rs, order := s.kern.id, fail := none }] }) ∧
  (∀ s n q p st, mget s.kern.queues n = some q → packetOf q p.w = some p → p.fail = some st →
    let u := packetUnit n p.w
    let sta := statusCap q p
    let status : W32 := ((writeFailure s.kern u).map (BitVec.ofNat 32)).getD st
    let retires := fun (s' : State) => exec (.packetRetire n p.w) s = .next s' ∧ s' = { s with kern := s'.kern, fab := s'.fab } ∧
      (q.engine ≠ 2 → s'.fab = s.fab) ∧ ∃ q', mget s'.kern.queues n = some q' ∧
        (∀ y, y ∈ q'.running ↔ y ∈ q.running ∧ y.w ≠ p.w) ∧ q.retiredBelow ≤ q'.retiredBelow ∧
        (∀ w, q.retiredBelow ≤ w → w < q'.retiredBelow → w = p.w ∨ w ∈ q.retired)
    (farWrites s.kern u = true → ∃ s', exec (.packetRetire n p.w) s = .next s' ∧ s'.kern = s.kern) ∧
    (farWrites s.kern u = false → packetStw p = false → ∃ s', retires s' ∧ ∀ b, seeByte s'.kern b = seeByte s.kern b) ∧
    (∀ e, farWrites s.kern u = false → packetStw p = true → checkObj s.kern q.ctx sta (capOff sta) 4 4 4 = .error e →
      ∃ s', retires s' ∧ ∀ b, seeByte s'.kern b = seeByte s.kern b) ∧
    (∀ ea a, farWrites s.kern u = false → packetStw p = true → Memory.wf s.kern.mem = true →
      checkObj s.kern q.ctx sta (capOff sta) 4 4 4 = .ok ea → objRuns s.kern q.ctx (capObj sta) ea 4 = .ok [(a, 4)] →
      ∃ s', retires s' ∧ getNat s'.kern a 4 = status.toNat ∧ ∀ b, b < a ∨ a + 4 ≤ b → seeByte s'.kern b = seeByte s.kern b) ∧
    (∀ ea e, farWrites s.kern u = false → packetStw p = true → checkObj s.kern q.ctx sta (capOff sta) 4 4 4 = .ok ea →
      objRuns s.kern q.ctx (capObj sta) ea 4 = .error e → ∃ s' w, exec (.packetRetire n p.w) s = .next s' ∧
        s'.kern.queues = s.kern.queues ∧ s'.kern.cores = s.kern.cores ∧ w ∈ s'.kern.units ∧
        w.job = n * 2 ^ 64 + p.w ∧ w.faddr = BitVec.ofNat 64 (capForm sta e.1) ∧ w.sub = e.2)) ∧
  (∀ s n q p k status, mget s.kern.queues n = some q → packetOf q p.w = some p → p.fail = none → q.engine = 0 →
    runPacket (asUnit s.kern (packetUnit n p.w)) q.ctx p = .done k status → k.queues = s.kern.queues →
    farWrites k (packetUnit n p.w) = false → packetStw p = false → ∃ s' q', exec (.packetRetire n p.w) s = .next s' ∧ OnlyKern s s' ∧
      mget s'.kern.queues n = some q' ∧ (∀ y ∈ q'.running, y.w ≠ p.w) ∧ ∀ b, seeByte s'.kern b = seeByte k b) ∧
  (∀ s n q p k status, mget s.kern.queues n = some q → packetOf q p.w = some p → p.fail = none → q.engine = 1 →
    runWalk (asUnit s.kern (packetUnit n p.w)) q.ctx p = .done k status → k.queues = s.kern.queues →
    ∃ s' q' y, exec (.gather n p.w) s = .next s' ∧ OnlyKern s s' ∧ mget s'.kern.queues n = some q' ∧ packetOf q' p.w = some y ∧
      y = { p with fail := some (BitVec.ofNat 32 status) } ∧ ∀ b, seeByte s'.kern b = seeByte k b) ∧
  ∀ s n q p, mget s.kern.queues n = some q → packetOf q p.w = some p → p.fail = none → q.engine = 2 →
    let x := collOf p
    let start := asUnit s.kern (packetUnit n p.w)
    let heard := heardPosts s.fab x.cid
    let posts := fun (k : Kern) (q' : Queue) (o : Posted) (ms : List Nat) (others : Posted → Bool) =>
      ∃ s' ps, exec (.collective n p.w) s = .next s' ∧ s' = { s with kern := s'.kern, fab := s'.fab } ∧
        o ∈ s'.fab.posted ∧ (∀ y ∈ s'.fab.posted, y ≠ o → others y = true) ∧ s'.fab.packets = s.fab.packets ++ ps ∧
        (ps.map fun y => (y.dst, y.load)) = (((heard.map (·.dev)).foldl addOnce ms).flatMap fun m =>
          (postParts o).map fun y => (m, Payload.post y)) ∧ (∀ y ∈ ps, y.cls = .forward) ∧
        mget s'.kern.queues n = some q' ∧ ∀ b, seeByte s'.kern b = seeByte k b
    (∀ k ms vals, posted s x.cid = none → cidClash s.kern p = false →
      collOwn start s.fab.dev q.ctx p x false = .ready k ms vals → k.queues = s.kern.queues →
      posts k q (ownPost s.fab.dev x ms vals false) (ms.filter (· != s.fab.dev))
        (fun y => s.fab.posted.contains y && !(y.cid == x.cid && y.dev == s.fab.dev))) ∧
    (∀ status, posted s x.cid = none → cidClash s.kern p = false → collOwn start s.fab.dev q.ctx p x false = .decided status →
      posts s.kern { q with running := q.running.map fun y => if y.w == p.w then { y with fail := some (BitVec.ofNat 32 status) } else y }
        (ownPost s.fab.dev x (namedMembers s.kern s.fab.dev q.ctx x) [] true) (namedMembers s.kern s.fab.dev q.ctx x)
        (fun y => s.fab.posted.contains y && y.cid != x.cid)) ∧
    (∀ status, cidClash s.kern p = true → collOwn start s.fab.dev q.ctx p x true = .decided status →
      ∃ s' q' y, exec (.collective n p.w) s = .next s' ∧ OnlyKern s s' ∧ mget s'.kern.queues n = some q' ∧
        packetOf q' p.w = some y ∧ y = { p with fail := some (BitVec.ofNat 32 status) }) ∧
    ∀ o k' status, posted s x.cid = some o → cidClash s.kern p = false →
      let away := o.members.filter (· != s.fab.dev)
      let others := away.filterMap fun m => heard.find? fun y => y.dev == m
      let ends := fun (k : Kern) (status : Nat) => ∃ s' q' y, exec (.collective n p.w) s = .next s' ∧
        s' = { s with kern := s'.kern, fab := s'.fab } ∧ mget s'.kern.queues n = some q' ∧ packetOf q' p.w = some y ∧
        y = { p with fail := some (BitVec.ofNat 32 status) } ∧ (∀ z ∈ s'.fab.posted, z.cid ≠ x.cid) ∧
        ∀ b, seeByte s'.kern b = seeByte k b
      ((∃ m ∈ away, m ∈ s.fab.unreachable) → ends s.kern (4 * 2 ^ 24)) ∧
      ((∀ m ∈ away, m ∉ s.fab.unreachable) → others.length ≠ away.length → exec (.collective n p.w) s = .next s) ∧
      ((∀ m ∈ away, m ∉ s.fab.unreachable) → others.length = away.length →
        runColl start q.ctx x o.members ((indexWhere (fun m => m == s.fab.dev) o.members).getD 0) o.src others heard =
          (k', .ok status) →
        k'.queues = s.kern.queues → ends k' status)

/-- R343 to R350, R354, R363, R413: a node whose predecessors have completed is admitted under the next serial number, and joins the
shared queue where it is a task; a record that fails a check stops its run with the reason and DETAIL of the first check that
fails. -/
def Claims.Admissions : Prop :=
  ∀ s graph node g n, mget s.kern.graphs graph = some g → g.nodes[node]? = some n → g.running = true → g.failed = none →
    n.card = false → n.admitted = false → n.waiting = 0 →
    let l : Launch := { draft g.ctx n.rec_ with graph := graph, node := node }
    let u := recordUnit graph node
    (∀ k, recordAsks s.kern l u = some k → exec (.admission graph node) s = .next { s with kern := k } ∧
      k.launches = s.kern.launches ∧ k.graphs = s.kern.graphs ∧ ∃ x ∈ k.far, x.owner = u ∧ x.ended = none) ∧
    (recordAsks s.kern l u = none → rejection (forUnit s u) l = none → ∃ s' l', exec (.admission graph node) s = .next s' ∧
      mget s'.kern.launches s.kern.serial = some l' ∧ l'.rec_ = n.rec_ ∧ l'.ctx = g.ctx ∧ l'.graph = graph ∧ l'.node = node ∧
      l'.done = false ∧ l'.next = 0 ∧ l'.retired = 0 ∧ s'.kern.serial = s.kern.serial + 1 ∧
      s'.kern.shared = (if isField l then s.kern.shared else s.kern.shared ++ [s.kern.serial]) ∧
      (mget s'.kern.graphs graph).bind (fun g => g.nodes[node]?) = some { n with admitted := true } ∧
      (getCtx s'.kern g.ctx).state = (if (getCtx s.kern g.ctx).state = .opened then .running else (getCtx s.kern g.ctx).state) ∧
      s'.pwr = { s.pwr with due := true } ∧ s'.fab = s.fab ∧ s'.fw = s.fw ∧ ∀ a, seeByte s'.kern a = seeByte s.kern a) ∧
    (∀ r, recordAsks s.kern l u = none → rejection (forUnit s u) l = some r → ∃ s', exec (.admission graph node) s = .next s' ∧
      OnlyKern s s' ∧ s'.kern = { endUnit s.kern u with graphs := mset s.kern.graphs graph { g with failed := some (node, r.1, r.2) } })

/-- R351 to R354, R426: a trigger is queued behind at most three others, and one that is malformed or does not fit is refused in the
status word; a run starts with its patches applied and every node waiting for its predecessors, and a malformed patch list fails it
before any is; a completed launch releases its successors once its accesses have been performed; a run that is over leaves its
status and its count, and the next trigger follows. -/
def Claims.GraphRuns : Prop :=
  let status := fun (s s' : State) (g : Graph) (w : Nat) => ∀ ea a, Memory.wf s.kern.mem = true →
    checkObj s.kern g.ctx g.status.toNat (capOff g.status.toNat) 8 8 4 = .ok ea →
    objRuns s.kern g.ctx (capObj g.status.toNat) ea 8 = .ok [(a, 8)] →
    getNat s'.kern a 8 = w % 2 ^ 64 ∧ ∀ b, b < a ∨ a + 8 ≤ b → seeByte s'.kern b = seeByte s.kern b
  (∀ (w : W64) s g, mget s.kern.graphs (w.toNat / 2 ^ 54) = some g → triggerGood w.toNat = true → g.triggers.length < 4 →
    ∃ s', exec (.trigger w) s = .next s' ∧ OnlyKern s s' ∧
      mget s'.kern.graphs (w.toNat / 2 ^ 54) = some { g with triggers := g.triggers ++ [w] } ∧
      ∀ a, seeByte s'.kern a = seeByte s.kern a) ∧
  (∀ (w : W64) s g, mget s.kern.graphs (w.toNat / 2 ^ 54) = some g → triggerGood w.toNat = false ∨ 4 ≤ g.triggers.length →
    ∃ s', exec (.trigger w) s = .next s' ∧ OnlyKern s s' ∧ s'.kern.graphs = s.kern.graphs ∧
      status s s' g (0x21 * 2 ^ 56 + g.runs.toNat)) ∧
  (∀ s n g w ws k, mget s.kern.graphs n = some g → g.triggers = w :: ws → g.running = false →
    runAsks s.kern n g w.toNat = some k → exec (.run n) s = .next { s with kern := k } ∧ k.graphs = s.kern.graphs) ∧
  (∀ s n g w ws, mget s.kern.graphs n = some g → g.triggers = w :: ws → g.running = false →
    runAsks s.kern n g w.toNat = none → ∃ s' ns failed, exec (.run n) s = .next s' ∧ OnlyKern s s' ∧ (∀ a, seeByte s'.kern a = seeByte s.kern a) ∧
      mget s'.kern.graphs n = some { g with running := true, failed := failed, cardsOut := 0, nodes := freshNodes ns } ∧
      (∀ i m, (freshNodes ns)[i]? = some m → m.waiting = predecessors ns i ∧ m.done = false ∧ m.admitted = false) ∧
      (w.toNat % 2 = 0 → ns = g.nodes ∧ failed = none) ∧
      (w.toNat % 2 = 1 → patchList s.kern (patchUnit n) g w.toNat = none → ns = g.nodes ∧ failed = some (0, 0x20, 0)) ∧
      (∀ ps, w.toNat % 2 = 1 → patchList s.kern (patchUnit n) g w.toNat = some ps →
        ns = patchNodes (forUnit s (patchUnit n)) g.ctx ps g.nodes ∧ failed = none)) ∧
  (∀ s n l, mget s.kern.launches n = some l → l.done = true → l.counted = false → (accessesOut s.kern n = true →
    exec (.nodeComplete n) s = .next s) ∧
    ((getCtx s.kern l.ctx).state = .stopped → exec (.nodeComplete n) s = .next s) ∧
    (accessesOut s.kern n = false → (getCtx s.kern l.ctx).state ≠ .stopped → ∃ s', exec (.nodeComplete n) s = .next s' ∧
    OnlyKern s s' ∧ mget s'.kern.launches n = some { l with counted := true } ∧
    (∀ g, l.card = true → mget s.kern.graphs l.graph = some g →
      mget s'.kern.graphs l.graph = some { g with cardsOut := g.cardsOut - 1 }) ∧
    (∀ g m, l.card = false → mget s.kern.graphs l.graph = some g → g.nodes[l.node]? = some m → m.succ.Nodup →
      ∃ g', mget s'.kern.graphs l.graph = some g' ∧ ∀ i y, g.nodes[i]? = some y → ∃ y', g'.nodes[i]? = some y' ∧
        y'.waiting = (if i ∈ m.succ then y.waiting - 1 else y.waiting) ∧ y'.done = (y.done || decide (i = l.node))))) ∧
  ∀ s n g, mget s.kern.graphs n = some g → runOver g = true → ∃ s', exec (.runEnd n) s = .next s' ∧ OnlyKern s s' ∧
    mget s'.kern.graphs n =
      some { g with running := false, failed := none, runs := g.runs + 1, triggers := g.triggers.drop 1 } ∧
    status s s' g (((g.failed.getD (0, 0, 0)).2.1) * 2 ^ 56 + ((g.failed.getD (0, 0, 0)).2.2) * 2 ^ 48 +
      ((g.failed.getD (0, 0, 0)).1) * 2 ^ 32 + (g.runs + 1).toNat)

/-- What Admissions and GraphRuns say. -/
def Obligations.LaunchEvents : Prop := Claims.Admissions ∧ Claims.GraphRuns

/-- R300, R346, R357 to R359, R347, R261: a core that chooses a task of the shared queue starts its next block in a room: the
block's rows are zero but for the parameter copy, its threads stand at the kernel's entry, the launch goes on to its next block, and
the bay pulls again after 64 core cycles. A bay waits while one that pulls before it may pull, and a core chooses no block that
SLOPE does not let its bay start (R421). A field whose cores all take their bricks is placed. The order of the bays (log entry 63)
and how SLOPE spreads the groups of a block over cycles (log entry 115) are the model's choices. -/
def Claims.Dispatch : Prop :=
  (∀ s c n l0 l r m, chooseSource s c = some (.ofShared n l0) → m = .blockDispatch c ∨ m = .bayDispatchPull (bayOf c) c →
    (getBay s (bayOf c)).gate = .on → (getBay s (bayOf c)).nextPull ≤ bayCycle s.kern (bayOf c) → pullsBefore s (bayOf c) = false →
    mget s.kern.launches n = some l → roomFor (coreOf s.kern c) l (blockSlices l 0) = some r →
    ∃ s' blk, exec m s = .next s' ∧ blockOf s'.kern c r.slot = some blk ∧ blk.launch = n ∧ blk.number = l.next ∧
      blk.baseRow = r.row ∧ (coreOf s'.kern c).slices = (coreOf s.kern c).slices - r.slices ∧
      (mget s'.kern.launches n).map (·.next) = some (l.next + 1) ∧
      (getBay s' (bayOf c)).nextPull = bayCycle s.kern (bayOf c) + 64 ∧
      (∀ p ∈ (List.range r.seats.length).zip r.seats, ∀ u ∈ groupThreadsNew s c l 0 r.slot p.1 p.2,
        getThread s.kern c u.tslot u.lane = none → StandsAt s'.kern c u (recEntry l)) ∧
      (recPcopy l = false → ∀ a, rowBase c r.row ≤ a → a < rowBase c r.row + blockRows l * 1536 → seeByte s'.kern a = 0) ∧
      (∀ a, a < rowBase c r.row ∨ rowBase c r.row + blockRows l * 1536 ≤ a → recPcopy l = false →
        seeByte s'.kern a = seeByte s.kern a) ∧
      (∀ d, d ≠ c → coreOf s'.kern d = coreOf s.kern d) ∧ s'.fab = s.fab ∧ s'.fw = s.fw) ∧
  (∀ s c x, chooseSource s c = some x →
    let y := getBay s (bayOf c)
    (∀ a, y.starts.getLast? = some a → a ≤ bayCycle s.kern (bayOf c)) ∧
      ∀ a, y.starts.reverse[y.slope - 1]? = some a → a + 16 ≤ bayCycle s.kern (bayOf c)) ∧
  (∀ slope now n xs, 0 < slope → ∃ ys, addStarts slope now n xs = xs ++ ys ∧ ys.length = n ∧ (∀ y ∈ ys, now ≤ y) ∧
    ∀ i a b, xs.length ≤ i + slope → (xs ++ ys)[i]? = some a → (xs ++ ys)[i + slope]? = some b → a + 16 ≤ b) ∧
  (∀ s c n l, chooseSource s c = some (.ofShared n l) → (getBay s (bayOf c)).gate = .on → pullsBefore s (bayOf c) = true →
    ∃ s', exec (.bayDispatchPull (bayOf c) c) s = .next s' ∧ OnlyPower s s') ∧
  (∀ s serial l s1 t, mget s.kern.launches serial = some l → l.placed = false → l.done = false → isField l = true →
    mayRun s.kern l.ctx = true → l.bricks ≠ [] → leaseAll s (l.bricks.map fun p => bayOf p.2) = (s1, true) →
    startBricks l serial l.bricks s1 = some t → ∃ s', exec (.fieldPlacement serial) s = .next s' ∧
      s'.kern = { t.kern with launches := mset t.kern.launches serial { l with placed := true, next := l.total } } ∧
      s'.fab = t.fab ∧ s'.fw = t.fw) ∧
  ∀ s serial l, mget s.kern.launches serial = some l → l.placed = false → l.done = false → isField l = true →
    mayRun s.kern l.ctx = true → l.bricks = [] → ∃ s', exec (.fieldPlacement serial) s = .next s' ∧
      (mget s'.kern.launches serial).map (·.done) = some true ∧ s'.pwr = { s.pwr with due := true }

/-- R252, R277, R279, R300, R382: a block whose threads have all exited and into whose scratchpad no copy is in flight leaves its
core with its threads and its slices, and its launch counts it; the last one ends the launch. -/
def Claims.Retirement : Prop :=
  ∀ s c b blk l, blockOf s.kern c b = some blk → mget s.kern.launches blk.launch = some l →
    blockQuiet (coreOf s.kern c) b = true → publicationsOut (coreOf s.kern c) blk.launch = true →
    (∀ t ∈ (coreOf s.kern c).threads, t.block = b → t.loc = .exited) → (getCtx s.kern blk.ctx).state ≠ .stopped →
    ∃ s', exec (.blockRetire c b) s = .next s' ∧ blockOf s'.kern c b = none ∧
      (∀ t ∈ (coreOf s'.kern c).threads, t.block ≠ b ∧ t ∈ (coreOf s.kern c).threads) ∧
      (coreOf s'.kern c).slices =
        (coreOf s.kern c).slices + (blk.groups.map fun g => g.cols.length * (g.regs / 8 + 1)).sum ∧
      (∀ d, d ≠ b → blockOf s'.kern c d = blockOf s.kern c d) ∧ (∀ d, d ≠ c → coreOf s'.kern d = coreOf s.kern d) ∧
      (l.retired + 1 ≠ l.total → mget s'.kern.launches blk.launch = some { l with retired := l.retired + 1 } ∧
        ∀ a, seeByte s'.kern a = seeByte s.kern a) ∧
      (l.retired + 1 = l.total → mget s'.kern.launches blk.launch = some { l with retired := l.retired + 1, done := true } ∧
        s'.pwr.due = true ∧ mget s'.kern.fields blk.launch = none)

/-- What Dispatch and Retirement say. The clauses that they name as the model's choices rest on log entries 63 and 115. -/
def Obligations.BlockEvents : Prop := Claims.Dispatch ∧ Claims.Retirement

/-- R360, R363, R375 to R378: pre-emption makes a context of lower priority pre-empting and the trap pending in its threads; a block
whose threads have all stood down is vacated into the first free slot, and a context without a free slot stops; a vacated block
that comes back has its threads at the handler with the registers of their records, and its context runs. -/
def Obligations.Preemption : Prop :=
  (∀ s n l x, headShared s.kern = some (n, l) → fitsNowhere s l = true → (∀ p ∈ s.kern.ctxs, p.2.state ≠ .preempting) →
    preemptVictim s.kern (recPrio l) = some x → ∃ s', exec .preemptionSend s = .next s' ∧
      (getCtx s'.kern x).state = .preempting ∧ s'.pwr = { s.pwr with due := true } ∧ s'.fab = s.fab ∧
      (∀ c a b t, getThread s.kern c a b = some t → live t = true →
        (blockOf s.kern c t.block).map (·.ctx) = some x →
        getThread s'.kern c a b = some { t with asyncPreempt := true }) ∧ ∀ a, seeByte s'.kern a = seeByte s.kern a) ∧
  (∀ s c b blk off offs a, blockOf s.kern c b = some blk → blockQuiet (coreOf s.kern c) b = true →
    blockReleased (coreOf s.kern c) b = true → (∀ t ∈ (coreOf s.kern c).threads, t.block = b → t.loc = .exited ∨ t.loc = .down) →
    (∃ t ∈ (coreOf s.kern c).threads, t.block = b ∧ t.loc = .down) → (getCtx s.kern blk.ctx).state = .preempting →
    freeSlots s.kern blk.ctx = off :: offs →
    objRuns s.kern blk.ctx (capObj (getCtx s.kern blk.ctx).save.toNat) off 8 = .ok [(a, 8)] → Memory.wf s.kern.mem = true →
    ∃ s' v, exec (.blockVacate c b) s = .next s' ∧ blockOf s'.kern c b = none ∧ s'.kern.vacated = s.kern.vacated ++ [v] ∧
      v.launch = blk.launch ∧ v.slot = off ∧ v.core = c ∧ v.block = blk ∧ getNat s'.kern a 8 = 1 ∧
      ∀ t ∈ (coreOf s'.kern c).threads, t.block ≠ b) ∧
  (∀ s c b blk, blockOf s.kern c b = some blk → blockQuiet (coreOf s.kern c) b = true →
    blockReleased (coreOf s.kern c) b = true → (∀ t ∈ (coreOf s.kern c).threads, t.block = b → t.loc = .exited ∨ t.loc = .down) →
    (∃ t ∈ (coreOf s.kern c).threads, t.block = b ∧ t.loc = .down) → (getCtx s.kern blk.ctx).state = .preempting →
    freeSlots s.kern blk.ctx = [] → ∃ s', exec (.blockVacate c b) s = .next s' ∧ OnlyKern s s' ∧
      (getCtx s'.kern blk.ctx).state = .stopped) ∧
  (∀ s i v c l vs s1 t, s.kern.vacated[i]? = some v → mget s.kern.launches v.launch = some l → returnsTo l v c = true →
    mayStart s c l = true →
    vs = (if isField l then s.kern.vacated.filter (fun x => x.launch == v.launch) else [{ v with core := c }]) →
    (∀ x ∈ vs, mayReturn s x.core l x = true) → leaseAll s (vs.map fun x => bayOf x.core) = (s1, true) →
    bringAll l vs s1 = some t → ∃ s', exec (.blockRedispatch i c) s = .next s' ∧ s'.kern.cores = t.kern.cores ∧
      s'.kern.vacated = t.kern.vacated ∧
      (getCtx s'.kern l.ctx).state = (if (getCtx t.kern l.ctx).state = .vacated then .running else (getCtx t.kern l.ctx).state)) ∧
  ∀ s l v c o bs r h, recHandler l = some h →
    ∀ p ∈ (List.range r.seats.length).zip r.seats, ∀ i ∈ slotLanes bs v.block.width p.1,
      let u := restartedThread s c v r.slot h p.1 i p.2 (slotRecord bs (p.1 * v.block.width + i))
      getThread s.kern c u.tslot u.lane = none → StandsAt (restartBlock s l v c o bs r).kern c u h ∧ u.regs.k = slotRecord bs (p.1 * v.block.width + i) ∧ u.tstate = true ∧
        (∀ j, u.regs.v.getD j 0 = 0)

/-- R221, R225, R282, R284, R288, R289, R297, R298: a notice writes its faces over the bank that is not current, with its step as
the TAG, and advances the cell, a notice of an exit marks it as exited; a publication of STEP.R lets its notices go once its
thread's accesses have been performed; a step that every live cell has ended completes in the truss, and a pending settle decision
is made there: mixed where the signatures differ or a cell did not settle, cold also where the largest signature is not the last
decision's. -/
def Obligations.FieldEvents : Prop :=
  (∀ s c n l r i, s.kern.notices.find? (fun m => m.id == n.id && m.dst == c) = some n → mget s.kern.launches n.launch = some l →
    regionOf s.kern c n.launch = some r → recordFor l r n.cell = some i → firstNotice s.kern n = true → Memory.wf s.kern.mem = true →
    let a := recordAt c r i
    let bank := 1 - currentBank s.kern a
    ∃ s', exec (.faceNotice c n.id) s = .next s' ∧ OnlyKern s s' ∧ (∀ m ∈ s'.kern.notices, m.id ≠ n.id) ∧
      (n.kind = 0 → n.faces.length = 16 → n.step ∉ coldFrom s.kern n.launch n.step →
        getNat s'.kern (a + 144) 8 = (n.step + 1) % 2 ^ 64 ∧ getNat s'.kern (a + 128 + 8 * bank) 8 = n.step % 2 ^ 64 ∧
        (∀ j, j < 16 → getNat s'.kern (a + 64 * bank + 4 * j) 4 = (n.faces.getD j 0).toNat) ∧
        ∀ b, (b < a + 64 * bank ∨ a + 64 * bank + 64 ≤ b) → (b < a + 128 + 8 * bank ∨ a + 128 + 8 * bank + 8 ≤ b) →
          (b < a + 144 ∨ a + 152 ≤ b) → seeByte s'.kern b = seeByte s.kern b) ∧
      (n.kind = 1 → n.step ∉ coldFrom s.kern n.launch n.step → getNat s'.kern (a + 144) 8 = (n.step + 1) % 2 ^ 64 ∧
        ∀ b, b < a + 144 ∨ a + 152 ≤ b → seeByte s'.kern b = seeByte s.kern b) ∧
      (n.kind = 2 → coldFrom s.kern n.launch (n.step + 1) = [] → getNat s'.kern (a + 144) 8 = exitMark % 2 ^ 64 ∧
        ∀ b, b < a + 144 ∨ a + 152 ≤ b → seeByte s'.kern b = seeByte s.kern b)) ∧
  (∀ s c cell r u l, readyIn (coreOf s.kern c) cell = some (r, u) → mget s.kern.launches r.launch = some l →
    ∃ s', exec (.stepRPublicationReady c cell) s = .next s' ∧ OnlyKern s s' ∧ (∀ a, seeByte s'.kern a = seeByte s.kern a) ∧
      (∀ x ∈ (coreOf s'.kern c).xr, x.launch = r.launch → ∀ y ∈ x.unready, ¬(y.cell = u.cell ∧ y.step = u.step)) ∧
      ∀ m ∈ s'.kern.notices, m.launch = r.launch → m.cell = linear l (cellAt l r.brick u.cell) → m.step = u.step → m.kind ≠ 2 →
        m.held = false) ∧
  ∀ s launch t f, mget s.kern.fields launch = some f → fieldReached s.kern launch (t + 1) = true →
    earlierComplete f t = true → (trussStep f t).complete = false →
    let x := { trussStep f t with complete := true }
    (x.settled = 0 → ∃ s' g, exec (.trussStepComplete launch t) s = .next s' ∧ OnlyKern s s' ∧
      mget s'.kern.fields launch = some g ∧ (trussStep g t) = x ∧ g.prev = f.prev ∧ s'.kern.cores = s.kern.cores ∧
      ∀ a, seeByte s'.kern a = seeByte s.kern a) ∧
    (0 < x.settled → ∃ s' g, exec (.trussStepComplete launch t) s = .next s' ∧ OnlyKern s s' ∧
      mget s'.kern.fields launch = some g ∧ (trussStep g t).complete = true ∧
      g.prev = some (BitVec.ofNat 64 ((x.sigs.map (·.toNat)).foldl max 0)) ∧
      let mixed := x.settled < x.ended ∨ ∃ a ∈ x.sigs, ∃ b ∈ x.sigs, a ≠ b
      let cold := mixed ∨ f.prev ≠ g.prev
      (mget g.colds t = some true ↔ cold) ∧ t ∉ g.pending ∧ ∀ u, u ≠ t → (u ∈ g.pending ↔ u ∈ f.pending))

/-- R411 to R424, R361, R303, R313, R372, R427 to R431, R434, R437, R438: the events of power, clocks, repair and boot. The arbiter
chooses among the sets within the limit one of the least cost; a completed change is in force everywhere, with no step below its
FLOOR; BOOST, the bands, the bay controllers and TCAP move as their rules say; gating sequences run; a subscription fires once at a
crossing; refills share the tokens; a margin error returns its die to nominal; a scrubbed line has fresh check data; a device fault
is reported to the host and to the peers; the boot states follow one another. These are the model's choices: the VALUE of a fault
(log entry 117), when BOOT brings a serving core up (118), which launches take part (120), and how TCAP holds (82). -/
def Obligations.PowerEvents : Prop :=
  (∀ s, s.pwr.due = true ∨ s.kern.asks = true → ∃ s' g, exec .arbitrate s = .next s' ∧
    s' = { s with kern := { s.kern with asks := false }, pwr := s'.pwr } ∧ s'.pwr.due = false ∧ s'.pwr.grant = s.pwr.grant ∧
    s'.pwr.seq = s.pwr.seq ∧ (g = s.pwr.target.getD s.pwr.grant → s'.pwr = { s.pwr with due := false }) ∧
    (g ≠ s.pwr.target.getD s.pwr.grant → s'.pwr.target = some g ∧ s'.pwr.running = s.pwr.running.fallen g ∧
      s'.pwr.targetBy = if s.pwr.target = none then s.pwr.usec + 5 else s.pwr.targetBy) ∧
    (takingPart s.kern = [] → g = .least) ∧
    (takingPart s.kern ≠ [] → (∃ h ∈ allowedSets s, True) → g ∈ allowedSets s ∧
      planWatts s.pwr.demand g ≤ min s.pwr.pcap s.pwr.tcap ∧
      ∀ h ∈ allowedSets s, ((takingPart s.kern).map fun l => launchCost l g).sum ≤ ((takingPart s.kern).map fun l => launchCost l h).sum)) ∧
  (∀ s g, s.pwr.target = some g → ∃ s', exec .grantChangeComplete s = .next s' ∧ OnlyPower s s' ∧ s'.pwr.grant = g ∧
    s'.pwr.target = none ∧ s'.pwr.running = g ∧ s'.pwr.seq = (if g = s.pwr.grant then s.pwr.seq else s.pwr.seq + 1) ∧
    ∀ b y, mget s.pwr.bays b = some y → ∃ z, mget s'.pwr.bays b = some z ∧ z = { y with step := max y.step (floorFor y g) }) ∧
  (∀ s, ∃ s', exec .tcapChange s = .next s' ∧ OnlyPower s s' ∧ s'.pwr.tcap = nextTcap s ∧
    (s.pwr.tcap ≠ nextTcap s → s'.pwr.due = true)) ∧
  (∀ s, s.pwr.boostTicks < s.pwr.usec →
    let nine := s.pwr.grant.matrix = 9 ∨ s.pwr.grant.vector = 9
    ∃ s', exec .boostTick s = .next s' ∧ OnlyPower s s' ∧ s'.pwr.boostTicks = s.pwr.boostTicks + 1 ∧
      (nine → s'.pwr.boost = s.pwr.boost - 1 ∧ (s.pwr.boost ≤ 1 → s'.pwr.due = true)) ∧
      (¬nine → s'.pwr.boost = if (s.pwr.boostTicks + 1) % 4 = 0 then min 20000 (s.pwr.boost + 1) else s.pwr.boost)) ∧
  (∀ s b y, mget s.pwr.bays b = some y → y.evaluated < s.pwr.usec → ∃ s' z, exec (.bayControllerEvaluation b) s = .next s' ∧
    OnlyPower s s' ∧ mget s'.pwr.bays b = some z ∧ z.evaluated = y.evaluated + 1 ∧
    let floor := floorFor y s.pwr.grant
    (y.step < floor → z.step = floor) ∧ (floor ≤ y.step → y.band = 7 → z.step = min 15 (y.step + 2)) ∧
    (floor ≤ y.step → y.band ≠ 7 → y.overCurrent = true ∨ y.band = 6 → z.step = min 15 (y.step + 1)) ∧
    (floor ≤ y.step → y.band ≠ 7 → y.band ≠ 6 → y.overCurrent = false →
      z.step = if y.calm + 20 ≤ y.evaluated + 1 then max floor (y.step - 1) else y.step)) ∧
  (∀ s, ∃ s', exec .tempbandChange s = .next s' ∧ OnlyPower s s' ∧ ∀ b y, mget s.pwr.bays b = some y →
    mget s'.pwr.bays b = some { y with band := bandOf y.celsius }) ∧
  (∀ s b y, mget s.pwr.bays b = some y →
    (y.gate = .on → bayEmpty s.kern b = true → y.lease = false → y.emptySince + 20 ≤ s.pwr.usec →
      ∃ s', exec (.gatingSequence b) s = .next s' ∧ OnlyPower s s' ∧
        mget s'.pwr.bays b = some { y with gate := .closing (nowNs s) }) ∧
    (∀ start, y.gate = .closing start → start + 900 ≤ nowNs s → ∃ s', exec (.gatingSequence b) s = .next s' ∧
      s' = { s with kern := { s.kern with cores := s'.kern.cores }, pwr := s'.pwr } ∧
      mget s'.pwr.bays b = some { y with gate := if y.lease then .waking else .gated } ∧
      ∀ c, coreOf s'.kern c =
        if c / 8 = b then { coreOf s.kern c with banksGated := true, banksWaking := false } else coreOf s.kern c) ∧
    (y.gate = .waking → ∃ s', exec (.bayWakeComplete b) s = .next s' ∧ OnlyPower s s' ∧
      mget s'.pwr.bays b = some { y with gate := .on })) ∧
  (∀ s c, wayTurn s c true = true → ∃ s', exec (.wayGating c true) s = .next s' ∧ OnlyKern s s' ∧ OnlyCore s.kern s'.kern c ∧
    (coreOf s'.kern c).waysGated = true ∧
    ∀ y, y ∈ (coreOf s'.kern c).lcache ↔ y ∈ (coreOf s.kern c).lcache ∧ y.way < 4) ∧
  (∀ s c, wayTurn s c false = true → ∃ s', exec (.wayGating c false) s = .next s' ∧ OnlyKern s s' ∧ OnlyCore s.kern s'.kern c ∧
    coreOf s'.kern c = { coreOf s.kern c with waysWaking := some (nowNs s) }) ∧
  (∀ s c start, (coreOf s.kern c).waysWaking = some start → start + 200 ≤ nowNs s →
    ∃ s', exec (.wayGating c false) s = .next s' ∧ OnlyKern s s' ∧ OnlyCore s.kern s'.kern c ∧
      coreOf s'.kern c = { coreOf s.kern c with waysGated := false, waysWaking := none }) ∧
  (∀ s n x, mget s.pwr.subs n = some x → subscriptionDue s x = true → x.source = 4 ∨ x.fired = false →
    let y := { x with count := x.count + 1, fired := true, lastSeq := s.pwr.seq }
    (∀ ea a, Memory.wf s.kern.mem = true → checkObj s.kern x.ctx x.word.toNat (capOff x.word.toNat) 8 8 4 = .ok ea →
      objRuns s.kern x.ctx (capObj x.word.toNat) ea 8 = .ok [(a, 8)] → ∃ s', exec (.subscriptionFiring n) s = .next s' ∧
        mget s'.pwr.subs n = some y ∧ getNat s'.kern a 8 = notifyWord s y % 2 ^ 64 ∧
        ∀ b, b < a ∨ a + 8 ≤ b → seeByte s'.kern b = seeByte s.kern b) ∧
    (∀ e, checkObj s.kern x.ctx x.word.toNat (capOff x.word.toNat) 8 8 4 = .error e →
      ∃ s', exec (.subscriptionFiring n) s = .next s' ∧ OnlyPower s s' ∧ mget s'.pwr.subs n = none)) ∧
  (∀ s n x, mget s.pwr.subs n = some x → subscriptionDue s x = true → x.source ≠ 4 → x.fired = true →
    ∃ s', exec (.subscriptionFiring n) s = .next s' ∧ OnlyPower s s' ∧ mget s'.pwr.subs n = some { x with fired := false }) ∧
  (∀ s c, (coreOf s.kern c).refilled + 1024 ≤ s.kern.net → ∃ s', exec (.refill c) s = .next s' ∧ OnlyKern s s' ∧
    OnlyCore s.kern s'.kern c ∧ (coreOf s'.kern c).refilled = (coreOf s.kern c).refilled + 1024 ∧
    (coreOf s'.kern c).buckets.map (·.1) = (coreOf s.kern c).buckets.map (·.1) ∧
    ∀ x y, mget (coreOf s.kern c).buckets x = some y → ∃ n,
      1024 * shareOf s.kern x / ((coreOf s.kern c).buckets.map fun p => shareOf s.kern p.1).sum ≤ n ∧
        mget (coreOf s'.kern c).buckets x = some { tokens := n - y.owed, owed := y.owed - n, active := false }) ∧
  (∀ s d x a, mget s.pwr.dies d = some x → x.attributed = some a → ∃ s' y, exec (.marginSequence d) s = .next s' ∧
    s'.kern = s.kern ∧ mget s'.pwr.dies d = some y ∧ y.offset = 0 ∧ y.attributed = none ∧
    y.returning = some (s.pwr.usec + 10) ∧ y.holdoff = some (s.pwr.usec + 1000000) ∧
    (∀ b z, mget s.pwr.bays b = some z → b / 8 = d → (mget s'.pwr.bays b).map (·.step) = some (min 15 (z.step + 1))) ∧
    s'.fw.responses = s.fw.responses ++ [{ tag := 0xFFFFFFFF, status := 0x83, detail := d, value := BitVec.ofNat 64 a }]) ∧
  (∀ s, ∃ s', exec .holdOffExpiry s = .next s' ∧ OnlyPower s s' ∧ ∀ d x, mget s.pwr.dies d = some x →
    ∃ y, mget s'.pwr.dies d = some y ∧ y.returning = (if ∃ t, x.returning = some t ∧ t ≤ s.pwr.usec then none else x.returning) ∧
      y.holdoff = (if ∃ t, x.holdoff = some t ∧ t ≤ s.pwr.usec then none else x.holdoff)) ∧
  (∀ s line vault frame, frameOfLine line = some (vault, frame) → frameNamed s.kern vault frame = true →
    (frameInfo s.kern vault frame).retired = false → vault = true ∨ frameClass s.kern frame ≠ .n →
    ∃ s', exec (.scrub line) s = .next s' ∧ (∀ u ∈ s'.kern.soft, u < 64 * line ∨ 64 * line + 64 ≤ u) ∧
      (∀ u ∈ s.kern.soft, u < 64 * line ∨ 64 * line + 64 ≤ u → u ∈ s'.kern.soft) ∧ s'.kern.poison = s.kern.poison ∧
      (∀ x, mget s.kern.frames (frameKey vault frame) = some x → ∃ y, mget s'.kern.frames (frameKey vault frame) = some y ∧
        y.corrected = x.corrected + (s.kern.soft.filter fun u => 64 * line ≤ u && u < 64 * line + 64).length ∧
        ∀ a, 64 * line ≤ a → a < 64 * line + 64 → (poisonAt s.kern a).isSome = true → line ∈ y.bad) ∧
      ∀ a, seeByte s'.kern a = seeByte s.kern a) ∧
  (∀ s x, (deviceFaults s).find? (fun x => !s.fw.faults.contains x) = some x → ∃ s', exec .deviceFaultNotify s = .next s' ∧
    s'.pwr = s.pwr ∧ s'.kern = { s.kern with id := s'.kern.id } ∧ x ∈ s'.fw.faults ∧
    s'.fw.responses = s.fw.responses ++ [{ tag := 0xFFFFFFFF, status := 0x84, detail := 0, value := BitVec.ofNat 64 x }] ∧
    ∀ d e, (d, e) ∈ s.fab.peers → d ≠ s.fab.dev → ∃ p ∈ s'.fab.packets, p.dst = d ∧ p.cls = .management ∧ p.load = .fault x) ∧
  ∀ s, (s.fw.boot = .rom → ∃ s', exec .boot s = .next s' ∧ 
      s' = { s with fw := { s.fw with boot := .verify, patched := s.fw.patches, boots := s.fw.boots + 1, reports := 0 } }) ∧
    (s.fw.boot = .verify → chosenSlot s.fw = none → ∃ s', exec .boot s = .next s' ∧ s' = { s with fw := { s.fw with boot := .rescue } }) ∧
    (∀ b, s.fw.boot = .verify → chosenSlot s.fw = some b → ∃ s', exec .boot s = .next s' ∧
      s' = { s with fw := { s.fw with boot := .bringup, active := b } } ∧
      ∃ x, (if b then s.fw.slotB else s.fw.slotA) = some x ∧ validImage s.fw x = true) ∧
    (s.fw.boot = .bringup → ∃ s', exec .boot s = .next s' ∧ s'.kern = s.kern ∧ s'.pwr.demand = s.pwr.measured ∧
      s'.fw = { s.fw with boot := .ready, trained := true, tested := true, readyTo := [0, 1, 2],
                          completed := runningImages s.fw ++ s.fw.completed } ∧
      (∀ p x, mget s.fab.ports p = some x →
        mget s'.fab.ports p = some (if x.state = .down then { x with state := .train, tries := 0 } else x)) ∧
      ∀ b y, mget s.pwr.bays b = some y → (∃ x ∈ y.sensed, 15 < x) → (mget s'.pwr.bays b).map (·.enabled) = some false) ∧
    (s.fw.boot = .ready → s.fw.switching = false → ∃ s', exec .boot s = .next s' ∧
      s' = { s with fw := { s.fw with shops := s.fw.shops.map fun _ => true } }) ∧
    (s.fw.boot = .ready → s.fw.switching = true → ∃ s', exec .boot s = .next s' ∧
      s' = { s with fw := { s.fw with switching := false, active := runningSlot s.fw, shops := s.fw.shops.map fun _ => true } })

/-- R386 to R388, R390, R391, R393, R397: packets. One that reaches its destination in the order of its stream is delivered and,
where its source keeps it, acknowledged; one ahead of it waits in the reorder buffer where that has room, and a duplicate is
discarded. The next packet of a plane goes out as the flits of its port, and another waits; a packet not acknowledged for 20 µs is
sent again; a lane moves to the next plane that reaches its destination with the packets that have not left, and home again once
what it sent elsewhere has been acknowledged; a class can be paused by itself; a request unacknowledged for 10 ms, even when sent
again on the plane allowed, makes its destination unreachable. -/
def Claims.PacketEvents : Prop :=
  (∀ s p id, s.fab.unacked.find? (fun q => q.id == id) = some p →
    (p.sentAt + 20 ≤ s.pwr.usec → (∀ q ∈ s.fab.packets, q.id ≠ id) →
      let again := { p with sentAt := s.pwr.usec, plane := (streamOf s.fab p.src p.dst p.lane p.cls).plane }
      ∃ s', exec (.retransmissionTimeout id) s = .next s' ∧ OnlyFabric s s' ∧ s'.fab.packets = s.fab.packets ++ [again] ∧
        again ∈ s'.fab.unacked) ∧
    (s.pwr.usec < p.sentAt + 20 → exec (.retransmissionTimeout id) s = .next s)) ∧
  (∀ s p id, s.fab.packets.find? (fun q => q.id == id) = some p → p.plane < 16 → p.dst = s.fab.dev →
    ((∃ c r, answers p.load = some (c, r) ∧ c < leafCore) ∨ (∃ a b c d e f g h i j k, p.load = .access a b c d e f g h i j k) ∨
      ∃ a b c d e, p.load = .drain a b c d e) → (streamOf s.fab p.src p.dst p.lane p.cls).reorder = [] →
    let x := streamOf s.fab p.src p.dst p.lane p.cls
    let near : Bool := (p.eseq - x.recvNext).toNat < 2 ^ 15
    ∃ s', exec (.packetArrival id) s = .next s' ∧ s'.kern = { s.kern with id := s'.kern.id } ∧ s'.pwr = s.pwr ∧ s'.fw = s.fw ∧
      (∀ q ∈ s'.fab.packets, (q ∈ s.fab.packets ∧ q.id ≠ id) ∨ q.load = .ack p.lane p.cls p.eseq) ∧
      (p.eseq = x.recvNext → s'.fab.arrived = s.fab.arrived ++ [p] ∧
        streamOf s'.fab p.src p.dst p.lane p.cls = { x with recvNext := x.recvNext + 1 }) ∧
      (p.eseq ≠ x.recvNext → near = true → s'.fab.arrived = s.fab.arrived ∧
        streamOf s'.fab p.src p.dst p.lane p.cls = if noReorder s.fab x p then x else { x with reorder := [p] }) ∧
      (near = false → s'.fab.arrived = s.fab.arrived ∧ streamOf s'.fab p.src p.dst p.lane p.cls = x) ∧
      (keptClass p.cls = true → p.eseq = x.recvNext ∨ near = false → ∃ q ∈ s'.fab.packets, q.src = s.fab.dev ∧ q.dst = p.src ∧
        q.lane = p.lane ∧ q.cls = .reply ∧ q.load = .ack p.lane p.cls p.eseq)) ∧
  (∀ s p id lane cls eseq, s.fab.packets.find? (fun q => q.id == id) = some p → p.plane < 16 → p.dst = s.fab.dev →
    p.load = .ack lane cls eseq → (streamOf s.fab p.src p.dst p.lane p.cls).reorder = [] →
    p.eseq = (streamOf s.fab p.src p.dst p.lane p.cls).recvNext → ∃ s', exec (.packetArrival id) s = .next s' ∧
      p.src ∉ s'.fab.unreachable ∧ ∀ q, q ∈ s'.fab.unacked ↔ q ∈ s.fab.unacked ∧
        ¬(q.dst = p.src ∧ q.lane = lane ∧ q.cls = cls ∧ q.eseq = eseq)) ∧
  (∀ s p id n, s.fab.packets.find? (fun q => q.id == id) = some p → p.plane < 16 → p.dst = s.fab.dev → p.load = .face n →
    (n.kind < 3 → noticeCore s.kern n = none → exec (.packetArrival id) s = .next s) ∧
    (3 ≤ n.kind → mget s.kern.launches n.launch = none → exec (.packetArrival id) s = .next s) ∧
    (∀ c, n.kind < 3 → noticeCore s.kern n = some c → (streamOf s.fab p.src p.dst p.lane p.cls).reorder = [] →
      p.eseq = (streamOf s.fab p.src p.dst p.lane p.cls).recvNext → ∃ s', exec (.packetArrival id) s = .next s' ∧
        s'.kern.notices = s.kern.notices ++ [{ n with id := s.kern.id, dst := c, held := false }] ∧
        ∀ a, seeByte s'.kern a = seeByte s.kern a)) ∧
  (∀ s p id x, s.fab.packets.find? (fun q => q.id == id) = some p → p.plane < 16 → p.src = s.fab.dev → p.dst ≠ s.fab.dev →
    mget s.fab.ports p.plane = some x →
    ((nextPacket s p.plane).map (·.id) ≠ some id → exec (.packetArrival id) s = .next s) ∧
    (nextPacket s p.plane = some p →
      let codes := pktCodes (flitsOf p.load)
      maySend x p.cls (flitsOf p.load) = true ∧ ∃ (s' : State) (y : Port) (fs : List Flit), exec (.packetArrival id) s = .next s' ∧
      mget s'.fab.ports p.plane = some y ∧ fs.length = codes.length ∧ y.txLseq = x.txLseq + BitVec.ofNat 16 codes.length ∧
      y.replay.length ≤ 512 ∧ (∀ i (flit : Flit), fs[i]? = some flit →
        (x.txLseq + BitVec.ofNat 16 i, flit) ∈ y.replay ∧ crcGood flit = true ∧ flitClass flit = classNumber p.cls ∧
        flitKs flit = (x.encrypt && x.ks) ∧ flitLseq flit = x.txLseq + BitVec.ofNat 16 i ∧ flitField flit 0 1 % 16 = p.lane % 16 ∧
        codes[i]? = some (flitField flit 1 1 / 64) ∧ flitField flit 4 3 % 2 ^ 19 = p.dst % 2 ^ 19 ∧
        flitField flit 7 3 % 2 ^ 19 = p.src % 2 ^ 19 ∧ flitField flit 10 2 = p.eseq.toNat ∧
        (x.encrypt = false → flitField flit 236 16 = 0)) ∧
      (∀ flit, fs = [flit] → x.encrypt = false → y.last = some flit) ∧
      (∀ (flit : Flit) k, fs = [flit] → x.encrypt = true → mget x.sendKeys (slotNumber x.ks) = some k →
        y.last = some (sealFlit (protectFlit k flit.toNat))) ∧
      mget y.sendKeys (slotNumber x.ks) = (mget x.sendKeys (slotNumber x.ks)).map fun k =>
        { k with counter := k.counter + if x.encrypt then codes.length else 0 })) ∧
  (∀ s dst lane n, planeFor s dst lane = some n → planeReaches s dst n = true ∧
    (n = lane → othersAcked s dst lane = false → exec (.planeFailover dst lane) s = .next s) ∧
    (n ≠ lane ∨ othersAcked s dst lane = true → ∃ s', exec (.planeFailover dst lane) s = .next s' ∧ OnlyFabric s s' ∧
      (∀ x ∈ s'.fab.streams, x.src = s.fab.dev → x.dst = dst → x.lane = lane → x.plane = n) ∧
      ∀ q ∈ s'.fab.packets, q.src = s.fab.dev → q.dst = dst → q.lane = lane → q.plane = n ∨ q.plane = beyondLeaf)) ∧
  (∀ s port cls resume x, mget s.fab.ports port = some x → ∃ s' y, exec (.classPause port cls resume) s = .next s' ∧
    OnlyFabric s s' ∧ mget s'.fab.ports port = some y ∧ y = { x with pauses := y.pauses } ∧
    ∀ d, d ∈ y.pauses ↔ if d = cls then resume = false else d ∈ x.pauses) ∧
  (∀ s, (∀ q ∈ s.fab.unacked, overdue s q = false) → exec .unreachableTimeout s = .next s) ∧
  ∀ s p, s.fab.unacked.find? (overdue s) = some p → (p.cls = .request ∨ p.cls = .forward) ∧ p.firstAt + 10000 ≤ s.pwr.usec ∧
    ∃ s', exec .unreachableTimeout s = .next s' ∧ p.dst ∈ s'.fab.unreachable ∧ s'.pwr = s.pwr ∧
      (∀ q ∈ s'.fab.unacked ++ s'.fab.packets, ¬(q.dst = p.dst ∧ (q.cls = .request ∨ q.cls = .forward))) ∧
      s'.fw.responses = s.fw.responses ++ [{ tag := 0xFFFFFFFF, status := 0x81, detail := 0, value := BitVec.ofNat 64 p.dst }]

/-- R395, R166: combining in the leaf switch. A group that closes sends one request with the sum of its addends; each of its members
of this device receives the value that the members before it had left, or the refusal that the target answered, and has been
acknowledged. That requests combine in leaf switches only, those of this device's own members among them, is the model's choice (log
entry 78). -/
def Claims.Combining : Prop :=
  (∀ s g m ms req c obj ea size kind ty data cmp rel cls, s.fab.groups.find? (fun x => x.id == g.id && !x.closed) = some g →
    g.members = m :: ms → m.load = .access req c obj ea size kind ty data cmp rel cls →
    ∃ s', exec (.combiningWindowClose g.id) s = .next s' ∧ (∀ x ∈ s'.fab.groups, x.id = g.id → x.closed = true) ∧
      (∃ p ∈ s'.fab.packets, p.dst = m.dst ∧ p.lane = m.lane ∧ p.cls = m.cls ∧
        p.load = .access g.id leafCore obj ea size kind ty ((g.members.map addend).sum % 2 ^ (8 * g.size)) cmp rel cls) ∧
      (∀ q ∈ s'.fab.behind, q ∈ s.fab.behind ∧ ∃ x ∈ s'.fab.groups, x.closed = false ∧ x.plane = q.2.plane ∧ x.output = q.1 ∧
        ∃ y ∈ x.members, oneStream q.2 y = true) ∧
      ∀ a, seeByte s'.kern a = seeByte s.kern a) ∧
  ∀ s g, s.fab.groups.find? (fun x => x.id == g.id && x.closed) = some g →
    (∀ m ∈ g.members, ∃ req c obj ea size kind ty data cmp rel cls, m.load = .access req c obj ea size kind ty data cmp rel cls) →
    let ours := g.members.filter fun m => m.src == s.fab.dev
    let ends (rs : List FabPacket) : Prop := ∃ s', exec (.combinedReply g.id) s = .next s' ∧ OnlyFabric s s' ∧
      (∀ x ∈ s'.fab.groups, x.id ≠ g.id) ∧ s'.fab.arrived = s.fab.arrived ++ rs ∧
      ∀ q, q ∈ s'.fab.unacked ↔ q ∈ s.fab.unacked ∧ ∀ m ∈ g.members, q.id ≠ m.id
    (g.old = none → g.bad = none → exec (.combinedReply g.id) s = .next s) ∧
    (∀ v, g.old = some v → v < 2 ^ (8 * g.size) → ∃ rs, ends rs ∧ rs.length = ours.length ∧
      ∀ i (m : FabPacket) req c obj ea size kind ty data cmp rel cls, g.members[i]? = some m → m.src = s.fab.dev →
        m.load = .access req c obj ea size kind ty data cmp rel cls →
        { m with src := m.dst, dst := m.src, cls := .reply,
                 load := .reply req c ((v + ((g.members.take i).map addend).sum) % 2 ^ (8 * g.size))
                   (if i = 0 then g.met else 0) (if i = 0 then g.charge else 0) } ∈ rs) ∧
    ∀ x, g.old = none → g.bad = some x → ∃ rs, ends rs ∧ rs.length = ours.length ∧
      ∀ i (m : FabPacket) req c obj ea size kind ty data cmp rel cls, g.members[i]? = some m → m.src = s.fab.dev →
        m.load = .access req c obj ea size kind ty data cmp rel cls →
        { m with src := m.dst, dst := m.src, cls := .reply, load := badFor req c (if i = 0 then x else uncharged x) } ∈ rs

/-- What PacketEvents and Combining say. The clauses that they name as the model's choices rest on log entry 78. -/
def Obligations.FabricEvents : Prop := Claims.PacketEvents ∧ Claims.Combining

/-- R390, R391, R398 to R405: the link. A flit with the expected LSEQ whose checks pass is delivered into the buffer of its class,
which is paused at the half and resumed at the quarter, or discarded and counted where it is of no class; one that fails its CRC or
its tag asks for a replay, and a second failure of one tag takes the port down without its keys; a replay sends again under the
counter; more than 16 replays in 100 µs retrain the port; training ends at eight lanes, at four, or isolated after three tries; keys
switch by a marker sent under the old slot. That a port isolated by training counts as unit 64 + port among those that the device
cannot service is the model's choice (log entry 117). -/
def Obligations.LinkEvents : Prop :=
  (∀ s port x flit, mget s.fab.ports port = some x → portUp x = true → ∃ s' y, exec (.flitReceive port flit) s = .next s' ∧
    OnlyFabric s s' ∧ mget s'.fab.ports port = some y ∧
    let counted := (mget x.recvKeys (slotNumber (flitKs flit))).map fun k => if x.encrypt then { k with counter := k.counter + 1 } else k
    let plain := openFlit x flit
    let marker : Bool := flitClass plain == 4 && x.encrypt && Config.isMarker plain
    let acks := if flitClass plain = 4 ∧ marker = false then Config.ackedBy plain else none
    (crcGood flit = false → y.wantReplay = some x.rxLseq ∧ y.rxLseq = x.rxLseq ∧ y.rx = x.rx ∧ y.state = x.state ∧
      mget y.recvKeys (slotNumber (flitKs flit)) = counted) ∧
    (crcGood flit = true → flitLseq flit ≠ x.rxLseq → y.wantReplay = x.wantReplay ∧ y.rxLseq = x.rxLseq ∧ y.rx = x.rx ∧
      y.state = x.state ∧ mget y.recvKeys (slotNumber (flitKs flit)) = counted) ∧
    (crcGood flit = true → flitLseq flit = x.rxLseq → tagPasses x flit = true → y.wantReplay = none ∧
      y.rxLseq = x.rxLseq + 1 ∧ y.state = x.state ∧ plain.toNat % 2 ^ 128 = flit.toNat % 2 ^ 128 ∧
      (marker = true → y.rks = (flitField plain 16 1).testBit 0 ∧ y.rx = x.rx ∧ y.errors = x.errors) ∧
      (∀ lseq, acks = some lseq → y.replay = (dropAcked lseq x).replay ∧ y.rks = x.rks ∧ y.rx = x.rx ∧ y.errors = x.errors) ∧
      (marker = false → acks = none → y.rks = x.rks ∧ y.replay = x.replay ∧
        y.rx = (if flitClass flit < 5 then x.rx ++ [plain] else x.rx) ∧
        y.errors = (if flitClass flit < 5 then x.errors else x.errors + 1) ∧
        y.ackDue = (x.ackDue || decide (flitClass flit < 4)) ∧ ∀ cls, classNumber cls = flitClass flit →
          (Config.classBuffer ≤ 2 * buffered y cls → cls ∈ y.pausing) ∧
          (2 * buffered y cls < Config.classBuffer → 4 * buffered y cls ≤ Config.classBuffer → cls ∉ y.pausing)) ∧
      mget y.recvKeys (slotNumber (flitKs flit)) = counted) ∧
    (crcGood flit = true → flitLseq flit = x.rxLseq → tagPasses x flit = false → x.badTag ≠ some (flitLseq flit) →
      y.wantReplay = some x.rxLseq ∧ y.badTag = some x.rxLseq ∧ y.rxLseq = x.rxLseq ∧ y.rx = x.rx ∧ y.state = x.state) ∧
    (crcGood flit = true → flitLseq flit = x.rxLseq → tagPasses x flit = false → x.badTag = some (flitLseq flit) →
      y.state = .down ∧ y.sendKeys = [] ∧ y.recvKeys = [] ∧ y.rx = x.rx)) ∧
  (∀ s port x lseq, mget s.fab.ports port = some x → portUp x = true → replayFrom x lseq ≠ [] →
    replayRoom x (replayFrom x lseq) = true →
    ∃ s' y, exec (.replayRequest port lseq) s = .next s' ∧ OnlyFabric s s' ∧ mget s'.fab.ports port = some y ∧
      y.replays = min 65535 (x.replays + 1) ∧ y.replay = replayFrom x lseq ∧ y.txLseq = x.txLseq ∧
      ∀ b, mget y.sendKeys (slotNumber b) = (mget x.sendKeys (slotNumber b)).map fun k =>
        { k with counter := k.counter + if x.encrypt then ((replayFrom x lseq).filter fun z => flitKs z.2 == b).length else 0 }) ∧
  (∀ s port x lseq, mget s.fab.ports port = some x → portUp x = true → replayFrom x lseq ≠ [] →
    replayRoom x (replayFrom x lseq) = false → ∃ s', exec (.replayRequest port lseq) s = .next s' ∧ OnlyFabric s s' ∧
      mget s'.fab.ports port = some { x with paused := true }) ∧
  (∀ s port x, mget s.fab.ports port = some x → portUp x = true →
    16 < (x.recent.filter fun t => s.pwr.usec ≤ t + 100).length → ∃ s' y, exec (.retrainTrigger port) s = .next s' ∧
      OnlyFabric s s' ∧ mget s'.fab.ports port = some y ∧
      y = { x with state := .retrain, tries := 0, paused := true, retrains := min 255 (x.retrains + 1), recent := [] }) ∧
  (∀ s port x lanes, mget s.fab.ports port = some x → x.state = .train ∨ x.state = .retrain →
    ∃ s' y, exec (.trainComplete port lanes) s = .next s' ∧ s'.kern = s.kern ∧ s'.pwr = s.pwr ∧ mget s'.fab.ports port = some y ∧
      let half := lanes.toNat % 16 = 15 ∨ lanes.toNat / 16 = 15
      let stuck := decide (x.state = .retrain) && !replayRoom x x.replay
      (lanes = 255 → y.state = .up8 ∧ y.paused = stuck) ∧ (lanes ≠ 255 → half → y.state = .up4 ∧ y.paused = stuck) ∧
      (¬half → x.tries < 2 → y = { x with tries := x.tries + 1 }) ∧ (¬half → 2 ≤ x.tries → y.state = .isolated ∧ 64 + port ∈ s'.fw.unserviced)) ∧
  (∀ s port x, mget s.fab.ports port = some x → markerReady x = true → ∃ s' y flit, exec (.keyMarker port) s = .next s' ∧
    s'.kern = { s.kern with free := s.kern.free + 1 } ∧ mget s'.fab.ports port = some y ∧ y.ks = !x.ks ∧ y.kwarn = false ∧
    y.paused = false ∧ y.txLseq = x.txLseq + 1 ∧ y.replay.getLast? = some (x.txLseq, flit) ∧ flitClass flit = 4 ∧
    flitKs flit = (x.encrypt && x.ks) ∧ flitLseq flit = x.txLseq ∧ flitField flit 16 1 = slotNumber (!x.ks) ∧
    (∀ k, x.encrypt = true → mget x.sendKeys (slotNumber x.ks) = some k → y.last = some (sealFlit (protectFlit k flit.toNat))) ∧
    mget y.sendKeys (slotNumber x.ks) = (mget x.sendKeys (slotNumber x.ks)).map fun k =>
      { k with counter := k.counter + if x.encrypt then 1 else 0 }) ∧
  (∀ s port x k, mget s.fab.ports port = some x → mget x.sendKeys (slotNumber x.ks) = some k → 0xFFF00000 ≤ k.counter →
    x.kwarn = false → ∃ s', exec (.kwarn port) s = .next s' ∧ mget s'.fab.ports port = some { x with kwarn := true } ∧
      s'.kern = s.kern ∧ s'.pwr = s.pwr ∧
      s'.fw.responses = s.fw.responses ++ [{ tag := 0xFFFFFFFF, status := 0x82, detail := port, value := 0 }]) ∧
  ∀ s port x k, mget s.fab.ports port = some x → mget x.sendKeys (slotNumber x.ks) = some k → 2 ^ 32 ≤ k.counter →
    ∃ s', exec (.invocationLimit port) s = .next s' ∧ OnlyFabric s s' ∧ mget s'.fab.ports port = some { x with paused := true } ∧
      ∀ cls n, maySend { x with paused := true } cls n = false

/-- R435, R436, R437, R433: the gate of every Spagan command. An issuer outside the command's list is refused with status 3; a
device that is not ready, or frame firmware that is being switched, with status 4; RESCUE takes four commands, from the host and the
management port; an OPC that names no command is refused with status 1. A refusal changes nothing but the responses. A command waits
behind an earlier one of its issuer that waits to take effect, and the first that waits of an issuer is among what happens next.
That an image or a command that waits answers status 4 before the device is ready is the model's choice (log entry 74), and so is
how commands wait (log entry 91). -/
def Obligations.CommandGate : Prop :=
  (∀ i h by_ rescue s, commandOf i = some (h, by_, rescue) → behindOthers s h = true →
    exec i s = .next { s with fw := { s.fw with waiting := s.fw.waiting ++ [i] } }) ∧
  (∀ s i, s.fw.waiting.find? (fun j => issuerOf j == issuerOf i) = some i → i ∈ deviceEvents s) ∧
  (∀ i h by_ rescue s, commandOf i = some (h, by_, rescue) → behindOthers s h = false →
    let refused (n : Nat) : State := { s with fw :=
      { s.fw with responses := s.fw.responses ++ [{ tag := h.tag, status := n, detail := 0, value := 0 }] } }
    (h.issuer ∉ by_ → exec i s = .next (refused 3)) ∧
    (h.issuer ∈ by_ → s.fw.boot = .rescue → rescue = false ∨ h.issuer = .firmware → exec i s = .next (refused 4)) ∧
    (h.issuer ∈ by_ → s.fw.boot ≠ .rescue → s.fw.boot ≠ .ready → exec i s = .next (refused 4)) ∧
    (h.issuer ∈ by_ → s.fw.boot = .ready → s.fw.switching = true → h.issuer = .firmware → exec i s = .next (refused 4))) ∧
  ∀ h opc s,
    (behindOthers s h = true →
      exec (.unknownCommand h opc) s = .next { s with fw := { s.fw with waiting := s.fw.waiting ++ [.unknownCommand h opc] } }) ∧
    (behindOthers s h = false → exec (.unknownCommand h opc) s = .next { s with fw :=
      { s.fw with responses := s.fw.responses ++ [{ tag := h.tag, status := 1, detail := 0, value := 0 }] } })

/-- R362, R363, R381, R426, R315, R364, R365, R367, R370, R432, R351: the commands on contexts, objects, frames and graphs, once
past the gate: what each sets, and what it refuses. These are the model's choices: CTXCLOSE waits for the accesses, copies and
packets of its context that have been accepted and not completed (log entry 109), GRAPHFREE is refused while a run is in progress
only (118), STATEREAD numbers a block and writes it as a slot of the stand-down area (69), frames and extents are numbered by 72,
FRAMECLASS erases to 0 (71), OBJSET waits (80), and a command that waits holds up those of its issuer (91).
-/
def Obligations.KernelCommands : Prop :=
  (∀ h ctx objt s, Passes s h byHF false → ctx < 16 → (getCtx s.kern ctx).state = .free →
    ∃ s', exec (.ctxopen h ctx objt) s = .next s' ∧ Answered s s' h 0 0 ∧ s'.pwr.due = true ∧
      getCtx s'.kern ctx = { Ctx.reset with state := .opened, objt := objt } ∧
      ∀ d, d ≠ ctx → getCtx s'.kern d = getCtx s.kern d) ∧
  (∀ h ctx s, Passes s h byHF false → ctx < 16 →
    ((getCtx s.kern ctx).state = .opened ∨ (getCtx s.kern ctx).state = .stopped → ctxPending s.kern ctx = true →
      ∃ s', exec (.ctxclose h ctx) s = .next s' ∧ s'.kern = s.kern ∧ Waits s s' (.ctxclose h ctx)) ∧
    ((getCtx s.kern ctx).state = .opened ∨ (getCtx s.kern ctx).state = .stopped → ctxPending s.kern ctx = false →
      ∃ s', exec (.ctxclose h ctx) s = .next s' ∧ Answered s s' h 0 0 ∧ getCtx s'.kern ctx = Ctx.reset ∧ (∀ p ∈ s'.kern.launches, p.2.ctx = ctx → p.2.done = true) ∧
      (∀ p ∈ s'.kern.queues, p.2.ctx ≠ ctx) ∧ ∀ c, (∀ b ∈ (coreOf s'.kern c).blocks, b.2.ctx ≠ ctx) ∧
        (∀ e ∈ (coreOf s'.kern c).wc, e.ctx ≠ ctx) ∧ ∀ q ∈ (coreOf s'.kern c).reqs, q.ctx ≠ ctx) ∧
    ((getCtx s.kern ctx).state = .running → exec (.ctxclose h ctx) s = refuse s h 4)) ∧
  (∀ h ctx field v s, Passes s h byHF false → ctx < 16 → (getCtx s.kern ctx).state ≠ .free →
    let x := getCtx s.kern ctx
    let sets (y : Ctx) : Prop := ∃ s', exec (.ctxset h ctx field v) s = .next s' ∧ Answered s s' h 0 0 ∧ OnlyKernAndAnswer s s' ∧
      getCtx s'.kern ctx = y ∧ ∀ d, d ≠ ctx → getCtx s'.kern d = getCtx s.kern d
    let inRange : Prop := (field = 0 ∧ 1 ≤ v.toNat ∧ v.toNat ≤ 255) ∨ (field = 1 ∧ 64 ≤ v.toNat ∧ v.toNat ≤ 4096) ∨ field = 2 ∨ field = 3
    (field = 0 → inRange → sets { x with share := v.toNat }) ∧ (field = 1 → inRange → sets { x with wcage := v.toNat }) ∧
    (field = 2 → sets { x with save := v }) ∧ (field = 3 → sets { x with log := v }) ∧
    (¬inRange → exec (.ctxset h ctx field v) s = refuse s h 2)) ∧
  (∀ h ctx n s, Passes s h byHF false → ctx < 16 → (getCtx s.kern ctx).state ≠ .free →
    ∃ s', exec (.ctxbudget h ctx n) s = .next s' ∧ Answered s s' h 0 0 ∧ OnlyKernAndAnswer s s' ∧
      (getCtx s'.kern ctx).ebudget = min (2 ^ 32 - 1) ((getCtx s.kern ctx).ebudget + n.toNat) ∧
      (n ≠ 0 → (getCtx s.kern ctx).ebudget = 0 → (getCtx s'.kern ctx).armed = true)) ∧
  (∀ h ctx block dst s b ea rs, Passes s h byHF false → ctx < 16 → (getCtx s.kern ctx).state = .stopped →
    blockOf s.kern (block / 16) (block % 16) = some b → b.ctx = ctx →
    checkObj s.kern ctx dst.toNat (capOff dst.toNat) slotSize 1 4 = .ok ea →
    objRuns s.kern ctx (capObj dst.toNat) ea slotSize = .ok rs → ∃ s', exec (.stateread h ctx block dst) s = .next s' ∧
      Answered s s' h 0 0 ∧ OnlyKernAndAnswer s s' ∧
      (∀ a rest, rs = (a, 64) :: rest → (∀ r ∈ rest, r.1 + r.2 ≤ a ∨ a + 64 ≤ r.1) → MemoryOk s →
        getNat s'.kern a 8 = 1 ∧ getNat s'.kern (a + 8) 8 = b.launch % 2 ^ 64 ∧ getNat s'.kern (a + 16) 4 = b.number % 2 ^ 32 ∧
        getNat s'.kern (a + 20) 2 = b.groups.length % 2 ^ 16) ∧
      ∀ x, (∀ r ∈ rs, x < r.1 ∨ r.1 + r.2 ≤ x) → seeByte s'.kern x = seeByte s.kern x) ∧
  (∀ h ctx entry s, Passes s h byF false → ctx < 16 → (getCtx s.kern ctx).state ≠ .free → entry.toNat % 2 ^ 24 ≠ 0 →
    objBusy s.kern ctx (entry.toNat % 2 ^ 24) = false → ∃ s', exec (.objset h ctx entry) s = .next s' ∧ Answered s s' h 0 0 ∧
      OnlyKernAndAnswer s s' ∧ let o := mget (getCtx s'.kern ctx).objs (entry.toNat % 2 ^ 24)
      (entry.toNat / 2 ^ 24 % 4 = 3 ∨ entry.toNat / 2 ^ 26 % 4 = 3 → o = none) ∧
      ∀ x, o = some x → x.rd = entry.toNat.testBit 31 ∧ x.wr = entry.toNat.testBit 30 ∧ x.at_ = entry.toNat.testBit 29 ∧
        x.ex = entry.toNat.testBit 28 ∧ x.hdev = entry.toNat / 2 ^ 32 % 2 ^ 19 ∧ x.present = entry.toNat.testBit 63 ∧
        x.size = entry.toNat / 2 ^ 64 % 2 ^ 36 ∧ x.ext = entry.toNat / 2 ^ 128 % 2 ^ 64) ∧
  (∀ h ctx entry s, Passes s h byF false → ctx < 16 → (getCtx s.kern ctx).state ≠ .free → entry.toNat % 2 ^ 24 ≠ 0 →
    objBusy s.kern ctx (entry.toNat % 2 ^ 24) = true →
    ∃ s', exec (.objset h ctx entry) s = .next s' ∧ s'.kern = s.kern ∧ Waits s s' (.objset h ctx entry)) ∧
  (∀ h obj ext desc s p ps, Passes s h byF false → homes s.kern obj = p :: ps →
    (ceilDiv p.2.size (frameBytes p.2) ≤ ext → exec (.extset h obj ext desc) s = refuse s h 2) ∧
    (ext < ceilDiv p.2.size (frameBytes p.2) → namesRetired s.kern desc = true → exec (.extset h obj ext desc) s = refuse s h 4)) ∧
  (∀ h obj ext desc s p ps, Passes s h byF false → homes s.kern obj = p :: ps →
    ext < ceilDiv p.2.size (frameBytes p.2) → namesRetired s.kern desc = false →
    ∃ s', exec (.extset h obj ext desc) s = .next s' ∧ Answered s s' h 0 0 ∧ OnlyKernAndAnswer s s' ∧
      mget s'.kern.extents (p.2.ext + ext) = some desc ∧
      ∀ n, n ≠ p.2.ext + ext → mget s'.kern.extents n = mget s.kern.extents n) ∧
  (∀ h ctx park declined s, Passes s h byHF false →
    (s.kern.cores.findSome? fun p => (p.2.parks.find? fun q => q.id == park && q.ctx == ctx).map fun q => (p.1, q)) = none →
    (∀ w, s.kern.units.find? (fun w => w.id == park && w.ctx == ctx) = some w →
      ∃ s', exec (.parkdone h ctx park declined) s = .next s' ∧ Answered s s' h 0 0 ∧ OnlyKernAndAnswer s s' ∧
        ∀ x ∈ s'.kern.units, x.id ≠ park) ∧
    (s.kern.units.find? (fun w => w.id == park && w.ctx == ctx) = none → exec (.parkdone h ctx park declined) s = refuse s h 2)) ∧
  (∀ h ctx park declined s c q, Passes s h byHF false →
    (s.kern.cores.findSome? fun p => (p.2.parks.find? fun q => q.id == park && q.ctx == ctx).map fun q => (p.1, q)) = some (c, q) →
    ∃ s', exec (.parkdone h ctx park declined) s = .next s' ∧ Answered s s' h 0 0 ∧ OnlyKernAndAnswer s s') ∧
  (∀ h frame cls s, Passes s h byF false → frame < 2 ^ 18 → frameNamed s.kern false frame = false →
    (frameInfo s.kern false frame).retired = false → ∃ s', exec (.frameclass h frame cls) s = .next s' ∧ Answered s s' h 0 0 ∧
      OnlyKernAndAnswer s s' ∧ frameClass s'.kern frame = cls ∧
      (∀ a, frame * 2 ^ 21 ≤ a → a < frame * 2 ^ 21 + 2 ^ 21 → seeByte s'.kern a = 0) ∧
      ∀ a, a < frame * 2 ^ 21 ∨ frame * 2 ^ 21 + 2 ^ 21 ≤ a → seeByte s'.kern a = seeByte s.kern a) ∧
  (∀ h frame cls s, Passes s h byF false → frame < 2 ^ 18 → frameNamed s.kern false frame = true →
    exec (.frameclass h frame cls) s = refuse s h 4) ∧
  (∀ h frame s, Passes s h byF false → frame < 2 ^ 18 + 2 ^ 15 → frameNamed s.kern (2 ^ 18 ≤ frame) (frame % 2 ^ 18) = false →
    ∃ s', exec (.frameretire h frame) s = .next s' ∧ Answered s s' h 0 0 ∧ OnlyKernAndAnswer s s' ∧
      (frameInfo s'.kern (2 ^ 18 ≤ frame) (frame % 2 ^ 18)).retired = true ∧ ∀ a, seeByte s'.kern a = seeByte s.kern a) ∧
  (∀ h graph ctx image s k, Passes s h byHF false → graph < 1024 → graphBusy s.kern graph = false →
    graphAsks s.kern graph ctx image.toNat = some k →
    ∃ s', exec (.graphload h graph ctx image) s = .next s' ∧ s'.kern = k ∧ Waits s s' (.graphload h graph ctx image)) ∧
  (∀ h graph ctx image s g, Passes s h byHF false → graph < 1024 → graphBusy s.kern graph = false →
    graphAsks s.kern graph ctx image.toNat = none →
    (imageBytes s.kern (imageUnit graph) ctx image.toNat).bind (graphOf s.kern graph) = some g →
    (storeUsed s.kern graph + 64 + 576 * g.nodes.length ≤ 2 ^ 22 → ∃ s' x, exec (.graphload h graph ctx image) s = .next s' ∧
      Answered s s' h 0 0 ∧ OnlyKernAndAnswer s s' ∧ mget s'.kern.graphs graph = some x ∧ x.ctx = g.ctx ∧ x.running = false ∧
      x.nodes.map (·.rec_) = g.nodes.map (·.rec_)) ∧
    (2 ^ 22 < storeUsed s.kern graph + 64 + 576 * g.nodes.length → exec (.graphload h graph ctx image) s =
      refuse { s with kern := endUnit s.kern (imageUnit graph) } h 7)) ∧
  (∀ h graph ctx image s, Passes s h byHF false → graph < 1024 → graphBusy s.kern graph = true →
    exec (.graphload h graph ctx image) s = refuse s h 4) ∧
  ∀ h graph s x, Passes s h byHF false → mget s.kern.graphs graph = some x →
    (x.running = false → ∃ s', exec (.graphfree h graph) s = .next s' ∧ Answered s s' h 0 0 ∧ OnlyKernAndAnswer s s' ∧
      mget s'.kern.graphs graph = none) ∧
    (x.running = true → exec (.graphfree h graph) s = refuse s h 4)

/-- R174, R177, R188, R196 to R198, R208: where COPY, COPYQ, the timelines and MX complete. A COPY whose ranges pass is in flight as
soon as the core has a free slot and room for its ranges; a COPYQ of a local queue with a good header has claimed its slot; TLRD and
TLRD.issued of a bound timeline answer, and TLWAIT goes on where the value has been reached; an MX without a peg that no check stops
has launched. -/
def Claims.WordsComplete : Prop :=
  (∀ (x : MForm) s t blk w, ExecutesAlone s (.copy x) t = true →
    let c := s.cur.core
    let k := beforeBody s (.copy x) t
    let d := fun i => readAt s.kern c t x.idx i
    let desc := descOf (d 0) (d 1) (d 2) (d 3)
    blockOf k c t.block = some blk → checkCopy k c t blk x.sp (copyBase s.kern c t x) desc = .ok w → w.fail = none → desc.mode ≠ 3 →
    (coreOf k c).copies.length < 64 → entriesUsed (coreOf k c) + (w.srcR.length + w.dstR.length) ≤ 32 →
    copyWaits (coreOf k c) s.cur.entry = false →
    ∃ s' j, exec (.copy x) s = .next s' ∧ StandsAt s'.kern c t (curNext s) ∧ (coreOf s'.kern c).copies = (coreOf k c).copies ++ [j] ∧
      j.srcR = w.srcR ∧ j.dstR = w.dstR ∧ j.fail = none ∧ ∀ a, seeByte s'.kern a = seeByte s.kern a) ∧
  (∀ (x : MForm) s t blk im q hr ir hb ib, ExecutesAlone s (.copyq x) t = true →
    let c := s.cur.core
    let k := beforeBody s (.copyq x) t
    let ctx := ctxOf k c t
    blockOf k c t.block = some blk → imageSpot s k t x = .ok im →
    spotOf s.kern c t x false 64 64 (needWrite + needAtomic) = .ok q → remoteSpot k ctx q = false →
    spotRuns k c blk q 64 = .ok hr → spotRuns k c blk im 64 = .ok ir →
    readRuns k ctx (classOf k c t) hr = (k, .ok hb) → badHeader hb = false → readRuns k ctx (classOf k c t) ir = (k, .ok ib) →
    ∃ s' j, exec (.copyq x) s = .next s' ∧ StandsAt s'.kern c t (curNext s) ∧ (coreOf s'.kern c).copyqs = (coreOf k c).copyqs ++ [j] ∧
      j.w = BitVec.ofNat 64 (fieldOf hb 8 8) ∧ j.image = ib) ∧
  (∀ (x : SForm) s t l i, x.a = .tl i → boundTimeline s.kern s.cur.core t i.val = some l →
    (ExecutesAlone s (.tlrd x) t = true → ∃ s', exec (.tlrd x) s = .next s' ∧ StandsAt s'.kern s.cur.core t (curNext s)) ∧
    (ExecutesAlone s (.tlrdIssued x) t = true → recTlKind l i.val ≠ 2 ∨
      remoteObj s.kern (ctxOf s.kern s.cur.core t) (recTlCap l i.val) = true ∨
      (∃ rs, objRuns s.kern (ctxOf s.kern s.cur.core t) (capObj (recTlCap l i.val)) (capOff (recTlCap l i.val) + 8) 8 = .ok rs) →
      ∃ s', exec (.tlrdIssued x) s = .next s' ∧ StandsAt s'.kern s.cur.core t (curNext s))) ∧
  (∀ (x : SForm) s t l i, x.d = .tl i → boundTimeline s.kern s.cur.core t i.val = some l → ExecutesAlone s (.tlwait x) t = true →
    let k := beforeBody s (.tlwait x) t
    readPair s.kern s.cur.core t x.a ≤ timelineValue k s.cur.core (ctxOf k s.cur.core t) l i.val →
    ∃ s', exec (.tlwait x) s = .next s' ∧ StandsAt s'.kern s.cur.core t (curNext s) ∧ (coreOf s'.kern s.cur.core).lcache = [] ∧
      ∀ a, seeByte s'.kern a = seeByte s.kern a) ∧
  ∀ (x : XForm) s t blk l, x.pge = false →
    let c := s.cur.core
    let launches := fun (set : Bool) (i : Instr) => ExecutesAlone s i t = true → blockOf (beforeBody s i t) c t.block = some blk →
      threadLaunch (beforeBody s i t) c t = some l → mxTrap blk l x = none →
      ∃ s' m, exec i s = .next s' ∧ (coreOf s'.kern c).mxq = (coreOf s.kern c).mxq ++ [m] ∧ m.block = t.block ∧ m.x = x ∧ m.set = set ∧
        ∀ a, seeByte s'.kern a = seeByte s.kern a
    launches false (.mx x) ∧ launches true (.mxSet x)

/-- R363, R381, R362, R426, R364, R365, R315, R367, R370, R432, R351: where the commands on contexts, objects, frames and graphs
complete, with status 0: from an issuer that may give them, on a device that is ready, for a context in a state that the command
takes. How blocks and frames are numbered (log entries 69 and 72) is the model's choice. -/
def Claims.CommandsComplete : Prop :=
  ∀ (h : CmdHdr) (s : State), s.fw.boot = .ready → behindOthers s h = false → h.issuer = .host ∨ (h.issuer = .firmware ∧ s.fw.switching = false) →
    let ends (i : Instr) (p : State → Prop) : Prop := ∃ s', exec i s = .next s' ∧ p s' ∧
      s'.fw.responses = s.fw.responses ++ [{ tag := h.tag, status := 0, detail := 0, value := 0 }]
    (∀ ctx objt, ctx < 16 → (getCtx s.kern ctx).state = .free →
      ends (.ctxopen h ctx objt) fun s' => (getCtx s'.kern ctx).state = .opened ∧ (getCtx s'.kern ctx).objt = objt) ∧
    (∀ ctx, ctx < 16 → (getCtx s.kern ctx).state = .opened ∨ (getCtx s.kern ctx).state = .stopped → ctxPending s.kern ctx = false →
      ends (.ctxclose h ctx) fun s' => (getCtx s'.kern ctx).state = .free) ∧
    (∀ ctx v, ctx < 16 → (getCtx s.kern ctx).state ≠ .free →
      (1 ≤ v.toNat → v.toNat ≤ 255 → ends (.ctxset h ctx 0 v) fun s' => (getCtx s'.kern ctx).share = v.toNat) ∧
      (64 ≤ v.toNat → v.toNat ≤ 4096 → ends (.ctxset h ctx 1 v) fun s' => (getCtx s'.kern ctx).wcage = v.toNat) ∧
      (ends (.ctxset h ctx 2 v) fun s' => (getCtx s'.kern ctx).save = v) ∧ ends (.ctxset h ctx 3 v) fun s' => (getCtx s'.kern ctx).log = v) ∧
    (∀ ctx (n : W32), ctx < 16 → (getCtx s.kern ctx).state ≠ .free → ends (.ctxbudget h ctx n) fun s' =>
      (getCtx s'.kern ctx).ebudget = min (2 ^ 32 - 1) ((getCtx s.kern ctx).ebudget + n.toNat)) ∧
    (∀ ctx block dst b ea, ctx < 16 → (getCtx s.kern ctx).state = .stopped → blockOf s.kern (block / 16) (block % 16) = some b →
      b.ctx = ctx → checkObj s.kern ctx dst.toNat (capOff dst.toNat) slotSize 1 4 = .ok ea →
      ends (.stateread h ctx block dst) fun s' => s'.kern.free = s.kern.free + 1) ∧
    (∀ ctx park declined, (∃ p ∈ s.kern.cores, ∃ q ∈ p.2.parks, q.id = park ∧ q.ctx = ctx) ∨
      (∃ w ∈ s.kern.units, w.id = park ∧ w.ctx = ctx) → ends (.parkdone h ctx park declined) fun _ => True) ∧
    (∀ graph ctx image b g, graph < 1024 → graphBusy s.kern graph = false → graphAsks s.kern graph ctx image.toNat = none →
      imageBytes s.kern (imageUnit graph) ctx image.toNat = some b → graphOf s.kern graph b = some g → storeUsed s.kern graph + 64 + 576 * g.nodes.length ≤ 2 ^ 22 →
      ends (.graphload h graph ctx image) fun s' => (mget s'.kern.graphs graph).map (·.running) = some false) ∧
    (∀ graph g, mget s.kern.graphs graph = some g → g.running = false → g.triggers = [] →
      ends (.graphfree h graph) fun s' => mget s'.kern.graphs graph = none) ∧
    (h.issuer = .firmware →
      (∀ ctx entry, ctx < 16 → (getCtx s.kern ctx).state ≠ .free → entry.toNat % 2 ^ 24 ≠ 0 →
        objBusy s.kern ctx (entry.toNat % 2 ^ 24) = false → ends (.objset h ctx entry) fun s' => (getCtx s'.kern ctx).state ≠ .free) ∧
      (∀ obj ext desc p ps, homes s.kern obj = p :: ps → ext < ceilDiv p.2.size (frameBytes p.2) →
        namesRetired s.kern desc = false → ends (.extset h obj ext desc) fun s' => mget s'.kern.extents (p.2.ext + ext) = some desc) ∧
      (∀ frame cls, frame < 2 ^ 18 → frameNamed s.kern false frame = false → (frameInfo s.kern false frame).retired = false →
        ends (.frameclass h frame cls) fun s' => frameClass s'.kern frame = cls) ∧
      ∀ frame, frame < 2 ^ 18 + 2 ^ 15 → frameNamed s.kern (2 ^ 18 ≤ frame) (frame % 2 ^ 18) = false →
        ends (.frameretire h frame) fun s' => (frameInfo s'.kern (2 ^ 18 ≤ frame) (frame % 2 ^ 18)).retired = true)

/-- What WordsComplete and CommandsComplete say. The clauses that they name as the model's choices rest on log entries 69 and 72. -/
def Obligations.Completions : Prop := Claims.WordsComplete ∧ Claims.CommandsComplete

/-- R413, R421, R423, R427, R433, R434, R396, R399 to R402, R438, R439: the commands on power, bays, ports, keys, peers and
firmware, once past the gate: what each sets, and what it refuses. These are the model's choices: the form of a report (log entry
70), where an image ends (76), how EXPORT sends (79), that a command that waits holds up those of its issuer (91), and when BOOT
brings a serving core up again (118). -/
def Obligations.DeviceCommands : Prop :=
  (∀ h w s, Passes s h byAll false →
    (1200 ≤ w → w ≤ 3200 → ∃ s', exec (.pcap h w) s = .next s' ∧ Answered s s' h 0 0 ∧ s'.kern = s.kern ∧
      s'.pwr = { s.pwr with pcap := w, due := true }) ∧
    (w < 1200 ∨ 3200 < w → exec (.pcap h w) s = refuse s h 2)) ∧
  (∀ h b n s y, Passes s h byF false → mget s.pwr.bays b = some y →
    (b < 32 → 1 ≤ n → n ≤ 64 → ∃ s', exec (.slope h b n) s = .next s' ∧ Answered s s' h 0 0 ∧ s'.kern = s.kern ∧
      mget s'.pwr.bays b = some { y with slope := n }) ∧
    (n = 0 ∨ 64 < n → exec (.slope h b n) s = refuse s h 2)) ∧
  (∀ h ctx source bay th fall word s ea, Passes s h byHF false → source ≤ 4 → (source < 2 → bay < 32) → (2 ≤ source → bay = 0) →
    checkObj s.kern ctx word.toNat (capOff word.toNat) 8 8 4 = .ok ea →
    (∀ i, (List.range 32).find? (fun i => (mget s.pwr.subs i).isNone) = some i →
      ∃ s' x, exec (.subscribe h ctx source bay th fall word) s = .next s' ∧ Answered s s' h 0 i ∧ s'.kern = s.kern ∧
        mget s'.pwr.subs i = some x ∧ x.ctx = ctx ∧ x.source = source ∧ x.bay = bay ∧ x.thresh = th ∧ x.fall = fall ∧ x.word = word ∧
        x.count = 0) ∧
    ((∀ i, i < 32 → mget s.pwr.subs i ≠ none) → exec (.subscribe h ctx source bay th fall word) s = refuse s h 7)) ∧
  (∀ h n s, Passes s h byHF false →
    (mget s.pwr.subs n ≠ none → ∃ s', exec (.unsubscribe h n) s = .next s' ∧ Answered s s' h 0 0 ∧ s'.kern = s.kern ∧
      mget s'.pwr.subs n = none) ∧
    (mget s.pwr.subs n = none → exec (.unsubscribe h n) s = refuse s h 2)) ∧
  (∀ h d n s x, Passes s h byF false → d < 4 → mget s.pwr.dies d = some x →
    (∃ t, (x.returning = some t ∨ x.holdoff = some t) ∧ s.pwr.usec < t) → exec (.margin h d n) s = refuse s h 4) ∧
  (∀ h d n s x, Passes s h byF false → d < 4 → mget s.pwr.dies d = some x →
    (∀ t, x.returning = some t ∨ x.holdoff = some t → t ≤ s.pwr.usec) → x.attributed = none →
    (n ≤ 12 → n ≠ x.offset → n ≤ x.offset + 1 ∨ (∀ t, x.lastChange = some t → t + 10000 ≤ s.pwr.usec) →
      ∃ s', exec (.margin h d n) s = .next s' ∧ Answered s s' h 0 0 ∧
        s'.kern = s.kern ∧ mget s'.pwr.dies d = some { x with offset := n, lastChange := some s.pwr.usec }) ∧
    (n ≤ 12 → n = x.offset → exec (.margin h d n) s = refuse s h 0) ∧
    (12 < n ∨ (x.offset + 1 < n ∧ ∃ t, x.lastChange = some t ∧ s.pwr.usec < t + 10000) → exec (.margin h d n) s = refuse s h 4)) ∧
  (∀ h b s y, Passes s h byHF false → b < 32 → mget s.pwr.bays b = some y →
    (bayNoRegion s.kern b = true → ∃ s', exec (.bayquiesce h b) s = .next s' ∧ s'.kern = s.kern ∧
      mget s'.pwr.bays b = some { y with enabled := false } ∧ (bayNoBlock s.kern b = true → Answered s s' h 0 0) ∧
      (bayNoBlock s.kern b = false → s'.fw = { s.fw with waiting := .bayquiesce h b :: s.fw.waiting })) ∧
    (bayNoRegion s.kern b = false → exec (.bayquiesce h b) s = refuse s h 4) ∧
    (y.enabled = false → bayEmpty s.kern b = true → ∃ s' z, exec (.bayrecal h b) s = .next s' ∧ Answered s s' h 0 0 ∧
      s'.kern = s.kern ∧ mget s'.pwr.bays b = some z ∧ z.floors = y.sensed ∧ z.enabled = false ∧
      (z.unstable = true ↔ ∃ x ∈ y.sensed, 15 < x)) ∧
    (y.enabled = true → exec (.bayrecal h b) s = refuse s h 4) ∧
    (y.unstable = false → ∃ s', exec (.bayreturn h b) s = .next s' ∧ Answered s s' h 0 0 ∧ s'.kern = s.kern ∧
      mget s'.pwr.bays b = some { y with enabled := true }) ∧
    (y.unstable = true → exec (.bayreturn h b) s = refuse s h 4)) ∧
  (∀ h port s x, port < 16 → mget s.fab.ports port = some x →
    (Passes s h byHF false → x.state = .down ∨ x.state = .isolated → ∃ s' y, exec (.porttrain h port) s = .next s' ∧
      Answered s s' h 0 0 ∧ mget s'.fab.ports port = some y ∧ y.state = .train ∧ y.tries = 0 ∧ y.retrains = 0 ∧ y.replays = 0 ∧
      y.sendKeys = x.sendKeys ∧ y.recvKeys = x.recvKeys) ∧
    (Passes s h byHF false → x.state ≠ .down → x.state ≠ .isolated → exec (.porttrain h port) s = refuse s h 4) ∧
    (Passes s h byHF false → ∃ s' y, exec (.portisolate h port) s = .next s' ∧ Answered s s' h 0 0 ∧
      mget s'.fab.ports port = some y ∧ y.state = .isolated) ∧
    (Passes s h byAll true → ∃ s' w, exec (.portstatus h port) s = .next s' ∧ Answered s s' h 0 w ∧ s' = { s with fw := s'.fw } ∧
      w / 2 ^ 29 = stateNumber x.state ∧ (w.testBit 28 = true ↔ x.encrypt = true) ∧ w.testBit 27 = x.ks ∧ w.testBit 26 = x.kwarn ∧
      w / 2 ^ 24 % 4 = 0 ∧ w / 2 ^ 16 % 256 = x.retrains % 256 ∧ w % 65536 = x.replays % 65536) ∧
    ∀ sending slot key salt, Passes s h byHF false → slot < 2 → ∃ s' y k, exec (.keyload h port sending slot key salt) s = .next s' ∧
      Answered s s' h 0 0 ∧ s'.kern = s.kern ∧ mget s'.fab.ports port = some y ∧
      mget (if sending then y.sendKeys else y.recvKeys) slot = some k ∧ k.key = key ∧ k.salt = salt ∧ k.counter = 0 ∧
      (∀ j, j ≠ slot → mget y.sendKeys j = mget x.sendKeys j ∧ mget y.recvKeys j = mget x.recvKeys j)) ∧
  (∀ h dev entry s, Passes s h byF false → dev < 2 ^ 19 → entry.toNat / 2 ^ 80 = 0 → ∃ s', exec (.peerset h dev entry) s = .next s' ∧
    Answered s s' h 0 0 ∧ mget s'.fab.peers dev = some entry ∧
    mget s'.fab.planesUp dev = some (BitVec.ofNat 16 (entry.toNat / 2 ^ 64)) ∧ (s.fab.peerTable = none → s'.kern = s.kern) ∧
    ∀ e, s.fab.peerTable = some e → s'.kern = tableBytes s.kern e (16 * dev) (bytesOfNat 16 entry.toNat)) ∧
  (∀ h ctx pairs s, Passes s h byHF false →
    (∀ ids, s.fw.exports.find? (fun x => x.1 == h) = some (h, ids) →
      ((∀ p ∈ s.fab.unacked, p.id ∉ ids) → ∃ s', exec (.exportObjs h ctx pairs) s = .next s' ∧ Answered s s' h 0 0 ∧
        s'.kern = s.kern ∧ ∀ x ∈ s'.fw.exports, x.1 ≠ h) ∧
      ((∃ p ∈ s.fab.unacked, p.id ∈ ids) → ∃ s', exec (.exportObjs h ctx pairs) s = .next s' ∧ s'.kern = s.kern ∧
        Waits s s' (.exportObjs h ctx pairs))) ∧
    (s.fw.exports.find? (fun x => x.1 == h) = none → ctx < 16 → pairs ≠ [] → pairs.length ≤ 4 →
      (∀ p ∈ pairs, pairGood s.kern ctx p = true) →
      ((∃ p ∈ pairs, pairPlaced s.kern ctx p = false) → ∃ s', exec (.exportObjs h ctx pairs) s = .next s' ∧ s'.kern = s.kern ∧
        Waits s s' (.exportObjs h ctx pairs)) ∧
      ((∀ p ∈ pairs, pairPlaced s.kern ctx p = true) → ∃ s' ids, exec (.exportObjs h ctx pairs) s = .next s' ∧
        s'.fw = { s.fw with waiting := .exportObjs h ctx pairs :: s.fw.waiting, exports := s.fw.exports ++ [(h, ids)] } ∧
        (∀ p ∈ s'.fab.packets, p ∈ s.fab.packets ∨ (p.id ∈ ids ∧ p.cls = .request)) ∧
        ∀ a, seeByte s'.kern a = seeByte s.kern a))) ∧
  (∀ h dev s, Passes s h [.host] false → dev < 2 ^ 19 →
    ((∀ p ∈ s.kern.ctxs, p.2.state ≠ .running) → ∃ s', exec (.spare h dev) s = .next s' ∧ Answered s s' h 0 0 ∧
      s'.fab.dev = dev ∧ (mget s.fab.peers dev = none → s'.kern = s.kern ∧ s'.fab.peers = s.fab.peers) ∧
      ∀ x, mget s.fab.peers dev = some x → ∃ y : BitVec 128, mget s'.fab.peers dev = some y ∧
        y.toNat = revision s.fw + 0x3FFF * 2 ^ 32 + 0xFFFF * 2 ^ 64) ∧
    ((∃ p ∈ s.kern.ctxs, p.2.state = .running) → exec (.spare h dev) s = refuse s h 4)) ∧
  (∀ h ctx image s, Passes s h byAll true →
    let u := recordUnit 1024 0
    let n := restOf s.kern ctx image.toNat
    let stages := fun s' => exec (.fwstage h (ctx, image)) s = .next s'
    (∀ k, imageAsks s.kern u ctx image.toNat n = some k →
      ∃ s', stages s' ∧ s'.kern = k ∧ Waits s s' (.fwstage h (ctx, image))) ∧
    (imageAsks s.kern u ctx image.toNat n = none → n = 0 ∨ readImage s.kern u ctx image.toNat n = none →
      exec (.fwstage h (ctx, image)) s = refuse { s with kern := endUnit s.kern u } h 2) ∧
    ∀ bs, imageAsks s.kern u ctx image.toNat n = none → 0 < n → readImage s.kern u ctx image.toNat n = some bs →
      let x := Config.imageOf bs
      let refused := fun status => exec (.fwstage h (ctx, image)) s = refuse { s with kern := endUnit s.kern u } h status
      (1 < x.kind → refused 2) ∧ (x.kind ≤ 1 → Config.signed x = false → refused 5) ∧
      (x.kind ≤ 1 → Config.signed x = true → x.version < fuseOf s.fw x.kind → refused 6) ∧
      (Config.signed x = true → fuseOf s.fw x.kind ≤ x.version → x.kind = 1 → 2 ≤ s.fw.patches → refused 7) ∧
      (Config.signed x = true → fuseOf s.fw x.kind ≤ x.version → x.kind = 0 → ∃ s', stages s' ∧ Answered s s' h 0 0 ∧
        s' = { s with kern := s'.kern, fw := s'.fw } ∧ (if s.fw.active then s'.fw.slotA else s'.fw.slotB) = some x ∧
        (if s.fw.active then s'.fw.slotB else s'.fw.slotA) = (if s.fw.active then s.fw.slotB else s.fw.slotA)) ∧
      (Config.signed x = true → fuseOf s.fw x.kind ≤ x.version → x.kind = 1 → s.fw.patches < 2 → ∃ s', stages s' ∧
        Answered s s' h 0 0 ∧ s' = { s with kern := s'.kern, fw := s'.fw } ∧ s'.fw.patches = s.fw.patches + 1 ∧
        s'.fw.sills = s.fw.sills ++ [x])) ∧
  (∀ h s x, Passes s h byHM true → (if s.fw.active then s.fw.slotA else s.fw.slotB) = some x →
    ∃ s', exec (.fwactivate h) s = .next s' ∧ Answered s s' h 0 0 ∧ s' = { s with fw := s'.fw } ∧ s'.fw.active = !s.fw.active ∧
      (s.fw.boot = .rescue → s'.fw.boot = .verify) ∧ (s.fw.boot = .ready → s'.fw.boot = .ready ∧ s'.fw.switching = true)) ∧
  (∀ h n s, Passes s h byHM false → n < 4 →
    ((∃ i, i < 4 ∧ i ≠ n ∧ s.fw.shops.getD i false = true) → ∃ s', exec (.shoprestart h n) s = .next s' ∧ Answered s s' h 0 0 ∧
      s' = { s with fw := s'.fw } ∧ s'.fw.shops = s.fw.shops.set n false) ∧
    ((∀ i, i < 4 → i ≠ n → s.fw.shops.getD i false = false) → exec (.shoprestart h n) s = refuse s h 4)) ∧
  (∀ h ctx nonce dst s, Passes s h byAll true →
    (32768 ≤ s.fw.reports → exec (.attest h ctx nonce dst) s = refuse s h 7) ∧
    (∀ ea rs, s.fw.reports < 32768 → checkObj s.kern ctx dst.toNat (capOff dst.toNat) reportSize 1 4 = .ok ea →
      objRuns s.kern ctx (capObj dst.toNat) ea reportSize = .ok rs → ∃ s', exec (.attest h ctx nonce dst) s = .next s' ∧
        Answered s s' h 0 0 ∧ s'.fw.reports = s.fw.reports + 1 ∧
        (∀ a rest, rs = (a, 64) :: rest → (∀ r ∈ rest, r.1 + r.2 ≤ a ∨ a + 64 ≤ r.1) → MemoryOk s →
          getNat s'.kern a 32 = nonce.toNat ∧ getNat s'.kern (a + 32) 4 = revision s.fw ∧ getNat s'.kern (a + 36) 4 = enabledBays s) ∧
        ∀ x, (∀ r ∈ rs, x < r.1 ∨ r.1 + r.2 ≤ x) → seeByte s'.kern x = seeByte s.kern x)) ∧
  ∀ h kind s x, Passes s h byHM false → kind ≤ 1 → runningImage s.fw kind = some x →
    (s.fw.switching = false → x ∉ s.fw.completed → exec (.fuseadvance h kind) s = refuse s h 4) ∧
    (s.fw.switching = false → x ∈ s.fw.completed → ∃ s', exec (.fuseadvance h kind) s = .next s' ∧ Answered s s' h 0 0 ∧ s' = { s with fw := s'.fw } ∧
      mget s'.fw.fuses kind = some (max (fuseOf s.fw kind) x.version) ∧ ∀ j, j ≠ kind → mget s'.fw.fuses j = mget s.fw.fuses j) ∧
    (s.fw.switching = true → exec (.fuseadvance h kind) s = refuse s h 4)

/-- R24 to R33, R45: the words of instructions that the specification writes out, one of each format and more, decode to what they
stand for. -/
def Obligations.DecodedWords : Prop :=
  decode 0x307002C00030014200000000 = .ok (.fadd
    { g := ⟨false, 7⟩, la := 0, ty := .f32, rm := .rne, sat := false, om := 0, d := .v 3, a := .v 1, b := .face .xm 0, c := .v 0,
      qp := none }) ∧
  decode 0x197001820000149000000003 = .ok (.cmpi
    { g := ⟨false, 7⟩, ty := .n32, rm := .rne, sat := false, om := 2, d := .v 0, a := .v 20, qp := some 1, imm := 3 }) ∧
  decode 0x5470018000A00C0094000000 = .ok (.atom .add
    { g := ⟨false, 7⟩, la := 0, ty := .n32, sc := .grp, acq := false, rel := false, na := false, d := .v 10, base := .v 12,
      idx := .v 9, sp := .ob, xs := 0, disp := 0 }) ∧
  decode 0xA030000000000004FFFFFFFF = .ok (.bra
    { g := ⟨false, 3⟩, d := .v 0, a := .v 0, ts := 4, ldisp := 0xFFFFFFFF }) ∧
  decode 0x717000440324000000000000 = .ok (.mx
    { g := ⟨false, 7⟩, la := 0, acc := 1, jg := 1, bdb := 0, bdn := 3, fsi := 1, side := false, cja := false, cjb := true,
      pge := false, pg := 0, vsrc := false, ver := 0, d := .v 0, a := .v 0 }) ∧
  decode 0x667000009000FE0000000002 = .ok (.tlwait { g := ⟨false, 7⟩, d := .tl 0, a := .k 6, sr := 0, imm := 2 })

/-- R21 to R47: decoding the word of any well-formed instruction gives that instruction back, with every operand at every value
that the encoding admits. -/
def Obligations.EncodingRoundTrip : Prop := ∀ i w, WellFormed i → encode i = some w → decode w = .ok i

/-- R46: major opcode 0x00 is never an instruction. The zero word raises zero word, cause 0x03, and every other word with that
opcode illegal instruction, cause 0x01, in the thread that is about to issue it. -/
def Obligations.OpcodeZero : Prop :=
  ∀ (w : W96), w.toNat / 2 ^ 88 = 0 → ∀ s t l h, s.cur.mode = .single → entryFree s = true → actors s = [t] → TakesTraps s t l h →
    ∃ s', runMember (memberOf w) s = .next s' ∧
      TrapsTo s s' t h (pairtOf s.kern s.cur.core l (curPc s)) (if w = 0 then 0x03 else 0x01) 0 (curPc s) 0

/-- R3: memory is little-endian. The byte at the lowest address holds bits [7:0] of any multi-byte value that is read or
written, and each further byte the next eight; a write changes no byte outside its own. -/
def Obligations.LittleEndian : Prop :=
  (∀ k a n, getNat k a (n + 1) = (seeByte k a).toNat + 256 * getNat k (a + 1) n) ∧
  ∀ k a n x, Memory.wf k.mem = true →
    (∀ i, i < n → seeByte (putBytes k a (bytesOfNat n x)) (a + i) = BitVec.ofNat 8 (x / 2 ^ (8 * i))) ∧
    (∀ b, b < a ∨ a + n ≤ b → seeByte (putBytes k a (bytesOfNat n x)) b = seeByte k b)

/-- R418: TEMPBAND is the band of the bay's hottest sensor. -/
def Obligations.TemperatureBands : Prop :=
  ∀ s b y, mget s.pwr.bays b = some y → ∃ s' z, exec .tempbandChange s = .next s' ∧ mget s'.pwr.bays b = some z ∧
    (y.celsius < 60 → z.band = 0) ∧ (60 ≤ y.celsius → y.celsius < 65 → z.band = 1) ∧ (65 ≤ y.celsius → y.celsius < 70 → z.band = 2) ∧
    (70 ≤ y.celsius → y.celsius < 75 → z.band = 3) ∧ (75 ≤ y.celsius → y.celsius < 80 → z.band = 4) ∧
    (80 ≤ y.celsius → y.celsius < 85 → z.band = 5) ∧ (85 ≤ y.celsius → y.celsius < 95 → z.band = 6) ∧ (95 ≤ y.celsius → z.band = 7)

/-- R13, R18, R56, R266: a step of a core's issue unit executes what stands in the line buffer at the program counter of the
entry that it chooses: the instruction that the slot's word decodes to; or, at the first slot of a couple, both members, the
second after the first, in the mode in which it reads the registers as they were before the couple. The turn of a core adds a
cycle of it, and the note since when its entries have not been ready. An event whose turn it is happens as a whole. -/
def Obligations.StepRunsDecoded : Prop :=
  let unnoted := fun (p : Nat × Entry) => (p.1, { p.2 with idleSince := 0 })
  (∀ s c, ∃ es, es.map unnoted = (coreOf s.kern c).entries.map unnoted ∧
    beginCycle s c = { s with kern := modCore s.kern c fun core => { core with cycle := core.cycle + 1, entries := es } }) ∧
  (∀ s s0 c e x l bits i, urgent s = none →
    (∃ rest, s.moves = .issue c :: rest ∧ s0 = { s with moves := rest }) ∨
      (s.moves = [] ∧ s.turn = c ∧ c < 256 ∧ s0 = { s with turn := c + 1 }) →
    clockRuns s c = true → chooseEntry (beginCycle s0 c) c = some (e, x) → mget s.kern.launches x.launch = some l →
    pcForm x.pc.toNat = true → lineInside s.kern l (pcLine x.pc.toNat) = true →
    bufferedLine (coreOf s.kern c) l.ctx (capObj (recCode l)) (pcLine x.pc.toNat) = some bits →
    fetchCause bits x.pc.toNat = none → decode (slotWord bits (pcSlot x.pc.toNat)) = .ok i →
    (pcSlot x.pc.toNat = 4 ∨ pairField bits (pcSlot x.pc.toNat) ≠ 1 → step s = exec i (inHand (beginCycle s0 c) c e .single)) ∧
    (∀ j, pcSlot x.pc.toNat < 4 → pairField bits (pcSlot x.pc.toNat) = 1 →
      decode (slotWord bits (pcSlot x.pc.toNat + 1)) = .ok j → ∀ t, exec i (inHand (beginCycle s0 c) c e .first) = .next t →
      step s = exec j { t with cur := { t.cur with mode := .second } })) ∧
  ∀ s i rest, urgent s = none → s.moves = .ev i :: rest → isWord i = false → step s = exec i (flushOut { s with moves := rest })

/-- R437, R413, R363: the machine after reset stands in the boot ROM, with the smallest set of ratios granted, every context free,
no launch, no thread and nothing in memory; it keeps the invariants of memory and of power. PCAP, TCAP and BOOST have the model's
values of log entry 2, and a byte that nothing has written reads as 0 by log entry 4. -/
def Obligations.ResetState : Prop :=
  State.reset.fw.boot = .rom ∧ State.reset.pwr.grant = { matrix := 1, vector := 1, network := 4, memory := 4 } ∧
  (∀ c, (getCtx State.reset.kern c).state = .free) ∧ State.reset.kern.launches = [] ∧
  (∀ c, (coreOf State.reset.kern c).threads = [] ∧ (coreOf State.reset.kern c).blocks = []) ∧
  (∀ a, seeByte State.reset.kern a = 0) ∧ MemoryOk State.reset ∧ PowerOk State.reset

/-- Every step of the machine keeps memory in its canonical form: addresses strictly rising, and no byte listed that an
unlisted address reads as. -/
def Obligations.MemoryStaysCanonical : Prop := ∀ s s', MemoryOk s → step s = .next s' → MemoryOk s'

/-- R411, R413, R414, R419, R420, R436: every step keeps the ratios in force and those to come among the ones that R411 gives, PCAP
between 1,200 and 3,200 W, TCAP at one of its three values, and BOOST at most 20,000. -/
def Obligations.PowerStaysInRange : Prop := ∀ s s', PowerOk s → step s = .next s' → PowerOk s'

/-- R435, R364, R365, R370: no instruction word reaches anything outside the state of kernels: not the clocks and limits of
power, the fabric or the firmware, and no entry of an object table and no extent; of a frame it changes neither the class, nor
whether it is retired, nor what firmware has told of it and when it was scrubbed (a read that meets corrected errors counts them
for the frame, R431). -/
def Obligations.WordsReachNoTables : Prop :=
  ∀ i s s', isWord i = true → exec i s = .next s' → OnlyKern s s' ∧ s'.kern.extents = s.kern.extents ∧
    (∀ f, Option.map (fun x => (x.cls, x.retired, x.passBegan, x.passed, x.told, x.toldBad, x.bad)) (mget s'.kern.frames f) =
      Option.map (fun x => (x.cls, x.retired, x.passBegan, x.passed, x.told, x.toldBad, x.bad)) (mget s.kern.frames f)) ∧
    ∀ c, (getCtx s'.kern c).objs = (getCtx s.kern c).objs
end

