-- ==== Sys2Proof/Laws/Maps.lean ====
section
/-! SUPPORT. Reading sparse maps and lists after a write. -/

namespace Sys2Proof.Machine

@[simp] theorem mget_nil {α : Type} (i : Nat) : mget ([] : FMap α) i = none := rfl

theorem mget_cons {α : Type} (j : Nat) (a : α) (m : FMap α) (i : Nat) :
    mget ((j, a) :: m) i = if j = i then some a else mget m i := by simp [mget]

@[simp] theorem mget_mset_same {α : Type} (m : FMap α) (i : Nat) (a : α) : mget (mset m i a) i = some a := by
  induction m with
  | nil => simp [mset, mget]
  | cons p m ih =>
    obtain ⟨j, b⟩ := p
    unfold mset
    split
    · simp [mget]
    · split
      · simp [mget]
      · rename_i h1 h2
        have : j ≠ i := by intro h; subst h; simp at h2
        simp [mget, this, ih]

theorem mget_mset_other {α : Type} (m : FMap α) {i j : Nat} (a : α) (h : j ≠ i) : mget (mset m i a) j = mget m j := by
  have h' : ¬ i = j := fun e => h e.symm
  induction m with
  | nil => simp [mset, mget, h']
  | cons p m ih =>
    obtain ⟨l, b⟩ := p
    unfold mset
    split
    · simp [mget, h']
    · split
      · rename_i h2
        have h2 : i = l := by simpa using h2
        subst h2; simp [mget, h']
      · simp only [mget_cons, ih]

@[simp] theorem mget_mdel_same {α : Type} (m : FMap α) (i : Nat) : mget (mdel m i) i = none := by
  induction m with
  | nil => rfl
  | cons p m ih =>
    obtain ⟨j, b⟩ := p
    by_cases h : j = i
    · simp [mdel, h, ih]
    · simp [mdel, h, mget, ih]

theorem mget_mdel_other {α : Type} (m : FMap α) {i j : Nat} (h : j ≠ i) : mget (mdel m i) j = mget m j := by
  induction m with
  | nil => rfl
  | cons p m ih =>
    obtain ⟨k, b⟩ := p
    by_cases hk : k = i
    · have hj : i ≠ j := Ne.symm h
      simp [mdel, mget, hk, hj, ih]
    · by_cases hj : k = j
      · simp [mdel, mget, hj, h]
      · simp [mdel, mget, hk, hj, ih]

@[simp] theorem mget_mmod_same {α : Type} (m : FMap α) (i : Nat) (f : α → α) : mget (mmod m i f) i = (mget m i).map f := by
  unfold mmod
  split
  · rename_i h; simp [h]
  · rename_i h; simp [h]

theorem mget_mmod_other {α : Type} (m : FMap α) {i j : Nat} (f : α → α) (h : j ≠ i) : mget (mmod m i f) j = mget m j := by
  unfold mmod
  split
  · exact mget_mset_other m _ h
  · rfl

theorem getD_rset {α : Type} (d : α) (l : List α) (i j : Nat) (a : α) :
    (rset d l i a).getD j d = if j = i then a else l.getD j d := by
  induction i generalizing l j with
  | zero =>
    cases l <;> cases j <;> simp [rset]
  | succ i ih =>
    cases l with
    | nil =>
      cases j with
      | zero => simp [rset]
      | succ j =>
        have := ih [] j
        simp only [rset, List.getD_cons_succ, List.getD_nil] at this ⊢
        rw [this]; simp
    | cons b l =>
      cases j with
      | zero => simp [rset]
      | succ j =>
        have := ih l j
        simp only [rset, List.getD_cons_succ] at this ⊢
        rw [this]; simp

theorem getD_rset_same {α : Type} (d : α) (l : List α) (i : Nat) (a : α) : (rset d l i a).getD i d = a := by
  rw [getD_rset, if_pos rfl]

theorem getElem?_lmod {α : Type} (l : List α) (i j : Nat) (f : α → α) :
    (lmod l i f)[j]? = if j = i then l[j]?.map f else l[j]? := by
  unfold lmod
  split
  · rename_i a h
    by_cases hj : j = i
    · subst hj; simp [h, List.getElem?_set]
      have := (List.getElem?_eq_some_iff.mp h).1
      exact this
    · rw [List.getElem?_set_ne (Ne.symm hj)]; simp [hj]
  · rename_i h
    by_cases hj : j = i
    · subst hj; simp [h]
    · simp [hj]

theorem map_lmod {α β : Type} (g : α → β) (l : List α) (i : Nat) (f : α → α) (h : ∀ a, g (f a) = g a) :
    (lmod l i f).map g = l.map g := by
  apply List.ext_getElem?
  intro j
  simp only [List.getElem?_map, getElem?_lmod]
  split
  · cases l[j]? <;> simp [h]
  · rfl

theorem mem_insertBy {α : Type} (key : α → Nat) (a b : α) (l : List α) : b ∈ insertBy key a l ↔ b = a ∨ b ∈ l := by
  induction l with
  | nil => simp [insertBy]
  | cons c l ih =>
    unfold insertBy
    split
    · simp
    · simp [ih]; tauto

theorem mem_sortBy {α : Type} (key : α → Nat) (l : List α) (b : α) : b ∈ sortBy key l ↔ b ∈ l := by
  have : ∀ (l acc : List α), b ∈ l.foldl (fun acc a => insertBy key a acc) acc ↔ b ∈ acc ∨ b ∈ l := by
    intro l
    induction l with
    | nil => intro acc; simp
    | cons a l ih => intro acc; simp [ih, mem_insertBy]; tauto
  simpa [sortBy] using this l []

end Sys2Proof.Machine
end

