-- ==== Sys2Proof/Laws/State.lean ====
section
/-! SUPPORT. One lemma per field of the kernel state for each of the primitive updates, true by unfolding. -/

namespace Sys2Proof.Machine

/-! ## modCore changes cores only -/

@[simp] theorem modCore_mem (k : Kern) (c : Nat) (g : Core → Core) : (modCore k c g).mem = k.mem := rfl
@[simp] theorem modCore_poison (k : Kern) (c : Nat) (g : Core → Core) : (modCore k c g).poison = k.poison := rfl
@[simp] theorem modCore_soft (k : Kern) (c : Nat) (g : Core → Core) : (modCore k c g).soft = k.soft := rfl
@[simp] theorem modCore_ctxs (k : Kern) (c : Nat) (g : Core → Core) : (modCore k c g).ctxs = k.ctxs := rfl
@[simp] theorem modCore_extents (k : Kern) (c : Nat) (g : Core → Core) : (modCore k c g).extents = k.extents := rfl
@[simp] theorem modCore_frames (k : Kern) (c : Nat) (g : Core → Core) : (modCore k c g).frames = k.frames := rfl
@[simp] theorem modCore_launches (k : Kern) (c : Nat) (g : Core → Core) : (modCore k c g).launches = k.launches := rfl
@[simp] theorem modCore_fields (k : Kern) (c : Nat) (g : Core → Core) : (modCore k c g).fields = k.fields := rfl
@[simp] theorem modCore_notices (k : Kern) (c : Nat) (g : Core → Core) : (modCore k c g).notices = k.notices := rfl
@[simp] theorem modCore_shared (k : Kern) (c : Nat) (g : Core → Core) : (modCore k c g).shared = k.shared := rfl
@[simp] theorem modCore_bayCards (k : Kern) (c : Nat) (g : Core → Core) : (modCore k c g).bayCards = k.bayCards := rfl
@[simp] theorem modCore_vacated (k : Kern) (c : Nat) (g : Core → Core) : (modCore k c g).vacated = k.vacated := rfl
@[simp] theorem modCore_queues (k : Kern) (c : Nat) (g : Core → Core) : (modCore k c g).queues = k.queues := rfl
@[simp] theorem modCore_units (k : Kern) (c : Nat) (g : Core → Core) : (modCore k c g).units = k.units := rfl
@[simp] theorem modCore_far (k : Kern) (c : Nat) (g : Core → Core) : (modCore k c g).far = k.far := rfl
@[simp] theorem modCore_graphs (k : Kern) (c : Nat) (g : Core → Core) : (modCore k c g).graphs = k.graphs := rfl
@[simp] theorem modCore_serial (k : Kern) (c : Nat) (g : Core → Core) : (modCore k c g).serial = k.serial := rfl
@[simp] theorem modCore_order (k : Kern) (c : Nat) (g : Core → Core) : (modCore k c g).order = k.order := rfl
@[simp] theorem modCore_id (k : Kern) (c : Nat) (g : Core → Core) : (modCore k c g).id = k.id := rfl
@[simp] theorem modCore_free (k : Kern) (c : Nat) (g : Core → Core) : (modCore k c g).free = k.free := rfl
@[simp] theorem modCore_net (k : Kern) (c : Nat) (g : Core → Core) : (modCore k c g).net = k.net := rfl
@[simp] theorem modCore_unit (k : Kern) (c : Nat) (g : Core → Core) : (modCore k c g).unit = k.unit := rfl
@[simp] theorem modCore_spent (k : Kern) (c : Nat) (g : Core → Core) : (modCore k c g).spent = k.spent := rfl

/-! ## modThread changes cores only -/

@[simp] theorem modThread_mem (k : Kern) (c a b : Nat) (g : Thread → Thread) : (modThread k c a b g).mem = k.mem := rfl
@[simp] theorem modThread_poison (k : Kern) (c a b : Nat) (g : Thread → Thread) : (modThread k c a b g).poison = k.poison := rfl
@[simp] theorem modThread_soft (k : Kern) (c a b : Nat) (g : Thread → Thread) : (modThread k c a b g).soft = k.soft := rfl
@[simp] theorem modThread_ctxs (k : Kern) (c a b : Nat) (g : Thread → Thread) : (modThread k c a b g).ctxs = k.ctxs := rfl
@[simp] theorem modThread_extents (k : Kern) (c a b : Nat) (g : Thread → Thread) : (modThread k c a b g).extents = k.extents := rfl
@[simp] theorem modThread_frames (k : Kern) (c a b : Nat) (g : Thread → Thread) : (modThread k c a b g).frames = k.frames := rfl
@[simp] theorem modThread_launches (k : Kern) (c a b : Nat) (g : Thread → Thread) : (modThread k c a b g).launches = k.launches := rfl
@[simp] theorem modThread_fields (k : Kern) (c a b : Nat) (g : Thread → Thread) : (modThread k c a b g).fields = k.fields := rfl
@[simp] theorem modThread_notices (k : Kern) (c a b : Nat) (g : Thread → Thread) : (modThread k c a b g).notices = k.notices := rfl
@[simp] theorem modThread_shared (k : Kern) (c a b : Nat) (g : Thread → Thread) : (modThread k c a b g).shared = k.shared := rfl
@[simp] theorem modThread_bayCards (k : Kern) (c a b : Nat) (g : Thread → Thread) : (modThread k c a b g).bayCards = k.bayCards := rfl
@[simp] theorem modThread_vacated (k : Kern) (c a b : Nat) (g : Thread → Thread) : (modThread k c a b g).vacated = k.vacated := rfl
@[simp] theorem modThread_queues (k : Kern) (c a b : Nat) (g : Thread → Thread) : (modThread k c a b g).queues = k.queues := rfl
@[simp] theorem modThread_units (k : Kern) (c a b : Nat) (g : Thread → Thread) : (modThread k c a b g).units = k.units := rfl
@[simp] theorem modThread_far (k : Kern) (c a b : Nat) (g : Thread → Thread) : (modThread k c a b g).far = k.far := rfl
@[simp] theorem modThread_graphs (k : Kern) (c a b : Nat) (g : Thread → Thread) : (modThread k c a b g).graphs = k.graphs := rfl
@[simp] theorem modThread_serial (k : Kern) (c a b : Nat) (g : Thread → Thread) : (modThread k c a b g).serial = k.serial := rfl
@[simp] theorem modThread_order (k : Kern) (c a b : Nat) (g : Thread → Thread) : (modThread k c a b g).order = k.order := rfl
@[simp] theorem modThread_id (k : Kern) (c a b : Nat) (g : Thread → Thread) : (modThread k c a b g).id = k.id := rfl
@[simp] theorem modThread_free (k : Kern) (c a b : Nat) (g : Thread → Thread) : (modThread k c a b g).free = k.free := rfl
@[simp] theorem modThread_net (k : Kern) (c a b : Nat) (g : Thread → Thread) : (modThread k c a b g).net = k.net := rfl
@[simp] theorem modThread_unit (k : Kern) (c a b : Nat) (g : Thread → Thread) : (modThread k c a b g).unit = k.unit := rfl
@[simp] theorem modThread_spent (k : Kern) (c a b : Nat) (g : Thread → Thread) : (modThread k c a b g).spent = k.spent := rfl

/-! ## modThis changes cores only -/

@[simp] theorem modThis_mem (k : Kern) (c : Nat) (t : Thread) (g : Thread → Thread) : (modThis k c t g).mem = k.mem := rfl
@[simp] theorem modThis_poison (k : Kern) (c : Nat) (t : Thread) (g : Thread → Thread) : (modThis k c t g).poison = k.poison := rfl
@[simp] theorem modThis_soft (k : Kern) (c : Nat) (t : Thread) (g : Thread → Thread) : (modThis k c t g).soft = k.soft := rfl
@[simp] theorem modThis_ctxs (k : Kern) (c : Nat) (t : Thread) (g : Thread → Thread) : (modThis k c t g).ctxs = k.ctxs := rfl
@[simp] theorem modThis_extents (k : Kern) (c : Nat) (t : Thread) (g : Thread → Thread) : (modThis k c t g).extents = k.extents := rfl
@[simp] theorem modThis_frames (k : Kern) (c : Nat) (t : Thread) (g : Thread → Thread) : (modThis k c t g).frames = k.frames := rfl
@[simp] theorem modThis_launches (k : Kern) (c : Nat) (t : Thread) (g : Thread → Thread) : (modThis k c t g).launches = k.launches := rfl
@[simp] theorem modThis_fields (k : Kern) (c : Nat) (t : Thread) (g : Thread → Thread) : (modThis k c t g).fields = k.fields := rfl
@[simp] theorem modThis_notices (k : Kern) (c : Nat) (t : Thread) (g : Thread → Thread) : (modThis k c t g).notices = k.notices := rfl
@[simp] theorem modThis_shared (k : Kern) (c : Nat) (t : Thread) (g : Thread → Thread) : (modThis k c t g).shared = k.shared := rfl
@[simp] theorem modThis_bayCards (k : Kern) (c : Nat) (t : Thread) (g : Thread → Thread) : (modThis k c t g).bayCards = k.bayCards := rfl
@[simp] theorem modThis_vacated (k : Kern) (c : Nat) (t : Thread) (g : Thread → Thread) : (modThis k c t g).vacated = k.vacated := rfl
@[simp] theorem modThis_queues (k : Kern) (c : Nat) (t : Thread) (g : Thread → Thread) : (modThis k c t g).queues = k.queues := rfl
@[simp] theorem modThis_units (k : Kern) (c : Nat) (t : Thread) (g : Thread → Thread) : (modThis k c t g).units = k.units := rfl
@[simp] theorem modThis_far (k : Kern) (c : Nat) (t : Thread) (g : Thread → Thread) : (modThis k c t g).far = k.far := rfl
@[simp] theorem modThis_graphs (k : Kern) (c : Nat) (t : Thread) (g : Thread → Thread) : (modThis k c t g).graphs = k.graphs := rfl
@[simp] theorem modThis_serial (k : Kern) (c : Nat) (t : Thread) (g : Thread → Thread) : (modThis k c t g).serial = k.serial := rfl
@[simp] theorem modThis_order (k : Kern) (c : Nat) (t : Thread) (g : Thread → Thread) : (modThis k c t g).order = k.order := rfl
@[simp] theorem modThis_id (k : Kern) (c : Nat) (t : Thread) (g : Thread → Thread) : (modThis k c t g).id = k.id := rfl
@[simp] theorem modThis_free (k : Kern) (c : Nat) (t : Thread) (g : Thread → Thread) : (modThis k c t g).free = k.free := rfl
@[simp] theorem modThis_net (k : Kern) (c : Nat) (t : Thread) (g : Thread → Thread) : (modThis k c t g).net = k.net := rfl
@[simp] theorem modThis_unit (k : Kern) (c : Nat) (t : Thread) (g : Thread → Thread) : (modThis k c t g).unit = k.unit := rfl
@[simp] theorem modThis_spent (k : Kern) (c : Nat) (t : Thread) (g : Thread → Thread) : (modThis k c t g).spent = k.spent := rfl

/-! ## modBlock changes cores only -/

@[simp] theorem modBlock_mem (k : Kern) (c b : Nat) (g : Block → Block) : (modBlock k c b g).mem = k.mem := rfl
@[simp] theorem modBlock_poison (k : Kern) (c b : Nat) (g : Block → Block) : (modBlock k c b g).poison = k.poison := rfl
@[simp] theorem modBlock_soft (k : Kern) (c b : Nat) (g : Block → Block) : (modBlock k c b g).soft = k.soft := rfl
@[simp] theorem modBlock_ctxs (k : Kern) (c b : Nat) (g : Block → Block) : (modBlock k c b g).ctxs = k.ctxs := rfl
@[simp] theorem modBlock_extents (k : Kern) (c b : Nat) (g : Block → Block) : (modBlock k c b g).extents = k.extents := rfl
@[simp] theorem modBlock_frames (k : Kern) (c b : Nat) (g : Block → Block) : (modBlock k c b g).frames = k.frames := rfl
@[simp] theorem modBlock_launches (k : Kern) (c b : Nat) (g : Block → Block) : (modBlock k c b g).launches = k.launches := rfl
@[simp] theorem modBlock_fields (k : Kern) (c b : Nat) (g : Block → Block) : (modBlock k c b g).fields = k.fields := rfl
@[simp] theorem modBlock_notices (k : Kern) (c b : Nat) (g : Block → Block) : (modBlock k c b g).notices = k.notices := rfl
@[simp] theorem modBlock_shared (k : Kern) (c b : Nat) (g : Block → Block) : (modBlock k c b g).shared = k.shared := rfl
@[simp] theorem modBlock_bayCards (k : Kern) (c b : Nat) (g : Block → Block) : (modBlock k c b g).bayCards = k.bayCards := rfl
@[simp] theorem modBlock_vacated (k : Kern) (c b : Nat) (g : Block → Block) : (modBlock k c b g).vacated = k.vacated := rfl
@[simp] theorem modBlock_queues (k : Kern) (c b : Nat) (g : Block → Block) : (modBlock k c b g).queues = k.queues := rfl
@[simp] theorem modBlock_units (k : Kern) (c b : Nat) (g : Block → Block) : (modBlock k c b g).units = k.units := rfl
@[simp] theorem modBlock_far (k : Kern) (c b : Nat) (g : Block → Block) : (modBlock k c b g).far = k.far := rfl
@[simp] theorem modBlock_graphs (k : Kern) (c b : Nat) (g : Block → Block) : (modBlock k c b g).graphs = k.graphs := rfl
@[simp] theorem modBlock_serial (k : Kern) (c b : Nat) (g : Block → Block) : (modBlock k c b g).serial = k.serial := rfl
@[simp] theorem modBlock_order (k : Kern) (c b : Nat) (g : Block → Block) : (modBlock k c b g).order = k.order := rfl
@[simp] theorem modBlock_id (k : Kern) (c b : Nat) (g : Block → Block) : (modBlock k c b g).id = k.id := rfl
@[simp] theorem modBlock_free (k : Kern) (c b : Nat) (g : Block → Block) : (modBlock k c b g).free = k.free := rfl
@[simp] theorem modBlock_net (k : Kern) (c b : Nat) (g : Block → Block) : (modBlock k c b g).net = k.net := rfl
@[simp] theorem modBlock_unit (k : Kern) (c b : Nat) (g : Block → Block) : (modBlock k c b g).unit = k.unit := rfl
@[simp] theorem modBlock_spent (k : Kern) (c b : Nat) (g : Block → Block) : (modBlock k c b g).spent = k.spent := rfl

/-! ## modGroup changes cores only -/

@[simp] theorem modGroup_mem (k : Kern) (c b n : Nat) (g : Group → Group) : (modGroup k c b n g).mem = k.mem := rfl
@[simp] theorem modGroup_poison (k : Kern) (c b n : Nat) (g : Group → Group) : (modGroup k c b n g).poison = k.poison := rfl
@[simp] theorem modGroup_soft (k : Kern) (c b n : Nat) (g : Group → Group) : (modGroup k c b n g).soft = k.soft := rfl
@[simp] theorem modGroup_ctxs (k : Kern) (c b n : Nat) (g : Group → Group) : (modGroup k c b n g).ctxs = k.ctxs := rfl
@[simp] theorem modGroup_extents (k : Kern) (c b n : Nat) (g : Group → Group) : (modGroup k c b n g).extents = k.extents := rfl
@[simp] theorem modGroup_frames (k : Kern) (c b n : Nat) (g : Group → Group) : (modGroup k c b n g).frames = k.frames := rfl
@[simp] theorem modGroup_launches (k : Kern) (c b n : Nat) (g : Group → Group) : (modGroup k c b n g).launches = k.launches := rfl
@[simp] theorem modGroup_fields (k : Kern) (c b n : Nat) (g : Group → Group) : (modGroup k c b n g).fields = k.fields := rfl
@[simp] theorem modGroup_notices (k : Kern) (c b n : Nat) (g : Group → Group) : (modGroup k c b n g).notices = k.notices := rfl
@[simp] theorem modGroup_shared (k : Kern) (c b n : Nat) (g : Group → Group) : (modGroup k c b n g).shared = k.shared := rfl
@[simp] theorem modGroup_bayCards (k : Kern) (c b n : Nat) (g : Group → Group) : (modGroup k c b n g).bayCards = k.bayCards := rfl
@[simp] theorem modGroup_vacated (k : Kern) (c b n : Nat) (g : Group → Group) : (modGroup k c b n g).vacated = k.vacated := rfl
@[simp] theorem modGroup_queues (k : Kern) (c b n : Nat) (g : Group → Group) : (modGroup k c b n g).queues = k.queues := rfl
@[simp] theorem modGroup_units (k : Kern) (c b n : Nat) (g : Group → Group) : (modGroup k c b n g).units = k.units := rfl
@[simp] theorem modGroup_far (k : Kern) (c b n : Nat) (g : Group → Group) : (modGroup k c b n g).far = k.far := rfl
@[simp] theorem modGroup_graphs (k : Kern) (c b n : Nat) (g : Group → Group) : (modGroup k c b n g).graphs = k.graphs := rfl
@[simp] theorem modGroup_serial (k : Kern) (c b n : Nat) (g : Group → Group) : (modGroup k c b n g).serial = k.serial := rfl
@[simp] theorem modGroup_order (k : Kern) (c b n : Nat) (g : Group → Group) : (modGroup k c b n g).order = k.order := rfl
@[simp] theorem modGroup_id (k : Kern) (c b n : Nat) (g : Group → Group) : (modGroup k c b n g).id = k.id := rfl
@[simp] theorem modGroup_free (k : Kern) (c b n : Nat) (g : Group → Group) : (modGroup k c b n g).free = k.free := rfl
@[simp] theorem modGroup_net (k : Kern) (c b n : Nat) (g : Group → Group) : (modGroup k c b n g).net = k.net := rfl
@[simp] theorem modGroup_unit (k : Kern) (c b n : Nat) (g : Group → Group) : (modGroup k c b n g).unit = k.unit := rfl
@[simp] theorem modGroup_spent (k : Kern) (c b n : Nat) (g : Group → Group) : (modGroup k c b n g).spent = k.spent := rfl

/-! ## modCtx changes contexts only -/

@[simp] theorem modCtx_cores (k : Kern) (x : Nat) (g : Ctx → Ctx) : (modCtx k x g).cores = k.cores := rfl
@[simp] theorem modCtx_mem (k : Kern) (x : Nat) (g : Ctx → Ctx) : (modCtx k x g).mem = k.mem := rfl
@[simp] theorem modCtx_poison (k : Kern) (x : Nat) (g : Ctx → Ctx) : (modCtx k x g).poison = k.poison := rfl
@[simp] theorem modCtx_soft (k : Kern) (x : Nat) (g : Ctx → Ctx) : (modCtx k x g).soft = k.soft := rfl
@[simp] theorem modCtx_extents (k : Kern) (x : Nat) (g : Ctx → Ctx) : (modCtx k x g).extents = k.extents := rfl
@[simp] theorem modCtx_frames (k : Kern) (x : Nat) (g : Ctx → Ctx) : (modCtx k x g).frames = k.frames := rfl
@[simp] theorem modCtx_launches (k : Kern) (x : Nat) (g : Ctx → Ctx) : (modCtx k x g).launches = k.launches := rfl
@[simp] theorem modCtx_fields (k : Kern) (x : Nat) (g : Ctx → Ctx) : (modCtx k x g).fields = k.fields := rfl
@[simp] theorem modCtx_notices (k : Kern) (x : Nat) (g : Ctx → Ctx) : (modCtx k x g).notices = k.notices := rfl
@[simp] theorem modCtx_shared (k : Kern) (x : Nat) (g : Ctx → Ctx) : (modCtx k x g).shared = k.shared := rfl
@[simp] theorem modCtx_bayCards (k : Kern) (x : Nat) (g : Ctx → Ctx) : (modCtx k x g).bayCards = k.bayCards := rfl
@[simp] theorem modCtx_vacated (k : Kern) (x : Nat) (g : Ctx → Ctx) : (modCtx k x g).vacated = k.vacated := rfl
@[simp] theorem modCtx_queues (k : Kern) (x : Nat) (g : Ctx → Ctx) : (modCtx k x g).queues = k.queues := rfl
@[simp] theorem modCtx_units (k : Kern) (x : Nat) (g : Ctx → Ctx) : (modCtx k x g).units = k.units := rfl
@[simp] theorem modCtx_far (k : Kern) (x : Nat) (g : Ctx → Ctx) : (modCtx k x g).far = k.far := rfl
@[simp] theorem modCtx_graphs (k : Kern) (x : Nat) (g : Ctx → Ctx) : (modCtx k x g).graphs = k.graphs := rfl
@[simp] theorem modCtx_serial (k : Kern) (x : Nat) (g : Ctx → Ctx) : (modCtx k x g).serial = k.serial := rfl
@[simp] theorem modCtx_order (k : Kern) (x : Nat) (g : Ctx → Ctx) : (modCtx k x g).order = k.order := rfl
@[simp] theorem modCtx_id (k : Kern) (x : Nat) (g : Ctx → Ctx) : (modCtx k x g).id = k.id := rfl
@[simp] theorem modCtx_free (k : Kern) (x : Nat) (g : Ctx → Ctx) : (modCtx k x g).free = k.free := rfl
@[simp] theorem modCtx_net (k : Kern) (x : Nat) (g : Ctx → Ctx) : (modCtx k x g).net = k.net := rfl
@[simp] theorem modCtx_unit (k : Kern) (x : Nat) (g : Ctx → Ctx) : (modCtx k x g).unit = k.unit := rfl
@[simp] theorem modCtx_spent (k : Kern) (x : Nat) (g : Ctx → Ctx) : (modCtx k x g).spent = k.spent := rfl

/-! ## putBytes changes memory and its check data only -/

@[simp] theorem putBytes_cores (k : Kern) (a : Nat) (bs : List Byte) : (putBytes k a bs).cores = k.cores := rfl
@[simp] theorem putBytes_ctxs (k : Kern) (a : Nat) (bs : List Byte) : (putBytes k a bs).ctxs = k.ctxs := rfl
@[simp] theorem putBytes_extents (k : Kern) (a : Nat) (bs : List Byte) : (putBytes k a bs).extents = k.extents := rfl
@[simp] theorem putBytes_frames (k : Kern) (a : Nat) (bs : List Byte) : (putBytes k a bs).frames = k.frames := rfl
@[simp] theorem putBytes_launches (k : Kern) (a : Nat) (bs : List Byte) : (putBytes k a bs).launches = k.launches := rfl
@[simp] theorem putBytes_fields (k : Kern) (a : Nat) (bs : List Byte) : (putBytes k a bs).fields = k.fields := rfl
@[simp] theorem putBytes_notices (k : Kern) (a : Nat) (bs : List Byte) : (putBytes k a bs).notices = k.notices := rfl
@[simp] theorem putBytes_shared (k : Kern) (a : Nat) (bs : List Byte) : (putBytes k a bs).shared = k.shared := rfl
@[simp] theorem putBytes_bayCards (k : Kern) (a : Nat) (bs : List Byte) : (putBytes k a bs).bayCards = k.bayCards := rfl
@[simp] theorem putBytes_vacated (k : Kern) (a : Nat) (bs : List Byte) : (putBytes k a bs).vacated = k.vacated := rfl
@[simp] theorem putBytes_queues (k : Kern) (a : Nat) (bs : List Byte) : (putBytes k a bs).queues = k.queues := rfl
@[simp] theorem putBytes_units (k : Kern) (a : Nat) (bs : List Byte) : (putBytes k a bs).units = k.units := rfl
@[simp] theorem putBytes_far (k : Kern) (a : Nat) (bs : List Byte) : (putBytes k a bs).far = k.far := rfl
@[simp] theorem putBytes_graphs (k : Kern) (a : Nat) (bs : List Byte) : (putBytes k a bs).graphs = k.graphs := rfl
@[simp] theorem putBytes_serial (k : Kern) (a : Nat) (bs : List Byte) : (putBytes k a bs).serial = k.serial := rfl
@[simp] theorem putBytes_order (k : Kern) (a : Nat) (bs : List Byte) : (putBytes k a bs).order = k.order := rfl
@[simp] theorem putBytes_id (k : Kern) (a : Nat) (bs : List Byte) : (putBytes k a bs).id = k.id := rfl
@[simp] theorem putBytes_free (k : Kern) (a : Nat) (bs : List Byte) : (putBytes k a bs).free = k.free := rfl
@[simp] theorem putBytes_net (k : Kern) (a : Nat) (bs : List Byte) : (putBytes k a bs).net = k.net := rfl
@[simp] theorem putBytes_unit (k : Kern) (a : Nat) (bs : List Byte) : (putBytes k a bs).unit = k.unit := rfl
@[simp] theorem putBytes_spent (k : Kern) (a : Nat) (bs : List Byte) : (putBytes k a bs).spent = k.spent := rfl
@[simp] theorem putBytes_mem (k : Kern) (a : Nat) (bs : List Byte) : (putBytes k a bs).mem = writeMem k.mem a bs := rfl

/-! ## A fresh number changes the counter only -/

@[simp] theorem freshId_cores (k : Kern) : (freshId k).2.cores = k.cores := rfl
@[simp] theorem freshId_mem (k : Kern) : (freshId k).2.mem = k.mem := rfl
@[simp] theorem freshId_poison (k : Kern) : (freshId k).2.poison = k.poison := rfl
@[simp] theorem freshId_soft (k : Kern) : (freshId k).2.soft = k.soft := rfl
@[simp] theorem freshId_ctxs (k : Kern) : (freshId k).2.ctxs = k.ctxs := rfl
@[simp] theorem freshId_extents (k : Kern) : (freshId k).2.extents = k.extents := rfl
@[simp] theorem freshId_frames (k : Kern) : (freshId k).2.frames = k.frames := rfl
@[simp] theorem freshId_launches (k : Kern) : (freshId k).2.launches = k.launches := rfl
@[simp] theorem freshId_fields (k : Kern) : (freshId k).2.fields = k.fields := rfl
@[simp] theorem freshId_notices (k : Kern) : (freshId k).2.notices = k.notices := rfl
@[simp] theorem freshId_shared (k : Kern) : (freshId k).2.shared = k.shared := rfl
@[simp] theorem freshId_bayCards (k : Kern) : (freshId k).2.bayCards = k.bayCards := rfl
@[simp] theorem freshId_vacated (k : Kern) : (freshId k).2.vacated = k.vacated := rfl
@[simp] theorem freshId_queues (k : Kern) : (freshId k).2.queues = k.queues := rfl
@[simp] theorem freshId_units (k : Kern) : (freshId k).2.units = k.units := rfl
@[simp] theorem freshId_far (k : Kern) : (freshId k).2.far = k.far := rfl
@[simp] theorem freshId_graphs (k : Kern) : (freshId k).2.graphs = k.graphs := rfl
@[simp] theorem freshId_serial (k : Kern) : (freshId k).2.serial = k.serial := rfl
@[simp] theorem freshId_order (k : Kern) : (freshId k).2.order = k.order := rfl
@[simp] theorem freshId_free (k : Kern) : (freshId k).2.free = k.free := rfl
@[simp] theorem freshId_net (k : Kern) : (freshId k).2.net = k.net := rfl
@[simp] theorem freshId_unit (k : Kern) : (freshId k).2.unit = k.unit := rfl
@[simp] theorem freshId_spent (k : Kern) : (freshId k).2.spent = k.spent := rfl

end Sys2Proof.Machine
end

