-- ==== Sys2Proof/Laws/Threads.lean ====
section
/-! SUPPORT. Cores, threads, blocks and groups after an update, and the frame Within: it composes, and each primitive update of
a kernel instruction keeps it. -/

namespace Sys2Proof.Machine

open Sys2Proof.Safety

/-! ## Cores -/

@[simp] theorem coreOf_modCore_same (k : Kern) (c : Nat) (f : Core → Core) : coreOf (modCore k c f) c = f (coreOf k c) := by
  simp [coreOf, modCore]

theorem coreOf_modCore_other (k : Kern) {c d : Nat} (f : Core → Core) (h : d ≠ c) : coreOf (modCore k c f) d = coreOf k d := by
  simp [coreOf, modCore, mget_mset_other _ _ h]

/-- An update of a thread that keeps the place it is named by. -/
def KeepsKey (f : Thread → Thread) : Prop := ∀ t, (f t).tslot = t.tslot ∧ (f t).lane = t.lane

theorem findThread_map (f : Thread → Thread) (hf : KeepsKey f) (ts : List Thread) (a b : Nat) :
    findThread (ts.map f) a b = (findThread ts a b).map f := by
  unfold findThread
  induction ts with
  | nil => rfl
  | cons t ts ih =>
    simp only [List.map_cons, List.find?_cons, (hf t).1, (hf t).2]
    split <;> simp [ih]

theorem findThread_key {ts : List Thread} {a b : Nat} {t : Thread} (h : findThread ts a b = some t) :
    t.tslot = a ∧ t.lane = b := by
  have := List.find?_some h
  simpa using this

theorem getThread_key {k : Kern} {c a b : Nat} {t : Thread} (h : getThread k c a b = some t) : t.tslot = a ∧ t.lane = b :=
  findThread_key h

theorem keepsKey_ite (a b : Nat) (f : Thread → Thread) (hf : KeepsKey f) :
    KeepsKey fun t => if t.tslot == a && t.lane == b then f t else t := by
  intro t
  by_cases h : (t.tslot == a && t.lane == b) = true
  · simp only [h, if_true]; exact hf t
  · simp only [h]; exact ⟨rfl, rfl⟩

theorem getThread_modThread (k : Kern) (c a b a' b' : Nat) (f : Thread → Thread) (hf : KeepsKey f) :
    getThread (modThread k c a b f) c a' b' =
      if a' = a ∧ b' = b then (getThread k c a' b').map f else getThread k c a' b' := by
  have key := findThread_map _ (keepsKey_ite a b f hf) (coreOf k c).threads a' b'
  simp only [getThread, modThread, coreOf_modCore_same]
  rw [key]
  cases h : findThread (coreOf k c).threads a' b' with
  | none => simp
  | some t =>
    obtain ⟨h1, h2⟩ := findThread_key h
    subst h1; subst h2
    by_cases hab : t.tslot = a ∧ t.lane = b
    · simp [hab]
    · simp only [hab, if_false, Option.map_some]
      have : (t.tslot == a && t.lane == b) = false := by
        simpa using hab
      simp [this]

theorem getThread_modThis_same (k : Kern) (c : Nat) (t : Thread) (f : Thread → Thread) (hf : KeepsKey f) :
    getThread (modThis k c t f) c t.tslot t.lane = (getThread k c t.tslot t.lane).map f := by
  rw [modThis, getThread_modThread _ _ _ _ _ _ _ hf]; simp

theorem getThread_modThis_other (k : Kern) (c : Nat) (t u : Thread) (f : Thread → Thread) (hf : KeepsKey f)
    (h : u.lane ≠ t.lane) : getThread (modThis k c t f) c u.tslot u.lane = getThread k c u.tslot u.lane := by
  rw [modThis, getThread_modThread _ _ _ _ _ _ _ hf]
  simp [h]

/-! ## Blocks and groups -/

theorem blockOf_modBlock (k : Kern) (c b b' : Nat) (f : Block → Block) :
    blockOf (modBlock k c b f) c b' = if b' = b then (blockOf k c b').map f else blockOf k c b' := by
  simp only [blockOf, modBlock, coreOf_modCore_same]
  by_cases h : b' = b
  · subst h; simp
  · simp [h, mget_mmod_other _ _ h]

@[simp] theorem blockOf_modThread (k : Kern) (c a b : Nat) (f : Thread → Thread) (x : Nat) :
    blockOf (modThread k c a b f) c x = blockOf k c x := by simp [blockOf, modThread]

@[simp] theorem blockOf_modThis (k : Kern) (c : Nat) (t : Thread) (f : Thread → Thread) (x : Nat) :
    blockOf (modThis k c t f) c x = blockOf k c x := by simp [modThis]

@[simp] theorem groupOf_modThis (k : Kern) (c : Nat) (t u : Thread) (f : Thread → Thread) :
    groupOf (modThis k c t f) c u = groupOf k c u := by simp [groupOf]

@[simp] theorem getThread_modBlock (k : Kern) (c b : Nat) (f : Block → Block) (x y : Nat) :
    getThread (modBlock k c b f) c x y = getThread k c x y := by simp [getThread, modBlock]

@[simp] theorem getThread_modGroup (k : Kern) (c b g : Nat) (f : Group → Group) (x y : Nat) :
    getThread (modGroup k c b g f) c x y = getThread k c x y := by simp [modGroup]

theorem groupOf_modGroup (k : Kern) (c b g : Nat) (f : Group → Group) (u : Thread) :
    groupOf (modGroup k c b g f) c u = if u.block = b ∧ u.group = g then (groupOf k c u).map f else groupOf k c u := by
  simp only [groupOf, modGroup, blockOf_modBlock]
  by_cases hb : u.block = b
  · simp only [hb, if_true]
    cases blockOf k c b with
    | none => simp
    | some blk =>
      simp only [Option.map_some, getElem?_lmod, true_and]
  · simp [hb]

/-! ## The frame -/

end Sys2Proof.Machine

namespace Sys2Proof.Safety

open Sys2Proof.Machine

theorem Within.refl (c : Nat) (keys : Nat → Nat → Bool) (k : Kern) : Within c keys k k :=
  ⟨rfl, fun _ _ => rfl, rfl, fun _ => rfl, fun _ _ _ => rfl⟩

theorem Within.trans {c : Nat} {keys : Nat → Nat → Bool} {k k' k'' : Kern} (h : Within c keys k k') (h' : Within c keys k' k'') :
    Within c keys k k'' where
  shared := by rw [h'.shared, h.shared]
  cores d hd := (h'.cores d hd).trans (h.cores d hd)
  core := by rw [h'.core, h.core]
  blocks b := (h'.blocks b).trans (h.blocks b)
  threads a b hk := (h'.threads a b hk).trans (h.threads a b hk)

theorem Within.byte {c : Nat} {keys : Nat → Nat → Bool} {k k' : Kern} (h : Within c keys k k') (a : Nat) :
    seeByte k' a = seeByte k a := by rw [h.shared]; rfl

end Sys2Proof.Safety

namespace Sys2Proof.Machine

open Sys2Proof.Safety

/-- An update of the core that keeps all but what Within leaves free. -/
theorem within_modCore {c : Nat} {keys : Nat → Nat → Bool} {k : Kern} {f : Core → Core}
    (hc : f (coreOf k c) = { coreOf k c with
      threads := (f (coreOf k c)).threads, blocks := (f (coreOf k c)).blocks, entries := (f (coreOf k c)).entries,
      pendSince := (f (coreOf k c)).pendSince })
    (hb : ∀ b, (mget (f (coreOf k c)).blocks b).map bare = (mget (coreOf k c).blocks b).map bare)
    (ht : ∀ a b, keys a b = false →
      findThread (f (coreOf k c)).threads a b = findThread (coreOf k c).threads a b) :
    Within c keys k (modCore k c f) where
  shared := rfl
  cores d hd := coreOf_modCore_other k f hd
  core := by simp only [coreOf_modCore_same]; exact hc
  blocks b := by simpa [blockOf] using hb b
  threads a b h := by simpa [getThread] using ht a b h

theorem within_modThread {c : Nat} {keys : Nat → Nat → Bool} (k : Kern) (a b : Nat) (f : Thread → Thread) (hf : KeepsKey f)
    (hk : keys a b = true) : Within c keys k (modThread k c a b f) := by
  refine within_modCore rfl (fun _ => rfl) fun x y h => ?_
  have := getThread_modThread k c a b x y f hf
  have hne : ¬ (x = a ∧ y = b) := by rintro ⟨rfl, rfl⟩; simp [hk] at h
  simp only [hne, if_false] at this
  simpa [getThread, modThread] using this

theorem within_modThis {c : Nat} {keys : Nat → Nat → Bool} (k : Kern) (t : Thread) (f : Thread → Thread) (hf : KeepsKey f)
    (hk : keys t.tslot t.lane = true) : Within c keys k (modThis k c t f) := within_modThread k _ _ f hf hk

/-- An update of a group's scalar registers, with the note of those that are written early. -/
def OnlyScalars (f : Group → Group) : Prop := ∀ g, { f g with s := [], early := [] } = { g with s := [], early := [] }

theorem onlyScalars_s (f : Group → List W32) : OnlyScalars fun g => { g with s := f g } := fun _ => rfl
theorem onlyScalars_both (f : Group → List W32) (e : Group → List (Nat × Nat)) :
    OnlyScalars fun g => { g with s := f g, early := e g } := fun _ => rfl

theorem within_modGroup {c : Nat} {keys : Nat → Nat → Bool} (k : Kern) (b g : Nat) (f : Group → Group) (hf : OnlyScalars f) :
    Within c keys k (modGroup k c b g f) := by
  unfold modGroup modBlock
  refine within_modCore rfl (fun b' => ?_) fun _ _ _ => rfl
  by_cases h : b' = b
  · subst h
    simp only [mget_mmod_same, Option.map_map]
    cases mget (coreOf k c).blocks b' with
    | none => rfl
    | some blk =>
      have := map_lmod (fun x : Group => ({ x with s := [], early := [] } : Group)) blk.groups g f hf
      simp only [Option.map_some, Function.comp, bare, this]
  · rw [mget_mmod_other _ _ h]

theorem within_id {c : Nat} {keys : Nat → Nat → Bool} (k : Kern) (n : Nat) : Within c keys k { k with id := n } :=
  ⟨rfl, fun _ _ => rfl, rfl, fun _ => rfl, fun _ _ _ => rfl⟩

/-- A fold of updates that each keep the frame keeps it. -/
theorem within_foldl {α : Type} {c : Nat} {keys : Nat → Nat → Bool} (f : Kern → α → Kern) (l : List α)
    (hf : ∀ k, ∀ a ∈ l, Within c keys k (f k a)) (k : Kern) : Within c keys k (l.foldl f k) := by
  induction l generalizing k with
  | nil => exact Within.refl c keys k
  | cons a l ih =>
    exact (hf k a (by simp)).trans (ih (fun k a ha => hf k a (by simp [ha])) _)

end Sys2Proof.Machine
end

