-- ==== Sys2Proof/Laws/Registers.lean ====
section
/-! SUPPORT. What writing registers, predicates, flags and held results does to a thread and to its group. -/

namespace Sys2Proof.Machine

open Sys2Proof.Safety

/-! ## Values onto registers -/

/-- The register file after predicates are written. -/
def landPreds (r : RegFile) : List (Nat × Bool) → RegFile
  | [] => r
  | p :: ps => landPreds (r.setP p.1 p.2) ps

/-- The register file after an effect on the registers d. -/
def landEffect (r : RegFile) (d : List Reg) (e : Effect) : RegFile :=
  let r := landPreds (landOwn r (d.zip e.vals)) e.preds
  { r with fflags := r.fflags ||| e.flags }

/-- The register file after a held result. -/
def landHeld (r : RegFile) (h : Held) : RegFile :=
  let r := if h.scalar then r else landOwn r (h.regs.zip h.vals)
  { r with fflags := r.fflags ||| h.flags }

/-- What a register file gives for a vector or a trap register. -/
def ownReg (r : RegFile) : Reg → W32
  | .v i => r.v.getD i 0
  | .k i => r.k.getD i 0
  | .s _ => 0

theorem ownReg_setV (r : RegFile) (i : Nat) (x : W32) (q : Reg) : ownReg (r.setV i x) q = if q = .v i then x else ownReg r q := by
  cases q <;> simp only [ownReg, RegFile.setV, getD_rset, Reg.v.injEq, reduceCtorEq, if_false]

theorem ownReg_setK (r : RegFile) (i : Nat) (x : W32) (q : Reg) : ownReg (r.setK i x) q = if q = .k i then x else ownReg r q := by
  cases q <;> simp only [ownReg, RegFile.setK, getD_rset, Reg.k.injEq, reduceCtorEq, if_false]

theorem ownReg_landOwn_other (ps : List (Reg × W32)) (r : RegFile) (q : Reg) (h : ∀ p ∈ ps, p.1 ≠ q) :
    ownReg (landOwn r ps) q = ownReg r q := by
  induction ps generalizing r with
  | nil => rfl
  | cons p ps ih =>
    obtain ⟨a, x⟩ := p
    have ha : a ≠ q := h (a, x) (by simp)
    have ih := fun r => ih r fun p hp => h p (by simp [hp])
    cases a with
    | v i => simp only [landOwn, ih, ownReg_setV]; rw [if_neg (fun e => ha e.symm)]
    | k i => simp only [landOwn, ih, ownReg_setK]; rw [if_neg (fun e => ha e.symm)]
    | s i => simp only [landOwn, ih]

theorem ownReg_landOwn_mem (ps : List (Reg × W32)) (r : RegFile) (hn : (ps.map (·.1)).Nodup) (p : Reg × W32) (hp : p ∈ ps)
    (hs : ∀ n, p.1 ≠ .s n) : ownReg (landOwn r ps) p.1 = p.2 := by
  induction ps generalizing r with
  | nil => simp at hp
  | cons a ps ih =>
    simp only [List.map_cons, List.nodup_cons] at hn
    rcases List.mem_cons.mp hp with rfl | hp'
    · obtain ⟨q, x⟩ := p
      have hq : ∀ p ∈ ps, p.1 ≠ q := fun p hp e => hn.1 (List.mem_map.mpr ⟨p, hp, e⟩)
      cases q with
      | v i => simp only [landOwn]; rw [ownReg_landOwn_other _ _ _ hq, ownReg_setV, if_pos rfl]
      | k i => simp only [landOwn]; rw [ownReg_landOwn_other _ _ _ hq, ownReg_setK, if_pos rfl]
      | s i => exact absurd rfl (hs i)
    · obtain ⟨q, x⟩ := a
      cases q <;> exact ih _ hn.2 hp'

@[simp] theorem landOwn_p (ps : List (Reg × W32)) (r : RegFile) : (landOwn r ps).p = r.p := by
  induction ps generalizing r with
  | nil => rfl
  | cons a ps ih => obtain ⟨q, x⟩ := a; cases q <;> simp [landOwn, ih, RegFile.setV, RegFile.setK]

@[simp] theorem landOwn_fflags (ps : List (Reg × W32)) (r : RegFile) : (landOwn r ps).fflags = r.fflags := by
  induction ps generalizing r with
  | nil => rfl
  | cons a ps ih => obtain ⟨q, x⟩ := a; cases q <;> simp [landOwn, ih, RegFile.setV, RegFile.setK]

@[simp] theorem landPreds_fflags (ps : List (Nat × Bool)) (r : RegFile) : (landPreds r ps).fflags = r.fflags := by
  induction ps generalizing r with
  | nil => rfl
  | cons a ps ih => simp [landPreds, ih, RegFile.setP]

@[simp] theorem ownReg_landPreds (ps : List (Nat × Bool)) (r : RegFile) (q : Reg) : ownReg (landPreds r ps) q = ownReg r q := by
  induction ps generalizing r with
  | nil => rfl
  | cons a ps ih => rw [landPreds, ih]; cases q <;> rfl

theorem landPreds_other (ps : List (Nat × Bool)) (r : RegFile) (j : Nat) (h : ∀ p ∈ ps, p.1 ≠ j) :
    (landPreds r ps).p.getD j false = r.p.getD j false := by
  induction ps generalizing r with
  | nil => rfl
  | cons a ps ih =>
    rw [landPreds, ih _ fun p hp => h p (by simp [hp])]
    have : a.1 ≠ j := h a (by simp)
    simp only [RegFile.setP, getD_rset]; rw [if_neg (Ne.symm this)]

theorem landPreds_mem (ps : List (Nat × Bool)) (r : RegFile) (hn : (ps.map (·.1)).Nodup) (p : Nat × Bool) (hp : p ∈ ps) :
    (landPreds r ps).p.getD p.1 false = p.2 := by
  induction ps generalizing r with
  | nil => simp at hp
  | cons a ps ih =>
    simp only [List.map_cons, List.nodup_cons] at hn
    rcases List.mem_cons.mp hp with rfl | hp'
    · have hq : ∀ q ∈ ps, q.1 ≠ p.1 := fun q hq e => hn.1 (List.mem_map.mpr ⟨q, hq, e⟩)
      rw [landPreds, landPreds_other _ _ _ hq, RegFile.setP, getD_rset, if_pos rfl]
    · rw [landPreds]; exact ih _ hn.2 hp'

theorem getD_landScalars_other (ps : List (Reg × W32)) (s : List W32) (n : Nat) (h : ∀ p ∈ ps, p.1 ≠ .s n) :
    (landScalars s ps).getD n 0 = s.getD n 0 := by
  induction ps generalizing s with
  | nil => rfl
  | cons p ps ih =>
    obtain ⟨a, x⟩ := p
    have ha : a ≠ .s n := h (a, x) (by simp)
    have ih := fun s => ih s fun p hp => h p (by simp [hp])
    cases a with
    | v i => simp only [landScalars, ih]
    | k i => simp only [landScalars, ih]
    | s i =>
      simp only [landScalars, ih, getD_rset]
      rw [if_neg]; rintro rfl; exact ha rfl

theorem getD_landScalars_mem (ps : List (Reg × W32)) (s : List W32) (hn : (ps.map (·.1)).Nodup) (n : Nat) (x : W32)
    (hp : (Reg.s n, x) ∈ ps) : (landScalars s ps).getD n 0 = x := by
  induction ps generalizing s with
  | nil => simp at hp
  | cons a ps ih =>
    simp only [List.map_cons, List.nodup_cons] at hn
    rcases List.mem_cons.mp hp with rfl | hp'
    · have hq : ∀ p ∈ ps, p.1 ≠ .s n := fun p hp e => hn.1 (List.mem_map.mpr ⟨p, hp, e⟩)
      simp only [landScalars]; rw [getD_landScalars_other _ _ _ hq, getD_rset, if_pos rfl]
    · obtain ⟨q, y⟩ := a
      cases q <;> exact ih _ hn.2 hp'

/-! ## Keys are kept -/

theorem keepsKey_regs (f : Thread → RegFile) : KeepsKey fun u => { u with regs := f u } := fun _ => ⟨rfl, rfl⟩
theorem keepsKey_held (f : Thread → List Held) : KeepsKey fun u => { u with held := f u } := fun _ => ⟨rfl, rfl⟩
theorem keepsKey_latch (f : Thread → Option Latch) : KeepsKey fun u => { u with latch := f u } := fun _ => ⟨rfl, rfl⟩

/-! ## writeReg and writeRegs -/

/-- The scalar registers of a group after a write, in a group of the thread. -/
def samePlace (t u : Thread) : Bool := u.block == t.block && u.group == t.group

theorem getThread_writeReg_same (k : Kern) (c : Nat) (t : Thread) (r : Reg) (x : W32) :
    getThread (writeReg k c t r x) c t.tslot t.lane =
      (getThread k c t.tslot t.lane).map fun u => { u with regs := landOwn u.regs [(r, x)] } := by
  cases r with
  | v i => exact getThread_modThis_same k c t _ (keepsKey_regs _)
  | k i => exact getThread_modThis_same k c t _ (keepsKey_regs _)
  | s i =>
    simp only [writeReg, getThread_modGroup, landOwn]
    cases getThread k c t.tslot t.lane <;> rfl

theorem groupOf_writeReg (k : Kern) (c : Nat) (t u : Thread) (r : Reg) (x : W32) :
    groupOf (writeReg k c t r x) c u =
      (groupOf k c u).map fun g => if samePlace t u then { g with s := landScalars g.s [(r, x)] } else g := by
  cases r with
  | v i => simp [writeReg, landScalars]
  | k i => simp [writeReg, landScalars]
  | s i =>
    simp only [writeReg, groupOf_modGroup, landScalars]
    by_cases h : u.block = t.block ∧ u.group = t.group
    · simp [samePlace, h]
    · have : samePlace t u = false := by simpa [samePlace] using h
      simp [h, this]

theorem within_writeReg {c : Nat} {keys : Nat → Nat → Bool} (k : Kern) (t : Thread) (r : Reg) (x : W32)
    (hk : keys t.tslot t.lane = true) : Within c keys k (writeReg k c t r x) := by
  cases r with
  | v i => exact within_modThis k t _ (keepsKey_regs _) hk
  | k i => exact within_modThis k t _ (keepsKey_regs _) hk
  | s i => exact within_modGroup k t.block t.group _ (onlyScalars_s _)

theorem landOwn_append (r : RegFile) (ps qs : List (Reg × W32)) : landOwn r (ps ++ qs) = landOwn (landOwn r ps) qs := by
  induction ps generalizing r with
  | nil => rfl
  | cons a ps ih => obtain ⟨q, x⟩ := a; cases q <;> simp [landOwn, ih]

theorem landScalars_append (s : List W32) (ps qs : List (Reg × W32)) :
    landScalars s (ps ++ qs) = landScalars (landScalars s ps) qs := by
  induction ps generalizing s with
  | nil => rfl
  | cons a ps ih => obtain ⟨q, x⟩ := a; cases q <;> simp [landScalars, ih]

theorem getThread_writeRegs_same (k : Kern) (c : Nat) (t : Thread) (rs : List Reg) (xs : List W32) :
    getThread (writeRegs k c t rs xs) c t.tslot t.lane =
      (getThread k c t.tslot t.lane).map fun u => { u with regs := landOwn u.regs (rs.zip xs) } := by
  induction rs generalizing k xs with
  | nil => simp [writeRegs, landOwn]
  | cons r rs ih =>
    cases xs with
    | nil => simp [writeRegs, landOwn]
    | cons x xs =>
      rw [writeRegs, ih, getThread_writeReg_same, Option.map_map]
      congr 1; funext u
      simp only [Function.comp, List.zip_cons_cons]
      rw [← landOwn_append]; rfl

theorem groupOf_writeRegs (k : Kern) (c : Nat) (t u : Thread) (rs : List Reg) (xs : List W32) :
    groupOf (writeRegs k c t rs xs) c u =
      (groupOf k c u).map fun g => if samePlace t u then { g with s := landScalars g.s (rs.zip xs) } else g := by
  induction rs generalizing k xs with
  | nil => simp [writeRegs, landScalars]
  | cons r rs ih =>
    cases xs with
    | nil => simp [writeRegs, landScalars]
    | cons x xs =>
      rw [writeRegs, ih, groupOf_writeReg, Option.map_map]
      congr 1; funext g
      simp only [Function.comp, List.zip_cons_cons]
      split
      · rw [show (r, x) :: rs.zip xs = [(r, x)] ++ rs.zip xs from rfl, landScalars_append]
      · rfl

theorem within_writeRegs {c : Nat} {keys : Nat → Nat → Bool} (k : Kern) (t : Thread) (rs : List Reg) (xs : List W32)
    (hk : keys t.tslot t.lane = true) : Within c keys k (writeRegs k c t rs xs) := by
  induction rs generalizing k xs with
  | nil => exact .refl ..
  | cons r rs ih =>
    cases xs with
    | nil => exact .refl ..
    | cons x xs => exact (within_writeReg k t r x hk).trans (ih _ xs)

/-! ## writePred and joinFlags -/

theorem getThread_writePreds_same (k : Kern) (c : Nat) (t : Thread) (ps : List (Nat × Bool)) :
    getThread (ps.foldl (fun k p => writePred k c t p.1 p.2) k) c t.tslot t.lane =
      (getThread k c t.tslot t.lane).map fun u => { u with regs := landPreds u.regs ps } := by
  induction ps generalizing k with
  | nil => simp [landPreds]
  | cons p ps ih =>
    rw [List.foldl_cons, ih, writePred, getThread_modThis_same _ _ _ _ (keepsKey_regs _), Option.map_map]
    rfl

@[simp] theorem groupOf_writePreds (k : Kern) (c : Nat) (t u : Thread) (ps : List (Nat × Bool)) :
    groupOf (ps.foldl (fun k p => writePred k c t p.1 p.2) k) c u = groupOf k c u := by
  induction ps generalizing k with
  | nil => rfl
  | cons p ps ih => rw [List.foldl_cons, ih]; simp [writePred]

theorem within_writePreds {c : Nat} {keys : Nat → Nat → Bool} (k : Kern) (t : Thread) (ps : List (Nat × Bool))
    (hk : keys t.tslot t.lane = true) : Within c keys k (ps.foldl (fun k p => writePred k c t p.1 p.2) k) :=
  within_foldl _ _ (fun k p _ => within_modThis k t _ (keepsKey_regs _) hk) k

/-! ## An effect on a thread -/

/-- Write an effect to a thread, as a plain instruction does. -/
def putEffect (k : Kern) (c : Nat) (t : Thread) (d : List Reg) (e : Effect) : Kern :=
  joinFlags (e.preds.foldl (fun k p => writePred k c t p.1 p.2) (writeRegs k c t d e.vals)) c t e.flags

theorem getThread_putEffect_same (k : Kern) (c : Nat) (t : Thread) (d : List Reg) (e : Effect) :
    getThread (putEffect k c t d e) c t.tslot t.lane =
      (getThread k c t.tslot t.lane).map fun u => { u with regs := landEffect u.regs d e } := by
  rw [putEffect, joinFlags, getThread_modThis_same _ _ _ _ (keepsKey_regs _), getThread_writePreds_same,
    getThread_writeRegs_same, Option.map_map, Option.map_map]
  rfl

theorem groupOf_putEffect (k : Kern) (c : Nat) (t u : Thread) (d : List Reg) (e : Effect) :
    groupOf (putEffect k c t d e) c u =
      (groupOf k c u).map fun g => if samePlace t u then { g with s := landScalars g.s (d.zip e.vals) } else g := by
  rw [putEffect, joinFlags, groupOf_modThis, groupOf_writePreds, groupOf_writeRegs]

theorem within_putEffect {c : Nat} {keys : Nat → Nat → Bool} (k : Kern) (t : Thread) (d : List Reg) (e : Effect)
    (hk : keys t.tslot t.lane = true) : Within c keys k (putEffect k c t d e) :=
  ((within_writeRegs k t d e.vals hk).trans (within_writePreds _ t e.preds hk)).trans
    (within_modThis _ t _ (keepsKey_regs _) hk)

/-! ## Held results -/

/-- A group after a held result of one of its threads. -/
def landGroup (h : Held) (g : Group) : Group :=
  if h.scalar then
    { g with s := landScalars g.s ((h.regs.zip h.vals).filter fun p => !(scalarNumbers [p.1]).any fun i => g.early.contains (i, h.id)) }
  else { g with s := landScalars g.s (h.regs.zip h.vals) }

theorem getThread_writeResult_same (k : Kern) (c : Nat) (t : Thread) (h : Held) :
    getThread (writeResult k c t h) c t.tslot t.lane =
      (getThread k c t.tslot t.lane).map fun u => { u with regs := if h.scalar then u.regs else landOwn u.regs (h.regs.zip h.vals) } := by
  unfold writeResult
  split
  · simp
  · rw [getThread_writeRegs_same]

theorem groupOf_writeResult (k : Kern) (c : Nat) (t u : Thread) (h : Held) :
    groupOf (writeResult k c t h) c u = (groupOf k c u).map fun g => if samePlace t u then landGroup h g else g := by
  unfold writeResult landGroup
  split
  · rw [groupOf_modGroup]
    by_cases hp : u.block = t.block ∧ u.group = t.group
    · simp [samePlace, hp]
    · have : samePlace t u = false := by simpa [samePlace] using hp
      simp [hp, this]
  · rw [groupOf_writeRegs]

theorem within_writeResult {c : Nat} {keys : Nat → Nat → Bool} (k : Kern) (t : Thread) (h : Held)
    (hk : keys t.tslot t.lane = true) : Within c keys k (writeResult k c t h) := by
  unfold writeResult
  split
  · exact within_modGroup k _ _ _ fun _ => rfl
  · exact within_writeRegs k t _ _ hk

theorem getThread_writeHeld_same (k : Kern) (c : Nat) (t : Thread) (h : Held) :
    getThread (writeHeld k c t h) c t.tslot t.lane =
      (getThread k c t.tslot t.lane).map fun u => { u with regs := landHeld u.regs h } := by
  rw [writeHeld, joinFlags, getThread_modThis_same _ _ _ _ (keepsKey_regs _), getThread_writeResult_same, Option.map_map]
  rfl

theorem groupOf_writeHeld (k : Kern) (c : Nat) (t u : Thread) (h : Held) :
    groupOf (writeHeld k c t h) c u = (groupOf k c u).map fun g => if samePlace t u then landGroup h g else g := by
  rw [writeHeld, joinFlags, groupOf_modThis, groupOf_writeResult]

theorem within_writeHeld {c : Nat} {keys : Nat → Nat → Bool} (k : Kern) (t : Thread) (h : Held)
    (hk : keys t.tslot t.lane = true) : Within c keys k (writeHeld k c t h) :=
  (within_writeResult k t _ hk).trans (within_modThis _ t _ (keepsKey_regs _) hk)

theorem getThread_writeHelds_same (k : Kern) (c : Nat) (t : Thread) (hs : List Held) :
    getThread (hs.foldl (fun k h => writeHeld k c t h) k) c t.tslot t.lane =
      (getThread k c t.tslot t.lane).map fun u => { u with regs := hs.foldl landHeld u.regs } := by
  induction hs generalizing k with
  | nil => simp
  | cons h hs ih => rw [List.foldl_cons, ih, getThread_writeHeld_same, Option.map_map]; rfl

/-- A group after held results of one of its threads. -/
def landHelds (g : Group) (hs : List Held) : Group := hs.foldl (fun g h => landGroup h g) g

theorem groupOf_writeHelds (k : Kern) (c : Nat) (t u : Thread) (hs : List Held) :
    groupOf (hs.foldl (fun k h => writeHeld k c t h) k) c u =
      (groupOf k c u).map fun g => if samePlace t u then landHelds g hs else g := by
  induction hs generalizing k with
  | nil => simp [landHelds]
  | cons h hs ih =>
    rw [List.foldl_cons, ih, groupOf_writeHeld, Option.map_map]
    congr 1; funext g
    simp only [Function.comp]
    split <;> rfl

/-- A thread after the held results that satisfy a test are written. -/
def flushed (test : Held → Bool) (u : Thread) : Thread :=
  { u with regs := (u.held.filter test).foldl landHeld u.regs, held := u.held.filter fun h => !test h }

@[simp] theorem getThread_dropEarly (k : Kern) (c : Nat) (t : Thread) (a b : Nat) :
    getThread (dropEarly k c t) c a b = getThread k c a b := by simp [dropEarly]

theorem within_dropEarly {c : Nat} {keys : Nat → Nat → Bool} (k : Kern) (t : Thread) : Within c keys k (dropEarly k c t) :=
  within_modGroup k _ _ _ fun _ => rfl

theorem getThread_flushHeld_same (k : Kern) (c : Nat) (t : Thread) (test : Held → Bool) :
    getThread (flushHeld k c t test) c t.tslot t.lane = (getThread k c t.tslot t.lane).map (flushed test) := by
  rw [flushHeld, getThread_dropEarly, getThread_modThis_same _ _ _ _ (keepsKey_held _), getThread_writeHelds_same, Option.map_map,
    nowThread]
  cases h : getThread k c t.tslot t.lane with
  | none => rfl
  | some u => rfl

theorem within_flushHeld {c : Nat} {keys : Nat → Nat → Bool} (k : Kern) (t : Thread) (test : Held → Bool)
    (hk : keys t.tslot t.lane = true) : Within c keys k (flushHeld k c t test) :=
  ((within_foldl _ _ (fun k h _ => within_writeHeld k t h hk) k).trans (within_modThis _ t _ (keepsKey_held _) hk)).trans
    (within_dropEarly _ t)

theorem sOf_flushHeld (k : Kern) (c : Nat) (t u : Thread) (test : Held → Bool) :
    (groupOf (flushHeld k c t test) c u).map (·.s) =
      (groupOf k c u).map fun g => (if samePlace t u then landHelds g ((nowThread k c t).held.filter test) else g).s := by
  rw [flushHeld, dropEarly, groupOf_modGroup]
  have h := groupOf_writeHelds k c t u ((nowThread k c t).held.filter test)
  split
  · simp only [groupOf_modThis, h, Option.map_map]; rfl
  · simp only [groupOf_modThis, h, Option.map_map]; rfl

/-- A thread after one instruction counts for its open windows. -/
def counted (upTo : Nat) (u : Thread) : Thread := flushed Held.due { u with held := u.held.map (countHeld upTo) }

@[simp] theorem counted_held (n : Nat) (u : Thread) : (counted n u).held = heldLeft n u.held := rfl

@[simp] theorem getThread_releaseScalar (k : Kern) (c : Nat) (t : Thread) (i a b : Nat) :
    getThread (releaseScalar k c t i) c a b = getThread k c a b := by
  unfold releaseScalar; split <;> simp

@[simp] theorem getThread_releaseScalars (k : Kern) (c : Nat) (t : Thread) (rs : List Reg) (a b : Nat) :
    getThread (releaseScalars k c t rs) c a b = getThread k c a b := by
  unfold releaseScalars
  induction scalarNumbers rs generalizing k with
  | nil => rfl
  | cons i l ih => rw [List.foldl_cons, ih, getThread_releaseScalar]

theorem within_releaseScalar {c : Nat} {keys : Nat → Nat → Bool} (k : Kern) (t : Thread) (i : Nat) :
    Within c keys k (releaseScalar k c t i) := by
  unfold releaseScalar
  split
  · exact .refl ..
  · exact within_modGroup k _ _ _ fun _ => rfl

theorem within_releaseScalars {c : Nat} {keys : Nat → Nat → Bool} (k : Kern) (t : Thread) (rs : List Reg) :
    Within c keys k (releaseScalars k c t rs) := within_foldl _ _ (fun k i _ => within_releaseScalar k t i) k

theorem getThread_countWindows_same (k : Kern) (c : Nat) (t : Thread) (n : Nat) :
    getThread (countWindows k c t n) c t.tslot t.lane = (getThread k c t.tslot t.lane).map (counted n) := by
  rw [countWindows, getThread_releaseScalars, getThread_flushHeld_same, getThread_modThis_same _ _ _ _ (keepsKey_held _),
    Option.map_map]
  rfl

theorem within_countWindows {c : Nat} {keys : Nat → Nat → Bool} (k : Kern) (t : Thread) (n : Nat)
    (hk : keys t.tslot t.lane = true) : Within c keys k (countWindows k c t n) :=
  ((within_modThis k t _ (keepsKey_held _) hk).trans (within_flushHeld _ t _ hk)).trans (within_releaseScalars _ t _)

@[simp] theorem countHeld_regs (n : Nat) (h : Held) : (countHeld n h).regs = h.regs := by unfold countHeld; split <;> rfl
@[simp] theorem countHeld_id (n : Nat) (h : Held) : (countHeld n h).id = h.id := by unfold countHeld; split <;> rfl
@[simp] theorem countHeld_arrived (n : Nat) (h : Held) : (countHeld n h).arrived = h.arrived := by unfold countHeld; split <;> rfl

@[simp] theorem landGroup_early (h : Held) (g : Group) : (landGroup h g).early = g.early := by unfold landGroup; split <;> rfl

/-- A scalar register that a held result does not name, or that has been written with it, is unchanged. -/
theorem getD_landGroup_other (h : Held) (g : Group) (n : Nat) (hn : Reg.s n ∉ h.regs ∨ g.early.contains (n, h.id) = true) :
    (landGroup h g).s.getD n 0 = g.s.getD n 0 := by
  unfold landGroup
  split
  · refine getD_landScalars_other _ _ _ fun p hp e => ?_
    obtain ⟨hm, hf⟩ := List.mem_filter.mp hp
    rcases hn with hn | hn
    · exact hn (e ▸ (List.of_mem_zip hm).1)
    · rw [e] at hf
      have hn : (n, h.id) ∈ g.early := by simpa using hn
      simp [scalarNumbers, hn] at hf
  · rename_i hs
    refine getD_landScalars_other _ _ _ fun p hp e => hs ?_
    have := (List.of_mem_zip hp).1
    rw [e] at this
    exact List.any_eq_true.mpr ⟨_, this, rfl⟩

/-- The scalar registers that held results do not name, or that have been written with them, are unchanged. -/
theorem getD_landHelds_other (hs : List Held) (g : Group) (n : Nat)
    (h : ∀ x ∈ hs, Reg.s n ∉ x.regs ∨ g.early.contains (n, x.id) = true) : (landHelds g hs).s.getD n 0 = g.s.getD n 0 := by
  induction hs generalizing g with
  | nil => rfl
  | cons x hs ih =>
    rw [landHelds, List.foldl_cons]
    exact (ih _ fun y hy => by rw [landGroup_early]; exact h y (by simp [hy])).trans (getD_landGroup_other x g n (h x (by simp)))

theorem ownReg_landHeld_other (r : RegFile) (h : Held) (q : Reg) (hq : q ∉ h.regs) : ownReg (landHeld r h) q = ownReg r q := by
  have : ownReg (landHeld r h) q = ownReg (if h.scalar then r else landOwn r (h.regs.zip h.vals)) q := by cases q <;> rfl
  rw [this]
  split
  · rfl
  · exact ownReg_landOwn_other _ _ _ fun p hp e => hq (e ▸ (List.of_mem_zip hp).1)

theorem ownReg_landHelds_other (hs : List Held) (r : RegFile) (q : Reg) (h : ∀ x ∈ hs, q ∉ x.regs) :
    ownReg (hs.foldl landHeld r) q = ownReg r q := by
  induction hs generalizing r with
  | nil => rfl
  | cons x hs ih =>
    rw [List.foldl_cons, ih _ fun y hy => h y (by simp [hy])]
    exact ownReg_landHeld_other r x q (h x (by simp))

@[simp] theorem landHelds_p (hs : List Held) (r : RegFile) : (hs.foldl landHeld r).p = r.p := by
  induction hs generalizing r with
  | nil => rfl
  | cons x hs ih => rw [List.foldl_cons, ih]; simp only [landHeld]; split <;> simp

theorem landHelds_fflags (hs : List Held) (r : RegFile) (f : BitVec 5) (h : r.fflags &&& f = f) :
    (hs.foldl landHeld r).fflags &&& f = f := by
  induction hs generalizing r with
  | nil => exact h
  | cons x hs ih =>
    rw [List.foldl_cons]
    refine ih _ ?_
    have : (landHeld r x).fflags = r.fflags ||| x.flags := by simp only [landHeld]; split <;> simp
    rw [this]
    ext i hi
    have := congrArg (fun y : BitVec 5 => y[i]) h
    simp at this ⊢
    tauto

/-! ## Scalar registers to which no result that has arrived is on its way -/

/-- A scalar register of a group is the same in two states. -/
def SameScalar (c : Nat) (u : Thread) (n : Nat) (k k' : Kern) : Prop := seeReg k' c u (.s n) = seeReg k c u (.s n)

theorem sameScalar_of_map {c : Nat} {u : Thread} {n : Nat} {k k' : Kern} (f : Group → Group)
    (h : groupOf k' c u = (groupOf k c u).map f) (hf : ∀ g, (f g).s.getD n 0 = g.s.getD n 0) : SameScalar c u n k k' := by
  simp only [SameScalar, seeReg, h]
  cases groupOf k c u with
  | none => rfl
  | some g => simpa using hf g

/-- An update of a thread that keeps its block and group, and to which no arrived result comes. -/
def KeepsQuiet (f : Thread → Thread) : Prop :=
  ∀ u, (f u).block = u.block ∧ (f u).group = u.group ∧
    ∀ h ∈ (f u).held, h.arrived = false ∨ ∃ h' ∈ u.held, h.regs = h'.regs ∧ h.arrived = h'.arrived ∧ h.id = h'.id

theorem comesEarly_congr {k : Kern} {c n id : Nat} {t u : Thread} (hb : t.block = u.block) (hg : t.group = u.group) :
    comesEarly k c t n id = comesEarly k c u n id := by simp only [comesEarly, groupOf, hb, hg]

theorem quiet_modThread {k : Kern} {c b g n : Nat} (x y : Nat) (f : Thread → Thread) (hf : KeepsQuiet f)
    (h : ScalarQuiet k c b g n) : ScalarQuiet (modThread k c x y f) c b g n := by
  intro w hw a ha
  have hearly : comesEarly (modThread k c x y f) c w n a.id = comesEarly k c w n a.id := by
    simp only [comesEarly, groupOf, blockOf, modThread, coreOf_modCore_same]
  rw [hearly]
  simp only [groupThreads, modThread, coreOf_modCore_same, List.mem_filter, List.mem_map] at hw
  obtain ⟨⟨u, hu, rfl⟩, hp⟩ := hw
  by_cases hxy : (u.tslot == x && u.lane == y) = true
  · rw [if_pos hxy] at hp ha ⊢
    obtain ⟨h1, h2, h3⟩ := hf u
    rw [comesEarly_congr h1 h2]
    rw [h1, h2] at hp
    rcases h3 a ha with h3 | ⟨a', ha', e1, e2, e3⟩
    · exact .inr (.inl h3)
    · rw [e1, e2, e3]; exact h u (List.mem_filter.mpr ⟨hu, hp⟩) a' ha'
  · rw [if_neg hxy] at hp ha ⊢
    exact h u (List.mem_filter.mpr ⟨hu, hp⟩) a ha

theorem quiet_modGroup {k : Kern} {c b g n : Nat} (x y : Nat) (f : Group → Group) (hf : ∀ gr p, p ∈ gr.early → p ∈ (f gr).early)
    (h : ScalarQuiet k c b g n) : ScalarQuiet (modGroup k c x y f) c b g n := by
  intro w hw a ha
  rcases h w (by simpa [modGroup, modBlock, groupThreads] using hw) a ha with h | h | h
  · exact .inl h
  · exact .inr (.inl h)
  · refine .inr (.inr ?_)
    simp only [comesEarly, groupOf_modGroup] at h ⊢
    cases hg : groupOf k c w with
    | none => simp [hg] at h
    | some gr =>
      rw [hg] at h
      have hm : (n, a.id) ∈ gr.early := by simpa using h
      split
      · simpa using hf gr _ hm
      · simpa using hm

theorem quiet_regs (f : Thread → RegFile) : KeepsQuiet fun u => { u with regs := f u } :=
  fun _ => ⟨rfl, rfl, fun h hh => .inr ⟨h, hh, rfl, rfl, rfl⟩⟩

theorem quiet_writeRegs {k : Kern} {c b g n : Nat} (t : Thread) (rs : List Reg) (xs : List W32) (h : ScalarQuiet k c b g n) :
    ScalarQuiet (writeRegs k c t rs xs) c b g n := by
  induction rs generalizing k xs with
  | nil => exact h
  | cons r rs ih =>
    cases xs with
    | nil => exact h
    | cons x xs =>
      refine ih xs ?_
      cases r with
      | v i => exact quiet_modThread _ _ _ (quiet_regs _) h
      | k i => exact quiet_modThread _ _ _ (quiet_regs _) h
      | s i => exact quiet_modGroup _ _ _ (fun _ _ h => h) h

theorem quiet_writeHeld {k : Kern} {c b g n : Nat} (t : Thread) (a : Held) (h : ScalarQuiet k c b g n) :
    ScalarQuiet (writeHeld k c t a) c b g n := by
  refine quiet_modThread _ _ _ (quiet_regs _) ?_
  unfold writeResult
  split
  · exact quiet_modGroup _ _ _ (fun _ _ h => h) h
  · exact quiet_writeRegs _ _ _ h

theorem quiet_putEffect {k : Kern} {c b g n : Nat} (t : Thread) (d : List Reg) (e : Effect) (h : ScalarQuiet k c b g n) :
    ScalarQuiet (putEffect k c t d e) c b g n := by
  refine quiet_modThread _ _ _ (quiet_regs _) ?_
  generalize hk : writeRegs k c t d e.vals = k1
  have h1 : ScalarQuiet k1 c b g n := hk ▸ quiet_writeRegs t d _ h
  clear hk
  revert k1
  induction e.preds with
  | nil => exact fun _ h => h
  | cons p ps ih => exact fun k1 h => ih _ (quiet_modThread _ _ _ (quiet_regs _) h)

theorem quiet_foldl {α : Type} {c b g n : Nat} (f : Kern → α → Kern) (l : List α)
    (hf : ∀ k a, ScalarQuiet k c b g n → ScalarQuiet (f k a) c b g n) {k : Kern} (h : ScalarQuiet k c b g n) :
    ScalarQuiet (l.foldl f k) c b g n := by
  induction l generalizing k with
  | nil => exact h
  | cons a l ih => exact ih (hf k a h)

theorem quiet_dropEarly {k : Kern} {c b g n : Nat} (t : Thread) (h : ScalarQuiet k c b g n) :
    ScalarQuiet (dropEarly k c t) c b g n := by
  intro w hw a ha
  have hw' : w ∈ groupThreads (coreOf k c) b g := by simpa [dropEarly, modGroup, modBlock, groupThreads] using hw
  rcases h w hw' a ha with h | h | h
  · exact .inl h
  · exact .inr (.inl h)
  · refine .inr (.inr ?_)
    simp only [comesEarly, dropEarly, groupOf_modGroup] at h ⊢
    cases hg : groupOf k c w with
    | none => simp [hg] at h
    | some gr =>
      rw [hg] at h
      have hm : (n, a.id) ∈ gr.early := by simpa using h
      split
      · rename_i hp
        simp only [Option.map_some, Option.getD_some, List.contains_iff_mem, List.mem_filter]
        refine ⟨hm, List.any_eq_true.mpr ⟨w, ?_, List.any_eq_true.mpr ⟨a, ha, by simp⟩⟩⟩
        simp only [groupThreads, List.mem_filter] at hw' ⊢
        exact ⟨hw'.1, by simp [hp.1, hp.2]⟩
      · simpa using hm

theorem quiet_flushHeld {k : Kern} {c b g n : Nat} (t : Thread) (test : Held → Bool) (h : ScalarQuiet k c b g n) :
    ScalarQuiet (flushHeld k c t test) c b g n :=
  quiet_dropEarly _ (quiet_modThread _ _ _ (fun _ => ⟨rfl, rfl, fun a ha => .inr ⟨a, (List.mem_filter.mp ha).1, rfl, rfl, rfl⟩⟩)
    (quiet_foldl _ _ (fun _ a hk => quiet_writeHeld t a hk) h))

theorem quiet_releaseScalar {k : Kern} {c b g n : Nat} (t : Thread) (i : Nat) (h : ScalarQuiet k c b g n) :
    ScalarQuiet (releaseScalar k c t i) c b g n := by
  unfold releaseScalar
  split
  · exact h
  · exact quiet_modGroup _ _ _ (fun _ _ h => by simp [h]) h

theorem quiet_releaseScalars {k : Kern} {c b g n : Nat} (t : Thread) (rs : List Reg) (h : ScalarQuiet k c b g n) :
    ScalarQuiet (releaseScalars k c t rs) c b g n := quiet_foldl _ _ (fun _ i hk => quiet_releaseScalar t i hk) h

theorem keepsQuiet_count (m : Nat) : KeepsQuiet fun u => { u with held := u.held.map (countHeld m) } := by
  refine fun u => ⟨rfl, rfl, fun a ha => ?_⟩
  obtain ⟨a', ha', rfl⟩ := List.mem_map.mp ha
  exact .inr ⟨a', ha', countHeld_regs m a', countHeld_arrived m a', countHeld_id m a'⟩

theorem quiet_countWindows {k : Kern} {c b g n : Nat} (t : Thread) (m : Nat) (h : ScalarQuiet k c b g n) :
    ScalarQuiet (countWindows k c t m) c b g n :=
  quiet_releaseScalars _ _ (quiet_flushHeld _ _ (quiet_modThread _ _ _ (keepsQuiet_count m) h))

theorem scalar_releaseScalar {k : Kern} {c n : Nat} {t u : Thread} (i : Nat)
    (h : samePlace t u = true → ScalarQuiet k c t.block t.group n) : SameScalar c u n k (releaseScalar k c t i) := by
  unfold releaseScalar
  split
  · rfl
  · rename_i a ha
    refine sameScalar_of_map (fun g => if u.block = t.block ∧ u.group = t.group then
      { g with early := (i, a.id) :: g.early,
               s := if a.arrived then landScalars g.s ((a.regs.zip a.vals).filter (·.1 == .s i)) else g.s } else g) ?_ fun g => ?_
    · rw [groupOf_modGroup]
      by_cases hp : u.block = t.block ∧ u.group = t.group
      · simp [hp]
      · simp [hp]
    · by_cases hp : u.block = t.block ∧ u.group = t.group
      · simp only [hp, and_self, if_true]
        have hq := h (by simp [samePlace, hp])
        have hm := List.mem_of_find?_eq_some ha
        have hne := List.find?_some ha
        simp only [scalarResults, List.mem_flatMap, List.mem_filter] at hm
        obtain ⟨w, hw, hmem, hreg⟩ := hm
        have hwp := (List.mem_filter.mp hw).2
        simp only [Bool.and_eq_true, beq_iff_eq] at hwp
        split
        · rename_i harr
          by_cases hni : i = n
          · subst hni
            rcases hq w hw a hmem with h1 | h1 | h1
            · exact absurd (by simpa using hreg) h1
            · rw [h1] at harr; cases harr
            · rw [comesEarly_congr hwp.1 hwp.2] at h1
              simp [h1] at hne
          · refine getD_landScalars_other _ _ _ fun p hp e => hni ?_
            have := (List.mem_filter.mp hp).2
            rw [e] at this
            simpa using (beq_iff_eq.mp this).symm
        · rfl
      · simp [hp]

theorem scalar_releaseScalars {k : Kern} {c n : Nat} {t u : Thread} (rs : List Reg)
    (h : samePlace t u = true → ScalarQuiet k c t.block t.group n) : SameScalar c u n k (releaseScalars k c t rs) := by
  unfold releaseScalars
  induction scalarNumbers rs generalizing k with
  | nil => rfl
  | cons i l ih =>
    rw [List.foldl_cons]
    exact Eq.trans (ih fun hp => quiet_releaseScalar _ _ (h hp)) (scalar_releaseScalar i h)

theorem scalar_flushHeld {k : Kern} {c n : Nat} {t u : Thread} (test : Held → Bool)
    (h : samePlace t u = true → ∀ a ∈ (nowThread k c t).held, test a = true → Reg.s n ∉ a.regs ∨ comesEarly k c t n a.id = true) :
    SameScalar c u n k (flushHeld k c t test) := by
  have hs := sOf_flushHeld k c t u test
  have hsee : ∀ k : Kern, seeReg k c u (.s n) = (((groupOf k c u).map (·.s)).getD []).getD n 0 := by
    intro k; simp only [seeReg]; cases groupOf k c u <;> simp
  rw [SameScalar, hsee, hsee, hs]
  cases hg : groupOf k c u with
  | none => rfl
  | some g =>
    simp only [Option.map_some, Option.getD_some]
    split
    · rename_i hp
      refine getD_landHelds_other _ _ _ fun a ha => ?_
      rcases h hp a (List.mem_filter.mp ha).1 (List.mem_filter.mp ha).2 with h1 | h1
      · exact .inl h1
      · simp only [samePlace, Bool.and_eq_true, beq_iff_eq] at hp
        rw [comesEarly_congr hp.1.symm hp.2.symm, comesEarly, hg] at h1
        exact .inr (by simpa using h1)
    · rfl

/-- A thread of a core is among those of its group. -/
theorem mem_groupThreads {k : Kern} {c a b : Nat} {w : Thread} (h : getThread k c a b = some w) :
    w ∈ groupThreads (coreOf k c) w.block w.group := by
  refine List.mem_filter.mpr ⟨List.mem_of_find?_eq_some h, by simp⟩

end Sys2Proof.Machine
end

