-- ==== Sys2Proof/Laws/Placing.lean ====
section
/-! SUPPORT. Threads that move: after they are placed each stands at its program counter, in an entry or pending, and nothing
else changed. -/

namespace Sys2Proof.Machine

open Sys2Proof.Safety

/-- A place that a moved thread may have. -/
def Placed (l : Loc) : Prop := (∃ e, l = .entry e) ∨ ∃ n, l = .pending n

/-- The thread of a mover. -/
def Mover.is (m : Mover) (a b : Nat) : Bool := m.tslot == a && m.lane == b

theorem findThread_locate (core : Core) (u : List Mover) (loc : Loc) (pc a b : Nat) :
    findThread (locate core u loc pc).threads a b =
      (findThread core.threads a b).map fun t =>
        if u.any fun m => m.is a b then { t with loc := loc, pc := BitVec.ofNat 64 pc } else t := by
  have hk : KeepsKey fun t => if u.any fun m => m.tslot == t.tslot && m.lane == t.lane then
      { t with loc := loc, pc := BitVec.ofNat 64 pc } else t := by
    intro t; dsimp only; split <;> exact ⟨rfl, rfl⟩
  have := findThread_map _ hk core.threads a b
  simp only [locate]
  rw [this]
  cases h : findThread core.threads a b with
  | none => rfl
  | some t =>
    obtain ⟨rfl, rfl⟩ := findThread_key h
    rfl

theorem within_locate {c : Nat} {keys : Nat → Nat → Bool} (k : Kern) (f : Core → Core) (u : List Mover) (loc : Loc) (pc : Nat)
    (hk : ∀ m ∈ u, keys m.tslot m.lane = true) (hf : ∀ x, (f x).threads = x.threads ∧ (f x).blocks = x.blocks ∧
      f x = { x with entries := (f x).entries, pendSince := (f x).pendSince }) :
    Within c keys k (modCore k c fun core => locate (f core) u loc pc) := by
  refine within_modCore ?_ (fun b => ?_) fun a b h => ?_
  · have := (hf (coreOf k c)).2.2
    simp only [locate]
    rw [this]
  · simp only [locate, (hf _).2.1]
  · rw [findThread_locate, (hf _).1]
    have : (u.any fun m => m.is a b) = false := by
      rw [List.any_eq_false]
      intro m hm e
      have e : m.tslot = a ∧ m.lane = b := by simpa [Mover.is] using e
      obtain ⟨rfl, rfl⟩ := e
      simp [hk m hm] at h
    simp [this]

/-- Placing a unit: its threads stand at its program counter, and the other threads are as they were. -/
theorem placeUnit_spec (k : Kern) (c : Nat) (u : List Mover) :
    ∃ loc, Placed loc ∧ ∀ a b, getThread (placeUnit k c u) c a b =
      (getThread k c a b).map fun t =>
        if u.any fun m => m.is a b then { t with loc := loc, pc := BitVec.ofNat 64 ((u.head?.map (·.pc)).getD 0) } else t := by
  cases u with
  | nil => exact ⟨.entry 0, .inl ⟨0, rfl⟩, fun a b => by simp [placeUnit]⟩
  | cons m ms =>
    simp only [placeUnit]
    split
    · rename_i e _
      exact ⟨.entry e, .inl ⟨e, rfl⟩, fun a b => by
        simp only [getThread, coreOf_modCore_same, findThread_locate]; rfl⟩
    · split
      · rename_i e _
        exact ⟨.entry e, .inl ⟨e, rfl⟩, fun a b => by
          simp only [getThread, coreOf_modCore_same, findThread_locate]; rfl⟩
      · exact ⟨.pending k.id, .inr ⟨k.id, rfl⟩, fun a b => by
          simp only [getThread, coreOf_modCore_same, findThread_locate]; rfl⟩

theorem within_placeUnit {c : Nat} {keys : Nat → Nat → Bool} (k : Kern) (u : List Mover)
    (hk : ∀ m ∈ u, keys m.tslot m.lane = true) : Within c keys k (placeUnit k c u) := by
  cases u with
  | nil => exact .refl ..
  | cons m ms =>
    simp only [placeUnit]
    split
    · exact within_locate k id _ _ _ hk fun x => ⟨rfl, rfl, rfl⟩
    · split
      · exact within_locate k (fun core => { core with entries := _ }) _ _ _ hk fun x => ⟨rfl, rfl, rfl⟩
      · exact (within_id k (k.id + 1)).trans
          (within_locate _ (fun core => { core with pendSince := _ }) _ _ _ hk fun x => ⟨rfl, rfl, rfl⟩)

@[simp] theorem blockOf_placeUnit (k : Kern) (c : Nat) (u : List Mover) (b : Nat) :
    blockOf (placeUnit k c u) c b = blockOf k c b := by
  cases u with
  | nil => rfl
  | cons m ms =>
    simp only [placeUnit]
    split
    · simp [blockOf, locate]
    · split
      · simp [blockOf, locate]
      · simp only [blockOf, locate, coreOf_modCore_same]; rfl

/-! ## Units -/

theorem unitsOf_flatten (ms : List Mover) : (unitsOf ms).flatten = ms := by
  induction ms with
  | nil => rfl
  | cons m ms ih =>
    simp only [unitsOf]
    split
    · rename_i n u us h
      rw [h] at ih
      split
      · simpa using ih
      · simpa using ih
    · rename_i h
      simpa using ih

/-- The movers of a unit go to one program counter. -/
theorem unitsOf_pc (ms : List Mover) : ∀ u ∈ unitsOf ms, ∀ m ∈ u, u.head?.map (·.pc) = some m.pc := by
  induction ms with
  | nil => simp [unitsOf]
  | cons m ms ih =>
    simp only [unitsOf]
    split
    · rename_i n u us h
      rw [h] at ih
      have hn := ih (n :: u) (by simp)
      split
      · rename_i hc
        have hpc : n.pc = m.pc := by simp at hc; exact hc.2
        intro v hv x hx
        rcases List.mem_cons.mp hv with rfl | hv
        · rcases List.mem_cons.mp hx with rfl | hx
          · rfl
          · have := hn x hx
            simp only [List.head?_cons, Option.map_some, Option.some.injEq] at this ⊢
            omega
        · exact ih v (by simp [hv]) x hx
      · intro v hv x hx
        rcases List.mem_cons.mp hv with rfl | hv
        · have : x = m := by simpa using hx
          subst this; rfl
        · exact ih v hv x hx
    · intro v hv x hx
      rcases List.mem_cons.mp hv with rfl | hv
      · have : x = m := by simpa using hx
        subst this; rfl
      · exact ih v hv x hx

/-! ## moveThreads -/

theorem getThread_foldPlace (us : List (List Mover)) (k : Kern) (c a b : Nat)
    (hpc : ∀ u ∈ us, ∀ m ∈ u, u.head?.map (·.pc) = some m.pc) (pc : Nat)
    (hone : ∀ u ∈ us, ∀ m ∈ u, m.is a b = true → m.pc = pc) :
    ∃ loc, Placed loc ∧ getThread (us.foldl (fun k u => placeUnit k c u) k) c a b =
      (getThread k c a b).map fun t =>
        if us.any (fun u => u.any fun m => m.is a b) then { t with loc := loc, pc := BitVec.ofNat 64 pc } else t := by
  induction us generalizing k with
  | nil => exact ⟨.entry 0, .inl ⟨0, rfl⟩, by simp⟩
  | cons u us ih =>
    obtain ⟨l1, p1, h1⟩ := placeUnit_spec k c u
    obtain ⟨l2, p2, h2⟩ := ih (placeUnit k c u) (fun v hv => hpc v (by simp [hv])) fun v hv => hone v (by simp [hv])
    rw [List.foldl_cons, h2, h1, Option.map_map]
    by_cases hu : (u.any fun m => m.is a b) = true
    · obtain ⟨m, hm, he⟩ := List.any_eq_true.mp hu
      have hm1 := hpc u (by simp) m hm
      have hm2 := hone u (by simp) m hm he
      have hpc' : (u.head?.map (·.pc)).getD 0 = pc := by rw [hm1, ← hm2]; rfl
      by_cases hus : (us.any fun u => u.any fun m => m.is a b) = true
      · refine ⟨l2, p2, ?_⟩
        congr 1; funext t
        simp only [Function.comp, hu, hus, if_true, List.any_cons, Bool.or_true]
      · refine ⟨l1, p1, ?_⟩
        congr 1; funext t
        simp only [Function.comp, hu, hus, if_true, List.any_cons, Bool.true_or, hpc']
        simp
    · refine ⟨l2, p2, ?_⟩
      congr 1; funext t
      simp only [Bool.not_eq_true] at hu
      simp [hu]

theorem mem_any_unitsOf (ms : List Mover) (f : Mover → Bool) :
    ((unitsOf ms).any fun u => u.any f) = ms.any f := by
  conv => rhs; rw [← unitsOf_flatten ms]
  rw [List.any_flatten]

theorem keepsKey_loc (l : Loc) : KeepsKey fun t => { t with loc := l } := fun _ => ⟨rfl, rfl⟩

theorem getThread_foldPending (ms : List Mover) (k : Kern) (c a b : Nat) :
    getThread (ms.foldl (fun k m => modThread k c m.tslot m.lane fun t => { t with loc := .pending 0 }) k) c a b =
      (getThread k c a b).map fun t => if ms.any fun m => m.is a b then { t with loc := .pending 0 } else t := by
  induction ms generalizing k with
  | nil => simp
  | cons m ms ih =>
    rw [List.foldl_cons, ih, getThread_modThread _ _ _ _ _ _ _ (keepsKey_loc _)]
    by_cases h : a = m.tslot ∧ b = m.lane
    · obtain ⟨rfl, rfl⟩ := h
      simp only [and_self, if_true, Option.map_map]
      congr 1; funext t
      simp [Mover.is]
    · have : m.is a b = false := by
        simp only [Mover.is, Bool.and_eq_false_iff, beq_eq_false_iff_ne]
        by_contra hc; push_neg at hc; exact h ⟨hc.1.symm, hc.2.symm⟩
      simp only [h, if_false]
      congr 1; funext t
      simp [this]

@[simp] theorem getThread_sweepEntries (k : Kern) (c a b : Nat) : getThread (sweepEntries k c) c a b = getThread k c a b := by
  simp [getThread, sweepEntries]

@[simp] theorem blockOf_sweepEntries (k : Kern) (c b : Nat) : blockOf (sweepEntries k c) c b = blockOf k c b := by
  simp [blockOf, sweepEntries]

theorem within_sweepEntries {c : Nat} {keys : Nat → Nat → Bool} (k : Kern) : Within c keys k (sweepEntries k c) :=
  within_modCore rfl (fun _ => rfl) fun _ _ _ => rfl

/-- The movers, by the key that orders their units. -/
theorem any_sortBy (key : Mover → Nat) (ms : List Mover) (f : Mover → Bool) : (sortBy key ms).any f = ms.any f := by
  rw [Bool.eq_iff_iff, List.any_eq_true, List.any_eq_true]
  simp only [mem_sortBy]

/-- Every mover stands at its program counter, and the other threads are as they were. -/
theorem getThread_moveThreads (k : Kern) (c a b pc : Nat) (ms : List Mover)
    (hone : ∀ m ∈ ms, m.is a b = true → m.pc = pc) :
    ∃ loc, Placed loc ∧ getThread (moveThreads k c ms) c a b =
      (getThread k c a b).map fun t =>
        if ms.any fun m => m.is a b then { t with loc := loc, pc := BitVec.ofNat 64 pc } else t := by
  have hpc : ∀ u ∈ unitsOf (sortBy (fun m => (m.block * 64 + m.group) * 2 ^ 64 + m.pc) ms), ∀ m ∈ u, m.is a b = true →
      m.pc = pc := by
    intro u hu m hm
    apply hone
    have : m ∈ (unitsOf (sortBy (fun m => (m.block * 64 + m.group) * 2 ^ 64 + m.pc) ms)).flatten :=
      List.mem_flatten.mpr ⟨u, hu, hm⟩
    rw [unitsOf_flatten] at this
    exact (mem_sortBy _ _ _).mp this
  obtain ⟨l, p, h⟩ := getThread_foldPlace _ (sweepEntries
    (ms.foldl (fun k m => modThread k c m.tslot m.lane fun t => { t with loc := .pending 0 }) k) c) c a b
    (unitsOf_pc _) pc hpc
  refine ⟨l, p, ?_⟩
  simp only [moveThreads, place_]
  rw [h, getThread_sweepEntries, getThread_foldPending, Option.map_map, mem_any_unitsOf, any_sortBy]
  congr 1; funext t
  simp only [Function.comp]
  split <;> simp_all

theorem blockOf_foldPlace (us : List (List Mover)) (k : Kern) (c b : Nat) :
    blockOf (us.foldl (fun k u => placeUnit k c u) k) c b = blockOf k c b := by
  induction us generalizing k with
  | nil => rfl
  | cons u us ih => rw [List.foldl_cons, ih, blockOf_placeUnit]

theorem blockOf_foldPending (ms : List Mover) (k : Kern) (c b : Nat) :
    blockOf (ms.foldl (fun k m => modThread k c m.tslot m.lane fun t => { t with loc := .pending 0 }) k) c b =
      blockOf k c b := by
  induction ms generalizing k with
  | nil => rfl
  | cons m ms ih => rw [List.foldl_cons, ih, blockOf_modThread]

@[simp] theorem blockOf_moveThreads (k : Kern) (c : Nat) (ms : List Mover) (b : Nat) :
    blockOf (moveThreads k c ms) c b = blockOf k c b := by
  simp only [moveThreads, place_]
  rw [blockOf_foldPlace, blockOf_sweepEntries, blockOf_foldPending]

@[simp] theorem groupOf_moveThreads (k : Kern) (c : Nat) (ms : List Mover) (t : Thread) :
    groupOf (moveThreads k c ms) c t = groupOf k c t := by simp [groupOf]

theorem within_moveThreads {c : Nat} {keys : Nat → Nat → Bool} (k : Kern) (ms : List Mover)
    (hk : ∀ m ∈ ms, keys m.tslot m.lane = true) : Within c keys k (moveThreads k c ms) := by
  simp only [moveThreads, place_]
  refine ((within_foldl _ _ (fun k m hm => within_modThread k _ _ _ (keepsKey_loc _) (hk m hm)) k).trans
    (within_sweepEntries _)).trans (within_foldl _ _ (fun k u hu => within_placeUnit k u fun m hm => ?_) _)
  apply hk
  have : m ∈ (unitsOf (sortBy (fun m => (m.block * 64 + m.group) * 2 ^ 64 + m.pc) ms)).flatten :=
    List.mem_flatten.mpr ⟨u, hu, hm⟩
  rw [unitsOf_flatten] at this
  exact (mem_sortBy _ _ _).mp this

end Sys2Proof.Machine
end

