-- ==== Sys2Proof/Laws/Issuing.lean ====
section
/-! SUPPORT. One issue: what a single issue does to a thread whose course goes on, to its registers and to everything else. -/

namespace Sys2Proof.Machine

open Sys2Proof.Safety

/-- In a list whose numbers rise, a number names one element. -/
theorem rising_inj {α : Type} {num : α → Nat} {l : List α} (h : l.Pairwise fun a b => num a < num b) {a b : α} (ha : a ∈ l)
    (hb : b ∈ l) (e : num a = num b) : a = b := by
  induction l with
  | nil => simp at ha
  | cons c l ih =>
    obtain ⟨h1, h2⟩ := List.pairwise_cons.mp h
    rcases List.mem_cons.mp ha with ha' | ha' <;> rcases List.mem_cons.mp hb with hb' | hb'
    · rw [ha', hb']
    · have := h1 b hb'; rw [ha'] at e; omega
    · have := h1 a ha'; rw [hb'] at e; omega
    · exact ih h2 ha' hb'

/-! ## The threads of an entry -/

theorem entryThreads_getThread {core : Core} {e : Nat} {t : Thread} (h : t ∈ entryThreads core e) :
    findThread core.threads t.tslot t.lane = some t := by
  simp only [entryThreads, List.mem_filterMap, Option.bind_eq_some_iff] at h
  obtain ⟨lane, _, u, _, h⟩ := h
  obtain ⟨h1, h2⟩ := findThread_key h
  rw [h1, h2]; exact h

theorem entryThreads_pairwise (core : Core) (e : Nat) : (entryThreads core e).Pairwise fun a b => a.lane < b.lane := by
  simp only [entryThreads]
  refine List.Pairwise.filterMap _ ?_ List.pairwise_lt_range
  intro a b hab x hx y hy
  simp only [Option.bind_eq_some_iff] at hx hy
  obtain ⟨u, _, hx⟩ := hx
  obtain ⟨v, _, hy⟩ := hy
  rw [(findThread_key hx).2, (findThread_key hy).2]
  exact hab

theorem actors_getThread {s : State} {t : Thread} (h : t ∈ actors s) : getThread s.kern s.cur.core t.tslot t.lane = some t :=
  entryThreads_getThread h

theorem actors_pairwise (s : State) : (actors s).Pairwise fun a b => a.lane < b.lane := entryThreads_pairwise _ _

theorem actors_lane_inj {s : State} {t u : Thread} (ht : t ∈ actors s) (hu : u ∈ actors s) (h : t.lane = u.lane) : t = u := by
  exact rising_inj (actors_pairwise s) ht hu h

theorem acting_mem {s : State} {t : Thread} (h : t ∈ actors s) : acting s t.tslot t.lane = true := by
  simp only [acting, List.any_eq_true]; exact ⟨t, h, by simp⟩

/-! ## Going through a list of threads -/

/-- Threads with distinct lanes. -/
def Apart {α : Type} (key : α → Thread) (l : List α) : Prop := l.Pairwise fun a b => (key a).lane < (key b).lane

/-- A fold that changes, for each member of the list, its own thread by F and no other. -/
theorem getThread_foldl_mem {α : Type} (key : α → Thread) (f : Kern → α → Kern) (F : α → Thread → Thread) (c : Nat) (l : List α)
    (hsame : ∀ k, ∀ a ∈ l,
      getThread (f k a) c (key a).tslot (key a).lane = (getThread k c (key a).tslot (key a).lane).map (F a))
    (hother : ∀ k, ∀ a ∈ l, ∀ x y, y ≠ (key a).lane → getThread (f k a) c x y = getThread k c x y)
    (hl : Apart key l) (a : α) (ha : a ∈ l) (k : Kern) :
    getThread (l.foldl f k) c (key a).tslot (key a).lane = (getThread k c (key a).tslot (key a).lane).map (F a) := by
  have keep : ∀ (l : List α), (∀ k, ∀ a ∈ l, ∀ x y, y ≠ (key a).lane → getThread (f k a) c x y = getThread k c x y) →
      ∀ k : Kern, (∀ b ∈ l, (key a).lane ≠ (key b).lane) →
      getThread (l.foldl f k) c (key a).tslot (key a).lane = getThread k c (key a).tslot (key a).lane := by
    intro l
    induction l with
    | nil => intro _ k _; rfl
    | cons b l ih =>
      intro ho k h
      rw [List.foldl_cons, ih (fun k a ha => ho k a (by simp [ha])) _ fun b hb => h b (by simp [hb])]
      exact ho k b (by simp) _ _ (h b (by simp))
  induction l generalizing k with
  | nil => simp at ha
  | cons b l ih =>
    have hb := List.pairwise_cons.mp hl
    rw [List.foldl_cons]
    rcases List.mem_cons.mp ha with rfl | ha
    · rw [keep l (fun k c hc => hother k c (by simp [hc])) _ fun b hb' => Nat.ne_of_lt (hb.1 b hb'), hsame k a (by simp)]
    · rw [ih (fun k c hc => hsame k c (by simp [hc])) (fun k c hc => hother k c (by simp [hc])) hb.2 ha,
        hother k b (by simp)]
      exact Nat.ne_of_gt (hb.1 a ha)

theorem getThread_modThis_lane (k : Kern) (c : Nat) (t : Thread) (f : Thread → Thread) (hf : KeepsKey f) (x y : Nat)
    (h : y ≠ t.lane) : getThread (modThis k c t f) c x y = getThread k c x y := by
  rw [modThis, getThread_modThread _ _ _ _ _ _ _ hf]; simp [h]

/-- A relation that holds over each step of a fold. -/
theorem foldl_keeps {α : Type} (R : Kern → Kern → Prop) (hr : ∀ k, R k k) (ht : ∀ a b d, R a b → R b d → R a d)
    (f : Kern → α → Kern) (l : List α) (h : ∀ k, ∀ a ∈ l, R k (f k a)) (k : Kern) : R k (l.foldl f k) := by
  induction l generalizing k with
  | nil => exact hr k
  | cons a l ih => exact ht _ _ _ (h k a (by simp)) (ih (fun k a ha => h k a (by simp [ha])) _)

/-- Only the thread with this lane changes. -/
theorem within_lane {c : Nat} {k k' : Kern} {t : Thread} (h : Within c (fun a b => a == t.tslot && b == t.lane) k k') (x y : Nat)
    (hy : y ≠ t.lane) : getThread k' c x y = getThread k c x y := h.threads x y (by simp [hy])

theorem keys_self (t : Thread) : (fun a b => a == t.tslot && b == t.lane) t.tslot t.lane = true := by simp

/-! ## Windows -/

/-- The thread stands in a core in its own block and group. -/
def InGroup (k : Kern) (c : Nat) (t : Thread) : Prop :=
  ∃ w, getThread k c t.tslot t.lane = some w ∧ w.block = t.block ∧ w.group = t.group

theorem scalar_countWindows {k : Kern} {c m n : Nat} {t u : Thread} (ht : InGroup k c t)
    (h : ScalarQuiet k c u.block u.group n) : SameScalar c u n k (countWindows k c t m) := by
  obtain ⟨w, hw, hb, hg⟩ := ht
  have hq : samePlace t u = true → ScalarQuiet k c t.block t.group n := by
    intro hp
    simp only [samePlace, Bool.and_eq_true, beq_iff_eq] at hp
    rw [← hp.1, ← hp.2]; exact h
  have hkeep := keepsQuiet_count m
  simp only [countWindows]
  refine Eq.trans (scalar_releaseScalars _ fun hp => quiet_flushHeld _ _ (quiet_modThread _ _ _ hkeep (hq hp))) ?_
  refine Eq.trans (scalar_flushHeld _ fun hp a ha hdue => ?_) (by simp [seeReg])
  simp only [nowThread, getThread_modThis_same _ _ _ _ (keepsKey_held _), hw, Option.map_some, Option.getD_some, List.mem_map] at ha
  obtain ⟨a', ha', rfl⟩ := ha
  have hc : (if a'.id < m then { a' with window := a'.window - 1 } else a') = countHeld m a' := rfl
  rw [hc] at hdue ⊢
  rw [countHeld_regs, countHeld_id]
  have hm := mem_groupThreads hw
  rw [hb, hg] at hm
  rcases hq hp w hm a' ha' with h1 | h1 | h1
  · exact .inl h1
  · simp only [Held.due, countHeld_arrived, h1, Bool.and_false] at hdue; cases hdue
  · rw [comesEarly_congr hb hg] at h1
    exact .inr (by simpa [comesEarly] using h1)

/-! ## Courses -/

/-- Where a course takes a thread that goes on. -/
def Course.target (next : Nat) : Course → Option Nat
  | .next => some next
  | .to p => some p
  | _ => none

theorem countsWindow_of_target {next p : Nat} {x : Course} (h : x.target next = some p) : countsWindow x = true := by
  cases x <;> simp_all [Course.target, countsWindow]

theorem stopsShort_of_target {next p : Nat} {x : Course} (h : x.target next = some p) : stopsShort x = false := by
  cases x <;> simp_all [Course.target, stopsShort]

/-- A thread whose latch is dropped. -/
def unlatch (k : Kern) (c : Nat) (t : Thread) : Kern := modThis k c t fun u => { u with latch := none }

theorem applyCourse_target {pc next c p : Nat} {k : Kern} {t : Thread} {x : Course} (h : x.target next = some p) :
    applyCourse pc next c k (t, x) = (unlatch k c t, some (moverOf k c t p)) := by
  cases x <;> simp_all [Course.target, applyCourse, unlatch]

theorem applyCourses_fst (pc next c : Nat) (xs : List (Thread × Course))
    (h : ∀ x ∈ xs, (x.2.target next).isSome) (k : Kern) :
    (applyCourses pc next c k xs).1 = xs.foldl (fun k x => unlatch k c x.1) k := by
  induction xs generalizing k with
  | nil => rfl
  | cons x xs ih =>
    obtain ⟨p, hp⟩ := Option.isSome_iff_exists.mp (h x (by simp))
    rw [applyCourses, show x = (x.1, x.2) from rfl, applyCourse_target hp]
    rw [List.foldl_cons]
    exact ih (fun y hy => h y (by simp [hy])) _

theorem applyCourses_snd (pc next c : Nat) (xs : List (Thread × Course))
    (h : ∀ x ∈ xs, (x.2.target next).isSome) (k : Kern) :
    (applyCourses pc next c k xs).2.map (fun m => (m.tslot, m.lane, m.pc)) =
      xs.map fun x => (x.1.tslot, x.1.lane, (x.2.target next).getD 0) := by
  induction xs generalizing k with
  | nil => rfl
  | cons x xs ih =>
    obtain ⟨p, hp⟩ := Option.isSome_iff_exists.mp (h x (by simp))
    rw [applyCourses, show x = (x.1, x.2) from rfl, applyCourse_target hp]
    simp only [List.map_cons, hp, Option.getD_some]
    rw [ih (fun y hy => h y (by simp [hy]))]
    rfl

/-! ## The end of a single issue -/

@[simp] theorem getThread_markIssued (k : Kern) (c e a b : Nat) : getThread (markIssued k c e) c a b = getThread k c a b := by
  simp [getThread, markIssued]

@[simp] theorem groupOf_markIssued (k : Kern) (c e : Nat) (u : Thread) : groupOf (markIssued k c e) c u = groupOf k c u := by
  simp [groupOf, blockOf, markIssued]

theorem within_markIssued {c : Nat} {keys : Nat → Nat → Bool} (k : Kern) (e : Nat) : Within c keys k (markIssued k c e) :=
  within_modCore rfl (fun _ => rfl) fun _ _ _ => rfl

@[simp] theorem getThread_markFormed (k : Kern) (c : Nat) (ms : List Mover) (a b : Nat) :
    getThread (markFormed k c ms) c a b = getThread k c a b := by
  simp [getThread, markFormed]

@[simp] theorem groupOf_markFormed (k : Kern) (c : Nat) (ms : List Mover) (u : Thread) :
    groupOf (markFormed k c ms) c u = groupOf k c u := by
  simp [groupOf, blockOf, markFormed]

theorem within_markFormed {c : Nat} {keys : Nat → Nat → Bool} (k : Kern) (ms : List Mover) : Within c keys k (markFormed k c ms) :=
  within_modCore rfl (fun _ => rfl) fun _ _ _ => rfl

theorem foldl_count (xs : List (Thread × Course)) (next c n : Nat) (h : ∀ x ∈ xs, (x.2.target next).isSome) (k : Kern) :
    xs.foldl (fun k x => if countsWindow x.2 then countWindows k c x.1 n else k) k =
      xs.foldl (fun k x => countWindows k c x.1 n) k := by
  induction xs generalizing k with
  | nil => rfl
  | cons x xs ih =>
    obtain ⟨p, hp⟩ := Option.isSome_iff_exists.mp (h x (by simp))
    rw [List.foldl_cons, List.foldl_cons, countsWindow_of_target hp, if_pos rfl]
    exact ih (fun y hy => h y (by simp [hy])) _

/-- A thread that went on: its windows counted, its latch dropped, at its place and program counter. -/
def wentOn (n : Nat) (loc : Loc) (pc : Nat) (u : Thread) : Thread :=
  { counted n u with latch := none, loc := loc, pc := BitVec.ofNat 64 pc }

/-- What the end of an issue does to a thread that goes on. -/
theorem finishIssue_thread (s : State) (k : Kern) (xs : List (Thread × Course)) (hl : Apart (·.1) xs)
    (h : ∀ x ∈ xs, (x.2.target (curNext s)).isSome) (x : Thread × Course) (hx : x ∈ xs) (p : Nat)
    (hp : x.2.target (curNext s) = some p) :
    ∃ loc, Placed loc ∧ getThread (finishIssue s k xs) s.cur.core x.1.tslot x.1.lane =
      (getThread k s.cur.core x.1.tslot x.1.lane).map (wentOn s.kern.id loc p) := by
  have hkeys := applyCourses_snd (curPc s) (curNext s) s.cur.core xs h
  simp only [finishIssue]
  rw [foldl_count xs (curNext s) _ _ h]
  generalize hk1 : markIssued (xs.foldl (fun k x => countWindows k s.cur.core x.1 s.kern.id) k) s.cur.core s.cur.entry = k1
  have hone : ∀ m ∈ (applyCourses (curPc s) (curNext s) s.cur.core k1 xs).2, m.is x.1.tslot x.1.lane = true → m.pc = p := by
    intro m hm he
    have : (m.tslot, m.lane, m.pc) ∈ (applyCourses (curPc s) (curNext s) s.cur.core k1 xs).2.map
        (fun m => (m.tslot, m.lane, m.pc)) := List.mem_map_of_mem hm
    rw [hkeys, List.mem_map] at this
    obtain ⟨y, hy, hye⟩ := this
    simp only [Prod.mk.injEq] at hye
    have he : m.tslot = x.1.tslot ∧ m.lane = x.1.lane := by simpa [Mover.is] using he
    have hxy : y = x := by
      exact rising_inj (num := fun x : Thread × Course => x.1.lane) hl hy hx (by omega)
    subst hxy
    rw [← hye.2.2, hp]; rfl
  have hany : ((applyCourses (curPc s) (curNext s) s.cur.core k1 xs).2.any fun m => m.is x.1.tslot x.1.lane) = true := by
    have : (x.1.tslot, x.1.lane, (x.2.target (curNext s)).getD 0) ∈
        (applyCourses (curPc s) (curNext s) s.cur.core k1 xs).2.map (fun m => (m.tslot, m.lane, m.pc)) := by
      rw [hkeys]; exact List.mem_map_of_mem (f := fun x => (x.1.tslot, x.1.lane, (x.2.target (curNext s)).getD 0)) hx
    obtain ⟨m, hm, hme⟩ := List.mem_map.mp this
    simp only [Prod.mk.injEq] at hme
    exact List.any_eq_true.mpr ⟨m, hm, by simp [Mover.is, hme.1, hme.2.1]⟩
  obtain ⟨loc, hloc, hmove⟩ := getThread_moveThreads (applyCourses (curPc s) (curNext s) s.cur.core k1 xs).1 s.cur.core
    x.1.tslot x.1.lane p _ hone
  refine ⟨loc, hloc, ?_⟩
  rw [getThread_markFormed, hmove, hany, applyCourses_fst _ _ _ _ h]
  have hun := getThread_foldl_mem (fun y : Thread × Course => y.1) (fun k y => unlatch k s.cur.core y.1)
    (fun _ u => { u with latch := none }) s.cur.core xs
    (fun k y _ => getThread_modThis_same k _ _ _ (keepsKey_latch _))
    (fun k y _ a b hne => getThread_modThis_lane k _ _ _ (keepsKey_latch _) a b hne) hl x hx k1
  rw [hun, ← hk1, getThread_markIssued]
  have hcw := getThread_foldl_mem (fun y : Thread × Course => y.1) (fun k y => countWindows k s.cur.core y.1 s.kern.id)
    (fun _ => counted s.kern.id) s.cur.core xs
    (fun k y _ => getThread_countWindows_same k _ _ _)
    (fun k y _ a b hne => within_lane (within_countWindows k y.1 s.kern.id (keys_self y.1)) a b hne) hl x hx k
  rw [hcw]
  cases getThread k s.cur.core x.1.tslot x.1.lane <;> rfl

theorem within_finishIssue {keys : Nat → Nat → Bool} (s : State) (k : Kern) (xs : List (Thread × Course))
    (h : ∀ x ∈ xs, (x.2.target (curNext s)).isSome) (hk : ∀ x ∈ xs, keys x.1.tslot x.1.lane = true) :
    Within s.cur.core keys k (finishIssue s k xs) := by
  simp only [finishIssue]
  rw [foldl_count xs (curNext s) _ _ h]
  generalize hk1 : markIssued (xs.foldl (fun k x => countWindows k s.cur.core x.1 s.kern.id) k) s.cur.core s.cur.entry = k1
  have hkeys := applyCourses_snd (curPc s) (curNext s) s.cur.core xs h k1
  have h01 : Within s.cur.core keys k k1 := by
    have h0 : ∀ k, ∀ x ∈ xs, Within s.cur.core keys k (countWindows k s.cur.core x.1 s.kern.id) :=
      fun k x hx => within_countWindows k x.1 s.kern.id (hk x hx)
    have h1 := within_foldl (fun k x => countWindows k s.cur.core x.1 s.kern.id) xs h0 k
    have h2 := within_markIssued (c := s.cur.core) (keys := keys)
      (xs.foldl (fun k x => countWindows k s.cur.core x.1 s.kern.id) k) s.cur.entry
    rw [← hk1]
    exact h1.trans h2
  refine h01.trans ?_
  generalize hms : (applyCourses (curPc s) (curNext s) s.cur.core k1 xs).2 = ms at hkeys ⊢
  refine Within.trans (k' := (applyCourses (curPc s) (curNext s) s.cur.core k1 xs).1) ?_ ?_
  · rw [applyCourses_fst _ _ _ _ h]
    exact within_foldl _ _ (fun k x hx => within_modThis k _ _ (keepsKey_latch _) (hk x hx)) k1
  · refine (within_moveThreads _ ms fun m hm => ?_).trans (within_markFormed _ ms)
    have : (m.tslot, m.lane, m.pc) ∈ ms.map (fun m => (m.tslot, m.lane, m.pc)) := List.mem_map_of_mem hm
    rw [hkeys, List.mem_map] at this
    obtain ⟨y, hy, hye⟩ := this
    simp only [Prod.mk.injEq] at hye
    rw [← hye.1, ← hye.2.1]; exact hk y hy

theorem scalar_finishIssue (s : State) (k : Kern) (xs : List (Thread × Course)) (hl : Apart (·.1) xs)
    (h : ∀ x ∈ xs, (x.2.target (curNext s)).isSome) (hin : ∀ x ∈ xs, InGroup k s.cur.core x.1) (u : Thread) (n : Nat)
    (hn : ScalarQuiet k s.cur.core u.block u.group n) : SameScalar s.cur.core u n k (finishIssue s k xs) := by
  have hcount : ∀ (xs : List (Thread × Course)) (k : Kern), Apart (·.1) xs → (∀ x ∈ xs, InGroup k s.cur.core x.1) →
      ScalarQuiet k s.cur.core u.block u.group n →
      SameScalar s.cur.core u n k (xs.foldl (fun k x => countWindows k s.cur.core x.1 s.kern.id) k) := by
    intro xs
    induction xs with
    | nil => intro k _ _ _; rfl
    | cons x xs ih =>
      intro k hl hin hn
      have hl := List.pairwise_cons.mp hl
      refine Eq.trans (ih _ hl.2 (fun y hy => ?_) (quiet_countWindows _ _ hn)) (scalar_countWindows (hin x (by simp)) hn)
      obtain ⟨w, hw, hp⟩ := hin y (by simp [hy])
      refine ⟨w, ?_, hp⟩
      rw [within_lane (within_countWindows k x.1 s.kern.id (keys_self x.1)) _ _ (Nat.ne_of_gt (hl.1 y hy))]
      exact hw
  simp only [finishIssue]
  rw [foldl_count xs (curNext s) _ _ h]
  refine Eq.trans ?_ (hcount xs k hl hin hn)
  simp only [seeReg, groupOf_markFormed, groupOf_moveThreads]
  rw [applyCourses_fst _ _ _ _ h]
  have : ∀ (xs : List (Thread × Course)) (k : Kern),
      groupOf (xs.foldl (fun k x => unlatch k s.cur.core x.1) k) s.cur.core u = groupOf k s.cur.core u := by
    intro xs
    induction xs with
    | nil => intro k; rfl
    | cons x xs ih => intro k; rw [List.foldl_cons, ih]; simp [unlatch]
  rw [this, groupOf_markIssued]

end Sys2Proof.Machine
end

