-- ==== Sys2Proof/Laws/Completing.lean ====
section
/-! SUPPORT. A single issue whose threads all go on completes: the theorem that the instructions without a memory effect
share. -/

namespace Sys2Proof.Machine

open Sys2Proof.Safety

/-! ## What Executes says -/

theorem executes_single {s : State} {i : Instr} {t : Thread} (h : Executes s i t = true) : s.cur.mode = .single := by
  simp only [Executes, Bool.and_eq_true, beq_iff_eq] at h; exact h.1.1.1.1

theorem executes_can {s : State} {i : Instr} {t : Thread} (h : Executes s i t = true) : canIssue s i = true := by
  simp only [Executes, Bool.and_eq_true] at h; exact h.1.1.1.2

theorem executes_mem {s : State} {i : Instr} {t : Thread} (h : Executes s i t = true) : t ∈ actors s := by
  simp only [Executes, Bool.and_eq_true] at h; exact List.contains_iff_mem.mp h.1.1.2

theorem executes_runs {s : State} {i : Instr} {t : Thread} (h : Executes s i t = true) : verdictOf s i t = none := by
  simp only [Executes, Bool.and_eq_true] at h; exact Option.isNone_iff_eq_none.mp h.1.2

theorem executes_quiet {s : State} {i : Instr} {t : Thread} (h : Executes s i t = true) :
    ∀ u ∈ actors s, verdictOf s i u = none ∨ verdictOf s i u = some .next := by
  simp only [Executes, Bool.and_eq_true, List.all_eq_true] at h
  intro u hu
  have := (h.2 u hu).1
  simpa using this

theorem executes_clean {s : State} {i : Instr} {t : Thread} (h : Executes s i t = true) :
    ∀ u ∈ actors s, facesClean s i u = true := by
  simp only [Executes, Bool.and_eq_true, List.all_eq_true] at h
  exact fun u hu => (h.2 u hu).2

theorem quiet_shared {s : State} {i : Instr} {u : Thread} (h : verdictOf s i u = none ∨ verdictOf s i u = some .next) :
    sharedTrap s i u = none := by
  unfold verdictOf latchedTrap at h
  cases hl : u.latch with
  | none => rw [hl] at h; cases hs : sharedTrap s i u <;> simp_all
  | some l =>
    rw [hl] at h
    cases ht : l.trap with
    | none => simp only [ht, Option.map_none] at h; cases hs : sharedTrap s i u <;> simp_all
    | some x => simp [ht] at h

theorem runs_guard {s : State} {i : Instr} {u : Thread} (h : verdictOf s i u = none) : guardTrue u (guardOf i) = true := by
  unfold verdictOf at h
  split at h
  · cases h
  · split at h
    · cases h
    · split at h
      · assumption
      · cases h

theorem shared_window {s : State} {i : Instr} {u : Thread} (h : sharedTrap s i u = none) (r : Reg)
    (hr : r ∈ usedRegs (threadUses s.kern s.cur.core u i).dst) : windowReg u r = false := by
  simp only [sharedTrap] at h
  split at h
  · cases h
  · split at h
    · cases h
    · rename_i hc
      simp only [windowConflict, List.any_eq_true, not_exists, not_and] at hc
      exact Bool.eq_false_iff.mpr (hc r hr)

theorem shared_noWindow {s : State} {i : Instr} {u : Thread} (h : sharedTrap s i u = none) (r : Reg)
    (hr : r ∈ usedRegs (threadUses s.kern s.cur.core u i).dst) (x : Held) (hx : x ∈ u.held) (hw : 0 < x.window) :
    r ∉ x.regs := by
  simp only [sharedTrap] at h
  split at h
  · cases h
  · split at h
    · cases h
    · rename_i hc
      intro hm
      apply hc
      simp only [windowConflict, List.any_eq_true]
      exact ⟨r, hr, by simp only [windowReg, List.any_eq_true]; exact ⟨x, hx, by simp [hw, List.contains_iff_mem, hm]⟩⟩

theorem can_ready {s : State} {i : Instr} {u : Thread} (h : canIssue s i = true) (hu : u ∈ actors s)
    (hg : guardTrue u (guardOf i) = true) :
    operandsReady s.kern s.cur.core u (threadUses s.kern s.cur.core u i) = true := by
  simp only [canIssue, Bool.and_eq_true, List.all_eq_true] at h
  have := h.2 u hu
  simp only [hg, Bool.not_true, Bool.false_or, Bool.and_eq_true] at this
  exact this.1

theorem can_group {s : State} {i : Instr} {u : Thread} (h : canIssue s i = true) (hu : u ∈ actors s) :
    (groupOf s.kern s.cur.core u).isSome = true := by
  simp only [canIssue, entryFree, Bool.and_eq_true] at h
  have h := h.1
  split at h
  · cases h
  · simp only [Bool.and_eq_true, List.all_eq_true] at h
    exact (h.2 u hu).2

theorem pending_none {t : Thread} {r : Reg} (h : pendingReg t r = false) (x : Held) (hx : x ∈ t.held) (hw : x.window = 0) :
    r ∉ x.regs := by
  simp only [pendingReg, List.any_eq_false] at h
  have := h x hx
  simpa [hw, List.contains_iff_mem] using this

theorem actors_threads {s : State} {t : Thread} (h : t ∈ actors s) : t ∈ (coreOf s.kern s.cur.core).threads :=
  List.mem_of_find?_eq_some (actors_getThread h)

/-! ## The destination -/

/-- The threads that execute. -/
def doers (s : State) (i : Instr) : List Thread := (actors s).filter fun u => (verdictOf s i u).isNone

theorem mem_doers {s : State} {i : Instr} {u : Thread} : u ∈ doers s i ↔ u ∈ actors s ∧ verdictOf s i u = none := by
  simp [doers]

theorem destination_sub {s : State} {i : Instr} {t : Thread} {r : Reg} (h : r ∈ destination s i t) :
    r ∈ usedRegs (threadUses s.kern s.cur.core t i).dst := by
  simp only [destination, dstRegs] at h
  split at h
  · split at h
    · split at h
      · exact h
      · cases h
    · cases h
  · exact h

theorem threadUses_samePlace {k : Kern} {c : Nat} {t u : Thread} (i : Instr) (h : samePlace t u = true) :
    threadUses k c u i = threadUses k c t i := by
  simp only [samePlace, Bool.and_eq_true, beq_iff_eq] at h
  simp only [threadUses, threadLaunch, h.1]

/-- No result is on its way to a register of its own that an executing thread writes. -/
theorem destination_free {s : State} {i : Instr} {t : Thread} (ht : t ∈ actors s) (hc : canIssue s i = true)
    (hv : verdictOf s i t = none) {r : Reg} (hr : r ∈ destination s i t) (ho : ∀ n, r ≠ .s n) (x : Held) (hx : x ∈ t.held) :
    r ∉ x.regs := by
  have hs := destination_sub hr
  rcases Nat.eq_zero_or_pos x.window with h0 | hpos
  · have hready := can_ready hc ht (runs_guard hv)
    simp only [operandsReady, Bool.and_eq_true, List.all_eq_true] at hready
    have := hready.1 r (List.mem_append.mpr (.inr hs))
    refine pending_none ?_ x hx h0
    cases r with
    | s n => exact absurd rfl (ho n)
    | v n => simpa [regReady] using this
    | k n => simpa [regReady] using this
  · exact shared_noWindow (quiet_shared (.inl hv)) r hs x hx hpos

/-- No result that has arrived and has not been written is on its way to a scalar register that an executing thread writes. -/
theorem destination_quiet {s : State} {i : Instr} {t : Thread} (ht : t ∈ actors s) (hc : canIssue s i = true)
    (hv : verdictOf s i t = none) {n : Nat} (hr : Reg.s n ∈ destination s i t) :
    ScalarQuiet s.kern s.cur.core t.block t.group n := by
  have hs := destination_sub hr
  have hready := can_ready hc ht (runs_guard hv)
  simp only [operandsReady, Bool.and_eq_true, List.all_eq_true] at hready
  have := hready.1 _ (List.mem_append.mpr (.inr hs))
  simp only [regReady, shared_window (quiet_shared (.inl hv)) _ hs, Bool.false_or, pendingScalar, Bool.not_eq_true',
    List.any_eq_false, scalarResults, List.mem_flatMap, List.mem_filter] at this
  intro w hw x hx
  by_cases hm : Reg.s n ∈ x.regs
  · have h := this x ⟨w, hw, hx, by simpa using hm⟩
    have hp := (List.mem_filter.mp hw).2
    simp only [Bool.and_eq_true, beq_iff_eq] at hp
    rw [comesEarly_congr hp.1 hp.2]
    simp at h
    exact .inr (.inr h.2)
  · exact .inl hm

theorem samePlace_comm {t u : Thread} (h : samePlace t u = true) : samePlace u t = true := by
  simp only [samePlace, Bool.and_eq_true, beq_iff_eq] at h ⊢; exact ⟨h.1.symm, h.2.symm⟩

theorem find_congr_place (l : List Thread) {t w : Thread} (h : samePlace w t = true) :
    (l.find? fun u => u.block == t.block && u.group == t.group) = l.find? fun u => u.block == w.block && u.group == w.group := by
  simp only [samePlace, Bool.and_eq_true, beq_iff_eq] at h
  rw [h.1, h.2]

/-- One thread of a group writes a scalar register. -/
theorem destination_scalar_unique {s : State} {i : Instr} {t w : Thread} (hp : samePlace w t = true) (hne : w.lane ≠ t.lane)
    {n : Nat} (hr : Reg.s n ∈ destination s i t) : Reg.s n ∉ destination s i w := by
  intro hw
  have hu := threadUses_samePlace (k := s.kern) (c := s.cur.core) i hp
  have hsc : scalarDst (threadUses s.kern s.cur.core w i) = true := by
    simp only [scalarDst, List.any_eq_true]
    exact ⟨_, destination_sub hw, rfl⟩
  simp only [destination, dstRegs] at hr hw
  rw [hu] at hr
  rw [if_pos hsc, find_congr_place _ hp] at hr
  rw [if_pos hsc] at hw
  cases hv : (((actors s).filter fun u => (verdictOf s i u).isNone).find? fun u => u.block == w.block && u.group == w.group) with
  | none => simp [hv] at hw
  | some v =>
    rw [hv] at hr hw
    by_cases h1 : v.lane = w.lane
    · by_cases h2 : v.lane = t.lane
      · exact hne (by rw [← h1, ← h2])
      · simp [h2] at hr
    · simp [h1] at hw

/-! ## The fold of the bodies -/

theorem zipCourses_map (verdict : Thread → Option Course) (course : Thread → Course) (ts : List Thread) :
    zipCourses verdict ts ((ts.filter fun t => (verdict t).isNone).map course) =
      ts.map fun t => (t, (verdict t).getD (course t)) := by
  induction ts with
  | nil => rfl
  | cons t ts ih =>
    cases h : verdict t with
    | none => simp [zipCourses, h, ih]
    | some x => simp [zipCourses, h, ih]

/-- A body whose course is known and goes on, run for each thread. -/
theorem foldBody_each (f : Kern → Thread → List Reg → Kern × Course) (course : Thread → Course)
    (ds : List (Thread × List Reg)) (hf : ∀ x ∈ ds, ∀ k, (f k x.1 x.2).2 = course x.1)
    (hc : ∀ x ∈ ds, stopsShort (course x.1) = false) (k : Kern) :
    foldBody f k ds = (ds.foldl (fun k x => (f k x.1 x.2).1) k, ds.map fun x => course x.1) := by
  unfold foldBody
  induction ds generalizing k with
  | nil => rfl
  | cons x ds ih =>
    obtain ⟨t, d⟩ := x
    have ht : takeOwed [] t d = d := by cases d <;> rfl
    have hl : leaveOwed [] t d (course t) = [] := by
      simp [leaveOwed, hc (t, d) (by simp)]
    have hfd : (f k t d).2 = course t := hf (t, d) (by simp) k
    simp only [foldOwed, ht, hfd, hl]
    rw [ih (fun x hx => hf x (by simp [hx])) (fun x hx => hc x (by simp [hx]))]
    rfl

/-- What a body does to its thread and its group: it writes the effect e to the registers d, changes other fields of the thread
as own says, leaves everything else as Within allows, and brings no result to a scalar register. -/
structure Body (c : Nat) (u : Thread) (d : List Reg) (e : Effect) (own : Thread → Thread) (k k' : Kern) : Prop where
  thread : getThread k' c u.tslot u.lane =
    (getThread k c u.tslot u.lane).map fun w => { own w with regs := landEffect w.regs d e }
  group : ∀ v, groupOf k' c v =
    (groupOf k c v).map fun g => if samePlace u v then { g with s := landScalars g.s (d.zip e.vals) } else g
  within : ∀ keys : Nat → Nat → Bool, keys u.tslot u.lane = true → Within c keys k k'
  quiet : ∀ b g n, ScalarQuiet k c b g n → ScalarQuiet k' c b g n

theorem body_putEffect (k : Kern) (c : Nat) (u : Thread) (d : List Reg) (e : Effect) :
    Body c u d e id k (putEffect k c u d e) :=
  ⟨getThread_putEffect_same k c u d e, fun v => groupOf_putEffect k c u v d e, fun _ hk => within_putEffect k u d e hk,
    fun _ _ _ h => quiet_putEffect u d e h⟩

theorem landEffect_values (r : RegFile) (d : List Reg) (xs : List W32) : landEffect r d (.values xs) = landOwn r (d.zip xs) := by
  have : ∀ r : RegFile, { r with fflags := r.fflags ||| 0 } = r := by intro r; cases r; simp
  exact this _

theorem landEffect_nothing (r : RegFile) (d : List Reg) : landEffect r d (.values []) = r := by
  simp [landEffect, Effect.values, landOwn, landPreds]

theorem body_nothing (k : Kern) (c : Nat) (u : Thread) (d : List Reg) : Body c u d (.values []) id k k := by
  refine ⟨?_, fun v => ?_, fun _ _ => .refl .., fun _ _ _ h => h⟩
  · cases getThread k c u.tslot u.lane with
    | none => rfl
    | some w => simp [landEffect_nothing]
  · cases groupOf k c v with
    | none => rfl
    | some g => simp [Effect.values, landScalars]

theorem body_writeRegs (k : Kern) (c : Nat) (u : Thread) (d : List Reg) (xs : List W32) :
    Body c u d (.values xs) id k (writeRegs k c u d xs) := by
  refine ⟨?_, fun v => groupOf_writeRegs k c u v d xs, fun _ hk => within_writeRegs k u d xs hk,
    fun _ _ _ h => quiet_writeRegs u d xs h⟩
  rw [getThread_writeRegs_same]
  cases getThread k c u.tslot u.lane with
  | none => rfl
  | some w => simp only [Option.map_some, landEffect_values, id]

theorem scalar_body {k k' : Kern} {c : Nat} {t : Thread} {d : List Reg} {e : Effect} {own : Thread → Thread}
    (hb : Body c t d e own k k') (u : Thread) (n : Nat) (h : samePlace t u = true → Reg.s n ∉ d) : SameScalar c u n k k' := by
  simp only [SameScalar, seeReg, hb.group]
  cases groupOf k c u with
  | none => rfl
  | some g =>
    by_cases hs : samePlace t u = true
    · simp only [Option.map_some, hs, if_true, Option.getD_some]
      exact getD_landScalars_other _ _ _ fun p hp e => h hs (e ▸ (List.of_mem_zip hp).1)
    · simp [hs]

/-- A body of each thread of a list. -/
def Bodies (c : Nat) (F : Kern → Thread × List Reg → Kern) (e : Thread → Effect) (own : Thread → Thread → Thread)
    (ds : List (Thread × List Reg)) : Prop := ∀ x ∈ ds, ∀ k, Body c x.1 x.2 (e x.1) (own x.1) k (F k x)

theorem scalar_foldPut {c : Nat} {F : Kern → Thread × List Reg → Kern} {e : Thread → Effect} {own : Thread → Thread → Thread}
    {ds : List (Thread × List Reg)} (hb : Bodies c F e own ds) (u : Thread) (n : Nat) (k : Kern)
    (h : ∀ x ∈ ds, samePlace x.1 u = true → Reg.s n ∉ x.2) : SameScalar c u n k (ds.foldl F k) := by
  induction ds generalizing k with
  | nil => rfl
  | cons x ds ih =>
    rw [List.foldl_cons]
    exact (ih (fun y hy => hb y (by simp [hy])) _ fun y hy => h y (by simp [hy])).trans
      (scalar_body (hb x (by simp) k) u n (h x (by simp)))

theorem scalar_foldPut_value {c : Nat} {F : Kern → Thread × List Reg → Kern} {e : Thread → Effect}
    {own : Thread → Thread → Thread} {ds : List (Thread × List Reg)} (hb : Bodies c F e own ds) (hl : Apart (·.1) ds)
    (t : Thread) (d : List Reg) (hd : (t, d) ∈ ds) (n : Nat) (x : W32) (hn : (d.zip (e t).vals).map (·.1) |>.Nodup)
    (hx : (Reg.s n, x) ∈ d.zip (e t).vals)
    (h : ∀ y ∈ ds, y.1.lane ≠ t.lane → samePlace y.1 t = true → Reg.s n ∉ y.2) (k : Kern)
    (hg : (groupOf k c t).isSome = true) :
    seeReg (ds.foldl F k) c t (.s n) = x := by
  induction ds generalizing k with
  | nil => simp at hd
  | cons y ds ih =>
    have hl := List.pairwise_cons.mp hl
    rw [List.foldl_cons]
    rcases List.mem_cons.mp hd with rfl | hd
    · have hrest := scalar_foldPut (fun y hy => hb y (by simp [hy])) t n (F k (t, d)) fun y hy hp =>
        h y (by simp [hy]) (Nat.ne_of_gt (hl.1 y hy)) hp
      rw [hrest]
      simp only [seeReg, (hb (t, d) (by simp) k).group]
      obtain ⟨g, hg⟩ := Option.isSome_iff_exists.mp hg
      have hsp : samePlace t t = true := by simp [samePlace]
      simp only [hg, Option.map_some, hsp, if_true, Option.getD_some]
      exact getD_landScalars_mem _ _ hn n x hx
    · exact ih (fun y hy => hb y (by simp [hy])) hl.2 hd (fun y hy => h y (by simp [hy])) _
        (by rw [(hb y (by simp) k).group]; simpa using hg)

/-! ## The caches before the operands are read -/

/-- Faces that meet no error change nothing. -/
theorem meetFaces_clean {s : State} {i : Instr} (ts : List Thread) (h : ∀ u ∈ ts, facesClean s i u = true) :
    meetFaces s.kern s.cur.core i ts = s.kern := by
  unfold meetFaces
  induction ts with
  | nil => rfl
  | cons t ts ih =>
    have ht := h t (by simp)
    simp only [facesClean, Bool.and_eq_true, beq_iff_eq] at ht
    have : meetFace s.cur.core i s.kern t = s.kern := by simp [meetFace, ht.1, ht.2, poisonCharge, charge, chargeBy]
    rw [List.foldl_cons, this]
    exact ih fun u hu => h u (by simp [hu])

theorem quiet_sameThreads {k k' : Kern} {c b g n : Nat} (ht : (coreOf k' c).threads = (coreOf k c).threads)
    (hg : ∀ u, groupOf k' c u = groupOf k c u) (h : ScalarQuiet k c b g n) : ScalarQuiet k' c b g n := by
  intro w hw x hx
  have := h w (by simpa only [groupThreads, ht] using hw) x hx
  simpa only [comesEarly, hg] using this

@[simp] theorem getThread_useObj (k : Kern) (c ctx o a b : Nat) : getThread (useObj k c ctx o) c a b = getThread k c a b := by
  simp [getThread, useObj]

@[simp] theorem groupOf_useObj (k : Kern) (c ctx o : Nat) (u : Thread) : groupOf (useObj k c ctx o) c u = groupOf k c u := by
  simp [groupOf, blockOf, useObj]

@[simp] theorem threads_useObj (k : Kern) (c ctx o : Nat) : (coreOf (useObj k c ctx o) c).threads = (coreOf k c).threads := by
  simp [useObj]

/-- What every use of an object keeps, the uses of an issue keep. -/
theorem useObjs_keeps {P : Kern → Prop} (c : Nat) (hp : ∀ k ctx o, P k → P (useObj k c ctx o)) (i : Instr) (ts : List Thread)
    (k : Kern) (h : P k) : P (useObjs k c i ts) := by
  unfold useObjs
  induction ts generalizing k with
  | nil => exact h
  | cons t ts ih =>
    refine ih _ ?_
    have : ∀ (os : List Nat) (k' : Kern), P k' → P (os.foldl (fun k o => useObj k c (ctxOf k c t) o) k') := by
      intro os
      induction os with
      | nil => intro k' h'; exact h'
      | cons o os ih' => intro k' h'; exact ih' _ (hp k' _ o h')
    exact this _ k h

@[simp] theorem getThread_useObjs (k : Kern) (c : Nat) (i : Instr) (ts : List Thread) (a b : Nat) :
    getThread (useObjs k c i ts) c a b = getThread k c a b :=
  useObjs_keeps (P := fun k' => getThread k' c a b = getThread k c a b) c (fun k' ctx o h => by simpa using h) i ts k rfl

@[simp] theorem groupOf_useObjs (k : Kern) (c : Nat) (i : Instr) (ts : List Thread) (u : Thread) :
    groupOf (useObjs k c i ts) c u = groupOf k c u :=
  useObjs_keeps (P := fun k' => groupOf k' c u = groupOf k c u) c (fun k' ctx o h => by simpa using h) i ts k rfl

@[simp] theorem useObjs_id (k : Kern) (c : Nat) (i : Instr) (ts : List Thread) : (useObjs k c i ts).id = k.id :=
  useObjs_keeps (P := fun k' => k'.id = k.id) c (fun _ _ _ h => h) i ts k rfl

@[simp] theorem threads_useObjs (k : Kern) (c : Nat) (i : Instr) (ts : List Thread) :
    (coreOf (useObjs k c i ts) c).threads = (coreOf k c).threads :=
  useObjs_keeps (P := fun k' => (coreOf k' c).threads = (coreOf k c).threads) c (fun k' ctx o h => by simpa using h) i ts k rfl

@[simp] theorem threads_acquireFaces (k : Kern) (c : Nat) (i : Instr) (ts : List Thread) :
    (coreOf (acquireFaces k c i ts) c).threads = (coreOf k c).threads := by
  unfold acquireFaces; split <;> simp [dropLines]

@[simp] theorem getThread_acquireFaces (k : Kern) (c : Nat) (i : Instr) (ts : List Thread) (a b : Nat) :
    getThread (acquireFaces k c i ts) c a b = getThread k c a b := by
  unfold acquireFaces; split <;> simp [getThread, dropLines]

@[simp] theorem groupOf_acquireFaces (k : Kern) (c : Nat) (i : Instr) (ts : List Thread) (u : Thread) :
    groupOf (acquireFaces k c i ts) c u = groupOf k c u := by
  unfold acquireFaces; split <;> simp [groupOf, blockOf, dropLines]

@[simp] theorem byte_useObjs (k : Kern) (c : Nat) (i : Instr) (ts : List Thread) (a : Nat) :
    seeByte (useObjs k c i ts) a = seeByte k a :=
  useObjs_keeps (P := fun k' => seeByte k' a = seeByte k a) c (fun _ _ _ h => h) i ts k rfl

@[simp] theorem byte_acquireFaces (k : Kern) (c : Nat) (i : Instr) (ts : List Thread) (a : Nat) :
    seeByte (acquireFaces k c i ts) a = seeByte k a := by unfold acquireFaces; split <;> rfl

/-! ## The names of windows -/

/-- A thread whose held results name other registers, with other values from before. -/
def renamed (n : Held → List Reg) (o : Held → List (Nat × W32)) (u : Thread) : Thread :=
  { u with held := u.held.map fun h => { h with named := n h, old := o h } }

theorem renamed_same (u : Thread) : renamed (·.named) (·.old) u = u := by
  have : (fun h : Held => { h with named := h.named, old := h.old }) = id := rfl
  simp [renamed]

theorem renamed_renamed (n m : Held → List Reg) (o p : Held → List (Nat × W32)) (u : Thread) :
    renamed n o (renamed m p u) =
      renamed (fun h => n { h with named := m h, old := p h }) (fun h => o { h with named := m h, old := p h }) u := by
  simp [renamed, Function.comp_def]

theorem nameHeld_renamed (since : Nat) (rs : List Reg) (old : List (Nat × W32)) (u : Thread) :
    nameHeld since rs old u =
      renamed (fun h => if since ≤ h.id then rs else h.named) (fun h => if since ≤ h.id then old else h.old) u := by
  unfold nameHeld renamed
  congr 1
  refine List.map_congr_left fun h _ => ?_
  by_cases hh : since ≤ h.id <;> simp [hh]

theorem keepsKey_nameHeld (since : Nat) (rs : List Reg) (old : List (Nat × W32)) : KeepsKey (nameHeld since rs old) :=
  fun _ => ⟨rfl, rfl⟩

theorem keepsQuiet_nameHeld (since : Nat) (rs : List Reg) (old : List (Nat × W32)) : KeepsQuiet (nameHeld since rs old) := by
  refine fun u => ⟨rfl, rfl, fun a ha => ?_⟩
  obtain ⟨a', ha', rfl⟩ := List.mem_map.mp ha
  refine .inr ⟨a', ha', ?_⟩
  split <;> exact ⟨rfl, rfl, rfl⟩

/-- Naming the windows of an issue changes what held results name, and nothing else. -/
theorem nameWindows_keeps {P : Kern → Prop} (s : State) (i : Instr) (ds : List (Thread × List Reg))
    (hp : ∀ k, ∀ x ∈ ds, ∀ rs old, P k → P (modThis k s.cur.core x.1 (nameHeld s.kern.id rs old))) (k : Kern) (h : P k) :
    P (nameWindows s i ds k) := by
  unfold nameWindows
  split
  · exact h
  · exact h
  · have : ∀ (l : List (Thread × List Reg)) (k : Kern), (∀ x ∈ l, x ∈ ds) → P k →
        P (l.foldl (fun k d => if scalarDst (threadUses s.kern s.cur.core d.1 i) then
          modThis k s.cur.core d.1 (nameHeld s.kern.id (usedRegs (threadUses s.kern s.cur.core d.1 i).dst)
            (scalarsOf s.kern s.cur.core d.1 (usedRegs (threadUses s.kern s.cur.core d.1 i).dst))) else k) k) := by
      intro l
      induction l with
      | nil => intro k _ h; exact h
      | cons x l ih =>
        intro k hm h
        refine ih _ (fun y hy => hm y (by simp [hy])) ?_
        dsimp only
        split
        · exact hp k x (hm x (by simp)) _ _ h
        · exact h
    exact this ds k (fun _ h => h) h

/-- Only results held since the issue name other registers. -/
theorem getThread_nameWindows (s : State) (i : Instr) (ds : List (Thread × List Reg)) (k : Kern) (a b : Nat) :
    ∃ n o, (∀ h : Held, h.id < s.kern.id → n h = h.named ∧ o h = h.old) ∧
      getThread (nameWindows s i ds k) s.cur.core a b = (getThread k s.cur.core a b).map (renamed n o) := by
  refine nameWindows_keeps (P := fun k' => ∃ n o, (∀ h : Held, h.id < s.kern.id → n h = h.named ∧ o h = h.old) ∧
    getThread k' s.cur.core a b = (getThread k s.cur.core a b).map (renamed n o))
    s i ds (fun k' x _ rs old h => ?_) k ⟨(·.named), (·.old), fun _ _ => ⟨rfl, rfl⟩, ?_⟩
  · obtain ⟨n, o, hno, h⟩ := h
    rw [modThis, getThread_modThread _ _ _ _ _ _ _ (keepsKey_nameHeld _ _ _), h]
    split
    · refine ⟨fun y => if s.kern.id ≤ y.id then rs else n y, fun y => if s.kern.id ≤ y.id then old else o y, fun y hy => ?_, ?_⟩
      · have : ¬ s.kern.id ≤ y.id := by omega
        simp only [this, if_false]; exact hno y hy
      · rw [Option.map_map]
        congr 1
        funext u
        simp only [Function.comp_apply, nameHeld_renamed, renamed_renamed]
    · exact ⟨n, o, hno, rfl⟩
  · cases getThread k s.cur.core a b with
    | none => rfl
    | some u => rw [Option.map_some, renamed_same]

/-- What naming the windows of an issue does to one of its threads. -/
def windowNames (s : State) (i : Instr) (ds : List (Thread × List Reg)) (t u : Thread) : Thread :=
  if 1 < ds.length ∧ scalarDst (threadUses s.kern s.cur.core t i) = true then
    nameHeld s.kern.id (usedRegs (threadUses s.kern s.cur.core t i).dst)
      (scalarsOf s.kern s.cur.core t (usedRegs (threadUses s.kern s.cur.core t i).dst)) u
  else u

theorem getThread_nameWindows_mem (s : State) (i : Instr) (ds : List (Thread × List Reg)) (hl : Apart (·.1) ds)
    (x : Thread × List Reg) (hx : x ∈ ds) (k : Kern) :
    getThread (nameWindows s i ds k) s.cur.core x.1.tslot x.1.lane =
      (getThread k s.cur.core x.1.tslot x.1.lane).map (windowNames s i ds x.1) := by
  unfold nameWindows
  split
  · exact absurd hx List.not_mem_nil
  · rename_i y
    have : windowNames s i [y] x.1 = id := funext fun u => if_neg (by simp)
    rw [this, Option.map_id]; rfl
  · rename_i h0 h1
    have hlen : 1 < ds.length := by
      match ds, h0, h1 with
      | [], h0, _ => exact absurd rfl h0
      | [_], _, h1 => exact absurd rfl (h1 _)
      | _ :: _ :: _, _, _ => simp
    refine getThread_foldl_mem (fun y : Thread × List Reg => y.1) _ (fun y => windowNames s i ds y.1) s.cur.core ds ?_ ?_ hl x hx k
    · intro k y _
      unfold windowNames
      simp only [hlen, true_and]
      split
      · rw [getThread_modThis_same _ _ _ _ (keepsKey_nameHeld _ _ _)]
      · simp
    · intro k y _ a b hb
      dsimp only
      split
      · exact getThread_modThis_lane k _ _ _ (keepsKey_nameHeld _ _ _) a b hb
      · rfl

theorem quiet_nameWindows {b g n : Nat} (s : State) (i : Instr) (ds : List (Thread × List Reg)) (k : Kern)
    (h : ScalarQuiet k s.cur.core b g n) : ScalarQuiet (nameWindows s i ds k) s.cur.core b g n :=
  nameWindows_keeps (P := fun k' => ScalarQuiet k' s.cur.core b g n) s i ds
    (fun _ _ _ _ _ h => quiet_modThread _ _ _ (keepsQuiet_nameHeld _ _ _) h) k h

@[simp] theorem groupOf_nameWindows (s : State) (i : Instr) (ds : List (Thread × List Reg)) (k : Kern) (u : Thread) :
    groupOf (nameWindows s i ds k) s.cur.core u = groupOf k s.cur.core u :=
  nameWindows_keeps (P := fun k' => groupOf k' s.cur.core u = groupOf k s.cur.core u) s i ds
    (fun k' x _ rs old h => by simpa using h) k rfl

theorem within_nameWindows {keys : Nat → Nat → Bool} (s : State) (i : Instr) (ds : List (Thread × List Reg)) (k : Kern)
    (hk : ∀ x ∈ ds, keys x.1.tslot x.1.lane = true) : Within s.cur.core keys k (nameWindows s i ds k) :=
  nameWindows_keeps (P := fun k' => Within s.cur.core keys k k') s i ds
    (fun k' x hx rs old h => h.trans (within_modThis k' x.1 _ (keepsKey_nameHeld _ _ _) (hk x hx))) k (.refl ..)

theorem renamed_regs {n : Held → List Reg} {o : Held → List (Nat × W32)} {u : Thread} {r : Reg} (h : ∀ x ∈ u.held, r ∉ x.regs) :
    ∀ x ∈ (renamed n o u).held, r ∉ x.regs := by
  intro x hx
  obtain ⟨y, hy, rfl⟩ := List.mem_map.mp hx
  exact h y hy

/-! ## The theorem -/

/-- The machine with another kernel state. -/
abbrev setKern (s : State) (k : Kern) : State := { s with kern := k }

/-- What is on its way to a thread and where it stands do not touch what the thread's registers were written with. -/
theorem ownReg_wentOn {n : Nat} {loc : Loc} {pc : Nat} {u : Thread} {r : Reg} (h : ∀ x ∈ u.held, r ∉ x.regs) :
    ownReg (wentOn n loc pc u).regs r = ownReg u.regs r := by
  simp only [wentOn, counted, flushed]
  refine ownReg_landHelds_other _ _ _ fun x hx => ?_
  obtain ⟨y, hy, rfl⟩ := List.mem_map.mp (List.mem_filter.mp hx).1
  rw [countHeld_regs]; exact h y hy

theorem zip_nodup (rs : List Reg) (xs : List W32) (h : rs.Nodup) : ((rs.zip xs).map (·.1)).Nodup := by
  induction rs generalizing xs with
  | nil => simp
  | cons r rs ih =>
    cases xs with
    | nil => simp
    | cons x xs =>
      obtain ⟨h1, h2⟩ := List.nodup_cons.mp h
      simp only [List.zip_cons_cons, List.map_cons, List.nodup_cons]
      refine ⟨fun hm => ?_, ih xs h2⟩
      obtain ⟨p, hp, e⟩ := List.mem_map.mp hm
      exact h1 (e ▸ (List.of_mem_zip hp).1)

theorem seeReg_own {k : Kern} {c : Nat} {t u : Thread} (h : getThread k c t.tslot t.lane = some u) {r : Reg}
    (hr : ∀ n, r ≠ .s n) : seeReg k c t r = ownReg u.regs r := by
  cases r with
  | v i => simp [seeReg, ownReg, h]
  | k i => simp [seeReg, ownReg, h]
  | s i => exact absurd rfl (hr i)

/-- Fields of a thread that a body may change beside its registers: not its held results, its block or its group. -/
def KeepsHeld (own : Thread → Thread) : Prop := ∀ w, (own w).held = w.held ∧ (own w).block = w.block ∧ (own w).group = w.group

/-- A single issue of an instruction whose body writes an effect to each executing thread and goes on. -/
theorem issue_completes {s : State} {i : Instr} {t : Thread} (hx : Executes s i t = true)
    (f : Kern → Thread → List Reg → Kern × Course) (e : Thread → Effect) (own : Thread → Thread → Thread)
    (course : Thread → Course)
    (hf : ∀ u ∈ actors s, verdictOf s i u = none → ∀ k d, (f k u d).2 = course u ∧ Body s.cur.core u d (e u) (own u) k (f k u d).1)
    (ho : ∀ u, KeepsHeld (own u))
    (hc : ∀ u ∈ actors s, verdictOf s i u = none → ((course u).target (curNext s)).isSome) (pc : Nat)
    (hpc : (course t).target (curNext s) = some pc)
    (hd : (destination s i t).Nodup) (hp : ((e t).preds.map (·.1)).Nodup) :
    Completes s (issueEach s i f) i t (e t) (own t t) pc := by
  have hmem := (executes_mem hx)
  have hcan := (executes_can hx)
  have hrun := (executes_runs hx)
  -- the pieces of the issue
  generalize hk0 : useObjs (acquireFaces s.kern s.cur.core i (doers s i)) s.cur.core i (doers s i) = k0
  generalize hds : (doers s i).map (fun u => (u, destination s i u)) = ds
  have hissue : issueEach s i f =
      { s with kern := finishIssue s (nameWindows s i ds (foldBody f k0 ds).1)
                         (zipCourses (verdictOf s i) (actors s) (foldBody f k0 ds).2) } := by
    have hmeet := meetFaces_clean (doers s i) fun u hu => executes_clean hx u (mem_doers.mp hu).1
    rw [← hk0, ← hds]
    conv_rhs => rw [← hmeet]
    simp only [issueEach, issue, hcan, if_true, executes_single hx]
    rfl
  have hbefore : beforeBodies s i = k0 := hk0
  have hdsmem : ∀ x ∈ ds, x.1 ∈ actors s ∧ x.2 = destination s i x.1 ∧ verdictOf s i x.1 = none := by
    intro x hx
    rw [← hds] at hx
    obtain ⟨u, hu, rfl⟩ := List.mem_map.mp hx
    exact ⟨(mem_doers.mp hu).1, rfl, (mem_doers.mp hu).2⟩
  have hdst : (t, destination s i t) ∈ ds := by
    rw [← hds]; exact List.mem_map_of_mem (f := fun u => (u, destination s i u)) (mem_doers.mpr ⟨hmem, hrun⟩)
  have hdsl : Apart (·.1) ds := by
    rw [← hds]
    exact List.Pairwise.map _ (fun _ _ h => h) ((actors_pairwise s).filter _)
  have hbodies : Bodies s.cur.core (fun k x => (f k x.1 x.2).1) e own ds := fun x hx k => (hf x.1 (hdsmem x hx).1 (hdsmem x hx).2.2 k x.2).2
  rw [foldBody_each f course ds (fun x hx k => (hf x.1 (hdsmem x hx).1 (hdsmem x hx).2.2 k x.2).1)
    (fun x hx => by
      obtain ⟨p, hp⟩ := Option.isSome_iff_exists.mp (hc x.1 (hdsmem x hx).1 (hdsmem x hx).2.2)
      exact stopsShort_of_target hp) k0] at hissue
  have hcs : ds.map (fun x => course x.1) = (doers s i).map course := by rw [← hds, List.map_map]; rfl
  rw [hcs, doers, zipCourses_map] at hissue
  generalize hkb : ds.foldl (fun k x => (f k x.1 x.2).1) k0 = kb at hissue
  generalize hk1 : nameWindows s i ds kb = k1 at hissue
  generalize hxs : (actors s).map (fun u => (u, (verdictOf s i u).getD (course u))) = xs at hissue
  have hxsmem : ∀ x ∈ xs, x.1 ∈ actors s ∧ x.2 = (verdictOf s i x.1).getD (course x.1) := by
    intro x hx
    rw [← hxs] at hx
    obtain ⟨u, hu, rfl⟩ := List.mem_map.mp hx
    exact ⟨hu, rfl⟩
  have hxsl : Apart (·.1) xs := by
    rw [← hxs]; exact List.Pairwise.map _ (fun _ _ h => h) (actors_pairwise s)
  have hxst : ∀ x ∈ xs, (x.2.target (curNext s)).isSome = true := by
    intro x hx'
    obtain ⟨h1, h2⟩ := hxsmem x hx'
    rcases executes_quiet hx x.1 h1 with h | h
    · rw [h2, h]; exact hc x.1 h1 h
    · rw [h2, h]; rfl
  have htx : (t, course t) ∈ xs := by
    rw [← hxs]
    have := List.mem_map_of_mem (f := fun u => (u, (verdictOf s i u).getD (course u))) hmem
    simpa [hrun] using this
  -- the thread after the bodies
  have h0 : getThread k0 s.cur.core t.tslot t.lane = some t := by
    rw [← hk0, getThread_useObjs, getThread_acquireFaces]; exact actors_getThread hmem
  have hthread : ∀ w d, (w, d) ∈ ds → getThread kb s.cur.core w.tslot w.lane =
      (getThread k0 s.cur.core w.tslot w.lane).map fun u => { own w u with regs := landEffect u.regs d (e w) } := by
    intro w d hwd
    rw [← hkb]
    exact getThread_foldl_mem (fun x : Thread × List Reg => x.1) (fun k x => (f k x.1 x.2).1)
      (fun x u => { own x.1 u with regs := landEffect u.regs x.2 (e x.1) }) s.cur.core ds
      (fun k x hx => (hbodies x hx k).thread)
      (fun k x hx a b hne => within_lane ((hbodies x hx k).within _ (keys_self x.1)) a b hne) hdsl (w, d) hwd k0
  obtain ⟨m, o, hmo, hm⟩ := getThread_nameWindows s i ds kb t.tslot t.lane
  have h1 : getThread k1 s.cur.core t.tslot t.lane =
      some (renamed m o { own t t with regs := landEffect t.regs (destination s i t) (e t) }) := by
    rw [← hk1, hm, hthread _ _ hdst, h0]; rfl
  obtain ⟨loc, hloc, h2⟩ := finishIssue_thread s k1 xs hxsl hxst _ htx pc hpc
  rw [h1] at h2
  simp only [Option.map_some] at h2
  have hin : ∀ x ∈ xs, InGroup k1 s.cur.core x.1 := by
    intro x hx'
    have hw := (hxsmem x hx').1
    have hw0 : getThread k0 s.cur.core x.1.tslot x.1.lane = some x.1 := by
      rw [← hk0, getThread_useObjs, getThread_acquireFaces]; exact actors_getThread hw
    have hkb : ∃ v, getThread kb s.cur.core x.1.tslot x.1.lane = some v ∧ v.block = x.1.block ∧ v.group = x.1.group := by
      by_cases hwd : verdictOf s i x.1 = none
      · have hwdst : (x.1, destination s i x.1) ∈ ds := by
          rw [← hds]; exact List.mem_map_of_mem (f := fun u => (u, destination s i u)) (mem_doers.mpr ⟨hw, hwd⟩)
        rw [hthread _ _ hwdst, hw0]
        exact ⟨_, rfl, (ho x.1 x.1).2.1, (ho x.1 x.1).2.2⟩
      · have : getThread kb s.cur.core x.1.tslot x.1.lane = getThread k0 s.cur.core x.1.tslot x.1.lane := by
          rw [← hkb]
          refine foldl_keeps (fun k k' => getThread k' s.cur.core x.1.tslot x.1.lane = getThread k s.cur.core x.1.tslot x.1.lane)
            (fun _ => rfl) (fun _ _ _ a b => b.trans a) _ ds (fun k y hy' => ?_) k0
          refine within_lane ((hbodies y hy' k).within _ (keys_self y.1)) _ _ fun hl => ?_
          have := actors_lane_inj hw (hdsmem y hy').1 hl
          exact hwd (this ▸ (hdsmem y hy').2.2)
        rw [this, hw0]; exact ⟨_, rfl, rfl, rfl⟩
    obtain ⟨v, hv, hp⟩ := hkb
    obtain ⟨n, o, _, hn⟩ := getThread_nameWindows s i ds kb x.1.tslot x.1.lane
    refine ⟨renamed n o v, ?_, hp⟩
    rw [← hk1, hn, hv]; rfl
  have hquiet : ∀ b g n, ScalarQuiet s.kern s.cur.core b g n → ScalarQuiet k1 s.cur.core b g n := by
    intro b g n h
    rw [← hk1]
    refine quiet_nameWindows _ _ _ _ ?_
    have h0 : ScalarQuiet k0 s.cur.core b g n := by
      rw [← hk0]; exact quiet_sameThreads (by simp) (by simp) h
    rw [← hkb]
    exact foldl_keeps (fun k k' => ScalarQuiet k s.cur.core b g n → ScalarQuiet k' s.cur.core b g n) (fun _ h => h)
      (fun _ _ _ f g h => g (f h)) _ ds (fun k y hy => (hbodies y hy k).quiet b g n) k0 h0
  have hfree : ∀ r ∈ destination s i t, (∀ n, r ≠ .s n) → ∀ h ∈ t.held, r ∉ h.regs :=
    fun r hr hs h hh => destination_free hmem hcan hrun hr hs h hh
  have hzip := zip_nodup (destination s i t) (e t).vals hd
  have hkeys : ∀ x ∈ xs, acting s x.1.tslot x.1.lane = true := fun x hx => acting_mem (hxsmem x hx).1
  have hw01 : Within s.cur.core (acting s) k0 k1 := by
    refine Within.trans (k' := kb) ?_ ?_
    · rw [← hkb]
      exact within_foldl _ _ (fun k x hx => (hbodies x hx k).within _ (acting_mem (hdsmem x hx).1)) k0
    · rw [← hk1]; exact within_nameWindows s i ds kb fun x hx => acting_mem (hdsmem x hx).1
  have hgb : ∀ u, groupOf k1 s.cur.core u = groupOf kb s.cur.core u := by intro u; rw [← hk1, groupOf_nameWindows]
  have hwithin : Within s.cur.core (acting s) (beforeBodies s i) (finishIssue s k1 xs) :=
    hbefore ▸ hw01.trans (within_finishIssue s k1 xs hxst hkeys)
  have hbytes : ∀ a, seeByte (finishIssue s k1 xs) a = seeByte s.kern a := fun a => by
    rw [hwithin.byte, hbefore, ← hk0, byte_useObjs, byte_acquireFaces]
  rw [hissue]
  have hvalOwn : ∀ r, (∀ n, r ≠ .s n) → (∀ h ∈ t.held, r ∉ h.regs) →
      seeReg (finishIssue s k1 xs) s.cur.core t r = ownReg (landEffect t.regs (destination s i t) (e t)) r := by
    intro r hr hh
    rw [seeReg_own h2 hr, ownReg_wentOn (renamed_regs (by simp only [(ho t t).1]; exact hh))]
    rfl
  have hscalar : ∀ (u : Thread) (n : Nat), ScalarQuiet s.kern s.cur.core u.block u.group n →
      SameScalar s.cur.core u n k1 (finishIssue s k1 xs) :=
    fun u n hu => scalar_finishIssue s k1 xs hxsl hxst hin u n (hquiet _ _ _ hu)
  have hland : ∀ r, ownReg (landEffect t.regs (destination s i t) (e t)) r =
      ownReg (landOwn t.regs ((destination s i t).zip (e t).vals)) r := by
    intro r
    have := ownReg_landPreds (e t).preds (landOwn t.regs ((destination s i t).zip (e t).vals)) r
    rw [← this]
    cases r <;> rfl
  have hflags : (landEffect t.regs (destination s i t) (e t)).fflags = t.regs.fflags ||| (e t).flags := by
    simp [landEffect]
  refine ⟨?_, ⟨?_, ?_⟩, ?_, ?_, ?_, ?_, ?_, ?_, ?_, hwithin, hbytes, rfl⟩
  · -- values
    intro p hp'
    have hdm : p.1 ∈ destination s i t := (List.of_mem_zip hp').1
    by_cases hs : ∃ n, p.1 = .s n
    · obtain ⟨n, hn⟩ := hs
      obtain ⟨q, x⟩ := p
      simp only at hn; subst hn
      have h3 := hscalar t n (destination_quiet hmem hcan hrun hdm)
      dsimp only
      rw [h3]
      simp only [seeReg, hgb]
      rw [← hkb]
      refine scalar_foldPut_value hbodies hdsl t _ hdst n x hzip hp' (fun y hy hne hpl => ?_) k0 ?_
      · rw [(hdsmem y hy).2.1]
        exact destination_scalar_unique hpl hne hdm
      · rw [← hk0, groupOf_useObjs, groupOf_acquireFaces]; exact can_group hcan hmem
    · push_neg at hs
      dsimp only
      rw [hvalOwn _ hs fun h hh => hfree _ hdm hs h hh, hland]
      exact ownReg_landOwn_mem _ _ hzip p hp' hs
  · -- own registers
    intro r hr hnd hh
    dsimp only
    rw [hvalOwn r hr hh, hland, seeReg_own (actors_getThread hmem) hr]
    exact ownReg_landOwn_other _ _ _ fun p hp' e' => hnd (e' ▸ (List.of_mem_zip hp').1)
  · -- scalar registers
    intro u n hu hq
    have h3 := hscalar u n hq
    dsimp only
    refine Eq.trans h3 ?_
    simp only [seeReg, hgb]
    rw [← hkb]
    refine (scalar_foldPut hbodies u n k0 fun x hx' hpl => ?_).trans ?_
    · rw [(hdsmem x hx').2.1]
      simp only [samePlace, Bool.and_eq_true, beq_iff_eq] at hpl
      exact hu x.1 (hdsmem x hx').1 hpl.1.symm hpl.2.symm
    · simp only [seeReg, ← hk0, groupOf_useObjs, groupOf_acquireFaces]
  · -- predicates
    intro p hp'
    simp only [seePred, h2, Option.map_some, Option.getD_some, wentOn, counted, flushed, landHelds_p, renamed]
    exact landPreds_mem _ _ hp p hp'
  · intro j hj
    simp only [seePred, h2, actors_getThread hmem, Option.map_some, Option.getD_some, wentOn, counted, flushed, landHelds_p, renamed]
    have : (landEffect t.regs (destination s i t) (e t)).p.getD j false =
        (landOwn t.regs ((destination s i t).zip (e t).vals)).p.getD j false := landPreds_other _ _ _ hj
    rw [this, landOwn_p]
  · -- flags
    simp only [seeFlags, h2, Option.map_some, Option.getD_some, wentOn, counted, flushed, renamed]
    exact landHelds_fflags _ _ _ (by rw [hflags]; exact BitVec.and_self)
  · intro hh
    simp only [seeFlags, h2, Option.map_some, Option.getD_some, wentOn, counted, flushed, renamed, (ho t t).1, hh, List.map_nil,
      List.filter_nil, List.foldl_nil, hflags]
  · exact ⟨_, h2, rfl, hloc⟩
  · exact ⟨_, h2, rfl⟩
  · -- the results on their way
    intro hids
    refine ⟨_, h2, ?_⟩
    simp only [wentOn, counted_held]
    congr 1
    simp only [renamed, (ho t t).1]
    refine (List.map_congr_left fun h hh => ?_).trans (List.map_id _)
    rw [(hmo h (hids h hh)).1, (hmo h (hids h hh)).2]; rfl

/-- Plain instructions complete. -/
theorem issuePlain_completes {s : State} {i : Instr} {t : Thread} (hx : Executes s i t = true) (e : Thread → Effect)
    (htrap : ∀ u ∈ actors s, (e u).trap = none) (hd : (destination s i t).Nodup) (hp : ((e t).preds.map (·.1)).Nodup) :
    Completes s (issuePlain s i e) i t (e t) t (curNext s) := by
  have hb : ∀ u ∈ actors s, ∀ k d, plainBody s.cur.core e k u d = (putEffect k s.cur.core u d (e u), .next) := by
    intro u hu k d
    simp only [plainBody, htrap u hu]; rfl
  exact issue_completes hx (plainBody s.cur.core e) e (fun _ => id) (fun _ => .next)
    (fun u hu _ k d => by rw [hb u hu k d]; exact ⟨rfl, body_putEffect k _ u d _⟩) (fun _ _ => ⟨rfl, rfl, rfl⟩) (fun _ _ _ => rfl) (curNext s)
    rfl hd hp

end Sys2Proof.Machine
end

