-- ==== Sys2Proof/Laws/Alone.lean ====
section
/-! SUPPORT. An issue of one thread alone in its entry: where its body is known, the thread goes on from what the body left, or
waits inside the instruction. -/

namespace Sys2Proof.Machine

open Sys2Proof.Safety

theorem alone_executes {s : State} {i : Instr} {t : Thread} (h : ExecutesAlone s i t = true) : Executes s i t = true := by
  simp only [ExecutesAlone, Bool.and_eq_true] at h; exact h.1

theorem alone_actors {s : State} {i : Instr} {t : Thread} (h : ExecutesAlone s i t = true) : actors s = [t] := by
  simp only [ExecutesAlone, Bool.and_eq_true, beq_iff_eq] at h; exact h.2

theorem alone_clean {s : State} {i : Instr} {t : Thread} (h : ExecutesAlone s i t = true) :
    meetFaces s.kern s.cur.core i [t] = s.kern :=
  meetFaces_clean [t] fun u hu => executes_clean (alone_executes h) u (by rw [alone_actors h]; exact hu)

/-- The issue of one thread is its body and the end of the issue. -/
theorem issueEach_alone_eq {s : State} {i : Instr} {t : Thread} (h : ExecutesAlone s i t = true)
    (f : Kern → Thread → List Reg → Kern × Course) :
    issueEach s i f =
      setKern s (finishIssue s (f (beforeBody s i t) t (destination s i t)).1
        [(t, (f (beforeBody s i t) t (destination s i t)).2)]) := by
  have hx := alone_executes h
  have ha := alone_actors h
  have hrun := executes_runs hx
  have ht : ∀ d : List Reg, takeOwed [] t d = d := by intro d; cases d <;> rfl
  have hc := alone_clean h
  simp only [issueEach, issue, executes_can hx, if_true, executes_single hx, ha, beforeBody, destination, List.filter_cons,
    hrun, Option.isNone_none, List.filter_nil, List.map_cons, List.map_nil, foldBody, foldOwed, ht, zipCourses]
  rw [show (Mode.single == Mode.first) = false from rfl]
  simp only [Bool.false_eq_true, if_false, if_true, List.filter_nil, List.map_cons, List.map_nil, hc, foldOwed, ht, zipCourses, hrun]
  rfl

/-- An issue of one thread whose operation and course are known. -/
theorem issue_alone_eq {s : State} {i : Instr} {t : Thread} (h : ExecutesAlone s i t = true)
    (run : Kern → List (Thread × List Reg) → Kern × List Course) {k : Kern} {x : Course}
    (hr : run (beforeBody s i t) [(t, destination s i t)] = (k, [x])) :
    issue s i run = setKern s (finishIssue s k [(t, x)]) := by
  have hx := alone_executes h
  have ha := alone_actors h
  have hrun := executes_runs hx
  have hd : dstRegs s i [t] t = destination s i t := by
    simp only [destination, ha, List.filter_cons, hrun, Option.isNone_none, if_true, List.filter_nil]
  have hb : useObjs (acquireFaces s.kern s.cur.core i [t]) s.cur.core i [t] = beforeBody s i t := rfl
  have hm : (Mode.single == Mode.first) = false := rfl
  simp only [issue, executes_can hx, if_true, executes_single hx, ha, List.filter_cons, hrun, Option.isNone_none,
    List.filter_nil, List.map_cons, List.map_nil, hd, hm, Bool.false_eq_true, if_false, alone_clean h, hb, hr, zipCourses, nameWindows]

/-- An entry-once issue of one thread is the operation and the end of the issue (R200). -/
theorem issueOnce_alone_eq {s : State} {i : Instr} {t : Thread} (h : ExecutesAlone s i t = true)
    (f : Kern → Thread → List Reg → Kern × Course) :
    issueOnce s i f =
      setKern s (finishIssue s (f (beforeBody s i t) t (destination s i t)).1
        [(t, parkTogether (coreOf (f (beforeBody s i t) t (destination s i t)).1 s.cur.core) 1
          (f (beforeBody s i t) t (destination s i t)).2)]) := by
  have hx := alone_executes h
  have ha := alone_actors h
  have hrun := executes_runs hx
  simp only [issueOnce, issue, executes_can hx, if_true, executes_single hx, ha, beforeBody, destination, List.filter_cons,
    hrun, Option.isNone_none, List.filter_nil, List.map_cons, List.map_nil, zipCourses]
  rw [show (Mode.single == Mode.first) = false from rfl]
  simp only [Bool.false_eq_true, if_false, if_true, List.filter_nil, List.map_cons, List.map_nil, alone_clean h, zipCourses, hrun]
  rfl

theorem getThread_beforeBody {s : State} {i : Instr} {t : Thread} (h : ExecutesAlone s i t = true) :
    getThread (beforeBody s i t) s.cur.core t.tslot t.lane = some t := by
  rw [beforeBody, getThread_useObjs, getThread_acquireFaces]
  exact actors_getThread (executes_mem (alone_executes h))

/-- A thread whose course goes on. -/
theorem finishIssue_goesOn (s : State) (k : Kern) (t : Thread) (x : Course) (pc : Nat) (hx : x.target (curNext s) = some pc)
    (ht : InGroup k s.cur.core t) :
    GoesOnFrom s k t { s with kern := finishIssue s k [(t, x)] } pc := by
  obtain ⟨u, hu, hp⟩ := ht
  have hl : Apart (fun y : Thread × Course => y.1) [(t, x)] := List.pairwise_singleton _ _
  have hs : ∀ y ∈ [(t, x)], (y.2.target (curNext s)).isSome = true := by
    intro y hy; rw [List.mem_singleton.mp hy, hx]; rfl
  obtain ⟨loc, hloc, h2⟩ := finishIssue_thread s k [(t, x)] hl hs (t, x) (by simp) pc hx
  rw [hu] at h2
  simp only [Option.map_some] at h2
  have hw : Within s.cur.core (fun a b => a == t.tslot && b == t.lane) k (finishIssue s k [(t, x)]) :=
    within_finishIssue s k _ hs fun y hy => by rw [List.mem_singleton.mp hy]; simp
  refine ⟨?_, ?_, ?_, ?_, ⟨_, h2, rfl, hloc⟩, ?_, ?_, hw, hw.byte, rfl⟩
  · intro v hv r hr hh
    have : v = u := by rw [hu] at hv; exact (Option.some.inj hv).symm
    subst this
    dsimp only
    rw [seeReg_own h2 hr, ownReg_wentOn hh, seeReg_own hu hr]
  · intro w n hh
    exact scalar_finishIssue s k _ hl hs (fun y hy => by rw [List.mem_singleton.mp hy]; exact ⟨u, hu, hp⟩) w n hh
  · intro j
    simp only [seePred, h2, hu, Option.map_some, Option.getD_some, wentOn, counted, flushed, landHelds_p]
  · intro v hv hh
    have : v = u := by rw [hu] at hv; exact (Option.some.inj hv).symm
    subst this
    simp only [seeFlags, h2, hu, Option.map_some, Option.getD_some, wentOn, counted, flushed, hh, List.map_nil,
      List.filter_nil, List.foldl_nil]
  · intro v hv
    have : v = u := by rw [hu] at hv; exact (Option.some.inj hv).symm
    subst this
    exact ⟨_, h2, rfl⟩
  · intro v hv
    have : v = u := by rw [hu] at hv; exact (Option.some.inj hv).symm
    subst this
    exact ⟨_, h2, rfl⟩

/-- An instruction whose body leaves the thread in place and goes on. -/
theorem issueEach_goesOn {s : State} {i : Instr} {t : Thread} (h : ExecutesAlone s i t = true)
    (f : Kern → Thread → List Reg → Kern × Course) {k : Kern} {x : Course} {pc : Nat}
    (hf : f (beforeBody s i t) t (destination s i t) = (k, x)) (hx : x.target (curNext s) = some pc)
    (ht : InGroup k s.cur.core t) : GoesOnFrom s k t (issueEach s i f) pc := by
  rw [issueEach_alone_eq h, hf]
  exact finishIssue_goesOn s k t x pc hx ht

theorem issueOnce_goesOn {s : State} {i : Instr} {t : Thread} (h : ExecutesAlone s i t = true)
    (f : Kern → Thread → List Reg → Kern × Course) {k : Kern} {x : Course} {pc : Nat}
    (hf : f (beforeBody s i t) t (destination s i t) = (k, x)) (hx : x.target (curNext s) = some pc)
    (ht : InGroup k s.cur.core t) : GoesOnFrom s k t (issueOnce s i f) pc := by
  have hp : ∀ core n, parkTogether core n x = x := by intro core n; cases x <;> simp_all [Course.target, parkTogether]
  rw [issueOnce_alone_eq h, hf, hp]
  exact finishIssue_goesOn s k t x pc hx ht

/-- A thread whose course stays waits inside the instruction. -/
theorem finishIssue_waits (s : State) (k : Kern) (t : Thread) (ht : InGroup k s.cur.core t) :
    WaitsIn s k t { s with kern := finishIssue s k [(t, .stay)] } := by
  obtain ⟨u, hu, hp⟩ := ht
  have hfin : finishIssue s k [(t, .stay)] =
      markFormed (sweepEntries (unlatch (markIssued (countWindows k s.cur.core t s.kern.id) s.cur.core s.cur.entry) s.cur.core t)
        s.cur.core) s.cur.core [] := rfl
  have hw : Within s.cur.core (fun a b => a == t.tslot && b == t.lane) k (finishIssue s k [(t, .stay)]) := by
    rw [hfin]
    exact ((((within_countWindows k t s.kern.id (keys_self t)).trans (within_markIssued _ _)).trans
      (within_modThis _ t _ (keepsKey_latch _) (keys_self t))).trans (within_sweepEntries _)).trans (within_markFormed _ _)
  refine ⟨⟨u, { counted s.kern.id u with latch := none }, hu, ?_, rfl⟩, hw, hw.byte, rfl⟩
  dsimp only
  rw [hfin, getThread_markFormed, getThread_sweepEntries, unlatch, getThread_modThis_same _ _ _ _ (keepsKey_latch _), getThread_markIssued,
    getThread_countWindows_same, hu]
  rfl

theorem issueEach_waits {s : State} {i : Instr} {t : Thread} (h : ExecutesAlone s i t = true)
    (f : Kern → Thread → List Reg → Kern × Course) {k : Kern}
    (hf : f (beforeBody s i t) t (destination s i t) = (k, .stay))
    (ht : InGroup k s.cur.core t) : WaitsIn s k t (issueEach s i f) := by
  rw [issueEach_alone_eq h, hf]
  exact finishIssue_waits s k t ht

end Sys2Proof.Machine
end

