-- ==== Sys2Proof/Laws/Coding.lean ====
section
/-! SUPPORT. Fields of a word, operand specifiers and the six formats: what is packed is read back, and what is read packs to
the word it was read from. -/

namespace Sys2Proof

/-! ## Fields -/

theorem packFields_lt (ws vs : List Nat) : packFields ws vs < 2 ^ fieldBits ws := by
  induction ws generalizing vs with
  | nil => cases vs <;> simp [packFields, fieldBits]
  | cons w ws ih =>
    cases vs with
    | nil => simp only [packFields]; positivity
    | cons v vs =>
      have h1 := ih vs
      have h2 : v % 2 ^ w < 2 ^ w := Nat.mod_lt _ (by positivity)
      simp only [packFields, fieldBits, pow_add]
      calc v % 2 ^ w * 2 ^ fieldBits ws + packFields ws vs < v % 2 ^ w * 2 ^ fieldBits ws + 2 ^ fieldBits ws := by omega
        _ = (v % 2 ^ w + 1) * 2 ^ fieldBits ws := by ring
        _ ≤ 2 ^ w * 2 ^ fieldBits ws := Nat.mul_le_mul_right _ h2

theorem unpackFields_mod (ws : List Nat) (n : Nat) : unpackFields ws (n % 2 ^ fieldBits ws) = unpackFields ws n := by
  induction ws generalizing n with
  | nil => rfl
  | cons w ws ih =>
    simp only [unpackFields, fieldBits]
    congr 1
    · rw [pow_add, Nat.mul_comm, Nat.mod_mul_right_div_self, Nat.mod_mod]
    · rw [← ih (n % 2 ^ (w + fieldBits ws)), pow_add, Nat.mul_comm, Nat.mod_mul_right_mod, ih]

theorem unpack_pack (ws vs : List Nat) (h : ws.length = vs.length) :
    unpackFields ws (packFields ws vs) = (ws.zip vs).map fun p => p.2 % 2 ^ p.1 := by
  induction ws generalizing vs with
  | nil => rfl
  | cons w ws ih =>
    cases vs with
    | nil => simp at h
    | cons v vs =>
      have hl := packFields_lt ws vs
      simp only [unpackFields, packFields, List.zip_cons_cons, List.map_cons]
      congr 1
      · rw [Nat.mul_comm, Nat.mul_add_div (by positivity), Nat.div_eq_of_lt hl, Nat.add_zero, Nat.mod_mod]
      · rw [← unpackFields_mod, Nat.mul_comm, Nat.mul_add_mod, Nat.mod_eq_of_lt hl]
        exact ih vs (by simpa using h)

theorem pack_unpack (ws : List Nat) (n : Nat) : packFields ws (unpackFields ws n) = n % 2 ^ fieldBits ws := by
  induction ws with
  | nil => simp [packFields, unpackFields, fieldBits, Nat.mod_one]
  | cons w ws ih =>
    simp only [unpackFields, packFields, fieldBits, ih, Nat.mod_mod, pow_add]
    rw [Nat.mul_comm (2 ^ w), Nat.mod_mul, Nat.mul_comm, Nat.add_comm]

/-- The first field of a packed word. -/
theorem packFields_head (w v : Nat) (ws vs : List Nat) : packFields (w :: ws) (v :: vs) / 2 ^ fieldBits ws = v % 2 ^ w := by
  simp only [packFields]
  rw [Nat.mul_comm, Nat.mul_add_div (by positivity), Nat.div_eq_of_lt (packFields_lt ws vs), Nat.add_zero]

/-! ## Codes -/

theorem dirOf_dirCode (d : Dir) : dirOf (dirCode d) = some d := by cases d <;> rfl
theorem dirCode_lt (d : Dir) : dirCode d < 9 := by cases d <;> decide

theorem opndCode_lt (o : Opnd) : opndCode o < 2 ^ 12 := by
  cases o with
  | v i => have := i.isLt; simp only [opndCode]; omega
  | k i => have := i.isLt; simp only [opndCode]; omega
  | s i => have := i.isLt; simp only [opndCode]; omega
  | face d n => have := n.isLt; have := dirCode_lt d; simp only [opndCode]; omega
  | pred g i => have := i.isLt; simp only [opndCode]; split <;> omega
  | acc i => have := i.isLt; simp only [opndCode]; omega
  | jig i => have := i.isLt; simp only [opndCode]; omega
  | peg i => have := i.isLt; simp only [opndCode]; omega
  | bed i => have := i.isLt; simp only [opndCode]; omega
  | tl i => have := i.isLt; simp only [opndCode]; omega
  | fs i => have := i.isLt; simp only [opndCode]; omega
  | imm x => have := x.isLt; simp only [opndCode]; omega

/-- Every operand is read back from its specifier (R35 to R38). -/
theorem opndOf_opndCode (o : Opnd) : opndOf (opndCode o) = some o := by
  cases o with
  | v i =>
    have hi := i.isLt
    have h1 : i.val / 512 = 0 := by omega
    have h2 : i.val % 512 = i.val := by omega
    simp only [opndOf, opndCode, h1, h2, vecOf, hi, dif_pos]
  | k i =>
    have hi := i.isLt
    have h1 : (248 + i.val) / 512 = 0 := by omega
    have h2 : (248 + i.val) % 512 = 248 + i.val := by omega
    have h3 : ¬ 248 + i.val < 248 := by omega
    have h4 : 248 + i.val - 248 = i.val := by omega
    simp only [opndOf, opndCode, h1, h2, h3, h4, vecOf, hi, dif_pos, dif_neg, not_false_iff]
  | s i =>
    have hi := i.isLt
    have h1 : (512 + i.val) / 512 = 1 := by omega
    have h2 : (512 + i.val) % 512 = i.val := by omega
    simp only [opndOf, opndCode, h1, h2, hi, dif_pos]
  | face d n => revert n; cases d <;> decide
  | pred g i => revert i; cases g <;> decide
  | acc i => revert i; decide
  | jig i => revert i; decide
  | peg i => revert i; decide
  | bed i => revert i; decide
  | tl i => revert i; decide
  | fs i => revert i; decide
  | imm x =>
    have hx := x.isLt
    have h1 : (2560 + x.toNat) / 512 = 5 := by omega
    have h2 : (2560 + x.toNat) % 512 = x.toNat := by omega
    simp only [opndOf, opndCode, h1, h2, BitVec.ofNat_toNat, BitVec.setWidth_eq]

theorem tyOfCode_tyCode (t : Ty) : Machine.tyOfCode (Machine.tyCode t) = t := by cases t <;> rfl
theorem tyCode_lt (t : Ty) : Machine.tyCode t < 2 ^ 4 := by cases t <;> decide
theorem rmOf_rmCode (r : Rm) : rmOf (rmCode r) = r := by cases r <;> rfl
theorem rmCode_lt (r : Rm) : rmCode r < 2 ^ 2 := by cases r <;> decide
theorem scopeOf_scopeCode (c : Scope) : scopeOf (scopeCode c) = some c := by cases c <;> rfl
theorem scopeCode_lt (c : Scope) : scopeCode c < 2 ^ 3 := by cases c <;> decide
theorem spaceOf_spaceCode (c : Space) : spaceOf (spaceCode c) = some c := by cases c <;> rfl
theorem spaceCode_lt (c : Space) : spaceCode c < 2 ^ 2 := by cases c <;> decide
theorem bit_lt (b : Bool) : bit b < 2 ^ 1 := by cases b <;> decide
theorem bit_one (b : Bool) : (bit b == 1) = b := by cases b <;> rfl
theorem guardN_lt (g : Guard) : guardN g < 2 ^ 1 := by unfold guardN; split <;> decide
theorem guardOf_codes (g : Guard) : guardOf (guardN g) g.p.val = g := by
  obtain ⟨n, p⟩ := g
  have := Nat.mod_eq_of_lt p.isLt
  cases n <;> simp [guardOf, guardN, this]
theorem qeCode_lt (q : Option (Fin 7)) : qeCode q < 2 ^ 1 := by cases q <;> simp [qeCode]
theorem qpCode_lt (q : Option (Fin 7)) : qpCode q < 2 ^ 3 := by
  cases q with
  | none => decide
  | some p => have := p.isLt; simp only [qpCode]; omega
theorem qpOf_codes (q : Option (Fin 7)) : qpOf (qeCode q) (qpCode q) = some q := by
  cases q with
  | none => rfl
  | some p => revert p; decide
theorem ord_codes (a r : Bool) :
    (bit a + 2 * bit r) % 2 ^ 2 = bit a + 2 * bit r ∧ ((bit a + 2 * bit r) % 2 == 1) = a ∧ ((bit a + 2 * bit r) / 2 == 1) = r := by
  cases a <;> cases r <;> decide

theorem xCountOf_code (n : XCount) : xCountOf (xCountCode n) = some n := by cases n <;> rfl
theorem movCountOf_code (n : MovCount) : movCountOf (movCountCode n) = some n := by cases n <;> rfl
theorem atomOpOf_code (op : AtomOp) : atomOpOf (atomOpCode op) = some op := by cases op <;> rfl

theorem fin_ofNat_val {n : Nat} [NeZero n] (i : Fin n) : Fin.ofNat n i.val = i := by
  apply Fin.ext; simp [Fin.ofNat, Nat.mod_eq_of_lt i.isLt]

/-! ## The six formats -/

theorem parseR_packR (opc fn : Nat) (x : RForm) (hf : fn < 64) : parseR (packR opc fn x) = .ok (fn, x) := by
  simp only [parseR, packR, rFields]
  rw [unpack_pack _ _ (by rfl)]
  simp only [List.zip_cons_cons, List.zip_nil_right, List.map_cons, List.map_nil,
    Nat.mod_eq_of_lt (guardN_lt x.g), Nat.mod_eq_of_lt x.g.p.isLt, Nat.mod_eq_of_lt x.la.isLt, Nat.mod_eq_of_lt (show fn < 2 ^ 6 from hf),
    Nat.mod_eq_of_lt (tyCode_lt x.ty), Nat.mod_eq_of_lt (rmCode_lt x.rm), Nat.mod_eq_of_lt (bit_lt x.sat),
    Nat.mod_eq_of_lt x.om.isLt, Nat.mod_eq_of_lt (opndCode_lt x.d), Nat.mod_eq_of_lt (opndCode_lt x.a),
    Nat.mod_eq_of_lt (opndCode_lt x.b), Nat.mod_eq_of_lt (opndCode_lt x.c), Nat.mod_eq_of_lt (qeCode_lt x.qp),
    Nat.mod_eq_of_lt (qpCode_lt x.qp), show (8 : Nat) = 2 ^ 3 from rfl]
  have hg : x.g.p.val % 2 ^ 3 = x.g.p.val := Nat.mod_eq_of_lt x.g.p.isLt
  simp only [hg, opndOf_opndCode, qpOf_codes, orReject, tyOfCode_tyCode, rmOf_rmCode, bit_one, guardOf_codes,
    BitVec.ofNat_toNat, BitVec.setWidth_eq]
  rfl

theorem parseI_packI (opc : Nat) (x : IForm) : parseI (packI opc x) = .ok (0, x) := by
  simp only [parseI, packI, iFields]
  rw [unpack_pack _ _ (by rfl)]
  have hg : x.g.p.val % 2 ^ 3 = x.g.p.val := Nat.mod_eq_of_lt x.g.p.isLt
  simp only [List.zip_cons_cons, List.zip_nil_right, List.map_cons, List.map_nil,
    Nat.mod_eq_of_lt (guardN_lt x.g), hg, Nat.mod_eq_of_lt (tyCode_lt x.ty), Nat.mod_eq_of_lt (rmCode_lt x.rm),
    Nat.mod_eq_of_lt (bit_lt x.sat), Nat.mod_eq_of_lt x.om.isLt, Nat.mod_eq_of_lt (opndCode_lt x.d),
    Nat.mod_eq_of_lt (opndCode_lt x.a), Nat.mod_eq_of_lt (qeCode_lt x.qp), Nat.mod_eq_of_lt (qpCode_lt x.qp),
    Nat.mod_eq_of_lt x.imm.isLt]
  simp only [opndOf_opndCode, qpOf_codes, orReject, tyOfCode_tyCode, rmOf_rmCode, bit_one, guardOf_codes,
    BitVec.ofNat_toNat, BitVec.setWidth_eq]
  rfl

theorem parseM_packM (opc fn : Nat) (x : MForm) (hf : fn < 64) : parseM (packM opc fn x) = .ok (fn, x) := by
  simp only [parseM, packM, mFields]
  rw [unpack_pack _ _ (by rfl)]
  have hg : x.g.p.val % 2 ^ 3 = x.g.p.val := Nat.mod_eq_of_lt x.g.p.isLt
  have hx : x.xs.val % 2 ^ 2 = x.xs.val := Nat.mod_eq_of_lt x.xs.isLt
  obtain ⟨ho1, ho2, ho3⟩ := ord_codes x.acq x.rel
  simp only [List.zip_cons_cons, List.zip_nil_right, List.map_cons, List.map_nil,
    Nat.mod_eq_of_lt (guardN_lt x.g), hg, Nat.mod_eq_of_lt x.la.isLt, Nat.mod_eq_of_lt (show fn < 2 ^ 6 from hf),
    Nat.mod_eq_of_lt (tyCode_lt x.ty), Nat.mod_eq_of_lt (scopeCode_lt x.sc), ho1, Nat.mod_eq_of_lt (bit_lt x.na),
    Nat.mod_eq_of_lt (opndCode_lt x.d), Nat.mod_eq_of_lt (opndCode_lt x.base), Nat.mod_eq_of_lt (opndCode_lt x.idx),
    Nat.mod_eq_of_lt (spaceCode_lt x.sp), hx, Nat.mod_eq_of_lt x.disp.isLt]
  have hx4 : x.xs.val % 4 = x.xs.val := Nat.mod_eq_of_lt x.xs.isLt
  simp only [opndOf_opndCode, scopeOf_scopeCode, spaceOf_spaceCode, orReject, tyOfCode_tyCode, bit_one, guardOf_codes,
    BitVec.ofNat_toNat, BitVec.setWidth_eq, ho2, ho3, hx4]
  rfl

theorem parseB_packB (opc : Nat) (x : BForm) : parseB (packB opc x) = .ok (0, x) := by
  simp only [parseB, packB, bFields]
  rw [unpack_pack _ _ (by rfl)]
  have hg : x.g.p.val % 2 ^ 3 = x.g.p.val := Nat.mod_eq_of_lt x.g.p.isLt
  have ht : x.ts.val % 2 ^ 3 = x.ts.val := Nat.mod_eq_of_lt (Nat.lt_of_lt_of_le x.ts.isLt (by decide))
  simp only [List.zip_cons_cons, List.zip_nil_right, List.map_cons, List.map_nil,
    Nat.mod_eq_of_lt (guardN_lt x.g), hg, Nat.mod_eq_of_lt (opndCode_lt x.d), Nat.mod_eq_of_lt (opndCode_lt x.a),
    ht, Nat.mod_eq_of_lt x.ldisp.isLt]
  have hts : x.ts.val < 5 := x.ts.isLt
  simp only [opndOf_opndCode, orReject, guardOf_codes, BitVec.ofNat_toNat, BitVec.setWidth_eq, hts, dif_pos]
  rfl

theorem parseX_packX (opc fn : Nat) (x : XForm) (hf : fn < 64) : parseX (packX opc fn x) = .ok (fn, x) := by
  simp only [parseX, packX, xFields]
  rw [unpack_pack _ _ (by rfl)]
  have hg : x.g.p.val % 2 ^ 3 = x.g.p.val := Nat.mod_eq_of_lt x.g.p.isLt
  have h1 : x.acc.val % 2 ^ 4 = x.acc.val := Nat.mod_eq_of_lt x.acc.isLt
  have h2 : x.jg.val % 2 ^ 4 = x.jg.val := Nat.mod_eq_of_lt x.jg.isLt
  have h3 : x.bdb.val % 2 ^ 5 = x.bdb.val := Nat.mod_eq_of_lt x.bdb.isLt
  have h4 : x.bdn.val % 2 ^ 5 = x.bdn.val := Nat.mod_eq_of_lt x.bdn.isLt
  have h5 : x.fsi.val % 2 ^ 3 = x.fsi.val := Nat.mod_eq_of_lt x.fsi.isLt
  have h6 : x.pg.val % 2 ^ 4 = x.pg.val := Nat.mod_eq_of_lt x.pg.isLt
  simp only [List.zip_cons_cons, List.zip_nil_right, List.map_cons, List.map_nil,
    Nat.mod_eq_of_lt (guardN_lt x.g), hg, Nat.mod_eq_of_lt x.la.isLt, Nat.mod_eq_of_lt (show fn < 2 ^ 6 from hf),
    h1, h2, h3, h4, h5, h6, Nat.mod_eq_of_lt (bit_lt x.side), Nat.mod_eq_of_lt (bit_lt x.cja),
    Nat.mod_eq_of_lt (bit_lt x.cjb), Nat.mod_eq_of_lt (bit_lt x.pge), Nat.mod_eq_of_lt (bit_lt x.vsrc),
    Nat.mod_eq_of_lt x.ver.isLt, Nat.mod_eq_of_lt (opndCode_lt x.d), Nat.mod_eq_of_lt (opndCode_lt x.a)]
  simp only [opndOf_opndCode, orReject, bit_one, guardOf_codes, fin_ofNat_val, BitVec.ofNat_toNat, BitVec.setWidth_eq]
  rfl

theorem parseS_packS (opc fn : Nat) (x : SForm) (hf : fn < 64) : parseS (packS opc fn x) = .ok (fn, x) := by
  simp only [parseS, packS, sFields]
  rw [unpack_pack _ _ (by rfl)]
  have hg : x.g.p.val % 2 ^ 3 = x.g.p.val := Nat.mod_eq_of_lt x.g.p.isLt
  simp only [List.zip_cons_cons, List.zip_nil_right, List.map_cons, List.map_nil,
    Nat.mod_eq_of_lt (guardN_lt x.g), hg, Nat.mod_eq_of_lt (show fn < 2 ^ 6 from hf), Nat.mod_eq_of_lt (opndCode_lt x.d),
    Nat.mod_eq_of_lt (opndCode_lt x.a), Nat.mod_eq_of_lt x.sr.isLt, Nat.mod_eq_of_lt x.imm.isLt]
  simp only [opndOf_opndCode, orReject, guardOf_codes, BitVec.ofNat_toNat, BitVec.setWidth_eq]
  rfl

/-! ## Words -/

/-- The decoder on a word whose major opcode has a format. -/
theorem decode_word (n opc : Nat) (f : Machine.Format) (hn : n < 2 ^ 96) (hopc : n / 2 ^ 88 = opc) (h0 : opc ≠ 0)
    (hf : Machine.formatOf opc = some f) (i : Instr) (hd : decodeFormat f opc n = .ok i) (hl : Machine.encodingLegal i = true) :
    decode (BitVec.ofNat 96 n) = .ok i := by
  have hnat : (BitVec.ofNat 96 n).toNat = n := by rw [BitVec.toNat_ofNat, Nat.mod_eq_of_lt hn]
  have hne : (BitVec.ofNat 96 n == 0) = false := by
    rw [beq_eq_false_iff_ne]
    intro h
    have h2 := congrArg BitVec.toNat h
    rw [hnat] at h2
    rw [h2] at hopc
    refine h0 (hopc.symm.trans ?_)
    rw [show BitVec.toNat (0 : BitVec 96) = 0 from rfl, Nat.zero_div]
  have h0' : (opc == 0) = false := by simpa using h0
  unfold decode
  rw [hne, hnat]
  simp only [hopc, h0', hf, hd, hl, bind, Except.bind, pure, Except.pure, if_true, Bool.false_eq_true, if_false]

/-- A packed word is below 2 ^ 96, and its highest field is the major opcode. -/
theorem packed_word (ws vs : List Nat) (opc : Nat) (hw : fieldBits ws = 88) (h1 : opc < 256) :
    packFields (8 :: ws) (opc :: vs) < 2 ^ 96 ∧ packFields (8 :: ws) (opc :: vs) / 2 ^ 88 = opc := by
  constructor
  · have hlt := packFields_lt (8 :: ws) (opc :: vs)
    rw [fieldBits, hw] at hlt
    exact hlt
  · rw [← hw, packFields_head, Nat.mod_eq_of_lt (show opc < 2 ^ 8 from h1)]

theorem decodeFormat_r {opc w fn : Nat} {x : RForm} {i : Instr} (hp : parseR w = .ok (fn, x))
    (hb : buildR opc fn x = some i) : decodeFormat .r opc w = .ok i := by
  simp only [decodeFormat, hp, bind, Except.bind, hb, orReject]

theorem decodeFormat_i {opc w fn : Nat} {x : IForm} {i : Instr} (hp : parseI w = .ok (fn, x))
    (hb : buildI opc fn x = some i) : decodeFormat .i opc w = .ok i := by
  simp only [decodeFormat, hp, bind, Except.bind, hb, orReject]

theorem decodeFormat_m {opc w fn : Nat} {x : MForm} {i : Instr} (hp : parseM w = .ok (fn, x))
    (hb : buildM opc fn x = some i) : decodeFormat .m opc w = .ok i := by
  simp only [decodeFormat, hp, bind, Except.bind, hb, orReject]

theorem decodeFormat_b {opc w fn : Nat} {x : BForm} {i : Instr} (hp : parseB w = .ok (fn, x))
    (hb : buildB opc fn x = some i) : decodeFormat .b opc w = .ok i := by
  simp only [decodeFormat, hp, bind, Except.bind, hb, orReject]

theorem decodeFormat_x {opc w fn : Nat} {x : XForm} {i : Instr} (hp : parseX w = .ok (fn, x))
    (hb : buildX opc fn x = some i) : decodeFormat .x opc w = .ok i := by
  simp only [decodeFormat, hp, bind, Except.bind, hb, orReject]

theorem decodeFormat_s {opc w fn : Nat} {x : SForm} {i : Instr} (hp : parseS w = .ok (fn, x))
    (hb : buildS opc fn x = some i) : decodeFormat .s opc w = .ok i := by
  simp only [decodeFormat, hp, bind, Except.bind, hb, orReject]

/-- A legal instruction is the instruction of its word. -/
theorem decode_packR (opc fn : Nat) (x : RForm) (i : Instr) (h0 : opc ≠ 0) (h1 : opc < 256) (h2 : fn < 64)
    (hf : Machine.formatOf opc = some .r) (hb : buildR opc fn x = some i) (hl : Machine.encodingLegal i = true) :
    decode (BitVec.ofNat 96 (packR opc fn x)) = .ok i := by
  have hp : packR opc fn x < 2 ^ 96 ∧ packR opc fn x / 2 ^ 88 = opc := by
    unfold packR rFields
    exact packed_word _ _ opc (by decide) h1
  exact decode_word _ opc .r hp.1 hp.2 h0 hf i (decodeFormat_r (parseR_packR opc fn x h2) hb) hl

theorem decode_packI (opc : Nat) (x : IForm) (i : Instr) (h0 : opc ≠ 0) (h1 : opc < 256)
    (hf : Machine.formatOf opc = some .i) (hb : buildI opc 0 x = some i) (hl : Machine.encodingLegal i = true) :
    decode (BitVec.ofNat 96 (packI opc x)) = .ok i := by
  have hp : packI opc x < 2 ^ 96 ∧ packI opc x / 2 ^ 88 = opc := by
    unfold packI iFields
    exact packed_word _ _ opc (by decide) h1
  exact decode_word _ opc .i hp.1 hp.2 h0 hf i (decodeFormat_i (parseI_packI opc x) hb) hl

theorem decode_packM (opc fn : Nat) (x : MForm) (i : Instr) (h0 : opc ≠ 0) (h1 : opc < 256) (h2 : fn < 64)
    (hf : Machine.formatOf opc = some .m) (hb : buildM opc fn x = some i) (hl : Machine.encodingLegal i = true) :
    decode (BitVec.ofNat 96 (packM opc fn x)) = .ok i := by
  have hp : packM opc fn x < 2 ^ 96 ∧ packM opc fn x / 2 ^ 88 = opc := by
    unfold packM mFields
    exact packed_word _ _ opc (by decide) h1
  exact decode_word _ opc .m hp.1 hp.2 h0 hf i (decodeFormat_m (parseM_packM opc fn x h2) hb) hl

theorem decode_packB (opc : Nat) (x : BForm) (i : Instr) (h0 : opc ≠ 0) (h1 : opc < 256)
    (hf : Machine.formatOf opc = some .b) (hb : buildB opc 0 x = some i) (hl : Machine.encodingLegal i = true) :
    decode (BitVec.ofNat 96 (packB opc x)) = .ok i := by
  have hp : packB opc x < 2 ^ 96 ∧ packB opc x / 2 ^ 88 = opc := by
    unfold packB bFields
    exact packed_word _ _ opc (by decide) h1
  exact decode_word _ opc .b hp.1 hp.2 h0 hf i (decodeFormat_b (parseB_packB opc x) hb) hl

theorem decode_packX (opc fn : Nat) (x : XForm) (i : Instr) (h0 : opc ≠ 0) (h1 : opc < 256) (h2 : fn < 64)
    (hf : Machine.formatOf opc = some .x) (hb : buildX opc fn x = some i) (hl : Machine.encodingLegal i = true) :
    decode (BitVec.ofNat 96 (packX opc fn x)) = .ok i := by
  have hp : packX opc fn x < 2 ^ 96 ∧ packX opc fn x / 2 ^ 88 = opc := by
    unfold packX xFields
    exact packed_word _ _ opc (by decide) h1
  exact decode_word _ opc .x hp.1 hp.2 h0 hf i (decodeFormat_x (parseX_packX opc fn x h2) hb) hl

theorem decode_packS (opc fn : Nat) (x : SForm) (i : Instr) (h0 : opc ≠ 0) (h1 : opc < 256) (h2 : fn < 64)
    (hf : Machine.formatOf opc = some .s) (hb : buildS opc fn x = some i) (hl : Machine.encodingLegal i = true) :
    decode (BitVec.ofNat 96 (packS opc fn x)) = .ok i := by
  have hp : packS opc fn x < 2 ^ 96 ∧ packS opc fn x / 2 ^ 88 = opc := by
    unfold packS sFields
    exact packed_word _ _ opc (by decide) h1
  exact decode_word _ opc .s hp.1 hp.2 h0 hf i (decodeFormat_s (parseS_packS opc fn x h2) hb) hl

end Sys2Proof
end

