-- ==== Sys2Proof/Laws/Destination.lean ====
section
/-! SUPPORT. The registers that an instruction writes are distinct, so a plain instruction computes its effect. -/

namespace Sys2Proof.Machine

open Sys2Proof.Safety

theorem nodup_regsNamed (o : Opnd) (n : Nat) : (regsNamed o n).Nodup := by
  have hv : ∀ (f : Nat → Reg), Function.Injective f → ((List.range n).map f).Nodup := fun f hf =>
    List.Nodup.map hf List.nodup_range
  cases o <;> simp only [regsNamed, List.nodup_nil]
  · exact hv _ fun a b h => by simpa using h
  · exact hv _ fun a b h => by simpa using h
  · exact hv _ fun a b h => by simpa using h

theorem nodup_usedRegs {us : List (Opnd × Nat)} (h : us.length ≤ 1) : (usedRegs us).Nodup := by
  match us, h with
  | [], _ => exact List.nodup_nil
  | [u], _ => simpa [usedRegs] using nodup_regsNamed u.1 u.2

theorem length_dst (n : Nat) (i : Instr) : (usesOf n i).dst.length ≤ 1 := by
  cases i <;> simp only [usesOf, usesR, usesP, usesI, List.length_nil, List.length_cons, Nat.zero_le, Nat.le_refl, Nat.zero_add] <;>
    (try unfold optional) <;> split <;> (try simp) <;> (try split) <;> simp

/-- The registers that an instruction writes are distinct. -/
theorem destination_nodup (s : State) (i : Instr) (t : Thread) : (destination s i t).Nodup := by
  have h : (usedRegs (threadUses s.kern s.cur.core t i).dst).Nodup := nodup_usedRegs (length_dst _ i)
  unfold destination dstRegs
  dsimp only
  split
  · split
    · split
      · exact h
      · exact List.nodup_nil
    · exact List.nodup_nil
  · exact h

/-- A plain instruction whose effect never traps computes that effect. -/
theorem computes_plain (i : Instr) (f : State → Thread → Effect) (hex : ∀ s, exec i s = answer (issuePlain s i (f s)))
    (htrap : ∀ s t, (f s t).trap = none) (hp : ∀ s t, ((f s t).preds.map (·.1)).Nodup) : Computes i f := fun s t hx =>
  ⟨_, hex s, issuePlain_completes hx (f s) (fun u _ => htrap s u) (destination_nodup s i t) (hp s t)⟩

/-- The same effect said otherwise. -/
theorem computes_congr {i : Instr} {f g : State → Thread → Effect} (h : Computes i f) (e : ∀ s t, f s t = g s t) :
    Computes i g := fun s t hx => by
  rw [← e]
  exact h s t hx

end Sys2Proof.Machine
end

