-- ==== Sys2Proof/Laws/Flits.lean ====
section
/-! SUPPORT. The CRC-32 of a flit: which bits of the flit it depends on, and that a flit sealed with its CRC passes. -/

namespace Sys2Proof.Laws

open Sys2Proof Sys2Proof.Machine

/-- The CRC of a + b bytes is that of the last b, begun with what the first a leave. -/
theorem crc32_add (a b x c : Nat) : crc32 (a + b) x c = crc32 b (x / 256 ^ a) (crc32 a x c ^^^ 0xFFFFFFFF) := by
  induction a generalizing x c with
  | zero => simp [crc32]
  | succ a ih =>
    rw [Nat.succ_add_eq_add_succ, Nat.add_succ, crc32, crc32, ih, Nat.div_div_eq_div_mul, Nat.pow_succ, Nat.mul_comm]

/-- A CRC reads no byte beyond the ones it covers. -/
theorem crc32_mod (n x c : Nat) : crc32 n (x % 256 ^ n) c = crc32 n x c := by
  induction n generalizing x c with
  | zero => rfl
  | succ n ih =>
    rw [crc32, crc32, Nat.pow_succ', Nat.mod_mul_right_mod, Nat.mod_mul_right_div_self, ih]

/-- A CRC has 32 bits. -/
theorem crc32_lt (n x c : Nat) (h : c < 2 ^ 32) : crc32 n x c < 2 ^ 32 := by
  have bit : ∀ c < 2 ^ 32, crcBit c < 2 ^ 32 := fun c h => by
    unfold crcBit
    split
    · exact Nat.xor_lt_two_pow (by omega) (by norm_num)
    · omega
  have bits : ∀ k, ∀ c < 2 ^ 32, crcBits k c < 2 ^ 32 := fun k => by
    induction k with
    | zero => exact fun _ h => h
    | succ k ih => exact fun c h => ih _ (bit c h)
  induction n generalizing x c with
  | zero => exact Nat.xor_lt_two_pow h (by norm_num)
  | succ n ih => exact ih _ _ (bits 8 _ (Nat.xor_lt_two_pow h (by omega)))

/-- 252 bytes have 2016 bits. -/
theorem two_pow_2016 : (2 : Nat) ^ 2016 = 256 ^ 252 := by rw [show (256 : Nat) = 2 ^ 8 from rfl, ← Nat.pow_mul]

/-- What a sealed flit holds: what it was made of in its low 252 bytes, their CRC in the last four. -/
theorem sealFlit_toNat (n : Nat) : (sealFlit n).toNat = n % 2 ^ 2016 + flitCrc n * 2 ^ 2016 := by
  have h := crc32_lt 252 n 0xFFFFFFFF (by norm_num)
  rw [sealFlit, BitVec.toNat_ofNat, flitCrc, Nat.mod_eq_of_lt]
  have : n % 2 ^ 2016 < 2 ^ 2016 := Nat.mod_lt _ (by positivity)
  calc _ < 2 ^ 2016 + crc32 252 n 0xFFFFFFFF * 2 ^ 2016 := by omega
    _ = (crc32 252 n 0xFFFFFFFF + 1) * 2 ^ 2016 := by ring
    _ ≤ 2 ^ 32 * 2 ^ 2016 := Nat.mul_le_mul_right _ h
    _ = 2 ^ 2048 := by rw [← Nat.pow_add]

/-- The low 252 bytes of a sealed flit. -/
theorem sealFlit_low (n : Nat) : (sealFlit n).toNat % 2 ^ 2016 = n % 2 ^ 2016 := by
  rw [sealFlit_toNat, Nat.add_mul_mod_self_right, Nat.mod_mod]

/-- A flit passes exactly where its last four bytes are the CRC of the others. -/
theorem crcGood_iff (x : Flit) : crcGood x = true ↔ x.toNat / 2 ^ 2016 = flitCrc (x.toNat % 2 ^ 2016) := by
  rw [crcGood, beq_iff_eq, flitCrc, flitCrc, two_pow_2016, crc32_mod]

/-- A sealed flit passes. -/
theorem crcGood_sealFlit (n : Nat) : crcGood (sealFlit n) = true := by
  have : n % 2 ^ 2016 < 2 ^ 2016 := Nat.mod_lt _ (by positivity)
  rw [crcGood_iff, sealFlit_low, sealFlit_toNat, Nat.add_mul_div_right _ _ (by positivity), Nat.div_eq_of_lt this, Nat.zero_add,
    flitCrc, flitCrc, two_pow_2016, crc32_mod]

/-- A field within the first 252 bytes of a sealed flit is the one it was made with. -/
theorem sealFlit_field (n off k : Nat) (h : off + k ≤ 252) : flitField (sealFlit n) off k = n / 2 ^ (8 * off) % 2 ^ (8 * k) := by
  have low : ∀ m : Nat, m / 2 ^ (8 * off) % 2 ^ (8 * k) = m % 2 ^ 2016 / 2 ^ (8 * off) % 2 ^ (8 * k) := fun m => by
    rw [show 2016 = 8 * off + (2016 - 8 * off) by omega, Nat.pow_add, Nat.mod_mul_right_div_self,
      show 2016 - 8 * off = 8 * k + (2016 - 8 * off - 8 * k) by omega, Nat.pow_add, Nat.mod_mul_right_mod]
  rw [flitField, low, sealFlit_low, ← low]

/-- The class of a sealed flit is the one it was made with. -/
theorem sealFlit_class (n : Nat) : flitClass (sealFlit n) = n % 256 / 32 := by
  have h := sealFlit_field n 0 1 (by norm_num)
  simp only [flitField, Nat.mul_zero, Nat.pow_zero, Nat.div_one] at h
  exact congrArg (· / 32) h

end Sys2Proof.Laws
end

