-- ==== Sys2Proof/Laws/Holding.lean ====
section
/-! SUPPORT. Long-latency instructions with a known result: the result is held, and otherwise the thread goes on. -/

namespace Sys2Proof.Machine

open Sys2Proof.Safety

/-- The held result of a long-latency instruction. -/
def heldOf (id : Nat) (d : List Reg) (old : List (Nat × W32)) (e : Effect) (la : BitVec 4) : Held :=
  { id := id, regs := d, named := d, old := old, vals := e.vals, flags := e.flags, arrived := false, window := la.toNat }

/-- The kernel state after holding a result. -/
def hold (c : Nat) (la : BitVec 4) (e : Thread → Effect) (k : Kern) (x : Thread × List Reg) : Kern :=
  (holdResult k c x.1 x.2 (e x.1).vals (e x.1).flags la).2

theorem hold_eq (c : Nat) (la : BitVec 4) (e : Thread → Effect) (k : Kern) (x : Thread × List Reg) :
    hold c la e k x =
      modThis { k with id := k.id + 1 } c x.1 fun u => { u with held := u.held ++ [heldOf k.id x.2 (scalarsOf k c x.1 x.2) (e x.1) la] } := rfl

theorem hold_id (c : Nat) (la : BitVec 4) (e : Thread → Effect) (k : Kern) (x : Thread × List Reg) :
    (hold c la e k x).id = k.id + 1 := rfl

theorem getThread_hold_same (c : Nat) (la : BitVec 4) (e : Thread → Effect) (k : Kern) (x : Thread × List Reg) :
    getThread (hold c la e k x) c x.1.tslot x.1.lane =
      (getThread k c x.1.tslot x.1.lane).map fun u => { u with held := u.held ++ [heldOf k.id x.2 (scalarsOf k c x.1 x.2) (e x.1) la] } := by
  rw [hold_eq, getThread_modThis_same _ _ _ _ (keepsKey_held _)]; rfl

theorem within_hold {c : Nat} {keys : Nat → Nat → Bool} (la : BitVec 4) (e : Thread → Effect) (k : Kern) (x : Thread × List Reg)
    (hk : keys x.1.tslot x.1.lane = true) : Within c keys k (hold c la e k x) := by
  rw [hold_eq]
  exact (within_id k (k.id + 1)).trans (within_modThis _ x.1 _ (keepsKey_held _) hk)

@[simp] theorem groupOf_hold (c : Nat) (la : BitVec 4) (e : Thread → Effect) (k : Kern) (x : Thread × List Reg) (u : Thread) :
    groupOf (hold c la e k x) c u = groupOf k c u := by
  rw [hold_eq, groupOf_modThis]; rfl

theorem groupOf_holds (c : Nat) (la : BitVec 4) (e : Thread → Effect) (ds : List (Thread × List Reg)) (k : Kern) (u : Thread) :
    groupOf (ds.foldl (hold c la e) k) c u = groupOf k c u := by
  induction ds generalizing k with
  | nil => rfl
  | cons x ds ih => rw [List.foldl_cons, ih, groupOf_hold]

theorem holds_other (c : Nat) (la : BitVec 4) (e : Thread → Effect) (ds : List (Thread × List Reg)) (k : Kern) (a b : Nat)
    (h : ∀ x ∈ ds, b ≠ x.1.lane) : getThread (ds.foldl (hold c la e) k) c a b = getThread k c a b := by
  induction ds generalizing k with
  | nil => rfl
  | cons x ds ih =>
    rw [List.foldl_cons, ih _ fun y hy => h y (by simp [hy])]
    exact within_lane (within_hold la e k x (keys_self x.1)) a b (h x (by simp))

theorem scalarsOf_group {k k' : Kern} {c : Nat} {t : Thread} (h : groupOf k' c t = groupOf k c t) (rs : List Reg) :
    scalarsOf k' c t rs = scalarsOf k c t rs := by simp only [scalarsOf, h]

theorem quiet_hold {c b g n : Nat} (la : BitVec 4) (e : Thread → Effect) (k : Kern) (x : Thread × List Reg)
    (h : ScalarQuiet k c b g n) : ScalarQuiet (hold c la e k x) c b g n := by
  rw [hold_eq]
  refine quiet_modThread _ _ _ (fun u => ⟨rfl, rfl, fun a ha => ?_⟩) h
  rcases List.mem_append.mp ha with ha | ha
  · exact .inr ⟨a, ha, rfl, rfl, rfl⟩
  · rw [List.mem_singleton.mp ha]; exact .inl rfl

theorem holds_thread (c : Nat) (la : BitVec 4) (e : Thread → Effect) (ds : List (Thread × List Reg)) (hl : Apart (·.1) ds)
    (x : Thread × List Reg) (hx : x ∈ ds) (k : Kern) :
    ∃ n, k.id ≤ n ∧ getThread (ds.foldl (hold c la e) k) c x.1.tslot x.1.lane =
      (getThread k c x.1.tslot x.1.lane).map fun u => { u with held := u.held ++ [heldOf n x.2 (scalarsOf k c x.1 x.2) (e x.1) la] } := by
  induction ds generalizing k with
  | nil => simp at hx
  | cons y ds ih =>
    have hl := List.pairwise_cons.mp hl
    rcases List.mem_cons.mp hx with rfl | hx
    · refine ⟨k.id, le_refl _, ?_⟩
      rw [List.foldl_cons, holds_other _ _ _ _ _ _ _ fun z hz => Nat.ne_of_lt (hl.1 z hz), getThread_hold_same]
    · obtain ⟨n, hn, h⟩ := ih hl.2 hx (hold c la e k y)
      refine ⟨n, by rw [hold_id] at hn; omega, ?_⟩
      rw [List.foldl_cons, h, within_lane (within_hold la e k y (keys_self y.1)) _ _ (Nat.ne_of_gt (hl.1 x hx)),
        scalarsOf_group (groupOf_hold c la e k y x.1)]

/-- A single issue of a long-latency instruction whose result is known. -/
theorem issueHeld_holds {s : State} {i : Instr} {t : Thread} (hx : Executes s i t = true) (la : BitVec 4)
    (e : Thread → Effect) (htrap : ∀ u ∈ actors s, (e u).trap = none) : Holds s (issueHeld s i la e) i t (e t) la := by
  have hmem := executes_mem hx
  have hcan := executes_can hx
  have hrun := executes_runs hx
  generalize hk0 : useObjs (acquireFaces s.kern s.cur.core i (doers s i)) s.cur.core i (doers s i) = k0
  generalize hds : (doers s i).map (fun u => (u, destination s i u)) = ds
  have hissue : issueHeld s i la e =
      setKern s (finishIssue s (nameWindows s i ds (foldBody (heldBody s.cur.core la e) k0 ds).1)
        (zipCourses (verdictOf s i) (actors s) (foldBody (heldBody s.cur.core la e) k0 ds).2)) := by
    have hmeet := meetFaces_clean (doers s i) fun u hu => executes_clean hx u (mem_doers.mp hu).1
    rw [← hk0, ← hds]
    conv_rhs => rw [← hmeet]
    simp only [issueHeld, issue, hcan, if_true, executes_single hx]
    rfl
  have hdsmem : ∀ x ∈ ds, x.1 ∈ actors s := by
    intro x hx
    rw [← hds] at hx
    obtain ⟨u, hu, rfl⟩ := List.mem_map.mp hx
    exact (mem_doers.mp hu).1
  have hdst : (t, destination s i t) ∈ ds := by
    rw [← hds]; exact List.mem_map_of_mem (f := fun u => (u, destination s i u)) (mem_doers.mpr ⟨hmem, hrun⟩)
  have hdsl : Apart (·.1) ds := by
    rw [← hds]
    exact List.Pairwise.map _ (fun _ _ h => h) ((actors_pairwise s).filter _)
  have hbody : ∀ x ∈ ds, ∀ k, heldBody s.cur.core la e k x.1 x.2 = (hold s.cur.core la e k x, .next) := by
    intro x hx k; simp only [heldBody, htrap x.1 (hdsmem x hx)]; rfl
  rw [foldBody_each (heldBody s.cur.core la e) (fun _ => .next) ds (fun x hx k => by rw [hbody x hx k]) (fun _ _ => rfl) k0]
    at hissue
  have hfold : ds.foldl (fun k x => (heldBody s.cur.core la e k x.1 x.2).1) k0 = ds.foldl (hold s.cur.core la e) k0 := by
    have : ∀ (l : List (Thread × List Reg)) (k : Kern), (∀ x ∈ l, x ∈ ds) →
        l.foldl (fun k x => (heldBody s.cur.core la e k x.1 x.2).1) k = l.foldl (hold s.cur.core la e) k := by
      intro l
      induction l with
      | nil => intro k _; rfl
      | cons x l ih =>
        intro k hm
        rw [List.foldl_cons, List.foldl_cons, hbody x (hm x (by simp)) k]
        exact ih _ fun y hy => hm y (by simp [hy])
    exact this ds k0 fun _ h => h
  have hcs : ds.map (fun _ => (Course.next)) = (doers s i).map fun _ => .next := by rw [← hds, List.map_map]; rfl
  rw [hcs, doers, zipCourses_map, hfold] at hissue
  generalize hkb : ds.foldl (hold s.cur.core la e) k0 = kb at hissue
  generalize hk1 : nameWindows s i ds kb = k1 at hissue
  generalize hxs : (actors s).map (fun u => (u, (verdictOf s i u).getD .next)) = xs at hissue
  have hxsmem : ∀ x ∈ xs, x.1 ∈ actors s ∧ x.2 = .next := by
    intro x hx'
    rw [← hxs] at hx'
    obtain ⟨u, hu, rfl⟩ := List.mem_map.mp hx'
    refine ⟨hu, ?_⟩
    rcases executes_quiet hx u hu with h | h <;> simp [h]
  have hxsl : Apart (·.1) xs := by
    rw [← hxs]; exact List.Pairwise.map _ (fun _ _ h => h) (actors_pairwise s)
  have hxst : ∀ x ∈ xs, (x.2.target (curNext s)).isSome = true := by
    intro x hx'; rw [(hxsmem x hx').2]; rfl
  have htx : (t, Course.next) ∈ xs := by
    rw [← hxs]
    have := List.mem_map_of_mem (f := fun u => (u, (verdictOf s i u).getD .next)) hmem
    simpa [hrun] using this
  have hw0 : ∀ w ∈ actors s, getThread k0 s.cur.core w.tslot w.lane = some w := by
    intro w hw; rw [← hk0, getThread_useObjs, getThread_acquireFaces]; exact actors_getThread hw
  have hid0 : k0.id = s.kern.id := by rw [← hk0, useObjs_id]; unfold acquireFaces; split <;> rfl
  obtain ⟨n, hn, h1⟩ := holds_thread s.cur.core la e ds hdsl _ hdst k0
  have hg0 : ∀ u, groupOf k0 s.cur.core u = groupOf s.kern s.cur.core u := by
    intro u; rw [← hk0, groupOf_useObjs, groupOf_acquireFaces]
  obtain ⟨m, o, hmo, hm⟩ : ∃ m o, (∀ h : Held, h.id < s.kern.id → m h = h.named ∧ o h = h.old) ∧
      windowNames s i ds t = renamed m o := by
    unfold windowNames
    split
    · refine ⟨_, _, fun h hh => ?_, funext fun u => nameHeld_renamed _ _ _ u⟩
      have : ¬ s.kern.id ≤ h.id := by omega
      simp [this]
    · exact ⟨(·.named), (·.old), fun _ _ => ⟨rfl, rfl⟩, funext fun u => (renamed_same u).symm⟩
  have hnames := getThread_nameWindows_mem s i ds hdsl _ hdst kb
  rw [hkb, hw0 t hmem, scalarsOf_group (hg0 t)] at h1
  simp only [hk1, h1, Option.map_some] at hnames
  generalize hnew : heldOf n (destination s i t) (scalarsOf s.kern s.cur.core t (destination s i t)) (e t) la = new at hnames
  have hnamed : m new = usedRegs (threadUses s.kern s.cur.core t i).dst ∧ o new = scalarsOf s.kern s.cur.core t (m new) := by
    have hu : windowNames s i ds t { t with held := [new] } = renamed m o { t with held := [new] } := by rw [hm]
    have hid : s.kern.id ≤ new.id := by rw [← hnew]; simp only [heldOf]; omega
    unfold windowNames at hu
    split at hu
    · simp only [nameHeld, renamed, List.map_cons, List.map_nil, hid, if_true] at hu
      have hu := congrArg (·.held) hu
      simp only [List.cons.injEq, and_true] at hu
      have h1 := congrArg Held.named hu
      have h2 := congrArg Held.old hu
      simp only at h1 h2
      exact ⟨h1.symm, by rw [← h2, ← h1]⟩
    · rename_i hno
      have hu := congrArg (·.held) hu
      simp only [renamed, List.map_cons, List.map_nil, List.cons.injEq, and_true] at hu
      have h1 : new.named = m new := congrArg Held.named hu
      have h2 : new.old = o new := congrArg Held.old hu
      have hdest : destination s i t = usedRegs (threadUses s.kern s.cur.core t i).dst := by
        by_cases hs : scalarDst (threadUses s.kern s.cur.core t i) = true
        · have hlen : ds.length ≤ 1 := by simp only [hs, and_true] at hno; omega
          have hone : doers s i = [t] := by
            have hl : (doers s i).length ≤ 1 := by rw [← hds, List.length_map] at hlen; exact hlen
            have hm := mem_doers.mpr ⟨hmem, hrun⟩
            match doers s i, hl, hm with
            | [], _, hm => simp at hm
            | [u], _, hm => rw [List.mem_singleton.mp hm]
            | _ :: _ :: _, hl, _ => simp at hl
          simp only [destination, dstRegs]
          rw [show (actors s).filter (fun u => (verdictOf s i u).isNone) = [t] from hone]
          simp [hs]
        · simp only [destination, dstRegs, hs, Bool.false_eq_true, if_false]
      rw [← h1, ← h2, ← hnew]
      exact ⟨hdest, rfl⟩
  rw [hm] at hnames
  obtain ⟨loc, hloc, h2⟩ := finishIssue_thread s k1 xs hxsl hxst _ htx (curNext s) rfl
  rw [hnames] at h2
  simp only [Option.map_some] at h2
  let ren (h : Held) : Held := { h with named := m h, old := o h }
  have hcount : countHeld s.kern.id (ren new) = ren new := by
    have : ¬ n < s.kern.id := by omega
    simp [countHeld, ← hnew, heldOf, this, ren]
  have hdue : Held.due (ren new) = false := by simp [Held.due, ← hnew, heldOf, ren]
  have hsplit : ∀ (l : List Held), (((l ++ [new]).map ren).map (countHeld s.kern.id)).filter Held.due =
      ((l.map ren).map (countHeld s.kern.id)).filter Held.due := by
    intro l; simp [hcount, hdue]
  have hkeys : ∀ x ∈ xs, acting s x.1.tslot x.1.lane = true := fun x hx => acting_mem (hxsmem x hx).1
  have hw01 : Within s.cur.core (acting s) k0 k1 := by
    refine Within.trans (k' := kb) ?_ ?_
    · rw [← hkb]
      exact within_foldl _ _ (fun k x hx => within_hold la e k x (acting_mem (hdsmem x hx))) k0
    · rw [← hk1]; exact within_nameWindows s i ds kb fun x hx => acting_mem (hdsmem x hx)
  have hbefore : beforeBodies s i = k0 := hk0
  have hwithin : Within s.cur.core (acting s) (beforeBodies s i) (finishIssue s k1 xs) :=
    hbefore ▸ hw01.trans (within_finishIssue s k1 xs hxst hkeys)
  have hbytes : ∀ a, seeByte (finishIssue s k1 xs) a = seeByte s.kern a := fun a => by
    rw [hwithin.byte, hbefore, ← hk0, byte_useObjs, byte_acquireFaces]
  have hin : ∀ x ∈ xs, InGroup k1 s.cur.core x.1 := by
    intro x hx'
    have hw := (hxsmem x hx').1
    have hkb : ∃ v, getThread kb s.cur.core x.1.tslot x.1.lane = some v ∧ v.block = x.1.block ∧ v.group = x.1.group := by
      by_cases hwd : (x.1, destination s i x.1) ∈ ds
      · obtain ⟨m', _, h⟩ := holds_thread s.cur.core la e ds hdsl _ hwd k0
        rw [hkb, hw0 x.1 hw] at h
        exact ⟨_, h, rfl, rfl⟩
      · refine ⟨x.1, ?_, rfl, rfl⟩
        rw [← hkb, holds_other, hw0 x.1 hw]
        intro y hy hl
        have hxw := actors_lane_inj hw (hdsmem y hy) hl
        apply hwd
        rw [← hds] at hy ⊢
        obtain ⟨v, hv, rfl⟩ := List.mem_map.mp hy
        rw [hxw]; exact List.mem_map_of_mem (f := fun u => (u, destination s i u)) hv
    obtain ⟨v, hv, hp⟩ := hkb
    obtain ⟨n', o', _, hn'⟩ := getThread_nameWindows s i ds kb x.1.tslot x.1.lane
    refine ⟨renamed n' o' v, ?_, hp⟩
    rw [← hk1, hn', hv]; rfl
  have hquiet : ∀ b g n, ScalarQuiet s.kern s.cur.core b g n → ScalarQuiet k1 s.cur.core b g n := by
    intro b g n h
    rw [← hk1]
    refine quiet_nameWindows _ _ _ _ ?_
    have h0 : ScalarQuiet k0 s.cur.core b g n := by
      rw [← hk0]; exact quiet_sameThreads (by simp) (by simp) h
    rw [← hkb]
    exact quiet_foldl _ _ (fun k y hk => quiet_hold la e k y hk) h0
  rw [hissue]
  refine ⟨⟨_, ren new, h2, ?_, ?_, ?_, ?_, hnamed.1, hnamed.2, ?_, ?_, ?_, ?_⟩, ?_, ?_, ?_, ?_,
    ⟨_, h2, rfl, hloc⟩, ⟨_, h2, rfl⟩, hwithin, hbytes, rfl⟩
  rotate_left 3
  · rw [← hnew]; rfl
  · rw [← hnew]; rfl
  · rw [← hnew]; rfl
  · rw [← hnew]; rfl
  · rw [← hnew]; rfl
  rotate_right 3
  · have : ren new ∈ ((t.held ++ [new]).map ren).map (countHeld s.kern.id) := by
      rw [List.map_append, List.map_append]
      exact List.mem_append.mpr (.inr (by simp only [List.map_cons, List.map_nil, hcount, List.mem_singleton]))
    simp only [wentOn, counted, flushed, renamed, List.mem_filter]
    exact ⟨this, by simp [hdue]⟩
  · rw [← hnew]; exact hid0 ▸ hn
  · intro hids
    have hren : t.held.map ren = t.held :=
      (List.map_congr_left fun h hh => by simp only [ren, (hmo h (hids h hh)).1, (hmo h (hids h hh)).2]; rfl).trans (List.map_id _)
    simp only [wentOn, counted_held, heldLeft, renamed, List.map_append, List.map_cons, List.map_nil, List.filter_append]
    rw [show t.held.map (fun h : Held => { h with named := m h, old := o h }) = t.held from hren]
    rw [show ({ new with named := m new, old := o new } : Held) = ren new from rfl, hcount]
    simp [hdue]
  · intro r hr hh
    dsimp only
    rw [seeReg_own h2 hr, seeReg_own (actors_getThread hmem) hr]
    simp only [wentOn, counted, flushed, renamed]
    rw [show (fun h : Held => { h with named := m h, old := o h }) = ren from rfl, hsplit]
    refine ownReg_landHelds_other _ _ _ fun x hx => ?_
    obtain ⟨y, hy, rfl⟩ := List.mem_map.mp (List.mem_filter.mp hx).1
    obtain ⟨z, hz, rfl⟩ := List.mem_map.mp hy
    rw [countHeld_regs]; exact hh z hz
  · intro u m hu
    refine Eq.trans (scalar_finishIssue s k1 xs hxsl hxst hin u m (hquiet _ _ _ hu)) ?_
    simp only [seeReg, ← hk1, groupOf_nameWindows, ← hkb, groupOf_holds, hg0]
  · intro j
    simp only [seePred, h2, actors_getThread hmem, Option.map_some, Option.getD_some, wentOn, counted, flushed, landHelds_p, renamed]
  · intro hh
    simp only [seeFlags, h2, Option.map_some, Option.getD_some, wentOn, counted, flushed, renamed]
    rw [show (fun h : Held => { h with named := m h, old := o h }) = ren from rfl, hsplit, hh]
    rfl

end Sys2Proof.Machine
end

