-- ==== Sys2Proof/Laws/Memory.lean ====
section
/-! SUPPORT. Memory: a byte written is read back, every other byte is left alone, and every write keeps the canonical form. -/

namespace Sys2Proof.Machine

/-! ## The canonical form -/

theorem cellsFrom_mono {lo hi : Nat} {m : List Host.Cell} (h : lo ≤ hi) (hm : cellsFrom hi m = true) : cellsFrom lo m = true := by
  cases m with
  | nil => rfl
  | cons p m =>
    obtain ⟨a, x⟩ := p
    simp only [cellsFrom, Bool.and_eq_true, decide_eq_true_eq] at hm ⊢
    exact ⟨⟨by omega, hm.1.2⟩, hm.2⟩

theorem cellsFrom_consCell {lo a : Nat} (x : Byte) {m : List Host.Cell} (h : lo ≤ a) (hm : cellsFrom (a + 1) m = true) :
    cellsFrom lo (consCell a x m) = true := by
  unfold consCell
  split
  · exact cellsFrom_mono (by omega) hm
  · rename_i hx
    simp only [cellsFrom, Bool.and_eq_true, decide_eq_true_eq, bne, hm, and_true]
    exact ⟨h, by simpa using hx⟩

theorem cellsFrom_writeCell {lo a : Nat} (x : Byte) {m : List Host.Cell} (h : lo ≤ a) (hm : cellsFrom lo m = true) :
    cellsFrom lo (writeCell m a x) = true := by
  induction m generalizing lo with
  | nil => exact cellsFrom_consCell x h rfl
  | cons p m ih =>
    obtain ⟨b, y⟩ := p
    have hm' := hm
    simp only [cellsFrom, Bool.and_eq_true, decide_eq_true_eq] at hm'
    simp only [writeCell]
    split
    · rename_i hab
      refine cellsFrom_consCell x h ?_
      simp only [cellsFrom, Bool.and_eq_true, decide_eq_true_eq]
      exact ⟨⟨by omega, hm'.1.2⟩, hm'.2⟩
    · split
      · rename_i hab
        refine cellsFrom_consCell x h ?_
        rw [beq_iff_eq.mp hab]; exact hm'.2
      · rename_i h1 h2
        have h2' : a ≠ b := by simpa using h2
        simp only [cellsFrom, Bool.and_eq_true, decide_eq_true_eq]
        exact ⟨hm'.1, ih (by omega) hm'.2⟩

/-- A write of one byte keeps the canonical form. -/
theorem wf_writeCell {m : List Host.Cell} (a : Nat) (x : Byte) (h : Memory.wf m = true) : Memory.wf (writeCell m a x) = true :=
  cellsFrom_writeCell x (Nat.zero_le a) h

/-- A write of bytes keeps the canonical form. -/
theorem wf_writeMem {m : List Host.Cell} (a : Nat) (bs : List Byte) (h : Memory.wf m = true) :
    Memory.wf (writeMem m a bs) = true := by
  induction bs generalizing m a with
  | nil => exact h
  | cons b bs ih => exact ih (a + 1) (wf_writeCell a b h)

theorem wf_putBytes {k : Kern} (a : Nat) (bs : List Byte) (h : Memory.wf k.mem = true) :
    Memory.wf (putBytes k a bs).mem = true := wf_writeMem a bs h

/-! ## Reading after writing -/

theorem readCell_cellsFrom {lo a : Nat} {m : List Host.Cell} (h : a < lo) (hm : cellsFrom lo m = true) :
    readCell m a = emptyByte := by
  induction m generalizing lo with
  | nil => rfl
  | cons p m ih =>
    obtain ⟨b, y⟩ := p
    simp only [cellsFrom, Bool.and_eq_true, decide_eq_true_eq] at hm
    have hb : (b == a) = false := by simp only [beq_eq_false_iff_ne]; omega
    simp only [readCell, hb]
    exact ih (by omega) hm.2

theorem readCell_consCell_same {a : Nat} (x : Byte) {m : List Host.Cell} (hm : cellsFrom (a + 1) m = true) :
    readCell (consCell a x m) a = x := by
  unfold consCell
  split
  · rename_i hx
    rw [readCell_cellsFrom (Nat.lt_succ_self a) hm]
    exact (beq_iff_eq.mp hx).symm
  · simp [readCell]

theorem readCell_consCell_other {a b : Nat} (x : Byte) (m : List Host.Cell) (h : b ≠ a) :
    readCell (consCell a x m) b = readCell m b := by
  unfold consCell
  split
  · rfl
  · have : (a == b) = false := by simpa using Ne.symm h
    simp [readCell, this]

/-- A byte written is read back. -/
theorem readCell_writeCell_same {lo : Nat} {m : List Host.Cell} (a : Nat) (x : Byte) (hm : cellsFrom lo m = true) :
    readCell (writeCell m a x) a = x := by
  induction m generalizing lo with
  | nil => exact readCell_consCell_same x rfl
  | cons p m ih =>
    obtain ⟨b, y⟩ := p
    simp only [cellsFrom, Bool.and_eq_true, decide_eq_true_eq] at hm
    simp only [writeCell]
    split
    · rename_i hab
      refine readCell_consCell_same x ?_
      simp only [cellsFrom, Bool.and_eq_true, decide_eq_true_eq]
      exact ⟨⟨by omega, hm.1.2⟩, hm.2⟩
    · split
      · rename_i hab
        refine readCell_consCell_same x ?_
        rw [beq_iff_eq.mp hab]; exact hm.2
      · rename_i h1 h2
        have h3 : (b == a) = false := by
          simp only [beq_eq_false_iff_ne]; intro h; exact h2 (by simp [h])
        simp only [readCell, h3]
        exact ih hm.2

/-- Every other byte is left alone. -/
theorem readCell_writeCell_other (m : List Host.Cell) (a b : Nat) (x : Byte) (h : b ≠ a) :
    readCell (writeCell m a x) b = readCell m b := by
  induction m with
  | nil => exact readCell_consCell_other x [] h
  | cons p m ih =>
    obtain ⟨c, y⟩ := p
    simp only [writeCell]
    split
    · exact readCell_consCell_other x _ h
    · split
      · rename_i h1 h2
        have hca : c = a := (beq_iff_eq.mp h2).symm
        have : (c == b) = false := by simp only [beq_eq_false_iff_ne]; intro e; exact h (e.symm.trans hca)
        rw [readCell_consCell_other x _ h]
        simp [readCell, this]
      · simp only [readCell, ih]

/-- The bytes outside a write are left alone. -/
theorem readCell_writeMem_other (m : List Host.Cell) (a : Nat) (bs : List Byte) (b : Nat) (h : b < a ∨ a + bs.length ≤ b) :
    readCell (writeMem m a bs) b = readCell m b := by
  induction bs generalizing m a with
  | nil => rfl
  | cons x xs ih =>
    simp only [List.length_cons] at h
    simp only [writeMem]
    rw [ih (writeCell m a x) (a + 1) (by omega), readCell_writeCell_other m a b x (by omega)]

/-- The bytes of a write are read back. -/
theorem readMem_writeMem (m : List Host.Cell) (a : Nat) (bs : List Byte) (h : Memory.wf m = true) :
    readMem (writeMem m a bs) a bs.length = bs := by
  induction bs generalizing m a with
  | nil => rfl
  | cons x xs ih =>
    simp only [writeMem, List.length_cons, readMem]
    rw [readCell_writeMem_other _ _ _ _ (by omega), readCell_writeCell_same a x h, ih _ _ (wf_writeCell a x h)]

/-! ## Little-endian values -/

theorem length_bytesOfNat (n x : Nat) : (bytesOfNat n x).length = n := by
  induction n generalizing x with
  | zero => rfl
  | succ n ih => simp [bytesOfNat, ih]

/-- The number of the bytes of a number. -/
theorem natOfBytes_bytesOfNat (n x : Nat) : natOfBytes (bytesOfNat n x) = x % 256 ^ n := by
  induction n generalizing x with
  | zero => simp [bytesOfNat, natOfBytes, Nat.mod_one]
  | succ n ih =>
    simp only [bytesOfNat, natOfBytes, ih, BitVec.toNat_ofNat]
    rw [show 256 ^ (n + 1) = 256 * 256 ^ n by ring, Nat.mod_mul]

/-- A number written is read back. -/
theorem getNat_putBytes (k : Kern) (a n x : Nat) (h : Memory.wf k.mem = true) :
    getNat (putBytes k a (bytesOfNat n x)) a n = x % 256 ^ n := by
  have := readMem_writeMem k.mem a (bytesOfNat n x) h
  rw [length_bytesOfNat] at this
  simp only [getNat, getBytes, putBytes, this, natOfBytes_bytesOfNat]

end Sys2Proof.Machine
end

