-- ==== Sys2Proof/Laws/Trapping.lean ====
section
/-! SUPPORT. Taking a trap: what an issue leaves whose one thread traps. -/

namespace Sys2Proof.Machine

open Sys2Proof.Safety

/-- What reads a launch, an object or a fetched line does not see a change of threads. -/
theorem threadLaunch_within {c : Nat} {keys : Nat → Nat → Bool} {k k' : Kern} (h : Within c keys k k') (t : Thread) :
    threadLaunch k' c t = threadLaunch k c t := by
  have hb := h.blocks t.block
  have hl : k'.launches = k.launches := by rw [h.shared]
  unfold threadLaunch
  cases h1 : blockOf k' c t.block <;> cases h2 : blockOf k c t.block <;> rw [h1, h2] at hb <;> simp at hb
  · rename_i b b'
    have : b.launch = b'.launch := by
      have := congrArg Block.launch hb
      simpa [bare] using this
    simp only [launchOf, hl, this]

theorem seeLine_within {c : Nat} {keys : Nat → Nat → Bool} {k k' : Kern} (h : Within c keys k k') (l : Launch) (line : Nat) :
    seeLine k' c l line = seeLine k c l line := by
  have hl : (coreOf k' c).lines = (coreOf k c).lines := by rw [h.core]
  have hr : readLine k' l line = readLine k l line := by
    obtain ⟨cs, n, rfl⟩ : ∃ cs n, k' = { k with cores := cs, id := n } := ⟨_, _, h.shared⟩
    rfl
  simp only [seeLine, bufferedLine, hl, hr]

theorem pairtOf_within {c : Nat} {keys : Nat → Nat → Bool} {k k' : Kern} (h : Within c keys k k') (l : Launch) (pc : Nat) :
    pairtOf k' c l pc = pairtOf k c l pc := by
  have hi : lineInside k' l (pcLine pc) = lineInside k l (pcLine pc) := by
    obtain ⟨cs, n, rfl⟩ : ∃ cs n, k' = { k with cores := cs, id := n } := ⟨_, _, h.shared⟩
    rfl
  simp only [pairtOf, hi, seeLine_within h]

/-- A kernel state that differs only in the caches of a core. -/
structure ButCaches (c : Nat) (k k' : Kern) : Prop where
  shared : k' = { k with cores := k'.cores }
  cores : ∀ d, d ≠ c → coreOf k' d = coreOf k d
  core : coreOf k' c = { coreOf k c with lcache := (coreOf k' c).lcache, ocache := (coreOf k' c).ocache }

theorem butCaches_modCore {c : Nat} {k k' : Kern} (h : ButCaches c k k') {f : Core → Core}
    (hf : ∀ core, f core = { core with lcache := (f core).lcache, ocache := (f core).ocache }) : ButCaches c k (modCore k' c f) := by
  refine ⟨by rw [modCore, h.shared], fun d hd => (coreOf_modCore_other k' f hd).trans (h.cores d hd), ?_⟩
  rw [coreOf_modCore_same, hf, h.core]

/-- Reading the operands of an issue changes only the caches. -/
theorem caches_before (k : Kern) (c : Nat) (i : Instr) (ts : List Thread) :
    ButCaches c k (useObjs (acquireFaces k c i ts) c i ts) := by
  refine useObjs_keeps (P := fun k' => ButCaches c k k') c (fun k' ctx o h => butCaches_modCore h fun _ => rfl) i ts _ ?_
  unfold acquireFaces
  split
  · exact butCaches_modCore ⟨rfl, fun _ _ => rfl, rfl⟩ fun _ => rfl
  · exact ⟨rfl, fun _ _ => rfl, rfl⟩

theorem blockOf_butCaches {c : Nat} {k k' : Kern} (h : ButCaches c k k') (b : Nat) : blockOf k' c b = blockOf k c b := by
  unfold blockOf; rw [h.core]

theorem threadLaunch_butCaches {c : Nat} {k k' : Kern} (h : ButCaches c k k') (t : Thread) :
    threadLaunch k' c t = threadLaunch k c t := by
  have : k'.launches = k.launches := by rw [h.shared]
  simp only [threadLaunch, blockOf_butCaches h, launchOf, this]

theorem pairtOf_butCaches {c : Nat} {k k' : Kern} (h : ButCaches c k k') (l : Launch) (pc : Nat) :
    pairtOf k' c l pc = pairtOf k c l pc := by
  have hl : (coreOf k' c).lines = (coreOf k c).lines := by rw [h.core]
  obtain ⟨cs, rfl⟩ : ∃ cs, k' = { k with cores := cs } := ⟨_, h.shared⟩
  have hi : lineInside ({ k with cores := cs } : Kern) l (pcLine pc) = lineInside k l (pcLine pc) := rfl
  have hr : readLine ({ k with cores := cs } : Kern) l (pcLine pc) = readLine k l (pcLine pc) := rfl
  simp only [pairtOf, hi, seeLine, bufferedLine, hl, hr]

/-- What is within a change of the caches is within the change that it shows. -/
theorem within_cachesOf {c : Nat} {keys : Nat → Nat → Bool} {k kc k' : Kern} (hc : ButCaches c k kc) (h : Within c keys kc k') :
    Within c keys (cachesOf k c k') k' := by
  have h1 : (coreOf k' c).lcache = (coreOf kc c).lcache := by rw [h.core]
  have h2 : (coreOf k' c).ocache = (coreOf kc c).ocache := by rw [h.core]
  have h3 : coreOf (cachesOf k c k') c = coreOf kc c := by
    rw [cachesOf, coreOf_modCore_same, h1, h2]; exact hc.core.symm
  have hcore : ∀ d, coreOf (cachesOf k c k') d = coreOf kc d := by
    intro d
    by_cases hd : d = c
    · rw [hd, h3]
    · rw [cachesOf, coreOf_modCore_other _ _ hd, hc.cores d hd]
  refine ⟨?_, fun d hd => by rw [hcore, h.cores d hd], by rw [hcore]; exact h.core, fun b => ?_, fun x y hk => ?_⟩
  · conv_lhs => rw [h.shared, hc.shared]
    rfl
  · simp only [blockOf, hcore]; exact h.blocks b
  · simp only [getThread, hcore]; exact h.threads x y hk

theorem keepsKey_enter (r : List W32) (cause handler : Nat) : KeepsKey fun u => enterHandler u r cause handler :=
  fun _ => ⟨rfl, rfl⟩

/-- Trap entry of a thread that can take a trap: results that have arrived are written, and the thread is at its handler. -/
theorem trapEntry_takes {k : Kern} {c : Nat} {t : Thread} {l : Launch} {h : Nat} (ht : getThread k c t.tslot t.lane = some t)
    (hl : threadLaunch k c t = some l) (hh : recHandler l = some h) (hs : t.tstate = false) (ha : awaitsHeld k c t = false)
    (cause sub : Nat) (saved fault : W64) :
    trapEntry k c t cause sub saved fault false =
      (modThis (closeWindows k c t) c t fun u =>
        enterHandler u (trapRecord (pairtOf k c l saved.toNat) cause sub false saved fault) cause h,
       some (moverOf (modThis (closeWindows k c t) c t fun u =>
        enterHandler u (trapRecord (pairtOf k c l saved.toNat) cause sub false saved fault) cause h) c t h)) := by
  have hn : nowThread k c t = t := by simp [nowThread, ht]
  simp only [trapEntry, hn, hl, hh, hs, ha, Bool.false_and, Bool.false_eq_true, if_false]

theorem getThread_butCaches {c : Nat} {k k' : Kern} (h : ButCaches c k k') (a b : Nat) :
    getThread k' c a b = getThread k c a b := by unfold getThread; rw [h.core]

theorem groupOf_butCaches {c : Nat} {k k' : Kern} (h : ButCaches c k k') (w : Thread) : groupOf k' c w = groupOf k c w := by
  simp only [groupOf, blockOf_butCaches h]

/-- Results on their way stand in threads by their block, their group and what they hold. -/
theorem scalarResults_modThread (k : Kern) (c x y : Nat) (f : Thread → Thread) (t : Thread) (i : Nat)
    (hf : ∀ u, (f u).held = u.held ∧ (f u).block = u.block ∧ (f u).group = u.group) :
    scalarResults (modThread k c x y f) c t i = scalarResults k c t i := by
  simp only [scalarResults, groupThreads, modThread, coreOf_modCore_same]
  induction (coreOf k c).threads with
  | nil => rfl
  | cons u us ih =>
    simp only [List.map_cons, List.filter_cons]
    obtain ⟨h1, h2, h3⟩ := hf u
    by_cases hxy : (u.tslot == x && u.lane == y) = true
    · simp only [if_pos hxy, h2, h3]
      split
      · simp only [List.flatMap_cons, h1, ih]
      · exact ih
    · simp only [if_neg hxy]
      split
      · simp only [List.flatMap_cons, ih]
      · exact ih

/-- The end of an issue whose one thread takes a trap saved at a program counter. -/
theorem finishIssue_traps {s : State} {k : Kern} {t : Thread} {l : Launch} {h : Nat} (hk : ButCaches s.cur.core s.kern k)
    (ht0 : getThread s.kern s.cur.core t.tslot t.lane = some t) (hd : TakesTraps s t l h)
    (x : Course) (cause sub saved fault : Nat) (hsaved : saved < 2 ^ 64) (hfault : fault < 2 ^ 64)
    (hcause : cause < 256) (hsub : sub < 16) (hne : cause ≠ 0x10)
    (hx : x = .trapAt saved cause sub fault ∨ (x = .trap cause sub fault ∧ saved = curPc s)) :
    TrapsTo s { s with kern := finishIssue s k [(t, x)] } t h (pairtOf s.kern s.cur.core l saved) cause sub saved fault := by
  obtain ⟨hl, hh, hs, ha, hlatch⟩ := hd
  have ht : getThread k s.cur.core t.tslot t.lane = some t := (getThread_butCaches hk ..).trans ht0
  have hg : ∀ w, groupOf k s.cur.core w = groupOf s.kern s.cur.core w := groupOf_butCaches hk
  -- the course is trap entry
  have hcourse : ∀ k, applyCourse (curPc s) (curNext s) s.cur.core k (t, x) =
      trapEntry (unlatch k s.cur.core t) s.cur.core t cause sub (BitVec.ofNat 64 saved) (BitVec.ofNat 64 fault) false := by
    intro k
    rcases hx with rfl | ⟨rfl, rfl⟩
    · rfl
    · simp only [applyCourse, rollback, hlatch]; rfl
  have hcount : countsWindow x = false := by rcases hx with rfl | ⟨rfl, _⟩ <;> rfl
  generalize hk1 : unlatch (markIssued k s.cur.core s.cur.entry) s.cur.core t = k1
  have hw1 : Within s.cur.core (fun a b => a == t.tslot && b == t.lane) k k1 := by
    rw [← hk1]
    exact (within_markIssued _ _).trans (within_modThis _ t _ (keepsKey_latch _) (keys_self t))
  have ht1 : getThread k1 s.cur.core t.tslot t.lane = some t := by
    rw [← hk1, unlatch, getThread_modThis_same _ _ _ _ (keepsKey_latch _), getThread_markIssued, ht, Option.map_some]
    congr 1
    rw [← hlatch]
  have hg1 : ∀ w, groupOf k1 s.cur.core w = groupOf s.kern s.cur.core w := by
    intro w; rw [← hk1, unlatch, groupOf_modThis, groupOf_markIssued, hg]
  have hth : (coreOf k s.cur.core).threads = (coreOf s.kern s.cur.core).threads := by rw [hk.core]
  have hth1 : ∀ i, scalarResults k1 s.cur.core t i = scalarResults s.kern s.cur.core t i := by
    intro i
    rw [← hk1]
    refine (scalarResults_modThread _ _ _ _ (fun u => { u with latch := none }) _ _ fun _ => ⟨rfl, rfl, rfl⟩).trans ?_
    simp only [scalarResults, groupThreads, markIssued, coreOf_modCore_same, hth]
  have ha1 : awaitsHeld k1 s.cur.core t = false := by
    simp only [awaitsHeld, hth1] at ha ⊢; exact ha
  have hsav : (BitVec.ofNat 64 saved).toNat = saved := by rw [BitVec.toNat_ofNat, Nat.mod_eq_of_lt hsaved]
  have hflt : (BitVec.ofNat 64 fault).toNat = fault := by rw [BitVec.toNat_ofNat, Nat.mod_eq_of_lt hfault]
  have hentry := trapEntry_takes ht1 ((threadLaunch_within hw1 t).trans ((threadLaunch_butCaches hk t).trans hl)) hh hs ha1 cause sub (BitVec.ofNat 64 saved)
    (BitVec.ofNat 64 fault)
  rw [hsav, pairtOf_within hw1, pairtOf_butCaches hk] at hentry
  generalize hrec : trapRecord (pairtOf s.kern s.cur.core l saved) cause sub false (BitVec.ofNat 64 saved)
    (BitVec.ofNat 64 fault) = rec_ at hentry
  generalize hk2 : modThis (closeWindows k1 s.cur.core t) s.cur.core t (fun u => enterHandler u rec_ cause h) = k2 at hentry
  have hfin : finishIssue s k [(t, x)] =
      markFormed (moveThreads k2 s.cur.core [moverOf k2 s.cur.core t h]) s.cur.core [moverOf k2 s.cur.core t h] := by
    simp only [finishIssue, List.foldl_cons, List.foldl_nil, hcount, Bool.false_eq_true, if_false, applyCourses, hcourse, hk1,
      hentry]
  obtain ⟨loc, hloc, h3⟩ := getThread_moveThreads k2 s.cur.core t.tslot t.lane h [moverOf k2 s.cur.core t h]
    (fun m hm _ => by rw [List.mem_singleton.mp hm]; rfl)
  have h2 : getThread k2 s.cur.core t.tslot t.lane =
      some (enterHandler (flushed (fun y => decide (0 < y.window)) t) rec_ cause h) := by
    rw [← hk2, getThread_modThis_same _ _ _ _ (keepsKey_enter _ _ _), closeWindows, getThread_releaseScalars,
      getThread_flushHeld_same, ht1]
    rfl
  have hw2 : Within s.cur.core (fun a b => a == t.tslot && b == t.lane) k k2 := by
    rw [← hk2]
    exact ((hw1.trans (within_flushHeld _ t _ (keys_self t))).trans (within_releaseScalars _ t _)).trans
      (within_modThis _ t _ (keepsKey_enter _ _ _) (keys_self t))
  have hw3 : Within s.cur.core (fun a b => a == t.tslot && b == t.lane) k
      (finishIssue s k [(t, x)]) := by
    rw [hfin]
    exact (hw2.trans (within_moveThreads _ _ fun m hm => by rw [List.mem_singleton.mp hm]; exact keys_self t)).trans
      (within_markFormed _ _)
  rw [h2] at h3
  have hany : ([moverOf k2 s.cur.core t h].any fun m => m.is t.tslot t.lane) = true := by
    simp [moverOf, Mover.is]
  simp only [hany, if_true, Option.map_some] at h3
  rw [← getThread_markFormed _ _ [moverOf k2 s.cur.core t h], ← hfin] at h3
  have hown : ∀ r, (∀ n, r ≠ .s n) → seeReg (finishIssue s k [(t, x)]) s.cur.core t r =
      ownReg (enterHandler (flushed (fun y => decide (0 < y.window)) t) rec_ cause h).regs r := fun r hr => seeReg_own h3 hr
  have hkreg : ∀ i, i < 4 → seeReg (finishIssue s k [(t, x)]) s.cur.core t (.k i) = rec_.getD i 0 := by
    intro i hi
    rw [hown _ (by simp)]
    have hlen : rec_.length = 4 := by rw [← hrec]; rfl
    simp only [ownReg, enterHandler]
    rw [List.getD_append _ _ _ _ (by omega)]
  have hother : ∀ r, (∀ n, r ≠ .s n) → r ≠ .k 0 → r ≠ .k 1 → r ≠ .k 2 → r ≠ .k 3 →
      ownReg (enterHandler (flushed (fun y => decide (0 < y.window)) t) rec_ cause h).regs r =
        ownReg (flushed (fun y => decide (0 < y.window)) t).regs r := by
    intro r hr h0 h1' h2' h3'
    cases r with
    | v i => rfl
    | s i => exact absurd rfl (hr i)
    | k i =>
      have hi : 4 ≤ i := by
        by_contra hc
        have : i = 0 ∨ i = 1 ∨ i = 2 ∨ i = 3 := by omega
        rcases this with rfl | rfl | rfl | rfl <;> simp_all
      have hlen : rec_.length = 4 := by rw [← hrec]; rfl
      simp only [ownReg, enterHandler]
      rw [List.getD_append_right _ _ _ _ (by omega), hlen, List.getD_eq_getElem?_getD, List.getElem?_drop,
        List.getD_eq_getElem?_getD]
      congr 2; omega
  refine ⟨⟨?_, ?_, ?_, ?_⟩, ?_, ?_, ?_, ?_, ⟨_, h3, rfl, hloc⟩, ⟨_, h3, ?_⟩, ⟨_, h3, rfl⟩, within_cachesOf hk hw3,
    fun a => (hw3.byte a).trans (by rw [hk.shared]; rfl), rfl⟩
  · rw [hkreg 0 (by omega), ← hrec]
    simp [trapRecord, hsav]
  · rw [hkreg 1 (by omega), ← hrec]
    have hp : pairtOf s.kern s.cur.core l saved % 2 ^ 12 = pairtOf s.kern s.cur.core l saved := by
      apply Nat.mod_eq_of_lt
      unfold pairtOf
      split
      · cases seeLine s.kern s.cur.core l (pcLine saved) with
        | none => simp
        | some b => exact Nat.mod_lt _ (by decide)
      · decide
    simp only [trapRecord, hsav, List.getD_cons_succ, List.getD_cons_zero, Nat.mod_eq_of_lt hsub, Nat.mod_eq_of_lt hcause, hp]
    rfl
  · rw [hkreg 2 (by omega), ← hrec]
    simp [trapRecord, hflt]
  · rw [hkreg 3 (by omega), ← hrec]
    simp [trapRecord, hflt]
  · intro r hr h0 h1' h2' h3' hh'
    dsimp only
    rw [hown r hr, hother r hr h0 h1' h2' h3', seeReg_own ht0 hr]
    exact ownReg_landHelds_other _ _ _ fun y hy => hh' y (List.mem_of_mem_filter hy)
  · intro w n hn
    dsimp only
    have hq1 : ScalarQuiet k1 s.cur.core w.block w.group n := by
      rw [← hk1]
      refine quiet_modThread _ _ _ (fun u => ⟨rfl, rfl, fun a ha => .inr ⟨a, ha, rfl, rfl, rfl⟩⟩) ?_
      refine quiet_sameThreads ?_ (fun u => ?_) hn
      · simp only [markIssued, coreOf_modCore_same, hth]
      · rw [groupOf_markIssued, hg]
    have hsc : SameScalar s.cur.core w n k1 (closeWindows k1 s.cur.core t) := by
      refine Eq.trans (scalar_releaseScalars _ fun hp => ?_) (scalar_flushHeld _ fun hp y hy hpos => ?_)
      · simp only [samePlace, Bool.and_eq_true, beq_iff_eq] at hp
        rw [← hp.1, ← hp.2]; exact quiet_flushHeld _ _ hq1
      · simp only [samePlace, Bool.and_eq_true, beq_iff_eq] at hp
        simp only [nowThread, ht1, Option.getD_some] at hy
        have harr : y.arrived = true := by
          simp only [awaitsHeld, List.any_eq_false] at ha1
          have := ha1 y hy
          simp at hpos
          simp [hpos] at this
          exact this.1
        rw [hp.1, hp.2] at hq1
        rcases hq1 t (mem_groupThreads ht1) y hy with h1 | h1 | h1
        · exact .inl h1
        · rw [harr] at h1; cases h1
        · exact .inr h1
    have h4 : seeReg (finishIssue s k [(t, x)]) s.cur.core w (.s n) = seeReg (closeWindows k1 s.cur.core t) s.cur.core w (.s n) := by
      simp only [seeReg, hfin, groupOf_markFormed, groupOf_moveThreads, ← hk2, groupOf_modThis]
    rw [h4, hsc]
    simp only [seeReg, hg1]
  · intro j
    simp only [seePred, h3, ht0, Option.map_some, Option.getD_some, enterHandler, flushed, landHelds_p]
  · intro hh'
    simp only [seeFlags, h3, Option.map_some, Option.getD_some, enterHandler, flushed, hh', List.filter_nil, List.foldl_nil]
  · have h16 : (cause == 0x10) = false := by simpa using hne
    simp only [enterHandler, flushed, h16, Bool.or_false]

/-- An issue of one thread whose body changes nothing and traps. -/
theorem issueEach_traps {s : State} {i : Instr} {t : Thread} (ha : ExecutesAlone s i t = true)
    (f : Kern → Thread → List Reg → Kern × Course) {x : Course} {l : Launch} {h : Nat} (hd : TakesTraps s t l h)
    (hf : f (beforeBody s i t) t (destination s i t) = (beforeBody s i t, x)) (cause sub saved fault : Nat)
    (hsaved : saved < 2 ^ 64) (hfault : fault < 2 ^ 64) (hcause : cause < 256) (hsub : sub < 16) (hne : cause ≠ 0x10)
    (hx : x = .trapAt saved cause sub fault ∨ (x = .trap cause sub fault ∧ saved = curPc s)) :
    TrapsTo s (issueEach s i f) t h (pairtOf s.kern s.cur.core l saved) cause sub saved fault := by
  rw [issueEach_alone_eq ha, hf]
  exact finishIssue_traps (caches_before s.kern s.cur.core i [t]) (actors_getThread (executes_mem (alone_executes ha))) hd x cause sub
    saved fault hsaved hfault hcause hsub hne hx

end Sys2Proof.Machine
end

