-- ==== Sys2Proof/Tests/Slice0.lean ====
section
/-! SUPPORT. Tests: the checks of WellFormed, words that the specification writes out, single steps, and states in which the
hypotheses of the statements hold. -/

namespace Sys2Proof.Tests

open Sys2Proof Sys2Proof.Machine Sys2Proof.Safety

-- Each theorem is checked before the next one is read.
set_option Elab.async false

/-! ## Instructions and states to test with -/

/-- Always executed. -/
def always : Guard := ⟨false, 7⟩
/-- An R-format instruction. -/
def rf : RForm :=
  { g := always, la := 0, ty := .i32, rm := .rne, sat := false, om := 0, d := .v 3, a := .v 1, b := .v 2, c := .v 0, qp := none }
/-- One with a single source. -/
def rOne : RForm := { rf with b := .v 0 }
/-- One with three sources. -/
def rThree : RForm := { rf with c := .v 6 }
/-- One that only writes p1. -/
def rPred : RForm := { rf with d := .v 0, qp := some 1 }
/-- An I-format instruction. -/
def inf : IForm :=
  { g := always, ty := .n32, rm := .rne, sat := false, om := 0, d := .v 3, a := .v 1, qp := none, imm := 5 }
/-- An M-format instruction on the scratchpad. -/
def mf : MForm :=
  { g := always, la := 0, ty := .n32, sc := .grp, acq := false, rel := false, na := false, d := .v 8, base := .v 4, idx := .v 0,
    sp := .sp, xs := 0, disp := 64 }
/-- An M-format instruction on an object. -/
def mo : MForm := { mf with sp := .ob, disp := 0 }
/-- A B-format instruction. -/
def bf : BForm := { g := always, d := .v 0, a := .v 0, ts := 0, ldisp := 0 }
/-- An S-format instruction. -/
def sf : SForm := { g := always, d := .v 0, a := .v 0, sr := 0, imm := 0 }
/-- An X-format instruction. -/
def xf : XForm :=
  { g := always, la := 0, acc := 0, jg := 0, bdb := 0, bdn := 0, fsi := 0, side := false, cja := false, cjb := false, pge := false,
    pg := 0, vsrc := false, ver := 0, d := .v 0, a := .v 0 }

/-- The state in which a thread is about to issue an instruction, with changes to the kernel state and to the thread. -/
def bench (i : Instr) (f : Kern → Kern) (g : Thread → Thread) : State :=
  let s := State.reset.withFetchWord 96 ((encode i).getD 0).toNat
  { s with
    kern := modCore (f s.kern) 0 fun core => { core with threads := core.threads.map g }
    cur := { core := 0, entry := 0, mode := .single } }

/-- A thread with vector registers set. -/
def holding (rs : List (Nat × W32)) (t : Thread) : Thread :=
  { t with regs := { t.regs with v := rs.foldl (fun v p => rset 0 v p.1 p.2) t.regs.v } }

/-- A kernel state with objects 2, in HBM, and 3, on device 7, in context 0, whose entries the core
holds. -/
def objects (k : Kern) : Kern :=
  let o : ObjEntry :=
    { rd := true, wr := true, at_ := true, ex := false, cls := .p, home := .hbm, hdev := 0, present := true, size := 65536, ext := 8 }
  let k := modCore k 0 fun core => { core with ocache := [(0, 2), (0, 3)] }
  { modCtx k 0 (fun x => { x with objs := x.objs ++ [(2, o), (3, { o with home := .remote, hdev := 7 })] }) with
    extents := mset k.extents 8 (BitVec.ofNat 64 (2 ^ 62 + 1)) }

/-- An instruction that is well formed executes alone. -/
def alone (i : Instr) (f : Kern → Kern) (g : Thread → Thread) : Bool :=
  encodingLegal i && ExecutesAlone (bench i f g) i (g fetchThread)

/-- It does so in the plain state. -/
def plain (i : Instr) : Bool := alone i id id

/-- The thread takes traps in the state: the handler of its launch is line 1. -/
def takesTraps (i : Instr) (f : Kern → Kern) (g : Thread → Thread) : Bool :=
  let s := bench i f g
  let t := g fetchThread
  ((threadLaunch s.kern 0 t).bind recHandler) == some 64 && !t.tstate && !awaitsHeld s.kern 0 t && t.latch.isNone

/-- The checks before an instruction's own trap the thread (R48). -/
def trapsFirst (i : Instr) (f : Kern → Kern) (g : Thread → Thread) : Bool :=
  let s := bench i f g
  isWord i && canIssue s i && actors s == [g fetchThread] && (sharedTrap s i (g fetchThread)).isSome && takesTraps i f g

/-! ## Witnesses: the scalar and vector instructions -/

theorem witness_integer_instructions :
    ([.add rf, .sub rf, .mul rf, .mulhi { rf with ty := .i64, d := .v 8, a := .v 4, b := .v 6 }, .mad rThree, .min rf,
      .max { rf with sat := false, ty := .n8 }, .abs rOne, .neg { rOne with sat := true }, .sad rThree,
      .addc { rf with ty := .n32, c := .pred false 0, qp := some 2 }, .addc { rf with ty := .n64, d := .v 8, a := .v 4, b := .v 6, c := .pred false 0 },
      .subb { rf with ty := .n32, c := .pred true 1, qp := some 6 }, .subb { rf with ty := .n32, c := .pred false 0 },
      .addi inf, .muli inf, .andi { inf with ty := .b32 }, .ori { inf with ty := .b32 }, .xori { inf with ty := .b32 },
      .shli { inf with imm := 31 }, .shri { inf with imm := 0 }, .sari { inf with ty := .i32, imm := 31 }, .movi { inf with a := .v 0 },
      .cmpi { inf with d := .v 0, qp := some 0, om := 5 }] : List Instr).all plain = true := by decide +kernel

theorem witness_logic_and_bit_fields :
    ([.and { rf with ty := .b32 }, .or { rf with ty := .b32 }, .xor { rf with ty := .b32 }, .not { rOne with ty := .b32 }, .shl rf,
      .shr { rf with ty := .n32 }, .sar rf, .rot { rf with ty := .b32 }, .popc { rOne with ty := .b32 }, .clz { rOne with ty := .b32 },
      .bfx rThree, .bfi { rThree with ty := .b32 }] : List Instr).all plain = true := by decide +kernel

theorem witness_selection_and_comparison :
    ([.sel { rf with ty := .b32, c := .pred false 3 }, .mov { rOne with ty := .b32 }, .lea { rf with ty := .b32, om := 3 },
      .lea { rf with ty := .b64, d := .v 8, a := .v 4, b := .v 6 }, .cmp { rPred with om := 4 }] : List Instr).all plain = true := by
  decide +kernel

/-- A floating instruction. -/
def ff : RForm := { rf with ty := .f32 }
/-- A packed one. -/
def fp : RForm := { rf with ty := .f16, om := 1 }

theorem witness_float_instructions :
    ([.fadd ff, .fsub ff, .fmul { ff with rm := .rtz }, .fma { ff with c := .v 6 }, .frcp { ff with b := .v 0 }, .frsq { ff with b := .v 0 },
      .fadd fp, .fsub fp, .fmul fp, .fma { fp with c := .v 6 }, .fmin fp, .fmax fp, .fmin ff, .fmax ff,
      .fcmp { ff with d := .v 0, qp := some 1, om := 7 }, .fclass { ff with b := .v 0 }, .frnd { ff with b := .v 0 },
      .fsgn { ff with om := 4, b := .v 0 }, .fsgn ff] : List Instr).all plain = true := by decide +kernel

/-- Bytes in place of those at offsets of a record. -/
def patched (ps : List (Nat × List Byte)) (r : List Byte) : List Byte :=
  ps.foldl (fun r p => r.take p.1 ++ p.2 ++ r.drop (p.1 + p.2.length)) r

/-- A kernel state whose launch record has bytes in place of others. -/
def record (ps : List (Nat × List Byte)) (k : Kern) : Kern :=
  { k with launches := mset k.launches 1 { fetchLaunch with rec_ := patched ps fetchRecord } }

/-- Format slot 0 holds TA8, slot 1 TA6. -/
def formats : Kern → Kern := record [(128, [1]), (136, [2])]

theorem witness_conversions :
    ([.cvt .i32 { rOne with ty := .n8 }, .cvt .f32 { rOne with ty := .i32 }, .cvt .ta8 { rOne with ty := .i32 },
      .cvt .n32 { rOne with ty := .f16 }, .cvt .f32 { rOne with ty := .bf16 }, .cvt .f32 { rOne with ty := .f32 },
      .cvt .ta6 { rOne with ty := .f32, om := 1 }, .cvt .i32 { rOne with ty := .ta8 }, .cvt .f32 { rOne with ty := .ta6, om := 1 }] :
      List Instr).all (fun i => alone i formats id) = true := by decide +kernel

theorem witness_predicates_and_lanes :
    ([.plog { rPred with ty := .i8, a := .pred false 0, b := .pred true 1, om := 1 }, .pset { rPred with ty := .b32, b := .v 0 },
      .pset { rOne with ty := .b32, d := .v 0, om := 1 }, .pset { rOne with ty := .b32, om := 2, a := .v 0 },
      .shfl { rf with ty := .b32, om := 3 }, .shfl { rf with ty := .b32, qp := some 1 },
      .bcast { rOne with ty := .b32, c := .pred false 0, qp := some 6 }, .bcast { rOne with ty := .b32, c := .pred false 7 },
      .vote { rPred with ty := .i8, a := .pred false 0, b := .v 0 }, .vote { rPred with ty := .i8, a := .pred false 0, b := .v 0, om := 1 },
      .vote { rPred with ty := .b32, b := .v 0, om := 2 }, .vote { rOne with ty := .b64, d := .v 8, a := .pred false 0, om := 3 },
      .lmask { rOne with ty := .b64, d := .v 8, a := .v 0, om := 3 }] : List Instr).all plain = true := by decide +kernel

/-- A divisor that is not zero. -/
def nonzero (x : RForm) : Bool :=
  let s := bench (.div x) id id
  (actors s).all fun u => srcInt s u x.ty x.b != 0

theorem witness_held_results :
    ([.div { rf with b := .imm 1, la := 15 }, .rem { rf with b := .imm 511 }, .fdiv { ff with la := 1 }, .fsqrt { ff with b := .v 0 },
      .gred { rOne with ty := .i32, om := 5 }, .gscan { rOne with ty := .f32, om := 4 }] : List Instr).all plain = true ∧
      nonzero { rf with b := .imm 1 } = true ∧ nonzero { rf with b := .imm 511 } = true := by decide +kernel

/-- The code line may be entered at slot 0 by an indirect transfer. -/
def enterable (k : Kern) : Kern :=
  modCore k 0 fun core => { core with lines := core.lines.map fun x => { x with bits := x.bits ^^^ BitVec.ofNat 512 (2 ^ 22 + 2 ^ 27) } }

/-- The target of an indirect branch by its pair, and what its check answers. -/
def checked (i : Instr) (f : Kern → Kern) (rs : List (Nat × W32)) (a : Opnd) : Option (Nat × Nat) :=
  let s := bench i f (holding rs)
  let t := holding rs fetchThread
  targetCause s.kern 0 fetchLaunch (readPair s.kern 0 t a) true

theorem witness_direct_branches :
    ([.bra bf, .call { bf with d := .v 8 }, .bra { bf with ldisp := 0xFFFFFFFF }, .call { bf with d := .v 8, ldisp := 0xFFFFFFFF }] :
      List Instr).all plain = true ∧ takesTraps (.bra bf) id id = true := by decide +kernel

theorem witness_indirect_targets :
    ([.jmpi { bf with a := .v 4 }, .ret { bf with a := .v 4 }, .calli { bf with d := .v 8, a := .v 4 }] : List Instr).all
      (fun i => alone i enterable id && alone i id id && takesTraps i id id) = true ∧
    checked (.jmpi { bf with a := .v 4 }) enterable [] (.v 4) = none ∧
    checked (.jmpi { bf with a := .v 4 }) id [] (.v 4) = some (0x02, 0) ∧
    checked (.jmpi { bf with a := .v 4 }) id [(4, 5)] (.v 4) = some (0x02, 0) ∧
    checked (.jmpi { bf with a := .v 4 }) id [(4, 8)] (.v 4) = some (0x02, 0) ∧
    checked (.jmpi { bf with a := .v 4 }) id [(5, 1)] (.v 4) = some (0x04, 2 ^ 32) ∧
    (seeLine (bench (.jmpi bf) enterable id).kern 0 fetchLaunch 0).isSome = true := by decide +kernel

/-- The record of a field kernel of eight cells in one brick, on a ring. -/
def ringRecord : List Byte :=
  patched [(5, [1]), (56, [1, 0]), (64, bytesOfNat 4 8), (68, bytesOfNat 4 1), (72, bytesOfNat 4 1), (76, [8, 0, 1, 0, 1, 0, 1, 0])]
    fetchRecord

/-- Its launch. -/
def ringLaunch : Launch := { fetchLaunch with rec_ := ringRecord, bricks := [(0, 0)] }

/-- Its region on core 0. -/
def ringRegion : XRegion :=
  { launch := 1, baseRow := 8, rows := 1, brick := 0, nc := 8, halo := [], virt := false, away := [], gone := [], unready := [],
    released := [] }

/-- A kernel state in which the thread's launch is the field. -/
def ring (k : Kern) : Kern :=
  { modCore k 0 (fun core => { core with xr := [ringRegion] }) with
    launches := mset k.launches 1 ringLaunch, fields := [(1, Field.start)] }

/-- The thread's cell is cell 0. -/
def cell (t : Thread) : Thread := { t with cell := some 0 }

/-- A context in a state. -/
def inState (x : CtxState) (k : Kern) : Kern := modCtx k 0 fun y => { y with state := x }

theorem witness_exit_ends_thread :
    plain (.exit bf) = true ∧ alone (.exit bf) (inState .preempting) (fun t => { t with pre := true }) = true ∧
    alone (.exit bf) ring cell = true ∧ (cellPlace (bench (.exit bf) ring cell).kern 0 (cell fetchThread)).isSome = true ∧
    cellPlace (bench (.exit bf) id id).kern 0 fetchThread = none := by decide +kernel

/-- A thread in trap state. -/
def trapped (t : Thread) : Thread := { t with tstate := true }

theorem witness_traps :
    ([.trap { sf with imm := 7 }, .brk { sf with imm := 65535 }, .div rf, .rem rf] : List Instr).all
      (fun i => plain i && takesTraps i id id) = true ∧
    srcInt (bench (.div rf) id id) fetchThread .i32 (.v 2) = 0 ∧
    (entryFree (bench .zeroWord id id) && actors (bench .zeroWord id id) == [fetchThread]) = true ∧
    ([.step sf, .stepR sf, .settle { sf with d := .v 8, a := .v 4, imm := 1 }] : List Instr).all (fun i => alone i ring fun t => cell (trapped t)) =
      true ∧
    ([.meet { sf with a := .peg 0 }, .peg { sf with a := .peg 0 }, .pegDef { sf with a := .peg 0 }, .bar sf, .bararr sf, .barwt sf,
      .trap sf, .brk sf] : List Instr).all (fun i => alone i id trapped) = true := by decide +kernel

/-- A thread that returns from a trap to a target with a PAIRT. -/
def returning (k1 : W32) (t : Thread) : Thread := { trapped t with regs := { t.regs with k := rset 0 t.regs.k 1 k1 } }

/-- The target that k0 and k1 name, its line fetched again and checked, and its PAIRT. -/
def returnCause (k1 : W32) : Option (Nat × Nat) × Nat :=
  let t := returning k1 fetchThread
  let target := (readK t 0).toNat % 2 ^ 30 * 2 ^ 6 + (readK t 1).toNat % 2 ^ 3
  let k := refetch (bench (.tret sf) id (returning k1)).kern 0 fetchLaunch (target / 64 * 64)
  (targetCause k 0 fetchLaunch target false, pairtOf k 0 fetchLaunch target)

theorem witness_trap_return :
    alone (.tret sf) id (returning 0) = true ∧ returnCause 0 = (none, 0) ∧
    (plain (.tret sf) && takesTraps (.tret sf) id id) = true ∧ alone (.tret sf) id (returning 5) = true ∧
    (returnCause 5).1 = some (0x02, 0) ∧ alone (.tret sf) id (returning 0x00100000) = true ∧ returnCause 0x00100000 = (none, 0) := by
  decide +kernel

theorem witness_system_instructions :
    ([.srd { sf with d := .v 3, sr := 0x030 }, .srd { sf with d := .v 4, sr := 0x060 }, .swr { sf with sr := 0x020, a := .v 1 }, .nop sf,
      .yield sf, .yield { sf with imm := 1 }] : List Instr).all plain = true := by decide +kernel

theorem witness_special_register_map :
    (let k := (bench (.nop sf) ring cell).kern
     let t := cell fetchThread
     (threadLaunch k 0 t).isSome && (blockOf k 0 t.block).isSome && (groupOf k 0 t).isSome && (cellPlace k 0 t).isSome &&
       inField k 0 t) = true := by decide +kernel

/-! ## Witnesses: cards, pegs, barriers, cells -/

/-- A graph whose first node is a prepared card. -/
def cardGraphState : Graph :=
  { ctx := 0, cardbase := 0, patchobj := 0, status := 0, triggers := [], running := false, failed := none, cardsOut := 0, runs := 0,
    nodes := [{ succ := [], card := true, rec_ := [], prepared := true, waiting := 0, done := false, admitted := false }] }
/-- It is stored under number 0. -/
def cards (k : Kern) : Kern := { k with graphs := [(0, cardGraphState)] }

theorem witness_job_cards :
    ([.postCore { sf with a := .v 1 }, .postNbr { sf with a := .v 1, imm := 7 }, .postBay { sf with a := .v 1 }] : List Instr).all
      (fun i => alone i cards id && plain i && takesTraps i id id) = true ∧
    (preparedNode (bench (.nop sf) cards id).kern 0 0).isSome = true ∧ preparedNode (bench (.nop sf) id id).kern 0 0 = none := by decide +kernel

/-- Peg 0 of the block changed. -/
def pegged (f : Peg → Peg) (k : Kern) : Kern := modBlock k 0 0 fun b => { b with pegs := lmod b.pegs 0 f }
/-- The first instruction of each kind on peg 0. -/
def onPeg : SForm := { sf with a := .peg 0 }

theorem witness_pegs :
    ([fun p => { p with owedMeet := [0], owedSign := [0] }, fun p => { p with episode := .signClosed }, id,
      fun p => { p with episode := .meetOpen }, fun p => { p with episode := .signOpen, arrived := [0] },
      fun p => { p with episode := .signOpen }, fun p => { p with first := 1 }] : List (Peg → Peg)).all
      (fun f => [Instr.meet onPeg, .peg onPeg, .pegDef onPeg, .pegDef { onPeg with imm := 1 }].all fun i =>
        alone i (pegged f) id && takesTraps i (pegged f) id) = true ∧
    ((blockOf (bench (.meet onPeg) id id).kern 0 0).map fun b =>
      ((pegOf b 0).first, (pegOf b 0).count, (pegOf b 0).episode, memberId b fetchThread, b.groups.length)) =
      some (0, 1, .none, 0, 1) := by decide +kernel

/-- Barrier 0 of the block with what it holds for the thread. -/
def barred (a : Option Arrival) (k : Kern) : Kern :=
  modBlock k 0 0 fun b => { b with bars := lmod b.bars 0 fun y => { y with arr := match a with | some a => [(0, a)] | none => [] } }

theorem witness_barriers :
    ([some .owed, some (.inGen 0), some (.byBar 0), none, some (.inGen 65535), some (.byBar 65535)] : List (Option Arrival)).all
      (fun a => [Instr.bararr sf, .barwt sf, .bar sf].all fun i => alone i (barred a) id) = true ∧
    ((blockOf (bench (.bar sf) (barred none) id).kern 0 0).map fun b => ((barOf b 0).gen, memberId b fetchThread)) = some (0, 0) := by
  decide +kernel

theorem witness_cell_faces :
    ([.fwr { rOne with ty := .b32, d := .face .me 15 }, .fwr { rOne with ty := .b64, d := .face .me 14, a := .v 4 },
      .nq { rPred with ty := .i8, a := .imm 2, b := .v 0 }, .nq { rOne with ty := .i8, om := 1, a := .imm 8 },
      .nq { rPred with ty := .i8, om := 2, a := .imm 1, b := .v 0 }] : List Instr).all (fun i => alone i ring cell) = true ∧
    Memory.wf (bench (.nop sf) ring cell).kern.mem = true ∧ true ∈ (List.replicate 16 true) ∧ true ∉ (cell fetchThread).marks := by
  decide +kernel

/-- The side table in object 2 names the program counter 0 as a safe point with an empty live mask. -/
def sideTable (k : Kern) : Kern :=
  [(8, 1), (12, 64), (16, 1), (20, 128), (69, 1)].foldl (fun k p => putBytes k (2 ^ 21 + p.1) [BitVec.ofNat 8 p.2]) (objects k)

/-- A field in a virtualised brick, with cells away, whose step numbers stand in their frames. -/
def virtualRing (away : List Nat) (sigma : Nat) (k : Kern) : Kern :=
  let l : Launch := { ringLaunch with rec_ := patched [(16, bytesOfNat 8 (2 * 2 ^ 40 + 8 * 2 ^ 36))] ringRecord }
  let r : XRegion := { ringRegion with virt := true, away := away }
  let k := sideTable (ring k)
  let k := { modCore k 0 (fun core => { core with xr := [r] }) with launches := mset k.launches 1 l }
  away.foldl (fun k b => putBytes k (frameAt 0 r l b + 8) (bytesOfNat 8 sigma)) k

/-- What a step finds in a virtualised brick: a safe point, the cell away that is furthest behind, and the step of the thread's
cell. -/
def foundVirtual (away : List Nat) (sigma : Nat) : Option (Option Nat × Option (Nat × Nat) × Nat) :=
  let k := (bench (.step sf) (virtualRing away sigma) cell).kern
  (cellPlace k 0 (cell fetchThread)).map fun p => ((safePoint k p.1 0).2.toOption.join, leastAway k 0 p.2.1 p.1, sigmaAt k (recordAt 0 p.2.1 p.2.2))

/-- What it finds once its own step is over: the cell furthest behind, whose safe point's mask can be read, and the step of the
thread's cell. -/
def endedVirtual (away : List Nat) (sigma : Nat) : Option (Option (Nat × Nat) × Bool × Nat) :=
  let s := bench (.step sf) (virtualRing away sigma) cell
  let t := cell fetchThread
  match cellPlace s.kern 0 t with
  | none => none
  | some p =>
    let k := publish (endStep (beforeBody s (.step sf) t) 1 0) 0 t p.1 p.2.1 p.2.2 false
    (cellPlace k 0 t).map fun q => (leastAway k 0 q.2.1 q.1, maskReadable k 0 q.2.1 q.1 1, sigmaAt k (recordAt 0 q.2.1 q.2.2))

/-- The instructions that end a step. -/
def steppers : List Instr := [.step sf, .stepR sf, .settle { sf with d := .v 8, a := .v 4, imm := 1 }]

theorem witness_steps :
    steppers.all (fun i => alone i ring cell && alone i (virtualRing [] 0) cell && alone i (virtualRing [1] 5) cell &&
      alone i (virtualRing [1] 0) cell) = true ∧
    foundVirtual [] 0 = some (some 0, none, 0) ∧ foundVirtual [1] 5 = some (some 0, some (1, 5), 0) ∧
    foundVirtual [1] 0 = some (some 0, some (1, 0), 0) := by decide +kernel

theorem witness_steps_in_exchange :
    endedVirtual [1] 5 = some (some (1, 5), true, 1) ∧ endedVirtual [1] 0 = some (some (1, 0), true, 1) := by decide +kernel

/-- A virtualised brick whose side table names another program counter. -/
def bareRing (k : Kern) : Kern := putBytes (virtualRing [] 0 k) (2 ^ 21 + 72) [8]

theorem witness_steps_outside_safe_points :
    steppers.all (fun i => alone i bareRing cell && takesTraps i bareRing cell) = true ∧
    ((cellPlace (bench (.step sf) bareRing cell).kern 0 (cell fetchThread)).map fun p =>
      (safePoint (bench (.step sf) bareRing cell).kern p.1 0).2.toOption) = some (some none) := by decide +kernel

/-- A cell in an open solve. -/
def solving (t : Thread) : Thread := { cell t with settle := { t.settle with opened := true, sopen := 5 } }

/-- The field one step on, with the truss of its first step complete. -/
def ringOn (k : Kern) : Kern :=
  { putBytes (ring k) (recordAt 0 ringRegion 0 + 144) [1] with
    fields := [(1, { Field.start with steps := [(0, { TrussStep.empty with complete := true })] })] }

theorem witness_residuals :
    ([.resid { ff with d := .v 0, b := .v 0 }, .resid { ff with d := .v 0, b := .v 0, om := 1 },
      .stest { rPred with ty := .i8, a := .v 0, b := .v 0 }] : List Instr).all
      (fun i => alone i ringOn solving && alone i ringOn cell && takesTraps i ringOn cell) = true ∧
    solveOpen (solving fetchThread) 1 = true ∧ solveOpen (cell fetchThread) 1 = false := by decide +kernel

/-! ## Witnesses: memory -/

/-- The words of the block at 64 to 95 bytes hold values. -/
def written (k : Kern) : Kern := modBlock k 0 0 fun b => { b with valid := (List.range 8).map (· + 16) }

/-- An access reaches the scratchpad or the exchange region, and its detectors find nothing. -/
def inPad (i : Instr) (x : MForm) (useIdx : Bool) (size need : Nat) (f : Kern → Kern) (g : Thread → Thread) (reads atomic : Bool) :
    Bool :=
  let k := (bench i f g).kern
  let t := g fetchThread
  match blockOf k 0 t.block, spotOf k 0 t x useIdx size size need with
  | some blk, .ok p =>
    p.space != .ob && (match physical k 0 blk p with | .ok a => poisonHits k [(a, size)] == [] && softHits k [(a, size)] == 0 | .error _ => false) &&
      (p.space != .sp || (wordsOf p.ea size).all fun w => (!reads || blk.valid.contains w) && (atomic || !stampConflict blk t.group w)) &&
      Memory.wf k.mem && (threadLaunch k 0 t).isSome
  | _, _ => false

/-- Words moved raw, in the scratchpad. -/
def mw : MForm := { mf with ty := .b32 }
/-- In an object. -/
def mow : MForm := { mo with ty := .b32 }
/-- The exchange region. -/
def mx_ : MForm := { mf with sp := .xr }
/-- An acquire at .dev. -/
def acquired : MForm := { mf with acq := true, sc := .dev, la := 4 }

theorem witness_pad_loads :
    ([mf, acquired, { mf with ty := .n64, d := .v 8 }, { mf with ty := .i8, disp := 65 }] : List MForm).all (fun x =>
      alone (.ld x) written id && inPad (.ld x) x true (memBytes x.ty) needRead written id true false) = true ∧
    alone (.ldx .x4 mw) written id = true ∧
    inPad (.ldx .x4 mw) mw true 16 needRead written id true false = true ∧
    alone (.ld mx_) ring cell = true ∧ inPad (.ld mx_) mx_ true 4 needRead ring cell true false = true := by decide +kernel

theorem witness_pad_stores :
    ([mf, { mf with ty := .n64 }, { mf with ty := .i8, disp := 65, rel := true }] : List MForm).all (fun x =>
      alone (.st x) id id && inPad (.st x) x true (memBytes x.ty) needWrite id id false false) = true ∧
    alone (.stx .x4 mw) id id = true ∧ inPad (.stx .x4 mw) mw true 16 needWrite id id false false = true ∧
    alone (.st mx_) ring cell = true ∧ inPad (.st mx_) mx_ true 4 needWrite ring cell false false = true := by decide +kernel

/-- An atomic's form. -/
def ma : MForm := { mf with idx := .v 6 }

theorem witness_pad_atomics :
    alone (.atom .add ma) written id = true ∧ inPad (.atom .add ma) ma false 4 needAtomic written id true true = true ∧
    alone (.red .add { ma with idx := .v 0 }) written id = true ∧
    inPad (.red .add ma) { ma with idx := .v 0 } true 4 needAtomic written id true true = true ∧
    alone (.cas ma) written id = true ∧ inPad (.cas ma) ma false 4 needAtomic written id true true = true := by decide +kernel

/-- The high words of capabilities for objects 2 and 3, with rights to read, write and operate. -/
def toHbm : Thread → Thread := holding [(5, 752)]
/-- The remote one. -/
def toFar : Thread → Thread := holding [(5, 1008)]

/-- An access to an object passes its checks, and its line is not poisoned. -/
def toObject (i : Instr) (x : MForm) (useIdx : Bool) (size need : Nat) (g : Thread → Thread) : Bool :=
  let s := bench i objects g
  let t := g fetchThread
  match blockOf s.kern 0 t.block, spotOf s.kern 0 t x useIdx size size need with
  | some _, .ok p =>
    p.space == .ob && (match objRuns s.kern 0 (capObj p.cap) p.ea size with
      | .ok rs => (issuePoison (beforeBody s i t) 0 t { spot := p, runs := rs } false).isNone &&
          (issuePoison (beforeBody s i t) 0 t { spot := p, runs := rs } true).isNone
      | .error _ => false)
  | _, _ => false

/-- A store to it gathers in the write-combining buffer. -/
def gathers (i : Instr) (x : MForm) (g : Thread → Thread) : Bool :=
  let s := bench i objects g
  match spotOf s.kern 0 (g fetchThread) x true 4 4 needWrite with
  | .ok p => remoteSpot s.kern 0 p && !x.rel
  | .error _ => false

theorem witness_object_requests :
    ([.ld mo, .ldx .x4 mow, .st mo, .stx .x4 mow, .atom .add { mo with idx := .v 6 }, .red .add mo, .cas { mo with idx := .v 6 }] : List Instr).all
      (fun i => alone i objects toHbm) = true ∧
    ([toHbm, toFar].all fun g => toObject (.ld mo) mo true 4 needRead g && toObject (.st mo) mo true 4 needWrite g &&
      toObject (.ldx .x4 mow) mow true 16 needRead g && toObject (.stx .x4 mow) mow true 16 needWrite g &&
      toObject (.atom .add mo) { mo with idx := .v 6 } false 4 needAtomic g && toObject (.red .add mo) mo true 4 needAtomic g &&
      toObject (.cas mo) { mo with idx := .v 6 } false 4 needAtomic g) = true ∧
    gathers (.st mo) mo toHbm = false ∧ gathers (.st mo) mo toFar = true ∧
    alone (.st mo) objects toFar = true := by decide +kernel

/-- The trap that an access finds in its location. -/
def refusal (i : Instr) (x : MForm) (useIdx : Bool) (need : Nat) (f : Kern → Kern) (g : Thread → Thread) : Option (Nat × Nat) :=
  match spotOf (bench i f g).kern 0 (g fetchThread) x useIdx (memBytes x.ty) (memBytes x.ty) need with
  | .error e => some e
  | .ok _ => none

/-- A word of the block was written by another group in this generation. -/
def stamped (k : Kern) : Kern :=
  modBlock (written k) 0 0 fun b => { b with stamps := [(16, { gs := 1, gen := b.bg })] }

theorem witness_access_traps :
    refusal (.ld mf) { mf with disp := 1536 } true needRead id id = some (0x04, 1536) ∧
    refusal (.ld mo) mo true needRead id id = some (0x05, 0) ∧
    ([.ld mf, .st mf, .ldx .x4 mw, .stx .x4 mw, .atom .add ma, .red .add mf, .cas ma] : List Instr).all
      (fun i => alone i id id && takesTraps i id id && alone i stamped id && takesTraps i stamped id) = true ∧
    ([.ld { mf with disp := 1536 }, .st mo, .atom .add { ma with sp := .ob, disp := 0 }] : List Instr).all
      (fun i => alone i id id && takesTraps i id id) = true ∧
    recValid fetchLaunch = 0 ∧ recRace fetchLaunch = 0 ∧
    ((blockOf (bench (.ld mf) id id).kern 0 0).map fun b => decide (16 ∈ b.valid)) = some false ∧
    ((blockOf (bench (.ld mf) stamped id).kern 0 0).map fun b => (decide (16 ∈ b.valid), stampConflict b 0 16)) = some (true, true) := by
  decide +kernel

/-- The operand form of FENCE, of an operation on a line and of one on valid bits. -/
def okFence : MForm := { mf with ty := .i8, d := .v 0, base := .v 0, sp := .sp, disp := 0, acq := true, rel := true, sc := .dev }
/-- On a line of an object. -/
def okLine : MForm := { mo with ty := .i8, d := .v 0 }
/-- On every line. -/
def okAll : MForm := { okLine with base := .v 0, sp := .sp }
/-- On valid bits. -/
def okValid : MForm := { mf with ty := .i8, d := .v 6 }

theorem witness_cache_control :
    alone (.fence okFence) id id = true ∧
    ([.lcinv okLine, .wcdrain okLine, .pref okLine] : List Instr).all (fun i => alone i objects toHbm) = true ∧
    ([.lcinvAll okAll, .wcdrainAll okAll] : List Instr).all (fun i => alone i id id) = true ∧
    (match spotOf (bench (.lcinv okLine) objects toHbm).kern 0 (toHbm fetchThread) okLine true 1 1 0 with
      | .ok p => decide (p.ea = 0 ∧ p.space = .ob) | .error _ => false) = true := by decide +kernel

/-- The range of an instruction on valid bits: its first byte, and its length. -/
def range_ (x : MForm) (n : W32) : Option (Nat × Nat) :=
  let s := bench (.validSet x) id (holding [(6, n)])
  match spotOf s.kern 0 (holding [(6, n)] fetchThread) x true 4 4 0 with
  | .ok p => some (p.ea, srcCount s (holding [(6, n)] fetchThread) x.d)
  | .error _ => none

theorem witness_valid_bits :
    ([0, 4, 1472, 2, 1476] : List W32).all (fun n =>
      [Instr.validSet okValid, .validClr okValid].all fun i => alone i id (holding [(6, n)]) && takesTraps i id (holding [(6, n)])) =
      true ∧
    ([0, 4, 1472, 2, 1476] : List W32).map (range_ okValid) = [some (64, 0), some (64, 4), some (64, 1472), some (64, 2), some (64, 1476)] ∧
    ([128, 64] : List (BitVec 24)).all (fun d => alone (.validGet { okValid with d := .v 8, disp := d }) id id &&
      takesTraps (.validGet { okValid with d := .v 8, disp := d }) id id) = true ∧
    ((blockOf (bench (.validGet okValid) id id).kern 0 0).map (·.sb)) = some 1536 := by decide +kernel

/-- A capability instruction. -/
def rc : RForm := { rf with ty := .i8, d := .v 8, a := .v 4, b := .v 6 }

theorem witness_capabilities :
    ([.capder rc, .capadd rc, .capq { rc with b := .v 0, om := 4 }] : List Instr).all (fun i => alone i objects toHbm) = true ∧
    ([.capder rc, .capadd rc] : List Instr).all (fun i => alone i objects id && takesTraps i objects id) = true ∧
    alone (.capadd rc) objects (holding [(5, 752), (6, 65537)]) = true ∧ takesTraps (.capadd rc) objects (holding [(5, 752), (6, 65537)]) = true ∧
    ([0, 65536, 65537, 0xFFFFFFFF] : List W32).map (fun n =>
        offsetOperand (bench (.capadd rc) objects (holding [(5, 752), (6, n)])) rc (holding [(5, 752), (6, n)] fetchThread)) =
      [0, 65536, 65537, -1] ∧
    (getObj (bench (.capadd rc) objects id).kern 0 2).map (·.size) = some 65536 ∧
    (getObj (bench (.capadd rc) objects id).kern 0 0).isSome = false := by decide +kernel

/-- The registers of D are distinct, a window holds them, and without one they are there at once. -/
theorem witness_delivered_results :
    getThread (bench (.ld mf) id id).kern 0 0 0 = some fetchThread ∧ ([Reg.v 3, .v 4] : List Reg).Nodup ∧
    (∀ r ∈ ([Reg.v 3, .v 4] : List Reg), ∀ n, r ≠ .s n) := by
  refine ⟨by decide +kernel, by decide, ?_⟩
  intro r h n; simp at h; rcases h with rfl | rfl <;> simp

/-! ## Witnesses: copies, timelines, jigs, beds, accumulators -/

/-- COPY from object 2. -/
def copyForm : MForm := { mo with ty := .i8, d := .v 3, idx := .v 8 }
/-- Registers of a copy of 64 bytes to offset 1024 of the scratchpad, with AUX and the source's high word. -/
def copying (aux high : W32) : Thread → Thread := holding [(5, high), (8, 1024), (10, 64), (11, aux)]
/-- A copy in flight that uses 32 ranges. -/
def fullBoard (k : Kern) : Kern :=
  let j : CopyJob :=
    { id := 50, num := 1, ctx := 0, block := 0, launch := 1, tslot := 1, lane := 0, src := 0, srcSpace := .ob, cap := 0, d0 := 0,
      d1 := 0, d2 := 0, d3 := 0, held := none, srcR := List.replicate 32 { space := .sp, block := 5, lo := 0, hi := 4 }, dstR := [],
      fail := none, pred := 0, pc := 0, orphan := false, silent := false, paid := 0, row := 0 }
  modCore (objects k) 0 fun core => { core with copies := [j] }
/-- What the check of a copy finds: the trap, or the status, the ranges and whether they fit. -/
def copyFound (f : Kern → Kern) (aux high : W32) : Option (Option W32 × Nat × Bool) ⊕ (Nat × Nat) :=
  let k := (bench (.copy copyForm) f (copying aux high)).kern
  let t := copying aux high fetchThread
  let d := fun i => readAt k 0 t copyForm.idx i
  match blockOf k 0 0 with
  | none => .inl none
  | some blk => match checkCopy k 0 t blk .ob (copyBase k 0 t copyForm) (descOf (d 0) (d 1) (d 2) (d 3)) with
    | .ok w => .inl (some (w.fail, w.dstR.length, copyRoom (coreOf k 0) (w.srcR.length + w.dstR.length) && !copyWaits (coreOf k 0) 0))
    | .error e => .inr e

/-- Registers of a copy of mode 3, whose predicate word is at offset 64 of the scratchpad. -/
def chaining : Thread → Thread := holding [(5, 752), (8, 1024), (10, 0x30000040), (11, 64)]
/-- That word is poisoned. -/
def badPredicate (k : Kern) : Kern := { objects k with poison := [(rowBase 0 (((blockOf k 0 0).map (·.baseRow)).getD 0) + 64, .plain)] }
/-- What such a copy finds, and its predicate word. -/
def chainFound (f : Kern → Kern) : Option (Option W32 × Bool × Option W32) :=
  let k := (bench (.copy copyForm) f chaining).kern
  let t := chaining fetchThread
  let d := fun i => readAt k 0 t copyForm.idx i
  let desc := descOf (d 0) (d 1) (d 2) (d 3)
  match blockOf k 0 0 with
  | none => none
  | some blk => match checkCopy k 0 t blk .ob (copyBase k 0 t copyForm) desc with
    | .ok w => some (w.fail, copyRoom (coreOf k 0) (w.srcR.length + w.dstR.length), (readPredicate k 0 t desc).2)
    | .error _ => none

theorem witness_copy_predicates :
    alone (.copy copyForm) objects chaining = true ∧ alone (.copy copyForm) badPredicate chaining = true ∧
    chainFound objects = some (none, true, some 0) ∧ chainFound badPredicate = some (none, true, none) ∧
    (readPredicate (bench (.copy copyForm) objects id).kern 0 fetchThread (descOf 1024 0 64 0)).2 = some 0 := by decide +kernel

theorem witness_copies :
    ([0, 1] : List W32).all (fun a => [752, 0].all fun h => alone (.copy copyForm) objects (copying a h) &&
      takesTraps (.copy copyForm) objects (copying a h)) = true ∧ alone (.copy copyForm) fullBoard (copying 0 752) = true ∧
    [copyFound objects 0 752, copyFound objects 1 752, copyFound fullBoard 0 752, copyFound objects 0 0] =
      [.inl (some (none, 1, true)), .inl (some (some 0x01000000, 0, true)), .inl (some (none, 1, false)), .inr (0x05, 0)] := by
  decide +kernel

/-- Timeline 0 of the launch is that of its copies. -/
def timed : Kern → Kern := record [(224, [1])]
/-- An instruction that reads a timeline, and one that waits for it. -/
def readsTl : SForm := { sf with d := .v 8, a := .tl 0 }
/-- The wait. -/
def waitsTl : SForm := { sf with d := .tl 0, a := .v 4, imm := 2 }

theorem witness_timelines :
    ([.tlrd readsTl, .tlrdIssued readsTl, .tlwait waitsTl] : List Instr).all (fun i => alone i timed id && alone i id id &&
      takesTraps i id id) = true ∧ alone (.tlwait waitsTl) timed (holding [(4, 5)]) = true ∧
    (boundTimeline (bench (.tlrd readsTl) timed id).kern 0 fetchThread 0).isSome = true ∧
    boundTimeline (bench (.tlrd readsTl) id id).kern 0 fetchThread 0 = none ∧
    ((boundTimeline (bench (.tlrd readsTl) timed id).kern 0 fetchThread 0).map fun l =>
      timelineValue (bench (.tlrd readsTl) timed id).kern 0 0 l 0) = some 0 := by decide +kernel

/-- COPYQ to a queue in object 2 with its image at the start of the scratchpad. -/
def queueForm : MForm := { mo with ty := .i8, rel := true, sc := .dev, d := .v 8, idx := .v 6 }
/-- The queue's header has byte 21 set. -/
def badQueue (k : Kern) : Kern := putBytes (objects k) (2 ^ 21 + 21) [1]
/-- The header of the queue is read without an error, as is its image; is the header bad? -/
def queueRead (f : Kern → Kern) : Option Bool :=
  let s := bench (.copyq queueForm) f toHbm
  let t := toHbm fetchThread
  let k := beforeBody s (.copyq queueForm) t
  match blockOf k 0 0, imageSpot s k t queueForm, spotOf s.kern 0 t queueForm false 64 64 (needWrite + needAtomic) with
  | some blk, .ok im, .ok q => match spotRuns k 0 blk q 64, spotRuns k 0 blk im 64 with
    | .ok hr, .ok ir => match readRuns k 0 (classOf k 0 t) hr, readRuns k 0 (classOf k 0 t) ir with
      | (k1, .ok hb), (k2, .ok _) => if k1 = k ∧ k2 = k then some (badHeader hb) else none
      | _, _ => none
    | _, _ => none
  | _, _, _ => none

/-- A queue of another device, and the image in the scratchpad. -/
def queueFar : Option Bool :=
  let s := bench (.copyq queueForm) objects toFar
  let t := toFar fetchThread
  let k := beforeBody s (.copyq queueForm) t
  match blockOf k 0 0, imageSpot s k t queueForm, spotOf s.kern 0 t queueForm false 64 64 (needWrite + needAtomic) with
  | some blk, .ok im, .ok q => match spotRuns k 0 blk q 64, spotRuns k 0 blk im 64 with
    | .ok _, .ok ir => match readRuns k 0 (classOf k 0 t) ir with
      | (k2, .ok _) => some (remoteSpot k 0 q && k2 == k)
      | _ => none
    | _, _ => none
  | _, _, _ => none

theorem witness_queued_copies_abroad : alone (.copyq queueForm) objects toFar = true ∧ queueFar = some true := by decide +kernel

theorem witness_queued_copies :
    alone (.copyq queueForm) objects toHbm = true ∧ queueRead objects = some false ∧
    (alone (.copyq queueForm) badQueue toHbm && takesTraps (.copyq queueForm) badQueue toHbm) = true ∧ queueRead badQueue = some true := by
  decide +kernel

theorem witness_algebra_instructions :
    ([.qmul { ff with d := .v 8, a := .v 4, b := .v 6, c := .fs 0, om := 1 }, .qconj { ff with d := .v 8, a := .v 4, b := .v 0, c := .fs 1 },
      .qnorm { ff with d := .v 8, a := .v 4, b := .v 0, c := .fs 0 }] : List Instr).all (fun i => alone i formats id) = true := by decide +kernel

/-- A jig's descriptor of one element in format slot 0. -/
def jigDesc : List Byte := patched [(24, [1]), (28, [1]), (32, [1]), (36, [1])] (List.replicate 64 0)
/-- An image of that jig with a flag. -/
def jigBytes (flag : Byte) : List Byte := patched [(56, [flag])] jigDesc
/-- Bytes at offset 64 of the scratchpad, in a launch whose format slot 0 holds TA8. -/
def atPlace (bs : List Byte) (k : Kern) : Kern :=
  let k := modBlock (record [(128, [1])] k) 0 0 fun b => { b with valid := List.range 64 }
  putBytes k (rowBase 0 (((blockOf k 0 0).map (·.baseRow)).getD 0) + 64) bs
/-- The instructions on a jig: the place of JIG is in A, those of the others in D. -/
def jigForm : XForm := { xf with d := .v 6, a := .v 4 }
/-- The others. -/
def jigPlace : XForm := { xf with d := .v 4 }
/-- The place and the base. -/
def placed (base : W32) : Thread → Thread := holding [(4, 64), (6, base)]
/-- What a read of the place finds, and whether the descriptor is valid and its map passes. -/
def jigFound (i : Instr) (bs : List Byte) (base : W32) : Option (List Byte × Bool × Option (Nat × Nat)) :=
  let s := bench i (atPlace bs) (placed base)
  let t := placed base fetchThread
  let k := beforeBody s i t
  match readPlace s k t 64 64, blockOf k 0 0, threadLaunch k 0 t with
  | (k', .ok d), some blk, some l =>
    if k' = k then some (d, descValid l (d.take 40 ++ List.replicate 24 0),
      match checkMap k 0 blk l d base.toNat with | .ok _ => none | .error e => some e) else none
  | _, _, _ => none

theorem witness_jigs :
    [(jigDesc, (0 : W32)), (List.replicate 64 0, 0), (jigDesc, 1600)].all (fun p =>
      alone (.jig jigForm) (atPlace p.1) (placed p.2) && takesTraps (.jig jigForm) (atPlace p.1) (placed p.2)) = true ∧
    [jigFound (.jig jigForm) jigDesc 0, jigFound (.jig jigForm) jigDesc 1600] =
      [some (jigDesc, true, none), some (jigDesc, true, some (0x04, 1600))] ∧
    ((jigFound (.jig jigForm) (List.replicate 64 0) 0).map fun x => x.2.1) = some false := by decide +kernel

theorem witness_jig_images :
    [0, 1, 2].all (fun f => alone (.jigLd jigPlace) (atPlace (jigBytes f)) (placed 0) &&
      takesTraps (.jigLd jigPlace) (atPlace (jigBytes f)) (placed 0)) = true ∧
    [0, 1, 2].map (fun f => (jigFound (.jigLd jigPlace) (jigBytes f) 0).map fun x => (fieldOf x.1 56 1, x.2)) =
      [some (0, true, none), some (1, true, none), some (2, true, none)] ∧
    alone (.jigSt jigPlace) (atPlace []) (placed 0) = true := by decide +kernel

theorem witness_place_writes :
    (let s := bench (.jigSt jigPlace) (atPlace []) (placed 0)
     (writePlace s (beforeBody s (.jigSt jigPlace) (placed 0 fetchThread)) (placed 0 fetchThread) 64 jigDesc).2) = .next ∧
    (let k := (bench (.jigSt jigPlace) (atPlace []) (placed 0)).kern
     Memory.wf k.mem && (match blockOf k 0 0 with
       | some blk => (match placeSpot k 0 blk 64 64 64 needWrite with | .ok p => p.space == .sp | .error _ => false)
       | none => false)) = true ∧ jigDesc.length = 64 := by decide +kernel

/-- A clear macro. -/
def emptyBed : Bed := { cells := [], exps := [], special := [], tag := .cleared, load := .idle }
/-- A block with four macros and two accumulators, and a jig for format slot 0. -/
def furnished (f : Block → Block) (k : Kern) : Kern :=
  modBlock (record [(128, [1])] (objects k)) 0 0 fun b => f { b with
    beds := List.replicate 4 emptyBed, accs := List.replicate 2 Acc.clear,
    jigs := b.jigs.map fun _ => { desc := jigDesc.take 40, base := 0, i2 := 0, i3 := 0, valid := true } }
/-- A block without macros and accumulators. -/
def stripped : Kern → Kern := furnished fun b => { b with beds := [], accs := [] }
/-- A load of one macro. -/
def bedForm : XForm := { xf with d := .v 4, a := .v 3 }
/-- What a bed load finds of its shape, its macros and its source. -/
def bedFound (grain : Bool) (f : Kern → Kern) (high : W32) : Option (Bool × Bool × Bool) :=
  let k := (bench (.bedld bedForm) f (holding [(5, high)])).kern
  match blockOf k 0 0, threadLaunch k 0 fetchThread with
  | some blk, some l =>
    let slot := recFs l 0
    some (shapeIllegal l slot 1, bedAllotted blk bedForm,
      match placeSpot k 0 blk (readPair k 0 (holding [(5, high)] fetchThread) (.v 4)) (if grain then 4 else streamBytes slot (shapeOf l slot 1))
        (if grain then 4 else elementBytes (fsFmt slot)) needRead with | .ok _ => true | .error _ => false)
  | _, _ => none

theorem witness_bed_instructions :
    ([.bedld bedForm, .bedldGrain bedForm, .bedldGrain { bedForm with a := .v 0 }] : List Instr).all (fun i =>
      alone i (furnished id) toHbm && takesTraps i id id && trapsFirst i id id && alone i stripped id && takesTraps i stripped id &&
      alone i (furnished id) id && takesTraps i (furnished id) id) = true ∧
    bedFound false (furnished id) 752 = some (false, true, true) ∧ bedFound true (furnished id) 752 = some (false, true, true) ∧
    bedFound false id 0 = some (true, true, false) ∧ bedFound false stripped 0 = some (false, false, false) ∧
    alone (.bedclr xf) (furnished id) id = true ∧ (alone (.bedclr xf) stripped id && takesTraps (.bedclr xf) stripped id) = true := by decide +kernel

/-- An image of an accumulator in object 2 with its byte of flags set to a value: its line 512 is line 585 of the frame (R365). -/
def imaged (flags : Byte) (k : Kern) : Kern := putBytes (furnished id k) (2 ^ 21 + 37442) [flags]
/-- The instructions on accumulators that move an image. -/
def accPlace : XForm := { xf with d := .v 4 }
/-- The image as it is read: its byte of flags, and whether the rest of its last line is zero. -/
def imageFound (flags : Byte) : Option (Byte × Bool) :=
  let s := bench (.accld accPlace) (imaged flags) toHbm
  let t := toHbm fetchThread
  let k := beforeBody s (.accld accPlace) t
  match readPlace s k t (readPair k 0 t (.v 4)) 32832 with
  | (k', .ok b) => (match b.drop 32770 with | x :: xs => if k' = k then some (x, xs == List.replicate 61 0) else none | [] => none)
  | _ => none

theorem witness_accumulator_instructions :
    ([.accz xf, .accst accPlace, .accstNow accPlace, .accmov .x4 { xf with d := .v 8, a := .v 1 }, .accver { xf with d := .v 3 },
      .accverNow { xf with d := .v 3 }] : List Instr).all (fun i => alone i (furnished id) toHbm && alone i stripped id &&
      takesTraps i stripped id) = true ∧
    [0, 31, 32].all (fun f => alone (.accld accPlace) (imaged f) toHbm && takesTraps (.accld accPlace) (imaged f) toHbm) = true ∧
    ((blockOf (bench (.accz xf) (furnished id) id).kern 0 0).map fun b => accAllotted b xf) = some true ∧
    ((blockOf (bench (.accz xf) stripped id).kern 0 0).map fun b => accAllotted b xf) = some false := by decide +kernel

theorem witness_accumulator_images : [31, 32].map imageFound = [some (31, true), some (32, true)] := by decide +kernel

theorem witness_accumulator_columns :
    (let i : Instr := .accmov .x4 { xf with d := .v 8, a := .v 1 }
     alone i (furnished id) (holding [(1, 124)]) && alone i (furnished id) (holding [(1, 125)]) &&
       takesTraps i (furnished id) (holding [(1, 125)])) = true := by decide +kernel

/-- A place that may be opened takes any bytes of that length. -/
theorem writePlace_opened {s : State} {k : Kern} {t : Thread} {place : Nat} {bs : List Byte} {k' : Kern} {x : Access}
    (h : openPlace s k t place bs.length 64 needWrite { reads := false, writes := true, atomic := false } = (k', .ok x)) :
    (writePlace s k t place bs).2 = .next := by
  simp only [writePlace, h]

/-- The image of an accumulator has 32,832 bytes. -/
theorem length_accImage (a : Acc) : (accImage a).length = 32832 := by
  simp [accImage, List.length_flatMap, bytesOfNat]

theorem witness_accumulator_store :
    (let s := bench (.accst accPlace) (furnished id) toHbm
     (writePlace s (beforeBody s (.accst accPlace) (toHbm fetchThread)) (toHbm fetchThread) (readPair s.kern 0 (toHbm fetchThread) (.v 4))
       (accImage Acc.clear)).2) = .next := by
  have h : (openPlace (bench (.accst accPlace) (furnished id) toHbm)
      (beforeBody (bench (.accst accPlace) (furnished id) toHbm) (.accst accPlace) (toHbm fetchThread)) (toHbm fetchThread)
      (readPair (bench (.accst accPlace) (furnished id) toHbm).kern 0 (toHbm fetchThread) (.v 4)) 32832 64 needWrite
      { reads := false, writes := true, atomic := false }).2.isOk = true := by decide +kernel
  rcases e : openPlace _ _ _ _ _ _ _ _ with ⟨k', x | x⟩
  · rw [e] at h; simp [Except.isOk, Except.toBool] at h
  · exact writePlace_opened (by rw [length_accImage]; exact e)

/-- What MX finds that traps it. -/
def mxFound (f : Kern → Kern) : Option (Option (Nat × Nat)) :=
  let k := (bench (.mx xf) f id).kern
  match blockOf k 0 0, threadLaunch k 0 fetchThread with | some blk, some l => some (mxTrap blk l xf) | _, _ => none
/-- MX with a peg. -/
def mxPeg : XForm := { xf with pge := true }
/-- A peg in an episode, with a pass for the thread. -/
def passing (e : Episode) (v : BitVec 16) (last : Option Nat) (b : Block) : Block :=
  { b with pegs := lmod b.pegs 0 fun p => { p with episode := e, pass := [0], lastMx := last }
           accs := b.accs.map fun a => { a with version := v } }
/-- An MX in the queue. -/
def running (b : Kern → Kern) (k : Kern) : Kern :=
  modCore (b k) 0 fun core => { core with mxq := [{ id := 9, ctx := 0, block := 0, x := { xf with acc := 1 }, set := false, i2 := 0, i3 := 0, tslot := 0, lane := 0, pc := 0, paid := 0 }] }
/-- Whether the thread may pass, and what it is then held at. -/
def passFound (f : Kern → Kern) : Bool × Bool :=
  let k := markIssued (bench (.mx mxPeg) f id).kern 0 0
  (mayPass k 0 fetchThread mxPeg 0, (passMx k 0 fetchThread mxPeg false 0).2.isSome)

theorem witness_matrix_launches :
    ([.mx xf, .mxSet xf] : List Instr).all (fun i => alone i (furnished id) id && alone i id id && takesTraps i id id) = true ∧
    mxFound (furnished id) = some none ∧ mxFound id = some (some (0x01, 0)) ∧
    [furnished (passing .signClosed 0 none), furnished (passing .signClosed 1 none), furnished (passing .signOpen 0 none),
      running (furnished (passing .none 0 (some 9))), furnished id].all (fun f => alone (.mx mxPeg) f id) = true ∧
    [furnished (passing .signClosed 0 none), furnished (passing .signClosed 1 none), furnished (passing .signOpen 0 none),
      running (furnished (passing .none 0 (some 9)))].map passFound = [(true, true), (false, true), (true, false), (true, true)] ∧
    (passFound (furnished id)).1 = false := by
  decide +kernel

/-! ## Witnesses: waits, registers, lines, the sampler -/

/-- EVWAIT. -/
def waitsEv (imm : BitVec 16) (a : Opnd) : SForm := { sf with d := .v 3, a := a, sr := 0x031, imm := imm }

theorem witness_event_waits :
    [waitsEv 1 (.v 0), waitsEv 4 (.v 1), waitsEv 4 (.v 0)].all (fun x => plain (.evwait x)) = true ∧
    ratioEvents (bench (.evwait (waitsEv 1 (.v 0))) id id) 0 fetchThread = 1 ∧
    srcCount (bench (.evwait (waitsEv 4 (.v 1))) id id) fetchThread (.v 1) = 0 := by decide +kernel

/-- Another thread of the group, pending. -/
def split (k : Kern) : Kern :=
  modCore k 0 fun core => { core with threads := core.threads ++ [{ fetchThread with lane := 1, glane := 1, loc := .pending 3 }] }
/-- The thread alone stands in its entry, beside pending ones; it executes. -/
def splitAlone (i : Instr) : Bool := encodingLegal i && ExecutesAlone (bench i split id) i fetchThread
/-- GROW. -/
def grows (imm : BitVec 16) : SForm := { sf with d := .pred false 1, imm := imm }
/-- SHRINK. -/
def shrinks (imm : BitVec 16) : SForm := { sf with imm := imm }
/-- The group has 32 registers. -/
def small (k : Kern) : Kern := modBlock k 0 0 fun b => { b with groups := b.groups.map fun x => { x with regs := 32 } }
/-- And no slice is free. -/
def noSlices (k : Kern) : Kern := modCore (small k) 0 fun core => { core with slices := 0 }
/-- The registers of the thread, whether its group is split, whether GROW waits, and what it needs and finds of slices. -/
def growthFound (f : Kern → Kern) (n : Nat) : Nat × Bool × Bool × Bool :=
  let k := (bench (.grow (grows 8)) f id).kern
  (regsOf k 0 fetchThread, splitScalar (coreOf k 0) 0 fetchThread, growWaits (coreOf k 0),
    decide (growNeed (coreOf k 0) 0 0 n ≤ (coreOf k 0).slices))

theorem witness_register_growth :
    ([.grow (grows 8), .grow (grows 240), .shrink (shrinks 0), .shrink (shrinks 8), .shrink (shrinks 4)] : List Instr).all plain = true ∧
    alone (.grow (grows 8)) small id = true ∧ alone (.grow (grows 216)) small id = true ∧ alone (.grow (grows 8)) noSlices id = true ∧
    takesTraps (.shrink (shrinks 4)) id id = true ∧
    ([.grow (grows 8), .shrink (shrinks 8)] : List Instr).all (fun i => splitAlone i && takesTraps i split id) = true ∧
    growthFound id 8 = (248, false, false, true) ∧ growthFound small 216 = (32, false, false, true) ∧
    growthFound noSlices 8 = (32, false, false, false) := by decide +kernel

theorem witness_instruction_lines :
    ([.ilinv { sf with a := .v 4 }, .ilinvAll sf] : List Instr).all plain = true ∧
    (threadLaunch (bench (.ilinvAll sf) id id).kern 0 fetchThread).isSome = true := by decide +kernel

/-- The sampler of core 0 runs for a context. -/
def sampling (ctx : Nat) (k : Kern) : Kern :=
  modCore (objects k) 0 fun core => { core with sampler := { core.sampler with running := true, ctx := ctx, buf := BitVec.ofNat 64 (752 * 2 ^ 32), e := 8 } }
/-- SAMPLE.on. -/
def samplesOn : SForm := { sf with a := .v 4, imm := 8 }
/-- What SAMPLE.on finds of its buffer: the trap, or whether the header is sound. -/
def bufferFound (f : Kern → Kern) (g : Thread → Thread) : Option Bool ⊕ (Nat × Nat) :=
  let s := bench (.sampleOn samplesOn) f g
  let k := beforeBody s (.sampleOn samplesOn) (g fetchThread)
  let cap := readPair s.kern 0 (g fetchThread) (.v 4)
  match checkObj k 0 cap (capOff cap) 64 64 needWrite with
  | .error e => .inr e
  | .ok ea => match objRuns k 0 (capObj cap) ea 64 with
    | .ok rs => (match readRuns k 0 (classOf k 0 (g fetchThread)) rs with
      | (k', .ok h) => .inl (if k' = k then some (goodBuffer h) else none)
      | _ => .inl none)
    | .error _ => .inl none
/-- The buffer's header has a reserved bit set. -/
def badBuffer (k : Kern) : Kern := putBytes (objects k) (2 ^ 21 + 12) [1]

theorem witness_sampling :
    [objects, sampling 0, sampling 1, badBuffer].all (fun f => alone (.sampleOn samplesOn) f toHbm && takesTraps (.sampleOn samplesOn) f toHbm) =
      true ∧ (alone (.sampleOn samplesOn) objects id && takesTraps (.sampleOn samplesOn) objects id) = true ∧
    bufferFound objects toHbm = .inl (some true) ∧ bufferFound (sampling 0) toHbm = .inl (some true) ∧
    bufferFound badBuffer toHbm = .inl (some false) ∧ bufferFound objects id = .inr (0x05, 0) ∧
    [sampling 0, sampling 1].all (fun f => alone (.sampleOff sf) f id) = true := by decide +kernel

/-! ## Witnesses: events of a core -/

/-- The state with its thread at a NOP, with changes. -/
def site (f : Kern → Kern) (g : Thread → Thread) : State := bench (.nop sf) f g
/-- The code object's frame is not placed. -/
def unplaced (k : Kern) : Kern := { k with extents := [] }

theorem witness_line_fetches :
    ((mget (coreOf (site id id).kern 0).entries 0).map (·.launch)) = some 1 ∧ lineInside (site id id).kern fetchLaunch 0 = true ∧
    (readLine (site id id).kern fetchLaunch 0).isSome = true ∧ readLine (site unplaced id).kern fetchLaunch 0 = none ∧
    (match objRuns (site unplaced id).kern 0 1 (codeOffset fetchLaunch 0) 64 with | .ok _ => false | .error _ => true) = true := by
  decide +kernel

/-- A result on its way to v3, with a window. -/
def onItsWay (window : Nat) : Held := { id := 40, regs := [.v 3], named := [.v 3], old := [], vals := [7], flags := 0, arrived := false, window := window }
/-- A thread that holds it. -/
def awaiting (window : Nat) (t : Thread) : Thread := { t with held := [onItsWay window] }

theorem witness_result_arrivals :
    [0, 2].all (fun n => getThread (site id (awaiting n)).kern 0 0 0 == some (awaiting n fetchThread) &&
      selfArrives (coreOf (site id (awaiting n)).kern 0) (onItsWay n)) = true ∧ (onItsWay 0).regs.Nodup := by decide +kernel

/-- A kernel state without a block on core 0. -/
def emptied (k : Kern) : Kern := modCore k 0 fun core => { core with threads := [], blocks := [], xr := [] }
/-- The thread has exited. -/
def gone (t : Thread) : Thread := { t with loc := .exited }
/-- The sampler's buffer is in an object that may not be written. -/
def lostBuffer (k : Kern) : Kern :=
  modCore (sampling 0 k) 0 fun core => { core with sampler := { core.sampler with buf := 0 } }
/-- The entry that the sampler comes to, and whether its record can be written. -/
def sampleFound (f : Kern → Kern) : Option (Nat × Bool) :=
  let s := site (fun k => modCore (f k) 0 fun core => { core with cycle := 256 }) id
  let sm := (coreOf s.kern 0).sampler
  (nextSampled s.kern 0 { sm with lastCycle := sm.lastCycle + 2 ^ sm.e }).map fun p =>
    (p.1, sm.running && decide (sm.lastCycle + 2 ^ sm.e ≤ (coreOf s.kern 0).cycle) &&
      (writeSample s.kern sm.ctx sm.buf.toNat (sampleRecord s 0 p.1 p.2)).isSome)

theorem witness_core_housekeeping :
    (getObj (site objects id).kern 0 2).isSome = true ∧ (coreOf (site emptied id).kern 0).blocks = [] ∧
    (coreOf (site emptied id).kern 0).xr = [] ∧ (coreOf (site id id).kern 0).blocks ≠ [] ∧
    ((blockOf (site id gone).kern 0 0).bind fun b => b.groups[0]?.map fun x => x.cols.count 0) = some 1 ∧
    (coreOf (site id gone).kern 0).threads.all (fun t => t.loc == .exited) = true ∧
    sampleFound (sampling 0) = some (0, true) ∧ sampleFound lostBuffer = some (0, false) := by decide +kernel

/-! ## Witnesses: waits that end, queues of threads -/

/-- A thread that waits. -/
def waiting (w : Wait) (t : Thread) : Thread := { t with wait := w }
/-- It is pending, for a turn since cycle 0. -/
def pending (t : Thread) : Thread := { t with loc := .pending 3 }
/-- It is in the list of pending units. -/
def listed (k : Kern) : Kern := modCore k 0 fun core => { core with pendSince := [(3, 0)] }
/-- A thread waits in its place, and can take a trap. -/
def handles (f : Kern → Kern) (g : Thread → Thread) : Bool :=
  let k := (site f g).kern
  let t := g fetchThread
  getThread k 0 0 0 == some t && (threadLaunch k 0 t).bind recHandler == some 64 && !t.tstate && !awaitsHeld k 0 t
/-- The entry sleeps until a cycle. -/
def asleep (k : Kern) : Kern :=
  modCore k 0 fun core => { core with entries := core.entries.map fun p => (p.1, { p.2 with sleep := some 0 }) }

theorem witness_ends_of_waits :
    getThread (site id (waiting (.evwait 1 none 0 [.v 3]))).kern 0 0 0 = some (waiting (.evwait 1 none 0 [.v 3]) fetchThread) ∧
    evWakes (site id (waiting (.evwait 1 none 0 [.v 3]))) 0 (waiting (.evwait 1 none 0 [.v 3]) fetchThread) = true ∧
    getThread (site timed (waiting (.tlwait 0 0 .dev))).kern 0 0 0 = some (waiting (.tlwait 0 0 .dev) fetchThread) ∧
    (threadLaunch (site timed (waiting (.tlwait 0 0 .dev))).kern 0 fetchThread).isSome = true ∧
    (blockOf (site (barred none) (waiting (.barArrive 0))).kern 0 0).isSome = true ∧
    ((blockOf (site (barred none) (waiting (.barArrive 0))).kern 0 0).map fun b =>
      arrivedIn (barOf b 0).gen (mget (barOf b 0).arr (memberId b fetchThread))) = some false ∧
    handles id (waiting (.trapping 0x0B 0 0 64 false)) = true ∧
    getThread (site listed fun t => pending (waiting (.yielding 0) t)).kern 0 0 0 = some (pending (waiting (.yielding 0) fetchThread)) ∧
    ((mget (coreOf (site asleep (waiting (.yielding 0))).kern 0).entries 0).map (·.sleep)) = some (some 0) ∧
    [fun t => { t with asyncBudget := true }, fun t => { t with asyncPreempt := true },
      fun t => { t with asyncBudget := true, asyncPreempt := true }].all (fun g => handles id g) = true ∧
    (getCtx (site id id).kern 0).state = .running ∧ unsettled (coreOf (site id id).kern 0) fetchThread = false := by decide +kernel

/-- The thread waits for room for its copy. -/
def copyWaiting : Thread → Thread := fun t => waiting (.copy copyForm (752 * 2 ^ 32) (BitVec.ofNat 64 (752 * 2 ^ 32)) 1024 0 64 0) t
/-- Every entry of the table is in use. -/
def fullTable (k : Kern) : Kern :=
  modCore (listed k) 0 fun core => { core with
    entries := (List.range 256).map fun i => (i, { launch := 1, pc := 0, opened := false, age := 0, sleep := none, idleSince := 0, issued := 0, filled := [] }), cycle := 64 }

theorem witness_queues_of_threads :
    ((copyWaiters (coreOf (site objects copyWaiting).kern 0)).head?) = some (copyWaiting fetchThread) ∧
    ((blockOf (site objects copyWaiting).kern 0 0).map fun b =>
      match checkCopy (site objects copyWaiting).kern 0 (copyWaiting fetchThread) b .ob (752 * 2 ^ 32) (descOf 1024 0 64 0) with
      | .ok w => copyRoom (coreOf (site objects copyWaiting).kern 0) (w.srcR.length + w.dstR.length)
      | .error _ => false) = some true ∧
    (let core := coreOf (site id (waiting (.grow 8 (.pred false 1) 5))).kern 0
     minBy (fun n => n) (core.threads.filterMap growSeq) = some 5 ∧
       core.threads.filter (fun t => growSeq t == some 5) = [waiting (.grow 8 (.pred false 1) 5) fetchThread] ∧
       growDeadlock core = true ∧ youngestBlock core = some 0) ∧
    (let k := returnColumns (site id (waiting (.grow 8 (.pred false 1) 5))).kern 0 0 0 fun _ => true
     growNeed (coreOf k 0) 0 0 8 ≤ (coreOf k 0).slices) ∧
    readyUnits (coreOf (tidyPending (site listed pending).kern 0) 0) = [3] ∧
    (freeEntry (coreOf (site listed pending).kern 0)).isSome = true ∧
    readyUnits (coreOf (tidyPending (site fullTable pending).kern 0) 0) = [3] ∧ freeEntry (coreOf (site fullTable pending).kern 0) = none ∧
    (mget (coreOf (tidyPending (site fullTable pending).kern 0) 0).pendSince 3).getD 64 + 64 ≤ (coreOf (site fullTable pending).kern 0).cycle ∧
    (coreOf (site fullTable pending).kern 0).entries.length = 256 := by decide +kernel

/-- A list that is not empty has a least element. -/
theorem isSome_minBy {α : Type} (f : α → Nat) : ∀ l : List α, l ≠ [] → (minBy f l).isSome = true
  | [], h => absurd rfl h
  | a :: l, _ => by
    simp only [minBy]
    split
    · rfl
    · split <;> rfl

/-- A core with an entry has a victim. -/
theorem isSome_victim (s : State) (c : Nat) (h : (coreOf s.kern c).entries ≠ []) : (victim s c).isSome = true := by
  have w := isSome_minBy (fun p : Nat × Entry => (coreOf s.kern c).entries.foldl (fun n p => max n p.2.issued) 0 - p.2.issued) _ h
  simp only [victim]
  split
  · rfl
  · simpa using w

/-! ## Witnesses: episodes, barriers, matrix events -/

/-- A kernel state in which the thread has arrived at peg 0 in an episode. -/
def arrived (e : Episode) : Kern → Kern := pegged fun p => { p with episode := e, arrived := [0] }
/-- What the peg and its members are. -/
def episodeFound (e : Episode) : Option (Episode × Bool) :=
  let k := (site (arrived e) id).kern
  (blockOf k 0 0).map fun b => ((pegOf b 0).episode,
    (coreOf k 0).threads.all fun t => parkedLike t || (pegOf b 0).arrived.contains (memberId b t))

theorem witness_episodes_close :
    episodeFound .meetOpen = some (.meetOpen, true) ∧ episodeFound .signOpen = some (.signOpen, true) := by decide +kernel

theorem witness_barriers_open :
    (let k := (site (barred (some (.inGen 0))) (waiting (.bar 0 0))).kern
     (blockOf k 0 0).map fun b => (decide (0 < b.bars.length), (coreOf k 0).threads.all fun t => t.block == 0 &&
       arrivedIn (barOf b 0).gen (mget (barOf b 0).arr (memberId b t)))) = some (true, true) ∧
    (let k := (site (barred (some (.inGen 0))) (waiting (.released 0))).kern
     (blockOf k 0 0).map fun b => (decide (0 < b.bars.length),
       (waveGroups ((blockThreads (coreOf k 0) 0).filter fun t => t.wait == .released 0) b.groups.length (barOf b 0).next
         (coreBay (site id id) 0).slope).length)) = some (true, 1) := by decide +kernel

/-- A thread at a pegged MX. -/
def atMx : Thread → Thread := waiting (.mx mxPeg false 0)
/-- What it finds. -/
def mxWaits (f : Kern → Kern) : Option (Option (Nat × Nat) × Bool × Bool) :=
  let k := (site f atMx).kern
  let t := atMx fetchThread
  if getThread k 0 0 0 = some t then
    match blockOf k 0 0, threadLaunch k 0 t with
    | some b, some l => some (mxTrap b l mxPeg, mayPass k 0 t mxPeg 0, (passMx k 0 t mxPeg false t.pc).2.isSome)
    | _, _ => none
  else none
/-- A launched MX whose jig feeds from a place, with its thread held. -/
def feeding (base : W64) (k : Kern) : Kern :=
  running (furnished fun b => { b with jigs := b.jigs.map fun j => { j with base := base } }) k
/-- The same, where the object is not placed. -/
def feedingUnplaced (k : Kern) : Kern := { feeding (BitVec.ofNat 64 (752 * 2 ^ 32)) k with extents := [] }
/-- How its feed ends: done, waiting, or with a trap for the thread that is held. -/
def feedFound (f : Kern → Kern) : Option (Option (Nat × Nat × Nat)) :=
  let k := (site f (waiting (.mxHeld 9))).kern
  match (coreOf k 0).mxq with
  | m :: _ =>
    if feedReady k 0 m then
      match feedMx k 0 m with
      | (k', .ok _) => if ((blockOf k' 0 0).map fun b => decide (m.x.acc.val < b.accs.length)) = some true then some none else none
      | (_, .error (.wait a n)) => some (some (0, a, n))
      | (k', .error (.trap c n a)) =>
        let t := waiting (.mxHeld 9) fetchThread
        if c < 256 ∧ n < 16 ∧ heldAt (coreOf k' 0) m.id = [t] ∧ getThread k' 0 0 0 = some t ∧
          (threadLaunch k' 0 t).bind recHandler = some 64 ∧ awaitsHeld k' 0 t = false then some (some (c, n, a)) else none
    else none
  | [] => none
/-- A bed load from object 2 that is in the queue. -/
def loading (k : Kern) : Kern :=
  modCore (furnished id k) 0 fun core => { core with
    bedJobs := [{ id := 9, ctx := 0, block := 0, bdb := 0, bdn := 0, fsi := 0, grain := false, src := BitVec.ofNat 64 (752 * 2 ^ 32), tslot := 0, lane := 0, held := none, pc := 0, paid := 0 }] }

theorem witness_matrix_events :
    [furnished (passing .signClosed 0 none), running (furnished (passing .none 0 (some 9))), furnished (passing .signOpen 0 none)].map mxWaits =
      [some (none, true, true), some (none, true, true), some (none, true, false)] ∧
    feedFound (feeding (5 * 2 ^ 40)) = some (some (0x05, 0, 5 * 2 ^ 40)) ∧ feedFound (feeding (BitVec.ofNat 64 (752 * 2 ^ 32))) = some none ∧
    feedFound feedingUnplaced = some (some (0, 752 * 2 ^ 32, 1)) ∧
    (let k := (site loading id).kern
     match (coreOf k 0).bedJobs, blockOf k 0 0, threadLaunch k 0 fetchThread with
     | j :: _, some b, some l =>
       bedReadyToRun (coreOf k 0) j && (match plainStream k 0 (recClass l) b j (streamBytes (recFs l 0) (shapeOf l (recFs l 0) 1))
         (elementBytes (fsFmt (recFs l 0))) with | (_, .ok _) => true | _ => false)
     | _, _, _ => false) = true := by decide +kernel

/-- The bucket of context 0 holds so many tokens. -/
def bucketed (n : Nat) (k : Kern) : Kern := modCore k 0 fun core => { core with buckets := [(0, { tokens := n, owed := 0, active := true })] }
/-- Whether a launched MX can pay for its feed. -/
def feedPaid (n : Nat) : Option Bool :=
  let k := bucketed n (site (feeding (BitVec.ofNat 64 (752 * 2 ^ 32))) (waiting (.mxHeld 9))).kern
  match (coreOf k 0).mxq with
  | m :: _ => some (payFeed k 0 m).2
  | [] => none
/-- What a bed load spends. -/
def bedSpent : Option Nat :=
  let k := { (site loading id).kern with spent := 0 }
  match (coreOf k 0).bedJobs, blockOf k 0 0, threadLaunch k 0 fetchThread with
  | j :: _, some b, some l =>
    some (plainStream k 0 (recClass l) b j (streamBytes (recFs l 0) (shapeOf l (recFs l 0) 1)) (elementBytes (fsFmt (recFs l 0)))).1.spent
  | _, _, _ => none

theorem witness_matrix_payments : [0, 64].map feedPaid = [some false, some true] ∧ (bedSpent.map fun n => decide (0 < n)) = some true := by
  decide +kernel

/-! ## Witnesses: accesses and services -/

/-- A request on object 2. -/
def request (kind : ReqKind) (remote : Option Nat) (held : Option Nat) : Req :=
  { id := 41, tslot := 0, lane := 0, ctx := 0, kind := kind, ty := .n32, acq := false, rel := false, sc := .grp, na := false,
    cap := BitVec.ofNat 64 (752 * 2 ^ 32), ea := 0, size := 4, data := 7, cmp := 0, held := held, pc := 0, remote := remote, sent := true,
    block := 0, after := 0, cell := none, serial := 1, firm := true, paid := false }
/-- A kernel state in which it is outstanding, with tokens in the bucket. -/
def outstanding (q : Req) (k : Kern) : Kern :=
  modCore (objects k) 0 fun core => { core with reqs := [q], buckets := [(0, { tokens := 1, owed := 0, active := true })] }
/-- The line cache holds its line. -/
def holdingLine (k : Kern) : Kern := modCore k 0 fun core => { core with lcache := [{ ctx := 0, obj := 2, line := 0, way := 0, bits := 5 }] }
/-- The thread holds the result of its request. -/
def expecting (t : Thread) : Thread := { t with held := [{ onItsWay 1 with id := 40 }] }
/-- The request may be performed, its address, and whether its line is cached. -/
def performs (kind : ReqKind) (f : Kern → Kern) : Option (Bool × Option (List (Nat × Nat)) × Bool) :=
  let q := request kind none (some 40)
  let k := (site (fun k => f (outstanding q k)) expecting).kern
  match (coreOf k 0).reqs with
  | r :: _ =>
    some (r == q && mayPerform (coreOf k 0) q && poisonHits k [(2097152, 4)] == [] && softHits k [(2097152, 4)] == 0 && Memory.wf k.mem &&
        ((mget (coreOf k 0).buckets 0).map fun b => decide (max 1 (ceilDiv q.size 64) ≤ b.tokens)) == some true &&
        ((getObj k 0 2).map (·.home)) == some .hbm,
      (reqRuns k q).toOption, (cachedLine (coreOf k 0) 0 2 0).isSome)
  | [] => none

theorem witness_local_accesses :
    performs .load holdingLine = some (true, some [(2097152, 4)], true) ∧
    [ReqKind.load, .store, .cas, .atom .add].all (fun x => performs x id == some (true, some [(2097152, 4)], false)) = true ∧
    getThread (site (outstanding (request .load none (some 40))) expecting).kern 0 0 0 = some (expecting fetchThread) := by decide +kernel

/-- A packet with a load. -/
def packet (cls : TrafficClass) (src dst : Nat) (x : Payload) : FabPacket :=
  { id := 60, src := src, dst := dst, lane := 0, cls := cls, eseq := 0, plane := 0, sentAt := 0, firstAt := 0, load := x }
/-- It has arrived. -/
def delivered (p : FabPacket) (s : State) : State := { s with fab := { s.fab with arrived := [p] } }
/-- A request of device 7 for object 2. -/
def foreign (kind : ReqKind) : FabPacket := packet .request 7 0 (.access 5 3 2 0 4 kind .n32 9 0 false 0)
/-- A request of this device that device 7 answers. -/
def abroad (held : Option Nat) : Kern → Kern := outstanding (request .store (some 7) held)
/-- What its answer finds. -/
def answered (x : Payload) : Bool × Bool × Bool :=
  let s := delivered (packet .reply 7 0 x) (site (abroad none) id)
  ((coreOf s.kern 0).reqs == [request .store (some 7) none], (s.fab.arrived.find? fun p => replyFor 0 41 p.load).isSome,
    recordRoom (coreOf s.kern 0) 1 && handles (abroad none) id)

theorem witness_remote_traffic :
    ((delivered (packet .reply 7 0 (.drained 0 12)) (site id id)).fab.arrived.find? fun p => drainAnswer 0 12 p.load).isSome = true ∧
    [ReqKind.load, .store, .atom .add].all (fun x =>
      let s := delivered (foreign x) (site objects id)
      (s.fab.arrived.find? fun y => y.id == 60 && y.cls == .request) == some (foreign x) && homeContext s.kern 2 == some 0 &&
        poisonHits s.kern [(2097152, 4)] == [] && Memory.wf s.kern.mem &&
        match objRuns s.kern 0 2 0 4 with | .ok r => r == [(2097152, 4)] | .error _ => false) = true ∧
    [Payload.reply 41 0 3 0 0, .notPlaced 41 0 1, .unsupported 41 0].map answered = List.replicate 3 (true, true, true) := by decide +kernel

/-- A claim of a slot of the queue in object 2. -/
def foreignClaim : FabPacket := packet .request 7 0 (.access 5 3 2 0 64 .claim .n64 9 0 false 0)
/-- The frame of object 2 has moved to device 9. -/
def movedAway (s : State) : State := { s with fab := { s.fab with moved := [(8, 9)] } }
/-- This device's claim of a slot of device 7, and its answer. -/
def claimed : State :=
  delivered (packet .reply 7 0 (.reply 41 0 0 0 0)) (site (outstanding { request .claim (some 7) none with size := 64, ty := .n64 }) id)

theorem witness_remote_claims :
    (let s := delivered foreignClaim (site objects id)
     (s.fab.arrived.find? fun y => y.id == 60 && y.cls == .request) == some foreignClaim && firstArrived s.fab foreignClaim &&
       forwardTo s foreignClaim.load == none && homeContext s.kern 2 == some 0 && poisonHits s.kern [(2097152, 64)] == [] &&
       (match objRuns s.kern 0 2 0 64 with | .ok r => r == [(2097152, 64)] | .error _ => false) &&
       !badHeader (getBytes s.kern 2097152 64)) = true ∧
    badHeader (getBytes (site badQueue id).kern 2097152 64) = true ∧
    (let s := movedAway (delivered (foreign .load) (site objects id))
     (forwardTo s (foreign .load).load, firstArrived s.fab (foreign .load))) = (some 9, true) ∧
    (let s := site objects id
     firstArrived { s.fab with arrived := [{ foreign .load with id := 59 }, foreign .load] } (foreign .load)) = false ∧
    ((coreOf claimed.kern 0).reqs.find? fun y => y.id == 41).isSome = true ∧
    (claimed.fab.arrived.find? fun p => replyFor 0 41 p.load).isSome = true ∧ badHeader (bytesOfNat 64 0) = false := by decide +kernel

/-- A record of the thread, parked on an address of object 2. -/
def record_ (sub : Nat) : Park :=
  { id := 70, pc := 0, faddr := BitVec.ofNat 64 (752 * 2 ^ 32), sub := sub, lane := 0, tslot := 0, block := 0, group := 0, ctx := 0, tstate := false, cycle := 0, handed := true }
/-- The thread is parked on it. -/
def parked (sub : Nat) (k : Kern) : Kern := modCore (objects k) 0 fun core => { core with parks := [record_ sub] }
/-- Its place. -/
def atRest (t : Thread) : Thread := { t with loc := .parked }
/-- No frame is placed for object 2. -/
def untouched (k : Kern) : Kern := { parked 1 k with extents := [(0, BitVec.ofNat 64 (2 ^ 62))] }
/-- A unit that waits on object 2: the load of the bed job 9. -/
def unitWaits (k : Kern) : Kern :=
  { loading k with units := [{ id := 71, kind := 2, core := 0, job := 9, ctx := 0, faddr := BitVec.ofNat 64 (752 * 2 ^ 32), sub := 1, handed := false }] }

theorem witness_services :
    (let k := (site (parked 1) atRest).kern
     (coreOf k 0).parks = [record_ 1] ∧ (coreOf k 0).parks.filter (servedTogether (record_ 1)) = [record_ 1] ∧
       resolved k 0 (record_ 1).faddr.toNat = true ∧ mayDecline k 0 (record_ 1).faddr.toNat 1 = true ∧
       getThread (freeRecord k 0 70) 0 0 0 = some (atRest fetchThread) ∧
       ((threadLaunch (freeRecord k 0 70) 0 (atRest fetchThread)).bind recHandler) = some 64 ∧ awaitsHeld k 0 (atRest fetchThread) = false) ∧
    (let k := (site untouched atRest).kern
     ((getObj k 0 2).map fun e => e.present && e.home == .hbm && (mget k.extents e.ext).isNone) = some true ∧
       ((getObj k 0 2).map fun e => (minBy (fun t => t.1) (touches k 0 2 0 e), firstFrame k false e.cls 0)) =
         some (some (70, some 0), some 1)) ∧
    (let k := (site unitWaits id).kern
     k.units.length = 1 ∧ resolved k 0 (752 * 2 ^ 32) = true ∧ mayDecline k 0 (752 * 2 ^ 32) 1 = true ∧ (coreOf k 0).bedJobs.length = 1) := by
  decide +kernel

/-- A record that the host has not been handed yet. -/
def unhanded (k : Kern) : Kern := modCore (objects k) 0 fun core => { core with parks := [{ record_ 0 with handed := false }] }

theorem witness_handed_services :
    (let parks := (coreOf (site unhanded atRest).kern 0).parks
     (parks.find? fun y => y.id == 70).isSome && (parks.filter fun q => servedTogether (record_ 0) q && !q.handed).length == 1) = true := by
  decide +kernel

/-! ## Witnesses: copies and queues -/

/-- The capability of object 2. -/
def cap2 : Nat := 752 * 2 ^ 32
/-- Its 64-bit word. -/
def capWord : W64 := BitVec.ofNat 64 cap2
/-- A copy of 64 bytes from object 2 to offset 1024 of the scratchpad, in flight. -/
def flying (k : Kern) : Kern :=
  modCore (fullBoard k) 0 fun core => { core with copies := core.copies.map fun j =>
    { j with src := cap2, d0 := 1024, d2 := 64, held := some 40, tslot := 0, srcR := [], dstR := [{ space := .sp, block := 0, lo := 1024, hi := 1088 }] } }
/-- The same, where the object is not placed. -/
def flyingUnplaced (k : Kern) : Kern := { flying k with extents := [] }
/-- How its run ends: with a status word, or waiting for an address. -/
def ranFound (f : Kern → Kern) : Option (Nat ⊕ (Nat × Nat)) :=
  let s := site f expecting
  match (coreOf s.kern 0).copies with
  | j :: _ =>
    if copyReady (coreOf s.kern 0) j then
      match runCopy s.kern 0 j with | .done _ n => some (.inl n) | .wait _ _ a n => some (.inr (a, n)) | _ => none
    else none
  | [] => none

theorem witness_copy_transfers :
    ranFound flying = some (.inl 0) ∧ ranFound flyingUnplaced = some (.inr (cap2, 1)) ∧
    (let k := (site objects id).kern
     Memory.wf k.mem && poisonHits k [(2097152, 64)] == [] && softHits k [(2097152, 64)] == 0 &&
       (match planeRuns k (.ob 0 cap2) 0 64, planeRuns k (.pad 0 0 0) 1024 64 with
         | .ok a, .ok d => a == [(2097152, 64)] && d.length == 1 && d.all fun r => r.2 == 64
         | _, _ => false)) = true := by decide +kernel

/-- The copy has a status already. -/
def flyingDone (k : Kern) : Kern :=
  modCore (flying k) 0 fun core => { core with copies := core.copies.map fun j => { j with fail := some 0 } }
/-- What it wrote on device 7 has not been performed there. -/
def farStore (k : Kern) : Kern :=
  { flyingDone k with far := [{ id := 90, owner := 101, ctx := 0, dev := 7, obj := 3, line := 0, put := some [(0, 1)], row := 0, sent := true, ended := none }] }
/-- The copy's source is on device 7. -/
def flyingFar (k : Kern) : Kern :=
  modCore (flying k) 0 fun core => { core with copies := core.copies.map fun j => { j with src := 1008 * 2 ^ 32 } }
/-- How a copy's run starts, and what it spends. -/
def spentFound (f : Kern → Kern) : Option (Option Nat × Bool) :=
  let k := { (site f expecting).kern with unit := 101, spent := 0 }
  match (coreOf k 0).copies with
  | j :: _ => (match runCopy k 0 j with | .done k' _ => some (some k'.spent, farWrites k' 101) | .far _ obj _ _ => some (none, obj == 3) | _ => none)
  | [] => none

theorem witness_copy_payments :
    spentFound flying = some (some 1, false) ∧ spentFound flyingFar = some (none, true) ∧
    ((coreOf (site flyingDone expecting).kern 0).copies.map fun j => (j.id, j.fail, copyReady (coreOf (site flyingDone expecting).kern 0) j)) =
      [(50, some 0, true)] ∧
    farWrites (site flyingDone expecting).kern 101 = false ∧ farWrites (site farStore expecting).kern 101 = true := by decide +kernel

/-- A packet whose number is 0. -/
def queuePacket (image : List Byte) (fail : Option W32) : Packet := { w := 0, image := image, order := 0, fail := fail }
/-- Queue 4 of an engine has its header in object 2. -/
def queued (engine : Nat) (ps : List Packet) (k : Kern) : Kern :=
  { putBytes (objects k) (2 ^ 21 + 8) [1] with
    queues := [(4, { ctx := 0, hdr := capWord, engine := engine, taken := 0, running := ps, retiredBelow := 0, retired := [] })] }
/-- A slot of that queue is claimed on core 0. -/
def claiming (k : Kern) : Kern :=
  modCore (objects k) 0 fun core => { core with copyqs := [{ id := 9, ctx := 0, queue := capWord, w := 0, cap := 0, image := List.replicate 64 1 }] }
/-- An empty image, one that names a status word at offset 128 of object 2, one of a gather of a row of four bytes, and one of a
collective of devices 0 and 5 that adds one integer of each. -/
def emptyImage : List Byte := List.replicate 64 0
/-- The one with a status word. -/
def statusImage : List Byte := patched [(2, [8]), (32, bytesOfNat 8 (cap2 + 128))] emptyImage
/-- The gather. -/
def gatherImage : List Byte :=
  patched [(8, bytesOfNat 8 cap2), (16, bytesOfNat 8 (cap2 + 256)), (24, bytesOfNat 8 (cap2 + 512)), (32, [1]), (36, [4]), (40, [4])] emptyImage
/-- The collective. -/
def collImage : List Byte :=
  patched [(1, [BitVec.ofNat 8 (16 * tyCode .i32)]), (8, bytesOfNat 8 (cap2 + 256)), (16, [2]), (24, bytesOfNat 8 (cap2 + 512)), (32, bytesOfNat 8 (cap2 + 768)), (40, [1])] emptyImage
/-- What device 5 has posted for it. -/
def fifth : Posted :=
  { cid := 0, dev := 5, op := 0, red := 0, ty := tyCode .i32, root := 0, count := 1, members := [0, 5], src := [9], failed := false, unsupported := false, more := false }
/-- The collective's packet is in hand, with what its own part finds and what the whole ends with. -/
def collFound : Option Nat :=
  let s := site (fun k => putBytes (queued 2 [queuePacket collImage none] k) (2 ^ 21 + 256 + 4) [5]) id
  let s := { s with fab := { s.fab with posted := [fifth] } }
  let p := queuePacket collImage none
  match collOwn s.kern 0 0 p (collOf p) (cidClash s.kern p) with
  | .ready k ms vals =>
    (match runColl k 0 (collOf p) ms 0 vals (([5] : List Nat).filterMap fun m => s.fab.posted.find? fun o => o.cid == 0 && o.dev == m) (heardPosts s.fab 0) with
    | (k', .ok n) => if k'.queues = s.kern.queues ∧ ms = [0, 5] ∧ s.fab.dev = 0 ∧ 5 ∉ s.fab.unreachable then some n else none
    | _ => none)
  | _ => none

theorem witness_queue_engines :
    (let k := (site claiming id).kern
     (readObj k 0 2 0 8).isSome = true ∧ Memory.wf k.mem = true ∧ slotOffset cap2 0 0 = 64 ∧
       (match objRuns k 0 2 64 64 with | .ok r => r == [(2097216, 64)] | .error _ => false) = true) ∧
    (let k := (site (queued 0 []) id).kern
     ((readObj k 0 2 0 64).map fun h => (fieldOf h 8 8, fieldOf h 16 4)) = some (1, 0) ∧ Memory.wf k.mem = true ∧
       poisonHits k [(2097216, 64)] = [] ∧ softHits k [(2097216, 64)] = 0 ∧ fieldOf (getRuns k [(2097216, 64)]) 4 4 = 0) ∧
    packetStw (queuePacket emptyImage (some 0)) = false ∧ packetStw (queuePacket statusImage (some 0)) = true ∧
    (let k := (site (queued 0 [queuePacket statusImage (some 0)]) id).kern
     ((mget k.queues 4).map fun q => (packetOf q 0 == some (queuePacket statusImage (some 0)),
       match checkObj k 0 (statusCap q (queuePacket statusImage (some 0))) 128 4 4 4 with | .ok n => n | .error _ => 0)) = some (true, 128)) ∧
    (match runPacket (site (queued 0 [queuePacket emptyImage none]) id).kern 0 (queuePacket emptyImage none) with
      | .done k _ => k.queues == (site (queued 0 [queuePacket emptyImage none]) id).kern.queues | _ => false) = true ∧
    (match runWalk (site (queued 1 [queuePacket gatherImage none]) id).kern 0 (queuePacket gatherImage none) with
      | .done k n => k.queues == (site (queued 1 [queuePacket gatherImage none]) id).kern.queues && n == 0 | _ => false) = true ∧
    collFound = some 0 := by decide +kernel

/-- What the engine of collectives has posted for the collective: nothing, its own part, and both parts. -/
def collective (os : List Posted) : State :=
  let s := site (fun k => putBytes (queued 2 [queuePacket collImage none] k) (2 ^ 21 + 256 + 4) [5]) id
  { s with fab := { s.fab with posted := os } }
/-- Its own part. -/
def ownPart : Posted := { fifth with dev := 0, src := [0] }
/-- Two packets of one collective identifier in hand. -/
def clashing : State :=
  site (queued 2 [{ queuePacket collImage none with order := 1 }, { queuePacket collImage none with w := 1, order := 2 }]) id
/-- The parts posted by the others, and how the whole ends. -/
def joinFound (os : List Posted) : Option (Nat × Option Nat) :=
  let s := collective os
  let p := queuePacket collImage none
  (posted s (collOf p).cid).map fun own =>
    let others := (own.members.filter (· != s.fab.dev)).filterMap fun m => s.fab.posted.find? fun y => y.cid == 0 && y.dev == m
    (others.length, match runColl { s.kern with unit := packetUnit 4 0, spent := 0 } 0 (collOf p) own.members 0 own.src others (heardPosts s.fab 0) with
      | (k, .ok n) => if k.queues = s.kern.queues then some n else none
      | _ => none)

theorem witness_collectives :
    posted (collective []) 0 = none ∧ cidClash (collective []).kern (queuePacket collImage none) = false ∧
    (match collOwn { (collective []).kern with unit := packetUnit 4 0, spent := 0 } 0 0 (queuePacket collImage none)
        (collOf (queuePacket collImage none)) false with
      | .ready k ms vals => k.queues == (collective []).kern.queues && ms == [0, 5] && vals == [0]
      | _ => false) = true ∧
    joinFound [ownPart] = some (0, some 0) ∧ joinFound [ownPart, fifth] = some (1, some 0) ∧
    cidClash clashing.kern { queuePacket collImage none with w := 1, order := 2 } = true ∧
    (match collOwn { (collective []).kern with unit := packetUnit 4 1, spent := 0 } 0 0 (queuePacket collImage none)
        (collOf (queuePacket collImage none)) true with | .decided n => n | _ => 0) = 0x01700000 := by decide +kernel

theorem witness_queue_ends :
    (let k := (site (queued 0 [queuePacket statusImage (some 0)]) id).kern
     farWrites k (packetUnit 4 0) = false ∧ remoteObj k 0 cap2 = false ∧
     farWrites { k with far := [{ id := 90, owner := packetUnit 4 0, ctx := 0, dev := 7, obj := 3, line := 0, put := some [(0, 1)], row := 0, sent := true, ended := none }] } (packetUnit 4 0) = true) ∧
    (let k := { (site (queued 0 [queuePacket statusImage (some 0)]) id).kern with extents := [] }
     ((mget k.queues 4).map fun q => match checkObj k 0 (statusCap q (queuePacket statusImage (some 0))) 128 4 4 4 with
       | .ok n => (match objRuns k 0 2 n 4 with | .ok _ => false | .error _ => true)
       | .error _ => false) = some true) := by decide +kernel

/-! ## Witnesses: launches, blocks and graphs -/

/-- Graph 0 with one node. -/
def graphed (n : Node) (k : Kern) : Kern := { k with graphs := [(0, { cardGraphState with running := true, nodes := [n] })] }
/-- A node that is a task with a record. -/
def taskNode (r : List Byte) : Node :=
  { succ := [], card := false, rec_ := r, prepared := false, waiting := 0, done := false, admitted := false }
/-- What the checks find in a record of graph 0, where one bay is enabled. -/
def rejects (r : List Byte) : Option (Nat × Nat) :=
  let s := site (graphed (taskNode r)) id
  rejection { s with pwr := { s.pwr with bays := [(0, Bay.reset true)] } } { draft 0 r with graph := 0, node := 0 }

theorem witness_admissions :
    rejects fetchRecord = none ∧ rejects (List.replicate 512 0) = some (0x01, 0) := by decide +kernel

/-- The launch waits in the shared queue with its first block, and bay 0 is the one that is enabled. -/
def sharing (f : Kern → Kern) : State :=
  let s := site (fun k => f { k with shared := [1], launches := mset k.launches 1 { fetchLaunch with next := 0 } }) id
  { s with pwr := { s.pwr with bays := [(0, Bay.reset true)] } }
/-- The field waits for its cores. -/
def fieldWaits (bricks : List (Nat × Nat)) (k : Kern) : Kern :=
  { modCore k 0 (fun core => { core with threads := [], blocks := [], slices := 2048, xr := [] }) with
    launches := mset k.launches 1 { ringLaunch with placed := false, next := 0, bricks := bricks } }

theorem witness_dispatch :
    (chooseSource (sharing id) 1 == some (.ofShared 1 { fetchLaunch with next := 0 }) && (getBay (sharing id) (bayOf 1)).gate == .on &&
      decide ((getBay (sharing id) (bayOf 1)).nextPull ≤ bayCycle (sharing id).kern (bayOf 1)) &&
      (roomFor (coreOf (sharing id).kern 1) fetchLaunch (blockSlices fetchLaunch 0)).isSome && !recPcopy fetchLaunch) = true ∧
    (let s := site (fieldWaits [(0, 0)]) id
     let l := { ringLaunch with placed := false, next := 0 }
     mget s.kern.launches 1 == some l && isField l && mayRun s.kern 0 && (leaseAll s [0]).2 &&
       (startBricks l 1 l.bricks (leaseAll s [0]).1).isSome) = true ∧
    ((mget (site (fieldWaits []) id).kern.launches 1).map fun l => (l.placed, l.done, isField l, l.bricks)) = some (false, false, true, []) := by
  decide +kernel

/-- Bay 1, which is enabled too, has waited longer for the shared queue. -/
def longerWaits : State := { sharing id with pwr := { (sharing id).pwr with bays := [(0, { Bay.reset true with lastPull := 5 }), (1, Bay.reset true)] } }

theorem witness_bays_in_turn :
    pullsBefore (sharing id) (bayOf 1) = false ∧ pullsBefore longerWaits (bayOf 1) = true ∧
    (match chooseSource longerWaits 1 with | some (.ofShared n _) => n | _ => 0) = 1 ∧ (getBay longerWaits (bayOf 1)).gate = .on := by
  decide +kernel

/-- The launch has blocks in all. -/
def blocks (n : Nat) (k : Kern) : Kern := { k with launches := mset k.launches 1 { fetchLaunch with total := n } }

theorem witness_retirement :
    [1, 2].all (fun n =>
      let s := site (blocks n) gone
      blockQuiet (coreOf s.kern 0) 0 && (coreOf s.kern 0).threads.all (fun t => t.loc == .exited) && (getCtx s.kern 0).state != .stopped &&
        (mget s.kern.launches 1).isSome) = true := by decide +kernel

/-- A launch of context 1 of the highest priority waits in the shared queue, no core of the enabled bay has room, and context 0
has a save area. -/
def crowded (k : Kern) : Kern :=
  let k := modCtx (objects k) 0 fun x => { x with save := capWord }
  let rec_ := patched [(6, [3])] fetchRecord
  let k := { k with
    shared := [2], launches := mset k.launches 2 { fetchLaunch with ctx := 1, rec_ := rec_, next := 0 },
    ctxs := mset k.ctxs 1 { getCtx k 1 with state := .running } }
  (List.range 8).foldl (fun k c => modCore k c fun core => { core with slices := 0 }) k
/-- The one bay that is enabled is bay 0. -/
def oneBay (s : State) : State := { s with pwr := { s.pwr with bays := [(0, Bay.reset true)] } }
/-- A thread that stood down. -/
def downed (t : Thread) : Thread := { t with loc := .down }
/-- A context that is pre-empted, with a save area in object 2, or without. -/
def standing (save : W64) (k : Kern) : Kern := modCtx (objects k) 0 fun x => { x with state := .preempting, save := save }
/-- The block is vacated, and its core is empty. -/
def vacated (k : Kern) : Kern :=
  match blockOf k 0 0 with
  | none => k
  | some b =>
    { modCtx (emptied (objects k)) 0 (fun x => { x with state := .vacated, save := capWord }) with
      cores := mset (modCtx (emptied (objects k)) 0 id).cores 0 { coreOf (emptied k) 0 with slices := 2048 }
      vacated := [{ launch := 1, slot := 0, core := 0, block := b, threads := [downed fetchThread], form := 1 }] }

theorem witness_preemption :
    (let s := oneBay (site crowded id)
     ((headShared s.kern).map fun p => (p.1, fitsNowhere s p.2, preemptVictim s.kern (recPrio p.2))) = some (2, true, some 0)) ∧
    (let k := (site (standing capWord) downed).kern
     blockQuiet (coreOf k 0) 0 = true ∧ blockReleased (coreOf k 0) 0 = true ∧ (coreOf k 0).threads.any (fun t => t.loc == .down) = true ∧ freeSlots k 0 = [0] ∧
       Memory.wf k.mem = true ∧ (match objRuns k 0 2 0 8 with | .ok r => r == [(2097152, 8)] | .error _ => false) = true) ∧
    freeSlots (site (standing 0) downed).kern 0 = [] ∧
    (let s := oneBay (site vacated id)
     (s.kern.vacated[0]?.map fun v => mayReturn s v.core fetchLaunch v && mayStart s v.core fetchLaunch && (getBay s (bayOf v.core)).enabled && (leaseAll s [bayOf v.core]).2 &&
       (bringAll fetchLaunch [v] (leaseAll s [bayOf v.core]).1).isSome) = some true) ∧ recHandler fetchLaunch = some 64 := by decide +kernel

/-- Graph 0 with triggers, whose patches are in object 2. -/
def triggered (ws : List W64) (k : Kern) : Kern :=
  { objects k with graphs := [(0, { cardGraphState with triggers := ws, patchobj := capWord, status := capWord })] }
/-- An empty list of patches stands there. -/
def patching (k : Kern) : Kern := putBytes (triggered [1] k) (2 ^ 21) (bytesOfNat 4 0x4B4C5054)
/-- A launch that is done. -/
def finished (card : Bool) (k : Kern) : Kern :=
  { graphed (taskNode fetchRecord) k with launches := mset k.launches 1 { fetchLaunch with done := true, card := card } }
/-- The run of graph 0 is over. -/
def over_ (k : Kern) : Kern :=
  { triggered [0] k with graphs := [(0, { cardGraphState with running := true, status := capWord, nodes := [{ taskNode fetchRecord with done := true }] })] }

theorem witness_graph_runs :
    triggerGood 0 = true ∧ triggerGood 2 = false ∧ ((mget (site (triggered []) id).kern.graphs 0).map (·.triggers.length)) = some 0 ∧
    ((mget (site (triggered [0, 0, 0, 0]) id).kern.graphs 0).map (·.triggers.length)) = some 4 ∧
    ((mget (site (triggered [1]) id).kern.graphs 0).map fun g => (g.running, patchList (site (triggered [1]) id).kern (patchUnit 0) g 1)) = some (false, none) ∧
    ((mget (site patching id).kern.graphs 0).map fun g => patchList (site patching id).kern (patchUnit 0) g 1) = some (some []) ∧
    [true, false].all (fun c => ((mget (site (finished c) id).kern.launches 1).map fun l =>
      l.done && !l.counted && (mget (site (finished c) id).kern.graphs l.graph).isSome) == some true) = true ∧
    (let k := (site over_ id).kern
     ((mget k.graphs 0).map fun g => (runOver g, match checkObj k 0 g.status.toNat (capOff g.status.toNat) 8 8 4 with | .ok n => n | .error _ => 1)) =
       some (true, 0)) := by decide +kernel

theorem witness_accesses_out :
    accessesOut (site (finished false) id).kern 1 = false ∧ accessesOut (site (outstanding (request .load none none)) id).kern 1 = true := by
  decide +kernel

/-! ## Witnesses: fields -/

/-- A notice for cell 0, which core 0 holds. -/
def notice (kind : Nat) : Notice :=
  { id := 80, launch := 1, cell := 0, dst := 0, kind := kind, step := 0, faces := List.replicate 16 3, rel := false, held := false }
/-- It is on its way to core 0. -/
def noticed (kind : Nat) (k : Kern) : Kern := { ring k with notices := [notice kind] }
/-- A publication of cell 0 is not readable yet. -/
def unreadable (k : Kern) : Kern :=
  modCore (ring k) 0 fun core => { core with xr := [{ ringRegion with unready := [{ cell := 0, step := 0, before := 0, block := 0, fence := 0 }] }] }
/-- Every cell of the field has ended its first step, with settles or without. -/
def endedStep (settled : Nat) (sigs : List W64) (k : Kern) : Kern :=
  { (List.range 8).foldl (fun k i => putBytes k (recordAt 0 ringRegion i + 144) [1]) (ring k) with
    fields := [(1, { Field.start with steps := [(0, { TrussStep.empty with ended := 8, settled := settled, sigs := sigs })] })] }

theorem witness_field_events :
    [0, 1, 2].all (fun n =>
      let k := (site (noticed n) cell).kern
      (k.notices == [notice n] && firstNotice k (notice n) && Memory.wf k.mem && coldFrom k 1 0 == [] && (notice n).faces.length == 16 &&
        ((regionOf k 0 1).bind fun r => recordFor ringLaunch r 0).isSome)) = true ∧
    ((readyIn (coreOf (site unreadable cell).kern 0) 0).map fun p => (p.1.launch, p.2.step)) = some (1, 0) ∧
    [(0, []), (8, [5]), (3, [5]), (8, [5, 6])].all (fun p =>
      let k := (site (endedStep p.1 p.2) cell).kern
      fieldReached k 1 1 && ((mget k.fields 1).map fun f => (trussStep f 0).complete) == some false) = true := by decide +kernel

/-! ## Witnesses: power and repair -/

/-- The state with its power changed. -/
def powered (f : Power → Power) (s : State) : State := { s with pwr := f s.pwr }
/-- Bay 0 changed. -/
def bayed (f : Bay → Bay) (s : State) : State := powered (fun p => { p with bays := mmod p.bays 0 f }) s
/-- Time has passed. -/
def later (s : State) : State := powered (fun p => { p with usec := 1000 }) s
/-- A subscription that fires. -/
def subscribed (fired : Bool) (word : W64) (s : State) : State :=
  powered (fun p => { p with subs := [(0, { ctx := 0, source := 1, bay := 0, thresh := 0, fall := false, word := word, count := 0, fired := fired, lastSeq := 0 })] }) s
/-- A bay that holds nothing. -/
def vacant (s : State) : State := { s with kern := emptied s.kern }
/-- Where boot stands. -/
def booting (x : BootState) (s : State) : State := { s with fw := { s.fw with boot := x } }
/-- An image of frame firmware. -/
def anImage : FwImage := { kind := 0, version := 1, len := 64, measurement := 0 }

theorem witness_power_events :
    (takingPart (site id id).kern ≠ [] ∧ allowedSets (site id id) ≠ []) ∧ takingPart (site (finished false) id).kern = [] ∧
    (later (site id id)).pwr.boostTicks < 1000 ∧ ((mget (later (site id id)).pwr.bays 0).map (·.evaluated)) = some 0 ∧
    (let y := (mget (site id id).pwr.bays 0).getD (Bay.reset true)
     floorFor y (site id id).pwr.grant = 0 ∧ floorFor { y with floors := List.replicate 18 9 } (site id id).pwr.grant = 9) ∧
    (let s := later (vacant (site id id))
     bayEmpty s.kern 0 && ((mget s.pwr.bays 0).map fun y => y.gate == .on && !y.lease && decide (y.emptySince + 20 ≤ 1000)) == some true) = true ∧
    nowNs (later (site id id)) = 1000000 := by decide +kernel

theorem witness_way_gating :
    wayTurn (powered (fun p => { p with usec := 64 }) (site (fun k => modCore k 0 fun core => { core with cycle := 19200 }) id)) 0 true = true ∧
    wayTurn (site (fun k => modCore k 0 fun core =>
      { core with waysGated := true, cycle := 1200, fills := [1199, 1198, 1197, 1196, 1195, 1194] }) id) 0 false = true := by decide +kernel

theorem witness_waking_ways :
    ((coreOf (later (site (fun k => modCore k 0 fun core => { core with waysGated := true, waysWaking := some 0 }) id)).kern 0).waysWaking) =
      some 0 ∧ 0 + 200 ≤ nowNs (later (site id id)) := by decide +kernel

theorem witness_subscriptions :
    subscriptionDue (subscribed false capWord (site objects id)) { ctx := 0, source := 1, bay := 0, thresh := 0, fall := false, word := capWord, count := 0, fired := false, lastSeq := 0 } = true ∧
    (match checkObj (site objects id).kern 0 cap2 0 8 8 4 with | .ok n => n == 0 | .error _ => false) = true ∧
    (match checkObj (site id id).kern 0 cap2 0 8 8 4 with | .ok _ => false | .error _ => true) = true ∧
    subscriptionDue (subscribed true capWord (site objects id)) { ctx := 0, source := 1, bay := 0, thresh := 9, fall := false, word := capWord, count := 0, fired := true, lastSeq := 0 } = true := by
  decide +kernel

theorem witness_repair_and_boot :
    (let s := site (fun k => { k with net := 1024 }) id
     (coreOf s.kern 0).refilled + 1024 ≤ s.kern.net) ∧
    frameOfLine 32768 = some (false, 1) ∧ frameNamed (site objects id).kern false 1 = true ∧
    (frameInfo (site objects id).kern false 1).retired = false ∧ frameClass (site objects id).kern 1 = .p ∧
    (deviceFaults (site (inState .stopped) id)).find? (fun x => !(site (inState .stopped) id).fw.faults.contains x) = some 0 ∧
    (site id id).fw.boot = .rom ∧ chosenSlot (booting .verify (site id id)).fw = none ∧
    ((mget (powered (fun p => { p with dies := mmod p.dies 0 fun d => { d with attributed := some 5 } }) (site id id)).pwr.dies 0).map
      fun d => d.attributed) = some (some 5) := by decide +kernel

/-- An image that is signed is chosen where it stands. -/
theorem witness_chosen_slot (h : Config.signed anImage = true) :
    chosenSlot { (booting .verify (site id id)).fw with slotA := some anImage } = some false := by
  simp [chosenSlot, validVersion, validImage, h, fuseOf]; decide

/-! ## Witnesses: the fabric -/

/-- The state with its fabric changed. -/
def fabric (f : Fabric → Fabric) (s : State) : State := { s with fab := f s.fab }
/-- Port 0 is up, with changes. -/
def porting (f : Port → Port) (s : State) : State :=
  fabric (fun b => { b with ports := mset b.ports 0 (f { Port.reset with state := .up8 }) }) s
/-- A packet in flight to a device, with a number of its stream. -/
def inFlight (dst : Nat) (n : BitVec 16) (x : Payload) : State :=
  porting id (fabric (fun b => { b with packets := [{ packet .request 7 dst x with eseq := n }] }) (site id id))
/-- An answer. -/
def ack : Payload := .drained 0 12
/-- A packet that is not acknowledged, sent at 0. -/
def unacked : State := fabric (fun b => { b with unacked := [packet .request 0 7 ack] }) (site id id)
/-- A packet of this device that is to leave. -/
def leaving (x : Payload) : State := porting id (fabric (fun b => { b with packets := [packet .request 0 7 x] }) (site id id))
/-- A notice for brick 0 of the ring. -/
def brickNotice : Notice := { notice 0 with dst := 2 ^ 20 }

theorem witness_packet_events :
    (unacked.fab.unacked.find? fun q => q.id == 60).isSome = true ∧ unacked.fab.packets = [] ∧ (later unacked).pwr.usec = 1000 ∧
    [(0 : BitVec 16), 3, 0x9000].all (fun n =>
      let s := inFlight 0 n ack
      (s.fab.packets.find? fun q => q.id == 60).isSome && s.fab.dev == 0 && (streamOf s.fab 7 0 0 .request).reorder == [] &&
        (streamOf s.fab 7 0 0 .request).recvNext == 0) = true ∧
    noticeCore (site id id).kern brickNotice = none ∧ noticeCore (site ring cell).kern brickNotice = some 0 ∧
    (nextPacket (leaving (foreignClaim.load)) 0).map (·.id) = some 60 ∧
    (nextPacket (porting (fun p => { p with paused := true }) (leaving ack)) 0).map (·.id) = none ∧
    planeFor (porting id (site id id)) 7 0 = some 0 ∧ othersAcked (porting id (site id id)) 7 0 = true ∧
    planeFor (porting id (site id id)) 7 3 = some 0 ∧
    othersAcked (porting id (fabric (fun b => { b with unacked := [{ packet .request 0 7 ack with plane := 2 }] }) (site id id))) 7 0 = false ∧
    (let s := powered (fun p => { p with usec := 10000 }) unacked
     (s.fab.unacked.find? (overdue s)).isSome) = true ∧ unacked.fab.unacked.all (fun q => !overdue unacked q) = true := by decide +kernel

/-- A stream of another device whose reorder buffer is full. -/
def fullStream : Stream :=
  { src := 8, dst := 0, lane := 1, cls := .request, sendNext := 0, recvNext := 0, plane := 1,
    reorder := List.replicate 4096 (packet .request 8 0 ack) }
/-- The reorder buffers are full. -/
def fullReorder : State :=
  fabric (fun b => { b with streams := [fullStream] }) (inFlight 0 3 ack)
/-- An acknowledgement of a packet of this device. -/
def acks : State := inFlight 0 0 (.ack 0 .request 0)

theorem witness_packet_ends :
    noReorder fullReorder.fab (streamOf fullReorder.fab 7 0 0 .request) { packet .request 7 0 ack with eseq := 3 } = true ∧
    (streamOf fullReorder.fab 7 0 0 .request).reorder = [] ∧
    noReorder (inFlight 0 3 ack).fab (streamOf (inFlight 0 3 ack).fab 7 0 0 .request) { packet .request 7 0 ack with eseq := 3 } = false ∧
    (acks.fab.packets.find? fun q => q.id == 60).isSome = true ∧ (streamOf acks.fab 7 0 0 .request).recvNext = 0 ∧
    answers ack = some (0, 12) ∧ mget (site emptied id).kern.launches 9 = none ∧ keptClass .request = true := by decide +kernel

/-- Two atomics of device 0 on one word of device 7. -/
def adder (id data : Nat) : FabPacket :=
  { packet .request 0 7 (.access id 3 2 0 4 (.atom .add) .n32 data 0 false 0) with id := id }
/-- Their group, open or closed with its answer. -/
def grouped (old : Option Nat) : Combine :=
  { id := 90, dst := 7, obj := 2, ea := 0, size := 4, members := [adder 61 5, adder 62 6], closed := old.isSome, old := old, plane := 0, output := 7, bad := none, met := 0, charge := 0 }

theorem witness_combining :
    ((fabric (fun b => { b with groups := [grouped none] }) (site id id)).fab.groups.find? fun x => x.id == 90 && !x.closed) =
      some (grouped none) ∧
    ((fabric (fun b => { b with groups := [grouped (some 9)] }) (site id id)).fab.groups.find? fun x => x.id == 90 && x.closed) =
      some (grouped (some 9)) ∧ (grouped (some 9)).old = some 9 ∧
    (let g := { grouped none with closed := true, bad := some (.poisoned 90 256 .plain 0 64) }
     ((fabric (fun b => { b with groups := [g] }) (site id id)).fab.groups.find? fun x => x.id == 90 && x.closed) = some g) ∧
    (let g := { grouped none with closed := true }
     ((fabric (fun b => { b with groups := [g] }) (site id id)).fab.groups.find? fun x => x.id == 90 && x.closed) = some g) := by
  decide +kernel

/-- A key with its counter. -/
def keyAt (n : Nat) : KeySlot := { key := 1, salt := 2, counter := n, afterWarn := true }

/-- A flit of zeros with its CRC, one of another number, and one of class 7. -/
def zeroFlit : Flit := sealFlit 0
/-- Number 1. -/
def laterFlit : Flit := sealFlit (2 ^ 16)
/-- Class 7. -/
def strayFlit : Flit := sealFlit (7 * 32)

/-- The CRC of 252 bytes of zeros, 36 at a time. -/
theorem zeros_crc : flitCrc 0 = 2791528945 := by
  have e0 : crc32 36 0 4294967295 ^^^ 0xFFFFFFFF = 2504609066 := by decide +kernel
  have e1 : crc32 36 0 2504609066 ^^^ 0xFFFFFFFF = 4030547117 := by decide +kernel
  have e2 : crc32 36 0 4030547117 ^^^ 0xFFFFFFFF = 4035117580 := by decide +kernel
  have e3 : crc32 36 0 4035117580 ^^^ 0xFFFFFFFF = 2415262307 := by decide +kernel
  have e4 : crc32 36 0 2415262307 ^^^ 0xFFFFFFFF = 3400967169 := by decide +kernel
  have e5 : crc32 36 0 3400967169 ^^^ 0xFFFFFFFF = 2070577298 := by decide +kernel
  have e6 : crc32 36 0 2070577298 ^^^ 0xFFFFFFFF = 1503438350 := by decide +kernel
  simp only [flitCrc, show 252 = 36 + (36 + (36 + (36 + (36 + (36 + (36 + 0)))))) from rfl, Laws.crc32_add, Nat.zero_div,
    e0, e1, e2, e3, e4, e5, e6]
  rfl

theorem witness_flits :
    crcGood zeroFlit = true ∧ crcGood laterFlit = true ∧ crcGood strayFlit = true ∧ crcGood 0 = false ∧
    flitClass strayFlit = 7 ∧ flitClass zeroFlit = 0 ∧ flitLseq zeroFlit = 0 ∧ flitLseq laterFlit = 1 ∧ flitLseq strayFlit = 0 ∧
    flitKs zeroFlit = false :=
  ⟨Laws.crcGood_sealFlit _, Laws.crcGood_sealFlit _, Laws.crcGood_sealFlit _,
    by rw [crcGood, show (0 : Flit).toNat = 0 by decide +kernel, zeros_crc, Nat.zero_div]; rfl,
    by rw [strayFlit, Laws.sealFlit_class], by rw [zeroFlit, Laws.sealFlit_class],
    by rw [flitLseq, zeroFlit, Laws.sealFlit_field _ _ _ (by decide)]; rfl,
    by rw [flitLseq, laterFlit, Laws.sealFlit_field _ _ _ (by decide)]; rfl,
    by rw [flitLseq, strayFlit, Laws.sealFlit_field _ _ _ (by decide)]; rfl,
    by rw [flitKs, zeroFlit, Laws.sealFlit_field _ _ _ (by decide)]; rfl⟩

/-- CRC-32 of the nine bytes "123456789" is 0xCBF43926, the check value of the IEEE 802.3 polynomial. -/
theorem test_crc32 : crc32 9 0x393837363534333231 0xFFFFFFFF = 0xCBF43926 := by decide +kernel

theorem witness_link_events :
    ((mget (porting id (site id id)).fab.ports 0).map fun x => portUp x && tagPasses x zeroFlit && x.rxLseq == 0 &&
      tagPasses x strayFlit) = some true ∧
    [none, some 0].all (fun b => ((mget (porting (fun p => { p with encrypt := true, recvKeys := [(1, keyAt 0)], badTag := b }) (site id id)).fab.ports 0).map fun x =>
      portUp x && x.encrypt && (mget x.recvKeys 0).isNone && x.rxLseq == 0 && x.badTag == b) == some true) = true ∧
    ((mget (porting (fun p => { p with replay := [(4, 0)] }) (site id id)).fab.ports 0).map fun x => (replayFrom x 4).length) = some 1 ∧
    ((mget (porting (fun p => { p with recent := List.replicate 17 0 }) (site id id)).fab.ports 0).map fun x =>
      (x.recent.filter fun t => (site id id).pwr.usec ≤ t + 100).length) = some 17 ∧
    [0, 2].all (fun n => ((mget (porting (fun p => { p with state := .train, tries := n }) (site id id)).fab.ports 0).map fun x =>
      x.state == .train && x.tries == n) == some true) = true ∧
    ((mget (porting (fun p => { p with kwarn := true, sendKeys := [(0, keyAt 5), (1, keyAt 0)] }) (site id id)).fab.ports 0).map markerReady) =
      some true ∧
    ((mget (porting (fun p => { p with sendKeys := [(0, keyAt (2 ^ 32))] }) (site id id)).fab.ports 0).bind fun x =>
      (mget x.sendKeys (slotNumber x.ks)).map fun k => decide (0xFFF00000 ≤ k.counter) && decide (2 ^ 32 ≤ k.counter) && !x.kwarn) = some true := by
  decide +kernel

/-! ## Witnesses: commands -/

/-- A command of the host. -/
def host : CmdHdr := { issuer := .host, tag := 7 }
/-- One of frame firmware. -/
def firm : CmdHdr := { issuer := .firmware, tag := 7 }
/-- One of the management port. -/
def managed : CmdHdr := { issuer := .management, tag := 7 }
/-- The device is ready. -/
def ready (f : Kern → Kern) (g : Thread → Thread) : State := booting .ready (site f g)

theorem witness_command_gate :
    [managed, host].all (fun h => commandOf (.ctxopen h 0 0) == some (h, [.host, .firmware], false)) = true ∧
    managed.issuer ∉ [Issuer.host, .firmware] ∧ commandOf (.fwstage managed (0, capWord)) = some (managed, [.host, .firmware, .management], true) ∧
    (booting .rescue (site id id)).fw.boot = .rescue ∧ (site id id).fw.boot = .rom ∧ (ready id id).fw.boot = .ready ∧
    gate (ready id id) host byHF false = none ∧ gate (ready id id) firm byF false = none ∧ gate (ready id id) managed byHM false = none ∧
    gate (ready id id) managed byAll false = none ∧ gate (booting .rescue (site id id)) managed byAll true = none := by decide +kernel

/-- A context in a state, which context 0 is not. -/
def other (x : CtxState) (k : Kern) : Kern := { objects k with ctxs := mset k.ctxs 1 { getCtx k 1 with state := x } }
/-- The image of a graph of one task in object 2, with its status word there. -/
def graphImage : List Byte :=
  patched [(0, bytesOfNat 4 0x4B4C4752), (4, [1, 0, 255, 255]), (16, bytesOfNat 8 (cap2 + 1024))] (List.replicate 64 0) ++
    patched [(64, fetchRecord)] (List.replicate 576 0)
/-- The image stands there: its lines 7 and on are lines 8 and on of the frame (R365). -/
def imageStands (k : Kern) : Kern :=
  let k := putBytes (objects k) (2 ^ 21) (graphImage.take 448)
  putBytes k (2 ^ 21 + 512) (graphImage.drop 448)
/-- A store that is full of graphs. -/
def storeFull (k : Kern) : Kern :=
  { imageStands k with graphs := [(5, { cardGraphState with nodes := List.replicate 7282 (taskNode []) })] }
/-- What a load of the graph finds: its nodes, and whether there is room. -/
def loadFound (f : Kern → Kern) : Option (Nat × Bool) :=
  let k := (ready f id).kern
  ((imageBytes k (imageUnit 0) 0 cap2).bind (graphOf k 0)).map fun g => (g.nodes.length, decide (storeUsed k 0 + 64 + 576 * g.nodes.length ≤ 2 ^ 22))

theorem witness_context_commands :
    (getCtx (ready id id).kern 1).state = .free ∧ (getCtx (ready (other .opened) id).kern 1).state = .opened ∧
    (getCtx (ready id id).kern 0).state = .running ∧ (getCtx (ready (inState .stopped) id).kern 0).state = .stopped ∧
    ((blockOf (ready (inState .stopped) id).kern 0 0).map (·.ctx)) = some 0 ∧
    (match checkObj (ready objects id).kern 0 cap2 0 slotSize 1 4 with | .ok n => n == 0 | .error _ => false) = true ∧
    (let k := (ready objects id).kern
     (objRuns k 0 2 0 slotSize).isOk = true ∧ (objRuns k 0 2 0 reportSize).isOk = true ∧ objBusy k 0 2 = false ∧ objBusy (ready (outstanding (request .load none none)) id).kern 0 2 = true ∧ (homes k 2).map (·.1) = [0]) := by
  decide +kernel

theorem witness_service_commands :
    ((ready (parked 1) atRest).kern.cores.findSome? fun p => (p.2.parks.find? fun q => q.id == 70 && q.ctx == 0).map fun q => (p.1, q.id)) =
      some (0, 70) ∧
    ((ready unitWaits id).kern.cores.findSome? fun p => (p.2.parks.find? fun q => q.id == 71 && q.ctx == 0).map fun q => (p.1, q.id)) = none ∧
    ((ready unitWaits id).kern.units.find? fun w => w.id == 71 && w.ctx == 0).isSome = true ∧
    frameNamed (ready objects id).kern false 5 = false ∧ (frameInfo (ready objects id).kern false 5).retired = false ∧
    frameNamed (ready objects id).kern false 1 = true ∧
    frameNamed (ready objects id).kern (2 ^ 18 ≤ 2 ^ 18 + 3) ((2 ^ 18 + 3) % 2 ^ 18) = false ∧
    graphBusy (ready imageStands id).kern 0 = false ∧ loadFound imageStands = some (1, true) ∧
    graphBusy (ready (triggered [0]) id).kern 0 = true ∧
    ((mget (ready (triggered []) id).kern.graphs 0).map fun g => (g.running, g.triggers)) = some (false, []) := by decide +kernel

theorem witness_full_store : 2 ^ 22 < storeUsed (ready storeFull id).kern 0 + 64 + 576 := by decide +kernel

theorem witness_completions :
    alone (.copy copyForm) objects (copying 0 752) = true ∧ copyFound objects 0 752 = .inl (some (none, 1, true)) ∧
    (descOf 1024 0 64 0).mode ≠ 3 ∧ alone (.copyq queueForm) objects toHbm = true ∧ queueRead objects = some false ∧
    ((spotOf (bench (.copyq queueForm) objects toHbm).kern 0 (toHbm fetchThread) queueForm false 64 64 (needWrite + needAtomic)).toOption.map
      (remoteSpot (bench (.copyq queueForm) objects toHbm).kern 0)) = some false ∧
    ((boundTimeline (bench (.tlwait waitsTl) timed id).kern 0 fetchThread 0).map fun l =>
      decide (readPair (bench (.tlwait waitsTl) timed id).kern 0 fetchThread (.v 4) ≤
        timelineValue (beforeBody (bench (.tlwait waitsTl) timed id) (.tlwait waitsTl) fetchThread) 0 0 l 0)) = some true ∧
    mxFound (furnished id) = some none ∧ xf.pge = false := by decide +kernel

theorem witness_commands_complete :
    (ready id id).fw.boot = .ready ∧ host.issuer = .host ∧ firm.issuer = .firmware ∧ (ready id id).fw.switching = false ∧
    (getCtx (ready id id).kern 1).state = .free ∧ ctxPending (ready (other .opened) id).kern 1 = false ∧
    ctxPending (ready (fun k => inState .stopped (outstanding (request .load none none) k)) id).kern 0 = true ∧
    ctxPending (ready (inState .stopped) id).kern 0 = false ∧
    ((blockOf (ready (inState .stopped) id).kern 0 0).map (·.ctx)) = some 0 ∧
    (match checkObj (ready (fun k => inState .stopped (objects k)) id).kern 0 cap2 0 slotSize 1 4 with
      | .ok n => n == 0 | .error _ => false) = true ∧
    (ready (parked 1) atRest).kern.cores.any (fun p => p.2.parks.any fun q => q.id == 70 && q.ctx == 0) = true ∧
    loadFound imageStands = some (1, true) ∧ objBusy (ready objects id).kern 0 2 = false ∧ homes (ready objects id).kern 2 ≠ [] ∧
    frameNamed (ready objects id).kern false 5 = false ∧ (frameInfo (ready objects id).kern false 5).retired = false := by
  decide +kernel

/-- Margin of die 0: OFFSET, which last changed at 0. -/
def margins (n : Nat) (s : State) : State := powered (fun p => { p with dies := mmod p.dies 0 fun d => { d with offset := n } }) s
/-- Port 0 in a state. -/
def portState (x : PortState) : State := porting (fun p => { p with state := x }) (ready id id)
/-- The lines of object 2 can be sent to object 3. -/
def exportable : W64 × W64 := (capWord, BitVec.ofNat 64 (1008 * 2 ^ 32))

/-- A hold-off of die 0 lasts until 5 µs. -/
def heldOff (s : State) : State := powered (fun p => { p with dies := mmod p.dies 0 fun d => { d with holdoff := some 5 } }) s
/-- A device that names a peer, with a context that has stopped. -/
def peered : State :=
  let s := ready (inState .stopped) id
  { s with fab := { s.fab with peers := [(7, 0)] } }

theorem witness_service_and_margins :
    ((mget (heldOff (ready id id)).pwr.dies 0).map fun x => (x.holdoff, x.attributed)) = some (some 5, none) ∧
    (heldOff (ready id id)).pwr.usec = 0 ∧ peered.fab.dev = 0 ∧
    (deviceFaults peered).find? (fun x => !peered.fw.faults.contains x) = some 0 ∧
    ((reportFault peered 0).fab.packets.map fun p => (p.dst, p.cls, p.load)) = [(7, .management, .fault 0)] ∧
    (ready id id).fw.boot = .ready ∧ (ready id id).fw.switching = false := by decide +kernel

/-- Bay 0 has started 10 groups in its cycle 0. -/
def started (slope : Nat) : State :=
  let s := sharing id
  { s with pwr := { s.pwr with bays := [(0, { Bay.reset true with starts := List.replicate 10 0, slope := slope })] } }

theorem test_slope_limits_block_starts :
    slopeFree (started 11) 0 = true ∧ slopeFree (started 10) 0 = false ∧ (chooseSource (started 10) 1).isSome = false ∧
    (chooseSource (started 16) 1).isSome = true := by decide +kernel

theorem witness_device_commands :
    ((mget (ready id id).pwr.bays 0).map fun y => (y.enabled, y.unstable)) = some (true, false) ∧
    ((mget (ready id id).pwr.bays 31).map fun y => (y.enabled, y.unstable)) = some (false, true) ∧
    bayNoRegion (ready id id).kern 0 = true ∧ bayNoBlock (ready id id).kern 0 = false ∧ bayNoRegion (ready ring cell).kern 0 = false ∧
    bayNoBlock (ready emptied id).kern 0 = true ∧ bayEmpty (ready id id).kern 31 = true ∧
    ((List.range 32).find? fun i => (mget (ready objects id).pwr.subs i).isNone) = some 0 ∧
    (mget (subscribed false capWord (ready objects id)).pwr.subs 0).isSome = true ∧ mget (ready id id).pwr.subs 0 = none ∧
    ((mget (margins 3 (ready id id)).pwr.dies 0).map fun x => (x.offset, x.lastChange, x.returning, x.holdoff, x.attributed)) =
      some (3, none, none, none, none) ∧
    [PortState.down, .isolated, .up8].all (fun x => ((mget (portState x).fab.ports 0).map (·.state)) == some x) = true ∧
    (ready id id).fw.exports = [] ∧ pairGood (ready objects id).kern 0 exportable = true ∧
    (vacated (site id id).kern).ctxs.all (fun p => p.2.state != .running) = true ∧
    (ready id id).kern.ctxs.any (fun p => p.2.state == .running) = true ∧ (ready id id).fw.patches = 0 ∧
    fuseOf (ready id id).fw 0 = (0 : Nat) ∧ ((ready id id).fw.shops.getD 1 false) = true ∧ (ready id id).fw.reports = 0 ∧
    (match checkObj (ready objects id).kern 0 cap2 0 reportSize 1 4 with | .ok n => n == 0 | .error _ => false) = true ∧
    runningImage { (ready id id).fw with slotA := some anImage } 0 = some anImage ∧ (ready id id).fw.switching = false := by decide +kernel

/-! ## Witnesses: checks, stops and charges -/

/-- A thread with a window on v3, whose result has arrived. -/
def windowed (t : Thread) : Thread := { t with held := [{ onItsWay 2 with arrived := true }] }
/-- A launch without a handler. -/
def unhandled : Kern → Kern := record [(24, List.replicate 8 255)]
/-- A word in trap state, and in a launch without a handler, raises a trap of its own. -/
def deadly (i : Instr) : Bool :=
  alone i id trapped && (trapped fetchThread).tstate && (trapped fetchThread).latch.isNone && alone i unhandled id &&
    ((threadLaunch (bench i unhandled id).kern 0 fetchThread).map fun l => (recHandler l).isNone) == some true

theorem witness_shared_checks :
    (trapsFirst (.bedld bedForm) id id && trapsFirst (.step sf) id id && trapsFirst (.add rf) id windowed &&
      trapsFirst (.add { rf with d := .s 3 }) split id) = true ∧
    sharedTrap (bench (.step sf) id id) (.step sf) fetchThread = some 0x01 ∧
    sharedTrap (bench (.add rf) id windowed) (.add rf) (windowed fetchThread) = some 0x09 ∧
    sharedTrap (bench (.add { rf with d := .s 3 }) split id) (.add { rf with d := .s 3 }) fetchThread = some 0x0A := by decide +kernel

theorem witness_double_traps :
    ([.trap sf, .brk sf, .div rf, .rem rf, .capder rc, .capadd rc, .ld { mf with disp := 1536 }, .ldx .x4 { mw with disp := 1536 },
      .st { mf with disp := 1536 }, .stx .x4 { mw with disp := 1536 }, .atom .add { ma with disp := 1536 }, .red .add { mf with disp := 1536 },
      .cas { ma with disp := 1536 }] : List Instr).all deadly = true ∧
    (getObj (bench (.capder rc) id id).kern 0 0).isSome = false ∧
    [true, false].all (fun x => (refusal (.ld mf) { mf with disp := 1536 } x needRead id trapped).isSome &&
      (refusal (.st mf) { mf with disp := 1536 } x needWrite id trapped).isSome &&
      (refusal (.red .add mf) { mf with disp := 1536 } x needAtomic id trapped).isSome) = true ∧
    (entryFree (bench .zeroWord id trapped) && actors (bench .zeroWord id trapped) == [trapped fetchThread]) = true := by decide +kernel

/-- A thread that returns to line 1 from its pre-emption. -/
def declining (t : Thread) : Thread := { returning 0 t with pre := true }
/-- A thread that returns to line 1. -/
def returningTo1 (t : Thread) : Thread := { returning 0 t with regs := { (returning 0 t).regs with k := rset 0 t.regs.k 0 1 } }

theorem witness_trap_returns_elsewhere :
    alone (.tret sf) (inState .preempting) declining = true ∧ returnCause 0 = (none, 0) ∧ (declining fetchThread).pre = true ∧
    alone (.tret sf) id returningTo1 = true ∧
    (let k := (bench (.tret sf) id returningTo1).kern
     lineInside k fetchLaunch 64 = true ∧ ((readLine k fetchLaunch 64).map fun b => (fetchCause b 64).isSome) = some true ∧
       targetCause (refetch k 0 fetchLaunch 64) 0 fetchLaunch 64 false = some (0x02, 64)) := by decide +kernel

theorem witness_prefetches :
    (let s := bench (.pref okLine) objects toHbm
     let t := toHbm fetchThread
     let k := beforeBody s (.pref okLine) t
     (match spotOf s.kern 0 t okLine true 1 1 needRead with
       | .ok p => cachedSpot k 0 p && (cachedLine (coreOf k 0) 0 (capObj p.cap) (p.ea / 64)).isNone &&
           (match objRuns k 0 (capObj p.cap) (p.ea / 64 * 64) 64 with | .ok rs => poisonHits k rs == [] | .error _ => false)
       | .error _ => false) = true) ∧
    (match spotOf (bench (.pref okLine) objects id).kern 0 fetchThread okLine true 1 1 needRead with | .ok _ => false | .error _ => true) = true ∧
    alone (.pref okLine) objects id = true := by decide +kernel

/-- Timeline 0 of the launch is that of a copy queue, in object 2 or on device 7. -/
def queueTimed (cap : Nat) (k : Kern) : Kern := record [(224, [2]), (232, bytesOfNat 8 cap)] (objects k)

theorem witness_queue_timelines :
    [752 * 2 ^ 32, 1008 * 2 ^ 32].all (fun cap => alone (.tlrdIssued readsTl) (queueTimed cap) id) = true ∧
    ((boundTimeline (bench (.tlrdIssued readsTl) (queueTimed (1008 * 2 ^ 32)) id).kern 0 fetchThread 0).map fun l =>
      (recTlKind l 0, remoteObj (bench (.tlrdIssued readsTl) (queueTimed (1008 * 2 ^ 32)) id).kern 0 (recTlCap l 0))) = some (2, true) ∧
    (objRuns (bench (.tlrdIssued readsTl) (queueTimed (752 * 2 ^ 32)) id).kern 0 2 8 8).isOk = true := by decide +kernel

/-- Context 0 with a budget, armed. -/
def budgeted (n : Nat) (k : Kern) : Kern := modCtx k 0 fun x => { x with armed := true, ebudget := n }
/-- The first unit of object 2 is poisoned. -/
def badUnit (k : Kern) : Kern := { k with poison := [(2097152, .plain)] }
/-- A request that may meet poison, and whose answer goes to no register. -/
def loose (kind : ReqKind) : Req := { request kind none none with firm := false }
/-- What such a request finds: whether it may be performed, how many poisoned units it meets, the class of its launch, and whether
its thread can take the trap. -/
def stopFound (kind : ReqKind) (f : Kern → Kern) : Bool × Nat × Nat × Bool :=
  let k := (site (fun k => f (badUnit (outstanding (loose kind) k))) id).kern
  (mayPerform (coreOf k 0) (loose kind) && (coreOf k 0).waysWaking.isNone && (cachedLine (coreOf k 0) 0 2 0).isNone,
    (poisonHits k [(2097152, 4)]).length, serialClass k 1, handles (fun k => f (badUnit (outstanding (loose kind) k))) id)

theorem witness_local_stops :
    [ReqKind.load, .cas, .atom .add].all (fun x => stopFound x id == (true, 1, 0, true) && stopFound x (budgeted 100) == (true, 1, 0, true)) = true ∧
    stopFound .load (record [(7, [2])]) = (true, 1, 2, true) ∧
    ((getCtx (site (outstanding (loose .load)) id).kern 0).armed, (getCtx (site (budgeted 100) id).kern 0).ebudget) = (false, 100) ∧
    (let k := (site (fun k => { outstanding (loose .load) k with extents := [(0, BitVec.ofNat 64 (2 ^ 62))] }) id).kern
     (match reqRuns k (loose .load) with | .ok _ => false | .error _ => true) && getThread k 0 0 0 == some fetchThread &&
       recordRoom (coreOf k 0) 1 && mayPerform (coreOf k 0) (loose .load)) = true := by decide +kernel

/-- The word at offset 64 of the scratchpad is poisoned, and has been written. -/
def badPad (k : Kern) : Kern := written (badPredicate k)
/-- What a load of it finds. -/
def padFound (f : Kern → Kern) : Option (Nat × Nat × Bool) :=
  let k := (bench (.ld mf) f id).kern
  (blockOf k 0 0).bind fun blk =>
    match spotOf k 0 fetchThread mf true 4 4 needRead with
    | .ok p => (match physical k 0 blk p with
      | .ok a => some ((poisonHits k [(a, 4)]).length, classOf k 0 fetchThread,
          p.space == .sp && (wordsOf p.ea 4).all fun w => blk.valid.contains w && !stampConflict blk 0 w)
      | .error _ => none)
    | .error _ => none

theorem witness_pad_stops :
    (alone (.ld mf) badPad id && takesTraps (.ld mf) badPad id) = true ∧ padFound badPad = some (1, 0, true) ∧
    alone (.ld mf) (fun k => record [(7, [2])] (badPad k)) id = true ∧
    padFound (fun k => record [(7, [2])] (badPad k)) = some (1, 2, true) ∧ (getCtx (bench (.ld mf) badPad id).kern 0).armed = false := by
  decide +kernel

/-- A launch without a handler has a thread on the core. -/
def bereft (k : Kern) : Kern := unhandled (budgeted 64 k)

theorem witness_charges :
    (let k := (site (budgeted 64) id).kern
     (getCtx k 0).armed && (getCtx k 0).ebudget ≤ 64 && !lacksHandler k 0 && live fetchThread && (getThread k 0 0 0).isSome &&
       ((blockOf k 0 0).map (·.ctx)) == some 0) = true ∧
    (let k := (site bereft id).kern
     (getCtx k 0).armed && (getCtx k 0).ebudget ≤ 64 && lacksHandler k 0 && (someThread k 0).isSome) = true ∧
    ((site (fun k => vacated (budgeted 64 k)) id).kern.vacated.map fun v => v.block.ctx) = [0] := by decide +kernel

theorem witness_remote_stops :
    (let s := delivered (foreign .load) (site (fun k => badUnit (objects k)) id)
     (firstArrived s.fab (foreign .load), forwardTo s (foreign .load).load, homeContext s.kern 2,
       (poisonHits s.kern [(2097152, 4)]).length)) = (true, none, some 0, 1) ∧
    answered (.poisoned 41 0 .plain 1 64) = (true, true, true) ∧ serialClass (site id id).kern 1 = 0 ∧
    (getCtx (site (abroad none) id).kern 0).armed = false ∧
    (let t := fetchThread
     t.wait = .none ∧ t.loc = .entry 0) := by decide +kernel

theorem witness_lone_matrix_wait :
    ((coreOf (site (furnished (passing .signClosed 0 none)) atMx).kern 0).threads.filter fun u => u.block == 0 &&
      match u.wait with | .mx _ _ _ => true | _ => false) = [atMx fetchThread] := by decide +kernel

/-! ## Witnesses: commands that wait -/

/-- Commands wait. -/
def awaited (is : List Instr) (s : State) : State := { s with fw := { s.fw with waiting := is } }
/-- A taken queue packet of an accepted copy still uses object 2. -/
def busyObject (k : Kern) : Kern := outstanding (request .load none none) k
/-- Objects 2 and 3 in place, object 2 on no frame. -/
def unplacedObject (k : Kern) : Kern := { objects k with extents := [(0, BitVec.ofNat 64 (2 ^ 62))] }
/-- What the words of a capability that another device holds ask of it. -/
def farCap : W64 := BitVec.ofNat 64 (1008 * 2 ^ 32)

theorem witness_waiting_commands :
    behindOthers (awaited [.pcap host 2000] (ready id id)) { host with tag := 8 } = true ∧ behindOthers (ready id id) host = false ∧
    behindOthers (awaited [.pcap host 2000] (ready id id)) firm = false ∧
    (awaited [.pcap host 2000] (ready id id)).fw.waiting.find? (fun j => issuerOf j == issuerOf (.pcap host 2000)) = some (.pcap host 2000) ∧
    objBusy (ready busyObject id).kern 0 2 = true ∧ (getCtx (ready busyObject id).kern 0).state = .running ∧
    (graphAsks (ready objects id).kern 0 0 farCap.toNat).isSome = true ∧ graphAsks (ready imageStands id).kern 0 0 cap2 = none ∧
    (imageAsks (ready objects id).kern (recordUnit 1024 0) 0 farCap.toNat (restOf (ready objects id).kern 0 farCap.toNat)).isSome = true ∧
    restOf (ready objects id).kern 0 farCap.toNat = 65536 ∧
    pairPlaced (ready objects id).kern 0 exportable = true ∧ pairGood (ready unplacedObject id).kern 0 exportable = true ∧
    pairPlaced (ready unplacedObject id).kern 0 exportable = false := by decide +kernel

/-- Frame 5 is retired. -/
def retiring (k : Kern) : Kern := { objects k with frames := mset k.frames 5 { FrameInfo.fresh .p 0 with retired := true } }

theorem witness_placing_commands :
    ((homes (ready objects id).kern 2).map fun p => (p.1, ceilDiv p.2.size (frameBytes p.2))) = [(0, 1)] ∧
    namesRetired (ready retiring id).kern (BitVec.ofNat 64 (2 ^ 62 + 5)) = true ∧
    namesRetired (ready retiring id).kern (BitVec.ofNat 64 (2 ^ 62 + 6)) = false := by decide +kernel

/-- A die that has changed its offset. -/
def changed (s : State) : State := powered (fun p => { p with dies := mmod p.dies 0 fun d => { d with offset := 3, lastChange := some 0 } }) s
/-- One that returns. -/
def returned (s : State) : State := powered (fun p => { p with dies := mmod p.dies 0 fun d => { d with returning := some 5 } }) s
/-- The firmware with an image in its slot, which has completed a bring-up or not. -/
def imaged_ (done : Bool) (s : State) : State :=
  { s with fw := { s.fw with slotA := some anImage, active := false, completed := if done then [anImage] else [] } }

theorem witness_device_refusals :
    ((mget (changed (ready id id)).pwr.dies 0).map fun x => (x.offset, x.lastChange)) = some (3, some 0) ∧
    ((mget (returned (ready id id)).pwr.dies 0).map fun x => x.returning) = some (some 5) ∧ (ready id id).pwr.usec < 5 ∧
    (powered (fun p => { p with usec := 10000 }) (changed (ready id id))).pwr.usec = 10000 ∧
    [true, false].all (fun d => runningImage (imaged_ d (ready id id)).fw 0 == some anImage &&
      (imaged_ d (ready id id)).fw.completed.contains anImage == d) = true ∧
    (ready id id).kern.ctxs.any (fun p => p.2.state == .running) = true ∧
    mget (fabric (fun b => { b with peers := [(7, 5)] }) (ready id id)).fab.peers 7 = some 5 ∧ (ready id id).fab.peerTable = none ∧
    (fabric (fun b => { b with peerTable := (getObj (ready objects id).kern 0 2) }) (ready objects id)).fab.peerTable.isSome = true ∧
    ({ (ready id id).fw with exports := [(host, [60])] } : Firmware).exports.find? (fun x => x.1 == host) = some (host, [60]) ∧
    unacked.fab.unacked.map (·.id) = [60] := by decide +kernel

/-! ## Witnesses: the step and the whole machine -/

/-- The state of a word, about to step. -/
def atWord (w : Nat) : State := State.reset.withFetchWord 96 w
/-- The next issue of core 0, before its instruction: the entry, what is fetched there, and the clock. -/
def aboutTo (w : Nat) : Option (Nat × Option (Nat × Nat) × Bool) :=
  let s := atWord w
  (chooseEntry (beginCycle { s with moves := [] } 0) 0).bind fun p =>
    (bufferedLine (coreOf s.kern 0) 0 1 0).map fun bits =>
      (p.1, fetchCause bits p.2.pc.toNat, urgent s == none && s.moves == [.issue 0] && clockRuns s 0 && pcForm p.2.pc.toNat &&
        lineInside s.kern fetchLaunch (pcLine p.2.pc.toNat) && pairField bits (pcSlot p.2.pc.toNat) != 1)

theorem witness_step_runs_decoded :
    aboutTo 0x307002C00030014200000000 = some (0, none, true) ∧
    ({ State.reset with moves := [.ev .holdOffExpiry] } : State).moves = [.ev .holdOffExpiry] ∧ urgent State.reset = none ∧
    isWord .holdOffExpiry = false := by decide +kernel

theorem witness_encoding_round_trip : WellFormed (.add rf) ∧ (encode (.add rf)).isSome = true := by decide

theorem witness_opcode_zero :
    [(0 : W96), 5].all (fun w =>
      let s := { atWord w.toNat with cur := { core := 0, entry := 0, mode := .single } }
      w.toNat / 2 ^ 88 == 0 && entryFree s && actors s == [fetchThread] && (threadLaunch s.kern 0 fetchThread).bind recHandler == some 64) = true := by
  decide +kernel

theorem witness_little_endian : Memory.wf (putBytes State.reset.kern 64 [1, 2, 3]).mem = true := by decide +kernel

theorem witness_temperature_bands : ((mget State.reset.pwr.bays 0).map (·.celsius)) = some 25 := by decide +kernel

theorem witness_memory_canonical : MemoryOk State.reset := by unfold MemoryOk; decide +kernel

theorem witness_power_in_range : PowerOk State.reset := by
  refine ⟨by unfold RatiosOk; decide, ?_, by decide, by decide, by decide, by decide⟩
  intro g h; cases h

theorem witness_words : isWord (.nop sf) = true ∧ (match exec (.nop sf) (site id id) with | .next _ => true | _ => false) = true := by
  decide +kernel

/-! ## Words of the encoding tables (R21 to R46) -/

/-- Each word decodes to its instruction. -/
def reads (ps : List (W96 × Instr)) : Bool := ps.all fun p => match decode p.1 with | .ok i => i == p.2 | .error _ => false

theorem test_integer_words : reads [
    (0x027000800030010020000000, .add rf),
    (0x037001480030010020000000, .sub { rf with sat := true, ty := .n16 }),
    (0x04700080003B000020000000, .mul { rf with a := .imm (-256) }),
    (0x057000C00080042060000000, .mulhi { rf with ty := .i64, d := .v 8, a := .v 4, b := .s 6 }),
    (0x067000800030010020FF0000, .mad { rf with c := .k 7 }),
    (0x077F0080003001AFF0000000, .div { rf with la := 15, b := .imm 255 }),
    (0x087100800030010020000000, .rem { rf with la := 1 }),
    (0x097000800F70F60020000000, .min { rf with d := .v 247, a := .v 246 }),
    (0x0A7001000030010020000000, .max { rf with ty := .n8 }),
    (0x0B7000800030010000000000, .abs { rf with b := .v 0 }),
    (0x0C7000880030010000000000, .neg { rf with b := .v 0, sat := true }),
    (0x0D700180003001002600A000, .addc { rf with ty := .n32, c := .pred false 0, qp := some 2 }),
    (0x0E700180003001002609E000, .subb { rf with ty := .n32, c := .pred true 1, qp := some 6 }),
    (0x0F7000800030010020060000, .sad { rf with c := .v 6 }),
    (0x107001800030010000000005, .addi inf),
    (0x1170008800300100FFFFFFFF, .muli { inf with ty := .i32, sat := true, imm := -1 }),
    (0x127002000030010000000005, .andi { inf with ty := .b32 }),
    (0x137002000030010000000005, .ori { inf with ty := .b32 }),
    (0x147002000030010000000005, .xori { inf with ty := .b32 }),
    (0x15700180003001000000001F, .shli { inf with imm := 31 }),
    (0x167001800030010000000000, .shri { inf with imm := 0 }),
    (0x177000800030010000000005, .sari { inf with ty := .i32 }),
    (0x187001800030000000000005, .movi { inf with a := .v 0 }),
    (0x197001850000018000000005, .cmpi { inf with d := .v 0, qp := some 0, om := 5 })] = true := by decide +kernel

theorem test_bit_words : reads [
    (0x20B002000030010020000000, .and { rf with ty := .b32, g := ⟨true, 3⟩ }),
    (0x217002000030010020000000, .or { rf with ty := .b32 }),
    (0x227002000030010020000000, .xor { rf with ty := .b32 }),
    (0x237002000030010000000000, .not { rf with ty := .b32, b := .v 0 }),
    (0x247000800030010020000000, .shl rf),
    (0x257001800030010020000000, .shr { rf with ty := .n32 }),
    (0x267000800030010020000000, .sar rf),
    (0x277002000030010020000000, .rot { rf with ty := .b32 }),
    (0x287002000030010000000000, .popc { rf with ty := .b32, b := .v 0 }),
    (0x297002000030010000000000, .clz { rf with ty := .b32, b := .v 0 }),
    (0x2A7000800030010020060000, .bfx { rf with c := .v 6 }),
    (0x2B7002000030010020060000, .bfi { rf with ty := .b32, c := .v 6 }),
    (0x2C7002000030010026030000, .sel { rf with ty := .b32, c := .pred false 3 }),
    (0x2D7000840000010020009000, .cmp { rf with d := .v 0, qp := some 1, om := 4 }),
    (0x2E70020000350F0000000000, .mov { rf with ty := .b32, a := .face .nxt 15, b := .v 0 }),
    (0x2F7002030030010020000000, .lea { rf with ty := .b32, om := 3 })] = true := by decide +kernel

theorem test_float_words : reads [
    (0x307002C00030014200000000, .fadd { rf with ty := .f32, b := .face .xm 0 }),
    (0x317003010030010020000000, .fsub { rf with ty := .f16, om := 1 }),
    (0x327002D00030010020000000, .fmul { rf with ty := .f32, rm := .rtz }),
    (0x337002F00030010020060000, .fma { rf with ty := .f32, rm := .rdn, c := .v 6 }),
    (0x347102E00030010020000000, .fdiv { rf with ty := .f32, la := 1, rm := .rup }),
    (0x357002C00030010000000000, .fsqrt { rf with ty := .f32, b := .v 0 }),
    (0x367002C00030010020000000, .fmin { rf with ty := .f32 }),
    (0x377002C00030010020000000, .fmax { rf with ty := .f32 }),
    (0x387002C70000010020009000, .fcmp { rf with ty := .f32, d := .v 0, qp := some 1, om := 7 }),
    (0x397002C00030010000000000, .fclass { rf with ty := .f32, b := .v 0 }),
    (0x3A7002C00030010000000000, .frcp { rf with ty := .f32, b := .v 0 }),
    (0x3B7002C00030010000000000, .frsq { rf with ty := .f32, b := .v 0 }),
    (0x3C702F810050020000000000, .cvt .f32 { rf with ty := .ta8, om := 1, d := .v 5, a := .v 2, b := .v 0 }),
    (0x3D7002C00030010000000000, .frnd { rf with ty := .f32, b := .v 0 }),
    (0x3E7002C40030010000000000, .fsgn { rf with ty := .f32, om := 4, b := .v 0 })] = true := by decide +kernel

theorem test_lane_words : reads [
    (0x407000010006006090009000, .plog { rf with ty := .i8, d := .v 0, a := .pred false 0, b := .pred true 1, om := 1, qp := some 1 }),
    (0x417002000000010000009000, .pset { rf with ty := .b32, b := .v 0, d := .v 0, qp := some 1 }),
    (0x427002030030010020000000, .shfl { rf with ty := .b32, om := 3 }),
    (0x437002020000010000009000, .vote { rf with ty := .b32, d := .v 0, b := .v 0, om := 2, qp := some 1 }),
    (0x447200850030010000000000, .gred { rf with b := .v 0, om := 5, la := 2 }),
    (0x45700200003001000600E000, .bcast { rf with ty := .b32, b := .v 0, c := .pred false 0, qp := some 6 }),
    (0x467002C40030010000000000, .gscan { rf with ty := .f32, om := 4, b := .v 0 }),
    (0x477002430080000000000000, .lmask { rf with ty := .b64, d := .v 8, a := .v 0, b := .v 0, om := 3 })] = true := by decide +kernel

theorem test_memory_words : reads [
    (0x507001930080040067FFFFFF, .ld { mf with ty := .n32, acq := true, sc := .dev, na := true, idx := .v 6, xs := 3, sp := .ob, disp := -1 }),
    (0x517001C00080040000000040, .st { mf with ty := .n64 }),
    (0x52700A000080040000000040, .ldx .x8 { mf with ty := .b32 }),
    (0x537002000080040000000040, .stx .x2 { mf with ty := .b32 }),
    (0x547001800080040060000040, .atom .add { mf with idx := .v 6 }),
    (0x557001800080040000000040, .red .add mf),
    (0x567001A60080040060000040, .cas { mf with idx := .v 6, acq := true, rel := true, sc := .sys }),
    (0x5770001E0000000000000000, .fence { mf with ty := .i8, d := .v 0, base := .v 0, disp := 0, acq := true, rel := true, sc := .dom }),
    (0x587000000000040004000040, .lcinv { mf with ty := .i8, d := .v 0, sp := .ob }),
    (0x587004000000000000000000, .lcinvAll { mf with ty := .i8, d := .v 0, base := .v 0, disp := 0 }),
    (0x597000000000040004000040, .wcdrain { mf with ty := .i8, d := .v 0, sp := .ob }),
    (0x597004000000000000000000, .wcdrainAll { mf with ty := .i8, d := .v 0, base := .v 0, disp := 0 }),
    (0x5A7000000080040000000040, .validSet { mf with ty := .i8 }),
    (0x5A700400A400040000000040, .validClr { mf with ty := .i8, d := .imm 64 }),
    (0x5A7008000080040000000040, .validGet { mf with ty := .i8 }),
    (0x5B7000000000040004000040, .pref { mf with ty := .i8, d := .v 0, sp := .ob }),
    (0x60700000008004A030000000, .capder { rf with ty := .i8, d := .v 8, a := .v 4, b := .imm 3 }),
    (0x617000010080040060000000, .capadd { rf with ty := .i8, d := .v 8, a := .v 4, b := .v 6, om := 1 }),
    (0x627000040080040000000000, .capq { rf with ty := .i8, d := .v 8, a := .v 4, b := .v 0, om := 4 }),
    (0x6473000000300400C4000040, .copy { mf with ty := .i8, d := .v 3, idx := .v 12, sp := .ob, la := 3 }),
    (0x657000140080040064000040, .copyq { mf with ty := .i8, rel := true, sc := .dev, d := .v 8, idx := .v 6, sp := .ob }),
    (0x667000009070040000000004, .tlwait { sf with d := .tl 7, a := .v 4, imm := 4 }),
    (0x677000000089000000000000, .tlrd { sf with d := .v 8, a := .tl 0 }),
    (0x677004000089030000000000, .tlrdIssued { sf with d := .v 8, a := .tl 3 })] = true := by decide +kernel

theorem test_matrix_words : reads [
    (0x7070003C0000000000060040, .jig { xf with jg := 15, d := .v 6, a := .v 4 }),
    (0x707004040000000000040000, .jigSt { xf with jg := 1, d := .v 4 }),
    (0x707008080000000000040000, .jigLd { xf with jg := 2, d := .v 4 }),
    (0x717003FBA2FBAABCD0000000, .mx { xf with acc := 15, jg := 14, bdb := 29, bdn := 2, fsi := 7, side := true, cja := true, pge := true, pg := 13, ver := 43981 }),
    (0x717004000004100000002050, .mxSet { xf with cjb := true, vsrc := true, a := .s 5 }),
    (0x727000C00000000010000000, .accz { xf with acc := 3, ver := 1 }),
    (0x737000400000000000040000, .accld { xf with acc := 1, d := .v 4 }),
    (0x747000400000000090040000, .accst { xf with acc := 1, d := .v 4, ver := 9 }),
    (0x747004000000000000040000, .accstNow { xf with d := .v 4 }),
    (0x757408000000000000080010, .accmov .x4 { xf with la := 4, d := .v 8, a := .v 1 }),
    (0x767000000000000000030000, .accver { xf with d := .v 3 }),
    (0x767004000000000000030000, .accverNow { xf with d := .v 3 }),
    (0x77700003E040000000040030, .bedld { xf with bdb := 31, d := .v 4, a := .v 3, fsi := 2 }),
    (0x777004001F00000000040000, .bedldGrain { xf with d := .v 4, bdn := 31 }),
    (0x787000003E00000000000000, .bedclr { xf with bdb := 1, bdn := 30 }),
    (0x807002C600C0000080000000, .qmul { rf with ty := .f32, om := 6, d := .v 12, a := .v 0, b := .v 8, c := .v 0 }),
    (0x817002C00080040009410000, .qconj { rf with ty := .f32, d := .v 8, a := .v 4, b := .v 0, c := .fs 1 }),
    (0x827002C00080040009470000, .qnorm { rf with ty := .f32, d := .v 8, a := .v 4, b := .v 0, c := .fs 7 })] = true := by decide +kernel

theorem test_cell_words : reads [
    (0x8870020040F0010000000000, .fwr { rf with ty := .b32, d := .face .me 15, b := .v 0 }),
    (0x897000000000000000000000, .step sf),
    (0x897004000000000000000000, .stepR sf),
    (0x8A700000000A020000009000, .nq { rf with ty := .i8, d := .v 0, a := .imm 2, b := .v 0, qp := some 1 }),
    (0x8B70000001400A0000000028, .settle { sf with d := .v 20, a := .v 10, imm := 40 }),
    (0x8C7002C00000100000000000, .resid { rf with ty := .f32, d := .v 0, a := .v 16, b := .v 0 }),
    (0x8D700000000000000000E000, .stest { rf with ty := .i8, d := .v 0, a := .v 0, b := .v 0, qp := some 6 }),
    (0x907000000000000000000007, .bar { sf with imm := 7 }),
    (0x917000000000000000000000, .bararr sf),
    (0x927000000000000000000000, .barwt sf),
    (0x9370000000088F0000000000, .meet { sf with a := .peg 15 }),
    (0x947000000008800000000000, .peg { sf with a := .peg 0 }),
    (0x947004000008810000003F3F, .pegDef { sf with a := .peg 1, imm := 16191 }),
    (0x957000000000010000000000, .postCore { sf with a := .v 1 }),
    (0x957004000000010000000007, .postNbr { sf with a := .v 1, imm := 7 }),
    (0x957008000000010000000000, .postBay { sf with a := .v 1 }),
    (0x967000000000000000000FFF, .yield { sf with imm := 4095 })] = true := by decide +kernel

theorem test_control_words : reads [
    (0x018000000000000000000000, .nop { sf with g := ⟨true, 0⟩ }),
    (0xA030000000000004FFFFFFFF, .bra { bf with g := ⟨false, 3⟩, ts := 4, ldisp := -1 }),
    (0xA17000000000040000000000, .jmpi { bf with a := .v 4 }),
    (0xA27000000080000000000002, .call { bf with d := .v 8, ldisp := 2 }),
    (0xA37000000080040000000000, .calli { bf with d := .v 8, a := .v 4 }),
    (0xA47000000000040000000000, .ret { bf with a := .v 4 }),
    (0xA57000000000000000000000, .exit bf),
    (0xF0700000000000000000FFFF, .trap { sf with imm := 65535 }),
    (0xF17000000000000000000000, .tret sf),
    (0xF27000000000000000000001, .brk { sf with imm := 1 }),
    (0xF37000000030001800000000, .srd { sf with d := .v 3, sr := 48 }),
    (0xF47000000000011000000000, .swr { sf with sr := 32, a := .v 1 }),
    (0xF57000006010000000000008, .grow { sf with d := .pred false 1, imm := 8 }),
    (0xF67000000000000000000010, .shrink { sf with imm := 16 }),
    (0xF77000000030001880000007, .evwait { sf with d := .v 3, sr := 49, imm := 7 }),
    (0xF87000000000040000000000, .ilinv { sf with a := .v 4 }),
    (0xF87004000000000000000000, .ilinvAll sf),
    (0xF97000000000040000000014, .sampleOn { sf with a := .v 4, imm := 20 }),
    (0xF97004000000000000000000, .sampleOff sf)] = true := by decide +kernel

/-- The words that the specification writes out in full (R48 of 01, and the programs of 13 to 15) decode to what they stand for. -/
theorem test_written_words : reads [
    (0x307002C00030014200000000, .fadd { ff with b := .face .xm 0 }),
    (0xA000000000000000FFFFFFFF, .bra { bf with g := ⟨false, 0⟩, ldisp := 0xFFFFFFFF }),
    (0x3C702F810050020000000000, .cvt .f32 { rOne with ty := .ta8, om := 1, d := .v 5, a := .v 2 }),
    (0x197001820000149000000003, .cmpi { inf with om := 2, d := .v 0, a := .v 20, qp := some 1, imm := 3 }),
    (0xF37000000020001800000000, .srd { sf with d := .v 2, sr := 0x030 }),
    (0x897000000000000000000000, .step sf), (0x8B70000001400A0000000028, .settle { sf with d := .v 20, a := .v 10, imm := 0x28 }),
    (0x8C7002C00000100000000000, .resid { ff with d := .v 0, a := .v 16, b := .v 0 }),
    (0x8D700000000000000000E000, .stest { rOne with ty := .i8, d := .v 0, a := .v 0, qp := some 6 }),
    (0x667000009000FE0000000002, .tlwait { sf with d := .tl 0, a := .k 6, imm := 2 })] = true := by decide +kernel

/-- The word is refused. -/
def refused (w : W96) : Bool := match decode w with | .ok _ => false | .error _ => true

/-- A function that is not defined, a reserved bit, a type that the instruction does not take, operands of class 110 and with a
reserved bit, QE with p7, QP without QE, a scope, a space, a face direction and a slot that do not exist, and p7 as a destination.
-/
theorem test_words_refused :
    [0x027004800030010020000000, 0x027000800030010020000001, 0x027003800030010020000000,
      0x02700080003C010020000000, 0x027000800031010020000000, 0x02700080003001002000F000,
      0x027000800030010020001000, 0x507001AA0080040000000040, 0x50700180008004000C000040,
      0x307002C00030015200000000, 0xA07000000000000500000000, 0x027000806070010020000000].all refused = true := by decide +kernel

/-- R46: the zero word is a row of its own, as is an opcode that is not assigned. -/
theorem test_rows_without_format : (decode 0 = .ok .zeroWord) ∧
    (match decode 0x830000000000000000000000 with | .ok (.unassignedMajorOpcode _) => true | _ => false) = true := by decide +kernel

/-! ## Ill-formed instructions, one for each check -/

/-- The instruction is not well formed. -/
def illFormed (i : Instr) : Bool := !encodingLegal i

theorem test_ill_formed_register_words :
    ([.add { rf with la := 1 }, .add { rf with ty := .f32 }, .add { rf with rm := .rtz }, .mulhi { rf with sat := true }, .add { rf with om := 1 },
      .add { rf with qp := some 0 }, .add { rf with d := .imm 3 }, .add { rf with d := .pred false 7 }, .add { rf with ty := .i64 },
      .add { rf with c := .v 1 }, .abs { rOne with ty := .n32 }, .addc { rf with ty := .i32, c := .pred false 0 },
      .addc { rf with ty := .n32, c := .v 1 }, .cmp { rf with d := .v 0, om := 1 }, .cmp { rPred with om := 6 }, .sel { rf with ty := .b32 },
      .mov { rOne with ty := .b32, a := .peg 0 }, .lea { rf with ty := .b32, om := 5 }, .and ff, .fadd { ff with om := 2 },
      .fadd { ff with ty := .ta8 }, .frnd { ff with b := .v 1 }, .fwr { rOne with ty := .b32, d := .face .xm 0 },
      .fwr { rOne with ty := .b64, d := .face .me 15, a := .v 4 }, .nq { rPred with ty := .i8, a := .imm 9, b := .v 0 },
      .qmul { ff with d := .v 8, a := .imm 1, b := .v 6 }, .stest { rOne with ty := .i8, d := .v 0, a := .v 0 }] : List Instr).all illFormed =
      true := by decide +kernel

theorem test_ill_formed_immediate_words :
    ([.addi { inf with ty := .ta8 }, .addi { inf with ty := .n8, imm := 256 }, .addi { inf with ty := .i8, imm := 128 }, .shli { inf with imm := 32 },
      .sari inf, .movi inf, .cmpi { inf with om := 2 }, .andi { inf with ty := .f32 }, .addi { inf with qp := some 0 }] : List Instr).all illFormed = true := by
  decide +kernel

theorem test_ill_formed_memory_words :
    ([.ld { mf with sc := .dev }, .ld { mf with rel := true }, .st { mf with acq := true }, .st { mf with la := 1 },
      .ldx .x4 mf, .ldx .x8 { mw with d := .v 241 }, .ld { mo with base := .v 5 }, .ld { mf with ty := .n64, d := .v 9 }, .atom .add { ma with ty := .n8 },
      .fence { okFence with disp := 4 }, .lcinv { okLine with sp := .sp }, .lcinvAll { okAll with base := .v 4 }, .validSet { okValid with sp := .xr },
      .validGet { okValid with d := .imm 4 }, .pref { okLine with d := .v 1 }, .copy { copyForm with idx := .v 6 }, .copyq { queueForm with rel := false },
      .capder { rc with om := 1 }, .capadd { rc with a := .v 5 }, .capq { rc with b := .v 0, om := 5 }] : List Instr).all illFormed = true := by
  decide +kernel

theorem test_ill_formed_other_words :
    ([.bra { bf with a := .v 4 }, .jmpi { bf with a := .v 4, ts := 1 }, .call { bf with d := .s 2 }, .ret { bf with a := .v 3 }, .exit { bf with ldisp := 1 },
      .jig { jigForm with acc := 1 }, .mx { xf with bdb := 31, bdn := 1 }, .mx { xf with pg := 1 }, .mx { xf with a := .v 1 },
      .mx { xf with vsrc := true, a := .v 1 }, .mx { xf with vsrc := true, a := .s 1, ver := 1 }, .mx { xf with la := 1 },
      .accz { xf with side := true }, .accld { accPlace with ver := 1 }, .accmov .x4 { xf with d := .v 8, a := .v 1, fsi := 1 },
      .accmov .x4 { xf with d := .v 8, a := .imm 256 }, .nop { sf with imm := 1 }, .step { sf with g := ⟨false, 0⟩ }, .settle { sf with d := .v 8, a := .v 4 },
      .bar { sf with imm := 8 }, .meet sf, .pegDef { onPeg with imm := 64 }, .postNbr { sf with a := .v 1, imm := 8 }, .yield { sf with imm := 4096 },
      .tlrd { sf with d := .v 8 }, .tlwait { waitsTl with imm := 0 }, .srd { sf with d := .v 3, sr := 0x1FF }, .srd { sf with d := .v 3, sr := 0x060 },
      .swr { sf with sr := 0x030, a := .v 1 }, .grow (grows 12), .grow { grows 8 with d := .pred false 7 }, .evwait { waitsEv 0 (.v 0) with imm := 0 },
      .sampleOn { samplesOn with imm := 21 }, .tret { sf with imm := 1 }] : List Instr).all illFormed = true := by decide +kernel

/-! ## Single steps, with results from the specification or by hand -/

/-- The thread after an instruction, from vector registers. -/
def threadAfter (i : Instr) (f : Kern → Kern) (g : Thread → Thread) : Option Thread :=
  match exec i (bench i f g) with
  | .next s => getThread s.kern 0 0 0
  | _ => none
/-- A vector register after it. -/
def result (i : Instr) (rs : List (Nat × W32)) (r : Nat) : Option W32 := (threadAfter i id (holding rs)).map fun t => t.regs.v.getD r 0
/-- The result that it holds. -/
def promised (i : Instr) (rs : List (Nat × W32)) : Option (List W32) :=
  (threadAfter i id (holding rs)).bind fun t => t.held.head?.map (·.vals)
/-- p1 after it. -/
def predicate (i : Instr) (rs : List (Nat × W32)) : Option Bool := (threadAfter i id (holding rs)).map fun t => t.regs.p.getD 1 false
/-- The trap record's cause, where the thread has taken a trap, with its fault word. -/
def caught (i : Instr) (f : Kern → Kern) (g : Thread → Thread) : Option (Nat × W32) :=
  (threadAfter i f g).bind fun t => if t.tstate then some ((t.regs.k.getD 1 0).toNat / 256 % 256, t.regs.k.getD 2 0) else none

theorem test_add_wraps : result (.add rf) [(1, 0x7FFFFFFF), (2, 1)] 3 = some 0x80000000 := by decide +kernel
theorem test_add_saturates : result (.add { rf with sat := true }) [(1, 0x7FFFFFFF), (2, 1)] 3 = some 0x7FFFFFFF := by decide +kernel
theorem test_sub_order : result (.sub rf) [(1, 5), (2, 7)] 3 = some 0xFFFFFFFE := by decide +kernel
theorem test_mulhi_signed : result (.mulhi rf) [(1, 0xFFFFFFFF), (2, 2)] 3 = some 0xFFFFFFFF := by decide +kernel
theorem test_mad : result (.mad rThree) [(1, 6), (2, 7), (6, 0xFFFFFFFE)] 3 = some 40 := by decide +kernel
theorem test_div_truncates : promised (.div rf) [(1, 0xFFFFFFF9), (2, 2)] = some [0xFFFFFFFD] := by decide +kernel
theorem test_rem_follows_dividend : promised (.rem rf) [(1, 0xFFFFFFF9), (2, 2)] = some [0xFFFFFFFF] := by decide +kernel
theorem test_div_by_zero : caught (.div rf) id (holding [(1, 9)]) = some (0x0C, 0) := by decide +kernel
theorem test_abs_lowest : result (.abs rOne) [(1, 0x80000000)] 3 = some 0x80000000 := by decide +kernel
theorem test_neg_natural : result (.neg { rOne with ty := .n32, sat := true }) [(1, 4)] 3 = some 0 := by decide +kernel
theorem test_min_natural : result (.min { rf with ty := .n32 }) [(1, 0xFFFFFFFF), (2, 1)] 3 = some 1 := by decide +kernel
theorem test_sad : result (.sad rThree) [(1, 2), (2, 9), (6, 10)] 3 = some 17 := by decide +kernel
theorem test_same_source_and_destination : result (.add { rf with d := .v 1 }) [(1, 3), (2, 4)] 1 = some 7 := by decide +kernel
theorem test_sari_sign : result (.sari { inf with ty := .i32, imm := 31 }) [(1, 0x80000000)] 3 = some 0xFFFFFFFF := by decide +kernel
theorem test_shl_by_register : result (.shl rf) [(1, 1), (2, 31)] 3 = some 0x80000000 := by decide +kernel
theorem test_rot : result (.rot { rf with ty := .b32 }) [(1, 0x80000001), (2, 1)] 3 = some 3 := by decide +kernel
theorem test_popc_clz : result (.popc { rOne with ty := .b32 }) [(1, 0xF0F)] 3 = some 8 ∧
    result (.clz { rOne with ty := .b32 }) [(1, 0xF0F)] 3 = some 20 := by decide +kernel
theorem test_cmp_signed : predicate (.cmp { rPred with om := 2 }) [(1, 0xFFFFFFFF), (2, 0)] = some true ∧
    predicate (.cmp { rPred with ty := .n32, om := 2 }) [(1, 0xFFFFFFFF), (2, 0)] = some false := by decide +kernel
theorem test_fadd : result (.fadd ff) [(1, 0x3F800000), (2, 0x40000000)] 3 = some 0x40400000 := by decide +kernel
theorem test_fma_one_rounding :
    result (.fma { ff with c := .v 6 }) [(1, 0x3F800001), (2, 0x3F800001), (6, 0xBF800002)] 3 = some 0x28800000 := by decide +kernel
theorem test_fdiv_by_zero : promised (.fdiv ff) [(1, 0xBF800000), (2, 0)] = some [0xFF800000] := by decide +kernel
theorem test_fmul_nan : result (.fmul ff) [(1, 0), (2, 0x7F800000)] 3 = some 0x7FC00000 := by decide +kernel
theorem test_cvt_to_float : result (.cvt .i32 { rOne with ty := .f32 }) [(1, 0x01000001)] 3 = some 0x4B800000 := by decide +kernel
theorem test_shfl_alone : result (.shfl { rf with ty := .b32 }) [(1, 77), (2, 0)] 3 = some 77 := by decide +kernel
theorem test_load_store_unwritten : caught (.ld mf) id id = some (0x0B, 64) ∧ caught (.ld { mf with disp := 1536 }) id id = some (0x04, 1536) := by
  decide +kernel
theorem test_misaligned : caught (.ld { mf with disp := 66 }) id id = some (0x04, 66) := by decide +kernel
theorem test_rights : caught (.st mo) objects id = some (0x05, 0) := by decide +kernel

/-- A byte of the block's scratchpad after an instruction. -/
def padAfter (i : Instr) (rs : List (Nat × W32)) (n : Nat) : Option Byte :=
  match exec i (bench i id (holding rs)) with
  | .next s => (blockOf s.kern 0 0).map fun b => seeByte s.kern (rowBase 0 b.baseRow + n)
  | _ => none

theorem test_store_little_endian : (List.range 5).map (fun i => padAfter (.st mf) [(8, 0x04030201)] (64 + i)) =
    [some 1, some 2, some 3, some 4, some 0] := by decide +kernel
/-- The same, where the words at 64 to 95 bytes have been written. -/
def swapAfter (i : Instr) (rs : List (Nat × W32)) : Option Byte :=
  match exec i (bench i written (holding rs)) with
  | .next s => (blockOf s.kern 0 0).map fun b => seeByte s.kern (rowBase 0 b.baseRow + 64)
  | _ => none

theorem test_cas : swapAfter (.cas ma) [(6, 0), (7, 9)] = some 9 ∧ swapAfter (.cas ma) [(6, 1), (7, 9)] = some 0 := by decide +kernel
theorem test_atom_add : swapAfter (.atom .add ma) [(6, 7)] = some 7 := by decide +kernel
theorem test_red_add : swapAfter (.red .add mf) [(8, 5)] = some 5 := by decide +kernel

/-- Where the thread stands after an instruction. -/
def pcAfter (i : Instr) (f : Kern → Kern) (g : Thread → Thread) : Option W64 := (threadAfter i f g).map (·.pc)

theorem test_branch_back : caught (.bra { bf with ldisp := 0xFFFFFFFF }) id id = some (0x04, 0xFFFFFFC0) := by decide +kernel
theorem test_branch_on : pcAfter (.bra { bf with ldisp := 2, ts := 3 }) id id = some 131 := by decide +kernel
theorem test_next_line : pcAfter (.nop sf) id id = some 64 := by decide +kernel
theorem test_call_links : result (.call { bf with d := .v 8, ldisp := 1 }) [] 8 = some 64 := by decide +kernel
theorem test_exit : (threadAfter (.exit bf) id id).map (·.loc) = some .exited := by decide +kernel
theorem test_trap_code : caught (.trap { sf with imm := 7 }) id id = some (0x12, 7) := by decide +kernel
theorem test_trap_handler : pcAfter (.brk sf) id id = some 64 := by decide +kernel
theorem test_srd_lane : result (.srd { sf with d := .v 3, sr := 0x002 }) [(3, 9)] 3 = some 0 := by decide +kernel

end Sys2Proof.Tests
end

section
/-! Memory is little-endian (R3): the bytes of a range and of a value, one by one, and a byte within a write. -/

namespace Sys2Proof.Proofs

open Sys2Proof.Machine Sys2Proof.Safety

/-! ## One byte of a byte string -/

theorem getElem?_readMem (m : List Host.Cell) (a : Nat) {n i : Nat} (hi : i < n) :
    (readMem m a n)[i]? = some (readCell m (a + i)) := by
  induction n generalizing a i with
  | zero => omega
  | succ n ih =>
    cases i with
    | zero => rfl
    | succ i => rw [readMem, List.getElem?_cons_succ, ih (a + 1) (by omega), Nat.add_right_comm, Nat.add_assoc]

theorem getElem?_bytesOfNat (x : Nat) {n i : Nat} (hi : i < n) :
    (bytesOfNat n x)[i]? = some (BitVec.ofNat 8 (x / 2 ^ (8 * i))) := by
  induction n generalizing x i with
  | zero => omega
  | succ n ih =>
    cases i with
    | zero => simp [bytesOfNat]
    | succ i =>
      have hdiv : x / 256 / 2 ^ (8 * i) = x / 2 ^ (8 * (i + 1)) := by
        rw [Nat.div_div_eq_div_mul, Nat.mul_succ, Nat.pow_add, Nat.mul_comm]
      rw [bytesOfNat, List.getElem?_cons_succ, ih (x / 256) (by omega), hdiv]

/-! ## One byte of memory after a write -/

/-- Within a write stands the byte that was written there. -/
theorem seeByte_putBytes_within {k : Kern} (a : Nat) {bs : List Byte} {i : Nat} {b : Byte} (hk : Memory.wf k.mem = true)
    (hb : bs[i]? = some b) : seeByte (putBytes k a bs) (a + i) = b := by
  obtain ⟨hi, -⟩ := List.getElem?_eq_some_iff.mp hb
  have hread : (readMem (writeMem k.mem a bs) a bs.length)[i]? = some (seeByte (putBytes k a bs) (a + i)) :=
    getElem?_readMem _ a hi
  rw [readMem_writeMem k.mem a bs hk, hb] at hread
  exact (Option.some.inj hread).symm

/-- Outside a write every byte is left alone. -/
theorem seeByte_putBytes_outside (k : Kern) (a : Nat) (bs : List Byte) {b : Nat} (h : b < a ∨ a + bs.length ≤ b) :
    seeByte (putBytes k a bs) b = seeByte k b :=
  readCell_writeMem_other k.mem a bs b h

/-- The value of a range: the byte at its lowest address is the low one. -/
theorem getNat_succ (k : Kern) (a n : Nat) : getNat k a (n + 1) = (seeByte k a).toNat + 256 * getNat k (a + 1) n := rfl

/-- Settles O53: a value is read lowest byte first, by the recursion of the read; a written value's byte i is the byte i of
its byte string; and outside the write memory reads as before. -/
theorem littleEndian : Obligations.LittleEndian := by
  unfold Obligations.LittleEndian
  refine ⟨getNat_succ, fun k a n x hk => ⟨fun i hi => ?_, fun b hb => ?_⟩⟩
  · exact seeByte_putBytes_within a hk (getElem?_bytesOfNat x hi)
  · exact seeByte_putBytes_outside k a _ (by rwa [length_bytesOfNat])

end Sys2Proof.Proofs
end

section
/-! Decoding and encoding agree (R21 to R47), and the words that the specification writes out (R45). -/

namespace Sys2Proof.Proofs

open Sys2Proof.Machine

/-! ## The word of an instruction -/

theorem decode_eq_of_word {n : Nat} {i : Instr} {w : W96} (hw : some (BitVec.ofNat 96 n) = some w)
    (hd : decode (BitVec.ofNat 96 n) = .ok i) : decode w = .ok i := Option.some.inj hw ▸ hd

/-- A word of a major opcode that is not assigned decodes to itself (R47). -/
theorem decode_unassigned {w : W96} (hw : WellFormed (.unassignedMajorOpcode w)) : decode w = .ok (.unassignedMajorOpcode w) := by
  obtain ⟨hopc, hf⟩ : w.toNat / 2 ^ 88 ≠ 0 ∧ formatOf (w.toNat / 2 ^ 88) = none := by
    simpa [WellFormed, encodingLegal] using hw
  have hne : w ≠ 0 := fun h => hopc (by rw [h]; rfl)
  simp only [decode, beq_eq_false_iff_ne.mpr hne, beq_eq_false_iff_ne.mpr hopc, hf, Bool.false_eq_true, if_false]

/-- Settles O51: case by case, the word of an instruction is that of its format with its major opcode and function, which the
decoder reads back; the events and the commands have no word. -/
theorem encodingRoundTrip : Obligations.EncodingRoundTrip := by
  unfold Obligations.EncodingRoundTrip
  intro i w hi hw
  cases i
  case zeroWord => exact Option.some.inj hw ▸ rfl
  case unassignedMajorOpcode v => exact Option.some.inj hw ▸ decode_unassigned hi
  case add x | sub x | mul x | mulhi x | mad x | div x | rem x | min x | max x | abs x | neg x | addc x | subb x | sad x | and x
    | or x | xor x | not x | shl x | shr x | sar x | rot x | popc x | clz x | bfx x | bfi x | sel x | cmp x | mov x | lea x
    | fadd x | fsub x | fmul x | fma x | fdiv x | fsqrt x | fmin x | fmax x | fcmp x | fclass x | frcp x | frsq x | frnd x
    | fsgn x | plog x | pset x | shfl x | vote x | gred x | bcast x | gscan x | lmask x | capder x | capadd x | capq x | qmul x
    | qconj x | qnorm x | fwr x | nq x | resid x | stest x =>
    exact decode_eq_of_word hw (decode_packR _ _ _ _ (by decide) (by decide) (by decide) rfl rfl hi)
  case cvt src x => cases src <;> exact decode_eq_of_word hw (decode_packR _ _ _ _ (by decide) (by decide) (by decide) rfl rfl hi)
  case addi x | muli x | andi x | ori x | xori x | shli x | shri x | sari x | movi x | cmpi x =>
    exact decode_eq_of_word hw (decode_packI _ _ _ (by decide) (by decide) rfl rfl hi)
  case ld x | st x | cas x | fence x | lcinv x | lcinvAll x | wcdrain x | wcdrainAll x | validSet x | validClr x | validGet x
    | pref x | copy x | copyq x =>
    exact decode_eq_of_word hw (decode_packM _ _ _ _ (by decide) (by decide) (by decide) rfl rfl hi)
  case ldx n x | stx n x | atom n x | red n x =>
    cases n <;> exact decode_eq_of_word hw (decode_packM _ _ _ _ (by decide) (by decide) (by decide) rfl rfl hi)
  case bra x | jmpi x | call x | calli x | ret x | exit x =>
    exact decode_eq_of_word hw (decode_packB _ _ _ (by decide) (by decide) rfl rfl hi)
  case jig x | jigSt x | jigLd x | mx x | mxSet x | accz x | accld x | accst x | accstNow x | accver x | accverNow x | bedld x
    | bedldGrain x | bedclr x =>
    exact decode_eq_of_word hw (decode_packX _ _ _ _ (by decide) (by decide) (by decide) rfl rfl hi)
  case accmov n x => cases n <;> exact decode_eq_of_word hw (decode_packX _ _ _ _ (by decide) (by decide) (by decide) rfl rfl hi)
  case nop x | tlwait x | tlrd x | tlrdIssued x | step x | stepR x | settle x | bar x | bararr x | barwt x | meet x | peg x
    | pegDef x | postCore x | postNbr x | postBay x | yield x | trap x | tret x | brk x | srd x | swr x | grow x | shrink x
    | evwait x | ilinv x | ilinvAll x | sampleOn x | sampleOff x =>
    exact decode_eq_of_word hw (decode_packS _ _ _ _ (by decide) (by decide) (by decide) rfl rfl hi)
  all_goals exact absurd hw (Option.some_ne_none w).symm

/-- Settles O50: each instruction is well formed and its word is the one written out, so the word decodes to it. -/
theorem decodedWords : Obligations.DecodedWords := by
  unfold Obligations.DecodedWords
  refine ⟨?_, ?_, ?_, ?_, ?_, ?_⟩
  all_goals exact encodingRoundTrip _ _ (by decide) (by decide)

end Sys2Proof.Proofs
end

section
/-! The long-latency instructions with a known result: each issues by holding its effect (R41, R113, R122, R136, R137). -/

namespace Sys2Proof.Proofs

open Sys2Proof.Machine Sys2Proof.Safety

/-- An instruction that issues by holding the effects e, none of which traps, holds the effect of its thread. -/
theorem holds_of_issueHeld {s : State} {i : Instr} {t : Thread} {la : BitVec 4} {e : Thread → Effect} {f : Effect}
    (hx : Executes s i t = true) (hex : exec i s = answer (issueHeld s i la e)) (htrap : ∀ u ∈ actors s, (e u).trap = none)
    (he : e t = f) : ∃ s', exec i s = .next s' ∧ Holds s s' i t f la :=
  ⟨_, hex, he ▸ issueHeld_holds hx la e htrap⟩

/-- The effect of DIV and REM where the divisor is not 0 (R113). -/
theorem divEffect_nonzero {s : State} {x : RForm} {t : Thread} (f : Int → Int → Int) (h : srcInt s t x.ty x.b ≠ 0) :
    divEffect s x f t = deliver x.ty x.sat (f (srcInt s t x.ty x.a) (srcInt s t x.ty x.b)) := by
  simp only [divEffect, beq_eq_false_iff_ne.mpr h, Bool.false_eq_true, if_false, intTwo]

/-- The effect of a floating instruction without PK (R121). -/
theorem floatEffect_single {s : State} {x : RForm} (n : Nat) (f : List Nat → Nat × BitVec 5) (t : Thread) (h : x.om ≠ 1) :
    floatEffect s x n f t = .float x.ty (f ((floatSrcs x n).map (srcRaw s t x.ty))) := by
  simp only [floatEffect, beq_eq_false_iff_ne.mpr h, Bool.false_eq_true, if_false]

/-- The participants whose values a scan combines: the lower ones, and with OM below 4 the thread itself (R137). -/
theorem gscanEffect_eq (s : State) (x : RForm) (t : Thread) :
    gscanEffect s x t =
      (let before := fun (u : Thread) => if x.om.toNat < 4 then decide (u.glane ≤ t.glane) else decide (u.glane < t.glane)
       let ps := (participants s x.g t).filter before
       if ps = [] then .values (place x.ty (identity (x.om.toNat % 4) x.ty))
       else .float x.ty (reduce (x.om.toNat % 4) x.ty x.rm x.sat (ps.map fun u => srcRaw s u x.ty x.a))) := by
  unfold gscanEffect
  rcases Nat.lt_or_ge x.om.toNat 4 with h | h
  · simp [h, Nat.not_le.mpr h]
  · simp [h, Nat.not_lt.mpr h]

theorem gscanEffect_trap (s : State) (x : RForm) (t : Thread) : (gscanEffect s x t).trap = none := by
  rw [gscanEffect_eq]
  exact (apply_ite Effect.trap _ _ _).trans (ite_self _)

/-- Settles O7: each of the instructions holds its effect, which for DIV and REM is no trap where no divisor is 0. -/
theorem heldResults : Obligations.HeldResults := by
  unfold Obligations.HeldResults
  refine ⟨fun x s t hx hb => ?_, fun x s t hx hb => ?_, fun x s t hom hx => ?_, fun x s t hom hx => ?_, fun x s t hx => ?_,
    fun x s t hx => ?_⟩
  · exact holds_of_issueHeld hx rfl (fun u hu => by rw [divEffect_nonzero _ (hb u hu)]; rfl)
      (divEffect_nonzero _ (hb t (executes_mem hx)))
  · exact holds_of_issueHeld hx rfl (fun u hu => by rw [divEffect_nonzero _ (hb u hu)]; rfl)
      (divEffect_nonzero _ (hb t (executes_mem hx)))
  · exact holds_of_issueHeld hx rfl (fun u _ => by rw [floatEffect_single _ _ u hom]; rfl) (floatEffect_single _ _ t hom)
  · exact holds_of_issueHeld hx rfl (fun u _ => by rw [floatEffect_single _ _ u hom]; rfl) (floatEffect_single _ _ t hom)
  · exact holds_of_issueHeld hx rfl (fun _ _ => rfl) rfl
  · exact holds_of_issueHeld hx rfl (fun u _ => gscanEffect_trap s x u) (gscanEffect_eq s x t)

end Sys2Proof.Proofs
end

section
/-! Direct branches (R30, R140, R142): the target of BRA and CALL, and the trap of a target below zero. -/

namespace Sys2Proof.Proofs

open Sys2Proof.Machine Sys2Proof.Safety

/-! ## The program counter of a single issue -/

/-- The instruction of a single issue stands at a 64-bit program counter. -/
theorem curPc_lt {s : State} (h : s.cur.mode = .single) : curPc s < 2 ^ 64 := by
  have hm : (Mode.single == Mode.second) = false := rfl
  simp only [curPc, h, hm, Bool.false_eq_true, if_false, Nat.add_zero]
  cases curEntry s with
  | none => simp
  | some e => exact e.pc.isLt

/-! ## Targets -/

/-- The line that a direct branch at a program counter names (R30). -/
def branchLine (pc : Nat) (x : BForm) : Int := ((pc / 64 * 64 : Nat) : Int) + x.ldisp.toInt * 64

theorem goDirect_inside {pc : Nat} {x : BForm} (k after : Kern) (h : 0 ≤ branchLine pc x) :
    goDirect pc x k after = (after, .to ((branchLine pc x).toNat + x.ts.val)) := by
  have hl : ((pcLine pc : Nat) : Int) + x.ldisp.toInt * 64 = branchLine pc x := rfl
  simp only [goDirect, directTarget, hl, Int.not_lt.mpr h, if_false]

theorem goDirect_below {pc : Nat} {x : BForm} (k after : Kern) (h : branchLine pc x < 0) :
    goDirect pc x k after = (k, .trap 0x04 0 ((branchLine pc x + x.ts.val) % (2 ^ 64 : Nat)).toNat) := by
  have hl : ((pcLine pc : Nat) : Int) + x.ldisp.toInt * 64 = branchLine pc x := rfl
  simp only [goDirect, directTarget, hl, h, if_true]

/-- The fault word of a target below zero is a 64-bit word (R9). -/
theorem wrapped_lt (n : Int) : (n % (2 ^ 64 : Nat)).toNat < 2 ^ 64 := by omega

/-! ## The two courses of a direct branch -/

/-- A direct branch whose target is not below zero: what it writes is written, and its threads go to the target. -/
theorem direct_completes {s : State} {i : Instr} {x : BForm} {t : Thread} {after : Kern → Thread → List Reg → Kern} {vals : List W32}
    (hx : Executes s i t = true)
    (hb : ∀ k u d, Body s.cur.core u d (.values vals) id k (after k u d)) (hl : 0 ≤ branchLine (curPc s) x) :
    Completes s (issueEach s i fun k u d => goDirect (curPc s) x k (after k u d)) i t (.values vals) t
      ((branchLine (curPc s) x).toNat + x.ts.val) :=
  issue_completes hx _ (fun _ => .values vals) (fun _ => id) (fun _ => .to ((branchLine (curPc s) x).toNat + x.ts.val))
    (fun u _ _ k d => by rw [goDirect_inside _ _ hl]; exact ⟨rfl, hb k u d⟩)
    (fun _ _ => ⟨rfl, rfl, rfl⟩) (fun _ _ _ => rfl) _ rfl (destination_nodup s i t) List.nodup_nil

/-- A direct branch whose target is below zero raises bounds at itself (R9). -/
theorem direct_traps {s : State} {i : Instr} {x : BForm} {t : Thread} {l : Launch} {h : Nat} (after : Kern → Thread → List Reg → Kern)
    (ha : ExecutesAlone s i t = true) (hd : TakesTraps s t l h) (hl : branchLine (curPc s) x < 0) :
    TrapsTo s (issueEach s i fun k u d => goDirect (curPc s) x k (after k u d)) t h (pairtOf s.kern s.cur.core l (curPc s)) 0x04 0
      (curPc s) ((branchLine (curPc s) x + x.ts.val) % (2 ^ 64 : Nat)).toNat :=
  issueEach_traps ha _ hd (goDirect_below _ _ hl) 0x04 0 (curPc s) _ (curPc_lt (executes_single (alone_executes ha))) (wrapped_lt _)
    (by decide) (by decide) (by decide) (.inr ⟨rfl, rfl⟩)

/-- Settles O8: BRA writes nothing and CALL its link, and both take the course of a direct branch. -/
theorem directBranches : Obligations.DirectBranches := by
  unfold Obligations.DirectBranches
  refine ⟨fun x s t hx hl => ?_, fun x s t hx hl => ?_, fun x s t l h ha hd hl => ?_,
    fun x s t l h ha hd hl => ?_⟩
  · exact ⟨_, rfl, direct_completes hx (fun k u d => body_nothing k _ u d) hl⟩
  · exact ⟨_, rfl, direct_completes hx (fun k u d => body_writeRegs k _ u d _) hl⟩
  · exact ⟨_, rfl, direct_traps (fun k _ _ => k) ha hd hl⟩
  · exact ⟨_, rfl, direct_traps (linked s) ha hd hl⟩

end Sys2Proof.Proofs
end

section
/-! What a step of an issue unit executes (R13, R18, R56, R266): the turn of a core changes nothing that the front of an entry
reads, and the front of an entry is what its line holds. -/

namespace Sys2Proof.Proofs

open Sys2Proof.Machine

/-! ## The turn of a core -/

/-- The second of two writes at one key stands. -/
theorem mset_mset_same {α : Type} (m : FMap α) (i : Nat) (a b : α) : mset (mset m i a) i b = mset m i b := by
  induction m with
  | nil => simp [mset]
  | cons p m ih =>
    obtain ⟨j, x⟩ := p
    by_cases hlt : i < j
    · simp [mset, hlt]
    · by_cases heq : i = j
      · simp [mset, heq]
      · simp [mset, hlt, heq, ih]

/-- Two changes of a core are one. -/
theorem modCore_modCore (k : Kern) (c : Nat) (f g : Core → Core) :
    modCore (modCore k c f) c g = modCore k c fun core => g (f core) := by
  unfold modCore
  rw [mset_mset_same]
  simp [coreOf]

/-- The note since when an entry has not been ready, at a turn of its core (R269). -/
def noteReady (s : State) (c : Nat) (cycle : Nat) (p : Nat × Entry) : Nat × Entry :=
  if entryReady s c p.1 p.2 then (p.1, { p.2 with idleSince := cycle }) else p

/-- The state in which a turn finds which entries are ready: its core is one cycle on. -/
def oneCycleOn (s : State) (c : Nat) : State :=
  { s with kern := modCore s.kern c fun core => { core with cycle := core.cycle + 1 } }

/-- The turn of a core adds a cycle and takes the notes. -/
theorem beginCycle_eq (s : State) (c : Nat) :
    beginCycle s c = { s with kern := modCore s.kern c fun core =>
      { core with cycle := core.cycle + 1, entries := core.entries.map (noteReady (oneCycleOn s c) c (core.cycle + 1)) } } := by
  rw [beginCycle, modCore_modCore]
  rfl

/-! ## The front of an entry -/

/-- The front of an entry reads the line buffer of the core, the launch and the code object alone. -/
theorem faceOf_modCore {k : Kern} {c : Nat} {f : Core → Core} (e : Entry) (hf : (f (coreOf k c)).lines = (coreOf k c).lines) :
    faceOf (modCore k c f) c e = faceOf k c e := by
  have hinside : ∀ l line, lineInside (modCore k c f) l line = lineInside k l line := fun _ _ => rfl
  have hline : ∀ ctx o line, bufferedLine (coreOf (modCore k c f) c) ctx o line = bufferedLine (coreOf k c) ctx o line := by
    intro ctx o line
    rw [coreOf_modCore_same, bufferedLine, hf, bufferedLine]
  simp only [faceOf, modCore_launches, hinside, hline]

theorem faceOf_beginCycle (s : State) (c : Nat) (e : Entry) : faceOf (beginCycle s c).kern c e = faceOf s.kern c e := by
  rw [beginCycle_eq]
  exact faceOf_modCore e rfl

/-- The front of an entry whose line is buffered, passes its check and is entered at a slot: the members at that slot (R13, R18). -/
theorem faceOf_buffered {k : Kern} {c : Nat} {x : Entry} {l : Launch} {bits : BitVec 512} (hl : mget k.launches x.launch = some l)
    (hform : pcForm x.pc.toNat = true) (hin : lineInside k l (pcLine x.pc.toNat) = true)
    (hb : bufferedLine (coreOf k c) l.ctx (capObj (recCode l)) (pcLine x.pc.toNat) = some bits)
    (hf : fetchCause bits x.pc.toNat = none) :
    faceOf k c x =
      if pcSlot x.pc.toNat < 4 && pairField bits (pcSlot x.pc.toNat) == 1 then
        .two (memberOf (slotWord bits (pcSlot x.pc.toNat))) (memberOf (slotWord bits (pcSlot x.pc.toNat + 1)))
      else .one (memberOf (slotWord bits (pcSlot x.pc.toNat))) := by
  simp only [faceOf, hl, hin, hb, hf, hform, Bool.not_true, Bool.false_eq_true, if_false]

theorem memberOf_decode {w : W96} {i : Instr} (h : decode w = .ok i) : memberOf w = .instr i := by
  simp only [memberOf, h]

/-! ## The step -/

/-- The issue unit of a core whose clock runs executes the front of the entry that it chooses (R266). -/
theorem issuePlan_chosen {s : State} {c e : Nat} {x : Entry} (hc : clockRuns s c = true)
    (he : chooseEntry (beginCycle s c) c = some (e, x)) :
    (∀ a, faceOf s.kern c x = .one a → issuePlan s c = .one a (inHand (beginCycle s c) c e .single)) ∧
    ∀ a b, faceOf s.kern c x = .two a b → issuePlan s c = .two a b (inHand (beginCycle s c) c e .first) := by
  constructor
  · intro a ha
    simp only [issuePlan, hc, he, faceOf_beginCycle, ha, Bool.not_true, Bool.false_eq_true, if_false]
  · intro a b ha
    simp only [issuePlan, hc, he, faceOf_beginCycle, ha, Bool.not_true, Bool.false_eq_true, if_false]

/-- Without an urgent event, a move names a core to issue, or the turn does (log entry 1). -/
theorem planOf_issue {s s0 : State} {c : Nat} (hu : urgent s = none)
    (h : (∃ rest, s.moves = .issue c :: rest ∧ s0 = { s with moves := rest }) ∨
      (s.moves = [] ∧ s.turn = c ∧ c < 256 ∧ s0 = { s with turn := c + 1 })) : planOf s = issuePlan s0 c := by
  rcases h with ⟨rest, hm, rfl⟩ | ⟨hm, rfl, hlt, rfl⟩
  · simp only [planOf, hu, hm]
  · simp only [planOf, hu, hm, Nat.not_le.mpr hlt, if_false]

/-- Settles O55: the front of the chosen entry is what its line holds at the entry's slot, and the plan executes it. -/
theorem stepRunsDecoded : Obligations.StepRunsDecoded := by
  unfold Obligations.StepRunsDecoded
  refine ⟨fun s c => ?_, fun s s0 c e x l bits i hu hs hc he hl hform hin hb hf hi => ?_, fun s i rest hu hm hw => ?_⟩
  · refine ⟨(coreOf s.kern c).entries.map (noteReady (oneCycleOn s c) c ((coreOf s.kern c).cycle + 1)), ?_, ?_⟩
    · rw [List.map_map]
      refine List.map_congr_left fun p _ => ?_
      simp only [Function.comp_apply, noteReady]
      split <;> rfl
    · rw [beginCycle_eq]; rfl
  · have hkern : s0.kern = s.kern ∧ clockRuns s0 c = clockRuns s c := by
      rcases hs with ⟨rest, -, rfl⟩ | ⟨-, -, -, rfl⟩ <;> exact ⟨rfl, rfl⟩
    obtain ⟨hone, htwo⟩ := issuePlan_chosen (hkern.2.trans hc) he
    have hplan := planOf_issue hu hs
    have hface := faceOf_buffered hl hform hin hb hf
    rw [hkern.1, hface] at hone htwo
    refine ⟨fun hsingle => ?_, fun j hlt hpair hj t ht => ?_⟩
    · have hno : (decide (pcSlot x.pc.toNat < 4) && pairField bits (pcSlot x.pc.toNat) == 1) = false := by
        rw [Bool.and_eq_false_iff, decide_eq_false_iff_not, beq_eq_false_iff_ne]
        exact hsingle.imp (fun h => by omega) id
      rw [step, hplan, hone (.instr i) (by rw [hno, memberOf_decode hi]; rfl)]
      rfl
    · rw [step, hplan, htwo (.instr i) (.instr j) (by rw [memberOf_decode hi, memberOf_decode hj, hpair, decide_eq_true hlt]; rfl)]
      simp only [runCouple, runMember, ht]
  · simp only [step, planOf, hu, hm, hw, Bool.false_eq_true, if_false, runMember]

end Sys2Proof.Proofs
end

section
/-! Traps (R46 to R48, R235 to R240): the checks before an instruction's own, words that are no instructions, and double traps. -/

namespace Sys2Proof.Proofs

open Sys2Proof.Machine Sys2Proof.Safety

/-! ## A lone thread that does not execute -/

theorem mmod_mmod_same {α : Type} (m : FMap α) (i : Nat) (f g : α → α) : mmod (mmod m i f) i g = mmod m i fun a => g (f a) := by
  cases h : mget m i with
  | none => simp only [mmod, h]
  | some a => simp only [mmod, h, mget_mset_same, mset_mset_same]

/-- An entry issues twice in one cycle as it does once. -/
theorem markIssued_markIssued (k : Kern) (c e : Nat) : markIssued (markIssued k c e) c e = markIssued k c e := by
  simp only [markIssued, modCore_modCore, mmod_mmod_same]

/-- A trap at issue after the entry has been marked as issued already. -/
theorem finishIssue_markIssued (s : State) (k : Kern) (t : Thread) (cause sub fault : Nat) :
    finishIssue s (markIssued k s.cur.core s.cur.entry) [(t, .trap cause sub fault)] = finishIssue s k [(t, .trap cause sub fault)] := by
  simp only [finishIssue, List.foldl_cons, List.foldl_nil, countsWindow, Bool.false_eq_true, if_false, markIssued_markIssued]

/-- An issue does nothing for no threads, but that a pegged MX marks its entry as issued. -/
def IdleForNone (s : State) (run : Kern → List (Thread × List Reg) → Kern × List Course) : Prop :=
  ∀ k, (run k []).1 = k ∨ (run k []).1 = markIssued k s.cur.core s.cur.entry

/-- An issue by a lone thread that a check keeps from executing: only its trap is taken. -/
theorem issue_refused_eq {s : State} {i : Instr} {t : Thread} {cause : Nat}
    {run : Kern → List (Thread × List Reg) → Kern × List Course}
    (hm : s.cur.mode = .single) (hc : canIssue s i = true) (ha : actors s = [t]) (hv : verdictOf s i t = some (.trap cause 0 0))
    (hrun : IdleForNone s run) : issue s i run = { s with kern := finishIssue s s.kern [(t, .trap cause 0 0)] } := by
  have hfirst : (Mode.single == Mode.first) = false := rfl
  have hk : ∀ k, nameWindows s i [] k = k := fun _ => rfl
  simp only [issue, hc, if_true, hm, hfirst, Bool.false_eq_true, if_false, ha, List.filter_cons, hv, Option.isNone_some,
    List.filter_nil, List.map_nil, zipCourses, hk, meetFaces, useObjs, acquireFaces, List.foldl_nil, List.any_nil]
  rcases hrun s.kern with h | h
  · rw [h]
  · rw [h, finishIssue_markIssued]

/-- An unassigned word or a zero word in a lone thread: only its trap is taken (R14, R47). -/
theorem issueIllegal_eq {s : State} {t : Thread} (cause : Nat) (hm : s.cur.mode = .single) (he : entryFree s = true)
    (ha : actors s = [t]) (hlatch : t.latch = none) :
    issueIllegal s cause = { s with kern := finishIssue s s.kern [(t, .trap cause 0 0)] } := by
  have hfirst : (Mode.single == Mode.first) = false := rfl
  simp only [issueIllegal, he, if_true, hm, hfirst, Bool.false_eq_true, if_false, ha, List.map_cons, List.map_nil, latchedTrap, hlatch,
    Option.getD_none]

theorem butCaches_refl (c : Nat) (k : Kern) : ButCaches c k k := ⟨rfl, fun _ _ => rfl, rfl⟩

/-- A thread that traps at its instruction before it has read an operand. -/
theorem finishIssue_trapsHere {s : State} {t : Thread} {l : Launch} {h cause : Nat} (hm : s.cur.mode = .single) (ha : actors s = [t])
    (hd : TakesTraps s t l h) (hcause : cause < 256) (hne : cause ≠ 0x10) :
    TrapsTo s { s with kern := finishIssue s s.kern [(t, .trap cause 0 0)] } t h (pairtOf s.kern s.cur.core l (curPc s)) cause 0
      (curPc s) 0 :=
  finishIssue_traps (butCaches_refl _ _) (actors_getThread (by rw [ha]; exact List.mem_singleton_self t)) hd _ cause 0 (curPc s) 0
    (curPc_lt hm) (by decide) hcause (by decide) hne (.inr ⟨rfl, rfl⟩)

theorem issueIllegal_traps {s : State} {t : Thread} {l : Launch} {h : Nat} (cause : Nat) (hm : s.cur.mode = .single)
    (he : entryFree s = true) (ha : actors s = [t]) (hd : TakesTraps s t l h) (hcause : cause < 256) (hne : cause ≠ 0x10) :
    TrapsTo s (issueIllegal s cause) t h (pairtOf s.kern s.cur.core l (curPc s)) cause 0 (curPc s) 0 := by
  rw [issueIllegal_eq cause hm he ha hd.2.2.2.2]
  exact finishIssue_trapsHere hm ha hd hcause hne

/-! ## The checks that every instruction shares (R48) -/

theorem runMx_idle (s : State) (set : Bool) (x : XForm) : IdleForNone s (runMx s set x) := by
  intro k
  cases h : x.pge with
  | true => exact .inr (by simp only [runMx, h, if_true]; rfl)
  | false => exact .inl (by simp only [runMx, h, Bool.false_eq_true, if_false])

/-- Every word but those that are no instructions is executed by an issue, which is idle for no threads. -/
theorem exec_eq_issue {i : Instr} (hi : isWord i = true) (hzero : i ≠ .zeroWord) (hopc : ∀ w, i ≠ .unassignedMajorOpcode w)
    (s : State) : ∃ run, IdleForNone s run ∧ exec i s = answer (issue s i run) := by
  cases i
  case zeroWord => exact absurd rfl hzero
  case unassignedMajorOpcode w => exact absurd rfl (hopc w)
  case mx x => exact ⟨_, runMx_idle s false x, rfl⟩
  case mxSet x => exact ⟨_, runMx_idle s true x, rfl⟩
  -- what is left are events and commands, which are no words, and plain issues
  all_goals try cases hi
  all_goals exact ⟨_, fun _ => .inl rfl, rfl⟩

/-- A word that a shared check refuses in a lone thread traps there, and nothing else happens. -/
theorem exec_sharedTrap {i : Instr} {s : State} {t : Thread} {l : Launch} {h cause : Nat} (hi : isWord i = true)
    (hzero : i ≠ .zeroWord) (hopc : ∀ w, i ≠ .unassignedMajorOpcode w) (hm : s.cur.mode = .single) (hc : canIssue s i = true)
    (ha : actors s = [t]) (hd : TakesTraps s t l h) (hs : sharedTrap s i t = some cause) (hcause : cause < 256) (hne : cause ≠ 0x10) :
    ∃ s', exec i s = .next s' ∧ TrapsTo s s' t h (pairtOf s.kern s.cur.core l (curPc s)) cause 0 (curPc s) 0 := by
  obtain ⟨run, hrun, he⟩ := exec_eq_issue hi hzero hopc s
  have hv : verdictOf s i t = some (.trap cause 0 0) := by simp only [verdictOf, latchedTrap, hd.2.2.2.2, hs]
  exact ⟨_, he, issue_refused_eq hm hc ha hv hrun ▸ finishIssue_trapsHere hm ha hd hcause hne⟩

/-- A slot that is no instruction names no operand, and no check of its own forbids it. -/
theorem noOperands {i : Instr} (hi : i = .zeroWord ∨ ∃ w, i = .unassignedMajorOpcode w) (k : Kern) (c : Nat) (t : Thread) :
    illegalOwn k c t i = false ∧ illegalFor k c t (threadUses k c t i) = false ∧ windowConflict t (threadUses k c t i) = false ∧
      scalarDst (threadUses k c t i) = false := by
  rcases hi with rfl | ⟨w, rfl⟩ <;> exact ⟨rfl, rfl, rfl, rfl⟩

theorem sharedChecks : Claims.SharedChecks := by
  intro i s t l h hi hm hc ha hd
  by_cases hno : i = .zeroWord ∨ ∃ w, i = .unassignedMajorOpcode w
  · obtain ⟨hown, hfor, hwin, hscal⟩ := noOperands hno s.kern s.cur.core t
    simp only [hown, hfor, hwin, hscal, Bool.or_self, Bool.false_eq_true, false_implies, implies_true, and_self]
  · obtain ⟨hzero, hopc⟩ := not_or.mp hno
    have htraps := fun cause => exec_sharedTrap (cause := cause) hi hzero (not_exists.mp hopc) hm hc ha hd
    refine ⟨fun hill => htraps 0x01 ?_ (by decide) (by decide), fun hill hwin => htraps 0x09 ?_ (by decide) (by decide),
      fun hill hwin hg hscal hnamed hsplit => htraps 0x0A ?_ (by decide) (by decide)⟩
    · simp only [sharedTrap, hill, if_true]
    · simp only [sharedTrap, hill, hwin, if_true, Bool.false_eq_true, if_false]
    · simp only [sharedTrap, hill, hwin, hg, hscal, hnamed, hsplit, Bool.not_false, Bool.and_self, if_true, Bool.false_eq_true, if_false]

/-! ## Traps of instructions and words -/

theorem trapInstructions : Claims.TrapInstructions := by
  refine ⟨fun x s t l h ha hd hn => ⟨_, rfl, ?_⟩, fun x s t l h ha hd => ⟨_, rfl, ?_⟩⟩
  · exact issueEach_traps ha _ hd rfl 0x12 0 (curNext s) _ hn (by have := x.imm.isLt; omega) (by decide) (by decide) (by decide) (.inl rfl)
  · exact issueEach_traps ha _ hd rfl 0x12 1 (curPc s) _ (curPc_lt (executes_single (alone_executes ha)))
      (by have := x.imm.isLt; omega) (by decide) (by decide) (by decide) (.inr ⟨rfl, rfl⟩)

/-- The effect of DIV and REM where the divisor is 0 (R113). -/
theorem divEffect_zero {s : State} {x : RForm} {t : Thread} (f : Int → Int → Int) (h : srcInt s t x.ty x.b = 0) :
    divEffect s x f t = { Effect.values [] with trap := some 0x0C } := by
  simp only [divEffect, h, beq_self_eq_true, if_true]

/-- DIV and REM by 0 change nothing and trap. -/
theorem heldBody_divZero {s : State} {x : RForm} {t : Thread} (f : Int → Int → Int) (h : srcInt s t x.ty x.b = 0) (c : Nat)
    (la : BitVec 4) (k : Kern) (d : List Reg) : heldBody c la (divEffect s x f) k t d = (k, .trap 0x0C 0 0) := by
  simp only [heldBody, divEffect_zero f h]

theorem trappingWords : Claims.TrappingWords := by
  refine ⟨fun x s t l h m hm ha hd hz => ?_, fun s t l h hm he ha hd => ?_, fun w s t l h hm he ha hd => ?_⟩
  · have htraps := fun (i : Instr) f (ha : ExecutesAlone s i t = true) =>
      issueEach_traps ha (heldBody s.cur.core x.la (divEffect s x f)) hd (heldBody_divZero f hz _ _ _ _) 0x0C 0 (curPc s) 0
        (curPc_lt (executes_single (alone_executes ha))) (by decide) (by decide) (by decide) (by decide) (.inr ⟨rfl, rfl⟩)
    rcases hm with rfl | rfl <;> exact ⟨_, rfl, htraps _ _ ha⟩
  · exact ⟨_, rfl, issueIllegal_traps 0x03 hm he ha hd (by decide) (by decide)⟩
  · exact ⟨_, rfl, issueIllegal_traps 0x01 hm he ha hd (by decide) (by decide)⟩

/-- A word of major opcode 0x00: the zero word, or one that the decoder refuses (R46). -/
theorem memberOf_opcodeZero {w : W96} (h : w.toNat / 2 ^ 88 = 0) : memberOf w = if w = 0 then .instr .zeroWord else .bad := by
  unfold memberOf decode
  by_cases hw : w = 0
  · simp only [hw, beq_self_eq_true, if_true]
  · simp only [beq_eq_false_iff_ne.mpr hw, hw, h, beq_self_eq_true, if_true, Bool.false_eq_true, if_false]

/-- Settles O52: both kinds of words with major opcode 0x00 trap as an illegal issue does. -/
theorem opcodeZero : Obligations.OpcodeZero := by
  unfold Obligations.OpcodeZero
  intro w hw s t l h hm he ha hd
  rw [memberOf_opcodeZero hw]
  split
  · exact ⟨_, rfl, issueIllegal_traps 0x03 hm he ha hd (by decide) (by decide)⟩
  · exact ⟨_, rfl, issueIllegal_traps 0x01 hm he ha hd (by decide) (by decide)⟩

/-! ## Stopping a context (R239) -/

theorem putRuns_ctxs (rs : List (Nat × Nat)) (k : Kern) (bs : List Byte) : (putRuns k rs bs).ctxs = k.ctxs := by
  induction rs generalizing k bs with
  | nil => rfl
  | cons r rs ih => rw [putRuns, ih, putBytes_ctxs]

theorem sendLines_ctxs (ctx dev o n : Nat) (k : Kern) (off : Nat) (bs : List Byte) :
    (sendLines k ctx dev o off bs n).ctxs = k.ctxs := by
  induction n generalizing k off bs with
  | zero => rfl
  | succ n ih =>
    unfold sendLines
    split
    · rfl
    · exact ih _ _ _

theorem writeObj_ctxs (k : Kern) (ctx o off : Nat) (bs : List Byte) : (writeObj k ctx o off bs).ctxs = k.ctxs := by
  unfold writeObj
  split
  · next rs _ =>
    refine Eq.trans ?_ (putRuns_ctxs rs k bs)
    unfold sendWrite
    split
    · split
      · exact sendLines_ctxs _ _ _ _ _ _ _
      · rfl
    · rfl
  · rfl

theorem logRecord_ctxs (k : Kern) (ctx type serial : Nat) (cycle : W64) (body : List Byte) :
    (logRecord k ctx type serial cycle body).ctxs = k.ctxs := by
  unfold logRecord
  dsimp only
  split
  · rfl
  · split
    · rfl
    · split
      · rfl
      · split
        · rfl
        · rw [writeObj_ctxs, writeObj_ctxs]

theorem getCtx_modCtx (k : Kern) (x : Nat) (f : Ctx → Ctx) : getCtx (modCtx k x f) x = f (getCtx k x) := by
  simp only [getCtx, modCtx, mget_mset_same, Option.getD_some]

theorem getCtx_of_ctxs {k k' : Kern} (h : k'.ctxs = k.ctxs) (x : Nat) : getCtx k' x = getCtx k x := by
  simp only [getCtx, h]

theorem ctxs_within {c : Nat} {keys : Nat → Nat → Bool} {k k' : Kern} (h : Within c keys k k') : k'.ctxs = k.ctxs := by rw [h.shared]

theorem ctxs_butCaches {c : Nat} {k k' : Kern} (h : ButCaches c k k') : k'.ctxs = k.ctxs := by rw [h.shared]

theorem stopContext_stopped (k : Kern) (ctx c : Nat) (t : Thread) (r : List W32) :
    (getCtx (stopContext k ctx c t r) ctx).state = .stopped := by
  unfold stopContext
  split
  · next h => exact beq_iff_eq.mp h
  · rw [getCtx_of_ctxs (logRecord_ctxs _ _ _ _ _ _), getCtx_modCtx]

/-! ## Double traps (R237, R239) -/

/-- A synchronous trap in trap state, or without a handler, stops the context of the launch. -/
theorem trapEntry_stops {k : Kern} {c : Nat} {t : Thread} {l : Launch} (ht : getThread k c t.tslot t.lane = some t)
    (hl : threadLaunch k c t = some l) (h : t.tstate = true ∨ recHandler l = none) (cause sub : Nat) (saved fault : W64) :
    (getCtx (trapEntry k c t cause sub saved fault false).1 l.ctx).state = .stopped := by
  have hn : nowThread k c t = t := by simp only [nowThread, ht, Option.getD_some]
  unfold trapEntry
  simp only [hn, hl]
  cases hh : recHandler l with
  | none => exact stopContext_stopped _ _ _ _ _
  | some handler =>
    have hts : t.tstate = true := h.resolve_right (by rw [hh]; exact Option.some_ne_none _)
    simp only [hts, Bool.not_false, Bool.and_self, if_true]
    exact stopContext_stopped _ _ _ _ _

/-- The contexts after an issue of one thread are those after its course. -/
theorem finishIssue_ctxs (s : State) (k : Kern) (t : Thread) (x : Course) : (finishIssue s k [(t, x)]).ctxs =
    (applyCourse (curPc s) (curNext s) s.cur.core
      (markIssued (if countsWindow x then countWindows k s.cur.core t s.kern.id else k) s.cur.core s.cur.entry) (t, x)).1.ctxs := by
  simp only [finishIssue, List.foldl_cons, List.foldl_nil, applyCourses, markFormed, modCore_ctxs]
  exact ctxs_within (within_moveThreads (keys := fun _ _ => true) _ _ fun _ _ => rfl)

/-- A thread that stays where it is leaves the contexts as its body left them. -/
theorem finishIssue_stay_ctxs (s : State) (k : Kern) (t : Thread) : (finishIssue s k [(t, .stay)]).ctxs = k.ctxs := by
  have hcourse : ∀ k, (applyCourse (curPc s) (curNext s) s.cur.core k (t, .stay)).1.ctxs = k.ctxs := fun _ => rfl
  rw [finishIssue_ctxs, hcourse, markIssued, modCore_ctxs]
  exact ctxs_within (within_countWindows (keys := fun _ _ => true) k t s.kern.id rfl)

/-- A lone thread whose trap is a double trap stops its context. -/
theorem finishIssue_stops {s : State} {k : Kern} {t : Thread} {l : Launch} {x : Course} (hk : ButCaches s.cur.core s.kern k)
    (ht : getThread s.kern s.cur.core t.tslot t.lane = some t) (hl : threadLaunch s.kern s.cur.core t = some l)
    (h : t.tstate = true ∨ recHandler l = none) (hlatch : t.latch = none)
    (hx : (∃ p cause sub fault, x = .trapAt p cause sub fault) ∨ ∃ cause sub fault, x = .trap cause sub fault) :
    (getCtx (finishIssue s k [(t, x)]) l.ctx).state = .stopped := by
  generalize hk1 : unlatch (markIssued k s.cur.core s.cur.entry) s.cur.core t = k1
  have hw : Within s.cur.core (fun a b => a == t.tslot && b == t.lane) k k1 := by
    rw [← hk1]
    exact (within_markIssued _ _).trans (within_modThis _ t _ (keepsKey_latch _) (keys_self t))
  have ht1 : getThread k1 s.cur.core t.tslot t.lane = some t := by
    rw [← hk1, unlatch, getThread_modThis_same _ _ _ _ (keepsKey_latch _), getThread_markIssued, getThread_butCaches hk, ht,
      Option.map_some, ← hlatch]
  have hl1 := (threadLaunch_within hw t).trans ((threadLaunch_butCaches hk t).trans hl)
  have hstops := fun cause sub => trapEntry_stops ht1 hl1 h cause sub
  rw [getCtx_of_ctxs (finishIssue_ctxs s k t x)]
  rcases hx with ⟨p, cause, sub, fault, rfl⟩ | ⟨cause, sub, fault, rfl⟩
  · rw [← hk1] at hstops
    exact hstops cause sub _ _
  · simp only [countsWindow, Bool.false_eq_true, if_false, applyCourse, rollback, hlatch]
    rw [← hk1] at hstops
    exact hstops cause sub _ _

/-- An issue by a lone thread whose body changes nothing and raises a double trap. -/
theorem issueEach_stops {s : State} {i : Instr} {t : Thread} {l : Launch} {x : Course} (ha : ExecutesAlone s i t = true)
    (f : Kern → Thread → List Reg → Kern × Course) (hf : f (beforeBody s i t) t (destination s i t) = (beforeBody s i t, x))
    (hl : threadLaunch s.kern s.cur.core t = some l) (h : t.tstate = true ∨ recHandler l = none) (hlatch : t.latch = none)
    (hx : (∃ p cause sub fault, x = .trapAt p cause sub fault) ∨ ∃ cause sub fault, x = .trap cause sub fault) :
    (getCtx (issueEach s i f).kern l.ctx).state = .stopped := by
  rw [issueEach_alone_eq ha, hf]
  exact finishIssue_stops (caches_before s.kern s.cur.core i [t]) (actors_getThread (executes_mem (alone_executes ha))) hl h hlatch hx

/-- An instruction that may not run in trap state stops the context of a thread that issues it there. -/
theorem unlessTrapState_stops {s : State} {i : Instr} {t : Thread} {l : Launch} (ha : ExecutesAlone s i t = true) (hts : t.tstate = true)
    (hl : threadLaunch s.kern s.cur.core t = some l) (body : Kern → Thread → List Reg → Kern × Course) :
    (getCtx (issueEach s i (unlessTrapState s body)).kern l.ctx).state = .stopped := by
  have hlaunch : threadLaunch (beforeBody s i t) s.cur.core t = some l :=
    (threadLaunch_butCaches (caches_before s.kern s.cur.core i [t]) t).trans hl
  have hbody : unlessTrapState s body (beforeBody s i t) t (destination s i t) =
      (doubleTrap (beforeBody s i t) s.cur.core t (BitVec.ofNat 64 (curPc s)), .stay) := by
    simp only [unlessTrapState, hts, if_true]
  rw [issueEach_alone_eq ha, hbody, setKern, getCtx_of_ctxs (finishIssue_stay_ctxs s _ t), doubleTrap, hlaunch]
  exact stopContext_stopped _ _ _ _ _

/-- An access that R151 refuses changes nothing and traps. -/
theorem checkAccess_refused {s : State} {k : Kern} {t : Thread} {x : MForm} {useIdx : Bool} {size need : Nat} {touch : Touch}
    {e : Nat × Nat} (h : spotOf s.kern s.cur.core t x useIdx size size need = .error e) :
    checkAccess s k t x useIdx size need touch = (k, .error (.trap e.1 0 e.2)) := by
  simp only [checkAccess, h]

theorem loadBody_refused {s : State} {t : Thread} {x : MForm} {size : Nat} {e : Nat × Nat}
    (h : spotOf s.kern s.cur.core t x true size size needRead = .error e) (k : Kern) (d : List Reg) :
    loadBody s x size k t d = (k, .trap e.1 0 e.2) := by
  simp only [loadBody, checkAccess_refused h]

theorem storeBody_refused {s : State} {t : Thread} {x : MForm} {size : Nat} {e : Nat × Nat}
    (h : spotOf s.kern s.cur.core t x true size size needWrite = .error e) (k : Kern) :
    storeBody s x size k t = (k, .trap e.1 0 e.2) := by
  simp only [storeBody, checkAccess_refused h]

theorem atomicBody_refused {s : State} {t : Thread} {x : MForm} {useIdx : Bool} {e : Nat × Nat}
    (h : spotOf s.kern s.cur.core t x useIdx (memBytes x.ty) (memBytes x.ty) needAtomic = .error e) (kind : ReqKind) (data cmp : Nat)
    (returns : Bool) (k : Kern) (d : List Reg) : atomicBody s x useIdx kind data cmp returns k t d = (k, .trap e.1 0 e.2) := by
  simp only [atomicBody, checkAccess_refused h]

/-- A capability of an unknown object changes nothing and traps. -/
theorem capBody_unknown {s : State} {i : Instr} {t : Thread} {x : RForm}
    (h : getObj s.kern (ctxOf s.kern s.cur.core t) (capObj (readPair s.kern s.cur.core t x.a)) = none) (f : Nat → ObjEntry → Option Nat)
    (d : List Reg) :
    capBody s x f (beforeBody s i t) t d = (beforeBody s i t, .trap 0x05 0 (readPair s.kern s.cur.core t x.a)) := by
  have hb : ButCaches s.cur.core s.kern (beforeBody s i t) := caches_before s.kern s.cur.core i [t]
  have hctx : ctxOf (beforeBody s i t) s.cur.core t = ctxOf s.kern s.cur.core t := by
    simp only [ctxOf, blockOf_butCaches hb]
  have hobj : ∀ ctx o, getObj (beforeBody s i t) ctx o = getObj s.kern ctx o := fun ctx o => by
    simp only [getObj, getCtx_of_ctxs (ctxs_butCaches hb)]
  simp only [capBody, hctx, hobj, h]

theorem doubleTraps : Claims.DoubleTraps := by
  refine ⟨fun x s t l m hm ha hts hl => ?_, fun x s t l m hm ha h hl hlatch => ?_, fun s t l h hl hlatch => ⟨?_, ?_, ?_, ?_⟩⟩
  · simp only [List.mem_cons, List.not_mem_nil, or_false] at hm
    rcases hm with rfl | rfl | rfl | rfl | rfl | rfl | rfl | rfl | rfl <;> exact ⟨_, rfl, unlessTrapState_stops ha hts hl _⟩
  · simp only [List.mem_cons, List.not_mem_nil, or_false] at hm
    rcases hm with rfl | rfl
    · exact ⟨_, rfl, issueEach_stops ha _ rfl hl h hlatch (.inl ⟨_, _, _, _, rfl⟩)⟩
    · exact ⟨_, rfl, issueEach_stops ha _ rfl hl h hlatch (.inr ⟨_, _, _, rfl⟩)⟩
  · intro x m hm ha hz
    rcases hm with rfl | rfl <;>
      exact ⟨_, rfl, issueEach_stops ha _ (heldBody_divZero _ hz _ _ _ _) hl h hlatch (.inr ⟨_, _, _, rfl⟩)⟩
  · intro m hm hmode he ha
    have hstops := fun cause => finishIssue_stops (x := .trap cause 0 0) (butCaches_refl s.cur.core s.kern)
      (actors_getThread (by rw [ha]; exact List.mem_singleton_self t)) hl h hlatch (.inr ⟨_, _, _, rfl⟩)
    rcases hm with rfl | ⟨w, rfl⟩ <;>
      exact ⟨_, rfl, (congrArg (fun s' => (getCtx s'.kern l.ctx).state) (issueIllegal_eq _ hmode he ha hlatch)).trans (hstops _)⟩
  · intro x m hm ha hno
    rcases hm with rfl | rfl <;>
      exact ⟨_, rfl, issueEach_stops ha _ (capBody_unknown hno _ _) hl h hlatch (.inr ⟨_, _, _, rfl⟩)⟩
  · intro x m useIdx size need e hm ha he
    have hstops := fun (ha : ExecutesAlone s m t = true) f hf => issueEach_stops ha f hf hl h hlatch (.inr ⟨e.1, 0, e.2, rfl⟩)
    rcases hm with ⟨rfl, rfl, rfl, rfl⟩ | ⟨n, rfl, rfl, rfl, rfl⟩ | ⟨rfl, rfl, rfl, rfl⟩ | ⟨n, rfl, rfl, rfl, rfl⟩ |
      ⟨op, rfl, rfl, rfl, rfl⟩ | ⟨op, rfl, rfl, rfl, rfl⟩ | ⟨rfl, rfl, rfl, rfl⟩
    · exact ⟨_, rfl, hstops ha _ (loadBody_refused he _ _)⟩
    · exact ⟨_, rfl, hstops ha _ (loadBody_refused he _ _)⟩
    · exact ⟨_, rfl, hstops ha _ (storeBody_refused he _)⟩
    · exact ⟨_, rfl, hstops ha _ (storeBody_refused he _)⟩
    · exact ⟨_, rfl, hstops ha _ (atomicBody_refused he _ _ _ _ _ _)⟩
    · exact ⟨_, rfl, hstops ha _ (atomicBody_refused he _ _ _ _ _ _)⟩
    · exact ⟨_, rfl, hstops ha _ (atomicBody_refused he _ _ _ _ _ _)⟩

/-- Settles O11: the traps of instructions and words, the checks that come before them, and double traps. -/
theorem traps : Obligations.Traps := ⟨trapInstructions, trappingWords, sharedChecks, doubleTraps⟩

end Sys2Proof.Proofs
end

section
/-! TRET (R50, R241): the target's line is fetched again, and the thread resumes there or enters its handler anew. -/

namespace Sys2Proof.Proofs

open Sys2Proof.Machine Sys2Proof.Safety

/-! ## The line that is fetched again (R50) -/

/-- A kernel state that differs only in the line buffer of a core. -/
structure ButLines (c : Nat) (k k' : Kern) : Prop where
  shared : k' = { k with cores := k'.cores }
  core : coreOf k' c = { coreOf k c with lines := (coreOf k' c).lines }

theorem butLines_refetch (k : Kern) (c : Nat) (l : Launch) (line : Nat) : ButLines c k (refetch k c l line) := by
  unfold refetch
  split
  · exact ⟨rfl, rfl⟩
  · split
    · exact ⟨rfl, by rw [bufferLine, coreOf_modCore_same]⟩
    · exact ⟨rfl, rfl⟩

section
variable {c : Nat} {k k' : Kern} (h : ButLines c k k')
include h

theorem ButLines.getThread (a b : Nat) : getThread k' c a b = getThread k c a b := by
  unfold Machine.getThread; rw [h.core]

theorem ButLines.blockOf (b : Nat) : blockOf k' c b = blockOf k c b := by
  unfold Machine.blockOf; rw [h.core]

theorem ButLines.ctxOf (t : Thread) : ctxOf k' c t = ctxOf k c t := by
  simp only [Machine.ctxOf, h.blockOf]

theorem ButLines.getCtx (x : Nat) : getCtx k' x = getCtx k x := getCtx_of_ctxs (by rw [h.shared]) x

theorem ButLines.threadLaunch (t : Thread) : threadLaunch k' c t = threadLaunch k c t := by
  have : k'.launches = k.launches := by rw [h.shared]
  simp only [Machine.threadLaunch, h.blockOf, launchOf, this]

theorem ButLines.lineInside (l : Launch) (line : Nat) : lineInside k' l line = lineInside k l line := by
  simp only [Machine.lineInside, getObj, h.getCtx]

theorem ButLines.scalarResults (t : Thread) (i : Nat) : scalarResults k' c t i = scalarResults k c t i := by
  have hthreads : (coreOf k' c).threads = (coreOf k c).threads := by rw [h.core]
  simp only [Machine.scalarResults, groupThreads, hthreads]

theorem ButLines.awaitsHeld (t : Thread) : awaitsHeld k' c t = awaitsHeld k c t := by
  simp only [Machine.awaitsHeld, h.scalarResults]

end

/-- A line that has been put in the buffer is held there. -/
theorem bufferedLine_bufferLine (k : Kern) (c : Nat) (l : Launch) (line : Nat) (bits : BitVec 512) :
    bufferedLine (coreOf (bufferLine k c l line bits) c) l.ctx (capObj (recCode l)) line = some bits := by
  simp only [bufferLine, coreOf_modCore_same, bufferedLine, List.find?_cons, beq_self_eq_true, Bool.and_self, Option.map_some]

/-- A line that can be fetched is seen as memory has it. -/
theorem seeLine_refetch {k : Kern} {c : Nat} {l : Launch} {line : Nat} {bits : BitVec 512} (hi : lineInside k l line = true)
    (hr : readLine k l line = some bits) : seeLine (refetch k c l line) c l line = some bits := by
  simp only [refetch, hi, hr, Bool.not_true, Bool.false_eq_true, if_false, seeLine, bufferedLine_bufferLine]

/-! ## The checks of a trap return -/

/-- A line that fails R13 gives a trap return the cause 0x02 (log entry 112). -/
theorem targetCause_fetchFails {k : Kern} {c : Nat} {l : Launch} {pc : Nat} {bits : BitVec 512}
    (hi : lineInside k l (pcLine pc) = true) (hs : seeLine k c l (pcLine pc) = some bits) (hf : (fetchCause bits pc).isSome = true) :
    targetCause k c l pc false = some (0x02, pcLine pc) := by
  obtain ⟨x, hx⟩ := Option.isSome_iff_exists.mp hf
  simp only [targetCause, hi, hs, hx, Bool.false_and, Bool.not_true, Bool.false_eq_true, if_false]

/-- The causes that the checks of a trap return give, with the line address as the fault word. -/
theorem targetCause_return {k : Kern} {c : Nat} {l : Launch} {pc cause fault : Nat} (h : targetCause k c l pc false = some (cause, fault)) :
    (cause = 0x02 ∨ cause = 0x04) ∧ fault = pcLine pc := by
  simp only [targetCause, Bool.false_and, Bool.false_eq_true, if_false] at h
  split at h
  · cases h; exact ⟨.inr rfl, rfl⟩
  · split at h
    · cases h
    · split at h
      · cases h; exact ⟨.inl rfl, rfl⟩
      · split at h
        · cases h
        · cases h; exact ⟨.inl rfl, rfl⟩

/-- The target of a trap record is a 64-bit program counter. -/
theorem recordTarget_lt (t : Thread) : recordTarget t < 2 ^ 64 := by
  have h0 := Nat.mod_lt (readK t 0).toNat (show 0 < 2 ^ 30 by decide)
  have h1 := Nat.mod_lt (readK t 1).toNat (show 0 < 8 by decide)
  unfold recordTarget
  omega

theorem pcLine_lt {pc : Nat} (h : pc < 2 ^ 64) : pcLine pc < 2 ^ 64 := lt_of_le_of_lt (Nat.div_mul_le_self pc 64) h

/-! ## The four courses of TRET -/

/-- TRET reads no operand through a cache. -/
theorem beforeBody_tret (s : State) (x : SForm) (t : Thread) : beforeBody s (.tret x) t = s.kern := rfl

section
variable {c : Nat} {k : Kern} {t : Thread} {l : Launch} (hl : threadLaunch k c t = some l)
include hl

theorem tretBody_outside (hts : t.tstate = false) : tretBody c k t = illegalHere k := by
  simp only [tretBody, hl, hts, Bool.not_false, if_true]

theorem tretBody_fails {cause fault : Nat} (hts : t.tstate = true)
    (h : targetCause (refetch k c l (pcLine (recordTarget t))) c l (recordTarget t) false = some (cause, fault)) :
    tretBody c k t = (modThis (refetch k c l (pcLine (recordTarget t))) c t fun u => { u with tstate := false },
      .trapAt (recordTarget t) cause 0 fault) := by
  simp only [tretBody, hl, hts, h, Bool.not_true, Bool.false_eq_true, if_false]

theorem tretBody_differs (hts : t.tstate = true)
    (h : targetCause (refetch k c l (pcLine (recordTarget t))) c l (recordTarget t) false = none)
    (hp : pairtOf (refetch k c l (pcLine (recordTarget t))) c l (recordTarget t) ≠ (readK t 1).toNat / 2 ^ 20) :
    tretBody c k t = (modThis (refetch k c l (pcLine (recordTarget t))) c t fun u => { u with tstate := false },
      .trapAt (recordTarget t) 0x13 0 0) := by
  simp only [tretBody, hl, hts, h, bne_iff_ne.mpr hp, Bool.not_true, Bool.false_eq_true, if_false, if_true]

theorem tretBody_resumes (hts : t.tstate = true)
    (h : targetCause (refetch k c l (pcLine (recordTarget t))) c l (recordTarget t) false = none)
    (hp : pairtOf (refetch k c l (pcLine (recordTarget t))) c l (recordTarget t) = (readK t 1).toNat / 2 ^ 20) :
    tretBody c k t = (leaveTrap (refetch k c l (pcLine (recordTarget t))) c t, .to (recordTarget t)) := by
  have hne : (pairtOf (refetch k c l (pcLine (recordTarget t))) c l (recordTarget t) != (readK t 1).toNat / 2 ^ 20) = false := by
    rw [hp]; exact bne_self_eq_false _
  simp only [tretBody, hl, hts, h, hne, Bool.not_true, Bool.false_eq_true, if_false]

end

/-! ## Entering the handler anew -/

theorem keepsKey_tstate (b : Bool) : KeepsKey fun u => { u with tstate := b } := fun _ => ⟨rfl, rfl⟩

/-- A thread that has left trap state. -/
def leftTrap (t : Thread) : Thread := { t with tstate := false }

/-- Trap entry is that of the thread as the kernel state has it. -/
theorem trapEntry_now {k : Kern} {c : Nat} {t u : Thread} (h : nowThread k c t = nowThread k c u) (cause sub : Nat) (saved fault : W64)
    (async : Bool) : trapEntry k c t cause sub saved fault async = trapEntry k c u cause sub saved fault async := by
  simp only [trapEntry, h]

/-- A trap at a program counter of its own is taken by the thread as the kernel state has it, and asks of the state only which entry
is in hand. -/
theorem finishIssue_trapAt_now {s s' : State} {k : Kern} {t u : Thread} (hcur : s'.cur = s.cur)
    (hu : getThread k s.cur.core t.tslot t.lane = some u) (p cause sub fault : Nat) :
    finishIssue s k [(t, .trapAt p cause sub fault)] = finishIssue s' k [(u, .trapAt p cause sub fault)] := by
  obtain ⟨hslot, hlane⟩ := getThread_key hu
  have hun : ∀ k c, unlatch k c u = unlatch k c t := fun k c => by simp only [unlatch, modThis, hslot, hlane]
  have hnow : ∀ k c, (getThread k c t.tslot t.lane).isSome = true → nowThread k c t = nowThread k c u := by
    intro k c h
    obtain ⟨v, hv⟩ := Option.isSome_iff_exists.mp h
    simp only [nowThread, hslot, hlane, hv, Option.getD_some]
  have hstands : (getThread (unlatch (markIssued k s.cur.core s.cur.entry) s.cur.core t) s.cur.core t.tslot t.lane).isSome = true := by
    rw [unlatch, getThread_modThis_same _ _ _ _ (keepsKey_latch _), getThread_markIssued, hu]; rfl
  have hcourse : applyCourse (curPc s) (curNext s) s.cur.core (markIssued k s.cur.core s.cur.entry) (t, .trapAt p cause sub fault) =
      applyCourse (curPc s') (curNext s') s.cur.core (markIssued k s.cur.core s.cur.entry) (u, .trapAt p cause sub fault) :=
    (trapEntry_now (hnow _ _ hstands) cause sub _ _ false).trans
      (congrArg (fun k => trapEntry k s.cur.core u cause sub _ _ false) (hun _ _).symm)
  simp only [finishIssue, hcur, List.foldl_cons, List.foldl_nil, countsWindow, Bool.false_eq_true, if_false, applyCourses, hcourse]

theorem cachesOf_modThis (k : Kern) (c : Nat) (t : Thread) (f : Thread → Thread) (k' : Kern) :
    cachesOf (modThis k c t f) c k' = modThis (cachesOf k c k') c t f := by
  simp only [cachesOf, modThis, modThread, modCore_modCore]

/-- What a trap is taken from may be the state in which the thread has not left trap state yet: what is seen of it is the same. -/
theorem trapsTo_leftTrap {s s' : State} {kf : Kern} {t : Thread} {handler pairt cause sub saved fault : Nat}
    (h : TrapsTo { s with kern := modThis kf s.cur.core t fun u => { u with tstate := false } } s' (leftTrap t) handler pairt cause sub
      saved fault) (ht : getThread kf s.cur.core t.tslot t.lane = some t) :
    TrapsTo { s with kern := kf } s' (leftTrap t) handler pairt cause sub saved fault := by
  have hleft : getThread (modThis kf s.cur.core t fun u => { u with tstate := false }) s.cur.core t.tslot t.lane = some (leftTrap t) := by
    rw [getThread_modThis_same _ _ _ _ (keepsKey_tstate false), ht]; rfl
  obtain ⟨record, own, scal, preds, flags, stands, kept, held, within, bytes, rest⟩ := h
  refine ⟨record, fun r hr h0 h1 h2 h3 hheld => ?_, fun w n hq => ?_, fun j => ?_, flags, stands, kept, held, ?_, bytes, rest⟩
  · refine (own r hr h0 h1 h2 h3 hheld).trans ?_
    exact (seeReg_own (t := leftTrap t) hleft hr).trans (seeReg_own (t := leftTrap t) ht hr).symm
  · refine (scal w n (quiet_modThread _ _ _ (fun u => ⟨rfl, rfl, fun a ha => .inr ⟨a, ha, rfl, rfl, rfl⟩⟩) hq)).trans ?_
    simp only [seeReg, groupOf_modThis]
  · have hpred : ∀ {k u}, getThread k s.cur.core t.tslot t.lane = some u →
        seePred k s.cur.core (leftTrap t) j = u.regs.p.getD j false := fun h => by simp only [seePred, leftTrap, h, Option.map_some, Option.getD_some]
    exact (preds j).trans ((hpred hleft).trans (hpred ht).symm)
  · refine (within_modThis _ t _ (keepsKey_tstate false) (keys_self t)).trans ?_
    rw [← cachesOf_modThis]
    exact within

/-- TRET that enters its handler anew: the trap is taken from the state in which the target's line has been fetched. -/
theorem tret_entersAnew {s : State} {x : SForm} {t : Thread} {l : Launch} {h cause fault : Nat} (ha : ExecutesAlone s (.tret x) t = true)
    (hd : TakesTraps s (leftTrap t) l h) (hcause : cause < 256) (hne : cause ≠ 0x10) (hfault : fault < 2 ^ 64)
    (hb : tretBody s.cur.core s.kern t = (modThis (refetch s.kern s.cur.core l (pcLine (recordTarget t))) s.cur.core t
      fun u => { u with tstate := false }, .trapAt (recordTarget t) cause 0 fault)) :
    ∃ s', exec (.tret x) s = .next s' ∧
      TrapsTo { s with kern := refetch s.kern s.cur.core l (pcLine (recordTarget t)) } s' (leftTrap t) h
        (pairtOf (refetch s.kern s.cur.core l (pcLine (recordTarget t))) s.cur.core l (recordTarget t)) cause 0 (recordTarget t) fault := by
  have hlines := butLines_refetch s.kern s.cur.core l (pcLine (recordTarget t))
  generalize refetch s.kern s.cur.core l (pcLine (recordTarget t)) = kf at hb hlines ⊢
  have ht : getThread kf s.cur.core t.tslot t.lane = some t :=
    (hlines.getThread _ _).trans (actors_getThread (executes_mem (alone_executes ha)))
  generalize hk : modThis kf s.cur.core t (fun u => { u with tstate := false }) = k at hb
  have hleft : getThread k s.cur.core t.tslot t.lane = some (leftTrap t) := by
    rw [← hk, getThread_modThis_same _ _ _ _ (keepsKey_tstate false), ht]; rfl
  have hw : Within s.cur.core (fun a b => a == t.tslot && b == t.lane) kf k :=
    hk ▸ within_modThis _ t _ (keepsKey_tstate false) (keys_self t)
  have hd' : TakesTraps { s with kern := k } (leftTrap t) l h := by
    obtain ⟨hl, hh, hts, hheld, hlatch⟩ := hd
    refine ⟨(threadLaunch_within hw _).trans ((hlines.threadLaunch _).trans hl), hh, hts, ?_, hlatch⟩
    have hscal : ∀ i, scalarResults k s.cur.core (leftTrap t) i = scalarResults kf s.cur.core (leftTrap t) i := fun i => by
      rw [← hk]
      exact scalarResults_modThread _ _ _ _ _ _ i fun u => ⟨rfl, rfl, rfl⟩
    refine Eq.trans ?_ ((hlines.awaitsHeld _).trans hheld)
    simp only [awaitsHeld, hscal]
  have hpairt : pairtOf k s.cur.core l (recordTarget t) = pairtOf kf s.cur.core l (recordTarget t) := pairtOf_within hw l _
  have hfin : TrapsTo { s with kern := k } { s with kern := finishIssue s k [(t, .trapAt (recordTarget t) cause 0 fault)] } (leftTrap t) h
      (pairtOf kf s.cur.core l (recordTarget t)) cause 0 (recordTarget t) fault := by
    rw [finishIssue_trapAt_now (s := s) (s' := { s with kern := k }) rfl hleft, ← hpairt]
    exact finishIssue_traps (s := { s with kern := k }) (butCaches_refl _ _) hleft hd' (.trapAt (recordTarget t) cause 0 fault) cause 0
      (recordTarget t) fault (recordTarget_lt t) hfault hcause (by decide) hne (.inl rfl)
  refine ⟨_, rfl, ?_⟩
  rw [issueEach_alone_eq ha, beforeBody_tret, hb]
  exact trapsTo_leftTrap (hk ▸ hfin) ht

/-! ## Threads keep their blocks and groups -/

/-- The block and the group of a thread. -/
def placeOf (t : Thread) : Nat × Nat := (t.block, t.group)

/-- The threads of a core stand in the same blocks and groups. -/
def SamePlaces (c : Nat) (k k' : Kern) : Prop :=
  ∀ a b, (getThread k' c a b).map placeOf = (getThread k c a b).map placeOf

theorem SamePlaces.trans {c : Nat} {k k' k'' : Kern} (h : SamePlaces c k k') (h' : SamePlaces c k' k'') : SamePlaces c k k'' :=
  fun a b => (h' a b).trans (h a b)

theorem samePlaces_foldl {α : Type} {c : Nat} (f : Kern → α → Kern) (hf : ∀ k a, SamePlaces c k (f k a)) (xs : List α) (k : Kern) :
    SamePlaces c k (xs.foldl f k) := by
  induction xs generalizing k with
  | nil => exact fun _ _ => rfl
  | cons x xs ih => exact (hf k x).trans (ih _)

theorem samePlaces_otherCore {c d : Nat} {k k' : Kern} {keys : Nat → Nat → Bool} (h : Within d keys k k') (hne : c ≠ d) :
    SamePlaces c k k' := fun a b => by simp only [getThread, h.cores c hne]

theorem samePlaces_map {c : Nat} {k k' : Kern} (f : Nat → Nat → Thread → Thread) (hf : ∀ a b t, placeOf (f a b t) = placeOf t)
    (h : ∀ a b, getThread k' c a b = (getThread k c a b).map (f a b)) : SamePlaces c k k' := fun a b => by
  rw [h, Option.map_map]
  congr 1
  funext t
  exact hf a b t

theorem samePlaces_modThread (c : Nat) (k : Kern) (d x y : Nat) (f : Thread → Thread) (hk : KeepsKey f)
    (hf : ∀ t, placeOf (f t) = placeOf t) :
    SamePlaces c k (modThread k d x y f) := by
  by_cases hd : c = d
  · subst hd
    refine samePlaces_map (fun a b t => if a = x ∧ b = y then f t else t) (fun a b t => ?_) fun a b => ?_
    · split
      · exact hf t
      · rfl
    · rw [getThread_modThread _ _ _ _ _ _ _ hk]
      split
      · rfl
      · exact Option.map_id'.symm
  · exact samePlaces_otherCore (keys := fun _ _ => true) (within_modThread k x y f hk rfl) hd

theorem samePlaces_placeUnit (c : Nat) (k : Kern) (d : Nat) (u : List Mover) : SamePlaces c k (placeUnit k d u) := by
  by_cases hd : c = d
  · subst hd
    obtain ⟨loc, -, h⟩ := placeUnit_spec k c u
    exact samePlaces_map _ (fun a b t => by split <;> rfl) h
  · exact samePlaces_otherCore (keys := fun _ _ => true) (within_placeUnit k u fun _ _ => rfl) hd

theorem samePlaces_sweepEntries (c : Nat) (k : Kern) (d : Nat) : SamePlaces c k (sweepEntries k d) := by
  by_cases hd : c = d
  · subst hd
    exact fun a b => by rw [getThread_sweepEntries]
  · exact samePlaces_otherCore (keys := fun _ _ => true) (within_sweepEntries k) hd

theorem samePlaces_moveThreads (c : Nat) (k : Kern) (d : Nat) (ms : List Mover) : SamePlaces c k (moveThreads k d ms) := by
  simp only [moveThreads, place_]
  exact ((samePlaces_foldl _ (fun k m => samePlaces_modThread c k d _ _ _ (keepsKey_loc _) fun _ => rfl) ms k).trans
    (samePlaces_sweepEntries c _ d)).trans (samePlaces_foldl _ (fun k u => samePlaces_placeUnit c k d u) _ _)

theorem inGroup_samePlaces {c : Nat} {k k' : Kern} {t : Thread} (h : InGroup k c t) (hp : SamePlaces c k k') : InGroup k' c t := by
  obtain ⟨w, hw, hblock, hgroup⟩ := h
  have := hp t.tslot t.lane
  rw [hw, Option.map_some, Option.map_eq_some_iff] at this
  obtain ⟨v, hv, he⟩ := this
  obtain ⟨hvb, hvg⟩ := Prod.mk.inj he
  exact ⟨v, hv, hvb.trans hblock, hvg.trans hgroup⟩

/-! ## Declining a pre-emption (R376) -/

theorem keepsKey_restarted (r : Thread → List W32) (h : Nat) : KeepsKey fun u => restarted u (r u) h := fun _ => ⟨rfl, rfl⟩

/-- The restart of a core's stood-down threads. -/
def restartCore (ctx : Nat) (k : Kern) (p : Nat × Core) : Kern :=
  let down := p.2.threads.filter fun t => t.loc == .down && ctxOf k p.1 t == ctx
  let ms := down.filterMap fun t => ((threadLaunch k p.1 t).bind recHandler).map (moverOf k p.1 t)
  let k := down.foldl (fun k t =>
    match (threadLaunch k p.1 t).bind recHandler with
    | some h => modThis k p.1 t fun u => restarted u u.regs.k h
    | none => k) k
  if ms.isEmpty then k else moveThreads k p.1 ms

theorem restartDown_eq (k : Kern) (ctx : Nat) : restartDown k ctx = k.cores.foldl (restartCore ctx) k := rfl

theorem samePlaces_restartCore (c ctx : Nat) (k : Kern) (p : Nat × Core) : SamePlaces c k (restartCore ctx k p) := by
  have hrestart := samePlaces_foldl (c := c) (fun k t =>
    match (threadLaunch k p.1 t).bind recHandler with
    | some h => modThis k p.1 t fun u => restarted u u.regs.k h
    | none => k) (fun k t => by
      split
      · exact samePlaces_modThread c k p.1 _ _ _ (keepsKey_restarted _ _) fun _ => rfl
      · exact fun _ _ => rfl)
  unfold restartCore
  dsimp only
  split
  · exact hrestart _ k
  · exact (hrestart _ k).trans (samePlaces_moveThreads c _ _ _)

theorem samePlaces_restartDown (c : Nat) (k : Kern) (ctx : Nat) : SamePlaces c k (restartDown k ctx) :=
  samePlaces_foldl _ (samePlaces_restartCore c ctx) _ _

theorem restartCore_ctxs (ctx : Nat) (k : Kern) (p : Nat × Core) : (restartCore ctx k p).ctxs = k.ctxs := by
  have hrestart : ∀ (ts : List Thread) (k : Kern), (ts.foldl (fun k t =>
      match (threadLaunch k p.1 t).bind recHandler with
      | some h => modThis k p.1 t fun u => restarted u u.regs.k h
      | none => k) k).ctxs = k.ctxs := by
    intro ts
    induction ts with
    | nil => exact fun _ => rfl
    | cons t ts ih =>
      intro k
      rw [List.foldl_cons, ih]
      split <;> rfl
  unfold restartCore
  dsimp only
  split
  · exact hrestart _ k
  · rw [ctxs_within (within_moveThreads (keys := fun _ _ => true) _ _ fun _ _ => rfl), hrestart]

theorem restartDown_ctxs (k : Kern) (ctx : Nat) : (restartDown k ctx).ctxs = k.ctxs := by
  rw [restartDown_eq]
  generalize k.cores = ps
  induction ps generalizing k with
  | nil => rfl
  | cons p ps ih => rw [List.foldl_cons, ih, restartCore_ctxs]

/-! ## Resuming -/

/-- A thread that has left its trap handler. -/
def leftHandler (t : Thread) : Thread := { t with tstate := false, pre := false }

theorem keepsKey_leftHandler : KeepsKey leftHandler := fun _ => ⟨rfl, rfl⟩

theorem inGroup_leftHandler {s : State} {i : Instr} {t : Thread} {kf : Kern} (ha : ExecutesAlone s i t = true)
    (hlines : ButLines s.cur.core s.kern kf) : InGroup (modThis kf s.cur.core t leftHandler) s.cur.core t := by
  have ht := (hlines.getThread _ _).trans (actors_getThread (executes_mem (alone_executes ha)))
  exact ⟨leftHandler t, by rw [getThread_modThis_same _ _ _ _ keepsKey_leftHandler, ht]; rfl, rfl, rfl⟩

theorem leaveTrap_stays {k : Kern} {c : Nat} {t : Thread} (h : (t.pre && (getCtx k (ctxOf k c t)).state == .preempting) = false) :
    leaveTrap k c t = modThis k c t leftHandler := by
  have hctx : getCtx (modThis k c t leftHandler) (ctxOf k c t) = getCtx k (ctxOf k c t) := getCtx_of_ctxs rfl _
  unfold leaveTrap
  exact if_neg (by rw [show (fun u : Thread => { u with tstate := false, pre := false }) = leftHandler from rfl, hctx, h]; decide)

/-- The kernel state after a thread has left its handler in a context that was pre-empting: the context runs again, its stood-down
threads restart, and the arbiter is asked. -/
def declined (k : Kern) (ctx : Nat) : Kern :=
  { restartDown (modCtx k ctx fun y => { y with state := .running }) ctx with asks := true }

theorem leaveTrap_declines {k : Kern} {c : Nat} {t : Thread} (hp : t.pre = true) (h : (getCtx k (ctxOf k c t)).state = .preempting) :
    leaveTrap k c t = declined (modThis k c t leftHandler) (ctxOf k c t) := by
  have hctx : getCtx (modThis k c t leftHandler) (ctxOf k c t) = getCtx k (ctxOf k c t) := getCtx_of_ctxs rfl _
  unfold leaveTrap
  exact if_pos (by rw [show (fun u : Thread => { u with tstate := false, pre := false }) = leftHandler from rfl, hctx, h, hp]; rfl)

theorem declined_runs (k : Kern) (ctx : Nat) : (getCtx (declined k ctx) ctx).state = .running := by
  have hctxs : (declined k ctx).ctxs = (modCtx k ctx fun y => { y with state := .running }).ctxs := restartDown_ctxs _ _
  rw [getCtx_of_ctxs hctxs, getCtx_modCtx]

theorem samePlaces_declined (c : Nat) (k : Kern) (ctx : Nat) : SamePlaces c k (declined k ctx) :=
  fun a b => samePlaces_restartDown c (modCtx k ctx fun y => { y with state := .running }) ctx a b

/-- Settles O12: TRET resumes its target, declining a pre-emption where one is under way, or enters the handler anew. -/
theorem trapReturn : Obligations.TrapReturn := by
  unfold Obligations.TrapReturn
  refine ⟨fun x s t l ha hts hl hc hp hpre => ?_, fun x s t l ha hts hl hc hp hpre hstate => ?_,
    fun x s t l p ha hts hl htarget hin hfetch hsome => ?_, fun x s t l h ha hd => ?_,
    fun x s t l h cause fault ha hts hd hc => ?_, fun x s t l h ha hts hd hc hp => ?_⟩
  · have hlines := butLines_refetch s.kern s.cur.core l (pcLine (recordTarget t))
    have hb := tretBody_resumes hl hts hc hp
    rw [leaveTrap_stays (by rw [hlines.ctxOf, hlines.getCtx]; exact hpre)] at hb
    exact ⟨_, rfl, issueEach_goesOn ha (fun k t _ => tretBody s.cur.core k t) hb rfl (inGroup_leftHandler ha hlines)⟩
  · have hlines := butLines_refetch s.kern s.cur.core l (pcLine (recordTarget t))
    have hb := tretBody_resumes hl hts hc hp
    rw [leaveTrap_declines hpre (by rw [hlines.ctxOf, hlines.getCtx]; exact hstate), hlines.ctxOf] at hb
    have hgoes := issueEach_goesOn ha (fun k t _ => tretBody s.cur.core k t) hb rfl
      (inGroup_samePlaces (inGroup_leftHandler ha hlines) (samePlaces_declined _ _ _))
    refine ⟨_, rfl, ?_, ?_, hgoes⟩
    · exact (congrArg Ctx.state (getCtx_of_ctxs (ctxs_within hgoes.within) _)).trans (declined_runs _ _)
    · exact congrArg Kern.asks hgoes.within.shared
  · subst htarget
    obtain ⟨bits, hbits⟩ := Option.isSome_iff_exists.mp hsome
    exact targetCause_fetchFails (((butLines_refetch _ _ _ _).lineInside _ _).trans hin) (seeLine_refetch hin hbits) (hfetch bits hbits)
  · exact ⟨_, rfl, issueEach_traps ha (fun k t _ => tretBody s.cur.core k t) hd (tretBody_outside hd.1 hd.2.2.1) 0x01 0 (curPc s) 0
      (curPc_lt (executes_single (alone_executes ha))) (by decide) (by decide) (by decide) (by decide) (.inr ⟨rfl, rfl⟩)⟩
  · have hl : threadLaunch s.kern s.cur.core t = some l := hd.1
    obtain ⟨hcause, hfault⟩ := targetCause_return hc
    have hlt : fault < 2 ^ 64 := hfault ▸ pcLine_lt (recordTarget_lt t)
    exact tret_entersAnew ha hd (by omega) (by omega) hlt (tretBody_fails hl hts hc)
  · have hl : threadLaunch s.kern s.cur.core t = some l := hd.1
    exact tret_entersAnew ha hd (by decide) (by decide) (by decide) (tretBody_differs hl hts hc hp)

end Sys2Proof.Proofs
end

section
/-! Loads of the scratchpad and the exchange region, and results that are known at issue (R41, R42, R149 to R158, R304). -/

namespace Sys2Proof.Proofs

open Sys2Proof.Machine Sys2Proof.Safety

/-! ## A result that arrives (R41, R42) -/

/-- A held result that has arrived, where it has the number that arrives. -/
def arrived (id : Nat) (vals : List W32) (flags : BitVec 5) (h : Held) : Held :=
  if h.id == id then { h with vals := vals, flags := flags, arrived := true } else h

theorem arrived_same {id : Nat} {h : Held} (vals : List W32) (flags : BitVec 5) (hid : h.id = id) :
    arrived id vals flags h = { h with vals := vals, flags := flags, arrived := true } := if_pos (beq_iff_eq.mpr hid)

theorem arrived_other {id : Nat} {h : Held} (vals : List W32) (flags : BitVec 5) (hid : h.id ≠ id) : arrived id vals flags h = h :=
  if_neg (by rwa [beq_iff_eq])

@[simp] theorem arrived_id (id : Nat) (vals : List W32) (flags : BitVec 5) (h : Held) : (arrived id vals flags h).id = h.id := by
  unfold arrived; split <;> rfl

@[simp] theorem arrived_regs (id : Nat) (vals : List W32) (flags : BitVec 5) (h : Held) : (arrived id vals flags h).regs = h.regs := by
  unfold arrived; split <;> rfl

/-- A thread in which a result has arrived, before what is due is written. -/
def withArrived (id : Nat) (vals : List W32) (flags : BitVec 5) (u : Thread) : Thread :=
  { u with held := u.held.map (arrived id vals flags) }

theorem getThread_landEarly (k : Kern) (c : Nat) (t : Thread) (id : Nat) (vals : List W32) (a b : Nat) :
    getThread (landEarly k c t id vals) c a b = getThread k c a b := by
  unfold landEarly
  split
  · rfl
  · rw [getThread_modGroup]

theorem within_landEarly {c : Nat} {keys : Nat → Nat → Bool} (k : Kern) (t : Thread) (id : Nat) (vals : List W32) :
    Within c keys k (landEarly k c t id vals) := by
  unfold landEarly
  split
  · exact .refl ..
  · exact within_modGroup k _ _ _ (onlyScalars_s _)

theorem getThread_arriveHeld_same (k : Kern) (c : Nat) (t : Thread) (id : Nat) (vals : List W32) (flags : BitVec 5) :
    getThread (arriveHeld k c t id vals flags) c t.tslot t.lane =
      (getThread k c t.tslot t.lane).map fun u => flushed Held.due (withArrived id vals flags u) := by
  rw [arriveHeld, getThread_flushHeld_same, getThread_landEarly, getThread_modThis_same _ _ _ _ (keepsKey_held _), Option.map_map]
  rfl

theorem within_arriveHeld {c : Nat} {keys : Nat → Nat → Bool} (k : Kern) (t : Thread) (id : Nat) (vals : List W32) (flags : BitVec 5)
    (hk : keys t.tslot t.lane = true) : Within c keys k (arriveHeld k c t id vals flags) :=
  ((within_modThis k t _ (keepsKey_held _) hk).trans (within_landEarly _ t id vals)).trans (within_flushHeld _ t _ hk)

/-- The result that an instruction puts on its way. -/
def newHeld (k : Kern) (c : Nat) (t : Thread) (regs : List Reg) (vals : List W32) (flags : BitVec 5) (la : BitVec 4) : Held :=
  { id := k.id, regs := regs, named := regs, old := scalarsOf k c t regs, vals := vals, flags := flags, arrived := false,
    window := la.toNat }

theorem getThread_holdResult_same (k : Kern) (c : Nat) (t : Thread) (regs : List Reg) (vals : List W32) (flags : BitVec 5) (la : BitVec 4) :
    getThread (holdResult k c t regs vals flags la).2 c t.tslot t.lane =
      (getThread k c t.tslot t.lane).map fun u => { u with held := u.held ++ [newHeld k c t regs vals flags la] } :=
  getThread_modThis_same _ c t _ (keepsKey_held _)

theorem within_holdResult {c : Nat} {keys : Nat → Nat → Bool} (k : Kern) (t : Thread) (regs : List Reg) (vals : List W32)
    (flags : BitVec 5) (la : BitVec 4) (hk : keys t.tslot t.lane = true) :
    Within c keys k (holdResult k c t regs vals flags la).2 :=
  (within_id k (k.id + 1)).trans (within_modThis _ t _ (keepsKey_held _) hk)

/-- A result that is known at issue, as it arrives. -/
def knownHeld (k : Kern) (c : Nat) (t : Thread) (dst : List Reg) (vals : List W32) (la : BitVec 4) : Held :=
  { newHeld k c t dst vals 0 la with arrived := true }

/-- A thread to which a result that is known at issue has been delivered. -/
def deliveredTo (k : Kern) (c : Nat) (t : Thread) (dst : List Reg) (vals : List W32) (la : BitVec 4) (u : Thread) : Thread :=
  flushed Held.due { u with held := u.held.map (arrived k.id vals 0) ++ [knownHeld k c t dst vals la] }

theorem getThread_deliverNow_same (k : Kern) (c : Nat) (t : Thread) (dst : List Reg) (vals : List W32) (la : BitVec 4) :
    getThread (deliverNow k c t dst vals la) c t.tslot t.lane = (getThread k c t.tslot t.lane).map (deliveredTo k c t dst vals la) := by
  have hid : (holdResult k c t dst [] 0 la).1 = k.id := rfl
  rw [deliverNow, getThread_arriveHeld_same, getThread_holdResult_same, Option.map_map, hid]
  congr 1
  funext u
  simp only [Function.comp_apply, deliveredTo, withArrived, List.map_append, List.map_cons, List.map_nil,
    arrived_same vals 0 (show (newHeld k c t dst [] 0 la).id = k.id from rfl)]
  rfl

theorem within_deliverNow {c : Nat} {keys : Nat → Nat → Bool} (k : Kern) (t : Thread) (dst : List Reg) (vals : List W32) (la : BitVec 4)
    (hk : keys t.tslot t.lane = true) : Within c keys k (deliverNow k c t dst vals la) :=
  (within_holdResult k t dst [] 0 la hk).trans (within_arriveHeld _ t _ _ _ hk)

/-- Without a window the last result that is due is the one that is known at issue, and its registers hold it. -/
theorem deliveredTo_ownReg {k : Kern} {c : Nat} {t : Thread} {dst : List Reg} {vals : List W32} (u : Thread) (hn : dst.Nodup)
    (hs : ∀ r ∈ dst, ∀ n, r ≠ .s n) {p : Reg × W32} (hp : p ∈ dst.zip vals) :
    ownReg (deliveredTo k c t dst vals 0 u).regs p.1 = p.2 := by
  have hdue : Held.due (knownHeld k c t dst vals 0) = true := rfl
  have hscalar : (knownHeld k c t dst vals 0).scalar = false := by
    refine List.any_eq_false.mpr fun r hr => ?_
    cases r with
    | s n => exact absurd rfl (hs _ hr n)
    | v n => exact Bool.false_ne_true
    | k n => exact Bool.false_ne_true
  have hland : ∀ r, ownReg (landHeld r (knownHeld k c t dst vals 0)) p.1 = ownReg (landOwn r (dst.zip vals)) p.1 := by
    intro r
    have : landHeld r (knownHeld k c t dst vals 0) = { landOwn r (dst.zip vals) with fflags := r.fflags ||| 0 } := by
      simp only [landHeld, hscalar, Bool.false_eq_true, if_false, landOwn_fflags]; rfl
    rw [this]
    cases p.1 <;> rfl
  simp only [deliveredTo, flushed, List.filter_append, List.filter_cons, hdue, if_true, List.filter_nil, List.foldl_append,
    List.foldl_cons, List.foldl_nil, hland]
  exact ownReg_landOwn_mem _ _ (zip_nodup _ _ hn) p hp (hs _ (List.of_mem_zip hp).1)

/-- Within a window the result that is known at issue is not due. -/
theorem knownHeld_due {k : Kern} {c : Nat} {t : Thread} {dst : List Reg} {vals : List W32} {la : BitVec 4} (h : la ≠ 0) :
    Held.due (knownHeld k c t dst vals la) = false := by
  have hne : la.toNat ≠ 0 := fun e => h (BitVec.eq_of_toNat_eq e)
  exact Bool.and_eq_false_iff.mpr (.inl (beq_eq_false_iff_ne.mpr hne))

theorem deliveredResults : Claims.DeliveredResults := by
  intro k c t u dst vals la hu hn
  have hnow := getThread_deliverNow_same k c t dst vals la
  rw [hu, Option.map_some] at hnow
  refine ⟨fun hla hs p hp => ?_, fun hla =>
    ⟨⟨_, knownHeld k c t dst vals la, hnow, ?_, rfl, rfl, rfl, rfl⟩, fun r hr hheld => ?_⟩⟩
  · subst hla
    rw [seeReg_own hnow (hs _ (List.of_mem_zip hp).1)]
    exact deliveredTo_ownReg u hn hs hp
  · refine List.mem_filter.mpr ⟨List.mem_append_right _ (List.mem_singleton_self _), ?_⟩
    rw [knownHeld_due hla]; rfl
  · rw [seeReg_own hnow hr, seeReg_own hu hr]
    refine ownReg_landHelds_other _ _ _ fun h hh => ?_
    obtain ⟨hmem, hdue⟩ := List.mem_filter.mp hh
    rcases List.mem_append.mp hmem with hold | hnew
    · obtain ⟨h', hh', rfl⟩ := List.mem_map.mp hold
      rw [arrived_regs]
      exact hheld h' hh'
    · rw [List.mem_singleton.mp hnew, knownHeld_due hla] at hdue
      cases hdue

/-! ## Loads of the scratchpad and the exchange region -/

/-- The detectors leave alone a word that they do not flag. -/
theorem checkWord_unflagged {k : Kern} {c : Nat} {t : Thread} {l : Launch} {blk : Block} {pc w : Nat} {a : Touch}
    (hread : a.reads = true → 2 ≤ recValid l ∨ w ∈ blk.valid)
    (hrace : a.atomic = false → recRace l = 2 ∨ stampConflict blk t.group w = false) : checkWord k c t l blk pc a w = (k, none) := by
  have hunwritten : (a.reads && !blk.valid.contains w) = true → recValid l ≠ 0 ∧ recValid l ≠ 1 := by
    intro h
    obtain ⟨hr, hv⟩ := Bool.and_eq_true_iff.mp h
    have hno : w ∉ blk.valid := fun hw => by rw [List.contains_iff_mem.mpr hw] at hv; cases hv
    have := (hread hr).resolve_right hno
    omega
  have hraced : (!a.atomic && recRace l != 2 && stampConflict blk t.group w) = false := by
    cases hat : a.atomic with
    | true => rfl
    | false =>
      rcases hrace hat with h | h
      · rw [h]; rfl
      · rw [h, Bool.and_false]
  unfold checkWord
  cases hu : a.reads && !blk.valid.contains w with
  | false => simp only [hraced, Bool.false_and, Bool.false_eq_true, if_false]
  | true =>
    obtain ⟨h0, h1⟩ := hunwritten hu
    simp only [hraced, beq_eq_false_iff_ne.mpr h0, beq_eq_false_iff_ne.mpr h1, Bool.and_false, Bool.false_and, Bool.false_eq_true, if_false]

theorem checkWords_unflagged {k : Kern} {c : Nat} {t : Thread} {l : Launch} {blk : Block} {pc : Nat} {a : Touch} {ws : List Nat}
    (h : ∀ w ∈ ws, (a.reads = true → 2 ≤ recValid l ∨ w ∈ blk.valid) ∧
      (a.atomic = false → recRace l = 2 ∨ stampConflict blk t.group w = false)) : checkWords k c t l blk pc a ws = (k, none) := by
  induction ws with
  | nil => rfl
  | cons w ws ih =>
    obtain ⟨hw, hws⟩ := List.forall_mem_cons.mp h
    simp only [checkWords, checkWord_unflagged hw.1 hw.2, ih hws]

/-- The detectors leave alone an access of which they flag no word (R304, R325). -/
theorem detect_unflagged {s : State} {k : Kern} {t : Thread} {blk : Block} {p : Spot} {size : Nat} {a : Touch}
    (hk : ButCaches s.cur.core s.kern k) (hb : blockOf s.kern s.cur.core t.block = some blk)
    (h : Unflagged s t blk p size a.reads a.atomic) (pc : Nat) : detect k s.cur.core t pc p size a = (k, none) := by
  unfold detect
  cases hsp : p.space != .sp with
  | true => rfl
  | false =>
    simp only [Bool.false_eq_true, if_false, blockOf_butCaches hk, threadLaunch_butCaches hk, hb]
    cases hl : threadLaunch s.kern s.cur.core t with
    | none => rfl
    | some l => exact checkWords_unflagged (h (bne_eq_false_iff_eq.mp hsp) l hl)

theorem physical_butCaches {c : Nat} {k k' : Kern} (h : ButCaches c k k') {blk : Block} {p : Spot} (hp : p.space ≠ .ob) :
    physical k' c blk p = physical k c blk p := by
  have hregion : regionOf k' c blk.launch = regionOf k c blk.launch := by unfold regionOf; rw [h.core]
  unfold physical
  cases hsp : p.space with
  | sp => rfl
  | xr => simp only [hregion]
  | ob => exact absurd hsp hp

/-- An access to the scratchpad or the exchange region that passes its checks changes nothing yet. -/
theorem checkAccess_pad {s : State} {k : Kern} {t : Thread} {x : MForm} {useIdx : Bool} {size need : Nat} {touch : Touch} {blk : Block}
    {p : Spot} {a : Nat} (hk : ButCaches s.cur.core s.kern k) (hr : Reaches s t x useIdx size need blk p) (hp : InPad s blk p size a)
    (hu : Unflagged s t blk p size touch.reads touch.atomic) :
    checkAccess s k t x useIdx size need touch = (k, .ok { spot := p, runs := [(a, size)] }) := by
  obtain ⟨hb, hspot⟩ := hr
  obtain ⟨hob, hphys, -, -⟩ := hp
  have hruns : spotRuns k s.cur.core blk p size = .ok [(a, size)] := by
    unfold spotRuns
    cases hsp : p.space with
    | ob => exact absurd hsp hob
    | sp => simp only [physical_butCaches hk hob, hphys]
    | xr => simp only [physical_butCaches hk hob, hphys]
  simp only [checkAccess, hspot, blockOf_butCaches hk, hb, detect_unflagged hk hb hu, hruns]

theorem charge_none (k : Kern) (ctx : Nat) : charge k ctx 0 = k := rfl

/-- A read that meets neither poison nor corrected errors gives its bytes and changes nothing. -/
theorem readTrap_clean {k : Kern} {ctx cls : Nat} {rs : List (Nat × Nat)} (hp : poisonHits k rs = []) (hs : softHits k rs = 0) :
    readTrap k ctx cls rs = (k, .ok (getRuns k rs)) := by
  have hsoft : softAt k rs = [] := List.length_eq_zero_iff.mp hs
  have hcharge : poisonCharge [] = 0 := rfl
  have hmend : countMended k [] = k := rfl
  simp only [readTrap, readRuns, hp, hs, hsoft, hcharge, hmend, Nat.add_zero, charge_none]

theorem getBytes_butCaches {c : Nat} {k k' : Kern} (h : ButCaches c k k') (a n : Nat) : getBytes k' a n = getBytes k a n := by
  rw [h.shared]; rfl

theorem poisonHits_butCaches {c : Nat} {k k' : Kern} (h : ButCaches c k k') (rs : List (Nat × Nat)) :
    poisonHits k' rs = poisonHits k rs := by
  rw [h.shared]; rfl

theorem softHits_butCaches {c : Nat} {k k' : Kern} (h : ButCaches c k k') (rs : List (Nat × Nat)) : softHits k' rs = softHits k rs := by
  rw [h.shared]; rfl

/-- The kernel state before a load delivers: an acquire at .dev or wider has emptied the line cache. -/
def acquired (k : Kern) (c : Nat) (x : MForm) : Kern := if x.acq && wideScope x.sc then dropLines k c else k

theorem getThread_acquired (k : Kern) (c : Nat) (x : MForm) (a b : Nat) : getThread (acquired k c x) c a b = getThread k c a b := by
  unfold acquired
  split
  · simp only [getThread, dropLines, coreOf_modCore_same]
  · rfl

/-- A load of the scratchpad or the exchange region delivers the bytes there at once. -/
theorem loadBody_pad {s : State} {k : Kern} {t : Thread} {x : MForm} {size : Nat} {blk : Block} {p : Spot} {a : Nat}
    (hk : ButCaches s.cur.core s.kern k) (hr : Reaches s t x true size needRead blk p) (hp : InPad s blk p size a)
    (hu : Unflagged s t blk p size true false) (d : List Reg) :
    loadBody s x size k t d =
      (deliverNow (acquired k s.cur.core x) s.cur.core t d (answerWords x.ty size (maskSpot (some blk) p (getBytes s.kern a size))) x.la,
        .next) := by
  have hcheck := checkAccess_pad (touch := { reads := true, writes := false, atomic := false }) hk hr hp hu
  obtain ⟨hb, -⟩ := hr
  obtain ⟨hob, -, hpoison, hsoft⟩ := hp
  have hread := readTrap_clean (ctx := ctxOf k s.cur.core t) (cls := classOf k s.cur.core t)
    ((poisonHits_butCaches hk _).trans hpoison) ((softHits_butCaches hk _).trans hsoft)
  have hbytes : getRuns k [(a, size)] = getBytes s.kern a size := by
    rw [← getBytes_butCaches hk]; exact List.append_nil _
  rw [hbytes] at hread
  unfold loadBody
  simp only [hcheck, hread, blockOf_butCaches hk, hb]
  cases hsp : p.space with
  | ob => exact absurd hsp hob
  | sp => rfl
  | xr => rfl

/-- An issue of a load of the scratchpad or the exchange region. -/
theorem issue_loadPad {s : State} {m : Instr} {t : Thread} {x : MForm} {size : Nat} {blk : Block} {p : Spot} {a : Nat}
    (ha : ExecutesAlone s m t = true) (hr : Reaches s t x true size needRead blk p) (hp : InPad s blk p size a)
    (hu : Unflagged s t blk p size true false) :
    (∀ b, seeByte (issueEach s m (loadBody s x size)).kern b = seeByte s.kern b) ∧
      GoesOnFrom s (deliverNow (acquired (beforeBody s m t) s.cur.core x) s.cur.core t (destination s m t)
        (answerWords x.ty size (maskSpot (some blk) p (getBytes s.kern a size))) x.la) t
        (issueEach s m (loadBody s x size)) (curNext s) := by
  have hk : ButCaches s.cur.core s.kern (beforeBody s m t) := caches_before s.kern s.cur.core m [t]
  have hthread : getThread (acquired (beforeBody s m t) s.cur.core x) s.cur.core t.tslot t.lane = some t :=
    (getThread_acquired _ _ _ _ _).trans (getThread_beforeBody ha)
  have hgoes := issueEach_goesOn ha (loadBody s x size) (loadBody_pad hk hr hp hu _) rfl
    ⟨deliveredTo _ _ t _ _ _ t, by rw [getThread_deliverNow_same, hthread]; rfl, rfl, rfl⟩
  refine ⟨fun b => (hgoes.bytes b).trans ?_, hgoes⟩
  rw [(within_deliverNow (keys := fun _ _ => true) _ t _ _ _ rfl).byte]
  have hacquired : (acquired (beforeBody s m t) s.cur.core x).mem = s.kern.mem := by
    unfold acquired
    split
    · rw [dropLines, modCore_mem, hk.shared]
    · rw [hk.shared]
  simp only [seeByte, hacquired]

theorem padLoads : Claims.PadLoads :=
  ⟨fun _ _ _ _ _ _ ha hr hp hu => ⟨_, rfl, issue_loadPad ha hr hp hu⟩,
    fun _ _ _ _ _ _ _ ha hr hp hu => ⟨_, rfl, issue_loadPad ha hr hp hu⟩⟩

/-- Settles O20: loads that answer at once, and the results that they deliver. -/
theorem loadResults : Obligations.LoadResults := ⟨padLoads, deliveredResults⟩

end Sys2Proof.Proofs
end

section
/-! The object cache's fill (R314): it notes the object in the entries that want it, beside the cache. -/

namespace Sys2Proof.Proofs

open Sys2Proof.Machine Sys2Proof.Safety

/-! ## A state in which an entry waits for an object -/

/-- CAPQ of the capability in v4 and v5. -/
def missForm : RForm :=
  { g := ⟨false, 7⟩, la := 0, ty := .i8, rm := .rne, sat := false, om := 4, d := .v 8, a := .v 4, b := .v 0, c := .v 0, qp := none }

/-- A thread whose v4 and v5 hold a capability of object 1. -/
def holdingCap (t : Thread) : Thread := { t with regs := { t.regs with v := rset 0 t.regs.v 5 (BitVec.ofNat 32 (2 ^ 8)) } }

/-- The thread is about to issue CAPQ on object 1, which the object cache does not hold. -/
def missState : State :=
  let s := State.reset.withFetchWord 96 ((encode (.capq missForm)).getD 0).toNat
  { s with kern := modCore s.kern 0 fun core => { core with threads := core.threads.map holdingCap } }

/-- What an entry has noted as filled. -/
def notes (s : State) : List (List (Nat × Nat)) := (coreOf s.kern 0).entries.map fun p => p.2.filled

/-- The state that an instruction answers. -/
def answered (r : Host.Outcome State Fault Refusal) : Option State :=
  match r with
  | .next s => some s
  | _ => none

theorem missState_known : (getObj missState.kern 0 1).isSome = true := by decide +kernel

theorem notes_missState : notes missState = [[]] := by decide +kernel

theorem notes_filled : (answered (exec (.objectCacheMissFill 0 0 1) missState)).map notes = some [[(0, 1)]] := by decide +kernel

/-- Refutes O31: where an entry waits for the object, the fill changes that entry too, and not the object cache alone. -/
theorem not_coreEvents : ¬ Obligations.CoreEvents := by
  unfold Obligations.CoreEvents
  rintro ⟨-, -, hfill, -⟩
  obtain ⟨s', hexec, -, -, -, -, hcore⟩ := hfill missState 0 0 1 missState_known
  have hkept : notes s' = notes missState := congrArg (fun core => core.entries.map fun p => p.2.filled) hcore
  have hfilled := notes_filled
  rw [hexec, answered, Option.map_some, hkept, notes_missState] at hfilled
  exact absurd hfilled (by decide)

end Sys2Proof.Proofs
end

section
/-! COPY_ACCEPT (R177, R303): a copy whose predicate word lies in a bank that wakes is not accepted, though there is room. -/

namespace Sys2Proof.Proofs

open Sys2Proof.Machine Sys2Proof.Safety

/-! ## A copy that waits for a bank to wake -/

/-- COPY from an object. -/
def copyForm : MForm :=
  { g := ⟨false, 7⟩, la := 0, ty := .i8, sc := .grp, acq := false, rel := false, na := false, d := .v 3, base := .v 4, idx := .v 8,
    sp := .ob, xs := 0, disp := 0 }

/-- A readable capability of object 1. -/
def copySource : W64 := BitVec.ofNat 64 (2 ^ 40 + 2 ^ 39)

/-- The wait for the acceptance of a copy of mode 3 of 64 bytes, to offset 1024 of the scratchpad, whose predicate word is at offset
64. -/
def copyWait : Wait := .copy copyForm copySource.toNat copySource 1024 0 0x30000040 64

/-- The thread that waits. -/
def copier : Thread := { fetchThread with wait := copyWait }

/-- The thread waits for the acceptance of its copy while the banks of its core wake. -/
def wakingState : State :=
  let s := State.reset.withFetchWord 96 1
  { s with kern := modCore s.kern 0 fun core => { core with threads := [copier], banksWaking := true } }

/-- The acceptance of the thread's copy. -/
def accepted (k : Kern) (t : Thread) (w : Wanted) : Kern :=
  acceptCopy k 0 t copyForm copySource.toNat [1024, 0, 0x30000040, 64] t.pc w

/-- The thread's copy passes its checks, there is room for it, and its thread stands in the core once it is accepted. -/
def hasRoom (k : Kern) (t : Thread) : Bool :=
  match blockOf k 0 t.block with
  | some blk =>
    match checkCopy k 0 t blk copyForm.sp copySource.toNat (descOf 1024 0 0x30000040 64) with
    | .ok w => copyRoom (coreOf k 0) (w.srcR.length + w.dstR.length) && (getThread (accepted k t w) 0 t.tslot t.lane).isSome
    | .error _ => false
  | none => false

theorem exists_of_hasRoom {k : Kern} {t : Thread} (h : hasRoom k t = true) :
    ∃ blk w u, blockOf k 0 t.block = some blk ∧
      checkCopy k 0 t blk copyForm.sp copySource.toNat (descOf 1024 0 0x30000040 64) = .ok w ∧
      copyRoom (coreOf k 0) (w.srcR.length + w.dstR.length) = true ∧ getThread (accepted k t w) 0 t.tslot t.lane = some u := by
  unfold hasRoom at h
  split at h
  · next blk hb =>
    split at h
    · next w hw =>
      obtain ⟨hroom, hstands⟩ := Bool.and_eq_true_iff.mp h
      obtain ⟨u, hu⟩ := Option.isSome_iff_exists.mp hstands
      exact ⟨blk, w, u, hb, hw, hroom, hu⟩
    · cases h
  · cases h

theorem wakingState_hasRoom : hasRoom wakingState.kern copier = true := by decide +kernel

theorem wakingState_first : (copyWaiters (coreOf wakingState.kern 0)).head? = some copier := by decide +kernel

theorem copier_mem : copier ∈ (coreOf wakingState.kern 0).threads := by decide +kernel

/-- The wait of the thread in a state. -/
def waitOf (s : State) : Option Wait := (getThread s.kern 0 0 0).map (·.wait)

/-- The thread waits on: a copy of mode 3 is not accepted while the banks wake. -/
theorem waitOf_accept : (answered (exec (.copyAccept 0) wakingState)).map waitOf = some (some copyWait) := by decide +kernel

/-- Refutes O32: a copy for which there is room is not accepted while the bank of its predicate word wakes (R303), and its thread
waits on. -/
theorem not_waitEvents : ¬ Obligations.WaitEvents := by
  unfold Obligations.WaitEvents
  rintro ⟨-, haccept, -⟩
  obtain ⟨blk, w, u, hblk, hcheck, hroom, hu⟩ := exists_of_hasRoom wakingState_hasRoom
  obtain ⟨s', hexec, -, hresumes⟩ := haccept wakingState 0 copier _ _ _ _ _ _ _ blk w copier_mem rfl wakingState_first hblk hcheck hroom
  have halone : ∀ v ∈ [copier], v.tslot = copier.tslot → v.lane = copier.lane → v = copier :=
    fun v hv _ _ => List.mem_singleton.mp hv
  obtain ⟨v, hv, hwait, -⟩ := hresumes.each copier (List.mem_singleton_self _) halone u hu
  have hover : waitOf s' = some .none := by
    rw [waitOf, show getThread s'.kern 0 0 0 = some v from hv, Option.map_some, hwait]
  have hwaits := waitOf_accept
  rw [hexec, answered, Option.map_some, hover] at hwaits
  exact absurd hwaits (by decide)

end Sys2Proof.Proofs
end

section
/-! Plain instructions by the shape of their effect: values alone, a rounded result with its flags, or one predicate. -/

namespace Sys2Proof.Proofs

open Sys2Proof.Machine Sys2Proof.Safety

/-- A plain instruction computes its effect in the form in which it is stated. -/
theorem computes_of_eq {i : Instr} {e f : State → Thread → Effect} (hex : ∀ s, exec i s = answer (issuePlain s i (e s)))
    (he : ∀ s t, e s t = f s t) (htrap : ∀ s t, (f s t).trap = none) (hp : ∀ s t, ((f s t).preds.map (·.1)).Nodup) :
    Computes i f :=
  computes_congr (computes_plain i e hex (fun s t => he s t ▸ htrap s t) fun s t => he s t ▸ hp s t) he

theorem computes_values {i : Instr} {e : State → Thread → Effect} {v : State → Thread → List W32}
    (hex : ∀ s, exec i s = answer (issuePlain s i (e s))) (he : ∀ s t, e s t = .values (v s t)) :
    Computes i fun s t => .values (v s t) :=
  computes_of_eq hex he (fun _ _ => rfl) fun _ _ => List.nodup_nil

theorem computes_float {i : Instr} {ty : Ty} {e : State → Thread → Effect} {r : State → Thread → Nat × BitVec 5}
    (hex : ∀ s, exec i s = answer (issuePlain s i (e s))) (he : ∀ s t, e s t = .float ty (r s t)) :
    Computes i fun s t => .float ty (r s t) :=
  computes_of_eq hex he (fun _ _ => rfl) fun _ _ => List.nodup_nil

/-- Where QP names a predicate, the instruction writes that one, beside its values and flags. -/
theorem computes_pred {i : Instr} {o : Option (Fin 7)} {q : Fin 7} (hq : o = some q) {v : State → Thread → List W32}
    {b : State → Thread → Bool} {g : State → Thread → BitVec 5}
    (hex : ∀ s, exec i s = answer (issuePlain s i fun t => { Effect.pred o (b s t) with vals := v s t, flags := g s t })) :
    Computes i fun s t => { Effect.values (v s t) with preds := [(q.val, b s t)], flags := g s t } := by
  subst hq
  exact computes_of_eq hex (fun _ _ => rfl) (fun _ _ => rfl) fun _ _ => List.nodup_singleton _

end Sys2Proof.Proofs
end

section
/-! Integers of a type: wrapping and clamping (R58, R59), shifts by any count (R117), and the carries (R114). -/

namespace Sys2Proof.Proofs

open Sys2Proof.Machine

/-! ## The range of a type -/

theorem two_pow_tyBits (t : Ty) : 2 ^ tyBits t = 2 * 2 ^ (tyBits t - 1) := by cases t <;> rfl

theorem tyBits_le (t : Ty) : tyBits t ≤ 64 := by cases t <;> decide

theorem lowest_le_highest (t : Ty) : lowest t ≤ highest t := by
  have hpos : 0 < 2 ^ (tyBits t - 1) := Nat.two_pow_pos _
  have hw := two_pow_tyBits t
  unfold lowest highest
  split <;> omega

/-- The number of a raw pattern lies in the range of its type. -/
theorem intOf_mem (t : Ty) (raw : Nat) : lowest t ≤ intOf t raw ∧ intOf t raw ≤ highest t := by
  have hlt : raw % 2 ^ tyBits t < 2 ^ tyBits t := Nat.mod_lt _ (Nat.two_pow_pos _)
  have hw := two_pow_tyBits t
  unfold intOf lowest highest
  cases tySgn t
  · simp only [Bool.false_and, Bool.false_eq_true, if_false]
    omega
  · simp only [Bool.true_and, decide_eq_true_eq, if_true]
    split <;> omega

/-! ## Wrapping -/

theorem intOf_modEq (t : Ty) (raw : Nat) : intOf t raw ≡ raw [ZMOD (2 ^ tyBits t : Nat)] := by
  unfold intOf
  dsimp only
  split
  · simp [Int.ModEq]
  · simp [Int.ModEq]

theorem wrapI_modEq (t : Ty) (x : Int) : (wrapI t x : Int) ≡ x [ZMOD (2 ^ tyBits t : Nat)] := by
  rw [wrapI, Int.toNat_of_nonneg (Int.emod_nonneg _ (by simp))]
  exact Int.mod_modEq _ _

theorem wrapI_lt (t : Ty) (x : Int) : wrapI t x < 2 ^ tyBits t := by
  have hlt := Int.emod_lt_of_pos x (Int.natCast_pos.mpr (Nat.two_pow_pos (tyBits t)))
  unfold wrapI
  omega

theorem intOf_wrapI_modEq (t : Ty) (x : Int) : intOf t (wrapI t x) ≡ x [ZMOD (2 ^ tyBits t : Nat)] :=
  (intOf_modEq t _).trans (wrapI_modEq t x)

/-- A number of the type's range survives wrapping: no other number of the range differs from it by a multiple of 2^w. -/
theorem intOf_wrapI_of_mem {t : Ty} {x : Int} (hlo : lowest t ≤ x) (hhi : x ≤ highest t) : intOf t (wrapI t x) = x := by
  obtain ⟨hl, hh⟩ := intOf_mem t (wrapI t x)
  have hspan : highest t - lowest t < (2 ^ tyBits t : Nat) := by
    have hw := two_pow_tyBits t
    unfold highest lowest
    split <;> omega
  have hzero : x - intOf t (wrapI t x) = 0 :=
    Int.eq_zero_of_abs_lt_dvd (intOf_wrapI_modEq t x).dvd (abs_lt.mpr ⟨by omega, by omega⟩)
  omega

theorem wrapI_congr {t : Ty} {x y : Int} (h : x ≡ y [ZMOD (2 ^ tyBits t : Nat)]) : wrapI t x = wrapI t y :=
  congrArg Int.toNat h

theorem wrapI_natCast (t : Ty) (n : Nat) : wrapI t n = n % 2 ^ tyBits t := by
  rw [wrapI, ← Int.natCast_emod, Int.toNat_natCast]

/-! ## Clamping -/

theorem clampI_eq_max_min (t : Ty) (x : Int) : clampI t x = max (lowest t) (min x (highest t)) := by
  have := lowest_le_highest t
  unfold clampI
  omega

theorem clampI_mem (t : Ty) (x : Int) : lowest t ≤ clampI t x ∧ clampI t x ≤ highest t := by
  have := lowest_le_highest t
  unfold clampI
  omega

theorem clampI_of_highest_le {t : Ty} {x : Int} (h : highest t ≤ x) : clampI t x = highest t := by
  have := lowest_le_highest t
  unfold clampI
  omega

theorem clampI_of_le_lowest {t : Ty} {x : Int} (h : x ≤ lowest t) : clampI t x = lowest t := by
  have := lowest_le_highest t
  unfold clampI
  omega

/-! ## Shifts by counts at which the model stops counting -/

/-- The range of a type lies within 64 bits. -/
theorem range_within (t : Ty) : -(2 ^ 64 : Int) ≤ lowest t ∧ highest t ≤ (2 ^ 64 : Int) := by cases t <;> decide

/-- From 64 bits on, a left shift of a number leaves nothing of it but, with SAT, its sign. -/
theorem deliverI_mul_pow_of_le {t : Ty} {sat : Bool} (x : Int) {m n : Nat} (hm : 64 ≤ m) (hn : 64 ≤ n) :
    deliverI t sat (x * (2 ^ m : Nat)) = deliverI t sat (x * (2 ^ n : Nat)) := by
  have hlarge : ∀ {j : Nat}, 64 ≤ j → (2 ^ 64 : Int) ≤ (2 ^ j : Nat) := fun hj => by
    exact_mod_cast Nat.pow_le_pow_right (by decide) hj
  have hwrap : ∀ {j : Nat}, 64 ≤ j → x * (2 ^ j : Nat) ≡ 0 [ZMOD (2 ^ tyBits t : Nat)] := fun hj =>
    Int.modEq_zero_iff_dvd.mpr
      ((Int.natCast_dvd_natCast.mpr (Nat.pow_dvd_pow 2 ((tyBits_le t).trans hj))).mul_left x)
  have hclamp : clampI t (x * (2 ^ m : Nat)) = clampI t (x * (2 ^ n : Nat)) := by
    obtain ⟨hlo, hhi⟩ := range_within t
    rcases lt_trichotomy x 0 with hx | rfl | hx
    · have hneg : ∀ {j : Nat}, 64 ≤ j → x * (2 ^ j : Nat) ≤ lowest t := fun hj => by nlinarith [hlarge hj]
      rw [clampI_of_le_lowest (hneg hm), clampI_of_le_lowest (hneg hn)]
    · simp
    · have hpos : ∀ {j : Nat}, 64 ≤ j → highest t ≤ x * (2 ^ j : Nat) := fun hj => by nlinarith [hlarge hj]
      rw [clampI_of_highest_le (hpos hm), clampI_of_highest_le (hpos hn)]
  cases sat
  · exact wrapI_congr ((hwrap hm).trans (hwrap hn).symm)
  · exact congrArg (wrapI t) hclamp

/-- R117: a left shift is exact before delivery, whatever the count. -/
theorem shiftLeft_eq (t : Ty) (sat : Bool) (raw n : Nat) : shiftLeft t sat raw n = deliverI t sat (intOf t raw * (2 ^ n : Nat)) := by
  unfold shiftLeft
  rcases Nat.le_total n 128 with h | h
  · rw [Nat.min_eq_left h]
  · rw [Nat.min_eq_right h]
    exact deliverI_mul_pow_of_le _ (by decide) (by omega)

/-- R117: a right shift by more bits than a raw value has leaves 0. -/
theorem shiftRight_eq {raw : Nat} (h : raw < 2 ^ 64) (n : Nat) : shiftRight raw n = raw / 2 ^ n := by
  unfold shiftRight
  rcases Nat.le_total n 64 with hn | hn
  · rw [Nat.min_eq_left hn]
  · rw [Nat.min_eq_right hn, Nat.div_eq_of_lt h, Nat.div_eq_of_lt (h.trans_le (Nat.pow_le_pow_right (by decide) hn))]

theorem signedOf_within {t : Ty} {raw : Nat} (h : raw < 2 ^ tyBits t) :
    -(2 ^ 64 : Int) ≤ signedOf t raw ∧ signedOf t raw < (2 ^ 64 : Int) := by
  have hw : 2 ^ tyBits t ≤ 2 ^ 64 := Nat.pow_le_pow_right (by decide) (tyBits_le t)
  unfold signedOf
  split <;> omega

/-- R117: an arithmetic right shift by more bits than a raw value has leaves its sign bits. -/
theorem shiftArith_eq {t : Ty} {raw : Nat} (h : raw < 2 ^ tyBits t) (n : Nat) :
    shiftArith t raw n = wrapI t (signedOf t raw / (2 ^ n : Nat)) := by
  obtain ⟨hlo, hhi⟩ := signedOf_within h
  unfold shiftArith
  rcases Nat.le_total n 64 with hn | hn
  · rw [Nat.min_eq_left hn]
  · have hsplit : ((2 ^ n : Nat) : Int) = (2 ^ 64 : Nat) * (2 ^ (n - 64) : Nat) := by
      rw [← Int.natCast_mul, ← Nat.pow_add, Nat.add_sub_cancel' hn]
    have hsign : signedOf t raw / (2 ^ 64 : Nat) = 0 ∨ signedOf t raw / (2 ^ 64 : Nat) = -1 := by omega
    rw [Nat.min_eq_right hn, hsplit, ← Int.ediv_ediv_of_nonneg (Int.natCast_nonneg _)]
    rcases hsign with h0 | h1
    · rw [h0, Int.zero_ediv]
    · rw [h1, Int.ediv_eq_neg_one_of_neg_of_le (by decide) (Int.natCast_pos.mpr (Nat.two_pow_pos _))]

/-! ## Carries -/

/-- R114: the sum of ADDC, and whether it left the range. -/
theorem carryOf_add (t : Ty) (a b : Nat) (c : Bool) :
    carryOf false t a b c = (((a + b + (if c then 1 else 0) : Nat) : Int), decide (2 ^ tyBits t ≤ a + b + if c then 1 else 0)) := by
  cases c <;> simp [carryOf] <;> norm_cast

end Sys2Proof.Proofs
end

section
/-! A source's raw value lies within the width of its type (R57, R108). -/

namespace Sys2Proof.Proofs

open Sys2Proof.Machine

theorem rawOf_lt (t : Ty) (lo hi : W32) : rawOf t lo hi < 2 ^ tyBits t := by
  have hlo := lo.isLt
  have hhi := hi.isLt
  unfold rawOf
  split
  · next h => rw [h]; omega
  · exact Nat.mod_lt _ (Nat.two_pow_pos _)

theorem signRaw_le (t : Ty) (neg : Bool) : signRaw t neg ≤ 2 ^ (tyBits t - 1) := by
  cases neg <;> simp [signRaw]

/-- Every pattern of an IEEE type up to that of +∞ leaves the sign bit free. -/
theorem infRaw_lt {t : Ty} (h : tyFl t = true) : infRaw t < 2 ^ (tyBits t - 1) := by
  revert h
  cases t <;> decide

theorem overflowRaw_le (t : Ty) (rm : Rm) (neg : Bool) : overflowRaw t rm neg ≤ signRaw t neg + infRaw t := by
  cases rm <;> cases neg <;> simp [overflowRaw]

theorem roundFin_le (t : Ty) (rm : Rm) (neg : Bool) (m : Nat) (e : Int) (sticky : Bool) :
    (roundFin t rm neg m e sticky).1 ≤ signRaw t neg + infRaw t := by
  unfold roundFin
  dsimp only
  split
  · exact Nat.le_add_right _ _
  · split
    · exact overflowRaw_le t rm neg
    · exact Nat.add_le_add_left (by omega) _

/-- A rounded integer lies within the width of its type. -/
theorem roundF_numOfInt_lt {t : Ty} (h : tyFl t = true) (rm : Rm) (x : Int) : (roundF t rm (numOfInt x)).1 < 2 ^ tyBits t := by
  have hround : (roundF t rm (numOfInt x)).1 ≤ signRaw t (decide (x < 0)) + infRaw t := roundFin_le ..
  have hsign := signRaw_le t (decide (x < 0))
  have hinf := infRaw_lt h
  have hw := two_pow_tyBits t
  omega

theorem immRaw_lt (t : Ty) (x : BitVec 9) : immRaw t x < 2 ^ tyBits t := by
  unfold immRaw
  split
  · next h => exact roundF_numOfInt_lt h _ _
  · exact wrapI_lt _ _

theorem srcRaw_lt (s : State) (t : Thread) (ty : Ty) (o : Opnd) : srcRaw s t ty o < 2 ^ tyBits ty := by
  unfold srcRaw
  cases o with
  | v | k | s | face => exact rawOf_lt ..
  | imm => exact immRaw_lt ..
  | _ => exact Nat.two_pow_pos _

theorem srcRaw_lt_two_pow_64 (s : State) (t : Thread) (ty : Ty) (o : Opnd) : srcRaw s t ty o < 2 ^ 64 :=
  (srcRaw_lt s t ty o).trans_le (Nat.pow_le_pow_right (by decide) (tyBits_le ty))

end Sys2Proof.Proofs
end

section
/-! The integer instructions: their exact results, the delivery of those by SAT, the carries and the immediate forms (R58, R59,
R112, R114, R115). -/

namespace Sys2Proof.Proofs

open Sys2Proof.Machine Sys2Proof.Safety

theorem integerArithmetic : Claims.IntegerArithmetic := by
  unfold Claims.IntegerArithmetic
  refine ⟨?_, ?_, ?_, ?_, ?_, ?_, ?_, ?_, ?_, ?_⟩
  all_goals exact fun x => computes_values (fun _ => rfl) fun _ _ => rfl

theorem integerDelivery : Claims.IntegerDelivery := by
  unfold Claims.IntegerDelivery
  intro ty x _
  obtain ⟨hlo, hhi⟩ := intOf_mem ty (wrapI ty x)
  obtain ⟨hclo, hchi⟩ := clampI_mem ty x
  refine ⟨hlo, hhi, Int.emod_eq_zero_of_dvd (intOf_wrapI_modEq ty x).symm.dvd, ?_, fun _ => ⟨rfl, rfl, rfl⟩⟩
  exact (intOf_wrapI_of_mem hclo hchi).trans (clampI_eq_max_min ty x)

/-- The effect of ADDC (R114). -/
theorem carryEffect_add (s : State) (x : RForm) (t : Thread) :
    carryEffect s x false t =
      (let r := srcRaw s t x.ty x.a + srcRaw s t x.ty x.b + (if readPredOpnd t x.c then 1 else 0)
       { Effect.pred x.qp (decide (2 ^ tyBits x.ty ≤ r)) with vals := place x.ty (r % 2 ^ tyBits x.ty), flags := 0 }) := by
  simp only [carryEffect, carryOf_add, wrapI_natCast]; rfl

theorem carryArithmetic : Claims.CarryArithmetic := by
  unfold Claims.CarryArithmetic
  refine ⟨fun x q hq _ => ?_, fun x hq _ => ?_, fun x q hq _ => ?_, fun x hq _ => ?_⟩
  · exact computes_pred hq fun s => congrArg (fun e => answer (issuePlain s (.addc x) e)) (funext (carryEffect_add s x))
  · exact computes_values (fun _ => rfl) fun s t => by rw [carryEffect_add, hq]; rfl
  · exact computes_pred hq fun _ => rfl
  · exact computes_values (fun _ => rfl) fun s t => by simp only [carryEffect, hq]; rfl

theorem immediateForms : Claims.ImmediateForms := by
  unfold Claims.ImmediateForms
  refine ⟨?_, ?_, ?_, ?_, ?_, fun x _ => ?shl, fun x _ => ?shr, fun x _ => ?sar, ?_, fun x q hq => ?cmp⟩
  case shl => exact computes_values (fun _ => rfl) fun s t => by rw [shiftLeft_eq]
  case shr => exact computes_values (fun _ => rfl) fun s t => by rw [shiftRight_eq (srcRaw_lt_two_pow_64 ..)]
  case sar => exact computes_values (fun _ => rfl) fun s t => by rw [shiftArith_eq (srcRaw_lt ..)]
  case cmp => exact computes_pred hq fun _ => rfl
  all_goals exact fun x => computes_values (fun _ => rfl) fun _ _ => rfl

/-- Settles O1: each instruction is plain with the stated effect; the wrapped result is congruent to the exact one, and the clamped
one, in range already, survives wrapping. -/
theorem integerInstructions : Obligations.IntegerInstructions :=
  ⟨integerArithmetic, integerDelivery, carryArithmetic, immediateForms⟩

end Sys2Proof.Proofs
end

section
/-! The logical instructions, the shifts and the rotate, and the bit fields (R116 to R118). -/

namespace Sys2Proof.Proofs

open Sys2Proof.Machine Sys2Proof.Safety

theorem logicAndShifts : Claims.LogicAndShifts := by
  unfold Claims.LogicAndShifts
  refine ⟨?_, ?_, ?_, ?_, fun x => ?shl, fun x => ?shr, fun x => ?sar, ?_⟩
  case shl => exact computes_values (fun _ => rfl) fun s t => by rw [shiftLeft_eq]
  case shr => exact computes_values (fun _ => rfl) fun s t => by rw [shiftRight_eq (srcRaw_lt_two_pow_64 ..)]
  case sar => exact computes_values (fun _ => rfl) fun s t => by rw [shiftArith_eq (srcRaw_lt ..)]
  all_goals exact fun x => computes_values (fun _ => rfl) fun _ _ => rfl

theorem leadingZeros_eq (w raw : Nat) : leadingZeros w raw = if raw = 0 then w else w - 1 - Nat.log2 raw := by
  simp only [leadingZeros, beq_iff_eq]

theorem bitFields : Claims.BitFields := by
  unfold Claims.BitFields
  refine ⟨?_, fun x => ?clz, ?_, ?_⟩
  case clz => exact computes_values (fun _ => rfl) fun s t => by rw [leadingZeros_eq]
  all_goals exact fun x => computes_values (fun _ => rfl) fun _ _ => rfl

/-- Settles O2: each instruction is plain with the stated effect; the counts at which the model stops counting shift out every bit
that a source can hold. -/
theorem logicAndBitFields : Obligations.LogicAndBitFields := ⟨logicAndShifts, bitFields⟩

end Sys2Proof.Proofs
end

section
/-! Floating-point arithmetic, packed pairs, and the selecting and classing instructions (R121 to R127). -/

namespace Sys2Proof.Proofs

open Sys2Proof.Machine Sys2Proof.Safety

/-! ## One operation, or two on a packed pair (R121) -/

/-- An instruction without PK computes one operation on its sources. -/
theorem computes_single {i : Instr} {x : RForm} {n : Nat} {f : List Nat → Nat × BitVec 5} (hom : x.om ≠ 1)
    {r : State → Thread → Nat × BitVec 5} (hex : ∀ s, exec i s = answer (issuePlain s i (floatEffect s x n f)))
    (hr : ∀ s t, f ((floatSrcs x n).map (srcRaw s t x.ty)) = r s t) : Computes i fun s t => .float x.ty (r s t) :=
  computes_float hex fun s t => (floatEffect_single n f t hom).trans (congrArg (Effect.float x.ty) (hr s t))

/-- What a packed instruction computes: the operation on the low and on the high halves of its sources, joined. -/
def packedEffect (s : State) (x : RForm) (n : Nat) (f : List Nat → Nat × BitVec 5) (t : Thread) : Effect :=
  let half (side : Nat × Nat → Nat) := f ((floatSrcs x n).map fun o => side (pairSrc s t x.ty o))
  { vals := [BitVec.ofNat 32 ((half Prod.fst).1 % 2 ^ 16 + (half Prod.snd).1 * 2 ^ 16)], preds := [],
    flags := (half Prod.fst).2 ||| (half Prod.snd).2, trap := none }

theorem floatEffect_packed {x : RForm} (hom : x.om = 1) (s : State) (n : Nat) (f : List Nat → Nat × BitVec 5) (t : Thread) :
    floatEffect s x n f t = packedEffect s x n f t := by
  simp only [floatEffect, hom, beq_self_eq_true, if_true, List.map_map, packedEffect]
  rfl

/-- An instruction with PK computes two operations, one on each half. -/
theorem computes_packed {i : Instr} {x : RForm} {n : Nat} {f : List Nat → Nat × BitVec 5} (hom : x.om = 1)
    {e : State → Thread → Effect} (hex : ∀ s, exec i s = answer (issuePlain s i (floatEffect s x n f)))
    (he : ∀ s t, packedEffect s x n f t = e s t) : Computes i e :=
  computes_congr (computes_of_eq hex (fun s t => floatEffect_packed hom s n f t) (fun _ _ => rfl) fun _ _ => List.nodup_nil) he

/-- What the encoding of a floating-point instruction fixes of OM. -/
theorem om_of_okFloat {x : RForm} {la rm om : Bool} {n : Nat} (h : okFloat x la rm om n = true) : om = true := by
  simp only [okFloat, okR, Bool.and_eq_true] at h
  obtain ⟨⟨⟨⟨⟨⟨-, hom⟩, -⟩, -⟩, -⟩, -⟩, -⟩ := h
  exact hom

theorem floatArithmetic : Claims.FloatArithmetic := by
  unfold Claims.FloatArithmetic
  refine ⟨fun x hom => ?_, fun x hom => ?_, fun x hom => ?_, fun x hom => ?_, fun x => ?rcp, fun x => ?rsq⟩
  case rcp | rsq => exact computes_float (fun _ => rfl) fun _ _ => rfl
  all_goals exact computes_single hom (fun _ => rfl) fun _ _ => rfl

theorem packedPairs : Claims.PackedPairs := by
  unfold Claims.PackedPairs
  refine ⟨fun x hom => ?_, fun x hom => ?_, fun x hom => ?_, fun x hom => ?_, fun x hom => ?_, fun x hom => ?_, ?encoding⟩
  case encoding =>
    rintro x (h | h)
    · exact eq_of_beq (om_of_okFloat h)
    · exact eq_of_beq (om_of_okFloat h)
  all_goals exact computes_packed hom (fun _ => rfl) fun _ _ => rfl

/-! ## Selection, classes and signs -/

/-- FSGN (R127): the bits below the sign stay, and the sign is that of OM. -/
theorem signRule_eq (om : BitVec 3) (ty : Ty) (a b : Nat) :
    signRule om ty a b =
      (let top := 2 ^ (tyBits ty - 1)
       let sa := a / top % 2
       let sb := b / top % 2
       a % top + (if om = 0 then sb else if om = 1 then 1 - sb else if om = 2 then (sa + sb) % 2
         else if om = 3 then 0 else 1 - sa) * top) := by
  unfold signRule
  fin_cases om <;> rfl

theorem floatSelection : Claims.FloatSelection := by
  unfold Claims.FloatSelection
  refine ⟨fun x hom => ?_, fun x hom => ?_, fun x q hq => ?cmp, fun x => ?cls, fun x => ?rnd, fun x => ?sgn⟩
  case cmp => exact computes_pred hq fun _ => rfl
  case cls => exact computes_values (fun _ => rfl) fun _ _ => rfl
  case rnd => exact computes_float (fun _ => rfl) fun _ _ => rfl
  case sgn => exact computes_values (fun _ => rfl) fun s t => by rw [signRule_eq]
  all_goals exact computes_single hom (fun _ => rfl) fun _ _ => rfl

/-- Settles O4: an instruction without PK is one operation on its sources, one with PK the same operation on each half, and FDIV
and FSQRT have no encoding with PK. -/
theorem floatInstructions : Obligations.FloatInstructions := ⟨floatArithmetic, packedPairs, floatSelection⟩

end Sys2Proof.Proofs
end

section
/-! CVT (R76, R77): what it delivers, by the kinds of its source and destination types. -/

namespace Sys2Proof.Proofs

open Sys2Proof.Machine Sys2Proof.Safety

/-! ## The kinds of types exclude each other -/

theorem kinds_of_tyInt {t : Ty} (h : tyInt t = true) : tyFl t = false ∧ tyTapered t = false := by
  revert h
  cases t <;> decide

theorem kinds_of_tyFl {t : Ty} (h : tyFl t = true) : tyInt t = false ∧ tyTapered t = false := by
  revert h
  cases t <;> decide

theorem kinds_of_tyTapered {t : Ty} (h : tyTapered t = true) : tyInt t = false ∧ tyFl t = false := by
  revert h
  cases t <;> decide

/-! ## The number of the source -/

/-- The number that CVT converts. -/
def sourceNum (src : Ty) (slot : W64) (raw : Nat) : Machine.Num :=
  if tyTapered src then scaleNum (fsScale slot) (decodeTa src (fsEs slot) raw) else numOfRaw src (fsEs slot) raw

theorem sourceNum_int {src : Ty} (h : tyInt src = true) (slot : W64) (raw : Nat) :
    sourceNum src slot raw = numOfInt (intOf src raw) := by
  obtain ⟨hf, ht⟩ := kinds_of_tyInt h
  simp [sourceNum, numOfRaw, hf, ht]

theorem sourceNum_fl {src : Ty} (h : tyFl src = true) (slot : W64) (raw : Nat) : sourceNum src slot raw = decodeF src raw := by
  simp [sourceNum, numOfRaw, h, kinds_of_tyFl h]

theorem sourceNum_tapered {src : Ty} (h : tyTapered src = true) (slot : W64) (raw : Nat) :
    sourceNum src slot raw = scaleNum (fsScale slot) (decodeTa src (fsEs slot) raw) := by
  simp [sourceNum, h]

/-! ## The delivery by the destination -/

section
variable {src dst : Ty} (rm : Rm) (sat : Bool) (slot : W64) (raw : Nat)

theorem convert_eq :
    convert src dst rm sat slot raw =
      if tyInt src && tyInt dst then (deliverI dst sat (intOf src raw), 0)
      else if tyInt dst then toIntTy dst rm (sourceNum src slot raw)
      else if tyTapered dst then encodeTa dst (fsEs slot) (fsScale slot) (sourceNum src slot raw)
      else if src == dst && !isNan (sourceNum src slot raw) then (raw % 2 ^ tyBits src, 0)
      else roundF dst rm (sourceNum src slot raw) := rfl

theorem convert_int_int (hs : tyInt src = true) (hd : tyInt dst = true) :
    convert src dst rm sat slot raw = (deliverI dst sat (intOf src raw), 0) := by
  simp [convert_eq, hs, hd]

theorem convert_to_int (hs : tyInt src = false) (hd : tyInt dst = true) :
    convert src dst rm sat slot raw = toIntTy dst rm (sourceNum src slot raw) := by
  simp [convert_eq, hs, hd]

theorem convert_to_tapered (hd : tyTapered dst = true) :
    convert src dst rm sat slot raw = encodeTa dst (fsEs slot) (fsScale slot) (sourceNum src slot raw) := by
  simp [convert_eq, hd, kinds_of_tyTapered hd]

theorem convert_to_fl (hd : tyFl dst = true) (hne : src ≠ dst) :
    convert src dst rm sat slot raw = roundF dst rm (sourceNum src slot raw) := by
  simp [convert_eq, hne, kinds_of_tyFl hd]

/-- Between equal types a pattern that is no NaN is copied. -/
theorem convert_same (hd : tyFl dst = true) :
    convert dst dst rm sat slot raw =
      if isNan (decodeF dst raw) then roundF dst rm (decodeF dst raw) else (raw % 2 ^ tyBits dst, 0) := by
  cases hn : isNan (decodeF dst raw) <;> simp [convert_eq, sourceNum_fl hd, kinds_of_tyFl hd, hn]

end

theorem computes_cvt {src : Ty} {x : RForm} {r : State → Thread → Nat × BitVec 5}
    (h : ∀ s t, convert src x.ty x.rm x.sat (cvtSlot s.kern s.cur.core t x) (srcRaw s t src x.a) = r s t) :
    Computes (.cvt src x) fun s t => .float x.ty (r s t) :=
  computes_float (fun _ => rfl) fun s t => congrArg (Effect.float x.ty) (h s t)

/-- Settles O5: by the kinds of the two types, which fix the number that CVT converts and how it delivers it. -/
theorem conversions : Obligations.Conversions := by
  unfold Obligations.Conversions
  refine ⟨fun src x hs hd => ?_, fun src x hs hd => ?_, fun src x hs hd => ?_, fun src x hs hd => ?_, fun src x hs hd hne => ?_,
    fun x hd => ?_, fun src x hs hd => ?_, fun src x hs hd => ?_, fun src x hs hd => ?_⟩
  · exact computes_cvt fun s t => convert_int_int _ _ _ _ hs hd
  · exact computes_cvt fun s t => by rw [convert_to_int _ _ _ _ (kinds_of_tyFl hs).1 hd, sourceNum_fl hs]
  · exact computes_cvt fun s t => by rw [convert_to_int _ _ _ _ (kinds_of_tyTapered hs).1 hd, sourceNum_tapered hs]
  · have hne : src ≠ x.ty := fun h => absurd hs (by simp [h, kinds_of_tyFl hd])
    exact computes_cvt fun s t => by rw [convert_to_fl _ _ _ _ hd hne, sourceNum_int hs]
  · exact computes_cvt fun s t => by rw [convert_to_fl _ _ _ _ hd hne, sourceNum_fl hs]
  · refine computes_congr (computes_cvt fun s t => convert_same x.rm x.sat _ _ hd) fun s t => ?_
    dsimp only
    cases decodeF x.ty (srcRaw s t x.ty x.a) <;> rfl
  · have hne : src ≠ x.ty := fun h => absurd hs (by simp [h, kinds_of_tyFl hd])
    exact computes_cvt fun s t => by rw [convert_to_fl _ _ _ _ hd hne, sourceNum_tapered hs]
  · exact computes_cvt fun s t => by rw [convert_to_tapered _ _ _ _ hd, sourceNum_int hs]
  · exact computes_cvt fun s t => by rw [convert_to_tapered _ _ _ _ hd, sourceNum_fl hs]

end Sys2Proof.Proofs
end

section
/-! A place write that races (R306, R326): under log mode its record enters the fault log, whose bytes lie outside the place. -/

namespace Sys2Proof.Proofs

open Sys2Proof.Machine Sys2Proof.Safety

/-! ## A place that another group has written in this generation -/

/-- The launch of the fetched word, with its race detector in log mode. -/
def loggingLaunch : Launch := { fetchLaunch with rec_ := fetchRecord.set 7 16 }

/-- Object 2, which holds the fault log. -/
def logObject : ObjEntry := { fetchObject with wr := true, ex := false, ext := 1 }

/-- The block of the fetched word, whose word at address 64 group 1 was the last to write. -/
def racedBlock : Block :=
  { newBlock fetchLaunch 1 0 0 0 { slot := 0, seats := [{ tslot := 0, base := 0 }], row := 0, slices := 32 } with
    stamps := [(16, { gs := 1, gen := 0 })] }

/-- A thread of group 0 is at its word, in a context whose fault log is empty and begins at the base of HBM frame 1. -/
def racedState : State :=
  let s := State.reset.withFetchWord 96 1
  let k := modCtx (modBlock s.kern 0 0 fun _ => racedBlock) 0 fun x =>
    { x with log := BitVec.ofNat 64 (2 * 2 ^ 40 + 12 * 2 ^ 36), objs := x.objs ++ [(2, logObject)] }
  { s with kern :=
    { k with extents := mset k.extents 1 (BitVec.ofNat 64 (2 ^ 62 + 1)), launches := mset k.launches 1 loggingLaunch } }

/-- The place, at address 64 of the scratchpad. -/
def racedSpot : Spot := { space := .sp, cap := 0, ea := 64 }

/-- The bytes written to it: the image of an invalid jig. -/
def racedBytes : List Byte := jigImage Jig.empty

/-- What the thread's write of the place leaves. -/
def racedWrite : Kern × Course := writePlace racedState racedState.kern fetchThread 64 racedBytes

theorem racedState_wf : Memory.wf racedState.kern.mem = true := by decide +kernel

theorem racedState_block : blockOf racedState.kern racedState.cur.core fetchThread.block = some racedBlock := by decide +kernel

theorem racedState_place :
    placeSpot racedState.kern racedState.cur.core racedBlock 64 racedBytes.length 64 needWrite = .ok racedSpot := by
  decide +kernel

/-- In log mode the access proceeds. -/
theorem racedWrite_next : racedWrite.2 = .next := by decide +kernel

/-- The log's header lies outside the place. -/
theorem logHeader_outside : hbmFrame 1 < rowBase racedState.cur.core racedBlock.baseRow + racedSpot.ea := by decide +kernel

/-- The write of the place counts its record in the header of the log. -/
theorem logHeader_counts : seeByte racedState.kern (hbmFrame 1) = 0 ∧ seeByte racedWrite.1 (hbmFrame 1) = 1 := by decide +kernel

/-- Refutes O27: in log mode a place write that races enters a record in the fault log (R326, R382), so it changes bytes outside its
place. -/
theorem not_algebraAndPlaces : ¬ Obligations.AlgebraAndPlaces := by
  unfold Obligations.AlgebraAndPlaces
  rintro ⟨-, hplaces, -⟩
  have hwrite : racedWrite = (racedWrite.1, .next) := by rw [← racedWrite_next]
  obtain ⟨-, hothers⟩ := hplaces racedState racedState.kern fetchThread 64 racedBytes racedBlock racedSpot racedWrite.1
    racedState_block racedState_place rfl hwrite racedState_wf
  obtain ⟨hbefore, hafter⟩ := logHeader_counts
  have hsame := hothers (hbmFrame 1) (.inl logHeader_outside)
  rw [hbefore, hafter] at hsame
  exact absurd hsame (by decide)

end Sys2Proof.Proofs
end

section
/-! The values of OM (R28). -/

namespace Sys2Proof.Proofs

theorem om_cases (om : BitVec 3) :
    om = 0 ∨ om = 1 ∨ om = 2 ∨ om = 3 ∨ om = 4 ∨ om = 5 ∨ om = 6 ∨ om = 7 := by
  revert om
  decide

end Sys2Proof.Proofs
end

section
/-! SEL, MOV, LEA and CMP (R119, R120). -/

namespace Sys2Proof.Proofs

open Sys2Proof.Machine Sys2Proof.Safety

/-- The condition of CMP by OM (R120). -/
theorem cmpInt_eq (om : BitVec 3) (a b : Int) :
    cmpInt om a b = if om = 0 then decide (a = b) else if om = 1 then decide (a ≠ b) else if om = 2 then decide (a < b)
      else if om = 3 then decide (a ≤ b) else if om = 4 then decide (b < a) else decide (b ≤ a) := by
  rcases om_cases om with rfl | rfl | rfl | rfl | rfl | rfl | rfl | rfl
  case inr.inl =>
    have hne : (a != b) = decide (a ≠ b) := by simp [bne, beq_eq_decide]
    exact hne
  all_goals rfl

/-- Settles O3: each is plain; LEA wraps at the width of its type, and CMP writes the one predicate that its OM gives. -/
theorem selectionAndComparison : Obligations.SelectionAndComparison := by
  unfold Obligations.SelectionAndComparison
  refine ⟨fun x => ?sel, fun x => ?mov, fun x hty => ?lea32, fun x hty => ?lea64, fun x q hq => ?cmp⟩
  case sel => exact computes_values (fun _ => rfl) fun _ _ => rfl
  case mov => exact computes_values (fun _ => rfl) fun _ _ => rfl
  case lea32 => exact computes_values (fun _ => rfl) fun s t => by rw [hty]; rfl
  case lea64 => exact computes_values (fun _ => rfl) fun s t => by rw [hty]; rfl
  case cmp =>
    simp only [← cmpInt_eq]
    exact computes_pred hq fun _ => rfl

end Sys2Proof.Proofs
end

section
/-! Predicates (R129, R130) and the lane instructions (R131, R133 to R135, R138). -/

namespace Sys2Proof.Proofs

open Sys2Proof.Machine Sys2Proof.Safety

/-! ## One predicate -/

/-- A plain instruction whose effect is stated as its values and one predicate. -/
theorem computes_onePred {i : Instr} {q : Nat} {e : State → Thread → Effect} {v : State → Thread → List W32}
    {b : State → Thread → Bool} (hex : ∀ s, exec i s = answer (issuePlain s i (e s)))
    (he : ∀ s t, e s t = { Effect.values (v s t) with preds := [(q, b s t)] }) :
    Computes i fun s t => { Effect.values (v s t) with preds := [(q, b s t)] } :=
  computes_of_eq hex he (fun _ _ => rfl) fun _ _ => List.nodup_singleton _

theorem effectPred_some {o : Option (Fin 7)} {q : Fin 7} (h : o = some q) (b : Bool) :
    Effect.pred o b = { Effect.values [] with preds := [(q.val, b)] } := by
  rw [h]; rfl

theorem effectPred_none {o : Option (Fin 7)} (h : o = none) (b : Bool) : Effect.pred o b = .values [] := by
  rw [h]; rfl

/-! ## PLOG and PSET -/

theorem logicPred_eq (om : BitVec 3) (a b : Bool) :
    logicPred om a b = if om = 0 then a && b else if om = 1 then a || b else a != b := by
  rcases om_cases om with rfl | rfl | rfl | rfl | rfl | rfl | rfl | rfl <;> rfl

/-- PSET with OM 0 (R130). -/
theorem psetEffect_test {x : RForm} {q : Fin 7} (hom : x.om = 0) (hq : x.qp = some q) (s : State) (t : Thread) :
    psetEffect s x t = { Effect.values [] with preds := [(q.val, decide (srcRaw s t x.ty x.a ≠ 0))] } := by
  have h : psetEffect s x t = .pred x.qp (srcRaw s t x.ty x.a != 0) := by simp only [psetEffect, hom]; rfl
  have hne : (srcRaw s t x.ty x.a != 0) = decide (srcRaw s t x.ty x.a ≠ 0) := by simp [bne, beq_eq_decide]
  rw [h, effectPred_some hq, hne]

/-- PSET with OM 1 (R130). -/
theorem psetEffect_all {x : RForm} (hom : x.om = 1) (s : State) (t : Thread) :
    psetEffect s x t =
      { Effect.values [] with preds := (List.range 7).map fun i => (i, (srcRaw s t .b32 x.a).testBit i) } := by
  simp only [psetEffect, hom]; rfl

/-- PSET with OM 2 (R130). -/
theorem psetEffect_read {x : RForm} (hom : x.om = 2) (s : State) (t : Thread) :
    psetEffect s x t = .values (place .b32 (predBits t)) := by
  simp only [psetEffect, hom]; rfl

theorem predicateInstructions : Claims.PredicateInstructions := by
  unfold Claims.PredicateInstructions
  refine ⟨fun x q hq => ?plog, fun x q hom hq => ?test, fun x hom => ?all, fun x hom => ?read⟩
  case plog => exact computes_onePred (fun _ => rfl) fun s t => by rw [effectPred_some hq, logicPred_eq]
  case test => exact computes_onePred (fun _ => rfl) (psetEffect_test hom hq)
  case all =>
    have hdistinct : (List.range 7).Nodup := List.nodup_range
    exact computes_of_eq (fun _ => rfl) (psetEffect_all hom) (fun _ _ => rfl) fun _ _ => hdistinct
  case read => exact computes_values (fun _ => rfl) (psetEffect_read hom)

/-! ## The lane instructions -/

theorem mem_participants (s : State) (g : Guard) (t u : Thread) :
    u ∈ participants s g t ↔ u ∈ actors s ∧ u.block = t.block ∧ u.group = t.group ∧ guardTrue u g = true := by
  simp only [participants, List.mem_filter, Bool.and_eq_true, beq_iff_eq, and_assoc]

theorem shflLane_eq (om : BitVec 3) (i b : Nat) :
    shflLane om i b = if om = 0 then (b : Int) else if om = 1 then (i : Int) - b else if om = 2 then (i : Int) + b
      else (Nat.xor i b : Nat) := by
  rcases om_cases om with rfl | rfl | rfl | rfl | rfl | rfl | rfl | rfl <;> rfl

/-- The lane from which BCAST takes its value: the first with a true condition (R134). -/
def bcastFrom (s : State) (x : RForm) (t : Thread) : Option Thread :=
  (participants s x.g t).find? fun u => readPredOpnd u x.c

theorem bcastEffect_found {s : State} {x : RForm} {t u : Thread} (h : bcastFrom s x t = some u) :
    bcastEffect s x t = { Effect.pred x.qp true with vals := place x.ty (srcRaw s u x.ty x.a) } := by
  rw [bcastFrom] at h
  simp only [bcastEffect, h]

theorem bcastEffect_absent {s : State} {x : RForm} {t : Thread} (h : bcastFrom s x t = none) :
    bcastEffect s x t = .pred x.qp false := by
  rw [bcastFrom] at h
  simp only [bcastEffect, h]

theorem bcastEffect_trap (s : State) (x : RForm) (t : Thread) : (bcastEffect s x t).trap = none := by
  cases h : bcastFrom s x t with
  | some u => rw [bcastEffect_found h]; rfl
  | none => rw [bcastEffect_absent h]; rfl

/-- BCAST writes at most one predicate. -/
theorem bcastEffect_preds_nodup (s : State) (x : RForm) (t : Thread) : ((bcastEffect s x t).preds.map (·.1)).Nodup := by
  cases h : bcastFrom s x t with
  | some u => rw [bcastEffect_found h]; cases hq : x.qp <;> simp [Effect.pred]
  | none => rw [bcastEffect_absent h]; cases hq : x.qp <;> simp [Effect.pred]

theorem computes_bcast (x : RForm) : Computes (.bcast x) fun s t => bcastEffect s x t :=
  computes_plain _ _ (fun _ => rfl) (fun s t => bcastEffect_trap s x t) fun s t => bcastEffect_preds_nodup s x t

/-- VOTE with OM 0 (R135). -/
theorem voteEffect_all {x : RForm} (hom : x.om = 0) (s : State) (t : Thread) :
    voteEffect s x t = .pred x.qp (decide (∀ u ∈ participants s x.g t, readPredOpnd u x.a = true)) := by
  have h : voteEffect s x t = .pred x.qp ((participants s x.g t).all fun u => readPredOpnd u x.a) := by
    simp only [voteEffect, hom]; rfl
  rw [h, List.all_eq]

/-- VOTE with OM 1 (R135). -/
theorem voteEffect_any {x : RForm} (hom : x.om = 1) (s : State) (t : Thread) :
    voteEffect s x t = .pred x.qp (decide (∃ u ∈ participants s x.g t, readPredOpnd u x.a = true)) := by
  have h : voteEffect s x t = .pred x.qp ((participants s x.g t).any fun u => readPredOpnd u x.a) := by
    simp only [voteEffect, hom]; rfl
  rw [h, List.any_eq]

/-- VOTE with OM 2 (R135). -/
theorem voteEffect_same {x : RForm} (hom : x.om = 2) (s : State) (t : Thread) :
    voteEffect s x t =
      .pred x.qp (decide (∀ u ∈ participants s x.g t, srcRaw s u x.ty x.a = srcRaw s t x.ty x.a)) := by
  have h : voteEffect s x t =
      .pred x.qp ((participants s x.g t).all fun u => srcRaw s u x.ty x.a == srcRaw s t x.ty x.a) := by
    simp only [voteEffect, hom]; rfl
  simp only [h, List.all_eq, beq_iff_eq]

/-- VOTE with OM 3 (R135). -/
theorem voteEffect_lanes {x : RForm} (hom : x.om = 3) (s : State) (t : Thread) :
    voteEffect s x t =
      .values (place .b64 (bitsOf (((participants s x.g t).filter fun u => readPredOpnd u x.a).map (·.glane)))) := by
  simp only [voteEffect, hom]; rfl

theorem lmaskLanes_eq (s : State) (om : BitVec 3) (t : Thread) :
    lmaskLanes s om t =
      (let ts := groupThreads (coreOf s.kern s.cur.core) t.block t.group
       if om = 0 then (ts.filter fun u => u.loc == .entry s.cur.entry).map (·.glane)
       else if om = 1 then (ts.filter live).map (·.glane)
       else if om = 2 then (ts.filter fun u => u.loc == .parked).map (·.glane) else List.range t.glane) := by
  rcases om_cases om with rfl | rfl | rfl | rfl | rfl | rfl | rfl | rfl <;> rfl

theorem laneInstructions : Claims.LaneInstructions := by
  unfold Claims.LaneInstructions
  refine ⟨mem_participants, fun x hq => ?shfl, fun x q hq => ?shflPred, fun x q hq => ?bcastPred, fun x hq => ?bcast,
    fun x q hom hq => ?all, fun x q hom hq => ?any, fun x q hom hq => ?same, fun x hom => ?lanes, fun x => ?lmask⟩
  case shfl =>
    exact computes_values (fun _ => rfl) fun s t => by
      simp only [shflEffect, effectPred_none hq, shflLane_eq]; rfl
  case shflPred =>
    exact computes_onePred (fun _ => rfl) fun s t => by
      simp only [shflEffect, effectPred_some hq, shflLane_eq]; rfl
  case bcastPred =>
    refine computes_congr (computes_bcast x) fun s t => ?_
    cases h : bcastFrom s x t with
    | some u => rw [bcastEffect_found h, effectPred_some hq, ← bcastFrom, h]; rfl
    | none => rw [bcastEffect_absent h, effectPred_some hq, ← bcastFrom, h]
  case bcast =>
    refine computes_congr (computes_bcast x) fun s t => ?_
    cases h : bcastFrom s x t with
    | some u => rw [bcastEffect_found h, effectPred_none hq, ← bcastFrom, h]; rfl
    | none => rw [bcastEffect_absent h, effectPred_none hq, ← bcastFrom, h]
  case all => exact computes_onePred (fun _ => rfl) fun s t => by rw [voteEffect_all hom, effectPred_some hq]
  case any => exact computes_onePred (fun _ => rfl) fun s t => by rw [voteEffect_any hom, effectPred_some hq]
  case same => exact computes_onePred (fun _ => rfl) fun s t => by rw [voteEffect_same hom, effectPred_some hq]
  case lanes => exact computes_values (fun _ => rfl) (voteEffect_lanes hom)
  case lmask => exact computes_values (fun _ => rfl) fun s t => by rw [lmaskLanes_eq]

/-- Settles O6: each instruction is plain, and its effect is the stated one for each value of OM and each choice of QP. -/
theorem predicatesAndLanes : Obligations.PredicatesAndLanes := ⟨predicateInstructions, laneInstructions⟩

end Sys2Proof.Proofs
end

section
/-! Indirect branches (R140 to R142): the checks of their targets in order, the targets that pass, and the trap of one that fails. -/

namespace Sys2Proof.Proofs

open Sys2Proof.Machine Sys2Proof.Safety

/-! ## The checks of R141 in order -/

theorem pcForm_iff (pc : Nat) : pcForm pc = true ↔ pc / 8 % 8 = 0 ∧ pc % 8 ≤ 4 := by
  rw [pcForm, Bool.and_eq_true, beq_iff_eq, decide_eq_true_iff, pcSlot]

theorem targetCause_badForm {k : Kern} {c : Nat} {l : Launch} {pc : Nat} (h : pcForm pc = false) :
    targetCause k c l pc true = some (0x02, pcLine pc) := by
  simp only [targetCause, h, Bool.not_false, Bool.and_self, if_true]

theorem targetCause_outside {k : Kern} {c : Nat} {l : Launch} {pc : Nat} (hform : pcForm pc = true)
    (h : lineInside k l (pcLine pc) = false) : targetCause k c l pc true = some (0x04, pcLine pc) := by
  simp only [targetCause, hform, h, Bool.not_true, Bool.and_false, Bool.false_eq_true, if_false, Bool.not_false, if_true]

/-- A target of the right form inside the code object, whose line is seen: its TGT bit decides, and then its line. -/
theorem targetCause_seen {k : Kern} {c : Nat} {l : Launch} {pc : Nat} {bits : BitVec 512} (hform : pcForm pc = true)
    (hin : lineInside k l (pcLine pc) = true) (hsee : seeLine k c l (pcLine pc) = some bits) :
    targetCause k c l pc true =
      if targetBit bits (pcSlot pc) then (fetchCause bits pc).map fun x => (x, pcLine pc) else some (0x02, pcLine pc) := by
  simp only [targetCause, hform, hin, hsee, Bool.not_true, Bool.and_false, Bool.false_eq_true, if_false, if_true, Bool.true_and]
  cases targetBit bits (pcSlot pc) with
  | false => rfl
  | true => cases fetchCause bits pc <;> rfl

theorem indirectTargetChecks : Claims.IndirectTargetChecks := by
  unfold Claims.IndirectTargetChecks
  intro k c l pc
  refine ⟨fun h => ?_, fun h8 h4 => ⟨fun hout => ?_, fun hin bits hsee => ?_⟩⟩
  · refine targetCause_badForm (Bool.not_eq_true _ ▸ fun hform => ?_)
    obtain ⟨h8, h4⟩ := (pcForm_iff pc).mp hform
    omega
  · exact targetCause_outside ((pcForm_iff pc).mpr ⟨h8, h4⟩) hout
  · have hseen := targetCause_seen ((pcForm_iff pc).mpr ⟨h8, h4⟩) hin hsee
    have hbit : targetBit bits (pcSlot pc) = (lineWord bits).testBit (22 + pc % 8) := rfl
    rw [hbit] at hseen
    refine ⟨fun hno => ?_, fun hyes => ⟨fun cause hcause => ?_, fun hnone => ?_⟩⟩
    · rw [hseen, hno]; rfl
    · rw [hseen, hyes, hcause]; rfl
    · rw [hseen, hyes, hnone]; rfl

/-! ## The trap of a target that fails -/

theorem lineCause_values {bits : BitVec 512} {x : Nat} (h : lineCause bits = some x) : x = 0x02 ∨ x = 0x03 := by
  unfold lineCause at h
  grind

theorem fetchCause_values {bits : BitVec 512} {pc x : Nat} (h : fetchCause bits pc = some x) : x = 0x02 ∨ x = 0x03 := by
  unfold fetchCause at h
  cases hl : lineCause bits with
  | some y =>
    rw [hl] at h
    exact Option.some.inj h ▸ lineCause_values hl
  | none =>
    rw [hl] at h
    simp only [Option.ite_none_right_eq_some, Option.some.injEq] at h
    exact .inl h.2.symm

/-- The causes that the checks of an indirect target give, with the line address as the fault word. -/
theorem targetCause_indirect {k : Kern} {c : Nat} {l : Launch} {pc cause fault : Nat}
    (h : targetCause k c l pc true = some (cause, fault)) : cause ≤ 0x04 ∧ fault = pcLine pc := by
  by_cases hform : pcForm pc = true
  case neg =>
    rw [targetCause_badForm (Bool.not_eq_true _ ▸ hform)] at h
    cases h
    exact ⟨by decide, rfl⟩
  by_cases hin : lineInside k l (pcLine pc) = true
  case neg =>
    rw [targetCause_outside hform (Bool.not_eq_true _ ▸ hin)] at h
    cases h
    exact ⟨by decide, rfl⟩
  cases hsee : seeLine k c l (pcLine pc) with
  | none =>
    simp only [targetCause, hform, hin, hsee, Bool.not_true, Bool.and_false, Bool.false_eq_true, if_false] at h
    cases h
  | some bits =>
    rw [targetCause_seen hform hin hsee] at h
    split at h
    · obtain ⟨x, hx, hpair⟩ := Option.map_eq_some_iff.mp h
      cases hpair
      have := fetchCause_values hx
      exact ⟨by omega, rfl⟩
    · cases h
      exact ⟨by decide, rfl⟩

/-! ## The two courses of an indirect branch -/

theorem readPair_lt (s : State) (t : Thread) (a : Opnd) : readPair s.kern s.cur.core t a < 2 ^ 64 :=
  srcRaw_lt_two_pow_64 s t .n64 a

theorem goIndirect_passes {s : State} {l : Launch} {target : Nat} (k after : Kern) (hl : curLaunch s = some l)
    (h : targetCause s.kern s.cur.core l target true = none) : goIndirect s target k after = (after, .to target) := by
  simp only [goIndirect, hl, h]

theorem goIndirect_fails {s : State} {l : Launch} {target cause fault : Nat} (k after : Kern) (hl : curLaunch s = some l)
    (h : targetCause s.kern s.cur.core l target true = some (cause, fault)) :
    goIndirect s target k after = (k, .trapAt target cause 0 fault) := by
  simp only [goIndirect, hl, h]

/-- An indirect branch whose targets all pass: what it writes is written, and each thread goes to the target of its own pair. -/
theorem indirect_completes {s : State} {i : Instr} {a : Opnd} {t : Thread} {l : Launch}
    {after : Kern → Thread → List Reg → Kern} {vals : List W32} (hx : Executes s i t = true) (hl : curLaunch s = some l)
    (hb : ∀ k u d, Body s.cur.core u d (.values vals) id k (after k u d))
    (hgood : ∀ u ∈ actors s, verdictOf s i u = none →
      targetCause s.kern s.cur.core l (readPair s.kern s.cur.core u a) true = none) :
    Completes s (issueEach s i fun k u d => goIndirect s (readPair s.kern s.cur.core u a) k (after k u d)) i t (.values vals) t
      (readPair s.kern s.cur.core t a) :=
  issue_completes hx _ (fun _ => .values vals) (fun _ => id) (fun u => .to (readPair s.kern s.cur.core u a))
    (fun u hu hv k d => by rw [goIndirect_passes _ _ hl (hgood u hu hv)]; exact ⟨rfl, hb k u d⟩)
    (fun _ _ => ⟨rfl, rfl, rfl⟩) (fun _ _ _ => rfl) _ rfl (destination_nodup s i t) List.nodup_nil

/-- An indirect branch whose target fails: the thread traps at the target, and nothing is written. -/
theorem indirect_traps {s : State} {i : Instr} {a : Opnd} {t : Thread} {l : Launch} {h cause fault : Nat}
    (after : Kern → Thread → List Reg → Kern) (ha : ExecutesAlone s i t = true) (hl : curLaunch s = some l)
    (hd : TakesTraps s t l h)
    (hc : targetCause s.kern s.cur.core l (readPair s.kern s.cur.core t a) true = some (cause, fault)) :
    TrapsTo s (issueEach s i fun k u d => goIndirect s (readPair s.kern s.cur.core u a) k (after k u d)) t h
      (pairtOf s.kern s.cur.core l (readPair s.kern s.cur.core t a)) cause 0 (readPair s.kern s.cur.core t a) fault := by
  obtain ⟨hcause, rfl⟩ := targetCause_indirect hc
  have hpc := readPair_lt s t a
  exact issueEach_traps ha _ hd (goIndirect_fails _ _ hl hc) cause 0 _ _ hpc (pcLine_lt hpc) (by omega) (by decide) (by omega)
    (.inl rfl)

theorem indirectBranches : Claims.IndirectBranches := by
  unfold Claims.IndirectBranches
  refine ⟨fun x s t l hx hl hg => ?jmpi, fun x s t l hx hl hg => ?ret, fun x s t l hx hl hg => ?calli,
    fun x s t l h m cause fault hm ha hl hd hc => ?traps⟩
  case jmpi => exact ⟨_, rfl, indirect_completes hx hl (fun k u d => body_nothing k _ u d) hg⟩
  case ret => exact ⟨_, rfl, indirect_completes hx hl (fun k u d => body_nothing k _ u d) hg⟩
  case calli => exact ⟨_, rfl, indirect_completes hx hl (fun k u d => body_writeRegs k _ u d _) hg⟩
  case traps =>
    rcases hm with rfl | rfl | rfl
    · exact ⟨_, rfl, indirect_traps (fun k _ _ => k) ha hl hd hc⟩
    · exact ⟨_, rfl, indirect_traps (fun k _ _ => k) ha hl hd hc⟩
    · exact ⟨_, rfl, indirect_traps (linked s) ha hl hd hc⟩

/-- Settles O9: each branch takes the course that the checks of its target give, which are those of R141 in their order. -/
theorem indirectTargets : Obligations.IndirectTargets := ⟨indirectBranches, indirectTargetChecks⟩

end Sys2Proof.Proofs
end

section
/-! SRD, SWR, NOP and YIELD (R148, R234, R242, R243). -/

namespace Sys2Proof.Proofs

open Sys2Proof.Machine Sys2Proof.Safety

/-! ## A lone thread in its block and group -/

/-- A change of the thread itself that keeps its place and its group leaves it in its group. -/
theorem inGroup_modThis {k : Kern} {c : Nat} {t : Thread} {f : Thread → Thread} (ht : getThread k c t.tslot t.lane = some t)
    (hk : KeepsKey f) (hf : (f t).block = t.block ∧ (f t).group = t.group) : InGroup (modThis k c t f) c t :=
  ⟨f t, by rw [getThread_modThis_same _ _ _ _ hk, ht]; rfl, hf⟩

theorem keepsKey_wait (w : Wait) : KeepsKey fun u => { u with wait := w } := fun _ => ⟨rfl, rfl⟩

/-! ## SRD -/

/-- What SRD records as seen are the three SEEN fields (R242). -/
theorem recordSeen_eq (s : State) (n : Nat) (t : Thread) :
    recordSeen s n t =
      { t with seenRatios := (recordSeen s n t).seenRatios, seenStep := (recordSeen s n t).seenStep,
               seenBand := (recordSeen s n t).seenBand } := by
  unfold recordSeen
  split <;> rfl

theorem recordSeen_regs (s : State) (n : Nat) (t : Thread) (r : RegFile) :
    recordSeen s n { t with regs := r } = { recordSeen s n t with regs := r } := by
  unfold recordSeen
  split <;> rfl

theorem keepsHeld_recordSeen (s : State) (n : Nat) : KeepsHeld (recordSeen s n) := fun t => by
  rw [recordSeen_eq]
  exact ⟨rfl, rfl, rfl⟩

theorem keepsKey_recordSeen (s : State) (n : Nat) : KeepsKey (recordSeen s n) := fun t => by
  rw [recordSeen_eq]
  exact ⟨rfl, rfl⟩

/-- A change that leaves what is on its way to a thread, and where the thread stands, brings no result to a scalar register. -/
theorem keepsQuiet_of_keepsHeld {f : Thread → Thread} (h : KeepsHeld f) : KeepsQuiet f := fun t => by
  obtain ⟨hheld, hblock, hgroup⟩ := h t
  exact ⟨hblock, hgroup, fun a ha => .inr ⟨a, hheld ▸ ha, rfl, rfl, rfl⟩⟩

/-- Values written to a thread's registers, and then a change of other fields of it. -/
theorem body_writeRegs_modThis {own : Thread → Thread} (hk : KeepsKey own) (hheld : KeepsHeld own)
    (hregs : ∀ w r, own { w with regs := r } = { own w with regs := r }) (k : Kern) (c : Nat) (u : Thread) (d : List Reg)
    (xs : List W32) : Body c u d (.values xs) own k (modThis (writeRegs k c u d xs) c u own) := by
  obtain ⟨hthread, hgroup, hwithin, hquiet⟩ := body_writeRegs k c u d xs
  refine ⟨?_, fun v => ?_, fun keys hkeys => ?_, fun b g n h => ?_⟩
  · rw [getThread_modThis_same _ _ _ _ hk, hthread, Option.map_map]
    exact congrArg (fun f => (getThread k c u.tslot u.lane).map f) (funext fun w => hregs w _)
  · rw [groupOf_modThis, hgroup]
  · exact (hwithin keys hkeys).trans (within_modThis _ u _ hk hkeys)
  · exact quiet_modThread _ _ _ (keepsQuiet_of_keepsHeld hheld) (hquiet b g n h)

theorem srd_completes {s : State} {x : SForm} {t : Thread} (hx : Executes s (.srd x) t = true) :
    Completes s (issueEach s (.srd x) (srdBody s x.sr.toNat)) (.srd x) t
      (.values (place (if srWide x.sr.toNat = some true then .n64 else .n32) (specialValue s t x.sr.toNat)))
      (recordSeen s x.sr.toNat t) (curNext s) := by
  have hty : (if srWide x.sr.toNat == some true then Ty.n64 else .n32) = if srWide x.sr.toNat = some true then .n64 else .n32 := by
    simp only [beq_iff_eq]
  refine issue_completes hx _
    (fun u => .values (place (if srWide x.sr.toNat = some true then .n64 else .n32) (specialValue s u x.sr.toNat)))
    (fun _ => recordSeen s x.sr.toNat) (fun _ => .next) (fun u _ _ k d => ⟨rfl, ?_⟩)
    (fun _ => keepsHeld_recordSeen s _) (fun _ _ _ => rfl) _ rfl (destination_nodup s _ t) List.nodup_nil
  rw [← hty]
  exact body_writeRegs_modThis (keepsKey_recordSeen s _) (keepsHeld_recordSeen s _) (recordSeen_regs s _) k _ u d _

/-! ## Instructions that only go on -/

/-- An instruction whose body does nothing and goes on. -/
theorem computes_nothing {i : Instr}
    (hex : ∀ s, exec i s = answer (issueEach s i fun k _ _ => (k, .next))) : Computes i fun _ _ => .values [] := fun s t hx =>
  ⟨_, hex s, issue_completes hx _ (fun _ => .values []) (fun _ => id) (fun _ => .next)
    (fun u _ _ k d => ⟨rfl, body_nothing k _ u d⟩) (fun _ _ => ⟨rfl, rfl, rfl⟩) (fun _ _ _ => rfl) _ rfl
    (destination_nodup s i t) List.nodup_nil⟩

/-! ## YIELD -/

theorem cycle_beforeBody (s : State) (i : Instr) (t : Thread) :
    (coreOf (beforeBody s i t) s.cur.core).cycle = (coreOf s.kern s.cur.core).cycle := by
  rw [beforeBody, (caches_before s.kern s.cur.core i [t]).core]

/-- The entry in hand asleep for n core cycles (R148). -/
def sleeping (s : State) (n : Nat) (core : Core) : Core :=
  { core with entries := mmod core.entries s.cur.entry fun e => { e with sleep := some (core.cycle + n) } }

theorem yield_waits {s : State} {x : SForm} {t : Thread} (hn : x.imm ≠ 0) (ha : ExecutesAlone s (.yield x) t = true) :
    ∃ s', exec (.yield x) s = .next s' ∧
      WaitsIn s (modThis (modCore (beforeBody s (.yield x) t) s.cur.core (sleeping s x.imm.toNat)) s.cur.core t fun u =>
        { u with wait := .yielding ((coreOf s.kern s.cur.core).cycle + x.imm.toNat) }) t s' := by
  have hzero : (x.imm.toNat == 0) = false := by
    simpa using fun h : x.imm.toNat = 0 => hn (BitVec.eq_of_toNat_eq h)
  refine ⟨_, rfl, issueEach_waits ha _ ?_ (inGroup_modThis ?_ (keepsKey_wait _) ⟨rfl, rfl⟩)⟩
  · rw [← cycle_beforeBody s (.yield x) t]
    simp only [hzero, Bool.false_eq_true, if_false, beginWait]
    rfl
  · simp only [getThread, coreOf_modCore_same]
    exact getThread_beforeBody ha

/-- Settles O13: SRD writes a value and records it as seen, SWR writes FFLAGS alone, and YIELD n lays the entry to sleep. -/
theorem systemInstructions : Obligations.SystemInstructions := by
  unfold Obligations.SystemInstructions
  refine ⟨fun x s t hx => ?srd, fun x s t ha => ?swr, fun x => ?nop, fun x hn => ?yield0, fun x s t hn ha => ?yield⟩
  case srd => exact ⟨_, rfl, srd_completes hx⟩
  case swr =>
    exact ⟨_, rfl, issueEach_goesOn ha _ rfl rfl
      (inGroup_modThis (getThread_beforeBody ha) (keepsKey_regs _) ⟨rfl, rfl⟩)⟩
  case nop => exact computes_nothing fun _ => rfl
  case yield0 =>
    refine computes_nothing fun s => ?_
    have hzero : x.imm.toNat = 0 := by rw [hn]; rfl
    exact congrArg (fun f => answer (issueEach s (.yield x) f)) (funext fun k => funext fun t => funext fun _ => by
      rw [hzero]; rfl)
  case yield => exact yield_waits hn ha

end Sys2Proof.Proofs
end

section
/-! Pegs (R144 to R146): what MEET, PEG and PEG.def do to a peg and to their thread. -/

namespace Sys2Proof.Proofs

open Sys2Proof.Machine Sys2Proof.Safety

/-! ## Two changes of one peg -/

theorem mmod_mmod {α : Type} (m : FMap α) (i : Nat) (f g : α → α) : mmod (mmod m i f) i g = mmod m i fun a => g (f a) := by
  cases h : mget m i with
  | none => simp only [mmod, h]
  | some a => simp only [mmod, h, mget_mset_same, mset_mset_same]

theorem lmod_lmod {α : Type} (l : List α) (i : Nat) (f g : α → α) : lmod (lmod l i f) i g = lmod l i fun a => g (f a) := by
  refine List.ext_getElem? fun j => ?_
  simp only [getElem?_lmod]
  split
  · simp only [Option.map_map, Function.comp_def]
  · rfl

theorem modBlock_modBlock (k : Kern) (c b : Nat) (f g : Block → Block) :
    modBlock (modBlock k c b f) c b g = modBlock k c b fun blk => g (f blk) := by
  simp only [modBlock, modCore_modCore, mmod_mmod]

theorem modPeg_modPeg (k : Kern) (c b pg : Nat) (f g : Peg → Peg) :
    modPeg (modPeg k c b pg f) c b pg g = modPeg k c b pg fun p => g (f p) := by
  simp only [modPeg, modBlock_modBlock, lmod_lmod]

@[simp] theorem getThread_modPeg (k : Kern) (c b pg : Nat) (f : Peg → Peg) (x y : Nat) :
    getThread (modPeg k c b pg f) c x y = getThread k c x y := getThread_modBlock ..

/-! ## The bodies by the state of the peg -/

section Bodies

variable {k : Kern} {c pg : Nat} {t : Thread} {blk : Block}

theorem inPeg_iff (p : Peg) (g : Nat) : inPeg p g = true ↔ p.first ≤ g ∧ g < p.first + p.count := by
  simp [inPeg]

theorem outsidePeg {p : Peg} {g : Nat} (h : g < p.first ∨ p.first + p.count ≤ g) : inPeg p g = false := by
  rw [← Bool.not_eq_true, inPeg_iff]
  omega

theorem meetBody_outside (hb : blockOf k c t.block = some blk) (h : inPeg (pegOf blk pg) t.group = false) :
    meetBody c pg k t = illegalHere k := by
  simp [meetBody, hb, h]

theorem meetBody_owed (hb : blockOf k c t.block = some blk) (hin : inPeg (pegOf blk pg) t.group = true)
    (howed : memberId blk t ∈ (pegOf blk pg).owedMeet) :
    meetBody c pg k t = (modPeg k c t.block pg (clearOwed (memberId blk t)), .next) := by
  simp [meetBody, hb, hin, howed]

theorem meetBody_signClosed (hb : blockOf k c t.block = some blk) (hin : inPeg (pegOf blk pg) t.group = true)
    (howed : memberId blk t ∉ (pegOf blk pg).owedMeet) (he : (pegOf blk pg).episode = .signClosed) :
    meetBody c pg k t = beginWait (modPeg k c t.block pg (clearOwed (memberId blk t))) c t (.meet pg true) := by
  simp [meetBody, hb, hin, howed, he]

theorem meetBody_arrives (hb : blockOf k c t.block = some blk) (hin : inPeg (pegOf blk pg) t.group = true)
    (howed : memberId blk t ∉ (pegOf blk pg).owedMeet)
    (he : (pegOf blk pg).episode = .none ∨ (pegOf blk pg).episode = .meetOpen) :
    meetBody c pg k t =
      beginWait (modPeg k c t.block pg fun p => arrivePeg (memberId blk t) .meetOpen (clearOwed (memberId blk t) p)) c t
        (.meet pg false) := by
  rcases he with he | he <;> simp [meetBody, hb, hin, howed, he, modPeg_modPeg]

theorem signBody_outside (hb : blockOf k c t.block = some blk) (h : inPeg (pegOf blk pg) t.group = false) :
    signBody c pg k t = illegalHere k := by
  simp [signBody, hb, h]

theorem signBody_owed (hb : blockOf k c t.block = some blk) (hin : inPeg (pegOf blk pg) t.group = true)
    (howed : memberId blk t ∈ (pegOf blk pg).owedSign) :
    signBody c pg k t = (modPeg k c t.block pg (clearOwed (memberId blk t)), .next) := by
  simp [signBody, hb, hin, howed]

/-- A signature in a meet episode is illegal, from inside the members or from outside. -/
theorem signBody_meetOpen (hb : blockOf k c t.block = some blk) (howed : memberId blk t ∉ (pegOf blk pg).owedSign)
    (he : (pegOf blk pg).episode = .meetOpen) : signBody c pg k t = illegalHere k := by
  simp [signBody, hb, howed, he]

theorem signBody_waits (hb : blockOf k c t.block = some blk) (hin : inPeg (pegOf blk pg) t.group = true)
    (howed : memberId blk t ∉ (pegOf blk pg).owedSign) (hne : (pegOf blk pg).episode ≠ .meetOpen)
    (he : (pegOf blk pg).episode = .signClosed ∨ memberId blk t ∈ (pegOf blk pg).arrived) :
    signBody c pg k t = beginWait k c t (.sign pg) := by
  rcases he with he | he <;> simp [signBody, hb, hin, howed, hne, he]

theorem signBody_signs (hb : blockOf k c t.block = some blk) (hin : inPeg (pegOf blk pg) t.group = true)
    (howed : memberId blk t ∉ (pegOf blk pg).owedSign)
    (he : (pegOf blk pg).episode = .none ∨ (pegOf blk pg).episode = .signOpen) (harr : memberId blk t ∉ (pegOf blk pg).arrived) :
    signBody c pg k t =
      (modPeg k c t.block pg fun p => arrivePeg (memberId blk t) .signOpen (clearOwed (memberId blk t) p), .next) := by
  rcases he with he | he <;> simp [signBody, hb, hin, howed, he, harr]

theorem pegDefBody_defines {first count : Nat} (hb : blockOf k c t.block = some blk) (he : (pegOf blk pg).episode = .none)
    (hn : first + count ≤ blk.groups.length) :
    pegDefBody c pg first count k t =
      (modPeg k c t.block pg fun p =>
        { p with first := first, count := count, owedMeet := [], owedSign := [], pass := [] }, .next) := by
  simp [pegDefBody, hb, he, hn]

theorem pegDefBody_illegal {first count : Nat} (hb : blockOf k c t.block = some blk)
    (h : (pegOf blk pg).episode ≠ .none ∨ blk.groups.length < first + count) :
    pegDefBody c pg first count k t = illegalHere k := by
  simp only [pegDefBody, hb, Bool.or_eq_true, bne_iff_ne, decide_eq_true_eq, if_pos h]

end Bodies

/-! ## The instructions in a lone thread -/

theorem blockOf_beforeBody (s : State) (i : Instr) (t : Thread) (b : Nat) :
    blockOf (beforeBody s i t) s.cur.core b = blockOf s.kern s.cur.core b :=
  blockOf_butCaches (caches_before s.kern s.cur.core i [t]) b

theorem unlessTrapState_runs {s : State} {t : Thread} (h : t.tstate = false)
    (body : Kern → Thread → List Reg → Kern × Course) (k : Kern) (d : List Reg) :
    unlessTrapState s body k t d = body k t d := by
  simp only [unlessTrapState, h, Bool.false_eq_true, if_false]

/-- An instruction of the pegs that changes a peg and goes on. -/
theorem peg_goesOn {s : State} {i : Instr} {t : Thread} (ha : ExecutesAlone s i t = true) (hs : t.tstate = false)
    {body : Kern → Thread → List Reg → Kern × Course} {pg : Nat} {f : Peg → Peg}
    (hbody : body (beforeBody s i t) t (destination s i t) = (modPeg (beforeBody s i t) s.cur.core t.block pg f, .next)) :
    GoesOnFrom s (modPeg (beforeBody s i t) s.cur.core t.block pg f) t (issueEach s i (unlessTrapState s body)) (curNext s) :=
  issueEach_goesOn ha _ ((unlessTrapState_runs hs ..).trans hbody) rfl
    ⟨t, (getThread_modPeg ..).trans (getThread_beforeBody ha), rfl, rfl⟩

/-- An instruction of the pegs that begins to wait. -/
theorem peg_waits {s : State} {i : Instr} {t : Thread} (ha : ExecutesAlone s i t = true) (hs : t.tstate = false)
    {body : Kern → Thread → List Reg → Kern × Course} {k : Kern} {w : Wait}
    (hk : getThread k s.cur.core t.tslot t.lane = getThread (beforeBody s i t) s.cur.core t.tslot t.lane)
    (hbody : body (beforeBody s i t) t (destination s i t) = beginWait k s.cur.core t w) :
    WaitsIn s (modThis k s.cur.core t fun u => { u with wait := w }) t (issueEach s i (unlessTrapState s body)) :=
  issueEach_waits ha _ ((unlessTrapState_runs hs ..).trans hbody)
    (inGroup_modThis (hk.trans (getThread_beforeBody ha)) (keepsKey_wait w) ⟨rfl, rfl⟩)

/-- An instruction of the pegs that is illegal. -/
theorem peg_illegal {s : State} {i : Instr} {t : Thread} {l : Launch} {h : Nat} (ha : ExecutesAlone s i t = true)
    (hd : TakesTraps s t l h) {body : Kern → Thread → List Reg → Kern × Course}
    (hbody : body (beforeBody s i t) t (destination s i t) = illegalHere (beforeBody s i t)) :
    TrapsTo s (issueEach s i (unlessTrapState s body)) t h (pairtOf s.kern s.cur.core l (curPc s)) 0x01 0 (curPc s) 0 := by
  obtain ⟨-, -, hs, -, -⟩ := id hd
  exact issueEach_traps ha _ hd ((unlessTrapState_runs hs ..).trans hbody) 0x01 0 (curPc s) 0
    (curPc_lt (executes_single (alone_executes ha))) (by decide) (by decide) (by decide) (by decide) (.inr ⟨rfl, rfl⟩)

/-- The peg of an arrival, with the kind of its episode decided by equality. -/
theorem arrivePeg_clearOwed (id : Nat) (e : Episode) (p : Peg) :
    arrivePeg id e (clearOwed id p) =
      { p with owedMeet := p.owedMeet.filter (· != id), owedSign := p.owedSign.filter (· != id),
               episode := if p.episode = .none then e else p.episode, arrived := addOnce p.arrived id } := by
  simp only [arrivePeg, clearOwed, beq_iff_eq]

/-- Settles O16: each clause is the case of the body that the peg's members, its debts and its episode select. -/
theorem pegs : Obligations.Pegs := by
  unfold Obligations.Pegs
  simp only [← arrivePeg_clearOwed]
  refine ⟨fun x s t blk pg ha hs hblk hpg hfirst hlast => ?meet, fun x s t blk pg ha hs hblk hpg hfirst hlast => ?sign,
    fun x s t blk pg ha hs hblk hpg he hn => ?define, fun x s t blk pg l h m ha hd hblk hpg hcase => ?illegal⟩
  case meet =>
    have hb := (blockOf_beforeBody s (.meet x) t t.block).trans hblk
    have hin := (inPeg_iff _ _).mpr ⟨hfirst, hlast⟩
    have hnum : pegNumber x.a = pg := by rw [hpg]; rfl
    have hex : exec (.meet x) s =
        answer (issueEach s (.meet x) (unlessTrapState s fun k t _ => meetBody s.cur.core pg k t)) := by rw [← hnum]; rfl
    refine ⟨fun howed => ⟨_, hex, ?_⟩, fun howed he => ⟨_, hex, ?_⟩, fun howed he => ⟨_, hex, ?_⟩⟩
    · exact peg_goesOn ha hs (meetBody_owed hb hin howed)
    · exact peg_waits ha hs (getThread_modPeg ..) (meetBody_signClosed hb hin howed he)
    · exact peg_waits ha hs (getThread_modPeg ..) (meetBody_arrives hb hin howed he)
  case sign =>
    have hb := (blockOf_beforeBody s (.peg x) t t.block).trans hblk
    have hin := (inPeg_iff _ _).mpr ⟨hfirst, hlast⟩
    have hnum : pegNumber x.a = pg := by rw [hpg]; rfl
    have hex : exec (.peg x) s =
        answer (issueEach s (.peg x) (unlessTrapState s fun k t _ => signBody s.cur.core pg k t)) := by rw [← hnum]; rfl
    refine ⟨fun howed => ⟨_, hex, ?_⟩, fun howed he => ⟨_, hex, ?_⟩, fun howed he harr => ⟨_, hex, ?_⟩⟩
    · exact peg_goesOn ha hs (signBody_owed hb hin howed)
    · refine peg_waits ha hs rfl (signBody_waits hb hin howed ?_ (he.imp_right And.right))
      rcases he with he | he
      · rw [he]; decide
      · exact he.1
    · exact peg_goesOn ha hs (signBody_signs hb hin howed he harr)
  case define =>
    have hb := (blockOf_beforeBody s (.pegDef x) t t.block).trans hblk
    have hnum : pegNumber x.a = pg := by rw [hpg]; rfl
    refine ⟨_, rfl, ?_⟩
    rw [← hnum] at he ⊢
    exact peg_goesOn ha hs (pegDefBody_defines hb he hn)
  case illegal =>
    have hb := (blockOf_beforeBody s m t t.block).trans hblk
    have hnum : pegNumber x.a = pg := by rw [hpg]; rfl
    rw [← hnum] at hcase
    rcases hcase with ⟨rfl | rfl, hout⟩ | ⟨rfl, howed, he⟩ | ⟨rfl, hbad⟩
    · exact ⟨_, rfl, peg_illegal ha hd (meetBody_outside hb (outsidePeg hout))⟩
    · exact ⟨_, rfl, peg_illegal ha hd (signBody_outside hb (outsidePeg hout))⟩
    · exact ⟨_, rfl, peg_illegal ha hd (signBody_meetOpen hb howed he)⟩
    · exact ⟨_, rfl, peg_illegal ha hd (pegDefBody_illegal hb hbad)⟩

end Sys2Proof.Proofs
end

section
/-! EXIT (R143, R278): a result on its way to a scalar register of the group stays on its way inside the window of the thread that
exits, where another thread of the group has left that window. -/

namespace Sys2Proof.Proofs

open Sys2Proof.Machine Sys2Proof.Safety

/-! ## A thread that exits inside a window which another thread of its group has left -/

/-- EXIT. -/
def exitForm : BForm := { g := ⟨false, 7⟩, d := .v 0, a := .v 0, ts := 0, ldisp := 0 }

/-- A result on its way to s5, with three more instructions in its window. -/
def scalarResult : Held :=
  { id := 9, regs := [.s 5], named := [.s 5], old := [(5, 0)], vals := [], flags := 0, arrived := false, window := 3 }

/-- The thread that exits. -/
def leaver : Thread := { fetchThread with held := [scalarResult] }

/-- The other thread of the group, which has left the window of the same result and is pending. -/
def ahead : Thread := { fetchThread with lane := 1, glane := 1, loc := .pending 8 }

/-- The thread is about to issue EXIT; s5 takes its result as soon as it has arrived. -/
def exitState : State :=
  let s := State.reset.withFetchWord 96 ((encode (.exit exitForm)).getD 0).toNat
  { s with
    kern := modGroup (modCore s.kern 0 fun core => { core with threads := [leaver, ahead] }) 0 0 0 fun g =>
      { g with early := [(5, 9)] }
    cur := { core := 0, entry := 0, mode := .single } }

theorem exitState_executes : ExecutesAlone exitState (.exit exitForm) leaver = true := by decide +kernel

theorem exitState_noCell : cellPlace exitState.kern 0 leaver = none := by decide +kernel

/-- What is on its way to the first thread of a state. -/
def heldOfFirst (s : State) : List Held := ((getThread s.kern 0 0 0).map (·.held)).getD []

/-- The thread has exited with the result inside its window. -/
theorem heldOfFirst_exit : (answered (exec (.exit exitForm) exitState)).map heldOfFirst = some [scalarResult] := by decide +kernel

/-- Refutes O10: the result that stays on its way to the group's scalar register keeps the window of the thread that exited. -/
theorem not_exitEndsThread : ¬ Obligations.ExitEndsThread := by
  unfold Obligations.ExitEndsThread
  rintro ⟨hexit, -, -⟩
  obtain ⟨s', hexec, ⟨u, hu, -, hclosed, -⟩, -, -⟩ :=
    hexit exitForm exitState leaver exitState_executes rfl exitState_noCell
  have hheld := heldOfFirst_exit
  have hfirst : heldOfFirst s' = u.held := by rw [heldOfFirst, show getThread s'.kern 0 0 0 = some u from hu]; rfl
  rw [hexec, answered, Option.map_some, hfirst, Option.some.injEq] at hheld
  obtain ⟨hwindow, -⟩ := hclosed scalarResult (by rw [hheld]; exact List.mem_singleton_self _)
  exact absurd hwindow (by decide)

end Sys2Proof.Proofs
end

section
/-! BARRIER_RELEASE_WAVE (R230, R421): a wave also notes when the next one is due, in the barrier itself. -/

namespace Sys2Proof.Proofs

open Sys2Proof.Machine Sys2Proof.Safety

/-! ## The core cycle at which a barrier's next wave is due -/

/-- The core cycle at which the next wave of barrier 0 of block 0 of core 0 is due. -/
def dueOf (k : Kern) : Option Nat := (blockOf k 0 0).map fun blk => (barOf blk 0).due

theorem due_barOf_lmod (blk : Block) (x : Nat) (f : Barrier → Barrier) (hf : ∀ y, (f y).due = y.due) :
    (barOf { blk with bars := lmod blk.bars x f } x).due = (barOf blk x).due := by
  simp only [barOf, List.getD_eq_getElem?_getD, getElem?_lmod, if_true]
  cases blk.bars[x]? with
  | none => rfl
  | some y => exact hf y

/-- A change of a barrier that leaves the note of its next wave alone. -/
theorem dueOf_modBar (k : Kern) (f : Barrier → Barrier) (hf : ∀ y, (f y).due = y.due) : dueOf (modBar k 0 0 0 f) = dueOf k := by
  simp only [dueOf, modBar, blockOf_modBlock, if_true, Option.map_map]
  exact congrArg (fun g => (blockOf k 0 0).map g) (funext fun blk => due_barOf_lmod blk 0 f hf)

theorem setArr_due (id : Nat) (a : Option Arrival) (y : Barrier) : (setArr id a y).due = y.due := rfl

/-- Threads that give up their arrivals leave the note of the next wave alone. -/
theorem foldl_setArr_due (blk : Block) (ts : List Thread) (y : Barrier) :
    (ts.foldl (fun y t => setArr (memberId blk t) none y) y).due = y.due := by
  induction ts generalizing y with
  | nil => rfl
  | cons t ts ih => rw [List.foldl_cons, ih, setArr_due]

/-- What is within a frame keeps the note of the next wave: it is no scalar register. -/
theorem dueOf_within {keys : Nat → Nat → Bool} {k k' : Kern} (h : Within 0 keys k k') : dueOf k' = dueOf k := by
  have hbars : ∀ k, dueOf k = ((blockOf k 0 0).map bare).map fun blk => (barOf blk 0).due := fun k => by
    rw [Option.map_map]; rfl
  rw [hbars, hbars, h.blocks 0]

/-- What is claimed of a wave leaves the note of the next wave alone. -/
theorem dueOf_of_barriersOpen (h : Claims.BarriersOpen) {s : State} {blk : Block} (hblk : blockOf s.kern 0 0 = some blk)
    (hbars : 0 < blk.bars.length) : ∃ s', exec (.barrierReleaseWave 0 0 0) s = .next s' ∧ dueOf s'.kern = dueOf s.kern := by
  obtain ⟨-, hwave⟩ := h
  obtain ⟨s', -, hexec, -, -, -, -, -, hresumes⟩ := hwave s 0 0 0 blk hblk hbars
  exact ⟨s', hexec, (dueOf_within hresumes.within).trans (dueOf_modBar _ _ fun y => foldl_setArr_due blk _ y)⟩

/-! ## A released thread whose wave is due -/

/-- A thread that an opening of barrier 0 has released. -/
def releasedThread : Thread := { fetchThread with wait := .released 0 }

/-- Barrier 0 has opened once, with the thread's arrival counted, and its first wave is due. -/
def openedBar : Barrier := { gen := 1, arr := [(0, .inGen 0)], next := 0, due := 0, order := 0 }

/-- The thread waits for a wave of the barrier. -/
def waveState : State :=
  let s := State.reset.withFetchWord 96 1
  let k := modCore s.kern 0 fun core => { core with threads := [releasedThread] }
  { s with kern := modBlock k 0 0 fun blk => { blk with bars := lmod blk.bars 0 fun _ => openedBar } }

theorem waveState_bar : (blockOf waveState.kern 0 0).map (fun blk => decide (0 < blk.bars.length)) = some true := by decide +kernel

theorem dueOf_waveState : dueOf waveState.kern = some 0 := by decide +kernel

/-- The next wave is 16 core cycles later (R421). -/
theorem dueOf_wave : (answered (exec (.barrierReleaseWave 0 0 0) waveState)).map (fun s => dueOf s.kern) = some (some 16) := by
  decide +kernel

/-- Refutes O33: a wave moves the core cycle at which the next wave of its barrier is due, beside the arrivals that its threads give
up and the group slot at which the next wave goes on. -/
theorem not_syncEvents : ¬ Obligations.SyncEvents := by
  unfold Obligations.SyncEvents
  rintro ⟨-, hopen⟩
  obtain ⟨blk, hblk, hbars⟩ := Option.map_eq_some_iff.mp waveState_bar
  obtain ⟨s', hexec, hkept⟩ := dueOf_of_barriersOpen hopen hblk (of_decide_eq_true hbars)
  have hmoved := dueOf_wave
  rw [hexec, answered, Option.map_some, hkept, dueOf_waveState] at hmoved
  exact absurd hmoved (by decide)

end Sys2Proof.Proofs
end

section
/-! Memory in its canonical form (R155, R440), first part: the operations of the model that leave every byte of memory where it is, each with one
equation, in the order of the model's own definitions. -/

namespace Sys2Proof.Proofs

open Sys2Proof Sys2Proof.Machine Sys2Proof.Safety

theorem foldl_mem {α : Type} {f : Kern → α → Kern} (hf : ∀ k a, (f k a).mem = k.mem) (l : List α) (k : Kern) :
    (l.foldl f k).mem = k.mem := by
  induction l generalizing k with
  | nil => rfl
  | cons a l ih => rw [List.foldl_cons, ih, hf]

theorem foldlS_mem {α : Type} {f : State → α → State} (hf : ∀ s a, (f s a).kern.mem = s.kern.mem) (l : List α) (s : State) :
    (l.foldl f s).kern.mem = s.kern.mem := by
  induction l generalizing s with
  | nil => rfl
  | cons a l ih => rw [List.foldl_cons, ih, hf]

theorem mem_of_fst {α : Type} {p : Kern × α} {k : Kern} {a : α} (h : p = (k, a)) : k.mem = p.1.mem := by rw [h]

/-! ## Poison (R440) -/

@[simp] theorem countMended_mem (k : Kern) (as : List Nat) : (countMended k as).mem = k.mem := by
  unfold countMended
  refine (foldl_mem ?_ _ _).trans ?_
  · intro k1 a
    split <;> rfl
  · rfl

@[simp] theorem noteBad_mem (k : Kern) (a : Nat) : (noteBad k a).mem = k.mem := by
  unfold noteBad
  split <;> rfl

@[simp] theorem setPoison_mem (k : Kern) (a : Nat) (p : Poison) : (setPoison k a p).mem = k.mem := by
  unfold setPoison
  split <;> rfl

/-! ## Firmware's own reads and writes of objects -/

@[simp] theorem askFar_mem (k : Kern) (ctx dev o line : Nat) (put : Option (FMap Byte)) :
    (askFar k ctx dev o line put).mem = k.mem := rfl

@[simp] theorem sendLines_mem (k : Kern) (ctx dev o off : Nat) (bs : List Byte) (n : Nat) :
    (sendLines k ctx dev o off bs n).mem = k.mem := by
  fun_induction sendLines k ctx dev o off bs n
  · rfl
  · rfl
  · simp_all

@[simp] theorem sendWrite_mem (k : Kern) (ctx o off : Nat) (bs : List Byte) : (sendWrite k ctx o off bs).mem = k.mem := by
  unfold sendWrite
  split
  · split
    · simp
    · rfl
  · rfl

/-! ## The exchange region (R290) -/

@[simp] theorem modRegion_mem (k : Kern) (c serial : Nat) (f : XRegion → XRegion) : (modRegion k c serial f).mem = k.mem := rfl

/-! ## Writing -/

@[simp] theorem writeReg_mem (k : Kern) (c : Nat) (t : Thread) (r : Reg) (x : W32) : (writeReg k c t r x).mem = k.mem := by
  unfold writeReg
  split <;> rfl

@[simp] theorem writeRegs_mem (k : Kern) (c : Nat) (t : Thread) (xs : List Reg) (xs1 : List W32) :
    (writeRegs k c t xs xs1).mem = k.mem := by
  fun_induction writeRegs k c t xs xs1
  · simp_all
  · rfl

@[simp] theorem writePred_mem (k : Kern) (c : Nat) (t : Thread) (i : Nat) (x : Bool) : (writePred k c t i x).mem = k.mem := rfl

@[simp] theorem joinFlags_mem (k : Kern) (c : Nat) (t : Thread) (f : BitVec 5) : (joinFlags k c t f).mem = k.mem := rfl

/-! ## Held results (R41 to R43) -/

@[simp] theorem writeResult_mem (k : Kern) (c : Nat) (t : Thread) (h : Held) : (writeResult k c t h).mem = k.mem := by
  unfold writeResult
  split
  · rfl
  · simp

@[simp] theorem writeHeld_mem (k : Kern) (c : Nat) (t : Thread) (h : Held) : (writeHeld k c t h).mem = k.mem := by
  unfold writeHeld
  simp

@[simp] theorem dropEarly_mem (k : Kern) (c : Nat) (t : Thread) : (dropEarly k c t).mem = k.mem := rfl

@[simp] theorem flushHeld_mem (k : Kern) (c : Nat) (t : Thread) (test : Held → Bool) : (flushHeld k c t test).mem = k.mem := by
  unfold flushHeld
  dsimp only
  rw [dropEarly_mem, modThis_mem]
  exact foldl_mem (by simp) _ _

@[simp] theorem releaseScalar_mem (k : Kern) (c : Nat) (t : Thread) (i : Nat) : (releaseScalar k c t i).mem = k.mem := by
  unfold releaseScalar
  split <;> rfl

@[simp] theorem releaseScalars_mem (k : Kern) (c : Nat) (t : Thread) (rs : List Reg) :
    (releaseScalars k c t rs).mem = k.mem := by
  unfold releaseScalars
  exact foldl_mem (by simp) _ _

@[simp] theorem countWindows_mem (k : Kern) (c : Nat) (t : Thread) (upTo : Nat) : (countWindows k c t upTo).mem = k.mem := by
  unfold countWindows
  simp

@[simp] theorem landEarly_mem (k : Kern) (c : Nat) (t : Thread) (id : Nat) (vals : List W32) :
    (landEarly k c t id vals).mem = k.mem := by
  unfold landEarly
  split <;> rfl

@[simp] theorem arriveHeld_mem (k : Kern) (c : Nat) (t : Thread) (id : Nat) (vals : List W32) (flags : BitVec 5) :
    (arriveHeld k c t id vals flags).mem = k.mem := by
  unfold arriveHeld
  simp

@[simp] theorem holdResult_mem (k : Kern) (c : Nat) (t : Thread) (regs : List Reg) (vals : List W32) (flags : BitVec 5)
    (la : BitVec 4) : (holdResult k c t regs vals flags la).2.mem = k.mem := rfl

/-! ## Lines (R8 to R14) -/

@[simp] theorem bufferLine_mem (k : Kern) (c : Nat) (l : Launch) (line : Nat) (bits : BitVec 512) :
    (bufferLine k c l line bits).mem = k.mem := rfl

@[simp] theorem refetch_mem (k : Kern) (c : Nat) (l : Launch) (line : Nat) : (refetch k c l line).mem = k.mem := by
  unfold refetch
  split
  · rfl
  · split <;> rfl

/-! ## Every thread of a context -/

@[simp] theorem modCtxThreads_mem (k : Kern) (ctx : Nat) (f : Thread → Thread) : (modCtxThreads k ctx f).mem = k.mem := rfl

/-! ## Trap records (R235, R236) -/

@[simp] theorem deliverVacated_mem (k : Kern) (ctx : Nat) : (deliverVacated k ctx).mem = k.mem := rfl

@[simp] theorem deliverAsync_mem (k : Kern) (ctx : Nat) (budget : Bool) : (deliverAsync k ctx budget).mem = k.mem := by
  unfold deliverAsync
  split <;> rfl

@[simp] theorem chargeBy_mem (spent : Kern → Nat → Kern) (k : Kern) (ctx units : Nat)
    (hspent : ∀ (k : Kern) (n : Nat), (spent k n).mem = k.mem) : (chargeBy spent k ctx units).mem = k.mem := by
  unfold chargeBy
  split
  · rfl
  · dsimp only
    split
    · rw [hspent]
      rfl
    · rfl

@[simp] theorem chargeLate_mem (k : Kern) (ctx units : Nat) : (chargeLate k ctx units).mem = k.mem := by
  unfold chargeLate
  simp

/-! ## The issue table (R263 to R268) -/

@[simp] theorem placeUnit_mem (k : Kern) (c : Nat) (u : List Mover) : (placeUnit k c u).mem = k.mem := by
  unfold placeUnit
  split
  · rfl
  · dsimp only
    split
    · rfl
    · split <;> rfl

@[simp] theorem sweepEntries_mem (k : Kern) (c : Nat) : (sweepEntries k c).mem = k.mem := rfl

@[simp] theorem place_mem (k : Kern) (c : Nat) (ms : List Mover) : (place_ k c ms).mem = k.mem := by
  unfold place_
  exact foldl_mem (by simp) _ _

@[simp] theorem moveThreads_mem (k : Kern) (c : Nat) (ms : List Mover) : (moveThreads k c ms).mem = k.mem := by
  unfold moveThreads
  dsimp only
  rw [place_mem, sweepEntries_mem]
  exact foldl_mem (by simp) _ _

/-! ## Taking a trap (R235, R239) -/

@[simp] theorem closeWindows_mem (k : Kern) (c : Nat) (t : Thread) : (closeWindows k c t).mem = k.mem := by
  unfold closeWindows
  simp

/-! ## Parking (R272) -/

@[simp] theorem pendThread_mem (k : Kern) (c : Nat) (t : Thread) (pc : W64) : (pendThread k c t pc).mem = k.mem := rfl

@[simp] theorem parkThread_mem (k : Kern) (c : Nat) (t : Thread) (pc : W64) (faddr sub : Nat) :
    (parkThread k c t pc faddr sub).mem = k.mem := by
  unfold parkThread
  split <;> rfl

@[simp] theorem freeRecord_mem (k : Kern) (c id : Nat) : (freeRecord k c id).mem = k.mem := rfl

/-! ## Cells that leave, and exit (R143, R279, R286, R295) -/

@[simp] theorem sendNotice_mem (k : Kern) (launch cell dst kind step : Nat) (faces : List W32) (rel : Bool) (held : Bool) :
    (sendNotice k launch cell dst kind step faces rel held).mem = k.mem := rfl

@[simp] theorem notifyCell_mem (k : Kern) (c : Nat) (l : Launch) (serial n kind step : Nat) (faces : List W32) (rel : Bool)
    (held : Bool) : (notifyCell k c l serial n kind step faces rel held).mem = k.mem := by
  unfold notifyCell
  exact foldl_mem (by simp) _ _

@[simp] theorem exitCell_mem (k : Kern) (c : Nat) (l : Launch) (r : XRegion) (b : Nat) : (exitCell k c l r b).mem = k.mem := by
  unfold exitCell
  simp

@[simp] theorem discardResults_mem (k : Kern) (c : Nat) (t : Thread) : (discardResults k c t).mem = k.mem := by
  unfold discardResults
  simp

@[simp] theorem endThread_mem (k : Kern) (c : Nat) (t : Thread) (loc : Loc) : (endThread k c t loc).mem = k.mem := by
  unfold endThread
  simp

/-! ## Valid bits and races (R304, R325, R326) -/

@[simp] theorem touchSpot_mem (k : Kern) (c : Nat) (t : Thread) (p : Spot) (size : Nat) (a : Touch) :
    (touchSpot k c t p size a).mem = k.mem := by
  unfold touchSpot
  split
  · rfl
  · split <;> rfl

@[simp] theorem engineTouch_mem (k : Kern) (c b lo n : Nat) : (engineTouch k c b lo n).mem = k.mem := rfl

/-! ## The object cache (R314) -/

@[simp] theorem useObj_mem (k : Kern) (c ctx o : Nat) : (useObj k c ctx o).mem = k.mem := rfl

/-! ## Poison and corrected errors -/

@[simp] theorem countPoison_mem (k : Kern) (ctx n : Nat) : (countPoison k ctx n).mem = k.mem := rfl

/-! ## The line cache (R153, R312, R313) -/

@[simp] theorem dropLine_mem (k : Kern) (c ctx obj line : Nat) : (dropLine k c ctx obj line).mem = k.mem := rfl

@[simp] theorem dropLines_mem (k : Kern) (c : Nat) : (dropLines k c).mem = k.mem := rfl

@[simp] theorem useLine_mem (k : Kern) (c ctx obj line : Nat) : (useLine k c ctx obj line).mem = k.mem := rfl

@[simp] theorem fillLine_mem (k : Kern) (c ctx obj line : Nat) (bits : BitVec 512) :
    (fillLine k c ctx obj line bits).mem = k.mem := rfl

@[simp] theorem storeLine_mem (k : Kern) (c ctx obj ea : Nat) (bs : List Byte) (na : Bool) :
    (storeLine k c ctx obj ea bs na).mem = k.mem := by
  unfold storeLine
  split <;> rfl

/-! ## The write-combining buffer (R154) -/

@[simp] theorem drainWhere_mem (k : Kern) (c : Nat) (test : WcEntry → Bool) : (drainWhere k c test).mem = k.mem := rfl

@[simp] theorem drainOf_mem (k : Kern) (c : Nat) (t : Thread) : (drainOf k c t).mem = k.mem := rfl

@[simp] theorem combineStore_mem (k : Kern) (c ctx : Nat) (hdev obj ea : Nat) (t : Thread) (bs : List Byte) :
    (combineStore k c ctx hdev obj ea t bs).mem = k.mem := by
  unfold combineStore
  dsimp only
  split <;> rfl

/-! ## Tokens (R371) -/

@[simp] theorem takeTokens_mem (k : Kern) (c ctx bytes : Nat) : (takeTokens k c ctx bytes).mem = k.mem := by
  unfold takeTokens
  split <;> rfl

/-! ## Outstanding requests (R157, R159) -/

@[simp] theorem addReq_mem (k : Kern) (c : Nat) (q : Req) : (addReq k c q).mem = k.mem := rfl

@[simp] theorem dropReq_mem (k : Kern) (c id : Nat) : (dropReq k c id).mem = k.mem := rfl

/-! ## Lines on another device (R392, R393, R397) -/

@[simp] theorem askLines_mem (k : Kern) (ctx obj off n : Nat) : (askLines k ctx obj off n).mem = k.mem := by
  unfold askLines
  split
  · rfl
  · refine (foldl_mem ?_ _ _).trans ?_
    · intro k1 a
      split <;> rfl
    · rfl

@[simp] theorem askAgain_mem (k : Kern) : (askAgain k).mem = k.mem := rfl

@[simp] theorem addCost_mem (k : Kern) (n : Nat) : (addCost k n).mem = k.mem := rfl

/-! ## Interpreted reads (R178) -/

@[simp] theorem asUnit_mem (k : Kern) (u : Nat) : (asUnit k u).mem = k.mem := rfl

@[simp] theorem offUnit_mem (k : Kern) : (offUnit k).mem = k.mem := rfl

@[simp] theorem atRow_mem (k : Kern) (i : Nat) : (atRow k i).mem = k.mem := rfl

theorem rangeAsks_mem {k k' : Kern} {u ctx cap off n : Nat} (h : rangeAsks k u ctx cap off n = some k') : k'.mem = k.mem := by
  unfold rangeAsks at h
  split at h
  · cases h
    exact askLines_mem _ _ _ _ _
  · cases h

@[simp] theorem endUnit_mem (k : Kern) (u : Nat) : (endUnit k u).mem = k.mem := rfl

/-! ## The truss (R297) -/

@[simp] theorem modTruss_mem (k : Kern) (serial t : Nat) (f : TrussStep → TrussStep) : (modTruss k serial t f).mem = k.mem := rfl

@[simp] theorem shareTruss_mem (k : Kern) (serial kind step : Nat) (vals : List W32) :
    (shareTruss k serial kind step vals).mem = k.mem := by
  unfold shareTruss
  split
  · rfl
  · exact foldl_mem (by simp) _ _

@[simp] theorem endStep_mem (k : Kern) (serial sigma : Nat) : (endStep k serial sigma).mem = k.mem := by
  unfold endStep
  simp

@[simp] theorem awaitDecision_mem (k : Kern) (serial sigma : Nat) : (awaitDecision k serial sigma).mem = k.mem := rfl

@[simp] theorem endSettle_mem (k : Kern) (serial sigma : Nat) (sig : W64) : (endSettle k serial sigma sig).mem = k.mem := by
  unfold endSettle
  simp

@[simp] theorem takeContribution_mem (k : Kern) (n : Notice) : (takeContribution k n).mem = k.mem := by
  unfold takeContribution
  split <;> rfl

/-! ## Jigs (R203, R204) -/

@[simp] theorem modJig_mem (k : Kern) (c b j : Nat) (f : Jig → Jig) : (modJig k c b j f).mem = k.mem := rfl

/-! ## The bed (R80, R202, R206) -/

@[simp] theorem modBeds_mem (k : Kern) (c b lo n : Nat) (f : Nat → Bed → Bed) : (modBeds k c b lo n f).mem = k.mem := rfl

/-! ## Accumulators and MX (R209 to R211) -/

@[simp] theorem modAcc_mem (k : Kern) (c b a : Nat) (f : Acc → Acc) : (modAcc k c b a f).mem = k.mem := rfl

/-! ## Bodies -/

theorem foldOwed_mem {f : Kern → Thread → List Reg → Kern × Course} (hf : ∀ k t d, (f k t d).1.mem = k.mem) (owed : List Owed)
    (k : Kern) (ts : List (Thread × List Reg)) : (foldOwed f owed k ts).1.mem = k.mem := by
  induction ts generalizing owed k with
  | nil => rfl
  | cons p ts ih => exact (ih _ _).trans (hf k p.1 _)

@[simp] theorem foldBody_mem (f : Kern → Thread → List Reg → Kern × Course) (k : Kern) (ts : List (Thread × List Reg))
    (hf : ∀ (k : Kern) (t : Thread) (d : List Reg), (f k t d).1.mem = k.mem) : (foldBody f k ts).1.mem = k.mem := by
  unfold foldBody
  rw [foldOwed_mem]
  intro k1 a a1
  rw [hf]

@[simp] theorem plainBody_mem (c : Nat) (f : Thread → Effect) (k : Kern) (t : Thread) (dst : List Reg) :
    (plainBody c f k t dst).1.mem = k.mem := by
  unfold plainBody
  dsimp only
  split
  · rfl
  · dsimp only
    rw [joinFlags_mem]
    refine (foldl_mem ?_ _ _).trans ?_
    · simp
    · simp

@[simp] theorem heldBody_mem (c : Nat) (la : BitVec 4) (f : Thread → Effect) (k : Kern) (t : Thread) (dst : List Reg) :
    (heldBody c la f k t dst).1.mem = k.mem := by
  unfold heldBody
  dsimp only
  split <;> rfl

/-! ## The end of an issue (R265) -/

@[simp] theorem rollback_mem (k : Kern) (c : Nat) (t : Thread) : (rollback k c t).mem = k.mem := by
  unfold rollback
  split <;> rfl

@[simp] theorem markFormed_mem (k : Kern) (c : Nat) (ms : List Mover) : (markFormed k c ms).mem = k.mem := rfl

@[simp] theorem markIssued_mem (k : Kern) (c e : Nat) : (markIssued k c e).mem = k.mem := rfl

@[simp] theorem landLatch_mem (c : Nat) (t : Thread) (k : Kern) (h : Held) : (landLatch c t k h).mem = k.mem := rfl

@[simp] theorem countFirst_mem (c upTo : Nat) (k : Kern) (t : Thread) : (countFirst c upTo k t).mem = k.mem := by
  unfold countFirst
  dsimp only
  refine (foldl_mem ?_ _ _).trans ?_
  · simp
  · simp

@[simp] theorem finishFirst_mem (s : State) (k : Kern) (ds : List (Thread × List Reg)) (xs : List (Thread × Course)) :
    (finishFirst s k ds xs).mem = k.mem := by
  unfold finishFirst
  dsimp only
  refine (foldl_mem ?_ _ _).trans ?_
  · intro k1 a
    split <;> rfl
  · refine (foldl_mem ?_ _ _).trans ?_
    · intro k1 a
      split
      · simp
      · rfl
    · exact foldl_mem (by simp) _ _

@[simp] theorem latchAll_mem (s : State) : (latchAll s).mem = s.kern.mem := by
  unfold latchAll
  exact foldl_mem (by simp) _ _

/-! ## The issue -/

@[simp] theorem acquireFaces_mem (k : Kern) (c : Nat) (i : Instr) (ts : List Thread) : (acquireFaces k c i ts).mem = k.mem := by
  unfold acquireFaces
  split <;> rfl

@[simp] theorem useObjs_mem (k : Kern) (c : Nat) (i : Instr) (ts : List Thread) : (useObjs k c i ts).mem = k.mem := by
  unfold useObjs
  refine (foldl_mem ?_ _ _).trans ?_
  · exact fun _ _ => foldl_mem (by simp) _ _
  · rfl

@[simp] theorem nameWindows_mem (s : State) (i : Instr) (ds : List (Thread × List Reg)) (k : Kern) :
    (nameWindows s i ds k).mem = k.mem := by
  unfold nameWindows
  split
  · rfl
  · rfl
  · refine (foldl_mem ?_ _ _).trans ?_
    · intro k1 a
      dsimp only
      split <;> rfl
    · rfl

/-! ## Participants (R131) -/

theorem goDirect_mem {pc : Nat} {x : BForm} {k after : Kern} (h : after.mem = k.mem) : (goDirect pc x k after).1.mem = k.mem := by
  unfold goDirect
  split
  · rfl
  · exact h

theorem goIndirect_mem {s : State} {target : Nat} {k after : Kern} (h : after.mem = k.mem) :
    (goIndirect s target k after).1.mem = k.mem := by
  unfold goIndirect
  split
  · rfl
  · split
    · rfl
    · exact h

@[simp] theorem linked_mem (s : State) (k : Kern) (t : Thread) (dst : List Reg) : (linked s k t dst).mem = k.mem := by
  unfold linked
  simp

@[simp] theorem standDown_mem (k : Kern) (c : Nat) (t : Thread) : (standDown k c t).mem = k.mem := by
  unfold standDown
  simp

@[simp] theorem beginWait_mem (k : Kern) (c : Nat) (t : Thread) (w : Wait) : (beginWait k c t w).1.mem = k.mem := rfl

@[simp] theorem illegalHere_mem (k : Kern) : (illegalHere k).1.mem = k.mem := rfl

/-! ## Pegs (R144 to R146) -/

@[simp] theorem modPeg_mem (k : Kern) (c b pg : Nat) (f : Peg → Peg) : (modPeg k c b pg f).mem = k.mem := rfl

@[simp] theorem meetBody_mem (c pg : Nat) (k : Kern) (t : Thread) : (meetBody c pg k t).1.mem = k.mem := by
  unfold meetBody
  split
  · rfl
  · dsimp only
    split
    · rfl
    · split
      · rfl
      · split
        · rfl
        · split <;> rfl

@[simp] theorem signBody_mem (c pg : Nat) (k : Kern) (t : Thread) : (signBody c pg k t).1.mem = k.mem := by
  unfold signBody
  split
  · rfl
  · dsimp only
    split
    · rfl
    · split
      · rfl
      · split
        · rfl
        · split <;> rfl

@[simp] theorem pegDefBody_mem (c pg first count : Nat) (k : Kern) (t : Thread) :
    (pegDefBody c pg first count k t).1.mem = k.mem := by
  unfold pegDefBody
  split
  · rfl
  · split <;> rfl

/-! ## Barriers (R228, R229) -/

@[simp] theorem modBar_mem (k : Kern) (c blk b : Nat) (f : Barrier → Barrier) : (modBar k c blk b f).mem = k.mem := rfl

@[simp] theorem barArriveBody_mem (c b : Nat) (k : Kern) (t : Thread) : (barArriveBody c b k t).1.mem = k.mem := by
  unfold barArriveBody
  split
  · rfl
  · dsimp only
    split
    · rfl
    · split <;> rfl

@[simp] theorem passBarrier_mem (k : Kern) (c b : Nat) (t : Thread) (x : Barrier) (id : Nat) :
    (passBarrier k c b t x id).mem = k.mem := by
  unfold passBarrier
  dsimp only
  split <;> rfl

@[simp] theorem barWaitBody_mem (c b : Nat) (k : Kern) (t : Thread) : (barWaitBody c b k t).1.mem = k.mem := by
  unfold barWaitBody
  split
  · rfl
  · dsimp only
    split
    · rfl
    · simp

@[simp] theorem barBody_mem (c b : Nat) (k : Kern) (t : Thread) : (barBody c b k t).1.mem = k.mem := by
  unfold barBody
  split
  · rfl
  · dsimp only
    split
    · split
      · simp
      · rfl
    · split
      · simp
      · rfl

/-! ## Job cards (R231, R355) -/

@[simp] theorem pushCore_mem (k : Kern) (c : Nat) (x : Card) : (pushCore k c x).mem = k.mem := rfl

@[simp] theorem pushBay_mem (k : Kern) (b : Nat) (x : Card) : (pushBay k b x).mem = k.mem := rfl

@[simp] theorem postBody_mem (c n : Nat) (push : Kern → Card → Kern) (k : Kern) (t : Thread)
    (hpush : ∀ (k : Kern) (y : Card), (push k y).mem = k.mem) : (postBody c n push k t).1.mem = k.mem := by
  unfold postBody
  dsimp only
  split
  · rfl
  · dsimp only
    rw [hpush]

/-! ## Residuals (R226, R227) -/

@[simp] theorem stestBody_mem (c : Nat) (qp : Option (Fin 7)) (k : Kern) (t : Thread) : (stestBody c qp k t).1.mem = k.mem := by
  unfold stestBody
  split
  · rfl
  · dsimp only
    split
    · rfl
    · dsimp only
      split <;> rfl

@[simp] theorem residBody_mem (c : Nat) (sumsq : Bool) (a : W32) (k : Kern) (t : Thread) :
    (residBody c sumsq a k t).1.mem = k.mem := by
  unfold residBody
  split
  · rfl
  · split
    · rfl
    · simp

/-! ## The checks of an access at issue (R151, R152) -/

@[simp] theorem deliverNow_mem (k : Kern) (c : Nat) (t : Thread) (dst : List Reg) (vals : List W32) (la : BitVec 4) :
    (deliverNow k c t dst vals la).mem = k.mem := by
  unfold deliverNow
  simp

@[simp] theorem sendReq_mem (k : Kern) (c : Nat) (t : Thread) (q : Req) : (sendReq k c t q).mem = k.mem := by
  unfold sendReq
  dsimp only
  rw [addReq_mem]
  dsimp only
  rw [drainWhere_mem]
  split <;> rfl

/-! ## Line forms (R168, R170) -/

@[simp] theorem lineForm_mem (s : State) (x : MForm) (f : Kern → Nat → Nat → Nat → Kern) (k : Kern) (t : Thread)
    (hf : ∀ (k : Kern) (n n1 n2 : Nat), (f k n n1 n2).mem = k.mem) : (lineForm s x f k t).1.mem = k.mem := by
  unfold lineForm
  split
  · rfl
  · dsimp only
    rw [hf]

@[simp] theorem prefetch_mem (s : State) (x : MForm) (k : Kern) (t : Thread) : (prefetch s x k t).mem = k.mem := by
  unfold prefetch
  dsimp only
  split
  · rfl
  · split
    · rfl
    · split
      · rfl
      · split
        · simp
        · rfl

/-! ## VALID (R169) -/

@[simp] theorem validBody_mem (s : State) (x : MForm) (f : List Nat → List Nat → List Nat) (k : Kern) (t : Thread) :
    (validBody s x f k t).1.mem = k.mem := by
  unfold validBody
  dsimp only
  split
  · rfl
  · rfl
  · split <;> rfl

@[simp] theorem validGetBody_mem (s : State) (x : MForm) (k : Kern) (t : Thread) (dst : List Reg) :
    (validGetBody s x k t dst).1.mem = k.mem := by
  unfold validGetBody
  dsimp only
  split
  · rfl
  · rfl
  · split
    · rfl
    · simp

/-! ## Capabilities (R171 to R173) -/

@[simp] theorem capBody_mem (s : State) (x : RForm) (f : Nat → ObjEntry → Option Nat) (k : Kern) (t : Thread) (dst : List Reg) :
    (capBody s x f k t dst).1.mem = k.mem := by
  unfold capBody
  dsimp only
  split
  · rfl
  · split
    · rfl
    · simp

/-! ## Timelines (R196 to R198) -/

@[simp] theorem tlrdBody_mem (s : State) (x : SForm) (f : Kern → Nat → Nat → Launch → Nat → Nat) (k : Kern) (t : Thread)
    (dst : List Reg) : (tlrdBody s x f k t dst).1.mem = k.mem := by
  unfold tlrdBody
  dsimp only
  split
  · rfl
  · simp

@[simp] theorem askIssued_mem (s : State) (k : Kern) (t : Thread) (dst : List Reg) (cap : Nat) :
    (askIssued s k t dst cap).mem = k.mem := rfl

@[simp] theorem tlrdIssuedBody_mem (s : State) (x : SForm) (k : Kern) (t : Thread) (dst : List Reg) :
    (tlrdIssuedBody s x k t dst).1.mem = k.mem := by
  unfold tlrdIssuedBody
  dsimp only
  split
  · rfl
  · split
    · simp
    · split
      · rfl
      · split
        · rfl
        · simp

@[simp] theorem tlwaitBody_mem (s : State) (x : SForm) (k : Kern) (t : Thread) : (tlwaitBody s x k t).1.mem = k.mem := by
  unfold tlwaitBody
  dsimp only
  split
  · rfl
  · split <;> rfl

/-! ## COPYQ (R186, R188) -/

@[simp] theorem registerQueue_mem (k : Kern) (ctx cap : Nat) : (registerQueue k ctx cap).mem = k.mem := by
  unfold registerQueue
  split <;> rfl

@[simp] theorem queueSlot_mem (k : Kern) (c ctx queue w log2cap : Nat) (image : List Byte) :
    (queueSlot k c ctx queue w log2cap image).mem = k.mem := rfl

@[simp] theorem claimFar_mem (s : State) (x : MForm) (k : Kern) (t : Thread) (dst : List Reg) (q : Spot) (image : List Byte) :
    (claimFar s x k t dst q image).1.mem = k.mem := by
  unfold claimFar
  simp

/-! ## Places of entry-once instructions (R200, R201, R306) -/

@[simp] theorem passLines_mem (k : Kern) (c ctx : Nat) (p : Spot) (n : Nat) : (passLines k c ctx p n).mem = k.mem := by
  unfold passLines
  split
  · rfl
  · exact foldl_mem (by simp) _ _

@[simp] theorem paySpot_mem (k : Kern) (c : Nat) (t : Thread) (p : Spot) (n : Nat) : (paySpot k c t p n).mem = k.mem := by
  unfold paySpot
  split
  · simp
  · rfl

@[simp] theorem storeLines_mem (k : Kern) (c ctx obj ea : Nat) (bs : List Byte) :
    (storeLines k c ctx obj ea bs).mem = k.mem := by
  unfold storeLines
  exact foldl_mem (by simp) _ _

/-! ## The bed (R80 to R84, R206 to R208) -/

@[simp] theorem loadBeds_mem (k : Kern) (c b lo u : Nat) (slot : W64) (h : Shape) (bs : List Byte) :
    (loadBeds k c b lo u slot h bs).mem = k.mem := rfl

@[simp] theorem bedLoadBody_mem (s : State) (grain : Bool) (x : XForm) (k : Kern) (t : Thread) (dst : List Reg) :
    (bedLoadBody s grain x k t dst).1.mem = k.mem := by
  unfold bedLoadBody
  dsimp only
  split
  · split
    · rfl
    · split
      · rfl
      · split
        · rfl
        · dsimp only
          rw [modCore_mem]
          dsimp only
          split <;> rfl
  · rfl

@[simp] theorem bedClearBody_mem (s : State) (x : XForm) (k : Kern) (t : Thread) : (bedClearBody s x k t).1.mem = k.mem := by
  unfold bedClearBody
  dsimp only
  split
  · rfl
  · split <;> rfl

/-! ## Accumulators (R209, R214 to R217) -/

theorem withAcc_mem {k : Kern} {c : Nat} {t : Thread} {x : XForm} {f : Acc → Kern × Course} (hf : ∀ a, (f a).1.mem = k.mem) :
    (withAcc k c t x f).1.mem = k.mem := by
  unfold withAcc
  split
  · rfl
  · split
    · exact hf _
    · rfl

@[simp] theorem acczBody_mem (c : Nat) (x : XForm) (k : Kern) (t : Thread) : (acczBody c x k t).1.mem = k.mem :=
  withAcc_mem fun _ => by simp

@[simp] theorem accMoveBody_mem (s : State) (n : Nat) (x : XForm) (k : Kern) (t : Thread) (dst : List Reg) :
    (accMoveBody s n x k t dst).1.mem = k.mem :=
  withAcc_mem fun a => by dsimp only; split <;> simp

@[simp] theorem accVersionBody_mem (c : Nat) (absorb : Bool) (x : XForm) (k : Kern) (t : Thread) (dst : List Reg) :
    (accVersionBody c absorb x k t dst).1.mem = k.mem :=
  withAcc_mem fun a => by dsimp only; split <;> simp

/-! ## MX (R86, R205, R210 to R213) -/

@[simp] theorem launchMx_mem (k : Kern) (c : Nat) (t : Thread) (x : XForm) (set : Bool) (pc : W64) :
    (launchMx k c t x set pc).mem = k.mem := by
  unfold launchMx
  split <;> rfl

@[simp] theorem endWaits_mem (k : Kern) (c : Nat) (ts : List Thread) : (endWaits k c ts).mem = k.mem := by
  unfold endWaits
  dsimp only
  rw [moveThreads_mem]
  exact foldl_mem (by simp) _ _

@[simp] theorem lateArrive_mem (c b pg w : Nat) (k : Kern) (t : Thread) : (lateArrive c b pg w k t).mem = k.mem := rfl

/-! ## The sum (R85, R86) -/

@[simp] theorem abandonMx_mem (k : Kern) (c : Nat) (m : MxJob) : (abandonMx k c m).mem = k.mem := by
  unfold abandonMx
  dsimp only
  rw [moveThreads_mem]
  refine (foldl_mem ?_ _ _).trans ?_
  · simp
  · split <;> rfl

/-! ## TRET (R241) -/

@[simp] theorem restartDown_mem (k : Kern) (ctx : Nat) : (restartDown k ctx).mem = k.mem := by
  unfold restartDown
  refine (foldl_mem ?_ _ _).trans ?_
  · intro k1 a
    dsimp only
    split
    · refine (foldl_mem ?_ _ _).trans ?_
      · intro k2 a1
        split <;> rfl
      · rfl
    · rw [moveThreads_mem]
      refine (foldl_mem ?_ _ _).trans ?_
      · intro k2 a1
        split <;> rfl
      · rfl
  · rfl

@[simp] theorem leaveTrap_mem (k : Kern) (c : Nat) (t : Thread) : (leaveTrap k c t).mem = k.mem := by
  unfold leaveTrap
  dsimp only
  split
  · simp
  · rfl

@[simp] theorem tretBody_mem (c : Nat) (k : Kern) (t : Thread) : (tretBody c k t).1.mem = k.mem := by
  unfold tretBody
  split
  · rfl
  · dsimp only
    split
    · rfl
    · split
      · simp
      · split <;> simp

/-! ## Special registers (R242 to R246) -/

@[simp] theorem srdBody_mem (s : State) (n : Nat) (k : Kern) (t : Thread) (dst : List Reg) :
    (srdBody s n k t dst).1.mem = k.mem := by
  unfold srdBody
  simp

@[simp] theorem setFlags_mem (k : Kern) (c : Nat) (t : Thread) (f : BitVec 5) : (setFlags k c t f).mem = k.mem := rfl

/-! ## EVWAIT (R247) -/

@[simp] theorem evwaitBody_mem (s : State) (x : SForm) (k : Kern) (t : Thread) (dst : List Reg) :
    (evwaitBody s x k t dst).1.mem = k.mem := by
  unfold evwaitBody
  dsimp only
  split
  · split
    · simp
    · rfl
  · split
    · simp
    · rfl

/-! ## GROW and SHRINK (R248 to R250) -/

@[simp] theorem returnColumns_mem (k : Kern) (c b g : Nat) (test : Nat → Bool) : (returnColumns k c b g test).mem = k.mem := by
  unfold returnColumns
  split <;> rfl

@[simp] theorem grantGrow_mem (k : Kern) (c b g n : Nat) : (grantGrow k c b g n).mem = k.mem := by
  unfold grantGrow
  simp

@[simp] theorem growGroup_mem (s : State) (n : Nat) (behind : Bool) (k : Kern) (t : Thread) :
    (growGroup s n behind k t).1.mem = k.mem := by
  unfold growGroup
  dsimp only
  split
  · rfl
  · split
    · rfl
    · split <;> simp

@[simp] theorem growTurns_mem (s : State) (n : Nat) (behind : Bool) (k : Kern) (ts : List Thread) :
    (growTurns s n behind k ts).1.mem = k.mem := by
  induction ts generalizing behind k with
  | nil => rfl
  | cons t ts ih => exact (ih _ _).trans (growGroup_mem s n behind k t)

@[simp] theorem growThread_mem (c : Nat) (x : SForm) (turns : List (Thread × GrowTurn)) (k : Kern) (t : Thread) :
    (growThread c x turns k t).1.mem = k.mem := by
  unfold growThread
  dsimp only
  split <;> rfl

@[simp] theorem growRun_mem (s : State) (x : SForm) (k : Kern) (ts : List (Thread × List Reg)) :
    (growRun s x k ts).1.mem = k.mem := by
  unfold growRun
  simp

@[simp] theorem shrinkGroup_mem (k : Kern) (c b g n : Nat) : (shrinkGroup k c b g n).mem = k.mem := by
  unfold shrinkGroup
  simp

@[simp] theorem shrinkRun_mem (s : State) (x : SForm) (k : Kern) (ts : List (Thread × List Reg)) :
    (shrinkRun s x k ts).1.mem = k.mem := by
  unfold shrinkRun
  dsimp only
  refine (foldl_mem ?_ _ _).trans ?_
  · intro k1 a
    split
    · simp
    · rfl
  · rfl

/-! ## ILINV (R251) -/

@[simp] theorem dropCode_mem (k : Kern) (c : Nat) (t : Thread) (line : Option Nat) : (dropCode k c t line).mem = k.mem := by
  unfold dropCode
  split <;> rfl

/-! ## SAMPLE (R252) -/

@[simp] theorem sampleOffBody_mem (c : Nat) (k : Kern) (t : Thread) : (sampleOffBody c k t).1.mem = k.mem := by
  unfold sampleOffBody
  dsimp only
  split <;> rfl

/-! ## Tokens (17 R371) -/

@[simp] theorem spend_mem (k : Kern) (c ctx bytes : Nat) : (spend k c ctx bytes).1.mem = k.mem := by
  unfold spend
  dsimp only
  split <;> rfl

@[simp] theorem payUnit_mem (k : Kern) (c ctx cost paid : Nat) : (payUnit k c ctx cost paid).1.mem = k.mem := by
  unfold payUnit
  split <;> rfl

@[simp] theorem payPort_mem (c : Nat) (qs : List Req) (stuck : List Nat) (k : Kern) : (payPort c qs stuck k).mem = k.mem := by
  induction qs generalizing stuck k with
  | nil => rfl
  | cons q qs ih =>
    have hspend := spend_mem k c q.ctx q.size
    unfold payPort
    split
    · exact ih stuck k
    · split
      · rename_i heq
        rw [ih, modCore_mem, ← hspend, heq]
      · rename_i heq
        rw [ih, ← hspend, heq]

@[simp] theorem openPort_mem (k : Kern) (c : Nat) : (openPort k c).mem = k.mem := by
  unfold openPort
  simp

/-! ## Ports, planes and lanes (R385, R387) -/

@[simp] theorem notify_mem (s : State) (event detail value : Nat) : (notify_ s event detail value).kern.mem = s.kern.mem := rfl

/-! ## Streams (R386) -/

@[simp] theorem sendPacket_mem (s : State) (dst lane : Nat) (cls : TrafficClass) (load : Payload) :
    (sendPacket s dst lane cls load).kern.mem = s.kern.mem := rfl

/-! ## What waits to leave -/

@[simp] theorem flushReqs_mem (s : State) (c : Nat) : (flushReqs s c).kern.mem = s.kern.mem := by
  unfold flushReqs
  exact foldlS_mem (by simp) _ _

@[simp] theorem flushDrains_mem (s : State) (c : Nat) : (flushDrains s c).kern.mem = s.kern.mem := by
  unfold flushDrains
  refine (foldlS_mem ?_ _ _).trans ?_
  · intro s1 a
    split
    · dsimp only
      refine (mem_of_fst ‹_›).trans ?_
      simp
    · dsimp only
      rw [modCore_mem, sendPacket_mem]
      dsimp only
      refine (mem_of_fst ‹_›).trans ?_
      simp
  · rfl

@[simp] theorem modFar_mem (k : Kern) (id : Nat) (f : Far → Far) : (modFar k id f).mem = k.mem := rfl

@[simp] theorem flushFar_mem (s : State) : (flushFar s).kern.mem = s.kern.mem := by
  unfold flushFar
  dsimp only
  refine (foldlS_mem ?_ _ _).trans ?_
  · intro s1 a
    split <;> rfl
  · rfl

@[simp] theorem flushNotices_mem (s : State) : (flushNotices s).kern.mem = s.kern.mem := by
  unfold flushNotices
  refine (foldlS_mem ?_ _ _).trans ?_
  · intro s1 a
    dsimp only
    split <;> rfl
  · rfl

@[simp] theorem modPort_mem (s : State) (p : Nat) (f : Port → Port) : (modPort s p f).kern.mem = s.kern.mem := rfl

/-! ## What leaves the device -/

@[simp] theorem flushAcks_mem (s : State) : (flushAcks s).kern.mem = s.kern.mem := by
  unfold flushAcks
  split <;> rfl

@[simp] theorem flushHealth_mem (s : State) : (flushHealth s).kern.mem = s.kern.mem := by
  unfold flushHealth
  exact foldlS_mem (by simp) _ _

@[simp] theorem flushOut_mem (s : State) : (flushOut s).kern.mem = s.kern.mem := by
  unfold flushOut
  rw [flushAcks_mem, flushHealth_mem, flushFar_mem, flushNotices_mem]
  refine (foldlS_mem ?_ _ _).trans ?_
  · intro s1 a
    split
    · rfl
    · simp
  · rfl

/-! ## The arbiter (R413) -/

@[simp] theorem runArbiter_mem (s : State) : (runArbiter s).kern.mem = s.kern.mem := rfl

@[simp] theorem arbiterDue_mem (s : State) : (arbiterDue s).kern.mem = s.kern.mem := rfl

/-! ## Bays (R416 to R418) -/

@[simp] theorem modBay_mem (s : State) (b : Nat) (f : Bay → Bay) : (modBay s b f).kern.mem = s.kern.mem := rfl

/-! ## Time and gating (R361, R422) -/

@[simp] theorem noteEmpty_mem (s : State) (b : Nat) : (noteEmpty s b).kern.mem = s.kern.mem := by
  unfold noteEmpty
  split <;> rfl

@[simp] theorem takeLease_mem (s : State) (b : Nat) : (takeLease s b).1.kern.mem = s.kern.mem := by
  unfold takeLease
  split
  · rfl
  · split <;> rfl
  · rfl
  · rfl

/-! ## Block starts (R421) -/

@[simp] theorem countStarts_mem (s : State) (bay n : Nat) : (countStarts s bay n).1.kern.mem = s.kern.mem := rfl

/-! ## Service (R433, R434) -/

@[simp] theorem serviced_mem (s : State) (unit : Nat) (good : Bool) : (serviced s unit good).kern.mem = s.kern.mem := rfl

/-! ## Dies (R427) -/

@[simp] theorem modDie_mem (s : State) (d : Nat) (f : Die → Die) : (modDie s d f).kern.mem = s.kern.mem := rfl

/-! ## The choice of R266 -/

@[simp] theorem inHand_mem (s : State) (c e : Nat) (m : Mode) : (inHand s c e m).kern.mem = s.kern.mem := rfl

@[simp] theorem windowsAfter_mem (s : State) (c e : Nat) : (windowsAfter s c e).kern.mem = s.kern.mem := by
  unfold windowsAfter
  exact foldl_mem (by simp) _ _

/-! ## What runs next -/

@[simp] theorem nudge_mem (k : Kern) (c : Nat) : (nudge k c).mem = k.mem := by
  unfold nudge
  dsimp only
  split
  · rfl
  · split
    · exact foldl_mem (by simp) _ _
    · split
      · rw [drainWhere_mem]
        exact foldl_mem (by simp) _ _
      · exact foldl_mem (by simp) _ _

@[simp] theorem beginCycle_mem (s : State) (c : Nat) : (beginCycle s c).kern.mem = s.kern.mem := rfl

/-! ## Inputs -/

@[simp] theorem passNanos_mem (s : State) (n : Nat) : (passNanos s n).kern.mem = s.kern.mem := rfl

@[simp] theorem remoteContribution_mem (s : State) (launch step : Nat) (sigs : List W64) (stepped : Nat)
    (maxabs sumsq : List W32) : (remoteContribution s launch step sigs stepped maxabs sumsq).kern.mem = s.kern.mem := by
  unfold remoteContribution
  dsimp only
  split <;> rfl

@[simp] theorem farTimeline_mem (k : Kern) (ctx cap n : Nat) : (farTimeline k ctx cap n).mem = k.mem := by
  unfold farTimeline
  dsimp only
  split
  · rfl
  · split <;> rfl

/-! ## Fresh state -/

@[simp] theorem enterBucket_mem (k : Kern) (c ctx : Nat) : (enterBucket k c ctx).mem = k.mem := rfl

@[simp] theorem leaveBucket_mem (k : Kern) (c ctx : Nat) : (leaveBucket k c ctx).mem = k.mem := rfl

/-! ## Starting a block -/

@[simp] theorem wakeBanks_mem (k : Kern) (c : Nat) : (wakeBanks k c).mem = k.mem := rfl

@[simp] theorem startThreads_mem (k : Kern) (c : Nat) (ts : List Thread) : (startThreads k c ts).mem = k.mem := by
  unfold startThreads
  dsimp only
  rw [moveThreads_mem]
  exact foldl_mem (by simp) _ _

@[simp] theorem beginGroups_mem (k : Kern) (c : Nat) (gs : List (Nat × List Thread)) : (beginGroups k c gs).mem = k.mem := by
  unfold beginGroups
  simp

/-! ## Units that wait for service (R441) -/

@[simp] theorem waitFor_mem (k : Kern) (u : UnitKind) (core job ctx faddr sub : Nat) :
    (waitFor k u core job ctx faddr sub).mem = k.mem := rfl

@[simp] theorem doneWaiting_mem (k : Kern) (u : UnitKind) (core job : Nat) : (doneWaiting k u core job).mem = k.mem := rfl

/-! ## Lines and results -/

@[simp] theorem fetchLineOf_mem (k : Kern) (c e : Nat) : (fetchLineOf k c e).mem = k.mem := by
  unfold fetchLineOf
  split
  · rfl
  · dsimp only
    split
    · rfl
    · split
      · rfl
      · split <;> rfl

/-! ## Asynchronous traps (R238) -/

@[simp] theorem abandonDue_mem (k : Kern) (c : Nat) : (abandonDue k c).mem = k.mem := by
  unfold abandonDue
  exact foldl_mem (by simp) _ _

@[simp] theorem withdrawArrival_mem (k : Kern) (c : Nat) (t : Thread) (pg : Nat) : (withdrawArrival k c t pg).mem = k.mem := by
  unfold withdrawArrival
  split <;> rfl

@[simp] theorem withdrawGrow_mem (k : Kern) (c : Nat) (t : Thread) : (withdrawGrow k c t).mem = k.mem := rfl

theorem withdrawWait_mem {k k' : Kern} {c : Nat} {t : Thread} {pc : W64} (h : withdrawWait k c t = some (k', pc)) :
    k'.mem = k.mem := by
  unfold withdrawWait at h
  split at h
  · cases h
  · cases h
  · split at h
    · cases h
      rfl
    · cases h
  · split at h
    all_goals
      cases h
      try simp

/-! ## Pegs and barriers -/

@[simp] theorem fenceNow_mem (k : Kern) (c : Nat) (ts : List Thread) : (fenceNow k c ts).mem = k.mem := by
  unfold fenceNow
  exact foldl_mem (by simp) _ _

@[simp] theorem drainAll_mem (k : Kern) (c : Nat) (ts : List Thread) : (drainAll k c ts).mem = k.mem := rfl

@[simp] theorem closeEpisode_mem (k : Kern) (c b pg : Nat) : (closeEpisode k c b pg).mem = k.mem := by
  unfold closeEpisode
  split
  · rfl
  · dsimp only
    split
    · rfl
    · split
      · simp
      · rfl

@[simp] theorem openBarrier_mem (k : Kern) (c b x : Nat) : (openBarrier k c b x).mem = k.mem := by
  unfold openBarrier
  split
  · rfl
  · dsimp only
    split
    · rfl
    · refine (foldl_mem ?_ _ _).trans ?_
      · simp
      · simp

@[simp] theorem releaseWave_mem (k : Kern) (c b x n : Nat) : (releaseWave k c b x n).mem = k.mem := by
  unfold releaseWave
  split
  · rfl
  · simp

/-! ## The end of waits (R265) -/

@[simp] theorem writeWake_mem (s : State) (c : Nat) (k : Kern) (t : Thread) : (writeWake s c k t).mem = k.mem := by
  unfold writeWake
  split
  · simp
  · rfl

@[simp] theorem wakeSleepers_mem (s : State) (c : Nat) : (wakeSleepers s c).mem = s.kern.mem := by
  unfold wakeSleepers
  dsimp only
  rw [endWaits_mem]
  exact foldl_mem (by simp) _ _

@[simp] theorem endTlwaits_mem (k : Kern) (c : Nat) : (endTlwaits k c).mem = k.mem := by
  unfold endTlwaits
  dsimp only
  split
  · rfl
  · simp

@[simp] theorem endBarArrives_mem (k : Kern) (c blkSlot b : Nat) : (endBarArrives k c blkSlot b).mem = k.mem := by
  unfold endBarArrives
  split
  · rfl
  · simp

/-! ## MX (R211, R212, R205) -/

@[simp] theorem commitMx_mem (k : Kern) (c : Nat) (m : MxJob) (a : Acc) : (commitMx k c m a).mem = k.mem := by
  unfold commitMx
  simp

@[simp] theorem payFeed_mem (k : Kern) (c : Nat) (m : MxJob) : (payFeed k c m).1.mem = k.mem := by
  unfold payFeed
  split
  · rfl
  · split
    · rfl
    · simp

/-! ## The pending list (R268, R269) -/

@[simp] theorem tidyPending_mem (k : Kern) (c : Nat) : (tidyPending k c).mem = k.mem := rfl

@[simp] theorem joinLater_mem (k : Kern) (c launch pc seq : Nat) : (joinLater k c launch pc seq).mem = k.mem := by
  unfold joinLater
  split
  · rfl
  · split
    · rfl
    · split <;> rfl

@[simp] theorem placePending_mem (k : Kern) (c : Nat) : (placePending k c).mem = k.mem := by
  unfold placePending
  dsimp only
  split
  · split
    · rfl
    · rw [tidyPending_mem]
      refine (foldl_mem ?_ _ _).trans ?_
      · simp
      · simp
  · rfl

@[simp] theorem evict_mem (k : Kern) (c e : Nat) : (evict k c e).mem = k.mem := by
  unfold evict
  dsimp only
  rw [sweepEntries_mem]
  exact foldl_mem (by simp) _ _

/-! ## Slices and GROW -/

@[simp] theorem endGrow_mem (k : Kern) (c : Nat) (ts : List Thread) (p : Bool) : (endGrow k c ts p).mem = k.mem := by
  unfold endGrow
  rw [endWaits_mem]
  exact foldl_mem (by simp) _ _

@[simp] theorem grantFirst_mem (k : Kern) (c : Nat) : (grantFirst k c).mem = k.mem := by
  unfold grantFirst
  split
  · rfl
  · dsimp only
    split
    · rfl
    · split <;> simp

/-! ## The sampler (R253 to R255) -/

@[simp] theorem onlyCopies_mem (k : Kern) (c : Nat) (t : Thread) (i : Instr) (copies : Bool) :
    (onlyCopies k c t i copies).mem = k.mem := rfl

@[simp] theorem awake_mem (s : State) (c : Nat) : (awake s c).kern.mem = s.kern.mem := rfl

/-! ## Replies -/

@[simp] theorem finishReq_mem (k : Kern) (c : Nat) (q : Req) (bs : List Byte) : (finishReq k c q bs).mem = k.mem := by
  unfold finishReq
  dsimp only
  split
  · simp
  · rfl

@[simp] theorem voidReq_mem (k : Kern) (c : Nat) (q : Req) : (voidReq k c q).mem = k.mem := rfl

@[simp] theorem parkReq_mem (k : Kern) (c : Nat) (q : Req) (faddr sub : Nat) : (parkReq k c q faddr sub).mem = k.mem := by
  unfold parkReq
  split
  · rfl
  · simp

theorem beforePoison_mem {α : Type} {k : Kern} {f : Kern → Kern × α} (hf : ∀ k, (f k).1.mem = k.mem) (hs : List (Nat × Poison)) :
    (beforePoison k hs f).1.mem = k.mem := by
  unfold beforePoison
  refine (foldl_mem ?_ _ _).trans ?_
  · exact fun _ _ => rfl
  · exact hf _

/-! ## Parks (R274, R367) -/

@[simp] theorem resumeParks_mem (k : Kern) (c : Nat) (ps : List Park) : (resumeParks k c ps).mem = k.mem := by
  unfold resumeParks
  dsimp only
  rw [moveThreads_mem]
  exact foldl_mem (by simp) _ _

@[simp] theorem handParks_mem (k : Kern) (c : Nat) (ids : List Nat) : (handParks k c ids).mem = k.mem := rfl

/-! ## First touch (R366) -/

@[simp] theorem placeFrame_mem (k : Kern) (x : Nat) (vault : Bool) (cls : MemClass) (frame : Nat) :
    (placeFrame k x vault cls frame).mem = k.mem := rfl

/-! ## Remote requests at their home (R392) -/

@[simp] theorem takeArrived_mem (s : State) (id : Nat) : (takeArrived s id).kern.mem = s.kern.mem := rfl

@[simp] theorem forwardRequest_mem (s : State) (p : FabPacket) (dst : Nat) :
    (forwardRequest s p dst).kern.mem = s.kern.mem := rfl

/-! ## Copies (R177, R183) -/

@[simp] theorem modCopy_mem (k : Kern) (c id : Nat) (f : CopyJob → CopyJob) : (modCopy k c id f).mem = k.mem := rfl

theorem paidUnit_mem {k0 k : Kern} {c ctx paid : Nat} {commit : Kern → Kern} {keep : Kern → Nat → Kern}
    (hcommit : ∀ k, (commit k).mem = k.mem) (hkeep : ∀ k n, (keep k n).mem = k.mem) (h : k.mem = k0.mem) :
    (paidUnit k0 k c ctx paid commit keep).mem = k0.mem := by
  unfold paidUnit
  split
  · rw [hcommit, h]
  · dsimp only
    split
    · rw [hcommit, modCore_mem, h]
    · rw [hkeep, payUnit_mem]

/-! ## Bed loads (R207) -/

@[simp] theorem failBed_mem (k : Kern) (c : Nat) (j : BedJob) (cause sub : Nat) : (failBed k c j cause sub).mem = k.mem := rfl

@[simp] theorem retireBed_mem (k : Kern) (c : Nat) (j : BedJob) (status : Nat) : (retireBed k c j status).mem = k.mem := by
  unfold retireBed
  dsimp only
  split
  · simp
  · rfl

@[simp] theorem stopBed_mem (k : Kern) (c : Nat) (j : BedJob) (cause sub : Nat) : (stopBed k c j cause sub).mem = k.mem := by
  unfold stopBed
  simp

/-! ## Changing queues -/

@[simp] theorem modQueue_mem (k : Kern) (q : Nat) (f : Queue → Queue) : (modQueue k q f).mem = k.mem := rfl

/-! ## COPYQ's slot (R188) -/

@[simp] theorem dropSlot_mem (k : Kern) (c : Nat) (j : CopyqJob) : (dropSlot k c j).mem = k.mem := rfl

/-! ## Taking a slot (R189) -/

@[simp] theorem findHeader_mem (k : Kern) (c n : Nat) (q : Queue) : (findHeader k c n q).mem = k.mem := by
  unfold findHeader
  dsimp only
  split
  · rfl
  · split <;> rfl

@[simp] theorem setResult_mem (k : Kern) (n w status : Nat) : (setResult k n w status).mem = k.mem := rfl

/-! ## Copy-queue packets (R187) -/

@[simp] theorem waitPacket_mem (s : State) (n : Nat) (q : Queue) (w : Nat) (k : Kern) (faddr sub : Nat) :
    (waitPacket s n q w k faddr sub).mem = k.mem := rfl

/-! ## Retiring (R189, R190) -/

@[simp] theorem leaveQueue_mem (k : Kern) (n : Nat) (p : Packet) : (leaveQueue k n p).mem = k.mem := rfl

/-! ## The collective unit (R193 to R195) -/

@[simp] theorem sendPosts_mem (s : State) (ms : List Nat) (x : Posted) : (sendPosts s ms x).kern.mem = s.kern.mem := by
  unfold sendPosts
  refine (foldlS_mem ?_ _ _).trans ?_
  · exact fun _ _ => foldlS_mem (by simp) _ _
  · rfl

@[simp] theorem failColl_mem (s : State) (n : Nat) (q : Queue) (p : Packet) (clash : Bool) (status : Nat) :
    (failColl s n q p clash status).kern.mem = s.kern.mem := by
  unfold failColl
  dsimp only
  split
  · rfl
  · simp

@[simp] theorem postColl_mem (s : State) (x : Coll) (ms vals : List Nat) : (postColl s x ms vals).kern.mem = s.kern.mem := by
  unfold postColl
  simp

@[simp] theorem hearPost_mem (s : State) (x : Posted) : (hearPost s x).kern.mem = s.kern.mem := by
  unfold hearPost
  split
  · split
    · rfl
    · dsimp only
      split
      · split <;> rfl
      · rw [sendPosts_mem]
        split <;> rfl
  · rfl

/-! ## Service of a unit (R441) -/

@[simp] theorem handUnit_mem (k : Kern) (id : Nat) : (handUnit k id).mem = k.mem := rfl

/-! ## Grants (R413, R414, R419, R420) -/

@[simp] theorem changeGrant_mem (s : State) (g : Ratios) : (changeGrant s g).kern.mem = s.kern.mem := rfl

@[simp] theorem tickBoost_mem (s : State) : (tickBoost s).kern.mem = s.kern.mem := by
  unfold tickBoost
  dsimp only
  split
  · split <;> rfl
  · split
    · simp
    · split <;> rfl

/-! ## Bays (R417, R418) -/

@[simp] theorem newBands_mem (s : State) : (newBands s).kern.mem = s.kern.mem := rfl

/-! ## Gating (R361, R422, R303, R313) -/

@[simp] theorem gateBay_mem (s : State) (bay : Nat) : (gateBay s bay).kern.mem = s.kern.mem := rfl

/-! ## Tables on other devices (R346, R348, R392) -/

theorem recordAsks_mem {k k' : Kern} {l : Launch} {u : Nat} (h : recordAsks k l u = some k') : k'.mem = k.mem := by
  unfold recordAsks at h
  split at h
  · obtain ⟨x, -, hx⟩ := List.exists_of_findSome?_eq_some h
    split at hx
    · exact rangeAsks_mem hx
    · cases hx
  · cases h

@[simp] theorem forUnit_mem (s : State) (u : Nat) : (forUnit s u).kern.mem = s.kern.mem := rfl

/-! ## Admission (R350) -/

@[simp] theorem enterContext_mem (k : Kern) (l : Launch) : (enterContext k l).mem = k.mem := by
  unfold enterContext
  split <;> rfl

@[simp] theorem bindQueues_mem (k : Kern) (l : Launch) : (bindQueues k l).mem = k.mem := by
  unfold bindQueues
  refine (foldl_mem ?_ _ _).trans ?_
  · intro k1 a
    split
    · simp
    · rfl
  · rfl

@[simp] theorem admitLaunch_mem (s : State) (l : Launch) (u : Nat) : (admitLaunch s l u).kern.mem = s.kern.mem := by
  unfold admitLaunch
  simp

/-! ## Blocks that leave a core -/

@[simp] theorem dropBlock_mem (k : Kern) (c b : Nat) : (dropBlock k c b).mem = k.mem := by
  unfold dropBlock
  split <;> rfl

@[simp] theorem sampleEnd_mem (k : Kern) (c : Nat) : (sampleEnd k c).mem = k.mem := rfl

@[simp] theorem checkVacated_mem (s : State) (ctx : Nat) : (checkVacated s ctx).kern.mem = s.kern.mem := by
  unfold checkVacated
  split <;> rfl

/-! ## Retirement (R279, R382) -/

@[simp] theorem dropRegion_mem (k : Kern) (c serial : Nat) : (dropRegion k c serial).mem = k.mem := by
  unfold dropRegion
  dsimp only
  split <;> rfl

/-! ## Re-dispatch (R377) -/

@[simp] theorem runContext_mem (s : State) (ctx : Nat) : (runContext s ctx).kern.mem = s.kern.mem := by
  unfold runContext
  split <;> rfl

@[simp] theorem leaseAll_mem (s : State) (bs : List Nat) : (leaseAll s bs).1.kern.mem = s.kern.mem := by
  induction bs generalizing s with
  | nil => rfl
  | cons b bs ih => exact (ih _).trans (takeLease_mem s b)

@[simp] theorem endLease_mem (s : State) (b : Nat) : (endLease s b).kern.mem = s.kern.mem := rfl

/-! ## Dispatch (R355 to R359) -/

@[simp] theorem admitCard_mem (s : State) (x : Card) (l : Launch) : (admitCard s x l).1.kern.mem = s.kern.mem := by
  unfold admitCard
  split
  · rfl
  · simp

theorem sourceAsks_mem {k k' : Kern} {x : Source} (h : sourceAsks k x = some k') : k'.mem = k.mem := by
  unfold sourceAsks at h
  split at h
  · split at h
    · exact recordAsks_mem h
    · cases h
  · split at h
    · exact recordAsks_mem h
    · cases h
  · cases h

/-! ## Graph runs (R352 to R354) -/

theorem nodesAsk_mem {k k' : Kern} {u ctx : Nat} {ns : List Node} (h : nodesAsk k u ctx ns = some k') : k'.mem = k.mem := by
  obtain ⟨n, -, hn⟩ := List.exists_of_findSome?_eq_some h
  exact recordAsks_mem hn

@[simp] theorem startRun_mem (s : State) (n : Nat) (g : Graph) (w : Nat) : (startRun s n g w).kern.mem = s.kern.mem := by
  unfold startRun
  dsimp only
  split
  · split <;> rfl
  · rfl

theorem runAsks_mem {k k' : Kern} {n : Nat} {g : Graph} {w : Nat} (h : runAsks k n g w = some k') : k'.mem = k.mem := by
  have hheld : ∀ size, (if (checkObj k g.ctx g.patchobj.toNat (patchOff w) size 16 8).isOk then
      rangeAsks k (patchUnit n) g.ctx g.patchobj.toNat (patchOff w) size else none) = some k' → k'.mem = k.mem := fun size hs => by
    split at hs
    · exact rangeAsks_mem hs
    · cases hs
  unfold runAsks at h
  dsimp only at h
  split at h
  · cases h
  · rcases Option.or_eq_some_iff.mp h with h | ⟨-, h⟩
    · rcases Option.or_eq_some_iff.mp h with h | ⟨-, h⟩
      · exact hheld _ h
      · obtain ⟨m, -, hm⟩ := Option.bind_eq_some_iff.mp h
        exact hheld _ hm
    · obtain ⟨ps, -, hps⟩ := Option.bind_eq_some_iff.mp h
      exact nodesAsk_mem hps

@[simp] theorem modNode_mem (k : Kern) (n i : Nat) (f : Node → Node) : (modNode k n i f).mem = k.mem := rfl

/-! ## Notices (R288) -/

@[simp] theorem dropNotice_mem (k : Kern) (id : Nat) : (dropNotice k id).mem = k.mem := rfl

/-! ## STEP.R (R221) -/

@[simp] theorem makeReadable_mem (k : Kern) (c : Nat) (r : XRegion) (u : Unready) : (makeReadable k c r u).mem = k.mem := by
  unfold makeReadable
  split <;> rfl

/-! ## The truss (R297, R298, R225) -/

@[simp] theorem decideVacated_mem (k : Kern) (serial : Nat) (cold mixed : Bool) :
    (decideVacated k serial cold mixed).mem = k.mem := rfl

/-! ## Combining in the leaf (R395) -/

@[simp] theorem closeGroup_mem (s : State) (g : Combine) : (closeGroup s g).kern.mem = s.kern.mem := rfl

@[simp] theorem openGroup_mem (s : State) (p : FabPacket) (out : Nat) (x : Nat × Nat × Nat × Nat) :
    (openGroup s p out x).kern.mem = s.kern.mem := by
  unfold openGroup
  dsimp only
  split <;> rfl

@[simp] theorem atOutput_mem (s : State) (p : FabPacket) (out : Nat) : (atOutput s p out).kern.mem = s.kern.mem := by
  unfold atOutput
  dsimp only
  split
  · rfl
  · split
    · rfl
    · split
      · split <;> rfl
      · simp

@[simp] theorem atLeaf_mem (s : State) (p : FabPacket) : (atLeaf s p).kern.mem = s.kern.mem := by
  unfold atLeaf
  split
  · rfl
  · simp

/-! ## Arrival (R386) -/

@[simp] theorem deliverFace_mem (k : Kern) (n : Notice) : (deliverFace k n).mem = k.mem := by
  unfold deliverFace
  split
  · simp
  · split <;> rfl

@[simp] theorem relayAnswer_mem (s : State) (id : Nat) (answer : Payload) :
    (relayAnswer s id answer).kern.mem = s.kern.mem := by
  unfold relayAnswer
  split <;> rfl

@[simp] theorem acknowledge_mem (s : State) (p : FabPacket) : (acknowledge s p).kern.mem = s.kern.mem := by
  unfold acknowledge
  split <;> rfl

@[simp] theorem goOut_mem (s : State) (p : FabPacket) : (goOut s p).kern.mem = s.kern.mem := by
  unfold goOut
  simp

/-! ## Unreachable destinations (R393) -/

@[simp] theorem endFars_mem (dst : Nat) (k : Kern) : (endFars dst k).mem = k.mem := rfl

@[simp] theorem endForwards_mem (s : State) (gone : List FabPacket) : (endForwards s gone).kern.mem = s.kern.mem := by
  unfold endForwards
  refine (foldlS_mem ?_ _ _).trans ?_
  · intro s1 a
    split
    · split
      · simp
      · rfl
    · split
      · simp
      · rfl
    · rfl
  · rfl

/-! ## Margins (R430) -/

@[simp] theorem stepDie_mem (s : State) (d : Nat) : (stepDie s d).kern.mem = s.kern.mem := rfl

/-! ## Scrubbing (R431) -/

@[simp] theorem scrubLine_mem (s : State) (line : Nat) (vault : Bool) (frame : Nat) :
    (scrubLine s line vault frame).kern.mem = s.kern.mem := by
  unfold scrubLine
  dsimp only
  split <;> simp

/-! ## Device faults (R434) -/

@[simp] theorem reportFault_mem (s : State) (x : Nat) : (reportFault s x).kern.mem = s.kern.mem := by
  unfold reportFault
  exact foldlS_mem (by simp) _ _

/-! ## Boot (R437, R438) -/

@[simp] theorem bringUp_mem (s : State) : (bringUp s).kern.mem = s.kern.mem := rfl

/-! ## Answers (R435) -/

@[simp] theorem respond_mem (s : State) (h : CmdHdr) (status value : Nat) :
    (respond s h status value).kern.mem = s.kern.mem := rfl

/-! ## Objects and extents (R315, R364, R365, R367) -/

@[simp] theorem resumeExtent_mem (k : Kern) (hs : List (Nat × ObjEntry)) (obj ext : Nat) :
    (resumeExtent k hs obj ext).mem = k.mem := by
  unfold resumeExtent
  dsimp only
  refine (foldl_mem ?_ _ _).trans ?_
  · intro k1 a
    split
    · rfl
    · simp
  · rfl

@[simp] theorem freshFrame_mem (k : Kern) (x : Nat) : (freshFrame k x).mem = k.mem := rfl

/-! ## Graphs (R351) -/

theorem imageAsks_mem {k k' : Kern} {u ctx cap n : Nat} (h : imageAsks k u ctx cap n = some k') : k'.mem = k.mem := by
  unfold imageAsks at h
  split at h
  · exact rangeAsks_mem h
  · cases h

theorem graphAsks_mem {k k' : Kern} {graph ctx cap : Nat} (h : graphAsks k graph ctx cap = some k') : k'.mem = k.mem := by
  unfold graphAsks at h
  rcases Option.or_eq_some_iff.mp h with h | ⟨-, h⟩
  · rcases Option.or_eq_some_iff.mp h with h | ⟨-, h⟩
    · exact imageAsks_mem h
    · obtain ⟨n, -, hn⟩ := Option.bind_eq_some_iff.mp h
      exact imageAsks_mem hn
  · obtain ⟨g, -, hg⟩ := Option.bind_eq_some_iff.mp h
    exact nodesAsk_mem hg

/-! ## Recovery (R434) -/

@[simp] theorem exportLines_mem (dev obj off first : Nat) (bs : List Byte) (s : State) (n : Nat) :
    (exportLines dev obj off first bs s n).1.kern.mem = s.kern.mem := by
  induction n with
  | zero => rfl
  | succ n ih => exact (sendPacket_mem _ _ _ _ _).trans ih

@[simp] theorem exportPair_mem (ctx : Nat) (x : State × List Nat) (p : W64 × W64) :
    (exportPair ctx x p).1.kern.mem = x.1.kern.mem := by
  unfold exportPair
  dsimp only
  split
  · simp
  · rfl

end Sys2Proof.Proofs
end

section
/-! Memory in its canonical form (R155, R440), second part: the operations that write memory keep it canonical, since they write through
`Memory.write` or filter the list; an instruction or event that ends keeps it so in the state it ends in, and so does the step. -/

namespace Sys2Proof.Proofs

open Sys2Proof Sys2Proof.Machine Sys2Proof.Safety

theorem foldl_wf {α : Type} {f : Kern → α → Kern} (hf : ∀ k a, Memory.wf k.mem = true → Memory.wf (f k a).mem = true) (l : List α)
    {k : Kern} (h : Memory.wf k.mem = true) : Memory.wf (l.foldl f k).mem = true := by
  induction l generalizing k with
  | nil => exact h
  | cons a l ih => exact ih (hf k a h)

theorem foldlS_wf {α : Type} {f : State → α → State}
    (hf : ∀ s a, Memory.wf s.kern.mem = true → Memory.wf (f s a).kern.mem = true) (l : List α) {s : State}
    (h : Memory.wf s.kern.mem = true) : Memory.wf (l.foldl f s).kern.mem = true := by
  induction l generalizing s with
  | nil => exact h
  | cons a l ih => exact ih (hf s a h)

theorem cellsFrom_filter {lo : Nat} {m : List Host.Cell} (p : Host.Cell → Bool) (h : cellsFrom lo m = true) :
    cellsFrom lo (m.filter p) = true := by
  induction m generalizing lo with
  | nil => rfl
  | cons x m ih =>
    obtain ⟨a, y⟩ := x
    simp only [cellsFrom, Bool.and_eq_true, decide_eq_true_eq] at h
    rw [List.filter_cons]
    split
    · simp only [cellsFrom, Bool.and_eq_true, decide_eq_true_eq]
      exact ⟨h.1, ih h.2⟩
    · exact cellsFrom_mono (by omega) (ih h.2)

theorem wf_wipe {k : Kern} {lo n : Nat} (h : Memory.wf k.mem = true) : Memory.wf (wipe k lo n).mem = true := cellsFrom_filter _ h

theorem wf_of_fst {α : Type} {p : Kern × α} {k : Kern} {a : α} (h : p = (k, a)) (hp : Memory.wf p.1.mem = true) :
    Memory.wf k.mem = true := mem_of_fst h ▸ hp

/-- The kernel state that a transfer ends in, if it ends, keeps the canonical form. -/
def RanOk : Ran → Prop
  | .done k _ | .wait k _ _ _ | .malformed k _ _ _ _ => Memory.wf k.mem = true
  | .far _ _ _ _ => True

theorem ranOk_stopped {k : Kern} (h : Memory.wf k.mem = true) (done : Nat) (e : Stop) : RanOk (stopped k done e) := by
  cases e
  · exact h
  · exact h
  · trivial

/-- Where the outcome is a state, its memory keeps its canonical form. -/
def EndsOk (o : Host.Outcome State Fault Refusal) : Prop := ∀ s, o = .next s → MemoryOk s

/-! ## Poison (R440) -/

theorem wf_clearUnit {k : Kern} {a : Nat} (h : Memory.wf k.mem = true) : Memory.wf (clearUnit k a).mem = true := by
  unfold clearUnit
  split
  · exact h
  · exact wf_putBytes _ _ h

/-! ## Contexts and objects -/

theorem wf_putRuns {k : Kern} {rs : List (Nat × Nat)} {bs : List Byte} (h : Memory.wf k.mem = true) :
    Memory.wf (putRuns k rs bs).mem = true := by
  induction rs generalizing k bs with
  | nil => exact h
  | cons r rs ih => exact ih (wf_putBytes _ _ h)

/-! ## Firmware's own reads and writes of objects -/

theorem wf_writeObj {k : Kern} {ctx o off : Nat} {bs : List Byte} (h : Memory.wf k.mem = true) :
    Memory.wf (writeObj k ctx o off bs).mem = true := by
  unfold writeObj
  split
  · rw [sendWrite_mem]
    exact wf_putRuns h
  · exact h

/-! ## The fault log (R382) -/

theorem wf_logRecord {k : Kern} {ctx type serial : Nat} {cycle : W64} {body : List Byte} (h : Memory.wf k.mem = true) :
    Memory.wf (logRecord k ctx type serial cycle body).mem = true := by
  unfold logRecord
  dsimp only
  split
  · exact h
  · split
    · exact h
    · split
      · exact h
      · split
        · exact h
        · exact wf_writeObj (wf_writeObj h)

/-! ## Trap records (R235, R236) -/

theorem wf_stopContext {k : Kern} {ctx c : Nat} {t : Thread} {rec_ : List W32} (h : Memory.wf k.mem = true) :
    Memory.wf (stopContext k ctx c t rec_).mem = true := by
  unfold stopContext
  split
  · exact h
  · exact wf_logRecord h

theorem wf_stopSpent {k : Kern} {ctx : Nat} (h : Memory.wf k.mem = true) : Memory.wf (stopSpent k ctx).mem = true := by
  unfold stopSpent
  split
  · exact wf_stopContext h
  · exact h

theorem wf_chargeBy {spent : Kern → Nat → Kern} {k : Kern} {ctx units : Nat}
    (hspent : ∀ k ctx, Memory.wf k.mem = true → Memory.wf (spent k ctx).mem = true) (h : Memory.wf k.mem = true) :
    Memory.wf (chargeBy spent k ctx units).mem = true := by
  unfold chargeBy
  split
  · exact h
  · dsimp only
    split
    · exact hspent _ _ h
    · exact h

theorem wf_charge {k : Kern} {ctx units : Nat} (h : Memory.wf k.mem = true) : Memory.wf (charge k ctx units).mem = true :=
  wf_chargeBy (fun k ctx hk => by
    split
    · exact wf_stopSpent hk
    · exact (deliverAsync_mem k ctx true).symm ▸ hk) h

/-! ## Taking a trap (R235, R239) -/

theorem wf_trapEntry {k : Kern} {c : Nat} {t : Thread} {cause sub : Nat} {pcsave fault : W64} {async : Bool}
    (h : Memory.wf k.mem = true) : Memory.wf (trapEntry k c t cause sub pcsave fault async).1.mem = true := by
  unfold trapEntry
  dsimp only
  split
  · exact h
  · split
    · exact wf_stopContext h
    · split
      · exact wf_stopContext h
      · split
        · exact h
        · dsimp only
          rw [modThis_mem, closeWindows_mem]
          exact h

theorem wf_doubleTrap {k : Kern} {c : Nat} {t : Thread} {pc : W64} (h : Memory.wf k.mem = true) :
    Memory.wf (doubleTrap k c t pc).mem = true := by
  unfold doubleTrap
  split
  · exact h
  · exact wf_stopContext h

theorem wf_takeTrap {k : Kern} {c : Nat} {t : Thread} {cause sub : Nat} {pcsave fault : W64} {async : Bool}
    (h : Memory.wf k.mem = true) : Memory.wf (takeTrap k c t cause sub pcsave fault async).mem = true := by
  unfold takeTrap
  split
  · rw [moveThreads_mem]
    exact wf_of_fst ‹_› (wf_trapEntry h)
  · exact wf_of_fst ‹_› (wf_trapEntry h)

theorem wf_enterAll {c : Nat} {k : Kern} {xs : List Due} (h : Memory.wf k.mem = true) :
    Memory.wf (enterAll c k xs).1.mem = true := by
  induction xs generalizing k with
  | nil => exact h
  | cons x xs ih => exact ih (wf_trapEntry h)

theorem wf_takeAll {k : Kern} {c : Nat} {xs : List Due} (h : Memory.wf k.mem = true) :
    Memory.wf (takeAll k c xs).mem = true := by
  unfold takeAll
  dsimp only
  rw [moveThreads_mem]
  exact wf_enterAll h

theorem wf_takeTraps {k : Kern} {c : Nat} {xs : List (Thread × W64)} {cause sub : Nat} {fault : W64}
    (h : Memory.wf k.mem = true) : Memory.wf (takeTraps k c xs cause sub fault).mem = true := by
  unfold takeTraps
  exact wf_takeAll h

/-! ## Valid bits and races (R304, R325, R326) -/

theorem wf_logUnwritten {k : Kern} {c : Nat} {t : Thread} {pc word : Nat} (h : Memory.wf k.mem = true) :
    Memory.wf (logUnwritten k c t pc word).mem = true := by
  unfold logUnwritten
  dsimp only
  split
  · exact h
  · exact wf_logRecord h

theorem wf_logRace {k : Kern} {c : Nat} {t : Thread} {pc word : Nat} (h : Memory.wf k.mem = true) :
    Memory.wf (logRace k c t pc word).mem = true := by
  unfold logRace
  dsimp only
  split
  · exact h
  · exact wf_logRecord h

theorem wf_checkWord {k : Kern} {c : Nat} {t : Thread} {l : Launch} {blk : Block} {pc : Nat} {a : Touch} {word : Nat}
    (h : Memory.wf k.mem = true) : Memory.wf (checkWord k c t l blk pc a word).1.mem = true := by
  unfold checkWord
  dsimp only
  split
  · exact h
  · split
    · dsimp only
      split
      · exact wf_logUnwritten h
      · exact h
    · dsimp only
      split
      · apply wf_logRace
        split
        · exact wf_logUnwritten h
        · exact h
      · split
        · exact wf_logUnwritten h
        · exact h

theorem wf_checkWords {k : Kern} {c : Nat} {t : Thread} {l : Launch} {blk : Block} {pc : Nat} {a : Touch} {ws : List Nat}
    (h : Memory.wf k.mem = true) : Memory.wf (checkWords k c t l blk pc a ws).1.mem = true := by
  induction ws generalizing k with
  | nil => exact h
  | cons w ws ih =>
    have hw : Memory.wf (checkWord k c t l blk pc a w).1.mem = true := wf_checkWord h
    unfold checkWords
    split
    · rename_i heq
      rw [heq] at hw
      exact hw
    · rename_i heq
      rw [heq] at hw
      exact ih hw

theorem wf_detect {k : Kern} {c : Nat} {t : Thread} {pc : Nat} {p : Spot} {size : Nat} {a : Touch}
    (h : Memory.wf k.mem = true) : Memory.wf (detect k c t pc p size a).1.mem = true := by
  unfold detect
  split
  · exact h
  · split
    · exact wf_checkWords h
    · exact h

/-! ## Poison and corrected errors -/

theorem wf_readRuns {k : Kern} {ctx cls : Nat} {rs : List (Nat × Nat)} (h : Memory.wf k.mem = true) :
    Memory.wf (readRuns k ctx cls rs).1.mem = true := by
  unfold readRuns
  dsimp only
  split
  · dsimp only
    apply wf_charge
    rw [countMended_mem]
    exact h
  · split
    · dsimp only
      rw [countPoison_mem]
      apply wf_charge
      rw [countMended_mem]
      exact h
    · dsimp only
      apply wf_charge
      rw [countMended_mem]
      exact h

theorem wf_readTrap {k : Kern} {ctx cls : Nat} {rs : List (Nat × Nat)} (h : Memory.wf k.mem = true) :
    Memory.wf (readTrap k ctx cls rs).1.mem = true := by
  unfold readTrap
  split
  · split
    · exact wf_readRuns h
    · dsimp only
      rw [chargeLate_mem, countMended_mem]
      exact h
  · exact wf_readRuns h

theorem wf_refreshRuns {k : Kern} {rs : List (Nat × Nat)} (h : Memory.wf k.mem = true) :
    Memory.wf (refreshRuns k rs).mem = true := by
  unfold refreshRuns
  refine foldl_wf ?_ _ ?_
  · intro k1 a h1
    split
    · exact wf_clearUnit h1
    · exact h1
  · exact h

/-! ## Atomic operations (R161) -/

theorem wf_performAtomic {k : Kern} {ctx cls : Nat} {r : Nat × Nat} {kind : ReqKind} {ty : Ty} {mask : Nat → Nat}
    {data cmp : Nat} (h : Memory.wf k.mem = true) :
    Memory.wf (performAtomic k ctx cls r kind ty mask data cmp).1.mem = true := by
  unfold performAtomic
  split
  · exact wf_of_fst ‹_› (wf_readTrap h)
  · dsimp only
    split
    · exact wf_of_fst ‹_› (wf_readTrap h)
    · exact wf_putBytes _ _ (wf_refreshRuns (wf_of_fst ‹_› (wf_readTrap h)))

/-! ## Outstanding requests (R157, R159) -/

theorem wf_performLoad {k : Kern} {c cls : Nat} {q : Req} {rs : List (Nat × Nat)} (h : Memory.wf k.mem = true) :
    Memory.wf (performLoad k c cls q rs).1.mem = true := by
  unfold performLoad
  dsimp only
  split
  · exact wf_readTrap h
  · split
    · exact h
    · split
      · exact wf_of_fst ‹_› (wf_readTrap h)
      · split
        · split
          · dsimp only
            rw [fillLine_mem]
            exact wf_of_fst ‹_› (wf_readTrap h)
          · exact wf_of_fst ‹_› (wf_readTrap h)
        · exact wf_of_fst ‹_› (wf_readTrap h)

theorem wf_performReq {k : Kern} {c cls : Nat} {q : Req} {rs : List (Nat × Nat)} (h : Memory.wf k.mem = true) :
    Memory.wf (performReq k c cls q rs).1.mem = true := by
  unfold performReq
  dsimp only
  split
  · exact wf_performLoad h
  · dsimp only
    rw [storeLine_mem]
    exact wf_putRuns h
  · split
    · split
      · exact wf_of_fst ‹_› (wf_performAtomic h)
      · dsimp only
        split
        · rw [dropLines_mem, dropLine_mem]
          exact wf_of_fst ‹_› (wf_performAtomic h)
        · rw [dropLine_mem]
          exact wf_of_fst ‹_› (wf_performAtomic h)
    · exact h

/-! ## Moving bytes (R178, R369) -/

theorem wf_landBad {k : Kern} {a : Nat} {p : Poison} (h : Memory.wf k.mem = true) : Memory.wf (landBad k a p).mem = true := by
  unfold landBad
  split
  · rw [setPoison_mem]
    exact h
  · exact wf_putBytes _ _ h

/-- The state in which an engine's bytes have landed, and what it met is counted and charged. -/
def landedAt (k : Kern) (ctx : Nat) (p : Plane) (rs : List (Nat × Nat)) (x : Chunk) (n : Nat) : Kern :=
  let k1 := putRuns (addCost k (x.cost + planeCost p n)) rs x.bytes
  let k2 := x.bad.foldl (fun k b => landBad k (addrAt rs b.at_) b.poison) k1
  let units := landUnits k rs x.bad
  charge (countMended (if units.isEmpty then k2 else countPoison k2 ctx units.length) x.soft) ctx (poisonCharge units + x.soft.length)

theorem wf_landedAt {k : Kern} {ctx : Nat} {p : Plane} {rs : List (Nat × Nat)} {x : Chunk} {n : Nat} (h : Memory.wf k.mem = true) :
    Memory.wf (landedAt k ctx p rs x n).mem = true := by
  have hbad : Memory.wf (x.bad.foldl (fun k b => landBad k (addrAt rs b.at_) b.poison)
      (putRuns (addCost k (x.cost + planeCost p n)) rs x.bytes)).mem = true :=
    foldl_wf (fun _ _ => wf_landBad) _ (wf_putRuns h)
  apply wf_charge
  rw [countMended_mem]
  split
  · exact hbad
  · rw [countPoison_mem]
    exact hbad

theorem landBytes_eq (k : Kern) (ctx : Nat) (p : Plane) (off : Nat) (x : Chunk) : landBytes k ctx p off x =
    match planeRuns k p off x.bytes.length with
    | .error e => .error e
    | .ok rs => .ok (match p with
      | .pad c b _ => if x.bytes.length == 0 then landedAt k ctx p rs x x.bytes.length
          else engineTouch (landedAt k ctx p rs x x.bytes.length) c b off x.bytes.length
      | .ob o cap => sendWrite (landedAt k ctx p rs x x.bytes.length) o (capObj cap) off (sentBytes x)
      | _ => landedAt k ctx p rs x x.bytes.length) := rfl

theorem wf_landBytes {k k' : Kern} {ctx : Nat} {p : Plane} {off : Nat} {x : Chunk} (h : Memory.wf k.mem = true)
    (hk : landBytes k ctx p off x = .ok k') : Memory.wf k'.mem = true := by
  rw [landBytes_eq] at hk
  split at hk
  · cases hk
  · injection hk with hk
    subst hk
    split
    · split
      · exact wf_landedAt h
      · rw [engineTouch_mem]
        exact wf_landedAt h
    · rw [sendWrite_mem]
      exact wf_landedAt h
    · exact wf_landedAt h

/-! ## Interpreted reads (R178) -/

theorem wf_interpret {k : Kern} {ctx cls : Nat} {p : Plane} {off n : Nat} (h : Memory.wf k.mem = true) :
    Memory.wf (interpret k ctx cls p off n).1.mem = true := by
  unfold interpret
  split
  · exact h
  · exact h
  · dsimp only
    split
    · dsimp only
      refine wf_of_fst ‹_› ?_
      apply wf_readRuns
      apply wf_charge
      exact h
    · split
      · dsimp only
        refine wf_of_fst ‹_› ?_
        apply wf_readRuns
        apply wf_charge
        exact h
      · split
        · dsimp only
          refine wf_of_fst ‹_› ?_
          apply wf_readRuns
          apply wf_charge
          exact h
        · dsimp only
          rw [countPoison_mem]
          refine wf_of_fst ‹_› ?_
          apply wf_readRuns
          apply wf_charge
          exact h

/-! ## Modes 0 and 1 -/

theorem wf_landRows {k k' : Kern} {ctx : Nat} {dst : Plane} {dbase : Nat} {rs : List (Int × Chunk)} (h : Memory.wf k.mem = true)
    (hk : landRows k ctx dst dbase rs = .ok k') : Memory.wf k'.mem = true := by
  induction rs generalizing k with
  | nil =>
    cases hk
    exact h
  | cons r rs ih =>
    unfold landRows at hk
    split at hk
    · exact ih (wf_landBytes h ‹_›) hk
    · cases hk

theorem ranOk_runMove {k : Kern} {ctx : Nat} {src dst : Plane} {sbase dbase : Nat} {rows : List (Int × Int × Nat)}
    (h : Memory.wf k.mem = true) : RanOk (runMove k ctx src dst sbase dbase rows) := by
  unfold runMove
  split
  · exact ranOk_stopped h _ _
  · split
    · exact wf_landRows h ‹_›
    · exact ranOk_stopped h _ _

/-! ## Mode 2, the sparse-row walk (R179) -/

theorem ranOk_runSparse {k : Kern} {ctx cls : Nat} {src : Plane} {soff : Nat} {ibuf : Plane} {ioff rows cap : Nat} {vbuf : Plane}
    {voff esz : Nat} (h : Memory.wf k.mem = true) : RanOk (runSparse k ctx cls src soff ibuf ioff rows cap vbuf voff esz) := by
  unfold runSparse
  split
  · exact ranOk_stopped (wf_of_fst ‹_› (wf_interpret h)) _ _
  · have hhead := wf_of_fst ‹_› (wf_interpret h)
    dsimp only
    split
    · exact hhead
    · split
      · exact ranOk_stopped hhead _ _
      · split
        · exact ranOk_stopped (wf_of_fst ‹_› (wf_interpret hhead)) _ _
        · have hrows := wf_of_fst ‹_› (wf_interpret hhead)
          split
          · exact hrows
          · split
            · exact hrows
            · split
              · exact ranOk_stopped hrows _ _
              · exact ranOk_stopped hrows _ _
              · split
                · exact ranOk_stopped hrows _ _
                · have hcols := wf_landRows hrows ‹_›
                  split
                  · exact ranOk_stopped hcols _ _
                  · exact wf_landBytes hcols ‹_›

/-! ## Mode 3, the layout chain (R180) -/

theorem ranOk_runChain {ctx cls : Nat} {dst : Plane} {dbase ext pred fuel : Nat} {k : Kern} {cap off done : Nat}
    (h : Memory.wf k.mem = true) : RanOk (runChain ctx cls dst dbase ext pred fuel k cap off done) := by
  induction fuel generalizing k cap off done with
  | zero => exact h
  | succ fuel ih =>
    unfold runChain
    split
    · exact h
    · split
      · exact ranOk_stopped (wf_of_fst ‹_› (wf_interpret h)) _ _
      · have helem := wf_of_fst ‹_› (wf_interpret h)
        split
        · exact ranOk_stopped helem _ _
        · have hnext : ∀ (next : Nat) (k : Kern), Memory.wf k.mem = true → RanOk (if next == 0 then .done k 0 else
              runChain ctx cls dst dbase ext pred fuel k next (capOff next) (done + 1)) := fun next k hk => by
            split
            · exact hk
            · exact ih hk
          dsimp only
          split
          · exact hnext _ _ helem
          · split
            · exact ranOk_stopped helem _ _
            · split
              · exact ranOk_stopped helem _ _
              · exact hnext _ _ (wf_landBytes (k := atRow _ done) helem ‹_›)

/-! ## Mode 4, grain expansion (R319 to R323) -/

theorem wf_expandTile {k : Kern} {ctx cls cap entry : Nat} (h : Memory.wf k.mem = true) :
    Memory.wf (expandTile k ctx cls cap entry).1.mem = true := by
  unfold expandTile
  split
  · exact h
  · split
    · exact wf_of_fst ‹_› (wf_interpret h)
    · dsimp only
      split
      · exact wf_of_fst ‹_› (wf_interpret h)
      · split
        · exact wf_of_fst ‹_› (wf_interpret (wf_of_fst ‹_› (wf_interpret h)))
        · split
          · exact wf_of_fst ‹_› (wf_interpret (wf_of_fst ‹_› (wf_interpret h)))
          · split
            · exact wf_of_fst ‹_› (wf_interpret (wf_of_fst ‹_› (wf_interpret h)))
            · split
              · exact wf_of_fst ‹_› (wf_interpret (wf_of_fst ‹_› (wf_interpret (wf_of_fst ‹_› (wf_interpret h)))))
              · split <;> exact wf_of_fst ‹_› (wf_interpret (wf_of_fst ‹_› (wf_interpret (wf_of_fst ‹_› (wf_interpret h)))))

theorem ranOk_runGrain {ctx cls cap soff t0 : Nat} {dst : Plane} {dbase n : Nat} {k : Kern} {done : Nat} (h : Memory.wf k.mem = true) :
    RanOk (runGrain ctx cls cap soff t0 dst dbase n k done) := by
  induction n generalizing k done with
  | zero => exact h
  | succ n ih =>
    have htile : Memory.wf (expandTile k ctx cls cap (soff + 4 * (t0 + done))).1.mem = true := wf_expandTile h
    unfold runGrain
    split
    · exact ranOk_stopped (wf_of_fst ‹_› htile) _ _
    · exact wf_of_fst ‹_› htile
    · have hk := wf_of_fst ‹_› htile
      split
      · exact ranOk_stopped hk _ _
      · exact ih (wf_landBytes (k := atRow _ done) hk ‹_›)

theorem wf_grainLog {k : Kern} {ctx serial block tile sub origin core die pc : Nat} {cycle : W64} (h : Memory.wf k.mem = true) :
    Memory.wf (grainLog k ctx serial block tile sub origin core die pc cycle).mem = true := by
  unfold grainLog
  exact wf_logRecord h

/-! ## Gather walkers (R191, R192) -/

theorem ranOk_runGather {ctx : Nat} {scatter : Bool} {idx rows pack rb rstr n : Nat} {k : Kern} {i : Nat}
    (h : Memory.wf k.mem = true) : RanOk (runGather ctx scatter idx rows pack rb rstr n k i) := by
  induction n generalizing k i with
  | zero => exact h
  | succ n ih =>
    unfold runGather
    split
    · exact ranOk_stopped h _ _
    · split
      · exact ranOk_stopped (wf_of_fst ‹_› (wf_interpret h)) _ _
      · have hrow := wf_of_fst ‹_› (wf_interpret h)
        dsimp only
        split
        · exact ranOk_stopped hrow _ _
        · exact ranOk_stopped hrow _ _
        · split
          · exact ranOk_stopped hrow _ _
          · split
            · exact ranOk_stopped hrow _ _
            · exact ih (wf_landBytes (k := atRow _ i) hrow ‹_›)

/-! ## Safe points (R53 to R55) -/

theorem wf_sideRead {k : Kern} {l : Launch} {off n : Nat} (h : Memory.wf k.mem = true) :
    Memory.wf (sideRead k l off n).1.mem = true := by
  unfold sideRead
  split
  · exact h
  · split
    · exact h
    · split <;> exact wf_of_fst ‹_› (wf_readTrap h)

theorem wf_findSafe {l : Launch} {tbl pc : Nat} {k : Kern} {i n : Nat} (h : Memory.wf k.mem = true) :
    Memory.wf (findSafe l tbl pc k i n).1.mem = true := by
  induction n generalizing k i with
  | zero => exact h
  | succ n ih =>
    have hread : Memory.wf (sideRead k l (tbl + 16 * i) 16).1.mem = true := wf_sideRead h
    unfold findSafe
    split
    · rename_i heq
      rw [heq] at hread
      exact hread
    · rename_i heq
      rw [heq] at hread
      split
      · exact hread
      · exact ih hread

theorem wf_readMask {k : Kern} {l : Launch} {i : Nat} (h : Memory.wf k.mem = true) :
    Memory.wf (readMask k l i).1.mem = true := by
  unfold readMask
  split
  · exact wf_of_fst ‹_› (wf_sideRead h)
  · exact wf_sideRead (wf_of_fst ‹_› (wf_sideRead h))

theorem wf_safePoint {k : Kern} {l : Launch} {pc : Nat} (h : Memory.wf k.mem = true) :
    Memory.wf (safePoint k l pc).1.mem = true := by
  unfold safePoint
  split
  · exact wf_of_fst ‹_› (wf_sideRead h)
  · split
    · exact wf_of_fst ‹_› (wf_findSafe (wf_of_fst ‹_› (wf_sideRead h)))
    · exact wf_of_fst ‹_› (wf_findSafe (wf_of_fst ‹_› (wf_sideRead h)))
    · split
      · exact wf_of_fst ‹_› (wf_findSafe (wf_of_fst ‹_› (wf_sideRead h)))
      · split <;> exact wf_of_fst ‹_› (wf_readMask (wf_of_fst ‹_› (wf_findSafe (wf_of_fst ‹_› (wf_sideRead h)))))

/-! ## Cell frames (R293) -/

theorem wf_saveLive {k : Kern} {at_ : Nat} {v : List W32} {mask n : Nat} (h : Memory.wf k.mem = true) :
    Memory.wf (saveLive k at_ v mask n).mem = true := by
  fun_induction saveLive k at_ v mask n
  · exact h
  · refine wf_putBytes _ _ ?_
    assumption
  · assumption

theorem wf_admitCell {k : Kern} {c : Nat} {t : Thread} {r : XRegion} {l : Launch} {b : Nat} (h : Memory.wf k.mem = true) :
    Memory.wf (admitCell k c t r l b).1.mem = true := by
  unfold admitCell
  dsimp only
  rw [modRegion_mem]
  refine wf_putBytes _ _ ?_
  rw [modThis_mem]
  exact wf_readMask h

theorem wf_rotateCell {k : Kern} {c : Nat} {t : Thread} {r : XRegion} {l : Launch} {b mask pc a : Nat}
    (h : Memory.wf k.mem = true) : Memory.wf (rotateCell k c t r l b mask pc a).1.mem = true := by
  unfold rotateCell
  dsimp only
  apply wf_admitCell
  rw [modRegion_mem]
  apply wf_saveLive
  refine wf_putBytes _ _ ?_
  rw [flushHeld_mem]
  exact h

/-! ## Publishing (R283, R288) -/

theorem wf_publish {k : Kern} {c : Nat} {t : Thread} {l : Launch} {r : XRegion} {b : Nat} {release : Bool}
    (h : Memory.wf k.mem = true) : Memory.wf (publish k c t l r b release).mem = true := by
  unfold publish
  dsimp only
  rw [notifyCell_mem]
  split
  · rw [modRegion_mem]
    split
    · rw [modRegion_mem, modThis_mem]
      refine wf_putBytes _ _ ?_
      split
      · exact wf_putBytes _ _ (wf_putBytes _ _ h)
      · exact h
    · rw [modThis_mem]
      refine wf_putBytes _ _ ?_
      split
      · exact wf_putBytes _ _ (wf_putBytes _ _ h)
      · exact h
  · split
    · rw [modRegion_mem, modThis_mem]
      refine wf_putBytes _ _ ?_
      split
      · exact wf_putBytes _ _ (wf_putBytes _ _ h)
      · exact h
    · rw [modThis_mem]
      refine wf_putBytes _ _ ?_
      split
      · exact wf_putBytes _ _ (wf_putBytes _ _ h)
      · exact h

/-! ## Exit (R143, R286, R295) -/

theorem wf_exitThread {k : Kern} {c : Nat} {t : Thread} (h : Memory.wf k.mem = true) :
    Memory.wf (exitThread k c t).1.mem = true := by
  unfold exitThread
  split
  · dsimp only
    rw [endThread_mem]
    exact h
  · split
    · dsimp only
      rw [endThread_mem, exitCell_mem, discardResults_mem]
      exact h
    · split
      · exact wf_of_fst ‹_› (wf_readMask h)
      · dsimp only
        apply wf_admitCell
        rw [exitCell_mem, discardResults_mem]
        exact h

/-! ## The end of an issue (R265) -/

theorem wf_applyCourse {pc next c : Nat} {k : Kern} {x : Thread × Course} (h : Memory.wf k.mem = true) :
    Memory.wf (applyCourse pc next c k x).1.mem = true := by
  unfold applyCourse
  dsimp only
  split
  · exact h
  · exact h
  · apply wf_trapEntry
    rw [modThis_mem, rollback_mem]
    exact h
  · exact wf_trapEntry h
  · exact wf_trapEntry h
  · dsimp only
    rw [parkThread_mem]
    exact h
  · exact h
  · exact h
  · exact h

theorem wf_applyCourses {pc next c : Nat} {k : Kern} {xs : List (Thread × Course)} (h : Memory.wf k.mem = true) :
    Memory.wf (applyCourses pc next c k xs).1.mem = true := by
  induction xs generalizing k with
  | nil => exact h
  | cons x xs ih => exact ih (wf_applyCourse h)

theorem wf_finishIssue {s : State} {k : Kern} {xs : List (Thread × Course)} (h : Memory.wf k.mem = true) :
    Memory.wf (finishIssue s k xs).mem = true := by
  unfold finishIssue
  dsimp only
  rw [markFormed_mem, moveThreads_mem]
  apply wf_applyCourses
  rw [markIssued_mem]
  refine foldl_wf ?_ _ ?_
  · intro k1 a h1
    split
    · rw [countWindows_mem]
      exact h1
    · exact h1
  · exact h

/-! ## The issue -/

theorem wf_meetFace {c : Nat} {i : Instr} {k : Kern} {t : Thread} (h : Memory.wf k.mem = true) :
    Memory.wf (meetFace c i k t).mem = true := by
  unfold meetFace
  dsimp only
  split
  · rw [countPoison_mem]
    exact wf_charge h
  · exact wf_charge h

theorem wf_meetFaces {k : Kern} {c : Nat} {i : Instr} {ts : List Thread} (h : Memory.wf k.mem = true) :
    Memory.wf (meetFaces k c i ts).mem = true := by
  unfold meetFaces
  exact foldl_wf (fun _ _ h1 => wf_meetFace h1) _ h

theorem wf_issue {s : State} {i : Instr} {run : Kern → List (Thread × List Reg) → Kern × List Course}
    (hrun : ∀ k ts, Memory.wf k.mem = true → Memory.wf (run k ts).1.mem = true) (h : Memory.wf s.kern.mem = true) :
    Memory.wf (issue s i run).kern.mem = true := by
  have hread : Memory.wf (if s.cur.mode == .first then latchAll s else s.kern).mem = true := by
    split
    · rw [latchAll_mem]
      exact h
    · exact h
  unfold issue
  generalize (if s.cur.mode == .first then latchAll s else s.kern) = k0 at hread ⊢
  split
  · dsimp only
    generalize (actors s).filter (fun t => (verdictOf s i t).isNone) = doers
    generalize doers.map (fun t => (t, dstRegs s i doers t)) = ds
    have hdone := hrun (useObjs (acquireFaces (meetFaces k0 s.cur.core i doers) s.cur.core i doers) s.cur.core i doers) ds (by
      rw [useObjs_mem, acquireFaces_mem]
      exact wf_meetFaces hread)
    split
    · rw [finishFirst_mem, nameWindows_mem]
      exact hdone
    · apply wf_finishIssue
      rw [nameWindows_mem]
      exact hdone
  · exact h

theorem wf_foldOwed {f : Kern → Thread → List Reg → Kern × Course} {owed : List Owed} {k : Kern} {ts : List (Thread × List Reg)}
    (hf : ∀ k t d, Memory.wf k.mem = true → Memory.wf (f k t d).1.mem = true) (h : Memory.wf k.mem = true) :
    Memory.wf (foldOwed f owed k ts).1.mem = true := by
  induction ts generalizing owed k with
  | nil => exact h
  | cons p ts ih => exact ih (hf k p.1 _ h)

theorem wf_foldBody {f : Kern → Thread → List Reg → Kern × Course} {k : Kern} {ts : List (Thread × List Reg)}
    (hf : ∀ k t d, Memory.wf k.mem = true → Memory.wf (f k t d).1.mem = true) (h : Memory.wf k.mem = true) :
    Memory.wf (foldBody f k ts).1.mem = true := wf_foldOwed hf h

theorem wf_issueEach {s : State} {i : Instr} {f : Kern → Thread → List Reg → Kern × Course}
    (hf : ∀ k t d, Memory.wf k.mem = true → Memory.wf (f k t d).1.mem = true) (h : Memory.wf s.kern.mem = true) :
    Memory.wf (issueEach s i f).kern.mem = true := wf_issue (fun _ _ => wf_foldBody hf) h

theorem wf_issuePlain {s : State} {i : Instr} {f : Thread → Effect} (h : Memory.wf s.kern.mem = true) :
    Memory.wf (issuePlain s i f).kern.mem = true :=
  wf_issueEach (fun k t d hk => (plainBody_mem s.cur.core f k t d).symm ▸ hk) h

theorem wf_issueHeld {s : State} {i : Instr} {la : BitVec 4} {f : Thread → Effect} (h : Memory.wf s.kern.mem = true) :
    Memory.wf (issueHeld s i la f).kern.mem = true :=
  wf_issueEach (fun k t d hk => (heldBody_mem s.cur.core la f k t d).symm ▸ hk) h

theorem wf_issueOnce {s : State} {i : Instr} {f : Kern → Thread → List Reg → Kern × Course}
    (hf : ∀ k t d, Memory.wf k.mem = true → Memory.wf (f k t d).1.mem = true) (h : Memory.wf s.kern.mem = true) :
    Memory.wf (issueOnce s i f).kern.mem = true :=
  wf_issue (fun k ts hk => by
    split
    · exact hk
    · exact hf _ _ _ hk) h

theorem ends_next {s : State} (h : Memory.wf s.kern.mem = true) : EndsOk (.next s) := by
  rintro _ ⟨⟩
  exact h

theorem ends_answer {s : State} (h : Memory.wf s.kern.mem = true) : EndsOk (answer s) := ends_next h

theorem wf_issueIllegal {s : State} {cause : Nat} (h : Memory.wf s.kern.mem = true) :
    Memory.wf (issueIllegal s cause).kern.mem = true := by
  unfold issueIllegal
  split
  · dsimp only
    split
    · rw [finishFirst_mem, latchAll_mem]
      exact h
    · exact wf_finishIssue h
  · exact h

theorem ends_execAdd {x : RForm} {s : State} (h : Memory.wf s.kern.mem = true) : EndsOk (execAdd x s) := by
  unfold execAdd
  exact ends_answer (wf_issuePlain h)

theorem ends_execSub {x : RForm} {s : State} (h : Memory.wf s.kern.mem = true) : EndsOk (execSub x s) := by
  unfold execSub
  exact ends_answer (wf_issuePlain h)

theorem ends_execMul {x : RForm} {s : State} (h : Memory.wf s.kern.mem = true) : EndsOk (execMul x s) := by
  unfold execMul
  exact ends_answer (wf_issuePlain h)

theorem ends_execMulhi {x : RForm} {s : State} (h : Memory.wf s.kern.mem = true) : EndsOk (execMulhi x s) := by
  unfold execMulhi
  exact ends_answer (wf_issuePlain h)

theorem ends_execMad {x : RForm} {s : State} (h : Memory.wf s.kern.mem = true) : EndsOk (execMad x s) := by
  unfold execMad
  exact ends_answer (wf_issuePlain h)

theorem ends_execDiv {x : RForm} {s : State} (h : Memory.wf s.kern.mem = true) : EndsOk (execDiv x s) := by
  unfold execDiv
  exact ends_answer (wf_issueHeld h)

theorem ends_execRem {x : RForm} {s : State} (h : Memory.wf s.kern.mem = true) : EndsOk (execRem x s) := by
  unfold execRem
  exact ends_answer (wf_issueHeld h)

theorem ends_execMin {x : RForm} {s : State} (h : Memory.wf s.kern.mem = true) : EndsOk (execMin x s) := by
  unfold execMin
  exact ends_answer (wf_issuePlain h)

theorem ends_execMax {x : RForm} {s : State} (h : Memory.wf s.kern.mem = true) : EndsOk (execMax x s) := by
  unfold execMax
  exact ends_answer (wf_issuePlain h)

theorem ends_execAbs {x : RForm} {s : State} (h : Memory.wf s.kern.mem = true) : EndsOk (execAbs x s) := by
  unfold execAbs
  exact ends_answer (wf_issuePlain h)

theorem ends_execNeg {x : RForm} {s : State} (h : Memory.wf s.kern.mem = true) : EndsOk (execNeg x s) := by
  unfold execNeg
  exact ends_answer (wf_issuePlain h)

theorem ends_execAddc {x : RForm} {s : State} (h : Memory.wf s.kern.mem = true) : EndsOk (execAddc x s) := by
  unfold execAddc
  exact ends_answer (wf_issuePlain h)

theorem ends_execSubb {x : RForm} {s : State} (h : Memory.wf s.kern.mem = true) : EndsOk (execSubb x s) := by
  unfold execSubb
  exact ends_answer (wf_issuePlain h)

theorem ends_execSad {x : RForm} {s : State} (h : Memory.wf s.kern.mem = true) : EndsOk (execSad x s) := by
  unfold execSad
  exact ends_answer (wf_issuePlain h)

theorem ends_execAddi {x : IForm} {s : State} (h : Memory.wf s.kern.mem = true) : EndsOk (execAddi x s) := by
  unfold execAddi
  exact ends_answer (wf_issuePlain h)

theorem ends_execMuli {x : IForm} {s : State} (h : Memory.wf s.kern.mem = true) : EndsOk (execMuli x s) := by
  unfold execMuli
  exact ends_answer (wf_issuePlain h)

theorem ends_execAndi {x : IForm} {s : State} (h : Memory.wf s.kern.mem = true) : EndsOk (execAndi x s) := by
  unfold execAndi
  exact ends_answer (wf_issuePlain h)

theorem ends_execOri {x : IForm} {s : State} (h : Memory.wf s.kern.mem = true) : EndsOk (execOri x s) := by
  unfold execOri
  exact ends_answer (wf_issuePlain h)

theorem ends_execXori {x : IForm} {s : State} (h : Memory.wf s.kern.mem = true) : EndsOk (execXori x s) := by
  unfold execXori
  exact ends_answer (wf_issuePlain h)

theorem ends_execShli {x : IForm} {s : State} (h : Memory.wf s.kern.mem = true) : EndsOk (execShli x s) := by
  unfold execShli
  exact ends_answer (wf_issuePlain h)

theorem ends_execShri {x : IForm} {s : State} (h : Memory.wf s.kern.mem = true) : EndsOk (execShri x s) := by
  unfold execShri
  exact ends_answer (wf_issuePlain h)

theorem ends_execSari {x : IForm} {s : State} (h : Memory.wf s.kern.mem = true) : EndsOk (execSari x s) := by
  unfold execSari
  exact ends_answer (wf_issuePlain h)

theorem ends_execMovi {x : IForm} {s : State} (h : Memory.wf s.kern.mem = true) : EndsOk (execMovi x s) := by
  unfold execMovi
  exact ends_answer (wf_issuePlain h)

theorem ends_execCmpi {x : IForm} {s : State} (h : Memory.wf s.kern.mem = true) : EndsOk (execCmpi x s) := by
  unfold execCmpi
  exact ends_answer (wf_issuePlain h)

theorem ends_execAnd {x : RForm} {s : State} (h : Memory.wf s.kern.mem = true) : EndsOk (execAnd x s) := by
  unfold execAnd
  exact ends_answer (wf_issuePlain h)

theorem ends_execOr {x : RForm} {s : State} (h : Memory.wf s.kern.mem = true) : EndsOk (execOr x s) := by
  unfold execOr
  exact ends_answer (wf_issuePlain h)

theorem ends_execXor {x : RForm} {s : State} (h : Memory.wf s.kern.mem = true) : EndsOk (execXor x s) := by
  unfold execXor
  exact ends_answer (wf_issuePlain h)

theorem ends_execNot {x : RForm} {s : State} (h : Memory.wf s.kern.mem = true) : EndsOk (execNot x s) := by
  unfold execNot
  exact ends_answer (wf_issuePlain h)

theorem ends_execShl {x : RForm} {s : State} (h : Memory.wf s.kern.mem = true) : EndsOk (execShl x s) := by
  unfold execShl
  exact ends_answer (wf_issuePlain h)

theorem ends_execShr {x : RForm} {s : State} (h : Memory.wf s.kern.mem = true) : EndsOk (execShr x s) := by
  unfold execShr
  exact ends_answer (wf_issuePlain h)

theorem ends_execSar {x : RForm} {s : State} (h : Memory.wf s.kern.mem = true) : EndsOk (execSar x s) := by
  unfold execSar
  exact ends_answer (wf_issuePlain h)

theorem ends_execRot {x : RForm} {s : State} (h : Memory.wf s.kern.mem = true) : EndsOk (execRot x s) := by
  unfold execRot
  exact ends_answer (wf_issuePlain h)

theorem ends_execPopc {x : RForm} {s : State} (h : Memory.wf s.kern.mem = true) : EndsOk (execPopc x s) := by
  unfold execPopc
  exact ends_answer (wf_issuePlain h)

theorem ends_execClz {x : RForm} {s : State} (h : Memory.wf s.kern.mem = true) : EndsOk (execClz x s) := by
  unfold execClz
  exact ends_answer (wf_issuePlain h)

theorem ends_execBfx {x : RForm} {s : State} (h : Memory.wf s.kern.mem = true) : EndsOk (execBfx x s) := by
  unfold execBfx
  exact ends_answer (wf_issuePlain h)

theorem ends_execBfi {x : RForm} {s : State} (h : Memory.wf s.kern.mem = true) : EndsOk (execBfi x s) := by
  unfold execBfi
  exact ends_answer (wf_issuePlain h)

theorem ends_execSel {x : RForm} {s : State} (h : Memory.wf s.kern.mem = true) : EndsOk (execSel x s) := by
  unfold execSel
  exact ends_answer (wf_issuePlain h)

theorem ends_execCmp {x : RForm} {s : State} (h : Memory.wf s.kern.mem = true) : EndsOk (execCmp x s) := by
  unfold execCmp
  exact ends_answer (wf_issuePlain h)

theorem ends_execMov {x : RForm} {s : State} (h : Memory.wf s.kern.mem = true) : EndsOk (execMov x s) := by
  unfold execMov
  exact ends_answer (wf_issuePlain h)

theorem ends_execLea {x : RForm} {s : State} (h : Memory.wf s.kern.mem = true) : EndsOk (execLea x s) := by
  unfold execLea
  exact ends_answer (wf_issuePlain h)

/-! ## Packed pairs (R121) -/

theorem ends_execFadd {x : RForm} {s : State} (h : Memory.wf s.kern.mem = true) : EndsOk (execFadd x s) := by
  unfold execFadd
  exact ends_answer (wf_issuePlain h)

theorem ends_execFsub {x : RForm} {s : State} (h : Memory.wf s.kern.mem = true) : EndsOk (execFsub x s) := by
  unfold execFsub
  exact ends_answer (wf_issuePlain h)

theorem ends_execFmul {x : RForm} {s : State} (h : Memory.wf s.kern.mem = true) : EndsOk (execFmul x s) := by
  unfold execFmul
  exact ends_answer (wf_issuePlain h)

theorem ends_execFma {x : RForm} {s : State} (h : Memory.wf s.kern.mem = true) : EndsOk (execFma x s) := by
  unfold execFma
  exact ends_answer (wf_issuePlain h)

theorem ends_execFdiv {x : RForm} {s : State} (h : Memory.wf s.kern.mem = true) : EndsOk (execFdiv x s) := by
  unfold execFdiv
  exact ends_answer (wf_issueHeld h)

theorem ends_execFsqrt {x : RForm} {s : State} (h : Memory.wf s.kern.mem = true) : EndsOk (execFsqrt x s) := by
  unfold execFsqrt
  exact ends_answer (wf_issueHeld h)

theorem ends_execFmin {x : RForm} {s : State} (h : Memory.wf s.kern.mem = true) : EndsOk (execFmin x s) := by
  unfold execFmin
  exact ends_answer (wf_issuePlain h)

theorem ends_execFmax {x : RForm} {s : State} (h : Memory.wf s.kern.mem = true) : EndsOk (execFmax x s) := by
  unfold execFmax
  exact ends_answer (wf_issuePlain h)

theorem ends_execFcmp {x : RForm} {s : State} (h : Memory.wf s.kern.mem = true) : EndsOk (execFcmp x s) := by
  unfold execFcmp
  exact ends_answer (wf_issuePlain h)

theorem ends_execFclass {x : RForm} {s : State} (h : Memory.wf s.kern.mem = true) : EndsOk (execFclass x s) := by
  unfold execFclass
  exact ends_answer (wf_issuePlain h)

theorem ends_execFrcp {x : RForm} {s : State} (h : Memory.wf s.kern.mem = true) : EndsOk (execFrcp x s) := by
  unfold execFrcp
  exact ends_answer (wf_issuePlain h)

theorem ends_execFrsq {x : RForm} {s : State} (h : Memory.wf s.kern.mem = true) : EndsOk (execFrsq x s) := by
  unfold execFrsq
  exact ends_answer (wf_issuePlain h)

theorem ends_execCvt {src : Ty} {x : RForm} {s : State} (h : Memory.wf s.kern.mem = true) : EndsOk (execCvt src x s) := by
  unfold execCvt
  exact ends_answer (wf_issuePlain h)

theorem ends_execFrnd {x : RForm} {s : State} (h : Memory.wf s.kern.mem = true) : EndsOk (execFrnd x s) := by
  unfold execFrnd
  exact ends_answer (wf_issuePlain h)

theorem ends_execFsgn {x : RForm} {s : State} (h : Memory.wf s.kern.mem = true) : EndsOk (execFsgn x s) := by
  unfold execFsgn
  exact ends_answer (wf_issuePlain h)

/-! ## Participants (R131) -/

theorem ends_execPlog {x : RForm} {s : State} (h : Memory.wf s.kern.mem = true) : EndsOk (execPlog x s) := by
  unfold execPlog
  exact ends_answer (wf_issuePlain h)

theorem ends_execPset {x : RForm} {s : State} (h : Memory.wf s.kern.mem = true) : EndsOk (execPset x s) := by
  unfold execPset
  exact ends_answer (wf_issuePlain h)

theorem ends_execShfl {x : RForm} {s : State} (h : Memory.wf s.kern.mem = true) : EndsOk (execShfl x s) := by
  unfold execShfl
  exact ends_answer (wf_issuePlain h)

theorem ends_execVote {x : RForm} {s : State} (h : Memory.wf s.kern.mem = true) : EndsOk (execVote x s) := by
  unfold execVote
  exact ends_answer (wf_issuePlain h)

theorem ends_execGred {x : RForm} {s : State} (h : Memory.wf s.kern.mem = true) : EndsOk (execGred x s) := by
  unfold execGred
  exact ends_answer (wf_issueHeld h)

theorem ends_execBcast {x : RForm} {s : State} (h : Memory.wf s.kern.mem = true) : EndsOk (execBcast x s) := by
  unfold execBcast
  exact ends_answer (wf_issuePlain h)

theorem ends_execGscan {x : RForm} {s : State} (h : Memory.wf s.kern.mem = true) : EndsOk (execGscan x s) := by
  unfold execGscan
  exact ends_answer (wf_issueHeld h)

theorem ends_execLmask {x : RForm} {s : State} (h : Memory.wf s.kern.mem = true) : EndsOk (execLmask x s) := by
  unfold execLmask
  exact ends_answer (wf_issuePlain h)

theorem ends_execBra {x : BForm} {s : State} (h : Memory.wf s.kern.mem = true) : EndsOk (execBra x s) := by
  unfold execBra
  apply ends_answer
  apply wf_issueEach
  · intro k a a1 h1
    rw [goDirect_mem]
    · exact h1
    · dsimp only
  · exact h

theorem ends_execJmpi {x : BForm} {s : State} (h : Memory.wf s.kern.mem = true) : EndsOk (execJmpi x s) := by
  unfold execJmpi
  apply ends_answer
  apply wf_issueEach
  · intro k a a1 h1
    rw [goIndirect_mem]
    · exact h1
    · dsimp only
  · exact h

theorem ends_execCall {x : BForm} {s : State} (h : Memory.wf s.kern.mem = true) : EndsOk (execCall x s) := by
  unfold execCall
  apply ends_answer
  apply wf_issueEach
  · intro k a a1 h1
    rw [goDirect_mem]
    · exact h1
    · rw [linked_mem]
  · exact h

theorem ends_execCalli {x : BForm} {s : State} (h : Memory.wf s.kern.mem = true) : EndsOk (execCalli x s) := by
  unfold execCalli
  apply ends_answer
  apply wf_issueEach
  · intro k a a1 h1
    rw [goIndirect_mem]
    · exact h1
    · rw [linked_mem]
  · exact h

theorem ends_execRet {x : BForm} {s : State} (h : Memory.wf s.kern.mem = true) : EndsOk (execRet x s) := by
  unfold execRet
  apply ends_answer
  apply wf_issueEach
  · intro k a a1 h1
    rw [goIndirect_mem]
    · exact h1
    · dsimp only
  · exact h

theorem ends_execExit {x : BForm} {s : State} (h : Memory.wf s.kern.mem = true) : EndsOk (execExit x s) := by
  unfold execExit
  apply ends_answer
  apply wf_issueEach
  · intro k a a1 h1
    split
    · dsimp only
      rw [standDown_mem]
      exact h1
    · exact wf_exitThread h1
  · exact h

theorem wf_unlessTrapState {s : State} {body : Kern → Thread → List Reg → Kern × Course} {k : Kern} {t : Thread} {d : List Reg}
    (hbody : ∀ k t d, Memory.wf k.mem = true → Memory.wf (body k t d).1.mem = true) (h : Memory.wf k.mem = true) :
    Memory.wf (unlessTrapState s body k t d).1.mem = true := by
  unfold unlessTrapState
  split
  · exact wf_doubleTrap h
  · exact hbody k t d h

/-! ## The instructions -/

theorem ends_execMeet {x : SForm} {s : State} (h : Memory.wf s.kern.mem = true) : EndsOk (execMeet x s) := by
  unfold execMeet
  apply ends_answer
  apply wf_issueEach
  · intro k a a1 h1
    apply wf_unlessTrapState
    · intro k1 a2 a3 h2
      rw [meetBody_mem]
      exact h2
    · exact h1
  · exact h

theorem ends_execPeg {x : SForm} {s : State} (h : Memory.wf s.kern.mem = true) : EndsOk (execPeg x s) := by
  unfold execPeg
  apply ends_answer
  apply wf_issueEach
  · intro k a a1 h1
    apply wf_unlessTrapState
    · intro k1 a2 a3 h2
      rw [signBody_mem]
      exact h2
    · exact h1
  · exact h

theorem ends_execPegDef {x : SForm} {s : State} (h : Memory.wf s.kern.mem = true) : EndsOk (execPegDef x s) := by
  unfold execPegDef
  apply ends_answer
  apply wf_issueEach
  · intro k a a1 h1
    apply wf_unlessTrapState
    · intro k1 a2 a3 h2
      rw [pegDefBody_mem]
      exact h2
    · exact h1
  · exact h

theorem ends_execBar {x : SForm} {s : State} (h : Memory.wf s.kern.mem = true) : EndsOk (execBar x s) := by
  unfold execBar
  apply ends_answer
  apply wf_issueEach
  · intro k a a1 h1
    apply wf_unlessTrapState
    · intro k1 a2 a3 h2
      rw [barBody_mem]
      exact h2
    · exact h1
  · exact h

theorem ends_execBararr {x : SForm} {s : State} (h : Memory.wf s.kern.mem = true) : EndsOk (execBararr x s) := by
  unfold execBararr
  apply ends_answer
  apply wf_issueEach
  · intro k a a1 h1
    apply wf_unlessTrapState
    · intro k1 a2 a3 h2
      rw [barArriveBody_mem]
      exact h2
    · exact h1
  · exact h

theorem ends_execBarwt {x : SForm} {s : State} (h : Memory.wf s.kern.mem = true) : EndsOk (execBarwt x s) := by
  unfold execBarwt
  apply ends_answer
  apply wf_issueEach
  · intro k a a1 h1
    apply wf_unlessTrapState
    · intro k1 a2 a3 h2
      rw [barWaitBody_mem]
      exact h2
    · exact h1
  · exact h

theorem ends_execYield {x : SForm} {s : State} (h : Memory.wf s.kern.mem = true) : EndsOk (execYield x s) := by
  unfold execYield
  dsimp only
  apply ends_answer
  apply wf_issueEach
  · intro k a a1 h1
    split <;> exact h1
  · exact h

theorem ends_execPostCore {x : SForm} {s : State} (h : Memory.wf s.kern.mem = true) : EndsOk (execPostCore x s) := by
  unfold execPostCore
  dsimp only
  apply ends_answer
  apply wf_issueEach
  · intro k a a1 h1
    rw [postBody_mem]
    · exact h1
    · intro k1 a2
      rw [pushCore_mem]
  · exact h

theorem ends_execPostNbr {x : SForm} {s : State} (h : Memory.wf s.kern.mem = true) : EndsOk (execPostNbr x s) := by
  unfold execPostNbr
  dsimp only
  apply ends_answer
  apply wf_issueEach
  · intro k a a1 h1
    rw [postBody_mem]
    · exact h1
    · intro k1 a2
      rw [pushCore_mem]
  · exact h

theorem ends_execPostBay {x : SForm} {s : State} (h : Memory.wf s.kern.mem = true) : EndsOk (execPostBay x s) := by
  unfold execPostBay
  dsimp only
  apply ends_answer
  apply wf_issueEach
  · intro k a a1 h1
    rw [postBody_mem]
    · exact h1
    · intro k1 a2
      rw [pushBay_mem]
  · exact h

/-! ## STEP and SETTLE (R221, R224, R294) -/

theorem wf_roster {k : Kern} {c : Nat} {t : Thread} {mask next : Nat} (h : Memory.wf k.mem = true) :
    Memory.wf (roster k c t mask next).1.mem = true := by
  unfold roster
  split
  · exact h
  · split
    · exact h
    · split
      · exact h
      · split
        · exact h
        · dsimp only
          apply wf_rotateCell
          exact h

theorem wf_stepBody {s : State} {release : Bool} {end_ : Kern → Nat → Nat → Kern} {after : Kern → Kern} {k : Kern} {t : Thread}
    (h : Memory.wf k.mem = true)
    (hend_ : ∀ (k : Kern) (n n1 : Nat), Memory.wf k.mem = true → Memory.wf (end_ k n n1).mem = true)
    (hafter : ∀ (k : Kern), Memory.wf k.mem = true → Memory.wf (after k).mem = true) :
    Memory.wf (stepBody s release end_ after k t).1.mem = true := by
  unfold stepBody
  dsimp only
  split
  · exact h
  · split
    · split
      · exact wf_of_fst ‹_› (wf_safePoint h)
      · rw [illegalHere_mem]
        exact wf_of_fst ‹_› (wf_safePoint h)
      · apply wf_roster
        apply hafter
        apply wf_publish
        apply hend_
        split
        · rw [drainWhere_mem]
          exact wf_of_fst ‹_› (wf_safePoint h)
        · exact wf_of_fst ‹_› (wf_safePoint h)
    · dsimp only
      apply hafter
      apply wf_publish
      apply hend_
      split <;> exact h

/-! ## The instructions -/

theorem ends_execFwr {x : RForm} {s : State} (h : Memory.wf s.kern.mem = true) : EndsOk (execFwr x s) := by
  unfold execFwr
  exact ends_answer (wf_issueEach (fun _ _ _ h1 => h1) h)

theorem ends_execStep {x : SForm} {s : State} (h : Memory.wf s.kern.mem = true) : EndsOk (execStep x s) := by
  unfold execStep
  apply ends_answer
  apply wf_issueEach
  · intro k a a1 h1
    apply wf_unlessTrapState
    · intro k1 a2 a3 h2
      apply wf_stepBody
      · exact h2
      · intro k2 a4 a5 h3
        rw [endStep_mem]
        exact h3
      · exact fun _ h3 => h3
    · exact h1
  · exact h

theorem ends_execStepR {x : SForm} {s : State} (h : Memory.wf s.kern.mem = true) : EndsOk (execStepR x s) := by
  unfold execStepR
  apply ends_answer
  apply wf_issueEach
  · intro k a a1 h1
    apply wf_unlessTrapState
    · intro k1 a2 a3 h2
      apply wf_stepBody
      · exact h2
      · intro k2 a4 a5 h3
        rw [endStep_mem]
        exact h3
      · exact fun _ h3 => h3
    · exact h1
  · exact h

theorem ends_execNq {x : RForm} {s : State} (h : Memory.wf s.kern.mem = true) : EndsOk (execNq x s) := by
  unfold execNq
  exact ends_answer (wf_issuePlain h)

theorem ends_execSettle {x : SForm} {s : State} (h : Memory.wf s.kern.mem = true) : EndsOk (execSettle x s) := by
  unfold execSettle
  dsimp only
  apply ends_answer
  apply wf_issueEach
  · intro k a a1 h1
    apply wf_unlessTrapState
    · intro k1 a2 a3 h2
      apply wf_stepBody
      · exact h2
      · intro k2 a4 a5 h3
        rw [endSettle_mem]
        exact h3
      · exact fun _ h3 => h3
    · exact h1
  · exact h

theorem ends_execResid {x : RForm} {s : State} (h : Memory.wf s.kern.mem = true) : EndsOk (execResid x s) := by
  unfold execResid
  apply ends_answer
  apply wf_issueEach
  · intro k a a1 h1
    rw [residBody_mem]
    exact h1
  · exact h

theorem ends_execStest {x : RForm} {s : State} (h : Memory.wf s.kern.mem = true) : EndsOk (execStest x s) := by
  unfold execStest
  apply ends_answer
  apply wf_issueEach
  · intro k a a1 h1
    rw [stestBody_mem]
    exact h1
  · exact h

/-! ## The checks of an access at issue (R151, R152) -/

theorem wf_checkAccess {s : State} {k : Kern} {t : Thread} {x : MForm} {useIdx : Bool} {size need : Nat} {touch : Touch}
    (h : Memory.wf k.mem = true) : Memory.wf (checkAccess s k t x useIdx size need touch).1.mem = true := by
  unfold checkAccess
  dsimp only
  split
  · exact h
  · exact h
  · split
    · exact wf_of_fst ‹_› (wf_detect h)
    · split <;> exact wf_of_fst ‹_› (wf_detect h)

theorem wf_zeroInvalid {k : Kern} {c : Nat} {b : Option Block} {p : Spot} {size : Nat} (h : Memory.wf k.mem = true) :
    Memory.wf (zeroInvalid k c b p size).mem = true := by
  unfold zeroInvalid
  split
  · exact h
  · split
    · exact h
    · refine foldl_wf ?_ _ ?_
      · intro k1 a h1
        split
        · exact h1
        · exact wf_putBytes _ _ h1
      · exact h

/-! ## Loads (R158) -/

theorem wf_loadBody {s : State} {x : MForm} {size : Nat} {k : Kern} {t : Thread} {dst : List Reg} (h : Memory.wf k.mem = true) :
    Memory.wf (loadBody s x size k t dst).1.mem = true := by
  unfold loadBody
  dsimp only
  split
  · exact wf_of_fst ‹_› (wf_checkAccess h)
  · split
    · split
      · exact wf_readTrap (wf_of_fst ‹_› (wf_checkAccess h))
      · dsimp only
        rw [sendReq_mem, holdResult_mem]
        exact wf_of_fst ‹_› (wf_checkAccess h)
    · split
      · exact wf_of_fst ‹_› (wf_readTrap (wf_of_fst ‹_› (wf_checkAccess h)))
      · dsimp only
        rw [deliverNow_mem]
        split
        · rw [dropLines_mem]
          exact wf_of_fst ‹_› (wf_readTrap (wf_of_fst ‹_› (wf_checkAccess h)))
        · exact wf_of_fst ‹_› (wf_readTrap (wf_of_fst ‹_› (wf_checkAccess h)))

/-! ## Stores (R158) -/

theorem wf_storeBody {s : State} {x : MForm} {size : Nat} {k : Kern} {t : Thread} (h : Memory.wf k.mem = true) :
    Memory.wf (storeBody s x size k t).1.mem = true := by
  unfold storeBody
  dsimp only
  split
  · exact wf_of_fst ‹_› (wf_checkAccess h)
  · split
    · split
      · dsimp only
        rw [combineStore_mem]
        exact wf_of_fst ‹_› (wf_checkAccess h)
      · dsimp only
        rw [sendReq_mem]
        exact wf_of_fst ‹_› (wf_checkAccess h)
    · dsimp only
      rw [touchSpot_mem]
      exact wf_putRuns (wf_zeroInvalid (wf_of_fst ‹_› (wf_checkAccess h)))

/-! ## Atomics (R160 to R166) -/

theorem wf_atomicBody {s : State} {x : MForm} {useIdx : Bool} {kind : ReqKind} {data cmp : Nat} {returns : Bool} {k : Kern}
    {t : Thread} {dst : List Reg} (h : Memory.wf k.mem = true) :
    Memory.wf (atomicBody s x useIdx kind data cmp returns k t dst).1.mem = true := by
  unfold atomicBody
  dsimp only
  split
  · exact wf_of_fst ‹_› (wf_checkAccess h)
  · split
    · split
      · exact wf_readTrap (wf_of_fst ‹_› (wf_checkAccess h))
      · split
        · dsimp only
          rw [sendReq_mem, holdResult_mem]
          exact wf_of_fst ‹_› (wf_checkAccess h)
        · dsimp only
          rw [sendReq_mem]
          exact wf_of_fst ‹_› (wf_checkAccess h)
    · split
      · exact wf_readTrap (wf_of_fst ‹_› (wf_checkAccess h))
      · dsimp only
        split
        · rw [deliverNow_mem]
          split
          · rw [dropLines_mem, touchSpot_mem]
            exact wf_of_fst ‹_› (wf_performAtomic (wf_zeroInvalid (wf_of_fst ‹_› (wf_checkAccess h))))
          · rw [touchSpot_mem]
            exact wf_of_fst ‹_› (wf_performAtomic (wf_zeroInvalid (wf_of_fst ‹_› (wf_checkAccess h))))
        · split
          · rw [dropLines_mem, touchSpot_mem]
            exact wf_of_fst ‹_› (wf_performAtomic (wf_zeroInvalid (wf_of_fst ‹_› (wf_checkAccess h))))
          · rw [touchSpot_mem]
            exact wf_of_fst ‹_› (wf_performAtomic (wf_zeroInvalid (wf_of_fst ‹_› (wf_checkAccess h))))

/-! ## The instructions -/

theorem ends_execLd {x : MForm} {s : State} (h : Memory.wf s.kern.mem = true) : EndsOk (execLd x s) := by
  unfold execLd
  exact ends_answer (wf_issueEach (fun _ _ _ h1 => wf_loadBody h1) h)

theorem ends_execSt {x : MForm} {s : State} (h : Memory.wf s.kern.mem = true) : EndsOk (execSt x s) := by
  unfold execSt
  exact ends_answer (wf_issueEach (fun _ _ _ h1 => wf_storeBody h1) h)

theorem ends_execLdx {n : XCount} {x : MForm} {s : State} (h : Memory.wf s.kern.mem = true) : EndsOk (execLdx n x s) := by
  unfold execLdx
  exact ends_answer (wf_issueEach (fun _ _ _ h1 => wf_loadBody h1) h)

theorem ends_execStx {n : XCount} {x : MForm} {s : State} (h : Memory.wf s.kern.mem = true) : EndsOk (execStx n x s) := by
  unfold execStx
  exact ends_answer (wf_issueEach (fun _ _ _ h1 => wf_storeBody h1) h)

theorem ends_execAtom {op : AtomOp} {x : MForm} {s : State} (h : Memory.wf s.kern.mem = true) : EndsOk (execAtom op x s) := by
  unfold execAtom
  exact ends_answer (wf_issueEach (fun _ _ _ h1 => wf_atomicBody h1) h)

theorem ends_execRed {op : AtomOp} {x : MForm} {s : State} (h : Memory.wf s.kern.mem = true) : EndsOk (execRed op x s) := by
  unfold execRed
  exact ends_answer (wf_issueEach (fun _ _ _ h1 => wf_atomicBody h1) h)

theorem ends_execCas {x : MForm} {s : State} (h : Memory.wf s.kern.mem = true) : EndsOk (execCas x s) := by
  unfold execCas
  exact ends_answer (wf_issueEach (fun _ _ _ h1 => wf_atomicBody h1) h)

theorem ends_execFence {x : MForm} {s : State} (h : Memory.wf s.kern.mem = true) : EndsOk (execFence x s) := by
  unfold execFence
  apply ends_answer
  apply wf_issueEach
  · intro k a a1 h1
    dsimp only
    split <;> exact h1
  · exact h

theorem ends_execLcinv {x : MForm} {s : State} (h : Memory.wf s.kern.mem = true) : EndsOk (execLcinv x s) := by
  unfold execLcinv
  apply ends_answer
  apply wf_issueEach
  · intro k a a1 h1
    rw [lineForm_mem]
    · exact h1
    · intro k1 a2 a3 a4
      rw [dropLine_mem]
  · exact h

theorem ends_execLcinvAll {x : MForm} {s : State} (h : Memory.wf s.kern.mem = true) : EndsOk (execLcinvAll x s) := by
  unfold execLcinvAll
  exact ends_answer (wf_issueEach (fun _ _ _ h1 => h1) h)

theorem ends_execWcdrain {x : MForm} {s : State} (h : Memory.wf s.kern.mem = true) : EndsOk (execWcdrain x s) := by
  unfold execWcdrain
  apply ends_answer
  apply wf_issueEach
  · intro k a a1 h1
    rw [lineForm_mem]
    · exact h1
    · intro k1 a2 a3 a4
      rw [drainWhere_mem]
  · exact h

theorem ends_execWcdrainAll {x : MForm} {s : State} (h : Memory.wf s.kern.mem = true) : EndsOk (execWcdrainAll x s) := by
  unfold execWcdrainAll
  exact ends_answer (wf_issueEach (fun _ _ _ h1 => h1) h)

theorem ends_execValidSet {x : MForm} {s : State} (h : Memory.wf s.kern.mem = true) : EndsOk (execValidSet x s) := by
  unfold execValidSet
  apply ends_answer
  apply wf_issueEach
  · intro k a a1 h1
    rw [validBody_mem]
    exact h1
  · exact h

theorem ends_execValidClr {x : MForm} {s : State} (h : Memory.wf s.kern.mem = true) : EndsOk (execValidClr x s) := by
  unfold execValidClr
  apply ends_answer
  apply wf_issueEach
  · intro k a a1 h1
    rw [validBody_mem]
    exact h1
  · exact h

theorem ends_execValidGet {x : MForm} {s : State} (h : Memory.wf s.kern.mem = true) : EndsOk (execValidGet x s) := by
  unfold execValidGet
  apply ends_answer
  apply wf_issueEach
  · intro k a a1 h1
    rw [validGetBody_mem]
    exact h1
  · exact h

theorem ends_execPref {x : MForm} {s : State} (h : Memory.wf s.kern.mem = true) : EndsOk (execPref x s) := by
  unfold execPref
  apply ends_answer
  apply wf_issueEach
  · intro k a a1 h1
    dsimp only
    rw [prefetch_mem]
    exact h1
  · exact h

theorem ends_execCapder {x : RForm} {s : State} (h : Memory.wf s.kern.mem = true) : EndsOk (execCapder x s) := by
  unfold execCapder
  apply ends_answer
  apply wf_issueEach
  · intro k a a1 h1
    rw [capBody_mem]
    exact h1
  · exact h

theorem ends_execCapadd {x : RForm} {s : State} (h : Memory.wf s.kern.mem = true) : EndsOk (execCapadd x s) := by
  unfold execCapadd
  apply ends_answer
  apply wf_issueEach
  · intro k a a1 h1
    rw [capBody_mem]
    exact h1
  · exact h

theorem ends_execCapq {x : RForm} {s : State} (h : Memory.wf s.kern.mem = true) : EndsOk (execCapq x s) := by
  unfold execCapq
  exact ends_answer (wf_issuePlain h)

/-! ## Acceptance (R177, R184, R196) -/

theorem wf_readPredicate {k : Kern} {c : Nat} {t : Thread} {d : Desc} (h : Memory.wf k.mem = true) :
    Memory.wf (readPredicate k c t d).1.mem = true := by
  unfold readPredicate
  split
  · split
    · split <;> exact wf_of_fst ‹_› (wf_readRuns h)
    · exact h
  · exact h

theorem wf_acceptCopy {k : Kern} {c : Nat} {t : Thread} {x : MForm} {base : Nat} {ds : List W32} {pc : W64} {w : Wanted}
    (h : Memory.wf k.mem = true) : Memory.wf (acceptCopy k c t x base ds pc w).mem = true := by
  unfold acceptCopy
  dsimp only
  split
  · rw [arriveHeld_mem]
    exact h
  · split
    · rw [arriveHeld_mem]
      refine wf_of_fst ‹_› ?_
      apply wf_readPredicate
      exact h
    · rw [drainWhere_mem]
      rw [modCore_mem]
      dsimp only
      refine wf_of_fst ‹_› ?_
      apply wf_readPredicate
      exact h

theorem wf_copyBody {s : State} {x : MForm} {k : Kern} {t : Thread} (h : Memory.wf k.mem = true) :
    Memory.wf (copyBody s x k t).1.mem = true := by
  unfold copyBody
  dsimp only
  split
  · exact h
  · split
    · exact h
    · split
      · exact wf_acceptCopy h
      · exact h

/-! ## COPYQ (R186, R188) -/

theorem wf_copyqBody {s : State} {x : MForm} {k : Kern} {t : Thread} {dst : List Reg} (h : Memory.wf k.mem = true) :
    Memory.wf (copyqBody s x k t dst).1.mem = true := by
  unfold copyqBody
  dsimp only
  split
  · exact h
  · exact h
  · exact h
  · split
    · exact h
    · exact h
    · split
      · split
        · exact wf_of_fst ‹_› (wf_readTrap h)
        · rw [claimFar_mem]
          exact wf_of_fst ‹_› (wf_readTrap h)
      · split
        · exact wf_of_fst ‹_› (wf_readTrap h)
        · split
          · exact wf_of_fst ‹_› (wf_readTrap h)
          · split
            · exact wf_of_fst ‹_› (wf_readTrap (wf_of_fst ‹_› (wf_readTrap h)))
            · dsimp only
              rw [writeRegs_mem, queueSlot_mem, dropLine_mem, registerQueue_mem]
              refine wf_putBytes _ _ ?_
              rw [takeTokens_mem]
              exact wf_of_fst ‹_› (wf_readTrap (wf_of_fst ‹_› (wf_readTrap h)))

/-! ## The instructions -/

theorem ends_execCopy {x : MForm} {s : State} (h : Memory.wf s.kern.mem = true) : EndsOk (execCopy x s) := by
  unfold execCopy
  exact ends_answer (wf_issueEach (fun _ _ _ h1 => wf_copyBody h1) h)

theorem ends_execCopyq {x : MForm} {s : State} (h : Memory.wf s.kern.mem = true) : EndsOk (execCopyq x s) := by
  unfold execCopyq
  exact ends_answer (wf_issueEach (fun _ _ _ h1 => wf_copyqBody h1) h)

theorem ends_execTlwait {x : SForm} {s : State} (h : Memory.wf s.kern.mem = true) : EndsOk (execTlwait x s) := by
  unfold execTlwait
  apply ends_answer
  apply wf_issueEach
  · intro k a a1 h1
    rw [tlwaitBody_mem]
    exact h1
  · exact h

theorem ends_execTlrd {x : SForm} {s : State} (h : Memory.wf s.kern.mem = true) : EndsOk (execTlrd x s) := by
  unfold execTlrd
  apply ends_answer
  apply wf_issueEach
  · intro k a a1 h1
    rw [tlrdBody_mem]
    exact h1
  · exact h

theorem ends_execTlrdIssued {x : SForm} {s : State} (h : Memory.wf s.kern.mem = true) : EndsOk (execTlrdIssued x s) := by
  unfold execTlrdIssued
  apply ends_answer
  apply wf_issueEach
  · intro k a a1 h1
    rw [tlrdIssuedBody_mem]
    exact h1
  · exact h

/-! ## The instructions (R218, R219) -/

theorem ends_execQmul {x : RForm} {s : State} (h : Memory.wf s.kern.mem = true) : EndsOk (execQmul x s) := by
  unfold execQmul
  exact ends_answer (wf_issuePlain h)

theorem ends_execQconj {x : RForm} {s : State} (h : Memory.wf s.kern.mem = true) : EndsOk (execQconj x s) := by
  unfold execQconj
  exact ends_answer (wf_issuePlain h)

theorem ends_execQnorm {x : RForm} {s : State} (h : Memory.wf s.kern.mem = true) : EndsOk (execQnorm x s) := by
  unfold execQnorm
  exact ends_answer (wf_issuePlain h)

/-! ## Places of entry-once instructions (R200, R201, R306) -/

theorem wf_openPlace {s : State} {k : Kern} {t : Thread} {place size algn need : Nat} {touch : Touch}
    (h : Memory.wf k.mem = true) : Memory.wf (openPlace s k t place size algn need touch).1.mem = true := by
  unfold openPlace
  dsimp only
  split
  · exact h
  · split
    · exact h
    · split
      · exact wf_of_fst ‹_› (wf_detect h)
      · split <;> exact wf_of_fst ‹_› (wf_detect h)

theorem wf_readPlace {s : State} {k : Kern} {t : Thread} {place n : Nat} (h : Memory.wf k.mem = true) :
    Memory.wf (readPlace s k t place n).1.mem = true := by
  unfold readPlace
  dsimp only
  split
  · exact wf_of_fst ‹_› (wf_openPlace h)
  · split
    · exact wf_of_fst ‹_› (wf_readTrap (wf_of_fst ‹_› (wf_openPlace h)))
    · dsimp only
      rw [passLines_mem, paySpot_mem]
      exact wf_of_fst ‹_› (wf_readTrap (wf_of_fst ‹_› (wf_openPlace h)))

theorem wf_writePlace {s : State} {k : Kern} {t : Thread} {place : Nat} {bs : List Byte} (h : Memory.wf k.mem = true) :
    Memory.wf (writePlace s k t place bs).1.mem = true := by
  unfold writePlace
  dsimp only
  split
  · exact wf_of_fst ‹_› (wf_openPlace h)
  · dsimp only
    split
    · rw [storeLines_mem, touchSpot_mem]
      apply wf_putRuns
      rw [paySpot_mem]
      exact wf_of_fst ‹_› (wf_openPlace h)
    · rw [touchSpot_mem]
      apply wf_putRuns
      rw [paySpot_mem]
      exact wf_of_fst ‹_› (wf_openPlace h)

/-! ## Jigs (R203 to R205) -/

theorem wf_jigBody {s : State} {x : XForm} {k : Kern} {t : Thread} (h : Memory.wf k.mem = true) :
    Memory.wf (jigBody s x k t).1.mem = true := by
  unfold jigBody
  dsimp only
  split
  · exact wf_of_fst ‹_› (wf_readPlace h)
  · split
    · split
      · exact wf_of_fst ‹_› (wf_readPlace h)
      · split
        · exact wf_of_fst ‹_› (wf_readPlace h)
        · dsimp only
          rw [modJig_mem]
          exact wf_of_fst ‹_› (wf_readPlace h)
    · exact wf_of_fst ‹_› (wf_readPlace h)

theorem wf_jigStoreBody {s : State} {x : XForm} {k : Kern} {t : Thread} (h : Memory.wf k.mem = true) :
    Memory.wf (jigStoreBody s x k t).1.mem = true := by
  unfold jigStoreBody
  split
  · exact h
  · exact wf_writePlace h

theorem wf_jigLoadBody {s : State} {x : XForm} {k : Kern} {t : Thread} (h : Memory.wf k.mem = true) :
    Memory.wf (jigLoadBody s x k t).1.mem = true := by
  unfold jigLoadBody
  dsimp only
  split
  · exact wf_of_fst ‹_› (wf_readPlace h)
  · split
    · split
      · exact wf_of_fst ‹_› (wf_readPlace h)
      · split
        · dsimp only
          rw [modJig_mem]
          exact wf_of_fst ‹_› (wf_readPlace h)
        · split
          · exact wf_of_fst ‹_› (wf_readPlace h)
          · split
            · exact wf_of_fst ‹_› (wf_readPlace h)
            · dsimp only
              rw [modJig_mem]
              exact wf_of_fst ‹_› (wf_readPlace h)
    · exact wf_of_fst ‹_› (wf_readPlace h)

/-! ## Accumulators (R209, R214 to R217) -/

theorem wf_withAcc {k : Kern} {c : Nat} {t : Thread} {x : XForm} {f : Acc → Kern × Course}
    (hf : ∀ a, Memory.wf (f a).1.mem = true) (h : Memory.wf k.mem = true) : Memory.wf (withAcc k c t x f).1.mem = true := by
  unfold withAcc
  split
  · exact h
  · split
    · exact hf _
    · exact h

theorem wf_accLoadBody {s : State} {x : XForm} {k : Kern} {t : Thread} (h : Memory.wf k.mem = true) :
    Memory.wf (accLoadBody s x k t).1.mem = true := by
  refine wf_withAcc (fun a => ?_) h
  have hread : Memory.wf (readPlace s k t (readPair s.kern s.cur.core t x.d) 32832).1.mem = true := wf_readPlace h
  split
  · exact wf_of_fst ‹_› hread
  · have hk := wf_of_fst ‹_› hread
    split
    · exact hk
    · exact hk

theorem wf_accStoreBody {s : State} {x : XForm} {k : Kern} {t : Thread} (h : Memory.wf k.mem = true) :
    Memory.wf (accStoreBody s x k t).1.mem = true := by
  unfold accStoreBody
  exact wf_withAcc (fun _ => wf_writePlace h) h

/-! ## MX (R86, R205, R210 to R213) -/

theorem wf_lateSigns {c b pg w : Nat} {k : Kern} {ts : List Thread} (h : Memory.wf k.mem = true) :
    Memory.wf (lateSigns c b pg w k ts).mem = true := by
  unfold lateSigns
  dsimp only
  split
  · exact wf_takeTraps h
  · rw [endWaits_mem]
    exact h

theorem wf_pegToNone {k : Kern} {c b pg : Nat} (h : Memory.wf k.mem = true) : Memory.wf (pegToNone k c b pg).mem = true := by
  unfold pegToNone
  split
  · exact h
  · dsimp only
    apply wf_lateSigns
    refine foldl_wf ?_ _ ?_
    · intro k1 a h1
      exact h1
    · exact h

theorem wf_passMx {k : Kern} {c : Nat} {t : Thread} {x : XForm} {set : Bool} {pc : W64} (h : Memory.wf k.mem = true) :
    Memory.wf (passMx k c t x set pc).1.mem = true := by
  unfold passMx
  split
  · exact h
  · dsimp only
    split
    · apply wf_pegToNone
      rw [modPeg_mem, launchMx_mem]
      exact h
    · exact h

theorem wf_pegMxBody {s : State} {set : Bool} {x : XForm} {k : Kern} {t : Thread} (h : Memory.wf k.mem = true) :
    Memory.wf (pegMxBody s set x k t).1.mem = true := by
  unfold pegMxBody
  dsimp only
  split
  · split
    · exact h
    · split
      · exact h
      · split
        · exact h
        · split
          · split
            · rw [beginWait_mem]
              exact wf_of_fst ‹_› (wf_passMx h)
            · exact wf_of_fst ‹_› (wf_passMx h)
          · exact h
  · exact h

theorem wf_runMx {s : State} {set : Bool} {x : XForm} {k : Kern} {ts : List (Thread × List Reg)} (h : Memory.wf k.mem = true) :
    Memory.wf (runMx s set x k ts).1.mem = true := by
  unfold runMx
  dsimp only
  split
  · exact wf_foldBody (fun _ _ _ h1 => wf_unlessTrapState (fun _ _ _ h2 => wf_pegMxBody h2) h1) h
  · split
    · exact h
    · split
      · split
        · exact h
        · dsimp only
          refine foldl_wf ?_ _ ?_
          · exact fun _ _ h1 => h1
          · rw [launchMx_mem]
            exact h
      · exact h

/-! ## The sum (R85, R86) -/

theorem wf_feedOne {k : Kern} {c cls : Nat} {blk : Block} {base : Nat} {off : Int} {e : Nat} (h : Memory.wf k.mem = true) :
    Memory.wf (feedOne k c cls blk base off e).1.mem = true := by
  unfold feedOne
  split
  · exact h
  · split
    · exact h
    · split <;> exact wf_of_fst ‹_› (wf_readTrap h)

theorem wf_feedAll {c cls : Nat} {blk : Block} {base e : Nat} {k : Kern} {offs : List Int} (h : Memory.wf k.mem = true) :
    Memory.wf (feedAll c cls blk base e k offs).1.mem = true := by
  induction offs generalizing k with
  | nil => exact h
  | cons off offs ih =>
    have hfeed : Memory.wf (feedOne k c cls blk base off e).1.mem = true := wf_feedOne h
    unfold feedAll
    split
    · rename_i heq
      rw [heq] at hfeed
      exact hfeed
    · rename_i k' v heq
      rw [heq] at hfeed
      have hrest : Memory.wf (feedAll c cls blk base e k' offs).1.mem = true := ih hfeed
      split
      all_goals
        rename_i heq
        rw [heq] at hrest
        exact hrest

theorem wf_feedMx {k : Kern} {c : Nat} {m : MxJob} (h : Memory.wf k.mem = true) : Memory.wf (feedMx k c m).1.mem = true := by
  unfold feedMx
  split
  · exact h
  · split
    · exact h
    · dsimp only
      split <;> exact wf_of_fst ‹_› (wf_feedAll h)

/-! ## The instructions -/

theorem ends_execJig {x : XForm} {s : State} (h : Memory.wf s.kern.mem = true) : EndsOk (execJig x s) := by
  unfold execJig
  exact ends_answer (wf_issueOnce (fun _ _ _ h1 => wf_jigBody h1) h)

theorem ends_execJigSt {x : XForm} {s : State} (h : Memory.wf s.kern.mem = true) : EndsOk (execJigSt x s) := by
  unfold execJigSt
  exact ends_answer (wf_issueOnce (fun _ _ _ h1 => wf_jigStoreBody h1) h)

theorem ends_execJigLd {x : XForm} {s : State} (h : Memory.wf s.kern.mem = true) : EndsOk (execJigLd x s) := by
  unfold execJigLd
  exact ends_answer (wf_issueOnce (fun _ _ _ h1 => wf_jigLoadBody h1) h)

theorem ends_execMx {x : XForm} {s : State} (h : Memory.wf s.kern.mem = true) : EndsOk (execMx x s) := by
  unfold execMx
  exact ends_answer (wf_issue (fun _ _ h1 => wf_runMx h1) h)

theorem ends_execMxSet {x : XForm} {s : State} (h : Memory.wf s.kern.mem = true) : EndsOk (execMxSet x s) := by
  unfold execMxSet
  exact ends_answer (wf_issue (fun _ _ h1 => wf_runMx h1) h)

theorem ends_execAccz {x : XForm} {s : State} (h : Memory.wf s.kern.mem = true) : EndsOk (execAccz x s) := by
  unfold execAccz
  apply ends_answer
  apply wf_issueOnce
  · intro k a a1 h1
    rw [acczBody_mem]
    exact h1
  · exact h

theorem ends_execAccld {x : XForm} {s : State} (h : Memory.wf s.kern.mem = true) : EndsOk (execAccld x s) := by
  unfold execAccld
  exact ends_answer (wf_issueOnce (fun _ _ _ h1 => wf_accLoadBody h1) h)

theorem ends_execAccst {x : XForm} {s : State} (h : Memory.wf s.kern.mem = true) : EndsOk (execAccst x s) := by
  unfold execAccst
  dsimp only
  apply ends_answer
  apply wf_issue
  · intro k a h1
    split
    · exact h1
    · split
      · dsimp only
        refine foldl_wf ?_ _ ?_
        · intro k1 a h2
          exact h2
        · refine wf_of_fst ‹_› ?_
          apply wf_accStoreBody
          exact h1
      · dsimp only
        refine wf_of_fst ‹_› ?_
        apply wf_accStoreBody
        exact h1
  · exact h

theorem ends_execAccstNow {x : XForm} {s : State} (h : Memory.wf s.kern.mem = true) : EndsOk (execAccstNow x s) := by
  unfold execAccstNow
  exact ends_answer (wf_issueOnce (fun _ _ _ h1 => wf_accStoreBody h1) h)

theorem ends_execAccmov {n : MovCount} {x : XForm} {s : State} (h : Memory.wf s.kern.mem = true) :
    EndsOk (execAccmov n x s) := by
  unfold execAccmov
  apply ends_answer
  apply wf_issueEach
  · intro k a a1 h1
    rw [accMoveBody_mem]
    exact h1
  · exact h

theorem ends_execAccver {x : XForm} {s : State} (h : Memory.wf s.kern.mem = true) : EndsOk (execAccver x s) := by
  unfold execAccver
  apply ends_answer
  apply wf_issueEach
  · intro k a a1 h1
    rw [accVersionBody_mem]
    exact h1
  · exact h

theorem ends_execAccverNow {x : XForm} {s : State} (h : Memory.wf s.kern.mem = true) : EndsOk (execAccverNow x s) := by
  unfold execAccverNow
  apply ends_answer
  apply wf_issueEach
  · intro k a a1 h1
    rw [accVersionBody_mem]
    exact h1
  · exact h

theorem ends_execBedld {x : XForm} {s : State} (h : Memory.wf s.kern.mem = true) : EndsOk (execBedld x s) := by
  unfold execBedld
  apply ends_answer
  apply wf_issueOnce
  · intro k a a1 h1
    rw [bedLoadBody_mem]
    exact h1
  · exact h

theorem ends_execBedldGrain {x : XForm} {s : State} (h : Memory.wf s.kern.mem = true) : EndsOk (execBedldGrain x s) := by
  unfold execBedldGrain
  apply ends_answer
  apply wf_issueOnce
  · intro k a a1 h1
    rw [bedLoadBody_mem]
    exact h1
  · exact h

theorem ends_execBedclr {x : XForm} {s : State} (h : Memory.wf s.kern.mem = true) : EndsOk (execBedclr x s) := by
  unfold execBedclr
  apply ends_answer
  apply wf_issueOnce
  · intro k a a1 h1
    rw [bedClearBody_mem]
    exact h1
  · exact h

/-! ## SAMPLE (R252) -/

theorem wf_sampleOnBody {s : State} {x : SForm} {k : Kern} {t : Thread} (h : Memory.wf k.mem = true) :
    Memory.wf (sampleOnBody s x k t).1.mem = true := by
  unfold sampleOnBody
  dsimp only
  split
  · exact h
  · split
    · exact h
    · split
      · exact h
      · split
        · dsimp only
          refine wf_of_fst ‹_› ?_
          apply wf_readTrap
          rw [takeTokens_mem]
          exact h
        · split
          · dsimp only
            refine wf_of_fst ‹_› ?_
            apply wf_readTrap
            rw [takeTokens_mem]
            exact h
          · dsimp only
            rw [modCore_mem]
            refine wf_of_fst ‹_› ?_
            apply wf_readTrap
            rw [takeTokens_mem]
            exact h

/-! ## The instructions -/

theorem ends_execNop {x : SForm} {s : State} (h : Memory.wf s.kern.mem = true) : EndsOk (execNop x s) := by
  unfold execNop
  exact ends_answer (wf_issueEach (fun _ _ _ h1 => h1) h)

theorem ends_execTrap {x : SForm} {s : State} (h : Memory.wf s.kern.mem = true) : EndsOk (execTrap x s) := by
  unfold execTrap
  exact ends_answer (wf_issueEach (fun _ _ _ h1 => h1) h)

theorem ends_execTret {x : SForm} {s : State} (h : Memory.wf s.kern.mem = true) : EndsOk (execTret x s) := by
  unfold execTret
  apply ends_answer
  apply wf_issueEach
  · intro k a a1 h1
    rw [tretBody_mem]
    exact h1
  · exact h

theorem ends_execBrk {x : SForm} {s : State} (h : Memory.wf s.kern.mem = true) : EndsOk (execBrk x s) := by
  unfold execBrk
  exact ends_answer (wf_issueEach (fun _ _ _ h1 => h1) h)

theorem ends_execSrd {x : SForm} {s : State} (h : Memory.wf s.kern.mem = true) : EndsOk (execSrd x s) := by
  unfold execSrd
  apply ends_answer
  apply wf_issueEach
  · intro k a a1 h1
    rw [srdBody_mem]
    exact h1
  · exact h

theorem ends_execSwr {x : SForm} {s : State} (h : Memory.wf s.kern.mem = true) : EndsOk (execSwr x s) := by
  unfold execSwr
  exact ends_answer (wf_issueEach (fun _ _ _ h1 => h1) h)

theorem ends_execGrow {x : SForm} {s : State} (h : Memory.wf s.kern.mem = true) : EndsOk (execGrow x s) := by
  unfold execGrow
  apply ends_answer
  apply wf_issue
  · intro k a h1
    rw [growRun_mem]
    exact h1
  · exact h

theorem ends_execShrink {x : SForm} {s : State} (h : Memory.wf s.kern.mem = true) : EndsOk (execShrink x s) := by
  unfold execShrink
  apply ends_answer
  apply wf_issue
  · intro k a h1
    rw [shrinkRun_mem]
    exact h1
  · exact h

theorem ends_execEvwait {x : SForm} {s : State} (h : Memory.wf s.kern.mem = true) : EndsOk (execEvwait x s) := by
  unfold execEvwait
  apply ends_answer
  apply wf_issueEach
  · intro k a a1 h1
    rw [evwaitBody_mem]
    exact h1
  · exact h

theorem ends_execIlinv {x : SForm} {s : State} (h : Memory.wf s.kern.mem = true) : EndsOk (execIlinv x s) := by
  unfold execIlinv
  dsimp only
  apply ends_answer
  apply wf_issueEach
  · intro k a a1 h1
    dsimp only
    rw [dropCode_mem]
    exact h1
  · exact h

theorem ends_execIlinvAll {x : SForm} {s : State} (h : Memory.wf s.kern.mem = true) : EndsOk (execIlinvAll x s) := by
  unfold execIlinvAll
  apply ends_answer
  apply wf_issueEach
  · intro k a a1 h1
    dsimp only
    rw [dropCode_mem]
    exact h1
  · exact h

theorem ends_execSampleOn {x : SForm} {s : State} (h : Memory.wf s.kern.mem = true) : EndsOk (execSampleOn x s) := by
  unfold execSampleOn
  exact ends_answer (wf_issueOnce (fun _ _ _ h1 => wf_sampleOnBody h1) h)

theorem ends_execSampleOff {x : SForm} {s : State} (h : Memory.wf s.kern.mem = true) : EndsOk (execSampleOff x s) := by
  unfold execSampleOff
  apply ends_answer
  apply wf_issueOnce
  · intro k a a1 h1
    rw [sampleOffBody_mem]
    exact h1
  · exact h

theorem ends_execUnassignedMajorOpcode {a : W96} {s : State} (h : Memory.wf s.kern.mem = true) :
    EndsOk (execUnassignedMajorOpcode a s) := by
  unfold execUnassignedMajorOpcode
  exact ends_answer (wf_issueIllegal h)

theorem ends_execZeroWord {s : State} (h : Memory.wf s.kern.mem = true) : EndsOk (execZeroWord s) := by
  unfold execZeroWord
  exact ends_answer (wf_issueIllegal h)

/-! ## The peer table (R396) -/

theorem wf_tableBytes {k : Kern} {e : ObjEntry} {off : Nat} {bs : List Byte} (h : Memory.wf k.mem = true) :
    Memory.wf (tableBytes k e off bs).mem = true := by
  unfold tableBytes
  dsimp only
  split
  · exact h
  · exact h
  · split
    · exact wf_putBytes _ _ h
    · exact h

theorem wf_writePeer {k : Kern} {e : ObjEntry} {dev : Nat} {x : BitVec 128} (h : Memory.wf k.mem = true) :
    Memory.wf (writePeer k e dev x).mem = true := by
  unfold writePeer
  exact wf_tableBytes h

theorem wf_setPeer {s : State} {dev : Nat} {x : BitVec 128} (h : Memory.wf s.kern.mem = true) :
    Memory.wf (setPeer s dev x).kern.mem = true := by
  unfold setPeer
  dsimp only
  split
  · exact wf_writePeer h
  · exact h

/-! ## The choice of R266 -/

theorem wf_lineTrap {s : State} {cause line : Nat} (h : Memory.wf s.kern.mem = true) :
    Memory.wf (lineTrap s cause line).kern.mem = true := by
  unfold lineTrap
  exact wf_finishIssue h

/-! ## What runs next -/

/-- The state in which a plan goes on. -/
def planState : Plan → State
  | .rest s | .one _ s | .two _ _ s => s

/-- The plan that takes the event chosen, if there is one. -/
def eventPlan (chosen : Option Instr) (s : State) : Plan :=
  match chosen with
  | some i => .one (.instr i) s
  | none => .rest s

/-- The plan of an entry chosen, by its face. -/
def entryPlan (s : State) (c e : Nat) (x : Entry) : Plan :=
  match faceOf s.kern c x with
  | .unfetched => .rest s
  | .fault cause line => .rest (lineTrap (inHand s c e .single) cause line)
  | .one a => .one a (inHand s c e .single)
  | .two a b => .two a b (inHand s c e .first)

/-- The plan of a core that chooses no entry. -/
def idlePlan (s : State) (c : Nat) : Plan :=
  eventPlan ((coreEvents s c)[(coreOf s.kern c).cycle % max 1 (coreEvents s c).length]?) s

theorem issuePlan_of_stopped {s : State} {c : Nat} (hc : clockRuns s c = false) :
    issuePlan s c = eventPlan ((wakingEvents s c)[s.kern.net % max 1 (wakingEvents s c).length]?) s := by
  simp only [issuePlan, hc, Bool.not_false, if_true]
  rfl

theorem issuePlan_of_idle {s : State} {c : Nat} (hc : clockRuns s c = true)
    (he : chooseEntry (beginCycle s c) c = none) :
    issuePlan s c = idlePlan (flushOut { beginCycle s c with kern := nudge (beginCycle s c).kern c }) c := by
  simp only [issuePlan, hc, he, Bool.not_true, Bool.false_eq_true, if_false]
  unfold idlePlan eventPlan
  generalize flushOut { beginCycle s c with kern := nudge (beginCycle s c).kern c } = s2
  generalize (coreEvents s2 c)[(coreOf s2.kern c).cycle % max 1 (coreEvents s2 c).length]? = chosen
  cases chosen <;> rfl

theorem issuePlan_of_chosen {s : State} {c e : Nat} {x : Entry} (hc : clockRuns s c = true)
    (he : chooseEntry (beginCycle s c) c = some (e, x)) :
    issuePlan s c = entryPlan (beginCycle s c) c e x := by
  simp only [issuePlan, hc, he, Bool.not_true, Bool.false_eq_true, if_false]
  unfold entryPlan
  generalize faceOf (beginCycle s c).kern c x = f
  cases f <;> rfl
theorem planState_eventPlan (chosen : Option Instr) (s : State) : planState (eventPlan chosen s) = s := by
  cases chosen <;> rfl

theorem wf_entryPlan {s : State} {c e : Nat} {x : Entry} (h : Memory.wf s.kern.mem = true) :
    Memory.wf (planState (entryPlan s c e x)).kern.mem = true := by
  unfold entryPlan
  split
  · exact h
  · exact wf_lineTrap h
  · exact h
  · exact h

theorem wf_issuePlan {s : State} {c : Nat} (h : Memory.wf s.kern.mem = true) :
    Memory.wf (planState (issuePlan s c)).kern.mem = true := by
  have hbegun : Memory.wf (beginCycle s c).kern.mem = true := (beginCycle_mem s c).symm ▸ h
  cases hc : clockRuns s c with
  | false => rwa [issuePlan_of_stopped hc, planState_eventPlan]
  | true =>
    cases he : chooseEntry (beginCycle s c) c with
    | none => rwa [issuePlan_of_idle hc he, idlePlan, planState_eventPlan, flushOut_mem, nudge_mem]
    | some chosen =>
      rw [issuePlan_of_chosen hc he]
      exact wf_entryPlan hbegun

/-! ## Inputs -/

theorem wf_strike {k : Kern} {a : Nat} {p : Poison} (h : Memory.wf k.mem = true) : Memory.wf (strike k a p).mem = true := by
  unfold strike
  split
  · exact wf_putBytes _ _ h
  · rw [noteBad_mem, setPoison_mem]
    exact h

theorem wf_stricken {s : State} {a : Nat} (h : Memory.wf s.kern.mem = true) : Memory.wf (stricken s a).kern.mem = true := by
  unfold stricken
  dsimp only
  split
  · split <;> exact wf_strike h
  · exact wf_strike h

theorem wf_symbolError {s : State} {a : Nat} (h : Memory.wf s.kern.mem = true) :
    Memory.wf (symbolError s a).kern.mem = true := by
  unfold symbolError
  split
  · split
    · exact h
    · exact wf_strike h
  · dsimp only
    split
    · exact wf_stricken h
    · exact h

theorem wf_landMigrated {k : Kern} {ctx : Nat} {src dst : List (Nat × Nat)} {n : Nat} (h : Memory.wf k.mem = true) :
    Memory.wf (landMigrated k ctx src dst n).mem = true := by
  unfold landMigrated
  dsimp only
  split
  · exact foldl_wf (fun _ _ h1 => wf_landBad h1) _ (wf_putRuns h)
  · rw [countPoison_mem]
    exact foldl_wf (fun _ _ h1 => wf_landBad h1) _ (wf_putRuns h)

theorem wf_migrate {k : Kern} {ctx obj off n : Nat} {cls : MemClass} {frame : W64} (h : Memory.wf k.mem = true) :
    Memory.wf (migrate k ctx obj off n cls frame).mem = true := by
  unfold migrate
  split
  · exact h
  · dsimp only
    split
    · exact wf_landMigrated h
    · exact h

theorem wf_changePlanes {s : State} {dev : Nat} {up : BitVec 16} (h : Memory.wf s.kern.mem = true) :
    Memory.wf (changePlanes s dev up).kern.mem = true := by
  unfold changePlanes
  split
  · exact wf_setPeer h
  · exact h

theorem wf_placeTable {s : State} {e : Option ObjEntry} (h : Memory.wf s.kern.mem = true) :
    Memory.wf (placeTable s e).kern.mem = true := by
  unfold placeTable
  dsimp only
  split
  · exact foldl_wf (fun _ _ h1 => wf_writePeer h1) _ h
  · exact h

theorem wf_applyInput {s : State} {a : Input} (h : Memory.wf s.kern.mem = true) :
    Memory.wf (applyInput s a).kern.mem = true := by
  unfold applyInput
  split
  · split <;> exact h
  · exact h
  · exact h
  · exact h
  · exact h
  · exact h
  · exact h
  · exact wf_putBytes _ _ h
  · exact wf_symbolError h
  · exact wf_stricken h
  · exact h
  · rw [remoteContribution_mem]
    exact h
  · exact h
  · exact wf_changePlanes h
  · exact h
  · exact h
  · exact h
  · exact h
  · exact wf_migrate h
  · dsimp only
    rw [farTimeline_mem]
    exact h
  · exact h
  · dsimp only
    rw [registerQueue_mem]
    exact h
  · exact h
  · exact h
  · exact wf_placeTable h

/-! ## The plan -/

theorem wf_devicePlan {s : State} (h : Memory.wf s.kern.mem = true) : Memory.wf (planState (devicePlan s)).kern.mem = true := by
  have hout : Memory.wf (flushOut { s with turn := 0, kern := { s.kern with net := s.kern.net + 1 } }).kern.mem = true := by
    rw [flushOut_mem]
    exact h
  unfold devicePlan
  generalize flushOut { s with turn := 0, kern := { s.kern with net := s.kern.net + 1 } } = s1 at hout ⊢
  dsimp only
  generalize (deviceEvents s1)[s1.kern.net % max 1 (deviceEvents s1).length]? = e
  cases e with
  | none => exact hout
  | some i => exact hout

theorem wf_planOf {s : State} (h : Memory.wf s.kern.mem = true) : Memory.wf (planState (planOf s)).kern.mem = true := by
  unfold planOf
  split
  · exact h
  · split
    · split
      · exact h
      · exact (flushOut_mem _).symm ▸ h
    · exact wf_issuePlan h
    · exact wf_applyInput h
    · split
      · exact wf_devicePlan h
      · exact wf_issuePlan h

/-! ## The parameter copy (R347) -/

theorem wf_copyParams {k : Kern} {c b : Nat} {l : Launch} {number index : Nat} (h : Memory.wf k.mem = true) :
    Memory.wf (copyParams k c b l number index).mem = true := by
  unfold copyParams
  split
  · exact h
  · split
    · rw [engineTouch_mem]
      exact wf_putBytes _ _ h
    · exact h

/-! ## Starting a block -/

theorem wf_seatBlock {k : Kern} {c : Nat} {l : Launch} {serial number index : Nat} {r : Room} (h : Memory.wf k.mem = true) :
    Memory.wf (seatBlock k c l serial number index r).mem = true := by
  unfold seatBlock
  dsimp only
  apply wf_copyParams
  rw [enterBucket_mem, modCore_mem]
  dsimp only
  rw [wakeBanks_mem]
  exact wf_wipe h

theorem wf_startBlock {s : State} {c : Nat} {l : Launch} {serial number index : Nat} {r : Room}
    (h : Memory.wf s.kern.mem = true) : Memory.wf (startBlock s c l serial number index r).kern.mem = true := by
  unfold startBlock
  dsimp only
  rw [beginGroups_mem]
  split
  · rw [dropLines_mem]
    exact wf_seatBlock h
  · exact wf_seatBlock h

/-! ## Exchange regions (R288, R290, R292, R307) -/

theorem wf_initRecord {k : Kern} {a : Nat} (h : Memory.wf k.mem = true) : Memory.wf (initRecord k a).mem = true := by
  unfold initRecord
  exact wf_putBytes _ _ (wf_putBytes _ _ h)

theorem wf_startRegion {k : Kern} {c : Nat} {l : Launch} {serial brick row : Nat} (h : Memory.wf k.mem = true) :
    Memory.wf (startRegion k c l serial brick row).mem = true := by
  unfold startRegion
  dsimp only
  rw [enterBucket_mem]
  refine foldl_wf ?_ _ ?_
  · exact fun _ _ h1 => wf_putBytes _ _ h1
  · refine foldl_wf ?_ _ ?_
    · exact fun _ _ h1 => wf_initRecord h1
    · rw [modCore_mem, wakeBanks_mem]
      exact wf_wipe h

theorem wf_startBlocks {l : Launch} {serial brick c n : Nat} {s s' : State} (h : Memory.wf s.kern.mem = true)
    (hs : startBlocks l serial brick c n s = some s') : Memory.wf s'.kern.mem = true := by
  induction n generalizing s' with
  | zero =>
    cases hs
    exact h
  | succ n ih =>
    unfold startBlocks at hs
    split at hs
    · cases hs
    · obtain ⟨r, -, rfl⟩ := Option.map_eq_some_iff.mp hs
      exact wf_startBlock (ih ‹_›)

theorem wf_startBrick {l : Launch} {serial brick c : Nat} {s s' : State} (h : Memory.wf s.kern.mem = true)
    (hs : startBrick l serial brick c s = some s') : Memory.wf s'.kern.mem = true := by
  unfold startBrick at hs
  split at hs
  · cases hs
  · exact wf_startBlocks (wf_startRegion h) hs

theorem wf_startBricks {l : Launch} {serial : Nat} {bs : List (Nat × Nat)} {s s' : State} (h : Memory.wf s.kern.mem = true)
    (hs : startBricks l serial bs s = some s') : Memory.wf s'.kern.mem = true := by
  induction bs generalizing s with
  | nil =>
    cases hs
    exact h
  | cons b bs ih =>
    unfold startBricks at hs
    split at hs
    · cases hs
    · exact ih (wf_startBrick h ‹_›) hs

theorem ends_onThread {s : State} {c tslot lane : Nat} {f : Thread → Kern} (h : Memory.wf s.kern.mem = true)
    (hf : ∀ (t : Thread), Memory.wf (f t).mem = true) : EndsOk (onThread s c tslot lane f) := by
  unfold onThread
  split
  · apply ends_answer
    dsimp only
    apply hf
  · exact ends_answer h

/-! ## Lines and results -/

theorem ends_execLineFetchComplete {core entry : Nat} {s : State} (h : Memory.wf s.kern.mem = true) :
    EndsOk (execLineFetchComplete core entry s) := by
  unfold execLineFetchComplete
  apply ends_answer
  dsimp only
  rw [fetchLineOf_mem]
  exact h

theorem ends_execResultArrival {core tslot lane pend : Nat} {s : State} (h : Memory.wf s.kern.mem = true) :
    EndsOk (execResultArrival core tslot lane pend s) := by
  unfold execResultArrival
  apply ends_onThread
  · exact h
  · intro a
    split
    · rw [arriveHeld_mem]
      exact h
    · exact h

/-! ## Asynchronous traps (R238) -/

theorem wf_takeAsync {k : Kern} {c : Nat} {t : Thread} (h : Memory.wf k.mem = true) :
    Memory.wf (takeAsync k c t).mem = true := by
  unfold takeAsync
  split
  · exact h
  · split
    · exact h
    · dsimp only
      apply wf_takeTrap
      rw [modThis_mem, withdrawWait_mem ‹_›]
      exact h

theorem ends_execAsyncTrapDelivery {core tslot lane : Nat} {s : State} (h : Memory.wf s.kern.mem = true) :
    EndsOk (execAsyncTrapDelivery core tslot lane s) := by
  unfold execAsyncTrapDelivery
  exact ends_onThread h (fun _ => wf_takeAsync h)

/-! ## Pegs and barriers -/

theorem ends_execPegEpisodeClose {core block peg : Nat} {s : State} (h : Memory.wf s.kern.mem = true) :
    EndsOk (execPegEpisodeClose core block peg s) := by
  unfold execPegEpisodeClose
  apply ends_answer
  dsimp only
  rw [closeEpisode_mem]
  exact h

theorem ends_execBarrierOpen {core block bar : Nat} {s : State} (h : Memory.wf s.kern.mem = true) :
    EndsOk (execBarrierOpen core block bar s) := by
  unfold execBarrierOpen
  apply ends_answer
  dsimp only
  rw [openBarrier_mem]
  exact h

theorem ends_execBarrierReleaseWave {core block bar : Nat} {s : State} (h : Memory.wf s.kern.mem = true) :
    EndsOk (execBarrierReleaseWave core block bar s) := by
  unfold execBarrierReleaseWave
  split
  · apply ends_answer
    dsimp only
    rw [releaseWave_mem]
    exact h
  · exact ends_answer h

/-! ## The end of waits (R265) -/

theorem wf_rotateNow {k : Kern} {c : Nat} {t : Thread} {mask : Nat} {pc : W64} (h : Memory.wf k.mem = true) :
    Memory.wf (rotateNow k c t mask pc).mem = true := by
  unfold rotateNow
  dsimp only
  split
  · rw [moveThreads_mem]
    exact h
  · split
    · exact h
    · split
      · rw [moveThreads_mem]
        exact h
      · split
        · rw [moveThreads_mem]
          exact h
        · split
          · exact h
          · rw [moveThreads_mem, modThis_mem]
            exact wf_rotateCell h

theorem wf_endTrapping {k : Kern} {c : Nat} (h : Memory.wf k.mem = true) : Memory.wf (endTrapping k c).mem = true := by
  unfold endTrapping
  dsimp only
  apply wf_takeAll
  refine foldl_wf ?_ _ ?_
  · intro k1 a h1
    exact h1
  · exact h

theorem wf_endWait {s : State} {c : Nat} {t : Thread} (h : Memory.wf s.kern.mem = true) :
    Memory.wf (endWait s c t).mem = true := by
  unfold endWait
  dsimp only
  split
  · split
    · rw [wakeSleepers_mem]
      exact h
    · exact h
  · rw [endTlwaits_mem]
    exact h
  · exact wf_rotateNow h
  · exact wf_endTrapping h
  · rw [endBarArrives_mem]
    exact h
  · split
    · rw [endWaits_mem]
      exact h
    · exact h
  · split
    · rw [startThreads_mem]
      exact h
    · exact h
  · exact h

theorem ends_execWaitEnd {core tslot lane : Nat} {s : State} (h : Memory.wf s.kern.mem = true) :
    EndsOk (execWaitEnd core tslot lane s) := by
  unfold execWaitEnd
  exact ends_onThread h (fun _ => wf_endWait h)

theorem ends_execYieldCyclesEnd {core entry : Nat} {s : State} (h : Memory.wf s.kern.mem = true) :
    EndsOk (execYieldCyclesEnd core entry s) := by
  unfold execYieldCyclesEnd
  dsimp only
  split
  · split
    · apply ends_answer
      dsimp only
      rw [endWaits_mem]
      exact h
    · exact ends_answer h
  · exact ends_answer h

/-! ## MX (R211, R212, R205) -/

theorem wf_launchOne {c : Nat} {w : MxWave} {t : Thread} (h : Memory.wf w.kern.mem = true) :
    Memory.wf (launchOne c w t).kern.mem = true := by
  have hpass : ∀ x set, Memory.wf (passMx w.kern c t x set t.pc).1.mem = true := fun _ _ => wf_passMx h
  unfold launchOne
  dsimp only
  split
  · split
    · exact h
    · split
      · exact h
      · split
        · rw [modThis_mem]
          exact wf_of_fst ‹_› (hpass _ _)
        · exact wf_of_fst ‹_› (hpass _ _)
  · exact h

theorem wf_launchWaiting {k : Kern} {c b : Nat} (h : Memory.wf k.mem = true) : Memory.wf (launchWaiting k c b).mem = true := by
  have hwave : ∀ (ts : List Thread) (w : MxWave), Memory.wf w.kern.mem = true →
      Memory.wf (ts.foldl (launchOne c) w).kern.mem = true := fun ts => by
    induction ts with
    | nil => exact fun _ hw => hw
    | cons t ts ih => exact fun w hw => ih _ (wf_launchOne hw)
  unfold launchWaiting
  dsimp only
  rw [moveThreads_mem]
  apply wf_enterAll
  refine foldl_wf ?_ _ (hwave _ _ h)
  exact fun _ _ hk => hk

theorem ends_execMxLaunch {core tslot lane : Nat} {s : State} (h : Memory.wf s.kern.mem = true) :
    EndsOk (execMxLaunch core tslot lane s) := by
  unfold execMxLaunch
  apply ends_onThread
  · exact h
  · intro a
    split
    · exact wf_launchWaiting h
    · exact h

theorem ends_execMxCommit {core : Nat} {s : State} (h : Memory.wf s.kern.mem = true) : EndsOk (execMxCommit core s) := by
  unfold execMxCommit
  split
  · exact ends_answer h
  · split
    · exact ends_answer h
    · split
      · split
        · apply ends_answer
          dsimp only
          rw [commitMx_mem]
          apply wf_feedMx
          refine wf_of_fst ‹_› ?_
          rw [payFeed_mem]
          exact h
        · apply ends_answer
          dsimp only
          refine wf_of_fst ‹_› ?_
          rw [payFeed_mem]
          exact h
      · exact ends_answer h
      · exact ends_answer h

theorem wf_failFeed {k : Kern} {c : Nat} {m : MxJob} {cause sub fault : Nat} (h : Memory.wf k.mem = true) :
    Memory.wf (failFeed k c m cause sub fault).mem = true := by
  unfold failFeed
  dsimp only
  apply wf_takeTraps
  rw [abandonMx_mem]
  exact h

theorem ends_execFeedReadFault {core : Nat} {s : State} (h : Memory.wf s.kern.mem = true) :
    EndsOk (execFeedReadFault core s) := by
  unfold execFeedReadFault
  split
  · exact ends_answer h
  · split
    · exact ends_answer h
    · split
      · exact ends_answer (wf_failFeed (wf_of_fst ‹_› (wf_feedMx h)))
      · exact ends_answer h

/-! ## The pending list (R268, R269) -/

theorem ends_execPendingPlace {core : Nat} {s : State} (h : Memory.wf s.kern.mem = true) :
    EndsOk (execPendingPlace core s) := by
  unfold execPendingPlace
  apply ends_answer
  dsimp only
  rw [placePending_mem]
  exact h

theorem ends_execEntryEviction {core : Nat} {s : State} (h : Memory.wf s.kern.mem = true) :
    EndsOk (execEntryEviction core s) := by
  unfold execEntryEviction
  dsimp only
  split
  · split
    · apply ends_answer
      dsimp only
      rw [placePending_mem, evict_mem]
      exact h
    · exact ends_answer h
  · exact ends_answer h

/-! ## Slices and GROW -/

theorem ends_execSliceReturn {core block group column : Nat} {s : State} (h : Memory.wf s.kern.mem = true) :
    EndsOk (execSliceReturn core block group column s) := by
  unfold execSliceReturn
  apply ends_answer
  dsimp only
  rw [returnColumns_mem]
  exact h

theorem ends_execGrowGrant {core : Nat} {s : State} (h : Memory.wf s.kern.mem = true) : EndsOk (execGrowGrant core s) := by
  unfold execGrowGrant
  apply ends_answer
  dsimp only
  rw [grantFirst_mem]
  exact h

theorem ends_execGrowDeadlockRule {core : Nat} {s : State} (h : Memory.wf s.kern.mem = true) :
    EndsOk (execGrowDeadlockRule core s) := by
  unfold execGrowDeadlockRule
  dsimp only
  split
  · split
    · apply ends_answer
      dsimp only
      rw [endGrow_mem]
      exact h
    · exact ends_answer h
  · exact ends_answer h

/-! ## The object cache and the banks -/

theorem ends_execObjectCacheMissFill {core ctx obj : Nat} {s : State} (h : Memory.wf s.kern.mem = true) :
    EndsOk (execObjectCacheMissFill core ctx obj s) := by
  unfold execObjectCacheMissFill
  split <;> exact ends_answer h

theorem ends_execScratchpadBankGating {core : Nat} {s : State} (h : Memory.wf s.kern.mem = true) :
    EndsOk (execScratchpadBankGating core s) := by
  unfold execScratchpadBankGating
  dsimp only
  split <;> exact ends_answer h

theorem ends_execBankWakeComplete {core : Nat} {s : State} (h : Memory.wf s.kern.mem = true) :
    EndsOk (execBankWakeComplete core s) := by
  unfold execBankWakeComplete
  exact ends_answer h

/-! ## The sampler (R253 to R255) -/

theorem wf_writeSample {k k' : Kern} {ctx cap : Nat} {rec_ : List Byte} (h : Memory.wf k.mem = true)
    (hk : writeSample k ctx cap rec_ = some k') : Memory.wf k'.mem = true := by
  unfold writeSample at hk
  split at hk
  · cases hk
  · dsimp only at hk
    split at hk
    · cases hk
    · split at hk
      · cases hk
      · split at hk
        · cases hk
        · cases hk
          exact wf_writeObj (wf_writeObj h)

theorem ends_execSamplerTick {core : Nat} {s : State} (h : Memory.wf s.kern.mem = true) : EndsOk (execSamplerTick core s) := by
  unfold execSamplerTick
  dsimp only
  split
  · exact ends_answer h
  · split
    · exact ends_answer h
    · split
      · apply ends_answer
        dsimp only
        rw [modCore_mem]
        exact wf_writeSample h ‹_›
      · exact ends_answer h

/-! ## Replies -/

theorem wf_failReq {k : Kern} {c : Nat} {q : Req} {cause fault : Nat} (h : Memory.wf k.mem = true) :
    Memory.wf (failReq k c q cause fault).mem = true := by
  unfold failReq
  split
  · exact h
  · split
    · exact h
    · split
      · exact h
      · dsimp only
        apply wf_takeTrap
        rw [modThis_mem, voidReq_mem, withdrawWait_mem ‹_›]
        exact h

theorem wf_beforePoison {α : Type} {k : Kern} {f : Kern → Kern × α}
    (hf : ∀ k, Memory.wf k.mem = true → Memory.wf (f k).1.mem = true) (hs : List (Nat × Poison)) (h : Memory.wf k.mem = true) :
    Memory.wf (beforePoison k hs f).1.mem = true := by
  unfold beforePoison
  refine foldl_wf ?_ _ (hf _ h)
  exact fun _ _ hk => hk

theorem wf_performSettled {k : Kern} {c cls : Nat} {q : Req} {rs : List (Nat × Nat)} (h : Memory.wf k.mem = true) :
    Memory.wf (performSettled k c cls q rs).1.mem = true := by
  unfold performSettled
  split
  · exact wf_beforePoison (fun _ => wf_performReq) _ h
  · exact wf_performReq h

theorem wf_localReply {k : Kern} {c id : Nat} (h : Memory.wf k.mem = true) : Memory.wf (localReply k c id).mem = true := by
  unfold localReply
  dsimp only
  split
  · rw [openPort_mem]
    exact h
  · split
    · rw [openPort_mem]
      exact h
    · split
      · rw [parkReq_mem, openPort_mem]
        exact h
      · split
        · apply wf_failReq
          refine wf_of_fst ‹_› ?_
          apply wf_performSettled
          rw [openPort_mem]
          exact h
        · rw [finishReq_mem]
          refine wf_of_fst ‹_› ?_
          apply wf_performSettled
          rw [openPort_mem]
          exact h

theorem wf_remotePoison {k : Kern} {c : Nat} {q : Req} {kind : Poison} {units : Nat} (h : Memory.wf k.mem = true) :
    Memory.wf (remotePoison k c q kind units).mem = true := by
  unfold remotePoison
  dsimp only
  split
  · rw [finishReq_mem, countPoison_mem]
    exact wf_charge h
  · apply wf_failReq
    rw [chargeLate_mem]
    exact h

theorem wf_endClaim {k : Kern} {c : Nat} {q : Req} {hb : List Byte} (h : Memory.wf k.mem = true) :
    Memory.wf (endClaim k c q hb).mem = true := by
  unfold endClaim
  dsimp only
  split
  · exact wf_failReq h
  · rw [finishReq_mem]
    exact h

theorem wf_remoteReply {k : Kern} {c : Nat} {q : Req} {a : Payload} (h : Memory.wf k.mem = true) :
    Memory.wf (remoteReply k c q a).mem = true := by
  unfold remoteReply
  split
  · dsimp only
    split
    · apply wf_endClaim
      split
      · rw [dropLines_mem]
        apply wf_charge
        split <;> exact h
      · apply wf_charge
        split <;> exact h
    · rw [finishReq_mem]
      split
      · rw [dropLines_mem]
        apply wf_charge
        split <;> exact h
      · apply wf_charge
        split <;> exact h
  · rw [parkReq_mem]
    exact h
  · exact wf_failReq h
  · exact wf_remotePoison h
  · exact h

theorem ends_execAccessReply {core req : Nat} {s : State} (h : Memory.wf s.kern.mem = true) :
    EndsOk (execAccessReply core req s) := by
  unfold execAccessReply
  split
  · exact ends_answer h
  · split
    · exact ends_answer (wf_localReply h)
    · split
      · exact ends_answer h
      · exact ends_answer (wf_remoteReply h)

/-! ## Parks (R274, R367) -/

theorem wf_declineParks {k : Kern} {c : Nat} {ps : List Park} (h : Memory.wf k.mem = true) :
    Memory.wf (declineParks k c ps).mem = true := by
  unfold declineParks
  apply wf_takeAll
  refine foldl_wf ?_ _ ?_
  · intro k1 a h1
    exact h1
  · exact h

theorem ends_execParkServiceComplete {core park : Nat} {declined : Bool} {s : State} (h : Memory.wf s.kern.mem = true) :
    EndsOk (execParkServiceComplete core park declined s) := by
  unfold execParkServiceComplete
  dsimp only
  split
  · apply ends_answer
    exact h
  · split
    · split
      · apply ends_answer
        dsimp only
        apply wf_declineParks
        exact h
      · apply ends_answer
        exact h
    · split
      · apply ends_answer
        refine foldlS_wf ?_ _ ?_
        · intro s1 a h1
          exact h1
        · exact h
      · split
        · apply ends_answer
          dsimp only
          rw [resumeParks_mem]
          exact h
        · apply ends_answer
          exact h

/-! ## First touch (R366) -/

theorem ends_execFirstTouchPlacement {ctx obj ext core : Nat} {s : State} (h : Memory.wf s.kern.mem = true) :
    EndsOk (execFirstTouchPlacement ctx obj ext core s) := by
  unfold execFirstTouchPlacement
  dsimp only
  split
  · exact ends_answer h
  · split
    · exact ends_answer h
    · split
      · exact ends_answer h
      · split <;> exact ends_answer h

/-! ## The write-combining buffer (R154) -/

theorem ends_execWcAgeingExpiry {core wc : Nat} {s : State} (h : Memory.wf s.kern.mem = true) :
    EndsOk (execWcAgeingExpiry core wc s) := by
  unfold execWcAgeingExpiry
  exact ends_answer h

theorem ends_execWcDrainPerformed {core wc : Nat} {s : State} (h : Memory.wf s.kern.mem = true) :
    EndsOk (execWcDrainPerformed core wc s) := by
  unfold execWcDrainPerformed
  split <;> exact ends_answer h

/-! ## Remote requests at their home (R392) -/

theorem wf_writeMasked {k : Kern} {a : Nat} {m : FMap Byte} (h : Memory.wf k.mem = true) :
    Memory.wf (writeMasked k a m).mem = true := by
  unfold writeMasked
  exact foldl_wf (fun _ _ h1 => wf_putBytes _ _ h1) _ h

theorem wf_serveClaim {k : Kern} {ctx cap : Nat} {rs : List (Nat × Nat)} {hb : List Byte} (h : Memory.wf k.mem = true) :
    Memory.wf (serveClaim k ctx cap rs hb).mem = true := by
  unfold serveClaim
  split
  · exact h
  · rw [registerQueue_mem]
    exact wf_putBytes _ _ h

theorem wf_servePerformed {k : Kern} {ctx cap req c : Nat} {kind : ReqKind} {ty : Ty} {data cmp : Nat} {rs : List (Nat × Nat)}
    {met units : Nat} (h : Memory.wf k.mem = true) :
    Memory.wf (servePerformed k ctx cap req c kind ty data cmp rs met units).1.mem = true := by
  unfold servePerformed
  dsimp only
  split
  · exact wf_serveClaim h
  · split
    · exact wf_putBytes _ _ (wf_refreshRuns h)
    · exact h

theorem wf_serveAccess {k : Kern} {ctx cap req c : Nat} {kind : ReqKind} {ty : Ty} {data cmp size cls : Nat}
    {rs : List (Nat × Nat)} (h : Memory.wf k.mem = true) :
    Memory.wf (serveAccess k ctx cap req c kind ty data cmp size cls rs).1.mem = true := by
  unfold serveAccess
  dsimp only
  split
  · exact wf_putRuns h
  · split
    · dsimp only
      rw [countMended_mem]
      exact h
    · apply wf_servePerformed
      rw [countMended_mem]
      exact h
  · apply wf_servePerformed
    rw [countMended_mem]
    exact h

theorem wf_serveRemote {k : Kern} {p : FabPacket} (h : Memory.wf k.mem = true) : Memory.wf (serveRemote k p).1.mem = true := by
  unfold serveRemote
  split
  · split
    · exact h
    · split
      · exact h
      · exact wf_serveAccess h
  · split
    · exact h
    · split
      · exact wf_writeMasked h
      · exact h
      · exact h
  · exact h

theorem ends_execRemoteRequest {req : Nat} {s : State} (h : Memory.wf s.kern.mem = true) :
    EndsOk (execRemoteRequest req s) := by
  unfold execRemoteRequest
  split
  · exact ends_answer h
  · split
    · exact ends_answer h
    · split
      · exact ends_answer h
      · split
        · exact ends_answer (wf_of_fst ‹_› (wf_serveRemote h))
        · apply ends_answer
          rw [sendPacket_mem, takeArrived_mem]
          exact wf_of_fst ‹_› (wf_serveRemote h)

/-! ## Copies (R177, R183) -/

theorem wf_acceptWaiting {k k' : Kern} {c : Nat} {t : Thread} (h : Memory.wf k.mem = true)
    (hk : acceptWaiting k c t = some k') : Memory.wf k'.mem = true := by
  unfold acceptWaiting at hk
  split at hk
  · split at hk
    · cases hk
    · split at hk
      · cases hk
        exact wf_takeTrap h
      · split at hk
        · cases hk
          rw [endWaits_mem]
          exact wf_acceptCopy h
        · cases hk
  · cases hk

theorem ends_execCopyAccept {core : Nat} {s : State} (h : Memory.wf s.kern.mem = true) : EndsOk (execCopyAccept core s) := by
  unfold execCopyAccept
  split
  · obtain ⟨t, -, ht⟩ := List.exists_of_findSome?_eq_some ‹_›
    exact ends_answer (wf_acceptWaiting h ht)
  · exact ends_answer h

theorem ranOk_runCopy {k : Kern} {c : Nat} {j : CopyJob} (h : Memory.wf k.mem = true) : RanOk (runCopy k c j) := by
  unfold runCopy
  dsimp only
  split
  · exact h
  · exact ranOk_runMove h
  · exact ranOk_runMove h
  · exact ranOk_runSparse h
  · exact ranOk_runChain h
  · split
    · exact h
    · exact ranOk_runGrain h

theorem wf_retireCopy {k : Kern} {c : Nat} {j : CopyJob} {status : Nat} (h : Memory.wf k.mem = true) :
    Memory.wf (retireCopy k c j status).mem = true := by
  unfold retireCopy
  dsimp only
  split
  · rw [arriveHeld_mem]
    split <;> exact h
  · split
    · apply wf_logRecord
      split <;> exact h
    · split <;> exact h

theorem wf_settleCopy {k : Kern} {c : Nat} {j : CopyJob} {status : Nat} (h : Memory.wf k.mem = true) :
    Memory.wf (settleCopy k c j status).mem = true := by
  unfold settleCopy
  dsimp only
  split
  · exact h
  · exact wf_retireCopy h

theorem wf_paidUnit {k0 k : Kern} {c ctx paid : Nat} {commit : Kern → Kern} {keep : Kern → Nat → Kern}
    (hcommit : ∀ k, Memory.wf k.mem = true → Memory.wf (commit k).mem = true) (hkeep : ∀ k n, (keep k n).mem = k.mem)
    (h0 : Memory.wf k0.mem = true) (h : Memory.wf k.mem = true) : Memory.wf (paidUnit k0 k c ctx paid commit keep).mem = true := by
  unfold paidUnit
  split
  · exact hcommit k h
  · dsimp only
    split
    · exact hcommit _ h
    · rw [hkeep, payUnit_mem]
      exact h0

theorem wf_endCopy {c : Nat} {j : CopyJob} {k0 : Kern} {r : Ran} (h : Memory.wf k0.mem = true) (hr : RanOk r) :
    Memory.wf (endCopy c j k0 r).mem = true := by
  unfold endCopy
  cases r with
  | done k status => exact wf_paidUnit (fun _ => wf_settleCopy) (fun _ _ => modCopy_mem _ _ _ _) h hr
  | wait k done faddr sub =>
    dsimp only
    rw [waitFor_mem]
    exact h
  | far ctx obj off n =>
    dsimp only
    exact (askLines_mem (asUnit k0 (jobUnit j.id)) ctx obj off n).symm ▸ h
  | malformed k sub done tile block =>
    exact wf_paidUnit (fun _ hk => wf_settleCopy (wf_grainLog hk)) (fun _ _ => modCopy_mem _ _ _ _) h hr

theorem ends_execCopyRetire {core slot : Nat} {s : State} (h : Memory.wf s.kern.mem = true) :
    EndsOk (execCopyRetire core slot s) := by
  unfold execCopyRetire
  dsimp only
  split
  · exact ends_answer h
  · split
    · exact ends_answer h
    · split
      · split
        · exact ends_answer h
        · exact ends_answer (wf_settleCopy h)
      · exact ends_answer (wf_endCopy h (ranOk_runCopy h))

/-! ## Bed loads (R207) -/

theorem wf_grainStream {ctx cls cap entry m n : Nat} {k : Kern} (h : Memory.wf k.mem = true) :
    Memory.wf (grainStream ctx cls cap entry m n k).1.mem = true := by
  induction n generalizing k with
  | zero => exact h
  | succ n ih =>
    have htile : Memory.wf (expandTile k ctx cls cap (entry + 4 * (m - (n + 1)))).1.mem = true := wf_expandTile h
    unfold grainStream
    dsimp only
    split
    · rename_i heq
      rw [heq] at htile
      exact htile
    · rename_i k' tile heq
      rw [heq] at htile
      have hrest : Memory.wf (grainStream ctx cls cap entry m n k').1.mem = true := ih htile
      split
      all_goals
        rename_i heq
        rw [heq] at hrest
        exact hrest

theorem wf_plainStream {k : Kern} {c cls : Nat} {blk : Block} {j : BedJob} {size e : Nat} (h : Memory.wf k.mem = true) :
    Memory.wf (plainStream k c cls blk j size e).1.mem = true := by
  unfold plainStream
  split
  · exact h
  · exact wf_interpret h

theorem wf_bedStream {k : Kern} {c : Nat} {blk : Block} {l : Launch} {j : BedJob} (h : Memory.wf k.mem = true) :
    Memory.wf (bedStream k c blk l j).1.mem = true := by
  unfold bedStream
  dsimp only
  split
  · exact wf_grainStream h
  · split <;> exact wf_of_fst ‹_› (wf_plainStream h)

theorem wf_landBed {k : Kern} {c : Nat} {blk : Block} {l : Launch} {j : BedJob} {a : Except (TileStop × Nat) (List Byte)}
    (h : Memory.wf k.mem = true) : Memory.wf (landBed k c blk l j a).mem = true := by
  unfold landBed
  split
  · dsimp only
    rw [retireBed_mem]
    exact h
  · rw [stopBed_mem]
    exact h
  · exact h
  · rw [stopBed_mem]
    exact h
  · rw [stopBed_mem]
    exact wf_grainLog h

theorem wf_runBed {k0 : Kern} {c : Nat} {j : BedJob} (h : Memory.wf k0.mem = true) : Memory.wf (runBed k0 c j).mem = true := by
  unfold runBed
  split
  · exact h
  · split
    split
    · apply wf_landBed
      exact h
    · apply wf_paidUnit
      · intro k h1
        apply wf_landBed
        exact h1
      · intro k a
        rw [modCore_mem]
      · exact h
      · refine wf_of_fst ‹_› ?_
        apply wf_bedStream
        exact h

theorem ends_execBedldComplete {core job : Nat} {s : State} (h : Memory.wf s.kern.mem = true) :
    EndsOk (execBedldComplete core job s) := by
  unfold execBedldComplete
  dsimp only
  split
  · exact ends_answer h
  · split
    · exact ends_answer (wf_runBed h)
    · exact ends_answer h

/-! ## COPYQ's slot (R188) -/

theorem wf_writeFarSlot {k : Kern} {c : Nat} {j : CopyqJob} (h : Memory.wf k.mem = true) :
    Memory.wf (writeFarSlot k c j).mem = true := by
  unfold writeFarSlot
  dsimp only
  split
  · rw [offUnit_mem, askLines_mem]
    exact h
  · exact h
  · exact h
  · split
    · rw [dropSlot_mem]
      exact wf_writeObj h
    · exact h

theorem wf_writeSlot {k : Kern} {c : Nat} {j : CopyqJob} (h : Memory.wf k.mem = true) :
    Memory.wf (writeSlot k c j).mem = true := by
  unfold writeSlot
  dsimp only
  split
  · exact wf_writeFarSlot h
  · split
    · exact h
    · exact h
    · split
      · rw [registerQueue_mem, dropSlot_mem]
        exact wf_writeObj h
      · exact h

theorem ends_execCopyqSlotWrite {core job : Nat} {s : State} (h : Memory.wf s.kern.mem = true) :
    EndsOk (execCopyqSlotWrite core job s) := by
  unfold execCopyqSlotWrite
  split
  · exact ends_answer h
  · exact ends_answer (wf_writeSlot h)

/-! ## Taking a slot (R189) -/

theorem wf_takePacket {k : Kern} {n : Nat} {q : Queue} {b : List Byte} {fail : Option W32} (h : Memory.wf k.mem = true) :
    Memory.wf (takePacket k n q b fail).mem = true := by
  unfold takePacket
  dsimp only
  rw [modQueue_mem]
  exact wf_writeObj h

theorem wf_takeSlot {k : Kern} {c n : Nat} {q : Queue} (h : Memory.wf k.mem = true) :
    Memory.wf (takeSlot k c n q).mem = true := by
  unfold takeSlot
  dsimp only
  split
  · exact h
  · split
    · exact h
    · split
      · exact h
      · split
        · apply wf_takePacket
          refine wf_of_fst ‹_› ?_
          apply wf_readRuns
          exact h
        · apply wf_takePacket
          refine wf_of_fst ‹_› ?_
          apply wf_readRuns
          exact h

theorem ends_execQueueTakeSlot {queue : Nat} {s : State} (h : Memory.wf s.kern.mem = true) :
    EndsOk (execQueueTakeSlot queue s) := by
  unfold execQueueTakeSlot
  split
  · exact ends_answer h
  · dsimp only
    split
    · exact ends_answer (wf_takeSlot h)
    · split
      · apply ends_answer
        dsimp only
        rw [findHeader_mem]
        exact h
      · exact ends_answer h

/-! ## Copy-queue packets (R187) -/

theorem ranOk_runPacket {k : Kern} {ctx : Nat} {p : Packet} (h : Memory.wf k.mem = true) : RanOk (runPacket k ctx p) := by
  unfold runPacket
  dsimp only
  split
  · exact h
  · split
    · exact ranOk_stopped h _ _
    · split
      · exact ranOk_runMove h
      · exact ranOk_runMove h
      · split
        · exact ranOk_stopped h _ _
        · split
          · exact ranOk_stopped (wf_of_fst ‹_› (wf_interpret h)) _ _
          · exact ranOk_runChain (wf_of_fst ‹_› (wf_interpret h))
      · split
        · exact h
        · exact ranOk_runGrain h

theorem wf_endRun {s : State} {n : Nat} {q : Queue} {p : Packet} {r : Ran} (h : Memory.wf s.kern.mem = true) (hr : RanOk r) :
    Memory.wf (endRun s n q p r).mem = true := by
  unfold endRun
  cases r with
  | done k status =>
    dsimp only
    rw [setResult_mem]
    exact hr
  | wait k done faddr sub =>
    dsimp only
    rw [waitPacket_mem]
    exact h
  | far ctx obj off m =>
    dsimp only
    exact (askLines_mem (asUnit s.kern (packetUnit n p.w)) ctx obj off m).symm ▸ h
  | malformed k sub done tile block =>
    dsimp only
    rw [setResult_mem]
    exact wf_grainLog hr

/-! ## Retiring (R189, R190) -/

theorem wf_writeStatus {k k' : Kern} {ctx sta : Nat} {status : W32} (h : Memory.wf k.mem = true)
    (hk : writeStatus k ctx sta status = .ok k') : Memory.wf k'.mem = true := by
  unfold writeStatus at hk
  split at hk
  · cases hk
    exact h
  · split at hk
    · cases hk
    · cases hk
      exact wf_writeObj h

theorem wf_packetStatus {k k' : Kern} {q : Queue} {p : Packet} {status : W32} (h : Memory.wf k.mem = true)
    (hk : packetStatus k q p status = .ok k') : Memory.wf k'.mem = true := by
  unfold packetStatus at hk
  split at hk
  · exact wf_writeStatus h hk
  · cases hk
    exact h

theorem wf_retirePacket {s : State} {n : Nat} {q : Queue} {p : Packet} {status : W32} (h : Memory.wf s.kern.mem = true) :
    Memory.wf (retirePacket s n q p status).mem = true := by
  unfold retirePacket
  dsimp only
  split
  · exact h
  · split
    · exact h
    · rw [leaveQueue_mem, endUnit_mem, doneWaiting_mem]
      exact wf_packetStatus h ‹_›

theorem ends_execPacketRetire {queue packet : Nat} {s : State} (h : Memory.wf s.kern.mem = true) :
    EndsOk (execPacketRetire queue packet s) := by
  unfold execPacketRetire
  split
  · exact ends_answer h
  · split
    · exact ends_answer (wf_retirePacket h)
    · split
      · exact ends_answer h
      · dsimp only
        split
        · exact ends_answer (wf_retirePacket (wf_endRun h (ranOk_runPacket h)))
        · exact ends_answer (wf_endRun h (ranOk_runPacket h))

/-! ## Gather walkers (R191, R192) -/

theorem ranOk_runWalk {k : Kern} {ctx : Nat} {p : Packet} (h : Memory.wf k.mem = true) : RanOk (runWalk k ctx p) := by
  unfold runWalk
  dsimp only
  split
  · exact h
  · exact ranOk_runGather h

theorem ends_execGather {queue packet : Nat} {s : State} (h : Memory.wf s.kern.mem = true) :
    EndsOk (execGather queue packet s) := by
  unfold execGather
  split
  · exact ends_answer h
  · split
    · split
      · exact ends_answer (wf_endRun h (ranOk_runWalk h))
      · exact ends_answer h
    · exact ends_answer h

/-! ## The collective unit (R193 to R195) -/

theorem wf_runColl {k : Kern} {ctx : Nat} {x : Coll} {ms : List Nat} {index : Nat} {vals : List Nat} {others : List Posted}
    {heard : List Posted} (h : Memory.wf k.mem = true) :
    Memory.wf (runColl k ctx x ms index vals others heard).1.mem = true := by
  unfold runColl
  split
  · exact h
  · split
    · exact h
    · split
      · exact h
      · split
        · exact h
        · dsimp only
          split
          · exact wf_landBytes h ‹_›
          · exact h
          · exact h
          · exact h

theorem wf_joinColl {s : State} {n : Nat} {q : Queue} {p : Packet} {own : Posted} (h : Memory.wf s.kern.mem = true) :
    Memory.wf (joinColl s n q p own).kern.mem = true := by
  unfold joinColl
  dsimp only
  split
  · exact h
  · split
    · exact h
    · split
      · dsimp only
        rw [setResult_mem]
        rw [offUnit_mem]
        refine wf_of_fst ‹_› ?_
        apply wf_runColl
        exact h
      · exact h

theorem collStop_ne_ready (e : Stop) (k : Kern) (ms vals : List Nat) : collStop e ≠ .ready k ms vals := by
  cases e <;> simp [collStop]

theorem wf_collSource {k k' : Kern} {ctx index : Nat} {x : Coll} {ms ms' vals : List Nat} (h : Memory.wf k.mem = true)
    (hk : collSource k ctx x ms index = .ready k' ms' vals) : Memory.wf k'.mem = true := by
  unfold collSource at hk
  split at hk
  · exact absurd hk (collStop_ne_ready _ _ _ _)
  · exact absurd hk (collStop_ne_ready _ _ _ _)
  · split at hk
    · cases hk
      exact h
    · split at hk
      · exact absurd hk (collStop_ne_ready _ _ _ _)
      · cases hk
        exact wf_of_fst ‹_› (wf_interpret h)

theorem wf_collOwn {k k' : Kern} {dev ctx : Nat} {p : Packet} {x : Coll} {clash : Bool} {ms vals : List Nat}
    (h : Memory.wf k.mem = true) (hk : collOwn k dev ctx p x clash = .ready k' ms vals) : Memory.wf k'.mem = true := by
  unfold collOwn at hk
  split at hk
  · cases hk
  · split at hk
    · exact absurd hk (collStop_ne_ready _ _ _ _)
    · split at hk
      · exact absurd hk (collStop_ne_ready _ _ _ _)
      · have hmembers := wf_of_fst ‹_› (wf_interpret h)
        dsimp only at hk
        split at hk
        · cases hk
        · split at hk
          · cases hk
          · split at hk
            · cases hk
            · split at hk
              · cases hk
              · exact wf_collSource hmembers hk

theorem ends_execCollective {queue packet : Nat} {s : State} (h : Memory.wf s.kern.mem = true) :
    EndsOk (execCollective queue packet s) := by
  unfold execCollective
  split
  · exact ends_answer h
  · split
    · exact ends_answer h
    · dsimp only
      split
      · exact ends_answer (wf_joinColl h)
      · split
        · exact ends_answer ((failColl_mem _ _ _ _ _ _).symm ▸ h)
        · exact ends_answer ((waitPacket_mem _ _ _ _ _ _ _).symm ▸ h)
        · exact ends_answer ((askLines_mem (asUnit s.kern (packetUnit queue packet)) _ _ _ _).symm ▸ h)
        · exact ends_answer ((postColl_mem _ _ _ _).symm ▸ wf_collOwn (k := asUnit s.kern (packetUnit queue packet)) h ‹_›)

/-! ## Service of a unit (R441) -/

theorem wf_declinedRun {r : Ran} {k : Kern} {st : Nat} (h : RanOk r) (hr : declinedRun r = some (k, st)) : Memory.wf k.mem = true := by
  cases r with
  | wait k done faddr sub =>
    cases hr
    exact h
  | done k status => cases hr
  | far ctx obj off n => cases hr
  | malformed k sub done tile block => cases hr

theorem wf_declinePacket {k : Kern} {n w sub : Nat} (h : Memory.wf k.mem = true) :
    Memory.wf (declinePacket k n w sub).mem = true := by
  unfold declinePacket
  split
  · exact h
  · dsimp only
    split
    · rw [modQueue_mem]
      exact h
    · split
      · rw [setResult_mem]
        exact h
      · split
        · rw [setResult_mem, offUnit_mem]
          refine wf_declinedRun ?_ ‹_›
          split
          · exact ranOk_runPacket h
          · exact ranOk_runWalk h
        · exact h

theorem wf_declineCopy {k : Kern} {c : Nat} {j : CopyJob} (h : Memory.wf k.mem = true) :
    Memory.wf (declineCopy k c j).mem = true := by
  unfold declineCopy
  split
  · exact wf_settleCopy (wf_declinedRun (ranOk_runCopy (k := asUnit k _) h) ‹_›)
  · exact h

theorem wf_declineUnit {k : Kern} {w : UnitWait} (h : Memory.wf k.mem = true) : Memory.wf (declineUnit k w).mem = true := by
  unfold declineUnit
  dsimp only
  split
  · split
    · exact wf_declineCopy h
    · exact h
  · exact wf_declinePacket h
  · split
    · rw [stopBed_mem]
      exact h
    · exact h
  · split
    · exact wf_failFeed h
    · exact h
  · exact h

theorem ends_execUnitAccessService {unit : Nat} {declined : Bool} {s : State} (h : Memory.wf s.kern.mem = true) :
    EndsOk (execUnitAccessService unit declined s) := by
  unfold execUnitAccessService
  split
  · exact ends_answer h
  · dsimp only
    split
    · split
      · exact ends_answer (wf_declineUnit h)
      · exact ends_answer h
    · split
      · split <;> exact ends_answer h
      · split <;> exact ends_answer h

/-! ## Grants (R413, R414, R419, R420) -/

theorem ends_execArbitrate {s : State} (h : Memory.wf s.kern.mem = true) : EndsOk (execArbitrate s) := by
  unfold execArbitrate
  apply ends_answer
  split <;> exact h

theorem ends_execGrantChangeComplete {s : State} (h : Memory.wf s.kern.mem = true) : EndsOk (execGrantChangeComplete s) := by
  unfold execGrantChangeComplete
  split <;> exact ends_answer h

theorem ends_execTcapChange {s : State} (h : Memory.wf s.kern.mem = true) : EndsOk (execTcapChange s) := by
  unfold execTcapChange
  dsimp only
  split <;> exact ends_answer h

theorem ends_execBoostTick {s : State} (h : Memory.wf s.kern.mem = true) : EndsOk (execBoostTick s) := by
  unfold execBoostTick
  split
  · apply ends_answer
    rw [tickBoost_mem]
    exact h
  · exact ends_answer h

/-! ## Bays (R417, R418) -/

theorem ends_execBayControllerEvaluation {bay : Nat} {s : State} (h : Memory.wf s.kern.mem = true) :
    EndsOk (execBayControllerEvaluation bay s) := by
  unfold execBayControllerEvaluation
  dsimp only
  split <;> exact ends_answer h

theorem ends_execTempbandChange {s : State} (h : Memory.wf s.kern.mem = true) : EndsOk (execTempbandChange s) := by
  unfold execTempbandChange
  exact ends_answer h

/-! ## Gating (R361, R422, R303, R313) -/

theorem ends_execGatingSequence {bay : Nat} {s : State} (h : Memory.wf s.kern.mem = true) :
    EndsOk (execGatingSequence bay s) := by
  unfold execGatingSequence
  dsimp only
  split
  · split <;> exact ends_answer h
  · split <;> exact ends_answer h
  · exact ends_answer h

theorem ends_execBayWakeComplete {bay : Nat} {s : State} (h : Memory.wf s.kern.mem = true) :
    EndsOk (execBayWakeComplete bay s) := by
  unfold execBayWakeComplete
  split <;> exact ends_answer h

theorem ends_execWayGating {core : Nat} {gate : Bool} {s : State} (h : Memory.wf s.kern.mem = true) :
    EndsOk (execWayGating core gate s) := by
  unfold execWayGating
  dsimp only
  split
  · split <;> exact ends_answer h
  · split
    · exact ends_answer h
    · split <;> exact ends_answer h

/-! ## Subscriptions (R423, R424) -/

theorem wf_storeNotify {k k' : Kern} {x : Subscription} {w : Nat} (h : Memory.wf k.mem = true)
    (hk : storeNotify k x w = some k') : Memory.wf k'.mem = true := by
  unfold storeNotify at hk
  dsimp only at hk
  split at hk
  · cases hk
  · split at hk
    · cases hk
      exact wf_writeObj h
    · cases hk

theorem wf_fire {s : State} {n : Nat} {x : Subscription} (h : Memory.wf s.kern.mem = true) :
    Memory.wf (fire s n x).kern.mem = true := by
  unfold fire
  dsimp only
  split
  · exact h
  · exact wf_storeNotify h ‹_›

theorem ends_execSubscriptionFiring {sub : Nat} {s : State} (h : Memory.wf s.kern.mem = true) :
    EndsOk (execSubscriptionFiring sub s) := by
  unfold execSubscriptionFiring
  split
  · exact ends_answer h
  · split
    · exact ends_answer h
    · split
      · exact ends_answer (wf_fire h)
      · exact ends_answer h

/-! ## Refills (R372) -/

theorem ends_execRefill {core : Nat} {s : State} (h : Memory.wf s.kern.mem = true) : EndsOk (execRefill core s) := by
  unfold execRefill
  split <;> exact ends_answer h

/-! ## Retirement (R279, R382) -/

theorem wf_endLaunch {s : State} {c serial : Nat} {l : Launch} (h : Memory.wf s.kern.mem = true) :
    Memory.wf (endLaunch s c serial l).kern.mem = true := by
  unfold endLaunch
  dsimp only
  rw [arbiterDue_mem]
  dsimp only
  split
  · split
    · rw [modCtx_mem]
      exact wf_logRecord h
    · exact wf_logRecord h
  · split
    · rw [modCtx_mem]
      exact wf_logRecord h
    · exact wf_logRecord h

theorem wf_retireBlock {s : State} {c b : Nat} {blk : Block} (h : Memory.wf s.kern.mem = true) :
    Memory.wf (retireBlock s c b blk).kern.mem = true := by
  unfold retireBlock
  dsimp only
  split
  · rw [noteEmpty_mem]
    dsimp only
    rw [leaveBucket_mem, dropRegion_mem, sampleEnd_mem, dropBlock_mem]
    exact h
  · rw [checkVacated_mem]
    split
    · apply wf_endLaunch
      dsimp only
      rw [noteEmpty_mem]
      dsimp only
      rw [leaveBucket_mem, dropRegion_mem, sampleEnd_mem, dropBlock_mem]
      exact h
    · dsimp only
      rw [noteEmpty_mem]
      dsimp only
      rw [leaveBucket_mem, dropRegion_mem, sampleEnd_mem, dropBlock_mem]
      exact h

theorem ends_execBlockRetire {core block : Nat} {s : State} (h : Memory.wf s.kern.mem = true) :
    EndsOk (execBlockRetire core block s) := by
  unfold execBlockRetire
  split
  · exact ends_answer h
  · dsimp only
    split
    · exact ends_answer (wf_retireBlock h)
    · exact ends_answer h

/-! ## Stand-down slots (R378) -/

theorem wf_writeStand {k : Kern} {blk : Block} {ts : List Thread} {off form : Nat} (h : Memory.wf k.mem = true) :
    Memory.wf (writeStand k blk ts off form).mem = true := by
  unfold writeStand
  exact wf_writeObj (wf_writeObj h)

/-! ## Vacating (R375) -/

theorem wf_vacateBlock {s : State} {c b : Nat} {blk : Block} {off : Nat} (h : Memory.wf s.kern.mem = true) :
    Memory.wf (vacateBlock s c b blk off).kern.mem = true := by
  unfold vacateBlock
  dsimp only
  rw [checkVacated_mem, noteEmpty_mem]
  dsimp only
  rw [leaveBucket_mem, dropBlock_mem]
  exact wf_writeStand h

theorem wf_vacateFails {k : Kern} {c b : Nat} {blk : Block} (h : Memory.wf k.mem = true) :
    Memory.wf (vacateFails k c b blk).mem = true := by
  unfold vacateFails
  split
  · exact wf_stopContext h
  · exact h

theorem ends_execBlockVacate {core block : Nat} {s : State} (h : Memory.wf s.kern.mem = true) :
    EndsOk (execBlockVacate core block s) := by
  unfold execBlockVacate
  split
  · exact ends_answer h
  · dsimp only
    split
    · split
      · exact ends_answer (wf_vacateBlock h)
      · exact ends_answer (wf_vacateFails h)
    · exact ends_answer h

/-! ## Re-dispatch (R377) -/

theorem wf_restartBlock {s : State} {l : Launch} {v : Vacated} {c o : Nat} {bs : List Byte} {r : Room}
    (h : Memory.wf s.kern.mem = true) : Memory.wf (restartBlock s l v c o bs r).kern.mem = true := by
  unfold restartBlock
  dsimp only
  apply wf_writeObj
  rw [beginGroups_mem, dropLines_mem]
  apply wf_copyParams
  rw [enterBucket_mem, modCore_mem]
  dsimp only
  rw [wakeBanks_mem]
  exact wf_wipe h

theorem wf_bringBack {s s' : State} {l : Launch} {v : Vacated} {c : Nat} (h : Memory.wf s.kern.mem = true)
    (hs : bringBack s l v c = some s') : Memory.wf s'.kern.mem = true := by
  unfold bringBack at hs
  dsimp only at hs
  split at hs
  · cases hs
  · obtain ⟨r, -, rfl⟩ := Option.map_eq_some_iff.mp hs
    exact wf_restartBlock h

theorem wf_bringAll {l : Launch} {vs : List Vacated} {s s' : State} (h : Memory.wf s.kern.mem = true)
    (hs : bringAll l vs s = some s') : Memory.wf s'.kern.mem = true := by
  induction vs generalizing s with
  | nil =>
    cases hs
    exact h
  | cons v vs ih =>
    unfold bringAll at hs
    split at hs
    · cases hs
    · exact ih (wf_bringBack h ‹_›) hs

/-! ## Dispatch (R355 to R359) -/

theorem wf_startNext {s : State} {c serial : Nat} (h : Memory.wf s.kern.mem = true) :
    Memory.wf (startNext s c serial).kern.mem = true := by
  unfold startNext
  split
  · exact h
  · split
    · exact h
    · dsimp only
      rw [endLease_mem]
      exact wf_startBlock h

theorem wf_startCard {s : State} {c : Nat} {x : Card} {l : Launch} {store : Kern → Nat → Kern} (h : Memory.wf s.kern.mem = true)
    (hstore : ∀ (k : Kern) (n : Nat), Memory.wf k.mem = true → Memory.wf (store k n).mem = true) :
    Memory.wf (startCard s c x l store).kern.mem = true := by
  unfold startCard
  dsimp only
  apply hstore
  apply wf_startNext
  rw [admitCard_mem]
  exact h

theorem wf_pullShared {s : State} {c serial : Nat} (h : Memory.wf s.kern.mem = true) :
    Memory.wf (pullShared s c serial).kern.mem = true := by
  unfold pullShared
  dsimp only
  split
  · exact h
  · rw [modBay_mem]
    exact wf_startNext h

theorem wf_takeBlock {s : State} {c : Nat} {x : Source} (h : Memory.wf s.kern.mem = true) :
    Memory.wf (takeBlock s c x).kern.mem = true := by
  have hlease : ∀ s' b, takeLease s (bayOf c) = (s', b) → Memory.wf s'.kern.mem = true := fun s' b hs => by
    have hmem := takeLease_mem s (bayOf c)
    rw [hs] at hmem
    exact hmem.symm ▸ h
  unfold takeBlock
  split
  · dsimp only
    rw [sourceAsks_mem ‹_›]
    exact h
  · exact hlease _ _ ‹_›
  · split
    · exact wf_startCard (hlease _ _ ‹_›) fun _ _ hk => hk
    · exact wf_startCard (hlease _ _ ‹_›) fun _ _ hk => hk
    · exact wf_pullShared (hlease _ _ ‹_›)

theorem ends_execBlockDispatch {core : Nat} {s : State} (h : Memory.wf s.kern.mem = true) :
    EndsOk (execBlockDispatch core s) := by
  unfold execBlockDispatch
  split
  · exact ends_answer h
  · exact ends_answer (wf_takeBlock h)

theorem ends_execBayDispatchPull {bay core : Nat} {s : State} (h : Memory.wf s.kern.mem = true) :
    EndsOk (execBayDispatchPull bay core s) := by
  unfold execBayDispatchPull
  split
  · split
    · exact ends_answer (wf_takeBlock h)
    · exact ends_answer h
  · exact ends_answer h

theorem wf_leaseAll {s s' : State} {bs : List Nat} {b : Bool} (h : Memory.wf s.kern.mem = true) (hs : leaseAll s bs = (s', b)) :
    Memory.wf s'.kern.mem = true := by
  have hmem := leaseAll_mem s bs
  rw [hs] at hmem
  exact hmem.symm ▸ h

theorem ends_execBlockRedispatch {vac core : Nat} {s : State} (h : Memory.wf s.kern.mem = true) :
    EndsOk (execBlockRedispatch vac core s) := by
  unfold execBlockRedispatch
  split
  · exact ends_answer h
  · split
    · exact ends_answer h
    · dsimp only
      generalize (if isField _ then _ else _ : List Vacated) = vs
      split
      · exact ends_answer h
      · split
        · exact ends_answer (wf_leaseAll h ‹_›)
        · have hleased := wf_leaseAll h ‹_›
          split
          · exact ends_answer hleased
          · apply ends_answer
            rw [runContext_mem, foldlS_mem (fun _ _ => endLease_mem _ _)]
            exact wf_bringAll hleased ‹_›

theorem ends_execFieldPlacement {launch : Nat} {s : State} (h : Memory.wf s.kern.mem = true) :
    EndsOk (execFieldPlacement launch s) := by
  unfold execFieldPlacement
  split
  · exact ends_answer h
  · split
    · exact ends_answer h
    · split
      · exact ends_answer (wf_endLaunch h)
      · split
        · exact ends_answer (wf_leaseAll h ‹_›)
        · have hleased := wf_leaseAll h ‹_›
          split
          · exact ends_answer hleased
          · apply ends_answer
            dsimp only
            rw [foldlS_mem (fun _ _ => endLease_mem _ _)]
            exact wf_startBricks hleased ‹_›

/-! ## Pre-emption (R360, R363) -/

theorem ends_execPreemptionSend {s : State} (h : Memory.wf s.kern.mem = true) : EndsOk (execPreemptionSend s) := by
  unfold execPreemptionSend
  split
  · exact ends_answer h
  · split
    · exact ends_answer h
    · split <;> exact ends_answer h

/-! ## Graph runs (R352 to R354) -/

theorem wf_storeStatus {k : Kern} {g : Graph} {reason detail node : Nat} (h : Memory.wf k.mem = true) :
    Memory.wf (storeStatus k g reason detail node).mem = true := by
  unfold storeStatus
  dsimp only
  split
  · exact h
  · exact wf_writeObj h

theorem ends_execTrigger {w : W64} {s : State} (h : Memory.wf s.kern.mem = true) : EndsOk (execTrigger w s) := by
  unfold execTrigger
  dsimp only
  split
  · exact ends_answer h
  · split
    · exact ends_answer h
    · exact ends_answer (wf_storeStatus h)

theorem ends_execRun {graph : Nat} {s : State} (h : Memory.wf s.kern.mem = true) : EndsOk (execRun graph s) := by
  unfold execRun
  split
  · exact ends_answer h
  · split
    · exact ends_answer h
    · split
      · exact ends_answer h
      · split
        · apply ends_answer
          dsimp only
          rw [runAsks_mem ‹_›]
          exact h
        · apply ends_answer
          rw [startRun_mem]
          exact h

theorem ends_execAdmission {graph node : Nat} {s : State} (h : Memory.wf s.kern.mem = true) :
    EndsOk (execAdmission graph node s) := by
  unfold execAdmission
  split
  · exact ends_answer h
  · split
    · exact ends_answer h
    · dsimp only
      split
      · apply ends_answer
        dsimp only
        rw [recordAsks_mem ‹_›]
        exact h
      · exact ends_answer h
      · apply ends_answer
        dsimp only
        rw [modNode_mem, admitLaunch_mem]
        exact h

theorem ends_execNodeComplete {launch : Nat} {s : State} (h : Memory.wf s.kern.mem = true) :
    EndsOk (execNodeComplete launch s) := by
  unfold execNodeComplete
  split
  · exact ends_answer h
  · split <;> exact ends_answer h

theorem ends_execRunEnd {graph : Nat} {s : State} (h : Memory.wf s.kern.mem = true) : EndsOk (execRunEnd graph s) := by
  unfold execRunEnd
  split
  · exact ends_answer h
  · split
    · exact ends_answer h
    · exact ends_answer (wf_storeStatus h)

/-! ## Cold zeroing (R298) -/

theorem wf_zeroPublication {k : Kern} {a t : Nat} (h : Memory.wf k.mem = true) :
    Memory.wf (zeroPublication k a t).mem = true := by
  unfold zeroPublication
  dsimp only
  split
  · exact wf_putBytes _ _ (wf_putBytes _ _ h)
  · exact wf_putBytes _ _ h

/-! ## Notices (R288) -/

theorem wf_installNotice {k : Kern} {c : Nat} {r : XRegion} {i : Nat} {n : Notice} (h : Memory.wf k.mem = true) :
    Memory.wf (installNotice k c r i n).mem = true := by
  unfold installNotice
  dsimp only
  split
  · exact foldl_wf (fun _ _ h1 => wf_zeroPublication h1) _ (wf_putBytes _ _ h)
  · split
    · split
      · split
        · apply wf_zeroPublication
          rw [modRegion_mem]
          exact wf_putBytes _ _ (wf_putBytes _ _ (wf_putBytes _ _ h))
        · rw [modRegion_mem]
          exact wf_putBytes _ _ (wf_putBytes _ _ (wf_putBytes _ _ h))
      · split
        · apply wf_zeroPublication
          rw [modRegion_mem]
          exact wf_putBytes _ _ h
        · rw [modRegion_mem]
          exact wf_putBytes _ _ h
    · split
      · split
        · exact wf_zeroPublication (wf_putBytes _ _ (wf_putBytes _ _ (wf_putBytes _ _ h)))
        · exact wf_putBytes _ _ (wf_putBytes _ _ (wf_putBytes _ _ h))
      · split
        · exact wf_zeroPublication (wf_putBytes _ _ h)
        · exact wf_putBytes _ _ h

theorem ends_execFaceNotice {core notice : Nat} {s : State} (h : Memory.wf s.kern.mem = true) :
    EndsOk (execFaceNotice core notice s) := by
  unfold execFaceNotice
  dsimp only
  split
  · exact ends_answer h
  · split
    · split
      · split
        · exact ends_answer (wf_installNotice h)
        · exact ends_answer h
      · exact ends_answer h
    · split <;> exact ends_answer h
    · exact ends_answer h

/-! ## STEP.R (R221) -/

theorem ends_execStepRPublicationReady {core cell : Nat} {s : State} (h : Memory.wf s.kern.mem = true) :
    EndsOk (execStepRPublicationReady core cell s) := by
  unfold execStepRPublicationReady
  split
  · exact ends_answer h
  · apply ends_answer
    dsimp only
    rw [makeReadable_mem]
    exact h

/-! ## The truss (R297, R298, R225) -/

theorem wf_decideFrame {cold mixed : Bool} {a : Nat} {k : Kern} (h : Memory.wf k.mem = true) :
    Memory.wf (decideFrame cold mixed a k).mem = true := by
  unfold decideFrame
  dsimp only
  split
  · exact wf_putBytes _ _ (wf_putBytes _ _ h)
  · exact wf_putBytes _ _ h

theorem wf_decideRegion {serial t : Nat} {cold mixed : Bool} {k : Kern} {c : Nat} {r : XRegion} (h : Memory.wf k.mem = true) :
    Memory.wf (decideRegion serial t cold mixed k c r).mem = true := by
  unfold decideRegion
  split
  · exact h
  · dsimp only
    split
    · exact foldl_wf (fun _ _ h1 => wf_zeroPublication h1) _ (foldl_wf (fun _ _ h1 => wf_decideFrame h1) _ h)
    · exact foldl_wf (fun _ _ h1 => wf_decideFrame h1) _ h

theorem wf_decide {k : Kern} {serial t : Nat} {f : Field} {x : TrussStep} (h : Memory.wf k.mem = true) :
    Memory.wf (decide_ k serial t f x).mem = true := by
  unfold decide_
  exact foldl_wf (fun _ _ h1 => foldl_wf (fun _ _ h2 => wf_decideRegion h2) _ h1) _ h

theorem wf_completeStep {k : Kern} {serial t : Nat} {f : Field} (h : Memory.wf k.mem = true) :
    Memory.wf (completeStep k serial t f).mem = true := by
  unfold completeStep
  dsimp only
  split
  · exact wf_decide h
  · exact h

theorem ends_execTrussStepComplete {launch step : Nat} {s : State} (h : Memory.wf s.kern.mem = true) :
    EndsOk (execTrussStepComplete launch step s) := by
  unfold execTrussStepComplete
  split
  · exact ends_answer h
  · split
    · exact ends_answer (wf_completeStep h)
    · exact ends_answer h

/-! ## Combining in the leaf (R395) -/

theorem ends_execCombiningWindowClose {group : Nat} {s : State} (h : Memory.wf s.kern.mem = true) :
    EndsOk (execCombiningWindowClose group s) := by
  unfold execCombiningWindowClose
  split <;> exact ends_answer h

theorem ends_execCombinedReply {group : Nat} {s : State} (h : Memory.wf s.kern.mem = true) :
    EndsOk (execCombinedReply group s) := by
  unfold execCombinedReply
  split
  · exact ends_answer h
  · split <;> exact ends_answer h

/-! ## Arrival (R386) -/

theorem wf_endFar {k : Kern} {id : Nat} {line : Option Nat} {e : FarEnd} (h : Memory.wf k.mem = true) :
    Memory.wf (endFar k id line e).mem = true := by
  unfold endFar
  split
  · exact h
  · dsimp only
    rw [modFar_mem]
    split
    · exact wf_putBytes _ _ h
    · exact h

theorem wf_deliverAnswer {s : State} {p : FabPacket} {c r : Nat} (h : Memory.wf s.kern.mem = true) :
    Memory.wf (deliverAnswer s p c r).kern.mem = true := by
  unfold deliverAnswer
  split
  · exact h
  · split
    · exact wf_endFar h
    · split
      · rw [relayAnswer_mem]
        exact h
      · split <;> exact h

theorem wf_deliverPacket {s : State} {p : FabPacket} (h : Memory.wf s.kern.mem = true) :
    Memory.wf (deliverPacket s p).kern.mem = true := by
  unfold deliverPacket
  split
  · dsimp only
    rw [deliverFace_mem]
    exact h
  · rw [hearPost_mem]
    exact h
  · exact h
  · split
    · exact wf_deliverAnswer h
    · exact h

theorem wf_drainStream {n : Nat} {x : Stream} {s : State} (h : Memory.wf s.kern.mem = true) :
    Memory.wf (drainStream n x s).kern.mem = true := by
  induction n generalizing x s with
  | zero => exact h
  | succ n ih =>
    unfold drainStream
    split
    · split
      · apply ih
        rw [acknowledge_mem]
        exact wf_deliverPacket h
      · exact h
    · exact h

theorem wf_comeIn {s : State} {p : FabPacket} (h : Memory.wf s.kern.mem = true) : Memory.wf (comeIn s p).kern.mem = true := by
  unfold comeIn
  dsimp only
  split
  · rw [acknowledge_mem]
    exact h
  · split
    · exact h
    · exact wf_drainStream h

theorem ends_execPacketArrival {packet : Nat} {s : State} (h : Memory.wf s.kern.mem = true) :
    EndsOk (execPacketArrival packet s) := by
  unfold execPacketArrival
  split
  · exact ends_answer h
  · dsimp only
    split
    · exact ends_answer h
    · split
      · split
        · exact ends_answer (wf_comeIn h)
        · exact ends_answer h
      · split
        · apply ends_answer
          rw [atLeaf_mem]
          exact h
        · split
          · apply ends_answer
            rw [goOut_mem]
            exact h
          · exact ends_answer h

/-! ## Retransmission and planes (R386, R387) -/

theorem ends_execRetransmissionTimeout {packet : Nat} {s : State} (h : Memory.wf s.kern.mem = true) :
    EndsOk (execRetransmissionTimeout packet s) := by
  unfold execRetransmissionTimeout
  split
  · exact ends_answer h
  · split <;> exact ends_answer h

theorem ends_execPlaneFailover {dst lane : Nat} {s : State} (h : Memory.wf s.kern.mem = true) :
    EndsOk (execPlaneFailover dst lane s) := by
  unfold execPlaneFailover
  split
  · exact ends_answer h
  · split <;> exact ends_answer h

theorem ends_execClassPause {port : Nat} {cls : TrafficClass} {resume : Bool} {s : State} (h : Memory.wf s.kern.mem = true) :
    EndsOk (execClassPause port cls resume s) := by
  unfold execClassPause
  exact ends_answer h

/-! ## Unreachable destinations (R393) -/

theorem wf_endUnreachable {k : Kern} {c : Nat} {q : Req} (h : Memory.wf k.mem = true) :
    Memory.wf (endUnreachable k c q).mem = true := by
  unfold endUnreachable
  split
  · exact wf_remotePoison h
  · rw [finishReq_mem]
    exact h

theorem wf_endCore {dst : Nat} {k : Kern} {c : Nat} (h : Memory.wf k.mem = true) : Memory.wf (endCore dst k c).mem = true := by
  unfold endCore
  dsimp only
  rw [modCore_mem]
  exact foldl_wf (fun _ _ h1 => wf_endUnreachable h1) _ h

theorem wf_loseDevice {s : State} {dst : Nat} (h : Memory.wf s.kern.mem = true) :
    Memory.wf (loseDevice s dst).kern.mem = true := by
  unfold loseDevice
  dsimp only
  rw [notify_mem, endForwards_mem]
  dsimp only
  rw [endFars_mem]
  refine foldl_wf ?_ _ ?_
  · intro k a h1
    split
    · exact h1
    · exact wf_endCore h1
  · exact h

theorem ends_execUnreachableTimeout {s : State} (h : Memory.wf s.kern.mem = true) : EndsOk (execUnreachableTimeout s) := by
  unfold execUnreachableTimeout
  split
  · exact ends_answer h
  · exact ends_answer (wf_loseDevice h)

/-! ## The link (R398 to R405) -/

theorem ends_execFlitReceive {port : Nat} {flit : Flit} {s : State} (h : Memory.wf s.kern.mem = true) :
    EndsOk (execFlitReceive port flit s) := by
  unfold execFlitReceive
  exact ends_answer h

theorem ends_execReplayRequest {port : Nat} {lseq : BitVec 16} {s : State} (h : Memory.wf s.kern.mem = true) :
    EndsOk (execReplayRequest port lseq s) := by
  unfold execReplayRequest
  dsimp only
  split
  · exact ends_answer h
  · split <;> exact ends_answer h

theorem ends_execRetrainTrigger {port : Nat} {s : State} (h : Memory.wf s.kern.mem = true) :
    EndsOk (execRetrainTrigger port s) := by
  unfold execRetrainTrigger
  split <;> exact ends_answer h

theorem ends_execTrainComplete {port : Nat} {lanes : BitVec 8} {s : State} (h : Memory.wf s.kern.mem = true) :
    EndsOk (execTrainComplete port lanes s) := by
  unfold execTrainComplete
  dsimp only
  split
  · apply ends_answer
    split
    · exact h
    · split <;> exact h
  · exact ends_answer h

theorem ends_execKeyMarker {port : Nat} {s : State} (h : Memory.wf s.kern.mem = true) : EndsOk (execKeyMarker port s) := by
  unfold execKeyMarker
  dsimp only
  split <;> exact ends_answer h

theorem ends_execKwarn {port : Nat} {s : State} (h : Memory.wf s.kern.mem = true) : EndsOk (execKwarn port s) := by
  unfold execKwarn
  split <;> exact ends_answer h

theorem ends_execInvocationLimit {port : Nat} {s : State} (h : Memory.wf s.kern.mem = true) :
    EndsOk (execInvocationLimit port s) := by
  unfold execInvocationLimit
  split <;> exact ends_answer h

/-! ## Margins (R430) -/

theorem ends_execMarginSequence {die : Nat} {s : State} (h : Memory.wf s.kern.mem = true) :
    EndsOk (execMarginSequence die s) := by
  unfold execMarginSequence
  split <;> exact ends_answer h

theorem ends_execHoldOffExpiry {s : State} (h : Memory.wf s.kern.mem = true) : EndsOk (execHoldOffExpiry s) := by
  unfold execHoldOffExpiry
  exact ends_answer h

/-! ## Scrubbing (R431) -/

theorem ends_execScrub {line : Nat} {s : State} (h : Memory.wf s.kern.mem = true) : EndsOk (execScrub line s) := by
  unfold execScrub
  split
  · exact ends_answer h
  · split
    · exact ends_answer h
    · apply ends_answer
      rw [scrubLine_mem]
      exact h

/-! ## Device faults (R434) -/

theorem ends_execDeviceFaultNotify {s : State} (h : Memory.wf s.kern.mem = true) : EndsOk (execDeviceFaultNotify s) := by
  unfold execDeviceFaultNotify
  dsimp only
  split
  · exact ends_answer h
  · apply ends_answer
    rw [reportFault_mem]
    exact h

/-! ## Boot (R437, R438) -/

theorem ends_execBoot {s : State} (h : Memory.wf s.kern.mem = true) : EndsOk (execBoot s) := by
  unfold execBoot
  split
  · exact ends_answer h
  · split <;> exact ends_answer h
  · exact ends_answer h
  · exact ends_answer h
  · exact ends_answer h

/-! ## Answers (R435) -/

theorem ends_done {h : CmdHdr} {s : State} (hm : Memory.wf s.kern.mem = true) : EndsOk (done_ h s) := by
  unfold done_
  exact ends_answer hm

theorem ends_refuse {s : State} {h : CmdHdr} {status : Nat} (hm : Memory.wf s.kern.mem = true) :
    EndsOk (refuse s h status) := by
  unfold refuse
  exact ends_answer hm

theorem ends_queueCommand {s : State} {i : Instr} (h : Memory.wf s.kern.mem = true) : EndsOk (queueCommand s i) := by
  unfold queueCommand
  exact ends_answer h

theorem ends_waitCommand {s : State} {i : Instr} (h : Memory.wf s.kern.mem = true) : EndsOk (waitCommand s i) := by
  unfold waitCommand
  exact ends_answer h

theorem ends_command {s : State} {i : Instr} {h : CmdHdr} {by_ : List Issuer} {body : Host.Outcome State Fault Refusal}
    (hm : Memory.wf s.kern.mem = true) (hbody : EndsOk body) : EndsOk (command s i h by_ body) := by
  unfold command
  split
  · exact ends_queueCommand hm
  · split
    · exact ends_refuse hm
    · assumption

theorem ends_rescueCommand {s : State} {i : Instr} {h : CmdHdr} {by_ : List Issuer} {body : Host.Outcome State Fault Refusal}
    (hm : Memory.wf s.kern.mem = true) (hbody : EndsOk body) : EndsOk (rescueCommand s i h by_ body) := by
  unfold rescueCommand
  split
  · exact ends_queueCommand hm
  · split
    · exact ends_refuse hm
    · assumption

/-! ## Contexts (R362, R363, R381, R426) -/

theorem ends_execCtxopen {h : CmdHdr} {ctx : Nat} {objt : W64} {s : State} (hm : Memory.wf s.kern.mem = true) :
    EndsOk (execCtxopen h ctx objt s) := by
  unfold execCtxopen
  apply ends_command
  · exact hm
  · split
    · exact ends_refuse hm
    · split
      · exact ends_refuse hm
      · exact ends_done hm

theorem wf_closeRecords {k : Kern} {ctx c : Nat} (h : Memory.wf k.mem = true) :
    Memory.wf (closeRecords k ctx c).mem = true := by
  unfold closeRecords
  exact foldl_wf (fun _ _ h1 => wf_logRecord h1) _ h

theorem wf_closeContext {s : State} {ctx : Nat} (h : Memory.wf s.kern.mem = true) :
    Memory.wf (closeContext s ctx).kern.mem = true := by
  unfold closeContext
  dsimp only
  refine foldlS_wf ?_ _ ?_
  · intro s1 a h1
    rw [noteEmpty_mem]
    exact h1
  · exact foldl_wf (fun _ _ h1 => wf_logRecord h1) _ h

theorem ends_execCtxclose {h : CmdHdr} {ctx : Nat} {s : State} (hm : Memory.wf s.kern.mem = true) :
    EndsOk (execCtxclose h ctx s) := by
  unfold execCtxclose
  apply ends_command
  · exact hm
  · split
    · exact ends_refuse hm
    · dsimp only
      split
      · exact ends_refuse hm
      · split
        · exact ends_waitCommand hm
        · exact ends_done (wf_closeContext hm)

theorem ends_execCtxset {h : CmdHdr} {ctx field : Nat} {value : W64} {s : State} (hm : Memory.wf s.kern.mem = true) :
    EndsOk (execCtxset h ctx field value s) := by
  unfold execCtxset
  apply ends_command
  · exact hm
  · split
    · exact ends_refuse hm
    · split
      · exact ends_refuse hm
      · split
        · exact ends_refuse hm
        · exact ends_done hm

theorem ends_execCtxbudget {h : CmdHdr} {ctx : Nat} {addend : W32} {s : State} (hm : Memory.wf s.kern.mem = true) :
    EndsOk (execCtxbudget h ctx addend s) := by
  unfold execCtxbudget
  apply ends_command
  · exact hm
  · split
    · exact ends_refuse hm
    · split
      · exact ends_refuse hm
      · exact ends_done hm

theorem ends_execStateread {h : CmdHdr} {ctx block : Nat} {dst : W64} {s : State} (hm : Memory.wf s.kern.mem = true) :
    EndsOk (execStateread h ctx block dst s) := by
  unfold execStateread
  apply ends_command
  · exact hm
  · dsimp only
    split
    · exact ends_refuse hm
    · split
      · exact ends_refuse hm
      · split
        · exact ends_done (wf_writeObj hm)
        · exact ends_refuse hm

/-! ## Objects and extents (R315, R364, R365, R367) -/

theorem ends_execObjset {h : CmdHdr} {ctx : Nat} {entry : BitVec 256} {s : State} (hm : Memory.wf s.kern.mem = true) :
    EndsOk (execObjset h ctx entry s) := by
  unfold execObjset
  apply ends_command
  · exact hm
  · dsimp only
    split
    · exact ends_refuse hm
    · split
      · exact ends_refuse hm
      · split
        · exact ends_waitCommand hm
        · exact ends_done hm

theorem ends_execExtset {h : CmdHdr} {obj ext : Nat} {desc : W64} {s : State} (hm : Memory.wf s.kern.mem = true) :
    EndsOk (execExtset h obj ext desc s) := by
  unfold execExtset
  apply ends_command
  · exact hm
  · dsimp only
    split
    · exact ends_refuse hm
    · split
      · exact ends_refuse hm
      · split
        · exact ends_refuse hm
        · split
          · apply ends_done
            dsimp only
            rw [resumeExtent_mem]
            exact hm
          · exact ends_done hm

theorem ends_execParkdone {h : CmdHdr} {ctx park : Nat} {declined : Bool} {s : State} (hm : Memory.wf s.kern.mem = true) :
    EndsOk (execParkdone h ctx park declined s) := by
  unfold execParkdone
  apply ends_command
  · exact hm
  · dsimp only
    split
    · apply ends_done
      dsimp only
      split
      · exact wf_declineParks hm
      · rw [resumeParks_mem]
        exact hm
    · split
      · exact ends_refuse hm
      · apply ends_done
        dsimp only
        split
        · exact wf_declineUnit hm
        · exact hm

/-! ## Frames (R370, R432) -/

theorem ends_execFrameclass {h : CmdHdr} {frame : Nat} {cls : MemClass} {s : State} (hm : Memory.wf s.kern.mem = true) :
    EndsOk (execFrameclass h frame cls s) := by
  unfold execFrameclass
  apply ends_command
  · exact hm
  · split
    · exact ends_refuse hm
    · split
      · exact ends_refuse hm
      · exact ends_done (wf_wipe hm)

theorem ends_execFrameretire {h : CmdHdr} {frame : Nat} {s : State} (hm : Memory.wf s.kern.mem = true) :
    EndsOk (execFrameretire h frame s) := by
  unfold execFrameretire
  apply ends_command
  · exact hm
  · dsimp only
    split
    · exact ends_refuse hm
    · split
      · exact ends_refuse hm
      · exact ends_done hm

/-! ## Graphs (R351) -/

theorem ends_execGraphload {h : CmdHdr} {graph ctx : Nat} {image : W64} {s : State} (hm : Memory.wf s.kern.mem = true) :
    EndsOk (execGraphload h graph ctx image s) := by
  unfold execGraphload
  apply ends_command
  · exact hm
  · split
    · exact ends_refuse hm
    · split
      · exact ends_refuse hm
      · dsimp only
        split
        · apply ends_waitCommand
          dsimp only
          rw [graphAsks_mem ‹_›]
          exact hm
        · exact ends_refuse hm
        · split
          · exact ends_refuse hm
          · exact ends_done hm

theorem ends_execGraphfree {h : CmdHdr} {graph : Nat} {s : State} (hm : Memory.wf s.kern.mem = true) :
    EndsOk (execGraphfree h graph s) := by
  unfold execGraphfree
  apply ends_command
  · exact hm
  · split
    · exact ends_refuse hm
    · split
      · exact ends_refuse hm
      · exact ends_done hm

/-! ## Power (R413, R421, R423, R427, R433) -/

theorem ends_execPcap {h : CmdHdr} {watts : Nat} {s : State} (hm : Memory.wf s.kern.mem = true) :
    EndsOk (execPcap h watts s) := by
  unfold execPcap
  apply ends_command
  · exact hm
  · split
    · exact ends_done hm
    · exact ends_refuse hm

theorem ends_execSlope {h : CmdHdr} {bay groups : Nat} {s : State} (hm : Memory.wf s.kern.mem = true) :
    EndsOk (execSlope h bay groups s) := by
  unfold execSlope
  apply ends_command
  · exact hm
  · split
    · exact ends_done hm
    · exact ends_refuse hm

theorem ends_execSubscribe {h : CmdHdr} {ctx source bay : Nat} {thresh : W32} {fall : Bool} {word : W64} {s : State}
    (hm : Memory.wf s.kern.mem = true) : EndsOk (execSubscribe h ctx source bay thresh fall word s) := by
  unfold execSubscribe
  apply ends_command
  · exact hm
  · dsimp only
    split
    · split
      · exact ends_refuse hm
      · split
        · exact ends_refuse hm
        · exact ends_answer hm
    · split
      · exact ends_refuse hm
      · split
        · exact ends_refuse hm
        · exact ends_answer hm

theorem ends_execUnsubscribe {h : CmdHdr} {sub : Nat} {s : State} (hm : Memory.wf s.kern.mem = true) :
    EndsOk (execUnsubscribe h sub s) := by
  unfold execUnsubscribe
  apply ends_command
  · exact hm
  · split
    · exact ends_refuse hm
    · exact ends_done hm

theorem ends_execMargin {h : CmdHdr} {die offset : Nat} {s : State} (hm : Memory.wf s.kern.mem = true) :
    EndsOk (execMargin h die offset s) := by
  unfold execMargin
  apply ends_command
  · exact hm
  · dsimp only
    split
    · exact ends_refuse hm
    · split
      · exact ends_refuse hm
      · split <;> exact ends_done hm

theorem ends_execBayquiesce {h : CmdHdr} {bay : Nat} {s : State} (hm : Memory.wf s.kern.mem = true) :
    EndsOk (execBayquiesce h bay s) := by
  unfold execBayquiesce
  apply ends_command
  · exact hm
  · split
    · exact ends_refuse hm
    · split
      · exact ends_refuse hm
      · dsimp only
        split
        · exact ends_done hm
        · exact ends_waitCommand hm

theorem ends_execBayrecal {h : CmdHdr} {bay : Nat} {s : State} (hm : Memory.wf s.kern.mem = true) :
    EndsOk (execBayrecal h bay s) := by
  unfold execBayrecal
  apply ends_command
  · exact hm
  · split
    · exact ends_refuse hm
    · split
      · exact ends_refuse hm
      · exact ends_done hm

theorem ends_execBayreturn {h : CmdHdr} {bay : Nat} {s : State} (hm : Memory.wf s.kern.mem = true) :
    EndsOk (execBayreturn h bay s) := by
  unfold execBayreturn
  apply ends_command
  · exact hm
  · split
    · exact ends_refuse hm
    · split
      · exact ends_refuse hm
      · exact ends_done hm

/-! ## Ports, keys and peers (R396, R399 to R402) -/

theorem ends_execPorttrain {h : CmdHdr} {port : Nat} {s : State} (hm : Memory.wf s.kern.mem = true) :
    EndsOk (execPorttrain h port s) := by
  unfold execPorttrain
  apply ends_command
  · exact hm
  · dsimp only
    split
    · exact ends_refuse hm
    · split
      · exact ends_done hm
      · exact ends_refuse hm

theorem ends_execPortisolate {h : CmdHdr} {port : Nat} {s : State} (hm : Memory.wf s.kern.mem = true) :
    EndsOk (execPortisolate h port s) := by
  unfold execPortisolate
  apply ends_command
  · exact hm
  · split
    · exact ends_refuse hm
    · exact ends_done hm

theorem ends_execPortstatus {h : CmdHdr} {port : Nat} {s : State} (hm : Memory.wf s.kern.mem = true) :
    EndsOk (execPortstatus h port s) := by
  unfold execPortstatus
  apply ends_rescueCommand
  · exact hm
  · split
    · exact ends_refuse hm
    · exact ends_answer hm

theorem ends_execKeyload {h : CmdHdr} {port : Nat} {sending : Bool} {slot : Nat} {key : BitVec 256} {salt : W32} {s : State}
    (hm : Memory.wf s.kern.mem = true) : EndsOk (execKeyload h port sending slot key salt s) := by
  unfold execKeyload
  apply ends_command
  · exact hm
  · split
    · exact ends_refuse hm
    · exact ends_done hm

theorem ends_execPeerset {h : CmdHdr} {dev : Nat} {entry : BitVec 128} {s : State} (hm : Memory.wf s.kern.mem = true) :
    EndsOk (execPeerset h dev entry s) := by
  unfold execPeerset
  apply ends_command
  · exact hm
  · split
    · exact ends_refuse hm
    · exact ends_done (wf_setPeer hm)

/-! ## Recovery (R434) -/

theorem foldl_exportPair_mem (ctx : Nat) (ps : List (W64 × W64)) (x : State × List Nat) :
    (ps.foldl (exportPair ctx) x).1.kern.mem = x.1.kern.mem := by
  induction ps generalizing x with
  | nil => rfl
  | cons p ps ih => rw [List.foldl_cons, ih, exportPair_mem]

theorem ends_execExportObjs {h : CmdHdr} {ctx : Nat} {pairs : List (W64 × W64)} {s : State} (hm : Memory.wf s.kern.mem = true) :
    EndsOk (execExportObjs h ctx pairs s) := by
  unfold execExportObjs
  refine ends_command hm ?_
  split
  · split
    · exact ends_waitCommand hm
    · exact ends_done hm
  · split
    · exact ends_refuse hm
    · split
      · exact ends_waitCommand hm
      · exact ends_waitCommand ((foldl_exportPair_mem ctx pairs (s, [])).symm ▸ hm)

theorem ends_execSpare {h : CmdHdr} {dev : Nat} {s : State} (hm : Memory.wf s.kern.mem = true) :
    EndsOk (execSpare h dev s) := by
  unfold execSpare
  apply ends_command
  · exact hm
  · split
    · exact ends_refuse hm
    · split
      · exact ends_refuse hm
      · dsimp only
        apply ends_done
        dsimp only
        split
        · exact wf_setPeer hm
        · exact hm

/-! ## Firmware (R433, R438, R439) -/

theorem ends_stageImage {h : CmdHdr} {x : FwImage} {s : State} (hm : Memory.wf s.kern.mem = true) :
    EndsOk (stageImage h x s) := by
  unfold stageImage
  split
  · exact ends_refuse hm
  · split
    · exact ends_refuse hm
    · split
      · exact ends_refuse hm
      · split
        · exact ends_refuse hm
        · exact ends_done hm

theorem ends_execFwstage {h : CmdHdr} {image : Nat × W64} {s : State} (hm : Memory.wf s.kern.mem = true) :
    EndsOk (execFwstage h image s) := by
  unfold execFwstage
  apply ends_rescueCommand
  · exact hm
  · dsimp only
    split
    · apply ends_waitCommand
      dsimp only
      rw [imageAsks_mem ‹_›]
      exact hm
    · exact ends_refuse hm
    · exact ends_stageImage hm

theorem ends_execFwactivate {h : CmdHdr} {s : State} (hm : Memory.wf s.kern.mem = true) : EndsOk (execFwactivate h s) := by
  unfold execFwactivate
  apply ends_rescueCommand
  · exact hm
  · split
    · split
      · exact ends_refuse hm
      · exact ends_done hm
    · split
      · exact ends_refuse hm
      · exact ends_done hm

theorem ends_execShoprestart {h : CmdHdr} {shop : Nat} {s : State} (hm : Memory.wf s.kern.mem = true) :
    EndsOk (execShoprestart h shop s) := by
  unfold execShoprestart
  apply ends_command
  · exact hm
  · split
    · exact ends_refuse hm
    · split
      · exact ends_refuse hm
      · exact ends_done hm

theorem ends_execAttest {h : CmdHdr} {ctx : Nat} {nonce : BitVec 256} {dst : W64} {s : State}
    (hm : Memory.wf s.kern.mem = true) : EndsOk (execAttest h ctx nonce dst s) := by
  unfold execAttest
  apply ends_rescueCommand
  · exact hm
  · dsimp only
    split
    · exact ends_refuse hm
    · split
      · exact ends_refuse hm
      · exact ends_done (wf_writeObj hm)

theorem ends_execFuseadvance {h : CmdHdr} {kind : Nat} {s : State} (hm : Memory.wf s.kern.mem = true) :
    EndsOk (execFuseadvance h kind s) := by
  unfold execFuseadvance
  apply ends_command
  · exact hm
  · split
    · exact ends_refuse hm
    · split
      · exact ends_refuse hm
      · split
        · exact ends_refuse hm
        · split
          · exact ends_refuse hm
          · exact ends_done hm

theorem ends_execUnknownCommand {h : CmdHdr} {opc : BitVec 16} {s : State} (hm : Memory.wf s.kern.mem = true) :
    EndsOk (execUnknownCommand h opc s) := by
  unfold execUnknownCommand
  split
  · exact ends_queueCommand hm
  · exact ends_refuse hm

/-- Case by case: no instruction and no event leaves memory out of its canonical form. -/
theorem ends_exec {i : Instr} {s : State} (h : Memory.wf s.kern.mem = true) : EndsOk (exec i s) := by
  cases i with
  | nop _ => exact ends_execNop h
  | add _ => exact ends_execAdd h
  | sub _ => exact ends_execSub h
  | mul _ => exact ends_execMul h
  | mulhi _ => exact ends_execMulhi h
  | mad _ => exact ends_execMad h
  | div _ => exact ends_execDiv h
  | rem _ => exact ends_execRem h
  | min _ => exact ends_execMin h
  | max _ => exact ends_execMax h
  | abs _ => exact ends_execAbs h
  | neg _ => exact ends_execNeg h
  | addc _ => exact ends_execAddc h
  | subb _ => exact ends_execSubb h
  | sad _ => exact ends_execSad h
  | addi _ => exact ends_execAddi h
  | muli _ => exact ends_execMuli h
  | andi _ => exact ends_execAndi h
  | ori _ => exact ends_execOri h
  | xori _ => exact ends_execXori h
  | shli _ => exact ends_execShli h
  | shri _ => exact ends_execShri h
  | sari _ => exact ends_execSari h
  | movi _ => exact ends_execMovi h
  | cmpi _ => exact ends_execCmpi h
  | and _ => exact ends_execAnd h
  | or _ => exact ends_execOr h
  | xor _ => exact ends_execXor h
  | not _ => exact ends_execNot h
  | shl _ => exact ends_execShl h
  | shr _ => exact ends_execShr h
  | sar _ => exact ends_execSar h
  | rot _ => exact ends_execRot h
  | popc _ => exact ends_execPopc h
  | clz _ => exact ends_execClz h
  | bfx _ => exact ends_execBfx h
  | bfi _ => exact ends_execBfi h
  | sel _ => exact ends_execSel h
  | cmp _ => exact ends_execCmp h
  | mov _ => exact ends_execMov h
  | lea _ => exact ends_execLea h
  | fadd _ => exact ends_execFadd h
  | fsub _ => exact ends_execFsub h
  | fmul _ => exact ends_execFmul h
  | fma _ => exact ends_execFma h
  | fdiv _ => exact ends_execFdiv h
  | fsqrt _ => exact ends_execFsqrt h
  | fmin _ => exact ends_execFmin h
  | fmax _ => exact ends_execFmax h
  | fcmp _ => exact ends_execFcmp h
  | fclass _ => exact ends_execFclass h
  | frcp _ => exact ends_execFrcp h
  | frsq _ => exact ends_execFrsq h
  | cvt _ _ => exact ends_execCvt h
  | frnd _ => exact ends_execFrnd h
  | fsgn _ => exact ends_execFsgn h
  | plog _ => exact ends_execPlog h
  | pset _ => exact ends_execPset h
  | shfl _ => exact ends_execShfl h
  | vote _ => exact ends_execVote h
  | gred _ => exact ends_execGred h
  | bcast _ => exact ends_execBcast h
  | gscan _ => exact ends_execGscan h
  | lmask _ => exact ends_execLmask h
  | ld _ => exact ends_execLd h
  | st _ => exact ends_execSt h
  | ldx _ _ => exact ends_execLdx h
  | stx _ _ => exact ends_execStx h
  | atom _ _ => exact ends_execAtom h
  | red _ _ => exact ends_execRed h
  | cas _ => exact ends_execCas h
  | fence _ => exact ends_execFence h
  | lcinv _ => exact ends_execLcinv h
  | lcinvAll _ => exact ends_execLcinvAll h
  | wcdrain _ => exact ends_execWcdrain h
  | wcdrainAll _ => exact ends_execWcdrainAll h
  | validSet _ => exact ends_execValidSet h
  | validClr _ => exact ends_execValidClr h
  | validGet _ => exact ends_execValidGet h
  | pref _ => exact ends_execPref h
  | capder _ => exact ends_execCapder h
  | capadd _ => exact ends_execCapadd h
  | capq _ => exact ends_execCapq h
  | copy _ => exact ends_execCopy h
  | copyq _ => exact ends_execCopyq h
  | tlwait _ => exact ends_execTlwait h
  | tlrd _ => exact ends_execTlrd h
  | tlrdIssued _ => exact ends_execTlrdIssued h
  | jig _ => exact ends_execJig h
  | jigSt _ => exact ends_execJigSt h
  | jigLd _ => exact ends_execJigLd h
  | mx _ => exact ends_execMx h
  | mxSet _ => exact ends_execMxSet h
  | accz _ => exact ends_execAccz h
  | accld _ => exact ends_execAccld h
  | accst _ => exact ends_execAccst h
  | accstNow _ => exact ends_execAccstNow h
  | accmov _ _ => exact ends_execAccmov h
  | accver _ => exact ends_execAccver h
  | accverNow _ => exact ends_execAccverNow h
  | bedld _ => exact ends_execBedld h
  | bedldGrain _ => exact ends_execBedldGrain h
  | bedclr _ => exact ends_execBedclr h
  | qmul _ => exact ends_execQmul h
  | qconj _ => exact ends_execQconj h
  | qnorm _ => exact ends_execQnorm h
  | fwr _ => exact ends_execFwr h
  | step _ => exact ends_execStep h
  | stepR _ => exact ends_execStepR h
  | nq _ => exact ends_execNq h
  | settle _ => exact ends_execSettle h
  | resid _ => exact ends_execResid h
  | stest _ => exact ends_execStest h
  | bar _ => exact ends_execBar h
  | bararr _ => exact ends_execBararr h
  | barwt _ => exact ends_execBarwt h
  | meet _ => exact ends_execMeet h
  | peg _ => exact ends_execPeg h
  | pegDef _ => exact ends_execPegDef h
  | postCore _ => exact ends_execPostCore h
  | postNbr _ => exact ends_execPostNbr h
  | postBay _ => exact ends_execPostBay h
  | yield _ => exact ends_execYield h
  | bra _ => exact ends_execBra h
  | jmpi _ => exact ends_execJmpi h
  | call _ => exact ends_execCall h
  | calli _ => exact ends_execCalli h
  | ret _ => exact ends_execRet h
  | exit _ => exact ends_execExit h
  | trap _ => exact ends_execTrap h
  | tret _ => exact ends_execTret h
  | brk _ => exact ends_execBrk h
  | srd _ => exact ends_execSrd h
  | swr _ => exact ends_execSwr h
  | grow _ => exact ends_execGrow h
  | shrink _ => exact ends_execShrink h
  | evwait _ => exact ends_execEvwait h
  | ilinv _ => exact ends_execIlinv h
  | ilinvAll _ => exact ends_execIlinvAll h
  | sampleOn _ => exact ends_execSampleOn h
  | sampleOff _ => exact ends_execSampleOff h
  | lineFetchComplete _ _ => exact ends_execLineFetchComplete h
  | asyncTrapDelivery _ _ _ => exact ends_execAsyncTrapDelivery h
  | accessReply _ _ => exact ends_execAccessReply h
  | parkServiceComplete _ _ _ => exact ends_execParkServiceComplete h
  | firstTouchPlacement _ _ _ _ => exact ends_execFirstTouchPlacement h
  | unitAccessService _ _ => exact ends_execUnitAccessService h
  | wcAgeingExpiry _ _ => exact ends_execWcAgeingExpiry h
  | wcDrainPerformed _ _ => exact ends_execWcDrainPerformed h
  | remoteRequest _ => exact ends_execRemoteRequest h
  | copyAccept _ => exact ends_execCopyAccept h
  | copyRetire _ _ => exact ends_execCopyRetire h
  | copyqSlotWrite _ _ => exact ends_execCopyqSlotWrite h
  | queueTakeSlot _ => exact ends_execQueueTakeSlot h
  | packetRetire _ _ => exact ends_execPacketRetire h
  | gather _ _ => exact ends_execGather h
  | collective _ _ => exact ends_execCollective h
  | bedldComplete _ _ => exact ends_execBedldComplete h
  | mxLaunch _ _ _ => exact ends_execMxLaunch h
  | mxCommit _ => exact ends_execMxCommit h
  | pegEpisodeClose _ _ _ => exact ends_execPegEpisodeClose h
  | barrierOpen _ _ _ => exact ends_execBarrierOpen h
  | barrierReleaseWave _ _ _ => exact ends_execBarrierReleaseWave h
  | waitEnd _ _ _ => exact ends_execWaitEnd h
  | pendingPlace _ => exact ends_execPendingPlace h
  | entryEviction _ => exact ends_execEntryEviction h
  | sliceReturn _ _ _ _ => exact ends_execSliceReturn h
  | growGrant _ => exact ends_execGrowGrant h
  | growDeadlockRule _ => exact ends_execGrowDeadlockRule h
  | blockRetire _ _ => exact ends_execBlockRetire h
  | blockVacate _ _ => exact ends_execBlockVacate h
  | blockRedispatch _ _ => exact ends_execBlockRedispatch h
  | blockDispatch _ => exact ends_execBlockDispatch h
  | bayDispatchPull _ _ => exact ends_execBayDispatchPull h
  | admission _ _ => exact ends_execAdmission h
  | fieldPlacement _ => exact ends_execFieldPlacement h
  | trigger _ => exact ends_execTrigger h
  | run _ => exact ends_execRun h
  | nodeComplete _ => exact ends_execNodeComplete h
  | runEnd _ => exact ends_execRunEnd h
  | faceNotice _ _ => exact ends_execFaceNotice h
  | stepRPublicationReady _ _ => exact ends_execStepRPublicationReady h
  | trussStepComplete _ _ => exact ends_execTrussStepComplete h
  | samplerTick _ => exact ends_execSamplerTick h
  | bayControllerEvaluation _ => exact ends_execBayControllerEvaluation h
  | refill _ => exact ends_execRefill h
  | gatingSequence _ => exact ends_execGatingSequence h
  | bayWakeComplete _ => exact ends_execBayWakeComplete h
  | bankWakeComplete _ => exact ends_execBankWakeComplete h
  | wayGating _ _ => exact ends_execWayGating h
  | subscriptionFiring _ => exact ends_execSubscriptionFiring h
  | scrub _ => exact ends_execScrub h
  | marginSequence _ => exact ends_execMarginSequence h
  | retransmissionTimeout _ => exact ends_execRetransmissionTimeout h
  | packetArrival _ => exact ends_execPacketArrival h
  | planeFailover _ _ => exact ends_execPlaneFailover h
  | classPause _ _ _ => exact ends_execClassPause h
  | combiningWindowClose _ => exact ends_execCombiningWindowClose h
  | combinedReply _ => exact ends_execCombinedReply h
  | flitReceive _ _ => exact ends_execFlitReceive h
  | replayRequest _ _ => exact ends_execReplayRequest h
  | trainComplete _ _ => exact ends_execTrainComplete h
  | retrainTrigger _ => exact ends_execRetrainTrigger h
  | keyMarker _ => exact ends_execKeyMarker h
  | kwarn _ => exact ends_execKwarn h
  | invocationLimit _ => exact ends_execInvocationLimit h
  | ctxopen _ _ _ => exact ends_execCtxopen h
  | ctxclose _ _ => exact ends_execCtxclose h
  | ctxset _ _ _ _ => exact ends_execCtxset h
  | ctxbudget _ _ _ => exact ends_execCtxbudget h
  | stateread _ _ _ _ => exact ends_execStateread h
  | objset _ _ _ => exact ends_execObjset h
  | extset _ _ _ _ => exact ends_execExtset h
  | parkdone _ _ _ _ => exact ends_execParkdone h
  | frameclass _ _ _ => exact ends_execFrameclass h
  | frameretire _ _ => exact ends_execFrameretire h
  | graphload _ _ _ _ => exact ends_execGraphload h
  | graphfree _ _ => exact ends_execGraphfree h
  | pcap _ _ => exact ends_execPcap h
  | slope _ _ _ => exact ends_execSlope h
  | subscribe _ _ _ _ _ _ _ => exact ends_execSubscribe h
  | unsubscribe _ _ => exact ends_execUnsubscribe h
  | margin _ _ _ => exact ends_execMargin h
  | bayquiesce _ _ => exact ends_execBayquiesce h
  | bayrecal _ _ => exact ends_execBayrecal h
  | bayreturn _ _ => exact ends_execBayreturn h
  | porttrain _ _ => exact ends_execPorttrain h
  | portisolate _ _ => exact ends_execPortisolate h
  | portstatus _ _ => exact ends_execPortstatus h
  | keyload _ _ _ _ _ _ => exact ends_execKeyload h
  | peerset _ _ _ => exact ends_execPeerset h
  | exportObjs _ _ _ => exact ends_execExportObjs h
  | spare _ _ => exact ends_execSpare h
  | fwstage _ _ => exact ends_execFwstage h
  | fwactivate _ => exact ends_execFwactivate h
  | shoprestart _ _ => exact ends_execShoprestart h
  | attest _ _ _ _ => exact ends_execAttest h
  | fuseadvance _ _ => exact ends_execFuseadvance h
  | unknownCommand _ _ => exact ends_execUnknownCommand h
  | unassignedMajorOpcode w => exact ends_execUnassignedMajorOpcode (a := w) h
  | yieldCyclesEnd _ _ => exact ends_execYieldCyclesEnd h
  | resultArrival _ _ _ _ => exact ends_execResultArrival h
  | objectCacheMissFill _ _ _ => exact ends_execObjectCacheMissFill h
  | feedReadFault _ => exact ends_execFeedReadFault h
  | scratchpadBankGating _ => exact ends_execScratchpadBankGating h
  | preemptionSend => exact ends_execPreemptionSend h
  | arbitrate => exact ends_execArbitrate h
  | grantChangeComplete => exact ends_execGrantChangeComplete h
  | tcapChange => exact ends_execTcapChange h
  | boostTick => exact ends_execBoostTick h
  | holdOffExpiry => exact ends_execHoldOffExpiry h
  | unreachableTimeout => exact ends_execUnreachableTimeout h
  | deviceFaultNotify => exact ends_execDeviceFaultNotify h
  | boot => exact ends_execBoot h
  | zeroWord => exact ends_execZeroWord h
  | tempbandChange => exact ends_execTempbandChange h

theorem ends_runMember {a : Member} {s : State} (h : Memory.wf s.kern.mem = true) : EndsOk (runMember a s) := by
  cases a with
  | instr i => exact ends_exec h
  | bad => exact ends_next (wf_issueIllegal h)

theorem ends_runCouple {a b : Member} {s : State} (h : Memory.wf s.kern.mem = true) : EndsOk (runCouple a b s) := by
  have hfirst := ends_runMember (a := a) h
  unfold runCouple
  split
  · rename_i heq
    have hok : Memory.wf _ = true := hfirst _ heq
    exact ends_runMember hok
  · exact hfirst

theorem ends_step {s : State} (h : Memory.wf s.kern.mem = true) : EndsOk (step s) := by
  have hplan := wf_planOf h
  unfold step
  split
  · rw [‹planOf s = _›] at hplan
    exact ends_next hplan
  · rw [‹planOf s = _›] at hplan
    exact ends_runMember hplan
  · rw [‹planOf s = _›] at hplan
    exact ends_runCouple hplan

/-- Settles O57: whatever the plan of the step is, each member of it ends in a state whose memory is canonical. -/
theorem memoryStaysCanonical : Obligations.MemoryStaysCanonical := by
  unfold Obligations.MemoryStaysCanonical
  intro s s' h hstep
  exact ends_step h s' hstep

end Sys2Proof.Proofs
end

section
/-! Capabilities (R171 to R173): CAPDER, CAPADD and CAPQ, by whether the object is known and the new offset lies inside it. -/

namespace Sys2Proof.Proofs

open Sys2Proof.Machine Sys2Proof.Safety

/-! ## Bodies of a lone thread -/

/-- Two bodies that do the same in the thread issue the same. -/
theorem issueEach_alone_congr {s : State} {i : Instr} {t : Thread} (h : ExecutesAlone s i t = true)
    {f g : Kern → Thread → List Reg → Kern × Course}
    (hfg : f (beforeBody s i t) t (destination s i t) = g (beforeBody s i t) t (destination s i t)) :
    issueEach s i f = issueEach s i g := by
  rw [issueEach_alone_eq h, issueEach_alone_eq h, hfg]

/-- An instruction whose body writes words to its destination and goes on completes with those words. -/
theorem issueEach_writes {s : State} {i : Instr} {t : Thread} (h : ExecutesAlone s i t = true)
    {f : Kern → Thread → List Reg → Kern × Course} {vals : List W32}
    (hf : f (beforeBody s i t) t (destination s i t) =
      (writeRegs (beforeBody s i t) s.cur.core t (destination s i t) vals, .next)) :
    Completes s (issueEach s i f) i t (.values vals) t (curNext s) := by
  rw [issueEach_alone_congr h (g := fun k u d => (writeRegs k s.cur.core u d vals, .next)) hf]
  exact issue_completes (alone_executes h) _ (fun _ => .values vals) (fun _ => id) (fun _ => .next)
    (fun u _ _ k d => ⟨rfl, body_writeRegs k _ u d vals⟩) (fun _ _ => ⟨rfl, rfl, rfl⟩) (fun _ _ _ => rfl) (curNext s) rfl
    (destination_nodup s i t) List.nodup_nil

theorem ctxOf_butCaches {c : Nat} {k k' : Kern} (h : ButCaches c k k') (t : Thread) : ctxOf k' c t = ctxOf k c t := by
  simp only [ctxOf, blockOf_butCaches h]

theorem getObj_butCaches {c : Nat} {k k' : Kern} (h : ButCaches c k k') (ctx o : Nat) : getObj k' ctx o = getObj k ctx o := by
  simp only [getObj, getCtx, ctxs_butCaches h]

/-- The object that a capability names in the context of the thread, as the body of its instruction sees it. -/
theorem getObj_beforeBody (s : State) (i : Instr) (t : Thread) (o : Nat) :
    getObj (beforeBody s i t) (ctxOf (beforeBody s i t) s.cur.core t) o = getObj s.kern (ctxOf s.kern s.cur.core t) o := by
  have hk : ButCaches s.cur.core s.kern (beforeBody s i t) := caches_before s.kern s.cur.core i [t]
  rw [getObj_butCaches hk, ctxOf_butCaches hk]

/-! ## The bodies by the object -/

section Bodies

variable {s : State} {x : RForm} {f : Nat → ObjEntry → Option Nat} {k : Kern} {t : Thread} {d : List Reg}

theorem capBody_outside {e : ObjEntry}
    (h : getObj k (ctxOf k s.cur.core t) (capObj (readPair s.kern s.cur.core t x.a)) = some e)
    (hf : f (readPair s.kern s.cur.core t x.a) e = none) :
    capBody s x f k t d = (k, .trap 0x04 0 (readPair s.kern s.cur.core t x.a)) := by
  simp only [capBody, h, hf]

theorem capBody_writes {e : ObjEntry} {r : Nat}
    (h : getObj k (ctxOf k s.cur.core t) (capObj (readPair s.kern s.cur.core t x.a)) = some e)
    (hf : f (readPair s.kern s.cur.core t x.a) e = some r) :
    capBody s x f k t d = (writeRegs k s.cur.core t d (place .b64 r), .next) := by
  simp only [capBody, h, hf]

end Bodies

theorem addOffset_inside {cap size : Nat} {b : Int} (hlow : 0 ≤ (capOff cap : Int) + b) (hhigh : (capOff cap : Int) + b ≤ size) :
    addOffset cap size b = some (withOff cap ((capOff cap : Int) + b).toNat) := by
  simp only [addOffset, Bool.or_eq_true, decide_eq_true_eq, if_neg (show ¬((capOff cap : Int) + b < 0 ∨ (size : Int) < capOff cap + b) by omega)]

theorem addOffset_outside {cap size : Nat} {b : Int} (h : (capOff cap : Int) + b < 0 ∨ (size : Int) < (capOff cap : Int) + b) :
    addOffset cap size b = none := by
  simp only [addOffset, Bool.or_eq_true, decide_eq_true_eq, if_pos h]

/-- The answers of CAPQ, its query by number. -/
theorem capQuery_eq (k : Kern) (ctx cap : Nat) (om : BitVec 3) :
    capQuery k ctx cap om.toNat = match getObj k ctx (capObj cap) with
      | none => if om = 2 then 3 else 0
      | some e =>
        if om = 0 then e.size else if om = 1 then effective e cap
        else if om = 2 then (match e.cls with | .p => 0 | .d => 1 | .n => 2)
        else if om = 3 then (match e.home with | .hbm => 0 | .vault => 1 | .remote => 2) * 2 ^ 32 + e.hdev % 2 ^ 32
        else e.size - cap % 2 ^ 36 := by
  unfold capQuery
  have hom : om = 0 ∨ om = 1 ∨ om = 2 ∨ om = 3 ∨ om = 4 ∨ om = 5 ∨ om = 6 ∨ om = 7 := by revert om; decide
  rcases hom with rfl | rfl | rfl | rfl | rfl | rfl | rfl | rfl <;> cases getObj k ctx (capObj cap) <;> rfl

/-- An instruction on a capability whose body traps. -/
theorem capability_traps {s : State} {i : Instr} {t : Thread} {l : Launch} {h : Nat} {x : RForm} (ha : ExecutesAlone s i t = true)
    (hd : TakesTraps s t l h) {f : Kern → Thread → List Reg → Kern × Course} {cause : Nat} (hcause : cause < 0x10)
    (hf : f (beforeBody s i t) t (destination s i t) = (beforeBody s i t, .trap cause 0 (readPair s.kern s.cur.core t x.a))) :
    TrapsTo s (issueEach s i f) t h (pairtOf s.kern s.cur.core l (curPc s)) cause 0 (curPc s) (readPair s.kern s.cur.core t x.a) :=
  issueEach_traps ha f hd hf cause 0 (curPc s) _ (curPc_lt (executes_single (alone_executes ha))) (readPair_lt ..) (by omega)
    (by decide) (by omega) (.inr ⟨rfl, rfl⟩)

/-- Settles O25: each clause is a case of the body, by whether the object is known and where the new offset lies. -/
theorem capabilities : Obligations.Capabilities := by
  unfold Obligations.Capabilities
  refine ⟨fun x s t ha hknown => ?derive, fun x s t e ha hknown hlow hhigh => ?add, fun x => ?query,
    fun x s t l h m hm ha hd hknown => ?unknown, fun x s t l h e ha hd hknown hout => ?outside⟩
  case derive =>
    obtain ⟨e, he⟩ := Option.isSome_iff_exists.mp hknown
    exact ⟨_, rfl, issueEach_writes ha (capBody_writes ((getObj_beforeBody ..).trans he) rfl)⟩
  case add =>
    exact ⟨_, rfl, issueEach_writes ha (capBody_writes ((getObj_beforeBody ..).trans hknown) (addOffset_inside hlow hhigh))⟩
  case query =>
    exact computes_values (fun _ => rfl) fun s t => congrArg (fun n => Effect.values (place .b64 n)) (capQuery_eq _ _ _ x.om)
  case unknown =>
    rcases hm with rfl | rfl
    · exact ⟨_, rfl, capability_traps ha hd (by decide) (capBody_unknown hknown _ _)⟩
    · exact ⟨_, rfl, capability_traps ha hd (by decide) (capBody_unknown hknown _ _)⟩
  case outside =>
    exact ⟨_, rfl, capability_traps ha hd (by decide)
      (capBody_outside ((getObj_beforeBody ..).trans hknown) (addOffset_outside hout))⟩

end Sys2Proof.Proofs
end

section
/-! FENCE, LCINV, WCDRAIN, PREF and VALID (R167 to R170, R304): what each does to the caches of the core, or to the valid bits of the block. -/

namespace Sys2Proof.Proofs

open Sys2Proof.Machine Sys2Proof.Safety

/-! ## Addresses -/

theorem capForm_lt (cap ea : Nat) : capForm cap ea < 2 ^ 64 := by
  unfold capForm
  omega

/-- The effective address of a location is one of 36 bits. -/
theorem address_ea_lt {k : Kern} {c : Nat} {blk : Block} {space : Space} {base : Nat} {off : Int} {size algn need : Nat} {p : Spot}
    (h : address k c blk space base off size algn need = .ok p) : p.ea < 2 ^ 36 := by
  unfold address at h
  cases space with
  | ob =>
    dsimp only at h
    unfold checkObj at h
    split at h
    · cases h
    · rename_i a ha
      split at ha
      · cases ha
      · split at ha
        · cases ha
        · split at ha
          · cases ha
          · cases ha
            cases h
            dsimp only
            omega
  | sp =>
    dsimp only at h
    split at h
    · cases h
    · cases h
      dsimp only
      omega
  | xr =>
    dsimp only at h
    split at h
    · cases h
    · cases h
      dsimp only
      omega

/-- The fault word of an address that fails R151 is one of 64 bits, and its cause is rights or bounds. -/
theorem address_fault {k : Kern} {c : Nat} {blk : Block} {space : Space} {base : Nat} {off : Int} {size algn need : Nat} {e : Nat × Nat}
    (h : address k c blk space base off size algn need = .error e) : (e.1 = 0x04 ∨ e.1 = 0x05) ∧ e.2 < 2 ^ 64 := by
  unfold address at h
  cases space with
  | ob =>
    dsimp only at h
    unfold checkObj at h
    split at h
    · rename_i a ha
      split at ha
      · cases ha
        cases h
        exact ⟨.inr rfl, capForm_lt ..⟩
      · split at ha
        · cases ha
          cases h
          exact ⟨.inr rfl, capForm_lt ..⟩
        · split at ha
          · cases ha
            cases h
            exact ⟨.inl rfl, capForm_lt ..⟩
          · cases ha
    · cases h
  | sp =>
    dsimp only at h
    split at h
    · cases h
      refine ⟨.inl rfl, ?_⟩
      dsimp only
      omega
    · cases h
  | xr =>
    dsimp only at h
    split at h
    · cases h
      refine ⟨.inl rfl, ?_⟩
      dsimp only
      omega
    · cases h

theorem spotOf_ea_lt {k : Kern} {c : Nat} {t : Thread} {x : MForm} {useIdx : Bool} {size algn need : Nat} {p : Spot}
    (h : spotOf k c t x useIdx size algn need = .ok p) : p.ea < 2 ^ 36 := by
  unfold spotOf at h
  split at h
  · cases h
  · exact address_ea_lt h

theorem spotOf_fault {k : Kern} {c : Nat} {t : Thread} {x : MForm} {useIdx : Bool} {size algn need : Nat} {e : Nat × Nat}
    (h : spotOf k c t x useIdx size algn need = .error e) : (e.1 = 0x04 ∨ e.1 = 0x05) ∧ e.2 < 2 ^ 64 := by
  unfold spotOf at h
  split at h
  · cases h
    exact ⟨.inl rfl, by decide⟩
  · exact address_fault h

/-! ## Bodies that change the core or the block and go on -/

theorem seeByte_of_mem {k k' : Kern} (h : k'.mem = k.mem) (a : Nat) : seeByte k' a = seeByte k a := by
  simp only [seeByte, h]

theorem beforeBody_mem (s : State) (i : Instr) (t : Thread) : (beforeBody s i t).mem = s.kern.mem := by
  have hk : ButCaches s.cur.core s.kern (beforeBody s i t) := caches_before s.kern s.cur.core i [t]
  rw [hk.shared]

theorem getThread_modCore_of_threads {k : Kern} {c : Nat} {f : Core → Core} (hf : ∀ core, (f core).threads = core.threads) (a b : Nat) :
    getThread (modCore k c f) c a b = getThread k c a b := by
  simp only [getThread, coreOf_modCore_same, hf]

/-- An instruction whose body leaves the threads of its core in place and goes on. -/
theorem issueEach_goesOn_of_thread {s : State} {i : Instr} {t : Thread} (h : ExecutesAlone s i t = true)
    {f : Kern → Thread → List Reg → Kern × Course} {k : Kern}
    (hf : f (beforeBody s i t) t (destination s i t) = (k, .next))
    (ht : getThread k s.cur.core t.tslot t.lane = getThread (beforeBody s i t) s.cur.core t.tslot t.lane) :
    GoesOnFrom s k t (issueEach s i f) (curNext s) :=
  issueEach_goesOn h f hf rfl ⟨t, ht.trans (getThread_beforeBody h), rfl, rfl⟩

/-- What goes on from a kernel state whose memory is that before the issue leaves every byte. -/
theorem bytes_of_goesOn {s s' : State} {i : Instr} {t : Thread} {k : Kern} {pc : Nat} (h : GoesOnFrom s k t s' pc)
    (hm : k.mem = (beforeBody s i t).mem) (b : Nat) : seeByte s'.kern b = seeByte s.kern b :=
  (h.bytes b).trans (seeByte_of_mem (hm.trans (beforeBody_mem s i t)) b)

/-- An instruction that changes only the core, and not its threads. -/
theorem issueEach_modCore {s : State} {i : Instr} {t : Thread} (h : ExecutesAlone s i t = true) {f : Core → Core}
    (hf : ∀ core, (f core).threads = core.threads) :
    GoesOnFrom s (modCore (beforeBody s i t) s.cur.core f) t (issueEach s i fun k _ _ => (modCore k s.cur.core f, .next)) (curNext s) :=
  issueEach_goesOn_of_thread h (f := fun k _ _ => (modCore k s.cur.core f, .next)) rfl (getThread_modCore_of_threads hf ..)

/-! ## Line forms (R168) -/

theorem lineForm_passes {s : State} {x : MForm} {t : Thread} {p : Spot} (h : spotOf s.kern s.cur.core t x true 1 1 0 = .ok p)
    (f : Kern → Nat → Nat → Nat → Kern) (i : Instr) :
    lineForm s x f (beforeBody s i t) t = (f (beforeBody s i t) (ctxOf s.kern s.cur.core t) (capObj p.cap) (p.ea / 64), .next) := by
  simp only [lineForm, h, ctxOf_butCaches (caches_before s.kern s.cur.core i [t]), beforeBody]

/-- A line form that changes only the core leaves every byte, and its thread goes on. -/
theorem lineForm_goesOn {s : State} {i : Instr} {x : MForm} {t : Thread} {p : Spot} (ha : ExecutesAlone s i t = true)
    (hp : spotOf s.kern s.cur.core t x true 1 1 0 = .ok p) {f : Kern → Nat → Nat → Nat → Kern}
    {g : Nat → Nat → Nat → Core → Core} (hf : ∀ k ctx o n, f k ctx o n = modCore k s.cur.core (g ctx o n))
    (hg : ∀ ctx o n core, (g ctx o n core).threads = core.threads) :
    (∀ b, seeByte (issueEach s i fun k t _ => lineForm s x f k t).kern b = seeByte s.kern b) ∧
      GoesOnFrom s (f (beforeBody s i t) (ctxOf s.kern s.cur.core t) (capObj p.cap) (p.ea / 64)) t
        (issueEach s i fun k t _ => lineForm s x f k t) (curNext s) := by
  have hgoes := issueEach_goesOn_of_thread ha (f := fun k t _ => lineForm s x f k t) (lineForm_passes hp f i)
    (by rw [hf]; exact getThread_modCore_of_threads (hg _ _ _) ..)
  exact ⟨bytes_of_goesOn hgoes (by rw [hf]; rfl), hgoes⟩

/-! ## PREF (R170) -/

theorem coreOf_takeTokens_lcache (k : Kern) (c ctx n : Nat) : (coreOf (takeTokens k c ctx n) c).lcache = (coreOf k c).lcache := by
  unfold takeTokens
  split
  · rfl
  · rw [coreOf_modCore_same]

theorem getThread_takeTokens (k : Kern) (c ctx n a b : Nat) : getThread (takeTokens k c ctx n) c a b = getThread k c a b := by
  unfold takeTokens
  split
  · rfl
  · simp only [getThread, coreOf_modCore_same]

theorem getThread_fillLine (k : Kern) (c ctx obj line : Nat) (bits : BitVec 512) (a b : Nat) :
    getThread (fillLine k c ctx obj line bits) c a b = getThread k c a b := by
  simp only [getThread, fillLine, coreOf_modCore_same]
  rfl

/-- A line that was absent holds the bits that fill it: what remains of the cache is other lines. -/
theorem cachedLine_fillLine {k : Kern} {c ctx obj line : Nat} (h : cachedLine (coreOf k c) ctx obj line = none) (bits : BitVec 512) :
    cachedLine (coreOf (fillLine k c ctx obj line bits) c) ctx obj line = some bits := by
  simp only [cachedLine, Option.map_eq_none_iff, List.find?_eq_none] at h
  have hrest (test : CLine → Bool) :
      ((coreOf k c).lcache.filter test).find? (fun l => l.ctx == ctx && l.obj == obj && l.line == line) = none :=
    List.find?_eq_none.mpr fun l hl => h l (List.mem_of_mem_filter hl)
  have hcore : coreOf { k with free := k.free + 1 } c = coreOf k c := rfl
  simp only [cachedLine, fillLine, coreOf_modCore_same, hcore, List.find?_append, hrest, Option.none_or, List.find?_cons, beq_self_eq_true,
    Bool.and_self, Option.map_some]

theorem getThread_prefetch (s : State) (x : MForm) (k : Kern) (t : Thread) (a b : Nat) :
    getThread (prefetch s x k t) s.cur.core a b = getThread k s.cur.core a b := by
  unfold prefetch
  dsimp only
  split
  · rfl
  · split
    · rfl
    · split
      · rfl
      · split
        · rw [getThread_fillLine, getThread_takeTokens]
        · rfl

/-- PREF of an absent line that is whole fills it. -/
theorem cachedLine_prefetch {s : State} {x : MForm} {k : Kern} {t : Thread} {p : Spot} {rs : List (Nat × Nat)}
    (hp : spotOf s.kern s.cur.core t x true 1 1 needRead = .ok p) (hc : cachedSpot k (ctxOf k s.cur.core t) p = true)
    (habs : cachedLine (coreOf k s.cur.core) (ctxOf k s.cur.core t) (capObj p.cap) (p.ea / 64) = none)
    (hrs : objRuns k (ctxOf k s.cur.core t) (capObj p.cap) (p.ea / 64 * 64) 64 = .ok rs) (hwhole : poisonHits k rs = []) :
    cachedLine (coreOf (prefetch s x k t) s.cur.core) (ctxOf k s.cur.core t) (capObj p.cap) (p.ea / 64) =
      some (BitVec.ofNat 512 (natOfBytes (getRuns k rs))) := by
  have hfill : prefetch s x k t = fillLine (takeTokens k s.cur.core (ctxOf k s.cur.core t) 64) s.cur.core (ctxOf k s.cur.core t)
      (capObj p.cap) (p.ea / 64) (BitVec.ofNat 512 (natOfBytes (getRuns k rs))) := by
    simp only [prefetch, hp, hc, habs, hrs, hwhole, Bool.not_true, Option.isSome_none, Bool.or_self, Bool.false_eq_true, if_false,
      List.isEmpty_nil, if_true]
  rw [hfill]
  refine cachedLine_fillLine ?_ _
  simp only [cachedLine, coreOf_takeTokens_lcache]
  exact habs

/-- The line cache after the issue is that which the body left. -/
theorem cachedLine_goesOn {s s' : State} {k : Kern} {t : Thread} {pc : Nat} (h : GoesOnFrom s k t s' pc) (ctx obj line : Nat) :
    cachedLine (coreOf s'.kern s.cur.core) ctx obj line = cachedLine (coreOf k s.cur.core) ctx obj line := by
  have hcore := h.within.core
  have hl : (coreOf s'.kern s.cur.core).lcache = (coreOf k s.cur.core).lcache := by rw [hcore]
  simp only [cachedLine, hl]

theorem cacheControl : Claims.CacheControl := by
  refine ⟨fun x s t ha => ⟨_, rfl, ?fence⟩, fun x s t p ha hp => ⟨_, rfl, ?lcinv⟩, fun x s t ha => ⟨_, rfl, ?lcinvAll⟩,
    fun x s t p ha hp => ⟨_, rfl, ?wcdrain⟩, fun x s t ha => ⟨_, rfl, ?wcdrainAll⟩, fun x s t ha => ⟨_, rfl, ?pref⟩⟩
  case fence =>
    exact issueEach_goesOn_of_thread ha rfl (getThread_acquired (beforeBody s (.fence x) t) s.cur.core x _ _)
  case lcinv =>
    exact lineForm_goesOn ha hp (g := fun ctx o n core =>
      { core with lcache := core.lcache.filter fun y => !(y.ctx == ctx && y.obj == o && y.line == n) })
      (fun _ _ _ _ => rfl) fun _ _ _ _ => rfl
  case lcinvAll =>
    exact issueEach_modCore ha (f := fun core => { core with lcache := [] }) fun _ => rfl
  case wcdrain =>
    exact lineForm_goesOn ha hp (g := fun ctx o n core =>
      { core with wc := core.wc.map fun e =>
          if e.ctx == ctx && e.obj == o && e.line == n then { e with draining := true } else e })
      (fun _ _ _ _ => rfl) fun _ _ _ _ => rfl
  case wcdrainAll =>
    exact issueEach_modCore ha (f := fun core => { core with wc := core.wc.map fun e => { e with draining := true } }) fun _ => rfl
  case pref =>
    have hgoes := issueEach_goesOn_of_thread ha (f := fun k t _ => (prefetch s x k t, .next)) rfl (getThread_prefetch ..)
    refine ⟨bytes_of_goesOn hgoes (prefetch_mem ..), hgoes, fun p rs hp hc habs hrs hwhole => ?_, fun e he => ?_⟩
    · rw [cachedLine_goesOn hgoes]
      exact cachedLine_prefetch hp hc habs hrs hwhole
    · have hnone : prefetch s x (beforeBody s (.pref x) t) t = beforeBody s (.pref x) t := by simp only [prefetch, he]
      rwa [hnone] at hgoes

/-! ## VALID (R169) -/

section Bodies

variable {s : State} {x : MForm} {k : Kern} {t : Thread} {blk : Block} {p : Spot}

theorem validBody_inside (hp : spotOf s.kern s.cur.core t x true 4 4 0 = .ok p) (hb : blockOf k s.cur.core t.block = some blk)
    (hn : srcCount s t x.d % 4 = 0) (hin : p.ea + srcCount s t x.d ≤ blk.sb) (f : List Nat → List Nat → List Nat) :
    validBody s x f k t = (modBlock k s.cur.core t.block fun b => { b with valid := f b.valid (wordRange p.ea (srcCount s t x.d)) }, .next) := by
  have hout : ¬blk.sb < p.ea + srcCount s t x.d := by omega
  simp only [validBody, hp, hb, hn, hout, bne_self_eq_false, decide_false, Bool.or_self, Bool.false_eq_true, if_false]

theorem validBody_outside (hp : spotOf s.kern s.cur.core t x true 4 4 0 = .ok p) (hb : blockOf k s.cur.core t.block = some blk)
    (hbad : srcCount s t x.d % 4 ≠ 0 ∨ blk.sb < p.ea + srcCount s t x.d) (f : List Nat → List Nat → List Nat) :
    validBody s x f k t = (k, .trap 0x04 0 p.ea) := by
  simp only [validBody, hp, hb, Bool.or_eq_true, bne_iff_ne, decide_eq_true_eq, if_pos hbad]

theorem validGetBody_aligned (hp : spotOf s.kern s.cur.core t x true 4 4 0 = .ok p) (hb : blockOf k s.cur.core t.block = some blk)
    (hal : p.ea % 128 = 0) (d : List Reg) :
    validGetBody s x k t d = (writeRegs k s.cur.core t d [BitVec.ofNat 32 (bitsOf ((List.range 32).filter fun i =>
      decide (p.ea + 4 * i < blk.sb) && blk.valid.contains (p.ea / 4 + i)))], .next) := by
  simp only [validGetBody, hp, hb, hal, bne_self_eq_false, Bool.false_eq_true, if_false]

theorem validGetBody_unaligned (hp : spotOf s.kern s.cur.core t x true 4 4 0 = .ok p) (hb : blockOf k s.cur.core t.block = some blk)
    (hal : p.ea % 128 ≠ 0) (d : List Reg) : validGetBody s x k t d = (k, .trap 0x04 0 p.ea) := by
  simp only [validGetBody, hp, hb, bne_iff_ne.mpr hal, if_true]

end Bodies

theorem validBits : Claims.ValidBits := by
  refine ⟨fun x s t blk p h hn hin => ?set, fun x s t blk p h hn hin => ?clear, fun x s t blk p h hal => ?get,
    fun x s t blk p l h m hat hd hbad => ?bounds⟩
  case set =>
    obtain ⟨ha, hb, hp⟩ := h
    exact ⟨_, rfl, issueEach_goesOn_of_thread ha (validBody_inside hp ((blockOf_beforeBody ..).trans hb) hn hin _) (getThread_modBlock ..)⟩
  case clear =>
    obtain ⟨ha, hb, hp⟩ := h
    exact ⟨_, rfl, issueEach_goesOn_of_thread ha (validBody_inside hp ((blockOf_beforeBody ..).trans hb) hn hin _) (getThread_modBlock ..)⟩
  case get =>
    obtain ⟨ha, hb, hp⟩ := h
    exact ⟨_, rfl, issueEach_writes ha (validGetBody_aligned hp ((blockOf_beforeBody ..).trans hb) hal _)⟩
  case bounds =>
    obtain ⟨ha, hb, hp⟩ := hat
    have htraps (f : Kern → Thread → List Reg → Kern × Course)
        (hf : f (beforeBody s m t) t (destination s m t) = (beforeBody s m t, .trap 0x04 0 p.ea)) :
        TrapsTo s (issueEach s m f) t h (pairtOf s.kern s.cur.core l (curPc s)) 0x04 0 (curPc s) p.ea :=
      issueEach_traps ha f hd hf 0x04 0 (curPc s) p.ea (curPc_lt (executes_single (alone_executes ha)))
        ((spotOf_ea_lt hp).trans (by decide)) (by decide) (by decide) (by decide) (.inr ⟨rfl, rfl⟩)
    have hb' := (blockOf_beforeBody s m t t.block).trans hb
    rcases hbad with ⟨rfl | rfl, hbad⟩ | ⟨rfl, hal⟩
    · exact ⟨_, rfl, htraps _ (validBody_outside hp hb' hbad _)⟩
    · exact ⟨_, rfl, htraps _ (validBody_outside hp hb' hbad _)⟩
    · exact ⟨_, rfl, htraps _ (validGetBody_unaligned hp hb' hal _)⟩

/-- Settles O24: each clause is the case of the body that its hypotheses select. -/
theorem cacheAndValidBits : Obligations.CacheAndValidBits := ⟨cacheControl, validBits⟩

end Sys2Proof.Proofs
end

section
/-! A store of the scratchpad where memory lists an address twice: the zero that it writes takes one listing away, and the other shows. -/

namespace Sys2Proof.Proofs

open Sys2Proof.Machine Sys2Proof.Safety

/-- A store of one byte at offset 65 of the scratchpad. -/
def byteForm : MForm :=
  { g := ⟨false, 7⟩, la := 0, ty := .i8, sc := .grp, acq := false, rel := false, na := false, d := .v 8, base := .v 4, idx := .v 0,
    sp := .sp, xs := 0, disp := BitVec.ofNat 24 65 }

/-- The location that the store reaches. -/
def byteSpot : Spot := { space := .sp, cap := 0, ea := 65 }

/-- The block of the thread, whose words were never written. -/
def fetchBlock : Block :=
  newBlock fetchLaunch 1 0 0 0 { slot := 0, seats := [{ tslot := 0, base := 0 }], row := 0, slices := 32 }

/-- The thread is about to issue the store, and memory lists the byte after it twice. -/
def listedTwice : State :=
  let s := State.reset.withFetchWord 96 ((encode (.st byteForm)).getD 0).toNat
  { s with
    kern := { s.kern with mem := (rowBase 0 0 + 66, 5) :: (rowBase 0 0 + 66, 7) :: s.kern.mem }
    cur := { core := 0, entry := 0, mode := .single } }

theorem listedTwice_alone : ExecutesAlone listedTwice (.st byteForm) fetchThread = true := by decide +kernel

theorem listedTwice_reaches : Reaches listedTwice fetchThread byteForm true (memBytes byteForm.ty) needWrite fetchBlock byteSpot :=
  ⟨by rfl, by rfl⟩

theorem listedTwice_inPad : InPad listedTwice fetchBlock byteSpot (memBytes byteForm.ty) (rowBase 0 0 + 65) :=
  ⟨by decide, by rfl, by decide +kernel, by decide +kernel⟩

theorem listedTwice_unflagged : Unflagged listedTwice fetchThread fetchBlock byteSpot (memBytes byteForm.ty) false false := by
  exact fun _ l _ w _ => ⟨fun h => absurd h Bool.false_ne_true, fun _ => .inr rfl⟩

/-- The byte after the store shows its second listing. -/
theorem listedTwice_shows :
    (answered (exec (.st byteForm) listedTwice)).map (fun s => seeByte s.kern (rowBase 0 0 + 66)) = some 7 := by decide +kernel

/-- Refutes O21: in a memory that lists an address twice, the store's zero in the rest of a word never written does not show. -/
theorem not_padStoresAndAtomics : ¬ Obligations.PadStoresAndAtomics := by
  unfold Obligations.PadStoresAndAtomics
  rintro ⟨⟨hstore, -⟩, -⟩
  obtain ⟨s', hexec, -, hrest, -⟩ := hstore byteForm listedTwice fetchThread fetchBlock byteSpot (rowBase 0 0 + 65) listedTwice_alone
    listedTwice_reaches listedTwice_inPad listedTwice_unflagged
  have hzero : seeByte s'.kern (rowBase 0 0 + 66) = 0 := by
    rw [hrest (rowBase 0 0 + 66) (.inr (by decide))]
    exact if_pos ⟨rfl, 16, by decide, List.not_mem_nil, by decide, by decide⟩
  have hshows := listedTwice_shows
  rw [hexec, answered, Option.map_some, hzero] at hshows
  exact absurd hshows (by decide)

end Sys2Proof.Proofs
end

section
/-! Accesses to objects (R149 to R158, R162): what passes its checks becomes a request, or gathers in the write-combining buffer. -/

namespace Sys2Proof.Proofs

open Sys2Proof.Machine Sys2Proof.Safety

/-! ## The checks of an access to an object -/

/-- An access to an object reaches it, and its range is placed. -/
structure Placed (s : State) (t : Thread) (x : MForm) (useIdx : Bool) (size need : Nat) (p : Spot) (rs : List (Nat × Nat)) : Prop where
  spot : ∃ blk, Reaches s t x useIdx size need blk p
  space : p.space = .ob
  runs : objRuns s.kern (ctxOf s.kern s.cur.core t) (capObj p.cap) p.ea size = .ok rs

theorem translateBy_congr {k k' : Kern} (ho : ∀ ctx o, getObj k' ctx o = getObj k ctx o) (he : k'.extents = k.extents) (base : W64 → Option Nat)
    (ctx o off : Nat) : translateBy base k' ctx o off = translateBy base k ctx o off := by
  simp only [translateBy, ho, he]

/-- The runs of a range follow from the objects and the extents. -/
theorem runsOf_congr {k k' : Kern} (ho : ∀ ctx o, getObj k' ctx o = getObj k ctx o) (he : k'.extents = k.extents) (base : W64 → Option Nat)
    (ctx o off n fuel : Nat) : runsOf base k' ctx o off n fuel = runsOf base k ctx o off n fuel := by
  induction fuel generalizing off n with
  | zero => rfl
  | succ fuel ih => simp only [runsOf, translateBy_congr ho he, ih]

theorem objRuns_butCaches {c : Nat} {k k' : Kern} (h : ButCaches c k k') (ctx o off n : Nat) :
    objRuns k' ctx o off n = objRuns k ctx o off n :=
  runsOf_congr (getObj_butCaches h) (by rw [h.shared]) ..

theorem detect_elsewhere {k : Kern} {c : Nat} {t : Thread} {p : Spot} (h : p.space ≠ .sp) (pc size : Nat) (a : Touch) :
    detect k c t pc p size a = (k, none) := by
  simp only [detect, bne_iff_ne.mpr h, if_true]

/-- An access to an object that passes its checks changes nothing yet. -/
theorem checkAccess_placed {s : State} {k : Kern} {t : Thread} {x : MForm} {useIdx : Bool} {size need : Nat} {p : Spot}
    {rs : List (Nat × Nat)} (hk : ButCaches s.cur.core s.kern k) (h : Placed s t x useIdx size need p rs) (touch : Touch) :
    checkAccess s k t x useIdx size need touch = (k, .ok { spot := p, runs := rs }) := by
  obtain ⟨⟨blk, hb, hspot⟩, hspace, hruns⟩ := h
  have hctx : ctxOf s.kern s.cur.core t = blk.ctx := by simp only [ctxOf, hb, Option.map_some, Option.getD_some]
  have hspots : spotRuns k s.cur.core blk p size = .ok rs := by
    simp only [spotRuns, hspace, objRuns_butCaches hk, ← hctx, hruns]
  simp only [checkAccess, hspot, blockOf_butCaches hk, hb, detect_elsewhere (show p.space ≠ .sp by rw [hspace]; decide), hspots]

theorem cachedSpot_butCaches {c : Nat} {k k' : Kern} (h : ButCaches c k k') (ctx : Nat) (p : Spot) :
    cachedSpot k' ctx p = cachedSpot k ctx p := by
  simp only [cachedSpot, getObj_butCaches h]

theorem remoteSpot_butCaches {c : Nat} {k k' : Kern} (h : ButCaches c k k') (ctx : Nat) (p : Spot) :
    remoteSpot k' ctx p = remoteSpot k ctx p := by
  simp only [remoteSpot, getObj_butCaches h]

theorem homeOf_butCaches {c : Nat} {k k' : Kern} (h : ButCaches c k k') (ctx : Nat) (p : Spot) : homeOf k' ctx p = homeOf k ctx p := by
  simp only [homeOf, getObj_butCaches h]

/-! ## Requests -/

theorem coreOf_withId (k : Kern) (n c : Nat) : coreOf { k with id := n } c = coreOf k c := rfl

/-- The kernel state in which an access has become a request, whose answer a held result of the thread awaits where it answers. -/
def asked (s : State) (k : Kern) (t : Thread) (x : MForm) (a : Access) (kind : ReqKind) (size data cmp : Nat) (dst : List Reg)
    (answers : Bool) : Kern :=
  let h := holdResult k s.cur.core t dst [] 0 x.la
  if answers then sendReq h.2 s.cur.core t (requestOf s h.2 t x a kind size data cmp (some h.1))
  else sendReq k s.cur.core t (requestOf s k t x a kind size data cmp none)

theorem getThread_sendReq (k : Kern) (c : Nat) (t : Thread) (q : Req) (a b : Nat) :
    getThread (sendReq k c t q) c a b = getThread k c a b := by
  unfold sendReq
  dsimp only
  split
  · simp only [getThread, addReq, drainOf, drainWhere, coreOf_modCore_same, coreOf_withId]
  · simp only [getThread, addReq, drainWhere, coreOf_modCore_same, coreOf_withId]

theorem asked_mem (s : State) (k : Kern) (t : Thread) (x : MForm) (a : Access) (kind : ReqKind) (size data cmp : Nat) (dst : List Reg)
    (answers : Bool) : (asked s k t x a kind size data cmp dst answers).mem = k.mem := by
  unfold asked
  split
  · rw [sendReq_mem, holdResult_mem]
  · rw [sendReq_mem]

theorem inGroup_asked {s : State} {k : Kern} {t : Thread} (ht : getThread k s.cur.core t.tslot t.lane = some t) (x : MForm) (a : Access)
    (kind : ReqKind) (size data cmp : Nat) (dst : List Reg) (answers : Bool) :
    InGroup (asked s k t x a kind size data cmp dst answers) s.cur.core t := by
  unfold asked
  split
  · exact ⟨{ t with held := t.held ++ [newHeld k s.cur.core t dst [] 0 x.la] },
      by rw [getThread_sendReq, getThread_holdResult_same, ht, Option.map_some], rfl, rfl⟩
  · exact ⟨t, by rw [getThread_sendReq, ht], rfl, rfl⟩

/-- An instruction whose body asks and goes on leaves every byte, and its thread goes on. -/
theorem issueEach_asks {s : State} {m : Instr} {t : Thread} (ha : ExecutesAlone s m t = true)
    {f : Kern → Thread → List Reg → Kern × Course} {x : MForm} {a : Access} {kind : ReqKind} {size data cmp : Nat} {answers : Bool}
    (hf : f (beforeBody s m t) t (destination s m t) =
      (asked s (beforeBody s m t) t x a kind size data cmp (destination s m t) answers, .next)) :
    (∀ b, seeByte (issueEach s m f).kern b = seeByte s.kern b) ∧
      GoesOnFrom s (asked s (beforeBody s m t) t x a kind size data cmp (destination s m t) answers) t (issueEach s m f) (curNext s) := by
  have hgoes := issueEach_goesOn ha f hf rfl (inGroup_asked (getThread_beforeBody ha) ..)
  exact ⟨bytes_of_goesOn hgoes (asked_mem ..), hgoes⟩

section Bodies

variable {s : State} {k : Kern} {t : Thread} {x : MForm} {size : Nat} {p : Spot} {rs : List (Nat × Nat)}

theorem loadBody_asks (hk : ButCaches s.cur.core s.kern k) (h : Placed s t x true size needRead p rs)
    (hsound : issuePoison k s.cur.core t { spot := p, runs := rs }
      (cachedSpot s.kern (ctxOf s.kern s.cur.core t) p && !(x.acq && wideScope x.sc)) = none) (d : List Reg) :
    loadBody s x size k t d = (asked s k t x { spot := p, runs := rs } .load size 0 0 d true, .next) := by
  rw [← cachedSpot_butCaches hk, ← ctxOf_butCaches hk] at hsound
  simp only [loadBody, checkAccess_placed hk h, h.space, hsound, asked, if_true]

theorem storeBody_asks (hk : ButCaches s.cur.core s.kern k) (h : Placed s t x true size needWrite p rs)
    (hnow : (remoteSpot s.kern (ctxOf s.kern s.cur.core t) p && !x.rel) = false) (d : List Reg) :
    storeBody s x size k t = (asked s k t x { spot := p, runs := rs } .store size (storeData s x t size) 0 d false, .next) := by
  rw [← remoteSpot_butCaches hk, ← ctxOf_butCaches hk] at hnow
  simp only [storeBody, checkAccess_placed hk h, h.space, hnow, asked, Bool.false_eq_true, if_false]

theorem storeBody_gathers (hk : ButCaches s.cur.core s.kern k) (h : Placed s t x true size needWrite p rs)
    (hfar : (remoteSpot s.kern (ctxOf s.kern s.cur.core t) p && !x.rel) = true) :
    storeBody s x size k t = (combineStore k s.cur.core (ctxOf s.kern s.cur.core t) (homeOf s.kern (ctxOf s.kern s.cur.core t) p)
      (capObj p.cap) p.ea t (bytesOfNat size (storeData s x t size)), .next) := by
  simp only [storeBody, checkAccess_placed hk h, h.space, remoteSpot_butCaches hk, homeOf_butCaches hk, ctxOf_butCaches hk, hfar, if_true]

theorem atomicBody_asks {useIdx : Bool} (hk : ButCaches s.cur.core s.kern k) (h : Placed s t x useIdx (memBytes x.ty) needAtomic p rs)
    (hsound : issuePoison k s.cur.core t { spot := p, runs := rs } false = none) (kind : ReqKind) (data cmp : Nat) (answers : Bool)
    (d : List Reg) :
    atomicBody s x useIdx kind data cmp answers k t d =
      (asked s k t x { spot := p, runs := rs } kind (memBytes x.ty) data cmp d answers, .next) := by
  unfold atomicBody
  simp only [checkAccess_placed hk h, h.space, hsound, asked]
  cases answers <;> rfl

end Bodies

theorem getThread_combineStore (k : Kern) (c ctx hdev obj ea : Nat) (t : Thread) (bs : List Byte) (a b : Nat) :
    getThread (combineStore k c ctx hdev obj ea t bs) c a b = getThread k c a b := by
  unfold combineStore
  dsimp only
  split
  · simp only [getThread, coreOf_modCore_same]
  · simp only [getThread, coreOf_modCore_same]
    rfl

/-- Settles O22: each access passes the checks of an object, and its body asks or gathers. -/
theorem objectRequests : Obligations.ObjectRequests := by
  unfold Obligations.ObjectRequests
  have hcaches (s : State) (m : Instr) (t : Thread) : ButCaches s.cur.core s.kern (beforeBody s m t) := caches_before s.kern s.cur.core m [t]
  refine ⟨fun m x size s t blk p rs hm ha hr hreach hsound => ?load, fun m x size s t blk p rs hm ha hr hreach hnow => ?store,
    fun m x size s t blk p rs hm ha hr hreach hfar => ?gather, fun op x s t blk p rs ha hr hreach hsound => ?atomic,
    fun op x s t blk p rs ha hr hreach hsound => ?reduce, fun x s t blk p rs ha hr hreach hsound => ?compare⟩
  case load =>
    have hbody := loadBody_asks (hcaches s m t) ⟨⟨blk, hr⟩, hreach.1, hreach.2⟩ hsound
    rcases hm with ⟨rfl, rfl⟩ | ⟨n, rfl, rfl⟩
    · exact ⟨_, rfl, issueEach_asks ha (hbody _)⟩
    · exact ⟨_, rfl, issueEach_asks ha (hbody _)⟩
  case store =>
    have hbody := storeBody_asks (hcaches s m t) ⟨⟨blk, hr⟩, hreach.1, hreach.2⟩ hnow (destination s m t)
    rcases hm with ⟨rfl, rfl⟩ | ⟨n, rfl, rfl⟩
    · exact ⟨_, rfl, issueEach_asks (answers := false) ha hbody⟩
    · exact ⟨_, rfl, issueEach_asks (answers := false) ha hbody⟩
  case gather =>
    have hbody := storeBody_gathers (hcaches s m t) ⟨⟨blk, hr⟩, hreach.1, hreach.2⟩ hfar
    have hgoes := issueEach_goesOn_of_thread ha (f := fun k t _ => storeBody s x size k t) hbody (getThread_combineStore ..)
    have hbytes := bytes_of_goesOn hgoes (combineStore_mem ..)
    rcases hm with ⟨rfl, rfl⟩ | ⟨n, rfl, rfl⟩
    · exact ⟨_, rfl, hbytes, hgoes⟩
    · exact ⟨_, rfl, hbytes, hgoes⟩
  case atomic =>
    exact ⟨_, rfl, issueEach_asks (answers := true) ha
      (atomicBody_asks (hcaches s _ t) ⟨⟨blk, hr⟩, hreach.1, hreach.2⟩ hsound (.atom op) (srcRaw s t x.ty x.idx) 0 true _)⟩
  case reduce =>
    exact ⟨_, rfl, issueEach_asks (answers := false) ha
      (atomicBody_asks (hcaches s _ t) ⟨⟨blk, hr⟩, hreach.1, hreach.2⟩ hsound (.atom op) (srcRaw s t x.ty x.d) 0 false _)⟩
  case compare =>
    exact ⟨_, rfl, issueEach_asks (answers := true) ha
      (atomicBody_asks (hcaches s _ t) ⟨⟨blk, hr⟩, hreach.1, hreach.2⟩ hsound .cas (casOperands s x t).2 (casOperands s x t).1 true _)⟩

end Sys2Proof.Proofs
end

section
/-! Accesses that trap (R151, R152, R304, R325, R425, R429): what the checks refuse, what the detectors flag, and poison in the scratchpad
and the exchange region. -/

namespace Sys2Proof.Proofs

open Sys2Proof.Machine Sys2Proof.Safety

/-! ## The accesses and their checks -/

/-- The body of an access that its checks stop is what they leave and the course that they give. -/
def StoppedBy (s : State) (x : MForm) (useIdx : Bool) (size need : Nat) (touch : Touch) (f : Kern → Thread → List Reg → Kern × Course) :
    Prop :=
  ∀ k t d k' e, checkAccess s k t x useIdx size need touch = (k', .error e) → f k t d = (k', e)

theorem loadBody_stopped (s : State) (x : MForm) (size : Nat) :
    StoppedBy s x true size needRead { reads := true, writes := false, atomic := false } (loadBody s x size) := by
  intro k t d k' e h
  simp only [loadBody, h]

theorem storeBody_stopped (s : State) (x : MForm) (size : Nat) :
    StoppedBy s x true size needWrite { reads := false, writes := true, atomic := false } fun k t _ => storeBody s x size k t := by
  intro k t d k' e h
  simp only [storeBody, h]

theorem atomicBody_stopped (s : State) (x : MForm) (useIdx : Bool) (kind : ReqKind) (data cmp : Thread → Nat) (returns : Bool) :
    StoppedBy s x useIdx (memBytes x.ty) needAtomic { reads := true, writes := true, atomic := true }
      fun k t d => atomicBody s x useIdx kind (data t) (cmp t) returns k t d := by
  intro k t d k' e h
  simp only [atomicBody, h]

/-! ## What the detectors flag (R304, R325) -/

/-- The words of an access begin with that of its first byte. -/
theorem wordsOf_cons {ea size : Nat} (h : 0 < size) : ∃ ws, wordsOf ea size = ea / 4 :: ws := by
  obtain ⟨n, hn⟩ : ∃ n, ceilDiv (ea % 4 + size) 4 = n + 1 := ⟨ceilDiv (ea % 4 + size) 4 - 1, by unfold ceilDiv; omega⟩
  exact ⟨_, by rw [wordsOf, hn, List.range_succ_eq_map, List.map_cons, Nat.add_zero]⟩

theorem checkWord_unwritten {k : Kern} {c : Nat} {t : Thread} {l : Launch} {blk : Block} {pc w : Nat} {a : Touch} (hr : a.reads = true)
    (hl : recValid l = 0) (hw : w ∉ blk.valid) : checkWord k c t l blk pc a w = (k, some (0x0B, 4 * w)) := by
  have hno : blk.valid.contains w = false := Bool.eq_false_iff.mpr fun h => hw (List.contains_iff_mem.mp h)
  simp only [checkWord, hr, hno, hl, Bool.not_false, Bool.and_self, beq_self_eq_true, if_true]

theorem checkWord_raced {k : Kern} {c : Nat} {t : Thread} {l : Launch} {blk : Block} {pc w : Nat} {a : Touch} (ha : a.atomic = false)
    (hl : recRace l = 0) (hw : w ∈ blk.valid) (hc : stampConflict blk t.group w = true) :
    checkWord k c t l blk pc a w = (k, some (0x08, 4 * w)) := by
  have h2 : ((0 : Nat) != 2) = true := rfl
  simp only [checkWord, ha, List.contains_iff_mem.mpr hw, hl, hc, h2, Bool.not_true, Bool.and_false, Bool.false_and, Bool.false_eq_true,
    if_false, Bool.not_false, Bool.and_self, beq_self_eq_true, if_true]

/-- An access of the scratchpad whose first word is flagged traps there, and nothing has changed. -/
theorem checkAccess_flagged {s : State} {k : Kern} {t : Thread} {x : MForm} {useIdx : Bool} {size need : Nat} {touch : Touch} {blk : Block}
    {p : Spot} {l : Launch} {e : Nat × Nat} (hk : ButCaches s.cur.core s.kern k) (hr : Reaches s t x useIdx size need blk p)
    (hsp : p.space = .sp) (hsize : 0 < size) (hl : threadLaunch s.kern s.cur.core t = some l)
    (hword : checkWord k s.cur.core t l blk (curPc s) touch (p.ea / 4) = (k, some e)) :
    checkAccess s k t x useIdx size need touch = (k, .error (.trap e.1 0 e.2)) := by
  obtain ⟨hb, hspot⟩ := hr
  obtain ⟨ws, hws⟩ := wordsOf_cons (ea := p.ea) hsize
  have hdetect : detect k s.cur.core t (curPc s) p size touch = (k, some e) := by
    simp only [detect, hsp, bne_self_eq_false, Bool.false_eq_true, if_false, blockOf_butCaches hk, threadLaunch_butCaches hk, hb, hl, hws,
      checkWords, hword]
  simp only [checkAccess, hspot, blockOf_butCaches hk, hb, hdetect]

/-! ## Charges that the budget bears (R425, R426) -/

/-- A kernel state in which errors have been counted for their frames and charged to contexts, and no more. -/
structure Charged (k k' : Kern) : Prop where
  shared : k' = { k with frames := k'.frames, ctxs := k'.ctxs }
  objs : ∀ ctx, (getCtx k' ctx).objs = (getCtx k ctx).objs

theorem charged_refl (k : Kern) : Charged k k := ⟨rfl, fun _ => rfl⟩

theorem Charged.trans {k k' k'' : Kern} (h : Charged k k') (h' : Charged k' k'') : Charged k k'' :=
  ⟨by rw [h'.shared, h.shared], fun ctx => (h'.objs ctx).trans (h.objs ctx)⟩

theorem getCtx_modCtx_eq (k : Kern) (x y : Nat) (f : Ctx → Ctx) : getCtx (modCtx k x f) y = if y = x then f (getCtx k x) else getCtx k y := by
  split
  · next h => rw [h, getCtx_modCtx]
  · next h => simp only [getCtx, modCtx, mget_mset_other _ _ h]

theorem charged_modCtx (k : Kern) (x : Nat) (f : Ctx → Ctx) (hf : ∀ y, (f y).objs = y.objs) : Charged k (modCtx k x f) := by
  refine ⟨rfl, fun ctx => ?_⟩
  rw [getCtx_modCtx_eq]
  split
  · next h => rw [hf, h]
  · rfl

theorem charged_countMended (k : Kern) (as : List Nat) : Charged k (countMended k as) := by
  unfold countMended
  induction as generalizing k with
  | nil => exact charged_refl k
  | cons a as ih =>
    refine Charged.trans ?_ (ih _)
    dsimp only
    split
    · exact ⟨rfl, fun _ => rfl⟩
    · exact charged_refl k

theorem countMended_ctxs (k : Kern) (as : List Nat) : (countMended k as).ctxs = k.ctxs := by
  unfold countMended
  induction as generalizing k with
  | nil => rfl
  | cons a as ih =>
    refine (ih _).trans ?_
    dsimp only
    split <;> rfl

theorem bears_countMended {k : Kern} {ctx units : Nat} (h : Bears k ctx units) (as : List Nat) : Bears (countMended k as) ctx units := by
  rwa [Bears, getCtx_of_ctxs (countMended_ctxs ..)]

/-- A charge that the budget bears is taken from it, and nothing else happens. -/
theorem chargeBy_bears {k : Kern} {ctx units : Nat} (h : Bears k ctx units) (spent : Kern → Nat → Kern) :
    chargeBy spent k ctx units = if units = 0 then k else modCtx k ctx fun x => { x with ebudget := (getCtx k ctx).ebudget - units } := by
  unfold chargeBy
  by_cases hu : units = 0
  · simp only [hu, beq_self_eq_true, if_true]
  · have hleft : ((getCtx k ctx).ebudget - units == 0 && (getCtx k ctx).armed) = false := by
      rcases h with h | h | h
      · exact absurd h hu
      · rw [h, Bool.and_false]
      · rw [Bool.and_eq_false_iff, beq_eq_false_iff_ne]
        exact .inl (by omega)
    simp only [beq_eq_false_iff_ne.mpr hu, Bool.false_eq_true, if_false, hleft, hu]

theorem charged_chargeBy {k : Kern} {ctx units : Nat} (h : Bears k ctx units) (spent : Kern → Nat → Kern) :
    Charged k (chargeBy spent k ctx units) := by
  rw [chargeBy_bears h]
  split
  · exact charged_refl k
  · exact charged_modCtx _ _ _ fun _ => rfl

theorem ebudget_chargeBy {k : Kern} {ctx units : Nat} (h : Bears k ctx units) (spent : Kern → Nat → Kern) :
    (getCtx (chargeBy spent k ctx units) ctx).ebudget = (getCtx k ctx).ebudget - units := by
  rw [chargeBy_bears h]
  split
  · next hu => rw [hu, Nat.sub_zero]
  · rw [getCtx_modCtx]

namespace Charged

variable {k k' : Kern} (h : Charged k k')
include h

theorem getObj (ctx o : Nat) : Machine.getObj k' ctx o = Machine.getObj k ctx o := by
  simp only [Machine.getObj, h.objs]

theorem coreOf (c : Nat) : Machine.coreOf k' c = Machine.coreOf k c := by
  rw [h.shared]; rfl

theorem mem : k'.mem = k.mem := by
  rw [h.shared]

theorem launches : k'.launches = k.launches := by
  rw [h.shared]

theorem getThread (c a b : Nat) : Machine.getThread k' c a b = Machine.getThread k c a b := by
  simp only [Machine.getThread, h.coreOf]

theorem blockOf (c b : Nat) : Machine.blockOf k' c b = Machine.blockOf k c b := by
  simp only [Machine.blockOf, h.coreOf]

theorem threadLaunch (c : Nat) (t : Thread) : Machine.threadLaunch k' c t = Machine.threadLaunch k c t := by
  simp only [Machine.threadLaunch, h.blockOf, launchOf, h.launches]

theorem pairtOf (c : Nat) (l : Launch) (pc : Nat) : Machine.pairtOf k' c l pc = Machine.pairtOf k c l pc := by
  have hruns (ctx o off n : Nat) : objRuns k' ctx o off n = objRuns k ctx o off n := runsOf_congr h.getObj (by rw [h.shared]) ..
  have hread (rs : List (Nat × Nat)) : getRuns k' rs = getRuns k rs := by simp only [getRuns, getBytes, h.mem]
  have hinside : lineInside k' l (pcLine pc) = lineInside k l (pcLine pc) := by simp only [lineInside, h.getObj]
  have hline : readLine k' l (pcLine pc) = readLine k l (pcLine pc) := by simp only [readLine, readObj, hruns, hread]
  simp only [Machine.pairtOf, hinside, seeLine, h.coreOf, hline]

end Charged

theorem awaitsHeld_of_threads {k k' : Kern} {c : Nat} (h : (coreOf k' c).threads = (coreOf k c).threads) (t : Thread) :
    awaitsHeld k' c t = awaitsHeld k c t := by
  simp only [awaitsHeld, scalarResults, groupThreads, h]

/-! ## Poison in the scratchpad and the exchange region (R152, R429) -/

theorem physical_runs {s : State} {k : Kern} {blk : Block} {p : Spot} {size a : Nat} (hk : ButCaches s.cur.core s.kern k)
    (hob : p.space ≠ .ob) (hphys : physical s.kern s.cur.core blk p = .ok a) : spotRuns k s.cur.core blk p size = .ok [(a, size)] := by
  unfold spotRuns
  cases hsp : p.space with
  | ob => exact absurd hsp hob
  | sp => simp only [physical_butCaches hk hob, hphys]
  | xr => simp only [physical_butCaches hk hob, hphys]

/-- The offsets at which a run meets poison lie in it. -/
theorem poisonHits_le {k : Kern} {a size : Nat} {y : Nat × Poison} (h : y ∈ poisonHits k [(a, size)]) : y.1 ≤ size := by
  simp only [poisonHits, unitHits, List.append_nil, List.mem_filterMap] at h
  obtain ⟨u, -, hu⟩ := h
  split at hu
  · next hin =>
    simp only [Bool.and_eq_true, decide_eq_true_eq] at hin
    cases hu
    dsimp only
    omega
  · cases hu

theorem mem_of_mget {α : Type} {m : FMap α} {i : Nat} {a : α} (h : mget m i = some a) : (i, a) ∈ m := by
  induction m with
  | nil => cases h
  | cons x m ih =>
    rw [mget] at h
    split at h
    · next hi =>
      cases h
      rw [← beq_iff_eq.mp hi]
      exact List.mem_cons_self
    · exact List.mem_cons_of_mem _ (ih h)

/-- A run that meets no poison has none at its addresses. -/
theorem poisonAt_none_of_poisonHits {k : Kern} {a size i : Nat} (h : poisonHits k [(a, size)] = []) (hi : i < size) :
    poisonAt k (a + i) = none := by
  simp only [poisonHits, unitHits, List.append_nil, List.filterMap_eq_nil_iff] at h
  have hunit (u : Nat) (hlow : u ≤ a + i) (hhigh : a + i < u + unitSize u) : mget k.poison u = none := by
    cases hu : mget k.poison u with
    | none => rfl
    | some z =>
      have := h (u, z) (mem_of_mget hu)
      rw [if_pos (by simp only [Bool.and_eq_true, decide_eq_true_eq]; omega)] at this
      cases this
  unfold poisonAt checkUnit
  by_cases hr : isRemote (a + i) = true
  · simp only [hr, if_true]
  · simp only [hr, Bool.false_eq_true, if_false]
    by_cases hb : isHbm (a + i) = true
    · simp only [hb, if_true]
      have hbase : unitSize ((a + i) / 64 * 64) = 64 := by
        simp only [isHbm, decide_eq_true_eq] at hb
        rw [unitSize, isHbm, if_pos (by rw [decide_eq_true_eq]; omega)]
      cases frameClass k ((a + i) / 2 ^ 21) with
      | n => rfl
      | p => exact hunit ((a + i) / 64 * 64) (by omega) (by omega)
      | d => exact hunit ((a + i) / 64 * 64) (by omega) (by omega)
    · simp only [hb, Bool.false_eq_true, if_false]
      have hbase : unitSize ((a + i) / 8 * 8) = 8 := by
        simp only [isHbm, decide_eq_true_eq] at hb
        rw [unitSize, isHbm, if_neg (by rw [decide_eq_true_eq]; omega)]
      exact hunit ((a + i) / 8 * 8) (by omega) (by omega)

/-- The bytes of a read in an N kernel: those of poisoned units are ones. -/
def onesAt (k : Kern) (a size : Nat) : List Byte :=
  (List.range size).map fun i => if (poisonAt k (a + i)).isSome then 0xFF else seeByte k (a + i)

theorem readMem_eq_map (m : List Host.Cell) (a n : Nat) : readMem m a n = (List.range n).map fun i => readCell m (a + i) := by
  induction n generalizing a with
  | zero => rfl
  | succ n ih =>
    rw [readMem, ih, List.range_succ_eq_map, List.map_cons, List.map_map, Nat.add_zero]
    congr 1
    refine List.map_congr_left fun i _ => ?_
    simp only [Function.comp_apply, Nat.succ_eq_add_one]
    congr 1
    omega

/-- An N kernel reads a run as its bytes with ones where it is poisoned, whether or not it is. -/
theorem readRuns_n (k : Kern) (ctx a size : Nat) : (readRuns k ctx 2 [(a, size)]).2 = .ok (onesAt k a size) := by
  unfold readRuns
  cases h : poisonHits k [(a, size)] with
  | nil =>
    refine congrArg Except.ok ?_
    rw [getRuns, List.flatMap_cons, List.flatMap_nil, List.append_nil, getBytes, readMem_eq_map]
    refine List.map_congr_left fun i hi => ?_
    rw [poisonAt_none_of_poisonHits h (List.mem_range.mp hi)]
    rfl
  | cons y ys =>
    refine congrArg Except.ok ?_
    rw [onesWherePoison, List.flatMap_cons, List.flatMap_nil, List.append_nil]
    rfl

/-- What an N kernel's read changes where the budget bears it. -/
theorem charged_readRuns_n {k : Kern} {ctx a size : Nat}
    (h : Bears k ctx (poisonCharge (poisonHits k [(a, size)]) + softHits k [(a, size)])) :
    Charged k (readRuns k ctx 2 [(a, size)]).1 := by
  have hmend := charged_countMended k (softAt k [(a, size)])
  have hcharge := hmend.trans (charged_chargeBy (bears_countMended h _) fun k ctx =>
    if lacksHandler k ctx then stopSpent k ctx else deliverAsync k ctx true)
  unfold readRuns
  cases hp : poisonHits k [(a, size)] with
  | nil => rwa [hp] at hcharge
  | cons y ys =>
    rw [hp] at hcharge
    exact hcharge.trans (charged_modCtx _ ctx (fun x => { x with poisons := x.poisons + (y :: ys).length }) fun _ => rfl)

/-! ## Loads that meet poison -/

theorem acquired_mem (k : Kern) (c : Nat) (x : MForm) : (acquired k c x).mem = k.mem := by
  unfold acquired
  split <;> rfl

/-- A load of the scratchpad or the exchange region whose detectors find nothing reads its run, and whether it meets poison is known. -/
theorem checkAccess_padLoad {s : State} {k : Kern} {t : Thread} {x : MForm} {useIdx : Bool} {size need : Nat} {touch : Touch} {blk : Block}
    {p : Spot} {a : Nat} (hk : ButCaches s.cur.core s.kern k) (hr : Reaches s t x useIdx size need blk p) (hob : p.space ≠ .ob)
    (hphys : physical s.kern s.cur.core blk p = .ok a) (hu : Unflagged s t blk p size touch.reads touch.atomic) :
    checkAccess s k t x useIdx size need touch = (k, .ok { spot := p, runs := [(a, size)] }) := by
  obtain ⟨hb, hspot⟩ := hr
  simp only [checkAccess, hspot, blockOf_butCaches hk, hb, detect_unflagged hk hb hu, physical_runs hk hob hphys]

/-- The kernel state in which poison that traps a load has been charged. -/
def chargedLate (k : Kern) (ctx : Nat) (rs : List (Nat × Nat)) : Kern :=
  chargeLate (countMended k (softAt k rs)) ctx (poisonCharge (poisonHits k rs) + softHits k rs)

section Load

variable {s : State} {k : Kern} {t : Thread} {x : MForm} {size : Nat} {blk : Block} {p : Spot} {a : Nat}

theorem loadBody_poisoned {y : Nat × Poison} {ys : List (Nat × Poison)} (hk : ButCaches s.cur.core s.kern k)
    (hr : Reaches s t x true size needRead blk p) (hob : p.space ≠ .ob) (hphys : physical s.kern s.cur.core blk p = .ok a)
    (hu : Unflagged s t blk p size true false) (hits : poisonHits k [(a, size)] = y :: ys) (hcls : classOf k s.cur.core t ≠ 2)
    (d : List Reg) :
    loadBody s x size k t d = (chargedLate k (ctxOf k s.cur.core t) [(a, size)],
      poisonTrap k s.cur.core t p y) := by
  have hread : readTrap k (ctxOf k s.cur.core t) (classOf k s.cur.core t) [(a, size)] =
      (chargedLate k (ctxOf k s.cur.core t) [(a, size)], .error y) := by
    simp only [readTrap, chargedLate, hits, beq_eq_false_iff_ne.mpr hcls, Bool.false_eq_true, if_false]
  have hcheck := checkAccess_padLoad (touch := { reads := true, writes := false, atomic := false }) hk hr hob hphys hu
  unfold loadBody
  simp only [hcheck, hread]

theorem loadBody_ones (hk : ButCaches s.cur.core s.kern k) (hr : Reaches s t x true size needRead blk p) (hob : p.space ≠ .ob)
    (hphys : physical s.kern s.cur.core blk p = .ok a) (hu : Unflagged s t blk p size true false) (hcls : classOf k s.cur.core t = 2)
    (d : List Reg) :
    loadBody s x size k t d = (deliverNow (acquired (readRuns k (ctxOf k s.cur.core t) 2 [(a, size)]).1 s.cur.core x) s.cur.core t d
      (answerWords x.ty size (maskSpot (some blk) p (onesAt k a size))) x.la, .next) := by
  have hread : readTrap k (ctxOf k s.cur.core t) (classOf k s.cur.core t) [(a, size)] =
      ((readRuns k (ctxOf k s.cur.core t) 2 [(a, size)]).1, .ok (onesAt k a size)) := by
    rw [← readRuns_n k (ctxOf k s.cur.core t) a size, hcls]
    unfold readTrap
    split <;> rfl
  have hcheck := checkAccess_padLoad (touch := { reads := true, writes := false, atomic := false }) hk hr hob hphys hu
  obtain ⟨hb, -⟩ := hr
  unfold loadBody
  simp only [hcheck, hread, blockOf_butCaches hk, hb]
  cases hsp : p.space with
  | ob => exact absurd hsp hob
  | sp => rfl
  | xr => rfl

end Load

/-- A late trap is a trap at the instruction. -/
theorem finishIssue_lateTrap (s : State) (k k0 : Kern) (t : Thread) (cause sub fault : Nat) :
    finishIssue s k [(t, .lateTrap cause sub fault)] = finishIssue { s with kern := k0 } k [(t, .trapAt (curPc s) cause sub fault)] := rfl


theorem poisonCause_bounds (cls : Nat) (p : Poison) : poisonCause cls p < 256 ∧ poisonCause cls p ≠ 0x10 := by
  unfold poisonCause
  split <;> decide

theorem bears_butCaches {c : Nat} {k k' : Kern} (h : ButCaches c k k') (ctx units : Nat) : Bears k' ctx units ↔ Bears k ctx units := by
  simp only [Bears, getCtx_of_ctxs (ctxs_butCaches h)]

theorem charged_chargedLate {k : Kern} {ctx : Nat} {rs : List (Nat × Nat)}
    (h : Bears k ctx (poisonCharge (poisonHits k rs) + softHits k rs)) : Charged k (chargedLate k ctx rs) :=
  (charged_countMended k (softAt k rs)).trans (charged_chargeBy (bears_countMended h (softAt k rs)) fun k ctx => deliverAsync k ctx true)

theorem ebudget_chargedLate {k : Kern} {ctx : Nat} {rs : List (Nat × Nat)}
    (h : Bears k ctx (poisonCharge (poisonHits k rs) + softHits k rs)) :
    (getCtx (chargedLate k ctx rs) ctx).ebudget = (getCtx k ctx).ebudget - (poisonCharge (poisonHits k rs) + softHits k rs) := by
  rw [chargedLate, chargeLate, ebudget_chargeBy (bears_countMended h _), getCtx_of_ctxs (countMended_ctxs ..)]

theorem ctxs_trapsTo {s s' : State} {t : Thread} {handler pairt cause sub saved fault : Nat}
    (h : TrapsTo s s' t handler pairt cause sub saved fault) : s'.kern.ctxs = s.kern.ctxs := by
  have hshared := h.within.shared
  rw [hshared]
  rfl

theorem mem_trapsTo {s s' : State} {t : Thread} {handler pairt cause sub saved fault : Nat}
    (h : TrapsTo s s' t handler pairt cause sub saved fault) : s'.kern.mem = s.kern.mem := by
  have hshared := h.within.shared
  rw [hshared]
  rfl

/-- A thread that traps late, from a kernel state in which errors have been charged to contexts that bear them. -/
theorem lateTrap_traps {s : State} {i : Instr} {t : Thread} {l : Launch} {h : Nat} {k : Kern} (ha : ExecutesAlone s i t = true)
    (hd : TakesTraps s t l h) (hk : Charged (beforeBody s i t) k) {cause fault : Nat} (hcause : cause < 256) (hne : cause ≠ 0x10)
    (hfault : fault < 2 ^ 64) {s' : State} (hs' : s' = { s with kern := finishIssue s k [(t, .lateTrap cause 0 fault)] }) :
    Recorded s'.kern s.cur.core t (pairtOf s.kern s.cur.core l (curPc s)) cause 0 false (curPc s) fault ∧
      StandsAt s'.kern s.cur.core t h ∧ s'.kern.ctxs = k.ctxs ∧ s'.kern.mem = s.kern.mem := by
  have hb : ButCaches s.cur.core s.kern (beforeBody s i t) := caches_before s.kern s.cur.core i [t]
  obtain ⟨hl, hhandler, hstate, hawaits, hlatch⟩ := hd
  have hth : (coreOf k s.cur.core).threads = (coreOf s.kern s.cur.core).threads := by rw [hk.coreOf, hb.core]
  have hd' : TakesTraps { s with kern := k } t l h :=
    ⟨(hk.threadLaunch ..).trans ((threadLaunch_butCaches hb t).trans hl), hhandler, hstate,
      (awaitsHeld_of_threads hth t).trans hawaits, hlatch⟩
  have htraps := finishIssue_traps (s := { s with kern := k }) (butCaches_refl s.cur.core k)
    ((hk.getThread ..).trans (getThread_beforeBody ha)) hd' (.trapAt (curPc s) cause 0 fault) cause 0 (curPc s) fault
    (curPc_lt (executes_single (alone_executes ha))) hfault hcause (by decide) hne (.inl rfl)
  rw [← finishIssue_lateTrap s k k t cause 0 fault] at htraps
  subst hs'
  have hpairt : pairtOf k s.cur.core l (curPc s) = pairtOf s.kern s.cur.core l (curPc s) :=
    (hk.pairtOf ..).trans (pairtOf_butCaches hb ..)
  have hrecord := htraps.record
  rw [hpairt] at hrecord
  exact ⟨hrecord, htraps.stands, ctxs_trapsTo htraps, (mem_trapsTo htraps).trans (hk.mem.trans (beforeBody_mem s i t))⟩

/-- An access and its body, by the kind of the instruction. -/
theorem access_body {m : Instr} {x : MForm} {useIdx : Bool} {size need : Nat}
    (h : (m = .ld x ∧ useIdx = true ∧ size = memBytes x.ty ∧ need = needRead) ∨
      (∃ n, m = .ldx n x ∧ useIdx = true ∧ size = 4 * xCount n ∧ need = needRead) ∨
      (m = .st x ∧ useIdx = true ∧ size = memBytes x.ty ∧ need = needWrite) ∨
      (∃ n, m = .stx n x ∧ useIdx = true ∧ size = 4 * xCount n ∧ need = needWrite) ∨
      (∃ op, m = .atom op x ∧ useIdx = false ∧ size = memBytes x.ty ∧ need = needAtomic) ∨
      (∃ op, m = .red op x ∧ useIdx = true ∧ size = memBytes x.ty ∧ need = needAtomic) ∨
      (m = .cas x ∧ useIdx = false ∧ size = memBytes x.ty ∧ need = needAtomic)) (s : State) :
    ∃ f touch, exec m s = answer (issueEach s m f) ∧ StoppedBy s x useIdx size need touch f ∧
      (need ≠ needWrite → touch.reads = true) ∧ (need ≠ needAtomic → touch.atomic = false) ∧
      (need = needRead → useIdx = true ∧ size < 2 ^ 32 ∧ f = loadBody s x size) := by
  have hbytes : memBytes x.ty < 2 ^ 32 := by cases x.ty <;> decide
  have hwords (n : XCount) : 4 * xCount n < 2 ^ 32 := by cases n <;> decide
  have hno {P : Prop} (hneed : needAtomic = needRead ∨ needWrite = needRead) : P := absurd hneed (by decide)
  rcases h with ⟨rfl, rfl, rfl, rfl⟩ | ⟨n, rfl, rfl, rfl, rfl⟩ | ⟨rfl, rfl, rfl, rfl⟩ | ⟨n, rfl, rfl, rfl, rfl⟩ |
    ⟨op, rfl, rfl, rfl, rfl⟩ | ⟨op, rfl, rfl, rfl, rfl⟩ | ⟨rfl, rfl, rfl, rfl⟩
  · exact ⟨_, _, rfl, loadBody_stopped s x _, fun _ => rfl, fun _ => rfl, fun _ => ⟨rfl, hbytes, rfl⟩⟩
  · exact ⟨_, _, rfl, loadBody_stopped s x _, fun _ => rfl, fun _ => rfl, fun _ => ⟨rfl, hwords n, rfl⟩⟩
  · exact ⟨_, _, rfl, storeBody_stopped s x _, fun h => absurd rfl h, fun _ => rfl, fun h => hno (.inr h)⟩
  · exact ⟨_, _, rfl, storeBody_stopped s x _, fun h => absurd rfl h, fun _ => rfl, fun h => hno (.inr h)⟩
  · exact ⟨_, _, rfl, atomicBody_stopped s x _ (.atom op) (fun t => srcRaw s t x.ty x.idx) (fun _ => 0) true, fun _ => rfl,
      fun h => absurd rfl h, fun h => hno (.inl h)⟩
  · exact ⟨_, _, rfl, atomicBody_stopped s x _ (.atom op) (fun t => srcRaw s t x.ty x.d) (fun _ => 0) false, fun _ => rfl,
      fun h => absurd rfl h, fun h => hno (.inl h)⟩
  · exact ⟨_, _, rfl, atomicBody_stopped s x _ .cas (fun t => (casOperands s x t).2) (fun t => (casOperands s x t).1) true, fun _ => rfl,
      fun h => absurd rfl h, fun h => hno (.inl h)⟩

/-- Settles O23: what stops an access in its checks is its course, and a load reads its run once they have passed. -/
theorem accessTraps : Obligations.AccessTraps := by
  unfold Obligations.AccessTraps
  intro accesses m x useIdx size need s t l h hm ha hd
  obtain ⟨f, touch, hexec, hstop, hreads, hatomic, hload⟩ := access_body hm s
  have hb : ButCaches s.cur.core s.kern (beforeBody s m t) := caches_before s.kern s.cur.core m [t]
  have htraps {cause fault : Nat} (hc : cause < 0x10) (hf : fault < 2 ^ 64)
      (hcheck : checkAccess s (beforeBody s m t) t x useIdx size need touch = (beforeBody s m t, .error (.trap cause 0 fault))) :
      ∃ s', exec m s = .next s' ∧ TrapsTo s s' t h (pairtOf s.kern s.cur.core l (curPc s)) cause 0 (curPc s) fault :=
    ⟨_, hexec, issueEach_traps ha f hd (hstop _ _ _ _ _ hcheck) cause 0 (curPc s) fault
      (curPc_lt (executes_single (alone_executes ha))) hf (by omega) (by decide) (by omega) (.inr ⟨rfl, rfl⟩)⟩
  refine ⟨fun cause fault hspot => ?refused, fun blk p hr hsp hsize => ⟨fun hw hl hvalid => ?unwritten, fun hat hvalid hl hc => ?raced⟩,
    fun blk p a hr hneed hob hphys hu hbears => ⟨fun y ys hits hcls => ?poisoned, fun hcls => ?ones⟩⟩
  case refused =>
    obtain ⟨hcause, hfault⟩ := spotOf_fault hspot
    exact htraps (by omega) hfault (checkAccess_refused hspot)
  case unwritten =>
    have hea := spotOf_ea_lt hr.2
    exact htraps (by decide) (by omega) (checkAccess_flagged hb hr hsp hsize hd.1 (checkWord_unwritten (hreads hw) hl hvalid))
  case raced =>
    have hea := spotOf_ea_lt hr.2
    exact htraps (by decide) (by omega) (checkAccess_flagged hb hr hsp hsize hd.1 (checkWord_raced (hatomic hat) hl hvalid hc))
  case poisoned =>
    obtain ⟨rfl, hsize, rfl⟩ := hload hneed
    subst hneed
    have hbody := loadBody_poisoned hb hr hob hphys hu ((poisonHits_butCaches hb _).trans hits)
      (by rwa [classOf, threadLaunch_butCaches hb]) (destination s m t)
    rw [ctxOf_butCaches hb] at hbody
    have hfault : p.ea + y.1 < 2 ^ 64 := by
      have hea := spotOf_ea_lt hr.2
      have hy := poisonHits_le (hits ▸ List.mem_cons_self : y ∈ poisonHits s.kern [(a, size)])
      omega
    have hbears' : Bears (beforeBody s m t) (ctxOf s.kern s.cur.core t)
        (poisonCharge (poisonHits (beforeBody s m t) [(a, size)]) + softHits (beforeBody s m t) [(a, size)]) := by
      rw [bears_butCaches hb, poisonHits_butCaches hb, softHits_butCaches hb]
      exact hbears
    have hcourse : poisonTrap (beforeBody s m t) s.cur.core t p y =
        .lateTrap (poisonCause (classOf s.kern s.cur.core t) y.2) 0 (p.ea + y.1) := by
      simp only [poisonTrap, poisonFault, classOf, threadLaunch_butCaches hb, beq_eq_false_iff_ne.mpr hob, Bool.false_eq_true, if_false]
    obtain ⟨hcause, hne⟩ := poisonCause_bounds (classOf s.kern s.cur.core t) y.2
    obtain ⟨hrecord, hstands, hctxs, hmem⟩ := lateTrap_traps ha hd (charged_chargedLate hbears') hcause hne hfault
      (s' := issueEach s m (loadBody s x size)) (by rw [issueEach_alone_eq ha, hbody, hcourse])
    refine ⟨_, hexec, hrecord, hstands, ?_, fun b => seeByte_of_mem hmem b⟩
    rw [getCtx_of_ctxs hctxs, ebudget_chargedLate hbears', getCtx_of_ctxs (ctxs_butCaches hb), poisonHits_butCaches hb,
      softHits_butCaches hb]
  case ones =>
    obtain ⟨rfl, -, rfl⟩ := hload hneed
    subst hneed
    have hbody := loadBody_ones hb hr hob hphys hu (by rwa [classOf, threadLaunch_butCaches hb]) (destination s m t)
    rw [ctxOf_butCaches hb] at hbody
    have hcharged : Charged (beforeBody s m t) (readRuns (beforeBody s m t) (ctxOf s.kern s.cur.core t) 2 [(a, size)]).1 := by
      refine charged_readRuns_n ?_
      rw [bears_butCaches hb, poisonHits_butCaches hb, softHits_butCaches hb]
      exact hbears
    have hbs : onesAt (beforeBody s m t) a size =
        (List.range size).map fun i => if (poisonAt s.kern (a + i)).isSome then 0xFF else seeByte s.kern (a + i) := by
      rw [hb.shared]
      rfl
    rw [hbs] at hbody
    have hthread : getThread (acquired (readRuns (beforeBody s m t) (ctxOf s.kern s.cur.core t) 2 [(a, size)]).1 s.cur.core x)
        s.cur.core t.tslot t.lane = some t := by
      rw [getThread_acquired, hcharged.getThread, getThread_beforeBody ha]
    have hgoes := issueEach_goesOn ha (loadBody s x size) hbody rfl
      ⟨deliveredTo _ _ t _ _ _ t, by rw [getThread_deliverNow_same, hthread]; rfl, rfl, rfl⟩
    refine ⟨_, hexec, bytes_of_goesOn (i := m) hgoes ?_, hgoes⟩
    rw [deliverNow_mem, acquired_mem, hcharged.mem]

end Sys2Proof.Proofs
end

section
/-! A copy whose predicate word meets a corrected error (R180, R425): the charge exhausts the budget of a context without a handler, and the
record of its end enters the fault log (R382, R426). -/

namespace Sys2Proof.Proofs

open Sys2Proof.Machine Sys2Proof.Safety

/-- The thread, whose registers hold a capability of object 1 and the descriptor of a copy of mode 3 of 64 bytes, to offset 1024 of the
scratchpad, whose predicate word is at offset 64. -/
def chainer : Thread :=
  { fetchThread with regs := { fetchThread.regs with
      v := [(5, 384), (8, 1024), (10, 0x30000040), (11, 64)].foldl (fun v p => rset 0 v p.1 p.2) fetchThread.regs.v } }

/-- The launch of the fetched word, without a handler. -/
def bareLaunch : Launch := { fetchLaunch with rec_ := (List.range 8).foldl (fun r i => r.set (24 + i) 0xFF) fetchRecord }

/-- The thread is about to issue the copy. The word that it reads holds a corrected error, the armed budget of its context has one unit
left, and the fault log of the context is empty and begins at the base of HBM frame 1. -/
def chainingState : State :=
  let s := State.reset.withFetchWord 96 ((encode (.copy copyForm)).getD 0).toNat
  let k := modCtx s.kern 0 fun x =>
    { x with log := BitVec.ofNat 64 (2 * 2 ^ 40 + 12 * 2 ^ 36), objs := x.objs ++ [(2, logObject)], armed := true, ebudget := 1 }
  let k := modCore k 0 fun core => { core with threads := [chainer], ocache := [(0, 1)] }
  { s with
    kern :=
      { k with
        extents := mset k.extents 1 (BitVec.ofNat 64 (2 ^ 62 + 1)), launches := mset k.launches 1 bareLaunch, soft := [rowBase 0 0 + 64] }
    cur := { core := 0, entry := 0, mode := .single } }

/-- What the copy is once checked. -/
def chainingWanted : Wanted :=
  { fail := none, srcR := [], dstR := [{ space := .sp, block := 0, lo := 1024, hi := 1088 }] }

theorem chainingState_alone : ExecutesAlone chainingState (.copy copyForm) chainer = true := by decide +kernel

/-- The kernel state before the copy, and that in which it has taken its number. -/
def chainingBefore : Kern := beforeBody chainingState (.copy copyForm) chainer
/-- With its number taken. -/
def chainingCounted : Kern :=
  modCore (holdResult chainingBefore 0 chainer (regsNamed copyForm.d 1) [] 0 copyForm.la).2 0 fun core =>
    { core with copyCount := mset core.copyCount 0 1 }

theorem chaining_block : (blockOf chainingBefore 0 0) = some fetchBlock := by rfl

theorem chaining_checks :
    checkCopy chainingBefore 0 chainer fetchBlock .ob (copyBase chainingState.kern 0 chainer copyForm) (descOf 1024 0 0x30000040 64) =
      .ok chainingWanted := by decide +kernel

theorem chaining_predicate : (readPredicate chainingCounted 0 chainer (descOf 1024 0 0x30000040 64)).2 = some 0 := by decide +kernel

/-- The end of the context counts its record in the header of the log. -/
theorem chaining_counts : seeByte chainingState.kern (hbmFrame 1) = 0 ∧
    (answered (exec (.copy copyForm) chainingState)).map (fun s => seeByte s.kern (hbmFrame 1)) = some 1 := by decide +kernel

/-- Refutes O26: the read of a copy's predicate word can exhaust the error budget, and the record of the context's end changes the log. -/
theorem not_copyInstructions : ¬ Obligations.CopyInstructions := by
  unfold Obligations.CopyInstructions
  rintro ⟨hcopies, -⟩
  obtain ⟨hroom, -⟩ := hcopies copyForm chainingState chainer fetchBlock chainingState_alone chaining_block
  obtain ⟨-, -, hflight⟩ := hroom chainingWanted chaining_checks (by decide +kernel) (by decide +kernel)
  obtain ⟨s', hexec, -, -, hsame⟩ := hflight 0 rfl chaining_predicate
  obtain ⟨hbefore, hafter⟩ := chaining_counts
  rw [hexec, answered, Option.map_some, hsame, hbefore] at hafter
  exact absurd hafter (by decide)

end Sys2Proof.Proofs
end

section
/-! Packets of the fabric (O45): streams, acknowledgements, arrival in order, the flits that a packet leaves as, and combining. -/

namespace Sys2Proof.Proofs
open Sys2Proof.Machine Sys2Proof.Safety

/-! ## Streams -/

theorem sameStream_iff {a b c : Nat} {d : TrafficClass} {x : Stream} :
    sameStream a b c d x = true ↔ x.src = a ∧ x.dst = b ∧ x.lane = c ∧ x.cls = d := by
  simp [sameStream, and_assoc]

theorem sameStream_streamOf (f : Fabric) (a b c : Nat) (d : TrafficClass) : sameStream a b c d (streamOf f a b c d) = true := by
  unfold streamOf
  cases h : f.streams.find? (sameStream a b c d) with
  | none => simp [sameStream_iff]
  | some x => simpa using List.find?_some h

theorem streamOf_eq_of_streams {f g : Fabric} (h : f.streams = g.streams) (a b c : Nat) (d : TrafficClass) :
    streamOf f a b c d = streamOf g a b c d := by
  simp only [streamOf, h]

/-- Putting a stream changes the streams alone. -/
theorem putStream_eq (f : Fabric) (x : Stream) : putStream f x = { f with streams := (putStream f x).streams } := by
  unfold putStream
  split <;> rfl

/-- Two stream names that some stream has both are one. -/
theorem sameStream_congr {a b c : Nat} {d : TrafficClass} {x : Stream} (h : sameStream a b c d x = true) :
    sameStream x.src x.dst x.lane x.cls = sameStream a b c d := by
  obtain ⟨rfl, rfl, rfl, rfl⟩ := sameStream_iff.1 h
  rfl

theorem find?_map_replace {α : Type} (q : α → Bool) (x : α) (hx : q x = true) (l : List α) (h : l.any q = true) :
    (l.map fun y => if q y then x else y).find? q = some x := by
  induction l with
  | nil => simp at h
  | cons y l ih =>
    cases hy : q y with
    | true => simp [hy, hx]
    | false => simpa [hy] using ih (by simpa [hy] using h)

theorem find?_map_other {α : Type} (q r : α → Bool) (x : α) (hx : q x = false) (hd : ∀ y, r y = true → q y = false) (l : List α) :
    (l.map fun y => if r y then x else y).find? q = l.find? q := by
  induction l with
  | nil => rfl
  | cons y l ih =>
    cases hy : r y with
    | true => simpa [hy, hx, hd y hy] using ih
    | false => simp [hy, List.find?_cons, ih]

theorem streamOf_putStream_same {a b c : Nat} {d : TrafficClass} {x : Stream} (f : Fabric) (h : sameStream a b c d x = true) :
    streamOf (putStream f x) a b c d = x := by
  unfold putStream streamOf
  rw [sameStream_congr h]
  split
  next hany => rw [find?_map_replace _ x h _ hany]; rfl
  next hany =>
    have : f.streams.find? (sameStream a b c d) = none := by
      rw [List.find?_eq_none]; simpa using hany
    simp [List.find?_append, this, h]

theorem streamOf_putStream_other {a b c : Nat} {d : TrafficClass} {x : Stream} (f : Fabric) (h : sameStream a b c d x = false) :
    streamOf (putStream f x) a b c d = streamOf f a b c d := by
  have hd : ∀ y, sameStream x.src x.dst x.lane x.cls y = true → sameStream a b c d y = false := fun y hy => by
    obtain ⟨h1, h2, h3, h4⟩ := sameStream_iff.1 hy
    rw [← h]
    simp only [sameStream, h1, h2, h3, h4]
  unfold putStream streamOf
  split
  · rw [find?_map_other _ _ x h hd]
  · simp [List.find?_append, h]

/-! ## Acknowledgements -/

/-- A packet of a class that no source keeps is sent: it is the last of those in flight. -/
theorem sendPacket_unkept (s : State) (dst lane : Nat) {cls : TrafficClass} (load : Payload) (h : keptClass cls = false) :
    ∃ q : FabPacket, q.src = s.fab.dev ∧ q.dst = dst ∧ q.lane = lane ∧ q.cls = cls ∧ q.load = load ∧
      sendPacket s dst lane cls load = { s with
        kern := { s.kern with id := s.kern.id + 1 },
        fab := { s.fab with streams := (sendPacket s dst lane cls load).fab.streams, packets := s.fab.packets ++ [q] } } := by
  let x := streamOf s.fab s.fab.dev dst lane cls
  refine ⟨{ id := s.kern.id, src := s.fab.dev, dst := dst, lane := lane, cls := cls, eseq := x.sendNext,
            plane := lanePlane s dst lane, sentAt := s.pwr.usec, firstAt := s.pwr.usec, load := load }, rfl, rfl, rfl, rfl, rfl, ?_⟩
  unfold sendPacket
  dsimp only
  rw [putStream_eq]
  simp only [h, Bool.false_eq_true, if_false]
  rfl

theorem streamOf_sendPacket_other (s : State) (dst lane : Nat) {cls cls' : TrafficClass} (load : Payload) (a b c : Nat)
    (h : cls' ≠ cls) : streamOf (sendPacket s dst lane cls load).fab a b c cls' = streamOf s.fab a b c cls' := by
  have hs := sameStream_iff.1 (sameStream_streamOf s.fab s.fab.dev dst lane cls)
  rw [← streamOf_putStream_other s.fab
    (x := { streamOf s.fab s.fab.dev dst lane cls with
      plane := lanePlane s dst lane, sendNext := (streamOf s.fab s.fab.dev dst lane cls).sendNext + 1 })
    (by simpa [sameStream, hs.2.2.2] using fun _ _ _ h' => h h'.symm)]
  exact streamOf_eq_of_streams rfl _ _ _ _

/-- What the acknowledgement of a packet does: an answer to its source, where that keeps the packet. -/
structure Acked (s s' : State) (p : FabPacket) : Prop where
  kern : s'.kern = { s.kern with id := s'.kern.id }
  pwr : s'.pwr = s.pwr
  fw : s'.fw = s.fw
  arrived : s'.fab.arrived = s.fab.arrived
  unacked : s'.fab.unacked = s.fab.unacked
  unreachable : s'.fab.unreachable = s.fab.unreachable
  stream : streamOf s'.fab p.src p.dst p.lane p.cls = streamOf s.fab p.src p.dst p.lane p.cls
  packets : ∃ qs, s'.fab.packets = s.fab.packets ++ qs ∧ (∀ q ∈ qs, q.load = .ack p.lane p.cls p.eseq) ∧
    (keptClass p.cls = true → ∃ q ∈ qs, q.src = s.fab.dev ∧ q.dst = p.src ∧ q.lane = p.lane ∧ q.cls = .reply)

theorem acked_refl (s : State) (p : FabPacket) (h : keptClass p.cls = false) : Acked s s p :=
  ⟨rfl, rfl, rfl, rfl, rfl, rfl, rfl, [], by simp, by simp, by simp [h]⟩

theorem acked_acknowledge (s : State) (p : FabPacket) : Acked s (acknowledge s p) p := by
  unfold acknowledge
  cases h : keptClass p.cls with
  | false => exact acked_refl s p h
  | true =>
    have hne : p.cls ≠ .reply := fun e => by simp [e, keptClass] at h
    obtain ⟨q, h1, h2, h3, h4, h5, e⟩ := sendPacket_unkept s p.src p.lane (cls := .reply) (.ack p.lane p.cls p.eseq) rfl
    have hst := streamOf_sendPacket_other s p.src p.lane (.ack p.lane p.cls p.eseq) p.src p.dst p.lane hne
    rw [if_pos rfl]
    rw [e] at hst ⊢
    exact ⟨rfl, rfl, rfl, rfl, rfl, rfl, hst, [q], rfl, by simp [h5], fun _ => ⟨q, by simp, h1, h2, h3, h4⟩⟩

/-! ## Arrival -/

theorem near_next (x : BitVec 16) : (x - x).toNat < 2 ^ 15 := by simp

theorem comeIn_duplicate {s : State} {p : FabPacket}
    (h : ¬(p.eseq - (streamOf s.fab p.src p.dst p.lane p.cls).recvNext).toNat < 2 ^ 15) : comeIn s p = acknowledge s p := by
  unfold comeIn
  exact if_pos (not_lt.1 h)

theorem comeIn_ahead {s : State} {p : FabPacket}
    (hn : (p.eseq - (streamOf s.fab p.src p.dst p.lane p.cls).recvNext).toNat < 2 ^ 15)
    (hne : p.eseq ≠ (streamOf s.fab p.src p.dst p.lane p.cls).recvNext)
    (hr : (streamOf s.fab p.src p.dst p.lane p.cls).reorder = []) :
    comeIn s p = if noReorder s.fab (streamOf s.fab p.src p.dst p.lane p.cls) p then s
      else { s with fab := putStream s.fab { streamOf s.fab p.src p.dst p.lane p.cls with reorder := [p] } } := by
  unfold comeIn
  dsimp only
  rw [if_neg (not_le.2 hn), hr]
  simp [drainStream, hne]

/-- A stream that has delivered its next packet. -/
def advanced (x : Stream) : Stream := { x with recvNext := x.recvNext + 1 }

theorem comeIn_next {s : State} {p : FabPacket} (he : p.eseq = (streamOf s.fab p.src p.dst p.lane p.cls).recvNext)
    (hr : (streamOf s.fab p.src p.dst p.lane p.cls).reorder = []) (hd : deliverable s.kern p = true) :
    let t := acknowledge (deliverPacket s p) p
    comeIn s p = { t with fab := putStream t.fab (advanced (streamOf s.fab p.src p.dst p.lane p.cls)) } := by
  have hx : advanced (streamOf s.fab p.src p.dst p.lane p.cls) = { streamOf s.fab p.src p.dst p.lane p.cls with
      recvNext := (streamOf s.fab p.src p.dst p.lane p.cls).recvNext + 1, reorder := [] } := by
    rw [← hr]
    rfl
  rw [hx]
  unfold comeIn
  simp [he, hr, noReorder, drainStream, hd]

/-- The state after a packet for this device has left the buffer of its port. -/
def unloaded (s : State) (p : FabPacket) : State :=
  modPort { s with fab := { s.fab with packets := s.fab.packets.filter fun q => q.id != p.id } } p.plane (unbuffer p)

theorem packetArrival_here {s : State} {p : FabPacket} {id : Nat} (hp : s.fab.packets.find? (fun q => q.id == id) = some p)
    (hpl : p.plane < 16) (hd : p.dst = s.fab.dev) :
    exec (.packetArrival id) s = .next (if deliverable s.kern p then comeIn (unloaded s p) p else s) := by
  have hid : p.id = id := by simpa using List.find?_some hp
  change execPacketArrival id s = _
  unfold execPacketArrival unloaded
  rw [hp]
  have : p.plane ≠ beyondLeaf := by unfold beyondLeaf; omega
  simp only [hid, hd, beq_iff_eq, this, if_false, if_true]
  split <;> rfl

theorem noReorder_unloaded (s : State) (p : FabPacket) (x : Stream) : noReorder (unloaded s p).fab x p = noReorder s.fab x p := rfl

theorem mem_packets_unloaded {s : State} {p q : FabPacket} :
    q ∈ (unloaded s p).fab.packets ↔ q ∈ s.fab.packets ∧ q.id ≠ p.id := by
  simp [unloaded, modPort]

/-- An answer to a core, an access or a drain is left for its core to hear. -/
theorem deliverPacket_heard {s : State} {p : FabPacket}
    (h : (∃ c r, answers p.load = some (c, r) ∧ c < leafCore) ∨ (∃ a b c d e f g h i j k, p.load = .access a b c d e f g h i j k) ∨
      ∃ a b c d e, p.load = .drain a b c d e) :
    deliverable s.kern p = true ∧ deliverPacket s p = { s with fab := { s.fab with arrived := s.fab.arrived ++ [p] } } := by
  rcases h with ⟨c, r, ha, hc⟩ | ⟨_, _, _, _, _, _, _, _, _, _, _, hl⟩ | ⟨_, _, _, _, _, hl⟩
  · have h1 : c ≠ leafCore := by omega
    have h2 : c ≠ engineCore := by unfold leafCore at hc; unfold engineCore; omega
    have h3 : c ≠ forwardCore := by unfold leafCore at hc; unfold forwardCore; omega
    have hdel : deliverAnswer s p c r = { s with fab := { s.fab with arrived := s.fab.arrived ++ [p] } } := by
      simp [deliverAnswer, h1, h2, h3, hc]
    cases hl : p.load <;> simp only [hl, answers] at ha <;> cases ha <;>
      exact ⟨by simp [deliverable, hl], by simp only [deliverPacket, hl, answers, hdel]⟩
  · exact ⟨by simp [deliverable, hl], by simp [deliverPacket, hl, answers]⟩
  · exact ⟨by simp [deliverable, hl], by simp [deliverPacket, hl, answers]⟩

/-- What the arrival of a packet that its core hears changes, with x its stream (R386). -/
def ArrivesInOrder (s s' : State) (p : FabPacket) (x : Stream) : Prop :=
  let near : Bool := (p.eseq - x.recvNext).toNat < 2 ^ 15
  s'.kern = { s.kern with id := s'.kern.id } ∧ s'.pwr = s.pwr ∧ s'.fw = s.fw ∧
  (∀ q ∈ s'.fab.packets, (q ∈ s.fab.packets ∧ q.id ≠ p.id) ∨ q.load = .ack p.lane p.cls p.eseq) ∧
  (p.eseq = x.recvNext → s'.fab.arrived = s.fab.arrived ++ [p] ∧
    streamOf s'.fab p.src p.dst p.lane p.cls = advanced x) ∧
  (p.eseq ≠ x.recvNext → near = true → s'.fab.arrived = s.fab.arrived ∧
    streamOf s'.fab p.src p.dst p.lane p.cls = if noReorder s.fab x p then x else { x with reorder := [p] }) ∧
  (near = false → s'.fab.arrived = s.fab.arrived ∧ streamOf s'.fab p.src p.dst p.lane p.cls = x) ∧
  (keptClass p.cls = true → p.eseq = x.recvNext ∨ near = false → ∃ q ∈ s'.fab.packets, q.src = s.fab.dev ∧ q.dst = p.src ∧
    q.lane = p.lane ∧ q.cls = .reply ∧ q.load = .ack p.lane p.cls p.eseq)

theorem arrives_next {s : State} {p : FabPacket} {x : Stream} (hx : streamOf s.fab p.src p.dst p.lane p.cls = x)
    (hr : x.reorder = []) (he : p.eseq = x.recvNext) (hd : deliverable s.kern p = true)
    (hdel : deliverPacket (unloaded s p) p =
      { unloaded s p with fab := { (unloaded s p).fab with arrived := s.fab.arrived ++ [p] } }) :
    ArrivesInOrder s (comeIn (unloaded s p) p) p x := by
  have hx' : streamOf (unloaded s p).fab p.src p.dst p.lane p.cls = x := hx
  have hn : (p.eseq - x.recvNext).toNat < 2 ^ 15 := by rw [he]; exact near_next _
  have hc := comeIn_next (s := unloaded s p) (p := p) (by rw [hx', he]) (by rw [hx', hr]) hd
  have hsame : sameStream p.src p.dst p.lane p.cls (advanced x) = true := by
    rw [← hx]; exact sameStream_streamOf s.fab p.src p.dst p.lane p.cls
  obtain ⟨hk, hp, hf, ha, -, -, -, qs, hq, hl, hkept⟩ := acked_acknowledge (deliverPacket (unloaded s p) p) p
  rw [hc, hx']
  rw [hdel] at hk hp hf ha hq hkept ⊢
  refine ⟨?_, ?_, ?_, fun q hm => ?_, fun _ => ⟨?_, streamOf_putStream_same _ hsame⟩, fun h => absurd he h,
    fun h => absurd hn (of_decide_eq_false h), fun h _ => ?_⟩
  · exact hk
  · exact hp
  · exact hf
  · dsimp only at hm
    rw [putStream_eq] at hm
    dsimp only at hm
    rw [hq, List.mem_append] at hm
    exact hm.imp (fun h => mem_packets_unloaded.1 h) (hl q)
  · dsimp only
    rw [putStream_eq]
    exact ha
  · obtain ⟨q, hm, h1, h2, h3, h4⟩ := hkept h
    refine ⟨q, ?_, h1, h2, h3, h4, hl q hm⟩
    dsimp only
    rw [putStream_eq]
    dsimp only
    rw [hq]
    exact List.mem_append_right _ hm

theorem arrives_duplicate {s : State} {p : FabPacket} {x : Stream} (hx : streamOf s.fab p.src p.dst p.lane p.cls = x)
    (hn : ¬(p.eseq - x.recvNext).toNat < 2 ^ 15) : ArrivesInOrder s (comeIn (unloaded s p) p) p x := by
  have hx' : streamOf (unloaded s p).fab p.src p.dst p.lane p.cls = x := hx
  have hne : p.eseq ≠ x.recvNext := fun h => hn (by rw [h]; exact near_next _)
  rw [comeIn_duplicate (by rw [hx']; exact hn)]
  obtain ⟨hk, hp, hf, ha, -, -, hs, qs, hq, hl, hkept⟩ := acked_acknowledge (unloaded s p) p
  refine ⟨hk, hp, hf, fun q hm => ?_, fun h => absurd h hne, fun _ h => absurd (of_decide_eq_true h) hn,
    fun _ => ⟨ha, hs.trans hx⟩, fun h _ => ?_⟩
  · rw [hq, List.mem_append] at hm
    exact hm.imp (fun h => mem_packets_unloaded.1 h) (hl q)
  · obtain ⟨q, hm, h1, h2, h3, h4⟩ := hkept h
    exact ⟨q, by rw [hq]; exact List.mem_append_right _ hm, h1, h2, h3, h4, hl q hm⟩

theorem arrives_ahead {s : State} {p : FabPacket} {x : Stream} (hx : streamOf s.fab p.src p.dst p.lane p.cls = x)
    (hr : x.reorder = []) (hn : (p.eseq - x.recvNext).toNat < 2 ^ 15) (hne : p.eseq ≠ x.recvNext) :
    ArrivesInOrder s (comeIn (unloaded s p) p) p x := by
  have hx' : streamOf (unloaded s p).fab p.src p.dst p.lane p.cls = x := hx
  have hsame : sameStream p.src p.dst p.lane p.cls { x with reorder := [p] } = true := by
    rw [← hx]; exact sameStream_streamOf s.fab p.src p.dst p.lane p.cls
  rw [comeIn_ahead (by rw [hx']; exact hn) (by rw [hx']; exact hne) (by rw [hx']; exact hr), hx', noReorder_unloaded]
  cases hroom : noReorder s.fab x p with
  | true =>
    refine ⟨rfl, rfl, rfl, fun q hm => .inl (mem_packets_unloaded.1 hm), fun h => absurd h hne, fun _ _ => ⟨rfl, ?_⟩,
      fun h => absurd hn (of_decide_eq_false h),
      fun _ h => absurd h (not_or.2 ⟨hne, fun h => of_decide_eq_false h hn⟩)⟩
    rw [hroom]
    exact hx
  | false =>
    rw [if_neg Bool.false_ne_true]
    refine ⟨rfl, rfl, rfl, fun q hm => ?_, fun h => absurd h hne, fun _ _ => ⟨?_, ?_⟩,
      fun h => absurd hn (of_decide_eq_false h),
      fun _ h => absurd h (not_or.2 ⟨hne, fun h => of_decide_eq_false h hn⟩)⟩
    · dsimp only at hm
      rw [putStream_eq] at hm
      exact .inl (mem_packets_unloaded.1 hm)
    · dsimp only
      rw [putStream_eq]
      rfl
    · rw [hroom]
      exact streamOf_putStream_same _ hsame

/-- A packet that its core hears arrives in the order of its stream. -/
theorem arrives_heard {s : State} {p : FabPacket}
    (h : (∃ c r, answers p.load = some (c, r) ∧ c < leafCore) ∨ (∃ a b c d e f g h i j k, p.load = .access a b c d e f g h i j k) ∨
      ∃ a b c d e, p.load = .drain a b c d e) (hr : (streamOf s.fab p.src p.dst p.lane p.cls).reorder = []) :
    ArrivesInOrder s (comeIn (unloaded s p) p) p (streamOf s.fab p.src p.dst p.lane p.cls) := by
  by_cases hn : (p.eseq - (streamOf s.fab p.src p.dst p.lane p.cls).recvNext).toNat < 2 ^ 15
  · by_cases he : p.eseq = (streamOf s.fab p.src p.dst p.lane p.cls).recvNext
    · obtain ⟨hd, hdel⟩ := deliverPacket_heard (s := unloaded s p) h
      exact arrives_next rfl hr he hd hdel
    · exact arrives_ahead rfl hr hn he
  · exact arrives_duplicate rfl hn

/-- An acknowledgement of this device's packet ends it, and its destination is reachable. -/
theorem acknowledgement_arrives {s : State} {p : FabPacket} {id lane : Nat} {cls : TrafficClass} {eseq : BitVec 16}
    (hp : s.fab.packets.find? (fun q => q.id == id) = some p) (hpl : p.plane < 16) (hd : p.dst = s.fab.dev)
    (hl : p.load = .ack lane cls eseq) (hr : (streamOf s.fab p.src p.dst p.lane p.cls).reorder = [])
    (he : p.eseq = (streamOf s.fab p.src p.dst p.lane p.cls).recvNext) :
    ∃ s', exec (.packetArrival id) s = .next s' ∧ p.src ∉ s'.fab.unreachable ∧
      ∀ q, q ∈ s'.fab.unacked ↔ q ∈ s.fab.unacked ∧ ¬(q.dst = p.src ∧ q.lane = lane ∧ q.cls = cls ∧ q.eseq = eseq) := by
  have hdel : deliverable s.kern p = true := by simp [deliverable, hl]
  refine ⟨_, packetArrival_here hp hpl hd, ?_⟩
  rw [if_pos hdel, comeIn_next (s := unloaded s p) he hr hdel]
  dsimp only
  rw [putStream_eq]
  obtain ⟨-, -, -, -, hu, hun, -⟩ := acked_acknowledge (deliverPacket (unloaded s p) p) p
  dsimp only
  have ht : deliverPacket (unloaded s p) p =
      { unloaded s p with fab := acknowledged (unloaded s p).fab p.src lane cls eseq } := by
    simp [deliverPacket, hl]
  rw [hu, hun, ht]
  refine ⟨by simp [acknowledged], fun q => ?_⟩
  simp only [acknowledged, List.mem_filter]
  refine and_congr Iff.rfl ?_
  simp [-not_and, not_and_or, or_assoc]

theorem deliverFace_notice {k : Kern} {n : Notice} {c : Nat} (hk : n.kind < 3) (hc : noticeCore k n = some c) :
    deliverFace k n = { k with notices := k.notices ++ [{ n with id := k.id, dst := c, held := false }], id := k.id + 1 } := by
  simp [deliverFace, not_le.2 hk, hc]

/-- A face packet whose core holds the region is delivered in its order; its notice is the last of those that wait. -/
theorem face_arrives {s : State} {p : FabPacket} {id c : Nat} {n : Notice}
    (hp : s.fab.packets.find? (fun q => q.id == id) = some p) (hpl : p.plane < 16) (hd : p.dst = s.fab.dev)
    (hl : p.load = .face n) (hk : n.kind < 3) (hc : noticeCore s.kern n = some c)
    (hr : (streamOf s.fab p.src p.dst p.lane p.cls).reorder = [])
    (he : p.eseq = (streamOf s.fab p.src p.dst p.lane p.cls).recvNext) :
    ∃ s', exec (.packetArrival id) s = .next s' ∧
      s'.kern.notices = s.kern.notices ++ [{ n with id := s.kern.id, dst := c, held := false }] ∧
      ∀ a, seeByte s'.kern a = seeByte s.kern a := by
  have hdel : deliverable s.kern p = true := by simp [deliverable, hl, not_le.2 hk, hc]
  refine ⟨_, packetArrival_here hp hpl hd, ?_⟩
  rw [if_pos hdel, comeIn_next (s := unloaded s p) he hr hdel]
  have hkern := (acked_acknowledge (deliverPacket (unloaded s p) p) p).kern
  have ht : (deliverPacket (unloaded s p) p).kern =
      { s.kern with notices := s.kern.notices ++ [{ n with id := s.kern.id, dst := c, held := false }], id := s.kern.id + 1 } := by
    simp only [deliverPacket, hl]
    exact deliverFace_notice hk hc
  dsimp only
  rw [hkern, ht]
  exact ⟨rfl, fun a => seeByte_of_mem rfl a⟩

theorem face_waits {s : State} {p : FabPacket} {id : Nat}
    (hp : s.fab.packets.find? (fun q => q.id == id) = some p) (hpl : p.plane < 16) (hd : p.dst = s.fab.dev)
    (h : deliverable s.kern p = false) : exec (.packetArrival id) s = .next s := by
  rw [packetArrival_here hp hpl hd, h]
  rfl

end Sys2Proof.Proofs
end

section
/-! The flits that a packet leaves as (R391, R398, R401). -/

namespace Sys2Proof.Proofs
open Sys2Proof.Machine Sys2Proof.Safety

/-- The flit of a packet with a PKT code, as a port sends it. -/
def packetFlit (q : FabPacket) (free : Nat) (p : Port) (pkt : Nat) : Flit :=
  flitOf p (classNumber q.cls) pkt q.lane q.dst q.src q.eseq.toNat (free + pkt)

/-- A port sends it. -/
def sendCode (q : FabPacket) (free : Nat) (p : Port) (pkt : Nat) : Port := sendFlit (packetFlit q free p pkt) p

/-- What the replay buffer takes in of a packet: the numbers and the flits. -/
def sentEntries (q : FabPacket) (free : Nat) : Port → List Nat → List (BitVec 16 × Flit)
  | _, [] => []
  | p, c :: cs => (p.txLseq, packetFlit q free p c) :: sentEntries q free (sendCode q free p c) cs

theorem classNumber_le (c : TrafficClass) : classNumber c ≤ 4 := by
  cases c <;> decide

/-- The fields of the bits of a flit, which are those that they were made of. -/
theorem flitBits_fields {cls ks lane pkt lseq dst src eseq body n : Nat} (hc : cls ≤ 4) (hk : ks = 0 ∨ ks = 16) (hl : lane < 16)
    (hp : pkt < 4) (hs : lseq < 2 ^ 16) (hd : dst < 2 ^ 19) (hr : src < 2 ^ 19) (he : eseq < 2 ^ 16)
    (hn : n = cls * 32 + ks + lane + pkt * 2 ^ 14 + lseq * 2 ^ 16 + dst * 2 ^ 32 + src * 2 ^ 56 + eseq * 2 ^ 80 + body * 2 ^ 96) :
    n % 256 / 32 = cls ∧ n % 256 = cls * 32 + ks + lane ∧ n / 2 ^ 8 % 2 ^ 8 / 64 = pkt ∧ n / 2 ^ 16 % 2 ^ 16 = lseq ∧
      n / 2 ^ 32 % 2 ^ 24 = dst ∧ n / 2 ^ 56 % 2 ^ 24 = src ∧ n / 2 ^ 80 % 2 ^ 16 = eseq := by
  refine ⟨?_, ?_, ?_, ?_, ?_, ?_, ?_⟩ <;> omega

/-- Bits below the TAG leave its field 0. -/
theorem flitBits_tag {head body : Nat} (h : head < 2 ^ 96) : (head + body % 2 ^ 1792 * 2 ^ 96) / 2 ^ 1888 % 2 ^ 128 = 0 := by
  have hb : body % 2 ^ 1792 < 2 ^ 1792 := Nat.mod_lt _ (by positivity)
  have : head + body % 2 ^ 1792 * 2 ^ 96 < 2 ^ 1888 := by
    calc head + body % 2 ^ 1792 * 2 ^ 96 < 2 ^ 96 + body % 2 ^ 1792 * 2 ^ 96 := by omega
      _ = (body % 2 ^ 1792 + 1) * 2 ^ 96 := by ring
      _ ≤ 2 ^ 1792 * 2 ^ 96 := Nat.mul_le_mul_right _ hb
      _ = 2 ^ 1888 := by rw [← Nat.pow_add]
  rw [Nat.div_eq_of_lt this, Nat.zero_mod]

/-- What a flit of a packet holds: a good CRC, and the fields of R391. -/
structure FlitHolds (q : FabPacket) (p : Port) (pkt : Nat) (flit : Flit) : Prop where
  crc : crcGood flit = true
  cls : flitClass flit = classNumber q.cls
  ks : flitKs flit = (p.encrypt && p.ks)
  lseq : flitLseq flit = p.txLseq
  lane : flitField flit 0 1 % 16 = q.lane % 16
  code : pkt = flitField flit 1 1 / 64
  dst : flitField flit 4 3 % 2 ^ 19 = q.dst % 2 ^ 19
  src : flitField flit 7 3 % 2 ^ 19 = q.src % 2 ^ 19
  eseq : flitField flit 10 2 = q.eseq.toNat
  tag : flitField flit 236 16 = 0

theorem packetFlit_holds (q : FabPacket) (free : Nat) (p : Port) {pkt : Nat} (h : pkt < 4) :
    FlitHolds q p pkt (packetFlit q free p pkt) := by
  have hm : ∀ a b : Nat, 0 < b → a % b < b := fun a b hb => Nat.mod_lt a hb
  have hks : (if (p.encrypt && p.ks) = true then 16 else 0) = 0 ∨ (if (p.encrypt && p.ks) = true then 16 else 0) = 16 := by
    split <;> simp
  have he := q.eseq.isLt
  obtain ⟨h1, h2, h3, h4, h5, h6, h7⟩ := flitBits_fields (n := flitBits p (classNumber q.cls) pkt q.lane q.dst q.src q.eseq.toNat
    (free + pkt)) (classNumber_le q.cls) hks (hm q.lane 16 (by norm_num)) (hm pkt 4 (by norm_num)) p.txLseq.isLt
    (hm q.dst (2 ^ 19) (by norm_num)) (hm q.src (2 ^ 19) (by norm_num)) (hm q.eseq.toNat (2 ^ 16) (by norm_num)) rfl
  have hf : ∀ off k, off + k ≤ 252 → flitField (packetFlit q free p pkt) off k =
      flitBits p (classNumber q.cls) pkt q.lane q.dst q.src q.eseq.toNat (free + pkt) / 2 ^ (8 * off) % 2 ^ (8 * k) :=
    fun off k => Laws.sealFlit_field _ off k
  have h0 : flitField (packetFlit q free p pkt) 0 1 =
      classNumber q.cls * 32 + (if (p.encrypt && p.ks) = true then 16 else 0) + q.lane % 16 := by
    rw [hf 0 1 (by norm_num), ← h2]; norm_num
  refine ⟨Laws.crcGood_sealFlit _, (Laws.sealFlit_class _).trans h1, ?_, ?_, ?_, ?_, ?_, ?_, ?_, ?_⟩
  · rw [flitKs, h0, Nat.testBit_eq_decide_div_mod_eq]
    have hl := hm q.lane 16 (by norm_num)
    have hc := classNumber_le q.cls
    cases hb : (p.encrypt && p.ks) with
    | true => rw [if_pos rfl]; apply decide_eq_true; omega
    | false => rw [if_neg Bool.false_ne_true]; apply decide_eq_false; omega
  · rw [flitLseq, hf 2 2 (by norm_num)]
    exact (congrArg (BitVec.ofNat 16) h4).trans (by simp)
  · rw [h0]; have := hks; omega
  · rw [hf 1 1 (by norm_num)]
    exact (h3.trans (Nat.mod_eq_of_lt h)).symm
  · rw [hf 4 3 (by norm_num)]
    exact (congrArg (· % 2 ^ 19) h5).trans (Nat.mod_mod _ _)
  · rw [hf 7 3 (by norm_num)]
    exact (congrArg (· % 2 ^ 19) h6).trans (Nat.mod_mod _ _)
  · rw [hf 10 2 (by norm_num)]
    exact h7.trans (Nat.mod_eq_of_lt he)
  · rw [hf 236 16 (by norm_num)]
    refine flitBits_tag ?_
    have := classNumber_le q.cls
    have := p.txLseq.isLt
    have := hm q.dst (2 ^ 19) (by norm_num)
    have := hm q.src (2 ^ 19) (by norm_num)
    omega

/-! ## A row of flits -/

/-- A flit depends on the port by its encryption, its slot and its next number. -/
theorem packetFlit_congr (q : FabPacket) (free : Nat) {p p' : Port} (he : p'.encrypt = p.encrypt) (hk : p'.ks = p.ks)
    (hl : p'.txLseq = p.txLseq) : packetFlit q free p' = packetFlit q free p := by
  funext pkt
  simp only [packetFlit, flitOf, flitBits, he, hk, hl]

@[simp] theorem sendCode_encrypt (q : FabPacket) (free : Nat) (p : Port) (c : Nat) : (sendCode q free p c).encrypt = p.encrypt := rfl
@[simp] theorem sendCode_ks (q : FabPacket) (free : Nat) (p : Port) (c : Nat) : (sendCode q free p c).ks = p.ks := rfl
@[simp] theorem sendCode_txLseq (q : FabPacket) (free : Nat) (p : Port) (c : Nat) :
    (sendCode q free p c).txLseq = p.txLseq + 1 := rfl

theorem ofNat_succ (x : BitVec 16) (n : Nat) : x + 1 + BitVec.ofNat 16 n = x + BitVec.ofNat 16 (n + 1) := by
  apply BitVec.eq_of_toNat_eq
  simp only [BitVec.toNat_add, BitVec.toNat_ofNat, show BitVec.toNat (1 : BitVec 16) = 1 from rfl]
  omega

@[simp] theorem length_sentEntries (q : FabPacket) (free : Nat) (cs : List Nat) (p : Port) :
    (sentEntries q free p cs).length = cs.length := by
  induction cs generalizing p with
  | nil => rfl
  | cons c cs ih => simp [sentEntries, ih]

/-- The flit of number i of a row: that of code i, with the number that the port has come to. -/
theorem getElem?_sentEntries {q : FabPacket} {free : Nat} {cs : List Nat} {p : Port} {i : Nat} {x : BitVec 16 × Flit}
    (h : (sentEntries q free p cs)[i]? = some x) :
    ∃ c, cs[i]? = some c ∧ x.1 = p.txLseq + BitVec.ofNat 16 i ∧
      x.2 = packetFlit q free { p with txLseq := p.txLseq + BitVec.ofNat 16 i } c := by
  induction cs generalizing p i with
  | nil => simp [sentEntries] at h
  | cons c cs ih =>
    cases i with
    | zero =>
      obtain rfl : (p.txLseq, packetFlit q free p c) = x := by simpa [sentEntries] using h
      refine ⟨c, rfl, by simp, ?_⟩
      have h0 : ({ p with txLseq := p.txLseq + BitVec.ofNat 16 0 } : Port) = p :=
        congrArg (fun l => ({ p with txLseq := l } : Port)) (BitVec.add_zero _)
      rw [h0]
    | succ i =>
      obtain ⟨d, h1, h2, h3⟩ := ih (p := sendCode q free p c) (by simpa [sentEntries] using h)
      rw [sendCode_txLseq, ofNat_succ] at h2 h3
      exact ⟨d, by simpa using h1, h2, h3.trans (congrFun (packetFlit_congr q free rfl rfl rfl) d)⟩

/-- The last 512 of a list (R398). -/
def lastKept {α : Type} (l : List α) : List α := l.drop (l.length - 512)

theorem length_lastKept {α : Type} (l : List α) : (lastKept l).length ≤ 512 := by
  simp only [lastKept, List.length_drop]; omega

theorem lastKept_of_short {α : Type} {l : List α} (h : l.length ≤ 512) : lastKept l = l := by
  simp [lastKept, Nat.sub_eq_zero_of_le h]

theorem lastKept_append {α : Type} (l m : List α) : lastKept (lastKept l ++ m) = lastKept (l ++ m) := by
  have h : l.length - 512 ≤ l.length := Nat.sub_le _ _
  unfold lastKept
  rw [← List.drop_append_of_le_length h, List.drop_drop]
  refine congrArg (List.drop · (l ++ m)) ?_
  simp only [List.length_drop, List.length_append]
  omega

theorem mem_lastKept_append {α : Type} {l m : List α} (h : m.length ≤ 512) {x : α} (hx : x ∈ m) : x ∈ lastKept (l ++ m) := by
  rw [lastKept, List.drop_append_of_le_length (by rw [List.length_append]; omega)]
  exact List.mem_append_right _ hx

theorem sendCode_replay (q : FabPacket) (free : Nat) (p : Port) (c : Nat) :
    (sendCode q free p c).replay = lastKept (p.replay ++ [(p.txLseq, packetFlit q free p c)]) := by
  simp only [sendCode, sendFlit, lastKept]

/-- What a port holds after it has sent a row of flits. -/
theorem lastKept_replay_sent (q : FabPacket) (free : Nat) (cs : List Nat) (p : Port) :
    lastKept (cs.foldl (sendCode q free) p).replay = lastKept (p.replay ++ sentEntries q free p cs) := by
  induction cs generalizing p with
  | nil => simp [sentEntries]
  | cons c cs ih =>
    rw [List.foldl_cons, ih, sendCode_replay, lastKept_append, List.append_assoc]
    rfl

theorem length_replay_sent (q : FabPacket) (free : Nat) (cs : List Nat) {p : Port} (h : p.replay.length ≤ 512) :
    (cs.foldl (sendCode q free) p).replay.length ≤ 512 := by
  induction cs generalizing p with
  | nil => exact h
  | cons c cs ih => exact ih (by rw [sendCode_replay]; exact length_lastKept _)

theorem txLseq_sent (q : FabPacket) (free : Nat) (cs : List Nat) (p : Port) :
    (cs.foldl (sendCode q free) p).txLseq = p.txLseq + BitVec.ofNat 16 cs.length := by
  induction cs generalizing p with
  | nil => simp
  | cons c cs ih => rw [List.foldl_cons, ih, sendCode_txLseq, ofNat_succ]; rfl

theorem sendCode_sendKeys (q : FabPacket) (free : Nat) (p : Port) {c : Nat} (h : c < 4) :
    (sendCode q free p c).sendKeys =
      if p.encrypt then mmod p.sendKeys (slotNumber p.ks) fun k => { k with counter := k.counter + 1 } else p.sendKeys := by
  have hks := (packetFlit_holds q free p h).ks
  change (if p.encrypt then mmod p.sendKeys (slotNumber (flitKs (packetFlit q free p c))) fun k =>
    { k with counter := k.counter + 1 } else p.sendKeys) = _
  rw [hks]
  cases p.encrypt <;> simp

/-- The counter of the slot in use counts the flits of a row, where the link is encrypted. -/
theorem counter_sent (q : FabPacket) (free : Nat) (cs : List Nat) (hc : ∀ c ∈ cs, c < 4) (p : Port) :
    mget (cs.foldl (sendCode q free) p).sendKeys (slotNumber p.ks) = (mget p.sendKeys (slotNumber p.ks)).map fun k =>
      { k with counter := k.counter + if p.encrypt then cs.length else 0 } := by
  induction cs generalizing p with
  | nil => cases hm : mget p.sendKeys (slotNumber p.ks) <;> simp [hm]
  | cons c cs ih =>
    have := ih (fun d hd => hc d (List.mem_cons_of_mem _ hd)) (sendCode q free p c)
    rw [sendCode_ks, sendCode_encrypt, sendCode_sendKeys q free p (hc c List.mem_cons_self)] at this
    rw [List.foldl_cons, this]
    cases p.encrypt with
    | false => simp
    | true =>
      rw [if_pos rfl, if_pos rfl, mget_mmod_same, Option.map_map]
      refine congrArg (Option.map · _) (funext fun k => ?_)
      simp only [Function.comp, if_true, List.length_cons]
      congr 1
      omega

/-- What leaves last: the flit itself, or under the key of its slot. -/
theorem sendCode_last (q : FabPacket) (free : Nat) (p : Port) {c : Nat} (h : c < 4) :
    (p.encrypt = false → (sendCode q free p c).last = some (packetFlit q free p c)) ∧
    (∀ k, p.encrypt = true → mget p.sendKeys (slotNumber p.ks) = some k →
      (sendCode q free p c).last = some (sealFlit (protectFlit k (packetFlit q free p c).toNat))) := by
  have hks := (packetFlit_holds q free p h).ks
  have hl : (sendCode q free p c).last = some (wireFlit p (packetFlit q free p c)) := rfl
  rw [hl]
  refine ⟨fun he => by simp [wireFlit, he], fun k he hk => ?_⟩
  rw [he, Bool.true_and] at hks
  simp [wireFlit, he, hks, hk]

theorem mem_pktCodes {n c : Nat} (h : c ∈ pktCodes n) : c < 4 := by
  unfold pktCodes at h
  split at h <;> simp at h <;> omega

theorem length_pktCodes (n : Nat) : (pktCodes n).length ≤ 3 ∧ pktCodes n ≠ [] := by
  unfold pktCodes
  split <;> simp

/-! ## The packet leaves -/

theorem waitingOf_may {s : State} {plane : Nat} {cls : TrafficClass} {p : FabPacket} (h : waitingOf s plane cls = some p) :
    maySend (getPort s plane) p.cls (flitsOf p.load) = true := by
  unfold waitingOf at h
  obtain ⟨q, hq, hm⟩ := Option.bind_eq_some_iff.1 h
  have hc : q.cls = cls := by simpa using List.find?_some hq
  split at hm
  next hs => cases hm; rwa [hc]
  · cases hm

theorem nextPacket_waiting {s : State} {plane : Nat} {p : FabPacket} (h : nextPacket s plane = some p) :
    ∃ cls, waitingOf s plane cls = some p := by
  have due : ∀ {cls : TrafficClass} {n m : Nat} {q : FabPacket},
      (if shareDue n m then waitingOf s plane cls else none) = some q → waitingOf s plane cls = some q := by
    intro cls n m q h
    split at h
    · exact h
    · cases h
  unfold nextPacket at h
  cases hf : firstByOrder s plane with
  | none => simp [hf] at h
  | some q =>
    simp only [hf] at h
    split at h
    next f r h1 h2 =>
      split at h
      · cases h; exact ⟨_, due h1⟩
      · cases h; exact ⟨_, due h2⟩
    next f h1 => cases h; exact ⟨_, due (by assumption)⟩
    next r h2 => cases h; exact ⟨_, due (by assumption)⟩
    · cases h
      obtain ⟨cls, -, hq⟩ := List.exists_of_findSome?_eq_some hf
      exact ⟨cls, hq⟩

theorem nextPacket_may {s : State} {plane : Nat} {p : FabPacket} (h : nextPacket s plane = some p) :
    maySend (getPort s plane) p.cls (flitsOf p.load) = true := by
  obtain ⟨cls, h⟩ := nextPacket_waiting h
  exact waitingOf_may h

theorem openGroup_ports (s : State) (p : FabPacket) (out : Nat) (x : Nat × Nat × Nat × Nat) :
    (openGroup s p out x).fab.ports = s.fab.ports := by
  unfold openGroup
  dsimp only
  split <;> rfl

theorem atOutput_ports (s : State) (p : FabPacket) (out : Nat) : (atOutput s p out).fab.ports = s.fab.ports := by
  unfold atOutput
  dsimp only
  split
  · rfl
  · split
    · rfl
    · split
      · split <;> rfl
      · exact openGroup_ports _ _ _ _

theorem goOut_ports (s : State) (p : FabPacket) :
    (goOut s p).fab.ports = mmod s.fab.ports p.plane (sendPacketFlits p s.kern.free) := by
  unfold goOut atLeaf
  dsimp only
  split
  · rfl
  · exact atOutput_ports _ _ _

/-- The port of a packet once it has left. -/
theorem sendPacketFlits_port (p : FabPacket) (free : Nat) (x : Port) :
    ∃ a b, sendPacketFlits p free x =
      { (pktCodes (flitsOf p.load)).foldl (sendCode p free) x with sinceFace := a, sinceRequest := b } := ⟨_, _, rfl⟩

theorem packetArrival_leaves {s : State} {p : FabPacket} {id : Nat} (hp : s.fab.packets.find? (fun q => q.id == id) = some p)
    (hpl : p.plane < 16) (hsrc : p.src = s.fab.dev) (hd : p.dst ≠ s.fab.dev) :
    exec (.packetArrival id) s = .next (if (nextPacket s p.plane).map (·.id) = some id then
      goOut { s with fab := { s.fab with packets := s.fab.packets.filter fun q => q.id != id } } p else s) := by
  change execPacketArrival id s = _
  unfold execPacketArrival
  rw [hp]
  have : p.plane ≠ beyondLeaf := by unfold beyondLeaf; omega
  simp only [hd, hsrc, beq_iff_eq, this, if_false, bne_self_eq_false, Bool.false_eq_true]
  split <;> rfl

end Sys2Proof.Proofs
end

section
/-! What a port holds once a packet has left, planes, pauses and unreachable destinations (R386 to R393). -/

namespace Sys2Proof.Proofs
open Sys2Proof.Machine Sys2Proof.Safety

/-- What a row of flits of a packet is, in its port before and after it has left (R391, R398, R401). -/
def LeavesAs (p : FabPacket) (x y : Port) (fs : List Flit) (codes : List Nat) : Prop :=
  fs.length = codes.length ∧ y.txLseq = x.txLseq + BitVec.ofNat 16 codes.length ∧
  y.replay.length ≤ 512 ∧ (∀ i (flit : Flit), fs[i]? = some flit →
    (x.txLseq + BitVec.ofNat 16 i, flit) ∈ y.replay ∧ crcGood flit = true ∧ flitClass flit = classNumber p.cls ∧
    flitKs flit = (x.encrypt && x.ks) ∧ flitLseq flit = x.txLseq + BitVec.ofNat 16 i ∧ flitField flit 0 1 % 16 = p.lane % 16 ∧
    codes[i]? = some (flitField flit 1 1 / 64) ∧ flitField flit 4 3 % 2 ^ 19 = p.dst % 2 ^ 19 ∧
    flitField flit 7 3 % 2 ^ 19 = p.src % 2 ^ 19 ∧ flitField flit 10 2 = p.eseq.toNat ∧
    (x.encrypt = false → flitField flit 236 16 = 0)) ∧
  (∀ flit, fs = [flit] → x.encrypt = false → y.last = some flit) ∧
  (∀ (flit : Flit) k, fs = [flit] → x.encrypt = true → mget x.sendKeys (slotNumber x.ks) = some k →
    y.last = some (sealFlit (protectFlit k flit.toNat))) ∧
  mget y.sendKeys (slotNumber x.ks) = (mget x.sendKeys (slotNumber x.ks)).map fun k =>
    { k with counter := k.counter + if x.encrypt then codes.length else 0 }

/-- A row of one flit is that of a row of one code. -/
theorem sentEntries_single {p : FabPacket} {free : Nat} {x : Port} {cs : List Nat} {flit : Flit}
    (h : (sentEntries p free x cs).map (·.2) = [flit]) : ∃ c, cs = [c] ∧ flit = packetFlit p free x c := by
  have hl : cs.length = 1 := by simpa using congrArg List.length h
  obtain ⟨c, rfl⟩ := List.length_eq_one_iff.1 hl
  exact ⟨c, rfl, (List.cons.inj h).1.symm⟩

theorem leavesAs_sent (p : FabPacket) (free : Nat) (x : Port) {cs : List Nat} (hlen : cs.length ≤ 3) (hne : cs ≠ [])
    (hc : ∀ c ∈ cs, c < 4) :
    LeavesAs p x (cs.foldl (sendCode p free) x) ((sentEntries p free x cs).map (·.2)) cs := by
  have hshort : (cs.foldl (sendCode p free) x).replay.length ≤ 512 := by
    cases cs with
    | nil => exact absurd rfl hne
    | cons c cs => exact length_replay_sent p free cs (by rw [sendCode_replay]; exact length_lastKept _)
  refine ⟨by simp, txLseq_sent p free cs x, hshort, fun i flit h => ?_, fun flit h he => ?_, fun flit k h he hk => ?_,
    counter_sent p free cs hc x⟩
  · rw [List.getElem?_map, Option.map_eq_some_iff] at h
    obtain ⟨e, hi, rfl⟩ := h
    obtain ⟨c, hcode, hn, hflit⟩ := getElem?_sentEntries hi
    have holds := packetFlit_holds p free { x with txLseq := x.txLseq + BitVec.ofNat 16 i } (hc c (List.mem_of_getElem? hcode))
    rw [← hflit] at holds
    obtain ⟨h1, h2, h3, h4, h5, h6, h7, h8, h9, h10⟩ := holds
    have hmem : (x.txLseq + BitVec.ofNat 16 i, e.2) ∈ (cs.foldl (sendCode p free) x).replay := by
      rw [← lastKept_of_short hshort, lastKept_replay_sent, ← hn]
      exact mem_lastKept_append (by rw [length_sentEntries]; omega) (List.mem_of_getElem? hi)
    exact ⟨hmem, h1, h2, h3, h4, h5, by rw [hcode, h6], h7, h8, h9, fun _ => h10⟩
  · obtain ⟨c, rfl, rfl⟩ := sentEntries_single h
    exact (sendCode_last p free x (hc c (by simp))).1 he
  · obtain ⟨c, rfl, rfl⟩ := sentEntries_single h
    exact (sendCode_last p free x (hc c (by simp))).2 k he hk

/-- The next packet of its plane leaves as the flits of its port. -/
theorem packet_leaves {s : State} {p : FabPacket} {id : Nat} {x : Port} (hp : s.fab.packets.find? (fun q => q.id == id) = some p)
    (hpl : p.plane < 16) (hsrc : p.src = s.fab.dev) (hd : p.dst ≠ s.fab.dev) (hx : mget s.fab.ports p.plane = some x)
    (hn : nextPacket s p.plane = some p) :
    maySend x p.cls (flitsOf p.load) = true ∧ ∃ (s' : State) (y : Port) (fs : List Flit), exec (.packetArrival id) s = .next s' ∧
      mget s'.fab.ports p.plane = some y ∧ LeavesAs p x y fs (pktCodes (flitsOf p.load)) := by
  have hid : p.id = id := by simpa using List.find?_some hp
  have hmay := nextPacket_may hn
  rw [getPort, hx] at hmay
  obtain ⟨a, b, hport⟩ := sendPacketFlits_port p s.kern.free x
  obtain ⟨hlen, hne⟩ := length_pktCodes (flitsOf p.load)
  refine ⟨hmay, _, sendPacketFlits p s.kern.free x, (sentEntries p s.kern.free x (pktCodes (flitsOf p.load))).map (·.2),
    packetArrival_leaves hp hpl hsrc hd, ?_, ?_⟩
  · rw [hn, Option.map_some, hid, if_pos rfl, goOut_ports, mget_mmod_same]
    exact congrArg (Option.map _) hx
  · rw [hport]
    exact leavesAs_sent p s.kern.free x hlen hne fun c hc => mem_pktCodes hc

/-! ## Retransmission, planes and pauses -/

theorem retransmission_sends {s : State} {p : FabPacket} {id : Nat} (hp : s.fab.unacked.find? (fun q => q.id == id) = some p)
    (hdue : p.sentAt + 20 ≤ s.pwr.usec) (hleft : ∀ q ∈ s.fab.packets, q.id ≠ id) :
    let again := { p with sentAt := s.pwr.usec, plane := (streamOf s.fab p.src p.dst p.lane p.cls).plane }
    ∃ s', exec (.retransmissionTimeout id) s = .next s' ∧ OnlyFabric s s' ∧ s'.fab.packets = s.fab.packets ++ [again] ∧
      again ∈ s'.fab.unacked := by
  intro again
  have hany : (s.fab.packets.any fun q => q.id == id) = false := by simpa using hleft
  refine ⟨{ s with fab := { s.fab with packets := s.fab.packets ++ [again],
                                        unacked := s.fab.unacked.map fun q => if q.id == again.id then again else q } },
    ?_, rfl, rfl, ?_⟩
  · change execRetransmissionTimeout id s = _
    unfold execRetransmissionTimeout
    rw [hp]
    simp only [hany, Bool.or_false, decide_eq_true_eq, not_lt.2 hdue, if_false]
    rfl
  · exact List.mem_map.2 ⟨p, List.mem_of_find?_eq_some hp, if_pos (beq_self_eq_true _)⟩

theorem retransmission_early {s : State} {p : FabPacket} {id : Nat} (hp : s.fab.unacked.find? (fun q => q.id == id) = some p)
    (h : s.pwr.usec < p.sentAt + 20) : exec (.retransmissionTimeout id) s = .next s := by
  change execRetransmissionTimeout id s = _
  unfold execRetransmissionTimeout
  rw [hp]
  simp only [h, decide_true, Bool.true_or, if_true]
  rfl

theorem planeFailover_holds {s : State} {dst lane n : Nat} (h : planeFor s dst lane = some n) :
    planeReaches s dst n = true ∧
    (n = lane → othersAcked s dst lane = false → exec (.planeFailover dst lane) s = .next s) ∧
    (n ≠ lane ∨ othersAcked s dst lane = true → ∃ s', exec (.planeFailover dst lane) s = .next s' ∧ OnlyFabric s s' ∧
      (∀ x ∈ s'.fab.streams, x.src = s.fab.dev → x.dst = dst → x.lane = lane → x.plane = n) ∧
      ∀ q ∈ s'.fab.packets, q.src = s.fab.dev → q.dst = dst → q.lane = lane → q.plane = n ∨ q.plane = beyondLeaf) := by
  have hex : exec (.planeFailover dst lane) s =
      .next (if n == lane && !othersAcked s dst lane then s else { s with fab := moveLane s.fab dst lane n }) := by
    change execPlaneFailover dst lane s = _
    unfold execPlaneFailover
    rw [h]
    dsimp only
    split <;> rfl
  refine ⟨List.find?_some h, fun h1 h2 => ?_, fun h1 => ⟨{ s with fab := moveLane s.fab dst lane n }, ?_, rfl, ?_, ?_⟩⟩
  · rw [hex, h1, h2]; simp
  · rw [hex, if_neg]
    rcases h1 with h1 | h1 <;> simp [h1]
  · intro x hx h1 h2 h3
    obtain ⟨y, -, rfl⟩ := List.mem_map.1 hx
    split
    · rfl
    next hmine =>
      rw [if_neg hmine] at h1 h2 h3
      simp [h1, h2, h3] at hmine
  · intro q hq h1 h2 h3
    obtain ⟨p, -, rfl⟩ := List.mem_map.1 hq
    split
    · exact .inl rfl
    next hmine =>
      rw [if_neg hmine] at h1 h2 h3
      simp only [h1, h2, h3, beq_self_eq_true, Bool.true_and, bne_iff_ne, ne_eq, not_not] at hmine
      exact .inr hmine

theorem classPause_holds {s : State} {port : Nat} {x : Port} (cls : TrafficClass) (resume : Bool)
    (hx : mget s.fab.ports port = some x) :
    ∃ s' y, exec (.classPause port cls resume) s = .next s' ∧ OnlyFabric s s' ∧ mget s'.fab.ports port = some y ∧
      y = { x with pauses := y.pauses } ∧ ∀ d, d ∈ y.pauses ↔ if d = cls then resume = false else d ∈ x.pauses := by
  refine ⟨_, _, rfl, rfl, (mget_mmod_same _ _ _).trans (congrArg (Option.map _) hx), rfl, fun d => ?_⟩
  dsimp only
  cases resume with
  | true => by_cases hd : d = cls <;> simp [hd]
  | false =>
    rw [if_neg Bool.false_ne_true]
    split
    next hc => by_cases hd : d = cls <;> simp_all
    next hc => by_cases hd : d = cls <;> simp [hd]

/-! ## Unreachable destinations -/

theorem relayAnswer_pwr_fw (s : State) (id : Nat) (x : Payload) :
    (relayAnswer s id x).pwr = s.pwr ∧ (relayAnswer s id x).fw = s.fw := by
  unfold relayAnswer
  split <;> exact ⟨rfl, rfl⟩

/-- What a home answers when a request that it sent on ends is a packet of the reply class. -/
theorem relayAnswer_packets (s : State) (id : Nat) (x : Payload) :
    (relayAnswer s id x).fab.unacked = s.fab.unacked ∧ (relayAnswer s id x).fab.unreachable = s.fab.unreachable ∧
    ∀ q ∈ (relayAnswer s id x).fab.packets, q ∈ s.fab.packets ∨ q.cls = .reply := by
  unfold relayAnswer
  split
  · exact ⟨rfl, rfl, fun q h => .inl h⟩
  next y _ =>
    obtain ⟨q, -, -, -, hc, -, e⟩ := sendPacket_unkept
      { s with fab := { s.fab with forwarded := s.fab.forwarded.filter fun y => y.1 != id } } y.2.src y.2.lane (cls := .reply)
      (relayed y.2.load x) rfl
    rw [e]
    refine ⟨rfl, rfl, fun q' h => ?_⟩
    rcases List.mem_append.1 h with h | h
    · exact .inl h
    · rw [List.mem_singleton.1 h]; exact .inr hc

/-- The answers of requests that were sent on are packets of the reply class, and change little else. -/
structure OnlyReplies (s s' : State) : Prop where
  pwr : s'.pwr = s.pwr
  fw : s'.fw = s.fw
  unacked : s'.fab.unacked = s.fab.unacked
  unreachable : s'.fab.unreachable = s.fab.unreachable
  packets : ∀ q ∈ s'.fab.packets, q ∈ s.fab.packets ∨ q.cls = .reply

theorem onlyReplies_refl (s : State) : OnlyReplies s s := ⟨rfl, rfl, rfl, rfl, fun _ h => .inl h⟩

theorem OnlyReplies.trans {s t u : State} (h : OnlyReplies s t) (h' : OnlyReplies t u) : OnlyReplies s u :=
  ⟨h'.pwr.trans h.pwr, h'.fw.trans h.fw, h'.unacked.trans h.unacked, h'.unreachable.trans h.unreachable,
    fun q hq => (h'.packets q hq).elim (h.packets q) .inr⟩

theorem onlyReplies_relayAnswer (s : State) (id : Nat) (x : Payload) : OnlyReplies s (relayAnswer s id x) :=
  ⟨(relayAnswer_pwr_fw s id x).1, (relayAnswer_pwr_fw s id x).2, (relayAnswer_packets s id x).1,
    (relayAnswer_packets s id x).2.1, (relayAnswer_packets s id x).2.2⟩

theorem onlyReplies_endForwards (s : State) (gone : List FabPacket) : OnlyReplies s (endForwards s gone) := by
  unfold endForwards
  induction gone generalizing s with
  | nil => exact onlyReplies_refl s
  | cons p gone ih =>
    rw [List.foldl_cons]
    refine OnlyReplies.trans ?_ (ih _)
    split
    · split
      · exact onlyReplies_relayAnswer _ _ _
      · exact onlyReplies_refl s
    · split
      · exact onlyReplies_relayAnswer _ _ _
      · exact onlyReplies_refl s
    · exact onlyReplies_refl s

theorem loseDevice_holds (s : State) (dst : Nat) :
    dst ∈ (loseDevice s dst).fab.unreachable ∧ (loseDevice s dst).pwr = s.pwr ∧
    (∀ q ∈ (loseDevice s dst).fab.unacked ++ (loseDevice s dst).fab.packets,
      ¬(q.dst = dst ∧ (q.cls = .request ∨ q.cls = .forward))) ∧
    (loseDevice s dst).fw.responses =
      s.fw.responses ++ [{ tag := 0xFFFFFFFF, status := 0x81, detail := 0, value := BitVec.ofNat 64 dst }] := by
  unfold loseDevice
  dsimp only
  obtain ⟨h1, h2, h3, h4, h5⟩ := onlyReplies_endForwards _ (s.fab.unacked.filter fun p => p.dst == dst && asksFor p)
  have gone : ∀ (l : List FabPacket), ∀ q ∈ l.filter fun p => !(p.dst == dst && asksFor p),
      ¬(q.dst = dst ∧ (q.cls = .request ∨ q.cls = .forward)) := fun l q hq => by
    simpa [asksFor, imp_iff_not_or] using (List.mem_filter.1 hq).2
  refine ⟨?_, h1, fun q hq => ?_, ?_⟩
  · refine (congrArg (dst ∈ ·) h4).mpr ?_
    dsimp only [addOnce]
    split
    next h => simpa using h
    · simp
  · rcases List.mem_append.1 hq with hq | hq
    · exact gone s.fab.unacked q ((congrArg (q ∈ ·) h3).mp hq)
    · rcases h5 q hq with hq | hq
      · exact gone s.fab.packets q hq
      · rintro ⟨-, h | h⟩ <;> rw [hq] at h <;> cases h
  · unfold notify_
    dsimp only
    rw [h2]

theorem unreachable_none {s : State} (h : ∀ q ∈ s.fab.unacked, overdue s q = false) :
    exec .unreachableTimeout s = .next s := by
  change execUnreachableTimeout s = _
  unfold execUnreachableTimeout
  have : s.fab.unacked.find? (overdue s) = none := List.find?_eq_none.2 fun q hq => by simp [h q hq]
  rw [this]
  rfl

theorem unreachable_some {s : State} {p : FabPacket} (h : s.fab.unacked.find? (overdue s) = some p) :
    exec .unreachableTimeout s = .next (loseDevice s p.dst) := by
  change execUnreachableTimeout s = _
  unfold execUnreachableTimeout
  rw [h]
  rfl

theorem overdue_asks {s : State} {p : FabPacket} (h : overdue s p = true) :
    (p.cls = .request ∨ p.cls = .forward) ∧ p.firstAt + 10000 ≤ s.pwr.usec := by
  simp only [overdue, asksFor, Bool.and_eq_true, Bool.or_eq_true, beq_iff_eq, decide_eq_true_eq] at h
  exact h.1

/-- What PacketEvents says. -/
theorem packetEvents : Claims.PacketEvents := by
  refine ⟨fun s p id hp => ⟨retransmission_sends hp, retransmission_early hp⟩, fun s p id hp hpl hd hload hr => ?_,
    fun s p id lane cls eseq hp hpl hd hl hr he => acknowledgement_arrives hp hpl hd hl hr he,
    fun s p id n hp hpl hd hl => ⟨fun hk hc => ?_, fun hk hc => ?_, fun c hk hc hr he => face_arrives hp hpl hd hl hk hc hr he⟩,
    fun s p id x hp hpl hsrc hd hx => ⟨fun hn => ?_, fun hn => packet_leaves hp hpl hsrc hd hx hn⟩,
    fun s dst lane n h => planeFailover_holds h, fun s port cls resume x hx => classPause_holds cls resume hx,
    fun s h => unreachable_none h, fun s p h => ?_⟩
  · have hid : p.id = id := by simpa using List.find?_some hp
    have hdel := (deliverPacket_heard (s := s) hload).1
    subst hid
    refine ⟨_, packetArrival_here hp hpl hd, ?_⟩
    rw [if_pos hdel]
    exact arrives_heard hload hr
  · exact face_waits hp hpl hd (by simp [deliverable, hl, not_le.2 hk, hc])
  · exact face_waits hp hpl hd (by simp [deliverable, hl, hk, hc])
  · rw [packetArrival_leaves hp hpl hsrc hd, if_neg hn]
  · obtain ⟨h1, h2⟩ := overdue_asks (List.find?_some h)
    obtain ⟨h3, h4, h5, h6⟩ := loseDevice_holds s p.dst
    exact ⟨h1, h2, _, unreachable_some h, h3, h4, h5, h6⟩

end Sys2Proof.Proofs
end

section
/-! Combining in the leaf switch (R395, R166). -/

namespace Sys2Proof.Proofs
open Sys2Proof.Machine Sys2Proof.Safety

theorem combiningClose_eq {s : State} {g : Combine} (h : s.fab.groups.find? (fun x => x.id == g.id && !x.closed) = some g) :
    exec (.combiningWindowClose g.id) s = .next (closeGroup s g) := by
  change execCombiningWindowClose g.id s = _
  unfold execCombiningWindowClose
  rw [h]
  rfl

/-- A group that closes sends one request with the sum of its addends. -/
theorem closeGroup_sends {s : State} {g : Combine} {m : FabPacket} {ms : List FabPacket} {req c obj ea size : Nat} {kind : ReqKind}
    {ty : Ty} {data cmp : Nat} {rel : Bool} {cls : Nat} (hm : g.members = m :: ms)
    (hl : m.load = .access req c obj ea size kind ty data cmp rel cls) :
    ∃ p ∈ (closeGroup s g).fab.packets, p.dst = m.dst ∧ p.lane = m.lane ∧ p.cls = m.cls ∧
      p.load = .access g.id leafCore obj ea size kind ty ((g.members.map addend).sum % 2 ^ (8 * g.size)) cmp rel cls := by
  have hreq : combinedRequest g = some (.access g.id leafCore obj ea size kind ty (groupSum g) cmp rel cls) := by
    simp [combinedRequest, hm, hl]
  let load : Payload := .access g.id leafCore obj ea size kind ty (groupSum g) cmp rel cls
  refine ⟨{ m with id := s.kern.id, plane := beyondLeaf, load := load }, List.mem_append_right _ ?_, rfl, rfl, rfl, rfl⟩
  rw [hm, hreq]
  exact List.mem_singleton_self _

theorem closeGroup_closed (s : State) (g : Combine) : ∀ x ∈ (closeGroup s g).fab.groups, x.id = g.id → x.closed = true := by
  intro x hx hid
  obtain ⟨y, -, rfl⟩ := List.mem_map.1 hx
  split
  · rfl
  next h =>
    rw [if_neg h] at hid
    simp [hid] at h

theorem closeGroup_behind (s : State) (g : Combine) : ∀ q ∈ (closeGroup s g).fab.behind, q ∈ s.fab.behind ∧
    ∃ x ∈ (closeGroup s g).fab.groups, x.closed = false ∧ x.plane = q.2.plane ∧ x.output = q.1 ∧
      ∃ y ∈ x.members, oneStream q.2 y = true := by
  intro q hq
  obtain ⟨hq, hh⟩ := List.mem_filter.1 hq
  obtain ⟨x, hx, hx'⟩ := List.any_eq_true.1 hh
  simp only [Bool.and_eq_true, Bool.not_eq_true', beq_iff_eq, List.any_eq_true] at hx'
  obtain ⟨⟨⟨h1, h2⟩, h3⟩, h4⟩ := hx'
  exact ⟨hq, x, hx, h1, h2, h3, h4⟩

/-- A packet with an access. -/
def IsAccess (m : FabPacket) : Prop :=
  ∃ req c obj ea size kind ty data cmp rel cls, m.load = .access req c obj ea size kind ty data cmp rel cls

/-- The answers of a group go to its members of this device. -/
theorem length_groupReplies (dev w : Nat) {ms : List FabPacket} (h : ∀ m ∈ ms, IsAccess m) (old met units : Nat) :
    (groupReplies dev w old met units ms).length = (ms.filter fun m => m.src == dev).length := by
  induction ms generalizing old met units with
  | nil => rfl
  | cons m ms ih =>
    obtain ⟨req, c, obj, ea, size, kind, ty, data, cmp, rel, cls, hl⟩ := h m List.mem_cons_self
    have ih := ih (fun n hn => h n (List.mem_cons_of_mem _ hn)) ((old + addend m) % 2 ^ w) 0 0
    simp only [groupReplies, hl, List.filter_cons]
    split <;> simp [ih]

theorem length_groupRefusals (dev : Nat) {ms : List FabPacket} (h : ∀ m ∈ ms, IsAccess m) (x : Payload) :
    (groupRefusals dev x ms).length = (ms.filter fun m => m.src == dev).length := by
  induction ms generalizing x with
  | nil => rfl
  | cons m ms ih =>
    obtain ⟨req, c, obj, ea, size, kind, ty, data, cmp, rel, cls, hl⟩ := h m List.mem_cons_self
    have ih := ih (fun n hn => h n (List.mem_cons_of_mem _ hn)) (uncharged x)
    simp only [groupRefusals, hl, List.filter_cons]
    split <;> simp [ih]

/-- Each member receives the value that the members before it have left; the first carries what the access met. -/
theorem mem_groupReplies {dev w old met units i : Nat} {ms : List FabPacket} {m : FabPacket} {req c obj ea size : Nat}
    {kind : ReqKind} {ty : Ty} {data cmp : Nat} {rel : Bool} {cls : Nat} (hi : ms[i]? = some m) (hs : m.src = dev)
    (hl : m.load = .access req c obj ea size kind ty data cmp rel cls) (ho : old < 2 ^ w) :
    { m with src := m.dst, dst := m.src, cls := .reply,
             load := .reply req c ((old + ((ms.take i).map addend).sum) % 2 ^ w) (if i = 0 then met else 0)
               (if i = 0 then units else 0) } ∈ groupReplies dev w old met units ms := by
  induction ms generalizing old met units i with
  | nil => simp at hi
  | cons n ms ih =>
    cases i with
    | zero =>
      obtain rfl : n = m := by simpa using hi
      simp [groupReplies, hl, hs, Nat.mod_eq_of_lt ho]
    | succ i =>
      have ih := ih (met := 0) (units := 0) (by simpa using hi)
        (Nat.mod_lt (old + addend n) (Nat.two_pow_pos w))
      rw [Nat.mod_add_mod, Nat.add_assoc, ← List.sum_cons, ← List.map_cons, ← List.take_succ_cons] at ih
      simp only [ite_self] at ih
      simp only [groupReplies, Nat.succ_ne_zero, if_false]
      split
      · split
        · exact List.mem_cons_of_mem _ ih
        · exact ih
      · exact ih

theorem uncharged_uncharged (x : Payload) : uncharged (uncharged x) = uncharged x := by
  cases x <;> rfl

/-- Each member receives the refusal, and the first its charge. -/
theorem mem_groupRefusals {dev i : Nat} {x : Payload} {ms : List FabPacket} {m : FabPacket} {req c obj ea size : Nat}
    {kind : ReqKind} {ty : Ty} {data cmp : Nat} {rel : Bool} {cls : Nat} (hi : ms[i]? = some m) (hs : m.src = dev)
    (hl : m.load = .access req c obj ea size kind ty data cmp rel cls) :
    { m with src := m.dst, dst := m.src, cls := .reply, load := badFor req c (if i = 0 then x else uncharged x) } ∈
      groupRefusals dev x ms := by
  induction ms generalizing x i with
  | nil => simp at hi
  | cons n ms ih =>
    cases i with
    | zero =>
      obtain rfl : n = m := by simpa using hi
      simp [groupRefusals, hl, hs]
    | succ i =>
      have ih := ih (x := uncharged x) (by simpa using hi)
      rw [uncharged_uncharged, ite_self] at ih
      simp only [groupRefusals, Nat.succ_ne_zero, if_false]
      split
      · split
        · exact List.mem_cons_of_mem _ ih
        · exact ih
      · exact ih

theorem combinedReply_eq {s : State} {g : Combine} (h : s.fab.groups.find? (fun x => x.id == g.id && x.closed) = some g) :
    exec (.combinedReply g.id) s = .next (match groupAnswers s.fab.dev g with
      | none => s
      | some rs => { s with fab :=
        { s.fab with groups := s.fab.groups.filter fun x => x.id != g.id, arrived := s.fab.arrived ++ rs,
                     unacked := s.fab.unacked.filter fun p => !g.members.any fun m => m.id == p.id } }) := by
  change execCombinedReply g.id s = _
  unfold execCombinedReply
  rw [h]
  dsimp only
  cases groupAnswers s.fab.dev g <;> rfl

/-- A group that has been answered ends: its members have their answers, and have been acknowledged. -/
theorem combinedReply_ends {s : State} {g : Combine} {rs : List FabPacket}
    (h : s.fab.groups.find? (fun x => x.id == g.id && x.closed) = some g) (hr : groupAnswers s.fab.dev g = some rs) :
    ∃ s', exec (.combinedReply g.id) s = .next s' ∧ OnlyFabric s s' ∧ (∀ x ∈ s'.fab.groups, x.id ≠ g.id) ∧
      s'.fab.arrived = s.fab.arrived ++ rs ∧ ∀ q, q ∈ s'.fab.unacked ↔ q ∈ s.fab.unacked ∧ ∀ m ∈ g.members, q.id ≠ m.id := by
  refine ⟨_, combinedReply_eq h, ?_⟩
  rw [hr]
  refine ⟨rfl, fun x hx => by simpa using (List.mem_filter.1 hx).2, rfl, fun q => ?_⟩
  rw [List.mem_filter]
  refine and_congr Iff.rfl ?_
  rw [Bool.not_eq_true', List.any_eq_false]
  simp only [beq_iff_eq, ne_eq]
  exact forall₂_congr fun m _ => not_congr eq_comm

theorem combining : Claims.Combining := by
  refine ⟨fun s g m ms req c obj ea size kind ty data cmp rel cls h hm hl => ⟨closeGroup s g, combiningClose_eq h,
    closeGroup_closed s g, closeGroup_sends hm hl, closeGroup_behind s g, fun a => seeByte_of_mem rfl a⟩, ?_⟩
  intro s g h hacc ours ends
  refine ⟨fun ho hb => ?_, fun v ho hv => ?_, fun x ho hb => ?_⟩
  · rw [combinedReply_eq h, groupAnswers, ho, hb]
  · refine ⟨groupReplies s.fab.dev (8 * g.size) v g.met g.charge g.members,
      combinedReply_ends h (by simp [groupAnswers, ho]), length_groupReplies _ _ hacc v _ _,
      fun i m req c obj ea size kind ty data cmp rel cls hi hs hl => mem_groupReplies hi hs hl hv⟩
  · exact ⟨groupRefusals s.fab.dev x g.members, combinedReply_ends h (by simp [groupAnswers, ho, hb]),
      length_groupRefusals _ hacc x, fun i m req c obj ea size kind ty data cmp rel cls hi hs hl => mem_groupRefusals hi hs hl⟩

/-- Settles O45: packets by their streams, the flits of a row by induction on their codes, and combining by induction on the
members of a group. -/
theorem fabricEvents : Obligations.FabricEvents := ⟨packetEvents, combining⟩

end Sys2Proof.Proofs
end

section
/-! Where COPY, COPYQ, the timelines and MX complete (R174, R177, R188, R196 to R198, R208). -/

namespace Sys2Proof.Proofs
open Sys2Proof.Machine Sys2Proof.Safety

/-! ## COPY -/

/-- A copy whose ranges pass, and whose predicate word need not be read, is in flight. -/
theorem acceptCopy_flies {k : Kern} {c : Nat} {t : Thread} {x : MForm} {base : Nat} {ds : List W32} {pc : W64} {w : Wanted}
    (hw : w.fail = none) (hm : (descOf (ds.getD 0 0) (ds.getD 1 0) (ds.getD 2 0) (ds.getD 3 0)).mode ≠ 3) :
    (∃ j, (coreOf (acceptCopy k c t x base ds pc w) c).copies = (coreOf k c).copies ++ [j] ∧
      j.srcR = w.srcR ∧ j.dstR = w.dstR ∧ j.fail = none) ∧
    (acceptCopy k c t x base ds pc w).mem = k.mem ∧
    getThread (acceptCopy k c t x base ds pc w) c t.tslot t.lane =
      getThread (holdResult k c t (regsNamed x.d 1) [] 0 x.la).2 c t.tslot t.lane := by
  have hpred : ∀ k' : Kern, readPredicate k' c t (descOf (ds.getD 0 0) (ds.getD 1 0) (ds.getD 2 0) (ds.getD 3 0)) = (k', some 0) := by
    intro k'
    unfold readPredicate
    split
    · rw [if_neg (by simpa using hm)]
    · rfl
  have hcopies : (coreOf (holdResult k c t (regsNamed x.d 1) [] 0 x.la).2 c).copies = (coreOf k c).copies := by
    rw [(within_holdResult (keys := fun _ _ => true) k t (regsNamed x.d 1) [] 0 x.la rfl).core]
  unfold acceptCopy
  simp only [hw, hpred]
  refine ⟨?_, by simp, ?_⟩
  · apply Exists.intro
    constructor
    · simp only [drainWhere, coreOf_modCore_same, coreOf_withId, hcopies]
      rfl
    · exact ⟨rfl, rfl, rfl⟩
  · simp only [drainWhere, getThread, coreOf_modCore_same, coreOf_withId]

theorem copyBody_accepts {s : State} {x : MForm} {k : Kern} {t : Thread} {blk : Block} {w : Wanted}
    (hb : blockOf k s.cur.core t.block = some blk)
    (hc : checkCopy k s.cur.core t blk x.sp (copyBase s.kern s.cur.core t x)
      (descOf (readAt s.kern s.cur.core t x.idx 0) (readAt s.kern s.cur.core t x.idx 1) (readAt s.kern s.cur.core t x.idx 2)
        (readAt s.kern s.cur.core t x.idx 3)) = .ok w)
    (hslot : (coreOf k s.cur.core).copies.length < 64)
    (hroom : entriesUsed (coreOf k s.cur.core) + (w.srcR.length + w.dstR.length) ≤ 32)
    (hwait : copyWaits (coreOf k s.cur.core) s.cur.entry = false) :
    copyBody s x k t = (acceptCopy k s.cur.core t x (copyBase s.kern s.cur.core t x)
      [readAt s.kern s.cur.core t x.idx 0, readAt s.kern s.cur.core t x.idx 1, readAt s.kern s.cur.core t x.idx 2,
        readAt s.kern s.cur.core t x.idx 3] (BitVec.ofNat 64 (curPc s)) w, .next) := by
  simp [copyBody, hb, hc, copyRoom, hslot, hroom, hwait]

theorem copy_completes {s : State} {x : MForm} {t : Thread} {k : Kern} {w : Wanted} {ds : List W32}
    (ha : ExecutesAlone s (.copy x) t = true) (hk : k = beforeBody s (.copy x) t) {base : Nat} {pc : W64}
    (hbody : copyBody s x k t = (acceptCopy k s.cur.core t x base ds pc w, .next)) (hw : w.fail = none)
    (hm : (descOf (ds.getD 0 0) (ds.getD 1 0) (ds.getD 2 0) (ds.getD 3 0)).mode ≠ 3) :
    ∃ s' j, exec (.copy x) s = .next s' ∧ StandsAt s'.kern s.cur.core t (curNext s) ∧
      (coreOf s'.kern s.cur.core).copies = (coreOf k s.cur.core).copies ++ [j] ∧
      j.srcR = w.srcR ∧ j.dstR = w.dstR ∧ j.fail = none ∧ ∀ a, seeByte s'.kern a = seeByte s.kern a := by
  subst hk
  obtain ⟨⟨j, hj, h1, h2, h3⟩, hmem, hthread⟩ := acceptCopy_flies (k := beforeBody s (.copy x) t) (c := s.cur.core) (t := t) (x := x)
    (base := base) (pc := pc) hw hm
  have hgoes := issueEach_goesOn ha (fun k t _ => copyBody s x k t) hbody rfl
    ⟨_, hthread.trans ((getThread_holdResult_same ..).trans (congrArg _ (getThread_beforeBody ha))), rfl, rfl⟩
  refine ⟨_, j, rfl, hgoes.stands, ?_, h1, h2, h3, bytes_of_goesOn hgoes hmem⟩
  rw [← hj, hgoes.within.core]

/-! ## COPYQ -/

theorem readTrap_of_readRuns {k k' : Kern} {ctx cls : Nat} {rs : List (Nat × Nat)} {bs : List Byte}
    (h : readRuns k ctx cls rs = (k', .ok bs)) : readTrap k ctx cls rs = (k', .ok bs) := by
  unfold readTrap
  split
  next e es he =>
    split
    · exact h
    next hc => simp [readRuns, he, hc] at h
  · exact h

theorem coreOf_registerQueue (k : Kern) (ctx cap c : Nat) : coreOf (registerQueue k ctx cap) c = coreOf k c := by
  unfold registerQueue
  split <;> rfl

theorem takeTokens_copyqs (k : Kern) (c ctx n : Nat) : (coreOf (takeTokens k c ctx n) c).copyqs = (coreOf k c).copyqs := by
  unfold takeTokens
  split
  · rfl
  · rw [coreOf_modCore_same]

theorem coreOf_of_cores {k k' : Kern} (h : k'.cores = k.cores) (c : Nat) : coreOf k' c = coreOf k c := by
  simp only [coreOf, h]

/-- The kernel state in which a claimed slot waits for its engine. -/
def claimedSlot (k : Kern) (c ctx : Nat) (q : Spot) (at_ : Nat) (hb ib : List Byte) : Kern :=
  queueSlot (dropLine (registerQueue (putBytes (takeTokens k c ctx 8) at_ (bytesOfNat 8 (fieldOf hb 8 8 + 1))) ctx
    (capForm q.cap q.ea)) c ctx (capObj q.cap) (q.ea / 64)) c ctx (capForm q.cap q.ea) (fieldOf hb 8 8) (fieldOf hb 16 4) ib

theorem claimedSlot_claims (k : Kern) (c ctx : Nat) (q : Spot) (at_ : Nat) (hb ib : List Byte) :
    (∃ j, (coreOf (claimedSlot k c ctx q at_ hb ib) c).copyqs = (coreOf k c).copyqs ++ [j] ∧
      j.w = BitVec.ofNat 64 (fieldOf hb 8 8) ∧ j.image = ib) ∧
    ∀ a b, getThread (claimedSlot k c ctx q at_ hb ib) c a b = getThread k c a b := by
  have hput := fun k' : Kern => coreOf_of_cores (putBytes_cores k' at_ (bytesOfNat 8 (fieldOf hb 8 8 + 1))) c
  refine ⟨?_, fun a b => ?_⟩
  · apply Exists.intro
    constructor
    · simp only [claimedSlot, queueSlot, dropLine, coreOf_modCore_same, coreOf_withId, coreOf_registerQueue, hput, takeTokens_copyqs]
      rfl
    · exact ⟨rfl, rfl⟩
  · simp only [claimedSlot, queueSlot, dropLine, getThread, coreOf_modCore_same, coreOf_withId, coreOf_registerQueue, hput]
    exact getThread_takeTokens k c ctx 8 a b

theorem copyqBody_claims {s : State} {x : MForm} {k : Kern} {t : Thread} {dst : List Reg} {blk : Block} {im q : Spot}
    {hr ir : List (Nat × Nat)} {hb ib : List Byte} (hblk : blockOf k s.cur.core t.block = some blk) (him : imageSpot s k t x = .ok im)
    (hq : spotOf s.kern s.cur.core t x false 64 64 (needWrite + needAtomic) = .ok q)
    (hloc : remoteSpot k (ctxOf k s.cur.core t) q = false) (hhr : spotRuns k s.cur.core blk q 64 = .ok hr)
    (hir : spotRuns k s.cur.core blk im 64 = .ok ir)
    (hhead : readRuns k (ctxOf k s.cur.core t) (classOf k s.cur.core t) hr = (k, .ok hb)) (hgood : badHeader hb = false)
    (himage : readRuns k (ctxOf k s.cur.core t) (classOf k s.cur.core t) ir = (k, .ok ib)) :
    copyqBody s x k t dst = (writeRegs (claimedSlot k s.cur.core (ctxOf k s.cur.core t) q (addrAt hr 8) hb ib) s.cur.core t dst
      (place .n64 (fieldOf hb 8 8)), .next) := by
  simp [copyqBody, him, hq, hblk, hhr, hir, hloc, readTrap_of_readRuns hhead, readTrap_of_readRuns himage, hgood, claimedSlot]

theorem inGroup_writeRegs {k : Kern} {c : Nat} {t u : Thread} (h : getThread k c t.tslot t.lane = some u) (hb : u.block = t.block)
    (hg : u.group = t.group) (rs : List Reg) (xs : List W32) : InGroup (writeRegs k c t rs xs) c t :=
  ⟨_, (getThread_writeRegs_same ..).trans (congrArg _ h), hb, hg⟩

theorem copyq_completes {s : State} {x : MForm} {t : Thread} {q : Spot} {at_ : Nat} {hb ib : List Byte} {vals : List W32}
    (ha : ExecutesAlone s (.copyq x) t = true)
    (hbody : copyqBody s x (beforeBody s (.copyq x) t) t (destination s (.copyq x) t) =
      (writeRegs (claimedSlot (beforeBody s (.copyq x) t) s.cur.core (ctxOf (beforeBody s (.copyq x) t) s.cur.core t) q at_ hb ib)
        s.cur.core t (destination s (.copyq x) t) vals, .next)) :
    ∃ s' j, exec (.copyq x) s = .next s' ∧ StandsAt s'.kern s.cur.core t (curNext s) ∧
      (coreOf s'.kern s.cur.core).copyqs = (coreOf (beforeBody s (.copyq x) t) s.cur.core).copyqs ++ [j] ∧
      j.w = BitVec.ofNat 64 (fieldOf hb 8 8) ∧ j.image = ib := by
  obtain ⟨⟨j, hj, hw, hi⟩, hthread⟩ := claimedSlot_claims (beforeBody s (.copyq x) t) s.cur.core
    (ctxOf (beforeBody s (.copyq x) t) s.cur.core t) q at_ hb ib
  have hgoes := issueEach_goesOn ha (copyqBody s x) hbody rfl
    (inGroup_writeRegs ((hthread ..).trans (getThread_beforeBody ha)) rfl rfl _ _)
  refine ⟨_, j, rfl, hgoes.stands, ?_, hw, hi⟩
  rw [← hj, hgoes.within.core, (within_writeRegs (keys := fun _ _ => true) _ t _ _ rfl).core]

/-! ## Timelines -/

theorem boundTimeline_beforeBody (s : State) (i : Instr) (t : Thread) (n : Nat) :
    boundTimeline (beforeBody s i t) s.cur.core t n = boundTimeline s.kern s.cur.core t n := by
  simp only [boundTimeline, beforeBody, threadLaunch_butCaches (caches_before s.kern s.cur.core i [t])]

theorem tlrdBody_stands {s : State} {i : Instr} {x : SForm} {t : Thread} {l : Launch} (ha : ExecutesAlone s i t = true)
    (hl : boundTimeline s.kern s.cur.core t (tlNumber x.a) = some l) (g : Kern → Nat → Nat → Launch → Nat → Nat)
    {f : Kern → Thread → List Reg → Kern × Course}
    (hf : f (beforeBody s i t) t (destination s i t) = tlrdBody s x g (beforeBody s i t) t (destination s i t)) :
    StandsAt (issueEach s i f).kern s.cur.core t (curNext s) := by
  have hbody : tlrdBody s x g (beforeBody s i t) t (destination s i t) = (writeRegs (beforeBody s i t) s.cur.core t (destination s i t)
      (place .n64 (g (beforeBody s i t) s.cur.core (ctxOf (beforeBody s i t) s.cur.core t) l (tlNumber x.a))), .next) := by
    simp only [tlrdBody, boundTimeline_beforeBody, hl]
  exact (issueEach_goesOn ha f (hf.trans hbody) rfl (inGroup_writeRegs (getThread_beforeBody ha) rfl rfl _ _)).stands

theorem getThread_askIssued {s : State} {k : Kern} {t : Thread} {dst : List Reg} {cap : Nat}
    (h : getThread k s.cur.core t.tslot t.lane = some t) : InGroup (askIssued s k t dst cap) s.cur.core t := by
  refine ⟨{ t with held := t.held ++ [newHeld k s.cur.core t dst [] 0 0] }, ?_, rfl, rfl⟩
  simp only [askIssued, getThread_sendReq, getThread_holdResult_same, h, Option.map_some]

theorem tlrdIssued_stands {s : State} {x : SForm} {t : Thread} {l : Launch} (ha : ExecutesAlone s (.tlrdIssued x) t = true)
    (hl : boundTimeline s.kern s.cur.core t (tlNumber x.a) = some l)
    (h : recTlKind l (tlNumber x.a) ≠ 2 ∨ remoteObj s.kern (ctxOf s.kern s.cur.core t) (recTlCap l (tlNumber x.a)) = true ∨
      (∃ rs, objRuns s.kern (ctxOf s.kern s.cur.core t) (capObj (recTlCap l (tlNumber x.a)))
        (capOff (recTlCap l (tlNumber x.a)) + 8) 8 = .ok rs)) :
    StandsAt (issueEach s (.tlrdIssued x) (tlrdIssuedBody s x)).kern s.cur.core t (curNext s) := by
  have hk : ButCaches s.cur.core s.kern (beforeBody s (.tlrdIssued x) t) := caches_before s.kern s.cur.core _ [t]
  have hl' := (boundTimeline_beforeBody s (.tlrdIssued x) t (tlNumber x.a)).trans hl
  have hremote : ∀ cap, remoteObj (beforeBody s (.tlrdIssued x) t) (ctxOf s.kern s.cur.core t) cap =
      remoteObj s.kern (ctxOf s.kern s.cur.core t) cap := fun cap => by simp only [remoteObj, getObj_butCaches hk]
  by_cases hkind : recTlKind l (tlNumber x.a) = 2
  · by_cases hrem : remoteObj s.kern (ctxOf s.kern s.cur.core t) (recTlCap l (tlNumber x.a)) = true
    · refine (issueEach_goesOn ha (tlrdIssuedBody s x) (k := askIssued s (beforeBody s (.tlrdIssued x) t) t
        (destination s (.tlrdIssued x) t) (recTlCap l (tlNumber x.a))) (x := .next) ?_ rfl
        (getThread_askIssued (getThread_beforeBody ha))).stands
      simp [tlrdIssuedBody, hl', hkind, ctxOf_butCaches hk, hremote, hrem]
    · obtain ⟨rs, hrs⟩ := (h.resolve_left (not_not.2 hkind)).resolve_left hrem
      refine tlrdBody_stands ha hl timelineIssued ?_
      simp [tlrdIssuedBody, hl', hkind, ctxOf_butCaches hk, hremote, hrem, objRuns_butCaches hk, hrs]
  · refine tlrdBody_stands ha hl timelineIssued ?_
    simp [tlrdIssuedBody, hl', hkind]

theorem tlwait_completes {s : State} {x : SForm} {t : Thread} {l : Launch} (ha : ExecutesAlone s (.tlwait x) t = true)
    (hl : boundTimeline s.kern s.cur.core t (tlNumber x.d) = some l)
    (hn : readPair s.kern s.cur.core t x.a ≤ timelineValue (beforeBody s (.tlwait x) t) s.cur.core
      (ctxOf (beforeBody s (.tlwait x) t) s.cur.core t) l (tlNumber x.d)) :
    ∃ s', exec (.tlwait x) s = .next s' ∧ StandsAt s'.kern s.cur.core t (curNext s) ∧ (coreOf s'.kern s.cur.core).lcache = [] ∧
      ∀ a, seeByte s'.kern a = seeByte s.kern a := by
  have hbody : tlwaitBody s x (beforeBody s (.tlwait x) t) t = (dropLines (beforeBody s (.tlwait x) t) s.cur.core, .next) := by
    simp [tlwaitBody, boundTimeline_beforeBody, hl, hn]
  have hgoes := issueEach_goesOn_of_thread ha (f := fun k t _ => tlwaitBody s x k t) hbody
    (getThread_modCore_of_threads (f := fun core => { core with lcache := [] }) (fun _ => rfl) _ _)
  refine ⟨_, rfl, hgoes.stands, ?_, bytes_of_goesOn hgoes (dropLines_mem ..)⟩
  rw [hgoes.within.core, dropLines, coreOf_modCore_same]

/-! ## MX -/

theorem launchMx_launches {k : Kern} {c : Nat} {t : Thread} {blk : Block} (hb : blockOf k c t.block = some blk) (x : XForm) (set : Bool)
    (pc : W64) : (∃ m, (coreOf (launchMx k c t x set pc) c).mxq = (coreOf k c).mxq ++ [m] ∧ m.block = t.block ∧ m.x = x ∧ m.set = set) ∧
      ∀ a b, getThread (launchMx k c t x set pc) c a b = getThread k c a b := by
  unfold launchMx
  rw [hb]
  refine ⟨?_, fun a b => ?_⟩
  · apply Exists.intro
    constructor
    · simp only [modJig, modBlock, coreOf_modCore_same, coreOf_withId]
      rfl
    · exact ⟨rfl, rfl, rfl⟩
  · simp only [modJig, modBlock, getThread, coreOf_modCore_same, coreOf_withId]

theorem mxq_within {c : Nat} {keys : Nat → Nat → Bool} {k k' : Kern} (h : Within c keys k k') :
    (coreOf k' c).mxq = (coreOf k c).mxq := by
  rw [h.core]

theorem mx_completes {s : State} {i : Instr} {x : XForm} {set : Bool} {t : Thread} {blk : Block} {l : Launch}
    (hi : exec i s = answer (issue s i (runMx s set x))) (hpge : x.pge = false) (ha : ExecutesAlone s i t = true)
    (hb : blockOf (beforeBody s i t) s.cur.core t.block = some blk)
    (hl : threadLaunch (beforeBody s i t) s.cur.core t = some l) (hok : mxTrap blk l x = none) :
    ∃ s' m, exec i s = .next s' ∧ (coreOf s'.kern s.cur.core).mxq = (coreOf s.kern s.cur.core).mxq ++ [m] ∧ m.block = t.block ∧
      m.x = x ∧ m.set = set ∧ ∀ a, seeByte s'.kern a = seeByte s.kern a := by
  obtain ⟨⟨m, hm, h1, h2, h3⟩, hthread⟩ := launchMx_launches hb x set (BitVec.ofNat 64 (curPc s))
  have hrun : runMx s set x (beforeBody s i t) [(t, destination s i t)] =
      (modThis (launchMx (beforeBody s i t) s.cur.core t x set (BitVec.ofNat 64 (curPc s))) s.cur.core t
        fun u => { u with wait := .mxHeld (beforeBody s i t).id }, [.stay]) := by
    simp only [runMx, hpge, Bool.false_eq_true, if_false, hb, hl, hok, List.foldl_cons, List.foldl_nil, List.map_cons, List.map_nil]
  have hk : ButCaches s.cur.core s.kern (beforeBody s i t) := caches_before s.kern s.cur.core i [t]
  have hwaits := finishIssue_waits s (modThis (launchMx (beforeBody s i t) s.cur.core t x set (BitVec.ofNat 64 (curPc s))) s.cur.core t
    fun u => { u with wait := .mxHeld (beforeBody s i t).id }) t
    ⟨_, (getThread_modThis_same _ _ _ _ (keepsKey_wait _)).trans (congrArg _ ((hthread ..).trans (getThread_beforeBody ha))), rfl, rfl⟩
  refine ⟨_, m, hi.trans (congrArg _ (issue_alone_eq ha _ hrun)), ?_, h1, h2, h3, fun a => (hwaits.bytes a).trans ?_⟩
  · have hbefore : (coreOf (beforeBody s i t) s.cur.core).mxq = (coreOf s.kern s.cur.core).mxq := by rw [hk.core]
    rw [← hbefore, ← hm]
    exact (mxq_within hwaits.within).trans (mxq_within (within_modThis (keys := fun _ _ => true) _ t _ (keepsKey_wait _) rfl))
  · exact seeByte_of_mem (by simp [beforeBody_mem]) a

theorem wordsComplete : Claims.WordsComplete := by
  refine ⟨fun x s t blk w ha => ?copy, fun x s t blk im q hr ir hb ib ha => ?copyq, fun x s t l i hx hl => ⟨fun ha => ?tlrd, fun ha h => ?issued⟩,
    fun x s t l i hx hl ha => ?tlwait, fun x s t blk l hpge => ⟨fun ha hb hl hok => ?mx, fun ha hb hl hok => ?mxset⟩⟩
  case copy =>
    intro c k d desc hb hc hw hm hslot hroom hwait
    exact copy_completes ha rfl (copyBody_accepts hb hc hslot hroom hwait) hw hm
  case copyq =>
    intro c k ctx hblk him hq hloc hhr hir hhead hgood himage
    exact copyq_completes ha (copyqBody_claims hblk him hq hloc hhr hir hhead hgood himage)
  case tlrd =>
    exact ⟨_, rfl, tlrdBody_stands ha (by simpa [tlNumber, hx] using hl) timelineValue rfl⟩
  case issued =>
    exact ⟨_, rfl, tlrdIssued_stands ha (by simpa [tlNumber, hx] using hl) (by simpa [tlNumber, hx] using h)⟩
  case tlwait =>
    intro k hn
    exact tlwait_completes ha (by simpa [tlNumber, hx] using hl) (by simpa [tlNumber, hx] using hn)
  case mx => exact mx_completes rfl hpge ha hb hl hok
  case mxset => exact mx_completes rfl hpge ha hb hl hok

end Sys2Proof.Proofs
end

section
/-! Where the commands on contexts, objects, frames and graphs complete (R362 to R370, R426, R432). -/

namespace Sys2Proof.Proofs
open Sys2Proof.Machine Sys2Proof.Safety

/-- A command of an issuer that may give it, on a device that is ready, is carried out. -/
theorem command_passes {s : State} {h : CmdHdr} {by_ : List Issuer} (i : Instr) (body : Host.Outcome State Fault Refusal)
    (hboot : s.fw.boot = .ready) (hbehind : behindOthers s h = false) (hby : h.issuer ∈ by_)
    (hsw : h.issuer = .firmware → s.fw.switching = false) : command s i h by_ body = body := by
  have hgate : gate s h by_ false = none := by
    unfold gate
    rw [hboot]
    by_cases hf : h.issuer = .firmware
    · simp [hf ▸ hby, hf, hsw hf]
    · simp [hby, hf]
  unfold command
  rw [hbehind, hgate]
  rfl

/-- A command ends with status 0. -/
def EndsWell (h : CmdHdr) (s s' : State) : Prop :=
  s'.fw.responses = s.fw.responses ++ [{ tag := h.tag, status := 0, detail := 0, value := 0 }]

/-- A command whose work leaves the firmware alone ends with status 0. -/
theorem done_ends {h : CmdHdr} {s t : State} (hfw : t.fw = s.fw) :
    done_ h t = .next (respond t h 0 0) ∧ (respond t h 0 0).kern = t.kern ∧ EndsWell h s (respond t h 0 0) := by
  refine ⟨rfl, rfl, ?_⟩
  unfold EndsWell respond
  rw [← hfw]
  rfl

theorem modBay_foldl {f : State → Nat → State} (hf : ∀ s b, (f s b).kern = s.kern ∧ (f s b).fw = s.fw) (bs : List Nat) (s : State) :
    (bs.foldl f s).kern = s.kern ∧ (bs.foldl f s).fw = s.fw := by
  induction bs generalizing s with
  | nil => exact ⟨rfl, rfl⟩
  | cons b bs ih => exact ⟨(ih _).1.trans (hf s b).1, (ih _).2.trans (hf s b).2⟩

theorem noteEmpty_kern_fw (s : State) (b : Nat) : (noteEmpty s b).kern = s.kern ∧ (noteEmpty s b).fw = s.fw := by
  unfold noteEmpty
  split <;> exact ⟨rfl, rfl⟩

/-- A context that is closed is free, and its closing says nothing to the host. -/
theorem closeContext_frees (s : State) (ctx : Nat) :
    (getCtx (closeContext s ctx).kern ctx).state = .free ∧ (closeContext s ctx).fw = s.fw := by
  unfold closeContext
  dsimp only
  obtain ⟨h1, h2⟩ := modBay_foldl noteEmpty_kern_fw ((List.range 32).filter fun b => !bayEmpty s.kern b) _
  obtain ⟨h3, h4⟩ := modBay_foldl (f := endLease) (fun _ _ => ⟨rfl, rfl⟩) (List.range 32) _
  rw [h1, h2, h3, h4]
  refine ⟨?_, rfl⟩
  simp only [getCtx, arbiterDue, mget_mset_same]
  rfl

/-- What a command sets of a context, it reads. -/
theorem getCtx_mset (k : Kern) (ctx : Nat) (x : Ctx) : getCtx { k with ctxs := mset k.ctxs ctx x } ctx = x := by
  simp [getCtx]

/-- A context that is not free is in the table. -/
theorem mget_of_state {k : Kern} {ctx : Nat} (h : (getCtx k ctx).state ≠ .free) : mget k.ctxs ctx = some (getCtx k ctx) := by
  unfold getCtx at h ⊢
  cases hm : mget k.ctxs ctx with
  | none => simp [hm, Ctx.reset] at h
  | some x => rfl

theorem getCtx_modCtx_of_state {k : Kern} {ctx : Nat} (h : (getCtx k ctx).state ≠ .free) (f : Ctx → Ctx) :
    getCtx (modCtx k ctx f) ctx = f (getCtx k ctx) := by
  have hm := mget_of_state h
  unfold modCtx getCtx
  simp [hm]

theorem putRuns_free (rs : List (Nat × Nat)) (k : Kern) (bs : List Byte) : (putRuns k rs bs).free = k.free := by
  induction rs generalizing k bs with
  | nil => rfl
  | cons r rs ih => exact (ih _ _).trans (putBytes_free ..)

theorem sendLines_free (ctx dev o n : Nat) (k : Kern) (off : Nat) (bs : List Byte) :
    (sendLines k ctx dev o off bs n).free = k.free := by
  induction n generalizing k off bs with
  | zero => rfl
  | succ n ih =>
    unfold sendLines
    split
    · rfl
    · exact (ih _ _ _).trans rfl

theorem writeObj_free (k : Kern) (ctx o off : Nat) (bs : List Byte) : (writeObj k ctx o off bs).free = k.free := by
  unfold writeObj
  split
  next rs _ =>
    refine Eq.trans ?_ (putRuns_free rs k bs)
    unfold sendWrite
    split
    · split
      · exact sendLines_free ..
      · rfl
    · rfl
  · rfl

theorem resumeParks_extents (k : Kern) (c : Nat) (ps : List Park) : (resumeParks k c ps).extents = k.extents := by
  have hfree : ∀ (ps : List Park) (k : Kern), (ps.foldl (fun k p => freeRecord k c p.id) k).extents = k.extents := by
    intro ps
    induction ps with
    | nil => exact fun _ => rfl
    | cons p ps ih => exact fun k => (ih _).trans rfl
  unfold resumeParks
  rw [(within_moveThreads (keys := fun _ _ => true) _ _ fun _ _ => rfl).shared]
  exact hfree ps k

theorem resumeExtent_extents (k : Kern) (hs : List (Nat × ObjEntry)) (obj ext : Nat) :
    (resumeExtent k hs obj ext).extents = k.extents := by
  unfold resumeExtent
  dsimp only
  generalize k.cores = cs
  induction cs generalizing k with
  | nil => rfl
  | cons p cs ih =>
    rw [List.foldl_cons]
    refine (ih _).trans ?_
    split
    · rfl
    · exact resumeParks_extents ..

theorem commandsComplete : Claims.CommandsComplete := by
  intro h s hboot hbehind hissuer ends
  have hsw : h.issuer = .firmware → s.fw.switching = false := fun hf => by
    rcases hissuer with hi | ⟨-, hi⟩
    · rw [hf] at hi; cases hi
    · exact hi
  have hHF : h.issuer ∈ byHF := by
    rcases hissuer with hi | ⟨hi, -⟩ <;> rw [hi] <;> decide
  have passes (i : Instr) (body) (by_) (hby : h.issuer ∈ by_) : command s i h by_ body = body :=
    command_passes i body hboot hbehind hby hsw
  have ended {i : Instr} {p : State → Prop} {t : State} (hex : exec i s = done_ h t) (hfw : t.fw = s.fw)
      (hp : p (respond t h 0 0)) : ends i p := ⟨_, hex.trans (done_ends hfw).1, hp, (done_ends hfw).2.2⟩
  have notFree {x : CtxState} (hx : x ≠ .free) : (x == .free) = false := by simpa using hx
  refine ⟨fun ctx objt hc hst => ?opens, fun ctx hc hst hp => ?closes, fun ctx v hc hst => ?set, fun ctx n hc hst => ?budget,
    fun ctx block dst b ea hc hst hb hbc hea => ?read, fun ctx park declined hp => ?park,
    fun graph ctx image b g hg hbusy hasks hb hgr hroom => ?load, fun graph g hg hrun htr => ?free, fun hf => ?firmware⟩
  case opens =>
    refine ended ((passes _ _ _ hHF).trans ?_) rfl ?_ (t := arbiterDue
      { s with kern := { s.kern with ctxs := mset s.kern.ctxs ctx { Ctx.reset with state := .opened, objt := objt } } })
    · simp [not_le.2 hc, hst]
    · simp only [respond, arbiterDue, getCtx_mset, and_self]
  case closes =>
    refine ended ((passes _ _ _ hHF).trans ?_) (closeContext_frees s ctx).2 (closeContext_frees s ctx).1 (t := closeContext s ctx)
    rcases hst with hst | hst <;> simp [not_le.2 hc, hst, hp]
  case set =>
    have sets (field : Nat) (x : Ctx) (hx : setField (getCtx s.kern ctx) field v = some x) (p : State → Prop)
        (hp : ∀ s', getCtx s'.kern ctx = x → p s') : ends (.ctxset h ctx field v) p := by
      refine ended ((passes _ _ _ hHF).trans ?_) rfl (hp _ ?_)
        (t := { s with kern := { s.kern with ctxs := mset s.kern.ctxs ctx x } })
      · simp [not_le.2 hc, hst, hx]
      · exact getCtx_mset s.kern ctx x
    refine ⟨fun h1 h2 => sets 0 { getCtx s.kern ctx with share := v.toNat } ?_ _ fun s' e => congrArg Ctx.share e,
      fun h1 h2 => sets 1 { getCtx s.kern ctx with wcage := v.toNat } ?_ _ fun s' e => congrArg Ctx.wcage e,
      sets 2 { getCtx s.kern ctx with save := v } rfl _ fun s' e => congrArg Ctx.save e,
      sets 3 { getCtx s.kern ctx with log := v } rfl _ fun s' e => congrArg Ctx.log e⟩
    · simp only [setField, h1, h2, decide_true, Bool.and_self, if_true]
    · simp only [setField, h1, h2, decide_true, Bool.and_self, if_true]
  case budget =>
    refine ended ((passes _ _ _ hHF).trans ?_) rfl ?_ (t := { s with kern := modCtx s.kern ctx (addBudget n.toNat) })
    · simp [not_le.2 hc, hst]
    · exact congrArg Ctx.ebudget (getCtx_modCtx_of_state hst (addBudget n.toNat))
  case read =>
    let k := writeObj { s.kern with free := s.kern.free + 1 } ctx (capObj dst.toNat) ea
      (blockState s.kern (block / 16) (block % 16) b)
    refine ended ((passes _ _ _ hHF).trans ?_) rfl ?_ (t := { s with kern := k })
    · have hmine : (some b).filter (fun b => b.ctx == ctx) = some b := by simp [hbc]
      simp only [not_le.2 hc, hst, hb, hmine, hea, bne_self_eq_false, Bool.false_eq_true, if_false]
      rfl
    · exact writeObj_free ..
  case park =>
    cases hcore : s.kern.cores.findSome? fun p => (p.2.parks.find? fun q => q.id == park && q.ctx == ctx).map fun q => (p.1, q) with
    | some cq =>
      let mine := (coreOf s.kern cq.1).parks.filter (servedTogether cq.2)
      let k := if declined then declineParks s.kern cq.1 mine else resumeParks s.kern cq.1 mine
      refine ended ((passes _ _ _ hHF).trans ?_) rfl trivial (t := { s with kern := k })
      simp only [hcore]
      rfl
    | none =>
      cases hunit : s.kern.units.find? fun w => w.id == park && w.ctx == ctx with
      | some w =>
        let k := if declined then declineUnit s.kern w else s.kern
        refine ended ((passes _ _ _ hHF).trans ?_) rfl trivial
          (t := { s with kern := { k with units := k.units.filter fun x => x.id != w.id } })
        simp only [hcore, hunit]
        rfl
      | none =>
        exfalso
        rcases hp with ⟨p, hp, q, hq, h1, h2⟩ | ⟨w, hw, h1, h2⟩
        · have := List.findSome?_eq_none_iff.1 hcore p hp
          rw [Option.map_eq_none_iff, List.find?_eq_none] at this
          exact this q hq (by simp [h1, h2])
        · exact List.find?_eq_none.1 hunit w hw (by simp [h1, h2])
  case load =>
    have hrun : g.running = false := by
      unfold graphOf at hgr
      dsimp only at hgr
      split at hgr
      · cases hgr; rfl
      · cases hgr
    let g' : Machine.Graph := { g with nodes := g.nodes.map fun n : Node =>
      { n with prepared := n.card && preparedCard (forUnit s (imageUnit graph)) g.ctx n } }
    let k : Kern := { endUnit s.kern (imageUnit graph) with graphs := mset s.kern.graphs graph g' }
    refine ended ((passes _ _ _ hHF).trans ?_) rfl ?_ (t := { s with kern := k })
    · simp only [not_le.2 hg, hbusy, hasks, hb, Option.bind_some, hgr, not_lt.2 hroom, if_false, Bool.false_eq_true]
      rfl
    · simp [respond, g', k, hrun]
  case free =>
    refine ended ((passes _ _ _ hHF).trans ?_) rfl ?_ (t := { s with kern := { s.kern with graphs := mdel s.kern.graphs graph } })
    · simp [hg, hrun]
    · exact mget_mdel_same ..
  case firmware =>
    have hF : h.issuer ∈ byF := by rw [hf]; decide
    refine ⟨fun ctx entry hc hst hne hbusy => ?objset, fun obj ext desc p ps hh hext hret => ?extset,
      fun frame cls hfr hnamed hret => ?frameclass, fun frame hfr hnamed => ?retire⟩
    case objset =>
      refine ended ((passes _ _ _ hF).trans ?_) rfl ?_
        (t := { s with kern := modCtx s.kern ctx (setEntry (entryOf entry).1 (entryOf entry).2) })
      · have h1 : (entryOf entry).1 = entry.toNat % 2 ^ 24 := rfl
        simp only [h1, hbusy, notFree hst, Bool.or_eq_true, decide_eq_true_eq, not_le.2 hc, beq_iff_eq, hne, false_or, if_false,
          Bool.false_eq_true]
      · intro hfree
        refine hst ?_
        rw [← hfree]
        exact (congrArg Ctx.state (getCtx_modCtx_of_state hst (setEntry (entryOf entry).1 (entryOf entry).2))).symm
    case extset =>
      let k : Kern := { s.kern with extents := mset s.kern.extents (p.2.ext + ext) desc }
      let k' := if (extentBase desc).isSome then resumeExtent (freshFrame k desc.toNat) (p :: ps) obj ext else k
      refine ended ((passes _ _ _ hF).trans ?_) rfl ?_ (t := { s with kern := k' })
      · rw [hh]
        simp only [extentCount, not_le.2 hext, hret, if_false, Bool.false_eq_true]
        unfold k'
        split <;> rfl
      · have hk : mget k.extents (p.2.ext + ext) = some desc := mget_mset_same ..
        change mget k'.extents (p.2.ext + ext) = some desc
        unfold k'
        split
        · rw [resumeExtent_extents]; exact hk
        · exact hk
    case frameclass =>
      let k : Kern := { wipe s.kern (hbmFrame frame) (2 ^ 21) with frames := mset s.kern.frames frame (.fresh cls s.kern.usec) }
      refine ended ((passes _ _ _ hF).trans ?_) rfl ?_ (t := { s with kern := k })
      · simp only [not_le.2 hfr, hnamed, hret, Bool.or_self, if_false, Bool.false_eq_true]
        rfl
      · simp [respond, frameClass, FrameInfo.fresh, k]
    case retire =>
      let x := { frameInfo s.kern (2 ^ 18 ≤ frame) (frame % 2 ^ 18) with retired := true }
      let k : Kern := { s.kern with frames := mset s.kern.frames (frameKey (2 ^ 18 ≤ frame) (frame % 2 ^ 18)) x }
      refine ended ((passes _ _ _ hF).trans ?_) rfl ?_ (t := { s with kern := k })
      · simp only [not_le.2 hfr, hnamed, if_false, Bool.false_eq_true]
        rfl
      · simp only [respond, frameInfo, k, x, mget_mset_same, Option.getD_some]

/-- Settles O60: each clause is the case of the body, or of the command, that its hypotheses select. -/
theorem completions : Obligations.Completions := ⟨wordsComplete, commandsComplete⟩

end Sys2Proof.Proofs
end

section
/-! A result that arrives, inside its window or after it (R41, R57, R158). -/

namespace Sys2Proof.Proofs
open Sys2Proof.Machine Sys2Proof.Safety

/-- The threads and the blocks of a core are what they were. -/
structure Stays (c : Nat) (k k' : Kern) : Prop where
  threads : (coreOf k' c).threads = (coreOf k c).threads
  blocks : (coreOf k' c).blocks = (coreOf k c).blocks

theorem stays_refl (c : Nat) (k : Kern) : Stays c k k := ⟨rfl, rfl⟩

theorem Stays.trans {c : Nat} {k k' k'' : Kern} (h : Stays c k k') (h' : Stays c k' k'') : Stays c k k'' :=
  ⟨h'.threads.trans h.threads, h'.blocks.trans h.blocks⟩

theorem stays_of_core {c : Nat} {k k' : Kern} (h : coreOf k' c = coreOf k c) : Stays c k k' := by
  constructor <;> rw [h]

theorem stays_of_cores {c : Nat} {k k' : Kern} (h : k'.cores = k.cores) : Stays c k k' := stays_of_core (coreOf_of_cores h c)

theorem stays_modCore {c : Nat} {k : Kern} {f : Core → Core} (ht : ∀ core, (f core).threads = core.threads)
    (hb : ∀ core, (f core).blocks = core.blocks) : Stays c k (modCore k c f) := by
  constructor
  · rw [coreOf_modCore_same, ht]
  · rw [coreOf_modCore_same, hb]

theorem Stays.getThread {c : Nat} {k k' : Kern} (h : Stays c k k') (a b : Nat) : getThread k' c a b = getThread k c a b := by
  simp only [Machine.getThread, h.threads]

theorem Stays.blockOf {c : Nat} {k k' : Kern} (h : Stays c k k') (b : Nat) : blockOf k' c b = blockOf k c b := by
  simp only [Machine.blockOf, h.blocks]

theorem Stays.groupOf {c : Nat} {k k' : Kern} (h : Stays c k k') (t : Thread) : groupOf k' c t = groupOf k c t := by
  simp only [Machine.groupOf, h.blockOf]

/-! ## What the thread holds -/

/-- A result within its window stays held. -/
theorem mem_held_flushed {t : Thread} {id : Nat} {vals : List W32} {g : Held} (hg : g ∈ t.held) (hid : g.id = id) (hw : 0 < g.window) :
    { g with vals := vals, flags := 0, arrived := true } ∈ (flushed Held.due (withArrived id vals 0 t)).held := by
  refine List.mem_filter.2 ⟨List.mem_map.2 ⟨g, hg, arrived_same vals 0 hid⟩, ?_⟩
  simp [Held.due, Nat.ne_of_gt hw]

/-- The results that are due once one has arrived, where no other was: that one. -/
theorem due_arrived {t : Thread} {id : Nat} {vals : List W32} {g : Held} (huniq : ∀ y ∈ t.held, y.id = id → y = g)
    (hdue : ∀ y ∈ t.held, y.id ≠ id → y.due = false) :
    ∀ y ∈ (withArrived id vals 0 t).held.filter Held.due, y = { g with vals := vals, flags := 0, arrived := true } := by
  intro y hy
  obtain ⟨hm, hd⟩ := List.mem_filter.1 hy
  obtain ⟨x, hx, rfl⟩ := List.mem_map.1 hm
  by_cases hid : x.id = id
  · rw [arrived_same vals 0 hid, huniq x hx hid]
  · rw [arrived_other vals 0 hid, hdue x hx hid] at hd
    cases hd

theorem due_arrived_ne_nil {t : Thread} {id : Nat} {vals : List W32} {g : Held} (hg : g ∈ t.held) (hid : g.id = id)
    (hw : g.window = 0) : (withArrived id vals 0 t).held.filter Held.due ≠ [] := by
  refine List.ne_nil_of_mem (List.mem_filter.2 ⟨List.mem_map.2 ⟨g, hg, arrived_same vals 0 hid⟩, ?_⟩)
  simp [Held.due, hw]

/-- A result that arrives after its window is held no more. -/
theorem held_flushed {t : Thread} {id : Nat} {vals : List W32} {g : Held} (hw : g.window = 0)
    (huniq : ∀ y ∈ t.held, y.id = id → y = g) (hdue : ∀ y ∈ t.held, y.id ≠ id → y.due = false) :
    (flushed Held.due (withArrived id vals 0 t)).held = t.held.filter fun y => y.id != id := by
  have hkeeps : ∀ y ∈ t.held, (!(arrived id vals 0 y).due) = (y.id != id) := fun y hy => by
    by_cases hid : y.id = id
    · obtain rfl := huniq y hy hid
      rw [arrived_same vals 0 hid]
      simp [Held.due, hw, hid]
    · rw [arrived_other vals 0 hid, hdue y hy hid]
      simp [hid]
  calc (t.held.map (arrived id vals 0)).filter (fun y => !y.due)
      = (t.held.filter fun y => !(arrived id vals 0 y).due).map (arrived id vals 0) := List.filter_map
    _ = (t.held.filter fun y => y.id != id).map (arrived id vals 0) := by rw [List.filter_congr hkeeps]
    _ = t.held.filter fun y => y.id != id :=
      (List.map_congr_left fun y hy => arrived_other vals 0 (by simpa using (List.mem_filter.1 hy).2)).trans (List.map_id' _)

/-- Registers of a thread's own hold the values of a result that lands last, and only such results land. -/
theorem ownReg_landHelds {g : Held} (hn : g.regs.Nodup) (hs : ∀ r ∈ g.regs, ∀ n, r ≠ .s n) {p : Reg × W32}
    (hp : p ∈ g.regs.zip g.vals) {hs' : List Held} (hall : ∀ y ∈ hs', y = g) (hne : hs' ≠ []) (r : RegFile) :
    ownReg (hs'.foldl landHeld r) p.1 = p.2 := by
  have hscalar : g.scalar = false := by
    refine List.any_eq_false.mpr fun r hr => ?_
    cases r with
    | s n => exact absurd rfl (hs _ hr n)
    | v n => exact Bool.false_ne_true
    | k n => exact Bool.false_ne_true
  have hland : ∀ r, ownReg (landHeld r g) p.1 = p.2 := fun r => by
    have hreg : ownReg (landHeld r g) p.1 = ownReg (landOwn r (g.regs.zip g.vals)) p.1 := by
      simp only [landHeld, hscalar, Bool.false_eq_true, if_false]
      cases p.1 <;> rfl
    rw [hreg]
    exact ownReg_landOwn_mem _ _ (zip_nodup _ _ hn) p hp (hs _ (List.of_mem_zip hp).1)
  obtain ⟨ys, y, rfl⟩ := List.eq_nil_or_concat hs' |>.resolve_left hne
  rw [List.concat_eq_append, List.foldl_append, hall y (by simp)]
  exact hland _

/-- What scalar results have landed early leaves nothing else to land: afterwards the register holds the value. -/
theorem getD_landGroup_value {g : Held} (hn : g.regs.Nodup) {n : Nat} {x : W32} (hp : (Reg.s n, x) ∈ g.regs.zip g.vals) {gr : Group}
    (hearly : gr.early.contains (n, g.id) = true → gr.s.getD n 0 = x) : (landGroup g gr).s.getD n 0 = x := by
  by_cases h : gr.early.contains (n, g.id) = true
  · rw [getD_landGroup_other g gr n (.inr h), hearly h]
  · have hscalar : g.scalar = true := List.any_eq_true.mpr ⟨_, (List.of_mem_zip hp).1, rfl⟩
    have hzip := zip_nodup g.regs g.vals hn
    simp only [landGroup, hscalar, if_true]
    refine getD_landScalars_mem _ _ (hzip.sublist ((List.filter_sublist).map _)) n x (List.mem_filter.2 ⟨hp, ?_⟩)
    simpa [scalarNumbers] using h

theorem getD_landHelds_value {g : Held} (hn : g.regs.Nodup) {n : Nat} {x : W32} (hp : (Reg.s n, x) ∈ g.regs.zip g.vals)
    {hs : List Held} (hall : ∀ y ∈ hs, y = g) (hne : hs ≠ []) {gr : Group}
    (hearly : gr.early.contains (n, g.id) = true → gr.s.getD n 0 = x) : (landHelds gr hs).s.getD n 0 = x := by
  induction hs generalizing gr with
  | nil => exact absurd rfl hne
  | cons y hs ih =>
    have hy : y = g := hall y List.mem_cons_self
    have hvalue := getD_landGroup_value hn hp hearly
    rw [landHelds, List.foldl_cons, hy]
    cases hs with
    | nil => exact hvalue
    | cons z hs => exact ih (fun w hw => hall w (List.mem_cons_of_mem _ hw)) (List.cons_ne_nil _ _) fun _ => hvalue

/-- The group of a thread once what comes early of a result has been written: where a register comes early it holds its value. -/
theorem groupOf_landEarly {k : Kern} {c : Nat} {t u : Thread} {id : Nat} {vals : List W32} {g : Held} {gr : Group}
    (ht : getThread k c t.tslot t.lane = some u) (hfind : u.held.find? (fun h => h.id == id && h.scalar) = some g)
    (hgr : groupOf k c t = some gr) (hn : g.regs.Nodup) : ∃ gr', groupOf (landEarly k c t id vals) c t = some gr' ∧
      ∀ n x, (Reg.s n, x) ∈ g.regs.zip vals → gr'.early.contains (n, id) = true → gr'.s.getD n 0 = x := by
  unfold landEarly
  rw [show nowThread k c t = u by rw [nowThread, ht]; rfl, hfind]
  dsimp only
  rw [groupOf_modGroup, if_pos ⟨rfl, rfl⟩, hgr]
  refine ⟨_, rfl, fun n x hp hearly => ?_⟩
  refine getD_landScalars_mem _ _ ((zip_nodup g.regs vals hn).sublist ((List.filter_sublist).map _)) n x (List.mem_filter.2 ⟨hp, ?_⟩)
  simpa [scalarNumbers] using hearly

/-- The result that has arrived is the one that is found by its number. -/
theorem find_arrived {t : Thread} {id : Nat} {vals : List W32} {g : Held} (hg : g ∈ t.held) (hid : g.id = id)
    (huniq : ∀ y ∈ t.held, y.id = id → y = g) (hs : g.scalar = true) :
    (withArrived id vals 0 t).held.find? (fun h => h.id == id && h.scalar) = some { g with vals := vals, flags := 0, arrived := true } := by
  cases hf : (withArrived id vals 0 t).held.find? (fun h => h.id == id && h.scalar) with
  | none =>
    have := List.find?_eq_none.1 hf _ (List.mem_map.2 ⟨g, hg, arrived_same vals 0 hid⟩)
    simp only [hid, beq_self_eq_true, Bool.true_and] at this
    exact absurd hs this
  | some y =>
    obtain ⟨x, hx, rfl⟩ := List.mem_map.1 (List.mem_of_find?_eq_some hf)
    have hy := List.find?_some hf
    simp only [arrived_id, Bool.and_eq_true, beq_iff_eq] at hy
    rw [arrived_same vals 0 hy.1, huniq x hx hy.1]

/-- What flushing the due results of a thread leaves in a scalar register of its group. -/
theorem seeReg_flushHeld {k : Kern} {c : Nat} {t u : Thread} {gr : Group} (ht : getThread k c t.tslot t.lane = some u)
    (hgr : groupOf k c t = some gr) (test : Held → Bool) (n : Nat) :
    seeReg (flushHeld k c t test) c t (.s n) = (landHelds gr (u.held.filter test)).s.getD n 0 := by
  have h := sOf_flushHeld k c t t test
  rw [hgr, Option.map_some, show nowThread k c t = u by rw [nowThread, ht]; rfl, if_pos (by simp [samePlace])] at h
  obtain ⟨gr', h1, h2⟩ := Option.map_eq_some_iff.1 h
  simp only [seeReg, h1, Option.map_some, Option.getD_some, h2]

/-- A result arrives for its thread. -/
theorem arrives_arriveHeld {k k' : Kern} {c : Nat} {t : Thread} (id : Nat) (vals : List W32) (hs : Stays c k k')
    (ht : getThread k c t.tslot t.lane = some t) :
    Arrives k (arriveHeld k' c t id vals 0) c t.tslot t.lane (some id) vals := by
  intro t' id' g ht' hid' hg hgid huniq
  obtain rfl : t = t' := Option.some.inj (ht.symm.trans ht')
  obtain rfl : id = id' := Option.some.inj hid'
  have ht₁ : getThread k' c t.tslot t.lane = some t := (hs.getThread ..).trans ht
  have hthread : getThread (arriveHeld k' c t id vals 0) c t.tslot t.lane = some (flushed Held.due (withArrived id vals 0 t)) := by
    rw [getThread_arriveHeld_same, ht₁, Option.map_some]
  refine ⟨fun hw => ⟨_, _, hthread, mem_held_flushed hg hgid hw, rfl⟩, fun hw hdue hn hregs => ⟨_, hthread, held_flushed hw huniq hdue, ?_⟩⟩
  have hall := due_arrived (vals := vals) huniq hdue
  have hne := due_arrived_ne_nil (vals := vals) hg hgid hw
  intro p hp
  rcases hregs with hown | ⟨⟨ns, hns⟩, gr, hgr⟩
  · rw [seeReg_own hthread (hown _ (List.of_mem_zip hp).1)]
    exact ownReg_landHelds (g := { g with vals := vals, flags := 0, arrived := true }) hn hown hp hall hne _
  · obtain ⟨r, x⟩ := p
    have hr : r ∈ g.regs := (List.of_mem_zip hp).1
    rw [hns] at hr
    obtain ⟨n, -, rfl⟩ := List.mem_map.1 hr
    let k₁ := modThis k' c t fun u => { u with held := u.held.map (arrived id vals 0) }
    have ht₂ : getThread k₁ c t.tslot t.lane = some (withArrived id vals 0 t) := by
      rw [getThread_modThis_same _ _ _ _ (keepsKey_held _), ht₁]; rfl
    have hgr₁ : groupOf k₁ c t = some gr := by rw [groupOf_modThis, hs.groupOf, hgr]
    have hscalar : g.scalar = true := List.any_eq_true.mpr ⟨_, (List.of_mem_zip hp).1, rfl⟩
    obtain ⟨gr', hgr', hearly⟩ := groupOf_landEarly (vals := vals) ht₂ (find_arrived hg hgid huniq hscalar) hgr₁ hn
    refine (seeReg_flushHeld ((getThread_landEarly ..).trans ht₂) hgr' Held.due n).trans ?_
    refine getD_landHelds_value (g := { g with vals := vals, flags := 0, arrived := true }) hn hp hall hne fun h => ?_
    exact hearly n x hp (hgid ▸ h)


end Sys2Proof.Proofs
end

section
/-! The port of a core lets a request out, and the request is performed and ends (R152 to R158, R371). -/

namespace Sys2Proof.Proofs
open Sys2Proof.Machine Sys2Proof.Safety

/-! ## The port opens -/

/-- A port that has let requests out: some are paid, and the buckets have changed. -/
structure PortOpened (c : Nat) (k k' : Kern) : Prop where
  shared : k' = { k with cores := k'.cores }
  core : coreOf k' c = { coreOf k c with reqs := (coreOf k' c).reqs, buckets := (coreOf k' c).buckets }
  reqs : ∃ f : Req → Bool, (coreOf k' c).reqs = (coreOf k c).reqs.map fun r => { r with paid := r.paid || f r }

theorem portOpened_refl (c : Nat) (k : Kern) : PortOpened c k k :=
  ⟨rfl, rfl, fun _ => false, by simp⟩

theorem PortOpened.trans {c : Nat} {k k' k'' : Kern} (h : PortOpened c k k') (h' : PortOpened c k' k'') : PortOpened c k k'' := by
  obtain ⟨f, hf⟩ := h.reqs
  obtain ⟨f', hf'⟩ := h'.reqs
  refine ⟨?_, ?_, fun r => f r || f' { r with paid := r.paid || f r }, ?_⟩
  · rw [h'.shared, h.shared]
  · rw [h'.core, h.core]
  · rw [hf', hf, List.map_map]
    simp only [Function.comp_def, Bool.or_assoc]

theorem PortOpened.stays {c : Nat} {k k' : Kern} (h : PortOpened c k k') : Stays c k k' := by
  constructor <;> rw [h.core]

theorem PortOpened.mem {c : Nat} {k k' : Kern} (h : PortOpened c k k') : k'.mem = k.mem := by rw [h.shared]

theorem portOpened_spend (k : Kern) (c ctx n : Nat) : PortOpened c k (spend k c ctx n).1 := by
  unfold spend
  dsimp only
  split
  · exact portOpened_refl c k
  · refine ⟨rfl, ?_, fun _ => false, ?_⟩
    · rw [coreOf_modCore_same]
    · rw [coreOf_modCore_same]; simp

/-- The requests of a number are paid. -/
def payReq (k : Kern) (c id : Nat) : Kern :=
  modCore k c fun core => { core with reqs := core.reqs.map fun r => if r.id == id then { r with paid := true } else r }

theorem portOpened_payReq (k : Kern) (c id : Nat) : PortOpened c k (payReq k c id) := by
  refine ⟨rfl, ?_, fun r => r.id == id, ?_⟩
  · rw [payReq, coreOf_modCore_same]
  · rw [payReq, coreOf_modCore_same]
    refine List.map_congr_left fun r _ => ?_
    dsimp only
    cases r.id == id <;> simp only [Bool.false_eq_true, if_false, if_true, Bool.or_false, Bool.or_true]

theorem payPort_cons (c : Nat) (q : Req) (qs : List Req) (stuck : List Nat) (k : Kern) :
    payPort c (q :: qs) stuck k =
      if stuck.contains q.ctx || !atPort k c q then payPort c qs stuck k
      else if (spend k c q.ctx q.size).2 then payPort c qs stuck (payReq (spend k c q.ctx q.size).1 c q.id)
      else payPort c qs (q.ctx :: stuck) (spend k c q.ctx q.size).1 := by
  rw [payPort]
  split
  · rfl
  · rcases spend k c q.ctx q.size with ⟨k', b⟩
    cases b <;> rfl

theorem portOpened_payPort (c : Nat) (qs : List Req) (stuck : List Nat) (k : Kern) : PortOpened c k (payPort c qs stuck k) := by
  induction qs generalizing stuck k with
  | nil => exact portOpened_refl c k
  | cons q qs ih =>
    rw [payPort_cons]
    split
    · exact ih _ _
    · split
      · exact ((portOpened_spend ..).trans (portOpened_payReq ..)).trans (ih _ _)
      · exact (portOpened_spend ..).trans (ih _ _)

theorem portOpened_openPort (k : Kern) (c : Nat) : PortOpened c k (openPort k c) := portOpened_payPort ..

/-- Whether a request may be performed does not turn on what has been paid. -/
theorem mayPerform_opened {c : Nat} {k k' : Kern} (h : PortOpened c k k') (q : Req) (b : Bool) :
    mayPerform (coreOf k' c) { q with paid := b } = mayPerform (coreOf k c) q := by
  obtain ⟨f, hf⟩ := h.reqs
  have hbefore : (coreOf k' c).reqs.all (fun p => !before p { q with paid := b }) = (coreOf k c).reqs.all (fun p => !before p q) := by
    rw [hf, List.all_map]
    rfl
  unfold mayPerform
  rw [hbefore, h.core]
  rfl

theorem answersFromCache_opened {c : Nat} {k k' : Kern} (h : PortOpened c k k') (q : Req) (b : Bool) :
    answersFromCache k' c { q with paid := b } = answersFromCache k c q := by
  have hobj : ∀ ctx o, getObj k' ctx o = getObj k ctx o := fun ctx o => by rw [h.shared]; rfl
  unfold answersFromCache cachedLine
  rw [h.core, hobj]

theorem stallsFill_opened {c : Nat} {k k' : Kern} (h : PortOpened c k k') (q : Req) (b : Bool) :
    stallsFill k' c { q with paid := b } = stallsFill k c q := by
  have hobj : ∀ ctx o, getObj k' ctx o = getObj k ctx o := fun ctx o => by rw [h.shared]; rfl
  unfold stallsFill needsWaking freeWays awakeWays
  rw [answersFromCache_opened h, h.core, hobj]

/-- The tokens of a request are there: its context has no bucket, or one that holds them and owes none. -/
def HasTokens (k : Kern) (c : Nat) (q : Req) : Prop :=
  ∃ b, mget (coreOf k c).buckets q.ctx = some b ∧ b.owed = 0 ∧ max 1 (ceilDiv q.size 64) ≤ b.tokens

theorem spend_pays {k : Kern} {c : Nat} {q : Req} (h : mget (coreOf k c).buckets q.ctx = none ∨ HasTokens k c q) :
    (spend k c q.ctx q.size).2 = true := by
  unfold spend
  rcases h with h | ⟨b, hb, ho, ht⟩
  · rw [h]
  · rw [hb]
    simp only [ho, beq_self_eq_true, Bool.true_and, decide_eq_true_eq]
    exact ht

theorem buckets_payReq (k : Kern) (c id : Nat) : (coreOf (payReq k c id) c).buckets = (coreOf k c).buckets := by
  rw [payReq, coreOf_modCore_same]

theorem buckets_spend_none {k : Kern} {c ctx n ctx' : Nat} (h : mget (coreOf k c).buckets ctx' = none) :
    mget (coreOf (spend k c ctx n).1 c).buckets ctx' = none := by
  unfold spend
  cases hb : mget (coreOf k c).buckets ctx with
  | none => exact h
  | some b =>
    have hne : ctx' ≠ ctx := fun e => by rw [e, hb] at h; cases h
    simp only [coreOf_modCore_same]
    rw [mget_mset_other _ _ hne, h]

theorem buckets_spend_other {k : Kern} {c ctx n ctx' : Nat} (h : ctx' ≠ ctx) :
    mget (coreOf (spend k c ctx n).1 c).buckets ctx' = mget (coreOf k c).buckets ctx' := by
  unfold spend
  cases hb : mget (coreOf k c).buckets ctx with
  | none => rfl
  | some b =>
    simp only [coreOf_modCore_same]
    rw [mget_mset_other _ _ h]

/-- Every request of a number is paid. -/
def Paid (k : Kern) (c id : Nat) : Prop := ∀ r ∈ (coreOf k c).reqs, r.id = id → r.paid = true

theorem paid_payReq (k : Kern) (c id : Nat) : Paid (payReq k c id) c id := by
  intro r hr hid
  rw [payReq, coreOf_modCore_same] at hr
  obtain ⟨x, -, rfl⟩ := List.mem_map.1 hr
  split
  · rfl
  next hne =>
    rw [if_neg hne] at hid
    exact absurd (beq_iff_eq.2 hid) hne

theorem PortOpened.paid {c id : Nat} {k k' : Kern} (h : PortOpened c k k') (hp : Paid k c id) : Paid k' c id := by
  obtain ⟨f, hf⟩ := h.reqs
  intro r hr hid
  rw [hf] at hr
  obtain ⟨x, hx, rfl⟩ := List.mem_map.1 hr
  simp [hp x hx hid]

/-- A request at the port whose tokens are there is paid when the port has opened, where no other of its context comes before it. -/
theorem paid_payPort {c : Nat} {q : Req} {qs : List Req} {stuck : List Nat} {k : Kern} (hq : q ∈ qs) (hport : atPort k c q = true)
    (hstuck : q.ctx ∉ stuck) (htok : mget (coreOf k c).buckets q.ctx = none ∨
      (HasTokens k c q ∧ ∀ y ∈ qs, y.ctx = q.ctx → y.paid = true ∨ y = q)) :
    Paid (payPort c qs stuck k) c q.id := by
  have hkeeps : ∀ {k' : Kern}, PortOpened c k k' → atPort k' c q = true := fun h => by
    have hm := mayPerform_opened h q q.paid
    have ha := answersFromCache_opened h q q.paid
    unfold atPort at hport ⊢
    rwa [hm, ha]
  induction qs generalizing stuck k with
  | nil => cases hq
  | cons y qs ih =>
    rw [payPort_cons]
    by_cases hy : y = q
    · subst hy
      have hspend := spend_pays (htok.imp id And.left)
      rw [if_neg (by simp [hstuck, hport]), if_pos hspend]
      exact (portOpened_payPort ..).paid (paid_payReq _ _ _)
    · have hq' : q ∈ qs := (List.mem_cons.1 hq).resolve_left (Ne.symm hy)
      split
      · exact ih hq' hport hstuck (htok.imp id fun h => ⟨h.1, fun z hz => h.2 z (List.mem_cons_of_mem _ hz)⟩) hkeeps
      next hat =>
        have hyport : atPort k c y = true := by
          cases h : atPort k c y
          · simp [h] at hat
          · rfl
        have hunpaid : y.paid = false := by
          unfold atPort at hyport
          cases h : y.paid
          · rfl
          · simp [h] at hyport
        have hopened := portOpened_spend k c y.ctx y.size
        rcases htok with hnone | ⟨htok, hothers⟩
        · by_cases hs : (spend k c y.ctx y.size).2 = true
          · rw [if_pos hs]
            have hop := hopened.trans (portOpened_payReq (spend k c y.ctx y.size).1 c y.id)
            exact ih hq' (hkeeps hop) hstuck (.inl (by rw [buckets_payReq]; exact buckets_spend_none hnone))
              fun h => hkeeps (hop.trans h)
          · have hne : q.ctx ≠ y.ctx := fun e => by
              rw [spend, ← e, hnone] at hs
              exact hs rfl
            rw [if_neg hs]
            exact ih hq' (hkeeps hopened) (by simp [hne, hstuck]) (.inl (buckets_spend_none hnone)) fun h => hkeeps (hopened.trans h)
        · have hne : q.ctx ≠ y.ctx := fun e => by
            rcases hothers y List.mem_cons_self e.symm with h | h
            · rw [hunpaid] at h; cases h
            · exact hy h
          have hrest : ∀ z ∈ qs, z.ctx = q.ctx → z.paid = true ∨ z = q := fun z hz => hothers z (List.mem_cons_of_mem _ hz)
          obtain ⟨b, hb, ho, ht⟩ := htok
          have hb' : mget (coreOf (spend k c y.ctx y.size).1 c).buckets q.ctx = some b := (buckets_spend_other hne).trans hb
          split
          · have hop := hopened.trans (portOpened_payReq (spend k c y.ctx y.size).1 c y.id)
            exact ih hq' (hkeeps hop) hstuck (.inr ⟨⟨b, by rw [buckets_payReq]; exact hb', ho, ht⟩, hrest⟩) fun h => hkeeps (hop.trans h)
          · exact ih hq' (hkeeps hopened) (by simp [hne, hstuck]) (.inr ⟨⟨b, hb', ho, ht⟩, hrest⟩) fun h => hkeeps (hopened.trans h)

/-- A request that the port lets out is found there, paid or answered from the cache. -/
theorem find_openPort {k : Kern} {c : Nat} {q : Req} (hfind : (coreOf k c).reqs.find? (fun y => y.id == q.id) = some q)
    (hlets : PortLets k c q) : ∃ b, (coreOf (openPort k c) c).reqs.find? (fun y => y.id == q.id) = some { q with paid := b } ∧
      (b = true ∨ answersFromCache k c q = true) := by
  obtain ⟨hmay, htok⟩ := hlets
  have hop := portOpened_openPort k c
  obtain ⟨f, hf⟩ := hop.reqs
  have hfound : (coreOf (openPort k c) c).reqs.find? (fun y => y.id == q.id) = some { q with paid := q.paid || f q } := by
    rw [hf, List.find?_map]
    exact congrArg (Option.map _) hfind
  refine ⟨_, hfound, ?_⟩
  cases hpaid : q.paid with
  | true => exact .inl (Bool.true_or _)
  | false =>
    cases hcache : answersFromCache k c q with
    | true => exact .inr rfl
    | false =>
      have hport : atPort k c q = true := by simp [atPort, hpaid, hmay, hcache]
      have htok' : mget (coreOf k c).buckets q.ctx = none ∨
          (HasTokens k c q ∧ ∀ y ∈ (coreOf k c).reqs, y.ctx = q.ctx → y.paid = true ∨ y = q) := by
        rcases htok with h | h | ⟨b, h1, h2, h3, h4⟩
        · rw [hpaid] at h; cases h
        · exact .inl h
        · exact .inr ⟨⟨b, h1, h2, h3⟩, h4⟩
      have hp := paid_payPort (List.mem_of_find?_eq_some hfind) hport (List.not_mem_nil) htok' _ (List.mem_of_find?_eq_some hfound) rfl
      left
      rw [← hpaid]
      exact hp

end Sys2Proof.Proofs
end

section
/-! A local request is performed and answered (R152 to R158, R161). -/

namespace Sys2Proof.Proofs
open Sys2Proof.Machine Sys2Proof.Safety

/-! ## What a reply does, by the outcome of its request -/

section Replies

variable {k : Kern} {c : Nat} {q : Req}

theorem reqRuns_opened {k' : Kern} (h : PortOpened c k k') : reqRuns k' q = reqRuns k q := by
  have hruns : ∀ ctx o off n, heldRuns k' ctx o off n = heldRuns k ctx o off n := fun ctx o off n =>
    runsOf_congr (fun ctx o => by rw [h.shared]; rfl) (by rw [h.shared]) _ _ _ _ _ _
  simp only [reqRuns, hruns]

theorem serialClass_opened {k' : Kern} (h : PortOpened c k k') (serial : Nat) : serialClass k' serial = serialClass k serial := by
  rw [h.shared]; rfl

/-- The guards of a reply, once the port has opened, are those of a request that may be performed. -/
theorem guards_opened {b : Bool} (hmay : mayPerform (coreOf k c) q = true) (hstall : stallsFill k c q = false)
    (hpaid : b = true ∨ answersFromCache k c q = true) :
    (!mayPerform (coreOf (openPort k c) c) { q with paid := b } || !(b || answersFromCache (openPort k c) c { q with paid := b }) ||
      stallsFill (openPort k c) c { q with paid := b }) = false := by
  have hop := portOpened_openPort k c
  rw [mayPerform_opened hop, answersFromCache_opened hop, stallsFill_opened hop, hmay, hstall]
  rcases hpaid with h | h <;> simp [h]

variable (hfind : (coreOf k c).reqs.find? (fun y => y.id == q.id) = some q) (hlets : PortLets k c q)
  (hstall : stallsFill k c q = false)
include hfind hlets hstall

theorem localReply_parks {e : Nat × Nat} (he : reqRuns k q = .error e) :
    localReply k c q.id = parkReq (openPort k c) c q e.1 e.2 := by
  obtain ⟨b, hfound, hpaid⟩ := find_openPort hfind hlets
  have hruns : reqRuns (openPort k c) { q with paid := b } = .error e := (reqRuns_opened (portOpened_openPort k c)).trans he
  unfold localReply
  simp only [hfound, guards_opened hlets.1 hstall hpaid, Bool.false_eq_true, if_false, hruns]
  rfl

theorem localReply_answers {rs : List (Nat × Nat)} {bs : List Byte} {k' : Kern} (hr : reqRuns k q = .ok rs)
    (hp : performSettled (openPort k c) c (serialClass k q.serial) q rs = (k', .ok bs)) :
    localReply k c q.id = finishReq k' c q bs := by
  obtain ⟨b, hfound, hpaid⟩ := find_openPort hfind hlets
  have hruns : reqRuns (openPort k c) { q with paid := b } = .ok rs := (reqRuns_opened (portOpened_openPort k c)).trans hr
  have hperf : performSettled (openPort k c) c (serialClass (openPort k c) q.serial) { q with paid := b } rs = (k', .ok bs) := by
    rw [serialClass_opened (portOpened_openPort k c), ← hp]
    rfl
  unfold localReply
  simp only [hfound, guards_opened hlets.1 hstall hpaid, Bool.false_eq_true, if_false, hruns, hperf]
  rfl

theorem localReply_fails {rs : List (Nat × Nat)} {h : Nat × Poison} {k' : Kern} (hr : reqRuns k q = .ok rs)
    (hp : performSettled (openPort k c) c (serialClass k q.serial) q rs = (k', .error h)) :
    localReply k c q.id = failReq k' c q (poisonCause (serialClass k q.serial) h.2) (capForm q.cap.toNat (q.ea + h.1)) := by
  obtain ⟨b, hfound, hpaid⟩ := find_openPort hfind hlets
  have hruns : reqRuns (openPort k c) { q with paid := b } = .ok rs := (reqRuns_opened (portOpened_openPort k c)).trans hr
  have hperf : performSettled (openPort k c) c (serialClass k q.serial) { q with paid := b } rs = (k', .error h) := hp
  unfold localReply
  simp only [hfound, guards_opened hlets.1 hstall hpaid, Bool.false_eq_true, if_false, hruns,
    serialClass_opened (portOpened_openPort k c), hperf]
  rfl

end Replies

/-! ## The end of a request -/

theorem finishReq_gone (k : Kern) (c : Nat) (q : Req) (bs : List Byte) : ∀ y ∈ (coreOf (finishReq k c q bs) c).reqs, y.id ≠ q.id := by
  have hdrop : ∀ y ∈ (coreOf (dropReq k c q.id) c).reqs, y.id ≠ q.id := fun y hy => by
    rw [dropReq, coreOf_modCore_same] at hy
    simpa using (List.mem_filter.1 hy).2
  unfold finishReq
  dsimp only
  split
  next h t _ _ =>
    rw [(within_arriveHeld (keys := fun _ _ => true) _ t h _ _ rfl).core]
    exact hdrop
  · exact hdrop

/-- A request that ends answers its thread. -/
theorem arrives_finishReq {k k' : Kern} {c : Nat} (q : Req) (bs : List Byte) (hs : Stays c k k') :
    Arrives k (finishReq k' c q bs) c q.tslot q.lane q.held (answerWords q.ty q.size bs) := by
  intro t h g ht hheld
  obtain ⟨h1, h2⟩ := getThread_key ht
  have hdrop : Stays c k (dropReq k' c q.id) := hs.trans (stays_modCore (fun _ => rfl) fun _ => rfl)
  have ht' : getThread (dropReq k' c q.id) c q.tslot q.lane = some t := (hdrop.getThread ..).trans ht
  unfold finishReq
  simp only [hheld, ht']
  rw [← h1, ← h2] at ht ⊢
  exact arrives_arriveHeld h _ hdrop ht t h g ht rfl

/-! ## Poison that strikes later -/

theorem unitHits_filter {α : Type} (size : Nat → Nat) (f : Nat × α → Bool) (rs : List (Nat × Nat)) (off : Nat) (m : FMap α)
    (h : unitHits size rs off m = []) : unitHits size rs off (m.filter f) = [] := by
  induction rs generalizing off with
  | nil => rfl
  | cons r rs ih =>
    simp only [unitHits, List.append_eq_nil_iff, List.filterMap_eq_nil_iff] at h ⊢
    exact ⟨fun p hp => h.1 p (List.mem_of_mem_filter hp), ih _ h.2⟩

theorem foldl_setPoison (hs : List (Nat × Poison)) (k : Kern) :
    ∃ p, hs.foldl (fun k h => { k with poison := mset k.poison h.1 h.2 }) k = { k with poison := p } := by
  induction hs generalizing k with
  | nil => exact ⟨k.poison, rfl⟩
  | cons h hs ih => exact ih { k with poison := mset k.poison h.1 h.2 }

/-- A request that has settled is performed with some units' poison aside, which they have again afterwards. -/
theorem performSettled_eq (k : Kern) (c cls : Nat) (q : Req) (rs : List (Nat × Nat)) :
    ∃ p p', performSettled k c cls q rs = ({ (performReq { k with poison := p } c cls q rs).1 with poison := p' },
      (performReq { k with poison := p } c cls q rs).2) ∧ ∀ rs, poisonHits k rs = [] → poisonHits { k with poison := p } rs = [] := by
  unfold performSettled
  split
  · let aside := k.poison.filter fun p => !(poisonUnits k rs).any fun h => h.1 == p.1
    obtain ⟨p, hp⟩ := foldl_setPoison (poisonUnits k rs) (performReq { k with poison := aside } c cls q rs).1
    exact ⟨_, p, Prod.ext hp rfl, fun rs h => unitHits_filter _ _ rs 0 _ h⟩
  · exact ⟨k.poison, (performReq k c cls q rs).1.poison, rfl, fun _ h => h⟩

/-- Performing a request, whatever poison stands aside, settles it. -/
theorem performSettled_of {k : Kern} {c cls : Nat} {q : Req} {rs : List (Nat × Nat)} {bs : List Byte} {m : List Host.Cell}
    (h : ∀ p, (∀ rs, poisonHits k rs = [] → poisonHits { k with poison := p } rs = []) →
      ∃ k', performReq { k with poison := p } c cls q rs = (k', .ok bs) ∧ Stays c k k' ∧ k'.mem = m) :
    ∃ k', performSettled k c cls q rs = (k', .ok bs) ∧ Stays c k k' ∧ k'.mem = m := by
  obtain ⟨p, p', he, hp⟩ := performSettled_eq k c cls q rs
  obtain ⟨k', hk, hs, hm⟩ := h p hp
  rw [hk] at he
  exact ⟨_, he, ⟨hs.threads, hs.blocks⟩, hm⟩

/-! ## A request is performed -/

theorem performLoad_hit {k : Kern} {c cls : Nat} {q : Req} {rs : List (Nat × Nat)} {line : BitVec 512} (hk : q.kind = .load)
    (hacq : (q.acq && wideScope q.sc) = false) (hhome : ((getObj k q.ctx (capObj q.cap.toNat)).map (·.home)) = some .hbm)
    (hline : cachedLine (coreOf k c) q.ctx (capObj q.cap.toNat) (q.ea / 64) = some line) :
    performReq k c cls q rs = (useLine k c q.ctx (capObj q.cap.toNat) (q.ea / 64),
      .ok (((bytesOfNat 64 line.toNat).drop (q.ea % 64)).take q.size)) := by
  simp only [performReq, hk, performLoad, hacq, hhome, hline, Bool.false_eq_true, if_false, beq_self_eq_true, if_true]

/-- The lines of a core as a load leaves them that acquires at .dev or wider. -/
def acquiredLoad (k : Kern) (c : Nat) (q : Req) : Kern := if q.acq && wideScope q.sc then dropLines k c else k

theorem stays_acquiredLoad (k : Kern) (c : Nat) (q : Req) : Stays c k (acquiredLoad k c q) := by
  unfold acquiredLoad
  split
  · exact stays_modCore (fun _ => rfl) fun _ => rfl
  · exact stays_refl c k

theorem shared_acquiredLoad (k : Kern) (c : Nat) (q : Req) : acquiredLoad k c q = { k with cores := (acquiredLoad k c q).cores } := by
  unfold acquiredLoad
  split <;> rfl

theorem stays_fillLine (k : Kern) (c ctx obj line : Nat) (bits : BitVec 512) : Stays c k (fillLine k c ctx obj line bits) := by
  constructor <;> (unfold fillLine; rw [coreOf_modCore_same]; rfl)

section Misses

variable {k k' : Kern} {c cls : Nat} {q : Req} {rs : List (Nat × Nat)} (hk : q.kind = .load)
  (hmiss : (q.acq && wideScope q.sc) = true ∨ cachedLine (coreOf k c) q.ctx (capObj q.cap.toNat) (q.ea / 64) = none)
include hk hmiss

/-- A load that finds no line reads memory. -/
theorem performLoad_miss {bs : List Byte} (hread : readTrap (acquiredLoad k c q) q.ctx cls rs = (k', .ok bs)) :
    ∃ k₂, performReq k c cls q rs = (k₂, .ok bs) ∧ Stays c k' k₂ ∧ k₂.mem = k'.mem ∧ k₂.ctxs = k'.ctxs := by
  unfold performReq
  unfold acquiredLoad at hread
  simp only [hk, performLoad]
  split
  next hacq =>
    rw [if_pos hacq] at hread
    exact ⟨k', hread, stays_refl c k', rfl, rfl⟩
  next hacq =>
    rw [if_neg hacq] at hread
    rw [hmiss.resolve_left hacq, ite_self]
    simp only [hread]
    split
    · split
      · exact ⟨_, rfl, stays_fillLine .., rfl, rfl⟩
      · exact ⟨k', rfl, stays_refl c k', rfl, rfl⟩
    · exact ⟨k', rfl, stays_refl c k', rfl, rfl⟩

/-- A load that meets poison fails. -/
theorem performLoad_poison {h : Nat × Poison} (hread : readTrap (acquiredLoad k c q) q.ctx cls rs = (k', .error h)) :
    performReq k c cls q rs = (k', .error h) := by
  unfold performReq
  unfold acquiredLoad at hread
  simp only [hk, performLoad]
  split
  next hacq => rwa [if_pos hacq] at hread
  next hacq =>
    rw [if_neg hacq] at hread
    rw [hmiss.resolve_left hacq, ite_self]
    simp only [hread]

end Misses

theorem stays_putRuns (c : Nat) (rs : List (Nat × Nat)) (k : Kern) (bs : List Byte) : Stays c k (putRuns k rs bs) := by
  induction rs generalizing k bs with
  | nil => exact stays_refl c k
  | cons r rs ih => exact (stays_of_cores (putBytes_cores ..)).trans (ih _ _)

theorem performStore {k : Kern} {c cls : Nat} {q : Req} {rs : List (Nat × Nat)} (hk : q.kind = .store) :
    ∃ k', performReq k c cls q rs = (k', .ok []) ∧ Stays c k k' ∧ k'.mem = (putRuns k rs (bytesOfNat q.size q.data)).mem := by
  refine ⟨storeLine (putRuns k rs (bytesOfNat q.size q.data)) c q.ctx (capObj q.cap.toNat) q.ea (bytesOfNat q.size q.data) q.na,
    by simp only [performReq, hk], ?_, storeLine_mem ..⟩
  refine (stays_putRuns c rs k (bytesOfNat q.size q.data)).trans ?_
  unfold storeLine
  split
  · exact stays_modCore (fun _ => rfl) fun _ => rfl
  · exact stays_modCore (fun _ => rfl) fun _ => rfl

theorem getBytes_length (k : Kern) (a n : Nat) : (getBytes k a n).length = n := by
  induction n generalizing a with
  | zero => rfl
  | succ n ih => exact congrArg (· + 1) (ih (a + 1))

theorem getNat_lt (k : Kern) (a n : Nat) : getNat k a n < 256 ^ n := by
  induction n generalizing a with
  | zero => simp [getNat, getBytes, readMem, natOfBytes]
  | succ n ih =>
    have h1 := ih (a + 1)
    have h2 := (seeByte k a).isLt
    rw [getNat_succ, Nat.pow_succ]
    omega

/-- An atomic on memory that holds no error: the old value, and the new one where it writes. -/
theorem performAtomic_clean {k : Kern} {ctx cls a n : Nat} {kind : ReqKind} {ty : Ty} {data cmp : Nat}
    (hp : poisonHits k [(a, n)] = []) (hs : softHits k [(a, n)] = 0) :
    performAtomic k ctx cls (a, n) kind ty id data cmp =
      ((writeOf kind ty (getNat k a n) data cmp).elim k fun x => putBytes k a (bytesOfNat n x), .ok (getNat k a n)) := by
  have hold : natOfBytes (getRuns k [(a, n)]) = getNat k a n := by simp [getRuns, getNat]
  have hrefresh : refreshRuns k [(a, n)] = k := by simp only [refreshRuns, hp, List.foldl_nil]
  simp only [performAtomic, readTrap_clean hp hs, id, hold, hrefresh]
  cases writeOf kind ty (getNat k a n) data cmp <;> rfl

end Sys2Proof.Proofs
end

section
/-! The answers of local requests (R152 to R158, R161). -/

namespace Sys2Proof.Proofs
open Sys2Proof.Machine Sys2Proof.Safety

theorem exec_accessReply_local {s : State} {c : Nat} {q : Req} (hfind : (coreOf s.kern c).reqs.find? (fun y => y.id == q.id) = some q)
    (hlocal : q.remote = none) : exec (.accessReply c q.id) s = .next { s with kern := localReply s.kern c q.id } := by
  change execAccessReply c q.id s = _
  unfold execAccessReply
  simp only [hfind, hlocal, Option.isNone_none, if_true]
  rfl

theorem stallsFill_other {k : Kern} {c : Nat} {q : Req} (h : q.kind ≠ .load) : stallsFill k c q = false := by
  simp [stallsFill, h]

theorem stallsFill_cached {k : Kern} {c : Nat} {q : Req} (h : answersFromCache k c q = true) : stallsFill k c q = false := by
  simp [stallsFill, h]

theorem stallsFill_awake {k : Kern} {c : Nat} {q : Req} (h : q.na = true ∨ (coreOf k c).waysWaking = none) : stallsFill k c q = false := by
  rcases h with h | h
  · simp [stallsFill, h]
  · simp [stallsFill, needsWaking, h]

theorem PortOpened.cachedLine {c : Nat} {k k' : Kern} (h : PortOpened c k k') (ctx o line : Nat) :
    cachedLine (coreOf k' c) ctx o line = cachedLine (coreOf k c) ctx o line := by
  rw [h.core]; rfl

theorem stays_dropLine (c : Nat) (k : Kern) (ctx o line : Nat) : Stays c k (dropLine k c ctx o line) :=
  stays_modCore (fun _ => rfl) fun _ => rfl

theorem stays_useLine (c : Nat) (k : Kern) (ctx o line : Nat) : Stays c k (useLine k c ctx o line) := by
  constructor <;> (unfold useLine; rw [coreOf_modCore_same])

/-- Poison put aside leaves the threads. -/
theorem stays_poison (c : Nat) (k : Kern) (p : FMap Poison) : Stays c k { k with poison := p } := stays_of_cores rfl

theorem stays_dropLines (c : Nat) (k : Kern) : Stays c k (dropLines k c) :=
  stays_modCore (fun _ => rfl) fun _ => rfl

theorem putRuns_mem_congr (rs : List (Nat × Nat)) (bs : List Byte) {k k' : Kern} (h : k'.mem = k.mem) :
    (putRuns k' rs bs).mem = (putRuns k rs bs).mem := by
  induction rs generalizing k k' bs with
  | nil => exact h
  | cons r rs ih => exact ih _ (by simp only [putBytes_mem, h])

section Settles

variable {k : Kern} {c : Nat} {q : Req} {rs : List (Nat × Nat)}
  (hfind : (coreOf k c).reqs.find? (fun y => y.id == q.id) = some q) (hlets : PortLets k c q)
  (hstall : stallsFill k c q = false) (hr : reqRuns k q = .ok rs)
include hfind hlets hstall hr

/-- A request that is performed without an error is answered, and memory is what its performance makes of it. -/
theorem localReply_settles {bs : List Byte} {m : List Host.Cell}
    (h : ∀ p, (∀ rs, poisonHits k rs = [] → poisonHits { openPort k c with poison := p } rs = []) →
      ∃ k', performReq { openPort k c with poison := p } c (serialClass k q.serial) q rs = (k', .ok bs) ∧ Stays c (openPort k c) k' ∧
        k'.mem = m) :
    (∀ y ∈ (coreOf (localReply k c q.id) c).reqs, y.id ≠ q.id) ∧
      Arrives k (localReply k c q.id) c q.tslot q.lane q.held (answerWords q.ty q.size bs) ∧ (localReply k c q.id).mem = m := by
  have hpoison (rs : List (Nat × Nat)) : poisonHits (openPort k c) rs = poisonHits k rs := by
    rw [(portOpened_openPort k c).shared]; rfl
  obtain ⟨k', hp, hs, hm⟩ := performSettled_of (k := openPort k c) (c := c) (cls := serialClass k q.serial) (q := q) (rs := rs)
    fun p hp => h p fun rs hrs => hp rs ((hpoison rs).trans hrs)
  rw [localReply_answers hfind hlets hstall hr hp]
  exact ⟨finishReq_gone _ _ _ _, arrives_finishReq q bs ((portOpened_openPort k c).stays.trans hs), (finishReq_mem ..).trans hm⟩

theorem localReply_hit {line : BitVec 512} (hk : q.kind = .load) (hacq : (q.acq && wideScope q.sc) = false)
    (hhome : ((getObj k q.ctx (capObj q.cap.toNat)).map (·.home)) = some .hbm)
    (hline : cachedLine (coreOf k c) q.ctx (capObj q.cap.toNat) (q.ea / 64) = some line) :
    (∀ y ∈ (coreOf (localReply k c q.id) c).reqs, y.id ≠ q.id) ∧
      Arrives k (localReply k c q.id) c q.tslot q.lane q.held
        (answerWords q.ty q.size (((bytesOfNat 64 line.toNat).drop (q.ea % 64)).take q.size)) ∧ (localReply k c q.id).mem = k.mem := by
  have hop := portOpened_openPort k c
  refine localReply_settles hfind hlets hstall hr fun p _ => ⟨_, performLoad_hit hk hacq ?_ ?_,
    (stays_poison c (openPort k c) p).trans (stays_useLine ..), hop.mem⟩
  · rw [← hhome, hop.shared]; rfl
  · exact (hop.cachedLine ..).trans hline

theorem localReply_miss (hk : q.kind = .load) (hp : poisonHits k rs = []) (hsoft : softHits k rs = 0)
    (hmiss : (q.acq && wideScope q.sc) = true ∨ cachedLine (coreOf k c) q.ctx (capObj q.cap.toNat) (q.ea / 64) = none) :
    (∀ y ∈ (coreOf (localReply k c q.id) c).reqs, y.id ≠ q.id) ∧
      Arrives k (localReply k c q.id) c q.tslot q.lane q.held (answerWords q.ty q.size (getRuns k rs)) ∧
      (localReply k c q.id).mem = k.mem := by
  have hop := portOpened_openPort k c
  refine localReply_settles hfind hlets hstall hr fun p hpoison => ?_
  let k₁ := acquiredLoad { openPort k c with poison := p } c q
  have hshared := shared_acquiredLoad { openPort k c with poison := p } c q
  have hhits : poisonHits k₁ rs = [] := by
    refine Eq.trans ?_ (hpoison rs hp)
    simp only [k₁]; rw [hshared]; rfl
  have hsofts : softHits k₁ rs = 0 := by
    refine Eq.trans ?_ hsoft
    simp only [k₁]; rw [hshared, hop.shared]; rfl
  have hbytes : getRuns k₁ rs = getRuns k rs := by
    simp only [k₁]; rw [hshared, hop.shared]; rfl
  have hmem : k₁.mem = k.mem := by
    simp only [k₁]; rw [hshared]; exact hop.mem
  have hread := readTrap_clean (ctx := q.ctx) (cls := serialClass k q.serial) hhits hsofts
  rw [hbytes] at hread
  obtain ⟨k₂, hk₂, hs, hm, -⟩ := performLoad_miss (k := { openPort k c with poison := p }) hk
    (hmiss.imp_right fun h => (hop.cachedLine ..).trans h) hread
  have hstays := (stays_poison c (openPort k c) p).trans (stays_acquiredLoad { openPort k c with poison := p } c q)
  exact ⟨k₂, hk₂, hstays.trans hs, hm.trans hmem⟩

theorem localReply_store (hk : q.kind = .store) :
    (∀ y ∈ (coreOf (localReply k c q.id) c).reqs, y.id ≠ q.id) ∧
      (localReply k c q.id).mem = (putRuns k rs (bytesOfNat q.size q.data)).mem := by
  have hop := portOpened_openPort k c
  have hmem (p : FMap Poison) : (putRuns { openPort k c with poison := p } rs (bytesOfNat q.size q.data)).mem =
      (putRuns k rs (bytesOfNat q.size q.data)).mem := putRuns_mem_congr rs _ hop.mem
  obtain ⟨hgone, -, hm⟩ := localReply_settles hfind hlets hstall hr fun p _ => by
    obtain ⟨k', h1, h2, h3⟩ := performStore (k := { openPort k c with poison := p }) (c := c) (cls := serialClass k q.serial) (rs := rs) hk
    exact ⟨k', h1, (stays_poison c (openPort k c) p).trans h2, h3.trans (hmem p)⟩
  exact ⟨hgone, hm⟩

end Settles

/-- What an atomic on memory that holds no error leaves of the memory. -/
theorem performReq_atomic {k : Kern} {c cls : Nat} {q : Req} {a n : Nat} (hk : q.kind = .cas ∨ ∃ op, q.kind = .atom op)
    (hp : poisonHits k [(a, n)] = []) (hs : softHits k [(a, n)] = 0) :
    ∃ k', performReq k c cls q [(a, n)] = (k', .ok (bytesOfNat q.size (getNat k a n))) ∧ Stays c k k' ∧
      k'.mem = ((writeOf q.kind q.ty (getNat k a n) q.data q.cmp).elim k fun x => putBytes k a (bytesOfNat n x)).mem := by
  have hat := performAtomic_clean (ctx := q.ctx) (cls := cls) (kind := q.kind) (ty := q.ty) (data := q.data) (cmp := q.cmp) hp hs
  have hperf : performReq k c cls q [(a, n)] =
      (let k' := dropLine ((writeOf q.kind q.ty (getNat k a n) q.data q.cmp).elim k fun x => putBytes k a (bytesOfNat n x)) c q.ctx
        (capObj q.cap.toNat) (q.ea / 64)
       if q.acq && wideScope q.sc then dropLines k' c else k', .ok (bytesOfNat q.size (getNat k a n))) := by
    rcases hk with hk | ⟨op, hk⟩ <;> rw [hk] at hat <;> simp only [performReq, hk, hat]
  have hput : Stays c k ((writeOf q.kind q.ty (getNat k a n) q.data q.cmp).elim k fun x => putBytes k a (bytesOfNat n x)) := by
    cases writeOf q.kind q.ty (getNat k a n) q.data q.cmp with
    | none => exact stays_refl c k
    | some x => exact stays_of_cores (putBytes_cores ..)
  refine ⟨_, hperf, ?_, ?_⟩
  · split
    · exact (hput.trans (stays_dropLine ..)).trans (stays_dropLines ..)
    · exact hput.trans (stays_dropLine ..)
  · split <;> rfl

theorem localReply_atomic {k : Kern} {c : Nat} {q : Req} {a : Nat} (hfind : (coreOf k c).reqs.find? (fun y => y.id == q.id) = some q)
    (hlets : PortLets k c q) (hk : q.kind = .cas ∨ ∃ op, q.kind = .atom op) (hr : reqRuns k q = .ok [(a, q.size)])
    (hp : poisonHits k [(a, q.size)] = []) (hs : softHits k [(a, q.size)] = 0) :
    (∀ y ∈ (coreOf (localReply k c q.id) c).reqs, y.id ≠ q.id) ∧
      Arrives k (localReply k c q.id) c q.tslot q.lane q.held (answerWords q.ty q.size (bytesOfNat q.size (getNat k a q.size))) ∧
      (localReply k c q.id).mem = ((writeOf q.kind q.ty (getNat k a q.size) q.data q.cmp).elim k fun x =>
        putBytes k a (bytesOfNat q.size x)).mem := by
  have hop := portOpened_openPort k c
  have hother : q.kind ≠ .load := by rcases hk with h | ⟨op, h⟩ <;> simp [h]
  refine localReply_settles hfind hlets (stallsFill_other hother) hr fun p hpoison => ?_
  have hold : getNat { openPort k c with poison := p } a q.size = getNat k a q.size := by rw [hop.shared]; rfl
  have hsofts : softHits { openPort k c with poison := p } [(a, q.size)] = 0 := by
    refine Eq.trans ?_ hs
    rw [hop.shared]; rfl
  obtain ⟨k', h1, h2, h3⟩ := performReq_atomic (c := c) (cls := serialClass k q.serial) hk (hpoison _ hp) hsofts
  rw [hold] at h1 h3
  refine ⟨k', h1, (stays_poison c (openPort k c) p).trans h2, h3.trans ?_⟩
  cases writeOf q.kind q.ty (getNat k a q.size) q.data q.cmp with
  | none => exact hop.mem
  | some x => simp only [Option.elim, putBytes_mem, hop.mem]

/-- What stands at a location after an atomic: the new value, or the old one where nothing is written. -/
theorem getNat_written {k k' : Kern} {a n : Nat} {w : Option Nat} (hk : Memory.wf k.mem = true)
    (hm : k'.mem = (w.elim k fun x => putBytes k a (bytesOfNat n x)).mem) :
    getNat k' a n = w.getD (getNat k a n) % 256 ^ n ∧ ∀ d, d < a ∨ a + n ≤ d → seeByte k' d = seeByte k d := by
  have hnat : getNat k' a n = getNat (w.elim k fun x => putBytes k a (bytesOfNat n x)) a n := by simp only [getNat, getBytes, hm]
  have hbyte (d : Nat) : seeByte k' d = seeByte (w.elim k fun x => putBytes k a (bytesOfNat n x)) d := by simp only [seeByte, hm]
  cases w with
  | none => exact ⟨hnat.trans (Nat.mod_eq_of_lt (getNat_lt k a n)).symm, fun d _ => hbyte d⟩
  | some x =>
    refine ⟨hnat.trans (getNat_putBytes k a n x hk), fun d hd => (hbyte d).trans (seeByte_putBytes_outside k a _ ?_)⟩
    rwa [length_bytesOfNat]


theorem putRuns_single (k : Kern) (a n x : Nat) : putRuns k [(a, n)] (bytesOfNat n x) = putBytes k a (bytesOfNat n x) := by
  simp only [putRuns]
  rw [List.take_of_length_le (by rw [length_bytesOfNat])]

theorem localAnswers : Claims.LocalAnswers := by
  intro s c q hfind hlocal hlets
  have hexec := exec_accessReply_local hfind hlocal
  refine ⟨fun line rs hk hacq hr hhome hline => ?_, fun rs hk hna hr hp hs hmiss => ?_, fun a hk hr hm => ?_,
    fun a old new hk hr hm hp hs hold hnew => ?_⟩
  · have hcache : answersFromCache s.kern c q = true := by
      simp only [answersFromCache, hk, hacq, hhome, hline]; rfl
    obtain ⟨hgone, harr, hmem⟩ := localReply_hit hfind hlets (stallsFill_cached hcache) hr hk hacq hhome hline
    exact ⟨_, hexec, rfl, hgone, harr, seeByte_of_mem hmem⟩
  · obtain ⟨hgone, harr, hmem⟩ := localReply_miss hfind hlets (stallsFill_awake hna) hr hk hp hs hmiss
    exact ⟨_, hexec, rfl, hgone, harr, seeByte_of_mem hmem⟩
  · obtain ⟨hgone, hmem⟩ := localReply_store hfind hlets (stallsFill_other (by simp [hk])) hr hk
    rw [putRuns_single] at hmem
    exact ⟨_, hexec, rfl, hgone, getNat_written (w := some q.data) hm hmem⟩
  · obtain ⟨hgone, harr, hmem⟩ := localReply_atomic hfind hlets hk hr hp hs
    obtain ⟨hnat, hbytes⟩ := getNat_written hm hmem
    subst hold
    refine ⟨_, hexec, rfl, hgone, harr, hnat.trans ?_, hbytes⟩
    rw [hnew]
    rcases hk with hk | ⟨op, hk⟩
    · simp only [hk, writeOf, beq_iff_eq]
      split <;> rfl
    · simp only [hk, writeOf, Option.getD_some]

end Sys2Proof.Proofs
end

section
/-! What a charge does to the context that it empties (R425, R426). -/

namespace Sys2Proof.Proofs
open Sys2Proof.Machine Sys2Proof.Safety

/-! ## Every thread of a context -/

theorem mget_mapValues {α : Type} (f : α → α) (m : FMap α) (i : Nat) : mget (m.map fun x => (x.1, f x.2)) i = (mget m i).map f := by
  induction m with
  | nil => rfl
  | cons x m ih =>
    simp only [List.map_cons, mget, ih]
    split <;> rfl

/-- A thread of a core, changed where it belongs to a context and has not exited. -/
def ctxThread (ctx : Nat) (f : Thread → Thread) (core : Core) (t : Thread) : Thread :=
  if live t && ((mget core.blocks t.block).map (·.ctx)) == some ctx then f t else t

theorem keepsKey_ctxThread {f : Thread → Thread} (hf : KeepsKey f) (ctx : Nat) (core : Core) : KeepsKey (ctxThread ctx f core) := by
  intro t
  unfold ctxThread
  split
  · exact hf t
  · exact ⟨rfl, rfl⟩

theorem getThread_modCtxThreads (k : Kern) (c a b ctx : Nat) {f : Thread → Thread} (hf : KeepsKey f) :
    getThread (modCtxThreads k ctx f) c a b = (getThread k c a b).map (ctxThread ctx f (coreOf k c)) := by
  let change (core : Core) : Core := { core with threads := core.threads.map (ctxThread ctx f core) }
  have hmap : mget (modCtxThreads k ctx f).cores c = (mget k.cores c).map change := mget_mapValues change k.cores c
  unfold getThread coreOf
  rw [hmap]
  cases mget k.cores c with
  | none => rfl
  | some core => exact findThread_map _ (keepsKey_ctxThread hf ctx core) _ _ _

/-- A thread that belongs to a context is changed with the others of it. -/
theorem getThread_modCtxThreads_of {k : Kern} {c a b ctx : Nat} {f : Thread → Thread} (hf : KeepsKey f) {t : Thread} {blk : Block}
    (ht : getThread k c a b = some t) (hlive : live t = true) (hb : blockOf k c t.block = some blk) (hctx : blk.ctx = ctx) :
    getThread (modCtxThreads k ctx f) c a b = some (f t) := by
  rw [blockOf] at hb
  rw [getThread_modCtxThreads _ _ _ _ _ hf, ht, Option.map_some, ctxThread, hb]
  simp [hlive, hctx]

/-! ## The budget is spent -/

/-- The state in which a context has spent its budget, before what that does. -/
def spentBudget (k : Kern) (ctx : Nat) : Kern :=
  let k := modCtx (modCtx k ctx fun x => { x with ebudget := 0 }) ctx fun x => { x with armed := false }
  { k with launches := k.launches.map fun p => (p.1, if p.2.ctx == ctx then { p.2 with spent := true } else p.2) }

theorem charge_spends {k : Kern} {ctx units : Nat} (hu : 0 < units) (harmed : (getCtx k ctx).armed = true)
    (hleft : (getCtx k ctx).ebudget ≤ units) :
    charge k ctx units =
      if lacksHandler (spentBudget k ctx) ctx then stopSpent (spentBudget k ctx) ctx else deliverAsync (spentBudget k ctx) ctx true := by
  have h0 : (getCtx k ctx).ebudget - units = 0 := Nat.sub_eq_zero_of_le hleft
  have hu' : (units == 0) = false := beq_false_of_ne (Nat.ne_of_gt hu)
  simp only [charge, chargeBy, hu', h0, harmed, Bool.false_eq_true, if_false, beq_self_eq_true, Bool.and_self, if_true]
  rfl

theorem getCtx_spentBudget (k : Kern) (ctx : Nat) : getCtx (spentBudget k ctx) ctx = { getCtx k ctx with ebudget := 0, armed := false } := by
  let k₁ := modCtx (modCtx k ctx fun x => { x with ebudget := 0 }) ctx fun x => { x with armed := false }
  refine (getCtx_of_ctxs (k := k₁) rfl ctx).trans ?_
  rw [getCtx_modCtx, getCtx_modCtx]

theorem launches_spentBudget (k : Kern) (ctx : Nat) : (spentBudget k ctx).launches =
    k.launches.map fun p => (p.1, if p.2.ctx == ctx then { p.2 with spent := true } else p.2) := rfl

/-- Whether a launch of the context lacks a handler does not turn on what is spent. -/
theorem lacksHandler_spentBudget (k : Kern) (ctx : Nat) : lacksHandler (spentBudget k ctx) ctx = lacksHandler k ctx := by
  have hspent (l : Launch) : (recHandler (if l.ctx == ctx then { l with spent := true } else l)).isNone = (recHandler l).isNone := by
    split <;> rfl
  have hactive (l : Launch) : ((if l.ctx == ctx then { l with spent := true } else l).ctx == ctx &&
      !(if l.ctx == ctx then { l with spent := true } else l).done) = (l.ctx == ctx && !l.done) := by
    split <;> rfl
  simp only [lacksHandler, activeLaunches, launches_spentBudget, List.filter_map, List.any_map, Function.comp_def, hspent, hactive]

theorem spent_spentBudget (k : Kern) (ctx : Nat) : ∀ p ∈ (spentBudget k ctx).launches, p.2.ctx = ctx → p.2.spent = true := by
  intro p hp hctx
  rw [launches_spentBudget] at hp
  obtain ⟨x, -, rfl⟩ := List.mem_map.1 hp
  by_cases h : x.2.ctx = ctx
  · simp [h]
  · simp only [beq_false_of_ne h, Bool.false_eq_true, if_false] at hctx
    exact absurd hctx h

theorem charges : Claims.Charges := by
  intro k ctx units hu
  refine ⟨fun hb => ?_, fun harmed hleft hlacks => ?_, fun harmed hleft hlacks hsome => ?_⟩
  · have hcharge := chargeBy_bears hb fun k ctx => if lacksHandler k ctx then stopSpent k ctx else deliverAsync k ctx true
    rw [if_neg (Nat.ne_of_gt hu)] at hcharge
    exact hcharge
  · rw [charge_spends hu harmed hleft, lacksHandler_spentBudget, hlacks, if_neg Bool.false_ne_true]
    refine ⟨getCtx_spentBudget k ctx, spent_spentBudget k ctx, fun c t b ht hlive hb hctx => ?_, fun v hv hctx t ht => ?_, fun a => rfl⟩
    · exact getThread_modCtxThreads_of (k := spentBudget k ctx) (f := fun t => { t with asyncBudget := true }) (fun _ => ⟨rfl, rfl⟩) ht hlive hb
        hctx
    · obtain ⟨y, -, rfl⟩ := List.mem_map.1 hv
      have hy : y.block.ctx = ctx := by
        by_contra h
        simp only [beq_false_of_ne h, Bool.false_eq_true, if_false] at hctx
        exact h hctx
      simp only [hy, beq_self_eq_true, if_true] at ht
      obtain ⟨u, -, rfl⟩ := List.mem_map.1 ht
      rfl
  · rw [charge_spends hu harmed hleft, lacksHandler_spentBudget, hlacks, if_pos rfl]
    obtain ⟨⟨c, t⟩, hct⟩ := Option.isSome_iff_exists.1 hsome
    have hct' : someThread (spentBudget k ctx) ctx = some (c, t) := hct
    simp only [stopSpent, hct', stopContext_stopped]

end Sys2Proof.Proofs
end

section
/-! The thread of a request parks at its instruction (R272, R273). -/

namespace Sys2Proof.Proofs
open Sys2Proof.Machine Sys2Proof.Safety

/-- A thread that parks at a program counter. -/
def parkedAt (pc : W64) (t : Thread) : Thread := { t with loc := .parked, pc := pc, wait := .none, latch := none }

theorem keepsKey_parkedAt (pc : W64) : KeepsKey (parkedAt pc) := fun _ => ⟨rfl, rfl⟩

/-- The record of a thread that parks. -/
def parkRecord (k : Kern) (c : Nat) (t : Thread) (pc : W64) (faddr sub : Nat) : Park :=
  { id := k.id, pc := pc, faddr := BitVec.ofNat 64 faddr, sub := sub, lane := t.lane, tslot := t.tslot, block := t.block,
    group := t.group, ctx := ctxOf k c t, tstate := t.tstate, cycle := cycleOf k c, handed := false }

theorem coreOf_parkThread {k : Kern} {c : Nat} {t : Thread} {pc : W64} {faddr sub : Nat} (h : recordRoom (coreOf k c) 1 = true) :
    coreOf (parkThread k c t pc faddr sub) c =
      { coreOf k c with
        threads := (coreOf k c).threads.map fun u => if u.tslot == t.tslot && u.lane == t.lane then parkedAt pc u else u,
        parks := (coreOf k c).parks ++ [parkRecord k c t pc faddr sub] } := by
  simp only [parkThread, h, Bool.not_true, Bool.false_eq_true, if_false, coreOf_modCore_same]
  rfl

theorem getThread_parkThread {k : Kern} {c : Nat} {t : Thread} {pc : W64} {faddr sub : Nat} (h : recordRoom (coreOf k c) 1 = true) :
    getThread (parkThread k c t pc faddr sub) c t.tslot t.lane = (getThread k c t.tslot t.lane).map (parkedAt pc) := by
  rw [← getThread_modThis_same k c t (parkedAt pc) (keepsKey_parkedAt pc)]
  simp only [getThread, coreOf_parkThread h, modThis, modThread, coreOf_modCore_same]

theorem stays_tidyPending (c : Nat) (k : Kern) : Stays c k (tidyPending k c) := stays_modCore (fun _ => rfl) fun _ => rfl

theorem stays_sweepEntries (c : Nat) (k : Kern) : Stays c k (sweepEntries k c) := stays_modCore (fun _ => rfl) fun _ => rfl

/-- The core once the entries and the units that hold no thread have gone. -/
theorem coreOf_swept (k : Kern) (c : Nat) : ∃ es ps, coreOf (tidyPending (sweepEntries k c) c) c =
    { coreOf k c with entries := es, pendSince := ps } := by
  apply Exists.intro
  apply Exists.intro
  simp only [tidyPending, sweepEntries, coreOf_modCore_same]
  rfl

/-- A thread whose request is void: nothing is held for it. -/
def voided (q : Req) (t : Thread) : Thread := { t with held := t.held.filter fun h => some h.id != q.held }

theorem keepsKey_voided (q : Req) : KeepsKey (voided q) := fun _ => ⟨rfl, rfl⟩

theorem getThread_voidReq (k : Kern) (c : Nat) (q : Req) :
    getThread (voidReq k c q) c q.tslot q.lane = (getThread k c q.tslot q.lane).map (voided q) := by
  have h := getThread_modThread (dropReq k c q.id) c q.tslot q.lane q.tslot q.lane (voided q) (keepsKey_voided q)
  rw [if_pos ⟨rfl, rfl⟩] at h
  refine h.trans ?_
  simp only [getThread, dropReq, coreOf_modCore_same]

theorem voidReq_gone (k : Kern) (c : Nat) (q : Req) : ∀ y ∈ (coreOf (voidReq k c q) c).reqs, y.id ≠ q.id := by
  intro y hy
  simp only [voidReq, modThread, dropReq, coreOf_modCore_same] at hy
  simpa using (List.mem_filter.1 hy).2

theorem keepsKey_uncountIssue : KeepsKey uncountIssue := fun _ => ⟨rfl, rfl⟩

/-- A request whose address is not placed parks its thread with a record of the address. -/
theorem parkReq_parks {k : Kern} {c : Nat} {q : Req} {t : Thread} (faddr sub : Nat) (ht : getThread k c q.tslot q.lane = some t)
    (hroom : recordRoom (coreOf k c) 1 = true) : ∃ r,
      getThread (parkReq k c q faddr sub) c q.tslot q.lane = some (parkedAt q.pc (uncountIssue (voided q t))) ∧
      (coreOf (parkReq k c q faddr sub) c).parks = (coreOf k c).parks ++ [r] ∧ r.pc = q.pc ∧ r.faddr = BitVec.ofNat 64 faddr ∧
      r.sub = sub ∧ r.tslot = q.tslot ∧ r.lane = q.lane ∧ ∀ y ∈ (coreOf (parkReq k c q faddr sub) c).reqs, y.id ≠ q.id := by
  obtain ⟨h1, h2⟩ := getThread_key ht
  let k₁ := modThis (voidReq k c q) c t uncountIssue
  have hcore : coreOf k₁ c = { coreOf (voidReq k c q) c with threads := (coreOf k₁ c).threads } := by
    simp only [k₁, modThis, modThread, coreOf_modCore_same]
  have hparks : (coreOf k₁ c).parks = (coreOf k c).parks := by
    rw [hcore]
    simp only [voidReq, modThread, dropReq, coreOf_modCore_same]
  have hroom₁ : recordRoom (coreOf k₁ c) 1 = true := by rwa [recordRoom, hparks]
  have hthread : getThread k₁ c t.tslot t.lane = some (uncountIssue (voided q t)) := by
    rw [getThread_modThis_same _ _ _ _ keepsKey_uncountIssue, h1, h2, getThread_voidReq, ht]; rfl
  let k₂ := parkThread k₁ c t q.pc faddr sub
  have hpark : coreOf k₂ c = _ := coreOf_parkThread hroom₁
  have hparked : getThread k₂ c t.tslot t.lane = some (parkedAt q.pc (uncountIssue (voided q t))) := by
    rw [getThread_parkThread hroom₁, hthread]; rfl
  have hreq : parkReq k c q faddr sub = tidyPending (sweepEntries k₂ c) c := by
    unfold parkReq
    rw [ht]
  obtain ⟨es, ps, hswept⟩ := coreOf_swept k₂ c
  have hstays := (stays_sweepEntries c k₂).trans (stays_tidyPending c _)
  refine ⟨parkRecord k₁ c t q.pc faddr sub, ?_, ?_, rfl, rfl, rfl, h1, h2, ?_⟩
  · rw [hreq, hstays.getThread, ← h1, ← h2, hparked]
  · rw [hreq, hswept, hpark, ← hparks]
  · rw [hreq, hswept, hpark, hcore]
    exact voidReq_gone k c q

end Sys2Proof.Proofs
end

section
/-! A thread takes a trap outside an issue (R235). -/

namespace Sys2Proof.Proofs
open Sys2Proof.Machine Sys2Proof.Safety

theorem pairtOf_lt (k : Kern) (c : Nat) (l : Launch) (pc : Nat) : pairtOf k c l pc < 2 ^ 12 := by
  unfold pairtOf
  split
  · cases seeLine k c l (pcLine pc) with
    | none => simp
    | some b => exact Nat.mod_lt _ (by decide)
  · decide

/-- A register of the trap record, once the thread stands at its handler. -/
theorem getD_enterHandler {t : Thread} {r : List W32} {cause h i : Nat} (hr : r.length = 4) (hi : i < 4) :
    ownReg (enterHandler t r cause h).regs (.k i) = r.getD i 0 := by
  simp only [ownReg, enterHandler]
  rw [List.getD_append _ _ _ _ (by omega)]

/-- A thread in whose trap registers a trap record stands has recorded the trap. -/
theorem recorded_of {k : Kern} {c : Nat} {t : Thread} {pairt cause sub : Nat} {saved : W64} {fault : Nat} (hp : pairt < 2 ^ 12)
    (hcause : cause < 256) (hsub : sub < 16)
    (h : ∀ i, i < 4 → seeReg k c t (.k i) = (trapRecord pairt cause sub false saved (BitVec.ofNat 64 fault)).getD i 0) :
    Recorded k c t pairt cause sub false saved.toNat fault := by
  refine ⟨?_, ?_, ?_, ?_⟩
  · rw [h 0 (by omega)]; rfl
  · rw [h 1 (by omega)]
    simp only [trapRecord, List.getD_cons_succ, List.getD_cons_zero, Nat.mod_eq_of_lt hp, Nat.mod_eq_of_lt hsub, Nat.mod_eq_of_lt hcause]
    rfl
  · rw [h 2 (by omega)]
    simp only [trapRecord, List.getD_cons_succ, List.getD_cons_zero]
    refine BitVec.eq_of_toNat_eq ?_
    simp only [BitVec.toNat_ofNat]
    omega
  · rw [h 3 (by omega)]
    simp only [trapRecord, List.getD_cons_succ, List.getD_cons_zero]
    refine BitVec.eq_of_toNat_eq ?_
    simp only [BitVec.toNat_ofNat]
    omega

/-- A thread that can take a trap takes it: its record stands in k0 to k3, and the thread is at its handler. -/
theorem takeTrap_takes {k : Kern} {c : Nat} {t : Thread} {l : Launch} {h : Nat} (hh : Handles k c t l h) {cause sub : Nat} (saved : W64)
    (fault : Nat) (hcause : cause < 256) (hsub : sub < 16) :
    Recorded (takeTrap k c t cause sub saved (BitVec.ofNat 64 fault) false) c t (pairtOf k c l saved.toNat) cause sub false saved.toNat fault ∧
      StandsAt (takeTrap k c t cause sub saved (BitVec.ofNat 64 fault) false) c t h ∧
      Within c (fun a b => a == t.tslot && b == t.lane) k (takeTrap k c t cause sub saved (BitVec.ofNat 64 fault) false) := by
  obtain ⟨ht, hl, hhandler, hstate, hheld⟩ := hh
  have hentry := trapEntry_takes ht hl hhandler hstate hheld cause sub saved (BitVec.ofNat 64 fault)
  let rec_ := trapRecord (pairtOf k c l saved.toNat) cause sub false saved (BitVec.ofNat 64 fault)
  let k₂ := modThis (closeWindows k c t) c t fun u => enterHandler u rec_ cause h
  have htake : takeTrap k c t cause sub saved (BitVec.ofNat 64 fault) false = moveThreads k₂ c [moverOf k₂ c t h] := by
    rw [takeTrap, hentry]
  have h2 : getThread k₂ c t.tslot t.lane = some (enterHandler (flushed (fun y => decide (0 < y.window)) t) rec_ cause h) := by
    rw [getThread_modThis_same _ _ _ _ (keepsKey_enter _ _ _), closeWindows, getThread_releaseScalars, getThread_flushHeld_same, ht]
    rfl
  obtain ⟨loc, hloc, h3⟩ := getThread_moveThreads k₂ c t.tslot t.lane h [moverOf k₂ c t h]
    (fun m hm _ => by rw [List.mem_singleton.mp hm]; rfl)
  have hany : ([moverOf k₂ c t h].any fun m => m.is t.tslot t.lane) = true := by simp [moverOf, Mover.is]
  rw [h2] at h3
  simp only [hany, if_true, Option.map_some] at h3
  rw [htake]
  refine ⟨recorded_of (pairtOf_lt ..) hcause hsub fun i hi => ?_, ⟨_, h3, rfl, hloc⟩, ?_⟩
  · rw [seeReg_own h3 (by simp)]
    exact getD_enterHandler (cause := cause) (h := h) rfl hi
  · exact (((within_flushHeld _ t _ (keys_self t)).trans (within_releaseScalars _ t _)).trans
      (within_modThis _ t _ (keepsKey_enter _ _ _) (keys_self t))).trans
        (within_moveThreads _ _ fun m hm => by rw [List.mem_singleton.mp hm]; exact keys_self t)

theorem takeTrap_key {t u : Thread} (h : t.tslot = u.tslot ∧ t.lane = u.lane) {k : Kern} {c : Nat} (hu : getThread k c u.tslot u.lane = some u)
    (cause sub : Nat) (saved fault : W64) (async : Bool) :
    takeTrap k c t cause sub saved fault async = takeTrap k c u cause sub saved fault async := by
  have hn : nowThread k c t = nowThread k c u := by simp only [nowThread, h.1, h.2, hu, Option.getD_some]
  simp only [takeTrap, trapEntry, hn]

/-- A state that a thread takes a trap in as in another: the core has the same threads, blocks and lines, and memory is read alike. -/
structure TrapsAlike (c : Nat) (k k' : Kern) : Prop where
  stays : Stays c k k'
  launches : k'.launches = k.launches
  pairt : ∀ l pc, pairtOf k' c l pc = pairtOf k c l pc

theorem trapsAlike_refl (c : Nat) (k : Kern) : TrapsAlike c k k := ⟨stays_refl c k, rfl, fun _ _ => rfl⟩

theorem TrapsAlike.trans {c : Nat} {k k' k'' : Kern} (h : TrapsAlike c k k') (h' : TrapsAlike c k' k'') : TrapsAlike c k k'' :=
  ⟨h.stays.trans h'.stays, h'.launches.trans h.launches, fun l pc => (h'.pairt l pc).trans (h.pairt l pc)⟩

theorem TrapsAlike.threadLaunch {c : Nat} {k k' : Kern} (h : TrapsAlike c k k') (t : Thread) : threadLaunch k' c t = threadLaunch k c t := by
  simp only [Machine.threadLaunch, h.stays.blockOf, launchOf, h.launches]

theorem TrapsAlike.handles {c : Nat} {k k' : Kern} (h : TrapsAlike c k k') {t : Thread} {l : Launch} {n : Nat} (hh : Handles k c t l n) :
    Handles k' c t l n := by
  obtain ⟨ht, hl, hn, hs, ha⟩ := hh
  exact ⟨(h.stays.getThread ..).trans ht, (h.threadLaunch t).trans hl, hn, hs, (awaitsHeld_of_threads h.stays.threads t).trans ha⟩

theorem Charged.trapsAlike {k k' : Kern} (h : Charged k k') (c : Nat) : TrapsAlike c k k' :=
  ⟨stays_of_core (h.coreOf c), h.launches, h.pairtOf c⟩

/-- A change of what a core holds beside its threads, blocks and lines. -/
theorem trapsAlike_core {c : Nat} {k k' : Kern} (hk : k' = { k with cores := k'.cores }) (hs : Stays c k k')
    (hl : (coreOf k' c).lines = (coreOf k c).lines) : TrapsAlike c k k' := by
  obtain ⟨cs, rfl⟩ : ∃ cs, k' = { k with cores := cs } := ⟨_, hk⟩
  refine ⟨hs, rfl, fun l pc => ?_⟩
  have hi : lineInside ({ k with cores := cs } : Kern) l (pcLine pc) = lineInside k l (pcLine pc) := rfl
  have hr : readLine ({ k with cores := cs } : Kern) l (pcLine pc) = readLine k l (pcLine pc) := rfl
  simp only [pairtOf, hi, seeLine, bufferedLine, hl, hr]

theorem PortOpened.trapsAlike {c : Nat} {k k' : Kern} (h : PortOpened c k k') : TrapsAlike c k k' :=
  trapsAlike_core h.shared h.stays (by rw [h.core])

theorem trapsAlike_acquiredLoad (c : Nat) (k : Kern) (q : Req) : TrapsAlike c k (acquiredLoad k c q) := by
  refine trapsAlike_core (shared_acquiredLoad ..) (stays_acquiredLoad ..) ?_
  unfold acquiredLoad
  split
  · simp only [dropLines, coreOf_modCore_same]
  · rfl

theorem stays_voidReq {c : Nat} {k k' : Kern} (h : Stays c k k') (q : Req) : Stays c (voidReq k c q) (voidReq k' c q) := by
  constructor
  · simp only [voidReq, modThread, dropReq, coreOf_modCore_same, h.threads]
  · simp only [voidReq, modThread, dropReq, coreOf_modCore_same, h.blocks]

theorem pairtOf_voidReq (k : Kern) (c : Nat) (q : Req) (l : Launch) (pc : Nat) : pairtOf (voidReq k c q) c l pc = pairtOf k c l pc := by
  have hl : (coreOf (voidReq k c q) c).lines = (coreOf k c).lines := by simp only [voidReq, modThread, dropReq, coreOf_modCore_same]
  have hi : lineInside (voidReq k c q) l (pcLine pc) = lineInside k l (pcLine pc) := rfl
  have hr : readLine (voidReq k c q) l (pcLine pc) = readLine k l (pcLine pc) := rfl
  simp only [pairtOf, hi, seeLine, bufferedLine, hl, hr]

/-- Requests void in states that take traps alike leave such states. -/
theorem TrapsAlike.voidReq {c : Nat} {k k' : Kern} (h : TrapsAlike c k k') (q : Req) :
    TrapsAlike c (Machine.voidReq k c q) (Machine.voidReq k' c q) :=
  ⟨stays_voidReq h.stays q, h.launches, fun l pc => by rw [pairtOf_voidReq, pairtOf_voidReq, h.pairt]⟩

theorem withdrawWait_none {k : Kern} {c : Nat} {t : Thread} (hw : t.wait = .none)
    (hloc : (∃ e, t.loc = .entry e) ∨ ∃ n, t.loc = .pending n) : withdrawWait k c t = some (k, t.pc) := by
  unfold withdrawWait
  rcases hloc with ⟨e, h⟩ | ⟨n, h⟩ <;> simp only [h, hw]

theorem keepsKey_noWait : KeepsKey fun u : Thread => { u with wait := .none } := fun _ => ⟨rfl, rfl⟩

/-- A thread that waits for nothing is left as it is where its wait ends. -/
theorem trapsAlike_noWait {k : Kern} {c : Nat} {t u : Thread} (hkey : u.tslot = t.tslot ∧ u.lane = t.lane) {l : Launch} {h : Nat}
    (hh : Handles k c t l h) (hw : t.wait = .none) : Handles (modThis k c u fun u => { u with wait := .none }) c t l h ∧
      ∀ l pc, pairtOf (modThis k c u fun u => { u with wait := .none }) c l pc = pairtOf k c l pc := by
  obtain ⟨ht, hl, hn, hs, ha⟩ := hh
  have hwithin : Within c (fun _ _ => true) k (modThis k c u fun u => { u with wait := .none }) :=
    within_modThis k u _ keepsKey_noWait rfl
  refine ⟨⟨?_, (threadLaunch_within hwithin t).trans hl, hn, hs, ?_⟩, pairtOf_within hwithin⟩
  · rw [← hkey.1, ← hkey.2] at ht ⊢
    rw [getThread_modThis_same _ _ _ _ keepsKey_noWait, ht, Option.map_some, ← hw]
  · refine Eq.trans ?_ ha
    simp only [awaitsHeld, modThis, scalarResults_modThread _ _ _ _ (fun u => { u with wait := .none }) _ _ fun _ => ⟨rfl, rfl, rfl⟩]

theorem mem_of_within {c : Nat} {keys : Nat → Nat → Bool} {k k' : Kern} (h : Within c keys k k') : k'.mem = k.mem := by rw [h.shared]

/-- A request that fails traps its thread at its instruction. -/
theorem failReq_traps {k : Kern} {c : Nat} {q : Req} {t : Thread} {l : Launch} {h : Nat} (hh : Handles (voidReq k c q) c t l h)
    (hslot : t.tslot = q.tslot) (hlane : t.lane = q.lane) (hw : t.wait = .none)
    (hloc : (∃ e, t.loc = .entry e) ∨ ∃ n, t.loc = .pending n) {k' : Kern} (hk : TrapsAlike c k k') {cause : Nat} (fault : Nat)
    (hcause : cause < 256) :
    Recorded (failReq k' c q cause fault) c t (pairtOf k c l q.pc.toNat) cause 0 false q.pc.toNat fault ∧
      StandsAt (failReq k' c q cause fault) c t h ∧ (∀ y ∈ (coreOf (failReq k' c q cause fault) c).reqs, y.id ≠ q.id) ∧
      (failReq k' c q cause fault).ctxs = k'.ctxs ∧ (failReq k' c q cause fault).mem = k'.mem := by
  have hvoid : Handles (voidReq k' c q) c t l h := (hk.voidReq q).handles hh
  obtain ⟨u, hu, hut⟩ : ∃ u, getThread k' c q.tslot q.lane = some u ∧ voided q u = t := by
    have h1 := hvoid.1
    rw [hslot, hlane, getThread_voidReq] at h1
    exact Option.map_eq_some_iff.1 h1
  have huloc : u.loc = t.loc := by rw [← hut]; rfl
  have huwait : u.wait = t.wait := by rw [← hut]; rfl
  have hkey : u.tslot = t.tslot ∧ u.lane = t.lane := by rw [← hut]; exact ⟨rfl, rfl⟩
  have hlive : (!live u || u.loc == .down) = false := by
    rcases hloc with ⟨e, he⟩ | ⟨n, he⟩ <;> simp [live, huloc, he]
  obtain ⟨hhandles, hpairt⟩ := trapsAlike_noWait hkey hvoid hw
  have hreq : failReq k' c q cause fault =
      takeTrap (modThis (voidReq k' c q) c u fun u => { u with wait := .none }) c t cause 0 q.pc (BitVec.ofNat 64 fault) false := by
    unfold failReq
    simp only [hu, hlive, Bool.false_eq_true, if_false, withdrawWait_none (huwait.trans hw) (huloc ▸ hloc)]
    exact takeTrap_key hkey hhandles.1 ..
  obtain ⟨hrec, hstands, hwithin⟩ := takeTrap_takes hhandles q.pc fault hcause (sub := 0) (by decide)
  rw [hpairt, pairtOf_voidReq, hk.pairt] at hrec
  rw [hreq]
  refine ⟨hrec, hstands, ?_, (ctxs_within hwithin).trans rfl, (mem_of_within hwithin).trans rfl⟩
  rw [hwithin.core, (within_modThis (keys := fun _ _ => true) (voidReq k' c q) u _ keepsKey_noWait rfl).core]
  exact voidReq_gone k' c q

end Sys2Proof.Proofs
end

section
/-! Local requests that meet errors (R152, R272, R273, R425, R429). -/

namespace Sys2Proof.Proofs
open Sys2Proof.Machine Sys2Proof.Safety

/-! ## An N kernel reads ones (R152) -/

theorem unitHits_eq_nil {α : Type} (size : Nat → Nat) (rs : List (Nat × Nat)) (off : Nat) (m : FMap α) :
    unitHits size rs off m = [] ↔ ∀ r ∈ rs, ∀ p ∈ m, ¬(p.1 < r.1 + r.2 ∧ r.1 < p.1 + size p.1) := by
  induction rs generalizing off with
  | nil => simp [unitHits]
  | cons r rs ih =>
    rw [unitHits, List.append_eq_nil_iff, List.filterMap_eq_nil_iff, ih, List.forall_mem_cons]
    refine and_congr_left fun _ => forall₂_congr fun p _ => ?_
    by_cases h : p.1 < r.1 + r.2 ∧ r.1 < p.1 + size p.1 <;> simp [h]

theorem poisonHits_single_none {k : Kern} {rs : List (Nat × Nat)} (h : poisonHits k rs = []) {r : Nat × Nat} (hr : r ∈ rs) :
    poisonHits k [r] = [] := by
  simp only [poisonHits, unitHits_eq_nil, List.forall_mem_singleton] at h ⊢
  exact h r hr

/-- Where nothing is poisoned the bytes are those of memory. -/
theorem onesWherePoison_clean {k : Kern} {rs : List (Nat × Nat)} (h : poisonHits k rs = []) : onesWherePoison k rs = getRuns k rs := by
  refine congrArg List.flatten (List.map_congr_left fun r hr => ?_)
  rw [getBytes, readMem_eq_map]
  refine List.map_congr_left fun i hi => ?_
  rw [poisonAt_none_of_poisonHits (poisonHits_single_none h hr) (List.mem_range.mp hi)]
  rfl

/-- What a context is charged for what it reads. -/
def chargedRead (k : Kern) (ctx : Nat) (rs : List (Nat × Nat)) : Kern :=
  charge (countMended k (softAt k rs)) ctx (poisonCharge (poisonHits k rs) + softHits k rs)

/-- The state in which an N kernel has read runs. -/
def readByN (k : Kern) (ctx : Nat) (rs : List (Nat × Nat)) : Kern :=
  if poisonHits k rs = [] then chargedRead k ctx rs else countPoison (chargedRead k ctx rs) ctx (poisonHits k rs).length

theorem readTrap_n (k : Kern) (ctx : Nat) (rs : List (Nat × Nat)) : readTrap k ctx 2 rs = (readByN k ctx rs, .ok (onesWherePoison k rs)) := by
  unfold readTrap readRuns readByN chargedRead
  cases h : poisonHits k rs with
  | nil => simp only [if_true, onesWherePoison_clean h]
  | cons y ys => simp

theorem readTrap_poisoned {k : Kern} {ctx cls : Nat} {rs : List (Nat × Nat)} {p : Nat × Poison} {ps : List (Nat × Poison)}
    (h : poisonHits k rs = p :: ps) (hcls : cls ≠ 2) : readTrap k ctx cls rs = (chargedLate k ctx rs, .error p) := by
  simp only [readTrap, chargedLate, h, beq_iff_eq, hcls, if_false]

section ReadByN

variable {k : Kern} {ctx : Nat} {rs : List (Nat × Nat)} (h : Bears k ctx (poisonCharge (poisonHits k rs) + softHits k rs))
include h

theorem charged_chargedRead : Charged k (chargedRead k ctx rs) :=
  (charged_countMended k (softAt k rs)).trans (charged_chargeBy (bears_countMended h (softAt k rs))
    fun k ctx => if lacksHandler k ctx then stopSpent k ctx else deliverAsync k ctx true)

theorem charged_readByN : Charged k (readByN k ctx rs) := by
  unfold readByN
  split
  · exact charged_chargedRead h
  · let count (x : Ctx) : Ctx := { x with poisons := x.poisons + (poisonHits k rs).length }
    exact (charged_chargedRead h).trans (charged_modCtx _ ctx count fun _ => rfl)

theorem ebudget_readByN : (getCtx (readByN k ctx rs) ctx).ebudget =
    (getCtx k ctx).ebudget - (poisonCharge (poisonHits k rs) + softHits k rs) := by
  have hcharge : (getCtx (chargedRead k ctx rs) ctx).ebudget = (getCtx k ctx).ebudget - (poisonCharge (poisonHits k rs) + softHits k rs) := by
    rw [chargedRead, charge, ebudget_chargeBy (bears_countMended h _), getCtx_of_ctxs (countMended_ctxs ..)]
  unfold readByN
  split
  · exact hcharge
  · rw [countPoison, getCtx_modCtx]
    exact hcharge

end ReadByN

theorem poisons_chargeBy {k : Kern} {ctx units : Nat} (h : Bears k ctx units) (spent : Kern → Nat → Kern) :
    (getCtx (chargeBy spent k ctx units) ctx).poisons = (getCtx k ctx).poisons := by
  rw [chargeBy_bears h]
  split
  · rfl
  · rw [getCtx_modCtx]

theorem poisons_readByN {k : Kern} {ctx : Nat} {rs : List (Nat × Nat)}
    (h : Bears k ctx (poisonCharge (poisonHits k rs) + softHits k rs)) :
    (getCtx (readByN k ctx rs) ctx).poisons = (getCtx k ctx).poisons + (poisonHits k rs).length := by
  have hcharge : (getCtx (chargedRead k ctx rs) ctx).poisons = (getCtx k ctx).poisons := by
    rw [chargedRead, charge, poisons_chargeBy (bears_countMended h _), getCtx_of_ctxs (countMended_ctxs ..)]
  unfold readByN
  split
  next hnone => rw [hcharge, hnone]; rfl
  · rw [countPoison, getCtx_modCtx, hcharge]

/-! ## Requests that fail -/

/-- A state with other cores, which reads memory and charges contexts alike. -/
theorem reads_alike {k k' : Kern} (hk : k' = { k with cores := k'.cores }) (rs : List (Nat × Nat)) :
    poisonHits k' rs = poisonHits k rs ∧ softHits k' rs = softHits k rs ∧ k'.ctxs = k.ctxs := by
  rw [hk]; exact ⟨rfl, rfl, rfl⟩

/-- A load or an atomic that meets poison in a P or D kernel is charged, and fails. -/
theorem performReq_poisoned {k : Kern} {c cls : Nat} {q : Req} {rs : List (Nat × Nat)} {p : Nat × Poison} {ps : List (Nat × Poison)}
    (hp : poisonHits k rs = p :: ps) (hcls : cls ≠ 2)
    (hk : (q.kind = .load ∧ ((q.acq && wideScope q.sc) = true ∨
        cachedLine (coreOf k c) q.ctx (capObj q.cap.toNat) (q.ea / 64) = none)) ∨
      (q.kind = .cas ∧ rs.length = 1) ∨ (∃ op, q.kind = .atom op ∧ rs.length = 1)) :
    ∃ k₁, performReq k c cls q rs = (chargedLate k₁ q.ctx rs, .error p) ∧ k₁ = { k with cores := k₁.cores } ∧ TrapsAlike c k k₁ := by
  have hatomic (hother : q.kind = .cas ∨ ∃ op, q.kind = .atom op) (hone : rs.length = 1) :
      performReq k c cls q rs = (chargedLate k q.ctx rs, .error p) := by
    obtain ⟨r, rfl⟩ := List.length_eq_one_iff.1 hone
    have hread := readTrap_poisoned (ctx := q.ctx) hp hcls
    rcases hother with hq | ⟨op, hq⟩ <;> simp only [performReq, hq, performAtomic, hread]
  rcases hk with ⟨hq, hmiss⟩ | ⟨hq, hone⟩ | ⟨op, hq, hone⟩
  · have hshared := shared_acquiredLoad k c q
    have hp₁ : poisonHits (acquiredLoad k c q) rs = p :: ps := by rw [hshared]; exact hp
    exact ⟨_, performLoad_poison hq hmiss (readTrap_poisoned hp₁ hcls), hshared, trapsAlike_acquiredLoad c k q⟩
  · exact ⟨k, hatomic (.inl hq) hone, rfl, trapsAlike_refl c k⟩
  · exact ⟨k, hatomic (.inr ⟨op, hq⟩) hone, rfl, trapsAlike_refl c k⟩

theorem finishReq_ctxs (k : Kern) (c : Nat) (q : Req) (bs : List Byte) : (finishReq k c q bs).ctxs = k.ctxs := by
  unfold finishReq
  dsimp only
  split
  next h t _ _ => exact (ctxs_within (within_arriveHeld (keys := fun _ _ => true) _ t h _ _ rfl)).trans rfl
  · rfl

theorem localStops : Claims.LocalStops := by
  intro s c q hfind hlocal hlets
  have hexec := exec_accessReply_local hfind hlocal
  have hop := portOpened_openPort s.kern c
  refine ⟨fun rs p ps t l h hr hp hcls hfirm hk hbears hh hslot hlane hw hloc => ?_,
    fun rs hk hr hcls hna hmiss hbears => ?_, fun e t he hna ht hroom => ?_⟩
  · have hstall : stallsFill s.kern c q = false := by
      rcases hk with ⟨-, hna, -⟩ | ⟨hq, -⟩ | ⟨op, hq, -⟩
      · exact stallsFill_awake hna
      · exact stallsFill_other (by simp [hq])
      · exact stallsFill_other (by simp [hq])
    have hp' : poisonHits (openPort s.kern c) rs = p :: ps := by rw [hop.shared]; exact hp
    obtain ⟨k₁, hperf, hshared, halike⟩ := performReq_poisoned (c := c) (q := q) hp' hcls <| hk.imp_left fun ⟨hq, _, hmiss⟩ =>
      ⟨hq, hmiss.imp_right fun h => (hop.cachedLine ..).trans h⟩
    have hsettled : performSettled (openPort s.kern c) c (serialClass s.kern q.serial) q rs = (chargedLate k₁ q.ctx rs, .error p) := by
      rw [performSettled, hfirm, Bool.false_and, if_neg Bool.false_ne_true, hperf]
    obtain ⟨hhits, hsofts, hctxs⟩ := reads_alike (k := s.kern) (k' := k₁) (by rw [hshared, hop.shared]) rs
    have hb : Bears k₁ q.ctx (poisonCharge (poisonHits k₁ rs) + softHits k₁ rs) := by
      rw [hhits, hsofts, hp, Bears, getCtx_of_ctxs hctxs]
      exact hbears
    have hcharged := charged_chargedLate hb
    have hall := (hop.trapsAlike.trans halike).trans (hcharged.trapsAlike c)
    obtain ⟨hrec, hstands, hgone, hctx, hmem⟩ := failReq_traps hh hslot hlane hw hloc hall (capForm q.cap.toNat (q.ea + p.1))
      (poisonCause_bounds (serialClass s.kern q.serial) p.2).1
    rw [localReply_fails hfind hlets hstall hr hsettled] at hexec
    refine ⟨_, hexec, rfl, hgone, hrec, hstands, ?_, seeByte_of_mem ?_⟩
    · rw [getCtx_of_ctxs hctx, ebudget_chargedLate hb, getCtx_of_ctxs hctxs, hhits, hsofts, hp]
    · refine hmem.trans (hcharged.mem.trans ?_)
      rw [hshared, hop.shared]
  · let k₁ := acquiredLoad (openPort s.kern c) c q
    have hshared : k₁ = { openPort s.kern c with cores := k₁.cores } := shared_acquiredLoad (openPort s.kern c) c q
    obtain ⟨hhits, hsofts, hctxs⟩ := reads_alike (k := s.kern) (k' := k₁) (by rw [hshared, hop.shared]) rs
    have hones : onesWherePoison k₁ rs = onesWherePoison s.kern rs := by rw [hshared, hop.shared]; rfl
    have hb : Bears k₁ q.ctx (poisonCharge (poisonHits k₁ rs) + softHits k₁ rs) := by
      rw [hhits, hsofts, Bears, getCtx_of_ctxs hctxs]
      exact hbears
    have hcharged := charged_readByN hb
    obtain ⟨k₂, hperf, hstays, hmem, hctx⟩ := performLoad_miss (k := openPort s.kern c) (cls := 2) hk
      (hmiss.imp_right fun h => (hop.cachedLine ..).trans h) (readTrap_n k₁ q.ctx rs)
    have hsettled : performSettled (openPort s.kern c) c (serialClass s.kern q.serial) q rs = (k₂, .ok (onesWherePoison k₁ rs)) := by
      rw [performSettled, hcls, ← hperf]
      simp
    have hfinal : Stays c s.kern k₂ :=
      ((hop.stays.trans (stays_acquiredLoad _ c q)).trans (stays_of_core (hcharged.coreOf c))).trans hstays
    rw [localReply_answers hfind hlets (stallsFill_awake hna) hr hsettled, hones] at hexec
    have hctxs₂ : (finishReq k₂ c q (onesWherePoison s.kern rs)).ctxs = (readByN k₁ q.ctx rs).ctxs := (finishReq_ctxs ..).trans hctx
    refine ⟨_, hexec, rfl, finishReq_gone _ _ _ _, arrives_finishReq q _ hfinal, ?_, ?_, seeByte_of_mem ?_⟩
    · rw [getCtx_of_ctxs hctxs₂, ebudget_readByN hb, getCtx_of_ctxs hctxs, hhits, hsofts]
    · rw [getCtx_of_ctxs hctxs₂, poisons_readByN hb, getCtx_of_ctxs hctxs, hhits]
    · refine (finishReq_mem ..).trans (hmem.trans (hcharged.mem.trans ?_))
      rw [hshared, hop.shared]
  · rw [localReply_parks hfind hlets (stallsFill_awake hna) he] at hexec
    have ht' : getThread (openPort s.kern c) c q.tslot q.lane = some t := (hop.stays.getThread ..).trans ht
    have hparks : (coreOf (openPort s.kern c) c).parks = (coreOf s.kern c).parks := by rw [hop.core]
    have hroom' : recordRoom (coreOf (openPort s.kern c) c) 1 = true := by rwa [recordRoom, hparks]
    obtain ⟨r, hthread, hrecords, hpc, hfaddr, hsub, hslot, hlane, hgone⟩ := parkReq_parks e.1 e.2 ht' hroom'
    exact ⟨_, _, r, hexec, rfl, hgone, hthread, rfl, hrecords.trans (by rw [hparks]), hpc, hfaddr, hsub, hslot, hlane,
      seeByte_of_mem ((parkReq_mem ..).trans hop.mem)⟩

/-- Settles O35: a local request is performed once the port has let it out, and its outcome decides between an answer, a trap and
a park. -/
theorem localAccesses : Obligations.LocalAccesses := ⟨localAnswers, localStops, charges⟩

end Sys2Proof.Proofs
end

section
/-! Requests that come from other devices (R188, R334, R388 to R392). -/

namespace Sys2Proof.Proofs
open Sys2Proof.Machine Sys2Proof.Safety

/-! ## The write-combining buffer (R154) -/

theorem onlyCore_modCore {k k' : Kern} {c : Nat} (f : Core → Core) (h : k' = modCore k c f) : OnlyCore k k' c := by
  subst h
  exact ⟨rfl, fun _ hd => coreOf_modCore_other k f hd⟩

theorem wcAgeing (s : State) (c n : Nat) : ∃ s', exec (.wcAgeingExpiry c n) s = .next s' ∧ OnlyKern s s' ∧ OnlyCore s.kern s'.kern c ∧
    (coreOf s'.kern c).wc = (coreOf s.kern c).wc.map fun e =>
      if e.id = n ∧ e.opened + e.limit ≤ s.kern.net then { e with draining := true } else e := by
  refine ⟨_, rfl, rfl, ?_, ?_⟩
  · exact onlyCore_modCore (fun core => { core with wc := core.wc.map fun e =>
      if e.id == n && e.opened + e.limit ≤ s.kern.net then { e with draining := true } else e }) rfl
  · simp only [drainWhere, coreOf_modCore_same, Bool.and_eq_true, beq_iff_eq, decide_eq_true_eq]

theorem wcDrained {s : State} {c n : Nat} {p : FabPacket} (hp : s.fab.arrived.find? (fun p => drainAnswer c n p.load) = some p) :
    ∃ s', exec (.wcDrainPerformed c n) s = .next s' ∧ s' = { s with kern := s'.kern, fab := s'.fab } ∧
      OnlyCore s.kern s'.kern c ∧ (coreOf s'.kern c).wc = (coreOf s.kern c).wc.filter (fun e => e.id != n) ∧
      s'.fab = { s.fab with arrived := s.fab.arrived.filter fun x => x.id != p.id } := by
  let k := modCore s.kern c fun x => { x with wc := x.wc.filter fun e => e.id != n }
  refine ⟨{ s with kern := k, fab := { s.fab with arrived := s.fab.arrived.filter fun x => x.id != p.id } }, ?_, rfl,
    onlyCore_modCore (fun x => { x with wc := x.wc.filter fun e => e.id != n }) rfl, ?_, rfl⟩
  · change execWcDrainPerformed c n s = _
    unfold execWcDrainPerformed
    rw [hp]
    rfl
  · simp only [k, coreOf_modCore_same]

/-! ## A request at its home -/

/-- A packet is sent: it is the last of those in flight. -/
theorem sendPacket_sends (s : State) (dst lane : Nat) (cls : TrafficClass) (load : Payload) :
    ∃ x : FabPacket, x.dst = dst ∧ x.lane = lane ∧ x.cls = cls ∧ x.load = load ∧
      (sendPacket s dst lane cls load).fab.packets = s.fab.packets ++ [x] ∧
      (sendPacket s dst lane cls load).fab.arrived = s.fab.arrived ∧
      (sendPacket s dst lane cls load).fab.forwarded = s.fab.forwarded := by
  let x := streamOf s.fab s.fab.dev dst lane cls
  refine ⟨{ id := s.kern.id, src := s.fab.dev, dst := dst, lane := lane, cls := cls, eseq := x.sendNext,
            plane := lanePlane s dst lane, sentAt := s.pwr.usec, firstAt := s.pwr.usec, load := load }, rfl, rfl, rfl, rfl, ?_, ?_, ?_⟩ <;>
  · unfold sendPacket
    dsimp only
    rw [putStream_eq]

theorem takeArrived_gone (s : State) (id : Nat) : ∀ y ∈ (takeArrived s id).fab.arrived, y.id ≠ id := fun y hy => by
  simpa using (List.mem_filter.1 hy).2

/-! ## What an access does at its home -/

section Accesses

variable {k : Kern} {ctx cap req c : Nat} {kind : ReqKind} {ty : Ty} {data cmp size cls : Nat} {rs : List (Nat × Nat)}

theorem serveAccess_store : serveAccess k ctx cap req c .store ty data cmp size cls rs =
    (putRuns k rs (bytesOfNat size data), .reply req c 0 0 0) := rfl

theorem serveAccess_poisoned {h : Nat × Poison} {hs : List (Nat × Poison)} (hp : poisonHits k rs = h :: hs) (hk : kind ≠ .store)
    (hcls : cls ≠ 2) : serveAccess k ctx cap req c kind ty data cmp size cls rs =
      (countMended k (softAt k rs), .poisoned req c h.2 (poisonHits k rs).length (poisonCharge (poisonHits k rs) + softHits k rs)) := by
  unfold serveAccess
  cases kind with
  | store => exact absurd rfl hk
  | _ => simp [hp, hcls]

/-- What an access that may be performed makes of the state and answers. -/
theorem serveAccess_performs (hk : kind ≠ .store) (h : cls = 2 ∨ poisonHits k rs = []) :
    serveAccess k ctx cap req c kind ty data cmp size cls rs =
      servePerformed (countMended k (softAt k rs)) ctx cap req c kind ty data cmp rs (poisonHits k rs).length
        (poisonCharge (poisonHits k rs) + softHits k rs) := by
  unfold serveAccess
  rcases h with rfl | h
  · cases hp : poisonHits k rs with
    | nil =>
      cases kind with
      | store => exact absurd rfl hk
      | _ => rfl
    | cons y ys =>
      cases kind with
      | store => exact absurd rfl hk
      | _ => rfl
  · rw [h]
    cases kind with
    | store => exact absurd rfl hk
    | _ => rfl

theorem servePerformed_load (k : Kern) (met units : Nat) : servePerformed k ctx cap req c .load ty data cmp rs met units =
    (k, .reply req c (natOfBytes (onesWherePoison k rs)) met units) := by
  unfold servePerformed
  simp [writeOf]

/-- Corrected errors that are counted leave the classes of frames. -/
theorem frameClass_countMended (k : Kern) (as : List Nat) (frame : Nat) : frameClass (countMended k as) frame = frameClass k frame := by
  unfold countMended
  induction as generalizing k with
  | nil => rfl
  | cons a as ih =>
    refine (ih _).trans ?_
    dsimp only
    split
    next f _ =>
      unfold frameClass
      by_cases hf : frame = f
      · subst hf
        rw [mget_mmod_same, Option.map_map]
        congr 2
      · rw [mget_mmod_other _ _ hf]
    · rfl

theorem poisonAt_countMended (k : Kern) (as : List Nat) (a : Nat) : poisonAt (countMended k as) a = poisonAt k a := by
  have hpoison : (countMended k as).poison = k.poison := by rw [(charged_countMended k as).shared]
  simp only [poisonAt, checkUnit, frameClass_countMended, hpoison]

/-- A corrected error changes no byte and no poison. -/
theorem onesWherePoison_countMended (k : Kern) (as : List Nat) (rs : List (Nat × Nat)) :
    onesWherePoison (countMended k as) rs = onesWherePoison k rs := by
  simp only [onesWherePoison, poisonAt_countMended, countMended_mem]

theorem poisonHits_countMended (k : Kern) (as : List Nat) (rs : List (Nat × Nat)) : poisonHits (countMended k as) rs = poisonHits k rs := by
  rw [(charged_countMended k as).shared]
  rfl

theorem serveAccess_load (h : cls = 2 ∨ poisonHits k rs = []) : serveAccess k ctx cap req c .load ty data cmp size cls rs =
    (countMended k (softAt k rs), .reply req c (natOfBytes (onesWherePoison k rs)) (poisonHits k rs).length
      (poisonCharge (poisonHits k rs) + softHits k rs)) := by
  rw [serveAccess_performs (by simp) h, servePerformed_load, onesWherePoison_countMended]

theorem natOfBytes_onesWherePoison_clean {k : Kern} {a n : Nat} (h : poisonHits k [(a, n)] = []) :
    natOfBytes (onesWherePoison k [(a, n)]) = getNat k a n := by
  rw [onesWherePoison_clean h, getRuns, List.flatMap_cons, List.flatMap_nil, List.append_nil, getNat]

theorem serveAccess_atom {a n : Nat} {op : AtomOp} (h : poisonHits k [(a, n)] = []) :
    serveAccess k ctx cap req c (.atom op) ty data cmp size cls [(a, n)] =
      (putBytes (countMended k (softAt k [(a, n)])) a (bytesOfNat n (newValue op ty (getNat k a n) data)),
        .reply req c (getNat k a n) 0 (softHits k [(a, n)])) := by
  have hnew : getNat (countMended k (softAt k [(a, n)])) a n = getNat k a n := by
    simp only [getNat, getBytes, countMended_mem]
  rw [serveAccess_performs (by simp) (.inr h)]
  unfold servePerformed
  have hp := (poisonHits_countMended k (softAt k [(a, n)]) [(a, n)]).trans h
  have hrefresh : refreshRuns (countMended k (softAt k [(a, n)])) [(a, n)] = countMended k (softAt k [(a, n)]) := by
    simp only [refreshRuns, hp, List.foldl_nil]
  simp [natOfBytes_onesWherePoison_clean hp, hnew, writeOf, hrefresh, h, poisonCharge]

theorem serveAccess_claim {a n : Nat} (h : poisonHits k [(a, n)] = []) :
    serveAccess k ctx cap req c .claim ty data cmp size cls [(a, n)] =
      (serveClaim (countMended k (softAt k [(a, n)])) ctx cap [(a, n)] (bytesOfNat 64 (getNat k a n)),
        .reply req c (getNat k a n) 0 (softHits k [(a, n)])) := by
  have hnew : getNat (countMended k (softAt k [(a, n)])) a n = getNat k a n := by
    simp only [getNat, getBytes, countMended_mem]
  rw [serveAccess_performs (by simp) (.inr h)]
  unfold servePerformed
  have hp := (poisonHits_countMended k (softAt k [(a, n)]) [(a, n)]).trans h
  simp [natOfBytes_onesWherePoison_clean hp, hnew, h, poisonCharge]

end Accesses

section Served

variable {s : State} {p : FabPacket} {req c obj ea size : Nat} {kind : ReqKind} {ty : Ty} {data cmp : Nat} {rel : Bool} {cls ctx : Nat}
  {rs : List (Nat × Nat)}
  (hp : s.fab.arrived.find? (fun x => x.id == p.id && (x.cls == .request || x.cls == .forward)) = some p)
  (hfirst : firstArrived s.fab p = true) (hhere : p.cls = .request → forwardTo s p.load = none)
  (hload : p.load = .access req c obj ea size kind ty data cmp rel cls) (hctx : homeContext s.kern obj = some ctx)
  (hruns : objRuns s.kern ctx obj ea size = .ok rs)
include hp hfirst hhere hload hctx hruns

/-- A request of an object that is placed here is performed and answered once. -/
theorem remoteRequest_replies {k' : Kern} {load : Payload}
    (h : serveAccess s.kern ctx (capForm (obj * 2 ^ 40) ea) req c kind ty data cmp size cls rs = (k', load)) :
    ∃ s', exec (.remoteRequest p.id) s = .next s' ∧ s'.kern.mem = k'.mem ∧
      ∃ x, s'.fab.packets = s.fab.packets ++ [x] ∧ x.dst = p.src ∧ x.cls = .reply ∧ x.load = load ∧
        ∀ y ∈ s'.fab.arrived, y.id ≠ p.id := by
  have hserve : serveRemote s.kern p = (k', some load) := by
    unfold serveRemote
    simp only [hload, hctx, hruns, h]
  have hstay : (if p.cls == .request then forwardTo s p.load else none) = none := by
    split
    next hc => exact hhere (beq_iff_eq.mp hc)
    · rfl
  obtain ⟨x, hdst, -, hcls, hx, hpackets, harrived, -⟩ := sendPacket_sends (takeArrived { s with kern := k' } p.id) p.src p.lane .reply load
  refine ⟨sendPacket (takeArrived { s with kern := k' } p.id) p.src p.lane .reply load, ?_, rfl, x, hpackets, hdst, hcls, hx, ?_⟩
  · change execRemoteRequest p.id s = _
    unfold execRemoteRequest
    simp only [hp, hfirst, hstay, hserve, Bool.not_true, Bool.false_eq_true, if_false]
    rfl
  · rw [harrived]
    exact takeArrived_gone { s with kern := k' } p.id

end Served

/-! ## A claim at the queue's home (R188) -/

theorem bytesOfNat_natOfBytes (bs : List Byte) : bytesOfNat bs.length (natOfBytes bs) = bs := by
  induction bs with
  | nil => rfl
  | cons b bs ih =>
    have hb := b.isLt
    rw [List.length_cons, bytesOfNat, natOfBytes]
    have hdiv : (b.toNat + 256 * natOfBytes bs) / 256 = natOfBytes bs := by omega
    rw [hdiv, ih]
    congr 1
    refine BitVec.eq_of_toNat_eq ?_
    simp only [BitVec.toNat_ofNat]
    omega

theorem bytesOfNat_getNat (k : Kern) (a n : Nat) : bytesOfNat n (getNat k a n) = getBytes k a n := by
  have h := bytesOfNat_natOfBytes (getBytes k a n)
  rwa [getBytes_length] at h

theorem getBytes_drop_take (k : Kern) (a n i m : Nat) (h : i + m ≤ n) : ((getBytes k a n).drop i).take m = getBytes k (a + i) m := by
  simp only [getBytes, readMem_eq_map]
  refine List.ext_getElem ?_ fun j h1 h2 => ?_
  · simp; omega
  · simp [Nat.add_assoc]

theorem fieldOf_getBytes (k : Kern) (a n i m : Nat) (h : i + m ≤ n) : fieldOf (getBytes k a n) i m = getNat k (a + i) m := by
  rw [fieldOf, getBytes_drop_take k a n i m h, getNat]

/-- A claim that the header allows adds 1 to WRX, and one that it does not changes nothing. -/
theorem serveClaim_mem (k : Kern) (ctx cap a : Nat) : (serveClaim k ctx cap [(a, 64)] (getBytes k a 64)).mem =
    if badHeader (getBytes k a 64) then k.mem else (putBytes k (a + 8) (bytesOfNat 8 (getNat k (a + 8) 8 + 1))).mem := by
  unfold serveClaim
  split
  · rfl
  · rw [registerQueue_mem, fieldOf_getBytes k a 64 8 8 (by decide)]
    rfl

end Sys2Proof.Proofs
end

section
/-! Answers of other devices (R166, R188, R237, R390 to R393, R425). -/

namespace Sys2Proof.Proofs
open Sys2Proof.Machine Sys2Proof.Safety

/-- The core of a request that has ended: its threads and the results on their way have changed. -/
theorem coreOf_finishReq (k : Kern) (c : Nat) (q : Req) (bs : List Byte) : coreOf (finishReq k c q bs) c =
    { coreOf k c with
      threads := (coreOf (finishReq k c q bs) c).threads, blocks := (coreOf (finishReq k c q bs) c).blocks,
      entries := (coreOf (finishReq k c q bs) c).entries, pendSince := (coreOf (finishReq k c q bs) c).pendSince,
      reqs := (coreOf k c).reqs.filter fun y => y.id != q.id } := by
  have hdrop : coreOf (dropReq k c q.id) c = { coreOf k c with reqs := (coreOf k c).reqs.filter fun y => y.id != q.id } := by
    rw [dropReq, coreOf_modCore_same]
  unfold finishReq
  dsimp only
  split
  next h t _ _ =>
    have hcore := (within_arriveHeld (c := c) (keys := fun _ _ => true) (dropReq k c q.id) t h (answerWords q.ty q.size bs) 0 rfl).core
    rw [hdrop] at hcore
    exact hcore
  · rw [hdrop]

theorem exec_accessReply_remote {s : State} {c dst : Nat} {q : Req} {p : FabPacket}
    (hfind : (coreOf s.kern c).reqs.find? (fun y => y.id == q.id) = some q) (hremote : q.remote = some dst)
    (hp : s.fab.arrived.find? (fun p => replyFor c q.id p.load) = some p) :
    exec (.accessReply c q.id) s = .next { s with
      kern := remoteReply s.kern c q p.load, fab := { s.fab with arrived := s.fab.arrived.filter fun x => x.id != p.id } } := by
  change execAccessReply c q.id s = _
  unfold execAccessReply
  simp only [hfind, hremote, Option.isNone_some, Bool.false_eq_true, if_false, hp]
  rfl

/-- The state in which what a request met at its home has been counted and charged to its context. -/
def metAway (k : Kern) (ctx met units : Nat) : Kern := charge (if met == 0 then k else countPoison k ctx met) ctx units

section MetAway

variable {k : Kern} {ctx units : Nat} (h : Bears k ctx units) (met : Nat)
include h

theorem bears_counted : Bears (if met == 0 then k else countPoison k ctx met) ctx units := by
  split
  · exact h
  · rw [Bears, countPoison, getCtx_modCtx]
    exact h

theorem charged_metAway : Charged k (metAway k ctx met units) := by
  refine Charged.trans ?_ (charged_chargeBy (bears_counted h met) fun k ctx =>
    if lacksHandler k ctx then stopSpent k ctx else deliverAsync k ctx true)
  split
  · exact charged_refl k
  · exact charged_modCtx _ _ _ fun _ => rfl

theorem ebudget_metAway : (getCtx (metAway k ctx met units) ctx).ebudget = (getCtx k ctx).ebudget - units := by
  rw [metAway, charge, ebudget_chargeBy (bears_counted h met)]
  split
  · rfl
  · rw [countPoison, getCtx_modCtx]

theorem poisons_metAway : (getCtx (metAway k ctx met units) ctx).poisons = (getCtx k ctx).poisons + met := by
  rw [metAway, charge, poisons_chargeBy (bears_counted h met)]
  split
  next h0 => rw [beq_iff_eq.mp h0]; rfl
  · rw [countPoison, getCtx_modCtx]

end MetAway

/-- The state in which the answer of a request is delivered. -/
def answeredAway (k : Kern) (c : Nat) (q : Req) (met units : Nat) : Kern := acquiredLoad (metAway k q.ctx met units) c q

section Answers

variable {s : State} {c : Nat} {q : Req} {met units : Nat} (hb : Bears s.kern q.ctx units)
include hb

theorem stays_answeredAway : Stays c s.kern (answeredAway s.kern c q met units) :=
  (stays_of_core ((charged_metAway hb met).coreOf c)).trans (stays_acquiredLoad ..)

theorem mem_answeredAway : (answeredAway s.kern c q met units).mem = s.kern.mem := by
  rw [answeredAway, shared_acquiredLoad]
  exact (charged_metAway hb met).mem

omit hb in
theorem ctxs_answeredAway : (answeredAway s.kern c q met units).ctxs = (metAway s.kern q.ctx met units).ctxs := by
  rw [answeredAway, shared_acquiredLoad]

/-- An answer from another device ends its request. -/
theorem accessReply_answered {dst v : Nat} {p : FabPacket} (hfind : (coreOf s.kern c).reqs.find? (fun y => y.id == q.id) = some q)
    (hremote : q.remote = some dst) (hk : q.kind ≠ .claim) (hp : s.fab.arrived.find? (fun p => replyFor c q.id p.load) = some p)
    (hload : p.load = .reply q.id c v met units) :
    ∃ s', exec (.accessReply c q.id) s = .next s' ∧ s' = { s with kern := s'.kern, fab := s'.fab } ∧
      Arrives s.kern s'.kern c q.tslot q.lane q.held (answerWords q.ty q.size (bytesOfNat q.size v)) ∧
      (getCtx s'.kern q.ctx).ebudget = (getCtx s.kern q.ctx).ebudget - units ∧
      (getCtx s'.kern q.ctx).poisons = (getCtx s.kern q.ctx).poisons + met ∧
      (∀ y ∈ (coreOf s'.kern c).reqs, y.id ≠ q.id) ∧ (∀ y ∈ s'.fab.arrived, y.id ≠ p.id) ∧
      ((q.acq && wideScope q.sc) = true → (coreOf s'.kern c).lcache = []) ∧ ∀ d, seeByte s'.kern d = seeByte s.kern d := by
  let k₁ := answeredAway s.kern c q met units
  have hreply : remoteReply s.kern c q p.load = finishReq k₁ c q (bytesOfNat q.size v) := by
    have hno : (q.kind == .claim) = false := beq_false_of_ne hk
    unfold remoteReply
    simp only [hload, hno, Bool.false_eq_true, if_false]
    rfl
  have hctxs : (finishReq k₁ c q (bytesOfNat q.size v)).ctxs = (metAway s.kern q.ctx met units).ctxs :=
    (finishReq_ctxs ..).trans ctxs_answeredAway
  have hexec := exec_accessReply_remote hfind hremote hp
  rw [hreply] at hexec
  refine ⟨_, hexec, rfl, arrives_finishReq q _ (stays_answeredAway hb), ?_, ?_, finishReq_gone _ _ _ _, takeArrived_gone s p.id,
    fun hacq => ?_, seeByte_of_mem ((finishReq_mem ..).trans (mem_answeredAway hb))⟩
  · rw [getCtx_of_ctxs hctxs, ebudget_metAway hb]
  · rw [getCtx_of_ctxs hctxs, poisons_metAway hb]
  · dsimp only
    rw [coreOf_finishReq]
    simp only [k₁, answeredAway, acquiredLoad, hacq, if_true, dropLines, coreOf_modCore_same]

omit hb in
theorem stays_queueSlot (k : Kern) (c ctx queue w log2cap : Nat) (image : List Byte) :
    Stays c k (queueSlot k c ctx queue w log2cap image) := by
  constructor <;>
  · simp only [queueSlot, coreOf_modCore_same]
    rfl

/-- The answer to a claim gives its slot to the engine and its number to the thread. -/
theorem accessReply_claimed {dst v : Nat} {p : FabPacket} (hfind : (coreOf s.kern c).reqs.find? (fun y => y.id == q.id) = some q)
    (hremote : q.remote = some dst) (hk : q.kind = .claim) (hp : s.fab.arrived.find? (fun p => replyFor c q.id p.load) = some p)
    (hload : p.load = .reply q.id c v met units) (hgood : badHeader (bytesOfNat 64 v) = false) :
    ∃ s' j, exec (.accessReply c q.id) s = .next s' ∧ (coreOf s'.kern c).copyqs = (coreOf s.kern c).copyqs ++ [j] ∧
      j.ctx = q.ctx ∧ j.queue = BitVec.ofNat 64 (capForm q.cap.toNat q.ea) ∧ j.w = BitVec.ofNat 64 (fieldOf (bytesOfNat 64 v) 8 8) ∧
      j.cap = fieldOf (bytesOfNat 64 v) 16 4 ∧ j.image = bytesOfNat 64 q.data ∧
      Arrives s.kern s'.kern c q.tslot q.lane q.held (answerWords q.ty q.size ((bytesOfNat 64 v).drop 8 |>.take 8)) ∧
      (∀ y ∈ (coreOf s'.kern c).reqs, y.id ≠ q.id) ∧ ∀ d, seeByte s'.kern d = seeByte s.kern d := by
  let k₁ := answeredAway s.kern c q met units
  let hdr := bytesOfNat 64 v
  let k₂ := queueSlot k₁ c q.ctx (capForm q.cap.toNat q.ea) (fieldOf hdr 8 8) (fieldOf hdr 16 4) (bytesOfNat 64 q.data)
  let j : CopyqJob :=
    { id := k₁.id, ctx := q.ctx, queue := BitVec.ofNat 64 (capForm q.cap.toNat q.ea),
      w := BitVec.ofNat 64 (fieldOf hdr 8 8), cap := fieldOf hdr 16 4, image := bytesOfNat 64 q.data }
  have hnumber : bytesOfNat 8 (fieldOf hdr 8 8) = (hdr.drop 8).take 8 := by
    have hlen : ((hdr.drop 8).take 8).length = 8 := by simp [hdr, length_bytesOfNat]
    have h := bytesOfNat_natOfBytes ((hdr.drop 8).take 8)
    rwa [hlen] at h
  have hreply : remoteReply s.kern c q p.load = finishReq k₂ c q ((hdr.drop 8).take 8) := by
    unfold remoteReply endClaim
    simp only [hload, hk, beq_self_eq_true, if_true, hgood, Bool.false_eq_true, if_false]
    rw [← hnumber]
    rfl
  have hcopyqs : (coreOf k₂ c).copyqs = (coreOf s.kern c).copyqs ++ [j] := by
    have hcore : (coreOf k₁ c).copyqs = (coreOf s.kern c).copyqs := by
      rw [← (charged_metAway hb met).coreOf c]
      simp only [k₁, answeredAway, acquiredLoad]
      split
      · simp only [dropLines, coreOf_modCore_same]
      · rfl
    simp only [k₂, queueSlot, coreOf_modCore_same]
    exact congrArg (· ++ [j]) hcore
  have hstays : Stays c s.kern k₂ := (stays_answeredAway hb).trans (stays_queueSlot ..)
  have hexec := exec_accessReply_remote hfind hremote hp
  rw [hreply] at hexec
  refine ⟨_, j, hexec, ?_, rfl, rfl, rfl, rfl, rfl, arrives_finishReq q _ hstays, finishReq_gone _ _ _ _,
    seeByte_of_mem ((finishReq_mem ..).trans (mem_answeredAway hb))⟩
  dsimp only
  rw [coreOf_finishReq]
  exact hcopyqs

end Answers

/-- A request for an extent that another device holds is sent on there, and the home remembers whom it answers. -/
theorem remoteRequest_forwarded {s : State} {p : FabPacket} {d : Nat}
    (hp : s.fab.arrived.find? (fun x => x.id == p.id && (x.cls == .request || x.cls == .forward)) = some p)
    (hfirst : firstArrived s.fab p = true) (hcls : p.cls = .request) (hforward : forwardTo s p.load = some d) :
    ∃ s' x, exec (.remoteRequest p.id) s = .next s' ∧ s'.fab.packets = s.fab.packets ++ [x] ∧ x.dst = d ∧ x.cls = .forward ∧
      x.lane = p.lane ∧ x.load = forwardLoad s.kern.id p.load ∧ s'.fab.forwarded = s.fab.forwarded ++ [(s.kern.id, p)] ∧
      (∀ y ∈ s'.fab.arrived, y.id ≠ p.id) ∧ ∀ b, seeByte s'.kern b = seeByte s.kern b := by
  let s₁ : State :=
    { s with
      kern := { s.kern with id := s.kern.id + 1 },
      fab := { s.fab with forwarded := s.fab.forwarded ++ [(s.kern.id, p)] } }
  obtain ⟨x, hdst, hlane, hclass, hx, hpackets, harrived, hforwarded⟩ :=
    sendPacket_sends (takeArrived s₁ p.id) d p.lane .forward (forwardLoad s.kern.id p.load)
  refine ⟨sendPacket (takeArrived s₁ p.id) d p.lane .forward (forwardLoad s.kern.id p.load), x, ?_, hpackets, hdst, hclass, hlane, hx,
    hforwarded, ?_, fun b => rfl⟩
  · change execRemoteRequest p.id s = _
    unfold execRemoteRequest
    simp only [hp, hfirst, hcls, hforward, Bool.not_true, Bool.false_eq_true, if_false, beq_self_eq_true, if_true]
    rfl
  · rw [harrived]
    exact takeArrived_gone s₁ p.id

/-- Settles O36: a request that another device sends is performed at its home and answered once, and an answer ends, parks or traps
the request that waits for it. -/
theorem remoteTraffic : Obligations.RemoteTraffic := by
  refine ⟨wcAgeing, fun s c n p => wcDrained, ?_, ?_, ?_, ?_, ?_, ?_, ?_, ?_⟩
  · intro s p req c obj ea size kind ty data cmp rel cls ctx rs hp hfirst hhere hload hctx hruns
    have hserved {k' : Kern} {load : Payload} := remoteRequest_replies hp hfirst hhere hload hctx hruns (k' := k') (load := load)
    have hmended : (countMended s.kern (softAt s.kern rs)).mem = s.kern.mem := countMended_mem ..
    refine ⟨fun a hk hrs hm => ?_, fun h hs hhits hk hcls => ?_, fun hk hcls => ?_, fun hk hhits => ?_, fun a op hk hrs hhits hm => ?_,
      fun a hk hrs hsize hhits hm => ?_⟩
    · subst hk hrs
      obtain ⟨s', hexec, hmem, hreply⟩ := hserved serveAccess_store
      rw [putRuns_single] at hmem
      obtain ⟨hnat, hbytes⟩ := getNat_written (w := some data) hm hmem
      exact ⟨s', hexec, hnat, hbytes, hreply⟩
    · obtain ⟨s', hexec, hmem, hreply⟩ := hserved (serveAccess_poisoned hhits hk hcls)
      exact ⟨s', hexec, seeByte_of_mem (hmem.trans hmended), hreply⟩
    · subst hk
      obtain ⟨s', hexec, hmem, hreply⟩ := hserved (serveAccess_load (.inl hcls))
      exact ⟨s', hexec, seeByte_of_mem (hmem.trans hmended), hreply⟩
    · subst hk
      obtain ⟨s', hexec, hmem, hreply⟩ := hserved (serveAccess_load (.inr hhits))
      rw [onesWherePoison_clean hhits, hhits, poisonCharge, List.filter_nil, List.length_nil, Nat.mul_zero, Nat.zero_add] at hreply
      exact ⟨s', hexec, seeByte_of_mem (hmem.trans hmended), hreply⟩
    · subst hk hrs
      obtain ⟨s', hexec, hmem, hreply⟩ := hserved (serveAccess_atom hhits)
      obtain ⟨hnat, hbytes⟩ := getNat_written (a := a) (n := size) (w := some (newValue op ty (getNat s.kern a size) data)) hm
        (hmem.trans (by simp only [Option.elim, putBytes_mem, countMended_mem]))
      exact ⟨s', hexec, hnat, hbytes, hreply⟩
    · subst hk hrs hsize
      obtain ⟨s', hexec, hmem, hreply⟩ := hserved (serveAccess_claim hhits)
      have hhdr : getBytes (countMended s.kern (softAt s.kern [(a, 64)])) a 64 = getBytes s.kern a 64 := by
        simp only [getBytes, countMended_mem]
      have hwrx : getNat (countMended s.kern (softAt s.kern [(a, 64)])) (a + 8) 8 = getNat s.kern (a + 8) 8 := by
        simp only [getNat, getBytes, countMended_mem]
      rw [bytesOfNat_getNat, ← hhdr, serveClaim_mem, hhdr, hwrx] at hmem
      refine ⟨s', hexec, hreply, fun hbad => ?_, fun hgood => ?_⟩
      · rw [if_pos hbad] at hmem
        exact seeByte_of_mem (hmem.trans hmended)
      · rw [hgood, if_neg Bool.false_ne_true] at hmem
        exact getNat_written (w := some (getNat s.kern (a + 8) 8 + 1)) hm
          (hmem.trans (by simp only [Option.elim, putBytes_mem, countMended_mem]))
  · intro s p d hp hfirst hcls hforward
    exact remoteRequest_forwarded hp hfirst hcls hforward
  · intro s p hp hfirst
    change execRemoteRequest p.id s = _
    unfold execRemoteRequest
    simp only [hp, hfirst, Bool.not_false, if_true]
    rfl
  · intro s c q dst p v met units hfind hremote hk hp hload hb hgood
    exact accessReply_claimed hb hfind hremote hk hp hload hgood
  · intro s c q dst p v met units hfind hremote hk hp hload hb
    exact accessReply_answered hb hfind hremote hk hp hload
  · intro s c q dst p sub t hfind hremote hp hload ht hroom
    have hexec := exec_accessReply_remote hfind hremote hp
    rw [show remoteReply s.kern c q p.load = parkReq s.kern c q (capForm q.cap.toNat q.ea) sub by rw [hload]; rfl] at hexec
    obtain ⟨r, hthread, hparks, hpc, hfaddr, hsub, hslot, hlane, -⟩ := parkReq_parks (capForm q.cap.toNat q.ea) sub ht hroom
    exact ⟨_, _, r, hexec, hthread, rfl, rfl, hparks, hpc, hfaddr, hsub, hslot, hlane⟩
  · intro s c q dst p kind met units t l h hfind hremote hp hload hcls hb hh hslot hlane hw hloc
    have hexec := exec_accessReply_remote hfind hremote hp
    have hcharged := charged_chargeBy hb fun k ctx => deliverAsync k ctx true
    have hreply : remoteReply s.kern c q p.load = failReq (chargeLate s.kern q.ctx units) c q
        (poisonCause (serialClass s.kern q.serial) kind) (capForm q.cap.toNat q.ea) := by
      simp only [remoteReply, hload, remotePoison, beq_iff_eq, hcls, if_false]
    obtain ⟨hrec, hstands, hgone, hctx, -⟩ := failReq_traps hh hslot hlane hw hloc (hcharged.trapsAlike c) (capForm q.cap.toNat q.ea)
      (poisonCause_bounds (serialClass s.kern q.serial) kind).1
    rw [hreply] at hexec
    refine ⟨_, hexec, hrec, hstands, ?_, hgone⟩
    exact (congrArg Ctx.ebudget (getCtx_of_ctxs hctx q.ctx)).trans (ebudget_chargeBy hb _)
  · intro s c q dst p t l h hfind hremote hp hload hh hslot hlane hw hloc
    have hexec := exec_accessReply_remote hfind hremote hp
    rw [show remoteReply s.kern c q p.load = failReq s.kern c q 0x0D (unsupportedWord q) by rw [hload]; rfl] at hexec
    obtain ⟨hrec, hstands, hgone, -, -⟩ := failReq_traps hh hslot hlane hw hloc (trapsAlike_refl c s.kern) (unsupportedWord q)
      (cause := 0x0D) (by decide)
    exact ⟨_, hexec, hrec, hstands, hgone⟩

end Sys2Proof.Proofs
end

section
/-! What the writes of an engine or a log change (R178, R369, R392). -/

namespace Sys2Proof.Proofs
open Sys2Proof.Machine Sys2Proof.Safety

/-- Bytes have been written, here or by writes sent to other devices in the name of the running unit. -/
structure Writes (k k' : Kern) : Prop where
  shared : k' = { k with mem := k'.mem, poison := k'.poison, soft := k'.soft, far := k'.far, id := k'.id }
  far : ∀ x ∈ k'.far, x ∈ k.far ∨ x.owner = k.unit

theorem writes_refl (k : Kern) : Writes k k := ⟨rfl, fun _ h => .inl h⟩

theorem Writes.trans {k k' k'' : Kern} (h : Writes k k') (h' : Writes k' k'') : Writes k k'' := by
  refine ⟨by rw [h'.shared, h.shared], fun x hx => ?_⟩
  rcases h'.far x hx with hx | hx
  · exact h.far x hx
  · exact .inr (hx.trans (by rw [h.shared]))

theorem Writes.coreOf {k k' : Kern} (h : Writes k k') (c : Nat) : coreOf k' c = coreOf k c := by
  rw [h.shared]; rfl

theorem writes_putBytes (k : Kern) (a : Nat) (bs : List Byte) : Writes k (putBytes k a bs) := ⟨rfl, fun _ h => .inl h⟩

theorem writes_putRuns (rs : List (Nat × Nat)) (k : Kern) (bs : List Byte) : Writes k (putRuns k rs bs) := by
  induction rs generalizing k bs with
  | nil => exact writes_refl k
  | cons r rs ih => exact (writes_putBytes ..).trans (ih _ _)

theorem writes_askFar (k : Kern) (ctx dev o line : Nat) (put : Option (FMap Byte)) : Writes k (askFar k ctx dev o line put) := by
  refine ⟨rfl, fun x hx => ?_⟩
  rcases List.mem_append.1 hx with hx | hx
  · exact .inl hx
  · rw [List.mem_singleton.1 hx]
    exact .inr rfl

theorem writes_sendLines (ctx dev o n : Nat) (k : Kern) (off : Nat) (bs : List Byte) : Writes k (sendLines k ctx dev o off bs n) := by
  induction n generalizing k off bs with
  | zero => exact writes_refl k
  | succ n ih =>
    unfold sendLines
    split
    · exact writes_refl k
    · exact (writes_askFar ..).trans (ih _ _ _)

theorem writes_sendWrite (k : Kern) (ctx o off : Nat) (bs : List Byte) : Writes k (sendWrite k ctx o off bs) := by
  unfold sendWrite
  split
  · split
    · exact writes_sendLines ..
    · exact writes_refl k
  · exact writes_refl k

theorem writes_writeObj (k : Kern) (ctx o off : Nat) (bs : List Byte) : Writes k (writeObj k ctx o off bs) := by
  unfold writeObj
  split
  · exact (writes_putRuns ..).trans (writes_sendWrite ..)
  · exact writes_refl k

theorem writes_logRecord (k : Kern) (ctx type serial : Nat) (cycle : W64) (body : List Byte) :
    Writes k (logRecord k ctx type serial cycle body) := by
  unfold logRecord
  dsimp only
  split
  · exact writes_refl k
  · split
    · exact writes_refl k
    · split
      · exact writes_refl k
      · split
        · exact writes_refl k
        · exact (writes_writeObj ..).trans (writes_writeObj ..)

end Sys2Proof.Proofs
end

section
/-! A copy runs and retires (R177 to R183, R369, R371, R392, R393). -/

namespace Sys2Proof.Proofs
open Sys2Proof.Machine Sys2Proof.Safety

/-! ## The end of a copy -/

/-- The state in which a copy has left its core: its wait is over, and the cached lines of an object that it wrote are gone. -/
def copyLeft (k : Kern) (c : Nat) (j : CopyJob) : Kern :=
  let k := modCore (doneWaiting k .copy c j.id) c fun core => { core with copies := core.copies.filter fun x => x.id != j.id }
  if (descOf j.d0 j.d1 j.d2 j.d3).dsp == 1 then
    modCore k c fun core =>
      { core with lcache := core.lcache.filter fun l => !(l.ctx == j.ctx && l.obj == capObj (descCap (descOf j.d0 j.d1 j.d2 j.d3))) }
  else k

theorem stays_copyLeft (c : Nat) (k : Kern) (j : CopyJob) : Stays c k (copyLeft k c j) := by
  unfold copyLeft
  dsimp only
  constructor <;> split <;> simp only [coreOf_modCore_same] <;> rfl

theorem copies_copyLeft (k : Kern) (c : Nat) (j : CopyJob) : ∀ y ∈ (coreOf (copyLeft k c j) c).copies, y.id ≠ j.id := by
  have hcopies : (coreOf (copyLeft k c j) c).copies = (coreOf k c).copies.filter fun x => x.id != j.id := by
    unfold copyLeft
    dsimp only
    split <;> simp only [coreOf_modCore_same] <;> rfl
  intro y hy
  rw [hcopies] at hy
  simpa using (List.mem_filter.1 hy).2

theorem far_copyLeft (k : Kern) (c : Nat) (j : CopyJob) : (copyLeft k c j).far = k.far ∧ (copyLeft k c j).unit = k.unit := by
  unfold copyLeft
  dsimp only
  split <;> exact ⟨rfl, rfl⟩

/-- What a retired copy leaves: its place on the core is free, its unit has asked for nothing, and its status has arrived. -/
structure Retired (k k' : Kern) (c : Nat) (j : CopyJob) (status : Nat) : Prop where
  copies : ∀ y ∈ (coreOf k' c).copies, y.id ≠ j.id
  far : ∀ x ∈ k'.far, x.owner ≠ jobUnit j.id
  status : Arrives k k' c j.tslot j.lane j.held [BitVec.ofNat 32 status]

theorem retireCopy_retires {k₀ k : Kern} {c : Nat} {j : CopyJob} (status : Nat) (hs : Stays c k₀ k) :
    Retired k₀ (retireCopy (endUnit k (jobUnit j.id)) c j status) c j status := by
  let k₁ := copyLeft (endUnit k (jobUnit j.id)) c j
  have hended : Stays c k (endUnit k (jobUnit j.id)) := stays_of_cores rfl
  have hstays : Stays c k₀ k₁ := (hs.trans hended).trans (stays_copyLeft c (endUnit k (jobUnit j.id)) j)
  obtain ⟨hfar, hunit⟩ := far_copyLeft (endUnit k (jobUnit j.id)) c j
  have howner : ∀ x ∈ k₁.far, x.owner ≠ jobUnit j.id := fun x hx => by
    rw [hfar] at hx
    simpa using (List.mem_filter.1 hx).2
  have hne : k₁.unit ≠ jobUnit j.id := by
    rw [hunit]
    exact Nat.ne_of_lt (Nat.succ_pos _)
  have hcopies := copies_copyLeft (endUnit k (jobUnit j.id)) c j
  have hunheld (k' : Kern) (h : j.held = none ∨ getThread k₁ c j.tslot j.lane = none) :
      Arrives k₀ k' c j.tslot j.lane j.held [BitVec.ofNat 32 status] := by
    intro t id g ht hid
    rcases h with h | h
    · rw [h] at hid; cases hid
    · rw [hstays.getThread, ht] at h; cases h
  change Retired k₀ (match j.held, getThread k₁ c j.tslot j.lane with
    | some h, some t => arriveHeld k₁ c t h [BitVec.ofNat 32 status] 0
    | _, _ => _) c j status
  split
  next h t hheld ht =>
    obtain ⟨h1, h2⟩ := getThread_key ht
    have hwithin := within_arriveHeld (c := c) (keys := fun _ _ => true) k₁ t h [BitVec.ofNat 32 status] 0 rfl
    refine ⟨?_, ?_, ?_⟩
    · rw [hwithin.core]; exact hcopies
    · rw [hwithin.shared]; exact howner
    · rw [hheld, ← h1, ← h2]
      rw [hstays.getThread, ← h1, ← h2] at ht
      exact arrives_arriveHeld h _ hstays ht
  next hno =>
    have hnone : j.held = none ∨ getThread k₁ c j.tslot j.lane = none := by
      cases hh : j.held with
      | none => exact .inl rfl
      | some h =>
        cases ht : getThread k₁ c j.tslot j.lane with
        | none => exact .inr rfl
        | some t => exact absurd ht (hno h t hh)
    have hwrites {k' : Kern} (hw : Writes k₁ k') : Retired k₀ k' c j status := by
      refine ⟨?_, fun x hx => ?_, hunheld k' hnone⟩
      · rw [hw.coreOf]; exact hcopies
      · rcases hw.far x hx with h | h
        · exact howner x h
        · rw [h]; exact hne
    split
    · exact hwrites (writes_logRecord ..)
    · exact hwrites (writes_refl k₁)

/-- A copy whose writes elsewhere have been performed retires. -/
theorem settleCopy_retires {k₀ k : Kern} {c : Nat} {j : CopyJob} {status : Nat} (hs : Stays c k₀ k)
    (hfar : farWrites k (jobUnit j.id) = false) :
    Retired k₀ (settleCopy k c j status) c j ((writeFailure k (jobUnit j.id)).getD status) := by
  unfold settleCopy
  simp only [hfar, Bool.false_eq_true, if_false]
  exact retireCopy_retires _ hs

theorem copies_modCopy (k : Kern) (c id : Nat) (f : CopyJob → CopyJob) :
    (coreOf (modCopy k c id f) c).copies = (coreOf k c).copies.map fun j => if j.id == id then f j else j := by
  simp only [modCopy, coreOf_modCore_same]

section Retire

variable {s : State} {c : Nat} {j : CopyJob} (hfind : (coreOf s.kern c).copies.find? (fun y => y.id == j.id) = some j)
  (hready : copyReady (coreOf s.kern c) j = true)
include hfind hready

/-- A copy whose bytes have moved settles once its writes elsewhere have been performed. -/
theorem copyRetire_moved {st : W32} (hfail : j.fail = some st) : exec (.copyRetire c j.id) s =
    if farWrites s.kern (jobUnit j.id) then .next s else .next { s with kern := settleCopy s.kern c j st.toNat } := by
  change execCopyRetire c j.id s = _
  unfold execCopyRetire
  simp only [hfind, hready, hfail, Bool.not_true, Bool.false_eq_true, if_false]
  rfl

theorem copyRetire_runs (hfail : j.fail = none) : exec (.copyRetire c j.id) s =
    .next { s with kern := endCopy c j s.kern (runCopy (asUnit s.kern (jobUnit j.id)) c j) } := by
  change execCopyRetire c j.id s = _
  unfold execCopyRetire
  simp only [hfind, hready, hfail, Bool.not_true, Bool.false_eq_true, if_false]
  rfl

end Retire

/-! ## The tokens of a transfer (R371) -/

theorem paidUnit_paid {k₀ k : Kern} {c ctx paid : Nat} {commit : Kern → Kern} {keep : Kern → Nat → Kern} (h : k.spent ≤ paid) :
    paidUnit k₀ k c ctx paid commit keep = commit k := if_pos h

section Tokens

variable {k₀ k : Kern} {c ctx paid : Nat} {commit : Kern → Kern} {keep : Kern → Nat → Kern} {b : Bucket}
  (hb : mget (coreOf k₀ c).buckets ctx = some b)
  (hspent : paid < k.spent)
include hb hspent

/-- A transfer for which its bucket holds the rest commits. -/
theorem paidUnit_commits (h : k.spent - paid ≤ if b.owed = 0 then b.tokens else 0) : ∃ bs, paidUnit k₀ k c ctx paid commit keep =
    commit (modCore k c fun core => { core with buckets := bs }) := by
  have howed : b.owed = 0 := by
    by_contra hne
    rw [if_neg hne] at h
    omega
  rw [if_pos howed] at h
  have hpaid : k.spent ≤ (payUnit k₀ c ctx k.spent paid).2 := by
    simp only [payUnit, hb, howed, beq_self_eq_true, if_true, Nat.min_eq_left h]
    omega
  refine ⟨(coreOf (payUnit k₀ c ctx k.spent paid).1 c).buckets, ?_⟩
  unfold paidUnit
  simp only [if_neg (Nat.not_le.mpr hspent), if_pos hpaid]

/-- A transfer for which its bucket does not hold the rest keeps what there is. -/
theorem paidUnit_keeps (h : (if b.owed = 0 then b.tokens else 0) < k.spent - paid) : ∃ bs, paidUnit k₀ k c ctx paid commit keep =
    keep (modCore k₀ c fun core => { core with buckets := bs }) (paid + if b.owed = 0 then b.tokens else 0) := by
  let n := if b.owed = 0 then b.tokens else 0
  have hpay : payUnit k₀ c ctx k.spent paid =
      (modCore k₀ c fun core => { core with buckets := mset core.buckets ctx { b with tokens := b.tokens - n, active := true } }, paid + n) := by
    unfold payUnit
    simp only [hb, n, beq_iff_eq]
    split
    next howed =>
      rw [if_pos howed] at h
      rw [Nat.min_eq_right (Nat.le_of_lt h)]
    · rfl
  have hnot : ¬k.spent ≤ paid + n := by omega
  refine ⟨mset (coreOf k₀ c).buckets ctx { b with tokens := b.tokens - n, active := true }, ?_⟩
  unfold paidUnit
  simp only [if_neg (Nat.not_le.mpr hspent), hpay, if_neg hnot]
  rfl

end Tokens

theorem stays_buckets (c : Nat) (k : Kern) (bs : FMap Bucket) : Stays c k (modCore k c fun core => { core with buckets := bs }) := by
  constructor <;> rw [coreOf_modCore_same]

/-! ## What a transfer waits for (R392, R441) -/

theorem mem_waitFor (k : Kern) (u : UnitKind) (c job ctx faddr sub : Nat) : ∃ w ∈ (waitFor k u c job ctx faddr sub).units,
    isUnit u c job w = true ∧ w.faddr = BitVec.ofNat 64 faddr ∧ w.sub = sub := by
  refine ⟨_, List.mem_append_right _ (List.mem_singleton.mpr rfl), ?_, rfl, rfl⟩
  simp [isUnit]

/-- A line that the running unit has asked to read. -/
def Asked (k : Kern) (ctx o line : Nat) : Prop := ∃ x ∈ k.far, x.owner = k.unit ∧ x.ctx = ctx ∧ x.obj = o ∧ x.line = line ∧ x.put = none

theorem asked_of_farRead {k : Kern} {ctx o line : Nat} (h : (farRead k ctx o line).isSome = true) : Asked k ctx o line := by
  obtain ⟨x, hx⟩ := Option.isSome_iff_exists.1 h
  have hfound := List.find?_some hx
  simp only [Bool.and_eq_true, beq_iff_eq, Option.isNone_iff_eq_none] at hfound
  obtain ⟨⟨⟨⟨h1, h2⟩, h3⟩, h4⟩, h5⟩ := hfound
  exact ⟨x, List.mem_of_find?_eq_some hx, h1, h2, h3, h4, h5⟩

/-- A line once the running unit has asked for it where it had not. -/
def askOnce (ctx dev o : Nat) (k : Kern) (line : Nat) : Kern := if (farRead k ctx o line).isSome then k else askFar k ctx dev o line none

theorem asked_askOnce (ctx dev o : Nat) (k : Kern) (line : Nat) : Asked (askOnce ctx dev o k line) ctx o line := by
  unfold askOnce
  split
  next h => exact asked_of_farRead h
  · exact ⟨_, List.mem_append_right _ (List.mem_singleton.mpr rfl), rfl, rfl, rfl, rfl, rfl⟩

theorem Asked.askOnce {k : Kern} {ctx o line : Nat} (h : Asked k ctx o line) (dev line' : Nat) :
    Asked (Proofs.askOnce ctx dev o k line') ctx o line := by
  unfold Proofs.askOnce
  split
  · exact h
  · obtain ⟨x, hx, hrest⟩ := h
    exact ⟨x, List.mem_append_left _ hx, hrest⟩

theorem asked_foldl (ctx dev o : Nat) (lines : List Nat) (k : Kern) {line : Nat} (h : line ∈ lines ∨ Asked k ctx o line) :
    Asked (lines.foldl (askOnce ctx dev o) k) ctx o line := by
  induction lines generalizing k with
  | nil => exact h.resolve_left List.not_mem_nil
  | cons l lines ih =>
    refine ih _ ?_
    rcases h with h | h
    · rcases List.mem_cons.1 h with rfl | h
      · exact .inr (asked_askOnce ..)
      · exact .inl h
    · exact .inr (h.askOnce dev l)

/-- The lines of a range of a known object have been asked for. -/
theorem asked_askLines {k : Kern} {ctx o off n : Nat} {e : ObjEntry} (he : getObj k ctx o = some e) {line : Nat} (hl : line ∈ linesIn off n) :
    Asked (askLines k ctx o off n) ctx o line := by
  unfold askLines
  rw [he]
  exact asked_foldl ctx e.hdev o (linesIn off n) k (.inl hl)

theorem writes_askLines (k : Kern) (ctx o off n : Nat) : Writes k (askLines k ctx o off n) := by
  unfold askLines
  split
  · exact writes_refl k
  next e he =>
    clear he
    induction linesIn off n generalizing k with
    | nil => exact writes_refl k
    | cons l ls ih =>
      refine Writes.trans ?_ (ih _)
      dsimp only
      split
      · exact writes_refl k
      · exact writes_askFar ..

/-! ## A plain move (R178, R369) -/

theorem badOffsets_clean {k : Kern} {rs : List (Nat × Nat)} (h : poisonHits k rs = []) (n : Nat) : badOffsets k rs n = [] := by
  rw [badOffsets, h]
  rfl

theorem takeBytes_clean {k : Kern} {src : Plane} {so n a : Nat} (hstop : planeStop k src so n = none)
    (hruns : planeRuns k src so n = .ok [(a, n)]) (hp : poisonHits k [(a, n)] = []) (hbad : farBad k src so n = [])
    (hsoft : softHits k [(a, n)] = 0) (hfar : farSofts k src so n = 0) :
    takeBytes k src so n = .ok { bytes := getBytes k a n, bad := [], soft := [], cost := planeCost src n } := by
  have hnone : softAt k [(a, n)] = [] := List.length_eq_zero_iff.1 hsoft
  have hbytes : getRuns k [(a, n)] = getBytes k a n := by rw [getRuns, List.flatMap_cons, List.flatMap_nil, List.append_nil]
  simp only [takeBytes, hstop, hruns, badOffsets_clean hp, hbad, hnone, hfar, hbytes, List.replicate_zero, List.append_nil]

/-- Bytes that hold no error land where they go, and nowhere else. -/
theorem landBytes_clean {k : Kern} {ctx : Nat} {dst : Plane} {off d cost : Nat} {bs : List Byte}
    (hruns : planeRuns k dst off bs.length = .ok [(d, bs.length)]) :
    ∃ k', landBytes k ctx dst off { bytes := bs, bad := [], soft := [], cost := cost } = .ok k' ∧ k'.mem = (putBytes k d bs).mem := by
  have hput (n : Nat) : (putRuns (addCost k n) [(d, bs.length)] bs).mem = (putBytes k d bs).mem := by
    simp only [putRuns, List.take_length]
    rfl
  simp only [landBytes, hruns]
  refine ⟨_, rfl, ?_⟩
  simp only [landUnits, unitsFrom, List.filter_nil, List.foldl_nil, List.isEmpty_nil, if_true, poisonCharge, List.length_nil,
    Nat.mul_zero, Nat.add_zero, countMended, charge, chargeBy, beq_self_eq_true]
  cases dst with
  | ob o cap => rw [sendWrite_mem, hput]
  | pad c b row =>
    dsimp only
    split
    · exact hput _
    · rw [engineTouch_mem, hput]
  | region c l => exact hput _

theorem runMove_plain {k : Kern} {ctx : Nat} {src dst : Plane} {so doff n a d : Nat} (hm : Memory.wf k.mem = true)
    (hstop : planeStop k src so n = none) (hsrc : planeRuns k src so n = .ok [(a, n)]) (hdst : planeRuns k dst doff n = .ok [(d, n)])
    (hp : poisonHits k [(a, n)] = []) (hbad : farBad k src so n = []) (hsoft : softHits k [(a, n)] = 0) (hfar : farSofts k src so n = 0) :
    ∃ k', runMove k ctx src dst so doff (moveRows 0 n 0) = .done k' 0 ∧
      (∀ i, i < n → seeByte k' (d + i) = seeByte k (a + i)) ∧ ∀ b, b < d ∨ d + n ≤ b → seeByte k' b = seeByte k b := by
  have hoff (x : Nat) : offBy x 0 = x := by simp [offBy]
  have hlen := getBytes_length k a n
  obtain ⟨k', hland, hmem⟩ := landBytes_clean (k := k) (ctx := ctx) (cost := planeCost src n) (bs := getBytes k a n)
    (by rw [hlen]; exact hdst)
  refine ⟨k', ?_, fun i hi => ?_, fun b hb => ?_⟩
  · simp only [runMove, moveRows, beq_self_eq_true, if_true, takeRows, hoff, takeBytes_clean hstop hsrc hp hbad hsoft hfar, landRows, hland]
  · rw [seeByte_of_mem hmem]
    exact seeByte_putBytes_within d hm (getElem?_readMem k.mem a hi)
  · rw [seeByte_of_mem hmem]
    exact seeByte_putBytes_outside k d _ (by rwa [hlen])

/-- Settles O38: a copy runs once it may read, settles once its tokens are paid, and retires once its writes have been performed. -/
theorem copyTransfers : Obligations.CopyTransfers := by
  refine ⟨fun s c j hfind hready => ?_, fun k ctx src dst so doff n a d hm hstop hsrc hdst hp hbad hsoft hfar =>
    runMove_plain hm hstop hsrc hdst hp hbad hsoft hfar⟩
  intro u start retires
  have hretires {k₀ k : Kern} {status : Nat} (hexec : exec (.copyRetire c j.id) s = .next { s with kern := settleCopy k c j status })
      (hs : Stays c k₀ k) (hfar : farWrites k u = false) : retires k₀ ((writeFailure k u).getD status) := by
    obtain ⟨hcopies, howner, hstatus⟩ := settleCopy_retires (status := status) hs hfar
    exact ⟨_, hexec, rfl, hcopies, howner, hstatus⟩
  refine ⟨fun st hfail hfar => ?_, fun st hfail hfar => ?_, fun k status hfail hrun => ?_, fun k d faddr sub hfail hrun => ?_,
    fun ctx obj off n hfail hrun => ?_⟩
  · have hexec := copyRetire_moved hfind hready hfail
    rw [hfar, if_neg Bool.false_ne_true] at hexec
    exact hretires hexec (stays_refl c s.kern) hfar
  · exact (copyRetire_moved hfind hready hfail).trans (if_pos hfar)
  · have hexec := copyRetire_runs hfind hready hfail
    rw [hrun] at hexec
    refine ⟨fun hpaid hfar => ?_, fun hpaid hfar => ?_, fun b hb hspent => ?_⟩
    · rw [endCopy, paidUnit_paid hpaid] at hexec
      exact hretires hexec (stays_refl c k) hfar
    · have hsettle : settleCopy k c j status = modCopy (offUnit k) c j.id fun j => { j with fail := some (BitVec.ofNat 32 status) } := by
        unfold settleCopy
        exact if_pos hfar
      rw [endCopy, paidUnit_paid hpaid, hsettle] at hexec
      exact ⟨_, hexec, rfl, copies_modCopy (offUnit k) c j.id _, fun a => rfl⟩
    · refine ⟨fun hfree hfar => ?_, fun hfree => ?_⟩
      · obtain ⟨bs, hcommit⟩ := paidUnit_commits (k₀ := s.kern) (k := k) (commit := fun k => settleCopy k c j status)
          (keep := fun k n => modCopy k c j.id fun j => { j with paid := n }) hb hspent hfree
        rw [endCopy, hcommit] at hexec
        exact hretires (k := modCore k c fun core => { core with buckets := bs }) hexec (stays_buckets c k bs) hfar
      · obtain ⟨bs, hkeep⟩ := paidUnit_keeps (k₀ := s.kern) (k := k) (commit := fun k => settleCopy k c j status)
          (keep := fun k n => modCopy k c j.id fun j => { j with paid := n }) hb hspent hfree
        rw [endCopy, hkeep] at hexec
        refine ⟨_, hexec, rfl, ?_, fun a => rfl⟩
        rw [copies_modCopy, coreOf_modCore_same]
  · have hexec := copyRetire_runs hfind hready hfail
    rw [hrun] at hexec
    obtain ⟨w, hw, hunit, hfaddr, hsub⟩ := mem_waitFor (offUnit (askAgain (asUnit s.kern u))) .copy c j.id j.ctx faddr sub
    exact ⟨_, w, hexec, rfl, rfl, hw, hunit, hfaddr, hsub⟩
  · have hexec := copyRetire_runs hfind hready hfail
    rw [hrun] at hexec
    have hwrites := writes_askLines (asUnit s.kern u) ctx obj off n
    refine ⟨_, hexec, rfl, ?_, seeByte_of_mem (askLines_mem ..), fun e line he hline => ?_⟩
    · change (askLines (asUnit s.kern u) ctx obj off n).cores = s.kern.cores
      rw [hwrites.shared]
      rfl
    · obtain ⟨x, hx, howner, hrest⟩ := asked_askLines (k := asUnit s.kern u) he hline
      refine ⟨x, hx, howner.trans ?_, hrest⟩
      rw [hwrites.shared]
      rfl

end Sys2Proof.Proofs
end

section
/-! Queues and their engines: slots and packets (R186 to R192). -/

namespace Sys2Proof.Proofs
open Sys2Proof.Machine Sys2Proof.Safety

/-! ## What is written to an object -/

theorem Writes.queues {k k' : Kern} (h : Writes k k') : k'.queues = k.queues := by rw [h.shared]

theorem writeObj_single {k : Kern} {ctx o off a : Nat} {bs : List Byte} (h : objRuns k ctx o off bs.length = .ok [(a, bs.length)]) :
    (writeObj k ctx o off bs).mem = (putBytes k a bs).mem := by
  simp only [writeObj, h, sendWrite_mem, putRuns, List.take_length]

/-- Objects are placed alike in states with the same contexts and extents. -/
theorem objRuns_alike {k k' : Kern} (hc : k'.ctxs = k.ctxs) (he : k'.extents = k.extents) (ctx o off n : Nat) :
    objRuns k' ctx o off n = objRuns k ctx o off n :=
  runsOf_congr (fun ctx o => by simp only [getObj, getCtx_of_ctxs hc]) he ..

theorem objRuns_of_readObj {k : Kern} {ctx o off n : Nat} {bs : List Byte} (h : readObj k ctx o off n = some bs) :
    ∃ rs, objRuns k ctx o off n = .ok rs ∧ getRuns k rs = bs := by
  unfold readObj at h
  cases hr : objRuns k ctx o off n with
  | error e => rw [hr] at h; cases h
  | ok rs =>
    rw [hr] at h
    exact ⟨rs, rfl, Option.some.inj h⟩

theorem getBytes_putBytes (k : Kern) (a : Nat) (bs : List Byte) (h : Memory.wf k.mem = true) : getBytes (putBytes k a bs) a bs.length = bs :=
  readMem_writeMem k.mem a bs h

/-! ## A claimed slot is written (R188) -/

theorem length_slotImage {j : CopyqJob} (h : j.image.length = 64) : (slotImage j).length = 64 := by
  simp [slotImage, length_bytesOfNat, h]

theorem writeSlot_writes {k : Kern} {c : Nat} {j : CopyqJob} {rdx : List Byte} {a : Nat} (hlocal : remoteObj k j.ctx j.queue.toNat = false)
    (hrdx : readObj k j.ctx (capObj j.queue.toNat) (capOff j.queue.toNat) 8 = some rdx) (himage : j.image.length = 64)
    (hslot : objRuns k j.ctx (capObj j.queue.toNat) (slotOffset j.queue.toNat j.cap j.w.toNat) 64 = .ok [(a, 64)])
    (hroom : slotRoom j rdx = true) :
    (writeSlot k c j).mem = (putBytes k a (slotImage j)).mem ∧ ∀ y ∈ (coreOf (writeSlot k c j) c).copyqs, y.id ≠ j.id := by
  obtain ⟨rs, hr, hbytes⟩ := objRuns_of_readObj hrdx
  let k₁ := writeObj (doneWaiting k .slot c j.id) j.ctx (capObj j.queue.toNat) (slotOffset j.queue.toNat j.cap j.w.toNat) (slotImage j)
  have hwrite : writeSlot k c j = registerQueue (dropSlot k₁ c j) j.ctx j.queue.toNat := by
    simp only [writeSlot, hlocal, hr, hslot, hbytes, hroom, Bool.false_eq_true, if_false, if_true]
    rfl
  refine ⟨?_, fun y hy => ?_⟩
  · rw [hwrite, registerQueue_mem]
    refine (writeObj_single (a := a) ?_).trans rfl
    rw [length_slotImage himage]
    exact (objRuns_alike (k := k) (k' := doneWaiting k .slot c j.id) rfl rfl ..).trans hslot
  · rw [hwrite, coreOf_registerQueue, dropSlot, coreOf_modCore_same] at hy
    simpa using (List.mem_filter.1 hy).2

/-! ## An engine takes a slot (R189) -/

theorem readRuns_clean {k : Kern} {ctx cls : Nat} {rs : List (Nat × Nat)} (hp : poisonHits k rs = []) (hs : softHits k rs = 0) :
    readRuns k ctx cls rs = (k, .ok (getRuns k rs)) := by
  have h := readTrap_clean (ctx := ctx) (cls := cls) hp hs
  rwa [readTrap, hp] at h

theorem takePacket_takes {k : Kern} {n a : Nat} {q : Queue} {b : List Byte} {fail : Option W32} (hq : mget k.queues n = some q)
    (hruns : objRuns k q.ctx (capObj q.hdr.toNat) (capOff q.hdr.toNat) 8 = .ok [(a, 8)]) :
    (takePacket k n q b fail).mem = (putBytes k a (bytesOfNat 8 (q.taken + 1))).mem ∧
      mget (takePacket k n q b fail).queues n = some
        { q with taken := q.taken + 1, running := q.running ++ [{ w := q.taken, image := b, order := k.id, fail := fail }] } := by
  have hlen : (bytesOfNat 8 (q.taken + 1)).length = 8 := length_bytesOfNat ..
  refine ⟨?_, ?_⟩
  · refine (writeObj_single (k := { k with id := k.id + 1 }) (a := a) ?_).trans rfl
    rw [hlen]
    exact (objRuns_alike (k := k) (k' := { k with id := k.id + 1 }) rfl rfl ..).trans hruns
  · have hqueues := (writes_writeObj { k with id := k.id + 1 } q.ctx (capObj q.hdr.toNat) (capOff q.hdr.toNat)
      (bytesOfNat 8 (q.taken + 1))).queues
    simp only [takePacket, modQueue, mget_mmod_same, hqueues, hq, Option.map_some]

theorem takeSlot_takes {k : Kern} {c n a : Nat} {q : Queue} {h : List Byte} {rs : List (Nat × Nat)} (hq : mget k.queues n = some q)
    (hhdr : readObj k q.ctx (capObj q.hdr.toNat) (capOff q.hdr.toNat) 64 = some h)
    (hslot : objRuns k q.ctx (capObj q.hdr.toNat) (slotOffset q.hdr.toNat (fieldOf h 16 4) q.taken) 64 = .ok rs)
    (hp : poisonHits k rs = []) (hs : softHits k rs = 0) (hseq : fieldOf (getRuns k rs) 4 4 = q.taken % 2 ^ 32)
    (hfree : q.engine = 0 ∨ q.running = [])
    (hruns : objRuns k q.ctx (capObj q.hdr.toNat) (capOff q.hdr.toNat) 8 = .ok [(a, 8)]) :
    (takeSlot k c n q).mem = (putBytes k a (bytesOfNat 8 (q.taken + 1))).mem ∧
      mget (takeSlot k c n q).queues n = some
        { q with taken := q.taken + 1, running := q.running ++ [{ w := q.taken, image := getRuns k rs, order := k.id, fail := none }] } := by
  obtain ⟨hr, hruns64, hbytes⟩ := objRuns_of_readObj hhdr
  have hmay : (fieldOf (getRuns k rs) 4 4 != q.taken % 2 ^ 32 || (q.engine != 0 && !q.running.isEmpty)) = false := by
    rcases hfree with hf | hf <;> simp [hseq, hf]
  have hread : readRuns (doneWaiting k .header c n) q.ctx 0 rs = (doneWaiting k .header c n, .ok (getRuns k rs)) :=
    readRuns_clean (k := doneWaiting k .header c n) hp hs
  have htake : takeSlot k c n q = takePacket (doneWaiting k .header c n) n q (getRuns k rs) none := by
    simp only [takeSlot, hruns64, hbytes, hslot, hmay, Bool.false_eq_true, if_false, hread]
  rw [htake]
  exact takePacket_takes (k := doneWaiting k .header c n) hq ((objRuns_alike (k := k) rfl rfl ..).trans hruns)

/-! ## A packet retires (R189, R190) -/

theorem le_advanceBelow (done : List Nat) (fuel b : Nat) : b ≤ advanceBelow done fuel b := by
  induction fuel generalizing b with
  | zero => exact Nat.le_refl b
  | succ fuel ih =>
    unfold advanceBelow
    split
    · exact Nat.le_of_succ_le (ih (b + 1))
    · exact Nat.le_refl b

theorem mem_of_lt_advanceBelow {done : List Nat} {fuel b w : Nat} (hlow : b ≤ w) (hhigh : w < advanceBelow done fuel b) : w ∈ done := by
  induction fuel generalizing b with
  | zero => exact absurd hhigh (Nat.not_lt.mpr hlow)
  | succ fuel ih =>
    unfold advanceBelow at hhigh
    split at hhigh
    next h =>
      rcases Nat.eq_or_lt_of_le hlow with rfl | hlt
      · exact List.contains_iff_mem.mp h
      · exact ih hlt hhigh
    · exact absurd hhigh (Nat.not_lt.mpr hlow)

/-- A packet has left its queue, and the count of those that have retired follows. -/
def Left (q q' : Queue) (w : Nat) : Prop :=
  (∀ y, y ∈ q'.running ↔ y ∈ q.running ∧ y.w ≠ w) ∧ q.retiredBelow ≤ q'.retiredBelow ∧
    ∀ x, q.retiredBelow ≤ x → x < q'.retiredBelow → x = w ∨ x ∈ q.retired

theorem leaveQueue_left {k : Kern} {n : Nat} {q : Queue} (hq : mget k.queues n = some q) (p : Packet) :
    ∃ q', mget (leaveQueue k n p).queues n = some q' ∧ Left q q' p.w := by
  simp only [leaveQueue, modQueue, mget_mmod_same, hq, Option.map_some]
  refine ⟨_, rfl, fun y => by simp [List.mem_filter], le_advanceBelow .., fun x hlow hhigh => ?_⟩
  rcases List.mem_append.1 (mem_of_lt_advanceBelow hlow hhigh) with h | h
  · exact .inr h
  · exact .inl (List.mem_singleton.1 h)

/-- The status with which a packet retires. -/
def retireStatus (k : Kern) (n : Nat) (p : Packet) (status : W32) : W32 :=
  ((writeFailure k (packetUnit n p.w)).map (BitVec.ofNat 32)).getD status

section Retiring

variable {s : State} {n : Nat} {q : Queue} {p : Packet} {st : W32}

theorem retirePacket_waits (hfar : farWrites s.kern (packetUnit n p.w) = true) : retirePacket s n q p st = s.kern := if_pos hfar

theorem retirePacket_left (hfar : farWrites s.kern (packetUnit n p.w) = false) {k : Kern}
    (hstatus : packetStatus s.kern q p (retireStatus s.kern n p st) = .ok k) : retirePacket s n q p st =
      leaveQueue (endUnit (doneWaiting k .packet (servingCore s q) (packetJob n p.w)) (packetUnit n p.w)) n p := by
  unfold retirePacket
  unfold retireStatus at hstatus
  simp only [hfar, Bool.false_eq_true, if_false]
  cases hw : writeFailure s.kern (packetUnit n p.w) with
  | none =>
    rw [hw, Option.map_none, Option.getD_none] at hstatus
    simp only [hstatus]
  | some m =>
    rw [hw, Option.map_some, Option.getD_some] at hstatus
    simp only [hstatus]

theorem retirePacket_leaves (hfar : farWrites s.kern (packetUnit n p.w) = false) (hq : mget s.kern.queues n = some q) {k : Kern}
    (hstatus : packetStatus s.kern q p (retireStatus s.kern n p st) = .ok k) (hqueues : k.queues = s.kern.queues) :
    (retirePacket s n q p st).mem = k.mem ∧ ∃ q', mget (retirePacket s n q p st).queues n = some q' ∧ Left q q' p.w := by
  rw [retirePacket_left hfar hstatus]
  exact ⟨rfl, leaveQueue_left (k := endUnit (doneWaiting k .packet (servingCore s q) (packetJob n p.w)) (packetUnit n p.w))
    ((congrArg (mget · n) hqueues).trans hq) p⟩

theorem retirePacket_service (hfar : farWrites s.kern (packetUnit n p.w) = false) {e : Nat × Nat}
    (hstatus : packetStatus s.kern q p (retireStatus s.kern n p st) = .error e) :
    retirePacket s n q p st = waitPacket s n q p.w s.kern e.1 e.2 := by
  unfold retirePacket
  unfold retireStatus at hstatus
  simp only [hfar, Bool.false_eq_true, if_false]
  cases hw : writeFailure s.kern (packetUnit n p.w) with
  | none =>
    rw [hw, Option.map_none, Option.getD_none] at hstatus
    simp only [hstatus]
  | some m =>
    rw [hw, Option.map_some, Option.getD_some] at hstatus
    simp only [hstatus]

end Retiring

end Sys2Proof.Proofs
end

section
/-! The engines of queues: packets, gathers and collectives (R186 to R195, R392, R393). -/

namespace Sys2Proof.Proofs
open Sys2Proof.Machine Sys2Proof.Safety

/-! ## A slot -/

theorem exec_copyqSlotWrite {s : State} {c : Nat} {j : CopyqJob} (h : (coreOf s.kern c).copyqs.find? (fun y => y.id == j.id) = some j) :
    exec (.copyqSlotWrite c j.id) s = .next { s with kern := writeSlot s.kern c j } := by
  change execCopyqSlotWrite c j.id s = _
  unfold execCopyqSlotWrite
  rw [h]
  rfl

theorem exec_queueTakeSlot {s : State} {n : Nat} {q : Queue} (hq : mget s.kern.queues n = some q) (he : q.engine ≤ 2) :
    exec (.queueTakeSlot n) s = .next { s with kern := takeSlot s.kern (servingCore s q) n q } := by
  change execQueueTakeSlot n s = _
  unfold execQueueTakeSlot
  simp only [hq, he, if_true]
  rfl

/-- What stands in memory after bytes have been written. -/
theorem bytes_written {k k' : Kern} {a : Nat} {bs : List Byte} (hk : Memory.wf k.mem = true) (hm : k'.mem = (putBytes k a bs).mem) :
    getBytes k' a bs.length = bs ∧ ∀ b, b < a ∨ a + bs.length ≤ b → seeByte k' b = seeByte k b := by
  refine ⟨?_, fun b hb => (seeByte_of_mem hm b).trans (seeByte_putBytes_outside k a bs hb)⟩
  refine Eq.trans ?_ (getBytes_putBytes k a bs hk)
  simp only [getBytes, hm]

/-! ## A packet with a result -/

section Packets

variable {s : State} {n : Nat} {q : Queue} {p : Packet} (hq : mget s.kern.queues n = some q) (hp : packetOf q p.w = some p)
include hq hp

theorem found_packet : ((mget s.kern.queues n).bind fun q => (packetOf q p.w).map fun p => (q, p)) = some (q, p) := by
  rw [hq, Option.bind_some, hp, Option.map_some]

theorem packetRetire_ended {st : W32} (hfail : p.fail = some st) : exec (.packetRetire n p.w) s =
    .next { s with kern := retirePacket s n q p st, fab := forgetPost s q p } := by
  change execPacketRetire n p.w s = _
  unfold execPacketRetire
  simp only [found_packet hq hp, hfail]
  rfl

/-- A packet whose result is known. -/
theorem setResult_known {k : Kern} (hk : k.queues = s.kern.queues) (status : Nat) :
    ∃ q', mget (setResult k n p.w status).queues n = some q' ∧
      packetOf q' p.w = some { p with fail := some (BitVec.ofNat 32 status) } ∧
      q' = { q with running := q.running.map fun y => if y.w == p.w then { y with fail := some (BitVec.ofNat 32 status) } else y } := by
  simp only [setResult, modQueue, mget_mmod_same, hk, hq, Option.map_some]
  refine ⟨_, rfl, ?_, rfl⟩
  have hpw : ∀ y : Packet, ((if y.w == p.w then { y with fail := some (BitVec.ofNat 32 status) } else y).w == p.w) = (y.w == p.w) := by
    intro y
    split <;> rfl
  rw [packetOf, List.find?_map]
  simp only [Function.comp_def, hpw]
  rw [show q.running.find? (fun y => y.w == p.w) = some p from hp, Option.map_some, beq_self_eq_true, if_pos rfl]

/-- A copy-queue packet that runs to its end retires at once. -/
theorem packetRetire_runs {k : Kern} {status : Nat} (hfail : p.fail = none) (he : q.engine = 0)
    (hrun : runPacket (asUnit s.kern (packetUnit n p.w)) q.ctx p = .done k status) (hk : k.queues = s.kern.queues) :
    ∃ q', mget (setResult (offUnit k) n p.w status).queues n = some q' ∧
      packetOf q' p.w = some { p with fail := some (BitVec.ofNat 32 status) } ∧ exec (.packetRetire n p.w) s = .next { s with
        kern := retirePacket { s with kern := setResult (offUnit k) n p.w status } n q p (BitVec.ofNat 32 status) } := by
  obtain ⟨q', hq', hp', -⟩ := setResult_known hq hp (k := offUnit k) hk status
  refine ⟨q', hq', hp', ?_⟩
  change execPacketRetire n p.w s = _
  unfold execPacketRetire
  have hend : endRun s n q p (.done k status) = setResult (offUnit k) n p.w status := rfl
  simp only [found_packet hq hp, hfail, he, hrun, hend, hq', hp', bne_self_eq_false, Bool.false_eq_true, if_false, Option.bind_some]
  rfl

theorem gather_runs {k : Kern} {status : Nat} (hfail : p.fail = none) (he : q.engine = 1)
    (hrun : runWalk (asUnit s.kern (packetUnit n p.w)) q.ctx p = .done k status) :
    exec (.gather n p.w) s = .next { s with kern := setResult (offUnit k) n p.w status } := by
  change execGather n p.w s = _
  unfold execGather
  simp only [hq, hp, he, hfail, hrun, Option.isNone_none, beq_self_eq_true, Bool.and_self, if_true]
  rfl

end Packets

theorem packetStatus_none {k : Kern} {q : Queue} {p : Packet} {status : W32} (h : packetStw p = false) :
    packetStatus k q p status = .ok k := by
  rw [packetStatus, h, if_neg Bool.false_ne_true]

theorem packetStatus_dropped {k : Kern} {q : Queue} {p : Packet} {status : W32} {e : Nat × Nat} (h : packetStw p = true)
    (he : checkObj k q.ctx (statusCap q p) (capOff (statusCap q p)) 4 4 4 = .error e) : packetStatus k q p status = .ok k := by
  rw [packetStatus, h, if_pos rfl, writeStatus, he]

theorem packetStatus_written {k : Kern} {q : Queue} {p : Packet} {status : W32} {ea : Nat} {rs : List (Nat × Nat)} (h : packetStw p = true)
    (hc : checkObj k q.ctx (statusCap q p) (capOff (statusCap q p)) 4 4 4 = .ok ea)
    (hr : objRuns k q.ctx (capObj (statusCap q p)) ea 4 = .ok rs) :
    packetStatus k q p status = .ok (writeObj k q.ctx (capObj (statusCap q p)) ea (bytesOfNat 4 status.toNat)) := by
  rw [packetStatus, h, if_pos rfl, writeStatus, hc]
  simp only [hr]

theorem packetStatus_waits {k : Kern} {q : Queue} {p : Packet} {status : W32} {ea : Nat} {e : Nat × Nat} (h : packetStw p = true)
    (hc : checkObj k q.ctx (statusCap q p) (capOff (statusCap q p)) 4 4 4 = .ok ea)
    (hr : objRuns k q.ctx (capObj (statusCap q p)) ea 4 = .error e) :
    packetStatus k q p status = .error (capForm (statusCap q p) e.1, e.2) := by
  rw [packetStatus, h, if_pos rfl, writeStatus, hc]
  simp only [hr]

theorem forgetPost_other {s : State} {q : Queue} {p : Packet} (h : q.engine ≠ 2) : forgetPost s q p = s.fab := by
  simp [forgetPost, h]

/-! ## Collectives (R193 to R195) -/

/-- Packets that posts have added to those in flight. -/
structure Posts (s s' : State) (out : List (Nat × Payload)) : Prop where
  rest : s' = { s with kern := s'.kern, fab := s'.fab }
  kern : s'.kern = { s.kern with id := s'.kern.id }
  fab : s'.fab = { s.fab with streams := s'.fab.streams, packets := s'.fab.packets, unacked := s'.fab.unacked }
  packets : ∃ ps, s'.fab.packets = s.fab.packets ++ ps ∧ ps.map (fun y => (y.dst, y.load)) = out ∧ ∀ y ∈ ps, y.cls = .forward

theorem posts_nil (s : State) : Posts s s [] := ⟨rfl, rfl, rfl, [], by simp, rfl, by simp⟩

theorem Posts.trans {s s' s'' : State} {out out' : List (Nat × Payload)} (h : Posts s s' out) (h' : Posts s' s'' out') :
    Posts s s'' (out ++ out') := by
  obtain ⟨ps, h1, h2, h3⟩ := h.packets
  obtain ⟨ps', h1', h2', h3'⟩ := h'.packets
  refine ⟨?_, ?_, ?_, ps ++ ps', ?_, ?_, ?_⟩
  · rw [h'.rest, h.rest]
  · rw [h'.kern, h.kern]
  · rw [h'.fab, h.fab]
  · rw [h1', h1, List.append_assoc]
  · rw [List.map_append, h2, h2']
  · intro y hy
    exact (List.mem_append.1 hy).elim (h3 y) (h3' y)

theorem posts_sendPacket (s : State) (dst lane : Nat) (load : Payload) :
    Posts s (sendPacket s dst lane .forward load) [(dst, load)] := by
  obtain ⟨x, hdst, -, hcls, hload, hpackets, -, -⟩ := sendPacket_sends s dst lane .forward load
  refine ⟨rfl, rfl, ?_, [x], hpackets, by rw [List.map_singleton, hdst, hload], by simp [hcls]⟩
  unfold sendPacket
  dsimp only
  rw [putStream_eq]

theorem posts_parts (m lane : Nat) (ys : List Posted) (s : State) :
    Posts s (ys.foldl (fun s y => sendPacket s m lane .forward (.post y)) s) (ys.map fun y => (m, .post y)) := by
  induction ys generalizing s with
  | nil => exact posts_nil s
  | cons y ys ih => exact (posts_sendPacket s m lane (.post y)).trans (ih _)

theorem posts_sendPosts (ms : List Nat) (x : Posted) (s : State) :
    Posts s (sendPosts s ms x) (ms.flatMap fun m => (postParts x).map fun y => (m, .post y)) := by
  induction ms generalizing s with
  | nil => exact posts_nil s
  | cons m ms ih => exact (posts_parts m (x.cid.toNat % 16) (postParts x) s).trans (ih _)

end Sys2Proof.Proofs
end

section
/-! Collectives (R193 to R195). -/

namespace Sys2Proof.Proofs
open Sys2Proof.Machine Sys2Proof.Safety

/-- What this device has posted for a collective, and to whom: of the posts it knew it keeps those that others names, beside its
own. -/
structure Announced (s s' : State) (own : Posted) (ms : List Nat) (others : Posted → Bool) : Prop where
  rest : s' = { s with kern := s'.kern, fab := s'.fab }
  posted : own ∈ s'.fab.posted
  kept : ∀ y ∈ s'.fab.posted, y ≠ own → others y = true
  packets : ∃ ps, s'.fab.packets = s.fab.packets ++ ps ∧
    (ps.map fun y => (y.dst, y.load)) = ((((heardPosts s.fab own.cid).map (·.dev)).foldl addOnce ms).flatMap fun m =>
      (postParts own).map fun y => (m, Payload.post y)) ∧ ∀ y ∈ ps, y.cls = .forward

/-- The posts of others for a collective do not turn on what this device has posted. -/
theorem heardPosts_unposted (f : Fabric) (cid : W32) :
    heardPosts { f with posted := f.posted.filter fun o => !(o.cid == cid && o.dev == f.dev) } cid = heardPosts f cid := by
  unfold heardPosts
  rw [List.filter_filter]
  refine List.filter_congr fun o _ => ?_
  cases o.cid == cid <;> cases hd : o.dev == f.dev <;> simp [bne, hd]

theorem postColl_announces (s : State) (x : Coll) (ms vals : List Nat) :
    Announced s (postColl s x ms vals) (ownPost s.fab.dev x ms vals false) (ms.filter (· != s.fab.dev))
      (fun y => s.fab.posted.contains y && !(y.cid == x.cid && y.dev == s.fab.dev)) ∧
    (postColl s x ms vals).kern.mem = s.kern.mem ∧ (postColl s x ms vals).kern.queues = s.kern.queues := by
  let own := ownPost s.fab.dev x ms vals false
  let s₁ : State := { s with fab := { s.fab with posted := s.fab.posted.filter fun o => !(o.cid == x.cid && o.dev == s.fab.dev) } }
  let out := ((heardPosts s₁.fab x.cid).map (·.dev)).foldl addOnce (ms.filter (· != s.fab.dev))
  have hposts := posts_sendPosts out own s₁
  have hposted : (sendPosts s₁ out own).fab.posted = s.fab.posted.filter fun o => !(o.cid == x.cid && o.dev == s.fab.dev) := by
    rw [hposts.fab]
  refine ⟨⟨?_, List.mem_append_right _ (List.mem_singleton.mpr rfl), fun y hy hne => ?_, ?_⟩, ?_, ?_⟩
  · have hcoll : postColl s x ms vals = { sendPosts s₁ out own with
        kern := offUnit (sendPosts s₁ out own).kern,
        fab := { (sendPosts s₁ out own).fab with posted := (sendPosts s₁ out own).fab.posted ++ [own] } } := rfl
    rw [hcoll, hposts.rest]
  · rcases List.mem_append.1 hy with hy | hy
    · rw [show (sendPosts s₁ out own).fab.posted = _ from hposted] at hy
      obtain ⟨hmem, hother⟩ := List.mem_filter.1 hy
      rw [List.contains_iff_mem.mpr hmem]
      exact hother
    · exact absurd (List.mem_singleton.1 hy) hne
  · obtain ⟨ps, h1, h2, h3⟩ := hposts.packets
    refine ⟨ps, h1, ?_, h3⟩
    rw [h2]
    simp only [out, s₁, heardPosts_unposted]
    rfl
  · change (sendPosts s₁ out own).kern.mem = s.kern.mem
    rw [hposts.kern]
  · change (sendPosts s₁ out own).kern.queues = s.kern.queues
    rw [hposts.kern]

theorem namedMembers_setResult (k : Kern) (n w status dev ctx : Nat) (x : Coll) :
    namedMembers (setResult k n w status) dev ctx x = namedMembers k dev ctx x := by
  have hread : readObj (setResult k n w status) ctx (capObj x.mem) (capOff x.mem) (4 * x.nmem) =
      readObj k ctx (capObj x.mem) (capOff x.mem) (4 * x.nmem) := by
    simp only [readObj, objRuns_alike (k := k) (k' := setResult k n w status) rfl rfl]
    rfl
  simp only [namedMembers, hread]
  rfl

theorem failColl_announces (s : State) (n : Nat) (q : Queue) (p : Packet) (status : Nat) :
    Announced s (failColl s n q p false status)
      (ownPost s.fab.dev (collOf p) (namedMembers s.kern s.fab.dev q.ctx (collOf p)) [] true)
      (namedMembers s.kern s.fab.dev q.ctx (collOf p)) (fun y => s.fab.posted.contains y && y.cid != (collOf p).cid) ∧
    (failColl s n q p false status).kern.mem = s.kern.mem ∧
    (failColl s n q p false status).kern.queues = (setResult s.kern n p.w status).queues := by
  let ms := namedMembers s.kern s.fab.dev q.ctx (collOf p)
  let own := ownPost s.fab.dev (collOf p) ms [] true
  let s₁ : State := { s with kern := setResult s.kern n p.w status }
  let out := ((heardPosts s.fab (collOf p).cid).map (·.dev)).foldl addOnce ms
  have hposts := posts_sendPosts out own s₁
  let f := endPosts (sendPosts s₁ out own).fab (collOf p).cid ms
  have hfail : failColl s n q p false status =
      { sendPosts s₁ out own with fab := { f with posted := f.posted ++ [own] } } := by
    simp only [failColl, namedMembers_setResult, Bool.false_eq_true, if_false]
    rfl
  have hposted : f.posted = s.fab.posted.filter fun o => o.cid != (collOf p).cid := by
    change (sendPosts s₁ out own).fab.posted.filter _ = _
    rw [hposts.fab]
  rw [hfail]
  refine ⟨⟨?_, List.mem_append_right _ (List.mem_singleton.mpr rfl), fun y hy hne => ?_, ?_⟩, ?_, ?_⟩
  · rw [hposts.rest]
  · rcases List.mem_append.1 hy with hy | hy
    · rw [hposted] at hy
      obtain ⟨hmem, hother⟩ := List.mem_filter.1 hy
      rw [List.contains_iff_mem.mpr hmem]
      exact hother
    · exact absurd (List.mem_singleton.1 hy) hne
  · exact hposts.packets
  · change (sendPosts s₁ out own).kern.mem = s.kern.mem
    rw [hposts.kern]
    rfl
  · change (sendPosts s₁ out own).kern.queues = _
    rw [hposts.kern]

section Collective

variable {s : State} {n : Nat} {q : Queue} {p : Packet} (hq : mget s.kern.queues n = some q) (hp : packetOf q p.w = some p)
  (hfail : p.fail = none) (he : q.engine = 2)
include hq hp hfail he

theorem collective_joins {own : Posted} (hown : posted s (collOf p).cid = some own) (hclash : cidClash s.kern p = false) :
    exec (.collective n p.w) s = .next (joinColl s n q p own) := by
  change execCollective n p.w s = _
  unfold execCollective
  simp only [found_packet hq hp, he, hfail, hclash, hown, bne_self_eq_false, Option.isSome_none, Bool.or_self, Bool.false_eq_true, if_false]
  rfl

theorem collective_ready {k : Kern} {ms vals : List Nat} (hown : posted s (collOf p).cid = none) (hclash : cidClash s.kern p = false)
    (hready : collOwn (asUnit s.kern (packetUnit n p.w)) s.fab.dev q.ctx p (collOf p) false = .ready k ms vals) :
    exec (.collective n p.w) s = .next (postColl { s with kern := k } (collOf p) ms vals) := by
  change execCollective n p.w s = _
  unfold execCollective
  simp only [found_packet hq hp, he, hfail, hclash, hown, hready, bne_self_eq_false, Option.isSome_none, Bool.or_self, Bool.false_eq_true,
    if_false]
  rfl

theorem collective_decided {clash : Bool} {status : Nat} (hclash : cidClash s.kern p = clash)
    (hown : clash = false → posted s (collOf p).cid = none)
    (hdecided : collOwn (asUnit s.kern (packetUnit n p.w)) s.fab.dev q.ctx p (collOf p) clash = .decided status) :
    exec (.collective n p.w) s = .next (failColl s n q p clash status) := by
  have hposted : (if clash then none else posted s (collOf p).cid) = none := by
    cases clash with
    | true => rfl
    | false => exact hown rfl
  change execCollective n p.w s = _
  unfold execCollective
  simp only [found_packet hq hp, he, hfail, hclash, hposted, hdecided, bne_self_eq_false, Option.isSome_none, Bool.or_self,
    Bool.false_eq_true, if_false]
  rfl

end Collective

end Sys2Proof.Proofs
end

section
/-! Queues, their engines, gathers and collectives settle (R186 to R195). -/

namespace Sys2Proof.Proofs
open Sys2Proof.Machine Sys2Proof.Safety

/-- A number has been written at a location. -/
theorem number_written {k k' : Kern} {a n x : Nat} (hk : Memory.wf k.mem = true) (hm : k'.mem = (putBytes k a (bytesOfNat n x)).mem) :
    getNat k' a n = x % 256 ^ n ∧ ∀ b, b < a ∨ a + n ≤ b → seeByte k' b = seeByte k b :=
  getNat_written (w := some x) hk hm

/-- A packet that leaves its queue with its status. -/
theorem packetRetire_leaves {s : State} {n : Nat} {q : Queue} {p : Packet} {st : W32} (hq : mget s.kern.queues n = some q)
    (hp : packetOf q p.w = some p) (hfail : p.fail = some st) (hfar : farWrites s.kern (packetUnit n p.w) = false) {k : Kern}
    (hstatus : packetStatus s.kern q p (retireStatus s.kern n p st) = .ok k) (hqueues : k.queues = s.kern.queues) :
    ∃ s', (exec (.packetRetire n p.w) s = .next s' ∧ s' = { s with kern := s'.kern, fab := s'.fab } ∧ (q.engine ≠ 2 → s'.fab = s.fab) ∧
      ∃ q', mget s'.kern.queues n = some q' ∧ (∀ y, y ∈ q'.running ↔ y ∈ q.running ∧ y.w ≠ p.w) ∧
        q.retiredBelow ≤ q'.retiredBelow ∧ ∀ w, q.retiredBelow ≤ w → w < q'.retiredBelow → w = p.w ∨ w ∈ q.retired) ∧
      s'.kern.mem = k.mem := by
  obtain ⟨hmem, q', hq', hleft⟩ := retirePacket_leaves hfar hq hstatus hqueues
  exact ⟨_, ⟨packetRetire_ended hq hp hfail, rfl, fun he => forgetPost_other he, q', hq', hleft⟩, hmem⟩

/-- A collective that this device has posted for ends, and its posts go. -/
theorem finish_ends {s : State} {n : Nat} {q : Queue} {p : Packet} (hq : mget s.kern.queues n = some q) (hp : packetOf q p.w = some p)
    {k : Kern} (hk : k.queues = s.kern.queues) (status : Nat) {ms : List Nat}
    (hexec : exec (.collective n p.w) s =
      .next { s with kern := setResult (offUnit k) n p.w status, fab := endPosts s.fab (collOf p).cid ms }) :
    ∃ s' q' y, exec (.collective n p.w) s = .next s' ∧ s' = { s with kern := s'.kern, fab := s'.fab } ∧ mget s'.kern.queues n = some q' ∧
      packetOf q' p.w = some y ∧ y = { p with fail := some (BitVec.ofNat 32 status) } ∧ (∀ z ∈ s'.fab.posted, z.cid ≠ (collOf p).cid) ∧
      ∀ b, seeByte s'.kern b = seeByte k b := by
  obtain ⟨q', hq', hp', -⟩ := setResult_known hq hp (k := offUnit k) hk status
  refine ⟨_, q', _, hexec, rfl, hq', hp', rfl, fun z hz => ?_, fun b => rfl⟩
  simpa using (List.mem_filter.1 hz).2

section Join

variable {s : State} {n : Nat} {q : Queue} {p : Packet} {own : Posted}

/-- The members of a collective on other devices. -/
def awayOf (s : State) (own : Posted) : List Nat := own.members.filter (· != s.fab.dev)

/-- The posts that those members have made. -/
def othersOf (s : State) (own : Posted) (cid : W32) : List Posted :=
  (awayOf s own).filterMap fun m => (heardPosts s.fab cid).find? fun y => y.dev == m

theorem joinColl_unreachable (h : ((awayOf s own).any fun m => s.fab.unreachable.contains m) = true) :
    joinColl s n q p own = { s with
      kern := setResult (offUnit s.kern) n p.w (statusWord 0x04 0 0), fab := endPosts s.fab (collOf p).cid own.members } := by
  unfold awayOf at h
  unfold joinColl
  simp only [h, if_true]

theorem joinColl_waits (h : ((awayOf s own).any fun m => s.fab.unreachable.contains m) = false)
    (hlen : (othersOf s own (collOf p).cid).length ≠ (awayOf s own).length) : joinColl s n q p own = s := by
  have hne : ((othersOf s own (collOf p).cid).length != (awayOf s own).length) = true := bne_iff_ne.mpr hlen
  unfold othersOf awayOf at hne
  unfold awayOf at h
  unfold joinColl
  simp only [h, hne, Bool.false_eq_true, if_false, if_true]

theorem joinColl_runs {k : Kern} {status : Nat} (h : ((awayOf s own).any fun m => s.fab.unreachable.contains m) = false)
    (hlen : (othersOf s own (collOf p).cid).length = (awayOf s own).length)
    (hrun : runColl (asUnit s.kern (packetUnit n p.w)) q.ctx (collOf p) own.members
      ((indexWhere (fun m => m == s.fab.dev) own.members).getD 0) own.src (othersOf s own (collOf p).cid)
      (heardPosts s.fab (collOf p).cid) = (k, .ok status)) :
    joinColl s n q p own = { s with
      kern := setResult (offUnit k) n p.w status, fab := endPosts s.fab (collOf p).cid own.members } := by
  have hne : ((othersOf s own (collOf p).cid).length != (awayOf s own).length) = false := bne_eq_false_iff_eq.mpr hlen
  unfold othersOf awayOf at hne hrun
  unfold awayOf at h
  unfold joinColl
  simp only [h, hne, hrun, Bool.false_eq_true, if_false]

end Join

theorem farWrites_setResult (k : Kern) (n w status u : Nat) : farWrites (setResult (offUnit k) n w status) u = farWrites k u := rfl

/-- A copy-queue packet that has run to its end leaves its queue. -/
theorem packetRetire_completes {s : State} {n : Nat} {q : Queue} {p : Packet} {k : Kern} {status : Nat} (hq : mget s.kern.queues n = some q)
    (hp : packetOf q p.w = some p) (hfail : p.fail = none) (he : q.engine = 0)
    (hrun : runPacket (asUnit s.kern (packetUnit n p.w)) q.ctx p = .done k status) (hk : k.queues = s.kern.queues)
    (hfar : farWrites k (packetUnit n p.w) = false) (hstw : packetStw p = false) :
    ∃ s' q', exec (.packetRetire n p.w) s = .next s' ∧ OnlyKern s s' ∧ mget s'.kern.queues n = some q' ∧ (∀ y ∈ q'.running, y.w ≠ p.w) ∧
      ∀ b, seeByte s'.kern b = seeByte k b := by
  obtain ⟨q₁, hq₁, -, hexec⟩ := packetRetire_runs hq hp hfail he hrun hk
  let k₁ := setResult (offUnit k) n p.w status
  have hretire := retirePacket_left (s := { s with kern := k₁ }) (n := n) (q := q) (st := BitVec.ofNat 32 status)
    ((farWrites_setResult k n p.w status _).trans hfar) (packetStatus_none hstw)
  obtain ⟨q', hq', hrunning, -⟩ := leaveQueue_left (k := endUnit (doneWaiting k₁ .packet (servingCore { s with kern := k₁ } q)
    (packetJob n p.w)) (packetUnit n p.w)) hq₁ p
  rw [hretire] at hexec
  refine ⟨_, q', hexec, rfl, hq', fun y hy => ((hrunning y).1 hy).2, seeByte_of_mem ?_⟩
  rfl

/-- Settles O39: slots are written and taken, packets retire, and gathers and collectives end with the status of their work. -/
theorem queueEngines : Obligations.QueueEngines := by
  refine ⟨?_, ?_, ?_, ?_, ?_, ?_⟩
  · intro s c j rdx a hfind o hlocal hrdx himage hm hslot hroom
    obtain ⟨hmem, hgone⟩ := writeSlot_writes (c := c) hlocal hrdx himage hslot (decide_eq_true hroom)
    obtain ⟨hbytes, hother⟩ := bytes_written hm hmem
    rw [length_slotImage himage] at hbytes hother
    exact ⟨_, exec_copyqSlotWrite hfind, rfl, hbytes, hgone, hother⟩
  · intro s n q h rs a hq cap hhdr hm hslot hp hs hseq hengine hruns
    have hle : q.engine ≤ 2 := by omega
    have hfree : q.engine = 0 ∨ q.running = [] := hengine.imp_right And.right
    obtain ⟨hmem, hqueue⟩ := takeSlot_takes (c := servingCore s q) hq hhdr hslot hp hs hseq hfree hruns
    obtain ⟨hnat, hother⟩ := number_written hm hmem
    exact ⟨_, exec_queueTakeSlot hq hle, rfl, hnat, hother, hqueue⟩
  · intro s n q p st hq hp hfail u sta status retires
    have hleaves {k : Kern} (hfar : farWrites s.kern u = false) (hstatus : packetStatus s.kern q p status = .ok k)
        (hqueues : k.queues = s.kern.queues) : ∃ s', retires s' ∧ s'.kern.mem = k.mem :=
      packetRetire_leaves hq hp hfail hfar hstatus hqueues
    refine ⟨fun hfar => ?_, fun hfar hstw => ?_, fun e hfar hstw he => ?_, fun ea a hfar hstw hm he hruns => ?_,
      fun ea e hfar hstw he hruns => ?_⟩
    · exact ⟨_, packetRetire_ended hq hp hfail, retirePacket_waits hfar⟩
    · obtain ⟨s', hretires, hmem⟩ := hleaves hfar (packetStatus_none hstw) rfl
      exact ⟨s', hretires, seeByte_of_mem hmem⟩
    · obtain ⟨s', hretires, hmem⟩ := hleaves hfar (packetStatus_dropped hstw he) rfl
      exact ⟨s', hretires, seeByte_of_mem hmem⟩
    · obtain ⟨s', hretires, hmem⟩ := hleaves hfar (packetStatus_written hstw he hruns) (writes_writeObj ..).queues
      have hlen : (bytesOfNat 4 status.toNat).length = 4 := length_bytesOfNat ..
      obtain ⟨hnat, hother⟩ := number_written (a := a) (n := 4) (x := status.toNat) hm
        (hmem.trans (writeObj_single (by rw [hlen]; exact hruns)))
      exact ⟨s', hretires, hnat.trans (Nat.mod_eq_of_lt status.isLt), hother⟩
    · have hservice := retirePacket_service (s := s) (n := n) (st := st) hfar (packetStatus_waits hstw he hruns)
      have hexec := packetRetire_ended hq hp hfail
      rw [hservice] at hexec
      refine ⟨_, _, hexec, rfl, rfl, List.mem_append_right _ (List.mem_singleton.mpr rfl), rfl, rfl, rfl⟩
  · intro s n q p k status hq hp hfail he hrun hk hfar hstw
    exact packetRetire_completes hq hp hfail he hrun hk hfar hstw
  · intro s n q p k status hq hp hfail he hrun hk
    obtain ⟨q', hq', hp', -⟩ := setResult_known hq hp (k := offUnit k) hk status
    exact ⟨_, q', _, gather_runs hq hp hfail he hrun, rfl, hq', hp', rfl, fun b => rfl⟩
  · intro s n q p hq hp hfail he x start heard posts
    refine ⟨fun k ms vals hown hclash hready hk => ?_, fun status hown hclash hdecided => ?_, fun status hclash hdecided => ?_,
      fun o k' status hown hclash => ?_⟩
    · obtain ⟨hann, hmem, hqueues⟩ := postColl_announces { s with kern := k } x ms vals
      obtain ⟨ps, hpackets, hout, hcls⟩ := hann.packets
      refine ⟨_, ps, collective_ready hq hp hfail he hown hclash hready, ?_, hann.posted, hann.kept, hpackets, hout, hcls, ?_,
        seeByte_of_mem hmem⟩
      · exact hann.rest
      · rw [hqueues]
        exact (congrArg (mget · n) hk).trans hq
    · obtain ⟨hann, hmem, hqueues⟩ := failColl_announces s n q p status
      obtain ⟨ps, hpackets, hout, hcls⟩ := hann.packets
      obtain ⟨q', hq', -, hq'eq⟩ := setResult_known hq hp (k := s.kern) rfl status
      refine ⟨_, ps, collective_decided hq hp hfail he hclash (fun _ => hown) hdecided, hann.rest, hann.posted, hann.kept, hpackets, hout,
        hcls, ?_, seeByte_of_mem hmem⟩
      rw [hqueues, hq', hq'eq]
    · obtain ⟨q', hq', hp', -⟩ := setResult_known hq hp (k := s.kern) rfl status
      exact ⟨_, q', _, collective_decided hq hp hfail he hclash (fun h => by cases h) hdecided, rfl, hq', hp', rfl⟩
    · intro away others ends
      have hexec := collective_joins hq hp hfail he hown hclash
      have hunreachable : (away.any fun m => s.fab.unreachable.contains m) = true ↔ ∃ m ∈ away, m ∈ s.fab.unreachable := by
        simp only [List.any_eq_true, List.contains_iff_mem]
      have hreach (h : ∀ m ∈ away, m ∉ s.fab.unreachable) : (away.any fun m => s.fab.unreachable.contains m) = false :=
        Bool.eq_false_iff.mpr fun hany => by
          obtain ⟨m, hm, hun⟩ := hunreachable.1 hany
          exact h m hm hun
      refine ⟨fun h => ?_, fun h hlen => ?_, fun h hlen hrun hk => ?_⟩
      · rw [joinColl_unreachable (hunreachable.2 h)] at hexec
        exact finish_ends hq hp (k := s.kern) rfl (statusWord 0x04 0 0) hexec
      · rw [joinColl_waits (hreach h) hlen] at hexec
        exact hexec
      · rw [joinColl_runs (hreach h) hlen hrun] at hexec
        exact finish_ends hq hp (k := k') hk status hexec

end Sys2Proof.Proofs
end

section
/-! BAR after BARARR (R229): a BAR that waits for the opening of its own generation marks its arrival as one of BAR, in the barrier
itself. -/

namespace Sys2Proof.Proofs

open Sys2Proof.Machine Sys2Proof.Safety

/-! ## The arrivals of a barrier -/

/-- The arrivals at barrier 0 of block 0 of core 0. -/
def arrivalsOf (k : Kern) : Option (List (Nat × Arrival)) := (blockOf k 0 0).map fun blk => (barOf blk 0).arr

/-- What is within a frame keeps the arrivals: they are no scalar register. -/
theorem arrivalsOf_within {keys : Nat → Nat → Bool} {k k' : Kern} (h : Within 0 keys k k') : arrivalsOf k' = arrivalsOf k := by
  have hbare : ∀ k, arrivalsOf k = ((blockOf k 0 0).map bare).map fun blk => (barOf blk 0).arr := fun k => by
    rw [Option.map_map]; rfl
  rw [hbare, hbare, h.blocks 0]

theorem arrivalsOf_modThis (k : Kern) (t : Thread) (f : Thread → Thread) : arrivalsOf (modThis k 0 t f) = arrivalsOf k := by
  rw [arrivalsOf, blockOf_modThis, arrivalsOf]

theorem arrivalsOf_beforeBody {s : State} (hc : s.cur.core = 0) (i : Instr) (t : Thread) :
    arrivalsOf (beforeBody s i t) = arrivalsOf s.kern := by
  have hblock := blockOf_beforeBody s i t 0
  rw [hc] at hblock
  rw [arrivalsOf, hblock, arrivalsOf]

/-! ## A thread that has arrived with BARARR and issues BAR -/

/-- BAR 0. -/
def barForm : SForm := { g := ⟨false, 7⟩, d := .v 0, a := .v 0, sr := 0, imm := 0 }

/-- The only member of the block has arrived at barrier 0 in its current generation, with BARARR, and is about to issue BAR 0. -/
def arrivedState : State :=
  let s := State.reset.withFetchWord 96 ((encode (.bar barForm)).getD 0).toNat
  { s with
    kern := modBar s.kern 0 0 0 (setArr 0 (some (.inGen 0)))
    cur := { core := 0, entry := 0, mode := .single } }

theorem arrivedState_executes : ExecutesAlone arrivedState (.bar barForm) fetchThread = true := by decide +kernel

theorem arrivalsOf_arrivedState : arrivalsOf arrivedState.kern = some [(0, .inGen 0)] := by decide +kernel

/-- The arrival stands in the current generation of its barrier. -/
theorem arrivedState_arrival :
    (blockOf arrivedState.kern 0 0).map (fun blk => decide (mget (barOf blk 0).arr (memberId blk fetchThread) =
      some (.inGen (barOf blk 0).gen))) = some true := by decide +kernel

/-- The BAR has marked the arrival as one in which it waits. -/
theorem arrivalsOf_bar : (answered (exec (.bar barForm) arrivedState)).map (fun s => arrivalsOf s.kern) = some (some [(0, .byBar 0)]) := by
  decide +kernel

/-- Refutes O17: a BAR of a thread that has arrived with BARARR in the current generation waits, and also changes its arrival at the
barrier to one of BAR. -/
theorem not_barriers : ¬ Obligations.Barriers := by
  unfold Obligations.Barriers
  intro h
  obtain ⟨blk, hblk, harrived⟩ := Option.map_eq_some_iff.mp arrivedState_arrival
  obtain ⟨-, -, hbar⟩ := h barForm arrivedState fetchThread blk rfl hblk
  obtain ⟨-, hwaits, -⟩ := hbar arrivedState_executes
  obtain ⟨s', hexec, hin⟩ := hwaits (.inl (of_decide_eq_true harrived))
  have hkept : arrivalsOf s'.kern = arrivalsOf arrivedState.kern :=
    (arrivalsOf_within hin.within).trans ((arrivalsOf_modThis _ _ _).trans (arrivalsOf_beforeBody rfl _ _))
  have hmoved := arrivalsOf_bar
  rw [hexec, answered, Option.map_some, hkept, arrivalsOf_arrivedState] at hmoved
  exact absurd hmoved (by decide)

end Sys2Proof.Proofs
end

section
/-! MX that meets a failed load of the bed (R208, R211, R241): a cause of 0x10 also sets PRE in the thread. -/

namespace Sys2Proof.Proofs

open Sys2Proof.Machine Sys2Proof.Safety

/-! ## A thread whose MX meets a macro with a failed load -/

/-- MX on accumulator, jig, macro and format slot 0. -/
def mxForm : XForm :=
  { g := ⟨false, 7⟩, la := 0, acc := 0, jg := 0, bdb := 0, bdn := 0, fsi := 0, side := false, cja := false, cjb := false, pge := false,
    pg := 0, vsrc := false, ver := 0, d := .v 0, a := .v 0 }

/-- The launch, with a format in slot 0. -/
def formattedLaunch : Launch := { fetchLaunch with rec_ := fetchRecord.set 128 1 }

/-- The block's jig 0 is valid for slot 0, and the load of its macro 0 has failed with cause 0x10. -/
def failedBed (blk : Block) : Block :=
  { blk with
    jigs := lmod blk.jigs 0 fun j => { j with desc := List.replicate 40 0, valid := true }
    beds := lmod blk.beds 0 fun b => { b with load := .failed 0x10 0 } }

/-- The thread is about to issue the MX. -/
def failedMxState : State :=
  let s := State.reset.withFetchWord 96 ((encode (.mx mxForm)).getD 0).toNat
  { s with
    kern := modBlock { s.kern with launches := mset s.kern.launches 1 formattedLaunch } 0 0 failedBed
    cur := { core := 0, entry := 0, mode := .single } }

theorem failedMxState_executes : ExecutesAlone failedMxState (.mx mxForm) fetchThread = true := by decide +kernel

theorem failedMxState_launch : threadLaunch failedMxState.kern 0 fetchThread = some formattedLaunch := by decide +kernel

theorem failedMxState_trap :
    (blockOf failedMxState.kern 0 0).map (fun blk => mxTrap blk formattedLaunch mxForm) = some (some (0x10, 0)) := by decide +kernel

theorem failedMxState_block : blockOf (beforeBody failedMxState (.mx mxForm) fetchThread) 0 0 = blockOf failedMxState.kern 0 0 :=
  blockOf_beforeBody _ _ _ _

theorem formattedLaunch_handler : recHandler formattedLaunch = some 64 := by decide +kernel

theorem failedMxState_awaits : awaitsHeld failedMxState.kern 0 fetchThread = false := by decide +kernel

theorem failedMxState_takesTraps : TakesTraps failedMxState fetchThread formattedLaunch 64 :=
  ⟨failedMxState_launch, formattedLaunch_handler, rfl, failedMxState_awaits, rfl⟩

/-- PRE of the thread. -/
def preOf (s : State) : Option Bool := (getThread s.kern 0 0 0).map (·.pre)

/-- The trap has set it. -/
theorem preOf_mx : (answered (exec (.mx mxForm) failedMxState)).map preOf = some (some true) := by decide +kernel

/-- Refutes O29: an MX that meets a failed load with cause 0x10 takes the trap and sets PRE, which the statement holds unchanged. -/
theorem not_matrixLaunches : ¬ Obligations.MatrixLaunches := by
  unfold Obligations.MatrixLaunches
  intro h
  obtain ⟨blk, hblk, htrap⟩ := Option.map_eq_some_iff.mp failedMxState_trap
  obtain ⟨htraps, -⟩ := h mxForm false (.mx mxForm) failedMxState fetchThread blk formattedLaunch rfl failedMxState_executes
    (failedMxState_block.trans hblk) failedMxState_launch
  obtain ⟨s', hexec, hto⟩ := htraps (0x10, 0) 64 htrap (by decide) (by decide) failedMxState_takesTraps
  obtain ⟨u, hu, hkept⟩ := hto.kept
  have hpre : preOf s' = some false := by
    rw [preOf, show getThread s'.kern 0 0 0 = some u from hu, Option.map_some, hkept]
    rfl
  have hset := preOf_mx
  rw [hexec, answered, Option.map_some, hpre] at hset
  exact absurd hset (by decide)

end Sys2Proof.Proofs
end

section
/-! JIG at a place that was never written (R203, R304, R382): in log mode the read of the place enters a record in the fault log,
and a log that lies over the thread's code changes the line that its trap record tells of. -/

namespace Sys2Proof.Proofs

open Sys2Proof.Machine Sys2Proof.Safety

/-! ## A thread whose fault log begins at its line -/

/-- JIG 0 from the descriptor at the place in v0 and v1, with the base in v0 and v1. -/
def jigForm : XForm :=
  { g := ⟨false, 7⟩, la := 0, acc := 0, jg := 0, bdb := 0, bdn := 0, fsi := 0, side := false, cja := false, cjb := false, pge := false,
    pg := 0, vsrc := false, ver := 0, d := .v 0, a := .v 0 }

/-- The launch of the fetched word, with its detector of words that were never written in log mode. -/
def countingLaunch : Launch := { fetchLaunch with rec_ := fetchRecord.set 7 4 }

/-- The context's fault log begins at offset 0 of its code object, where the line word is 0x7F, and the line is in no buffer. -/
def loggedCodeState : State :=
  let s := State.reset.withFetchWord 96 0
  let k := modCtx (modCore s.kern 0 fun core => { core with lines := [] }) 0 fun x =>
    { x with log := BitVec.ofNat 64 (2 ^ 40 + 12 * 2 ^ 36), objs := [(1, { fetchObject with wr := true })] }
  { s with
    kern := { k with mem := writeMem [] 0 [0x7F], launches := mset k.launches 1 countingLaunch }
    cur := { core := 0, entry := 0, mode := .single } }

theorem loggedCodeState_executes : ExecutesAlone loggedCodeState (.jig jigForm) fetchThread = true := by decide +kernel

theorem loggedCodeState_place : readPair loggedCodeState.kern 0 fetchThread jigForm.a = 0 := by decide +kernel

theorem loggedCodeState_pairt : pairtOf loggedCodeState.kern 0 countingLaunch (curPc loggedCodeState) = 0 := by decide +kernel

theorem countingLaunch_handler : recHandler countingLaunch = some 64 := by decide +kernel

theorem loggedCodeState_takesTraps : TakesTraps loggedCodeState fetchThread countingLaunch 64 :=
  ⟨by decide +kernel, countingLaunch_handler, rfl, by decide +kernel, rfl⟩

/-- The read of the descriptor. -/
def descRead : Kern × Except Course (List Byte) :=
  readPlace loggedCodeState (beforeBody loggedCodeState (.jig jigForm) fetchThread) fetchThread 0 64

/-- The bytes that a read of a place answers. -/
def bytesRead (r : Kern × Except Course (List Byte)) : Option (List Byte) :=
  match r.2 with
  | .ok d => some d
  | .error _ => none

theorem eq_of_bytesRead {r : Kern × Except Course (List Byte)} {d : List Byte} (h : bytesRead r = some d) : r = (r.1, .ok d) := by
  obtain ⟨k, e | b⟩ := r
  · cases h
  · cases h; rfl

theorem descRead_bytes : bytesRead descRead = some (List.replicate 64 0) := by decide +kernel

theorem descRead_block : (blockOf descRead.1 0 0).isSome = true := by decide +kernel

theorem descRead_launch : threadLaunch descRead.1 0 fetchThread = some countingLaunch := by decide +kernel

theorem descRead_thread : getThread descRead.1 0 0 0 = some fetchThread := by decide +kernel

theorem descValid_zeros : descValid countingLaunch (List.replicate 64 0) = false := by decide +kernel

/-- Trap register k1 of the thread, which holds the code of its last trap. -/
def codeOf (s : State) : W32 := seeReg s.kern 0 fetchThread (.k 1)

/-- The trap record tells the PAIRT of the line after the record of the log. -/
theorem codeOf_jig : (answered (exec (.jig jigForm) loggedCodeState)).map codeOf = some 0x00100100 := by decide +kernel

/-- Refutes O28: the read of JIG's place changes the thread's own line through the fault log, so the trap of a bad descriptor records
the PAIRT of the line as the read leaves it, and not as it stood before. -/
theorem not_matrixUnits : ¬ Obligations.MatrixUnits := by
  unfold Obligations.MatrixUnits
  rintro ⟨⟨hjig, -⟩, -⟩
  obtain ⟨blk, hblk⟩ := Option.isSome_iff_exists.mp descRead_block
  have hread : readPlace loggedCodeState (beforeBody loggedCodeState (.jig jigForm) fetchThread) fetchThread
      (readPair loggedCodeState.kern loggedCodeState.cur.core fetchThread jigForm.a) 64 =
        (descRead.1, .ok (List.replicate 64 0)) := by
    rw [show readPair loggedCodeState.kern loggedCodeState.cur.core fetchThread jigForm.a = 0 from loggedCodeState_place]
    exact eq_of_bytesRead descRead_bytes
  obtain ⟨-, htraps, -⟩ := hjig jigForm loggedCodeState descRead.1 fetchThread (List.replicate 64 0) blk countingLaunch
    loggedCodeState_executes hread hblk descRead_launch
  obtain ⟨s', hexec, hto⟩ := htraps descValid_zeros countingLaunch 64 loggedCodeState_takesTraps descRead_thread
  have hcode : codeOf s' = 0x00000100 := by
    have h := hto.record.code
    rw [show pairtOf loggedCodeState.kern loggedCodeState.cur.core countingLaunch (curPc loggedCodeState) = 0 from
      loggedCodeState_pairt] at h
    exact h
  have hset := codeOf_jig
  rw [hexec, answered, Option.map_some, hcode] at hset
  exact absurd hset (by decide)

end Sys2Proof.Proofs
end

section
/-! Special registers (R244 to R246): the words that are put together from fields, RATIOEV and ENBAYS bit by bit. -/

namespace Sys2Proof.Proofs

open Sys2Proof.Machine Sys2Proof.Safety

/-! ## Masks -/

theorem testBit_foldl_lor (ls : List Nat) (a b : Nat) :
    (ls.foldl (fun acc i => Nat.lor acc (2 ^ i)) a).testBit b = (a.testBit b || ls.contains b) := by
  induction ls generalizing a with
  | nil => simp
  | cons i ls ih =>
    have hlor : (Nat.lor a (2 ^ i)).testBit b = (a.testBit b || decide (i = b)) :=
      (Nat.testBit_or a (2 ^ i) b).trans (by rw [Nat.testBit_two_pow])
    rw [List.foldl_cons, ih, hlor, List.contains_cons, Bool.or_assoc, show (b == i) = decide (i = b) from by
      rw [Bool.beq_comm, beq_eq_decide]]

/-- A bit of the mask of a list of numbers. -/
theorem testBit_bitsOf (ls : List Nat) (b : Nat) : (bitsOf ls).testBit b = true ↔ b ∈ ls := by
  rw [bitsOf, testBit_foldl_lor, Nat.zero_testBit, Bool.false_or, List.contains_iff_mem]

theorem testBit_enabledBays (s : State) (b : Nat) :
    (enabledBays s).testBit b = true ↔ ∃ y, (b, y) ∈ s.pwr.bays ∧ y.enabled = true := by
  rw [enabledBays, testBit_bitsOf, List.mem_map]
  constructor
  · rintro ⟨p, hp, rfl⟩
    exact ⟨p.2, List.mem_filter.mp hp⟩
  · rintro ⟨y, hy⟩
    exact ⟨(b, y), List.mem_filter.mpr hy, rfl⟩

/-! ## Words of several fields -/

theorem toNat_ratiosWord (s : State) : (ratiosWord s).toNat =
    s.pwr.seq.toNat * 2 ^ 16 + s.pwr.grant.memory % 16 * 2 ^ 12 + s.pwr.grant.network % 16 * 2 ^ 8 +
      s.pwr.grant.vector % 16 * 2 ^ 4 + s.pwr.grant.matrix % 16 := by
  have hseq := s.pwr.seq.isLt
  rw [ratiosWord, BitVec.toNat_ofNat]
  exact Nat.mod_eq_of_lt (by omega)

/-- The three bits of a number below 8. -/
theorem testBit_three (a b c : Bool) :
    ((if a then 4 else 0) + (if b then 2 else 0) + (if c then 1 else 0) : Nat) < 8 ∧
    ((if a then 4 else 0) + (if b then 2 else 0) + (if c then 1 else 0) : Nat).testBit 0 = c ∧
    ((if a then 4 else 0) + (if b then 2 else 0) + (if c then 1 else 0) : Nat).testBit 1 = b ∧
    ((if a then 4 else 0) + (if b then 2 else 0) + (if c then 1 else 0) : Nat).testBit 2 = a := by
  revert a b c
  decide

/-- RATIOEV has a bit for each word that is not as the thread has seen it. -/
theorem ratioEvents_bits (s : State) (c : Nat) (t : Thread) :
    ratioEvents s c t < 8 ∧ ((ratioEvents s c t).testBit 0 = true ↔ (ratiosWord s).toNat ≠ t.seenRatios.toNat) ∧
    ((ratioEvents s c t).testBit 1 = true ↔ (stepWord s c).toNat ≠ t.seenStep.toNat) ∧
    ((ratioEvents s c t).testBit 2 = true ↔ (bandWord s c).toNat ≠ t.seenBand.toNat) := by
  obtain ⟨hlt, h0, h1, h2⟩ :=
    testBit_three (bandWord s c != t.seenBand) (stepWord s c != t.seenStep) (ratiosWord s != t.seenRatios)
  have hne (v w : W32) : (v != w) = true ↔ v.toNat ≠ w.toNat := by rw [bne_iff_ne, ne_eq, ne_eq, BitVec.toNat_inj]
  exact ⟨hlt, by rw [ratioEvents, h0, hne], by rw [ratioEvents, h1, hne], by rw [ratioEvents, h2, hne]⟩

theorem regsOf_eq {k : Kern} {c : Nat} {t : Thread} {g : Group} (h : groupOf k c t = some g) : regsOf k c t = g.regs := by
  rw [regsOf, h]; rfl

theorem ctxOf_eq {k : Kern} {c : Nat} {t : Thread} {b : Block} (h : blockOf k c t.block = some b) : ctxOf k c t = b.ctx := by
  rw [ctxOf, h]; rfl

theorem coreBay_eq {s : State} {c : Nat} {y : Bay} (h : mget s.pwr.bays (c / 8) = some y) : coreBay s c = y := by
  rw [coreBay, bayOf, h]; rfl

/-! ## The special registers of a thread's launch, of its cell and of its bay -/

theorem specialValue_launch {s : State} {t : Thread} {l : Launch} (h : threadLaunch s.kern s.cur.core t = some l) :
    specialValue s t 0x004 = recWidth l ∧ specialValue s t 0x015 = recX l ∧ specialValue s t 0x016 = recY l ∧
    specialValue s t 0x017 = recZ l ∧ specialValue s t 0x018 = recStages l := by
  simp only [specialValue, h, Option.map_some, Option.getD_some, and_self]

theorem specialValue_stages {s : State} {t : Thread} {l : Launch} (h : threadLaunch s.kern s.cur.core t = some l)
    (hf : inField s.kern s.cur.core t = false) : specialValue s t 0x013 = recTstage l := by
  simp only [specialValue, h, hf, Option.map_some, Option.getD_some, Bool.false_eq_true, if_false]

theorem specialValue_cell {s : State} {t : Thread} {l : Launch} {r : XRegion} {b : Nat}
    (h : cellPlace s.kern s.cur.core t = some (l, r, b)) :
    specialValue s t 0x010 = (cellAt l r.brick b).x ∧ specialValue s t 0x011 = (cellAt l r.brick b).y ∧
    specialValue s t 0x012 = (cellAt l r.brick b).z ∧
    (inField s.kern s.cur.core t = true → specialValue s t 0x013 = (cellAt l r.brick b).s) ∧
    specialValue s t 0x014 = sigmaAt s.kern (recordAt s.cur.core r b) % 2 ^ 32 := by
  have hcell : cellHere s.kern s.cur.core t = some (cellAt l r.brick b) := by rw [cellHere, h]; rfl
  have hsigma : sigmaOf s.kern s.cur.core t = sigmaAt s.kern (recordAt s.cur.core r b) := by rw [sigmaOf, h]
  refine ⟨?_, ?_, ?_, fun hf => ?_, ?_⟩
  · simp only [specialValue, hcell, Option.map_some, Option.getD_some]
  · simp only [specialValue, hcell, Option.map_some, Option.getD_some]
  · simp only [specialValue, hcell, Option.map_some, Option.getD_some]
  · simp only [specialValue, hcell, hf, if_true, Option.map_some, Option.getD_some]
  · simp only [specialValue, hsigma]

theorem specialValue_bay {s : State} {t : Thread} {y : Bay} (h : mget s.pwr.bays (s.cur.core / 8) = some y) :
    specialValue s t 0x032 = y.step % 2 ^ 32 ∧ specialValue s t 0x033 = y.band % 2 ^ 32 := by
  simp only [specialValue, stepWord, bandWord, coreBay_eq h, BitVec.toNat_ofNat, and_self]

/-- Settles O14: register by register; those that are put together from fields by their bits. -/
theorem specialRegisterMap : Obligations.SpecialRegisterMap := by
  unfold Obligations.SpecialRegisterMap
  intro s t
  obtain ⟨hevents, hratios, hstep, hband⟩ := ratioEvents_bits s s.cur.core t
  exact ⟨rfl, rfl, rfl, rfl, fun _ => specialValue_launch,
    fun b hb => ⟨by simp only [specialValue, hb, Option.map_some, Option.getD_some], ctxOf_eq hb⟩,
    rfl, rfl, rfl, rfl, rfl, fun _ => regsOf_eq, rfl, fun _ _ _ => specialValue_cell, rfl, rfl, rfl, rfl,
    BitVec.toNat_ofNat .., rfl, fun _ => specialValue_stages, toNat_ratiosWord s, hevents, hratios, hstep, hband,
    fun _ => specialValue_bay, rfl, rfl, testBit_enabledBays s⟩

end Sys2Proof.Proofs
end

section
/-! POST (R231, R354): a prepared card joins a queue, and the run that it counts towards has one more card out. -/

namespace Sys2Proof.Proofs

open Sys2Proof.Machine Sys2Proof.Safety

/-! ## The state in which the card is counted -/

/-- The run of a graph has one more card out. -/
def cardOut (k : Kern) (g : Nat) : Kern := { k with graphs := mmod k.graphs g fun y => { y with cardsOut := y.cardsOut + 1 } }

/-- The card of a node that a thread posts. -/
def cardOf (k : Kern) (c : Nat) (t : Thread) (n : Nat) (node : Node) : Card :=
  { ctx := ctxOf k c t, card := n, rec_ := node.rec_, graph := posterGraph k c t, launch := none }

theorem postBody_posts {k : Kern} {c n : Nat} {t : Thread} {node : Node} (h : preparedNode k (ctxOf k c t) n = some node)
    (push : Kern → Card → Kern) :
    postBody c n push k t = (push (cardOut k (posterGraph k c t)) (cardOf k c t n node), .next) := by
  simp only [postBody, h, cardOut, cardOf]

theorem postBody_unprepared {k : Kern} {c n : Nat} {t : Thread} (h : preparedNode k (ctxOf k c t) n = none)
    (push : Kern → Card → Kern) : postBody c n push k t = (k, .trap 0x05 0 0) := by
  simp only [postBody, h]

/-! ## Queues of cards hold no thread -/

theorem getThread_pushCore (k : Kern) (d : Nat) (y : Card) (c a b : Nat) :
    getThread (pushCore k d y) c a b = getThread k c a b := by
  by_cases h : c = d
  · subst h
    exact getThread_modCore_of_threads (f := fun core => { core with cards := core.cards ++ [y] }) (fun _ => rfl) a b
  · simp only [getThread, pushCore, coreOf_modCore_other k _ h]

theorem getThread_pushBay (k : Kern) (d : Nat) (y : Card) (c a b : Nat) :
    getThread (pushBay k d y) c a b = getThread k c a b := rfl

/-! ## The thread that posts -/

section Posting

variable {s : State} {i : Instr} {t : Thread}

theorem preparedNode_beforeBody (n : Nat) :
    preparedNode (beforeBody s i t) (ctxOf (beforeBody s i t) s.cur.core t) n = preparedNode s.kern (ctxOf s.kern s.cur.core t) n := by
  have hk : ButCaches s.cur.core s.kern (beforeBody s i t) := caches_before s.kern s.cur.core i [t]
  have hgraphs : (beforeBody s i t).graphs = s.kern.graphs := by rw [hk.shared]
  rw [ctxOf_butCaches hk, preparedNode, hgraphs, preparedNode]

theorem posterGraph_beforeBody : posterGraph (beforeBody s i t) s.cur.core t = posterGraph s.kern s.cur.core t := by
  have hk : ButCaches s.cur.core s.kern (beforeBody s i t) := caches_before s.kern s.cur.core i [t]
  rw [posterGraph, threadLaunch_butCaches hk, posterGraph]

theorem cardOf_beforeBody (n : Nat) (node : Node) :
    cardOf (beforeBody s i t) s.cur.core t n node = cardOf s.kern s.cur.core t n node := by
  have hk : ButCaches s.cur.core s.kern (beforeBody s i t) := caches_before s.kern s.cur.core i [t]
  rw [cardOf, ctxOf_butCaches hk, posterGraph_beforeBody, cardOf]

/-- A prepared card is pushed to a queue, and the thread goes on. -/
theorem post_goesOn (ha : ExecutesAlone s i t = true) {a : Opnd} {node : Node}
    (hnode : preparedNode s.kern (ctxOf s.kern s.cur.core t) (srcRaw s t .n32 a) = some node) {push : Kern → Card → Kern}
    (hpush : ∀ k y x z, getThread (push k y) s.cur.core x z = getThread k s.cur.core x z) :
    GoesOnFrom s (push (cardOut (beforeBody s i t) (posterGraph s.kern s.cur.core t))
        (cardOf s.kern s.cur.core t (srcRaw s t .n32 a) node)) t
      (issueEach s i fun k u _ => postBody s.cur.core (srcRaw s u .n32 a) push k u) (curNext s) := by
  refine issueEach_goesOn_of_thread ha ?_ (hpush ..)
  rw [postBody_posts ((preparedNode_beforeBody _).trans hnode), posterGraph_beforeBody, cardOf_beforeBody]

/-- A card that is not prepared raises rights. -/
theorem post_traps {l : Launch} {h : Nat} (ha : ExecutesAlone s i t = true) (hd : TakesTraps s t l h) {a : Opnd}
    (hnone : preparedNode s.kern (ctxOf s.kern s.cur.core t) (srcRaw s t .n32 a) = none) (push : Kern → Card → Kern) :
    TrapsTo s (issueEach s i fun k u _ => postBody s.cur.core (srcRaw s u .n32 a) push k u) t h
      (pairtOf s.kern s.cur.core l (curPc s)) 0x05 0 (curPc s) 0 :=
  issueEach_traps ha _ hd (postBody_unprepared ((preparedNode_beforeBody _).trans hnone) push) 0x05 0 (curPc s) 0
    (curPc_lt (executes_single (alone_executes ha))) (by decide) (by decide) (by decide) (by decide) (.inr ⟨rfl, rfl⟩)

end Posting

/-- Settles O15: the three queues differ in the push alone, which moves no thread. -/
theorem jobCards : Obligations.JobCards := by
  unfold Obligations.JobCards
  refine ⟨fun x s t y ha hnode => ?core, fun x s t y ha hnode => ?nbr, fun x s t y ha hnode => ?bay,
    fun x s t l h m hm ha hd hnone => ?unprepared⟩
  case core => exact ⟨_, rfl, post_goesOn ha hnode fun k y => getThread_pushCore k _ y _⟩
  case nbr => exact ⟨_, rfl, post_goesOn ha hnode fun k y => getThread_pushCore k _ y _⟩
  case bay => exact ⟨_, rfl, post_goesOn ha hnode fun k y => getThread_pushBay k (bayOf s.cur.core) y _⟩
  case unprepared =>
    simp only [List.mem_cons, List.not_mem_nil, or_false] at hm
    rcases hm with rfl | rfl | rfl
    · exact ⟨_, rfl, post_traps ha hd hnone fun k y => pushCore k s.cur.core y⟩
    · exact ⟨_, rfl, post_traps ha hd hnone fun k y => pushCore k (afterInBay s.cur.core x.imm.toNat) y⟩
    · exact ⟨_, rfl, post_traps ha hd hnone fun k y => pushBay k (bayOf s.cur.core) y⟩

end Sys2Proof.Proofs
end

section
/-! Faces of a cell (R220, R222, R283): FWR stages, NQ looks up a neighbour, and publishing writes the bank that is not current. -/

namespace Sys2Proof.Proofs

open Sys2Proof.Machine Sys2Proof.Safety

/-! ## FWR -/

theorem keepsKey_stageValue (n : Nat) (vs : List W32) : KeepsKey (stageValue n vs) := fun t => by
  unfold stageValue
  split <;> exact ⟨rfl, rfl⟩

theorem keepsHeld_stageValue (n : Nat) (vs : List W32) : KeepsHeld (stageValue n vs) := fun t => by
  unfold stageValue
  split <;> exact ⟨rfl, rfl, rfl⟩

theorem stageValue_regs (n : Nat) (vs : List W32) (t : Thread) (r : RegFile) :
    stageValue n vs { t with regs := r } = { stageValue n vs t with regs := r } := by
  unfold stageValue
  split <;> rfl

theorem writeRegs_nil (k : Kern) (c : Nat) (t : Thread) (d : List Reg) : writeRegs k c t d [] = k := by
  unfold writeRegs
  split
  · next h => cases h
  · rfl

/-- FWR stages its value in each thread in which it executes. -/
theorem fwr_completes {s : State} {x : RForm} {t : Thread} (hx : Executes s (.fwr x) t = true) :
    ∃ s', exec (.fwr x) s = .next s' ∧ Completes s s' (.fwr x) t (.values [])
      (stageValue (faceNumber x.d) (place x.ty (srcRaw s t x.ty x.a)) t) (curNext s) := by
  refine ⟨_, rfl, issue_completes hx _ (fun _ => .values [])
    (fun u => stageValue (faceNumber x.d) (place x.ty (srcRaw s u x.ty x.a))) (fun _ => .next) (fun u _ _ k d => ⟨rfl, ?_⟩)
    (fun _ => keepsHeld_stageValue _ _) (fun _ _ _ => rfl) _ rfl (destination_nodup s _ t) List.nodup_nil⟩
  have hbody := body_writeRegs_modThis (keepsKey_stageValue (faceNumber x.d) (place x.ty (srcRaw s u x.ty x.a)))
    (keepsHeld_stageValue _ _) (stageValue_regs _ _) k s.cur.core u d []
  rwa [writeRegs_nil] at hbody

/-- A type that is not wide fills one register. -/
theorem place_narrow {ty : Ty} (h : tyWide ty = false) (raw : Nat) : ∃ v, place ty raw = [v] := by
  have hne : tyBits ty ≠ 64 := by simpa [tyWide] using h
  unfold place
  split
  · next h64 => exact absurd h64 hne
  · exact ⟨_, rfl⟩
  · split <;> exact ⟨_, rfl⟩

/-- A wide type fills a pair. -/
theorem place_wide {ty : Ty} (h : tyWide ty = true) (raw : Nat) : ∃ v w, place ty raw = [v, w] := by
  have h64 : tyBits ty = 64 := by simpa [tyWide] using h
  simp only [place, h64]
  exact ⟨_, _, rfl⟩

/-! ## NQ -/

theorem nq_completes {s : State} {x : RForm} {t : Thread} {e : Effect} (hx : Executes s (.nq x) t = true)
    (htrap : ∀ u, (nqEffect s x u).trap = none) (he : nqEffect s x t = e) (hp : (e.preds.map (·.1)).Nodup) :
    ∃ s', exec (.nq x) s = .next s' ∧ Completes s s' (.nq x) t e t (curNext s) := by
  subst he
  exact ⟨_, rfl, issuePlain_completes hx _ (fun u _ => htrap u) (destination_nodup s _ t) hp⟩

theorem nqEffect_trap (s : State) (x : RForm) (t : Thread) : (nqEffect s x t).trap = none := by
  unfold nqEffect
  split
  · rfl
  · dsimp only
    split <;> rfl

theorem contains_bricks (bricks : List (Nat × Nat)) (n : Nat) :
    (!bricks.any fun p => p.1 == n) = decide (n ∉ bricks.map (·.1)) := by
  rw [Bool.eq_iff_iff, Bool.not_eq_true', ← Bool.not_eq_true, List.any_eq_true, decide_eq_true_eq, List.mem_map]
  simp only [beq_iff_eq]

theorem facesAndNeighbours : Claims.FacesAndNeighbours := by
  unfold Claims.FacesAndNeighbours
  refine ⟨fun x s t d n hd hw hx => ?narrow, fun x s t d n hd hw hx => ?wide, fun x s t l r b q hom hq hc hx => ?exists_,
    fun x s t l r b hom hc hx => ?index, fun x s t l r b q hom hq hc hx => ?remote⟩
  case narrow =>
    obtain ⟨v, hv⟩ := place_narrow hw (srcRaw s t x.ty x.a)
    obtain ⟨s', hexec, h⟩ := fwr_completes hx
    rw [hv, hd] at h
    exact ⟨s', v, hexec, hv, h⟩
  case wide =>
    obtain ⟨v, w, hv⟩ := place_wide hw (srcRaw s t x.ty x.a)
    obtain ⟨s', hexec, h⟩ := fwr_completes hx
    rw [hv, hd] at h
    exact ⟨s', v, w, hexec, hv, h⟩
  case exists_ =>
    refine nq_completes hx (nqEffect_trap s x) ?_ (List.nodup_singleton _)
    simp only [nqEffect, hc, hom, hq, Effect.pred, Effect.values]
    rfl
  case index =>
    refine nq_completes hx (nqEffect_trap s x) ?_ List.nodup_nil
    simp only [nqEffect, hc, hom]
    rfl
  case remote =>
    refine nq_completes hx (nqEffect_trap s x) ?_ (List.nodup_singleton _)
    simp only [nqEffect, hc, hom, hq, Effect.pred, Effect.values, contains_bricks]
    rfl

/-! ## Numbers and bytes of a range -/

theorem getNat_congr {k k' : Kern} {a n : Nat} (h : ∀ i, i < n → seeByte k' (a + i) = seeByte k (a + i)) :
    getNat k' a n = getNat k a n := by
  simp only [getNat, getBytes, readMem_eq_map]
  exact congrArg natOfBytes (List.map_congr_left fun i hi => h i (List.mem_range.mp hi))

theorem getNat_of_mem {k k' : Kern} (h : k'.mem = k.mem) (a n : Nat) : getNat k' a n = getNat k a n := by
  simp only [getNat, getBytes, h]

theorem getNat_putBytes_outside (k : Kern) (a : Nat) (bs : List Byte) {b n : Nat} (h : b + n ≤ a ∨ a + bs.length ≤ b) :
    getNat (putBytes k a bs) b n = getNat k b n :=
  getNat_congr fun i hi => seeByte_putBytes_outside k a bs (by omega)

theorem length_flatMap_words (xs : List W32) : (xs.flatMap fun x => bytesOfNat 4 x.toNat).length = 4 * xs.length := by
  induction xs with
  | nil => rfl
  | cons x xs ih => rw [List.flatMap_cons, List.length_append, length_bytesOfNat, ih, List.length_cons]; omega

/-- Word n of the bytes of words. -/
theorem drop_take_flatMap_words (xs : List W32) {n : Nat} (h : n < xs.length) :
    ((xs.flatMap fun x => bytesOfNat 4 x.toNat).drop (4 * n)).take 4 = bytesOfNat 4 xs[n].toNat := by
  induction xs generalizing n with
  | nil => cases h
  | cons x xs ih =>
    have hlen : (bytesOfNat 4 x.toNat).length = 4 := length_bytesOfNat 4 _
    cases n with
    | zero => rw [Nat.mul_zero, List.drop_zero, List.flatMap_cons, List.take_left' hlen, List.getElem_cons_zero]
    | succ n =>
      rw [List.flatMap_cons, show 4 * (n + 1) = 4 + 4 * n by omega, ← List.drop_drop, List.drop_left' hlen,
        ih (Nat.lt_of_succ_lt_succ h), List.getElem_cons_succ]

/-- A word of words that were written. -/
theorem getNat_putBytes_words {k : Kern} (a : Nat) (xs : List W32) {n : Nat} (hk : Memory.wf k.mem = true) (h : n < xs.length) :
    getNat (putBytes k a (xs.flatMap fun x => bytesOfNat 4 x.toNat)) (a + 4 * n) 4 = xs[n].toNat := by
  rw [getNat, ← getBytes_drop_take _ a (4 * xs.length) (4 * n) 4 (by omega), ← length_flatMap_words xs, getBytes_putBytes k a _ hk,
    drop_take_flatMap_words xs h, natOfBytes_bytesOfNat]
  exact Nat.mod_eq_of_lt xs[n].isLt

/-! ## What publishing leaves in the record -/

/-- The staged faces in the bank that is not current, with the step as its TAG, where something was staged. -/
def withFaces (k : Kern) (at_ : Nat) (t : Thread) : Kern :=
  if t.marks.any (· == true) then
    putBytes (putBytes k (at_ + 64 * (1 - currentBank k at_)) ((newFaces k at_ t).flatMap fun x => bytesOfNat 4 x.toNat))
      (at_ + 128 + 8 * (1 - currentBank k at_)) (bytesOfNat 8 (sigmaAt k at_))
  else k

/-- Publishing writes the faces and σ. -/
theorem publish_mem (k : Kern) (c : Nat) (t : Thread) (l : Launch) (r : XRegion) (b : Nat) (release : Bool) :
    (publish k c t l r b release).mem =
      (putBytes (withFaces k (recordAt c r b) t) (recordAt c r b + 144) (bytesOfNat 8 (sigmaAt k (recordAt c r b) + 1))).mem := by
  simp only [publish, notifyCell_mem]
  split <;> split <;> simp only [modRegion_mem, modThis_mem, withFaces]

theorem wf_withFaces {k : Kern} (at_ : Nat) (t : Thread) (hk : Memory.wf k.mem = true) : Memory.wf (withFaces k at_ t).mem = true := by
  unfold withFaces
  split
  · exact wf_putBytes _ _ (wf_putBytes _ _ hk)
  · exact hk

theorem length_newFaces (k : Kern) (at_ : Nat) (t : Thread) : (newFaces k at_ t).length = 16 := by
  simp only [newFaces, List.length_map, List.length_range]

theorem getElem_newFaces (k : Kern) (at_ : Nat) (t : Thread) {n : Nat} (h : n < (newFaces k at_ t).length) :
    ((newFaces k at_ t)[n]).toNat =
      if t.marks.getD n false then (t.stage.getD n 0).toNat else getNat k (at_ + 64 * currentBank k at_ + 4 * n) 4 := by
  simp only [newFaces, List.getElem_map, List.getElem_range]
  split
  · rfl
  · exact (BitVec.toNat_ofNat _ _).trans (Nat.mod_eq_of_lt (getNat_lt k _ 4))

theorem currentBank_lt (k : Kern) (a : Nat) : currentBank k a < 2 := by
  unfold currentBank
  split <;> decide

theorem length_faceBytes (k : Kern) (at_ : Nat) (t : Thread) :
    ((newFaces k at_ t).flatMap fun x => bytesOfNat 4 x.toNat).length = 64 := by
  rw [length_flatMap_words, length_newFaces]

/-- The faces and TAG reach only the bank that is not current. -/
theorem seeByte_withFaces (k : Kern) (at_ : Nat) (t : Thread) {a : Nat}
    (hfaces : a < at_ + 64 * (1 - currentBank k at_) ∨ at_ + 64 * (1 - currentBank k at_) + 64 ≤ a)
    (htag : a < at_ + 128 + 8 * (1 - currentBank k at_) ∨ at_ + 128 + 8 * (1 - currentBank k at_) + 8 ≤ a) :
    seeByte (withFaces k at_ t) a = seeByte k a := by
  unfold withFaces
  split
  · rw [seeByte_putBytes_outside _ _ _ (by rw [length_bytesOfNat]; exact htag),
      seeByte_putBytes_outside _ _ _ (by rw [length_faceBytes]; exact hfaces)]
  · rfl

theorem any_marks {l : List Bool} : l.any (· == true) = true ↔ true ∈ l := by
  simp

theorem withFaces_staged {k : Kern} {at_ : Nat} {t : Thread} (h : true ∈ t.marks) : withFaces k at_ t =
    putBytes (putBytes k (at_ + 64 * (1 - currentBank k at_)) ((newFaces k at_ t).flatMap fun x => bytesOfNat 4 x.toNat))
      (at_ + 128 + 8 * (1 - currentBank k at_)) (bytesOfNat 8 (sigmaAt k at_)) :=
  if_pos (any_marks.mpr h)

theorem withFaces_unstaged {k : Kern} {at_ : Nat} {t : Thread} (h : true ∉ t.marks) : withFaces k at_ t = k :=
  if_neg fun hany => h (any_marks.mp hany)

theorem publishedFaces : Claims.PublishedFaces := by
  unfold Claims.PublishedFaces
  intro k c t l r b release hk
  have hmem := publish_mem k c t l r b release
  generalize recordAt c r b = at_ at hmem
  generalize publish k c t l r b release = k' at hmem
  have hbank := currentBank_lt k at_
  have hout {a : Nat} (h : a < at_ + 144) : seeByte k' a = seeByte (withFaces k at_ t) a :=
    (seeByte_of_mem hmem a).trans (seeByte_putBytes_outside _ _ _ (.inl h))
  have hnum {a n : Nat} (h : a + n ≤ at_ + 144) : getNat k' a n = getNat (withFaces k at_ t) a n :=
    (getNat_of_mem hmem a n).trans (getNat_putBytes_outside _ _ _ (.inl h))
  dsimp only
  refine ⟨?sigma, fun n hn => ?current, fun hs => ⟨?tag, fun n hn => ?faces⟩, fun hs n hn => ?unstaged⟩
  case sigma => exact (getNat_of_mem hmem _ _).trans (getNat_putBytes _ _ 8 _ (wf_withFaces at_ t hk))
  case current => rw [hout (by omega), seeByte_withFaces k at_ t (by omega) (by omega)]
  case tag =>
    rw [hnum (by omega), withFaces_staged hs, getNat_putBytes _ _ 8 _ (wf_putBytes _ _ hk)]
    exact Nat.mod_eq_of_lt (getNat_lt k _ 8)
  case faces =>
    have hn' : n < (newFaces k at_ t).length := by rw [length_newFaces]; exact hn
    rw [hnum (by omega), withFaces_staged hs, getNat_putBytes_outside _ _ _ (by omega), getNat_putBytes_words _ _ hk hn',
      getElem_newFaces]
  case unstaged => rw [hout (by omega), withFaces_unstaged hs]

/-- Settles O18: FWR and NQ by their effects, publishing by the two writes of the bank that is not current and that of σ. -/
theorem cellFaces : Obligations.CellFaces := ⟨facesAndNeighbours, publishedFaces⟩

end Sys2Proof.Proofs
end

section
/-! Events of a field (R221, R225, R282, R288, R297, R298): what an installed notice writes, which notices a readable publication lets
go, and what a completed step leaves in its field. -/

namespace Sys2Proof.Proofs

open Sys2Proof.Machine Sys2Proof.Safety

/-! ## Installing a notice -/

section Install

variable {k : Kern} {c i : Nat} {r : XRegion} {n : Notice}

/-- σ of a record after a step. -/
def withSigma (k : Kern) (a n : Nat) : Kern := putBytes k (a + 144) (bytesOfNat 8 n)

/-- The faces and the TAG of a notice that has them, in the bank of its record that is not current. -/
def withNoticeFaces (k : Kern) (a : Nat) (n : Notice) : Kern :=
  if n.kind == 0 then
    putBytes (putBytes k (a + 64 * (1 - currentBank k a)) (n.faces.flatMap fun x => bytesOfNat 4 x.toNat))
      (a + 128 + 8 * (1 - currentBank k a)) (bytesOfNat 8 n.step)
  else k

/-- A notice of a step as installed, before a cold decision of its step. -/
def withStep (k : Kern) (c : Nat) (r : XRegion) (i : Nat) (n : Notice) : Kern :=
  let k := withSigma (withNoticeFaces k (recordAt c r i) n) (recordAt c r i) (n.step + 1)
  if n.rel then modRegion k c r.launch fun x => { x with released := x.released ++ [(i, n.step)] } else k

theorem installNotice_eq (hkind : n.kind ≠ 2) : installNotice k c r i n =
    if (coldFrom (withStep k c r i n) n.launch n.step).contains n.step then
      zeroPublication (withStep k c r i n) (recordAt c r i) n.step
    else withStep k c r i n := by
  unfold installNotice
  split
  · next h => exact absurd h hkind
  · rfl

theorem withNoticeFaces_fields (a : Nat) : (withNoticeFaces k a n).fields = k.fields := by
  unfold withNoticeFaces
  split <;> rfl

theorem withNoticeFaces_notices (a : Nat) : (withNoticeFaces k a n).notices = k.notices := by
  unfold withNoticeFaces
  split <;> rfl

theorem withStep_fields : (withStep k c r i n).fields = k.fields := by
  unfold withStep
  dsimp only
  split <;> exact withNoticeFaces_fields _

theorem withStep_notices : (withStep k c r i n).notices = k.notices := by
  unfold withStep
  dsimp only
  split <;> exact withNoticeFaces_notices _

theorem withStep_mem : (withStep k c r i n).mem =
    (withSigma (withNoticeFaces k (recordAt c r i) n) (recordAt c r i) (n.step + 1)).mem := by
  unfold withStep
  dsimp only
  split <;> rfl

theorem coldFrom_of_fields {k' : Kern} (h : k'.fields = k.fields) (serial t : Nat) : coldFrom k' serial t = coldFrom k serial t := by
  simp only [coldFrom, h]

/-- Where no cold decision stands for the step of a notice, it writes σ last, over its faces or over memory as it was. -/
theorem installNotice_step (hkind : n.kind ≠ 2) (hcold : n.step ∉ coldFrom k n.launch n.step) :
    (installNotice k c r i n).mem =
      (withSigma (withNoticeFaces k (recordAt c r i) n) (recordAt c r i) (n.step + 1)).mem := by
  rw [installNotice_eq hkind, coldFrom_of_fields withStep_fields, if_neg (by rwa [List.contains_iff_mem]), withStep_mem]

/-- A notice of an exit that no cold decision follows marks the cell. -/
theorem installNotice_exit (hkind : n.kind = 2) (hcold : coldFrom k n.launch (n.step + 1) = []) :
    installNotice k c r i n = withSigma k (recordAt c r i) exitMark := by
  have hcold' : coldFrom (withSigma k (recordAt c r i) exitMark) n.launch (n.step + 1) = [] := hcold
  simp only [installNotice, hkind, hcold, List.foldl_nil, withSigma]

theorem putBytes_notices (k : Kern) (a : Nat) (bs : List Byte) : (putBytes k a bs).notices = k.notices := rfl

theorem putBytes_fields (k : Kern) (a : Nat) (bs : List Byte) : (putBytes k a bs).fields = k.fields := rfl

theorem zeroPublication_notices (k : Kern) (a t : Nat) : (zeroPublication k a t).notices = k.notices := by
  simp only [zeroPublication, apply_ite Kern.notices, putBytes_notices, ite_self]

theorem foldl_notices {α : Type} {f : Kern → α → Kern} (hf : ∀ k a, (f k a).notices = k.notices) (l : List α) (k : Kern) :
    (l.foldl f k).notices = k.notices := by
  induction l generalizing k with
  | nil => rfl
  | cons a l ih => rw [List.foldl_cons, ih, hf]

theorem installNotice_notices (k : Kern) (c : Nat) (r : XRegion) (i : Nat) (n : Notice) :
    (installNotice k c r i n).notices = k.notices := by
  by_cases hkind : n.kind = 2
  · simp only [installNotice, hkind]
    exact foldl_notices (fun k t => zeroPublication_notices k _ t) _ _
  · rw [installNotice_eq hkind]
    split
    · rw [zeroPublication_notices, withStep_notices]
    · exact withStep_notices

/-- The record in which an 8-byte number was written at σ: the number, and every other byte as before. -/
theorem withSigma_reads {k' : Kern} {a x : Nat} (hk : Memory.wf k.mem = true) (hm : k'.mem = (withSigma k a x).mem) :
    getNat k' (a + 144) 8 = x % 2 ^ 64 ∧ ∀ b, b < a + 144 ∨ a + 152 ≤ b → seeByte k' b = seeByte k b := by
  refine ⟨(getNat_of_mem hm _ _).trans (getNat_putBytes _ _ 8 _ hk), fun b hb => ?_⟩
  rw [seeByte_of_mem hm, withSigma, seeByte_putBytes_outside _ _ _ (by rw [length_bytesOfNat]; omega)]

end Install

/-- A notice of faces in a record: its faces and TAG in the bank that is not current, its σ, and every other byte as before. -/
theorem installNotice_faces {k : Kern} {c i : Nat} {r : XRegion} {n : Notice} (hk : Memory.wf k.mem = true) (hkind : n.kind = 0)
    (hlen : n.faces.length = 16) (hcold : n.step ∉ coldFrom k n.launch n.step) :
    let a := recordAt c r i
    let bank := 1 - currentBank k a
    let k' := installNotice k c r i n
    getNat k' (a + 144) 8 = (n.step + 1) % 2 ^ 64 ∧ getNat k' (a + 128 + 8 * bank) 8 = n.step % 2 ^ 64 ∧
    (∀ j, j < 16 → getNat k' (a + 64 * bank + 4 * j) 4 = (n.faces.getD j 0).toNat) ∧
    ∀ b, (b < a + 64 * bank ∨ a + 64 * bank + 64 ≤ b) → (b < a + 128 + 8 * bank ∨ a + 128 + 8 * bank + 8 ≤ b) →
      (b < a + 144 ∨ a + 152 ≤ b) → seeByte k' b = seeByte k b := by
  intro a bank k'
  have hbank : bank < 2 := Nat.lt_succ_of_le (Nat.sub_le _ _)
  have hbytes : (n.faces.flatMap fun x => bytesOfNat 4 x.toNat).length = 64 := by rw [length_flatMap_words, hlen]
  have hm := installNotice_step (c := c) (r := r) (i := i) (by rw [hkind]; decide) hcold
  rw [withNoticeFaces, if_pos (beq_iff_eq.mpr hkind)] at hm
  obtain ⟨hsigma, hout⟩ := withSigma_reads (k' := k') (wf_putBytes _ _ (wf_putBytes _ _ hk)) hm
  have hnum {b m : Nat} (h : b + m ≤ a + 144) := getNat_congr (k' := k') (a := b) (n := m) fun j hj => hout (b + j) (.inl (by omega))
  refine ⟨hsigma, ?tag, fun j hj => ?face, fun b hfaces htag hs => ?rest⟩
  case tag => rw [hnum (by omega)]; exact getNat_putBytes _ _ 8 _ (wf_putBytes _ _ hk)
  case face =>
    have hj' : j < n.faces.length := by omega
    rw [hnum (by omega), getNat_putBytes_outside _ _ _ (by omega), getNat_putBytes_words _ _ hk hj', List.getD_eq_getElem _ _ hj']
  case rest =>
    rw [hout b hs, seeByte_putBytes_outside _ _ _ (by rw [length_bytesOfNat]; exact htag),
      seeByte_putBytes_outside _ _ _ (by rw [hbytes]; exact hfaces)]

/-! ## A publication that becomes readable -/

theorem mem_xr_modRegion {k : Kern} {c serial : Nat} {f : XRegion → XRegion} {x : XRegion}
    (h : x ∈ (coreOf (modRegion k c serial f) c).xr) (hx : x.launch = serial) : ∃ y, x = f y := by
  rw [modRegion, coreOf_modCore_same] at h
  obtain ⟨y, -, rfl⟩ := List.mem_map.mp h
  split at hx
  · next hy => exact ⟨y, if_pos hy⟩
  · next hy => exact absurd (beq_iff_eq.mpr hx) hy

theorem makeReadable_unready {k : Kern} {c : Nat} {r : XRegion} {u : Unready} {l : Launch} (hl : mget k.launches r.launch = some l)
    {x : XRegion} (hx : x ∈ (coreOf (makeReadable k c r u) c).xr) (hlaunch : x.launch = r.launch) :
    ∀ y ∈ x.unready, ¬(y.cell = u.cell ∧ y.step = u.step) := by
  simp only [makeReadable, hl] at hx
  obtain ⟨z, rfl⟩ := mem_xr_modRegion hx hlaunch
  intro y hy hsame
  obtain ⟨-, hkept⟩ := List.mem_filter.mp hy
  rw [hsame.1, hsame.2, beq_self_eq_true, beq_self_eq_true] at hkept
  cases hkept

theorem makeReadable_notices {k : Kern} {c : Nat} {r : XRegion} {u : Unready} {l : Launch} (hl : mget k.launches r.launch = some l)
    {m : Notice} (hm : m ∈ (makeReadable k c r u).notices) (hlaunch : m.launch = r.launch)
    (hcell : m.cell = linear l (cellAt l r.brick u.cell)) (hstep : m.step = u.step) (hkind : m.kind ≠ 2) : m.held = false := by
  simp only [makeReadable, hl] at hm
  obtain ⟨y, -, rfl⟩ := List.mem_map.mp hm
  split at hm
  · rename_i h
    rw [if_pos h]
  · rename_i h
    rw [if_neg h] at hlaunch hcell hstep hkind
    exact absurd (by simp [hlaunch, hcell, hstep, hkind]) h

/-! ## A step that completes -/

theorem mget_filter {α : Type} {m : FMap α} {i : Nat} {a : α} (h : mget m i = some a) (p : Nat × α → Bool) (hp : p (i, a) = true) :
    mget (m.filter p) i = some a := by
  induction m with
  | nil => cases h
  | cons x m ih =>
    obtain ⟨j, b⟩ := x
    rw [mget_cons] at h
    split at h
    · next hj =>
      cases h
      subst hj
      rw [List.filter_cons_of_pos hp, mget_cons, if_pos rfl]
    · next hj =>
      cases hkeep : p (j, b) with
      | false => rw [List.filter_cons_of_neg (by rw [hkeep]; decide)]; exact ih h
      | true => rw [List.filter_cons_of_pos hkeep, mget_cons, if_neg hj]; exact ih h

/-- The step as complete. -/
def completed (f : Field) (t : Nat) : TrussStep := { trussStep f t with complete := true }

/-- The field with its step complete, and the channels that the truss still holds. -/
def completedField (f : Field) (t : Nat) : Field :=
  { f with steps := (mset f.steps t (completed f t)).filter fun p => t < p.1 + 4 || !p.2.complete }

theorem completeStep_eq (k : Kern) (serial t : Nat) (f : Field) : completeStep k serial t f =
    if 0 < (completed f t).settled then decide_ k serial t (completedField f t) (completed f t)
    else { k with fields := mset k.fields serial (completedField f t) } := rfl

theorem mget_completedField (f : Field) (t : Nat) : mget (completedField f t).steps t = some (completed f t) :=
  mget_filter (mget_mset_same ..) _ (by rw [Bool.or_eq_true]; exact .inl (decide_eq_true (by omega)))

theorem trussStep_completedField (f : Field) (t : Nat) : trussStep (completedField f t) t = completed f t := by
  rw [trussStep, mget_completedField]; rfl

/-! ## The decision of a step -/

theorem zeroPublication_fields (k : Kern) (a t : Nat) : (zeroPublication k a t).fields = k.fields := by
  simp only [zeroPublication, apply_ite Kern.fields, putBytes_fields, ite_self]

theorem decideFrame_fields (cold mixed : Bool) (a : Nat) (k : Kern) : (decideFrame cold mixed a k).fields = k.fields := by
  simp only [decideFrame, apply_ite Kern.fields, putBytes_fields, ite_self]

theorem foldl_fields {α : Type} {f : Kern → α → Kern} (hf : ∀ k a, (f k a).fields = k.fields) (l : List α) (k : Kern) :
    (l.foldl f k).fields = k.fields := by
  induction l generalizing k with
  | nil => rfl
  | cons a l ih => rw [List.foldl_cons, ih, hf]

theorem decideRegion_fields (serial t : Nat) (cold mixed : Bool) (k : Kern) (c : Nat) (r : XRegion) :
    (decideRegion serial t cold mixed k c r).fields = k.fields := by
  unfold decideRegion
  split
  · rfl
  · dsimp only
    split
    · rw [foldl_fields fun k i => zeroPublication_fields k _ t, foldl_fields fun k b => decideFrame_fields cold mixed _ k]
      rfl
    · rw [foldl_fields fun k b => decideFrame_fields cold mixed _ k]
      rfl

/-- A decision reaches threads, frames and records, and of the fields only its own. -/
theorem decide_fields (k : Kern) (serial t : Nat) (f : Field) (x : TrussStep) :
    (decide_ k serial t f x).fields = mset k.fields serial (decidedField f t x) := by
  unfold decide_
  refine (foldl_fields (fun k p => ?_) _ _).trans rfl
  exact foldl_fields (fun k r => decideRegion_fields serial t _ _ k p.1 r) _ k

theorem sigsDiffer_iff (x : TrussStep) : sigsDiffer x = true ↔ ∃ a ∈ x.sigs, ∃ b ∈ x.sigs, a ≠ b := by
  unfold sigsDiffer sigNats
  cases x.sigs with
  | nil => simp
  | cons a as =>
    simp only [List.map_cons, List.any_eq_true, List.mem_map, bne_iff_ne, ne_eq]
    constructor
    · rintro ⟨-, ⟨b, hb, rfl⟩, hne⟩
      exact ⟨b, List.mem_cons_of_mem a hb, a, List.mem_cons_self, fun h => hne (congrArg _ h)⟩
    · -- of two signatures that differ, one differs from the first
      rintro ⟨b, hb, d, hd, hne⟩
      have hother (e : W64) (he : e ∈ a :: as) (h : e ≠ a) : ∃ n, (∃ y ∈ as, y.toNat = n) ∧ ¬n = a.toNat :=
        ⟨_, ⟨e, (List.mem_cons.mp he).resolve_left h, rfl⟩, fun heq => h (BitVec.eq_of_toNat_eq heq)⟩
      by_cases hb' : b = a
      · exact hother d hd fun h => hne (hb'.trans h.symm)
      · exact hother b hb hb'

theorem mixedStep_iff (x : TrussStep) : mixedStep x = true ↔ x.settled < x.ended ∨ ∃ a ∈ x.sigs, ∃ b ∈ x.sigs, a ≠ b := by
  rw [mixedStep, Bool.or_eq_true, sigsDiffer_iff, decide_eq_true_eq, or_comm]

theorem trussStep_decidedField {f : Field} {t : Nat} {x y : TrussStep} (h : mget f.steps t = some y) :
    (trussStep (decidedField f t x) t).complete = y.complete := by
  simp only [trussStep, decidedField]
  split
  · rw [mget_mapValues fun p : TrussStep => { p with maxabs := [], sumsq := [] }, h]; rfl
  · rw [h]; rfl

/-! ## The events -/

/-- A notice that may be installed in a region of its core. -/
theorem faceNotice_installs {s : State} {c : Nat} {n : Notice} {l : Launch} {r : XRegion} {i : Nat}
    (hfind : (s.kern.notices.find? fun m => m.id == n.id && m.dst == c) = some n) (hl : mget s.kern.launches n.launch = some l)
    (hr : regionOf s.kern c n.launch = some r) (hi : recordFor l r n.cell = some i) (hfirst : firstNotice s.kern n = true) :
    exec (.faceNotice c n.id) s = .next { s with kern := installNotice (dropNotice s.kern n.id) c r i n } := by
  have hexec : exec (.faceNotice c n.id) s = execFaceNotice c n.id s := rfl
  simp only [hexec, execFaceNotice, hfind, hl, hr, hi, hfirst, if_true]
  rfl

theorem faceNotice_event {s : State} {c : Nat} {n : Notice} {l : Launch} {r : XRegion} {i : Nat}
    (hfind : (s.kern.notices.find? fun m => m.id == n.id && m.dst == c) = some n) (hl : mget s.kern.launches n.launch = some l)
    (hr : regionOf s.kern c n.launch = some r) (hi : recordFor l r n.cell = some i) (hfirst : firstNotice s.kern n = true)
    (hk : Memory.wf s.kern.mem = true) :
    let a := recordAt c r i
    let bank := 1 - currentBank s.kern a
    ∃ s', exec (.faceNotice c n.id) s = .next s' ∧ OnlyKern s s' ∧ (∀ m ∈ s'.kern.notices, m.id ≠ n.id) ∧
      (n.kind = 0 → n.faces.length = 16 → n.step ∉ coldFrom s.kern n.launch n.step →
        getNat s'.kern (a + 144) 8 = (n.step + 1) % 2 ^ 64 ∧ getNat s'.kern (a + 128 + 8 * bank) 8 = n.step % 2 ^ 64 ∧
        (∀ j, j < 16 → getNat s'.kern (a + 64 * bank + 4 * j) 4 = (n.faces.getD j 0).toNat) ∧
        ∀ b, (b < a + 64 * bank ∨ a + 64 * bank + 64 ≤ b) → (b < a + 128 + 8 * bank ∨ a + 128 + 8 * bank + 8 ≤ b) →
          (b < a + 144 ∨ a + 152 ≤ b) → seeByte s'.kern b = seeByte s.kern b) ∧
      (n.kind = 1 → n.step ∉ coldFrom s.kern n.launch n.step → getNat s'.kern (a + 144) 8 = (n.step + 1) % 2 ^ 64 ∧
        ∀ b, b < a + 144 ∨ a + 152 ≤ b → seeByte s'.kern b = seeByte s.kern b) ∧
      (n.kind = 2 → coldFrom s.kern n.launch (n.step + 1) = [] → getNat s'.kern (a + 144) 8 = exitMark % 2 ^ 64 ∧
        ∀ b, b < a + 144 ∨ a + 152 ≤ b → seeByte s'.kern b = seeByte s.kern b) := by
  refine ⟨_, faceNotice_installs hfind hl hr hi hfirst, rfl, fun m hm => ?gone, fun hkind hlen hcold => ?faces,
    fun hkind hcold => ?none_, fun hkind hcold => ?exited⟩
  case gone =>
    rw [installNotice_notices] at hm
    exact bne_iff_ne.mp (List.mem_filter.mp hm).2
  case faces => exact installNotice_faces (k := dropNotice s.kern n.id) hk hkind hlen hcold
  case none_ =>
    have hm := installNotice_step (k := dropNotice s.kern n.id) (c := c) (r := r) (i := i) (by rw [hkind]; decide) hcold
    rw [withNoticeFaces, if_neg (by rw [hkind]; decide)] at hm
    exact withSigma_reads (k := dropNotice s.kern n.id) hk hm
  case exited =>
    exact withSigma_reads (k := dropNotice s.kern n.id) hk
      (congrArg Kern.mem (installNotice_exit (k := dropNotice s.kern n.id) hkind hcold))

theorem publicationReady_event {s : State} {c cell : Nat} {r : XRegion} {u : Unready} {l : Launch}
    (hready : readyIn (coreOf s.kern c) cell = some (r, u)) (hl : mget s.kern.launches r.launch = some l) :
    ∃ s', exec (.stepRPublicationReady c cell) s = .next s' ∧ OnlyKern s s' ∧ (∀ a, seeByte s'.kern a = seeByte s.kern a) ∧
      (∀ x ∈ (coreOf s'.kern c).xr, x.launch = r.launch → ∀ y ∈ x.unready, ¬(y.cell = u.cell ∧ y.step = u.step)) ∧
      ∀ m ∈ s'.kern.notices, m.launch = r.launch → m.cell = linear l (cellAt l r.brick u.cell) → m.step = u.step → m.kind ≠ 2 →
        m.held = false := by
  have hexec : exec (.stepRPublicationReady c cell) s = .next { s with kern := makeReadable s.kern c r u } := by
    have harm : exec (.stepRPublicationReady c cell) s = execStepRPublicationReady c cell s := rfl
    simp only [harm, execStepRPublicationReady, hready]
    rfl
  exact ⟨_, hexec, rfl, fun a => seeByte_of_mem (makeReadable_mem ..) a, fun x hx => makeReadable_unready hl hx,
    fun m hm => makeReadable_notices hl hm⟩

theorem trussStepComplete_completes {s : State} {launch t : Nat} {f : Field} (hf : mget s.kern.fields launch = some f)
    (hreached : fieldReached s.kern launch (t + 1) = true) (hearlier : earlierComplete f t = true)
    (hopen : (trussStep f t).complete = false) :
    exec (.trussStepComplete launch t) s = .next { s with kern := completeStep s.kern launch t f } := by
  have harm : exec (.trussStepComplete launch t) s = execTrussStepComplete launch t s := rfl
  simp only [harm, execTrussStepComplete, hf, hreached, hearlier, hopen, Bool.not_false, Bool.and_self, if_true]
  rfl

/-- A step of cells that none settled completes in its field alone. -/
theorem completeStep_unsettled {k : Kern} {launch t : Nat} {f : Field} (h : (completed f t).settled = 0) :
    completeStep k launch t f = { k with fields := mset k.fields launch (completedField f t) } := by
  rw [completeStep_eq, if_neg (by omega)]

/-- A step that cells settled is decided. -/
theorem completeStep_settled {k : Kern} {launch t : Nat} {f : Field} (h : 0 < (completed f t).settled) :
    completeStep k launch t f = decide_ k launch t (completedField f t) (completed f t) := by
  rw [completeStep_eq, if_pos h]

/-- Settles O43: a notice by what it writes in its record, a publication by the notices that it frees, a step by the field that it
leaves, which the decision's walk over regions does not touch again. -/
theorem fieldEvents : Obligations.FieldEvents := by
  unfold Obligations.FieldEvents
  refine ⟨fun s c n l r i hfind hl hr hi hfirst hk => faceNotice_event hfind hl hr hi hfirst hk,
    fun s c cell r u l hready hl => publicationReady_event hready hl, fun s launch t f hf hreached hearlier hopen => ?_⟩
  have hexec := trussStepComplete_completes hf hreached hearlier hopen
  refine ⟨fun hnone => ?unsettled, fun hsome => ?settled⟩
  case unsettled =>
    rw [completeStep_unsettled hnone] at hexec
    exact ⟨_, completedField f t, hexec, rfl, mget_mset_same .., trussStep_completedField f t, rfl, rfl, fun _ => rfl⟩
  case settled =>
    rw [completeStep_settled hsome] at hexec
    refine ⟨_, decidedField (completedField f t) t (completed f t), hexec, rfl, ?_, ?_, rfl, ?_, ?_, fun u hu => ?_⟩
    · dsimp only
      rw [decide_fields, mget_mset_same]
    · exact (trussStep_decidedField (mget_completedField f t)).trans rfl
    · simp only [decidedField, mget_mset_same, Option.some.injEq, coldStep, Bool.or_eq_true, bne_iff_ne]
      exact or_congr (mixedStep_iff _) Iff.rfl
    · simp [decidedField]
    · simp [decidedField, completedField, hu]

end Sys2Proof.Proofs
end

section
/-! Services (R237, R274, R366, R367, R441): records that go to the host, end or trap, the first touch of a frame, and the waits of
units. -/

namespace Sys2Proof.Proofs

open Sys2Proof.Machine Sys2Proof.Safety

/-! ## Records handed to the host -/

/-- The notifications for a list of records, one after the other. -/
theorem foldl_notify (s : State) (event detail : Nat) (ps : List Park) :
    ps.foldl (fun s q => notify_ s event detail q.id) s =
      { s with fw := { s.fw with responses := s.fw.responses ++ ps.map fun q =>
        { tag := 0xFFFFFFFF, status := event, detail := detail, value := BitVec.ofNat 64 q.id } } } := by
  induction ps generalizing s with
  | nil => rw [List.map_nil, List.append_nil]; rfl
  | cons q ps ih =>
    rw [List.foldl_cons, ih, List.map_cons]
    simp only [notify_, List.append_assoc, List.singleton_append]

theorem contains_map_id (ps : List Park) (n : Nat) : (ps.map (·.id)).contains n = ps.any fun z => z.id == n := by
  rw [Bool.eq_iff_iff, List.contains_iff_mem, List.mem_map, List.any_eq_true]
  simp only [beq_iff_eq]

theorem handed_event {s : State} {c : Nat} {p : Park} (hfind : (coreOf s.kern c).parks.find? (fun y => y.id == p.id) = some p)
    (hsub : p.sub = 0) :
    let mine := (coreOf s.kern c).parks.filter fun q => servedTogether p q && !q.handed
    let handed := fun (q : Park) => if mine.any (fun z => z.id == q.id) then { q with handed := true } else q
    ∃ s', exec (.parkServiceComplete c p.id false) s = .next s' ∧ OnlyKernAndAnswer s s' ∧ OnlyCore s.kern s'.kern c ∧
      s'.fw.responses = s.fw.responses ++ (mine.map fun q =>
        { tag := 0xFFFFFFFF, status := 0x80, detail := p.ctx, value := BitVec.ofNat 64 q.id }) ∧
      coreOf s'.kern c = { coreOf s.kern c with parks := (coreOf s.kern c).parks.map handed } := by
  intro mine handed
  have hmine : ((coreOf s.kern c).parks.filter (servedTogether p)).filter (fun q => !q.handed) = mine := by
    rw [List.filter_filter]
    exact congrArg (fun f => (coreOf s.kern c).parks.filter f) (funext fun q => Bool.and_comm _ _)
  have harm : exec (.parkServiceComplete c p.id false) s = execParkServiceComplete c p.id false s := rfl
  have hexec : exec (.parkServiceComplete c p.id false) s =
      .next (mine.foldl (fun s q => notify_ s 0x80 p.ctx q.id) { s with kern := handParks s.kern c (mine.map (·.id)) }) := by
    simp only [harm, execParkServiceComplete, hfind, hsub, hmine, Bool.false_eq_true, if_false, beq_self_eq_true, if_true]
    rfl
  rw [foldl_notify] at hexec
  refine ⟨_, hexec, rfl, ⟨rfl, fun d hd => coreOf_modCore_other _ _ hd⟩, rfl, ?_⟩
  rw [handParks, coreOf_modCore_same]
  simp only [contains_map_id]
  rfl

/-! ## Records that end -/

/-- Records freed, in their order. -/
def freeRecords (k : Kern) (c : Nat) (ps : List Park) : Kern := ps.foldl (fun k p => freeRecord k c p.id) k

/-- What a freed record ends of a thread: its wait for a record. -/
def endRecordWait (u : Thread) : Thread := if u.wait == .noRecord then { u with wait := .none } else u

theorem endRecordWait_keeps (u : Thread) :
    (endRecordWait u).tslot = u.tslot ∧ (endRecordWait u).lane = u.lane ∧ (endRecordWait u).pc = u.pc ∧ (endRecordWait u).loc = u.loc := by
  unfold endRecordWait
  split <;> exact ⟨rfl, rfl, rfl, rfl⟩

theorem getThread_freeRecord (k : Kern) (c id a b : Nat) :
    getThread (freeRecord k c id) c a b = (getThread k c a b).map endRecordWait := by
  simp only [getThread, freeRecord, coreOf_modCore_same]
  exact findThread_map endRecordWait (fun u => ⟨(endRecordWait_keeps u).1, (endRecordWait_keeps u).2.1⟩) _ a b

theorem mem_parks_freeRecord {k : Kern} {c id : Nat} {z : Park} :
    z ∈ (coreOf (freeRecord k c id) c).parks ↔ z ∈ (coreOf k c).parks ∧ z.id ≠ id := by
  rw [freeRecord, coreOf_modCore_same, List.mem_filter, bne_iff_ne]

theorem mem_parks_freeRecords {c : Nat} {z : Park} (ps : List Park) (k : Kern) :
    z ∈ (coreOf (freeRecords k c ps) c).parks ↔ z ∈ (coreOf k c).parks ∧ ∀ p ∈ ps, z.id ≠ p.id := by
  induction ps generalizing k with
  | nil => simp [freeRecords]
  | cons p ps ih =>
    rw [freeRecords, List.foldl_cons]
    exact (ih _).trans (by rw [mem_parks_freeRecord, List.forall_mem_cons, and_assoc])

/-- A thread stands where it stood once records are freed. -/
theorem getThread_freeRecords {c a b : Nat} (ps : List Park) {k : Kern} {t : Thread} (h : getThread k c a b = some t) :
    ∃ u, getThread (freeRecords k c ps) c a b = some u ∧ u.pc = t.pc ∧ u.loc = t.loc := by
  induction ps generalizing k t with
  | nil => exact ⟨t, h, rfl, rfl⟩
  | cons p ps ih =>
    obtain ⟨-, -, hpc, hloc⟩ := endRecordWait_keeps t
    obtain ⟨u, hu, hpc', hloc'⟩ := ih (k := freeRecord k c p.id) (by rw [getThread_freeRecord, h]; rfl)
    exact ⟨u, hu, hpc'.trans hpc, hloc'.trans hloc⟩

/-- The movers of the threads of records that end. -/
def resumers (k : Kern) (c : Nat) (ps : List Park) : List Mover :=
  ((ps.filterMap fun p => getThread k c p.tslot p.lane).filter fun t => t.loc == .parked).map fun t => moverOf k c t t.pc.toNat

theorem resumeParks_eq (k : Kern) (c : Nat) (ps : List Park) :
    resumeParks k c ps = moveThreads (freeRecords k c ps) c (resumers (freeRecords k c ps) c ps) := rfl

theorem mem_parks_resumeParks {k : Kern} {c : Nat} {ps : List Park} {z : Park} :
    z ∈ (coreOf (resumeParks k c ps) c).parks ↔ z ∈ (coreOf k c).parks ∧ ∀ p ∈ ps, z.id ≠ p.id := by
  have hmove : Within c (fun _ _ => true) (freeRecords k c ps) (resumeParks k c ps) := within_moveThreads _ _ fun _ _ => rfl
  rw [hmove.core]
  exact mem_parks_freeRecords ps k

/-- A parked thread of a record that ends stands at its instruction. -/
theorem standsAt_resumeParks {k : Kern} {c : Nat} {ps : List Park} {y : Park} {t : Thread} (hy : y ∈ ps)
    (ht : getThread k c y.tslot y.lane = some t) (hloc : t.loc = .parked) : StandsAt (resumeParks k c ps) c t t.pc.toNat := by
  obtain ⟨hslot, hlane⟩ := getThread_key ht
  obtain ⟨u, hu, hpc, huloc⟩ := getThread_freeRecords ps ht
  obtain ⟨huslot, hulane⟩ := getThread_key hu
  have hone : ∀ m ∈ resumers (freeRecords k c ps) c ps, m.is y.tslot y.lane = true → m.pc = t.pc.toNat := by
    intro m hm his
    obtain ⟨v, hv, rfl⟩ := List.mem_map.mp hm
    obtain ⟨q, -, hq⟩ := List.mem_filterMap.mp (List.mem_filter.mp hv).1
    obtain ⟨hvslot, hvlane⟩ := getThread_key hq
    obtain ⟨hmslot, hmlane⟩ : v.tslot = y.tslot ∧ v.lane = y.lane := by simpa [Mover.is, moverOf] using his
    rw [← hvslot, ← hvlane, hmslot, hmlane, hu] at hq
    cases hq
    exact congrArg BitVec.toNat hpc
  have hany : (resumers (freeRecords k c ps) c ps).any (fun m => m.is y.tslot y.lane) = true := by
    refine List.any_eq_true.mpr ⟨moverOf (freeRecords k c ps) c u u.pc.toNat, ?_, by simp [Mover.is, moverOf, huslot, hulane]⟩
    refine List.mem_map.mpr ⟨u, List.mem_filter.mpr ⟨List.mem_filterMap.mpr ⟨y, hy, hu⟩, ?_⟩, rfl⟩
    rw [beq_iff_eq, huloc, hloc]
  obtain ⟨loc, hplaced, hmoved⟩ := getThread_moveThreads (freeRecords k c ps) c y.tslot y.lane t.pc.toNat _ hone
  rw [hu, Option.map_some, hany, if_pos rfl, ← resumeParks_eq, ← hslot, ← hlane] at hmoved
  exact ⟨_, hmoved, rfl, hplaced⟩

theorem resumed_event {s : State} {c : Nat} {p : Park} (hfind : (coreOf s.kern c).parks.find? (fun y => y.id == p.id) = some p)
    (hsub : p.sub ≠ 0) (hresolved : resolved s.kern p.ctx p.faddr.toNat = true) :
    exec (.parkServiceComplete c p.id false) s =
      .next { s with kern := resumeParks s.kern c ((coreOf s.kern c).parks.filter (servedTogether p)) } := by
  have harm : exec (.parkServiceComplete c p.id false) s = execParkServiceComplete c p.id false s := rfl
  simp only [harm, execParkServiceComplete, hfind, beq_iff_eq, hsub, hresolved, Bool.false_eq_true, if_false, if_true]
  rfl

/-! ## Records that are declined -/

/-- A thread that can take a trap takes it in full: it is in trap state, and waits no more. -/
theorem takeTrap_trapsAt {k : Kern} {c : Nat} {t : Thread} {l : Launch} {h : Nat} (hh : Handles k c t l h) {cause sub : Nat}
    (saved : W64) (fault : Nat) (hcause : cause < 256) (hsub : sub < 16) :
    TrapsAt k (takeTrap k c t cause sub saved (BitVec.ofNat 64 fault) false) c t l h cause sub false saved.toNat fault := by
  obtain ⟨hrecord, hstands, hwithin⟩ := takeTrap_takes hh saved fault hcause hsub
  refine ⟨hrecord, hstands, ?_, hwithin⟩
  obtain ⟨ht, hl, hhandler, hstate, hheld⟩ := hh
  let rec_ := trapRecord (pairtOf k c l saved.toNat) cause sub false saved (BitVec.ofNat 64 fault)
  let k₂ := modThis (closeWindows k c t) c t fun u => enterHandler u rec_ cause h
  have h2 : getThread k₂ c t.tslot t.lane = some (enterHandler (flushed (fun y => decide (0 < y.window)) t) rec_ cause h) := by
    rw [getThread_modThis_same _ _ _ _ (keepsKey_enter _ _ _), closeWindows, getThread_releaseScalars, getThread_flushHeld_same, ht]
    rfl
  obtain ⟨loc, -, h3⟩ := getThread_moveThreads k₂ c t.tslot t.lane h [moverOf k₂ c t h]
    (fun m hm _ => by rw [List.mem_singleton.mp hm]; rfl)
  rw [h2, Option.map_some] at h3
  rw [takeTrap, trapEntry_takes ht hl hhandler hstate hheld]
  refine ⟨_, h3, ?_, ?_⟩ <;> split <;> rfl

/-- One thread that takes its trap is placed alone. -/
theorem takeAll_single {k : Kern} {c : Nat} {t : Thread} {l : Launch} {h : Nat} (hh : Handles k c t l h) {u : Thread}
    (hu : u.tslot = t.tslot ∧ u.lane = t.lane) (cause sub : Nat) (pc fault : W64) :
    takeAll k c [{ thread := u, cause := cause, sub := sub, pc := pc, fault := fault, async := false }] =
      takeTrap k c t cause sub pc fault false := by
  obtain ⟨ht, hl, hhandler, hstate, hheld⟩ := hh
  have hnow : nowThread k c u = nowThread k c t := by simp only [nowThread, hu.1, hu.2, ht, Option.getD_some]
  have hentry := (trapEntry_now hnow cause sub pc fault false).trans (trapEntry_takes ht hl hhandler hstate hheld cause sub pc fault)
  simp only [takeAll, enterAll, takeTrap, hentry, trapEntry_takes ht hl hhandler hstate hheld, Option.toList, List.append_nil]

theorem declined_event {s : State} {c : Nat} {p : Park} {t : Thread} {l : Launch} {h : Nat}
    (hfind : (coreOf s.kern c).parks.find? (fun y => y.id == p.id) = some p)
    (hmine : (coreOf s.kern c).parks.filter (servedTogether p) = [p])
    (hmay : mayDecline s.kern p.ctx p.faddr.toNat p.sub = true) (hsub : p.sub < 16) (hslot : t.tslot = p.tslot)
    (hlane : t.lane = p.lane) (hh : Handles (freeRecord s.kern c p.id) c t l h) :
    ∃ s', exec (.parkServiceComplete c p.id true) s = .next s' ∧ OnlyKern s s' ∧
      TrapsAt (freeRecord s.kern c p.id) s'.kern c t l h 0x06 p.sub false p.pc.toNat p.faddr.toNat := by
  have harm : exec (.parkServiceComplete c p.id true) s = execParkServiceComplete c p.id true s := rfl
  have hexec : exec (.parkServiceComplete c p.id true) s = .next { s with kern := declineParks s.kern c [p] } := by
    simp only [harm, execParkServiceComplete, hfind, hmine, hmay, if_true]
    rfl
  obtain ⟨ht, -⟩ := id hh
  rw [getThread_freeRecord, hslot, hlane, Option.map_eq_some_iff] at ht
  obtain ⟨u, hu, -⟩ := ht
  obtain ⟨huslot, hulane⟩ := getThread_key hu
  have hdecline : declineParks s.kern c [p] =
      takeTrap (freeRecord s.kern c p.id) c t 0x06 p.sub p.pc (BitVec.ofNat 64 p.faddr.toNat) false := by
    rw [← takeAll_single hh ⟨huslot.trans hslot.symm, hulane.trans hlane.symm⟩, BitVec.ofNat_toNat, BitVec.setWidth_eq]
    simp only [declineParks, List.filterMap_cons, List.filterMap_nil, hu, Option.map_some]
    rfl
  refine ⟨_, hexec, rfl, ?_⟩
  rw [hdecline]
  exact takeTrap_trapsAt hh p.pc p.faddr.toNat (by decide) hsub

/-! ## The first touch of a frame -/

theorem firstGood_some {bad : Nat → Bool} {a n f : Nat} (h : firstGood bad a n = some f) :
    a ≤ f ∧ f < a + n ∧ bad f = false ∧ ∀ x, a ≤ x → x < f → bad x = true := by
  induction n generalizing a with
  | zero => cases h
  | succ n ih =>
    rw [firstGood] at h
    cases hbad : bad a with
    | false =>
      rw [hbad] at h
      cases h
      exact ⟨le_refl f, by omega, hbad, fun x _ _ => by omega⟩
    | true =>
      rw [hbad] at h
      obtain ⟨hlow, hhigh, hgood, hbefore⟩ := ih h
      refine ⟨by omega, by omega, hgood, fun x hx hxf => ?_⟩
      by_cases hxa : x = a
      · rw [hxa, hbad]
      · exact hbefore x (by omega) hxf

/-- The first frame of a touch is good, and every earlier one of its span is bad. -/
theorem firstFrame_some {k : Kern} {vault : Bool} {cls : MemClass} {c f : Nat} (h : firstFrame k vault cls c = some f) :
    frameBad k vault cls f = false ∧ ∃ r ∈ touchOrder vault c, r.1 ≤ f ∧ f < r.1 + r.2 ∧
      ∀ x, r.1 ≤ x → x < f → frameBad k vault cls x = true := by
  obtain ⟨r, hr, hgood⟩ := List.exists_of_findSome?_eq_some h
  obtain ⟨hlow, hhigh, hbad, hbefore⟩ := firstGood_some hgood
  exact ⟨hbad, r, hr, hlow, hhigh, hbefore⟩

theorem firstTouch_event {s : State} {ctx obj ext c : Nat} {e : ObjEntry} {w : Nat × Option Nat} {f : Nat}
    (hobj : getObj s.kern ctx obj = some e) (hpresent : e.present = true) (hhome : e.home ≠ .remote)
    (hunplaced : ((mget s.kern.extents (e.ext + ext)).getD 0).toNat / 2 ^ 62 = 0)
    (hmin : minBy (fun t => t.1) (touches s.kern ctx obj ext e) = some w) (hcore : w.2 = none ∨ w.2 = some c)
    (hframe : firstFrame s.kern (e.home == .vault) e.cls c = some f) :
    exec (.firstTouchPlacement ctx obj ext c) s =
      .next { s with kern := placeFrame s.kern (e.ext + ext) (e.home == .vault) e.cls f } := by
  have harm : exec (.firstTouchPlacement ctx obj ext c) s = execFirstTouchPlacement ctx obj ext c s := rfl
  have hnot : (e.home == .remote) = false := beq_eq_false_iff_ne.mpr hhome
  have hthis : (w.2.isSome && w.2 != some c) = false := by
    rcases hcore with h | h <;> rw [h] <;> simp
  simp only [harm, execFirstTouchPlacement, hobj, hmin, hunplaced, hpresent, hnot, hthis, hframe, beq_self_eq_true, Bool.not_true,
    Bool.or_self, Bool.false_eq_true, if_false]
  rfl

/-! ## Waits of units -/

section Units

variable {s : State} {w : UnitWait} (hfind : s.kern.units.find? (fun y => y.id == w.id) = some w)

include hfind

theorem unitPresent_event {e : ObjEntry} (hsub : w.sub = 0) (hobj : getObj s.kern w.ctx (capObj w.faddr.toNat) = some e) :
    exec (.unitAccessService w.id false) s =
      if w.handed then .next s else .next (notify_ { s with kern := handUnit s.kern w.id } 0x80 w.ctx w.id) := by
  have harm : exec (.unitAccessService w.id false) s = execUnitAccessService w.id false s := rfl
  simp only [harm, execUnitAccessService, hfind, hsub, hobj, Option.isSome_some, beq_self_eq_true, Bool.and_self, Bool.false_eq_true,
    if_false, if_true]
  rfl

theorem unitResolved_event (hsub : w.sub ≠ 0) (hresolved : resolved s.kern w.ctx w.faddr.toNat = true) :
    exec (.unitAccessService w.id false) s =
      .next { s with kern := { s.kern with units := s.kern.units.filter fun x => x.id != w.id } } := by
  have harm : exec (.unitAccessService w.id false) s = execUnitAccessService w.id false s := rfl
  simp only [harm, execUnitAccessService, hfind, beq_eq_false_iff_ne.mpr hsub, hresolved, Bool.false_and, Bool.false_eq_true, if_false,
    if_true]
  rfl

/-- A bed load whose wait is declined stops, and the wait goes. -/
theorem bedDeclined_event {j : BedJob} (hkind : w.kind = 2)
    (hjob : (coreOf s.kern w.core).bedJobs.find? (fun y => y.id == w.job) = some j)
    (hmay : mayDecline s.kern w.ctx w.faddr.toNat w.sub = true) :
    exec (.unitAccessService w.id true) s =
      .next { s with kern :=
        let k := stopBed s.kern w.core j 0x06 w.sub
        { k with units := k.units.filter fun x => x.id != w.id } } := by
  have harm : exec (.unitAccessService w.id true) s = execUnitAccessService w.id true s := rfl
  simp only [harm, execUnitAccessService, hfind, hmay, declineUnit, hkind, hjob, if_true]
  rfl

end Units

/-- A bed load that has ended is no job of its core. -/
theorem bedJobs_retireBed (k : Kern) (c : Nat) (j : BedJob) (status : Nat) :
    ∀ y ∈ (coreOf (retireBed k c j status) c).bedJobs, y.id ≠ j.id := by
  have hdrop : ∀ y ∈ (coreOf (modCore (doneWaiting k .bed c j.id) c fun core =>
      { core with bedJobs := core.bedJobs.filter fun x => x.id != j.id }) c).bedJobs, y.id ≠ j.id := by
    intro y hy
    rw [coreOf_modCore_same] at hy
    exact bne_iff_ne.mp (List.mem_filter.mp hy).2
  unfold retireBed
  dsimp only
  split
  · next h t hheld ht =>
    rw [(within_arriveHeld (keys := fun _ _ => true) _ t _ _ _ rfl).core]
    exact hdrop
  · exact hdrop

/-- Settles O37: each service by the branch of its event that its record or its wait selects. -/
theorem services : Obligations.Services := by
  unfold Obligations.Services
  refine ⟨fun s c p hfind hsub => handed_event hfind hsub, fun s c p hfind hsub hresolved => ?resumed,
    fun s c p t l h hfind hmine hmay hsub hslot hlane hh => declined_event hfind hmine hmay hsub hslot hlane hh,
    fun s ctx obj ext c e w f hobj hpresent hhome hunplaced hmin hcore hframe => ?touch, fun s w e hfind hsub hobj => ?present,
    fun s w hfind hsub hresolved => ⟨_, unitResolved_event hfind hsub hresolved, rfl, rfl⟩,
    fun s w j hfind hkind hjob hmay => ?declined⟩
  case resumed =>
    refine ⟨_, resumed_event hfind hsub hresolved, rfl, fun y hy hserved => ?_, fun y hy hother => ?_,
      fun a => seeByte_of_mem (resumeParks_mem ..) a⟩
    · have hmine := List.mem_filter.mpr ⟨hy, hserved⟩
      exact ⟨fun z hz => (mem_parks_resumeParks.mp hz).2 y hmine, fun t ht hloc => standsAt_resumeParks hmine ht hloc⟩
    · refine mem_parks_resumeParks.mpr ⟨hy, fun q hq => ?_⟩
      obtain ⟨hqmem, hqserved⟩ := List.mem_filter.mp hq
      exact (hother q hqmem hqserved).symm
  case touch =>
    obtain ⟨hgood, hspan⟩ := firstFrame_some hframe
    refine ⟨_, firstTouch_event hobj hpresent hhome hunplaced hmin hcore hframe, rfl, ?_, fun x hx => mget_mset_other _ _ hx, hgood,
      hspan, fun _ => rfl⟩
    simp only [placeFrame, mget_mset_same, beq_iff_eq]
  case present =>
    have hexec := unitPresent_event hfind hsub hobj
    refine ⟨fun hhanded => by rw [hexec, if_pos hhanded], fun hhanded => ?_⟩
    rw [hhanded, if_neg (by decide)] at hexec
    refine ⟨_, hexec, rfl, rfl, ?_⟩
    simp only [notify_, handUnit, beq_iff_eq]
  case declined =>
    refine ⟨_, bedDeclined_event hfind hkind hjob hmay, rfl, fun y hy => bne_iff_ne.mp (List.mem_filter.mp hy).2, fun y hy => ?_⟩
    exact bedJobs_retireBed _ _ j _ y hy

end Sys2Proof.Proofs
end

section
/-! What keeps every thread of a core in its block and group, first part: charges and the records that they write (R382, R425,
R426), reads (R152), publishing (R283) and the roster (R294). -/

namespace Sys2Proof.Proofs

open Sys2Proof.Machine Sys2Proof.Safety

/-! ## Records of the fault log leave the cores alone -/

theorem putRuns_cores (rs : List (Nat × Nat)) (k : Kern) (bs : List Byte) : (putRuns k rs bs).cores = k.cores := by
  induction rs generalizing k bs with
  | nil => rfl
  | cons r rs ih => rw [putRuns, ih, putBytes_cores]

theorem sendLines_cores (ctx dev o n : Nat) (k : Kern) (off : Nat) (bs : List Byte) :
    (sendLines k ctx dev o off bs n).cores = k.cores := by
  induction n generalizing k off bs with
  | zero => rfl
  | succ n ih =>
    unfold sendLines
    split
    · rfl
    · exact ih _ _ _

theorem writeObj_cores (k : Kern) (ctx o off : Nat) (bs : List Byte) : (writeObj k ctx o off bs).cores = k.cores := by
  unfold writeObj
  split
  · next rs _ =>
    refine Eq.trans ?_ (putRuns_cores rs k bs)
    unfold sendWrite
    split
    · split
      · exact sendLines_cores _ _ _ _ _ _ _
      · rfl
    · rfl
  · rfl

theorem logRecord_cores (k : Kern) (ctx type serial : Nat) (cycle : W64) (body : List Byte) :
    (logRecord k ctx type serial cycle body).cores = k.cores := by
  unfold logRecord
  dsimp only
  split
  · rfl
  · split
    · rfl
    · split
      · rfl
      · split
        · rfl
        · rw [writeObj_cores, writeObj_cores]

theorem stopContext_cores (k : Kern) (ctx c : Nat) (t : Thread) (r : List W32) : (stopContext k ctx c t r).cores = k.cores := by
  unfold stopContext
  split
  · rfl
  · rw [logRecord_cores, modCtx_cores]

/-! ## Charges -/

section Places

variable {c : Nat}

theorem samePlaces_of_cores {k k' : Kern} (h : k'.cores = k.cores) : SamePlaces c k k' := fun a b => by
  simp only [getThread, coreOf_of_cores h]

theorem samePlaces_of_threads (k : Kern) {f : Core → Core} (hf : ∀ core, (f core).threads = core.threads) :
    SamePlaces c k (modCore k c f) := fun a b => by rw [getThread_modCore_of_threads hf]

theorem placeOf_ctxThread {f : Thread → Thread} (hf : ∀ t, placeOf (f t) = placeOf t) (ctx : Nat) (core : Core) (t : Thread) :
    placeOf (ctxThread ctx f core t) = placeOf t := by
  unfold ctxThread
  split
  · exact hf t
  · rfl

theorem samePlaces_modCtxThreads (k : Kern) (ctx : Nat) {f : Thread → Thread} (hk : KeepsKey f)
    (hf : ∀ t, placeOf (f t) = placeOf t) : SamePlaces c k (modCtxThreads k ctx f) :=
  samePlaces_map (fun _ _ => ctxThread ctx f (coreOf k c)) (fun _ _ t => placeOf_ctxThread hf ctx _ t) fun _ _ =>
    getThread_modCtxThreads _ _ _ _ _ hk

theorem samePlaces_deliverBudget (k : Kern) (ctx : Nat) : SamePlaces c k (deliverAsync k ctx true) :=
  samePlaces_modCtxThreads k ctx (f := fun t => { t with asyncBudget := true }) (fun _ => ⟨rfl, rfl⟩) fun _ => rfl

theorem samePlaces_stopSpent (k : Kern) (ctx : Nat) : SamePlaces c k (stopSpent k ctx) := by
  unfold stopSpent
  split
  · exact samePlaces_of_cores (stopContext_cores _ _ _ _ _)
  · exact fun _ _ => rfl

theorem samePlaces_chargeBy {spent : Kern → Nat → Kern} (hspent : ∀ k ctx, SamePlaces c k (spent k ctx)) (k : Kern) (ctx units : Nat) :
    SamePlaces c k (chargeBy spent k ctx units) := by
  unfold chargeBy
  split
  · exact fun _ _ => rfl
  · dsimp only
    split
    · exact fun a b => hspent _ ctx a b
    · exact samePlaces_of_cores (modCtx_cores _ _ _)

theorem samePlaces_charge (k : Kern) (ctx units : Nat) : SamePlaces c k (charge k ctx units) :=
  samePlaces_chargeBy (fun k ctx => by
    split
    · exact samePlaces_stopSpent k ctx
    · exact samePlaces_deliverBudget k ctx) k ctx units

theorem samePlaces_chargeLate (k : Kern) (ctx units : Nat) : SamePlaces c k (chargeLate k ctx units) :=
  samePlaces_chargeBy samePlaces_deliverBudget k ctx units

theorem samePlaces_countMended (k : Kern) (as : List Nat) : SamePlaces c k (countMended k as) :=
  samePlaces_of_cores (by rw [(charged_countMended k as).shared])

/-! ## Reads -/

theorem samePlaces_readRuns (k : Kern) (ctx cls : Nat) (rs : List (Nat × Nat)) : SamePlaces c k (readRuns k ctx cls rs).1 := by
  have hcharged := (samePlaces_countMended (c := c) k (softAt k rs)).trans
    (samePlaces_charge _ ctx (poisonCharge (poisonHits k rs) + softHits k rs))
  unfold readRuns
  dsimp only
  split
  · exact hcharged
  · split
    · exact hcharged
    · exact hcharged

theorem samePlaces_readTrap (k : Kern) (ctx cls : Nat) (rs : List (Nat × Nat)) : SamePlaces c k (readTrap k ctx cls rs).1 := by
  unfold readTrap
  split
  · split
    · exact samePlaces_readRuns k ctx cls rs
    · exact (samePlaces_countMended k _).trans (samePlaces_chargeLate _ _ _)
  · exact samePlaces_readRuns k ctx cls rs

theorem samePlaces_sideRead (k : Kern) (l : Launch) (off n : Nat) : SamePlaces c k (sideRead k l off n).1 := by
  unfold sideRead
  split
  · exact fun _ _ => rfl
  · split
    · exact fun _ _ => rfl
    · next rs _ =>
      have hread := samePlaces_readTrap (c := c) k l.ctx (recClass l) rs
      split
      · next h => rwa [h] at hread
      · next h => rwa [h] at hread

theorem samePlaces_readMask (k : Kern) (l : Launch) (i : Nat) : SamePlaces c k (readMask k l i).1 := by
  have hhead := samePlaces_sideRead (c := c) k l 0 32
  unfold readMask
  split
  · next h => rwa [h] at hhead
  · next h =>
    rw [h] at hhead
    exact hhead.trans (samePlaces_sideRead _ _ _ _)

/-! ## Publishing -/

theorem foldl_cores {α : Type} {f : Kern → α → Kern} (hf : ∀ k a, (f k a).cores = k.cores) (l : List α) (k : Kern) :
    (l.foldl f k).cores = k.cores := by
  induction l generalizing k with
  | nil => rfl
  | cons a l ih => rw [List.foldl_cons, ih, hf]

theorem notifyCell_cores (k : Kern) (c : Nat) (l : Launch) (serial n kind step : Nat) (faces : List W32) (rel held : Bool) :
    (notifyCell k c l serial n kind step faces rel held).cores = k.cores := by
  refine foldl_cores (fun k d => ?_) _ k
  rfl

theorem shareTruss_cores (k : Kern) (serial kind step : Nat) (vals : List W32) :
    (shareTruss k serial kind step vals).cores = k.cores := by
  unfold shareTruss
  split
  · rfl
  · refine foldl_cores (fun k b => ?_) _ k
    rfl

theorem endStep_cores (k : Kern) (serial sigma : Nat) : (endStep k serial sigma).cores = k.cores := shareTruss_cores _ _ _ _ _

theorem endSettle_cores (k : Kern) (serial sigma : Nat) (sig : W64) : (endSettle k serial sigma sig).cores = k.cores :=
  shareTruss_cores _ _ _ _ _

theorem samePlaces_modRegion (k : Kern) (serial : Nat) (f : XRegion → XRegion) : SamePlaces c k (modRegion k c serial f) :=
  samePlaces_of_threads k fun _ => rfl

theorem samePlaces_drainWhere (k : Kern) (test : WcEntry → Bool) : SamePlaces c k (drainWhere k c test) :=
  samePlaces_of_threads k fun _ => rfl

theorem samePlaces_modThis (k : Kern) (t : Thread) {f : Thread → Thread} (hk : KeepsKey f) (hf : ∀ t, placeOf (f t) = placeOf t) :
    SamePlaces c k (modThis k c t f) := samePlaces_modThread c k c _ _ f hk hf

theorem samePlaces_writePred (k : Kern) (t : Thread) (i : Nat) (x : Bool) : SamePlaces c k (writePred k c t i x) :=
  samePlaces_modThis k t (keepsKey_regs _) fun _ => rfl

/-- A cell's settle registers are its thread's. -/
theorem samePlaces_settle (k : Kern) (t : Thread) (f : Thread → Settle) :
    SamePlaces c k (modThis k c t fun u => { u with settle := f u }) :=
  samePlaces_modThis k t (fun _ => ⟨rfl, rfl⟩) fun _ => rfl

/-- The record of a cell that has published a step, whose marks are cleared. -/
def publishedRecord (k : Kern) (c : Nat) (t : Thread) (r : XRegion) (b : Nat) : Kern :=
  modThis (putBytes (withFaces k (recordAt c r b) t) (recordAt c r b + 144) (bytesOfNat 8 (sigmaAt k (recordAt c r b) + 1))) c t fun u =>
    { u with marks := List.replicate 16 false }

/-- What a region notes of a publication, where it does. -/
def noted (c serial : Nat) (p : Bool) (f : XRegion → XRegion) (k : Kern) : Kern := if p then modRegion k c serial f else k

/-- Publishing writes the record, notes the publication in its region, and tells the readers. -/
theorem publish_eq (k : Kern) (c : Nat) (t : Thread) (l : Launch) (r : XRegion) (b : Nat) (release : Bool) :
    ∃ f g n kind faces held p q, publish k c t l r b release =
      notifyCell (noted c r.launch p f (noted c r.launch q g (publishedRecord k c t r b))) c l r.launch n kind
        (sigmaAt k (recordAt c r b)) faces release held := by
  unfold publish
  exact ⟨_, _, _, _, _, _, _, _, rfl⟩

theorem samePlaces_noted (serial : Nat) (p : Bool) (f : XRegion → XRegion) (k : Kern) : SamePlaces c k (noted c serial p f k) := by
  unfold noted
  split
  · exact samePlaces_modRegion k serial f
  · exact fun _ _ => rfl

theorem withFaces_cores (k : Kern) (at_ : Nat) (t : Thread) : (withFaces k at_ t).cores = k.cores := by
  simp only [withFaces, apply_ite Kern.cores, putBytes_cores, ite_self]

theorem samePlaces_publishedRecord (k : Kern) (t : Thread) (r : XRegion) (b : Nat) : SamePlaces c k (publishedRecord k c t r b) :=
  (samePlaces_of_cores ((putBytes_cores _ _ _).trans (withFaces_cores k _ t))).trans
    (samePlaces_modThis _ t (fun _ => ⟨rfl, rfl⟩) fun _ => rfl)

theorem samePlaces_publish (k : Kern) (t : Thread) (l : Launch) (r : XRegion) (b : Nat) (release : Bool) :
    SamePlaces c k (publish k c t l r b release) := by
  obtain ⟨f, g, n, kind, faces, held, p, q, h⟩ := publish_eq k c t l r b release
  rw [h]
  exact (((samePlaces_publishedRecord k t r b).trans (samePlaces_noted _ q g _)).trans (samePlaces_noted _ p f _)).trans
    (samePlaces_of_cores (notifyCell_cores _ _ _ _ _ _ _ _ _ _))

/-! ## The roster -/

theorem saveLive_cores (at_ : Nat) (v : List W32) (mask n : Nat) (k : Kern) : (saveLive k at_ v mask n).cores = k.cores := by
  induction n with
  | zero => rfl
  | succ n ih =>
    simp only [saveLive]
    split
    · rw [putBytes_cores, ih]
    · exact ih

theorem samePlaces_admitCell (k : Kern) (t : Thread) (r : XRegion) (l : Launch) (b : Nat) :
    SamePlaces c k (admitCell k c t r l b).1 := by
  unfold admitCell
  refine SamePlaces.trans ?_ (samePlaces_modRegion _ _ _)
  refine SamePlaces.trans ?_ (samePlaces_of_cores (putBytes_cores _ _ _))
  refine SamePlaces.trans ?_ (samePlaces_modThis _ t (fun _ => ⟨rfl, rfl⟩) fun _ => rfl)
  exact samePlaces_readMask k l _

theorem inGroup_flushHeld {k : Kern} {t : Thread} (h : InGroup k c t) (test : Held → Bool) : InGroup (flushHeld k c t test) c t := by
  obtain ⟨w, hw, hblock, hgroup⟩ := h
  exact ⟨flushed test w, by rw [getThread_flushHeld_same, hw]; rfl, hblock, hgroup⟩

/-- The thread whose cell is exchanged stays in its group. -/
theorem inGroup_rotateCell {k : Kern} {t : Thread} (h : InGroup k c t) (r : XRegion) (l : Launch) (b mask pc a : Nat) :
    InGroup (rotateCell k c t r l b mask pc a).1 c t :=
  inGroup_samePlaces (inGroup_flushHeld h _) ((((samePlaces_of_cores (putBytes_cores _ _ _)).trans
    (samePlaces_of_cores (saveLive_cores _ _ _ _ _))).trans (samePlaces_modRegion _ _ _)).trans (samePlaces_admitCell _ _ _ _ _))

end Places

end Sys2Proof.Proofs
end

section
/-! STEP, STEP.R, SETTLE, RESID and STEST (R221, R224, R226, R227, R294). -/

namespace Sys2Proof.Proofs

open Sys2Proof.Machine Sys2Proof.Safety

/-! ## The step of a cell -/

/-- The state in which a cell has ended its step, published it, and done what its instruction adds. -/
def stepped (c : Nat) (release : Bool) (end_ : Kern → Nat → Nat → Kern) (fin : Kern → Kern) (k : Kern) (t : Thread) (l : Launch)
    (r : XRegion) (b : Nat) : Kern :=
  let k := if release then drainWhere k c fun e => e.cells.contains (r.launch, b) else k
  fin (publish (end_ k r.launch (sigmaAt k (recordAt c r b))) c t l r b release)

section StepBody

variable {s : State} {release : Bool} {end_ : Kern → Nat → Nat → Kern} {fin : Kern → Kern} {k k' : Kern} {t : Thread} {l : Launch}
  {r : XRegion} {b : Nat} (hcell : cellPlace k s.cur.core t = some (l, r, b))

include hcell

theorem stepBody_fixed (hv : r.virt = false) :
    stepBody s release end_ fin k t = (stepped s.cur.core release end_ fin k t l r b, .next) := by
  simp only [stepBody, hcell, hv, Bool.false_eq_true, if_false, stepped]

theorem stepBody_safe {mask : Nat} (hv : r.virt = true) (hsafe : safePoint k l (curPc s) = (k', .ok (some mask))) :
    stepBody s release end_ fin k t =
      roster (stepped s.cur.core release end_ fin k' t l r b) s.cur.core t mask (curNext s) := by
  simp only [stepBody, hcell, hv, hsafe, if_true, stepped]

theorem stepBody_noEntry (hv : r.virt = true) (hsafe : safePoint k l (curPc s) = (k', .ok none)) :
    stepBody s release end_ fin k t = illegalHere k' := by
  simp only [stepBody, hcell, hv, hsafe, if_true]

theorem stepBody_fails {x : Course} (hv : r.virt = true) (hsafe : safePoint k l (curPc s) = (k', .error x)) :
    stepBody s release end_ fin k t = (k', x) := by
  simp only [stepBody, hcell, hv, hsafe, if_true]

end StepBody

section Roster

variable {k : Kern} {c : Nat} {t : Thread} {l : Launch} {r : XRegion} {b : Nat} (hcell : cellPlace k c t = some (l, r, b))
  (mask next : Nat)

include hcell

theorem roster_alone (haway : r.away = []) : roster k c t mask next = (k, .next) := by
  have hnone : leastAway k c r l = none := by rw [leastAway, haway]; rfl
  simp only [roster, hcell, hnone]

variable {a sigma : Nat} (hleast : leastAway k c r l = some (a, sigma))

include hleast

theorem roster_behind (h : sigmaAt k (recordAt c r b) ≤ sigma) : roster k c t mask next = (k, .next) := by
  simp only [roster, hcell, hleast, if_pos h]

theorem roster_waits (h : sigma < sigmaAt k (recordAt c r b))
    (hw : resultsPending k c t = true ∨ maskReadable k c r l a = false) :
    roster k c t mask next = beginWait k c t (.rotate mask (BitVec.ofNat 64 next)) := by
  have hwait : (resultsPending k c t || !maskReadable k c r l a) = true := by
    rcases hw with hw | hw <;> simp [hw]
  simp only [roster, hcell, hleast, if_neg (Nat.not_le.mpr h), hwait, if_true]

theorem roster_rotates (h : sigma < sigmaAt k (recordAt c r b)) (hr : resultsPending k c t = false)
    (hm : maskReadable k c r l a = true) :
    roster k c t mask next = ((rotateCell k c t r l b mask next a).1, .to (rotateCell k c t r l b mask next a).2) := by
  simp only [roster, hcell, hleast, if_neg (Nat.not_le.mpr h), hr, hm, Bool.not_true, Bool.or_self, Bool.false_eq_true, if_false]

end Roster

theorem cellPlace_butCaches {c : Nat} {k k' : Kern} (h : ButCaches c k k') (t : Thread) : cellPlace k' c t = cellPlace k c t := by
  have hlaunches : k'.launches = k.launches := by rw [h.shared]
  have hxr : (coreOf k' c).xr = (coreOf k c).xr := by rw [h.core]
  simp only [cellPlace, blockOf_butCaches h, launchOf, regionOf, hlaunches, hxr]

theorem sigmaAt_of_mem {k k' : Kern} (h : k'.mem = k.mem) (a : Nat) : sigmaAt k' a = sigmaAt k a := getNat_of_mem h _ _

section StepEvents

variable {s : State} {m : Instr} {t : Thread} {l : Launch} {r : XRegion} {b : Nat} {body : Kern → Thread → List Reg → Kern × Course}
  {release : Bool} {end_ : Kern → Nat → Nat → Kern} {fin : Kern → Kern} {K : Kern}

/-- A step instruction by its body: the state in which the cell has stepped is K, where the thread has kept its group. -/
theorem step_event (ha : ExecutesAlone s m t = true) (hs : t.tstate = false) (hcell : cellPlace s.kern s.cur.core t = some (l, r, b))
    (hexec : exec m s = answer (issueEach s m (unlessTrapState s body)))
    (hbody : body (beforeBody s m t) t (destination s m t) = stepBody s release end_ fin (beforeBody s m t) t)
    (hK : stepped s.cur.core release end_ fin (beforeBody s m t) t l r b = K) (hplaces : SamePlaces s.cur.core (beforeBody s m t) K) :
    (r.virt = false → ∃ s', exec m s = .next s' ∧ GoesOnFrom s K t s' (curNext s)) ∧
    (∀ mask r', r.virt = true → safePoint (beforeBody s m t) l (curPc s) = (beforeBody s m t, .ok (some mask)) →
      cellPlace K s.cur.core t = some (l, r', b) →
      (r'.away = [] → ∃ s', exec m s = .next s' ∧ GoesOnFrom s K t s' (curNext s)) ∧
      (∀ a sigma, leastAway K s.cur.core r' l = some (a, sigma) →
        (sigmaAt K (recordAt s.cur.core r' b) ≤ sigma → ∃ s', exec m s = .next s' ∧ GoesOnFrom s K t s' (curNext s)) ∧
        (sigma < sigmaAt K (recordAt s.cur.core r' b) →
          (resultsPending K s.cur.core t = true ∨ maskReadable K s.cur.core r' l a = false) → ∃ s', exec m s = .next s' ∧
            WaitsIn s (modThis K s.cur.core t fun u => { u with wait := .rotate mask (BitVec.ofNat 64 (curNext s)) }) t s') ∧
        (sigma < sigmaAt K (recordAt s.cur.core r' b) → resultsPending K s.cur.core t = false →
          maskReadable K s.cur.core r' l a = true → ∃ s', exec m s = .next s' ∧
            GoesOnFrom s (rotateCell K s.cur.core t r' l b mask (curNext s) a).1 t s'
              (rotateCell K s.cur.core t r' l b mask (curNext s) a).2))) ∧
    (∀ l' h cause fault, r.virt = true → TakesTraps s t l' h → cause < 256 → fault < 2 ^ 64 → cause ≠ 0x10 →
      safePoint (beforeBody s m t) l (curPc s) = (beforeBody s m t, .error (.trap cause 0 fault)) → ∃ s', exec m s = .next s' ∧
        TrapsTo s s' t h (pairtOf s.kern s.cur.core l' (curPc s)) cause 0 (curPc s) fault) ∧
    (∀ l' h, r.virt = true → safePoint (beforeBody s m t) l (curPc s) = (beforeBody s m t, .ok none) → TakesTraps s t l' h →
      ∃ s', exec m s = .next s' ∧ TrapsTo s s' t h (pairtOf s.kern s.cur.core l' (curPc s)) 0x01 0 (curPc s) 0) := by
  have hk : ButCaches s.cur.core s.kern (beforeBody s m t) := caches_before s.kern s.cur.core m [t]
  have hcell' := (cellPlace_butCaches hk t).trans hcell
  have hrun := (unlessTrapState_runs (s := s) hs body (beforeBody s m t) (destination s m t)).trans hbody
  have hin : InGroup K s.cur.core t := inGroup_samePlaces ⟨t, getThread_beforeBody ha, rfl, rfl⟩ hplaces
  have hpc := curPc_lt (executes_single (alone_executes ha))
  refine ⟨fun hv => ⟨_, hexec, ?fixed⟩, fun mask r' hv hsafe hcellK => ?safe, fun l' h cause fault hv hd hcause hfault hne hsafe =>
    ⟨_, hexec, ?fails⟩, fun l' h hv hsafe hd => ⟨_, hexec, ?noEntry⟩⟩
  case fixed => exact issueEach_goesOn ha _ (by rw [hrun, stepBody_fixed hcell' hv, hK]) rfl hin
  case safe =>
    have hroster := hrun.trans ((stepBody_safe hcell' hv hsafe).trans (by rw [hK]))
    refine ⟨fun haway => ⟨_, hexec, ?_⟩, fun a sigma hleast => ⟨fun hle => ⟨_, hexec, ?_⟩, fun hlt hw => ⟨_, hexec, ?_⟩,
      fun hlt hr hm => ⟨_, hexec, ?_⟩⟩⟩
    · exact issueEach_goesOn ha _ (hroster.trans (roster_alone hcellK _ _ haway)) rfl hin
    · exact issueEach_goesOn ha _ (hroster.trans (roster_behind hcellK _ _ hleast hle)) rfl hin
    · exact issueEach_waits ha _ (hroster.trans (roster_waits hcellK _ _ hleast hlt hw))
        (inGroup_samePlaces hin (samePlaces_modThis _ t (keepsKey_wait _) fun _ => rfl))
    · exact issueEach_goesOn ha _ (hroster.trans (roster_rotates hcellK _ _ hleast hlt hr hm)) rfl (inGroup_rotateCell hin _ _ _ _ _ _)
  case fails =>
    exact issueEach_traps ha _ hd (hrun.trans (stepBody_fails hcell' hv hsafe)) cause 0 (curPc s) fault hpc hfault hcause (by decide)
      hne (.inr ⟨rfl, rfl⟩)
  case noEntry =>
    exact issueEach_traps ha _ hd (hrun.trans (stepBody_noEntry hcell' hv hsafe)) 0x01 0 (curPc s) 0 hpc (by decide) (by decide)
      (by decide) (by decide) (.inr ⟨rfl, rfl⟩)

end StepEvents

theorem steps : Claims.Steps := by
  unfold Claims.Steps
  intro after x s t l r b m hm ha hs hcell
  have hsigma (k : Kern) (h : k.mem = (beforeBody s m t).mem) :
      sigmaAt k (recordAt s.cur.core r b) = sigmaAt s.kern (recordAt s.cur.core r b) :=
    sigmaAt_of_mem (h.trans (beforeBody_mem s m t)) _
  simp only [List.mem_cons, List.not_mem_nil, or_false] at hm
  rcases hm with rfl | rfl | rfl
  · refine step_event ha hs hcell rfl rfl (K := after s t x l r b (.step x)) ?_ ?_
    · simp only [stepped, Bool.false_eq_true, if_false, hsigma _ rfl]
      rfl
    · exact (samePlaces_of_cores (endStep_cores _ _ _)).trans (samePlaces_publish _ _ _ _ _ _)
  · refine step_event ha hs hcell rfl rfl (K := after s t x l r b (.stepR x)) ?_ ?_
    · simp only [stepped, if_true, hsigma _ (drainWhere_mem ..)]
      rfl
    · exact ((samePlaces_drainWhere _ _).trans (samePlaces_of_cores (endStep_cores _ _ _))).trans
        (samePlaces_publish _ _ _ _ _ _)
  · refine step_event ha hs hcell rfl rfl (K := after s t x l r b (.settle x)) ?_ ?_
    · simp only [stepped, Bool.false_eq_true, if_false, hsigma _ rfl]
      rfl
    · exact ((samePlaces_of_cores (endSettle_cores _ _ _ _)).trans (samePlaces_publish _ _ _ _ _ _)).trans
        (samePlaces_settle _ t _)

/-! ## Residuals -/

section Residuals

variable {k : Kern} {c : Nat} {t : Thread} {l : Launch} {r : XRegion} {b : Nat} (hcell : cellPlace k c t = some (l, r, b))

include hcell

theorem residBody_adds (sumsq : Bool) (a : W32) (ho : t.settle.opened = true) : residBody c sumsq a k t =
    (shareTruss (modTruss k r.launch (sigmaAt k (recordAt c r b)) (addResidual sumsq a)) r.launch (if sumsq then 6 else 5)
      (sigmaAt k (recordAt c r b)) [a], .next) := by
  simp only [residBody, hcell, ho, Bool.not_true, Bool.false_eq_true, if_false]

theorem residBody_closed (sumsq : Bool) (a : W32) (ho : t.settle.opened = false) : residBody c sumsq a k t = illegalHere k := by
  simp only [residBody, hcell, ho, Bool.not_false, if_true]

theorem stestBody_closed (qp : Option (Fin 7)) (ho : solveOpen t (sigmaAt k (recordAt c r b)) = false) :
    stestBody c qp k t = illegalHere k := by
  simp only [stestBody, hcell, ho, Bool.not_false, if_true]

/-- The truss value that STEST reads. -/
def readTruss (k : Kern) (serial sigma : Nat) : W32 := trussValue (trussStep ((mget k.fields serial).getD .start) (sigma - 1))

/-- The solve of a thread closes at a value (R227). -/
def closes (t : Thread) (sigma : Nat) (v : W32) : Bool :=
  meetsTol v t.settle.tol || decide (t.settle.cap.toNat ≤ sigma - t.settle.sopen.toNat)

theorem stestBody_reads (q : Fin 7) (ho : solveOpen t (sigmaAt k (recordAt c r b)) = true) :
    let v := readTruss k r.launch (sigmaAt k (recordAt c r b))
    let done := closes t (sigmaAt k (recordAt c r b)) v
    stestBody c (some q) k t = (writePred (modThis k c t fun u =>
      { u with settle := { u.settle with truss := v, opened := u.settle.opened && !done } }) c t q.val done, .next) := by
  simp only [stestBody, hcell, ho, Bool.not_true, Bool.false_eq_true, if_false, readTruss, closes]

end Residuals

theorem trussValue_eq (y : TrussStep) : trussValue y =
    if y.maxabs ≠ [] then BitVec.ofNat 32 (maxAbs y.maxabs) else if y.sumsq ≠ [] then BitVec.ofNat 32 (sumSquares y.sumsq) else 0 := by
  simp [trussValue]

theorem addResidual_eq (om : BitVec 3) (a : W32) : addResidual (om == 1) a =
    fun y => if om = 1 then { y with sumsq := y.sumsq ++ [a] } else { y with maxabs := y.maxabs ++ [a &&& 0x7FFFFFFF] } := by
  funext y
  simp only [addResidual, beq_iff_eq]

theorem residuals : Claims.Residuals := by
  unfold Claims.Residuals
  refine ⟨fun x s t l r b ha hcell ho => ?resid, fun x s t l r b q ha hcell hq ho => ?stest,
    fun x s t l r b l' h m ha hd hcell hcase => ?closed⟩
  case resid =>
    have hk : ButCaches s.cur.core s.kern (beforeBody s (.resid x) t) := caches_before s.kern s.cur.core (.resid x) [t]
    have hbody := residBody_adds ((cellPlace_butCaches hk t).trans hcell) (x.om == 1) (BitVec.ofNat 32 (srcRaw s t .f32 x.a)) ho
    rw [sigmaAt_of_mem (beforeBody_mem s _ t), addResidual_eq] at hbody
    simp only [beq_iff_eq] at hbody
    exact ⟨_, rfl, issueEach_goesOn ha _ hbody rfl (inGroup_samePlaces ⟨t, getThread_beforeBody ha, rfl, rfl⟩
      (samePlaces_of_cores (shareTruss_cores _ _ _ _ _)))⟩
  case stest =>
    have hk : ButCaches s.cur.core s.kern (beforeBody s (.stest x) t) := caches_before s.kern s.cur.core (.stest x) [t]
    have hfields : (beforeBody s (.stest x) t).fields = s.kern.fields := by rw [hk.shared]
    have hbody := stestBody_reads ((cellPlace_butCaches hk t).trans hcell) q
      (by rw [sigmaAt_of_mem (beforeBody_mem s _ t)]; exact ho)
    simp only [sigmaAt_of_mem (beforeBody_mem s _ t), readTruss, closes, trussValue_eq, hfields] at hbody
    rw [← hq] at hbody
    have hexec : exec (.stest x) s = answer (issueEach s (.stest x) fun k t _ => stestBody s.cur.core x.qp k t) := rfl
    refine ⟨_, hexec, ?_⟩
    exact issueEach_goesOn ha _ hbody rfl (inGroup_samePlaces ⟨t, getThread_beforeBody ha, rfl, rfl⟩
      ((samePlaces_settle _ t _).trans (samePlaces_writePred _ t _ _)))
  case closed =>
    have hk : ButCaches s.cur.core s.kern (beforeBody s m t) := caches_before s.kern s.cur.core m [t]
    have hcell' := (cellPlace_butCaches hk t).trans hcell
    have hpc := curPc_lt (executes_single (alone_executes ha))
    rcases hcase with ⟨rfl, ho⟩ | ⟨rfl, ho⟩
    · exact ⟨_, rfl, issueEach_traps ha _ hd (residBody_closed hcell' _ _ ho) 0x01 0 (curPc s) 0 hpc (by decide) (by decide)
        (by decide) (by decide) (.inr ⟨rfl, rfl⟩)⟩
    · have ho' : solveOpen t (sigmaAt (beforeBody s (.stest x) t) (recordAt s.cur.core r b)) = false := by
        rw [sigmaAt_of_mem (beforeBody_mem s _ t)]
        exact ho
      exact ⟨_, rfl, issueEach_traps ha _ hd (stestBody_closed hcell' _ ho') 0x01 0 (curPc s) 0 hpc (by decide) (by decide)
        (by decide) (by decide) (.inr ⟨rfl, rfl⟩)⟩

/-- Settles O19: a step by its body and the roster that follows it, a residual and a test by their bodies. -/
theorem stepsAndResiduals : Obligations.StepsAndResiduals := ⟨steps, residuals⟩

end Sys2Proof.Proofs
end

section
/-! Events of the matrix unit (R205, R207, R211 to R213, R371): MXs that wait, launched MXs that run, fail or lack tokens, and bed
loads that read their stream. -/

namespace Sys2Proof.Proofs

open Sys2Proof.Machine Sys2Proof.Safety

/-! ## What the code of a thread reads as -/

/-- The launches of threads and the lines of code are what they were. -/
structure SameCode (c : Nat) (k k' : Kern) : Prop where
  launch : ∀ t, threadLaunch k' c t = threadLaunch k c t
  line : ∀ l n, seeLine k' c l n = seeLine k c l n
  inside : ∀ l n, lineInside k' l n = lineInside k l n

namespace SameCode

variable {c : Nat} {k k' : Kern}

theorem trans {k'' : Kern} (h : SameCode c k k') (h' : SameCode c k' k'') : SameCode c k k'' :=
  ⟨fun t => (h'.launch t).trans (h.launch t), fun l n => (h'.line l n).trans (h.line l n),
    fun l n => (h'.inside l n).trans (h.inside l n)⟩

theorem nextPc (h : SameCode c k k') (t : Thread) : Machine.nextPc k' c t = Machine.nextPc k c t := by
  simp only [Machine.nextPc, h.launch, h.line]

theorem pairtOf (h : SameCode c k k') (l : Launch) (pc : Nat) : Machine.pairtOf k' c l pc = Machine.pairtOf k c l pc := by
  simp only [Machine.pairtOf, h.inside, h.line]

end SameCode

theorem sameCode_within {c : Nat} {keys : Nat → Nat → Bool} {k k' : Kern} (h : Within c keys k k') : SameCode c k k' := by
  refine ⟨threadLaunch_within h, seeLine_within h, fun l n => ?_⟩
  rw [h.shared]
  rfl

theorem sameCode_modCore (k : Kern) (c : Nat) {f : Core → Core} (hb : ∀ x, (f x).blocks = x.blocks) (hl : ∀ x, (f x).lines = x.lines) :
    SameCode c k (modCore k c f) := by
  refine ⟨fun t => ?_, fun l n => ?_, fun _ _ => rfl⟩
  · simp only [threadLaunch, blockOf, coreOf_modCore_same, hb]
    rfl
  · simp only [seeLine, coreOf_modCore_same, bufferedLine, hl]
    rfl

theorem sameCode_modBlock (k : Kern) (c b : Nat) {f : Block → Block} (hf : ∀ x, (f x).launch = x.launch) :
    SameCode c k (modBlock k c b f) := by
  refine ⟨fun t => ?_, fun l n => ?_, fun _ _ => rfl⟩
  · simp only [threadLaunch, blockOf_modBlock]
    by_cases hb : t.block = b
    · rw [if_pos hb]
      cases blockOf k c t.block with
      | none => rfl
      | some blk =>
        simp only [Option.map_some, launchOf, hf]
        rfl
    · rw [if_neg hb]
      rfl
  · simp only [seeLine, modBlock, coreOf_modCore_same]
    rfl

theorem sameCode_doneWaiting (k : Kern) (u : UnitKind) (c d job : Nat) : SameCode c k (doneWaiting k u d job) :=
  ⟨fun _ => rfl, fun _ _ => rfl, fun _ _ => rfl⟩

/-! ## Waits that end -/

/-- The waits of threads are none. -/
def clearWaits (k : Kern) (c : Nat) (ts : List Thread) : Kern :=
  ts.foldl (fun k t => modThis k c t fun u => { u with wait := .none }) k

theorem within_clearWaits {keys : Nat → Nat → Bool} (k : Kern) (c : Nat) (ts : List Thread)
    (hk : ∀ t ∈ ts, keys t.tslot t.lane = true) : Within c keys k (clearWaits k c ts) :=
  within_foldl _ _ (fun k t ht => within_modThis k t _ keepsKey_noWait (hk t ht)) k

theorem getThread_clearWaits (ts : List Thread) (k : Kern) (c a b : Nat) :
    getThread (clearWaits k c ts) c a b = (getThread k c a b).map fun u =>
      if ts.any fun t => t.tslot == a && t.lane == b then { u with wait := .none } else u := by
  induction ts generalizing k with
  | nil => simp [clearWaits]
  | cons t ts ih =>
    rw [clearWaits, List.foldl_cons, ← clearWaits, ih, modThis, getThread_modThread _ _ _ _ _ _ _ keepsKey_noWait, List.any_cons]
    by_cases h : a = t.tslot ∧ b = t.lane
    · rw [if_pos h, Option.map_map, h.1, h.2]
      congr 1; funext u
      simp
    · have hne : (t.tslot == a && t.lane == b) = false := by
        rw [← Bool.not_eq_true, Bool.and_eq_true, beq_iff_eq, beq_iff_eq]
        exact fun he => h ⟨he.1.symm, he.2.symm⟩
      rw [if_neg h, hne, Bool.false_or]

theorem endWaits_eq (k : Kern) (c : Nat) (ts : List Thread) :
    endWaits k c ts = moveThreads (clearWaits k c ts) c (ts.map fun t => moverOf k c t (nextPc k c t)) := rfl

/-- The end of waits is what the statements say of it. -/
theorem resumes_endWaits (k : Kern) (c : Nat) (ts : List Thread) : Resumes c k (endWaits k c ts) ts := by
  constructor
  case each =>
    intro t ht honly u hu
    have hmine : (ts.any fun v => v.tslot == t.tslot && v.lane == t.lane) = true := List.any_eq_true.mpr ⟨t, ht, by simp⟩
    have hpc : ∀ m ∈ ts.map (fun v => moverOf k c v (nextPc k c v)), m.is t.tslot t.lane = true → m.pc = nextPc k c t := by
      intro m hm his
      obtain ⟨v, hv, rfl⟩ := List.mem_map.mp hm
      obtain ⟨hslot, hlane⟩ : v.tslot = t.tslot ∧ v.lane = t.lane := by simpa [Mover.is, moverOf] using his
      rw [honly v hv hslot hlane]
      rfl
    obtain ⟨loc, hplaced, hmoved⟩ := getThread_moveThreads (clearWaits k c ts) c t.tslot t.lane _ _ hpc
    have hmover : ((ts.map fun v => moverOf k c v (nextPc k c v)).any fun m => m.is t.tslot t.lane) = true := by
      rw [List.any_map]
      exact hmine
    rw [← endWaits_eq, getThread_clearWaits, hu, Option.map_some, Option.map_some, if_pos hmine, if_pos hmover] at hmoved
    exact ⟨_, hmoved, rfl, rfl, hplaced⟩
  case within =>
    have hmine : ∀ t ∈ ts, (ts.any fun v => v.tslot == t.tslot && v.lane == t.lane) = true :=
      fun t ht => List.any_eq_true.mpr ⟨t, ht, by simp⟩
    refine (within_clearWaits k c ts hmine).trans (within_moveThreads _ _ fun m hm => ?_)
    obtain ⟨t, ht, rfl⟩ := List.mem_map.mp hm
    exact hmine t ht

/-! ## One thread that waits at an MX -/

/-- The thread waits at a pegged MX. -/
def waitsAtMx (t : Thread) : Bool := match t.wait with | .mx _ _ _ => true | _ => false

theorem launchOne_elsewhere {c : Nat} {t : Thread} (h : waitsAtMx t = false) (w : MxWave) : launchOne c w t = w := by
  unfold launchOne
  unfold waitsAtMx at h
  dsimp only
  split
  · next hwait _ _ => rw [hwait] at h; cases h
  · rfl

theorem foldl_launchOne_elsewhere {c : Nat} (ts : List Thread) (h : ∀ t ∈ ts, waitsAtMx t = false) (w : MxWave) :
    ts.foldl (launchOne c) w = w := by
  induction ts with
  | nil => rfl
  | cons t ts ih =>
    obtain ⟨ht, hts⟩ := List.forall_mem_cons.mp h
    rw [List.foldl_cons, launchOne_elsewhere ht, ih hts]

theorem perm_insertBy {α : Type} (key : α → Nat) (a : α) (l : List α) : (insertBy key a l).Perm (a :: l) := by
  induction l with
  | nil => exact .refl _
  | cons b l ih =>
    rw [insertBy]
    split
    · exact .refl _
    · exact (ih.cons b).trans (.swap a b l)

theorem perm_sortBy {α : Type} (key : α → Nat) (l : List α) : (sortBy key l).Perm l := by
  have hfold : ∀ (l acc : List α), (l.foldl (fun acc a => insertBy key a acc) acc).Perm (acc ++ l) := by
    intro l
    induction l with
    | nil => exact fun acc => by rw [List.append_nil]; exact .refl _
    | cons a l ih =>
      exact fun acc => ((ih _).trans ((perm_insertBy key a acc).append_right l)).trans List.perm_middle.symm
  exact hfold l []

/-- Of the threads of a block that wait at pegged MXs there is one: what that one does is what the block's threads do. -/
theorem foldl_launchOne_alone {c : Nat} {t : Thread} {core : Core} (key : Thread → Nat)
    (halone : (core.threads.filter fun u => u.block == t.block && waitsAtMx u) = [t]) (w : MxWave) :
    (sortBy key (blockThreads core t.block)).foldl (launchOne c) w = launchOne c w t := by
  have hone : (sortBy key (blockThreads core t.block)).filter waitsAtMx = [t] := by
    refine List.perm_singleton.mp (((perm_sortBy key _).filter waitsAtMx).trans (List.Perm.of_eq ?_))
    rw [blockThreads, List.filter_filter, ← halone]
    exact congrArg (fun f => core.threads.filter f) (funext fun u => Bool.and_comm _ _)
  obtain ⟨before, after, hsplit, hbefore, -, hafter⟩ := List.filter_eq_cons_iff.mp hone
  have helse : ∀ u ∈ after, waitsAtMx u = false := fun u hu => by
    simpa using List.filter_eq_nil_iff.mp hafter u hu
  rw [hsplit, List.foldl_append, List.foldl_cons, foldl_launchOne_elsewhere before fun u hu => by simpa using hbefore u hu,
    foldl_launchOne_elsewhere after helse]

section Launch

variable {s : State} {c : Nat} {t : Thread} {x : XForm} {set : Bool} {v : BitVec 16} {blk : Block} {l : Launch}
  (ht : getThread s.kern c t.tslot t.lane = some t) (hwait : t.wait = .mx x set v)
  (halone : ((coreOf s.kern c).threads.filter fun u => u.block == t.block && waitsAtMx u) = [t])
  (hblk : blockOf s.kern c t.block = some blk) (hl : threadLaunch s.kern c t = some l) (htrap : mxTrap blk l x = none)
  (hpass : mayPass s.kern c t x v = true)

include ht hwait halone hblk hl htrap hpass

theorem mxLaunch_held {k' : Kern} {n : Nat} (hmx : passMx s.kern c t x set t.pc = (k', some n)) :
    exec (.mxLaunch c t.tslot t.lane) s =
      .next { s with kern := sweepEntries (modThis k' c t fun u => { u with wait := .mxHeld n }) c } := by
  have harm : exec (.mxLaunch c t.tslot t.lane) s = execMxLaunch c t.tslot t.lane s := rfl
  have hwave : launchOne c { kern := s.kern, pass := [], traps := [] } t =
      { kern := modThis k' c t fun u => { u with wait := .mxHeld n }, pass := [], traps := [] } := by
    simp only [launchOne, hwait, hblk, hl, htrap, hpass, hmx, Bool.not_true, Bool.false_eq_true, if_false]
  have hkern : launchWaiting s.kern c t.block = sweepEntries (modThis k' c t fun u => { u with wait := .mxHeld n }) c := by
    rw [launchWaiting]
    simp only [foldl_launchOne_alone _ halone, hwave]
    rfl
  simp only [harm, execMxLaunch, onThread, ht, hwait, hkern]
  rfl

theorem mxLaunch_passes {k' : Kern} (hmx : passMx s.kern c t x set t.pc = (k', none)) :
    exec (.mxLaunch c t.tslot t.lane) s = .next { s with kern := endWaits k' c [t] } := by
  have harm : exec (.mxLaunch c t.tslot t.lane) s = execMxLaunch c t.tslot t.lane s := rfl
  have hwave : launchOne c { kern := s.kern, pass := [], traps := [] } t = { kern := k', pass := [t], traps := [] } := by
    simp only [launchOne, hwait, hblk, hl, htrap, hpass, hmx, Bool.not_true, Bool.false_eq_true, if_false, List.nil_append]
  have hclear : Within c (fun _ _ => true) k' (clearWaits k' c [t]) := within_clearWaits k' c [t] fun _ _ => rfl
  have hmover : moverOf (clearWaits k' c [t]) c t (nextPc (clearWaits k' c [t]) c t) = moverOf k' c t (nextPc k' c t) := by
    rw [(sameCode_within hclear).nextPc]
    simp only [moverOf, serialOf, clearWaits, List.foldl_cons, List.foldl_nil, blockOf_modThis]
  have hkern : launchWaiting s.kern c t.block = endWaits k' c [t] := by
    rw [launchWaiting, endWaits_eq, List.map_singleton, ← hmover]
    simp only [foldl_launchOne_alone _ halone, hwave]
    rfl
  simp only [harm, execMxLaunch, onThread, ht, hwait, hkern]
  rfl

end Launch

/-! ## The oldest launched MX -/

section Oldest

variable {s : State} {c : Nat} {m : MxJob} {ms : List MxJob} (hq : (coreOf s.kern c).mxq = m :: ms)
  (hready : feedReady s.kern c m = true)

include hq hready

theorem mxCommit_unpaid {acc : Acc} {k₀ : Kern} (hfeed : (feedMx s.kern c m).2 = .ok acc) (hpay : payFeed s.kern c m = (k₀, false)) :
    exec (.mxCommit c) s = .next { s with kern := k₀ } := by
  have harm : exec (.mxCommit c) s = execMxCommit c s := rfl
  have hfed : feedMx s.kern c m = ((feedMx s.kern c m).1, .ok acc) := Prod.ext rfl hfeed
  rw [harm, execMxCommit, hq]
  simp only [hready, hpay, Bool.not_true, Bool.false_eq_true, if_false]
  rw [hfed]
  rfl

theorem mxCommit_paid {acc : Acc} {k₀ : Kern} (hfeed : (feedMx s.kern c m).2 = .ok acc) (hpay : payFeed s.kern c m = (k₀, true)) :
    exec (.mxCommit c) s = .next { s with kern := commitMx (feedMx k₀ c m).1 c m acc } := by
  have harm : exec (.mxCommit c) s = execMxCommit c s := rfl
  have hfed : feedMx s.kern c m = ((feedMx s.kern c m).1, .ok acc) := Prod.ext rfl hfeed
  rw [harm, execMxCommit, hq]
  simp only [hready, hpay, Bool.not_true, Bool.false_eq_true, if_false]
  rw [hfed]
  rfl

theorem mxCommit_waits {k : Kern} {faddr sub : Nat} (hfeed : feedMx s.kern c m = (k, .error (.wait faddr sub))) :
    exec (.mxCommit c) s = .next { s with kern := waitFor s.kern .feed c m.id m.ctx faddr sub } := by
  have harm : exec (.mxCommit c) s = execMxCommit c s := rfl
  rw [harm, execMxCommit, hq]
  simp only [hready, hfeed, Bool.not_true, Bool.false_eq_true, if_false]
  rfl

theorem feedReadFault_fails {k : Kern} {cause sub fault : Nat} (hfeed : feedMx s.kern c m = (k, .error (.trap cause sub fault))) :
    exec (.feedReadFault c) s = .next { s with kern := failFeed k c m cause sub fault } := by
  have harm : exec (.feedReadFault c) s = execFeedReadFault c s := rfl
  rw [harm, execFeedReadFault, hq]
  simp only [hready, hfeed, Bool.not_true, Bool.false_eq_true, if_false]
  rfl

end Oldest

/-! ## A commit -/

/-- The state in which an MX has written its accumulator and left the queue, and its threads still wait. -/
def written (k : Kern) (c : Nat) (m : MxJob) (a : Acc) : Kern :=
  modCore (modAcc (doneWaiting k .feed c m.id) c m.block m.x.acc.val fun _ => a) c fun core =>
    { core with mxq := core.mxq.filter fun x => x.id != m.id }

theorem commitMx_eq (k : Kern) (c : Nat) (m : MxJob) (a : Acc) :
    commitMx k c m a = endWaits (written k c m a) c (heldAt (coreOf k c) m.id) := rfl

section Written

variable (k : Kern) (c : Nat) (m : MxJob) (a : Acc)

theorem getThread_written (x y : Nat) : getThread (written k c m a) c x y = getThread k c x y := by
  simp only [written, getThread, modAcc, modBlock, coreOf_modCore_same]
  rfl

theorem sameCode_written : SameCode c k (written k c m a) := by
  unfold written modAcc
  refine ((sameCode_doneWaiting k .feed c c m.id).trans (sameCode_modBlock _ c m.block ?_)).trans (sameCode_modCore _ c ?_ ?_) <;>
    exact fun _ => rfl

theorem mxq_written : (coreOf (written k c m a) c).mxq = (coreOf k c).mxq.filter fun j => j.id != m.id := by
  simp only [written, modAcc, modBlock, coreOf_modCore_same]
  rfl

theorem blockOf_written {blk : Block} (hblk : blockOf k c m.block = some blk) :
    blockOf (written k c m a) c m.block = some { blk with accs := lmod blk.accs m.x.acc.val fun _ => a } := by
  have hacc : blockOf (modAcc (doneWaiting k .feed c m.id) c m.block m.x.acc.val fun _ => a) c m.block =
      some { blk with accs := lmod blk.accs m.x.acc.val fun _ => a } := by
    rw [modAcc, blockOf_modBlock, if_pos rfl, show blockOf (doneWaiting k .feed c m.id) c m.block = some blk from hblk]
    rfl
  rw [← hacc]
  simp only [written, blockOf, coreOf_modCore_same]

end Written

/-- The accumulators of a block after a commit. -/
theorem accs_commitMx {k : Kern} {c : Nat} {m : MxJob} {blk : Block} (a : Acc) (hblk : blockOf k c m.block = some blk) :
    ∃ blk', blockOf (commitMx k c m a) c m.block = some blk' ∧ blk'.accs = lmod blk.accs m.x.acc.val fun _ => a := by
  have hbare := (resumes_endWaits (written k c m a) c (heldAt (coreOf k c) m.id)).within.blocks m.block
  rw [blockOf_written k c m a hblk, ← commitMx_eq, Option.map_some, Option.map_eq_some_iff] at hbare
  obtain ⟨blk', hblk', hsame⟩ := hbare
  exact ⟨blk', hblk', congrArg Block.accs hsame⟩

theorem accOf_of_lmod {blk blk' : Block} {n : Nat} {a : Acc} (h : blk'.accs = lmod blk.accs n fun _ => a) (hn : n < blk.accs.length) :
    accOf blk' n = a ∧ ∀ i, i ≠ n → accOf blk' i = accOf blk i := by
  simp only [accOf, List.getD_eq_getElem?_getD, h, getElem?_lmod]
  refine ⟨?_, fun i hi => by rw [if_neg hi]⟩
  rw [if_true, List.getElem?_eq_getElem hn]
  rfl

/-- A held thread of an MX that commits goes on. -/
theorem held_commitMx {k : Kern} {c : Nat} {m : MxJob} (a : Acc) {t : Thread} (hheld : t ∈ heldAt (coreOf k c) m.id)
    (ht : getThread k c t.tslot t.lane = some t)
    (honly : ∀ u ∈ heldAt (coreOf k c) m.id, u.tslot = t.tslot → u.lane = t.lane → u = t) :
    ∃ u, getThread (commitMx k c m a) c t.tslot t.lane = some u ∧ u.wait = .none ∧ u.pc = BitVec.ofNat 64 (nextPc k c t) := by
  obtain ⟨u, hu, hfields, hpc, -⟩ := (resumes_endWaits (written k c m a) c (heldAt (coreOf k c) m.id)).each t hheld honly t
    ((getThread_written ..).trans ht)
  refine ⟨u, hu, ?_, hpc.trans (congrArg _ ((sameCode_written k c m a).nextPc t))⟩
  rw [hfields]

/-! ## A feed that fails -/

/-- The state in which an MX has left the queue unmade, its jig and its peg set back, and its threads still wait (R213). -/
def unmade (k : Kern) (c : Nat) (m : MxJob) : Kern :=
  let k₁ := modJig (modCore k c fun core => { core with mxq := core.mxq.filter fun x => x.id != m.id }) c m.block m.x.jg.val fun j =>
    { j with i2 := m.i2, i3 := m.i3 }
  if m.x.pge then
    modBlock k₁ c m.block fun blk =>
      { blk with pegs := lmod blk.pegs m.x.pg.val fun p =>
          { p with episode := .signClosed, pass := (heldAt (coreOf k c) m.id).foldl (fun ps t => addOnce ps (memberId blk t)) p.pass } }
  else k₁

theorem abandonMx_alone {k : Kern} {c : Nat} {m : MxJob} {t : Thread} (h : heldAt (coreOf k c) m.id = [t]) :
    abandonMx k c m =
      moveThreads (clearWaits (unmade k c m) c [t]) c [moverOf (clearWaits (unmade k c m) c [t]) c t t.pc.toNat] := by
  unfold abandonMx unmade
  rw [h]
  rfl

section Unmade

variable (k : Kern) (c : Nat) (m : MxJob)

theorem threads_unmade : (coreOf (unmade k c m) c).threads = (coreOf k c).threads := by
  unfold unmade
  dsimp only
  split <;> simp only [modJig, modBlock, coreOf_modCore_same]

theorem mxq_unmade : (coreOf (unmade k c m) c).mxq = (coreOf k c).mxq.filter fun j => j.id != m.id := by
  unfold unmade
  dsimp only
  split <;> simp only [modJig, modBlock, coreOf_modCore_same]

theorem sameCode_unmade : SameCode c k (unmade k c m) := by
  have hbase : SameCode c k (modJig (modCore k c fun core => { core with mxq := core.mxq.filter fun x => x.id != m.id }) c m.block
      m.x.jg.val fun j => { j with i2 := m.i2, i3 := m.i3 }) := by
    unfold modJig
    refine (sameCode_modCore k c ?_ ?_).trans (sameCode_modBlock _ c m.block ?_) <;> exact fun _ => rfl
  unfold unmade
  dsimp only
  split
  · refine hbase.trans (sameCode_modBlock _ c m.block ?_)
    exact fun _ => rfl
  · exact hbase

end Unmade

/-! ## Results on their way, as threads move -/

/-- The results on their way to scalar registers are what they were. -/
def SameResults (c : Nat) (k k' : Kern) : Prop := ∀ t i, scalarResults k' c t i = scalarResults k c t i

theorem SameResults.trans {c : Nat} {k k' k'' : Kern} (h : SameResults c k k') (h' : SameResults c k' k'') : SameResults c k k'' :=
  fun t i => (h' t i).trans (h t i)

theorem sameResults_of_threads {c : Nat} {k k' : Kern} (h : (coreOf k' c).threads = (coreOf k c).threads) : SameResults c k k' :=
  fun t i => by simp only [scalarResults, groupThreads, h]

theorem sameResults_of_map {c : Nat} {k k' : Kern} {f : Thread → Thread}
    (hf : ∀ u, (f u).held = u.held ∧ (f u).block = u.block ∧ (f u).group = u.group)
    (h : (coreOf k' c).threads = (coreOf k c).threads.map f) : SameResults c k k' := by
  intro t i
  have hplace : (fun u => u.block == t.block && u.group == t.group) ∘ f = fun u => u.block == t.block && u.group == t.group :=
    funext fun u => by simp only [Function.comp, (hf u).2.1, (hf u).2.2]
  simp only [scalarResults, groupThreads, h, List.filter_map, List.flatMap_map, hplace, (hf _).1]

theorem sameResults_modThread (k : Kern) (c a b : Nat) {f : Thread → Thread}
    (hf : ∀ u, (f u).held = u.held ∧ (f u).block = u.block ∧ (f u).group = u.group) : SameResults c k (modThread k c a b f) :=
  fun t i => scalarResults_modThread k c a b f t i hf

theorem sameResults_placeUnit (k : Kern) (c : Nat) (u : List Mover) : SameResults c k (placeUnit k c u) := by
  have hlocate : ∀ (k' : Kern) (f : Core → Core) (loc : Loc) (pc : Nat), coreOf k' c = coreOf k c →
      (∀ x, (f x).threads = x.threads) → SameResults c k (modCore k' c fun core => locate (f core) u loc pc) := by
    intro k' f loc pc hk hf
    refine sameResults_of_map (f := fun t => if u.any fun m => m.tslot == t.tslot && m.lane == t.lane then
      { t with loc := loc, pc := BitVec.ofNat 64 pc } else t) (fun t => by split <;> exact ⟨rfl, rfl, rfl⟩) ?_
    rw [coreOf_modCore_same, locate, hf, hk]
  cases u with
  | nil => exact fun _ _ => rfl
  | cons m ms =>
    simp only [placeUnit]
    split
    · exact hlocate k id _ _ rfl fun _ => rfl
    · split
      · exact hlocate k (fun core => { core with entries := _ }) _ _ rfl fun _ => rfl
      · exact hlocate _ (fun core => { core with pendSince := _ }) _ _ rfl fun _ => rfl

theorem sameResults_moveThreads (k : Kern) (c : Nat) (ms : List Mover) : SameResults c k (moveThreads k c ms) := by
  have hfold {α : Type} {f : Kern → α → Kern} (hf : ∀ k a, SameResults c k (f k a)) (l : List α) (k : Kern) :
      SameResults c k (l.foldl f k) :=
    foldl_keeps (SameResults c) (fun _ _ _ => rfl) (fun _ _ _ => SameResults.trans) f l (fun k a _ => hf k a) k
  simp only [moveThreads, place_]
  have hpending := hfold (f := fun k (m : Mover) => modThread k c m.tslot m.lane fun t => { t with loc := .pending 0 })
    (fun k m => sameResults_modThread k c _ _ fun _ => ⟨rfl, rfl, rfl⟩) ms k
  refine (hpending.trans (sameResults_of_threads ?_)).trans (hfold (fun k u => sameResults_placeUnit k c u) _ _)
  rw [sweepEntries, coreOf_modCore_same]

theorem SameResults.awaitsHeld {c : Nat} {k k' : Kern} (h : SameResults c k k') {t u : Thread} (hheld : u.held = t.held)
    (hplace : u.block = t.block ∧ u.group = t.group) : Machine.awaitsHeld k' c u = Machine.awaitsHeld k c t := by
  have hresults : ∀ i, scalarResults k' c u i = scalarResults k c t i := fun i => by
    rw [h, scalarResults, scalarResults, hplace.1, hplace.2]
  simp only [Machine.awaitsHeld, hheld, hresults]

/-! ## The thread of an abandoned MX -/

section Abandoned

variable {k : Kern} {c : Nat} {m : MxJob} {t : Thread} (hheld : heldAt (coreOf k c) m.id = [t])

include hheld

theorem within_abandoned : Within c (fun _ _ => true) (unmade k c m) (abandonMx k c m) := by
  rw [abandonMx_alone hheld]
  exact (within_clearWaits _ c [t] fun _ _ => rfl).trans (within_moveThreads _ _ fun _ _ => rfl)

theorem sameCode_abandoned : SameCode c k (abandonMx k c m) :=
  (sameCode_unmade k c m).trans (sameCode_within (within_abandoned hheld))

theorem mxq_abandoned : (coreOf (abandonMx k c m) c).mxq = (coreOf k c).mxq.filter fun j => j.id != m.id :=
  (mxq_within (within_abandoned hheld)).trans (mxq_unmade k c m)

theorem sameResults_abandoned : SameResults c k (abandonMx k c m) := by
  rw [abandonMx_alone hheld]
  refine (sameResults_of_threads (threads_unmade k c m)).trans (SameResults.trans ?_ (sameResults_moveThreads _ c _))
  exact sameResults_modThread _ c _ _ fun _ => ⟨rfl, rfl, rfl⟩

/-- The thread stands at its MX, and waits no more. -/
theorem getThread_abandoned (ht : getThread k c t.tslot t.lane = some t) :
    ∃ loc, getThread (abandonMx k c m) c t.tslot t.lane = some { t with wait := .none, loc := loc } := by
  have ht' : getThread (unmade k c m) c t.tslot t.lane = some t := by
    rw [← ht, getThread, getThread, threads_unmade]
  obtain ⟨loc, -, hmoved⟩ := getThread_moveThreads (clearWaits (unmade k c m) c [t]) c t.tslot t.lane t.pc.toNat
    [moverOf (clearWaits (unmade k c m) c [t]) c t t.pc.toNat] fun m hm _ => by rw [List.mem_singleton.mp hm]; rfl
  refine ⟨loc, ?_⟩
  rw [abandonMx_alone hheld, hmoved, getThread_clearWaits, ht']
  simp [Mover.is, moverOf]

/-- The thread can take its trap there as it could before. -/
theorem handles_abandoned {l : Launch} {h : Nat} (hh : Handles k c t l h) :
    ∃ loc, Handles (abandonMx k c m) c { t with wait := .none, loc := loc } l h := by
  obtain ⟨ht, hl, hhandler, hstate, hawaits⟩ := hh
  obtain ⟨loc, hloc⟩ := getThread_abandoned hheld ht
  refine ⟨loc, hloc, ((sameCode_abandoned hheld).launch t).trans hl, hhandler, hstate, ?_⟩
  exact ((sameResults_abandoned hheld).awaitsHeld rfl ⟨rfl, rfl⟩).trans hawaits

end Abandoned

/-- The one thread held at an MX whose feed fails traps there. -/
theorem failFeed_traps {k : Kern} {c : Nat} {m : MxJob} {t : Thread} {l : Launch} {h cause sub : Nat} (fault : Nat)
    (hheld : heldAt (coreOf k c) m.id = [t]) (hh : Handles k c t l h) (hcause : cause < 256) (hsub : sub < 16) :
    ∃ loc, TrapsAt (abandonMx (doneWaiting k .feed c m.id) c m) (failFeed k c m cause sub fault) c { t with wait := .none, loc := loc } l
      h cause sub false t.pc.toNat fault := by
  have hh' : Handles (doneWaiting k .feed c m.id) c t l h := hh
  obtain ⟨loc, hat⟩ := handles_abandoned (m := m) (k := doneWaiting k .feed c m.id) hheld hh'
  refine ⟨loc, ?_⟩
  have hfail : failFeed k c m cause sub fault =
      takeTrap (abandonMx (doneWaiting k .feed c m.id) c m) c { t with wait := .none, loc := loc } cause sub t.pc
        (BitVec.ofNat 64 fault) false := by
    rw [← takeAll_single hat (u := t) ⟨rfl, rfl⟩, failFeed, hheld]
    rfl
  rw [hfail]
  exact takeTrap_trapsAt hat t.pc fault hcause hsub

/-! ## Bed loads -/

theorem modBeds_groups (b : Block) (lo n : Nat) (f : Nat → Bed → Bed) :
    ((List.range n).foldl (fun blk i => { blk with beds := lmod blk.beds (lo + i) (f i) }) b).groups = b.groups := by
  induction n with
  | zero => rfl
  | succ n ih => rw [List.range_succ, List.foldl_append, List.foldl_cons, List.foldl_nil, ih]

theorem groupOf_modBlock_groups (k : Kern) (c b : Nat) {f : Block → Block} (hf : ∀ x, (f x).groups = x.groups) (t : Thread) :
    groupOf (modBlock k c b f) c t = groupOf k c t := by
  simp only [groupOf, blockOf_modBlock]
  by_cases hb : t.block = b
  · rw [if_pos hb]
    cases blockOf k c t.block with
    | none => rfl
    | some blk => simp only [Option.map_some, hf]
  · rw [if_neg hb]

/-- What arrives does so as well from a state whose threads and groups are the same. -/
theorem arrives_of_same {k k₁ k' : Kern} {c a b : Nat} {held : Option Nat} {vals : List W32}
    (ht : getThread k₁ c a b = getThread k c a b) (hg : ∀ t, groupOf k₁ c t = groupOf k c t) (h : Arrives k₁ k' c a b held vals) :
    Arrives k k' c a b held vals := by
  intro t id g hthread hid hmem hgid honly
  have harr := h t id g (ht.trans hthread) hid hmem hgid honly
  rw [hg t] at harr
  exact harr

theorem arrives_retireBed (k : Kern) (c : Nat) (j : BedJob) (status : Nat) :
    Arrives k (retireBed k c j status) c j.tslot j.lane j.held [BitVec.ofNat 32 status] := by
  intro t id g ht hid
  obtain ⟨hslot, hlane⟩ := getThread_key ht
  let k₁ := modCore (doneWaiting k .bed c j.id) c fun core => { core with bedJobs := core.bedJobs.filter fun x => x.id != j.id }
  have hstays : Stays c k k₁ := (stays_of_cores (k := k) (k' := doneWaiting k .bed c j.id) rfl).trans
    (stays_modCore (fun _ => rfl) fun _ => rfl)
  have ht₁ : getThread k₁ c j.tslot j.lane = some t := (hstays.getThread ..).trans ht
  have hretire : retireBed k c j status = arriveHeld k₁ c t id [BitVec.ofNat 32 status] 0 := by
    rw [retireBed, hid, show getThread (modCore (doneWaiting k .bed c j.id) c fun core =>
      { core with bedJobs := core.bedJobs.filter fun x => x.id != j.id }) c j.tslot j.lane = some t from ht₁]
  have harr := arrives_arriveHeld id [BitVec.ofNat 32 status] hstays (t := t) (by rw [hslot, hlane, ht])
  rw [hslot, hlane] at harr
  rw [hretire]
  exact harr t id g ht rfl

/-- A bed load whose stream has been read has loaded its macros, and its status word has arrived. -/
theorem landBed_lands (k : Kern) (c : Nat) (blk : Block) (l : Launch) (j : BedJob) (bs : List Byte) :
    Arrives k (landBed { k with spent := 0 } c blk l j (.ok bs)) c j.tslot j.lane j.held [0] ∧
      (∀ y ∈ (coreOf (landBed { k with spent := 0 } c blk l j (.ok bs)) c).bedJobs, y.id ≠ j.id) ∧
      ∀ a, seeByte (landBed { k with spent := 0 } c blk l j (.ok bs)) a = seeByte k a := by
  let slot := recFs l j.fsi
  let k₁ := loadBeds { k with spent := 0 } c j.block j.bdb (j.bdn + 1) slot (shapeOf l slot (j.bdn + 1)) bs
  have hland : landBed { k with spent := 0 } c blk l j (.ok bs) = retireBed k₁ c j 0 := rfl
  rw [hland]
  refine ⟨arrives_of_same ?thread (fun t => ?group) (arrives_retireBed k₁ c j 0), bedJobs_retireBed k₁ c j 0,
    fun a => seeByte_of_mem ((retireBed_mem ..).trans (loadBeds_mem ..)) a⟩
  case thread =>
    simp only [k₁, loadBeds, modBeds, getThread_modBlock]
    rfl
  case group =>
    simp only [k₁, loadBeds, modBeds]
    refine (groupOf_modBlock_groups _ c _ (fun b => modBeds_groups b ..) t).trans rfl

section BedLoad

variable {s : State} {c : Nat} {j : BedJob} {blk : Block} {l : Launch} {k : Kern} {bs : List Byte}
  (hfind : (coreOf s.kern c).bedJobs.find? (fun y => y.id == j.id) = some j) (hready : bedReadyToRun (coreOf s.kern c) j = true)
  (hblk : blockOf s.kern c j.block = some blk) (hl : launchOf s.kern blk = some l) (hgrain : j.grain = false)
  (hstream : plainStream { s.kern with spent := 0 } c (recClass l) blk j
    (streamBytes (recFs l j.fsi) (shapeOf l (recFs l j.fsi) (j.bdn + 1))) (elementBytes (fsFmt (recFs l j.fsi))) = (k, .ok bs))

/-- A bed load takes note of the tokens that it has taken. -/
def notePaid (c : Nat) (j : BedJob) (k : Kern) (n : Nat) : Kern :=
  modCore k c fun core => { core with bedJobs := core.bedJobs.map fun x => if x.id == j.id then { x with paid := n } else x }

include hfind hready hblk hl hgrain hstream

/-- A bed load whose stream is read in full loads its macros, or takes note of its tokens. -/
theorem bedldComplete_reads : exec (.bedldComplete c j.id) s = .next { s with
    kern := paidUnit s.kern k c j.ctx j.paid (fun k => landBed { k with spent := 0 } c blk l j (.ok bs)) (notePaid c j) } := by
  have harm : exec (.bedldComplete c j.id) s = execBedldComplete c j.id s := rfl
  have hbed : bedStream { s.kern with spent := 0 } c blk l j = (k, .ok bs) := by
    simp only [bedStream, hgrain, hstream, Bool.false_eq_true, if_false]
  have hrun : runBed s.kern c j =
      paidUnit s.kern k c j.ctx j.paid (fun k => landBed { k with spent := 0 } c blk l j (.ok bs)) (notePaid c j) := by
    simp only [runBed, hblk, hl, Option.bind_some, Option.map_some, hbed]
    rfl
  simp only [harm, execBedldComplete, hfind, hready, hrun, if_true]
  rfl

/-- One that has its tokens loads. -/
theorem bedldComplete_paid (hpaid : k.spent ≤ j.paid) :
    exec (.bedldComplete c j.id) s = .next { s with kern := landBed { k with spent := 0 } c blk l j (.ok bs) } := by
  rw [bedldComplete_reads hfind hready hblk hl hgrain hstream]
  simp only [paidUnit, hpaid, if_true]

section Bucket

variable {b : Bucket} (hb : mget (coreOf s.kern c).buckets j.ctx = some b) (hlacks : j.paid < k.spent)

include hb hlacks

/-- One whose bucket holds what it lacks takes it and loads. -/
theorem bedldComplete_pays (henough : k.spent - j.paid ≤ if b.owed = 0 then b.tokens else 0) :
    let k' := modCore k c fun core => { core with
      buckets := mset (coreOf s.kern c).buckets j.ctx { b with tokens := b.tokens - (k.spent - j.paid), active := true } }
    exec (.bedldComplete c j.id) s = .next { s with kern := landBed { k' with spent := 0 } c blk l j (.ok bs) } := by
  intro k'
  have howed : b.owed = 0 := by
    by_contra h
    rw [if_neg h] at henough
    omega
  rw [if_pos howed] at henough
  have hpay : payUnit s.kern c j.ctx k.spent j.paid = (modCore s.kern c fun core => { core with
      buckets := mset core.buckets j.ctx { b with tokens := b.tokens - (k.spent - j.paid), active := true } }, k.spent) := by
    simp only [payUnit, hb, howed, beq_self_eq_true, if_true, Nat.min_eq_left henough]
    rw [Nat.add_sub_cancel' (Nat.le_of_lt hlacks)]
  rw [bedldComplete_reads hfind hready hblk hl hgrain hstream]
  simp only [paidUnit, Nat.not_le.mpr hlacks, hpay, coreOf_modCore_same, Nat.le_refl, if_true, if_false]
  rfl

/-- One whose bucket holds less takes what there is. -/
theorem bedldComplete_lacks (hshort : (if b.owed = 0 then b.tokens else 0) < k.spent - j.paid) :
    exec (.bedldComplete c j.id) s = .next { s with
      kern := notePaid c j (payUnit s.kern c j.ctx k.spent j.paid).1 (j.paid + if b.owed = 0 then b.tokens else 0) } := by
  have hpaid : (payUnit s.kern c j.ctx k.spent j.paid).2 = j.paid + if b.owed = 0 then b.tokens else 0 := by
    simp only [payUnit, hb, beq_iff_eq]
    split at hshort
    · next h => rw [if_pos h, if_pos h, Nat.min_eq_right (Nat.le_of_lt hshort)]
    · next h => rw [if_neg h, if_neg h]
  rw [bedldComplete_reads hfind hready hblk hl hgrain hstream]
  simp only [paidUnit, Nat.not_le.mpr hlacks, hpaid, show ¬ k.spent ≤ j.paid + (if b.owed = 0 then b.tokens else 0) by omega, if_false]

end Bucket

end BedLoad

theorem payUnit_core (k : Kern) (c ctx cost paid : Nat) :
    (coreOf (payUnit k c ctx cost paid).1 c).bedJobs = (coreOf k c).bedJobs ∧ (payUnit k c ctx cost paid).1.mem = k.mem := by
  unfold payUnit
  dsimp only
  split
  · exact ⟨rfl, rfl⟩
  · exact ⟨by rw [coreOf_modCore_same], rfl⟩

theorem isUnit_waitFor (k : Kern) (u : UnitKind) (core job ctx faddr sub : Nat) :
    ∃ w ∈ (waitFor k u core job ctx faddr sub).units, isUnit u core job w = true ∧ w.faddr = BitVec.ofNat 64 faddr ∧ w.sub = sub :=
  ⟨_, List.mem_append_right _ (List.mem_singleton.mpr rfl), by simp [isUnit], rfl, rfl⟩

/-- Settles O34: each event by the branch that its hypotheses select. -/
theorem matrixEvents : Obligations.MatrixEvents := by
  unfold Obligations.MatrixEvents
  refine ⟨fun s c t x set v blk l n k' ht hwait halone hblk hl htrap hpass hmx => ?held,
    fun s c t x set v blk l k' ht hwait halone hblk hl htrap hpass hmx => ?passes,
    fun s c m ms k₀ acc hq hready hfeed hpay => mxCommit_unpaid hq hready hfeed hpay,
    fun s c m ms k₀ k acc blk hq hready hfeed hpay hk hblk hacc => ?commits,
    fun s c m ms k faddr sub hq hready hfeed => ?waits,
    fun s c m ms k cause sub fault t l h hq hready hfeed hcause hsub hheld hh => ?fails,
    fun s c j blk l k bs hfind hready hblk hl hgrain hstream => ?bed⟩
  case held => exact ⟨_, mxLaunch_held ht hwait halone hblk hl htrap hpass hmx, rfl, rfl⟩
  case passes => exact ⟨_, mxLaunch_passes ht hwait halone hblk hl htrap hpass hmx, rfl, resumes_endWaits k' c [t]⟩
  case commits =>
    subst hk
    obtain ⟨blk', hblk', haccs⟩ := accs_commitMx acc hblk
    obtain ⟨hsame, hothers⟩ := accOf_of_lmod haccs hacc
    refine ⟨_, blk', mxCommit_paid hq hready hfeed hpay, rfl, hblk', hsame, hothers, ?_,
      fun t hheld ht honly => held_commitMx acc hheld ht honly, fun a => seeByte_of_mem (commitMx_mem ..) a⟩
    exact (mxq_within (resumes_endWaits _ c _).within).trans (mxq_written ..)
  case waits =>
    obtain ⟨w, hw, hunit, hfaddr, hwsub⟩ := isUnit_waitFor s.kern .feed c m.id m.ctx faddr sub
    exact ⟨_, w, mxCommit_waits hq hready hfeed, rfl, rfl, hw, hunit, hfaddr, hwsub⟩
  case fails =>
    obtain ⟨loc, hrecord, hstands, ⟨u, hu, hstate, hnowait⟩, hwithin⟩ := failFeed_traps fault hheld hh hcause hsub
    have habandon : heldAt (coreOf (doneWaiting k .feed c m.id) c) m.id = [t] := hheld
    have hpairt := ((sameCode_doneWaiting k .feed c c m.id).trans (sameCode_abandoned habandon)).pairtOf l t.pc.toNat
    rw [hpairt] at hrecord
    obtain ⟨hline, hcode, hlow, hhigh⟩ := hrecord
    refine ⟨_, u, feedReadFault_fails hq hready hfeed, rfl, (mxq_within hwithin).trans (mxq_abandoned habandon),
      ⟨hline, hcode, hlow, hhigh⟩, hstands, hu, hstate, hnowait, fun a => ?_⟩
    exact (hwithin.byte a).trans (seeByte_of_mem (abandonMx_mem ..) a)
  case bed =>
    have hlands := fun k => landBed_lands k c blk l j bs
    refine ⟨fun hpaid => ?_, fun b hb hlacks => ⟨fun henough => ?_, fun hshort => ?_⟩⟩
    · exact ⟨_, bedldComplete_paid hfind hready hblk hl hgrain hstream hpaid, rfl, rfl, hlands k⟩
    · exact ⟨_, bedldComplete_pays hfind hready hblk hl hgrain hstream hb hlacks henough, rfl, rfl, hlands _⟩
    · obtain ⟨hjobs, hmem⟩ := payUnit_core s.kern c j.ctx k.spent j.paid
      refine ⟨_, bedldComplete_lacks hfind hready hblk hl hgrain hstream hb hlacks hshort, rfl, ?_,
        fun a => seeByte_of_mem hmem a⟩
      rw [← hjobs]
      simp only [notePaid, coreOf_modCore_same]

end Sys2Proof.Proofs
end

section
/-! The registers of a group: columns that return their slices (R277), GROW and SHRINK (R248 to R250, R276). -/

namespace Sys2Proof.Proofs

open Sys2Proof.Machine Sys2Proof.Safety

/-! ## Columns that return -/

theorem groupOf_modCore_of_blocks (k : Kern) (c : Nat) {f : Core → Core} (hf : ∀ core, (f core).blocks = core.blocks) (t : Thread) :
    groupOf (modCore k c f) c t = groupOf k c t := by
  simp only [groupOf, blockOf, coreOf_modCore_same, hf]

theorem returnColumns_threads (k : Kern) (c b g : Nat) (test : Nat → Bool) :
    (coreOf (returnColumns k c b g test) c).threads = (coreOf k c).threads := by
  unfold returnColumns
  split
  · rfl
  · simp only [modGroup, modBlock, coreOf_modCore_same]

theorem getThread_returnColumns (k : Kern) (c b g : Nat) (test : Nat → Bool) (x y : Nat) :
    getThread (returnColumns k c b g test) c x y = getThread k c x y := by
  simp only [getThread, returnColumns_threads]

/-- Columns that return leave a group its number of registers. -/
theorem regs_returnColumns (k : Kern) (c b g : Nat) (test : Nat → Bool) (t : Thread) :
    (groupOf (returnColumns k c b g test) c t).map (·.regs) = (groupOf k c t).map (·.regs) := by
  unfold returnColumns
  split
  · rfl
  · rw [groupOf_modGroup, groupOf_modCore_of_blocks]
    · split
      · rw [Option.map_map]; rfl
      · rfl
    · exact fun _ => rfl

theorem regsOf_returnColumns (k : Kern) (c b g : Nat) (test : Nat → Bool) (t : Thread) :
    regsOf (returnColumns k c b g test) c t = regsOf k c t :=
  congrArg (·.getD 0) (regs_returnColumns k c b g test t)

/-! ## Registers that are added and taken away -/

/-- A register file with n registers zeroed from lo. -/
theorem zeroRegs_v (lo n : Nat) (r : RegFile) (i : Nat) :
    (zeroRegs lo n r).v.getD i 0 = if lo ≤ i ∧ i < lo + n then 0 else r.v.getD i 0 := by
  induction n with
  | zero => rw [if_neg (by omega)]; rfl
  | succ n ih =>
    have hstep : zeroRegs lo (n + 1) r = (zeroRegs lo n r).setV (lo + n) 0 := by
      simp only [zeroRegs, List.range_succ, List.foldl_append, List.foldl_cons, List.foldl_nil]
    rw [hstep, RegFile.setV, getD_rset, ih]
    by_cases hi : i = lo + n
    · rw [if_pos hi, if_pos (by omega)]
    · rw [if_neg hi]
      exact if_congr (by omega) rfl rfl

/-- A thread after a GROW of the group of t: one of the group has n more registers from lo, which are zero (R248). -/
def grown (t : Thread) (lo n : Nat) (u : Thread) : Thread :=
  if u.block == t.block && u.group == t.group then { u with regs := zeroRegs lo n u.regs } else u

theorem keepsKey_grown (t : Thread) (lo n : Nat) : KeepsKey (grown t lo n) := fun u => by
  unfold grown
  split <;> exact ⟨rfl, rfl⟩

theorem grown_place (t : Thread) (lo n : Nat) (u : Thread) : (grown t lo n u).block = u.block ∧ (grown t lo n u).group = u.group := by
  unfold grown
  split <;> exact ⟨rfl, rfl⟩

/-- The kernel state with the slices and the threads of a GROW, before the group counts its new registers. -/
def withGrown (k : Kern) (c : Nat) (t : Thread) (n : Nat) : Kern :=
  modCore (returnColumns k c t.block t.group fun _ => true) c fun core =>
    { core with slices := core.slices - growNeed core t.block t.group n, threads := core.threads.map (grown t (regsOf k c t) n) }

theorem grantGrow_eq (k : Kern) (c : Nat) (t : Thread) (n : Nat) :
    grantGrow k c t.block t.group n = modGroup (withGrown k c t n) c t.block t.group fun x => { x with regs := x.regs + n } := by
  have hregs (k : Kern) : ((blockOf k c t.block).bind fun blk => (blk.groups[t.group]?).map (·.regs)).getD 0 = regsOf k c t := by
    simp only [regsOf, groupOf]
    cases blockOf k c t.block <;> rfl
  unfold grantGrow
  simp only [hregs, regsOf_returnColumns]
  rfl

theorem getThread_grantGrow (k : Kern) (c : Nat) (t : Thread) (n x y : Nat) :
    getThread (grantGrow k c t.block t.group n) c x y = (getThread k c x y).map (grown t (regsOf k c t) n) := by
  rw [grantGrow_eq, getThread_modGroup]
  simp only [withGrown, getThread, coreOf_modCore_same, returnColumns_threads]
  exact findThread_map _ (keepsKey_grown t _ n) ..

/-- The registers of the group of t after a change of their number. -/
theorem regs_modRegs (k : Kern) (c : Nat) (t : Thread) (f : Nat → Nat) :
    (groupOf (modGroup k c t.block t.group fun x => { x with regs := f x.regs }) c t).map (·.regs) =
      ((groupOf k c t).map (·.regs)).map f := by
  rw [groupOf_modGroup, if_pos ⟨rfl, rfl⟩, Option.map_map, Option.map_map]
  rfl

theorem regsOf_grantGrow (k : Kern) (c : Nat) (t : Thread) (n : Nat) :
    regsOf (grantGrow k c t.block t.group n) c t = if (groupOf k c t).isSome then regsOf k c t + n else regsOf k c t := by
  unfold regsOf
  rw [grantGrow_eq, regs_modRegs _ _ _ (· + n), withGrown, groupOf_modCore_of_blocks, regs_returnColumns]
  · cases groupOf k c t <;> rfl
  · exact fun _ => rfl

theorem getThread_shrinkGroup (k : Kern) (c b g n x y : Nat) : getThread (shrinkGroup k c b g n) c x y = getThread k c x y := by
  rw [shrinkGroup, getThread_modGroup, getThread_modCore_of_threads, getThread_returnColumns]
  exact fun _ => rfl

theorem regsOf_shrinkGroup (k : Kern) (c : Nat) (t : Thread) (n : Nat) :
    regsOf (shrinkGroup k c t.block t.group n) c t = regsOf k c t - n := by
  unfold regsOf
  rw [shrinkGroup, regs_modRegs _ _ _ (· - n), groupOf_modCore_of_blocks, regs_returnColumns]
  · cases groupOf k c t
    · exact (Nat.zero_sub n).symm
    · rfl
  · exact fun _ => rfl

/-! ## An issue of one thread with an operation of its own -/

section Alone

variable {s : State} {i : Instr} {t : Thread} {run : Kern → List (Thread × List Reg) → Kern × List Course} {k : Kern}

theorem issue_goesOn (ha : ExecutesAlone s i t = true) (hr : run (beforeBody s i t) [(t, destination s i t)] = (k, [.next]))
    (ht : InGroup k s.cur.core t) : GoesOnFrom s k t (issue s i run) (curNext s) := by
  rw [issue_alone_eq ha run hr]
  exact finishIssue_goesOn s k t .next _ rfl ht

theorem issue_waits (ha : ExecutesAlone s i t = true) (hr : run (beforeBody s i t) [(t, destination s i t)] = (k, [.stay]))
    (ht : InGroup k s.cur.core t) : WaitsIn s k t (issue s i run) := by
  rw [issue_alone_eq ha run hr]
  exact finishIssue_waits s k t ht

theorem issue_traps {l : Launch} {h cause : Nat} (ha : ExecutesAlone s i t = true) (hd : TakesTraps s t l h) (hcause : cause < 0x10)
    (hr : run (beforeBody s i t) [(t, destination s i t)] = (beforeBody s i t, [.trap cause 0 0])) :
    TrapsTo s (issue s i run) t h (pairtOf s.kern s.cur.core l (curPc s)) cause 0 (curPc s) 0 := by
  rw [issue_alone_eq ha run hr]
  exact finishIssue_traps (caches_before s.kern s.cur.core i [t]) (actors_getThread (executes_mem (alone_executes ha))) hd _ cause 0
    (curPc s) 0 (curPc_lt (executes_single (alone_executes ha))) (by decide) (by omega) (by decide) (by omega) (.inr ⟨rfl, rfl⟩)

/-- An issue of one thread that is that of a body. -/
theorem issue_eq_issueEach (ha : ExecutesAlone s i t = true) {f : Kern → Thread → List Reg → Kern × Course}
    (hr : run (beforeBody s i t) [(t, destination s i t)] =
      ((f (beforeBody s i t) t (destination s i t)).1, [(f (beforeBody s i t) t (destination s i t)).2])) :
    issue s i run = issueEach s i f := by
  rw [issue_alone_eq ha run hr, issueEach_alone_eq ha]

end Alone

/-! ## GROW in a lone thread -/

section Turns

variable {s : State} {x : SForm} {k k' : Kern} {t : Thread} {n : Nat}

theorem growGroup_split (h : splitScalar (coreOf k s.cur.core) s.cur.entry t = true) : growGroup s n false k t = (k, .trap) := by
  simp only [growGroup, h, if_true]

theorem growGroup_full (h : splitScalar (coreOf k s.cur.core) s.cur.entry t = false) (hn : 248 < regsOf k s.cur.core t + n) :
    growGroup s n false k t = (k, .answer false) := by
  simp only [growGroup, h, Bool.false_eq_true, if_false, if_pos hn]

theorem growWaits_returnColumns (k : Kern) (c b g : Nat) (test : Nat → Bool) :
    growWaits (coreOf (returnColumns k c b g test) c) = growWaits (coreOf k c) := by
  simp only [growWaits, returnColumns_threads]

theorem growNeed_returnColumns (k : Kern) (c b g n : Nat) (test : Nat → Bool) :
    growNeed (coreOf (returnColumns k c b g test) c) b g n = growNeed (coreOf k c) b g n := by
  simp only [growNeed, liveColumns, groupThreads, returnColumns_threads]

/-- Within the 248 registers a GROW has its columns return first, and then waits or is granted. -/
theorem growGroup_room (h : splitScalar (coreOf k s.cur.core) s.cur.entry t = false) (hn : regsOf k s.cur.core t + n ≤ 248)
    (hk : returnColumns k s.cur.core t.block t.group (fun _ => true) = k') :
    growGroup s n false k t =
      if growWaits (coreOf k s.cur.core) = true ∨ (coreOf k' s.cur.core).slices < growNeed (coreOf k s.cur.core) t.block t.group n then
        ({ k' with id := k'.id + 1 }, .waits k'.id)
      else (grantGrow k' s.cur.core t.block t.group n, .answer true) := by
  have hwaits := growWaits_returnColumns k s.cur.core t.block t.group fun _ => true
  have hneed := growNeed_returnColumns k s.cur.core t.block t.group n fun _ => true
  rw [hk] at hwaits hneed
  simp only [growGroup, h, Bool.false_eq_true, if_false, if_neg (Nat.not_lt.mpr hn), hk, hwaits, hneed, Bool.false_or, Bool.or_eq_true,
    decide_eq_true_eq]

/-- GROW of one thread takes the turn of its group. -/
theorem growRun_alone {turn : GrowTurn} (h : growGroup s x.imm.toNat false k t = (k', turn)) (d : List Reg) :
    growRun s x k [(t, d)] =
      ((growThread s.cur.core x [(t, turn)] k' t).1, [(growThread s.cur.core x [(t, turn)] k' t).2]) := by
  simp only [growRun, List.map_cons, List.map_nil, leaders, List.filter_nil, growTurns, h, foldBody, foldOwed]

theorem growThread_trap : growThread s.cur.core x [(t, .trap)] k t = (k, .trap 0x0A 0 0) := by
  simp only [growThread, List.find?_cons, beq_self_eq_true, Bool.and_self, Option.map_some]

theorem growThread_answer (p : Bool) :
    growThread s.cur.core x [(t, .answer p)] k t = (writePred k s.cur.core t (predNumber x.d) p, .next) := by
  simp only [growThread, List.find?_cons, beq_self_eq_true, Bool.and_self, Option.map_some]

theorem growThread_waits (seq : Nat) :
    growThread s.cur.core x [(t, .waits seq)] k t = beginWait k s.cur.core t (.grow x.imm.toNat x.d seq) := by
  simp only [growThread, List.find?_cons, beq_self_eq_true, Bool.and_self, Option.map_some]

end Turns

/-- A predicate that is written is all that a body writes. -/
theorem body_writePred (k : Kern) (c : Nat) (u : Thread) (d : List Reg) (i : Nat) (p : Bool) :
    Body c u d { Effect.values [] with preds := [(i, p)] } id k (writePred k c u i p) := by
  refine ⟨?_, fun v => ?_, fun keys hk => within_modThis k u _ (keepsKey_regs _) hk,
    fun b g n h => quiet_modThread _ _ _ (keepsQuiet_of_keepsHeld fun _ => ⟨rfl, rfl, rfl⟩) h⟩
  · rw [writePred, getThread_modThis_same _ _ _ _ (keepsKey_regs _)]
    refine congrArg (fun f => (getThread k c u.tslot u.lane).map f) (funext fun w => ?_)
    simp [landEffect, Effect.values, landOwn, landPreds, RegFile.setP]
  · rw [writePred, groupOf_modThis]
    cases groupOf k c v with
    | none => rfl
    | some g => simp [Effect.values, landScalars]

theorem inGroup_writePred {k : Kern} {c : Nat} {t : Thread} (h : InGroup k c t) (i : Nat) (p : Bool) :
    InGroup (writePred k c t i p) c t := inGroup_samePlaces h (samePlaces_writePred k t i p)

theorem regsOf_within {c : Nat} {keys : Nat → Nat → Bool} {k k' : Kern} (h : Within c keys k k') (t : Thread) :
    regsOf k' c t = regsOf k c t := by
  have hbare (k : Kern) : (groupOf k c t).map (·.regs) =
      ((blockOf k c t.block).map bare).bind fun b => (b.groups[t.group]?).map (·.regs) := by
    unfold groupOf
    cases blockOf k c t.block with
    | none => rfl
    | some b =>
      simp only [Option.map_some, Option.bind_some, bare, List.getElem?_map, Option.map_map]
      rfl
  rw [regsOf, regsOf, hbare, hbare, h.blocks]

theorem regsOf_writePred (k : Kern) (c : Nat) (t u : Thread) (i : Nat) (p : Bool) : regsOf (writePred k c t i p) c u = regsOf k c u := by
  simp only [regsOf, writePred, groupOf_modThis]

theorem regsOf_beforeBody (s : State) (i : Instr) (t u : Thread) :
    regsOf (beforeBody s i t) s.cur.core u = regsOf s.kern s.cur.core u := by
  simp only [regsOf, groupOf_butCaches (caches_before s.kern s.cur.core i [t]), beforeBody]

end Sys2Proof.Proofs
end

section
/-! EVWAIT, GROW, SHRINK, ILINV and SAMPLE (R247 to R252): each clause is the case of the body that its hypotheses select. -/

namespace Sys2Proof.Proofs

open Sys2Proof.Machine Sys2Proof.Safety

/-! ## EVWAIT (R247) -/

/-- Two numbers share a bit. -/
theorem land_ne_zero_iff (a b : Nat) : Nat.land a b ≠ 0 ↔ ∃ i, a.testBit i = true ∧ b.testBit i = true := by
  change a &&& b ≠ 0 ↔ _
  rw [← not_iff_not, not_not, not_exists]
  constructor
  · intro h i hi
    have := congrArg (·.testBit i) h
    simp only [Nat.testBit_and, hi, Nat.zero_testBit, Bool.and_self, Bool.true_eq_false] at this
  · intro h
    refine Nat.eq_of_testBit_eq fun i => ?_
    rw [Nat.testBit_and, Nat.zero_testBit, ← Bool.not_eq_true, Bool.and_eq_true]
    exact h i

/-- The limit of an EVWAIT, none where it waits without one. -/
def waitLimit (s : State) (x : SForm) (t : Thread) : Option Nat := if x.a = Opnd.none then none else some (srcCount s t x.a)

theorem waitLimit_beq (s : State) (x : SForm) (t : Thread) :
    (if x.a == Opnd.none then none else some (srcCount s t x.a)) = waitLimit s x t :=
  if_congr beq_iff_eq rfl rfl

/-- EVWAIT by whether an event of its mask stands or its limit is zero. -/
theorem evwaitBody_eq (s : State) (x : SForm) (k : Kern) (t : Thread) (d : List Reg) :
    evwaitBody s x k t d =
      if Nat.land (ratioEvents s s.cur.core t) x.imm.toNat ≠ 0 ∨ waitLimit s x t = some 0 then
        (writeRegs k s.cur.core t d [BitVec.ofNat 32 (ratioEvents s s.cur.core t)], .next)
      else beginWait k s.cur.core t (.evwait (x.imm.setWidth 32) (waitLimit s x t) (coreOf k s.cur.core).cycle d) := by
  simp only [evwaitBody, waitLimit_beq]
  exact if_congr (by simp only [Bool.or_eq_true, bne_iff_ne, beq_iff_eq]) rfl rfl

theorem eventWaits : Claims.EventWaits := by
  intro x s t ha
  refine ⟨fun hgo => ⟨_, rfl, issueEach_writes ha ((evwaitBody_eq ..).trans (if_pos ?_))⟩,
    fun hno hlimit => ⟨_, rfl, issueEach_waits ha _ ((evwaitBody_eq ..).trans (if_neg ?_))
      (inGroup_modThis (getThread_beforeBody ha) (keepsKey_wait _) ⟨rfl, rfl⟩)⟩⟩
  · exact hgo.imp_left fun ⟨i, _, h⟩ => (land_ne_zero_iff _ _).mpr ⟨i, h⟩
  · rintro (hbit | hzero)
    · obtain ⟨i, hev, hmask⟩ := (land_ne_zero_iff _ _).mp hbit
      rw [hno i hev] at hmask
      cases hmask
    · exact hlimit hzero

/-! ## GROW (R248, R249) -/

/-- A GROW is refused at once. -/
theorem grow_full {s : State} {x : SForm} {t : Thread} {q : Fin 8} {b : Bool} (ha : ExecutesAlone s (.grow x) t = true)
    (hd : x.d = .pred b q) (hsplit : splitScalar (coreOf (beforeBody s (.grow x) t) s.cur.core) s.cur.entry t = false)
    (hn : 248 < regsOf (beforeBody s (.grow x) t) s.cur.core t + x.imm.toNat) :
    Completes s (issue s (.grow x) (growRun s x)) (.grow x) t { Effect.values [] with preds := [(q.val, false)] } t (curNext s) := by
  have hrun := growRun_alone (growGroup_full hsplit hn) (destination s (.grow x) t)
  rw [growThread_answer, hd] at hrun
  rw [issue_eq_issueEach ha (f := fun k u _ => (writePred k s.cur.core u q.val false, .next)) hrun]
  exact issue_completes (alone_executes ha) _ (fun _ => { Effect.values [] with preds := [(q.val, false)] }) (fun _ => id) (fun _ => .next)
    (fun u _ _ k d => ⟨rfl, body_writePred k _ u d _ _⟩) (fun _ _ => ⟨rfl, rfl, rfl⟩) (fun _ _ _ => rfl) _ rfl
    (destination_nodup s _ t) (List.nodup_singleton _)

theorem grow_waits {s : State} {x : SForm} {t : Thread} {k₀ : Kern} (ha : ExecutesAlone s (.grow x) t = true)
    (hsplit : splitScalar (coreOf (beforeBody s (.grow x) t) s.cur.core) s.cur.entry t = false)
    (hn : regsOf (beforeBody s (.grow x) t) s.cur.core t + x.imm.toNat ≤ 248)
    (hk : returnColumns (beforeBody s (.grow x) t) s.cur.core t.block t.group (fun _ => true) = k₀)
    (hroom : growWaits (coreOf (beforeBody s (.grow x) t) s.cur.core) = true ∨ (coreOf k₀ s.cur.core).slices <
      growNeed (coreOf (beforeBody s (.grow x) t) s.cur.core) t.block t.group x.imm.toNat) :
    WaitsIn s (modThis { k₀ with id := k₀.id + 1 } s.cur.core t fun u => { u with wait := .grow x.imm.toNat x.d k₀.id }) t
      (issue s (.grow x) (growRun s x)) := by
  have hrun := growRun_alone (x := x) ((growGroup_room hsplit hn hk).trans (if_pos hroom)) (destination s (.grow x) t)
  rw [growThread_waits] at hrun
  have ht : getThread { k₀ with id := k₀.id + 1 } s.cur.core t.tslot t.lane = some t := by
    refine Eq.trans ?_ (getThread_beforeBody ha)
    rw [← hk]
    exact getThread_returnColumns ..
  exact issue_waits ha hrun (inGroup_modThis ht (keepsKey_wait _) ⟨rfl, rfl⟩)

/-- Another thread than t is named by another slot or lane. -/
theorem otherKey_of_ne {k : Kern} {c : Nat} {t u : Thread} (ht : getThread k c t.tslot t.lane = some t)
    (hu : getThread k c u.tslot u.lane = some u) (hne : u ≠ t) : ¬(u.tslot = t.tslot ∧ u.lane = t.lane) := by
  rintro ⟨hslot, hlane⟩
  rw [hslot, hlane, ht] at hu
  exact hne (Option.some.inj hu).symm

/-- What a thread of the group reads in its vector registers after a GROW. -/
theorem seeReg_grown {k k' : Kern} {c lo n : Nat} {t u : Thread} (hu : getThread k c u.tslot u.lane = some u)
    (hk : getThread k' c u.tslot u.lane = some (grown t lo n u)) (hblock : u.block = t.block) (hgroup : u.group = t.group) (i : Nat) :
    seeReg k' c u (.v i) = if lo ≤ i ∧ i < lo + n then 0 else seeReg k c u (.v i) := by
  have hgrown : grown t lo n u = { u with regs := zeroRegs lo n u.regs } := by
    simp only [grown, hblock, hgroup, beq_self_eq_true, Bool.and_self, if_true]
  simp only [seeReg, hk, hu, hgrown, Option.map_some, Option.getD_some]
  exact zeroRegs_v lo n u.regs i

/-- The kernel state in which a GROW of t has been granted, and has answered. -/
def afterGrow (k : Kern) (c : Nat) (t : Thread) (n q : Nat) : Kern := writePred (grantGrow k c t.block t.group n) c t q true

theorem regsOf_afterGrow {k k₀ : Kern} {c : Nat} {t : Thread} (hk : returnColumns k c t.block t.group (fun _ => true) = k₀) (n q : Nat) :
    regsOf (afterGrow k₀ c t n q) c t = if (groupOf k c t).isSome then regsOf k c t + n else regsOf k c t := by
  have hsome : (groupOf k₀ c t).isSome = (groupOf k c t).isSome := by
    have := congrArg Option.isSome (regs_returnColumns k c t.block t.group (fun _ => true) t)
    rwa [Option.isSome_map, Option.isSome_map, hk] at this
  rw [afterGrow, regsOf_writePred, regsOf_grantGrow, hsome, ← hk, regsOf_returnColumns]

/-- The predicate is written in t alone. -/
theorem getThread_afterGrow_other {k : Kern} {c : Nat} {t u : Thread} (hu : ¬(u.tslot = t.tslot ∧ u.lane = t.lane)) (n q : Nat) :
    getThread (afterGrow k c t n q) c u.tslot u.lane = (getThread k c u.tslot u.lane).map (grown t (regsOf k c t) n) := by
  rw [afterGrow, writePred, modThis, getThread_modThread _ _ _ _ _ _ _ (keepsKey_regs _), if_neg hu, getThread_grantGrow]

theorem inGroup_afterGrow {k : Kern} {c : Nat} {t : Thread} (ht : getThread k c t.tslot t.lane = some t) (n q : Nat) :
    InGroup (afterGrow k c t n q) c t := by
  refine inGroup_writePred ⟨grown t (regsOf k c t) n t, ?_, grown_place ..⟩ q true
  rw [getThread_grantGrow, ht]
  rfl

section Granted

variable {s : State} {x : SForm} {t : Thread} {q : Fin 8} {b : Bool} {k₀ : Kern}

theorem grow_goesOn (ha : ExecutesAlone s (.grow x) t = true) (hd : x.d = .pred b q)
    (hsplit : splitScalar (coreOf (beforeBody s (.grow x) t) s.cur.core) s.cur.entry t = false)
    (hn : regsOf (beforeBody s (.grow x) t) s.cur.core t + x.imm.toNat ≤ 248)
    (hk : returnColumns (beforeBody s (.grow x) t) s.cur.core t.block t.group (fun _ => true) = k₀)
    (hwaits : growWaits (coreOf (beforeBody s (.grow x) t) s.cur.core) = false)
    (hroom : growNeed (coreOf (beforeBody s (.grow x) t) s.cur.core) t.block t.group x.imm.toNat ≤ (coreOf k₀ s.cur.core).slices) :
    GoesOnFrom s (afterGrow k₀ s.cur.core t x.imm.toNat q.val) t (issue s (.grow x) (growRun s x)) (curNext s) := by
  have hgrants : ¬(growWaits (coreOf (beforeBody s (.grow x) t) s.cur.core) = true ∨ (coreOf k₀ s.cur.core).slices <
      growNeed (coreOf (beforeBody s (.grow x) t) s.cur.core) t.block t.group x.imm.toNat) := by
    rw [hwaits]
    exact fun h => h.elim nofun (Nat.not_lt.mpr hroom)
  have hrun := growRun_alone (x := x) ((growGroup_room hsplit hn hk).trans (if_neg hgrants)) (destination s (.grow x) t)
  rw [growThread_answer, hd] at hrun
  refine issue_goesOn ha hrun (inGroup_afterGrow ?_ _ _)
  rw [← hk, getThread_returnColumns]
  exact getThread_beforeBody ha

/-- The other threads of the group read zeros in the new registers, and the others as before. -/
theorem seeReg_grow_other {s' : State} {pc n : Nat} {u : Thread} (ha : ExecutesAlone s (.grow x) t = true)
    (hk : returnColumns (beforeBody s (.grow x) t) s.cur.core t.block t.group (fun _ => true) = k₀)
    (hgoes : GoesOnFrom s (afterGrow k₀ s.cur.core t n q.val) t s' pc)
    (hmem : u ∈ groupThreads (coreOf (beforeBody s (.grow x) t) s.cur.core) t.block t.group)
    (hu : getThread (beforeBody s (.grow x) t) s.cur.core u.tslot u.lane = some u) (hne : u ≠ t) (i : Nat) :
    seeReg s'.kern s.cur.core u (.v i) =
      if regsOf (beforeBody s (.grow x) t) s.cur.core t ≤ i ∧ i < regsOf (beforeBody s (.grow x) t) s.cur.core t + n then 0
      else seeReg s.kern s.cur.core u (.v i) := by
  have hkey := otherKey_of_ne (getThread_beforeBody ha) hu hne
  have hplace := (List.mem_filter.mp hmem).2
  simp only [Bool.and_eq_true, beq_iff_eq] at hplace
  have hu₀ : getThread k₀ s.cur.core u.tslot u.lane = some u := by rw [← hk, getThread_returnColumns, hu]
  have hu' : getThread s'.kern s.cur.core u.tslot u.lane = some (grown t (regsOf k₀ s.cur.core t) n u) := by
    rw [hgoes.within.threads _ _ (by simpa using hkey), getThread_afterGrow_other hkey, hu₀]
    rfl
  rw [← hk, regsOf_returnColumns] at hu'
  have hpre : getThread s.kern s.cur.core u.tslot u.lane = some u :=
    (getThread_butCaches (caches_before s.kern s.cur.core (.grow x) [t]) ..).symm.trans hu
  exact seeReg_grown hpre hu' hplace.1 hplace.2 i

end Granted

/-! ## SHRINK (R250) -/

theorem shrinkTrap_illegal {s : State} {n : Nat} {t : Thread} (h : n % 8 ≠ 0 ∨ regsOf s.kern s.cur.core t < n + 8) :
    shrinkTrap s n t = some 0x01 := by
  simp only [shrinkTrap, Bool.or_eq_true, bne_iff_ne, decide_eq_true_eq, if_pos h]

/-- Within its limits a SHRINK traps where the group is split. -/
theorem shrinkTrap_within {s : State} {n : Nat} {t : Thread} (hn : n % 8 = 0) (hr : n + 8 ≤ regsOf s.kern s.cur.core t) :
    shrinkTrap s n t = if splitScalar (coreOf s.kern s.cur.core) s.cur.entry t = true then some 0x0A else none := by
  have h : ¬(n % 8 ≠ 0 ∨ regsOf s.kern s.cur.core t < n + 8) := by omega
  simp only [shrinkTrap, Bool.or_eq_true, bne_iff_ne, decide_eq_true_eq, if_neg h]

theorem shrinkRun_goesOn {s : State} {x : SForm} {t : Thread} (h : shrinkTrap s x.imm.toNat t = none) (k : Kern) (d : List Reg) :
    shrinkRun s x k [(t, d)] = (shrinkGroup k s.cur.core t.block t.group x.imm.toNat, [.next]) := by
  simp only [shrinkRun, List.map_cons, List.map_nil, leaders, List.filter_nil, List.foldl_cons, List.foldl_nil, h, Option.isNone_none,
    if_true]

theorem shrinkRun_traps {s : State} {x : SForm} {t : Thread} {cause : Nat} (h : shrinkTrap s x.imm.toNat t = some cause) (k : Kern)
    (d : List Reg) : shrinkRun s x k [(t, d)] = (k, [.trap cause 0 0]) := by
  simp only [shrinkRun, List.map_cons, List.map_nil, leaders, List.filter_nil, List.foldl_cons, List.foldl_nil, h, Option.isNone_some,
    Bool.false_eq_true, if_false]

theorem isSome_groupOf_of_regs {k : Kern} {c : Nat} {t : Thread} (h : 0 < regsOf k c t) : (groupOf k c t).isSome = true := by
  unfold regsOf at h
  cases hg : groupOf k c t with
  | none => simp [hg] at h
  | some g => rfl

theorem registerGrowth : Claims.RegisterGrowth := by
  refine ⟨fun x s t q b ha hd => ⟨fun hsplit hn => ?full, fun hsplit hn hroom => ?waits, fun hsplit hn hwaits hroom => ?grants,
      fun l h hsplit hh => ?split⟩,
    fun x s t ha => ⟨fun hn hr hsplit => ?shrinks, fun l h hbad hh => ?illegal, fun l h hn hr hsplit hh => ?shrinkSplit⟩⟩
  case full => exact ⟨_, rfl, grow_full ha hd hsplit hn⟩
  case waits => exact ⟨_, rfl, grow_waits ha hsplit hn rfl hroom⟩
  case grants =>
    have hgoes := grow_goesOn ha hd hsplit hn rfl hwaits hroom
    refine ⟨_, rfl, hgoes, ?_, fun u hmem hu hne i => seeReg_grow_other ha rfl hgoes hmem hu hne i⟩
    rw [regsOf_within hgoes.within, regsOf_afterGrow rfl]
  case split =>
    have hrun := growRun_alone (x := x) (growGroup_split hsplit) (destination s (.grow x) t)
    rw [growThread_trap] at hrun
    exact ⟨_, rfl, issue_traps ha hh (by decide) hrun⟩
  case shrinks =>
    have htrap := (shrinkTrap_within hn hr).trans (if_neg (by rw [hsplit]; exact Bool.false_ne_true))
    have ht := (getThread_shrinkGroup _ _ t.block t.group x.imm.toNat _ _).trans (getThread_beforeBody ha)
    have hgoes := issue_goesOn ha (shrinkRun_goesOn htrap ..) ⟨t, ht, rfl, rfl⟩
    refine ⟨_, rfl, hgoes, isSome_groupOf_of_regs (by rw [regsOf_beforeBody]; omega), ?_⟩
    rw [regsOf_within hgoes.within, regsOf_shrinkGroup, regsOf_beforeBody]
  case illegal => exact ⟨_, rfl, issue_traps ha hh (by decide) (shrinkRun_traps (shrinkTrap_illegal hbad) ..)⟩
  case shrinkSplit =>
    exact ⟨_, rfl, issue_traps ha hh (by decide) (shrinkRun_traps ((shrinkTrap_within hn hr).trans (if_pos hsplit)) ..)⟩

/-! ## ILINV (R251) -/

/-- The core after ILINV of line n of a code object, or of every line. -/
def dropped (l : Launch) (all : Bool) (n : Nat) (core : Core) : Core :=
  let code := fun (ctx obj : Nat) => ctx == l.ctx && obj == capObj (recCode l)
  { core with lines := core.lines.filter fun y => !(all || (code y.ctx y.obj && y.line == n)),
              lcache := core.lcache.filter fun y => !(code y.ctx y.obj && (all || 64 * y.line == n)) }

theorem dropped_threads (l : Launch) (all : Bool) (n : Nat) (core : Core) : (dropped l all n core).threads = core.threads := rfl

theorem dropCode_eq {k : Kern} {c : Nat} {t : Thread} {l : Launch} (hl : threadLaunch k c t = some l) (all : Bool) (n : Nat) :
    dropCode k c t (if all then none else some n) = modCore k c (dropped l all n) := by
  cases all <;>
    simp only [dropCode, hl, Bool.false_eq_true, if_false, if_true, Option.isNone_none, Option.isNone_some, Bool.true_or,
      Bool.false_or, Option.some_beq_some, BEq.comm (a := n)] <;> rfl

theorem mem_dropped_lines (l : Launch) (n : Nat) (core : Core) (y : Line) : y ∈ (dropped l false n core).lines ↔
    y ∈ core.lines ∧ ¬(y.ctx = l.ctx ∧ y.obj = capObj (recCode l) ∧ y.line = n) := by
  simp only [dropped, List.mem_filter, Bool.false_or, Bool.not_eq_true', ← Bool.not_eq_true, Bool.and_eq_true, beq_iff_eq, and_assoc]

theorem mem_dropped_lcache (l : Launch) (all : Bool) (n : Nat) (core : Core) (y : CLine) : y ∈ (dropped l all n core).lcache ↔
    y ∈ core.lcache ∧ ¬(y.ctx = l.ctx ∧ y.obj = capObj (recCode l) ∧ (all = true ∨ 64 * y.line = n)) := by
  simp only [dropped, List.mem_filter, Bool.not_eq_true', ← Bool.not_eq_true, Bool.and_eq_true, Bool.or_eq_true, beq_iff_eq, and_assoc]

/-- An issue leaves the buffered and the cached lines as its body has them. -/
theorem lines_of_goesOn {s s' : State} {k : Kern} {t : Thread} {pc : Nat} (h : GoesOnFrom s k t s' pc) :
    (coreOf s'.kern s.cur.core).lines = (coreOf k s.cur.core).lines ∧
      (coreOf s'.kern s.cur.core).lcache = (coreOf k s.cur.core).lcache := by
  rw [h.within.core]
  exact ⟨rfl, rfl⟩

theorem instructionLines : Claims.InstructionLines := by
  intro x all s t m l hm ha hl
  have hlaunch : threadLaunch (beforeBody s m t) s.cur.core t = some l :=
    (threadLaunch_butCaches (caches_before s.kern s.cur.core m [t]) t).trans hl
  have hex : exec m s = answer (issueEach s m fun k t _ =>
      (dropCode k s.cur.core t (if all then none else some (pcLine (readPair s.kern s.cur.core t x.a))), .next)) := by
    rw [hm]
    cases all <;> rfl
  have hgoes := issueEach_goesOn_of_thread ha (f := fun k t _ =>
      (dropCode k s.cur.core t (if all then none else some (pcLine (readPair s.kern s.cur.core t x.a))), .next))
    (congrArg (·, Course.next) (dropCode_eq hlaunch all _))
    (getThread_modCore_of_threads (dropped_threads l all _) ..)
  obtain ⟨hlines, hcache⟩ := lines_of_goesOn hgoes
  rw [coreOf_modCore_same] at hlines hcache
  refine ⟨_, hex, hgoes, fun hall => ?_, fun hall y => ?_, fun y => ?_, fun a => bytes_of_goesOn hgoes rfl a⟩
  · rw [hlines, hall]
    exact List.filter_eq_nil_iff.mpr fun _ _ => Bool.false_ne_true
  · rw [hlines, hall]
    exact mem_dropped_lines ..
  · rw [hcache]
    exact mem_dropped_lcache ..

/-! ## SAMPLE (R252, R371) -/

section Sample

variable {s : State} {x : SForm} {k : Kern} {t : Thread}

theorem sampleOnBody_foreign (h : (coreOf k s.cur.core).sampler.running = true ∧ (coreOf k s.cur.core).sampler.ctx ≠ ctxOf k s.cur.core t) :
    sampleOnBody s x k t = (k, .trap 0x05 0 0) := by
  simp only [sampleOnBody, h.1, bne_iff_ne.mpr h.2, Bool.and_self, if_true]

theorem sampler_free (h : (coreOf k s.cur.core).sampler.running = false ∨ (coreOf k s.cur.core).sampler.ctx = ctxOf k s.cur.core t) :
    ((coreOf k s.cur.core).sampler.running && (coreOf k s.cur.core).sampler.ctx != ctxOf k s.cur.core t) = false := by
  rcases h with h | h
  · rw [h, Bool.false_and]
  · rw [h, bne_self_eq_false, Bool.and_false]

/-- A buffer that fails its checks raises rights, be the sampler another context's or not. -/
theorem sampleOnBody_refused {e : Nat × Nat}
    (h : checkObj k (ctxOf k s.cur.core t) (readPair s.kern s.cur.core t x.a) (capOff (readPair s.kern s.cur.core t x.a)) 64 64 needWrite =
      .error e) : sampleOnBody s x k t = (k, .trap 0x05 0 0) := by
  simp only [sampleOnBody, h, ite_self]

/-- SAMPLE.on of a buffer whose header has been read, by whether it is sound. -/
theorem sampleOnBody_read {ea : Nat} {rs : List (Nat × Nat)} {h : List Byte} {paid : Kern}
    (hfree : (coreOf k s.cur.core).sampler.running = false ∨ (coreOf k s.cur.core).sampler.ctx = ctxOf k s.cur.core t)
    (hcheck : checkObj k (ctxOf k s.cur.core t) (readPair s.kern s.cur.core t x.a) (capOff (readPair s.kern s.cur.core t x.a)) 64 64
      needWrite = .ok ea)
    (hruns : objRuns k (ctxOf k s.cur.core t) (capObj (readPair s.kern s.cur.core t x.a)) ea 64 = .ok rs)
    (hpaid : takeTokens k s.cur.core (ctxOf k s.cur.core t) 64 = paid)
    (hread : readRuns paid (ctxOf k s.cur.core t) (classOf k s.cur.core t) rs = (paid, .ok h)) :
    sampleOnBody s x k t =
      if goodBuffer h = true then
        (modCore paid s.cur.core fun core => { core with sampler :=
          { running := true, ctx := ctxOf k s.cur.core t, buf := BitVec.ofNat 64 (readPair s.kern s.cur.core t x.a), e := x.imm.toNat,
            last := if (coreOf k s.cur.core).sampler.running then (coreOf k s.cur.core).sampler.last else 255,
            lastCycle := core.cycle } }, .next)
      else (paid, .trap 0x05 0 0) := by
  have hclass : readTrap (takeTokens k s.cur.core (ctxOf k s.cur.core t) 64) (ctxOf k s.cur.core t) (classOf k s.cur.core t) rs =
      (paid, .ok h) := by
    rw [hpaid]
    exact readTrap_of_readRuns hread
  simp only [sampleOnBody, sampler_free hfree, hcheck, hruns, hclass, Bool.false_eq_true, if_false]
  cases goodBuffer h <;> rfl

end Sample

/-- An entry-once instruction whose body traps in a kernel state of its own: the thread takes its trap from that state. -/
theorem issueOnce_traps_from {s : State} {i : Instr} {t : Thread} {f : Kern → Thread → List Reg → Kern × Course} {k kc : Kern}
    {l : Launch} {h cause : Nat} (ha : ExecutesAlone s i t = true) (hk : ButCaches s.cur.core kc k)
    (hd : TakesTraps { s with kern := kc } t l h) (hf : f (beforeBody s i t) t (destination s i t) = (k, .trap cause 0 0))
    (ht : getThread kc s.cur.core t.tslot t.lane = some t) (hcause : cause < 0x10) :
    TrapsTo { s with kern := kc } (issueOnce s i f) t h (pairtOf kc s.cur.core l (curPc s)) cause 0 (curPc s) 0 := by
  obtain ⟨-, -, -, -, hlatch⟩ := id hd
  have hfin : finishIssue s k [(t, .trap cause 0 0)] = finishIssue { s with kern := kc } k [(t, .trapAt (curPc s) cause 0 0)] := by
    simp only [finishIssue, applyCourses, applyCourse, rollback, hlatch]
    rfl
  rw [issueOnce_alone_eq ha, hf]
  dsimp only [parkTogether]
  rw [hfin]
  exact finishIssue_traps (s := { s with kern := kc }) hk ht hd _ cause 0 (curPc s) 0 (curPc_lt (executes_single (alone_executes ha)))
    (by decide) (by omega) (by decide) (by omega) (.inl rfl)

theorem issueOnce_traps {s : State} {i : Instr} {t : Thread} {f : Kern → Thread → List Reg → Kern × Course} {l : Launch} {h cause : Nat}
    (ha : ExecutesAlone s i t = true) (hd : TakesTraps s t l h)
    (hf : f (beforeBody s i t) t (destination s i t) = (beforeBody s i t, .trap cause 0 0)) (hcause : cause < 0x10) :
    TrapsTo s (issueOnce s i f) t h (pairtOf s.kern s.cur.core l (curPc s)) cause 0 (curPc s) 0 :=
  issueOnce_traps_from (kc := s.kern) ha (caches_before s.kern s.cur.core i [t]) hd hf
    (actors_getThread (executes_mem (alone_executes ha))) hcause

theorem sameCode_takeTokens (k : Kern) (c ctx n : Nat) : SameCode c k (takeTokens k c ctx n) := by
  unfold takeTokens
  split
  · exact ⟨fun _ => rfl, fun _ _ => rfl, fun _ _ => rfl⟩
  · exact sameCode_modCore k c (fun _ => rfl) fun _ => rfl

theorem takeTokens_threads (k : Kern) (c ctx n : Nat) : (coreOf (takeTokens k c ctx n) c).threads = (coreOf k c).threads := by
  unfold takeTokens
  split
  · rfl
  · rw [coreOf_modCore_same]

/-- A thread that can take a trap can take it once tokens have been paid. -/
theorem takesTraps_paid {s : State} {i : Instr} {t : Thread} {l : Launch} {h : Nat} (hd : TakesTraps s t l h) (ctx n : Nat) :
    TakesTraps { s with kern := takeTokens (beforeBody s i t) s.cur.core ctx n } t l h := by
  have hcaches : ButCaches s.cur.core s.kern (beforeBody s i t) := caches_before s.kern s.cur.core i [t]
  obtain ⟨hlaunch, hhandler, hstate, hawaits, hlatch⟩ := hd
  refine ⟨((sameCode_takeTokens ..).launch t).trans ((threadLaunch_butCaches hcaches t).trans hlaunch), hhandler, hstate, ?_, hlatch⟩
  refine (awaitsHeld_of_threads ?_ t).trans hawaits
  dsimp only
  rw [takeTokens_threads, hcaches.core]

theorem sampling : Claims.Sampling := by
  refine ⟨fun x s t ha => ⟨fun ea rs h hfree hcheck hruns hread hgood => ⟨_, rfl, ?starts⟩,
      fun l h hbad hh => ⟨_, rfl, issueOnce_traps ha hh ?refused (by decide)⟩,
      fun l h ea rs b hfree hcheck hruns hread hgood hh => ⟨_, rfl, ?unsound⟩⟩,
    fun x s t ha => ⟨fun hmine => ⟨_, rfl, ?stops⟩, fun hother => ⟨_, rfl, ?nothing⟩⟩⟩
  case starts =>
    refine issueOnce_goesOn ha _ ((sampleOnBody_read hfree hcheck hruns rfl hread).trans (if_pos hgood)) rfl ⟨t, ?_, rfl, rfl⟩
    rw [getThread_modCore_of_threads, getThread_takeTokens, getThread_beforeBody ha]
    exact fun _ => rfl
  case refused =>
    rcases hbad with hforeign | ⟨e, he⟩
    · exact sampleOnBody_foreign hforeign
    · exact sampleOnBody_refused he
  case unsound =>
    have hbody := (sampleOnBody_read hfree hcheck hruns rfl hread).trans (if_neg (by rw [hgood]; exact Bool.false_ne_true))
    have htraps := issueOnce_traps_from (f := fun k t _ => sampleOnBody s x k t) ha ⟨rfl, fun _ _ => rfl, rfl⟩
      (takesTraps_paid hh _ _) hbody ((getThread_takeTokens ..).trans (getThread_beforeBody ha)) (by decide)
    rwa [(sameCode_takeTokens ..).pairtOf, beforeBody, pairtOf_butCaches (caches_before s.kern s.cur.core (.sampleOn x) [t])] at htraps
  case stops =>
    refine issueOnce_goesOn (x := .next) (k := modCore (beforeBody s (.sampleOff x) t) s.cur.core fun core =>
      { core with sampler := { core.sampler with running := false } }) ha _ ?_ rfl ⟨t, ?_, rfl, rfl⟩
    · simp only [sampleOffBody, hmine, beq_self_eq_true, if_true]
    · rw [getThread_modCore_of_threads, getThread_beforeBody ha]
      exact fun _ => rfl
  case nothing =>
    refine issueOnce_goesOn (x := .next) ha _ ?_ rfl ⟨t, getThread_beforeBody ha, rfl, rfl⟩
    simp only [sampleOffBody, beq_eq_false_iff_ne.mpr (Ne.symm hother), Bool.false_eq_true, if_false]

/-- Settles O30: each instruction by the case of its body that its hypotheses select. -/
theorem waitsLinesAndSampling : Obligations.WaitsLinesAndSampling := ⟨eventWaits, registerGrowth, instructionLines, sampling⟩

end Sys2Proof.Proofs
end

section
/-! A block that starts in a room (R259, R261, R264, R300, R347, R421): its rows, its slices, its threads, and what is left alone. -/

namespace Sys2Proof.Proofs

open Sys2Proof.Machine Sys2Proof.Safety

/-! ## Bytes that are wiped -/

theorem readCell_filter (keep : Nat → Bool) (m : List Host.Cell) (a : Nat) :
    readCell (m.filter fun p => keep p.1) a = if keep a then readCell m a else 0 := by
  induction m with
  | nil => simp [readCell, emptyByte]
  | cons p m ih =>
    obtain ⟨b, x⟩ := p
    by_cases hb : b = a
    · subst hb
      cases hk : keep b <;> simp [hk, readCell, ih]
    · cases hk : keep b <;> simp [hk, readCell, ih, hb]

/-- A wiped byte is zero. -/
theorem seeByte_wipe_inside (k : Kern) {lo n a : Nat} (hlo : lo ≤ a) (hhi : a < lo + n) : seeByte (wipe k lo n) a = 0 := by
  refine (readCell_filter (fun a => !(decide (lo ≤ a) && decide (a < lo + n))) k.mem a).trans (if_neg ?_)
  simp [hlo, hhi]

theorem seeByte_wipe_outside (k : Kern) {lo n a : Nat} (h : a < lo ∨ lo + n ≤ a) : seeByte (wipe k lo n) a = seeByte k a := by
  refine (readCell_filter (fun a => !(decide (lo ≤ a) && decide (a < lo + n))) k.mem a).trans (if_pos ?_)
  simp only [Bool.not_eq_true', Bool.and_eq_false_iff, decide_eq_false_iff_not]
  omega

/-! ## The block takes its room -/

/-- Blocks have changed on a core beside their launches, their numbers and their rows, and perhaps what is cached, banked and paid
there; memory may have changed. -/
structure Settled (c : Nat) (k k' : Kern) : Prop where
  launches : k'.launches = k.launches
  others : ∀ d, d ≠ c → coreOf k' d = coreOf k d
  threads : (coreOf k' c).threads = (coreOf k c).threads
  slices : (coreOf k' c).slices = (coreOf k c).slices
  blocks : ∀ b, (blockOf k' c b).map (fun x => (x.launch, x.number, x.baseRow)) =
    (blockOf k c b).map fun x => (x.launch, x.number, x.baseRow)

theorem Settled.trans {c : Nat} {k k' k'' : Kern} (h : Settled c k k') (h' : Settled c k' k'') : Settled c k k'' :=
  ⟨h'.launches.trans h.launches, fun d hd => (h'.others d hd).trans (h.others d hd), h'.threads.trans h.threads,
    h'.slices.trans h.slices, fun b => (h'.blocks b).trans (h.blocks b)⟩

theorem settled_refl (c : Nat) (k : Kern) : Settled c k k := ⟨rfl, fun _ _ => rfl, rfl, rfl, fun _ => rfl⟩

theorem settled_of_cores {c : Nat} {k k' : Kern} (hl : k'.launches = k.launches) (hc : k'.cores = k.cores) : Settled c k k' := by
  have hcore := coreOf_of_cores hc
  exact ⟨hl, fun d _ => hcore d, by rw [hcore], by rw [hcore], fun b => by rw [blockOf, blockOf, hcore]⟩

theorem settled_modCore (c : Nat) (k : Kern) {f : Core → Core}
    (hf : f (coreOf k c) = { f (coreOf k c) with
      threads := (coreOf k c).threads, slices := (coreOf k c).slices, blocks := (coreOf k c).blocks }) : Settled c k (modCore k c f) := by
  refine ⟨rfl, fun d hd => coreOf_modCore_other k f hd, ?_, ?_, fun b => ?_⟩
  · rw [coreOf_modCore_same, hf]
  · rw [coreOf_modCore_same, hf]
  · rw [blockOf, blockOf, coreOf_modCore_same, hf]

theorem settled_modBlock (c b : Nat) (k : Kern) {f : Block → Block}
    (hf : ∀ x, ((f x).launch, (f x).number, (f x).baseRow) = (x.launch, x.number, x.baseRow)) : Settled c k (modBlock k c b f) := by
  refine ⟨rfl, fun d hd => coreOf_modCore_other k _ hd, ?_, ?_, fun b' => ?_⟩
  · rw [modBlock, coreOf_modCore_same]
  · rw [modBlock, coreOf_modCore_same]
  · rw [blockOf_modBlock]
    split
    · rw [Option.map_map]
      exact congrArg (fun g => (blockOf k c b').map g) (funext hf)
    · rfl

theorem settled_putBytes (c : Nat) (k : Kern) (a : Nat) (bs : List Byte) : Settled c k (putBytes k a bs) :=
  settled_of_cores rfl (putBytes_cores k a bs)

theorem settled_engineTouch (k : Kern) (c b lo n : Nat) : Settled c k (engineTouch k c b lo n) := settled_modBlock c b k fun _ => rfl

theorem settled_copyParams (k : Kern) (c b : Nat) (l : Launch) (number index : Nat) : Settled c k (copyParams k c b l number index) := by
  unfold copyParams
  split
  · exact settled_refl c k
  · split
    · exact (settled_putBytes c k ..).trans (settled_engineTouch ..)
    · exact settled_refl c k

theorem copyParams_mem {l : Launch} (h : recPcopy l = false) (k : Kern) (c b number index : Nat) :
    copyParams k c b l number index = k := by
  unfold copyParams
  split
  · rfl
  · rw [h]
    rfl

theorem settled_enterBucket (k : Kern) (c ctx : Nat) : Settled c k (enterBucket k c ctx) :=
  settled_modCore c k (by dsimp only; split <;> rfl)

theorem settled_wakeBanks (k : Kern) (c : Nat) : Settled c k (wakeBanks k c) := settled_modCore c k (by dsimp only; split <;> rfl)

theorem settled_wipe (c : Nat) (k : Kern) (lo n : Nat) : Settled c k (wipe k lo n) := settled_of_cores rfl rfl

/-- The kernel state with the block and its slices, on rows that are wiped, before the parameter copy. -/
def roomed (k : Kern) (c : Nat) (l : Launch) (serial number index : Nat) (r : Room) : Kern :=
  let k := wakeBanks (wipe k (rowBase c r.row) (blockRows l * 1536)) c
  modCore { k with order := k.order + 1 } c fun core =>
    { core with blocks := mset core.blocks r.slot (newBlock l serial number index k.order r), slices := core.slices - r.slices }

/-- Taking a room: the block stands in its slot, its slices are taken, and its rows are wiped. -/
theorem seatBlock_eq (k : Kern) (c : Nat) (l : Launch) (serial number index : Nat) (r : Room) :
    seatBlock k c l serial number index r =
      copyParams (enterBucket (roomed k c l serial number index r) c l.ctx) c r.slot l number index := rfl

theorem settled_seatBlock (k : Kern) (c : Nat) (l : Launch) (serial number index : Nat) (r : Room) :
    Settled c (roomed k c l serial number index r) (seatBlock k c l serial number index r) :=
  (settled_enterBucket _ c l.ctx).trans (settled_copyParams ..)

section Seat

variable (k : Kern) (c : Nat) (l : Launch) (serial number index : Nat) (r : Room)

theorem seatBlock_launches : (seatBlock k c l serial number index r).launches = k.launches :=
  (settled_seatBlock ..).launches

theorem coreOf_seatBlock_other {d : Nat} (hd : d ≠ c) : coreOf (seatBlock k c l serial number index r) d = coreOf k d := by
  rw [(settled_seatBlock ..).others d hd, roomed]
  rw [coreOf_modCore_other _ _ hd]
  exact coreOf_modCore_other _ _ hd

theorem coreOf_wakeBanks_wipe (lo n : Nat) :
    (coreOf (wakeBanks (wipe k lo n) c) c).threads = (coreOf k c).threads ∧
      (coreOf (wakeBanks (wipe k lo n) c) c).slices = (coreOf k c).slices := by
  have h := (settled_wipe c k lo n).trans (settled_wakeBanks _ c)
  exact ⟨h.threads, h.slices⟩

theorem seatBlock_threads : (coreOf (seatBlock k c l serial number index r) c).threads = (coreOf k c).threads := by
  rw [(settled_seatBlock ..).threads, roomed]
  rw [coreOf_modCore_same]
  exact (coreOf_wakeBanks_wipe ..).1

theorem seatBlock_slices : (coreOf (seatBlock k c l serial number index r) c).slices = (coreOf k c).slices - r.slices := by
  rw [(settled_seatBlock ..).slices, roomed]
  rw [coreOf_modCore_same]
  exact congrArg (· - r.slices) (coreOf_wakeBanks_wipe ..).2

theorem blockOf_seatBlock : (blockOf (seatBlock k c l serial number index r) c r.slot).map (fun x => (x.launch, x.number, x.baseRow)) =
    some (serial, number, r.row) := by
  rw [(settled_seatBlock ..).blocks, roomed]
  rw [blockOf, coreOf_modCore_same, mget_mset_same]
  rfl

theorem seatBlock_mem (h : recPcopy l = false) :
    (seatBlock k c l serial number index r).mem = (wipe k (rowBase c r.row) (blockRows l * 1536)).mem := by
  rw [seatBlock_eq, copyParams_mem h]
  rfl

end Seat

/-! ## Its threads begin -/

/-- Threads that are moved to a program counter, and threads that stand there already, stand there. -/
theorem standsAt_moveThreads {k : Kern} {c pc : Nat} {t : Thread} {ms : List Mover} (h : StandsAt k c t pc)
    (hms : ∀ m ∈ ms, m.pc = (BitVec.ofNat 64 pc).toNat) : StandsAt (moveThreads k c ms) c t pc := by
  obtain ⟨u, hu, hpc, hloc⟩ := h
  obtain ⟨loc, hplaced, hmoved⟩ := getThread_moveThreads k c t.tslot t.lane (BitVec.ofNat 64 pc).toNat ms fun m hm _ => hms m hm
  rw [hu, Option.map_some] at hmoved
  refine ⟨_, hmoved, ?_⟩
  split
  · exact ⟨by rw [BitVec.ofNat_toNat, BitVec.setWidth_eq], hplaced⟩
  · exact ⟨hpc, hloc⟩

theorem standsAt_modThis {k : Kern} {c pc : Nat} {t v : Thread} (h : StandsAt k c t pc) (w : Wait) :
    StandsAt (modThis k c v fun u => { u with wait := w }) c t pc := by
  obtain ⟨u, hu, hpc, hloc⟩ := h
  unfold StandsAt
  rw [modThis, getThread_modThread _ _ _ _ _ _ _ (keepsKey_wait w), hu]
  split
  · exact ⟨_, rfl, hpc, hloc⟩
  · exact ⟨_, rfl, hpc, hloc⟩

theorem standsAt_startThreads {k : Kern} {c pc : Nat} {t : Thread} {ts : List Thread} (h : StandsAt k c t pc)
    (hts : ∀ u ∈ ts, u.pc = BitVec.ofNat 64 pc) : StandsAt (startThreads k c ts) c t pc := by
  refine standsAt_moveThreads ?_ fun m hm => ?_
  · have hfold (us : List Thread) (k : Kern) (h : StandsAt k c t pc) :
        StandsAt (us.foldl (fun k t => modThis k c t fun u => { u with wait := .none }) k) c t pc := by
      induction us generalizing k with
      | nil => exact h
      | cons u us ih => exact ih _ (standsAt_modThis h _)
    exact hfold ts k h
  · obtain ⟨u, hu, rfl⟩ := List.mem_map.mp hm
    exact congrArg BitVec.toNat (hts u hu)

/-- A thread among those that come stands at their program counter, where its place was free. -/
theorem standsAt_added {k : Kern} {c pc : Nat} {ts : List Thread} {t : Thread} (hfree : getThread k c t.tslot t.lane = none)
    (hmem : ∃ u ∈ ts, u.tslot = t.tslot ∧ u.lane = t.lane)
    (hts : ∀ u ∈ ts, u.pc = BitVec.ofNat 64 pc ∧ ∃ n, u.loc = .pending n) :
    StandsAt (modCore k c fun core => { core with threads := core.threads ++ ts }) c t pc := by
  obtain ⟨u, hu, hslot, hlane⟩ := hmem
  have hfound : (findThread ts t.tslot t.lane).isSome = true :=
    List.find?_isSome.mpr ⟨u, hu, by simp [hslot, hlane]⟩
  obtain ⟨w, hw⟩ := Option.isSome_iff_exists.mp hfound
  obtain ⟨hpc, hloc⟩ := hts w (List.mem_of_find?_eq_some hw)
  refine ⟨w, ?_, hpc, .inr hloc⟩
  simp only [getThread, coreOf_modCore_same, findThread, List.find?_append] at hfree ⊢
  rw [hfree]
  exact hw

theorem standsAt_beginGroups {k : Kern} {c pc : Nat} {gs : List (Nat × List Thread)} {t : Thread}
    (hfree : getThread k c t.tslot t.lane = none) (hmem : ∃ g ∈ gs, ∃ u ∈ g.2, u.tslot = t.tslot ∧ u.lane = t.lane)
    (hgs : ∀ g ∈ gs, ∀ u ∈ g.2, u.pc = BitVec.ofNat 64 pc ∧ ∃ n, u.loc = .pending n) : StandsAt (beginGroups k c gs) c t pc := by
  refine standsAt_startThreads (standsAt_added hfree ?_ fun u hu => ?_) fun u hu => ?_
  · obtain ⟨g, hg, u, hu, hkey⟩ := hmem
    refine ⟨_, List.mem_flatMap.mpr ⟨g, hg, List.mem_map.mpr ⟨u, hu, rfl⟩⟩, ?_⟩
    split <;> exact hkey
  · obtain ⟨g, hg, hu⟩ := List.mem_flatMap.mp hu
    obtain ⟨v, hv, rfl⟩ := List.mem_map.mp hu
    split <;> exact hgs g hg v hv
  · obtain ⟨g, hg, hu⟩ := List.mem_flatMap.mp hu
    exact (hgs g (List.mem_of_mem_filter hg) u hu).1

theorem within_addThreads (k : Kern) (c : Nat) (ts : List Thread) :
    Within c (fun _ _ => true) k (modCore k c fun core => { core with threads := core.threads ++ ts }) :=
  within_modCore rfl (fun _ => rfl) fun _ _ h => Bool.noConfusion h

theorem within_startThreads (k : Kern) (c : Nat) (ts : List Thread) : Within c (fun _ _ => true) k (startThreads k c ts) := by
  unfold startThreads
  exact (within_foldl _ ts (fun k t _ => within_modThis k t _ (keepsKey_wait _) rfl) k).trans (within_moveThreads _ _ fun _ _ => rfl)

/-- Groups that begin change only the threads of their core and its issue table. -/
theorem within_beginGroups (k : Kern) (c : Nat) (gs : List (Nat × List Thread)) :
    Within c (fun _ _ => true) k (beginGroups k c gs) := by
  exact (within_addThreads ..).trans (within_startThreads ..)

/-! ## The block has started -/

/-- The groups of a block with the cycles after which they start. -/
def startGroups (s : State) (c : Nat) (l : Launch) (index : Nat) (r : Room) : List (Nat × List Thread) :=
  ((countStarts s (bayOf c) r.seats.length).2.zip r.seats).zipIdx.map fun p =>
    (p.1.1, groupThreadsNew s c l index r.slot p.2 p.1.2)

/-- The kernel state in which the block has its room and nothing of what came before it is cached where it acquires that (R354). -/
def seated (k : Kern) (c : Nat) (l : Launch) (serial number index : Nat) (r : Room) : Kern :=
  let k := seatBlock k c l serial number index r
  if hasPredecessors k l then dropLines k c else k

theorem startBlock_kern (s : State) (c : Nat) (l : Launch) (serial number index : Nat) (r : Room) :
    (startBlock s c l serial number index r).kern =
      beginGroups (seated s.kern c l serial number index r) c (startGroups s c l index r) := rfl

theorem settled_seated (k : Kern) (c : Nat) (l : Launch) (serial number index : Nat) (r : Room) :
    Settled c (seatBlock k c l serial number index r) (seated k c l serial number index r) := by
  unfold seated
  dsimp only
  split
  · exact settled_modCore c _ rfl
  · exact settled_refl c _

theorem seated_mem (k : Kern) (c : Nat) (l : Launch) (serial number index : Nat) (r : Room) :
    (seated k c l serial number index r).mem = (seatBlock k c l serial number index r).mem := by
  unfold seated
  dsimp only
  split <;> rfl

theorem length_addStarts (slope now n : Nat) (xs : List Nat) : (addStarts slope now n xs).length = xs.length + n := by
  induction n generalizing xs with
  | zero => rfl
  | succ n ih => rw [addStarts, ih, List.length_append, List.length_singleton]; omega

theorem length_countStarts (s : State) (bay n : Nat) : (countStarts s bay n).2.length = n := by
  simp only [countStarts, List.length_map, List.length_drop, length_addStarts]
  omega

/-- A thread of a new group is among those that come. -/
theorem mem_startGroups (s : State) {c : Nat} {l : Launch} {index : Nat} {r : Room} {p : Nat × Seat} {i : Nat}
    (hp : p ∈ (List.range r.seats.length).zip r.seats) (hi : i ∈ groupLanes l index p.1) :
    ∃ g ∈ startGroups s c l index r, ∃ u ∈ g.2, u.tslot = p.2.tslot ∧ u.lane = p.2.base + i := by
  obtain ⟨j, hj, hjp⟩ := List.getElem_of_mem hp
  rw [List.length_zip, List.length_range, Nat.min_self] at hj
  rw [List.getElem_zip, List.getElem_range] at hjp
  have hlen : j < (countStarts s (bayOf c) r.seats.length).2.length := by rwa [length_countStarts]
  have hmem : (((countStarts s (bayOf c) r.seats.length).2[j], r.seats[j]), j) ∈
      ((countStarts s (bayOf c) r.seats.length).2.zip r.seats).zipIdx :=
    List.mem_zipIdx_iff_getElem?.mpr (by rw [List.getElem?_zip_eq_some]; exact ⟨List.getElem?_eq_getElem hlen, List.getElem?_eq_getElem hj⟩)
  refine ⟨_, List.mem_map.mpr ⟨_, hmem, rfl⟩, _, List.mem_map.mpr ⟨i, ?_, rfl⟩, ?_⟩
  · rw [← hjp] at hi
    exact hi
  · rw [← hjp]
    exact ⟨rfl, rfl⟩

theorem startGroups_stand (s : State) (c : Nat) (l : Launch) (index : Nat) (r : Room) :
    ∀ g ∈ startGroups s c l index r, ∀ u ∈ g.2, u.pc = BitVec.ofNat 64 (recEntry l) ∧ ∃ n, u.loc = .pending n := by
  intro g hg u hu
  obtain ⟨p, -, rfl⟩ := List.mem_map.mp hg
  obtain ⟨i, -, rfl⟩ := List.mem_map.mp hu
  exact ⟨rfl, 0, rfl⟩

section Start

variable (s : State) (c : Nat) (l : Launch) (serial number index : Nat) (r : Room)

theorem within_startBlock : Within c (fun _ _ => true) (seated s.kern c l serial number index r)
    (startBlock s c l serial number index r).kern := within_beginGroups ..

theorem startBlock_launches : (startBlock s c l serial number index r).kern.launches = s.kern.launches := by
  rw [(within_startBlock ..).shared]
  exact ((settled_seated ..).launches).trans (seatBlock_launches ..)

theorem coreOf_startBlock_other {d : Nat} (hd : d ≠ c) : coreOf (startBlock s c l serial number index r).kern d = coreOf s.kern d := by
  rw [(within_startBlock ..).cores d hd, (settled_seated ..).others d hd, coreOf_seatBlock_other _ _ _ _ _ _ _ hd]

theorem startBlock_slices :
    (coreOf (startBlock s c l serial number index r).kern c).slices = (coreOf s.kern c).slices - r.slices := by
  rw [(within_startBlock ..).core]
  exact ((settled_seated ..).slices).trans (seatBlock_slices ..)

theorem blockOf_startBlock : ∃ blk, blockOf (startBlock s c l serial number index r).kern c r.slot = some blk ∧ blk.launch = serial ∧
    blk.number = number ∧ blk.baseRow = r.row := by
  have hseated := ((settled_seated s.kern c l serial number index r).blocks r.slot).trans (blockOf_seatBlock ..)
  have hbare := (within_startBlock s c l serial number index r).blocks r.slot
  have hblock := congrArg (Option.map fun x : Block => (x.launch, x.number, x.baseRow)) hbare
  rw [Option.map_map, Option.map_map] at hblock
  obtain ⟨blk, hblk, hfields⟩ := Option.map_eq_some_iff.mp (hblock.trans hseated)
  obtain ⟨hl, hnumber, hrow⟩ := (Prod.mk.injEq ..).mp hfields |>.imp_right (Prod.mk.injEq ..).mp
  exact ⟨blk, hblk, hl, hnumber, hrow⟩

theorem standsAt_startBlock {p : Nat × Seat} {i : Nat} {t : Thread} (hp : p ∈ (List.range r.seats.length).zip r.seats)
    (hi : i ∈ groupLanes l index p.1) (hslot : t.tslot = p.2.tslot) (hlane : t.lane = p.2.base + i)
    (hfree : getThread s.kern c t.tslot t.lane = none) :
    StandsAt (startBlock s c l serial number index r).kern c t (recEntry l) := by
  obtain ⟨g, hg, u, hu, huslot, hulane⟩ := mem_startGroups s hp hi
  rw [startBlock_kern]
  refine standsAt_beginGroups ?_ ⟨g, hg, u, hu, huslot.trans hslot.symm, hulane.trans hlane.symm⟩ (startGroups_stand s c l index r)
  rw [getThread, (settled_seated ..).threads, seatBlock_threads]
  exact hfree

theorem seeByte_startBlock (h : recPcopy l = false) (a : Nat) :
    seeByte (startBlock s c l serial number index r).kern a = seeByte (wipe s.kern (rowBase c r.row) (blockRows l * 1536)) a := by
  rw [(within_startBlock ..).byte]
  exact seeByte_of_mem ((seated_mem ..).trans (seatBlock_mem _ _ _ _ _ _ _ h)) a

end Start

end Sys2Proof.Proofs
end

section
/-! What the dispatcher may choose (R357 to R361, R421): a lease changes no choice, and SLOPE spaces the starts. -/

namespace Sys2Proof.Proofs

open Sys2Proof.Machine Sys2Proof.Safety

/-! ## Bays -/

theorem mget_bays_modBay (s : State) (b : Nat) (f : Bay → Bay) (x : Nat) :
    mget (modBay s b f).pwr.bays x = if x = b then (mget s.pwr.bays b).map f else mget s.pwr.bays x := by
  by_cases h : x = b
  · rw [if_pos h, h]
    exact mget_mmod_same ..
  · rw [if_neg h]
    exact mget_mmod_other _ _ h

/-- The bay is one of the device's. -/
def HasBay (s : State) (b : Nat) : Prop := (mget s.pwr.bays b).isSome = true

theorem hasBay_modBay {s : State} {b : Nat} (h : HasBay s b) (x : Nat) (f : Bay → Bay) : HasBay (modBay s x f) b := by
  unfold HasBay at *
  rw [mget_bays_modBay]
  split
  · next he => rw [Option.isSome_map, ← he, h]
  · exact h

theorem getBay_modBay_same {s : State} {b : Nat} (h : HasBay s b) (f : Bay → Bay) : getBay (modBay s b f) b = f (getBay s b) := by
  obtain ⟨y, hy⟩ := Option.isSome_iff_exists.mp h
  rw [getBay, getBay, mget_bays_modBay, if_pos rfl, hy]
  rfl

/-- A bay that is in service is one of the device's. -/
theorem hasBay_of_enabled {s : State} {b : Nat} (h : (getBay s b).enabled = true) : HasBay s b := by
  unfold HasBay
  unfold getBay at h
  cases hb : mget s.pwr.bays b with
  | none => rw [hb] at h; cases h
  | some y => rfl

/-! ## Leases change no choice -/

/-- The bay with its lease taken. -/
def leased (s : State) (b : Nat) : State := modBay s b fun x => { x with lease := true }

theorem takeLease_on {s : State} {b : Nat} (h : (getBay s b).gate = .on) : takeLease s b = (leased s b, true) := by
  simp only [takeLease, h, leased]

/-- Two states whose kernels are one and whose bays differ in nothing but leases. -/
structure SameButLeases (s s' : State) : Prop where
  kern : s'.kern = s.kern
  bay : ∀ b, { getBay s' b with lease := false } = { getBay s b with lease := false }

theorem sameButLeases_leased (s : State) (b : Nat) : SameButLeases s (leased s b) := by
  refine ⟨rfl, fun x => ?_⟩
  unfold getBay leased
  rw [mget_bays_modBay]
  split
  · next h =>
    rw [h]
    cases mget s.pwr.bays b <;> rfl
  · rfl

namespace SameButLeases

variable {s s' : State} (h : SameButLeases s s')
include h

/-- What does not read the lease of a bay reads the same. -/
theorem field {α : Type} (f : Bay → α) (hf : ∀ y, f { y with lease := false } = f y) (b : Nat) : f (getBay s' b) = f (getBay s b) := by
  rw [← hf, h.bay, hf]

theorem enabled (b : Nat) : (getBay s' b).enabled = (getBay s b).enabled := h.field (·.enabled) (fun _ => rfl) b

theorem slopeFree (b : Nat) : Machine.slopeFree s' b = Machine.slopeFree s b := by
  simp only [Machine.slopeFree, h.kern, h.field (·.slope) (fun _ => rfl), h.field (·.starts) (fun _ => rfl)]

theorem bringBack_isSome (l : Launch) (v : Vacated) (c : Nat) : (bringBack s' l v c).isSome = (bringBack s l v c).isSome := by
  unfold bringBack
  rw [h.kern]
  dsimp only
  split
  · rfl
  · rw [Option.isSome_map, Option.isSome_map]

theorem vacatedPrio (c : Nat) : Machine.vacatedPrio s' c = Machine.vacatedPrio s c := by
  unfold Machine.vacatedPrio
  rw [h.kern]
  refine congrArg topPrio (congrArg (List.filterMap · _) (funext fun v => congrArg (Option.bind _) (funext fun l => if_congr ?_ rfl rfl)))
  simp only [returnable, mayStart, h.kern, h.enabled, h.slopeFree, h.bringBack_isSome]

theorem sources (c : Nat) : Machine.sources s' c = Machine.sources s c := by
  simp only [Machine.sources, h.kern, h.slopeFree, h.vacatedPrio]

theorem chooseSource (c : Nat) : Machine.chooseSource s' c = Machine.chooseSource s c := by
  simp only [Machine.chooseSource, h.enabled, h.sources]

theorem bayPulls (b : Nat) : Machine.bayPulls s' b = Machine.bayPulls s b := by
  simp only [Machine.bayPulls, h.kern, h.chooseSource, h.field (·.gate) (fun _ => rfl), h.field (·.nextPull) (fun _ => rfl)]

theorem pullsBefore (b : Nat) : Machine.pullsBefore s' b = Machine.pullsBefore s b := by
  simp only [Machine.pullsBefore, h.bayPulls, h.field (·.lastPull) (fun _ => rfl)]

end SameButLeases

/-! ## The choice of a core -/

theorem mem_of_minBy {α : Type} {f : α → Nat} {l : List α} {a : α} (h : minBy f l = some a) : a ∈ l := by
  induction l generalizing a with
  | nil => cases h
  | cons b l ih =>
    rw [minBy] at h
    split at h
    · cases h
      exact List.mem_cons_self
    · next x hx =>
      split at h
      · cases h
        exact List.mem_cons_of_mem _ (ih hx)
      · cases h
        exact List.mem_cons_self

/-- A core chooses one of its sources, where its bay is in service. -/
theorem chooseSource_spec {s : State} {c : Nat} {x : Source} (h : chooseSource s c = some x) :
    (getBay s (bayOf c)).enabled = true ∧ x ∈ sources s c := by
  unfold chooseSource at h
  split at h
  · next he => exact ⟨he, mem_of_minBy h⟩
  · cases h

theorem slopeFree_of_chooseSource {s : State} {c : Nat} {x : Source} (h : chooseSource s c = some x) : slopeFree s (bayOf c) = true := by
  have hx := (List.mem_filter.mp (chooseSource_spec h).2).2
  simp only [Bool.and_eq_true] at hx
  exact hx.1.1.2

/-! ## SLOPE (R421) -/

/-- The next group starts not before now, nor before the last, nor within 16 cycles of the SLOPE-th before it. -/
theorem nextStart_bounds (slope now : Nat) (xs : List Nat) :
    now ≤ nextStart slope now xs ∧ (∀ a, xs.getLast? = some a → a ≤ nextStart slope now xs) ∧
      ∀ a, xs.reverse[slope - 1]? = some a → a + 16 ≤ nextStart slope now xs := by
  unfold nextStart
  dsimp only
  refine ⟨?_, fun a ha => ?_, fun a ha => ?_⟩
  · omega
  · rw [ha, Option.getD_some]
    omega
  · rw [ha]
    exact Nat.le_max_right ..

theorem slopeFree_iff (s : State) (b : Nat) :
    slopeFree s b = true ↔ nextStart (getBay s b).slope (bayCycle s.kern b) (getBay s b).starts = bayCycle s.kern b := by
  simp only [slopeFree, beq_iff_eq]

theorem addStarts_spaced {slope : Nat} (hslope : 0 < slope) (now n : Nat) (xs : List Nat) :
    ∃ ys, addStarts slope now n xs = xs ++ ys ∧ ys.length = n ∧ (∀ y ∈ ys, now ≤ y) ∧
      ∀ i a b, xs.length ≤ i + slope → (xs ++ ys)[i]? = some a → (xs ++ ys)[i + slope]? = some b → a + 16 ≤ b := by
  induction n generalizing xs with
  | zero =>
    refine ⟨[], (List.append_nil xs).symm, rfl, nofun, fun i a b hi _ hb => ?_⟩
    rw [List.append_nil, List.getElem?_eq_none hi] at hb
    cases hb
  | succ n ih =>
    obtain ⟨hnow, -, hspace⟩ := nextStart_bounds slope now xs
    obtain ⟨ys, heq, hlen, hys, hspaced⟩ := ih (xs ++ [nextStart slope now xs])
    rw [List.append_assoc, List.singleton_append] at heq hspaced
    refine ⟨nextStart slope now xs :: ys, heq, by rw [List.length_cons, hlen], ?_, fun i a b hi ha hb => ?_⟩
    · rintro y (_ | ⟨_, hy⟩)
      · exact hnow
      · exact hys y hy
    · by_cases hnext : xs.length = i + slope
      · have hlast : i = xs.length - 1 - (slope - 1) := by omega
        rw [← hnext, List.getElem?_append_right (Nat.le_refl _), Nat.sub_self, List.getElem?_cons_zero] at hb
        cases hb
        refine hspace a ?_
        rw [List.getElem?_reverse (by omega), ← hlast, ← ha, List.getElem?_append_left (by omega)]
      · exact hspaced i a b (by rw [List.length_append, List.length_singleton]; omega) ha hb

end Sys2Proof.Proofs
end

section
/-! Dispatch of task blocks and placement of fields (R300, R350, R357 to R361), and the end of a launch (R382). -/

namespace Sys2Proof.Proofs

open Sys2Proof.Machine Sys2Proof.Safety

/-! ## A pull of the shared queue -/

theorem takeBlock_shared {s : State} {c n : Nat} {l : Launch} (h : (getBay s (bayOf c)).gate = .on) :
    takeBlock s c (.ofShared n l) = pullShared (leased s (bayOf c)) c n := by
  simp only [takeBlock, sourceAsks, takeLease_on h]

/-- A core that chooses the shared queue pulls from it, by either event. -/
theorem dispatch_pulls {s : State} {c n : Nat} {l : Launch} {m : Instr} (hchoose : chooseSource s c = some (.ofShared n l))
    (hm : m = .blockDispatch c ∨ m = .bayDispatchPull (bayOf c) c) (h : (getBay s (bayOf c)).gate = .on) :
    exec m s = .next (pullShared (leased s (bayOf c)) c n) := by
  rcases hm with rfl | rfl
  · change execBlockDispatch c s = _
    simp only [execBlockDispatch, hchoose, takeBlock_shared h, answer]
  · change execBayDispatchPull (bayOf c) c s = _
    simp only [execBayDispatchPull, hchoose, beq_self_eq_true, if_true, takeBlock_shared h, answer]

/-- A launch counts its next block as dispatched, and the lease of the bay is over. -/
def countedNext (s : State) (serial b : Nat) : State :=
  endLease { s with kern := { s.kern with launches := mmod s.kern.launches serial (fun x => { x with next := x.next + 1 }) } } b

theorem startNext_eq {s : State} {c serial : Nat} {l : Launch} {r : Room} (hl : mget s.kern.launches serial = some l)
    (hr : roomFor (coreOf s.kern c) l (blockSlices l 0) = some r) :
    startNext s c serial = countedNext (startBlock s c l serial l.next 0 r) serial (bayOf c) := by
  simp only [startNext, hl, hr, countedNext]

/-- The bay has pulled: the launch leaves the shared queue once its blocks have been dispatched, and the next pull is 64 core cycles
away. -/
def pulled (s : State) (serial b now : Nat) : State :=
  modBay { s with kern := { s.kern with shared := if dispatched s.kern serial then s.kern.shared.filter (· != serial) else s.kern.shared } } b
    fun x => { x with nextPull := now + 64, lastPull := s.kern.net }

theorem pullShared_starts {s : State} {c serial : Nat} {l : Launch} {r : Room} (hl : mget s.kern.launches serial = some l)
    (hr : roomFor (coreOf s.kern c) l (blockSlices l 0) = some r)
    (hnext : (getBay s (bayOf c)).nextPull ≤ bayCycle s.kern (bayOf c)) (hbefore : pullsBefore s (bayOf c) = false) :
    pullShared s c serial =
      pulled (countedNext (startBlock s c l serial l.next 0 r) serial (bayOf c)) serial (bayOf c) (bayCycle s.kern (bayOf c)) := by
  simp only [pullShared, startNext_eq hl hr, decide_eq_false (Nat.not_lt.mpr hnext), hbefore, Bool.or_self, Bool.false_eq_true, if_false,
    pulled]

/-- A bay waits while another pulls before it. -/
theorem pullShared_waits {s : State} {c serial : Nat} (hbefore : pullsBefore s (bayOf c) = true) :
    pullShared s c serial = endLease s (bayOf c) := by
  simp only [pullShared, hbefore, Bool.or_true, if_true]

section Pulled

variable (s : State) (serial b now : Nat)

/-- What a pull leaves as the start of the block has it: the cores, memory, the fabric and firmware. -/
theorem pulled_keeps : (∀ d, coreOf (pulled (countedNext s serial b) serial b now).kern d = coreOf s.kern d) ∧
    (pulled (countedNext s serial b) serial b now).kern.mem = s.kern.mem ∧
    (pulled (countedNext s serial b) serial b now).fab = s.fab ∧ (pulled (countedNext s serial b) serial b now).fw = s.fw :=
  ⟨fun _ => rfl, rfl, rfl, rfl⟩

theorem pulled_launches : mget (pulled (countedNext s serial b) serial b now).kern.launches serial =
    (mget s.kern.launches serial).map fun x => { x with next := x.next + 1 } := mget_mmod_same ..

theorem pulled_nextPull (h : HasBay s b) : (getBay (pulled (countedNext s serial b) serial b now) b).nextPull = now + 64 := by
  unfold pulled
  rw [getBay_modBay_same]
  exact hasBay_modBay (s := { s with kern := { s.kern with launches := _ } }) h b _

end Pulled

/-! ## Leases of several bays -/

theorem endLeases_keeps (f : Nat × Nat → Nat) (ps : List (Nat × Nat)) (t : State) :
    (ps.foldl (fun t p => endLease t (f p)) t).kern = t.kern ∧ (ps.foldl (fun t p => endLease t (f p)) t).fab = t.fab ∧
      (ps.foldl (fun t p => endLease t (f p)) t).fw = t.fw := by
  induction ps generalizing t with
  | nil => exact ⟨rfl, rfl, rfl⟩
  | cons p ps ih => exact ih _

/-! ## The end of a launch -/

/-- The kernel state in which the record of a launch's end has been written and the launch is done. -/
structure Ended (serial : Nat) (l : Launch) (s s' : State) : Prop where
  cores : s'.kern.cores = s.kern.cores
  launches : s'.kern.launches = mset s.kern.launches serial { l with done := true }
  fields : s'.kern.fields = mdel s.kern.fields serial
  pwr : s'.pwr = { s.pwr with due := true }

theorem endLaunch_ends (s : State) (c serial : Nat) (l : Launch) : Ended serial l s (endLaunch s c serial l) := by
  unfold endLaunch
  dsimp only
  generalize hk : logRecord s.kern l.ctx 6 serial (cycleOf s.kern c) _ = k
  have hw : Writes s.kern k := hk ▸ writes_logRecord ..
  have hcores : k.cores = s.kern.cores := by rw [hw.shared]
  have hlaunches : k.launches = s.kern.launches := by rw [hw.shared]
  have hfields : k.fields = s.kern.fields := by rw [hw.shared]
  rw [hlaunches, hfields]
  split
  · exact ⟨hcores, rfl, rfl, rfl⟩
  · exact ⟨hcores, rfl, rfl, rfl⟩

theorem hasBay_startBlock {s : State} {b : Nat} (h : HasBay s b) (c : Nat) (l : Launch) (serial number index : Nat) (r : Room) :
    HasBay (startBlock s c l serial number index r) b := by
  have hpwr : (startBlock s c l serial number index r).pwr = (countStarts s (bayOf c) r.seats.length).1.pwr := rfl
  unfold HasBay
  rw [hpwr]
  exact hasBay_modBay h (bayOf c) _

theorem standsAt_of_core {k k' : Kern} {c pc : Nat} {t : Thread} (hcore : coreOf k' c = coreOf k c) (h : StandsAt k c t pc) :
    StandsAt k' c t pc := by
  simp only [StandsAt, getThread, hcore]
  exact h

section NextStarted

variable (s : State) (c n : Nat) (l : Launch) (r : Room)

/-- The state after a pull that starts the next block of launch n in a room. -/
def nextStarted : State :=
  pulled (countedNext (startBlock (leased s (bayOf c)) c l n l.next 0 r) n (bayOf c)) n (bayOf c) (bayCycle s.kern (bayOf c))

theorem coreOf_nextStarted (d : Nat) :
    coreOf (nextStarted s c n l r).kern d = coreOf (startBlock (leased s (bayOf c)) c l n l.next 0 r).kern d :=
  (pulled_keeps ..).1 d

theorem coreOf_nextStarted_other {d : Nat} (hd : d ≠ c) : coreOf (nextStarted s c n l r).kern d = coreOf s.kern d :=
  (coreOf_nextStarted ..).trans (coreOf_startBlock_other _ _ _ _ _ _ _ hd)

theorem blockOf_nextStarted : ∃ blk, blockOf (nextStarted s c n l r).kern c r.slot = some blk ∧ blk.launch = n ∧ blk.number = l.next ∧
    blk.baseRow = r.row := by
  rw [blockOf, coreOf_nextStarted]
  exact blockOf_startBlock ..

theorem nextStarted_slices : (coreOf (nextStarted s c n l r).kern c).slices = (coreOf s.kern c).slices - r.slices := by
  rw [coreOf_nextStarted]
  exact startBlock_slices ..

theorem nextStarted_next (hl : mget s.kern.launches n = some l) :
    (mget (nextStarted s c n l r).kern.launches n).map (·.next) = some (l.next + 1) := by
  rw [nextStarted, pulled_launches, startBlock_launches, (sameButLeases_leased s (bayOf c)).kern, hl]
  rfl

theorem nextStarted_nextPull (h : (getBay s (bayOf c)).enabled = true) :
    (getBay (nextStarted s c n l r) (bayOf c)).nextPull = bayCycle s.kern (bayOf c) + 64 :=
  pulled_nextPull _ _ _ _ (hasBay_startBlock (hasBay_modBay (hasBay_of_enabled h) _ _) ..)

theorem standsAt_nextStarted {p : Nat × Seat} {u : Thread} (hp : p ∈ (List.range r.seats.length).zip r.seats)
    (hu : u ∈ groupThreadsNew s c l 0 r.slot p.1 p.2) (hfree : getThread s.kern c u.tslot u.lane = none) :
    StandsAt (nextStarted s c n l r).kern c u (recEntry l) := by
  obtain ⟨i, hi, rfl⟩ := List.mem_map.mp hu
  exact standsAt_of_core (coreOf_nextStarted ..) (standsAt_startBlock _ _ _ _ _ _ _ hp hi rfl rfl hfree)

/-- Without a parameter copy, memory is as it was but for the rows of the block, which are wiped. -/
theorem seeByte_nextStarted (h : recPcopy l = false) (a : Nat) :
    seeByte (nextStarted s c n l r).kern a = seeByte (wipe s.kern (rowBase c r.row) (blockRows l * 1536)) a :=
  (seeByte_of_mem (pulled_keeps ..).2.1 a).trans (seeByte_startBlock _ _ _ _ _ _ _ h a)

theorem nextStarted_fab_fw : (nextStarted s c n l r).fab = s.fab ∧ (nextStarted s c n l r).fw = s.fw :=
  (pulled_keeps ..).2.2

variable {s c n l r}

/-- A core that chooses the shared queue while its bay may pull starts the next block, by either event. -/
theorem exec_nextStarted {l0 : Launch} {m : Instr} (hchoose : chooseSource s c = some (.ofShared n l0))
    (hm : m = .blockDispatch c ∨ m = .bayDispatchPull (bayOf c) c) (hgate : (getBay s (bayOf c)).gate = .on)
    (hpull : (getBay s (bayOf c)).nextPull ≤ bayCycle s.kern (bayOf c)) (hbefore : pullsBefore s (bayOf c) = false)
    (hl : mget s.kern.launches n = some l) (hr : roomFor (coreOf s.kern c) l (blockSlices l 0) = some r) :
    exec m s = .next (nextStarted s c n l r) := by
  have hsame := sameButLeases_leased s (bayOf c)
  have hnext : (getBay (leased s (bayOf c)) (bayOf c)).nextPull ≤ bayCycle s.kern (bayOf c) :=
    (hsame.field (·.nextPull) (fun _ => rfl) (bayOf c)).trans_le hpull
  rw [dispatch_pulls hchoose hm hgate,
    pullShared_starts (s := leased s (bayOf c)) hl hr hnext ((hsame.pullsBefore _).trans hbefore)]
  rfl

end NextStarted

/-- A field whose bricks have started is placed, and the leases of its bays are over. -/
def fieldPlaced (t : State) (serial : Nat) (l : Launch) : State :=
  let t := l.bricks.foldl (fun t p => endLease t (bayOf p.2)) t
  { t with kern := { t.kern with launches := mset t.kern.launches serial { l with placed := true, next := l.total } } }

section Field

variable {s : State} {serial : Nat} {l : Launch} (hl : mget s.kern.launches serial = some l) (hplaced : l.placed = false)
  (hdone : l.done = false) (hfield : isField l = true) (hrun : mayRun s.kern l.ctx = true)
include hl hplaced hdone hfield hrun

theorem execFieldPlacement_places {s1 t : State} (hbricks : l.bricks ≠ [])
    (hlease : leaseAll s (l.bricks.map fun p => bayOf p.2) = (s1, true)) (hstart : startBricks l serial l.bricks s1 = some t) :
    execFieldPlacement serial s = answer (fieldPlaced t serial l) := by
  have hempty : l.bricks.isEmpty = false := List.isEmpty_eq_false_iff.mpr hbricks
  simp only [execFieldPlacement, hl, hplaced, hdone, hfield, hrun, hempty, hlease, hstart, Bool.not_true, Bool.or_self,
    Bool.false_eq_true, if_false, fieldPlaced]

theorem execFieldPlacement_empty (hbricks : l.bricks = []) :
    execFieldPlacement serial s = answer (endLaunch s (refCore s 0) serial l) := by
  simp only [execFieldPlacement, hl, hplaced, hdone, hfield, hrun, hbricks, List.isEmpty_nil, Bool.not_true, Bool.or_self,
    Bool.false_eq_true, if_false, if_true]

end Field

theorem dispatch : Claims.Dispatch := by
  refine ⟨fun s c n l0 l r m hchoose hm hgate hpull hbefore hl hr => ?starts, fun s c x hchoose => ?slope,
    fun slope now n xs hslope => addStarts_spaced hslope now n xs, fun s c n l hchoose hgate hbefore => ?waits,
    fun s serial l s1 t hl hplaced hdone hfield hrun hbricks hlease hstart =>
      ⟨fieldPlaced t serial l, execFieldPlacement_places hl hplaced hdone hfield hrun hbricks hlease hstart, ?field⟩,
    fun s serial l hl hplaced hdone hfield hrun hbricks =>
      ⟨_, execFieldPlacement_empty hl hplaced hdone hfield hrun hbricks, ?empty⟩⟩
  case starts =>
    obtain ⟨blk, hblk, hserial, hnumber, hrow⟩ := blockOf_nextStarted s c n l r
    obtain ⟨hfab, hfw⟩ := nextStarted_fab_fw s c n l r
    have hbyte (h : recPcopy l = false) (a : Nat) := seeByte_nextStarted s c n l r h a
    exact ⟨nextStarted s c n l r, blk, exec_nextStarted hchoose hm hgate hpull hbefore hl hr, hblk, hserial, hnumber, hrow,
      nextStarted_slices .., nextStarted_next _ _ _ _ _ hl, nextStarted_nextPull _ _ _ _ _ (chooseSource_spec hchoose).1,
      fun _ hp _ hu hfree => standsAt_nextStarted _ _ _ _ _ hp hu hfree,
      fun hcopy a hlo hhi => (hbyte hcopy a).trans (seeByte_wipe_inside _ hlo hhi),
      fun a ha hcopy => (hbyte hcopy a).trans (seeByte_wipe_outside _ ha),
      fun _ hd => coreOf_nextStarted_other _ _ _ _ _ hd, hfab, hfw⟩
  case slope =>
    obtain ⟨-, hlast, hspace⟩ := nextStart_bounds (getBay s (bayOf c)).slope (bayCycle s.kern (bayOf c)) (getBay s (bayOf c)).starts
    rw [(slopeFree_iff s (bayOf c)).mp (slopeFree_of_chooseSource hchoose)] at hlast hspace
    exact ⟨hlast, hspace⟩
  case waits =>
    have hwait := pullShared_waits (c := c) (serial := n) (((sameButLeases_leased s (bayOf c)).pullsBefore _).trans hbefore)
    exact ⟨_, (dispatch_pulls hchoose (.inr rfl) hgate).trans (congrArg _ hwait), rfl⟩
  case field =>
    obtain ⟨hkern, hfab, hfw⟩ := endLeases_keeps (fun p => bayOf p.2) l.bricks t
    refine ⟨?_, hfab, hfw⟩
    unfold fieldPlaced
    dsimp only
    rw [hkern]
  case empty =>
    have hends := endLaunch_ends s (refCore s 0) serial l
    refine ⟨?_, hends.pwr⟩
    rw [hends.launches, mget_mset_same]
    rfl

end Sys2Proof.Proofs
end

section
/-! A block leaves its core when its threads have exited (R252, R277, R279, R300, R382). -/

namespace Sys2Proof.Proofs

open Sys2Proof.Machine Sys2Proof.Safety

/-- A core without block b and its threads, which had so many slices; what is sampled, banked and paid on it may have changed. -/
structure Vacates (c b slices : Nat) (k k' : Kern) : Prop where
  launches : k'.launches = k.launches
  fields : k'.fields = k.fields
  mem : k'.mem = k.mem
  others : ∀ d, d ≠ c → coreOf k' d = coreOf k d
  blocks : (coreOf k' c).blocks = mdel (coreOf k c).blocks b
  threads : (coreOf k' c).threads = (coreOf k c).threads.filter fun t => t.block != b
  slices : (coreOf k' c).slices = (coreOf k c).slices + slices

/-- A later change of the core that keeps its blocks, its threads and its slices. -/
theorem Vacates.modCore {c b slices : Nat} {k k' : Kern} (h : Vacates c b slices k k') {f : Core → Core}
    (hf : ∀ x, f x = { f x with threads := x.threads, slices := x.slices, blocks := x.blocks }) : Vacates c b slices k (modCore k' c f) where
  launches := h.launches
  fields := h.fields
  mem := h.mem
  others d hd := (coreOf_modCore_other k' f hd).trans (h.others d hd)
  blocks := by rw [coreOf_modCore_same, hf]; exact h.blocks
  threads := by rw [coreOf_modCore_same, hf]; exact h.threads
  slices := by rw [coreOf_modCore_same, hf]; exact h.slices

/-- The slices of a block. -/
def heldSlices (blk : Block) : Nat := (blk.groups.map fun g => g.cols.length * (g.regs / 8 + 1)).sum

theorem vacates_dropBlock {k : Kern} {c b : Nat} {blk : Block} (h : blockOf k c b = some blk) :
    Vacates c b (heldSlices blk) k (dropBlock k c b) := by
  simp only [dropBlock, h]
  refine ⟨rfl, rfl, rfl, fun d hd => coreOf_modCore_other k _ hd, ?_, ?_, ?_⟩
  · rw [coreOf_modCore_same]
  · rw [coreOf_modCore_same]
  · rw [coreOf_modCore_same]
    rfl

/-- The kernel state in which a block has left its core (R252, R300, R371). -/
def withoutBlock (k : Kern) (c b : Nat) (blk : Block) : Kern :=
  leaveBucket (dropRegion (sampleEnd (dropBlock k c b) c) c blk.launch) c blk.ctx

theorem Vacates.dropRegion {c b slices : Nat} {k k' : Kern} (h : Vacates c b slices k k') (serial : Nat) :
    Vacates c b slices k (dropRegion k' c serial) := by
  unfold Machine.dropRegion
  dsimp only
  split
  · exact h
  · exact h.modCore fun _ => rfl

theorem Vacates.leaveBucket {c b slices : Nat} {k k' : Kern} (h : Vacates c b slices k k') (ctx : Nat) :
    Vacates c b slices k (leaveBucket k' c ctx) := by
  refine h.modCore fun x => ?_
  dsimp only
  split <;> rfl

theorem vacates_withoutBlock {k : Kern} {c b : Nat} {blk : Block} (h : blockOf k c b = some blk) :
    Vacates c b (heldSlices blk) k (withoutBlock k c b blk) := by
  have hsampler : Vacates c b (heldSlices blk) k (sampleEnd (dropBlock k c b) c) := (vacates_dropBlock h).modCore fun _ => rfl
  exact (hsampler.dropRegion _).leaveBucket _

/-- The state in which a block has left and its launch counts it. -/
def retiredOnce (s : State) (c b : Nat) (blk : Block) (l : Launch) : State :=
  let k := withoutBlock s.kern c b blk
  { noteEmpty { s with kern := k } (bayOf c) with
    kern := { k with launches := mset k.launches blk.launch { l with retired := l.retired + 1 } } }

theorem retireBlock_eq {s : State} {c b : Nat} {blk : Block} {l : Launch} (hb : blockOf s.kern c b = some blk)
    (hl : mget s.kern.launches blk.launch = some l) :
    retireBlock s c b blk = checkVacated (if l.retired + 1 = l.total then
      endLaunch (retiredOnce s c b blk l) c blk.launch { l with retired := l.retired + 1 } else retiredOnce s c b blk l) blk.ctx := by
  have hkern := (noteEmpty_kern_fw { s with kern := withoutBlock s.kern c b blk } (bayOf c)).1
  have hlaunch : mget (withoutBlock s.kern c b blk).launches blk.launch = some l := by
    rw [(vacates_withoutBlock hb).launches, hl]
  unfold withoutBlock at hkern hlaunch
  simp only [retireBlock, hkern, hlaunch, beq_iff_eq, retiredOnce, withoutBlock]

/-- What checkVacated leaves: the cores, the launches, memory and the fields, and an event at which the arbiter is due. -/
theorem checkVacated_keeps (s : State) (ctx : Nat) :
    (checkVacated s ctx).kern.cores = s.kern.cores ∧ (checkVacated s ctx).kern.launches = s.kern.launches ∧
      (checkVacated s ctx).kern.mem = s.kern.mem ∧ (checkVacated s ctx).kern.fields = s.kern.fields ∧
      (s.pwr.due = true → (checkVacated s ctx).pwr.due = true) := by
  unfold checkVacated
  split
  · exact ⟨rfl, rfl, rfl, rfl, fun _ => rfl⟩
  · exact ⟨rfl, rfl, rfl, rfl, id⟩

theorem retirement : Claims.Retirement := by
  intro s c b blk l hb hl hquiet hout hexited hstate
  have hleft := vacates_withoutBlock hb
  have hexec : exec (.blockRetire c b) s = .next (retireBlock s c b blk) := by
    have hall : (blockThreads (coreOf s.kern c) b).all (fun t => t.loc == .exited) = true :=
      List.all_eq_true.mpr fun t ht => by
        obtain ⟨hmem, hblock⟩ := List.mem_filter.mp ht
        exact beq_iff_eq.mpr (hexited t hmem (beq_iff_eq.mp hblock))
    change execBlockRetire c b s = _
    simp only [execBlockRetire, hb, hquiet, hout, hall, bne_iff_ne.mpr hstate, Bool.and_self, if_true, answer]
  rw [retireBlock_eq hb hl] at hexec
  generalize ht : (if l.retired + 1 = l.total then
      endLaunch (retiredOnce s c b blk l) c blk.launch { l with retired := l.retired + 1 } else retiredOnce s c b blk l) = t at hexec
  obtain ⟨hcores, hlaunches, hmem, hfields, hdue⟩ := checkVacated_keeps t blk.ctx
  have htcores : t.kern.cores = (withoutBlock s.kern c b blk).cores := by
    rw [← ht]
    split
    · exact (endLaunch_ends ..).cores
    · rfl
  have hcore := coreOf_of_cores (hcores.trans htcores)
  refine ⟨_, hexec, ?_, fun u hu => ?_, ?_, fun d hd => ?_, fun d hd => ?_, fun hmore => ?_, fun hlast => ?_⟩
  · rw [blockOf, hcore, hleft.blocks, mget_mdel_same]
  · rw [hcore, hleft.threads] at hu
    obtain ⟨hmem, hblock⟩ := List.mem_filter.mp hu
    exact ⟨bne_iff_ne.mp hblock, hmem⟩
  · rw [hcore, hleft.slices]
    rfl
  · rw [blockOf, blockOf, hcore, hleft.blocks, mget_mdel_other _ hd]
  · rw [hcore, hleft.others d hd]
  · rw [if_neg hmore] at ht
    have htlaunches : t.kern.launches = mset (withoutBlock s.kern c b blk).launches blk.launch { l with retired := l.retired + 1 } := by
      rw [← ht]
      rfl
    have htmem : t.kern.mem = (withoutBlock s.kern c b blk).mem := by
      rw [← ht]
      rfl
    refine ⟨?_, fun a => seeByte_of_mem ((hmem.trans htmem).trans hleft.mem) a⟩
    rw [hlaunches, htlaunches, mget_mset_same]
  · rw [if_pos hlast] at ht
    have hends := endLaunch_ends (retiredOnce s c b blk l) c blk.launch { l with retired := l.retired + 1 }
    rw [ht] at hends
    refine ⟨?_, hdue (by rw [hends.pwr]), ?_⟩
    · rw [hlaunches, hends.launches, mget_mset_same]
    · rw [hfields, hends.fields, mget_mdel_same]

/-- Settles O41: a pull starts the next block in its room, a field all its bricks, and a block whose threads have exited leaves. -/
theorem blockEvents : Obligations.BlockEvents := ⟨dispatch, retirement⟩

end Sys2Proof.Proofs
end
